-- ==== Sys2Proof/Word.lean ====
section
/-! DEFINITION. The word types of the EK9 and their plainest arithmetic (R4, R28, R295). -/

namespace Sys2Proof

/-- A scalar register, a channel slot, a control register: 64 bits (R28, R53). -/
abbrev Word := BitVec 64

/-- One byte of memory. -/
abbrev Byte := BitVec 8

end Sys2Proof
end

