-- ==== Sys2Proof/Machine/Numbers.lean ====
section
/-! DEFINITION. Number formats and exact arithmetic of numeric behaviour version 1 (chapter 06): every value is exact
until the one rounding of Convert. -/

namespace Sys2Proof.Machine

/-- The floating-point formats of Table 6.1 (R128). -/
inductive Fmt
  | fp32 | fp16 | bf16 | e4m3 | e5m2 | e2m1
  deriving DecidableEq, Repr

/-- Exponent field width. -/
def Fmt.ebits : Fmt → Nat
  | .fp32 => 8 | .fp16 => 5 | .bf16 => 8 | .e4m3 => 4 | .e5m2 => 5 | .e2m1 => 2
/-- Fraction field width, p − 1. -/
def Fmt.fbits : Fmt → Nat
  | .fp32 => 23 | .fp16 => 10 | .bf16 => 7 | .e4m3 => 3 | .e5m2 => 2 | .e2m1 => 1
/-- Exponent bias. -/
def Fmt.bias : Fmt → Int
  | .fp32 => 127 | .fp16 => 15 | .bf16 => 127 | .e4m3 => 7 | .e5m2 => 15 | .e2m1 => 1
/-- Precision p. -/
def Fmt.p (f : Fmt) : Nat := f.fbits + 1
/-- Least exponent of a normal number. -/
def Fmt.emin (f : Fmt) : Int := 1 - f.bias
/-- The format has infinities (Table 6.2). -/
def Fmt.hasInf : Fmt → Bool
  | .e4m3 | .e2m1 => false
  | _ => true
/-- The canonical NaN (Table 6.2); E2M1 has none. -/
def Fmt.nan : Fmt → Nat
  | .fp32 => 0x7FC00000 | .fp16 => 0x7E00 | .bf16 => 0x7FC0 | .e4m3 => 0x7F | .e5m2 => 0x7E | .e2m1 => 0
/-- The code of the largest finite magnitude. -/
def Fmt.maxCode : Fmt → Nat
  | .fp32 => 0x7F7FFFFF | .fp16 => 0x7BFF | .bf16 => 0x7F7F | .e4m3 => 0x7E | .e5m2 => 0x7B | .e2m1 => 7
/-- The code of positive infinity, where the format has one. -/
def Fmt.infCode (f : Fmt) : Nat := (2 ^ f.ebits - 1) * 2 ^ f.fbits
/-- The sign bit. -/
def Fmt.signCode (f : Fmt) : Nat := 2 ^ (f.ebits + f.fbits)

/-- An exact value: NaN, an infinity, or ± num · 2^e with the sign of zero kept. -/
inductive FVal
  | nan
  | inf (neg : Bool)
  | fin (neg : Bool) (num : Nat) (e : Int)
  deriving DecidableEq, Repr

/-- The exception bits NV, DZ, OF, UF, NX (Table 6.7). -/
abbrev Flags := BitVec 5
def Flags.nv : Flags := 16
def Flags.dz : Flags := 8
def Flags.of : Flags := 4
def Flags.uf : Flags := 2
def Flags.nx : Flags := 1

/-- The value of a code (R128, R129). -/
def Fmt.decode (f : Fmt) (w : Nat) : FVal :=
  let neg := decide (w / f.signCode % 2 = 1)
  let x := w / 2 ^ f.fbits % 2 ^ f.ebits
  let m := w % 2 ^ f.fbits
  if f.hasInf && decide (x = 2 ^ f.ebits - 1) then (if m = 0 then .inf neg else .nan)
  else if f = .e4m3 ∧ w % 128 = 127 then .nan
  else if x = 0 then .fin neg m (f.emin - f.fbits)
  else .fin neg (2 ^ f.fbits + m) ((x : Int) - f.bias - f.fbits)

/-- num · 2^e in units of 2^qe, rounded to nearest, ties to even, and whether it was inexact (R137). -/
def roundUnits (num : Nat) (e qe : Int) : Nat × Bool :=
  if qe ≤ e then (num * 2 ^ (e - qe).toNat, false)
  else
    let s := (qe - e).toNat
    let q := num / 2 ^ s
    let r := num % 2 ^ s
    let half := 2 ^ (s - 1)
    let up := decide (r > half) || (decide (r = half) && decide (q % 2 = 1))
    (if up then q + 1 else q, decide (r ≠ 0))

/-- RoundRNE into `f` with an unbounded upper exponent: significand, exponent of its unit, inexact (R137). -/
def roundRNE (f : Fmt) (num : Nat) (e : Int) : Nat × Int × Bool :=
  let lg : Int := (Nat.log2 num : Int) + e
  let qe := max lg f.emin - f.fbits
  let (n, ix) := roundUnits num e qe
  (n, qe, ix)

/-- The code of magnitude n · 2^qe when it does not exceed the largest finite value. -/
def Fmt.encodeMag (f : Fmt) (n : Nat) (qe : Int) : Option Nat :=
  let (n, qe) := if 2 ^ f.p ≤ n then (n / 2, qe + 1) else (n, qe)
  let code := if n < 2 ^ f.fbits then n else (qe + f.fbits + f.bias).toNat * 2 ^ f.fbits + (n - 2 ^ f.fbits)
  if code ≤ f.maxCode then some code else none

/-- Convert(x, F, sat): the code and the flags raised (R138). -/
def convert (x : FVal) (f : Fmt) (sat : Bool) : Nat × Flags :=
  match x with
  | .nan => if f = .e2m1 then (0, Flags.nv) else (f.nan, 0)
  | .inf neg =>
    let sg := if neg then f.signCode else 0
    if f.hasInf then (sg + f.infCode, 0)
    else if f = .e4m3 ∧ sat = false then (f.nan, Flags.nv)
    else (sg + f.maxCode, Flags.nv)
  | .fin neg num e =>
    let sg := if neg then f.signCode else 0
    if num = 0 then (sg, 0)
    else
      let (n, qe, ix) := roundRNE f num e
      match f.encodeMag n qe with
      | none =>
        let fl := Flags.of ||| Flags.nx
        if f = .e4m3 then (if sat then (sg + f.maxCode, fl) else (f.nan, fl))
        else if f = .e2m1 then (sg + f.maxCode, fl)
        else (sg + f.infCode, fl)
      | some code =>
        let tiny := decide (code < 2 ^ f.fbits)
        (sg + code, if ix then (if tiny then Flags.uf ||| Flags.nx else Flags.nx) else 0)

/-- Product of exact values; 0 × ∞ is invalid (Table 6.6). -/
def FVal.mul (a b : FVal) : FVal × Flags :=
  match a, b with
  | .nan, _ | _, .nan => (.nan, 0)
  | .inf s, .inf t => (.inf (s != t), 0)
  | .inf s, .fin t n _ | .fin t n _, .inf s => if n = 0 then (.nan, Flags.nv) else (.inf (s != t), 0)
  | .fin s m e, .fin t n g => (.fin (s != t) (m * n) (e + g), 0)

/-- A signed integer times 2^e as a value; a zero takes the sign given. -/
def FVal.ofInt (x : Int) (e : Int) (zneg : Bool) : FVal :=
  if x = 0 then .fin zneg 0 0 else .fin (decide (x < 0)) x.natAbs e

/-- Numerator of a finite value in units of 2^g, for g at most its exponent. -/
def FVal.units (neg : Bool) (num : Nat) (e g : Int) : Int :=
  let n : Int := (num * 2 ^ (e - g).toNat : Nat)
  if neg then -n else n

/-- Sum of exact values: ∞ − ∞ is invalid; a zero sum is +0 unless both terms are −0 (Table 6.6). -/
def FVal.add (a b : FVal) : FVal × Flags :=
  match a, b with
  | .nan, _ | _, .nan => (.nan, 0)
  | .inf s, .inf t => if s = t then (.inf s, 0) else (.nan, Flags.nv)
  | .inf s, .fin _ _ _ | .fin _ _ _, .inf s => (.inf s, 0)
  | .fin s m e, .fin t n g =>
    let lo := min e g
    (FVal.ofInt (FVal.units s m e lo + FVal.units t n g lo) lo (s && t && decide (m = 0) && decide (n = 0)), 0)

/-- The negated value. -/
def FVal.neg : FVal → FVal
  | .nan => .nan
  | .inf s => .inf (!s)
  | .fin s m e => .fin (!s) m e

/-- Quotient with 64 further bits and a sticky bit: exact enough for one rounding in every format (R140). -/
def FVal.div (a b : FVal) : FVal × Flags :=
  match a, b with
  | .nan, _ | _, .nan => (.nan, 0)
  | .inf _, .inf _ => (.nan, Flags.nv)
  | .inf s, .fin t _ _ => (.inf (s != t), 0)
  | .fin s _ _, .inf t => (.fin (s != t) 0 0, 0)
  | .fin s m e, .fin t n g =>
    if n = 0 then (if m = 0 then (.nan, Flags.nv) else (.inf (s != t), Flags.dz))
    else if m = 0 then (.fin (s != t) 0 0, 0)
    else
      let sh := 64 + Nat.log2 n
      let num := m * 2 ^ sh
      (.fin (s != t) (num / n * 2 + (if num % n = 0 then 0 else 1)) (e - g - sh - 1), 0)

/-- Bits of the integer square root, from the bit `k − 1` down. -/
def isqrtBits : Nat → Nat → Nat → Nat
  | 0, _, r => r
  | k + 1, n, r => let r' := r + 2 ^ k; isqrtBits k n (if r' * r' ≤ n then r' else r)

/-- The integer square root. -/
def isqrt (n : Nat) : Nat := isqrtBits (Nat.log2 n / 2 + 1) n 0

/-- Square root with sticky bit (R140). -/
def FVal.sqrt (a : FVal) : FVal × Flags :=
  match a with
  | .nan => (.nan, 0)
  | .inf s => if s then (.nan, Flags.nv) else (.inf false, 0)
  | .fin s m e =>
    if m = 0 then (.fin s 0 0, 0)
    else if s then (.nan, Flags.nv)
    else
      let odd := (e % 2).toNat
      let n := m * 2 ^ (128 + odd)
      let r := isqrt n
      (.fin false (r * 2 + (if r * r = n then 0 else 1)) ((e - odd - 128) / 2 - 1), 0)

/-- Order of two values that are no NaN, −0 equal to +0: −1, 0 or 1. -/
def FVal.cmp (a b : FVal) : Int :=
  match a, b with
  | .nan, _ | _, .nan => 0
  | .inf s, .inf t => if s = t then 0 else if s then -1 else 1
  | .inf s, .fin _ _ _ => if s then -1 else 1
  | .fin _ _ _, .inf t => if t then 1 else -1
  | .fin s m e, .fin t n g =>
    let lo := min e g
    let x := FVal.units s m e lo
    let y := FVal.units t n g lo
    if x < y then -1 else if y < x then 1 else 0

/-- The value is a NaN. -/
def FVal.isNan : FVal → Bool
  | .nan => true
  | _ => false
/-- The sign of the value. -/
def FVal.isNeg : FVal → Bool
  | .nan => false
  | .inf s => s
  | .fin s _ _ => s
/-- The value is a NaN or an infinity. -/
def FVal.isSpecial : FVal → Bool
  | .fin _ _ _ => false
  | _ => true
/-- The value is zero. -/
def FVal.isZero : FVal → Bool
  | .fin _ n _ => decide (n = 0)
  | _ => false

/-- IEEE 754-2019 minimum: NaN wins, −0 below +0 (Table 6.6). -/
def FVal.min (a b : FVal) : FVal :=
  if a.isNan || b.isNan then .nan
  else
    let c := a.cmp b
    if c < 0 then a else if 0 < c then b else if a.isNeg then a else b
/-- IEEE 754-2019 maximum. -/
def FVal.max (a b : FVal) : FVal :=
  if a.isNan || b.isNan then .nan
  else
    let c := a.cmp b
    if c < 0 then b else if 0 < c then a else if a.isNeg then b else a

/-- ⌊log2 |x|⌋ of a finite nonzero value. -/
def FVal.log2 : FVal → Int
  | .fin _ n e => (Nat.log2 n : Int) + e
  | _ => 0

/-- The value scaled by 2^k. -/
def FVal.scale (a : FVal) (k : Int) : FVal :=
  match a with
  | .fin s n e => .fin s n (e + k)
  | v => v

/-- Rounding to an integer, and whether it was inexact (R137, R139). -/
def FVal.toInt (neg : Bool) (num : Nat) (e : Int) : Int × Bool :=
  let (n, ix) := roundUnits num e 0
  (if neg then -(n : Int) else n, ix)

/-- Floating point to an integer between `lo` and `hi` (R139). -/
def floatToInt (x : FVal) (lo hi : Int) : Int × Flags :=
  match x with
  | .nan => (0, Flags.nv)
  | .inf s => (if s then lo else hi, Flags.nv)
  | .fin s n e =>
    let (v, ix) := FVal.toInt s n e
    if v < lo then (lo, Flags.nv) else if hi < v then (hi, Flags.nv) else (v, if ix then Flags.nx else 0)

/-- E2M1 value of a code, as a format value. -/
def e2m1Value (c : Nat) : FVal := Fmt.decode .e2m1 (c % 16)

/-- The unsigned E2M2 magnitude of a codebook code, as an E4M3 code of the given sign (R131). -/
def cb2Code (c : Nat) (neg : Bool) : Nat :=
  let e := c / 4 % 4
  let f := c % 4
  let v : FVal := if e = 0 then .fin neg f (-2) else .fin neg (4 + f) ((e : Int) - 3)
  (convert v .e4m3 true).1

/-- XOR of the bits [7:1] of a CB2 word. -/
def cb2Parity (w : Nat) : Bool := (List.range 7).foldl (fun a j => a != decide (w / 2 ^ (j + 1) % 2 = 1)) false

/-- CB2.Decode: weight j of a word with its codebook entry (R131). -/
def cb2Weight (entry w j : Nat) : Nat :=
  let neg := if j < 7 then decide (w / 2 ^ (j + 1) % 2 = 1) else cb2Parity w
  cb2Code (entry / 16 ^ j % 16) neg

/-- MX.Decode: the code with its block scale, into format `t` (R142). -/
def mxDecode (v : FVal) (scale : Nat) (t : Fmt) : Nat × Flags :=
  if scale = 255 then (t.nan, 0) else convert (v.scale ((scale : Int) - 127)) t false

/-- Largest magnitude of a list of finite values, by exponent and size. -/
def maxMag (xs : List FVal) : FVal :=
  xs.foldl (fun a x => match x with
    | .fin _ n e => if (a.cmp (.fin false n e)) < 0 then .fin false n e else a
    | _ => a) (.fin false 0 0)

/-- MX.Quantise over a block: the active elements by position; gives the scale, the codes and the flags (R142). -/
def mxQuantise (xs : List (Nat × FVal)) : Nat × List (Nat × Nat) × Flags :=
  if xs.any (fun e => e.2.isSpecial) then (255, xs.map (fun e => (e.1, 0)), Flags.nv)
  else
    let amax := maxMag (xs.map (fun e => e.2))
    let se : Int := if amax.isZero then 0 else amax.log2 - 2
    let se := Min.min (Max.max se (-127)) 127
    let qs := xs.map fun e => (e.1, convert (e.2.scale (-se)) .e2m1 true)
    ((se + 127).toNat, qs.map (fun e => (e.1, e.2.1)), qs.foldl (fun a e => a ||| e.2.2) 0)

/-- Acc.Group: the accumulator and the group's exact products, with one rounding to FP32 (R144). A product is its value
and whether it is 0 × ∞. -/
def accGroup (acc : FVal) (q : List (FVal × Flags)) : Nat × Flags :=
  let terms := acc :: q.map (fun t => t.1)
  let inv := q.foldl (fun a t => a ||| t.2) 0
  if terms.any (fun t => t.isNan) then (Fmt.fp32.nan, inv)
  else if terms.any (fun t => t = .inf false) && terms.any (fun t => t = .inf true) then (Fmt.fp32.nan, Flags.nv)
  else if terms.any (fun t => t = .inf false) then (Fmt.fp32.infCode, 0)
  else if terms.any (fun t => t = .inf true) then (Fmt.fp32.signCode + Fmt.fp32.infCode, 0)
  else
    let s := terms.tail.foldl (fun a t => (a.add t).1) acc
    let s := if s.isZero then FVal.fin (terms.all (fun t => t.isZero && t.isNeg)) 0 0 else s
    convert s .fp32 false

/-- Two's-complement value of the low `w` bits. -/
def signedOf (w x : Nat) : Int := if x % 2 ^ w < 2 ^ (w - 1) then (x % 2 ^ w : Nat) else ((x % 2 ^ w : Nat) : Int) - 2 ^ w
/-- The low `w` bits of an integer. -/
def wrapInt (w : Nat) (x : Int) : Nat := (x % (2 ^ w : Nat)).toNat
/-- Sign-extension of the low `w` bits to 64 (R295). -/
def sext64 (w x : Nat) : Word := BitVec.ofInt 64 (signedOf w x)

/-- One byte into a bit-serial CRC of width `w`, most significant bit first. -/
def crcBit (w poly : Nat) (crc : Nat) (b : Bool) : Nat :=
  let top := decide (crc / 2 ^ (w - 1) % 2 = 1)
  let sh := crc * 2 % 2 ^ w
  if top != b then sh ^^^ poly else sh

/-- CRC-64 ECMA-182 over one byte, not reflected (R126). -/
def crc64Byte (crc : Nat) (byte : Nat) : Nat :=
  (List.range 8).foldl (fun c i => crcBit 64 0x42F0E1EBA9EA3693 c (decide (byte / 2 ^ (7 - i) % 2 = 1))) crc

/-- CRC-32 over one byte, reflected in and out: the register is kept unreflected, bits enter low first (R200). -/
def crc32Byte (crc : Nat) (byte : Nat) : Nat :=
  (List.range 8).foldl (fun c i => crcBit 32 0x04C11DB7 c (decide (byte / 2 ^ i % 2 = 1))) crc

/-- The bits of a number reversed. -/
def reflect (w x : Nat) : Nat := (List.range w).foldl (fun a i => a * 2 + x / 2 ^ i % 2) 0

/-- The CRC-32 of R200 over bytes given as numbers. -/
def crc32 (bytes : List Nat) : Nat := reflect 32 (bytes.foldl crc32Byte 0xFFFFFFFF) ^^^ 0xFFFFFFFF

end Sys2Proof.Machine
end

