-- ==== Sys2Proof/Config.lean ====
section
/-! DEFINITION. The capacities of the module (R3, R11, R13) and the free values: what the spec leaves open. A free value
is an opaque constant without a body, applied to a counter of the state that every drawing advances (log 1, log 2). -/

namespace Sys2Proof.Config

/-- Tiles of the package (R3, R8). -/
def tiles : Nat := 2048
/-- Resident contexts of a tile (R30). -/
def contexts : Nat := 32
/-- Entries of a tile's endpoint table (R11, R54). -/
def endpoints : Nat := 256
/-- Bytes of a tile's SRAM slice (R11, R13). -/
def sliceBytes : Nat := 0x100000
/-- Bytes of one pseudo-channel, 1.5 GiB (R13, R98). -/
def serverBytes : Nat := 0x60000000
/-- DRAM servers of the package (R3, R13). -/
def servers : Nat := 256
/-- Transmit lanes of the package (R3, R15). -/
def lanes : Nat := 2048
/-- Integrator cells of a tile (R11, R173). -/
def cells : Nat := 384
/-- Combining-buffer entries of a tile (R117). -/
def cbEntries : Nat := 16
/-- Bindings that one port queues (R92). -/
def portDepth : Nat := 8
/-- Cycles after which a lane grant takes effect (R47). -/
def grantDelay : Nat := 64

/-- FREE VALUE (log 1): further cycles that an unstated latency takes, by the drawing's number (R434). -/
opaque delay : Nat → Nat
/-- FREE VALUE (log 8): a byte read under a key other than the one it was written under (R259), by the key epoch of the
byte, the epoch of the key that reads it, and its address. -/
opaque otherKeyByte : Nat → Nat → Nat → BitVec 8
/-- FREE VALUE (log 9): which way of a full bank of the TLB is replaced (R99). -/
opaque tlbVictim : Nat → Nat
/-- FREE VALUE (log 10): whether a bit cell of a unit keeps the old owner's bits after its owner's EXIT or reads zero
(R242), by the drawing's number and the cell. -/
opaque exitKeeps : Nat → Nat → Bool
/-- FREE VALUE (log 11): whether a write in flight when a kill meets it is performed rather than dropped (R248). -/
opaque killPerforms : Nat → Bool
/-- FREE VALUE (log 12): the AES-256-GCM tag of a group, from the key, the IV, and the group's flits as numbers, header in
bits [31:0] and ciphertext above (R257 names the transform and does not give it). -/
opaque gcmTag : BitVec 256 → BitVec 96 → List Nat → BitVec 128
/-- FREE VALUE (log 12): what AES-256-GCM adds modulo 2 to the payload of a flit of a group, from the key, the IV, and the
flit's place in the group. -/
opaque gcmStream : BitVec 256 → BitVec 96 → Nat → BitVec 512
/-- FREE VALUE (log 13): whether a tile's router refuses an injection in a cycle, counted by monitor selector 0x05 (R50). -/
opaque injectionRefused : Nat → Bool
/-- FREE VALUE (log 86): whether the coolant flow suffices when the module is reset (R269, R271). -/
opaque coolantFlows : Nat → Bool
/-- FREE VALUE (log 84): the tile power estimate in mW by tile and cycle, the hot-spot temperature of a die in 0.125 °C, the module's input
power in W (Table 2.7). -/
opaque tilePower : Nat → Nat → Nat
opaque hotSpot : Nat → Nat → Nat
opaque modulePower : Nat → Nat
/-- FREE VALUE (log 14): one step of an arbiter's 64-bit linear feedback shifter, whose taps are not stated (R125). -/
opaque shifter : BitVec 64 → BitVec 64
/-- FREE VALUE (log 14): an arbiter's choice: under a nonzero seed from its generator, in ordinary arbitration from 0 and the drawing's
number (R64, R125). -/
opaque arbiter : BitVec 64 → Nat → Nat
/-- FREE VALUE (log 46): the increment that the reserved code 0b10 of a loaded image stands for, one of 0, 1, 2 less one, by
its place in the image (R184, R196). -/
opaque reservedInc : Nat → Fin 3
/-- FREE VALUE (log 81): what a byte of a channel's run in the buffer area holds once the run has carried slots: where in the run a
slot lies is not stated (R55). -/
opaque queueByte : Nat → Nat → BitVec 8
/-- FREE VALUE (log 42): the bytes at 0x800 to 0xBFF of a control block with saved stream bindings, whose layout is not stated (R267). -/
opaque bindingByte : Nat → Nat → BitVec 8
/-- FREE VALUE (log 15): bytes of a destination page after an aborted migration (R101). -/
opaque abortedPageByte : Nat → Nat → BitVec 8

end Sys2Proof.Config
end

