-- ==== Sys2Proof/Machine/Table.lean ====
section
/-! DEFINITION. Sparse tables: lists of key and value pairs with strictly rising keys. A table with a default value lists
no entry equal to that default, so equal tables are equal lists. Memory, register files and banks are such tables. -/

namespace Sys2Proof.Machine

/-- A table: keys strictly rising. -/
abbrev Tab (α : Type) := List (Nat × α)

/-- The entry at key `k`, if any. -/
def Tab.look {α : Type} : Tab α → Nat → Option α
  | [], _ => none
  | (j, v) :: t, k => if j = k then some v else Tab.look t k

/-- The entry at key `k`, or `d`. -/
def Tab.lookD {α : Type} (t : Tab α) (k : Nat) (d : α) : α := (Tab.look t k).getD d

/-- Insert or replace the entry at `k`, keeping the keys rising. -/
def Tab.put {α : Type} : Tab α → Nat → α → Tab α
  | [], k, v => [(k, v)]
  | (j, w) :: t, k, v => if k < j then (k, v) :: (j, w) :: t else if k = j then (k, v) :: t else (j, w) :: Tab.put t k v

/-- Remove the entry at `k`. -/
def Tab.cut {α : Type} : Tab α → Nat → Tab α
  | [], _ => []
  | (j, w) :: t, k => if j = k then Tab.cut t k else (j, w) :: Tab.cut t k

/-- Store `v` at `k` in a table whose unlisted keys read as `d`: the default is never listed. -/
def Tab.store {α : Type} [DecidableEq α] (t : Tab α) (k : Nat) (v d : α) : Tab α :=
  if v = d then Tab.cut t k else Tab.put t k v

/-- Every key of a table lies at or above `n`, and the keys rise strictly. -/
def Tab.sortedFrom {α : Type} (n : Nat) : Tab α → Bool
  | [] => true
  | (k, _) :: t => decide (n ≤ k) && Tab.sortedFrom (k + 1) t

/-- The canonical form of a table with default `d`: rising keys, and no entry equal to the default. -/
def Tab.canonical {α : Type} [DecidableEq α] (d : α) (t : Tab α) : Bool :=
  Tab.sortedFrom 0 t && t.all fun e => decide (e.2 ≠ d)

/-- Apply `f` to every entry. -/
def Tab.mapV {α : Type} (f : Nat → α → α) (t : Tab α) : Tab α := t.map fun e => (e.1, f e.1 e.2)

/-- Keep the entries that satisfy `f`. -/
def Tab.keep {α : Type} (f : Nat → α → Bool) (t : Tab α) : Tab α := t.filter fun e => f e.1 e.2

/-- Apply `f` to the entry at `k`, if there is one. -/
def Tab.upd {α : Type} (t : Tab α) (k : Nat) (f : α → α) : Tab α :=
  match Tab.look t k with
  | some v => Tab.put t k (f v)
  | none => t

end Sys2Proof.Machine
end

