-- ==== Sys2Proof/Syntax.lean ====
section
/-! DEFINITION. The operations and events of the EK9: one constructor for each row of spec/opcode_table.json.
174 are the instructions that have a 32-bit word (R272 to R287), 100 the steps that have none. The compiler builds a
constructor with fields only among the first 245 of a type: the steps that come from outside the module, which no definition
builds, and the constructors without a field stand last. -/

namespace Sys2Proof

/-- Access size of LD and ST, field [15:14] (R277). -/
inductive Size
  | b | h | w | d
  deriving DecidableEq, Repr

/-- Access size of an atomic, field [10:9] = 2 or 3 (R118). -/
inductive ASize
  | w | d
  deriving DecidableEq, Repr

/-- FENCE scope, Table 5.1 (R109). -/
inductive Scope
  | tile | die | package | system
  deriving DecidableEq, Repr

/-- The replicate modifier of format V, bits [10:8] (R160). -/
inductive Rep
  | none | rep1 | rep4 | rep16 | rep64
  deriving DecidableEq, Repr

/-- Conditions of VCMP (R388). -/
inductive ICond
  | eq | ne | lt | ge | ltu | geu
  deriving DecidableEq, Repr

/-- Conditions of VFCMP (R392). -/
inductive FCond
  | eq | ne | lt | le | un
  deriving DecidableEq, Repr

/-- Functions of VMLOG (R403). -/
inductive MOp
  | and | or | xor | andn | orn | nand | nor | xnor
  deriving DecidableEq, Repr

/-- Kinds of VFCVT (R283, R393). -/
inductive CvtKind
  | ftoi | ftou | itof | utof | rbf16 | rfp16 | re4m3 | re5m2 | re2m1 | widen | narrow
  deriving DecidableEq, Repr

/-- Element types of a Sinter reduction, Table 9.11 (R222). -/
inductive SType
  | f32 | bf16 | i32
  deriving DecidableEq, Repr

/-- Operations of a Sinter reduction, Table 9.11 (R222). -/
inductive SOp
  | sum | min | max
  deriving DecidableEq, Repr

/-- The control registers of Table 12.14 (R287). -/
inductive Csr
  | vl | vs | vt | vmsel | mt | peer | mstep | nbv | fflags | cflags | lpart | pid | cycle
  | status | epc | cause | frec | tvec | stimeo | tsh (n : BitVec 3)
  | seeda | seedb | tlbi | sdesc | resume | pswap | pset | hepset | pcap
  deriving DecidableEq, Repr

/-- The units of an ERROR record (R249, R252). -/
inductive ErrUnit
  | cluster | sram | hbm | meshLink | opticalLane
  deriving DecidableEq, Repr

/-- One constructor for each row of the opcode table; the docstring gives the mnemonic and the rule. -/
inductive Instr
  /-- ADD (R300). -/
  | add (d : BitVec 5) (a : BitVec 5) (b : BitVec 5)
  /-- SUB (R376). -/
  | sub (d : BitVec 5) (a : BitVec 5) (b : BitVec 5)
  /-- MUL (R356). -/
  | mul (d : BitVec 5) (a : BitVec 5) (b : BitVec 5)
  /-- MULH (R356). -/
  | mulh (d : BitVec 5) (a : BitVec 5) (b : BitVec 5)
  /-- MULHU (R356). -/
  | mulhu (d : BitVec 5) (a : BitVec 5) (b : BitVec 5)
  /-- DIV (R328). -/
  | div (d : BitVec 5) (a : BitVec 5) (b : BitVec 5)
  /-- DIVU (R328). -/
  | divu (d : BitVec 5) (a : BitVec 5) (b : BitVec 5)
  /-- REM (R361). -/
  | rem (d : BitVec 5) (a : BitVec 5) (b : BitVec 5)
  /-- REMU (R361). -/
  | remu (d : BitVec 5) (a : BitVec 5) (b : BitVec 5)
  /-- AND (R300). -/
  | and (d : BitVec 5) (a : BitVec 5) (b : BitVec 5)
  /-- OR (R357). -/
  | or (d : BitVec 5) (a : BitVec 5) (b : BitVec 5)
  /-- XOR (R415). -/
  | xor (d : BitVec 5) (a : BitVec 5) (b : BitVec 5)
  /-- SLL (R371). -/
  | sll (d : BitVec 5) (a : BitVec 5) (b : BitVec 5)
  /-- SRL (R371). -/
  | srl (d : BitVec 5) (a : BitVec 5) (b : BitVec 5)
  /-- SRA (R371). -/
  | sra (d : BitVec 5) (a : BitVec 5) (b : BitVec 5)
  /-- SLT (R371). -/
  | slt (d : BitVec 5) (a : BitVec 5) (b : BitVec 5)
  /-- SLTU (R371). -/
  | sltu (d : BitVec 5) (a : BitVec 5) (b : BitVec 5)
  /-- MIN (R346). -/
  | min (d : BitVec 5) (a : BitVec 5) (b : BitVec 5)
  /-- MAX (R346). -/
  | max (d : BitVec 5) (a : BitVec 5) (b : BitVec 5)
  /-- CLZ (R314). -/
  | clz (d : BitVec 5) (a : BitVec 5)
  /-- POPC (R359). -/
  | popc (d : BitVec 5) (a : BitVec 5)
  /-- ADDI (R300). -/
  | addi (d : BitVec 5) (a : BitVec 5) (i : BitVec 16)
  /-- ANDI (R300). -/
  | andi (d : BitVec 5) (a : BitVec 5) (i : BitVec 16)
  /-- ORI (R357). -/
  | ori (d : BitVec 5) (a : BitVec 5) (i : BitVec 16)
  /-- XORI (R415). -/
  | xori (d : BitVec 5) (a : BitVec 5) (i : BitVec 16)
  /-- SLTI (R371). -/
  | slti (d : BitVec 5) (a : BitVec 5) (i : BitVec 16)
  /-- SLLI (R371). -/
  | slli (d : BitVec 5) (a : BitVec 5) (h : BitVec 6)
  /-- SRLI (R371). -/
  | srli (d : BitVec 5) (a : BitVec 5) (h : BitVec 6)
  /-- SRAI (R371). -/
  | srai (d : BitVec 5) (a : BitVec 5) (h : BitVec 6)
  /-- LUI (R345). -/
  | lui (d : BitVec 5) (i : BitVec 16)
  /-- AUIPC (R301). -/
  | auipc (d : BitVec 5) (i : BitVec 16)
  /-- LD (R342). -/
  | ld (d : BitVec 5) (a : BitVec 5) (z : Size) (i : BitVec 14)
  /-- ST (R373). -/
  | st (d : BitVec 5) (a : BitVec 5) (z : Size) (i : BitVec 14)
  /-- BEQ (R302). -/
  | beq (x : BitVec 5) (y : BitVec 5) (o : BitVec 13)
  /-- BNE (R302). -/
  | bne (x : BitVec 5) (y : BitVec 5) (o : BitVec 13)
  /-- BLT (R302). -/
  | blt (x : BitVec 5) (y : BitVec 5) (o : BitVec 13)
  /-- BGE (R302). -/
  | bge (x : BitVec 5) (y : BitVec 5) (o : BitVec 13)
  /-- BLTU (R302). -/
  | bltu (x : BitVec 5) (y : BitVec 5) (o : BitVec 13)
  /-- BGEU (R302). -/
  | bgeu (x : BitVec 5) (y : BitVec 5) (o : BitVec 13)
  /-- BEOS (R304). -/
  | beos (o : BitVec 13)
  /-- JAL (R336). -/
  | jal (d : BitVec 5) (o : BitVec 21)
  /-- JALR (R280). -/
  | jalr (d : BitVec 5) (a : BitVec 5) (i : BitVec 16)
  /-- VLD (R397). -/
  | vld (d : BitVec 5) (a : BitVec 5)
  /-- VLDS (R397). -/
  | vlds (d : BitVec 5) (a : BitVec 5)
  /-- VLDX (R397). -/
  | vldx (d : BitVec 5) (a : BitVec 5) (b : BitVec 5)
  /-- VLDSEG (R400). -/
  | vldseg (d : BitVec 5) (a : BitVec 5)
  /-- VST (R410). -/
  | vst (d : BitVec 5) (a : BitVec 5)
  /-- VSTS (R410). -/
  | vsts (d : BitVec 5) (a : BitVec 5)
  /-- VSTX (R410). -/
  | vstx (d : BitVec 5) (a : BitVec 5) (b : BitVec 5)
  /-- VSTSEG (R161). -/
  | vstseg (d : BitVec 5) (a : BitVec 5)
  /-- VADD (R387). -/
  | vadd (d : BitVec 5) (a : BitVec 5) (b : BitVec 5) (r : Rep)
  /-- VSUB (R401). -/
  | vsub (d : BitVec 5) (a : BitVec 5) (b : BitVec 5) (r : Rep)
  /-- VMUL (R401). -/
  | vmul (d : BitVec 5) (a : BitVec 5) (b : BitVec 5) (r : Rep)
  /-- VMULH (R401). -/
  | vmulh (d : BitVec 5) (a : BitVec 5) (b : BitVec 5) (r : Rep)
  /-- VMADD (R401). -/
  | vmadd (d : BitVec 5) (a : BitVec 5) (b : BitVec 5) (r : Rep)
  /-- VAND (R387). -/
  | vand (d : BitVec 5) (a : BitVec 5) (b : BitVec 5) (r : Rep)
  /-- VOR (R401). -/
  | vor (d : BitVec 5) (a : BitVec 5) (b : BitVec 5) (r : Rep)
  /-- VXOR (R401). -/
  | vxor (d : BitVec 5) (a : BitVec 5) (b : BitVec 5) (r : Rep)
  /-- VSLL (R401). -/
  | vsll (d : BitVec 5) (a : BitVec 5) (b : BitVec 5) (r : Rep)
  /-- VSRL (R401). -/
  | vsrl (d : BitVec 5) (a : BitVec 5) (b : BitVec 5) (r : Rep)
  /-- VSRA (R401). -/
  | vsra (d : BitVec 5) (a : BitVec 5) (b : BitVec 5) (r : Rep)
  /-- VMIN (R401). -/
  | vmin (d : BitVec 5) (a : BitVec 5) (b : BitVec 5) (r : Rep)
  /-- VMAX (R401). -/
  | vmax (d : BitVec 5) (a : BitVec 5) (b : BitVec 5) (r : Rep)
  /-- VMINU (R401). -/
  | vminu (d : BitVec 5) (a : BitVec 5) (b : BitVec 5) (r : Rep)
  /-- VMAXU (R401). -/
  | vmaxu (d : BitVec 5) (a : BitVec 5) (b : BitVec 5) (r : Rep)
  /-- VSADD (R401). -/
  | vsadd (d : BitVec 5) (a : BitVec 5) (b : BitVec 5) (r : Rep)
  /-- VSSUB (R401). -/
  | vssub (d : BitVec 5) (a : BitVec 5) (b : BitVec 5) (r : Rep)
  /-- VABS (R387). -/
  | vabs (d : BitVec 5) (a : BitVec 5)
  /-- VFADD (R391). -/
  | vfadd (d : BitVec 5) (a : BitVec 5) (b : BitVec 5) (r : Rep)
  /-- VFSUB (R391). -/
  | vfsub (d : BitVec 5) (a : BitVec 5) (b : BitVec 5) (r : Rep)
  /-- VFMUL (R391). -/
  | vfmul (d : BitVec 5) (a : BitVec 5) (b : BitVec 5) (r : Rep)
  /-- VFMA (R391). -/
  | vfma (d : BitVec 5) (a : BitVec 5) (b : BitVec 5) (r : Rep)
  /-- VFNMA (R391). -/
  | vfnma (d : BitVec 5) (a : BitVec 5) (b : BitVec 5) (r : Rep)
  /-- VFDIV (R391). -/
  | vfdiv (d : BitVec 5) (a : BitVec 5) (b : BitVec 5) (r : Rep)
  /-- VFSQRT (R391). -/
  | vfsqrt (d : BitVec 5) (a : BitVec 5)
  /-- VFMIN (R391). -/
  | vfmin (d : BitVec 5) (a : BitVec 5) (b : BitVec 5) (r : Rep)
  /-- VFMAX (R391). -/
  | vfmax (d : BitVec 5) (a : BitVec 5) (b : BitVec 5) (r : Rep)
  /-- VFSGN (R391). -/
  | vfsgn (d : BitVec 5) (a : BitVec 5) (b : BitVec 5) (r : Rep)
  /-- VFCVT (R393). -/
  | vfcvt (d : BitVec 5) (a : BitVec 5) (k : CvtKind)
  /-- VFCVT_SAT (R393). -/
  | vfcvtSat (d : BitVec 5) (a : BitVec 5)
  /-- VCMP (R388). -/
  | vcmp (d : BitVec 3) (a : BitVec 5) (b : BitVec 5) (r : Rep) (c : ICond)
  /-- VFCMP (R392). -/
  | vfcmp (d : BitVec 3) (a : BitVec 5) (b : BitVec 5) (r : Rep) (c : FCond)
  /-- VMLOG (R403). -/
  | vmlog (d : BitVec 3) (a : BitVec 3) (b : BitVec 3) (o : MOp)
  /-- VMPOP (R403). -/
  | vmpop (d : BitVec 5) (a : BitVec 3)
  /-- VMFIRST (R403). -/
  | vmfirst (d : BitVec 5) (a : BitVec 3)
  /-- VMERGE (R402). -/
  | vmerge (d : BitVec 5) (a : BitVec 5) (b : BitVec 5) (r : Rep)
  /-- VCOMPRESS (R389). -/
  | vcompress (d : BitVec 5) (a : BitVec 5)
  /-- VEXPAND (R390). -/
  | vexpand (d : BitVec 5) (a : BitVec 5)
  /-- VIOTA (R396). -/
  | viota (d : BitVec 5) (a : BitVec 3)
  /-- VSLIDEUP (R409). -/
  | vslideup (d : BitVec 5) (a : BitVec 5) (b : BitVec 5)
  /-- VSLIDEDN (R409). -/
  | vslidedn (d : BitVec 5) (a : BitVec 5) (b : BitVec 5)
  /-- VPERM (R405). -/
  | vperm (d : BitVec 5) (a : BitVec 5) (b : BitVec 5) (r : Rep)
  /-- VMV (R404). -/
  | vmv (d : BitVec 5) (a : BitVec 5)
  /-- VMVSV (R404). -/
  | vmvsv (d : BitVec 5) (a : BitVec 5)
  /-- VMVVS (R404). -/
  | vmvvs (d : BitVec 5) (a : BitVec 5) (b : BitVec 5)
  /-- VREDSUM (R408). -/
  | vredsum (d : BitVec 5) (a : BitVec 5) (b : BitVec 5)
  /-- VREDMIN (R408). -/
  | vredmin (d : BitVec 5) (a : BitVec 5) (b : BitVec 5)
  /-- VREDMAX (R408). -/
  | vredmax (d : BitVec 5) (a : BitVec 5) (b : BitVec 5)
  /-- VFREDSUM (R395). -/
  | vfredsum (d : BitVec 5) (a : BitVec 5) (b : BitVec 5)
  /-- VFREDMIN (R395). -/
  | vfredmin (d : BitVec 5) (a : BitVec 5) (b : BitVec 5)
  /-- VFREDMAX (R395). -/
  | vfredmax (d : BitVec 5) (a : BitVec 5) (b : BitVec 5)
  /-- CPUSH (R317). -/
  | cpush (d : BitVec 5) (c : BitVec 4) (m : BitVec 5)
  /-- CPOP (R316). -/
  | cpop (d : BitVec 5) (c : BitVec 4) (m : BitVec 5)
  /-- CPEEK (R315). -/
  | cpeek (d : BitVec 5) (c : BitVec 4) (b : BitVec 5)
  /-- CADV (R307). -/
  | cadv (c : BitVec 4) (b : BitVec 5)
  /-- CCLOSE (R313). -/
  | cclose (c : BitVec 4)
  /-- CBIND (R308). -/
  | cbind (d : BitVec 5) (c : BitVec 4) (b : BitVec 5)
  /-- CBIND_MOVE (R69). -/
  | cbindMove (d : BitVec 5) (c : BitVec 4) (b : BitVec 5)
  /-- CUNBIND (R321). -/
  | cunbind (c : BitVec 4)
  /-- VPUSH (R406). -/
  | vpush (d : BitVec 5) (c : BitVec 4) (m : BitVec 5)
  /-- VPOP (R406). -/
  | vpop (d : BitVec 5) (c : BitVec 4)
  /-- SCOPY (R363). -/
  | scopy (d : BitVec 5) (a : BitVec 5) (p : BitVec 3)
  /-- SGATHER (R369). -/
  | sgather (d : BitVec 5) (a : BitVec 5) (b : BitVec 5) (p : BitVec 3) (m : BitVec 3)
  /-- SBAR (R362). -/
  | sbar (p : BitVec 8)
  /-- KDERIVE (R337). -/
  | kderive (d : BitVec 3) (a : BitVec 3) (b : BitVec 5) (p : BitVec 6)
  /-- KLD (R340). -/
  | kld (d : BitVec 3) (a : BitVec 5)
  /-- KST (R340). -/
  | kst (d : BitVec 3) (a : BitVec 5)
  /-- KSEND (R341). -/
  | ksend (d : BitVec 3) (c : BitVec 4)
  /-- KRECV (R341). -/
  | krecv (d : BitVec 3) (c : BitVec 4)
  /-- AADD (R297). -/
  | aadd (a : BitVec 5) (b : BitVec 5) (z : ASize)
  /-- AMIN (R297). -/
  | amin (a : BitVec 5) (b : BitVec 5) (z : ASize)
  /-- AMAX (R297). -/
  | amax (a : BitVec 5) (b : BitVec 5) (z : ASize)
  /-- AAND (R297). -/
  | aand (a : BitVec 5) (b : BitVec 5) (z : ASize)
  /-- AOR (R297). -/
  | aor (a : BitVec 5) (b : BitVec 5) (z : ASize)
  /-- AXADD (R297). -/
  | axadd (d : BitVec 5) (a : BitVec 5) (b : BitVec 5) (z : ASize)
  /-- AXCHG (R297). -/
  | axchg (d : BitVec 5) (a : BitVec 5) (b : BitVec 5) (z : ASize)
  /-- ACAS (R297). -/
  | acas (d : BitVec 5) (a : BitVec 5) (b : BitVec 5) (z : ASize)
  /-- FENCE (R334). -/
  | fence (s : Scope)
  /-- SPAWN (R372). -/
  | spawn (d : BitVec 5) (a : BitVec 5)
  /-- PRIO (R360). -/
  | prio (d : BitVec 5) (a : BitVec 5)
  /-- SETVL (R367). -/
  | setvl (d : BitVec 5) (a : BitVec 5)
  /-- SETVS (R368). -/
  | setvs (a : BitVec 5)
  /-- SETVT (R368). -/
  | setvt (a : BitVec 5)
  /-- SETMT (R368). -/
  | setmt (a : BitVec 5)
  /-- SETPEER (R368). -/
  | setpeer (a : BitVec 5)
  /-- CBTLD (R311). -/
  | cbtld (a : BitVec 5)
  /-- TCFG (R378). -/
  | tcfg (d : BitVec 3) (a : BitVec 5)
  /-- MOPA (R355). -/
  | mopa (d : BitVec 3) (a : BitVec 5) (b : BitVec 5)
  /-- MMA (R349). -/
  | mma (d : BitVec 3) (a : BitVec 3) (b : BitVec 3)
  /-- MMAS (R350). -/
  | mmas (d : BitVec 3) (a : BitVec 3) (b : BitVec 3) (x : BitVec 5) (y : BitVec 5)
  /-- MMASP (R351). -/
  | mmasp (d : BitVec 3) (a : BitVec 3) (b : BitVec 3) (m : BitVec 3)
  /-- TLD (R379). -/
  | tld (d : BitVec 3) (a : BitVec 5)
  /-- TST (R383). -/
  | tst (d : BitVec 3) (a : BitVec 5)
  /-- TZERO (R384). -/
  | tzero (d : BitVec 3)
  /-- TMVV (R381). -/
  | tmvv (d : BitVec 5) (a : BitVec 3) (b : BitVec 5)
  /-- TMVT (R381). -/
  | tmvt (d : BitVec 3) (a : BitVec 5) (b : BitVec 5)
  /-- PATCH (R358). -/
  | patch (a : BitVec 5) (b : BitVec 5)
  /-- DCFG (R325). -/
  | dcfg (n : BitVec 3) (a : BitVec 5)
  /-- DSET (R330). -/
  | dset (a : BitVec 5) (b : BitVec 5)
  /-- DGET (R326). -/
  | dget (d : BitVec 5) (a : BitVec 5)
  /-- DSTEP (R331). -/
  | dstep (n : BitVec 3) (a : BitVec 5)
  /-- DRUN (R327). -/
  | drun (a : BitVec 5)
  /-- DHALT (R327). -/
  | dhalt (a : BitVec 5)
  /-- DSAVE (R329). -/
  | dsave (a : BitVec 5)
  /-- DLOAD (R329). -/
  | dload (a : BitVec 5)
  /-- DBIND (R324). -/
  | dbind (a : BitVec 5) (c : BitVec 4)
  /-- LEASE (R214). -/
  | lease (d : BitVec 5) (a : BitVec 5) (b : BitVec 5)
  /-- LREVOKE (R216). -/
  | lrevoke (d : BitVec 5) (a : BitVec 5) (b : BitVec 5)
  /-- LQUERY (R217). -/
  | lquery (d : BitVec 5) (a : BitVec 5)
  /-- VTREE (R223). -/
  | vtree (a : BitVec 5) (b : BitVec 5) (t : SType) (o : SOp)
  /-- VTREEW (R223). -/
  | vtreew (d : BitVec 5) (a : BitVec 5) (t : SType) (o : SOp)
  /-- CSRR (R319). -/
  | csrr (d : BitVec 5) (n : Csr)
  /-- CSRW (R320). -/
  | csrw (a : BitVec 5) (n : Csr)
  /-- TRAP (R382). -/
  | trap (c : BitVec 12)
  /-- KILL (R339). -/
  | kill (d : BitVec 5) (a : BitVec 5)
  /-- KEYSET (R259). -/
  | keyset (d : BitVec 5) (a : BitVec 5)
  /-- KEYREV (R260). -/
  | keyrev (d : BitVec 5) (a : BitVec 5)
  /-- MONBIND (R352). -/
  | monbind (n : BitVec 4) (a : BitVec 5) (b : BitVec 5)
  /-- LANE_GRANT_EFFECT (R47). -/
  | laneGrantEffect (tile : Nat) (h : Nat)
  /-- RESERVED_GRANT (R45). -/
  | reservedGrant (tile : Nat) (h : Nat)
  /-- CHILD_RELEASE (R372). -/
  | childRelease (h : Nat)
  /-- NETWORK_LAUNCH (R266). -/
  | networkLaunch (part : Nat)
  /-- LOADER_END_REPLY (R266). -/
  | loaderEndReply (part : Nat) (net : Nat)
  /-- CHECK_RUN_B (R124). -/
  | checkRunB (part : Nat) (net : Nat)
  /-- CHECK_COMPARE (R127). -/
  | checkCompare (part : Nat) (net : Nat)
  /-- WRITER_REGISTRATION (R309). -/
  | writerRegistration (wid : Nat)
  /-- SHORTFALL_REQUEST (R56). -/
  | shortfallRequest (wid : Nat)
  /-- CREDIT_RECALL (R56). -/
  | creditRecall (wid : Nat)
  /-- CREDIT_RETURN (R434). -/
  | creditReturn (wid : Nat)
  /-- CHANNEL_MESSAGE_ARRIVE (R64). -/
  | channelMessageArrive (wid : Nat)
  /-- RETARGET_NOTICE (R69). -/
  | retargetNotice (mv : Nat) (wid : Nat)
  /-- RETARGET_ACK (R69). -/
  | retargetAck (mv : Nat) (wid : Nat)
  /-- DRAM_READ (R70). -/
  | dramRead (srv : Nat) (wid : Nat)
  /-- DRAM_WRITE (R70). -/
  | dramWrite (srv : Nat) (wid : Nat)
  /-- DRAM_BAD_REQUEST (R71). -/
  | dramBadRequest (srv : Nat) (wid : Nat)
  /-- MEMPIPE_READ (R419). -/
  | mempipeRead (id : Nat)
  /-- MEMPIPE_WRITE (R419). -/
  | mempipeWrite (id : Nat)
  /-- DRAM_ATOMIC (R120). -/
  | dramAtomic (id : Nat)
  /-- GLOBAL_SRAM_ACCESS (R81). -/
  | globalSramAccess (id : Nat)
  /-- MEMORY_REPLY (R97). -/
  | memoryReply (id : Nat)
  /-- CB_IDLE_DRAIN (R117). -/
  | cbIdleDrain (tile : Nat) (entry : Nat)
  /-- HELD_BINDING_ENQUEUE (R92). -/
  | heldBindingEnqueue (h : Nat) (port : Nat)
  /-- STREAM_START (R92). -/
  | streamStart (tile : Nat) (port : Nat)
  /-- STREAM_SECTOR (R93). -/
  | streamSector (tile : Nat) (port : Nat)
  /-- STREAM_COMPLETE (R94). -/
  | streamComplete (tile : Nat) (port : Nat)
  /-- MATRIX_STEP_GROUP (R166). -/
  | matrixStepGroup (h : Nat)
  /-- DIV_PHASE_ZERO (R179). -/
  | divPhaseZero (tile : Nat) (dom : Nat)
  /-- DOMAIN_TICK (R174). -/
  | domainTick (tile : Nat) (dom : Nat)
  /-- PORT_TAKE_SLOT (R185). -/
  | portTakeSlot (tile : Nat) (port : Nat)
  /-- TAP_CREDIT_PUSH (R186). -/
  | tapCreditPush (tile : Nat) (tap : Nat)
  /-- MONITOR_FIRE (R51). -/
  | monitorFire (tile : Nat) (wid : Nat)
  /-- MONITOR_PENDING_PUSH (R51). -/
  | monitorPendingPush (tile : Nat) (wid : Nat)
  /-- FUMAROLE_SWEEP_START (R75). -/
  | fumaroleSweepStart (part : Nat)
  /-- FUMAROLE_SWEEP_DONE (R75). -/
  | fumaroleSweepDone (part : Nat)
  /-- FAULT_RECORD_PUSH (R233). -/
  | faultRecordPush (tile : Nat)
  /-- ACK_TIMER (R201). -/
  | ackTimer (part : Nat) (peer : Nat)
  /-- GAP_TIMEOUT (R201). -/
  | gapTimeout (part : Nat) (peer : Nat)
  /-- CRC_THRESHOLD (R202). -/
  | crcThreshold (lane : Nat)
  /-- RETRAIN (R207). -/
  | retrain (part : Nat) (peer : Nat)
  /-- OFFER_TIMEOUT (R212). -/
  | offerTimeout (lane : Nat)
  /-- TRAINING_TIMEOUT (R212). -/
  | trainingTimeout (lane : Nat)
  /-- LANE_DRAIN_END (R212). -/
  | laneDrainEnd (lane : Nat)
  /-- STARVATION_REVOKE (R215). -/
  | starvationRevoke (part : Nat) (peer : Nat)
  /-- GCM_GROUP_CLOSE (R257). -/
  | gcmGroupClose (part : Nat) (peer : Nat)
  /-- RELAY_FORWARD (R209). -/
  | relayForward (part : Nat) (vnet : Nat) (slots : List (BitVec 64))
  /-- RELAY_REFUSAL (R318). -/
  | relayRefusal (wid : Nat)
  /-- REMOTE_READ (R210). -/
  | remoteRead (part : Nat) (slots : List (BitVec 64))
  /-- REMOTE_WRITE (R210). -/
  | remoteWrite (part : Nat) (slots : List (BitVec 64))
  /-- REMOTE_ATOMIC (R210). -/
  | remoteAtomic (part : Nat) (slots : List (BitVec 64))
  /-- REMOTE_REPLY (R211). -/
  | remoteReply (part : Nat) (slots : List (BitVec 64))
  /-- SINTER_COMBINE (R224). -/
  | sinterCombine (part : Nat) (tree : Nat) (tile : Nat) (round : Nat)
  /-- SINTER_RESULT (R223). -/
  | sinterResult (part : Nat) (tree : Nat) (tile : Nat) (round : Nat)
  /-- SINTER_TIMER_EXPIRE (R224). -/
  | sinterTimerExpire (part : Nat) (tree : Nat) (tile : Nat)
  /-- SINTER_ABORT_REQUEST (R224). -/
  | sinterAbortRequest (part : Nat) (tree : Nat) (round : Nat)
  /-- SINTER_ABORT (R224). -/
  | sinterAbort (part : Nat) (tree : Nat) (tile : Nat) (round : Nat) (reason : Nat)
  /-- LAHAR_FLOOD (R247). -/
  | laharFlood (kill : Nat) (tile : Nat)
  /-- KILL_WINDOW_END (R247). -/
  | killWindowEnd (kill : Nat) (tile : Nat)
  /-- KILL_REPORT (R247). -/
  | killReport (kill : Nat) (tile : Nat)
  /-- KEYSET_COMPLETE (R338). -/
  | keysetComplete (part : Nat)
  /-- KEYREV_COMPLETE (R260). -/
  | keyrevComplete (part : Nat)
  /-- HOST_CREDIT_UPDATE (R263). -/
  | hostCreditUpdate (hep : Nat)
  /-- D2H_DELIVER (R264). -/
  | d2hDeliver (hep : Nat)
  /-- ILLEGAL_WORD (R273). -/
  | illegalWord (w : BitVec 32)
  /-- TLBI_WRITE (R100). -/
  | tlbiWrite (part : Nat) (v : BitVec 64)
  /-- SDESC_LOAD (R220). -/
  | sdescLoad (h : Nat) (v : BitVec 64)
  /-- SDESC_CLEAR (R220). -/
  | sdescClear (part : Nat) (tree : Nat)
  /-- RESUME_AT_POINT (R234). -/
  | resumeAtPoint (part : Nat) (h : Nat)
  /-- RESUME_SKIP (R234). -/
  | resumeSkip (part : Nat) (h : Nat)
  /-- RESUME_STREAM (R234). -/
  | resumeStream (part : Nat) (h : Nat) (port : Nat)
  /-- RESUME_END (R234). -/
  | resumeEnd (part : Nat) (h : Nat)
  /-- PSWAP_OUT (R267). -/
  | pswapOut (part : Nat) (h : Nat)
  /-- PSWAP_IN (R267). -/
  | pswapIn (part : Nat) (h : Nat)
  /-- PSET_CREATE (R254). -/
  | psetCreate (tile : Nat) (off : Nat)
  /-- PSET_TEARDOWN (R256). -/
  | psetTeardown (part : Nat)
  /-- HEPSET_WRITE (R288). -/
  | hepsetWrite (tile : Nat) (off : Nat)
  /-- DEBUGGER_HALT (R172). -/
  | debuggerHalt (h : Nat)
  /-- DEBUGGER_RELEASE (R32). -/
  | debuggerRelease (h : Nat)
  /-- LEVEL_COUNTER_UPDATE (R354). -/
  | levelCounterUpdate (tile : Nat) (power : Nat) (hotSpot : Nat) (modulePower : Nat)
  /-- OPTICAL_DATA_FLIT (R201). -/
  | opticalDataFlit (lane : Nat) (flit : BitVec 576)
  /-- OPTICAL_ACK (R201). -/
  | opticalAck (part : Nat) (peer : Nat) (seq : Nat)
  /-- OPTICAL_NACK (R201). -/
  | opticalNack (part : Nat) (peer : Nat) (seq : Nat)
  /-- LOSS_OF_LIGHT (R15, R203): of a lane; the numbers from 2048 on are the 64 laser sources, of which each feeds 32 lanes. -/
  | lossOfLight (lane : Nat)
  /-- LIGHT_RESTORED (R205). -/
  | lightRestored (lane : Nat)
  /-- TRAINING_WORD (R206). -/
  | trainingWord (part : Nat) (peer : Nat) (w : BitVec 128) (keyid : BitVec 32)
  /-- LANE_OFFER (R212). -/
  | laneOffer (rlane : Nat) (peer : Nat) (peerLane : Nat) (backLane : Nat)
  /-- OFFER_ANSWER (R212). -/
  | offerAnswer (lane : Nat) (accept : Bool)
  /-- GCM_TAG_FLIT (R257). -/
  | gcmTagFlit (part : Nat) (peer : Nat) (tag : BitVec 128) (count : Nat)
  /-- HOST_PUSH (R263). -/
  | hostPush (hep : Nat) (qpn : BitVec 24) (rkey : BitVec 32) (off : Nat) (len : Nat) (slots : List (BitVec 64))
  /-- HOST_CREDIT_READ (R263). -/
  | hostCreditRead (hep : Nat) (qpn : BitVec 24) (rkey : BitVec 32)
  /-- HOST_CREDIT_RETURN (R264). -/
  | hostCreditReturn (hep : Nat) (qpn : BitVec 24) (rkey : BitVec 32) (count : BitVec 64)
  /-- QUEUE_PAIR_ERROR (R265). -/
  | queuePairError (hep : Nat)
  /-- DETECTED_ERROR (R249). -/
  | detectedError (unit : ErrUnit) (tile : Nat) (index : Nat) (addr : Nat) (lasting : Bool)
  /-- THERMAL_STOP (R270). -/
  | thermalStop (die : Nat)
  /-- EXIT (R333). -/
  | exit
  /-- YIELD (R416). -/
  | yield
  /-- STRIPEND (R375). -/
  | stripend
  /-- ERET (R332). -/
  | eret
  /-- BRK (R305). -/
  | brk
  /-- HALT (R335). -/
  | halt
  /-- FIRMWARE_FAULT_FORWARD (R232). -/
  | firmwareFaultForward
  /-- POWER_LIMIT (R270). -/
  | powerLimit
  /-- COOLANT_LOW (R271). -/
  | coolantLow
  /-- MODULE_RESET (R269). -/
  | moduleReset
  /-- POWER_LIMIT_CLEARED (R270). -/
  | powerLimitCleared
  deriving DecidableEq, Repr

end Sys2Proof
end

