-- ==== Sys2Proof/Machine/State.lean ====
section
/-! DEFINITION. The state of the EK9 module as plain data: everything the spec gives the machine, and the model's own
bookkeeping of what is due. Also the faults and refusals, and the state after reset (R269). -/

namespace Sys2Proof.Machine

/-- Why the machine stops. -/
inductive Fault
  /-- Raised by `step` after the 115 degree action (R270) when nothing further is due: the module needs a reset.
  Safe: the spec lets no process or domain run there. -/
  | moduleStopped
  deriving DecidableEq, Repr

/-- Why a step has no meaning. -/
inductive Refusal
  /-- Raised by the dispatch for an instruction that has no meaning yet. Safe. -/
  | notModelled (mnemonic : String)
  deriving DecidableEq, Repr

/-- Cause codes, Table 10.6 (R236). -/
inductive Cause
  | illegalOpcode | privilege | misalign | pageFault | protection | capFault | chanUnbound | futureOverwrite
  | detViolation | vown | stripOverflow | incrOverrun | uncorrectable | leaseFault | sinterTimeout | breakpoint
  | step | softwareTrap | deadlock | nbvUnsupported | memtype
  deriving DecidableEq, Repr

/-- A capability: 128 bits and the hidden tag (R82). -/
structure Cap where
  bits : BitVec 128 := 0
  tag : Bool := false
  deriving DecidableEq, Repr, Inhabited

/-- Where a channel's reader is (R66, Table 3.5). -/
inductive Dest
  /-- Endpoint id on this package. -/
  | tile (ep : Nat)
  /-- Endpoint id on a peer. -/
  | peer (p : Nat) (ep : Nat)
  /-- Host-side endpoint. -/
  | host (n : Nat)
  /-- DRAM server. -/
  | server (v : Nat)
  deriving DecidableEq, Repr, Inhabited

/-- The reader lies on a peer. -/
def Dest.isPeer : Dest → Bool
  | .peer _ _ => true
  | _ => false

/-- The role of a channel register (R28). -/
inductive Role
  | unbound | reader | writer
  deriving DecidableEq, Repr, Inhabited

/-- What else uses a bound channel register (R185, R186, R354). -/
inductive ChanUse
  | plain | monitor | port (n : Nat) | tap (n : Nat)
  deriving DecidableEq, Repr, Inhabited

/-- A channel register c0 to c15 (R28, R56, R65, R318). -/
structure ChanReg where
  role : Role := .unbound
  /-- The reader: the own endpoint, or the endpoint written to. -/
  dest : Dest := .tile 0
  use : ChanUse := .plain
  /-- Writer: credits held, and what the first grant taught (R65, R317). -/
  credits : Nat := 0
  granted : Bool := false
  bcap : Nat := 0
  once : Bool := false
  /-- Writer: the target has recorded the registration (R309). -/
  registered : Bool := false
  /-- Writer: a shortfall request under way, in slots; 0 none (R56). -/
  asked : Nat := 0
  /-- Writer: the peer named by a relay's refusal not yet reported (R318). -/
  refused : Option Nat := none
  /-- Writer: messages are held back, by a refusal (R318) or a retarget notice (R69). -/
  frozen : Bool := false
  /-- Writer: its reader endpoint was freed by EXIT, RESUME or a kill (R37). -/
  gone : Bool := false
  /-- Writer: slots of each message that left through a relay since the register was bound, in order; none for one refused (R318). -/
  relayed : List Nat := []
  /-- Writer: messages that left over relays and are not known to have arrived (R218). -/
  relayOut : Nat := 0
  /-- Writer: messages sent to its peer's entry so far, and the number about which the peer is asked (R218, log 18). -/
  sent : Nat := 0
  probe : Option Nat := none
  deriving DecidableEq, Repr, Inhabited

/-- A message of 1 to 32 slots, or the end-of-stream marker (R53); `tagged` for a KSEND message (R88). -/
structure Msg where
  slots : List Word
  marker : Bool := false
  tagged : Bool := false
  deriving DecidableEq, Repr, Inhabited

/-- Process states (R31). -/
inductive PState
  | running | ready | blockedRead (c : Nat) | blockedWrite (c : Nat) | blockedToken (r : Nat)
  | parkedFault | haltedDebug | exited
  deriving DecidableEq, Repr, Inhabited

/-- Precision classes of Table 10.3 as RESUME needs them (R230, R234). -/
inductive FClass
  | precise | deferred | strip | step
  deriving DecidableEq, Repr, Inhabited

/-- Why a scalar register is pending (R31). -/
inductive Pend
  | load (id : Nat) | token (binding : Nat) | grant | kill (id : Nat) | keyOp | lease (peer : Nat)
  deriving DecidableEq, Repr, Inhabited

/-- The one place where an access performs (R103). -/
inductive Place
  /-- Byte of global SRAM; `net` when it is reached over the networks (R81). -/
  | sram (key : Nat) (net : Bool)
  /-- Byte of HBM by its key, with the virtual address it was reached by. -/
  | dram (key : Nat) (va : Nat)
  /-- Byte at a peer: SPACE and ADDR of R210. -/
  | remote (peer : Nat) (space : Nat) (addr : Nat)
  deriving DecidableEq, Repr, Inhabited

/-- One byte that a store writes: offset from the place, nibble select (0 both, 1 low, 2 high; R435), value. -/
structure WByte where
  off : Nat
  nib : Nat := 0
  val : Byte
  deriving DecidableEq, Repr, Inhabited

/-- One access of a store: where, and which bytes (R78). -/
structure Wr where
  place : Place
  /-- The address that records name (R235). -/
  addr : Nat
  bs : List WByte
  /-- Bytes of the segment that performs indivisibly; 0 for a plain store (R116). -/
  seg : Nat := 0
  deriving DecidableEq, Repr, Inhabited

/-- What an open strip holds back, in program order (R150). -/
inductive Held
  | store (typ : Nat) (pc : BitVec 48) (opcode : Nat) (ws : List Wr)
  | capStore (typ : Nat) (pc : BitVec 48) (place : Place) (addr : Nat) (c : Cap)
  | atomic (typ : Nat) (pc : BitVec 48) (place : Place) (addr : Nat) (fn n : Nat) (v : Nat)
  | push (c : Nat) (m : Msg)
  | ksend (c k : Nat) (m : Msg)
  | bind (id : Nat)
  | tree (k : Nat) (ty : SType) (op : SOp) (xs : List Nat)
  deriving DecidableEq, Repr, Inhabited

/-- An open strip: its opening PC, the checkpoint of Table 7.1 and what it holds back (R148 to R153). -/
structure Strip where
  pc : BitVec 48
  sregs : Tab Word
  pend : Tab Pend
  vs : Word
  vt : Word
  vmsel : BitVec 5
  mt : BitVec 7
  peer : BitVec 22
  cflags : BitVec 21
  mstep : BitVec 7
  /-- Old contents of the vector bank and mask bytes written in the strip, by bank key. -/
  undoV : Tab Byte := []
  undoM : Tab Bool := []
  held : List Held := []
  /-- Queue entries retained, by channel register (R63). -/
  retained : Tab Nat := []
  fflags : BitVec 5 := 0
  nVec : Nat := 0
  nSca : Nat := 0
  maxVec : Nat := 8
  maxSca : Nat := 64
  /-- Loads issued inside the strip that await their reply (R151, R433). -/
  loads : List Nat := []
  /-- The strip of a single vector load issued with no strip open (R154). -/
  own : Bool := false
  /-- Its commit has begun: accesses and messages are handed over, and what follows waits for them (R151). -/
  committing : Bool := false
  /-- Entries retained at endpoints that have moved to another process since, by endpoint id (R69). -/
  kept : Tab Nat := []
  /-- Entries retained at endpoints that have moved to a peer: peer, its number of the end's new place, partition, entries (R69). -/
  keptAway : List (Nat × Nat × Nat × Nat) := []
  /-- Resume points of VPUSH when the strip was opened (R61). -/
  vpushed : Tab Nat := []
  /-- Pages whose migration has ended since: a held access to one of them translates again (R101). -/
  migrated : List (Nat × Nat) := []
  deriving DecidableEq, Repr, Inhabited

/-- A matrix command under way (R166): shape, step group, operands, and scales or metadata as read at issue. -/
structure MatRun where
  td : Nat
  ta : Nat
  tb : Nat
  m : Nat
  n : Nat
  kEnd : Nat
  g : Nat
  /-- MMAS: block size and the scale bytes of both operands; MMASP: the metadata bits. -/
  blk : Nat := 32
  scaled : Bool := false
  sa : List Nat := []
  sb : List Nat := []
  sparse : Bool := false
  metaBits : List Bool := []
  /-- Cycle of issue, and groups completed since (R250). -/
  start : Nat := 0
  groups : Nat := 0
  deriving DecidableEq, Repr, Inhabited

/-- A TLD, or a CBTLD where there is no register, that awaits replies: the bytes that have come, by their offset in the
register or table (R311, R379). -/
structure Bulk where
  td : Option Nat
  got : List (Nat × Byte) := []
  /-- Shape of the register, and the codebook table, at issue (R379). -/
  shape : BitVec 20 := 0x3F3F
  cbt : Tab (BitVec 32) := []
  deriving DecidableEq, Repr, Inhabited

/-- Shape of a lane request (R43). -/
inductive Want
  | none | sliver | clusters (c : Nat)
  deriving DecidableEq, Repr, Inhabited

/-- A grant or release on its way to taking effect (R44, R47). -/
structure PGrant where
  sd : Nat
  avl : Nat
  ew : Nat
  slivers : List Nat
  cluster : Bool
  /-- The lanes are assigned; false while the request only waits (WAIT). -/
  assigned : Bool
  due : Nat
  pc : BitVec 48
  /-- Lanes asked for anew at a swap-in (log 22). -/
  again : Bool := false
  deriving DecidableEq, Repr, Inhabited

/-- Lanes that a swapped-out process asks for at its swap-in (R22, R30, log 22). -/
structure LaneAsk where
  want : Want
  sd : Nat
  avl : Nat
  ew : Nat
  deriving DecidableEq, Repr

/-- Residency (R30). -/
inductive Residency
  | resident | swapped
  deriving DecidableEq, Repr, Inhabited

/-- An integrator cell (R173) with its patch entry (Table 8.2); Y and Res are 0 at reset (log 93). -/
structure Cell where
  y : BitVec 48 := 0
  res : BitVec 48 := 0
  out : Int := 0
  /-- Latches by source position; unlisted ones are empty. -/
  latch : Tab Int := []
  dom : Nat := 0
  /-- Source fields by position, ten bits each. -/
  src : Tab Nat := []
  deriving DecidableEq, Repr, Inhabited

/-- A step-clock domain (Tables 8.3, 8.4, R180). -/
structure Domain where
  divm1 : Nat := 0
  mode : Nat := 0
  tcnt : Word := 0
  pend : Nat := 0
  ocell : Nat := 0
  ocause : Nat := 0
  eos : Bool := false
  ovr : Bool := false
  run : Bool := false
  phase : Nat := 0
  /-- First cycle in which it may tick after a DRUN (R194, R327). -/
  startAt : Nat := 0
  deriving DecidableEq, Repr, Inhabited

/-- An external increment port (R185). -/
structure DPort where
  /-- Process and channel register. -/
  h : Nat
  ch : Nat
  slot : Word := 0
  /-- Codes consumed from the slot; 32 when none is held. -/
  used : Nat := 32
  eos : Bool := false
  deriving DecidableEq, Repr, Inhabited

/-- A tap (R186): 32 codes fill its slot. -/
structure DTap where
  h : Nat
  ch : Nat
  cell : Nat
  slot : Word := 0
  count : Nat := 0
  /-- An EXIT waits to push the full slot: the tap is unbound with that push (R324). -/
  closing : Bool := false
  deriving DecidableEq, Repr, Inhabited

/-- A tile's differential analyser (R173 to R186). -/
structure Analyser where
  cells : Tab Cell := []
  doms : Tab Domain := []
  ports : Tab DPort := []
  taps : Tab DTap := []
  /-- Increments of this cycle on their way to latches (reader, position, value), and the domains that overran (R181, R183). -/
  emit : List (Nat × Nat × Int) := []
  hits : List Nat := []
  /-- The array as it stood at the start of a cycle in which a domain runs or a port is bound, before that cycle's ticks (R323, R326), with the cycle. -/
  snapAt : Option Nat := none
  snapCells : Tab Cell := []
  snapDoms : Tab Domain := []
  snapPorts : Tab DPort := []
  snapTaps : Tab DTap := []
  deriving DecidableEq, Repr, Inhabited

/-- A process context (Table 2.1, R28) and its control block's further fields. -/
structure Proc where
  pc : BitVec 48 := 0
  /-- s1 to s31 that are not zero; s0 is hard-wired. -/
  sregs : Tab Word := []
  pend : Tab Pend := []
  chans : Tab ChanReg := []
  caps : Tab Cap := []
  vl : BitVec 12 := 0
  vs : Word := 0
  vt : Word := 2
  vmsel : BitVec 5 := 0
  mt : BitVec 7 := 0
  peer : BitVec 22 := 0
  mstep : BitVec 7 := 0
  nbv : BitVec 8 := 1
  fflags : BitVec 5 := 0
  cflags : BitVec 21 := 0
  status : BitVec 8 := 0
  epc : BitVec 48 := 0
  cause : BitVec 48 := 0
  frec : Word := 0
  /-- Process window (R80). -/
  wbase : Nat := 0
  wsize : Nat := 0
  /-- Network number (R246). -/
  net : Nat := 0
  part : Nat := 0
  tile : Nat := 0
  level : Nat := 0
  ceiling : Nat := 0
  dhold : Bool := false
  pst : PState := .ready
  /-- Slots that a blocked channel operation needs. -/
  need : Nat := 0
  since : Nat := 0
  /-- Cycle of the last issue; none before the first (R41). -/
  lastIssue : Option Nat := none
  /-- How often the process has left READY: a YIELD waits for others by it (R38). -/
  epoch : Nat := 0
  yields : List (Nat × Nat) := []
  /-- Outstanding accesses that hold the next instruction as a fixed-latency interlock does. -/
  hold : List Nat := []
  /-- Held without end until the named step releases it: child of a SPAWN (R372), loader (R294). -/
  shut : Bool := false
  /-- Domain a DSTEP waits on (R193). -/
  dstep : Option Nat := none
  /-- Address of a DSTEP that was given up with its PEND and goes on when it issues again (R331, R431). -/
  dcont : Option (BitVec 48) := none
  /-- The array as a swap-out of its owner saved it, or another process's restored array that took its place (R197, R431, log 41). -/
  image : Option Analyser := none
  /-- A handler runs that TrapEntry entered and ERET has not left: it is not stepped (R228, R382). -/
  handler : Bool := false
  /-- The tree of the VTREEW that parked the process, whose round a RESUME with ACT 1 passes (R223). -/
  passes : Option Nat := none
  mat : Option MatRun := none
  bulk : Option Bulk := none
  /-- First cycle in which the next instruction may issue after a command of stated duration (R165, R377). -/
  busy : Nat := 0
  /-- Scalar registers whose result is still in a fixed-latency pipeline, with the first cycle in which it can be used
  (R31, R328, R356, R361). -/
  lat : Tab Nat := []
  /-- Mask registers that an SGATHER writes, with the first cycle in which they can be read (R95, R369). -/
  mlat : Tab Nat := []
  /-- A debugger's halt waits for the commit in progress (R243). -/
  haltAsked : Bool := false
  /-- The process whose end a RESUME with ACT 3 awaits: the next instruction is held until then (R234). -/
  ending : Option Nat := none
  strip : Option Strip := none
  /-- Fault class and FPC of the park (R230, R234). -/
  fclass : FClass := .precise
  fpc : BitVec 48 := 0
  /-- After RESUME with ACT 3: the process ends once its tokens are written (R234). -/
  dying : Bool := false
  slivers : List Nat := []
  cluster : Bool := false
  /-- Slivers of the last grant (R47), with its lanes counted in element order. -/
  lastGrant : List Nat := []
  pgrant : Option PGrant := none
  laneAsk : Option LaneAsk := none
  /-- The saved-state bits as the last swap-in read them (R240, log 97). -/
  saved : BitVec 3 := 0
  /-- VPUSH messages already staged of an instruction that has not completed, by its address (R61). -/
  vpushed : Tab Nat := []
  /-- Loads filling vector registers: register and access (R97). -/
  fills : List (Nat × Nat) := []
  res : Residency := .resident
  /-- HBM key of the control block that the last swap-out wrote (R267). -/
  cbAt : Option Nat := none
  /-- The state that was saved at offset 0x180 of it (R267). -/
  cbState : Nat := 0
  slot : Nat := 0
  deriving DecidableEq, Repr, Inhabited

/-- A staged message or contribution, with the accesses that must perform before it is injected (R53, R111). -/
structure Staged where
  h : Nat
  c : Nat
  msg : Msg
  /-- A Sinter contribution instead of a message: tree, type, operation, elements (R223). -/
  tree : Option (Nat × SType × SOp × List Nat) := none
  after : List Nat
  deriving DecidableEq, Repr, Inhabited

/-- What a channel-data-network message carries (R53, R56, R69, R309). -/
inductive NetBody
  | data (m : Msg)
  /-- A writer's registration; `det` from a process in determinate mode. -/
  | register (det : Bool)
  | shortfall (n : Nat)
  | recall
  | credit (n : Nat) (bcap : Nat) (once : Bool)
  | retarget (mv : Nat)
  deriving DecidableEq, Repr, Inhabited

/-- A message in flight; `wid` is its writer's number. -/
structure NetMsg where
  wid : Nat
  dest : Dest
  body : NetBody
  part : Nat
  net : Nat
  deriving DecidableEq, Repr, Inhabited

/-- An occupied slot of a reader's queue (R54). -/
structure QSlot where
  val : Word
  marker : Bool
  wid : Nat
  msg : Nat
  tagged : Bool
  /-- The slot lies in the Caldera (R76). -/
  cal : Bool := false
  deriving DecidableEq, Repr, Inhabited

/-- A reader endpoint (Table 3.1), by endpoint id; host endpoints and DRAM servers as readers too. -/
structure Endpoint where
  bound : Bool := false
  /-- Handle times 16 plus channel register of the reader. -/
  owner : Nat := 0
  bcap : Nat := 0
  cap : Nat := 0
  once : Bool := false
  queue : List QSlot := []
  free : Nat := 0
  writers : List Nat := []
  arrived : Word := 0
  consumed : Word := 0
  reserved : Nat := 0
  /-- Requests for credit in arrival order: writer and slots (R56). -/
  shortfalls : List (Nat × Nat) := []
  /-- Recalls of credits sent and not yet answered. -/
  recalled : List Nat := []
  /-- Offset of the buffer run in the slice (R55). -/
  run : Nat := 0
  digest : Word := 0
  /-- A monitor writes to it (R126). -/
  mon : Bool := false
  /-- Entries at the head that an open strip of an earlier reader retains (R69). -/
  kept : Nat := 0
  nextMsg : Nat := 0
  /-- The cycle in which a message last began to be written (R64). -/
  wrote : Option Nat := none
  /-- Messages of each peer's writer that have come so far (R218, log 18). -/
  came : Tab Nat := []
  /-- Questions whether so many messages of a peer's writer have come: 0, or 1 more than the move that waits for it (R69, R218, log 18). -/
  probes : List (Nat × Nat × Nat) := []
  deriving DecidableEq, Repr, Inhabited

/-- What an outstanding access does at its home. -/
inductive ReqOp
  | read (n : Nat)
  | write (bs : List WByte)
  | atomic (fn n : Nat) (v w : Nat)
  | capRead
  | capWrite (c : Cap)
  deriving DecidableEq, Repr, Inhabited

/-- Where the answer to an access goes. -/
inductive ReqDest
  | none
  | scalar (d n : Nat)
  | elem (vd i : Nat) (vt : Word) (nib : Nat)
  | seg (vd first : Nat) (vt : Word) (act : List Nat)
  /-- Elements of a unit-stride load that fill a block at a peer: element, offset, place in a packed byte or word (R210). -/
  | block (vd : Nat) (vt : Word) (els : List (Nat × Nat × Nat))
  /-- Bytes of a TLD or CBTLD, from an offset on. -/
  | bulk (off : Nat)
  | cap (k : Nat)
  /-- Bytes of a stream's sector, from an offset on. -/
  | stream (binding off : Nat)
  deriving DecidableEq, Repr, Inhabited

/-- An access handed to the networks (R14, R210, R419). -/
structure Req where
  h : Nat
  tile : Nat
  part : Nat
  net : Nat
  typ : Nat
  place : Place
  addr : Nat
  op : ReqOp
  dest : ReqDest
  pc : BitVec 48
  opcode : Nat
  /-- Issued inside a strip, with the strip's issue number. -/
  strip : Bool
  /-- Bindings, or earlier accesses, that must end before it performs (R101, R111, R365). -/
  after : List Nat := []
  tag : Nat := 0
  /-- It has left its tile under its tag (R210, R419). -/
  sent : Bool := false
  /-- The slots that it travels as (Tables 3.7, 9.13), and the header of its reply (Table 3.8). -/
  words : List Word := []
  back : Word := 0
  /-- The vector load that it belongs to: number of that load's first access; 0 none (R237). -/
  grp : Nat := 0
  /-- A vector load's failing reply has come and waits for the others of that load (R237). -/
  failed : Bool := false
  performed : Bool := false
  /-- The home's answer: the bytes read, and the error (0 done). -/
  data : List Byte := []
  /-- Bytes that the strip's own stores supply (R343). -/
  fwd : List WByte := []
  err : Nat := 0
  capOut : Cap := {}
  /-- COUNT and STRIDE of the record of a fault that the reply reports (R235). -/
  count : Nat := 0
  stride : Word := 0
  /-- Its issuer no longer wants the answer (restart, kill, end). -/
  dropped : Bool := false
  deriving DecidableEq, Repr, Inhabited

/-- A combining-buffer entry: stores of one process to one 64-byte block of one memory type (R117). -/
structure CbEntry where
  h : Nat
  typ : Nat
  block : Place
  bs : List WByte
  /-- Segments that it holds, by offset and length (R116). -/
  segs : List (Nat × Nat) := []
  /-- The store instructions whose bytes it holds, youngest first: offsets with the addresses that records name, the instruction's
  address and opcode (R374). -/
  stores : List (List (Nat × Nat) × BitVec 48 × Nat) := []
  last : Nat
  /-- Order of the last write, for the least recently written. -/
  seq : Nat
  deriving DecidableEq, Repr, Inhabited

/-- Where a stream binding stands (R92, R94, R244). -/
inductive BState
  | held | queued | running | stopped | saved
  deriving DecidableEq, Repr, Inhabited

/-- A stream binding (Table 4.7, R92). -/
structure Binding where
  h : Nat
  tile : Nat
  part : Nat
  net : Nat
  port : Nat
  sd : Nat
  pc : BitVec 48
  st : BState := .held
  sspace : Nat
  dspace : Nat
  scap : Cap
  dcap : Cap
  sbase : Nat
  dbase : Nat
  sstride : Word
  dstride : Word
  count : Nat
  sector : Nat
  mig : Bool
  peer : Nat
  ptea : Nat
  /-- SGATHER: the active elements and their indices (R95). -/
  gather : Option (List (Nat × Word)) := none
  done : Nat := 0
  /-- Accesses of the current sector still under way, and whether its writes have been sent. -/
  reqs : List Nat := []
  data : List (Nat × Byte) := []
  /-- Words of the sector that have still to be read, or to be written: offset, bytes and place (R93, R115). -/
  todo : List (Nat × Nat × Place) := []
  writing : Bool := false
  err : Option Cause := none
  errSide : Nat := 0
  after : List Nat := []
  /-- ACT 2 has been written for a saved binding (R244). -/
  released : Bool := false
  deriving DecidableEq, Repr, Inhabited

/-- A TLB entry: a page of a partition and its leaf (R99). -/
structure TlbEntry where
  part : Nat
  base : Nat
  size : Nat
  leaf : Word
  pteAt : Nat
  bank : Nat := 0
  deriving DecidableEq, Repr, Inhabited

/-- A waiting lane request (R44, R45, R424). -/
structure LaneReq where
  h : Nat
  age : Nat
  want : Want
  resv : List Nat := []
  partialGrant : Bool := false
  sd : Nat := 0
  avl : Nat := 0
  ew : Nat := 0
  pc : BitVec 48 := 0
  again : Bool := false
  deriving DecidableEq, Repr, Inhabited

/-- A monitor binding (R50, R51). -/
structure Monitor where
  h : Nat
  c : Nat
  sel : Nat
  t : Nat
  count : Nat := 0
  armed : Bool := true
  pending : Option Nat := none
  ovf : Nat := 0
  due : Bool := false
  deriving DecidableEq, Repr, Inhabited

/-- Which pending record of a tile it is (R233). -/
inductive FKind
  | instr (h : Nat) | drop (h : Nat) | stream (port : Nat) | domain (d : Nat) | report
  deriving DecidableEq, Repr, Inhabited

/-- A fault record waiting for credit (R233, R235). -/
structure FRec where
  kind : FKind
  part : Nat
  firmware : Bool
  slots : List Word
  after : List Nat := []
  /-- MODEL. Cycle in which it was formed (R33). -/
  at_ : Nat := 0
  deriving DecidableEq, Repr, Inhabited

/-- A tile's counters and timer for one Sinter tree (R223, R224). -/
structure SCount where
  contrib : Nat := 0
  recv : Nat := 0
  /-- Round whose timer runs and the cycle when it expires. -/
  timer : Option (Nat × Nat) := none
  deriving DecidableEq, Repr, Inhabited

/-- What a tile holds (R11). -/
structure Tile where
  slots : Tab Nat := []
  nextSeq : Nat := 1
  l1 : List TlbEntry := []
  /-- Combining buffer by entry number (R117). -/
  cb : Tab CbEntry := []
  ports : Tab (List Nat) := []
  /-- Vector bank: key register·2048 + lane·32 + byte. -/
  vbank : Tab Byte := []
  /-- Mask bits: key register·2048 + lane·32 + slot. -/
  mbank : Tab Bool := []
  /-- Tile registers: key register·16384 + row·256 + byte. -/
  treg : Tab Byte := []
  /-- TSH0 to TSH7 that differ from the reset value. -/
  tsh : Tab (BitVec 20) := []
  cbt : Tab (BitVec 32) := []
  /-- Owners of the units: 0 to 15 slivers, 16 tile registers, 17 analyser (R239). -/
  owners : Tab Nat := []
  laneReqs : List LaneReq := []
  /-- Processes whose commit must end before their grant is computed again for a fused cluster, with the cluster (R151, R250). -/
  fusing : List (Nat × Nat) := []
  an : Analyser := {}
  sint : Tab SCount := []
  frecs : List FRec := []
  mons : List Monitor := []
  deriving DecidableEq, Repr, Inhabited

/-- A partition's key slot (R257). -/
structure KeySlot where
  full : Bool := false
  revoked : Bool := false
  keyid : BitVec 32 := 0
  xts1 : BitVec 256 := 0
  xts2 : BitVec 256 := 0
  gcm : BitVec 256 := 0
  epoch : Nat := 0
  deriving DecidableEq, Repr, Inhabited

/-- A KEYSET or KEYREV under way (R338): which, the issuer, its token, and the new keys. -/
structure KeyOp where
  set : Bool
  h : Nat
  sd : Nat
  keyid : BitVec 32 := 0
  xts1 : BitVec 256 := 0
  xts2 : BitVec 256 := 0
  gcm : BitVec 256 := 0
  /-- Its partition has been torn down since: nothing is left of it but its token (log 57). -/
  gone : Bool := false
  deriving DecidableEq, Repr, Inhabited

/-- A Sinter tree's entry (Table 9.10). -/
structure TreeEntry where
  tile : Nat
  parent : Nat
  root : Bool
  contrib : Bool
  recv : Bool
  corder : Nat
  deriving DecidableEq, Repr, Inhabited

/-- A round of a Sinter tree (R224): contributions, partial results, the result or the abort reason. -/
structure Round where
  num : Nat
  /-- The network of each tile's contribution (R428). -/
  nets : Tab Nat := []
  ty : SType := .f32
  op : SOp := .sum
  vl : Nat := 0
  started : Bool := false
  contribs : Tab (List Nat) := []
  partials : Tab (List Nat × BitVec 5) := []
  result : Option (List Nat × BitVec 5) := none
  /-- Tiles to which the result or the abort has come. -/
  seen : List Nat := []
  aborted : Option Nat := none
  deriving DecidableEq, Repr, Inhabited

/-- A loaded Sinter tree. -/
structure Tree where
  entries : List TreeEntry
  rounds : List Round := []
  deriving DecidableEq, Repr, Inhabited

/-- A lease request (R214). -/
structure LeaseReq where
  peer : Nat
  n : Nat
  added : Nat := 0
  h : Nat
  sd : Nat
  age : Nat
  rejected : List Nat := []
  offeredEver : Bool := false
  lastOffer : Nat := 0
  deriving DecidableEq, Repr, Inhabited

/-- The Fumarole detector of a partition (R75). -/
structure Detector where
  prev : List (Nat × Word × Word) := []
  prevStuck : Bool := false
  sweeping : Bool := false
  reported : Bool := false
  deriving DecidableEq, Repr, Inhabited

/-- A launched network (R266). -/
structure Net where
  num : Nat
  created : Nat
  ended : Nat := 0
  killed : Option Nat := none
  killing : Bool := false
  /-- Checking mode: 0 none, 1 run A, 2 run B. -/
  check : Nat := 0
  image : List Word := []
  /-- Checking mode: digests and ARRIVED counts of each run, by endpoint (R126). -/
  digestsA : List (Nat × Word × Word) := []
  digestsB : List (Nat × Word × Word) := []
  inputs : List (Nat × Msg) := []
  outputs : List (Nat × Msg) := []
  /-- Checking mode: the tile of the process whose fault ended the run (R124). -/
  failed : Option Nat := none
  deriving DecidableEq, Repr, Inhabited

/-- A partition (Table 11.1) and its registers. -/
structure Partition where
  valid : Bool := false
  x0 : Nat := 0
  x1 : Nat := 0
  y0 : Nat := 0
  y1 : Nat := 0
  ptroot : Nat := 0
  calbase : Nat := 0
  calsize : Nat := 0
  symbase : Nat := 0
  symsize : Nat := 0
  cbbase : Nat := 0
  faultep : Nat := 0
  cbsize : Nat := 0
  servers : List Nat := []
  pool : List Nat := []
  peers : List Nat := []
  key : KeySlot := {}
  keyOps : List KeyOp := []
  tvec : BitVec 48 := 0
  stimeo : BitVec 32 := 0x0016E360
  seeda : Word := 0
  seedb : Word := 0
  /-- The seed that the arbiters run under; 0 ordinary (R125). -/
  seed : Word := 0
  sdesc : Word := 0
  /-- Caldera slots in use by channels and by checking-mode records (R255). -/
  calUsed : Nat := 0
  trees : Tab Tree := []
  leases : List LeaseReq := []
  det : Detector := {}
  nets : List Net := []
  /-- Launch window: slots collected so far, and whole images waiting (R266). -/
  image : List Word := []
  images : List (List Word) := []
  deriving DecidableEq, Repr, Inhabited

/-- A host endpoint entry (Table 11.3) with its counters (R263, R264). -/
structure HostEp where
  dir : Nat := 0
  part : Nat := 0
  port : Nat := 0
  qpn : BitVec 24 := 0
  tep : Nat := 0
  cap : Nat := 0
  haddr : Word := 0
  mkey : BitVec 32 := 0
  hkey : BitVec 32 := 0
  err : Bool := false
  /-- H2D: credits held, cumulative grants, and the count last written to the host. -/
  credits : Nat := 0
  granted : Word := 0
  told : Word := 0
  /-- D2H: data positions D, messages H, positions freed. -/
  dcount : Word := 0
  hcount : Word := 0
  freed : Word := 0
  /-- D2H: writer of each delivered position not yet freed. -/
  ring : List Nat := []
  deriving DecidableEq, Repr, Inhabited

/-- What leaves the module (R18, R263, R264), newest last. -/
inductive OutMsg
  | rdmaWrite (hep : Nat) (qpn : BitVec 24) (addr : Word) (val : Word)
  | readReply (hep : Nat) (val : Word)
  | flit (part peer : Nat) (lane : Nat) (f : BitVec 576)
  | offer (lane peer : Nat)
  | answer (lane : Nat) (accept : Bool)
  /-- A lane of this package is revoked, or a dark one is FREE again: its companion at the peer, named by its id there, is revoked with
  it (R212, R216, log 83). -/
  | revoke (peer : Nat) (lane : Nat)
  /-- A relay sends a message back toward its source (R209). -/
  | refusal (part : Nat) (slots : List Word)
  deriving DecidableEq, Repr, Inhabited

/-- Lane states (Table 9.6). -/
inductive LState
  | free | offered | training | held | draining | dark | quar
  deriving DecidableEq, Repr, Inhabited

/-- A transmit lane that is not simply FREE (R212). -/
structure Lane where
  st : LState := .free
  peer : Nat := 0
  part : Nat := 0
  /-- Cycle since which it is HELD or DARK, or of the offer. -/
  at_ : Nat := 0
  /-- Its companion is this package's answer to a peer's offer. -/
  taken : Bool := false
  /-- The receiver's CRC failures among the flits counted (R202). -/
  crcBad : Nat := 0
  crcAll : Nat := 0
  /-- Cycle since which it is DRAINING. -/
  since : Nat := 0
  /-- Left the list under R202 and not by an offer. -/
  removed : Bool := false
  /-- DRAINING by a starvation revocation (R219). -/
  starved : Bool := false
  /-- Offered in the cycle in which it fell FREE (R219). -/
  fell : Bool := false
  /-- DARK, and revoked by a forced LREVOKE (R216). -/
  forced : Bool := false
  deriving DecidableEq, Repr, Inhabited

/-- A data flit kept for replay or reassembly (R201). -/
structure OFlit where
  count : Nat
  vnet : Nat
  first : Bool
  last : Bool
  slots : List Word
  /-- Receiver: NSLOT, and the lane on which it came; its slots are the eight of the wire. -/
  nslot : Nat := 0
  lane : Nat := 0
  /-- Sender: writer, order and final peer of a message of this package; none for one that is relayed. Its `lane` is that of its last
  sending. -/
  own : Option (Nat × Nat × Nat) := none
  /-- Sender: unacknowledged when its lane's 3000 cycles of draining ended with no other lane in the link: it follows R209 (R212). -/
  astray : Bool := false
  deriving DecidableEq, Repr, Inhabited

/-- A link: the lanes that one partition holds to one peer (R199 to R207, R257). -/
structure Link where
  /-- Sender: the next count, and the count at which the list last changed. A count here is epoch · 2^32 + the 32-bit sequence count,
  since KEYSET filled the slot (R201, R257). -/
  next : Nat := 0
  q0 : Nat := 0
  unacked : List OFlit := []
  /-- Messages staged for the link: virtual network and slots with the route word first. -/
  waiting : List (Nat × List Word × Nat) := []
  /-- Flits in line that have no count yet. -/
  txq : List OFlit := []
  /-- Receiver: next count in sequence, flits held for the gap or the group's tag, message parts per network. -/
  rnext : Nat := 0
  store : Tab OFlit := []
  parts : Tab (List Word) := []
  sinceAck : Nat := 0
  gapAt : Option Nat := none
  /-- Sender's open group, and groups closed short: first count and length. -/
  groupLen : Nat := 0
  groups : List (Nat × Nat) := []
  quar : Bool := false
  /-- Training: exchange number, own view (lane map, width, speed), whether it reports EVENT 2. -/
  training : Option (Nat × Nat × Nat × Nat × Bool) := none
  speed : Nat := 0
  deriving DecidableEq, Repr, Inhabited

/-- A move of a channel end (R69). -/
structure Move where
  issuer : Nat
  c : Nat
  p : Nat
  q : Nat
  peer : Nat
  reader : Bool
  waiting : List Nat := []
  deriving DecidableEq, Repr, Inhabited

/-- A Lahar kill in progress (R247). -/
structure Kill where
  part : Nat
  net : Nat
  root : Nat
  tokens : List (Nat × Nat)
  count : Nat := 0
  /-- Tiles whose routers discard the network's packets. -/
  windows : List Nat := []
  /-- Tiles that have still to report. -/
  waiting : List Nat := []
  deriving DecidableEq, Repr, Inhabited

/-- A remote access waiting for its reply (R210, R211): tag of the tile. -/
structure Remote where
  tile : Nat
  tag : Nat
  req : Nat
  deriving DecidableEq, Repr, Inhabited

/-- The state of the module. -/
structure State where
  /-- CYCLE (R287). -/
  cycle : Nat
  /-- PCAP in watts (R270). -/
  pcap : BitVec 13
  pset : BitVec 20
  hepset : BitVec 20
  ownId : BitVec 22
  /-- Global SRAM by Table 1.2's address. -/
  sram : List Host.Cell
  /-- HBM: server · 0x6000_0000 + offset. -/
  hbm : List Host.Cell
  /-- Key epoch under which a byte of HBM was last written, where it is not 0 (R259). -/
  hbmEpoch : Tab Nat
  /-- Granules whose tag is set, by address / 16 (R83). -/
  sramTags : Tab Bool
  hbmTags : Tab Bool
  /-- Lines of HBM whose reads fail after their retry, by key / 64 (R249). -/
  hbmBad : Tab Bool
  /-- Withdrawn SRAM lines, by address / 64 (R251). -/
  withdrawn : Tab Bool
  /-- Fused clusters of each tile, 4 bits (R250). -/
  fuses : Tab (BitVec 4)
  procs : Tab Proc
  tiles : Tab Tile
  parts : Tab Partition
  eps : Tab Endpoint
  hostEps : Tab HostEp
  net : List NetMsg
  staged : List Staged
  reqs : Tab Req
  binds : Tab Binding
  moves : Tab Move
  kills : Tab Kill
  remotes : List Remote
  /-- Last-level TLBs by die (R99). -/
  lltlb : Tab (List TlbEntry)
  lanes : Tab Lane
  links : Tab Link
  /-- Reach table: key lane · 8 + entry (R198). -/
  reach : Tab Word
  routes : Tab Word
  directPeers : Tab Word
  /-- Generators of the arbiters under a nonzero seed, by partition · 2^44 + arbiter number (R125). -/
  arbs : Tab Word
  /-- Firmware fault channel: records waiting for firmware (R232). -/
  fwQueue : List (List Word)
  throttled : Bool
  stopped : Bool
  out : List OutMsg
  /-- MODEL. The process whose instruction is being performed; 0 none. -/
  running : Nat
  /-- MODEL. Tiles that have still to issue in this cycle. -/
  issueLeft : List Nat
  /-- MODEL. Steps that are due, by cycle. -/
  events : List (Nat × Instr)
  /-- MODEL. Number of the next access, binding, kill or move. -/
  nextId : Nat
  /-- MODEL. Drawings made of free values (log 2). -/
  freeCtr : Nat
  deriving DecidableEq, Repr

/-- The machine right after reset (R269): memory zero, tags clear, no partition, no process, only host endpoint 128
bound; PCAP 4200 (Table 12.15). The tables that firmware loads are empty (log 6). -/
def State.reset : State where
  cycle := 0
  pcap := 4200
  pset := 0
  hepset := 0
  ownId := 0
  sram := []
  hbm := []
  hbmEpoch := []
  sramTags := []
  hbmTags := []
  hbmBad := []
  withdrawn := []
  fuses := []
  procs := []
  tiles := []
  parts := []
  eps := [(1048704, { bound := true, bcap := 4096, cap := 4096, free := 4096 })]
  hostEps := [(128, { dir := 2, cap := 4096 })]
  net := []
  staged := []
  reqs := []
  binds := []
  moves := []
  kills := []
  remotes := []
  lltlb := []
  lanes := []
  links := []
  reach := []
  routes := []
  directPeers := []
  arbs := []
  fwQueue := []
  throttled := false
  stopped := false
  out := []
  running := 0
  issueLeft := []
  events := []
  nextId := 1
  freeCtr := 0

end Sys2Proof.Machine
end

