-- ==== Sys2Proof/Machine/Flags.lean ====
section
/-! DEFINITION. Bit fields: of numbers, of the control registers (Tables 3.4, 4.1, 6.4, 6.7, 7.5, 10.1), of capabilities
(Table 4.3), and the masks by which reserved fields stay zero (R5). -/

namespace Sys2Proof.Machine

/-- Field [hi:lo] of a number (R4). -/
def field (x hi lo : Nat) : Nat := x / 2 ^ lo % 2 ^ (hi + 1 - lo)
/-- Bit `i` of a number. -/
def bitAt (x i : Nat) : Bool := decide (x / 2 ^ i % 2 = 1)
/-- Field [hi:lo] of a word. -/
def wfield (w : Word) (hi lo : Nat) : Nat := field w.toNat hi lo
/-- 1 for true. -/
def bit1 (b : Bool) : Nat := if b then 1 else 0
/-- Nat round up division. -/
def cdiv (a b : Nat) : Nat := (a + b - 1) / b

/-- The byte `i` of a number, little-endian. -/
def byteAt (x i : Nat) : Byte := BitVec.ofNat 8 (x / 256 ^ i)
/-- The low `n` bytes of a number, lowest first. -/
def bytesLE (n x : Nat) : List Byte := (List.range n).map (byteAt x)
/-- The number that bytes stand for, lowest first. -/
def ofBytesLE : List Byte → Nat
  | [] => 0
  | b :: t => b.toNat + 256 * ofBytesLE t

/-- STATUS.PL (Table 10.1). -/
def Proc.pl (p : Proc) : Nat := p.status.toNat % 4
/-- STATUS.PPL. -/
def Proc.ppl (p : Proc) : Nat := p.status.toNat / 4 % 4
/-- STATUS.DET. -/
def Proc.det (p : Proc) : Bool := bitAt p.status.toNat 4
/-- STATUS.SS. -/
def Proc.ss (p : Proc) : Bool := bitAt p.status.toNat 5
/-- STATUS.DBG. -/
def Proc.dbg (p : Proc) : Bool := bitAt p.status.toNat 6
/-- STATUS.XO. -/
def Proc.xo (p : Proc) : Bool := bitAt p.status.toNat 7
/-- A STATUS word from its fields. -/
def statusOf (pl ppl : Nat) (det ss dbg xo : Bool) : BitVec 8 :=
  BitVec.ofNat 8 (pl % 4 + ppl % 4 * 4 + bit1 det * 16 + bit1 ss * 32 + bit1 dbg * 64 + bit1 xo * 128)

/-- MT.TYPE (Table 4.1). -/
def Proc.mtype (p : Proc) : Nat := p.mt.toNat % 8
/-- MT.KSEL. -/
def Proc.ksel (p : Proc) : Nat := p.mt.toNat / 16 % 8

/-- EW in bits (Table 6.4). -/
def ewOf (vt : Word) : Nat := 8 * 2 ^ (vt.toNat % 4)
/-- VT.H. -/
def vtH (vt : Word) : Bool := bitAt vt.toNat 2
/-- VT.FMT. -/
def vtFmt (vt : Word) : Nat := wfield vt 7 4
/-- Block size B of VT.BS. -/
def vtBlock (vt : Word) : Nat := match wfield vt 11 10 with
  | 0 => 32 | 1 => 16 | 2 => 64 | _ => 8
/-- VT.SAT. -/
def vtSat (vt : Word) : Bool := bitAt vt.toNat 15
/-- The float kind of the elements, if the width has one (R134). -/
def vtFloat (vt : Word) : Option Fmt :=
  match vt.toNat % 4 with
  | 1 => some (if vtH vt then .fp16 else .bf16)
  | 2 => some .fp32
  | _ => none

/-- Writable bits of VT (Table 6.4): SAT, BS, FMT, H, EW. -/
def vtMask : Word := 0x8CF7
/-- Writable bits of MT (Table 4.1). -/
def mtMask : BitVec 7 := 0x77
/-- Writable bits of CFLAGS (Table 3.4). -/
def cflagsMask : BitVec 21 := 0x1FFF01
/-- CFLAGS from EOS and CNT. -/
def cflagsOf (eos : Bool) (cnt : Nat) : BitVec 21 := BitVec.ofNat 21 (bit1 eos + cnt % 8192 * 256)
/-- CFLAGS.EOS. -/
def Proc.eos (p : Proc) : Bool := bitAt p.cflags.toNat 0

/-- Capability fields (Table 4.3). -/
def Cap.peer (c : Cap) : Nat := field c.bits.toNat 127 106
def Cap.r (c : Cap) : Bool := bitAt c.bits.toNat 105
def Cap.w (c : Cap) : Bool := bitAt c.bits.toNat 104
def Cap.atom (c : Cap) : Bool := bitAt c.bits.toNat 103
def Cap.send (c : Cap) : Bool := bitAt c.bits.toNat 102
def Cap.derive (c : Cap) : Bool := bitAt c.bits.toNat 101
def Cap.global (c : Cap) : Bool := bitAt c.bits.toNat 100
def Cap.space (c : Cap) : Nat := field c.bits.toNat 97 96
def Cap.base (c : Cap) : Nat := field c.bits.toNat 95 48
def Cap.len (c : Cap) : Nat := field c.bits.toNat 47 8
/-- The six permission bits, R highest. -/
def Cap.perms (c : Cap) : Nat := field c.bits.toNat 105 100

/-- Cause codes of Table 10.6. -/
def Cause.code : Cause → Nat
  | .illegalOpcode => 1 | .privilege => 2 | .misalign => 3 | .pageFault => 4 | .protection => 5 | .capFault => 6
  | .chanUnbound => 7 | .futureOverwrite => 8 | .detViolation => 9 | .vown => 10 | .stripOverflow => 11
  | .incrOverrun => 12 | .uncorrectable => 13 | .leaseFault => 14 | .sinterTimeout => 15 | .breakpoint => 16
  | .step => 17 | .softwareTrap => 18 | .deadlock => 19 | .nbvUnsupported => 20 | .memtype => 21

end Sys2Proof.Machine
end

