-- ==== Sys2Proof/Machine/Regs.lean ====
section
/-! DEFINITION. Named reads and writes of the state's parts: processes, scalar registers, tiles, partitions, endpoints;
the list of what is due; process states and wake-ups (R28, R31, R32, R38, R41). -/

namespace Sys2Proof.Machine

/-- The process of handle `h`; an empty context where there is none. -/
def State.proc (s : State) (h : Nat) : Proc := Tab.lookD s.procs h {}
/-- Replace the process of handle `h`. -/
def State.setProc (s : State) (h : Nat) (p : Proc) : State := { s with procs := Tab.put s.procs h p }
/-- Change the process of handle `h`. -/
def State.updProc (s : State) (h : Nat) (f : Proc → Proc) : State := s.setProc h (f (s.proc h))
/-- The process whose instruction is being performed. -/
def State.me (s : State) : Proc := s.proc s.running
/-- Change the running process. -/
def State.updMe (s : State) (f : Proc → Proc) : State := s.updProc s.running f
/-- The tile with id `t`. -/
def State.tile (s : State) (t : Nat) : Tile := Tab.lookD s.tiles t {}
/-- Change a tile. -/
def State.updTile (s : State) (t : Nat) (f : Tile → Tile) : State := { s with tiles := Tab.put s.tiles t (f (s.tile t)) }
/-- The running process's tile id. -/
def State.myTile (s : State) : Nat := s.me.tile
/-- Partition `n`. -/
def State.part (s : State) (n : Nat) : Partition := Tab.lookD s.parts n {}
/-- Change a partition. -/
def State.updPart (s : State) (n : Nat) (f : Partition → Partition) : State :=
  { s with parts := Tab.put s.parts n (f (s.part n)) }
/-- The running process's partition. -/
def State.myPart (s : State) : Partition := s.part s.me.part
/-- Reader endpoint `e`. -/
def State.ep (s : State) (e : Nat) : Endpoint := Tab.lookD s.eps e {}
/-- Change a reader endpoint; one that holds nothing is not listed. -/
def State.updEp (s : State) (e : Nat) (f : Endpoint → Endpoint) : State := { s with eps := Tab.store s.eps e (f (s.ep e)) {} }
/-- Link of a partition to a peer. -/
def linkKey (part peer : Nat) : Nat := part * 4194304 + peer
def State.link (s : State) (part peer : Nat) : Link := Tab.lookD s.links (linkKey part peer) {}
def State.updLink (s : State) (part peer : Nat) (f : Link → Link) : State :=
  { s with links := Tab.store s.links (linkKey part peer) (f (s.link part peer)) {} }
/-- Transmit lane `l`. -/
def State.lane (s : State) (l : Nat) : Lane := Tab.lookD s.lanes l {}
def State.updLane (s : State) (l : Nat) (f : Lane → Lane) : State := { s with lanes := Tab.store s.lanes l (f (s.lane l)) {} }

/-- Scalar register read: s0 reads zero (R28). -/
def Proc.reg (p : Proc) (r : Nat) : Word := if r = 0 then 0 else Tab.lookD p.sregs r 0
/-- Scalar register write: s0 discards it (R28). -/
def Proc.setReg (p : Proc) (r : Nat) (v : Word) : Proc := if r = 0 then p else { p with sregs := Tab.store p.sregs r v 0 }
/-- Scalar register of the running process. -/
def State.reg (s : State) (r : BitVec 5) : Word := s.me.reg r.toNat
/-- Its unsigned value. -/
def State.regN (s : State) (r : BitVec 5) : Nat := (s.reg r).toNat
/-- Write a scalar register of the running process. -/
def State.setReg (s : State) (r : BitVec 5) (v : Word) : State := s.updMe fun p => p.setReg r.toNat v
/-- Channel register `c`. -/
def Proc.chan (p : Proc) (c : Nat) : ChanReg := Tab.lookD p.chans c {}
def Proc.setChan (p : Proc) (c : Nat) (x : ChanReg) : Proc := { p with chans := Tab.store p.chans c x {} }
def State.updChan (s : State) (h c : Nat) (f : ChanReg → ChanReg) : State :=
  s.updProc h fun p => p.setChan c (f (p.chan c))
/-- Capability register `k`. -/
def Proc.cap (p : Proc) (k : Nat) : Cap := Tab.lookD p.caps k {}
def Proc.setCap (p : Proc) (k : Nat) (x : Cap) : Proc := { p with caps := Tab.store p.caps k x {} }

/-- Writer number of channel register `c` of process `h`. -/
def widOf (h c : Nat) : Nat := h * 16 + c
/-- Writer number of host endpoint `n`. -/
def hostWid (n : Nat) : Nat := 2 ^ 40 + n
/-- Writer number of a tile's record queue (R233). -/
def recordWid (t : Nat) : Nat := 2 ^ 41 + t
/-- Writer number of a DRAM server's replies (R71). -/
def serverWid (v : Nat) : Nat := 2 ^ 65 + v
/-- Writer number of the loader and of firmware on a host endpoint. -/
def loaderWid : Nat := 2 ^ 66
/-- Number under which the refusal of an access returns. -/
def accessWid (id : Nat) : Nat := 2 ^ 67 + id

/-- Order of the steps of one cycle: a kill overrides every other event (R33), and a loss of light every lease event (R219); a pre-emption comes
after every fault of its cycle and every tick that is due in it (R238, R431). -/
def rankOf (i : Instr) : Nat :=
  match i with
  | .laharFlood _ _ | .killWindowEnd _ _ => 0
  | .lossOfLight _ => 1
  | .pswapOut _ _ => 3
  | _ => 2
/-- Put a step on the list of what is due, behind those of the same cycle and rank. -/
def insertDue (due : Nat) (i : Instr) : List (Nat × Instr) → List (Nat × Instr)
  | [] => [(due, i)]
  | (d, j) :: t => if due < d ∨ (due = d ∧ rankOf i < rankOf j) then (due, i) :: (d, j) :: t else (d, j) :: insertDue due i t
/-- A step that happens `n` cycles from now. -/
def State.afterCycles (s : State) (n : Nat) (i : Instr) : State := { s with events := insertDue (s.cycle + n) i s.events }
/-- A step that happens in a later cycle after a latency the spec does not state (R434, log 1). -/
def State.later (s : State) (i : Instr) : State :=
  { s with events := insertDue (s.cycle + 1 + Config.delay s.freeCtr) i s.events, freeCtr := s.freeCtr + 1 }
/-- A step as `State.later` makes it, but not before those of its flow, which `same` names: they keep their order (R201, R210). -/
def State.laterBehind (s : State) (same : Instr → Bool) (i : Instr) : State :=
  let last := ((s.events.filter fun e => same e.2).map fun e => e.1).foldl max 0
  { s with events := insertDue (max last (s.cycle + 1 + Config.delay s.freeCtr)) i s.events, freeCtr := s.freeCtr + 1 }
/-- A step that happens in one of the next `n` cycles, where the spec states only that limit. -/
def State.within (s : State) (n : Nat) (i : Instr) : State :=
  { s with events := insertDue (s.cycle + 1 + Config.delay s.freeCtr % n) i s.events, freeCtr := s.freeCtr + 1 }
/-- Remove a step from the list of what is due. -/
def State.cancel (s : State) (i : Instr) : State := { s with events := s.events.filter fun e => decide (e.2 ≠ i) }
/-- The step is on the list. -/
def State.isDue (s : State) (i : Instr) : Bool := s.events.any fun e => decide (e.2 = i)

/-- Enter a process state: leaving READY counts for YIELD (R38), entering it sets `since` (R41). -/
def Proc.enter (p : Proc) (st : PState) (cycle : Nat) : Proc :=
  { p with pst := st, epoch := if p.pst = .ready ∧ st ≠ .ready then p.epoch + 1 else p.epoch,
           since := if st = .ready ∧ p.pst ≠ .ready then cycle else p.since }
/-- Move a process to a state. -/
def State.goto (s : State) (h : Nat) (st : PState) : State := s.updProc h fun p => p.enter st s.cycle
/-- A wake-up: the process becomes READY if it is in the blocked state named (R32, R33). -/
def State.wake (s : State) (h : Nat) (st : PState) : State := if (s.proc h).pst = st then s.goto h .ready else s

/-- A scalar register is pending; s0 never is (R31). -/
def Proc.isPending (p : Proc) (r : Nat) : Bool := decide (r ≠ 0) && (Tab.look p.pend r).isSome
/-- A hardware write of a pending register lands: in the register, in the checkpoint when it was pending there, and the
process wakes (R31, R149). -/
def State.land (s : State) (h r : Nat) (v : Word) : State :=
  let s := s.updProc h fun p =>
    let st := p.strip.map fun k =>
      if (Tab.look k.pend r).isSome then
        { k with sregs := if r = 0 then k.sregs else Tab.store k.sregs r v 0, pend := Tab.cut k.pend r }
      else k
    { p.setReg r v with pend := Tab.cut p.pend r, strip := st }
  s.wake h (.blockedToken r)
/-- A pending register loses its pending write and keeps the value it held (R433). -/
def State.unpend (s : State) (h r : Nat) : State :=
  (s.updProc h fun p => { p with pend := Tab.cut p.pend r, strip := p.strip.map fun k => { k with pend := Tab.cut k.pend r } }).wake h
    (.blockedToken r)

/-- The two's-complement value of a word. -/
def wInt (w : Word) : Int := w.toInt
/-- Rows and columns: x and y of a tile (R8). -/
def tileX (t : Nat) : Nat := t % 64
def tileY (t : Nat) : Nat := t / 64
/-- The die of a tile (R8). -/
def dieOf (t : Nat) : Nat := (if tileY t ≥ 16 then 2 else 0) + (if tileX t ≥ 32 then 1 else 0)
/-- A tile lies in a partition's rectangle (R26). -/
def Partition.inRect (q : Partition) (t : Nat) : Bool :=
  decide (q.x0 ≤ tileX t ∧ tileX t ≤ q.x1 ∧ q.y0 ≤ tileY t ∧ tileY t ≤ q.y1 ∧ t < Config.tiles)
/-- The tiles of a rectangle, by id. -/
def Partition.tilesOf (q : Partition) : List Nat := (List.range Config.tiles).filter q.inRect
/-- Route crossings: dies crossed between two tiles (R9). -/
def crossings (a b : Nat) : Nat :=
  (if tileX a / 32 = tileX b / 32 then 0 else 1) + (if tileY a / 16 = tileY b / 16 then 0 else 1)
/-- Hops between two tiles (R9). -/
def hops (a b : Nat) : Nat :=
  (max (tileX a) (tileX b) - min (tileX a) (tileX b)) + (max (tileY a) (tileY b) - min (tileY a) (tileY b))
/-- Push-to-pop latency on one package (R226, R434 with m = 0). -/
def meshLatency (a b m : Nat) : Nat := 9 + hops a b + 7 * crossings a b + cdiv m 4
/-- First column and first row of a die. -/
def dieX (d : Nat) : Nat := if d % 2 = 0 then 0 else 32
def dieY (d : Nat) : Nat := if d < 2 then 0 else 16
/-- The tile on the outer row of a server's die at which it attaches: pseudo-channel p of a stack at column x0 + p (R14). -/
def serverTile (v : Nat) : Nat := (if v / 64 % 4 < 2 then 0 else 31) * 64 + dieX (v / 64 % 4) + v % 32
/-- The tile at which the I/O die's bridge joins the die of a tile (R17). -/
def bridgeTile (t : Nat) : Nat := (if dieOf t < 2 then 15 else 16) * 64 + (if dieOf t % 2 = 0 then 31 else 32)
/-- The tile at an edge port of the engine that serves a transmit lane: row 1 for requests and replies, row 2 for channel data and
control, on the die's outer column (R15, R226). -/
def portTile (lane row : Nat) : Nat :=
  let d := lane / 512 % 4
  (dieY d + 4 * (lane / 128 % 4) + row) * 64 + if d % 2 = 0 then 0 else 63
/-- The 32 transmit lanes that laser source `n` feeds: engine n / 4, wavelength n mod 4 (R15). -/
def laserLanes (n : Nat) : List Nat := (List.range 32).map fun f => n / 4 * 128 + f * 4 + n % 4
/-- The counters of a tree are zero on every tile of a rectangle, as when it is loaded (R223). -/
def State.zeroTree (s : State) (part k : Nat) : State :=
  let q := s.part part
  { s with tiles := Tab.mapV (fun t x => if q.inRect t then { x with sint := Tab.cut x.sint k } else x) s.tiles }
/-- Numbers of the arbiters (R125, log 14): the arrivals at a reader endpoint, the issue choice of a tile, the router of a tile. -/
def arriveArbiter (rid : Nat) : Nat := rid
def issueArbiter (t : Nat) : Nat := 2 ^ 40 + t
def routerArbiter (t : Nat) : Nat := 2 ^ 41 + t
/-- An arbiter's generator: the seed XOR the arbiter's number, then stepped by each choice (R125). -/
def State.generator (s : State) (part num : Nat) : Word :=
  Tab.lookD s.arbs (part * 2 ^ 44 + num) ((s.part part).seed ^^^ BitVec.ofNat 64 num)
/-- What an arbiter draws: from its generator under a nonzero seed, else a free value. -/
def State.drawn (s : State) (part num : Nat) : Nat :=
  if (s.part part).seed = 0 then Config.arbiter 0 s.freeCtr else Config.arbiter (s.generator part num) 0
/-- The arbiter has drawn. -/
def State.afterDraw (s : State) (part num : Nat) : State :=
  if (s.part part).seed = 0 then { s with freeCtr := s.freeCtr + 1 }
  else { s with arbs := Tab.put s.arbs (part * 2 ^ 44 + num) (Config.shifter (s.generator part num)) }
/-- Unfused clusters of a tile (R250). -/
def State.fused (s : State) (t : Nat) : BitVec 4 := Tab.lookD s.fuses t 0
def State.unfused (s : State) (t : Nat) : List Nat := (List.range 4).filter fun c => !bitAt (s.fused t).toNat c
/-- Every handle of a partition, resident or not, that has not reached EXITED. -/
def State.liveOf (s : State) (part : Nat) : List Nat :=
  (s.procs.filter fun e => decide (e.2.part = part ∧ e.2.pst ≠ .exited)).map fun e => e.1
/-- A new number for an access, binding, kill or move. -/
def State.fresh (s : State) : State × Nat := ({ s with nextId := s.nextId + 1 }, s.nextId)

end Sys2Proof.Machine
end

