-- ==== Sys2Proof/Machine/Links.lean ====
section
/-! DEFINITION. The sending side of optical links: lane lists, routes, flits, striping, groups (R199 to R209, R257). -/

namespace Sys2Proof.Machine

/-- The lane list: HELD lanes of the link in increasing id (R199). -/
def State.laneList (s : State) (part peer : Nat) : List Nat :=
  (s.lanes.filter fun e => decide (e.2.st = .held ∧ e.2.part = part ∧ e.2.peer = peer)).map fun e => e.1
/-- Lanes of a partition and peer in a state. -/
def State.lanesIn (s : State) (part peer : Nat) (st : LState) : List Nat :=
  (s.lanes.filter fun e => decide (e.2.st = st ∧ e.2.part = part ∧ e.2.peer = peer)).map fun e => e.1
/-- The remote receive lane by which transmit lane `l` reaches peer `p`, if it does (Table 9.1). -/
def State.reachOf (s : State) (l p : Nat) : Option Nat :=
  ((List.range 8).filterMap fun i =>
    let e := (Tab.lookD s.reach (l * 8 + i) 0)
    if bitAt e.toNat 63 ∧ wfield e 21 0 = p then some (wfield e 62 52) else none).head?
/-- The relay that the route table names first for a peer: its peer id, HOPS, NEXT1, NEXT2 (R208). -/
def State.routeOf (s : State) (p : Nat) : Option (Nat × Nat × Nat × Nat) :=
  let e := Tab.lookD s.routes p 0
  let d := Tab.lookD s.directPeers (wfield e 38 28) 0
  if bitAt e.toNat 63 && bitAt d.toNat 63 then some (wfield d 21 0, wfield e 62 61, wfield e 60 50, wfield e 49 39) else none
/-- A peer is reachable: a lane is held, a lane of the pool can be pointed at it, or a route has at most two relays (R16,
log 16). -/
def State.reachable (s : State) (part p : Nat) : Bool :=
  decide (s.laneList part p ≠ []) || (s.part part).pool.any (fun l => (s.reachOf l p).isSome)
    || (match s.routeOf p with
        | some (_, hops, _, _) => decide (hops ≤ 2)
        | none => false)
/-- The route word (Table 9.4). -/
def routeWord (hops n1 n2 tile index : Nat) : Word :=
  BitVec.ofNat 64 (hops % 4 * 2 ^ 62 + n1 % 2048 * 2 ^ 51 + n2 % 2048 * 2 ^ 40 + tile % 2048 * 2 ^ 29 + index % 256 * 2 ^ 21)
/-- The index field of a route word. -/
def routeIndex (rw : Word) : Nat := wfield rw 28 21
/-- The 32-bit header of a flit (Table 9.2). -/
def flitHeader (ty vnet : Nat) (first last : Bool) (nslot seq : Nat) (nack : Bool) : Nat :=
  ty % 4 * 2 ^ 30 + vnet % 4 * 2 ^ 28 + bit1 first * 2 ^ 27 + bit1 last * 2 ^ 26 + nslot % 8 * 2 ^ 23 + seq % 1024 * 2 ^ 13
    + bit1 nack * 2 ^ 12
/-- Eight payload slots as one number. -/
def payloadOf (slots : List Word) : Nat := (slots.take 8).foldr (fun w a => w.toNat + a * 2 ^ 64) 0
/-- A flit with its CRC over the 4 header and 64 payload bytes (R200). -/
def flitBits (header : Nat) (slots : List Word) : BitVec 576 :=
  let body := header + payloadOf slots * 2 ^ 32
  BitVec.ofNat 576 (body + crc32 ((List.range 68).map fun i => body / 256 ^ i % 256) * 2 ^ 544)
/-- The IV of a group: sending peer id and partition, epoch, count of the group's first flit (R257). -/
def gcmIv (peer part epoch g : Nat) : BitVec 96 :=
  BitVec.ofNat 96 (peer % 2 ^ 22 * 2 ^ 74 + part % 16 * 2 ^ 70 + epoch % 2 ^ 32 * 2 ^ 32 + g % 2 ^ 32)
/-- Eight slots under a key: encryption and decryption are the same (R257, log 12). -/
def gcmSlots (key : BitVec 256) (iv : BitVec 96) (i : Nat) (slots : List Word) : List Word :=
  let x := BitVec.ofNat 512 (payloadOf slots) ^^^ Config.gcmStream key iv i
  (List.range 8).map fun j => BitVec.ofNat 64 (x.toNat / 2 ^ (64 * j))
/-- The header of a data flit. -/
def OFlit.header (f : OFlit) : Nat := flitHeader 0 f.vnet f.first f.last (f.slots.length - 1) f.count false
/-- The group of a count: the count of its first flit. -/
def groupOf (q : Nat) : Nat := q / 8 * 8
/-- The IV of a group that partition `part` sends. -/
def State.sendIv (s : State) (part g : Nat) : BitVec 96 :=
  gcmIv s.ownId.toNat part (g / 2 ^ 32) g
/-- The payload of a data flit of a link as it travels. -/
def State.sealed (s : State) (part : Nat) (f : OFlit) : List Word :=
  gcmSlots (s.part part).key.gcm (s.sendIv part (groupOf f.count)) (f.count % 8) f.slots
/-- A data flit on the wire. -/
def State.wireFlit (s : State) (part : Nat) (f : OFlit) : BitVec 576 := flitBits f.header (s.sealed part f)
/-- Cut a message, route word first, into flits without a count (R200). -/
def toFlits (vnet : Nat) (fuel : Nat) (first : Bool) (slots : List Word) : List OFlit :=
  match fuel with
  | 0 => []
  | n + 1 =>
    let rest := slots.drop 8
    { count := 0, vnet := vnet, first := first, last := rest.isEmpty, slots := slots.take 8 }
      :: (if rest.isEmpty then [] else toFlits vnet n false rest)
/-- Emit something that leaves the module. -/
def State.emit (s : State) (o : OutMsg) : State := { s with out := s.out ++ [o] }
/-- The lane on which count `q` goes; the counts are 32 bits wide (R201). -/
def stripe (lanes : List Nat) (q q0 : Nat) : Nat := (lanes[(q - q0) % 2 ^ 32 % (Nat.max 1 lanes.length)]?).getD 0
/-- The TYPE 2 flit with the tag of the group from count `g` on, of `len` flits (R257). -/
def State.tagFlit (s : State) (part peer g len : Nat) : BitVec 576 :=
  let fl := ((s.link part peer).unacked.filter fun f => decide (groupOf f.count = g)).map fun f =>
    f.header + payloadOf (s.sealed part f) * 2 ^ 32
  let tag := (Config.gcmTag (s.part part).key.gcm (s.sendIv part g) fl).toNat
  flitBits (flitHeader 2 0 true true 2 0 false) [BitVec.ofNat 64 tag, BitVec.ofNat 64 (tag / 2 ^ 64), BitVec.ofNat 64 len]
/-- The peer's engine is told that a lane of this end is revoked, or FREE after its loss of light: the companion is revoked with it (R212,
R216). -/
def State.tellPeer (s : State) (p l : Nat) : State :=
  match s.reachOf l p with
  | some r => s.emit (.revoke p r)
  | none => s
/-- A link stops all data, and every lane of it is QUAR (R207, R257). -/
def State.quarLink (s : State) (part peer : Nat) : State :=
  let s := s.updLink part peer fun k => { k with quar := true, training := none }
  (s.lanes.filter fun e => decide (e.2.part = part ∧ e.2.peer = peer ∧ (e.2.st = .held ∨ e.2.st = .training))).foldl
    (fun s e => s.updLane e.1 fun x => { x with st := .quar }) s
/-- The epoch of the link would wrap: it stays quarantined until a new key is set (R257). -/
def Link.spent (k : Link) : Bool := decide (2 ^ 64 ≤ k.next)
/-- Close the sender's open group: the tag flit, and the count advances to the next multiple of eight (R257). A link that has lost its
lanes sends the tag with the replay of the group (log 83). -/
def State.closeGroup (s : State) (part peer : Nat) : State :=
  let k := s.link part peer
  let lanes := s.laneList part peer
  if k.groupLen = 0 then s
  else
    let g := groupOf (k.next - 1)
    let s := if lanes.isEmpty then s else s.emit (.flit part peer (stripe lanes k.next k.q0) (s.tagFlit part peer g k.groupLen))
    let s := (s.updLink part peer fun k => { k with next := g + 8, groupLen := 0, groups := k.groups ++ [(g, k.groupLen)] }).cancel
      (.gcmGroupClose part peer)
    if (s.link part peer).spent then s.quarLink part peer else s
/-- Send the flits in line while fewer than 256 are unacknowledged (R201). -/
def State.transmit (s : State) (part peer : Nat) : Nat → State
  | 0 => s
  | n + 1 =>
    let k := s.link part peer
    match k.txq with
    | [] => s
    | f :: rest =>
      let lanes := s.laneList part peer
      if lanes.isEmpty || k.quar || decide (256 ≤ k.unacked.length) then s
      else
        let f := { f with count := k.next, lane := stripe lanes k.next k.q0 }
        let s := s.emit (.flit part peer f.lane (s.wireFlit part f))
        let s := s.updLink part peer fun k =>
          { k with txq := rest, unacked := k.unacked ++ [f], next := k.next + 1, groupLen := k.groupLen + 1 }
        let s := if k.groupLen + 1 = 8 then s.closeGroup part peer
                 else (s.cancel (.gcmGroupClose part peer)).afterCycles 32 (.gcmGroupClose part peer)
        State.transmit s part peer n
/-- The route table names a first relay, but its slot of the direct-peer list is not valid: messages are refused (R208, R209). -/
def State.routeRefused (s : State) (p : Nat) : Bool :=
  let e := Tab.lookD s.routes p 0
  bitAt e.toNat 63 && decide (wfield e 62 61 ≤ 2) && !bitAt (Tab.lookD s.directPeers (wfield e 38 28) 0).toNat 63
/-- The relay that a message to a peer can take now: the link it leaves on and its route word's fields. A route has at most two relays
(R16, R209). -/
def State.detour (s : State) (part peer : Nat) : Option (Nat × Nat × Nat × Nat) :=
  match s.routeOf peer with
  | some (r, hops, n1, n2) =>
    if hops ≤ 2 ∧ s.laneList part r ≠ [] ∧ (s.link part r).quar = false then some (r, hops, n1, n2) else none
  | none => none
/-- Where a message to a peer goes now: the link it leaves on and its route word's fields; none while it waits (R209). -/
def State.route (s : State) (part peer : Nat) : Option (Nat × Nat × Nat × Nat) :=
  if (s.link part peer).quar then none
  else if s.laneList part peer = [] then s.detour part peer
  else some (peer, 0, 0, 0)
/-- The tile of the channel port of the engine that serves the lowest lane of the link on which a peer is reached (R15, R226). -/
def State.portOf (s : State) (part peer : Nat) : Nat :=
  portTile ((s.laneList part (((s.route part peer).map fun r => r.1).getD peer)).headD 0) 2
/-- The slots of a message of the credit protocol between packages (log 18). -/
def ctrlBody (kind more w ep n own : Nat) : List Word :=
  [BitVec.ofNat 64 (kind * 2 ^ 60 + more % 2 ^ 20 * 2 ^ 40 + w % 2 ^ 40), BitVec.ofNat 64 (ep % 2 ^ 20 * 2 ^ 32 + n % 2 ^ 32), BitVec.ofNat 64 own]
/-- A message of channel data with the name of its writer and its tag before it, and the same without them, by the number of slots (log 18). -/
def namedBody (own wid e : Nat) (tagged : Bool) (slots : List Word) : List Word :=
  ctrlBody 13 (bit1 tagged) wid e 0 own ++ List.replicate 30 0 ++ slots
def plainBody (slots : List Word) : List Word := if 32 < slots.length then slots.drop 33 else slots
/-- Whose order a message keeps: its channel's writer; the accesses of the package keep theirs, and so do the module's own messages (R201,
R210, log 83). -/
def orderKey (w : Nat × List Word × Nat) : Nat := if 2 ^ 67 ≤ w.2.2 then 2 ^ 67 else w.2.2
/-- An earlier message of the same order to the same peer has flits on another link than `via` that are not acknowledged: nothing may
overtake them (R201, R218). -/
def State.elsewhere (s : State) (part peer key via : Nat) : Bool :=
  s.links.any fun e => decide (e.1 / 4194304 = part ∧ e.1 % 4194304 ≠ via) &&
    (e.2.unacked ++ e.2.txq).any fun f => match f.own with
      | some (_, k, p) => decide (k = key ∧ p = peer)
      | none => false
/-- A relay's refusal of a message of the writer is under way. -/
def State.refusing (s : State) (wid : Nat) : Bool :=
  s.events.any fun e => match e.2 with
    | .relayRefusal w => decide (w % 2 ^ 42 = wid ∧ w < 2 ^ 67)
    | _ => false
/-- A relayed or refused message joins those of its writer (R318). -/
def State.noteRelayed (s : State) (wid n : Nat) : State :=
  s.updChan (wid / 16) (wid % 16) fun x => { x with relayed := x.relayed ++ [n], relayOut := x.relayOut + 1, sent := x.sent + 1 }
/-- A message for a peer is cut into flits, which stand in line on the link `via` (R200, R208). -/
def State.cutFlits (s : State) (part peer via : Nat) (rw : Word) (w : Nat × List Word × Nat) : State :=
  let fl := (toFlits w.1 40 true (rw :: w.2.1.drop 1)).map fun f => { f with own := some (w.2.2, orderKey w, peer) }
  (s.updLink part via fun k => { k with txq := k.txq ++ fl }).transmit part via 40
/-- A message may still be on its way over relays: nothing of the writer goes direct before it is known to have arrived (R20, R218). -/
def State.relaysOut (s : State) (wid : Nat) : Bool :=
  decide (0 < wid ∧ wid < 2 ^ 40 ∧ 0 < ((s.proc (wid / 16)).chan (wid % 16)).relayOut)
/-- The peer is asked whether all that the writer has sent has arrived, once for a number of messages (log 18): kind 14, form 4. -/
def State.askArrived (s : State) (part wid : Nat) : State :=
  let x := (s.proc (wid / 16)).chan (wid % 16)
  match x.dest with
  | .peer p e =>
    if x.probe = some x.sent ∨ s.relaysOut wid = false then s
    else
      let body := ctrlBody 14 4 wid e x.sent s.ownId.toNat
      let s := s.updChan (wid / 16) (wid % 16) fun y => { y with probe := some x.sent }
      match s.route part p with
      | none => s.updLink part p fun k => { k with waiting := k.waiting ++ [(3, routeWord 0 0 0 (e / 256) (e % 256) :: body, 0)] }
      | some (via, hops, n1, n2) => s.cutFlits part p via (routeWord hops n1 n2 (e / 256) (e % 256)) (3, 0 :: body, 0)
  | _ => s
/-- Put a waiting message of a link on its way, or refuse it; none while it waits (R208, R209, R318). -/
def State.pumpOne (s : State) (part peer : Nat) (w : Nat × List Word × Nat) : Option State :=
  let (vnet, slots, wid) := w
  let ofProc := decide (0 < wid ∧ wid < 2 ^ 40)
  let size := Nat.max 1 (plainBody (slots.drop 1)).length
  let x := (s.proc (wid / 16)).chan (wid % 16)
  if ofProc && s.refusing wid then none
  else match s.route part peer with
    | none =>
      if (s.link part peer).quar = false ∧ s.laneList part peer = [] ∧ s.routeRefused peer then
        some (if 2 ^ 67 ≤ wid then s.afterCycles 1 (.relayRefusal wid)
          else if ofProc then (s.noteRelayed wid size).afterCycles 1 (.relayRefusal (wid + 2 ^ 42 * x.relayed.length))
          else s)
      else none
    | some (via, hops, n1, n2) =>
      if s.elsewhere part peer (orderKey w) via || (decide (hops = 0) && s.relaysOut (orderKey w)) then none
      else
        let rw := slots.headD 0
        let s := if ofProc = false then s else if hops = 0 then s.updChan (wid / 16) (wid % 16) fun x => { x with sent := x.sent + 1 }
          else s.noteRelayed wid size
        let s := if ofProc ∧ (s.proc (wid / 16)).need = 0 then s.wake (wid / 16) (.blockedWrite (wid % 16)) else s
        let bare := ofProc && decide (hops ≠ 0 ∧ slots.length ≤ 33)
        let e := wfield rw 39 29 * 256 + routeIndex rw
        let slots := if bare then rw :: namedBody s.ownId.toNat wid e false (slots.drop 1) else slots
        some (s.cutFlits part peer via (routeWord hops n1 n2 (wfield rw 39 29) (routeIndex rw)) (vnet, slots, wid))
/-- One message of those that wait: it goes, or waits with all of its order behind it (R209). -/
def State.pumpStep (part peer : Nat) (a : State × List Nat) (w : Nat × List Word × Nat) : State × List Nat :=
  let keep : State × List Nat := (a.1.updLink part peer fun k => { k with waiting := k.waiting ++ [w] }, orderKey w :: a.2)
  if a.2.contains (orderKey w) then keep
  else match a.1.pumpOne part peer w with
    | some s => (s, a.2)
    | none => (keep.1.askArrived part (orderKey w), keep.2)
/-- Put the waiting messages of a link on their way, in order, as far as they can go (R209). -/
def State.linkPump (s : State) (part peer : Nat) : State :=
  ((s.link part peer).waiting.foldl (State.pumpStep part peer) (s.updLink part peer fun k => { k with waiting := [] }, [])).1
/-- Hand a message to the engine for a peer: virtual network, destination tile and index, slots, writer (R208, R209). -/
def State.linkSend (s : State) (part peer vnet tile index : Nat) (slots : List Word) (wid : Nat) : State :=
  let s := s.updLink part peer fun k => { k with waiting := k.waiting ++ [(vnet, routeWord 0 0 0 tile index :: slots, wid)] }
  s.linkPump part peer
/-- The whole messages in line whose first flit is selected, and the flits of all others. -/
def splitMsgs (sel : OFlit → Bool) : Nat → List OFlit → List (List OFlit) × List OFlit
  | 0, l => ([], l)
  | _, [] => ([], [])
  | n + 1, f :: l =>
    let more := l.takeWhile fun g => !g.first
    let (ws, rest) := splitMsgs sel n (l.drop more.length)
    if f.first && sel f then ((f :: more) :: ws, rest) else (ws, f :: more ++ rest)
/-- A flit that takes the count of one whose message has left by another way (R212, log 83). -/
def OFlit.filler (f : OFlit) : OFlit := { f with first := false, last := false, slots := [0], own := none, astray := false }
/-- Of the flits that a link has sent and not had acknowledged, with those in line that end the last message: the whole messages that follow
R209, while it gives them a way (R212). -/
def State.strays (s : State) (part peer : Nat) (lead : List OFlit) : List (List OFlit) :=
  let k := s.link part peer
  if (s.detour part peer).isNone then []
  else
    let l := k.unacked ++ lead.zipIdx.map fun f => { f.1 with count := k.next + f.2, astray := true }
    (splitMsgs (fun f => f.own.any fun o => decide (o.2.2 = peer)) l.length l).1.filter fun m => m.all fun f => f.astray
/-- A link without lanes: what is in line and has sent nothing waits as whole messages again, and follows R209; so does what was unacknowledged
when the last lane's draining ended (R212). -/
def State.uncut (s : State) (part peer : Nat) : State :=
  let k := s.link part peer
  if s.laneList part peer = [] ∧ k.quar = false then
    let lead := k.txq.takeWhile fun f => !f.first
    let old := s.strays part peer lead
    let took := old.flatten.map fun f => f.count
    let (ws, rest) := splitMsgs (fun f => f.own.any fun o => decide (o.2.2 = peer)) k.txq.length (k.txq.drop lead.length)
    let whole (l : List OFlit) : Nat × List Word × Nat := ((l.headD default).vnet, l.flatMap fun f => f.slots, (((l.headD default).own).map fun o => o.1).getD 0)
    let s := (old ++ ws).foldl (fun (s : State) l => match (l.headD default).own with
      | some (w, _, _) => if 0 < w ∧ w < 2 ^ 40 then s.updChan (w / 16) (w % 16) fun x => { x with sent := x.sent - 1 } else s
      | none => s) s
    s.updLink part peer fun k =>
      { k with waiting := (old ++ ws).map whole ++ k.waiting, txq := (if took.contains k.next then [] else lead) ++ rest
               unacked := k.unacked.map fun f => if took.contains f.count then f.filler else f }
  else s
/-- Resume everything that waits on a partition's links (a lane or a route appeared or went, or flits were acknowledged). -/
def State.pumpAll (s : State) (part : Nat) : State :=
  ((s.part part).peers).foldl (fun s p => ((s.uncut part p).transmit part p 256).linkPump part p) s
/-- Replay every unacknowledged flit from the group of count `q` on, on the current lane list, each closed group with its tag
(R201, R257). -/
def State.replay (s : State) (part peer q : Nat) : State :=
  let q := groupOf q
  let s := s.updLink part peer fun k => { k with q0 := q }
  let lanes := s.laneList part peer
  if lanes.isEmpty then s
  else
    let k := s.link part peer
    let s := s.updLink part peer fun k =>
      { k with unacked := k.unacked.map fun f => if q ≤ f.count then { f with lane := stripe lanes f.count q, astray := false } else f }
    (k.unacked.dropWhile fun f => decide (groupOf f.count ≠ q)).foldl (fun s f =>
      let s := s.emit (.flit part peer (stripe lanes f.count q) (s.wireFlit part f))
      match k.groups.find? fun x => decide (x.1 = groupOf f.count ∧ f.count + 1 = x.1 + x.2) with
      | some (g, len) => s.emit (.flit part peer (stripe lanes (f.count + 1) q) (s.tagFlit part peer g len))
      | none => s) s
/-- Replay from the oldest unacknowledged flit; gives the number of flits and their first count, or the next count where nothing is
replayed: nothing is unacknowledged, or the link has no lane (R203, R204). -/
def State.replayAll (s : State) (part peer : Nat) : State × Nat × Nat :=
  let k := s.link part peer
  let none_ : State × Nat × Nat := (s.updLink part peer fun k => { k with q0 := k.next }, 0, k.next)
  match k.unacked with
  | [] => none_
  | f :: _ => if s.laneList part peer = [] then none_ else (s.replay part peer f.count, k.unacked.length, f.count)

end Sys2Proof.Machine
end

