-- ==== Sys2Proof/Machine/Memory.lean ====
section
/-! DEFINITION. Memory: bytes, tags, translation with its TLBs, the address forms and checks of each memory type, the
accesses handed to the networks, and the combining buffer (chapters 04 and 05). -/

namespace Sys2Proof.Machine

/-- What an unlisted byte of SRAM or HBM reads as: zero (R269 step 3). -/
def Memory.blank : Byte := 0
/-- The canonical form of a memory. -/
abbrev Memory.wf (m : List Host.Cell) : Prop := Tab.canonical Memory.blank m = true
/-- Byte of a memory. -/
def Memory.read (m : List Host.Cell) (a : Nat) : Byte := Tab.lookD m a Memory.blank
/-- Write a byte of a memory. -/
def Memory.write (m : List Host.Cell) (a : Nat) (v : Byte) : List Host.Cell := Tab.store m a v Memory.blank

/-- Merge a written byte with the byte in memory: nibble select 1 is the low, 2 the high nibble (R435). -/
def mergeNib (old new : Byte) (nib : Nat) : Byte :=
  match nib with
  | 1 => (old &&& 0xF0) ||| (new &&& 0x0F)
  | 2 => (old &&& 0x0F) ||| (new &&& 0xF0)
  | _ => new

/-- One byte of global SRAM. -/
def State.sramByte (s : State) (k : Nat) : Byte := Memory.read s.sram k
/-- Store bytes at a global SRAM address; every granule touched loses its tag (R83). -/
def State.sramStore (s : State) (k : Nat) (bs : List WByte) : State :=
  bs.foldl (fun s b => { s with sram := Memory.write s.sram (k + b.off) (mergeNib (s.sramByte (k + b.off)) b.val b.nib),
                                sramTags := Tab.cut s.sramTags ((k + b.off) / 16) }) s
/-- One byte of HBM as partition `part` reads it: a byte written under another key is a free value (R259). -/
def State.hbmByte (s : State) (part k : Nat) : Byte :=
  match Tab.look s.hbmEpoch k with
  | some e =>
    let now := (s.part part).key.epoch
    if e = now then Memory.read s.hbm k else Config.otherKeyByte e now k
  | none => Memory.read s.hbm k
/-- Store bytes of HBM under a partition's key; every granule touched loses its tag. -/
def State.hbmStore (s : State) (part k : Nat) (bs : List WByte) : State :=
  bs.foldl (fun s b => { s with hbm := Memory.write s.hbm (k + b.off) (mergeNib (s.hbmByte part (k + b.off)) b.val b.nib),
                                hbmEpoch := Tab.store s.hbmEpoch (k + b.off) (s.part part).key.epoch 0,
                                hbmTags := Tab.cut s.hbmTags ((k + b.off) / 16) }) s
/-- A register of a process that is not resident: its value goes to the saved context too (R94, R267). -/
def State.saveReg (s : State) (h r : Nat) (v : Word) : State :=
  let p := s.proc h
  match p.res, p.cbAt with
  | .swapped, some k => if r = 0 then s else
      s.hbmStore p.part k ((List.range 8).map fun i => { off := 8 * r + i, val := byteAt v.toNat i })
  | _, _ => s
/-- A hardware write of a pending register lands, wherever its process is (R31, R94). -/
def State.deliver (s : State) (h r : Nat) (v : Word) : State := (s.land h r v).saveReg h r v
/-- Plain bytes as written bytes from offset 0. -/
def wbytes (bs : List Byte) : List WByte := bs.zipIdx.map fun e => { off := e.2, val := e.1 }
/-- Read `n` bytes of global SRAM. -/
def State.sramRead (s : State) (k n : Nat) : List Byte := (List.range n).map fun i => s.sramByte (k + i)
/-- Read `n` bytes of HBM. -/
def State.hbmRead (s : State) (part k n : Nat) : List Byte := (List.range n).map fun i => s.hbmByte part (k + i)
/-- A line of SRAM that `n` bytes touch is withdrawn (R251). -/
def State.isWithdrawn (s : State) (k n : Nat) : Bool :=
  (List.range ((k + n - 1) / 64 + 1 - k / 64)).any fun i => Tab.lookD s.withdrawn (k / 64 + i) false
/-- A read of `n` bytes of HBM meets a line whose errors cannot be corrected (R249). -/
def State.hbmFails (s : State) (k n : Nat) : Bool :=
  (List.range ((k + n - 1) / 64 + 1 - k / 64)).any fun i => Tab.lookD s.hbmBad (k / 64 + i) false
/-- The tag of the granule of HBM at a key as partition `part` reads it: clear unless every byte stands under its key (R83). -/
def State.hbmTag (s : State) (part k : Nat) : Bool :=
  Tab.lookD s.hbmTags (k / 16) false &&
    (List.range 16).all fun i => (Tab.look s.hbmEpoch (k + i)).all fun e => e == (s.part part).key.epoch

/-- HBM key of a partition-relative physical address; none at or beyond the owned servers (R98). -/
def Partition.physKey (q : Partition) (a : Nat) : Option Nat :=
  (q.servers[a / Config.serverBytes]?).map fun v => v * Config.serverBytes + a % Config.serverBytes
/-- Physical address of an HBM key of the partition. -/
def Partition.physOf (q : Partition) (key : Nat) : Nat :=
  (q.servers.idxOf (key / Config.serverBytes)) * Config.serverBytes + key % Config.serverBytes
/-- The kinds of access that a page table entry permits (Table 4.9). -/
inductive Perm
  | load | store | fetch | atomic
  deriving DecidableEq, Repr
/-- The permission bit of a leaf. -/
def Perm.bit : Perm → Nat
  | .load => 61 | .store => 60 | .fetch => 59 | .atomic => 58

/-- Page size of a leaf at a level. -/
def leafSize : Nat → Nat
  | 1 => 0x80000000 | 2 => 0x200000 | _ => 0x10000
/-- Index of a virtual address at a level (R98). -/
def levelIndex (va : Nat) : Nat → Nat
  | 1 => field va 47 31 | 2 => field va 30 21 | _ => field va 20 16
/-- The table walk from a level down: the TLB entry, or the first failing check (R98). -/
def State.walk (s : State) (part va : Nat) : Nat → Nat → Nat → Except Cause TlbEntry
  | 0, _, _ => .error .protection
  | fuel + 1, lvl, table =>
    let q := s.part part
    let at_ := table + 8 * levelIndex va lvl
    match q.physKey at_ with
    | none => .error .protection
    | some k =>
      if s.hbmFails k 8 then .error .uncorrectable else
      let e := ofBytesLE (s.hbmRead part k 8)
      let size := leafSize lvl
      let addr := field e 39 16 * 65536
      if bitAt e 63 = false then .error .pageFault
      else if (lvl = 3 ∧ bitAt e 62 = false) ∨ field e 56 40 ≠ 0 ∨ field e 15 0 ≠ 0 ∨ (bitAt e 62 ∧ addr % size ≠ 0) then
        .error .protection
      else if bitAt e 62 then
        (if bitAt e 57 then .error .uncorrectable
         else .ok { part := part, base := va / size * size, size := size, leaf := BitVec.ofNat 64 e, pteAt := at_ })
      else State.walk s part va fuel (lvl + 1) addr

/-- The key of the entry that a walk reads and whose line fails, if there is one (R102, R249). -/
def State.walkBad (s : State) (part va : Nat) : Nat → Nat → Nat → Option Nat
  | 0, _, _ => none
  | fuel + 1, lvl, table =>
    match (s.part part).physKey (table + 8 * levelIndex va lvl) with
    | none => none
    | some k =>
      let e := ofBytesLE (s.hbmRead part k 8)
      if s.hbmFails k 8 then some k
      else if bitAt e 63 && !bitAt e 62 then State.walkBad s part va fuel (lvl + 1) (field e 39 16 * 65536) else none
/-- The leaf that maps an address, poisoned or not: the address of its page and the entry's physical address. -/
def State.leafOf (s : State) (part va : Nat) : Nat → Nat → Nat → Option (Nat × Nat)
  | 0, _, _ => none
  | fuel + 1, lvl, table =>
    let at_ := table + 8 * levelIndex va lvl
    match (s.part part).physKey at_ with
    | none => none
    | some k =>
      let e := ofBytesLE (s.hbmRead part k 8)
      if bitAt e 63 = false then none
      else if bitAt e 62 then some (va / leafSize lvl * leafSize lvl, at_)
      else State.leafOf s part va fuel (lvl + 1) (field e 39 16 * 65536)
/-- The entries of a table of `n` entries that can be valid: those of which memory lists a byte. A table lies in one server. -/
def State.tableIndices (s : State) (part table n : Nat) : List Nat :=
  match (s.part part).physKey table with
  | none => []
  | some k =>
    let of_ (x : Nat) : Option Nat := if k ≤ x ∧ x < k + 8 * n then some ((x - k) / 8) else none
    ((s.hbm.filterMap fun e => of_ e.1) ++ s.hbmEpoch.filterMap fun e => of_ e.1).eraseDups
/-- The leaf entries of a partition's tables from a level down: physical address of the entry, address and size of its page. -/
def State.leaves (s : State) (part : Nat) : Nat → Nat → Nat → List (Nat × Nat × Nat)
  | 0, _, _ => []
  | fuel + 1, lvl, table =>
    (s.tableIndices part table (if lvl = 1 then 131072 else if lvl = 2 then 1024 else 32)).flatMap fun i =>
      match (s.part part).physKey (table + 8 * i) with
      | none => []
      | some k =>
        let e := ofBytesLE (s.hbmRead part k 8)
        let addr := field e 39 16 * 65536
        if bitAt e 63 = false then []
        else if bitAt e 62 then [(table + 8 * i, addr, leafSize lvl)]
        else State.leaves s part fuel (lvl + 1) addr
/-- VA[47:16] of the first 64 KiB of the page that an address lies on (R100, R235). -/
def State.pageNum (s : State) (part va : Nat) : Nat :=
  ((s.leafOf part va 3 1 (s.part part).ptroot).map fun e => e.1 / 65536).getD (va / 65536) % 2 ^ 32

/-- A TLB entry serves an address. -/
def TlbEntry.hit (e : TlbEntry) (part va : Nat) : Bool := decide (e.part = part ∧ e.base ≤ va ∧ va < e.base + e.size)
/-- Put an entry in a set of at most `ways`; a full set loses the way that a free value names (R99, log 9). -/
def fillWay (set : List TlbEntry) (ways victim : Nat) (e : TlbEntry) : List TlbEntry :=
  if set.length < ways then set ++ [e] else (set.set (victim % ways) e)
/-- Fill a tile's L1 TLB (R99). -/
def State.fillL1 (s : State) (t va : Nat) (e : TlbEntry) : State :=
  let b := field va 18 16
  let l := (s.tile t).l1
  let bank := l.filter fun x => decide (x.bank = b)
  let rest := l.filter fun x => decide (x.bank ≠ b)
  let s := { s with freeCtr := s.freeCtr + 1 }
  s.updTile t fun x => { x with l1 := rest ++ fillWay bank 8 (Config.tlbVictim s.freeCtr) { e with bank := b } }
/-- Fill a die's last-level TLB. -/
def State.fillLL (s : State) (d : Nat) (e : TlbEntry) : State :=
  let s := { s with freeCtr := s.freeCtr + 1 }
  { s with lltlb := Tab.put s.lltlb d (fillWay (Tab.lookD s.lltlb d []) 4096 (Config.tlbVictim s.freeCtr) e) }

/-- The last steps of a translation: permission, then the HBM key (R98). -/
def State.finishXlate (s : State) (part va : Nat) (p : Perm) (e : TlbEntry) : Except Cause Nat :=
  if bitAt e.leaf.toNat 57 then .error .uncorrectable
  else if bitAt e.leaf.toNat p.bit = false then .error .protection
  else match (s.part part).physKey (field e.leaf.toNat 39 16 * 65536 + va % e.size) with
    | none => .error .protection
    | some k => .ok k
/-- Drop TLB entries of a partition that meet a page (R100). -/
def State.dropTlb (s : State) (part base size : Nat) (all : Bool) : State :=
  let keep (l : List TlbEntry) := l.filter fun e =>
    !(decide (e.part = part) && (all || decide (e.base < base + size ∧ base < e.base + e.size)))
  { s with tiles := Tab.mapV (fun _ x => { x with l1 := keep x.l1 }) s.tiles, lltlb := Tab.mapV (fun _ l => keep l) s.lltlb }

/-- Offsets of a slice that lie in the channel buffer area of its partition (R55). -/
def Partition.inBuffer (q : Partition) (off n : Nat) : Bool := decide (Config.sliceBytes < off + n + q.cbsize)
/-- The partition whose rectangle holds a tile. -/
def State.partOfTile (s : State) (t : Nat) : Option Nat :=
  (s.parts.find? fun e => e.2.valid && e.2.inRect t).map fun e => e.1

/-- The capability check of R84 for `n` bytes at byte address `a`. -/
def Cap.covers (c : Cap) (a n : Nat) (p : Perm) : Bool :=
  c.tag && decide (c.space ≤ 1) && (match p with | .load => c.r | .store => c.w | .fetch => false | .atomic => c.atom)
    && decide (c.base ≤ a ∧ a + n ≤ c.base + c.len)

/-- Where an access forms its address: the tile, partition and window of its process, and the registers it uses. -/
structure Ctx where
  h : Nat
  tile : Nat
  part : Nat
  wbase : Nat
  wsize : Nat
  typ : Nat
  cap : Cap
  peer : Nat
  deriving Repr
/-- The context of an access of the running process under a memory type. -/
def Proc.ctx (p : Proc) (h typ : Nat) : Ctx :=
  { h := h, tile := p.tile, part := p.part, wbase := p.wbase, wsize := p.wsize, typ := typ, cap := p.cap p.ksel, peer := p.peer.toNat }
/-- The context of an access through MT. -/
def Proc.mtCtx (p : Proc) (h : Nat) : Ctx := p.ctx h p.mtype

/-- What a memory type adds to an address to form the home's: BASE for PEER, SYMBASE for SYM (R84, R89). -/
def State.homeBase (s : State) (c : Ctx) : Nat := if c.typ = 3 then c.cap.base else if c.typ = 4 then (s.part c.part).symbase else 0
/-- A place shifted by `o` bytes. -/
def Place.plus (p : Place) (o : Nat) : Place :=
  match p with
  | .sram k n => .sram (k + o) n
  | .dram k v => .dram (k + o) (v + o)
  | .remote q sp a => .remote q sp (a + o)
/-- A place's own address. -/
def Place.addr : Place → Nat
  | .sram k _ => k
  | .dram k _ => k
  | .remote _ _ a => a
/-- Two places lie in one home address space. -/
def Place.same (p q : Place) : Bool :=
  match p, q with
  | .sram _ a, .sram _ b => a == b
  | .dram _ _, .dram _ _ => true
  | .remote a x _, .remote b y _ => decide (a = b ∧ x = y)
  | _, _ => false
/-- `n` bytes at `p` and `m` bytes at `q` share a byte. -/
def Place.overlaps (p : Place) (n : Nat) (q : Place) (m : Nat) : Bool :=
  p.same q && decide (p.addr < q.addr + m ∧ q.addr < p.addr + n)
/-- The aligned 64-byte block of a place, and the offset in it. -/
def Place.block (p : Place) : Place × Nat :=
  match p with
  | .sram k n => (.sram (k / 64 * 64) n, k % 64)
  | .dram k v => (.dram (k / 64 * 64) (v / 64 * 64), k % 64)
  | .remote q sp a => (.remote q sp (a / 64 * 64), a % 64)

/-- How far written bytes reach from their place. -/
def Req.span (bs : List WByte) : Nat := (bs.map fun b => b.off + 1).foldl max 0
/-- Bytes that an operation covers: from the place on. -/
def ReqOp.span : ReqOp → Nat
  | .read n => n
  | .write bs => Req.span bs
  | .atomic _ n _ _ => n
  | .capRead | .capWrite _ => 16
/-- The operation writes. -/
def ReqOp.writes : ReqOp → Bool
  | .read _ | .capRead => false
  | _ => true

/-- The running migration whose source page holds an HBM key (R101). -/
def State.migrating (s : State) (part key : Nat) : Option Nat :=
  (s.binds.find? fun e => e.2.mig && decide (e.2.part = part ∧ e.2.st = .running) &&
    (let a := (s.part part).physOf key
     decide (e.2.sbase ≤ a ∧ a < e.2.sbase + e.2.sector * e.2.count))).map fun e => e.1

/-- The slots of a request to a server, with the layout of Table 3.7 (R419): a WRITE's data are whole slots, where those of a slot held in
part are zero. An atomic's request has no stated layout (R120). -/
def Req.pipe (r : Req) (k : Nat) : List Word :=
  let slot := k % Config.serverBytes / 8
  let hd (op len : Nat) : Word := BitVec.ofNat 64 (op * 2 ^ 60 + len * 2 ^ 55 + r.tag % 256 * 2 ^ 47 + r.tile * 2 ^ 36 + slot)
  let lenOf (n : Nat) : Nat := (k % 8 + n - 1) / 8
  match r.op with
  | .read n => [hd 1 (lenOf n)]
  | .capRead => [hd 1 1]
  | .write bs =>
    let v (i : Nat) : Word := BitVec.ofNat 64 (ofBytesLE ((List.range 8).map fun j =>
      ((bs.find? fun b => decide (k % 8 + b.off = 8 * i + j)).map fun b => b.val).getD 0))
    hd 2 (lenOf (bs.foldl (fun a b => max a (b.off + 1)) 1)) :: (List.range (lenOf (bs.foldl (fun a b => max a (b.off + 1)) 1) + 1)).map v
  | .capWrite c => [hd 2 1, BitVec.ofNat 64 c.bits.toNat, BitVec.ofNat 64 (c.bits.toNat / 2 ^ 64)]
  | .atomic _ _ _ _ => []
/-- The header of a server's reply to a memory-pipe request (Table 3.8): LEN and TAG as in the request. -/
def pipeReply (words : List Word) (err : Nat) : Word :=
  let hd := words.headD 0
  BitVec.ofNat 64 ((wfield hd 63 60 + 8) * 2 ^ 60 + wfield hd 59 55 * 2 ^ 55 + wfield hd 54 47 * 2 ^ 47 + err * 2 ^ 40)
/-- The slots of a request that leaves its tile for a server or a peer (Tables 3.7, 9.13); the capability of a remote request was checked and
removed at the egress port. -/
def Req.wire (r : Req) (own : Nat) : List Word :=
  match r.place with
  | .dram k _ => r.pipe k
  | .remote _ space a =>
    let s1 : Word := BitVec.ofNat 64 (r.tag % 256 * 2 ^ 56 + r.tile * 2 ^ 45 + own * 2 ^ 23 + r.part * 2 ^ 19)
    let s0 (op len afn sz : Nat) : Word :=
      BitVec.ofNat 64 (op * 2 ^ 60 + len * 2 ^ 55 + afn * 2 ^ 52 + sz * 2 ^ 50 + space * 2 ^ 48 + a % 2 ^ 48)
    match r.op with
    | .read n => if n ≤ 8 then [s0 1 0 0 (Nat.log2 n), s1] else [s0 1 (n / 8 - 1) 0 3, s1]
    | .write bs =>
      let n := bs.length
      let v (i : Nat) : Word := BitVec.ofNat 64 (ofBytesLE ((bs.drop (8 * i)).take 8 |>.map fun b => b.val))
      let nib := match bs with | [b] => b.nib | _ => 0
      if n ≤ 8 then [s0 2 0 nib (Nat.log2 n), s1, v 0] else s0 2 (n / 8 - 1) 0 3 :: s1 :: (List.range (n / 8)).map v
    | .atomic fn n v w =>
      [s0 3 0 fn (if n = 4 then 2 else 3), s1, BitVec.ofNat 64 v] ++ (if fn = 7 then [BitVec.ofNat 64 w] else [])
    | .capRead | .capWrite _ => []
  | _ => []

/-- Requests of a tile that have left it and hold a tag (R210, R419). -/
def State.tagged (s : State) (t : Nat) : Tab Req := s.reqs.filter fun e => decide (e.2.tile = t) && e.2.sent
/-- The least tag that no outstanding request of the tile holds (R210, R419). -/
def State.freeTag (s : State) (t : Nat) : Option Nat :=
  (List.range 256).find? fun g => !((s.tagged t).any fun e => decide (e.2.tag = g))

/-- The server of a place. -/
def Place.server : Place → Option Nat
  | .dram k _ => some (k / Config.serverBytes)
  | _ => none
/-- The access is one of a tile to a server: those take one route (R419). -/
def State.onRoute (s : State) (tile : Nat) (p : Place) (id : Nat) : Bool :=
  match Tab.look s.reqs id with
  | some r => decide (r.tile = tile) && (p.server == r.place.server)
  | none => false
/-- The step brings a request of a tile to a server. -/
def State.reqComes (s : State) (tile : Nat) (p : Place) (i : Instr) : Bool :=
  match i with
  | .mempipeRead id | .mempipeWrite id | .dramAtomic id => s.onRoute tile p id
  | _ => false
/-- The step brings a reply of a server to a tile. -/
def State.replyComes (s : State) (tile : Nat) (p : Place) (i : Instr) : Bool :=
  match i with
  | .memoryReply id => s.onRoute tile p id
  | _ => false
/-- Send a request that holds its tag: its own step, or the link to the peer, with the tile of an SRAM address in its route word (R14, R208,
R210; log 83 for a symmetric one). Those of a tile to a server come to it in the order
in which they were sent (R419). -/
def State.sendReq (s : State) (id : Nat) (r : Req) : State :=
  match r.place with
  | .sram _ _ => s.later (.globalSramAccess id)
  | .dram _ _ => s.laterBehind (s.reqComes r.tile r.place) (match r.op with
    | .atomic _ _ _ _ => .dramAtomic id
    | .read _ | .capRead => .mempipeRead id
    | _ => .mempipeWrite id)
  | .remote p space addr =>
    let s := { s with remotes := s.remotes ++ [Remote.mk r.tile r.tag id] }
    s.linkSend r.part p 0 (if space = 0 then field addr 30 20 else 0) 0 r.words (accessWid id)
/-- The migration that a store or atomic waits for (R101). -/
def State.copying (s : State) (r : Req) : Option Nat :=
  match r.place with
  | .dram k _ => if r.op.writes ∧ r.err = 0 then s.migrating r.part k else none
  | _ => none
/-- Start an access that nothing holds back. A request to a server or a peer takes a free tag; while all 256 of its tile are
outstanding it waits for one of them (R210, R419); a store or atomic that is still at its tile when the copy of a migration of its page runs
waits for its end (R101). One to a peer whose partition's key has been revoked meanwhile fails as a home would
answer it (R260, R299). -/
def State.startReq (s : State) (id : Nat) : State :=
  match Tab.look s.reqs id with
  | none => s
  | some r =>
    match r.place with
    | .sram _ _ => s.sendReq id r
    | _ => if r.place.server = none ∧ (s.part r.part).key.full = false then
        { s with reqs := Tab.put s.reqs id { r with performed := true, err := 4 } }.later (.memoryReply id)
      else match s.copying r, s.freeTag r.tile with
      | some b, _ => { s with reqs := Tab.put s.reqs id { r with after := [b] } }
      | none, some g =>
        let r := { r with tag := g, sent := true }
        let r := { r with words := r.wire s.ownId.toNat }
        { s with reqs := Tab.put s.reqs id r }.sendReq id r
      | none, none => { s with reqs := Tab.put s.reqs id { r with after := ((s.tagged r.tile).map fun e => e.1).take 1 } }

/-- An access of a process, with nothing to wait for. -/
def Proc.req (p : Proc) (h typ : Nat) (place : Place) (addr : Nat) (op : ReqOp) (dest : ReqDest) (pc : BitVec 48) (opcode : Nat) : Req :=
  { h := h, tile := p.tile, part := p.part, net := p.net, typ := typ, place := place, addr := addr, op := op, dest := dest,
    pc := pc, opcode := opcode, strip := false }

/-- Accesses that must perform first: those of the process to common bytes through one memory type (R105), those of the
tile to one peer while they wait themselves (R210), and a migration of the page for a store (R101). -/
def State.reqOrder (s : State) (r : Req) : List Nat :=
  let n := r.op.span
  let older := (s.reqs.filter fun e =>
    (!e.2.performed && decide (e.2.h = r.h ∧ e.2.typ = r.typ) && e.2.place.overlaps e.2.op.span r.place n) ||
     (match e.2.place, r.place with
      | .remote a _ _, .remote b _ _ => decide (e.2.tile = r.tile ∧ a = b ∧ e.2.after ≠ [])
      | _, _ => false)).map fun e => e.1
  older ++ (s.copying r).toList
/-- Hand an access to the networks; gives its number. -/
def State.send (s : State) (r : Req) : State × Nat :=
  let (s, id) := s.fresh
  let r := { r with after := r.after ++ s.reqOrder r }
  let s := { s with reqs := Tab.put s.reqs id r }
  (if r.after.isEmpty then s.startReq id else s, id)

/-- A walk that fails on a line of a table: the walker's read at its server fails there too, and the page of that line is
poisoned (R98, R102). -/
def State.walkError (s : State) (t part va : Nat) : State :=
  match s.walkBad part va 3 1 (s.part part).ptroot with
  | none => s
  | some k =>
    (s.send { h := 0, tile := t, part := part, net := 0, typ := 6, place := .dram k ((s.part part).physOf k), addr := va, op := .read 8,
              dest := .none, pc := 0, opcode := 0, strip := false, dropped := true }).1
/-- Translate a 48-bit virtual address through L1, last-level TLB and walk (R98, R99); an empty key slot refuses (R260). -/
def State.xlate (s : State) (t part va : Nat) (p : Perm) : State × Except Cause Nat :=
  if (s.part part).key.full = false then (s, .error .protection)
  else
    match (s.tile t).l1.find? fun e => e.hit part va && decide (e.bank = field va 18 16) with
    | some e => (s, s.finishXlate part va p e)
    | none =>
      match (Tab.lookD s.lltlb (dieOf t) []).find? fun e => e.hit part va with
      | some e => (s.fillL1 t va e, s.finishXlate part va p e)
      | none =>
        match s.walk part va 3 1 (s.part part).ptroot with
        | .error c => (s.walkError t part va, .error c)
        | .ok e => ((s.fillLL (dieOf t) e).fillL1 t va e, s.finishXlate part va p e)

/-- LOCAL (Table 4.2, R80). -/
def State.placeLocal (s : State) (c : Ctx) (a n : Nat) : Except Cause Place :=
  if 0x100000 ≤ a ∨ ¬(c.wbase ≤ a ∧ a + n ≤ c.wbase + c.wsize) ∨ (s.part c.part).inBuffer a n then .error .protection
  else if s.isWithdrawn (c.tile * 0x100000 + a) n then .error .uncorrectable
  else .ok (.sram (c.tile * 0x100000 + a) false)
/-- TILE (R81, R84): the capability is checked before the rectangle and the buffer area (Table 4.2, log 77). -/
def State.placeTile (s : State) (c : Ctx) (a n : Nat) (p : Perm) : Except Cause Place :=
  if 0x80000000 ≤ a then .error .protection
  else if !(c.cap.covers a n p && decide (c.cap.space = 0 ∧ c.cap.peer = s.ownId.toNat)) then .error .capFault
  else if (s.part c.part).inRect (a / 0x100000) = false ∨ (s.part c.part).inBuffer (a % 0x100000) n then .error .protection
  else if s.isWithdrawn a n then .error .uncorrectable
  else .ok (.sram a true)
/-- DRAM (R98). -/
def State.placeDram (s : State) (c : Ctx) (a : Nat) (p : Perm) : State × Except Cause Place :=
  if 0x1000000000000 ≤ a then (s, .error .protection)
  else
    let (s, r) := s.xlate c.tile c.part a p
    (s, r.map fun k => .dram k a)
/-- PEER: the egress port's checks, made before anything leaves (R84, R16, R260). -/
def State.placePeer (s : State) (c : Ctx) (a n : Nat) (p : Perm) : Except Cause Place :=
  let b := c.cap.base + a
  if 0x1000000000000 ≤ a then .error .protection
  else if !(c.cap.covers b n p && decide (c.cap.peer ≠ s.ownId.toNat)) then .error .capFault
  else if 0x1000000000000 ≤ b + n - 1 ∨ (s.part c.part).key.full = false then .error .protection
  else if s.reachable c.part c.cap.peer = false then .error .leaseFault
  else .ok (.remote c.cap.peer c.cap.space b)
/-- SYM (R89). -/
def State.placeSym (s : State) (c : Ctx) (a n : Nat) (p : Perm) : State × Except Cause Place :=
  let q := s.part c.part
  if q.symsize < a + n ∨ (c.peer ≠ s.ownId.toNat ∧ q.peers.contains c.peer = false) ∨ q.key.full = false then
    (s, .error .protection)
  else if c.peer = s.ownId.toNat then
    let (s, r) := s.xlate c.tile c.part (q.symbase + a) p
    match r with
    | .ok k => (s, .ok (.dram k (q.symbase + a)))
    | .error .uncorrectable => (s, .error .uncorrectable)
    | .error _ => (s, .error .protection)
  else if s.reachable c.part c.peer = false then (s, .error .leaseFault)
  else (s, .ok (.remote c.peer 1 (q.symbase + a)))
/-- Physical DRAM, code 5 of a migration descriptor (R90, R101). -/
def State.placePhys (s : State) (c : Ctx) (a : Nat) : Except Cause Place :=
  if (s.part c.part).key.full = false then .error .protection
  else match (s.part c.part).physKey a with
    | some k => .ok (.dram k a)
    | none => .error .protection
/-- The place of an access of `n` bytes, or the cause of its fault, in the order MEMTYPE, MISALIGN, address (R78, R79,
R237). `al` is the alignment asked for. -/
def State.placeOf (s : State) (c : Ctx) (a : Word) (n al : Nat) (p : Perm) : State × Except Cause Place :=
  if 6 ≤ c.typ ∨ c.typ = 7 then (s, .error .memtype)
  else if a.toNat % al ≠ 0 then (s, .error .misalign)
  else match c.typ with
    | 0 => (s, s.placeLocal c a.toNat n)
    | 1 => (s, s.placeTile c a.toNat n p)
    | 2 => s.placeDram c a.toNat p
    | 3 => (s, s.placePeer c a.toNat n p)
    | 4 => s.placeSym c a.toNat n p
    | _ => (s, s.placePhys c a.toNat)
/-- The place of an access through MT: TYPE 5 to 7 fault MEMTYPE (R77). -/
def State.placeMt (s : State) (c : Ctx) (a : Word) (n al : Nat) (p : Perm) : State × Except Cause Place :=
  if 5 ≤ c.typ then (s, .error .memtype) else s.placeOf c a n al p

/-- Nothing waits for number `id` among the accesses any more; what becomes free starts (R111, R101, R210). -/
def State.freeReqs (s : State) (id : Nat) : State :=
  let ready := (s.reqs.filter fun e => e.2.after.contains id && e.2.after.all (· == id) && !e.2.performed).map fun e => e.1
  ready.foldl (fun s i => s.startReq i) { s with reqs := Tab.mapV (fun _ r => { r with after := r.after.filter (· ≠ id) }) s.reqs }
/-- A request's reply has come, and only its report waits: its tag is free, and accesses wait for it no longer (R210, R419). -/
def State.unsend (s : State) (id : Nat) : State :=
  match Tab.look s.reqs id with
  | some r => if r.sent then { s with reqs := Tab.put s.reqs id { r with sent := false } }.freeReqs id else s
  | none => s
/-- Take number `id` off every list that waits for it; what becomes free goes on (R111, R101, R365, R372). -/
def State.doneId (s : State) (id : Nat) : State :=
  let s : State := { s with
    procs := Tab.mapV (fun _ p => { p with hold := p.hold.filter (· ≠ id), fills := p.fills.filter fun e => decide (e.2 ≠ id),
                                           strip := p.strip.map fun k => { k with loads := k.loads.filter (· ≠ id) } }) s.procs
    staged := s.staged.map fun m => { m with after := m.after.filter (· ≠ id) }
    binds := Tab.mapV (fun _ b => { b with after := b.after.filter (· ≠ id) }) s.binds
    tiles := Tab.mapV (fun _ t => { t with frecs := t.frecs.map fun f => { f with after := f.after.filter (· ≠ id) } }) s.tiles }
  s.freeReqs id

/-- Merge a store's bytes into those of a combining-buffer entry: a later byte replaces an earlier one (R117, R435). -/
def mergeBytes (old : List WByte) (b : WByte) : List WByte :=
  match old.find? fun x => decide (x.off = b.off) with
  | none => b :: old
  | some x =>
    let rest := old.filter fun y => decide (y.off ≠ b.off)
    let v := mergeNib x.val b.val b.nib
    let nib := if b.nib = 0 ∨ x.nib = 0 ∨ x.nib ≠ b.nib then 0 else b.nib
    { off := b.off, nib := nib, val := v } :: rest

/-- Sort written bytes by offset. -/
def sortBytes (bs : List WByte) : List WByte :=
  (List.range 64).filterMap fun o => bs.find? fun b => decide (b.off = o)
/-- The slots of a block that an entry holds, as runs of consecutive slots (R419). -/
def slotRuns (slots : List Nat) : List (List Nat) :=
  slots.foldr (fun x acc => match acc with
    | (y :: r) :: rest => if x + 1 = y then (x :: y :: r) :: rest else [x] :: (y :: r) :: rest
    | _ => [[x]]) []
/-- Cut the bytes of a partly held slot into the largest naturally aligned pieces, in increasing address (R210). -/
def pieces (bs : List WByte) (fuel o : Nat) : List (List WByte) :=
  match fuel with
  | 0 => []
  | f + 1 =>
    if 8 ≤ o % 64 ∧ o % 8 = 0 ∧ bs = [] then []
    else
      let here (n : Nat) := (List.range n).filterMap fun i => bs.find? fun b => decide (b.off = o + i)
      let ok (n : Nat) := decide (o % n = 0) && decide ((here n).length = n) && (n == 1 || (here n).all fun b => decide (b.nib = 0))
      let n := if ok 4 then 4 else if ok 2 then 2 else 1
      let rest := bs.filter fun b => decide (o + n ≤ b.off)
      (if here n = [] then [] else [here n]) ++ (if rest = [] then [] else pieces rest f (o + n))
/-- Written bytes shifted so that the first is at offset 0, with that offset. -/
def rebase (bs : List WByte) : Nat × List WByte :=
  let o := (bs.head?.map fun b => b.off).getD 0
  (o, bs.map fun b => { b with off := b.off - o })
/-- The writes that an entry drains as (R117, R210, R419). At a server the slots of one segment stay in one write, which performs
indivisibly (R116); for another package they are the requests of R210 (log 96). -/
def CbEntry.writes (e : CbEntry) : List (List WByte) :=
  let bs := sortBytes e.bs
  let slots := (List.range 8).filter fun i => bs.any fun b => decide (b.off / 8 = i)
  let joined := (List.range 8).filter fun i => slots.contains i || e.segs.any fun g => decide (g.1 / 8 ≤ i ∧ 8 * i < g.1 + g.2)
  let ofSlots (l : List Nat) := bs.filter fun b => l.contains (b.off / 8)
  let full (i : Nat) := decide ((ofSlots [i]).length = 8) && (ofSlots [i]).all fun b => decide (b.nib = 0)
  match e.block with
  | .sram _ _ => [bs]
  | .dram _ _ => (slotRuns joined).map ofSlots
  | .remote _ _ _ =>
    ((slotRuns (slots.filter full)).map ofSlots) ++
      ((slots.filter fun i => !full i).map fun i => pieces (ofSlots [i]) 16 (i * 8)).flatten
/-- The youngest store instruction whose bytes a request carries: its address and opcode (R374). -/
def CbEntry.youngest (e : CbEntry) (bs : List WByte) : BitVec 48 × Nat :=
  ((e.stores.find? fun x => bs.any fun b => x.1.any fun o => decide (o.1 = b.off)).map fun x => x.2).getD (0, 0)
/-- The address of the byte at an offset, as the store that wrote it formed it (R374). -/
def CbEntry.addrOf (e : CbEntry) (o : Nat) : Nat :=
  (((e.stores.flatMap fun x => x.1).find? fun x => decide (x.1 = o)).map fun x => x.2).getD 0
/-- A store's bytes, written at `o` from address `a` on, are the youngest at their offsets (R374). -/
def CbEntry.noteStore (e : CbEntry) (bs : List WByte) (o a : Nat) (pc : BitVec 48) (opcode : Nat) : CbEntry :=
  let offs := bs.map fun b => (b.off, a + b.off - o)
  let older := (e.stores.map fun x => (x.1.filter fun y => !offs.any fun z => decide (z.1 = y.1), x.2)).filter fun x => !x.1.isEmpty
  { e with stores := (offs, pc, opcode) :: older }
/-- Drain entry `n` of a tile's combining buffer; gives the numbers of its accesses. -/
def State.cbDrain (s : State) (t n : Nat) : State × List Nat :=
  match Tab.look (s.tile t).cb n with
  | none => (s, [])
  | some e =>
    let s := (s.updTile t fun x => { x with cb := Tab.cut x.cb n }).cancel (.cbIdleDrain t n)
    let p := s.proc e.h
    e.writes.foldl (fun (s, ids) bs =>
      let (pc, opcode) := e.youngest bs
      let (o, bs) := rebase bs
      let (s, id) := s.send (p.req e.h e.typ (e.block.plus o) (e.addrOf o) (.write bs) .none pc opcode)
      (s, ids ++ [id])) (s, [])
/-- Drain every entry of a process (R117). -/
def State.cbDrainAll (s : State) (h : Nat) : State :=
  let t := (s.proc h).tile
  ((s.tile t).cb.filter fun e => decide (e.2.h = h)).foldl (fun s e => (s.cbDrain t e.1).1) s
/-- Drain the entries of a process that hold one of `n` bytes at a place; gives the accesses. -/
def State.cbDrainAt (s : State) (h typ : Nat) (p : Place) (n : Nat) : State × List Nat :=
  let t := (s.proc h).tile
  ((s.tile t).cb.filter fun e => decide (e.2.h = h ∧ e.2.typ = typ) &&
      e.2.bs.any fun b => (e.2.block.plus b.off).overlaps 1 p n).foldl
    (fun (s, ids) e => let (s, l) := s.cbDrain t e.1; (s, ids ++ l)) (s, [])
/-- Drain every entry of a process that holds one of `n` bytes at a place, of any memory type: before an atomic, a KLD or a KST
(R117, R340). -/
def State.cbDrainTouched (s : State) (h : Nat) (p : Place) (n : Nat) : State × List Nat :=
  let t := (s.proc h).tile
  ((s.tile t).cb.filter fun e => decide (e.2.h = h) && e.2.bs.any fun b => (e.2.block.plus b.off).overlaps 1 p n).foldl
    (fun (s, ids) e => let (s, l) := s.cbDrain t e.1; (s, ids ++ l)) (s, [])
/-- Put a store's bytes of one block into the combining buffer (R117). An entry's block is the home's: the virtual address it was reached by
does not tell two entries apart. -/
def State.cbPut (s : State) (h typ : Nat) (w : Wr) (pc : BitVec 48) (opcode : Nat) : State :=
  let t := (s.proc h).tile
  let (blk, o) := w.place.block
  let bs := w.bs.map fun b => { b with off := b.off + o }
  let segs := if w.seg = 0 then [] else [(o, w.seg)]
  match (s.tile t).cb.find? fun e => decide (e.2.h = h ∧ e.2.typ = typ) && e.2.block.overlaps 1 blk 1 with
  | some (n, e) =>
    let (s, q) := s.fresh
    let e := { e.noteStore bs o w.addr pc opcode with bs := bs.foldl mergeBytes e.bs, segs := e.segs ++ segs, last := s.cycle, seq := q }
    ((s.updTile t fun x => { x with cb := Tab.put x.cb n e }).cancel (.cbIdleDrain t n)).afterCycles 64 (.cbIdleDrain t n)
  | none =>
    let lru := (s.tile t).cb.foldl (fun (a : Option (Nat × Nat)) e => match a with
      | some (_, q) => if e.2.seq < q then some (e.1, e.2.seq) else a
      | none => some (e.1, e.2.seq)) none
    let s := if Config.cbEntries ≤ (s.tile t).cb.length then (match lru with | some (n, _) => (s.cbDrain t n).1 | none => s) else s
    let n := ((List.range Config.cbEntries).find? fun i => (Tab.look (s.tile t).cb i).isNone).getD 0
    let (s, q) := s.fresh
    let e : CbEntry := { h := h, typ := typ, block := blk, bs := bs.foldl mergeBytes [], segs := segs, last := s.cycle, seq := q }
    (s.updTile t fun x => { x with cb := Tab.put x.cb n (e.noteStore bs o w.addr pc opcode) }).afterCycles 64 (.cbIdleDrain t n)
/-- Bytes of a written run from offset `n` on, as a write of their own. -/
def Wr.from (w : Wr) (n : Nat) : Wr :=
  { place := w.place.plus n, addr := w.addr + n, seg := 0,
    bs := (w.bs.filter fun b => decide (n ≤ b.off)).map fun b => { b with off := b.off - n } }
/-- Put a store's bytes into the combining buffer, block by block: one whose home address is not aligned as its own address is, by a
capability's base, may lie in two (R84, R117). -/
def State.cbStore (s : State) (h typ : Nat) (w : Wr) (pc : BitVec 48) (opcode : Nat) : State :=
  let room := 64 - w.place.block.2
  if Req.span w.bs ≤ room then s.cbPut h typ w pc opcode
  else (s.cbPut h typ { w with bs := w.bs.filter fun b => decide (b.off < room) } pc opcode).cbPut h typ (w.from room) pc opcode

/-- An access of the instruction stream, not of a stream binding (R109, R111). -/
def Req.ofStream (r : Req) : Bool :=
  match r.dest with
  | .stream _ _ => true
  | _ => false
/-- Accesses of a process that write and have not performed; the combining buffer is drained first (R111). -/
def State.release (s : State) (h : Nat) : State × List Nat :=
  let s := s.cbDrainAll h
  (s, (s.reqs.filter fun e => decide (e.2.h = h ∧ e.2.performed = false) && e.2.op.writes && !e.2.ofStream).map fun e => e.1)
/-- The cause that an error of a home's answer stands for, by memory type (R71, R211 Table 9.15, R260); 7 is a relay's refusal
(R209), 8 an unmapped page after a migration (R101). -/
def errCause (typ err : Nat) : Cause :=
  if err = 2 then .uncorrectable else if err = 7 then .leaseFault else if err = 8 then .pageFault else if typ = 3 ∧ (err = 1 ∨ err = 5) then .capFault else .protection

/-- The error that a store or atomic meets where its page cannot be translated again: 2 an uncorrectable line, 4 a permission or a translation
of SYM (R89), 8 an unmapped page (R101). -/
def againErr (typ : Nat) (c : Cause) : Nat := if c = .uncorrectable then 2 else if typ = 4 ∨ c ≠ .pageFault then 4 else 8
/-- The place of a held access that its strip hands over: one to a page whose migration has ended since translates again (R101). -/
def State.placeAgain (s : State) (h typ : Nat) (perm : Perm) (place : Place) : State × Place × Nat :=
  let p := s.proc h
  match place with
  | .dram k va =>
    let a := (s.part p.part).physOf k
    let moved := p.strip.any fun x => x.migrated.any fun m => decide (m.1 ≤ a ∧ a < m.1 + m.2)
    if moved = false then (s, place, 0)
    else match s.xlate p.tile p.part va perm with
      | (s, .ok k) => (s, .dram k va, 0)
      | (s, .error c) => (s, place, againErr typ c)
  | _ => (s, place, 0)
/-- Hand one access of a store to the memory system: LOCAL performs at once, a slice reached by its own tile's networks
goes as a request, every other home goes through the combining buffer (R103, R117, R151), but a page under migration is
waited for (R101). A LOCAL line withdrawn since the issue drops the store, as its home answers (R251, R299). -/
def State.storeOne (s : State) (h typ : Nat) (pc : BitVec 48) (opcode : Nat) (w : Wr) : State :=
  let p := s.proc h
  let (s, place, err) := s.placeAgain h typ .store w.place
  let w := { w with place := place }
  if err ≠ 0 then (s.send { p.req h typ w.place w.addr (.write w.bs) .none pc opcode with err := err }).1 else
  match w.place with
  | .sram k false =>
    if s.isWithdrawn k (Req.span w.bs) then (s.send (p.req h typ w.place w.addr (.write w.bs) .none pc opcode)).1
    else s.sramStore k w.bs
  | .sram k true =>
    if k / 0x100000 = p.tile then
      (s.send (p.req h typ w.place w.addr (.write w.bs) .none pc opcode)).1
    else s.cbStore h typ w pc opcode
  | .dram k _ =>
    if (s.migrating p.part k).isSome then
      let (s, ids) := s.cbDrainAt h typ w.place (Req.span w.bs)
      (s.send { p.req h typ w.place w.addr (.write w.bs) .none pc opcode with after := ids }).1
    else s.cbStore h typ w pc opcode
  | .remote _ _ _ => s.cbStore h typ w pc opcode
/-- Hand every access of a store instruction over, in order. -/
def State.storeAll (s : State) (h typ : Nat) (pc : BitVec 48) (opcode : Nat) (ws : List Wr) : State :=
  ws.foldl (fun s w => s.storeOne h typ pc opcode w) s

/-- Store a capability at a granule of SRAM (R83, R87). -/
def State.capToSram (s : State) (k : Nat) (c : Cap) : State :=
  let s := s.sramStore k (wbytes (bytesLE 16 c.bits.toNat))
  { s with sramTags := Tab.store s.sramTags (k / 16) c.tag false }
/-- Store a capability at a granule of HBM. -/
def State.capToHbm (s : State) (part k : Nat) (c : Cap) : State :=
  let s := s.hbmStore part k (wbytes (bytesLE 16 c.bits.toNat))
  { s with hbmTags := Tab.store s.hbmTags (k / 16) c.tag false }
/-- Hand a KST over: it bypasses the combining buffer (R340). -/
def State.capStoreOne (s : State) (h typ : Nat) (pc : BitVec 48) (place : Place) (addr : Nat) (c : Cap) : State :=
  let p := s.proc h
  let (s, place, err) := s.placeAgain h typ .store place
  match place with
  | .sram k false =>
    if s.isWithdrawn k 16 then (s.send (p.req h typ place addr (.capWrite c) .none pc 0x2A)).1 else s.capToSram k c
  | _ =>
    let (s, ids) := s.cbDrainTouched h place 16
    (s.send { p.req h typ place addr (.capWrite c) .none pc 0x2A with after := ids, err := err }).1

/-- The new value of an atomic (R119). -/
def atomicNew (fn n old v w : Nat) : Nat :=
  match fn with
  | 0 | 5 => (old + v) % 256 ^ n
  | 1 => if signedOf (8 * n) old ≤ signedOf (8 * n) v then old else v
  | 2 => if signedOf (8 * n) v ≤ signedOf (8 * n) old then old else v
  | 3 => old &&& v
  | 4 => old ||| v
  | 6 => v
  | 7 => if old = v then w else old
  | _ => old
/-- Hand an atomic over: LOCAL performs at once and gives the old value; every other home by a request, and so a line
withdrawn since the issue (R119, R121, R299). -/
def State.atomicOne (s : State) (h typ : Nat) (pc : BitVec 48) (place : Place) (addr fn n v w : Nat) (dest : ReqDest) :
    State × Option (Nat ⊕ Nat) :=
  let p := s.proc h
  let (s, place, err) := s.placeAgain h typ .atomic place
  match place with
  | .sram k false =>
    if s.isWithdrawn k n then
      let (s, id) := s.send (p.req h typ place addr (.atomic fn n v w) dest pc 0x2B)
      (s, some (.inr id))
    else
      let old := ofBytesLE (s.sramRead k n)
      (s.sramStore k (wbytes (bytesLE n (atomicNew fn n old v w))), some (.inl old))
  | _ =>
    let (s, ids) := s.cbDrainTouched h place n
    let (s, id) := s.send { p.req h typ place addr (.atomic fn n v w) dest pc 0x2B with after := ids, err := err }
    (s, some (.inr id))

end Sys2Proof.Machine
end

