-- ==== Sys2Proof/Machine/Channels.lean ====
section
/-! DEFINITION. Channels: endpoints, credits, shortfalls and recalls, staging and injection, arrival and consumption
(R53 to R64, R76, R111, R126, R434). -/

namespace Sys2Proof.Machine

/-- Endpoint number of a reader on this package: tile endpoints, host endpoints and DRAM servers. -/
def hostRid (n : Nat) : Nat := 1048576 + n
def serverRid (v : Nat) : Nat := 2097152 + v
def Dest.rid : Dest → Option Nat
  | .tile e => some e
  | .host n => some (hostRid n)
  | .server v => some (serverRid v)
  | .peer _ _ => none
/-- The tile at which a message of tile `t` leaves the mesh: the reader's, a server's attach point (R14), the bridge of the own
die (R17); traffic to a peer is the link's. -/
def Dest.tileOr (d : Dest) (t : Nat) : Nat :=
  match d with
  | .tile e => e / 256
  | .server v => serverTile v
  | .host _ => bridgeTile t
  | .peer _ _ => t
/-- The reader of an endpoint number. -/
def ridDest (rid : Nat) : Dest := if rid < 1048576 then .tile rid else if rid < 2097152 then .host (rid - 1048576) else .server (rid - 2097152)
/-- The reader lies on tile `t`. -/
def Dest.onTile (d : Dest) (t : Nat) : Bool :=
  match d with
  | .tile e => e / 256 == t
  | _ => false
/-- The reader is a host endpoint or a DRAM server. -/
def Dest.onPackage (d : Dest) : Bool :=
  match d with
  | .host _ | .server _ => true
  | _ => false
/-- Process and channel register of a process writer's number. -/
def widProc (w : Nat) : Nat := w / 16
def widReg (w : Nat) : Nat := w % 16
/-- The number is a process's. -/
def isProcWid (w : Nat) : Bool := decide (w < 2 ^ 40)
/-- The tile a writer sits on. -/
def State.widTile (s : State) (w : Nat) : Nat :=
  if isProcWid w then (s.proc (widProc w)).tile
  else if 2 ^ 41 ≤ w ∧ w < 2 ^ 42 then w - 2 ^ 41
  else if 2 ^ 65 ≤ w ∧ w < 2 ^ 66 then serverTile (w - 2 ^ 65) else 0
/-- Number by which a reader of this package knows a writer of a peer (log 18). -/
def remoteWid (p w : Nat) : Nat := 2 ^ 42 + p * 2 ^ 40 + w
def isRemoteWid (w : Nat) : Bool := decide (2 ^ 42 ≤ w ∧ w < 2 ^ 65)
def remotePeer (w : Nat) : Nat := (w - 2 ^ 42) / 2 ^ 40
def remoteOf (w : Nat) : Nat := (w - 2 ^ 42) % 2 ^ 40
/-- The tile at which messages of a writer to a reader enter the mesh: its own, for a host's the bridge of the reader's die (R17), for a
peer's the port of the engine (R15). -/
def State.seat (s : State) (part w : Nat) (d : Dest) : Nat :=
  if isRemoteWid w then s.portOf part (remotePeer w)
  else if 2 ^ 40 ≤ w ∧ w < 2 ^ 41 then bridgeTile (d.tileOr 0) else s.widTile w
/-- Slots a message occupies: its data slots, one for a marker (R53). -/
def Msg.size (m : Msg) : Nat := if m.marker then 1 else m.slots.length
/-- The end-of-stream marker. -/
def markerMsg : Msg := { slots := [], marker := true }

/-- The cycle of the last step on the list that is the same as `i`; 0 where there is none. -/
def State.lastDue (s : State) (i : Instr) : Nat := s.events.foldl (fun a e => if e.2 = i then max a e.1 else a) 0
/-- The routers of a route: along x to the destination column, then along y (R9). -/
def routeTiles (a b : Nat) : List Nat :=
  let run (x y : Nat) : List Nat := (List.range (max x y - min x y + 1)).map fun i => if x ≤ y then x + i else x - i
  ((run (tileX a) (tileX b)).map fun x => tileY a * 64 + x) ++ ((run (tileY a) (tileY b)).drop 1).map fun y => y * 64 + tileX b
/-- The outputs that a route takes: a router, and the next router or, at its end, the tile itself. -/
def routeOutputs (a b : Nat) : List (Nat × Nat) := (routeTiles a b).zip ((routeTiles a b).drop 1 ++ [b])
/-- The tiles between which a message travels: credits and recalls come from the reader, and what a peer sends or gets passes the port of
the engine (R15, R17). -/
def State.netEnds (s : State) (m : NetMsg) : Nat × Nat :=
  let w := s.seat m.part m.wid m.dest
  let r := match m.dest with
    | .peer p _ => s.portOf m.part p
    | d => d.tileOr w
  match m.body with
  | .credit _ _ _ | .recall => (r, w)
  | _ => (w, r)
/-- Messages under way whose route takes an output: the candidates with which a further message competes there (R125). -/
def State.rivals (s : State) (o : Nat × Nat) : Nat :=
  (s.net.filter fun m => (routeOutputs (s.netEnds m).1 (s.netEnds m).2).contains o).length
/-- The routers of the partition's rectangle on a route decide by their generators among the messages that want one output: a message
lets some of its rivals go first (R125, log 14). -/
def State.arbitrate (s : State) (part a b : Nat) : State × Nat :=
  if (s.part part).seed = 0 then (s, 0)
  else ((routeOutputs a b).filter fun o => (s.part part).inRect o.1).foldl (fun x o =>
    let n := x.1.rivals o
    if n = 0 then x else (x.1.afterDraw part (routerArbiter o.1), x.2 + x.1.drawn part (routerArbiter o.1) % (n + 1))) (s, 0)
/-- Send a message over the mesh from tile `a` to tile `b`; `i` is the step of its arrival, which never comes before that of an earlier
message of the writer (R19). -/
def State.netSendOn (s : State) (m : NetMsg) (a b lat : Nat) (i : Instr) : State :=
  let (s, extra) := s.arbitrate m.part a b
  { s with net := s.net ++ [m] }.afterCycles (max (lat + extra) (s.lastDue i - s.cycle)) i
/-- Send a message between the tiles at which its ends lie. -/
def State.netSend (s : State) (m : NetMsg) (lat : Nat) (i : Instr) : State := s.netSendOn m (s.netEnds m).1 (s.netEnds m).2 lat i
/-- The checking-mode run of a network: 0 none, 1 run A, 2 run B (R124). -/
def State.checkOf (s : State) (part net : Nat) : Nat :=
  (((s.part part).nets.find? fun n => decide (n.num = net)).map fun n => n.check).getD 0
/-- Change the entry of a launched network. -/
def State.updNet (s : State) (part net : Nat) (f : Net → Net) : State :=
  s.updPart part fun q => { q with nets := q.nets.map fun n => if n.num = net then f n else n }
/-- A run of checking mode fails at a tile (R124). -/
def State.failRun (s : State) (part net tile : Nat) : State :=
  if s.checkOf part net = 0 then s
  else
    let first := (s.part part).nets.any fun n => decide (n.num = net ∧ n.failed = none)
    if first then (s.updNet part net fun n => { n with failed := some tile }).later (.checkCompare part net) else s
/-- The digest of an endpoint for the run under way (R126). -/
def Net.digested (n : Net) (id : Nat) (d a : Word) : Net :=
  if n.check = 1 then { n with digestsA := n.digestsA ++ [(id, d, a)] }
  else if n.check = 2 then { n with digestsB := n.digestsB ++ [(id, d, a)] } else n
/-- Partition of a reader endpoint: a tile's, a host endpoint's, a DRAM server's; none has number 16. -/
def State.ridPart (s : State) (rid : Nat) : Nat :=
  match ridDest rid with
  | .host n => (Tab.lookD s.hostEps n {}).part
  | .server v => ((s.parts.find? fun e => e.2.servers.contains v).map fun e => e.1).getD 16
  | _ => (s.partOfTile (rid / 256)).getD 16
/-- The credit protocol between packages (log 18): kinds 1 registration, 2 shortfall, 3 recall, 4 credits, 5 the writer
leaves, 6 the reader is gone, 7 the registration is refused, 8 retarget notice, 9 its acknowledgement with the number of messages
before it, 10 the reader's new place, 11 the registration is recorded, 12 credits
that a writer returns, 13 the writer of the message whose slots follow; 14 by its form 0 a writer's new place, 2 or 3 whether a process can
take a writer's or a reader's end, 5 or 6 that it has room for one or has none, 4 whether so many messages of a writer have come, 7 that they
have, 8 that one of them will not come; 15 a channel end that moves, 0 a slot of its queue. Three slots and what a kind adds; slot credits
travel with channel data (R10), and are told from it by more than 32 slots, as messages of kind 13 are, the others on the control network. -/
def State.ctrlSendMore (s : State) (part peer kind w ep n more : Nat) (extra : List Word) : State :=
  let body := ctrlBody kind more w ep n s.ownId.toNat ++ extra
  if kind = 4 ∨ kind = 5 ∨ kind = 12 then s.linkSend part peer 2 (ep / 256) (ep % 256) (body ++ List.replicate 30 0) 0
  else s.linkSend part peer 3 (ep / 256) (ep % 256) body 0
/-- A message of the credit protocol that adds nothing to the three slots. -/
def State.ctrlSend (s : State) (part peer kind w ep n more : Nat) : State := s.ctrlSendMore part peer kind w ep n more []
/-- Send a reader's credit or recall to a writer of this package, on the route from where the reader attaches to where the writer does
(R14, R17, R434; recalls: log 88). -/
def State.toWriter (s : State) (rid wid : Nat) (b : NetBody) (i : Instr) : State :=
  let d := ridDest rid
  let part := if isProcWid wid then (s.proc (widProc wid)).part else s.ridPart rid
  let t := s.seat part wid d
  s.netSend { wid := wid, dest := d, body := b, part := part, net := 0 } (meshLatency (d.tileOr t) t 0) i
/-- A reader's grant of `n` credits to a writer; it carries BCAP and ONCE, also where nothing is FREE (R56, R65, R317, R434). -/
def State.grantCredit (s : State) (rid wid n : Nat) : State :=
  if isRemoteWid wid then
    let e := s.ep rid
    s.ctrlSend (s.ridPart rid) (remotePeer wid) 4 (remoteOf wid) rid n (e.bcap * 2 + bit1 e.once)
  else
    let e := s.ep rid
    s.toWriter rid wid (.credit n e.bcap e.once) (.creditReturn wid)
/-- Send credits from a reader to a writer. -/
def State.sendCredit (s : State) (rid wid n : Nat) : State := if n = 0 then s else s.grantCredit rid wid n
/-- Serve shortfall requests in arrival order, each only whole; while the oldest waits, recall the other writers' credits
(R56); a recall takes the time of a credit return (log 88). -/
def State.serve (s : State) (rid : Nat) : Nat → State
  | 0 => s
  | fuel + 1 =>
    let e := s.ep rid
    match e.shortfalls with
    | [] => s
    | (w, n) :: rest =>
      if n ≤ e.free then
        let s := s.updEp rid fun e => { e with shortfalls := rest, free := e.free - n, recalled := [] }
        State.serve (s.sendCredit rid w n) rid fuel
      else
        let out := decide (e.free + e.queue.length + e.reserved < e.cap)
        let others := e.writers.filter fun x => decide (x ≠ w) && !e.recalled.contains x && out
        let s := s.updEp rid fun e => { e with recalled := e.recalled ++ others }
        others.foldl (fun s x =>
          if isRemoteWid x then s.ctrlSend (s.ridPart rid) (remotePeer x) 3 (remoteOf x) rid 0 0
          else s.toWriter rid x .recall (.creditRecall x)) s
/-- Serve every request that can be. -/
def State.serveAll (s : State) (rid : Nat) : State := s.serve rid (s.ep rid).shortfalls.length
/-- The need of a process that waits in BLOCKED-WRITE for something else than credits: a registration or a move. -/
def waitOnly : Nat := 2 ^ 30
/-- Slots fall FREE at a reader and are served to whoever asks; a push to a DRAM server may wait for them on the tile (R72). -/
def State.addFree (s : State) (rid n : Nat) : State :=
  let s := (s.updEp rid fun e => { e with free := e.free + n }).serveAll rid
  s.procs.foldl (fun s e => match e.2.pst with
    | .blockedWrite c => (match (e.2.chan c).dest with
      | .server _ => if rid < 1048576 ∧ e.2.tile = rid / 256 ∧ e.2.need < waitOnly then s.wake e.1 (.blockedWrite c) else s
      | _ => s)
    | _ => s) s
/-- A consumed slot: back to the writer that pushed it, or to FREE when a request is pending or the writer has left (R56). -/
def State.giveBack (s : State) (rid wid n : Nat) : State :=
  let e := s.ep rid
  if e.shortfalls.isEmpty && e.writers.contains wid && decide (wid < 2 ^ 65) then s.sendCredit rid wid n
  else s.addFree rid n

/-- Data slots ahead of the first marker, and whether there is a marker. -/
def dataAhead (q : List QSlot) : Nat × Bool :=
  let d := q.takeWhile fun x => !x.marker
  (d.length, decide (d.length < q.length))
/-- A read of `n` slots need not wait: they are there, or the marker is (R60). -/
def readReady (q : List QSlot) (n : Nat) : Bool :=
  let (j, mk) := dataAhead q
  decide (n ≤ j) || mk
/-- Entries of a channel that the process's open strip retains (R63). -/
def Proc.retained (p : Proc) (c : Nat) : Nat := (p.strip.map fun k => Tab.lookD k.retained c 0).getD 0
/-- The queue as a process reads it through channel register `c`. -/
def State.queueOf (s : State) (h c : Nat) : List QSlot :=
  let p := s.proc h
  match (p.chan c).dest.rid with
  | some r => (s.ep r).queue.drop ((s.ep r).kept + p.retained c)
  | none => []
/-- Wake the reader of an endpoint when enough slots are present (R32); a port takes its next slot (R185). -/
def State.wakeReader (s : State) (rid : Nat) : State :=
  let e := s.ep rid
  if e.owner = 0 then s
  else
    let h := e.owner / 16
    let c := e.owner % 16
    let p := s.proc h
    match (p.chan c).use with
    | .port n => if s.isDue (.portTakeSlot p.tile n) then s else s.afterCycles 1 (.portTakeSlot p.tile n)
    | _ => if p.pst = .blockedRead c ∧ readReady (s.queueOf h c) p.need then s.goto h .ready else s

/-- A message's contribution to its endpoint's digest: the length byte, then the slots (R126). -/
def digestMsg (d : Word) (m : Msg) : Word :=
  let bytes := (if m.marker then [128] else [m.slots.length - 1]) ++
    (m.slots.map fun w => (List.range 8).map fun i => w.toNat / 256 ^ i % 256).flatten
  BitVec.ofNat 64 (bytes.foldl crc64Byte d.toNat)
/-- Put the first Caldera slots into the room of the SRAM buffer (R76). -/
def refill (bcap : Nat) (q : List QSlot) : List QSlot :=
  let room := bcap - (q.filter fun x => !x.cal).length
  (q.foldl (fun (a : List QSlot × Nat) x =>
    if x.cal && decide (0 < a.2) then (a.1 ++ [{ x with cal := false }], a.2 - 1) else (a.1 ++ [x], a.2)) ([], room)).1
/-- Append a message's slots: to the SRAM buffer while it has room and no slot is in the Caldera, else to the Caldera (R76). -/
def Endpoint.push (e : Endpoint) (wid : Nat) (m : Msg) : Endpoint :=
  let new : List QSlot := if m.marker then [{ val := 0, marker := true, wid := wid, msg := e.nextMsg, tagged := false }]
    else m.slots.map fun w => { val := w, marker := false, wid := wid, msg := e.nextMsg, tagged := m.tagged }
  let q := new.foldl (fun q x =>
    let incal := q.any (fun y => y.cal) || decide (e.bcap ≤ (q.filter fun y => !y.cal).length)
    q ++ [{ x with cal := incal }]) e.queue
  { e with queue := q, arrived := e.arrived + 1, nextMsg := e.nextMsg + 1, digest := digestMsg e.digest m }
/-- A writer number is a monitor's. -/
def State.isMonitor (s : State) (w : Nat) : Bool :=
  isProcWid w && decide (((s.proc (widProc w)).chan (widReg w)).use = .monitor)
/-- A monitor writes, or has written, to an entry: its channel has no digest (R126). -/
def State.monitored (s : State) (e : Nat) : Bool := (s.ep e).mon || (s.ep e).writers.any s.isMonitor
/-- The step by which a server serves a request, by its header's OP (R70). -/
def serverStep (v wid : Nat) (m : Msg) : Instr :=
  let hd := m.slots.headD 0
  let op := wfield hd 63 60
  let len := wfield hd 59 55
  if len = 31 ∨ m.marker then .dramBadRequest v wid
  else if op = 1 then .dramRead v wid else if op = 2 then .dramWrite v wid else .dramBadRequest v wid
/-- A whole message is written into a reader's queue (R19, R64). An entry that no reader holds discards it. -/
def State.arrive (s : State) (rid wid : Nat) (m : Msg) : State :=
  if (s.ep rid).bound = false then s
  else
    let s := s.updEp rid fun e => { e.push wid m with mon := e.mon || s.isMonitor wid, wrote := some s.cycle }
    if rid < 1048576 then s.wakeReader rid
    else if rid < 2097152 then s.later (.d2hDeliver (rid - 1048576))
    else s.later (serverStep (rid - 2097152) wid m)
/-- A message for a peer has come to the egress engine. Where an entry of a peer has several writers here, or the message is a capability, it
names its writer, as one that goes over a relay does (log 18). -/
def State.toPeer (s : State) (wid p e : Nat) (m : Msg) (part : Nat) : State :=
  let shared := s.procs.any fun q => q.2.chans.any fun c =>
    decide (c.2.role = .writer ∧ c.2.dest = .peer p e ∧ widOf q.1 c.1 ≠ wid)
  s.linkSend part p 2 (e / 256) (e % 256) (if m.tagged || shared then namedBody s.ownId.toNat wid e m.tagged m.slots else m.slots) wid
/-- The messages of a writer that are on the mesh to the egress engine come to it at once: what follows may not overtake them (R20). -/
def State.flushPeer (s : State) (wid : Nat) : State :=
  let mine (m : NetMsg) : Bool := decide (m.wid = wid) && (match m.dest, m.body with
    | .peer _ _, .data _ => true
    | _, _ => false)
  let l := s.net.filter mine
  if l.isEmpty then s
  else l.foldl (fun (s : State) m => match m.dest, m.body with
    | .peer p e, .data x => s.toPeer wid p e x m.part
    | _, _ => s) ({ s with net := s.net.filter fun m => !mine m }.cancel (.channelMessageArrive wid))
/-- Cycles from a tile to the fibre: the mesh route to the channel port of the engine that serves the link's lowest lane, 280 ns, and the
serialisation of `m` slots on its lanes (R226; log 88). -/
def State.egress (s : State) (part peer tile m : Nat) : Nat :=
  let via := ((s.route part peer).map fun r => r.1).getD peer
  match s.laneList part via with
  | [] => 0
  | _ :: ls =>
    let t := s.portOf part peer
    let rate := (if (s.link part via).speed = 0 then 224 else 112) * (ls.length + 1)
    hops tile t + 7 * crossings tile t + 420 + cdiv (3 * cdiv (576 * cdiv (m + 1) 8) rate) 2
/-- Inject a message: it leaves the source endpoint (R53), for its reader or for the egress engine (R226). -/
def State.inject (s : State) (wid : Nat) (d : Dest) (m : Msg) (part net : Nat) : State :=
  let t := s.widTile wid
  s.netSend { wid := wid, dest := d, body := .data m, part := part, net := net } (match d with
    | .peer p _ => s.egress part p t m.slots.length
    | _ => meshLatency t (d.tileOr t) m.size) (.channelMessageArrive wid)

/-- A round of a tree is aborted, and every tile of the tree is told (R224). -/
def State.abortRound (s : State) (part k r reason : Nat) : State :=
  match Tab.look (s.part part).trees k with
  | none => s
  | some tr =>
    let old := (tr.rounds.find? fun x => decide (x.num = r)).getD { num := r }
    if old.aborted.isSome ∨ old.result.isSome then s
    else
      let rounds := (tr.rounds.filter fun x => decide (x.num ≠ r)) ++ [{ old with aborted := some reason }]
      let s := s.updPart part fun q => { q with trees := Tab.put q.trees k { tr with rounds := rounds } }
      tr.entries.foldl (fun s e => s.later (.sinterAbort part k e.tile r reason)) s
/-- A round of a tree that has neither a result nor an abort. -/
def Round.isOpen (r : Round) : Bool := r.started && r.result.isNone && r.aborted.isNone
/-- A contribution of a tile would lie more than two rounds ahead of the oldest round still open (R223). -/
def State.runsAhead (s : State) (h k : Nat) : Bool :=
  let r := (Tab.lookD (s.tile (s.proc h).tile).sint k {}).contrib
  match Tab.look (s.part (s.proc h).part).trees k with
  | none => false
  | some tr => tr.rounds.any fun x => x.isOpen && decide (x.num + 2 < r)
/-- A Sinter contribution enters its round (R223); the router's step follows. -/
def State.contribute (s : State) (h k : Nat) (ty : SType) (op : SOp) (xs : List Nat) : State :=
  let p := s.proc h
  let t := p.tile
  let cnt := Tab.lookD (s.tile t).sint k {}
  let r := cnt.contrib
  let s := s.updTile t fun x => { x with sint := Tab.put x.sint k { cnt with contrib := r + 1 } }
  match Tab.look (s.part p.part).trees k with
  | none => s
  | some tr =>
    let old := (tr.rounds.find? fun x => decide (x.num = r)).getD { num := r }
    if old.aborted.isSome then s
    else
      let bad := old.started && decide (old.ty ≠ ty ∨ old.op ≠ op ∨ old.vl ≠ xs.length)
      let new : Round := if old.started then old else { old with started := true, ty := ty, op := op, vl := xs.length }
      let new := { new with contribs := Tab.put new.contribs t xs, nets := Tab.put new.nets t p.net }
      let rounds := (tr.rounds.filter fun x => decide (x.num ≠ r)) ++ [new]
      let s := s.updPart p.part fun q => { q with trees := Tab.put q.trees k { tr with rounds := rounds } }
      if bad then s.abortRound p.part k r 1
      else s.later (.sinterCombine p.part k t r)

/-- A writer still has messages that were not injected (R37, R68). -/
def State.unsent (s : State) (h c : Nat) : Bool :=
  s.staged.any (fun m => decide (m.h = h ∧ m.c = c)) ||
    s.links.any (fun e => e.2.waiting.any fun w => decide (w.2.2 = widOf h c))
/-- Messages of a writer have not come to its reader's package, or may not have: they are staged, or on their way over relays (R35, R69, R218). -/
def State.unsettled (s : State) (h c : Nat) : Bool := s.unsent h c || s.relaysOut (widOf h c)
/-- Inject every staged message whose accesses have performed and that none of its channel precedes (R53, R111); a contribution waits
while its tile would run too far ahead (R223). A message for an entry that EXIT has freed meanwhile goes to the entry, whichever binding holds it
then (log 82). -/
def State.injectAll (s : State) : State :=
  (s.staged.foldl (fun (a : State × List (Nat × Nat)) m =>
    let (s, stuck) := a
    let p := s.proc m.h
    let x := p.chan m.c
    let blocked := !m.after.isEmpty || stuck.contains (m.h, m.c) || (match m.tree with
      | none => x.frozen || x.refused.isSome
      | some (k, _) => s.runsAhead m.h k)
    if blocked then ({ s with staged := s.staged ++ [m] }, (m.h, m.c) :: stuck)
    else match m.tree with
      | some (k, ty, op, xs) => (s.contribute m.h k ty op xs, stuck)
      | none =>
        let s := s.inject (widOf m.h m.c) x.dest m.msg p.part p.net
        (if (s.proc m.h).need = 0 then s.wake m.h (.blockedWrite m.c) else s, stuck)) ({ s with staged := [] }, [])).1
/-- Number `id` has ended: whatever waited for it alone goes on (R111). -/
def State.finish (s : State) (id : Nat) : State := (s.doneId id).injectAll
/-- Stage a message: it is injected once the accesses before it have performed (R111). -/
def State.stage (s : State) (h c : Nat) (m : Msg) : State :=
  let (s, ids) := s.release h
  let x : Staged := { h := h, c := c, msg := m, after := ids }
  { s with staged := s.staged ++ [x] }.injectAll
/-- Stage a Sinter contribution; it releases as a push does (R223). -/
def State.stageTree (s : State) (h k : Nat) (ty : SType) (op : SOp) (xs : List Nat) : State :=
  let (s, ids) := s.release h
  let m : Staged := { h := h, c := 16 + k, msg := { slots := [] }, tree := some (k, ty, op, xs), after := ids }
  { s with staged := s.staged ++ [m] }.injectAll

/-- A writer asks its reader for what it lacks (R56); the request takes the time of a credit return (log 88). -/
def State.askCredit (s : State) (h c n : Nat) : State :=
  let x := (s.proc h).chan c
  if x.asked ≠ 0 ∨ n = 0 then s
  else match x.dest.rid with
    | none => match x.dest with
      | .peer p e => (s.updChan h c fun x => { x with asked := n }).ctrlSend (s.proc h).part p 2 (widOf h c) e n 0
      | _ => s
    | some _ =>
      let p := s.proc h
      let s := s.updChan h c fun x => { x with asked := n }
      s.netSend { wid := widOf h c, dest := x.dest, body := .shortfall n, part := p.part, net := p.net }
        (meshLatency p.tile (x.dest.tileOr p.tile) 0) (.shortfallRequest (widOf h c))
/-- A writer that lacks nothing any more takes its request back. -/
def State.withdrawAsk (s : State) (h c : Nat) : State :=
  let x := (s.proc h).chan c
  if x.asked = 0 then s
  else
    let w := widOf h c
    let s := s.updChan h c fun x => { x with asked := 0 }
    let mine (m : NetMsg) : Bool := decide (m.wid = w) && (match m.body with
      | .shortfall _ => true
      | _ => false)
    let s := { s with net := s.net.filter fun m => !mine m }
    match x.dest.rid with
    | some rid => (s.updEp rid fun e => { e with shortfalls := e.shortfalls.filter fun q => decide (q.1 ≠ w) }).serveAll rid
    | none => s
/-- What a writer that waits still lacks has changed: its request, under way or waiting at the reader, is for that many slots in
its place; where the reader has served it and no credit is under way, the writer asks anew (R56, log 23). -/
def State.adjustAsk (s : State) (h c n : Nat) : State :=
  let x := (s.proc h).chan c
  let w := widOf h c
  let s := s.updChan h c fun x => { x with asked := n }
  match x.dest.rid with
  | none => match x.dest with
    | .peer p e => s.ctrlSend (s.proc h).part p 2 w e n 0
    | _ => s
  | some rid =>
    let flies := s.net.any fun m => decide (m.wid = w) && (match m.body with | .shortfall _ => true | _ => false)
    let comes := s.net.any fun m => decide (m.wid = w) && (match m.body with | .credit k _ _ => decide (0 < k) | _ => false)
    if flies then
      let set (m : NetMsg) : NetMsg := match m.body with
        | .shortfall _ => if m.wid = w then { m with body := .shortfall n } else m
        | _ => m
      { s with net := s.net.map set }
    else if (s.ep rid).shortfalls.any fun q => decide (q.1 = w) then
      (s.updEp rid fun e => { e with shortfalls := e.shortfalls.map fun q => if q.1 = w then (w, n) else q }).serveAll rid
    else if comes then s
    else (s.updChan h c fun x => { x with asked := 0 }).askCredit h c n
/-- Credits reach a writer (R56): the process wakes when it holds enough, or learns that it never can (R317). -/
def State.gainCredit (s : State) (wid n bcap : Nat) (once : Bool) (d : Dest) : State :=
  if isProcWid wid then
    let h := widProc wid
    let c := widReg wid
    let x := (s.proc h).chan c
    if x.role ≠ .writer ∨ x.dest ≠ d then
      (match d with
        | .peer p e => s.ctrlSend (s.proc h).part p 5 wid e n 0
        | _ => (match d.rid with | some r => s.addFree r n | none => s))
    else
      let s := s.updChan h c fun x =>
        { x with credits := x.credits + n, granted := true, bcap := bcap, once := once, registered := true }
      let p := s.proc h
      let x := p.chan c
      let waits := decide (p.pst = .blockedWrite c ∧ p.need < waitOnly ∧ x.credits < p.need ∧ p.need ≤ x.bcap)
      let s := if waits then s.adjustAsk h c (p.need - x.credits) else s.withdrawAsk h c
      match x.use with
      | .tap k => s.afterCycles 1 (.tapCreditPush p.tile k)
      | .monitor => s.afterCycles 1 (.monitorPendingPush p.tile wid)
      | _ => if p.pst = .blockedWrite c ∧ p.need < waitOnly ∧ waits = false then s.goto h .ready else s
  else if 2 ^ 40 ≤ wid ∧ wid < 2 ^ 41 then
    let k := wid - 2 ^ 40
    let e := Tab.lookD s.hostEps k {}
    ({ s with hostEps := Tab.put s.hostEps k { e with credits := e.credits + n, granted := e.granted + BitVec.ofNat 64 n } }).afterCycles
      1 (.hostCreditUpdate k)
  else s

/-- Consume `k` entries at the head of an endpoint, behind those that an earlier reader's strip retains (R69): their slots return (R56), the Caldera refills the buffer (R76), but not
while the key slot under which it is encrypted is empty (R260). -/
def State.consume (s : State) (rid k : Nat) : State :=
  let e := s.ep rid
  let took := (e.queue.drop e.kept).take k
  let full := (s.part (s.ridPart rid)).key.full
  let left (e : Endpoint) : List QSlot := e.queue.take e.kept ++ e.queue.drop (e.kept + k)
  let s := s.updEp rid fun e =>
    { e with queue := if full then refill e.bcap (left e) else left e, consumed := e.consumed + BitVec.ofNat 64 took.length }
  let runs := took.foldr (fun x acc => match acc with
    | (w, n) :: rest => if w = x.wid then (w, n + 1) :: rest else (x.wid, 1) :: (w, n) :: rest
    | [] => [(x.wid, 1)]) []
  runs.foldl (fun s r => s.giveBack rid r.1 r.2) s

/-- A writer's number changes: its registrations, requests, slots and messages keep their places (R35, R69). -/
def State.renameWid (s : State) (old new : Nat) : State :=
  let r (w : Nat) := if w = old then new else w
  { s with
    eps := Tab.mapV (fun _ e => { e with writers := e.writers.map r, shortfalls := e.shortfalls.map fun q => (r q.1, q.2),
                                         recalled := e.recalled.map r, queue := e.queue.map fun x => { x with wid := r x.wid },
                                         came := if (Tab.look e.came old).isSome then Tab.put (Tab.cut e.came old) new (Tab.lookD e.came old 0) else e.came }) s.eps
    net := s.net.map fun m => { m with wid := r m.wid }
    events := s.events.map fun e => (e.1, match e.2 with
      | .writerRegistration w => .writerRegistration (r w)
      | .shortfallRequest w => .shortfallRequest (r w)
      | .creditRecall w => .creditRecall (r w)
      | .creditReturn w => .creditReturn (r w)
      | .channelMessageArrive w => .channelMessageArrive (r w)
      | i => i)
    hostEps := Tab.mapV (fun _ e => { e with ring := e.ring.map r }) s.hostEps }
/-- A writer binding moves from one process to another with its credits, behind the messages already staged (R35, R69). -/
def State.moveWriter (s : State) (h c h' : Nat) : State :=
  let x := (s.proc h).chan c
  let s := (s.flushPeer (widOf h c)).updChan h c fun _ => {}
  let mine (m : Staged) : Staged := if m.h = h ∧ m.c = c then { m with h := h' } else m
  let wait (w : Nat × List Word × Nat) : Nat × List Word × Nat := if w.2.2 = widOf h c then (w.1, w.2.1, widOf h' c) else w
  let s : State := { s with staged := s.staged.map mine,
                            links := Tab.mapV (fun _ k => { k with waiting := k.waiting.map wait }) s.links }
  match x.dest with
  | .peer p e =>
    let s := s.ctrlSendMore (s.proc h).part p 14 (widOf h c) e 0 0 [BitVec.ofNat 64 (s.ownId.toNat * 2 ^ 40 + widOf h' c)]
    s.updChan h' c fun _ => x
  | _ => (s.renameWid (widOf h c) (widOf h' c)).updChan h' c fun _ => x

/-- What the array and the monitors of a process's tile bind to one of its channel registers ends, and the register is plain; where a monitor
wrote, the entry's channel stays without a digest (R126). -/
def State.plainChan (s : State) (h c : Nat) : State :=
  let y := (s.proc h).chan c
  let s := match y.use, y.dest.rid with
    | .monitor, some rid => s.updEp rid fun e => { e with mon := true }
    | _, _ => s
  (s.updTile (s.proc h).tile fun x =>
    { x with mons := x.mons.filter fun m => !decide (m.h = h ∧ m.c = c)
             an := { x.an with ports := x.an.ports.filter fun e => !decide (e.2.h = h ∧ e.2.ch = c)
                               taps := x.an.taps.filter fun e => !decide (e.2.h = h ∧ e.2.ch = c) } }).updChan h c fun y => { y with use := .plain }
/-- A process is swapped out, parked or halted: the state in which a channel end of it can move (R69). -/
def Proc.atRest (p : Proc) : Bool := decide (p.res = .swapped ∨ p.pst = .parkedFault ∨ p.pst = .haltedDebug)
/-- The steps of a move begin: its notices to the writers, or P's staged messages (R69). -/
def State.moveStart (s : State) (mv : Nat) (m : Move) : State :=
  let s := { s with moves := Tab.put s.moves mv m }
  let s := if m.reader then m.waiting.foldl (fun s v => s.later (.retargetNotice mv v)) s else s
  if m.waiting.isEmpty ∨ m.reader = false then s.later (.retargetAck mv 0) else s

/-- Push a message of the module itself to a host endpoint: records and replies (R204, R252, R265, R266). -/
def State.toHost (s : State) (n : Nat) (slots : List Word) : State :=
  let s := if (s.ep (hostRid n)).bound then s else s.updEp (hostRid n) fun e => { e with bound := true }
  s.arrive (hostRid n) loaderWid { slots := slots }

/-- The lowest free run of a tile's channel buffer area for `cap` slots (R55). -/
def State.bufferRun (s : State) (tile cap : Nat) : Option Nat :=
  let q := s.part ((s.partOfTile tile).getD 16)
  let size := cdiv (8 * cap) 64 * 64
  let lo := 0x100000 - q.cbsize
  let used := (s.eps.filter fun e => e.2.bound && decide (e.1 / 256 = tile ∧ e.1 < 1048576)).map fun e =>
    (e.2.run, cdiv (8 * e.2.bcap) 64 * 64)
  let cands := lo :: used.map fun u => u.1 + u.2
  let ok (b : Nat) := decide (lo ≤ b ∧ b + size ≤ 0x100000) && used.all fun u => decide (b + size ≤ u.1 ∨ u.1 + u.2 ≤ b)
  (cands.filter ok).foldl (fun a b => match a with | some x => some (min x b) | none => some b) none

end Sys2Proof.Machine
end

