-- ==== Sys2Proof/Machine/Strips.lean ====
section
/-! DEFINITION. Strips: opening with its checkpoint, commit in the order of R151, restart (R148 to R154); queueing of stream
bindings on their ports (R92). -/

namespace Sys2Proof.Machine

/-- Bindings of a process that stay held because their strip has not committed (R92). -/
def Proc.uncommitted (p : Proc) : List Nat :=
  match p.strip with
  | some k => k.held.filterMap fun x => match x with
    | .bind id => some id
    | _ => none
  | none => []
/-- Held bindings of a process on a port that may enter its queue, in program order (R92). -/
def State.heldOn (s : State) (h port : Nat) : List Nat :=
  (s.binds.filter fun e => decide (e.2.h = h ∧ e.2.port = port ∧ e.2.st = .held) && !(s.proc h).uncommitted.contains e.1).map
    fun e => e.1
/-- Queue a held binding on its port, if an entry is free and no earlier one of the process waits (R92); the running binding has one of the
eight entries (log 92). A process that
waited for the entry becomes READY. -/
def State.enqueueBind (s : State) (id : Nat) : State :=
  match Tab.look s.binds id with
  | none => s
  | some b =>
    let q := Tab.lookD (s.tile b.tile).ports b.port []
    if Config.portDepth ≤ q.length ∨ (s.heldOn b.h b.port).any (fun i => decide (i < id)) then s
    else
      let s := { s with binds := Tab.put s.binds id { b with st := .queued } }
      let s := s.updTile b.tile fun t => { t with ports := Tab.put t.ports b.port (q ++ [id]) }
      let s := if q.isEmpty then s.later (.streamStart b.tile b.port) else s
      if (s.proc b.h).pst = .blockedToken b.sd ∧ (s.proc b.h).need = id then
        s.updProc b.h fun p => { p.enter .ready s.cycle with need := 0 }
      else s

/-- Open a strip at `pc` with the limits of Table 7.2 (R148, R149, R153). -/
def State.openStrip (s : State) (h : Nat) (pc : BitVec 48) (maxVec maxSca : Nat) : State :=
  s.updProc h fun p =>
    let k : Strip :=
      { pc := pc, sregs := p.sregs, pend := p.pend, vs := p.vs, vt := p.vt, vmsel := p.vmsel, mt := p.mt, peer := p.peer,
        cflags := p.cflags, mstep := p.mstep, maxVec := maxVec, maxSca := maxSca, vpushed := p.vpushed }
    { p with strip := some k }

/-- Slots of the reply that a request to a DRAM server asks for, and its reply endpoint (R70, R72); one slot for a reserved OP,
whose reply is a header alone (log 82). -/
def replySize (m : Msg) : Nat × Nat :=
  let hd := m.slots.headD 0
  ((if wfield hd 63 60 = 1 then wfield hd 59 55 + 2 else 1), wfield hd 46 36 * 256 + wfield hd 35 28)

/-- Hand over one thing that a strip held (R151 steps 1, 2 and 4). -/
def State.handOver (s : State) (h : Nat) (x : Held) : State :=
  match x with
  | .store typ pc op ws => s.storeAll h typ pc op ws
  | .capStore typ pc place addr c => s.capStoreOne h typ pc place addr c
  | .atomic typ pc place addr fn n v => (s.atomicOne h typ pc place addr fn n v 0 .none).1
  | .push c m => s.stage h c m
  | .ksend c k m => (s.updProc h fun p => p.setCap k {}).stage h c m
  | .tree k ty op xs => s.stageTree h k ty op xs
  | .bind id =>
    let s := match Tab.look s.binds id with
      | some b => if b.sd = 0 then s else s.updProc h fun p => { p with pend := Tab.put p.pend b.sd (.token id) }
      | none => s
    s.enqueueBind id
/-- The step of R151 to which a held thing belongs: 1 accesses, 2 messages, 4 bindings. -/
def Held.phase : Held → Nat
  | .store _ _ _ _ | .capStore _ _ _ _ _ | .atomic _ _ _ _ _ _ _ => 1
  | .push _ _ | .ksend _ _ _ | .tree _ _ _ _ => 2
  | .bind _ => 4
/-- The bindings of a commit are queued after the accesses handed over before it (R113). -/
def State.releaseBinds (s : State) (h : Nat) (ids : List Nat) : State :=
  if ids.isEmpty then s
  else
    let (s, after) := s.release h
    { s with binds := Tab.mapV (fun i b => if ids.contains i then { b with after := after } else b) s.binds }
/-- Steps 1 and 2 of a commit: accesses and messages are handed over in program order; the bindings stay held (R151). -/
def State.commitStart (s : State) (h : Nat) : State :=
  match (s.proc h).strip with
  | none => s
  | some k =>
    let part (n : Nat) := k.held.filter fun x => x.phase == n
    let s := s.updProc h fun p => { p with strip := some { k with held := part 4, committing := true } }
    let s := (part 1).foldl (fun s x => s.handOver h x) s
    (part 2).foldl (fun s x => s.handOver h x) s
/-- Accesses that the staged messages of a process wait for before they are injected (R111, R151). -/
def State.injectAfter (s : State) (h : Nat) : List Nat := (s.staged.filter fun m => decide (m.h = h)).flatMap fun m => m.after
/-- Entries that a strip retains at an endpoint which has moved are consumed, or only given up (R69). -/
def State.endKeptAt (s : State) (id n : Nat) (take : Bool) : State :=
  let s := s.updEp id fun y => { y with kept := y.kept - n }
  if take then s.consume id n else s
/-- The same for every endpoint that has moved, on this package and to peers (R69, log 18). -/
def State.endKept (s : State) (k : Strip) (take : Bool) : State :=
  let s := k.kept.foldl (fun s e => s.endKeptAt e.1 e.2 take) s
  k.keptAway.foldl (fun s e => s.ctrlSendMore e.2.2.1 e.1 0 e.2.1 0 0 (if take then 4 else 8) [BitVec.ofNat 64 e.2.2.2]) s
/-- Steps 3 to 6 of a commit: retained slots, bindings, flags (R151). -/
def State.commitEnd (s : State) (h : Nat) : State :=
  match (s.proc h).strip with
  | none => s
  | some k =>
    let s := s.updProc h fun p => { p with strip := none }
    let s := k.retained.foldl (fun s e => match ((s.proc h).chan e.1).dest.rid with
      | some rid => s.consume rid e.2
      | none => s) s
    let s := s.endKept k true
    let s := s.releaseBinds h (k.held.filterMap fun x => match x with | .bind id => some id | _ => none)
    let s := k.held.foldl (fun s x => s.handOver h x) s
    s.updProc h fun p => { p with fflags := p.fflags ||| k.fflags }
/-- Commit the open strip of a process where nothing is to be waited for (R151). -/
def State.commit (s : State) (h : Nat) : State := (s.commitStart h).commitEnd h
/-- A commit of the process has begun and not ended: nothing stops the process meanwhile (R151, R243). -/
def Proc.inCommit (p : Proc) : Bool := (p.strip.map fun k => k.committing).getD false

/-- Take back one thing that a strip held: the credits of a message return to the writer, a reserved reply to its endpoint,
a binding disappears (R63, R72, R92, R152). -/
def State.takeBack (s : State) (h : Nat) (x : Held) : State :=
  match x with
  | .push c m | .ksend c _ m =>
    let x := (s.proc h).chan c
    let s := s.updChan h c fun x => { x with credits := x.credits + m.size }
    match x.dest with
    | .server _ =>
      let (n, e) := replySize m
      (s.updEp e fun y => { y with reserved := y.reserved - n }).addFree e n
    | _ => s
  | .bind id => { s with binds := Tab.cut s.binds id }
  | _ => s
/-- Write the old contents of a register bank back (R149). -/
def State.undoBank (s : State) (t : Nat) (k : Strip) : State :=
  s.updTile t fun x =>
    { x with vbank := k.undoV.foldl (fun b e => Tab.store b e.1 e.2 0) x.vbank
             mbank := k.undoM.foldl (fun b e => Tab.store b e.1 e.2 false) x.mbank }
/-- A pending grant survives a restart; its SETVL's register does not take the result (R47, R152, log 17). -/
def Proc.unnameGrant (p : Proc) : Proc := { p with pgrant := p.pgrant.map fun g => { g with sd := 0 } }
/-- Restart the open strip of a process (R152): what it held is discarded, the checkpoint restored, the PC at its SETVL. -/
def State.restart (s : State) (h : Nat) : State :=
  match (s.proc h).strip with
  | none => s
  | some k =>
    let s := k.held.foldl (fun s x => s.takeBack h x) s
    let s := s.endKept k false
    let s := s.undoBank (s.proc h).tile k
    let s := { s with reqs := Tab.mapV (fun i r => if k.loads.contains i then { r with dropped := true } else r) s.reqs }
    let t := (s.proc h).tile
    let s := s.updTile t fun x => { x with laneReqs := x.laneReqs.map fun q => if q.h = h then { q with sd := 0 } else q }
    s.updProc h fun p =>
      let p := p.unnameGrant
      { p with strip := none, pc := k.pc, sregs := k.sregs, pend := k.pend, vs := k.vs, vt := k.vt, vmsel := k.vmsel,
               mt := k.mt, peer := k.peer, cflags := k.cflags, mstep := k.mstep, vpushed := k.vpushed, need := 0, hold := [],
               fills := p.fills.filter fun e => !k.loads.contains e.2 }
/-- Restart the strip and leave a blocked state (R152, R243). -/
def State.abandon (s : State) (h : Nat) : State :=
  if (s.proc h).strip.isNone then s
  else
    let s := s.restart h
    match (s.proc h).pst with
    | .blockedRead _ | .blockedWrite _ | .blockedToken _ => s.goto h .ready
    | _ => s

end Sys2Proof.Machine
end

