-- ==== Sys2Proof/Machine/Ops.lean ====
section
/-! DEFINITION. The shared operations of instructions and steps: completing, blocking and holding an instruction, fault
records, parking, taking a trap and returning from it (R228 to R235), commits, ownership of units (R239 to R242), the end of
endpoints and of units (R37). -/

namespace Sys2Proof.Machine

/-- What `exec` answers. -/
abbrev Out := Host.Outcome State Fault Refusal

/-- Count `n` events of a monitor counter on a tile; monitors whose threshold is crossed fire in this cycle (R51). -/
def State.countEvent (s : State) (t sel n : Nat) : State :=
  let ms := (s.tile t).mons
  if ms.any fun m => decide (m.sel = sel) then
    let fired := ms.filter fun m => decide (m.sel = sel ∧ m.count / m.t < (m.count + n) / m.t)
    let s := s.updTile t fun x => { x with mons := x.mons.map fun m => if m.sel = sel then { m with count := m.count + n } else m }
    fired.foldl (fun s m => s.afterCycles 0 (.monitorFire t (widOf m.h m.c))) s
  else s

/-- What a fault record says beside its cause (Table 10.5). -/
structure FInfo where
  /-- DETAIL bits beside the opcode. -/
  detail : Nat := 0
  aux : Nat := 0
  count : Nat := 0
  stride : Word := 0
  /-- Page numbers VA[47:16] in ascending element order. -/
  pages : List Nat := []
  addr : Option Nat := none
  /-- A fetch fault has no instruction word. -/
  fetch : Bool := false
  /-- A vector load or store: its fault belongs to the class of strip restart (R154, R230). -/
  vec : Bool := false
  /-- VOWN: the current owner, and the slivers of XMASK. -/
  owner : Nat := 0
  xmask : Nat := 0
  deriving Repr

/-- Distinct members in their order. -/
def distinct (l : List Nat) : List Nat := l.foldl (fun a x => if a.contains x then a else a ++ [x]) []
/-- Slots 4 to 7 of a record that lists pages. -/
def pageSlots (ps : List Nat) : List Word :=
  (List.range 4).map fun i => BitVec.ofNat 64 (ps.getD (2 * i) 0 % 2 ^ 32 + ps.getD (2 * i + 1) 0 % 2 ^ 32 * 2 ^ 32)
/-- Slot 0 of a record. -/
def recSlot0 (handle detail origin : Nat) (more : Bool) (npg : Nat) (c : Nat) : Word :=
  BitVec.ofNat 64 (handle * 2 ^ 32 + detail % 65536 * 65536 + origin * 8192 + bit1 more * 4096 + npg * 256 + c)
/-- Slot 1: FOFF and SPC. -/
def recSlot1 (fpc spc : BitVec 48) : Word :=
  let d := if spc.toNat ≤ fpc.toNat then min ((fpc.toNat - spc.toNat) / 4) 0xFFFF else 0xFFFF
  BitVec.ofNat 64 (d * 2 ^ 48 + spc.toNat)
/-- The eight slots of an instruction's record (R235). -/
def recordOf (handle op : Nat) (c : Cause) (x : FInfo) (fpc spc : BitVec 48) : List Word :=
  let lists := decide (c = .pageFault ∨ c = .uncorrectable)
  let pages := if lists then distinct x.pages else []
  let detail := if x.fetch then 0x8000 else op % 64 + x.detail
  let body := if lists then pageSlots (pages.take 8) else
    [BitVec.ofNat 64 (x.addr.getD 0), 0, 0, 0]
  [recSlot0 handle detail 0 (decide (8 < pages.length)) (min 8 pages.length) c.code, recSlot1 fpc spc,
   BitVec.ofNat 64 (x.count % 2 ^ 32 * 2 ^ 32 + x.aux % 2 ^ 32), x.stride] ++ body

/-- FREC of a process takes slot 0 of a record formed for it, in its saved context too (R229, R267). -/
def State.noteFrec (s : State) (h : Nat) (w : Word) : State :=
  let p := s.proc h
  let s := s.updProc h fun p => { p with frec := w }
  match p.res, p.cbAt with
  | .swapped, some k => s.hbmStore p.part (k + 0x118) (wbytes (bytesLE 8 w.toNat))
  | _, _ => s
/-- Queue a record at its tile; it is pushed when the fault channel has credit (R233). A record of dropped accesses, of a stream or of a
domain is formed for the process that it names (R229); a parking process notes its own. -/
def State.queueRecord (s : State) (tile : Nat) (r : FRec) : State :=
  let s := match r.kind with
    | .drop _ | .stream _ | .domain _ => s.noteFrec (wfield (r.slots.headD 0) 63 32) (r.slots.headD 0)
    | _ => s
  let s := s.updTile tile fun x => { x with frecs := x.frecs ++ [{ r with at_ := s.cycle }] }
  if s.isDue (.faultRecordPush tile) then s else s.afterCycles 1 (.faultRecordPush tile)
/-- Park a process with its record (R231). -/
def State.park (s : State) (h : Nat) (slots : List Word) (epc : BitVec 48) (cls : FClass) (fpc : BitVec 48) : State :=
  let (s, ids) := s.release h
  let p := s.proc h
  let s := s.updProc h fun p =>
    { p.enter .parkedFault s.cycle with epc := epc, fclass := cls, fpc := fpc, frec := slots.headD 0, need := 0, hold := [], passes := none }
  (s.queueRecord p.tile { kind := .instr h, part := p.part, firmware := decide (1 ≤ p.pl), slots := slots, after := ids }).failRun
    p.part p.net p.tile
/-- An instruction that has issued and not ended is given up: its accesses are no longer wanted, and a DSTEP goes on with its PEND when
it issues again (R193, R243, R331). -/
def State.dropHeld (s : State) (h : Nat) : State :=
  let mine (e : Req) : Bool := decide (e.h = h) && (match e.dest with
    | .bulk _ | .cap _ => true
    | _ => false)
  let s := { s with reqs := Tab.mapV (fun _ e => if mine e then { e with dropped := true } else e) s.reqs }
  s.updProc h fun p => { p with bulk := none, hold := [], dstep := none, dcont := if p.dstep.isSome then some p.pc else p.dcont }
/-- A DSTEP of the analyser's former owner is given up when another process becomes its owner (R242). -/
def State.dropDstep (s : State) (old new : Nat) : State :=
  if old = 0 ∨ old = new ∨ (s.proc old).dstep.isNone then s else s.dropHeld old
/-- TrapEntry of R228: EPC, CAUSE, FREC, STATUS, and the PC at TVEC. -/
def State.trapEntry (s : State) (h : Nat) (code detail xmask : Nat) (rec0 : Word) (epc : BitVec 48) : State :=
  let p := s.proc h
  s.updProc h fun q =>
    { q.enter .ready s.cycle with
      epc := epc, cause := BitVec.ofNat 48 (code + detail % 65536 * 65536 + xmask % 65536 * 2 ^ 32), frec := rec0,
      status := statusOf 1 p.pl p.det p.ss p.dbg (p.xo || decide (code = Cause.vown.code)),
      pc := (s.part p.part).tvec, since := s.cycle + 1, lastIssue := some s.cycle, need := 0, hold := [], handler := true }
/-- Taking an exception: a strip restarts; VOWN and SOFTWARE_TRAP at level 0 enter the handler, every other cause parks the
process with its record (R228, R230, R231, R236). -/
def State.raiseAt (s : State) (h op : Nat) (c : Cause) (x : FInfo) : State :=
  let p := s.proc h
  let fpc := p.pc
  let spc := (p.strip.map fun k => k.pc).getD fpc
  let handle := if c = .vown then x.owner else h
  let slots := recordOf handle op c x fpc spc
  let cls : FClass := if p.strip.isSome ∨ x.vec then .strip else .precise
  let s := s.restart h
  if (c = .vown ∨ c = .softwareTrap) ∧ p.pl = 0 then
    s.trapEntry h c.code (op % 64 + x.detail) x.xmask (slots.headD 0) spc
  else s.park h slots fpc cls fpc
/-- A fault of the running process's instruction with major opcode `op`. -/
def State.raise (s : State) (op : Nat) (c : Cause) (x : FInfo := {}) : State := s.raiseAt s.running op c x
/-- A fault that names an address: the page it lies on, and the address itself. -/
def FInfo.at (a : Nat) : FInfo := { pages := [a / 65536 % 2 ^ 32], addr := some a }

/-- The process's instructions raise STEP (R245); those of a trap's handler do not: stepping goes on at the instruction that ERET returns
to (R382, log 89). -/
def Proc.steps (p : Proc) : Bool := p.ss && !p.handler
/-- STEP after an instruction at `pc` has completed issue (R245). -/
def State.stepTrap (s : State) (h op : Nat) (pc : BitVec 48) : State :=
  let p := s.proc h
  if p.dbg then s.updProc h fun p => { p.enter .haltedDebug s.cycle with epc := p.pc }
  else s.park h (recordOf h op .step {} pc pc) p.pc .step pc
/-- The instruction of process `h` completes, and `next` is the next instruction (R32, R41, R245). -/
def State.completeAt (s : State) (h op : Nat) (next : BitVec 48) : State :=
  let p := s.proc h
  let s := s.updProc h fun q =>
    { q.enter .ready s.cycle with
      pc := next, lastIssue := some s.cycle, since := s.cycle + 1, vpushed := Tab.cut q.vpushed q.pc.toNat, need := 0
      dcont := if q.handler then q.dcont else none }
  let s := s.countEvent p.tile 1 1
  if p.steps then s.stepTrap h op p.pc else s
/-- The running process's instruction completes and goes to `next`. -/
def State.jump (s : State) (op : Nat) (next : BitVec 48) : State := s.completeAt s.running op next
/-- The running process's instruction completes; the next one follows it (R272). -/
def State.retire (s : State) (op : Nat) : State := s.jump op (s.me.pc + 4)
/-- The running process blocks; its instruction issues again when it wakes (R32). -/
def State.block (s : State) (st : PState) (need : Nat) : State :=
  s.updMe fun p => { p.enter st s.cycle with lastIssue := some s.cycle, need := need }
/-- The running process's instruction is held as by a fixed-latency interlock until the accesses end (R31, R41); another
process may issue in its place. -/
def State.holdOn (s : State) (ids : List Nat) : State :=
  let t := s.myTile
  { (s.updMe fun p => { p with hold := ids, pst := .ready, epoch := p.epoch - 1 }) with issueLeft := t :: s.issueLeft }
/-- The running process's instruction is held by the interlock of a result in a fixed-latency pipeline until cycle `n` (R31,
R41). -/
def State.holdUntil (s : State) (n : Nat) : State :=
  let t := s.myTile
  { (s.updMe fun p => { p with busy := n, pst := .ready, epoch := p.epoch - 1 }) with issueLeft := t :: s.issueLeft }
/-- The cycle in which the last of some scalar registers leaves its fixed-latency pipeline. -/
def Proc.lateUntil (p : Proc) (rs : List (BitVec 5)) : Nat := (rs.map fun r => if r = 0 then 0 else Tab.lookD p.lat r.toNat 0).foldl max 0
/-- Write a scalar register by a pipeline of `n` cycles (R31). -/
def State.setRegAfter (s : State) (r : BitVec 5) (v : Word) (n : Nat) : State :=
  (s.setReg r v).updMe fun p =>
    { p with lat := if r = 0 then p.lat else Tab.put (p.lat.filter fun e => decide (s.cycle < e.2)) r.toNat (s.cycle + n) }
/-- The running process's instruction has issued and runs on; the next one is held until it ends (R31, R165). -/
def State.issueHeld (s : State) (ids : List Nat) : State :=
  (s.updMe fun p => { p.enter .ready s.cycle with lastIssue := some s.cycle, since := s.cycle + 1, hold := ids }).countEvent s.myTile 1 1
/-- An instruction of process `h` that ran on has ended; the next one follows it. -/
def State.finishHeld (s : State) (h op : Nat) : State :=
  let p := s.proc h
  let s := s.updProc h fun q => { q with pc := p.pc + 4, need := 0 }
  if p.steps then s.stepTrap h op p.pc else s
/-- Go on only when none of the registers named is pending or still in a fixed-latency pipeline (R31). -/
def State.withRegs (s : State) (rs : List (BitVec 5)) (k : State) : State :=
  match rs.find? fun r => s.me.isPending r.toNat with
  | some r => s.block (.blockedToken r.toNat) 0
  | none => if s.cycle < s.me.lateUntil rs then s.holdUntil (s.me.lateUntil rs) else k
/-- Registers d to d + m, as numbers. -/
def regRun (d : BitVec 5) (m : Nat) : List (BitVec 5) := (List.range (m + 1)).map fun i => d + BitVec.ofNat 5 i
/-- Commit the open strip and go on: after the replies of its loads the commit begins, and it ends once the accesses that its
messages follow have performed (R148, R151). -/
def State.afterCommit (s : State) (k : State → State) : State :=
  match s.me.strip with
  | none => k s
  | some t =>
    if t.loads ≠ [] then s.holdOn t.loads
    else
      let s := if t.committing then s else s.commitStart s.running
      if s.injectAfter s.running ≠ [] then s.holdOn (s.injectAfter s.running) else k (s.commitEnd s.running)
/-- Commit the open strip of an instruction that uses the scalar registers named: they must not be pending, neither before nor
after the commit, which may make one pending (R31, R92, R151). -/
def State.withRegsCommit (s : State) (rs : List (BitVec 5)) (k : State → State) : State :=
  s.withRegs rs (s.afterCommit fun s => s.withRegs rs (k s))
/-- Go on only when no grant of a SETVL is pending (R47). -/
def State.afterGrant (s : State) (k : State) : State :=
  match s.me.pgrant with
  | some g => s.block (.blockedToken g.sd) 0
  | none => k

/-- Slivers of a set given as bits. -/
def sliversOf (m : Nat) : List Nat := (List.range 16).filter fun i => bitAt m i
/-- The unit that CAUSE names, for XO (R242): 0 slivers, 1 tile registers, 2 analyser. -/
def Proc.causeUnit (p : Proc) : Nat := field p.cause.toNat 23 22
/-- XO lifts the ownership check of a unit kind. -/
def Proc.crosses (p : Proc) (kind : Nat) : Bool := p.xo && decide (p.causeUnit = kind)
/-- The slivers whose lanes the process's vector instructions use: its grant, or under XO those of XMASK (R242). -/
def Proc.useSlivers (p : Proc) : List Nat := if p.crosses 0 then sliversOf (field p.cause.toNat 47 32) else p.slivers
/-- Units of a kind among the 18 of a tile. -/
def unitsOf (kind : Nat) (slivers : List Nat) : List Nat := if kind = 0 then slivers else if kind = 1 then [16] else [17]
/-- The virtual address of a control block (R267). -/
def Partition.blockAt (q : Partition) (h : Nat) : Nat := q.cbbase + 4096 * (h % 2 ^ 28)
/-- The saved-state bits of a process: those that stand in its control block now, where the supervisor sets and clears them (R240); where the
block's address does not translate, those of its last swap-in (log 97). -/
def State.savedBits (s : State) (h : Nat) : BitVec 3 :=
  let p := s.proc h
  let q := s.part p.part
  let va := q.blockAt h + 0x400
  let key := if q.key.full then (s.walk p.part va 3 1 q.ptroot).toOption.bind fun e => q.physKey (field e.leaf.toNat 39 16 * 65536 + va % e.size) else none
  match key with
  | some k => BitVec.ofNat 3 (s.hbmByte p.part k).toNat
  | none => p.saved
/-- The ownership check of R241: the owner of the lowest conflicting unit, and XMASK. -/
def State.conflict (s : State) (h kind : Nat) (slivers : List Nat) : Option (Nat × Nat) :=
  let p := s.proc h
  let us := unitsOf kind slivers
  let own (u : Nat) := Tab.lookD (s.tile p.tile).owners u 0
  let bad (u : Nat) := decide (own u ≠ h) && (decide (own u ≠ 0) || bitAt (s.savedBits h).toNat kind)
  if p.crosses kind then none
  else match us.find? bad with
    | none => none
    | some u =>
      let o := own u
      some (o, if kind = 0 then ((us.filter fun v => bad v && decide (own v = o)).map fun v => 2 ^ v).sum else 0)
/-- The process becomes the owner of unowned units (R241). -/
def State.takeUnits (s : State) (h kind : Nat) (slivers : List Nat) : State :=
  let p := s.proc h
  if p.crosses kind then s
  else s.updTile p.tile fun x => { x with owners := (unitsOf kind slivers).foldl (fun o u => Tab.put o u h) x.owners }
/-- Touch units, or raise VOWN with no effect (R240, R241). An instruction that faults afterwards has taken no unit. -/
def State.touch (s : State) (op kind : Nat) (k : State → State) : State :=
  let sl := s.me.slivers
  match s.conflict s.running kind sl with
  | some (o, m) => s.raise op .vown { detail := kind * 64, owner := o, xmask := m, vec := decide (op = 0x18) }
  | none =>
    let r := k (s.takeUnits s.running kind sl)
    if r.me.pst = .parkedFault ∧ r.me.fclass ≠ .step then
      r.updTile s.myTile fun x => { x with owners := (s.tile s.myTile).owners }
    else r
/-- Return from a trap handler (R228, R332): PC, STATUS, and ownership of the unit named in CAUSE under XO. -/
def State.eretAt (s : State) (h : Nat) : State :=
  let p := s.proc h
  let us := unitsOf p.causeUnit (sliversOf (field p.cause.toNat 47 32))
  let s := if p.xo then s.updTile p.tile fun x => { x with owners := us.foldl (fun o u => Tab.put o u h) x.owners } else s
  let s := s.updProc h fun q => { q with status := statusOf p.ppl 0 p.det p.ss p.dbg false }
  (s.completeAt h 0x3C (BitVec.ofNat 48 (p.epc.toNat / 4 * 4))).updProc h fun q => { q with handler := false }

/-- The contents of a unit whose owner has ended: each bit cell keeps the old bits or reads zero (R242, log 10). -/
def State.fadeUnits (s : State) (t : Nat) (us : List Nat) : State :=
  let c := s.freeCtr
  let s := { s with freeCtr := c + 1 }
  let inUnits (key : Nat) := us.contains (key % 2048 / 32 / 4)
  let s := s.updTile t fun x =>
    { x with vbank := x.vbank.filter fun e => !inUnits e.1 || Config.exitKeeps c e.1
             mbank := x.mbank.filter fun e => !inUnits e.1 || Config.exitKeeps c (65536 + e.1) }
  let s := if us.contains 16 then s.updTile t fun x =>
      { x with treg := x.treg.filter fun e => Config.exitKeeps c (131072 + e.1)
               tsh := (List.range 8).filterMap fun n =>
                 let v : BitVec 20 := if Config.exitKeeps c (262144 + n) then Tab.lookD x.tsh n 0x3F3F else 0
                 if v = 0x3F3F then none else some (n, v)
               cbt := x.cbt.filter fun e => Config.exitKeeps c (262400 + e.1) }
    else s
  if us.contains 17 then s.updTile t fun x =>
      let cells := (x.an.cells.map fun e =>
          (e.1, if Config.exitKeeps c (263000 + e.1) then { e.2 with src := [], dom := 0 } else {})).filter
        fun e => decide (e.2 ≠ {})
      let doms := (x.an.doms.map fun e =>
          (e.1, if Config.exitKeeps c (264000 + e.1) then { e.2 with run := false } else {})).filter
        fun e => decide (e.2 ≠ {})
      { x with an := { cells := cells, doms := doms, ports := [], taps := [] } }
    else s
/-- A process gives up every unit it owns (R37, R247). -/
def State.releaseUnits (s : State) (h : Nat) : State :=
  let t := (s.proc h).tile
  let us := ((s.tile t).owners.filter fun e => decide (e.2 = h)).map fun e => e.1
  if us.isEmpty then s
  else (s.fadeUnits t us).updTile t fun x => { x with owners := x.owners.filter fun e => decide (e.2 ≠ h) }

/-- Detach a writer from its reader: its credits fall FREE, its requests disappear (R68). Those of an entry that was freed are gone
with it (R37). -/
def State.leaveReader (s : State) (h c : Nat) : State :=
  let x := (s.proc h).chan c
  if x.gone then s
  else match x.dest.rid with
  | none => match x.dest with
    | .peer p e => (s.flushPeer (widOf h c)).ctrlSend (s.proc h).part p 5 (widOf h c) e x.credits 0
    | _ => s
  | some rid =>
    let w := widOf h c
    let s := if x.use = .monitor then s.updEp rid fun e => { e with mon := true } else s
    if (s.ep rid).writers.contains w ∨ x.credits ≠ 0 then
      (s.updEp rid fun e => { e with writers := e.writers.filter (· ≠ w), shortfalls := e.shortfalls.filter fun q => decide (q.1 ≠ w),
                                     recalled := e.recalled.filter (· ≠ w) }).addFree rid x.credits
    else s
/-- An endpoint that no tile has: what is sent to a freed entry arrives nowhere. -/
def deadEp : Nat := 1048575
/-- An entry leaves its buffer run: the run's bytes are what the queue left there (R55, log 81). -/
def State.leaveRun (s : State) (e : Nat) : State :=
  let y := s.ep e
  let c := s.freeCtr
  if y.arrived = 0 ∨ e ≥ 1048576 then s
  else { s.sramStore (e / 256 * 0x100000 + y.run) ((List.range (8 * y.bcap)).map fun i => { off := i, val := Config.queueByte c i }) with
           freeCtr := c + 1 }
/-- Free a reader entry: unread slots are discarded, the Caldera slots and the buffer return (R68, R76), whose bytes are
what the queue left there (R55); messages still under way to it are lost with it. -/
def State.freeEntry (s : State) (e : Nat) : State :=
  let s := s.leaveRun e
  let stray (m : NetMsg) : NetMsg := match m.body with
    | .data _ => if m.dest = .tile e then { m with dest := .tile deadEp } else m
    | _ => m
  let s := { s with net := s.net.map stray }
  let x := s.ep e
  let own := s.proc (x.owner / 16)
  let s := if x.bound && !s.monitored e && decide (0 < s.checkOf own.part own.net) then
      s.updNet own.part own.net fun n => n.digested e x.digest x.arrived else s
  let s := match s.partOfTile (e / 256) with
    | some n => s.updPart n fun q => { q with calUsed := q.calUsed - (x.cap - x.bcap) }
    | none => s
  let host (w : Nat) := decide (2 ^ 40 ≤ w ∧ w < 2 ^ 41)
  let s := (x.writers.filter host).foldl (fun s w =>
    let k := Tab.lookD s.hostEps (w - 2 ^ 40) {}
    { s with hostEps := Tab.put s.hostEps (w - 2 ^ 40) { k with credits := 0 } }) s
  s.updEp e fun x => { writers := x.writers.filter host }
/-- Writers of a freed entry learn that it is gone: every later push faults, a blocked writer parks with CHAN_UNBOUND
(R32, R37). -/
def State.dropWriters (s : State) (e : Nat) (ws : List Nat) : State :=
  ws.foldl (fun s w =>
    if isProcWid w then
      let h := widProc w
      let c := widReg w
      let x := (s.proc h).chan c
      if x.role = .writer ∧ x.dest = .tile e then
        let s := s.updChan h c fun x => { x with gone := true }
        if (s.proc h).pst = .blockedWrite c ∧ (s.proc h).need < waitOnly then s.raiseAt h 0x28 .chanUnbound {} else s
      else s
    else if isRemoteWid w then s.ctrlSend (s.ridPart e) (remotePeer w) 6 (remoteOf w) e 0 0
    else s) s
/-- Free an entry whose reader ends by EXIT, RESUME or a kill (R37). -/
def State.killEntry (s : State) (e : Nat) : State :=
  let ws := (s.ep e).writers
  (s.freeEntry e).dropWriters e ws
/-- Unbind every channel register of a process that ends (R37). -/
def State.unbindAll (s : State) (h : Nat) : State :=
  let s := (s.proc h).chans.foldl (fun s e =>
    match e.2.role, e.2.dest with
    | .reader, .tile ep => s.killEntry ep
    | .writer, _ => s.leaveReader h e.1
    | _, _ => s) s
  s.updProc h fun p => { p with chans := [] }
/-- Steps 3 and 4 of R37 without the lanes, which the scheduler releases: units, slot, capabilities, channels, EXITED. -/
def State.endProcess (s : State) (h : Nat) : State :=
  let p := s.proc h
  let s := s.releaseUnits h
  let s := s.updTile p.tile fun x => { x with slots := x.slots.filter fun e => decide (e.2 ≠ h),
                                              mons := x.mons.filter fun m => decide (m.h ≠ h) }
  let s := s.unbindAll h
  s.updProc h fun q => { q.enter .exited s.cycle with
      caps := [], strip := none, hold := [], shut := false, mat := none, dstep := none, dcont := none, image := none }

end Sys2Proof.Machine
end

