-- ==== Sys2Proof/Machine/Lanes.lean ====
section
/-! DEFINITION. The lane scheduler: packing, grants, reservations, releases, and what moves with the lanes (R12, R43 to R47,
R158, R422 to R424). -/

namespace Sys2Proof.Machine

/-- Lanes of slivers, in increasing lane number (R12). -/
def lanesOf (sl : List Nat) : List Nat :=
  ((List.range 16).filter fun n => sl.contains n).flatMap fun n => [4 * n, 4 * n + 1, 4 * n + 2, 4 * n + 3]
/-- VLMAX of `g` lanes at element width `ew` (R158). -/
def vlmaxOf (g ew : Nat) : Nat := g * 256 / ew
/-- Lanes that the process's vector instructions use. -/
def Proc.useLanes (p : Proc) : List Nat := lanesOf p.useSlivers
/-- Cover of R43. -/
def cover (n : Nat) : Nat := if n ≤ 16 then 1 else if n ≤ 32 then 2 else 4
/-- The shape that a SETVL requests (R43). -/
def wantOf (avl ew unfused : Nat) : Want :=
  let need := min 64 (cdiv (avl * ew) 256)
  if avl = 0 then .none else if need ≤ 4 then .sliver else .clusters (min (cover need) unfused)

/-- Handles resident on a tile. -/
def State.residents (s : State) (t : Nat) : List Nat := (s.tile t).slots.map fun e => e.2
/-- Slivers that a process holds or that are assigned to it (R44). -/
def Proc.heldSlivers (p : Proc) : List Nat :=
  p.slivers ++ (match p.pgrant with
    | some g => if g.assigned then g.slivers else []
    | none => [])
/-- Slivers of a tile that are granted or assigned. -/
def State.occupied (s : State) (t : Nat) : List Nat := (s.residents t).flatMap fun h => (s.proc h).heldSlivers
/-- Those of processes other than `h`. -/
def State.occupiedByOthers (s : State) (t h : Nat) : List Nat :=
  ((s.residents t).filter (· ≠ h)).flatMap fun x => (s.proc x).heldSlivers
/-- Clusters that lie in a whole-cluster grant of a process other than `h`. -/
def State.wholeClusters (s : State) (t h : Nat) : List Nat :=
  ((s.residents t).filter (· ≠ h)).flatMap fun x =>
    let p := s.proc x
    (if p.cluster then p.slivers.map (· / 4) else []) ++ (match p.pgrant with
      | some g => if g.assigned && g.cluster then g.slivers.map (· / 4) else []
      | none => [])
/-- Clusters that requests other than `h`'s have reserved. -/
def State.reservedByOthers (s : State) (t h : Nat) : List Nat :=
  ((s.tile t).laneReqs.filter fun q => decide (q.h ≠ h)).flatMap fun q => q.resv
/-- Slivers of a cluster. -/
def sliversIn (c : Nat) : List Nat := [4 * c, 4 * c + 1, 4 * c + 2, 4 * c + 3]
/-- The member of a list with the greatest weight; the first among equals. -/
def bestOf (w : Nat → Nat) (l : List Nat) : Option Nat :=
  l.foldl (fun a x => match a with
    | none => some x
    | some y => if w y < w x then some x else some y) none
/-- The first `k` members by least weight, ties to the earlier one, in increasing order (R45). -/
def leastOf (w : Nat → Nat) : Nat → List Nat → List Nat
  | 0, _ => []
  | k + 1, l =>
    match bestOf (fun x => 64 - w x) l with
    | none => []
    | some x => x :: leastOf w k (l.filter (· ≠ x))
/-- Slivers of a cluster that are granted to processes other than `h`, whose own lanes count as released (R44). -/
def State.loadOf (s : State) (t h c : Nat) : Nat := ((s.occupiedByOthers t h).filter fun n => n / 4 = c).length
/-- The packing rule of R44: the lowest free sliver of the chosen cluster. -/
def State.packing (s : State) (t h : Nat) : Option Nat :=
  let occ := s.occupiedByOthers t h
  let free (c : Nat) := (sliversIn c).find? fun n => !occ.contains n
  let ok := (s.unfused t).filter fun c =>
    !(s.wholeClusters t h).contains c && !(s.reservedByOthers t h).contains c && (free c).isSome
  (bestOf (s.loadOf t h) ok).bind free

/-- What Grant answers (R44). -/
inductive Granted
  | current
  | lanes (slivers : List Nat) (cluster partialGrant : Bool)
  | wait
  deriving DecidableEq, Repr

/-- Grant of R44: the lanes that the process gives up count as free for it. -/
def State.grant (s : State) (h : Nat) (want : Want) : Granted :=
  let p := s.proc h
  let t := p.tile
  let taken := s.reservedByOthers t h
  let shaped := match want with
    | .sliver => decide (p.slivers.length = 1) && !p.cluster
    | .clusters c => p.cluster && decide (p.slivers.length = 4 * c)
    | .none => false
  if shaped && p.slivers.all (fun n => !taken.contains (n / 4)) then .current
  else match want with
    | .sliver => match s.packing t h with
      | some n => .lanes [n] false false
      | none => .wait
    | .clusters c =>
      let occ := s.occupiedByOthers t h
      let free := (s.unfused t).filter fun k => !taken.contains k && (sliversIn k).all fun n => !occ.contains n
      if c ≤ free.length then .lanes ((free.take c).flatMap sliversIn) true false
      else if p.cluster then
        let remain := (s.unfused t).filter fun k => p.slivers.contains (4 * k) && !taken.contains k
        let k := if 4 ≤ remain.length then 4 else if 2 ≤ remain.length then 2 else remain.length
        if k = 0 then .wait else .lanes ((remain.take k).flatMap sliversIn) true true
      else .wait
    | .none => .wait

/-- The clusters that a request reserves (R45, R422). -/
def State.reserveFor (s : State) (t : Nat) (q : LaneReq) : List Nat :=
  let free := (s.unfused t).filter fun c => !(s.reservedByOthers t q.h).contains c
  match q.want with
  | .sliver =>
    let plain := free.filter fun c => !(s.wholeClusters t q.h).contains c
    (match bestOf (s.loadOf t q.h) plain with
      | some c => [c]
      | none => free.take 1)
  | .clusters c =>
    if free.length < c then []
    else
      let others := s.occupiedByOthers t q.h
      leastOf (fun k => 4 * (others.filter fun n => n / 4 = k).length) c free
  | .none => []
/-- Every request in age order that may reserve does, until one cannot (R45, R422). -/
def State.reserveAll (s : State) (t : Nat) : Nat → State
  | 0 => s
  | fuel + 1 =>
    let oldest := (s.tile t).laneReqs.foldl (fun (a : Option LaneReq) q =>
      if q.resv.isEmpty then (match a with
        | some b => if q.age < b.age then some q else a
        | none => some q) else a) none
    match oldest with
    | none => s
    | some q =>
      let r := s.reserveFor t q
      if r.isEmpty then s
      else (s.updTile t fun x =>
        { x with laneReqs := x.laneReqs.map fun y => if y.h = q.h then { y with resv := r } else y }).reserveAll t fuel
/-- A waiting request whose reserved clusters are empty is granted in the next cycle (R45). -/
def State.checkReserved (s : State) (t : Nat) : State :=
  let occ := s.occupied t
  (s.tile t).laneReqs.foldl (fun s q =>
    if !q.partialGrant && !q.resv.isEmpty && (occ.all fun n => !q.resv.contains (n / 4)) && !s.isDue (.reservedGrant t q.h) then
      s.afterCycles 1 (.reservedGrant t q.h)
    else s) s
/-- Reservations and grants after lanes, requests or reservations of a tile have changed. -/
def State.settleLanes (s : State) (t : Nat) : State := (s.reserveAll t 32).checkReserved t
/-- Withdraw a process's queued request and its reservation (R422, R424). -/
def State.withdraw (s : State) (h : Nat) : State :=
  let t := (s.proc h).tile
  (s.updTile t fun x => { x with laneReqs := x.laneReqs.filter fun q => decide (q.h ≠ h) }).cancel (.reservedGrant t h)

/-- The vector and mask bits of slivers read zero. -/
def Tile.clearSlivers (x : Tile) (sl : List Nat) : Tile :=
  let inside (key : Nat) := sl.contains (key % 2048 / 32 / 4)
  { x with vbank := x.vbank.filter fun e => !inside e.1, mbank := x.mbank.filter fun e => !inside e.1 }
/-- Slivers lose their owner, if it is `h`, and their bits read zero (R423). -/
def State.disown (s : State) (t h : Nat) (sl : List Nat) : State :=
  s.updTile t fun x =>
    let mine := sl.filter fun n => decide (n < 16 ∧ Tab.lookD x.owners n 0 = h)
    { x.clearSlivers mine with owners := x.owners.filter fun e => !mine.contains e.1 }
/-- Lanes of the process are released at once (R43). -/
def State.releaseLanes (s : State) (h : Nat) : State :=
  let p := s.proc h
  let s := s.disown p.tile h p.slivers
  s.updProc h fun p => { p with slivers := [], cluster := false, lastGrant := [] }

/-- Where an old bank entry goes when the lanes change: element positions below `lim` keep their contents under the mapping
of R12, every other position reads zero (R47). `per` is the entries of one element in a lane: EW/8 bytes, or one mask bit. -/
def remap (old new : List Nat) (per lim key : Nat) : Option Nat :=
  let reg := key / 2048
  let lane := key % 2048 / 32
  let b := key % 32
  if old.contains lane then
    let i := b / per * old.length + old.idxOf lane
    if i < lim then some (reg * 2048 + (new.getD (i % new.length) 0) * 32 + i / new.length * per + b % per) else none
  else none
/-- A bank after the lanes of a process have moved. -/
def moveBank {α : Type} (bank : Tab α) (old new : List Nat) (per lim : Nat) : Tab α :=
  let rest := bank.filter fun e => !(old.contains (e.1 % 2048 / 32) || new.contains (e.1 % 2048 / 32))
  (bank.filterMap fun e => (remap old new per lim e.1).map fun k => (k, e.2)).foldl (fun b e => Tab.put b e.1 e.2) rest
/-- The lanes of a new grant take effect: contents move, slivers given up lose their owner, new ones are owned (R47, R423). Where another
process owns one of them, VOWN follows: nothing moves, and those without an owner read zero. -/
def State.moveLanes (s : State) (h : Nat) (new : List Nat) (cluster : Bool) (owned : Bool) : State :=
  let p := s.proc h
  let t := p.tile
  let ew := ewOf p.vt
  let mine (l : List Nat) := l.all fun n => decide (Tab.lookD (s.tile t).owners n 0 = h)
  let last := if p.slivers ≠ [] ∧ mine p.slivers then p.slivers else p.lastGrant
  let old := if mine last then lanesOf last else []
  let nl := lanesOf new
  let lim := min (vlmaxOf old.length ew) (vlmaxOf nl.length ew)
  let s := if owned then s.updTile t fun x =>
      { x with vbank := moveBank x.vbank old nl (ew / 8) lim, mbank := moveBank x.mbank old nl 1 lim } else s
  let s := s.disown t h ((p.slivers ++ p.lastGrant).filter fun n => !new.contains n)
  let s := if owned then s.updTile t fun x => { x with owners := new.foldl (fun o n => Tab.put o n h) x.owners }
    else s.updTile t fun x => x.clearSlivers (new.filter fun n => decide (Tab.lookD x.owners n 0 = 0))
  s.updProc h fun p => { p with slivers := new, cluster := cluster, lastGrant := if owned then new else p.lastGrant }

/-- A grant takes effect: lanes, VL and sd, or VOWN at that moment, which gives up what the process runs (R47, R367). -/
def State.grantEffect (s : State) (h : Nat) (g : PGrant) : State :=
  let p := s.proc h
  let clash := s.conflict h 0 g.slivers
  let s := s.moveLanes h g.slivers g.cluster clash.isNone
  let s := s.updProc h fun p => { p with pgrant := none }
  let stopped := decide (p.pst = .parkedFault ∨ p.pst = .haltedDebug ∨ p.pst = .exited)
  let s := match clash with
    | some (o, m) =>
      if stopped ∨ g.again then s
      else
        let s := s.dropHeld h
        let s := if p.strip.isSome then s else (s.unpend h g.sd).updProc h fun p => { p with pc := g.pc }
        s.raiseAt h 0x2D .vown { owner := o, xmask := m }
    | none => s
  let s := if clash.isSome && !stopped && !g.again then s
    else
      let vl := min g.avl (vlmaxOf (lanesOf g.slivers).length g.ew)
      let s := s.updProc h fun p => { p with vl := BitVec.ofNat 12 vl }
      let wasStep := decide (p.pst = .blockedToken g.sd ∧ p.need = 1)
      let s := s.land h g.sd (BitVec.ofNat 64 vl)
      if wasStep then s.stepTrap h 0x2D g.pc else s
  s.settleLanes p.tile

/-- VL and the register of a request are pending until its grant takes effect (R47). -/
def State.waitGrant (s : State) (h : Nat) (g : PGrant) : State :=
  s.updProc h fun p => { p with pgrant := some g, pend := if g.sd = 0 then p.pend else Tab.put p.pend g.sd .grant }
/-- A request enters the scheduler: the answer of Grant and what it starts (R44, R47, R424). `age` is that of a withdrawn
request, or the cycle. -/
def State.askLanes (s : State) (h : Nat) (q : LaneAsk) (age : Nat) (again : Bool) : State :=
  let p := s.proc h
  let t := p.tile
  let fin (s : State) (g : PGrant) : State := ((s.waitGrant h g).afterCycles Config.grantDelay (.laneGrantEffect t h)).settleLanes t
  let r : LaneReq := { h := h, age := age, want := q.want, sd := q.sd, avl := q.avl, ew := q.ew, pc := p.pc, again := again }
  let g : PGrant := { sd := q.sd, avl := q.avl, ew := q.ew, slivers := [], cluster := false, assigned := false,
                      due := s.cycle + Config.grantDelay, pc := p.pc, again := again }
  match s.grant h q.want with
  | .current => s
  | .lanes sl cl part =>
    let s := if part then s.updTile t fun x => { x with laneReqs := x.laneReqs ++ [{ r with partialGrant := true }] } else s
    fin s { g with slivers := sl, cluster := cl, assigned := true }
  | .wait =>
    let s := s.updTile t fun x => { x with laneReqs := x.laneReqs ++ [r] }
    if p.slivers = [] then (s.waitGrant h g).settleLanes t else fin s g
/-- SETVL's part of the scheduler, in an open strip (R43). -/
def State.requestLanes (s : State) (h sd avl age : Nat) : State :=
  let p := s.proc h
  let ew := ewOf p.vt
  s.askLanes h { want := wantOf avl ew (s.unfused p.tile).length, sd := sd, avl := avl, ew := ew } age false
/-- What a process that leaves its tile asks for when it comes back: the shape it holds, or what a SETVL outside any strip
still waits for (R22, R30, log 22). -/
def Proc.askAgain (p : Proc) (unfused : Nat) : Option LaneAsk :=
  match p.pgrant with
  | some g => if g.avl = 0 then none else some { want := wantOf g.avl g.ew unfused, sd := g.sd, avl := g.avl, ew := g.ew }
  | none =>
    if p.slivers = [] then none
    else some { want := if p.cluster then .clusters (min (p.slivers.length / 4) unfused) else .sliver, sd := 0, avl := p.vl.toNat, ew := ewOf p.vt }
/-- Lanes, request and pending grant of a process that leaves its tile or ends (R30, R37, R46). -/
def State.leaveLanes (s : State) (h : Nat) (keepOwners : Bool) : State :=
  let t := (s.proc h).tile
  let s := (s.withdraw h).cancel (.laneGrantEffect t h)
  let s := if keepOwners then s.updProc h fun p => { p with slivers := [], cluster := false } else s.releaseLanes h
  (s.updProc h fun p => { p with pgrant := none }).settleLanes t
/-- The end of a process with its lanes (R37 steps 3 and 4). -/
def State.finishProcess (s : State) (h : Nat) : State :=
  let t := (s.proc h).tile
  let s := (s.withdraw h).cancel (.laneGrantEffect t h)
  let s := s.endProcess h
  (s.updProc h fun p => { p with pgrant := none, slivers := [], cluster := false, lastGrant := [] }).settleLanes t

end Sys2Proof.Machine
end

