-- ==== Sys2Proof/Machine/Operands.lean ====
section
/-! DEFINITION. Operand forms: immediates, vector elements and mask bits under the mapping of R12, activity, the replicate
modifier, and the shared paths by which instructions load and store (R77 to R79, R97, R105, R117, R154, R156, R157, R160, R343). -/

namespace Sys2Proof.Machine

/-- SignExtend of a field to 64 bits (R295). -/
def sx {n : Nat} (i : BitVec n) : Word := i.signExtend 64
/-- ZeroExtend of a field to 64 bits (R295). -/
def zx {n : Nat} (i : BitVec n) : Word := i.setWidth 64

/-- What a vector instruction needs to know of its process: tile, lanes, element width, length and governing mask. -/
structure VCtx where
  h : Nat
  tile : Nat
  lanes : List Nat
  ew : Nat
  vl : Nat
  vt : Word
  vmsel : BitVec 5
  deriving Repr
/-- The vector context of a process; a handler under XO uses the lanes of XMASK with VL = VLMAX (R242), and a process without
lanes has no position (R385). -/
def Proc.vctx (p : Proc) (h : Nat) : VCtx :=
  let ls := p.useLanes
  { h := h, tile := p.tile, lanes := ls, ew := ewOf p.vt,
    vl := if p.crosses 0 then vlmaxOf ls.length (ewOf p.vt) else min p.vl.toNat (vlmaxOf ls.length (ewOf p.vt)), vt := p.vt, vmsel := p.vmsel }
/-- The running process's vector context. -/
def State.vc (s : State) : VCtx := s.me.vctx s.running
/-- VLMAX of the context. -/
def VCtx.vlmax (v : VCtx) : Nat := vlmaxOf v.lanes.length v.ew
/-- Bank key of byte `b` of element `i` of register `r`, `ew` bits wide (R12). -/
def VCtx.keyAt (v : VCtx) (ew r i b : Nat) : Nat :=
  r * 2048 + (v.lanes.getD (i % v.lanes.length) 0) * 32 + i / v.lanes.length * (ew / 8) + b
/-- Bank key of mask bit `i` (R156). -/
def VCtx.maskKey (v : VCtx) (r i : Nat) : Nat :=
  r * 2048 + (v.lanes.getD (i % v.lanes.length) 0) * 32 + i / v.lanes.length
/-- Element `i` of a vector register at a width; zero without lanes. -/
def State.elemAt (s : State) (v : VCtx) (ew r i : Nat) : Nat :=
  if v.lanes.isEmpty then 0
  else ofBytesLE ((List.range (ew / 8)).map fun b => Tab.lookD (s.tile v.tile).vbank (v.keyAt ew r i b) 0)
/-- Element `i` of vector register `r` at VT.EW. -/
def State.elem (s : State) (v : VCtx) (r : BitVec 5) (i : Nat) : Nat := s.elemAt v v.ew r.toNat i
/-- Bit `i` of a mask register. -/
def State.maskBit (s : State) (v : VCtx) (r i : Nat) : Bool :=
  if v.lanes.isEmpty then false else Tab.lookD (s.tile v.tile).mbank (v.maskKey r i) false
/-- Position `i` is active (R156). -/
def State.active (s : State) (v : VCtx) (i : Nat) : Bool :=
  decide (i < v.vl) &&
    (!bitAt v.vmsel.toNat 3 || (s.maskBit v (v.vmsel.toNat % 8) i != bitAt v.vmsel.toNat 4))
/-- The active positions, in increasing order. -/
def State.actives (s : State) (v : VCtx) : List Nat := (List.range v.vl).filter (s.active v)
/-- The element of the second source that position `i` reads (R160). -/
def Rep.index (r : Rep) (i : Nat) : Nat :=
  match r with
  | .none => i
  | .rep1 => 0
  | .rep4 => i % 4
  | .rep16 => i % 16
  | .rep64 => i % 64

/-- Write bytes of a tile's vector bank; in an open strip the old contents are kept for a restart (R149). -/
def State.bankWrite (s : State) (h t : Nat) (kvs : List (Nat × Byte)) : State :=
  let old := (s.tile t).vbank
  let s := s.updTile t fun x => { x with vbank := kvs.foldl (fun b e => Tab.store b e.1 e.2 0) x.vbank }
  if (s.proc h).strip.isNone then s
  else s.updProc h fun p => { p with strip := p.strip.map fun k =>
    { k with undoV := kvs.foldl (fun u e => if (Tab.look u e.1).isSome then u else Tab.put u e.1 (Tab.lookD old e.1 0)) k.undoV } }
/-- Write mask bits of a tile. -/
def State.maskWrite (s : State) (h t : Nat) (kvs : List (Nat × Bool)) : State :=
  let old := (s.tile t).mbank
  let s := s.updTile t fun x => { x with mbank := kvs.foldl (fun b e => Tab.store b e.1 e.2 false) x.mbank }
  if (s.proc h).strip.isNone then s
  else s.updProc h fun p => { p with strip := p.strip.map fun k =>
    { k with undoM := kvs.foldl (fun u e => if (Tab.look u e.1).isSome then u else Tab.put u e.1 (Tab.lookD old e.1 false)) k.undoM } }
/-- Write elements of a vector register at a width: position and value. -/
def State.putElemsAt (s : State) (v : VCtx) (ew r : Nat) (xs : List (Nat × Nat)) : State :=
  if v.lanes.isEmpty then s
  else s.bankWrite v.h v.tile (xs.flatMap fun e => (List.range (ew / 8)).map fun b => (v.keyAt ew r e.1 b, byteAt e.2 b))
/-- Write elements of a vector register at VT.EW. -/
def State.putElems (s : State) (v : VCtx) (r : BitVec 5) (xs : List (Nat × Nat)) : State := s.putElemsAt v v.ew r.toNat xs
/-- Write every bit of a mask register: `f` at active positions, zero elsewhere (R157). -/
def State.putMask (s : State) (v : VCtx) (r : Nat) (f : Nat → Bool) : State :=
  if v.lanes.isEmpty then s
  else s.maskWrite v.h v.tile ((List.range (v.lanes.length * 32)).map fun i => (v.maskKey r i, s.active v i && f i))
/-- Raise exception flags: at once, or held back in an open strip (R141). -/
def State.raiseFlags (s : State) (f : Flags) : State :=
  s.updMe fun p => match p.strip with
    | some k => { p with strip := some { k with fflags := k.fflags ||| f } }
    | none => { p with fflags := p.fflags ||| f }

/-- Accesses still filling a register of the list (R97). -/
def Proc.filling (p : Proc) (rs : List Nat) : List Nat := (p.fills.filter fun e => rs.contains e.1).map fun e => e.2
/-- The accesses that fill the group of register `r` that holds element `i` (R97, R404). -/
def State.fillingGroup (s : State) (r i : Nat) : List Nat :=
  (s.me.filling [r]).filter fun id => match ((Tab.look s.reqs id).map Req.dest : Option ReqDest) with
    | some (.elem _ j _ _) => j / 4 == i / 4
    | some (.seg _ _ _ act) => act.any fun j => j / 4 == i / 4
    | some (.block _ _ els) => els.any fun e => e.1 / 4 == i / 4
    | _ => true
/-- The mask register that VMSEL names to govern, if it names one (R156). -/
def Proc.governing (p : Proc) : List Nat := if bitAt p.vmsel.toNat 3 then [p.vmsel.toNat % 8] else []
/-- The cycle in which the last of some mask registers can be read (R95). -/
def Proc.masksUntil (p : Proc) (ms : List Nat) : Nat := ms.foldl (fun a m => max a (Tab.lookD p.mlat m 0)) 0
/-- Go on once the accesses named have landed and the mask registers can be read (R95, R97). -/
def State.afterFills (s : State) (ids ms : List Nat) (k : State) : State :=
  if ids ≠ [] then s.holdOn ids else if s.cycle < s.me.masksUntil ms then s.holdUntil (s.me.masksUntil ms) else k
/-- A vector instruction: not while a grant is pending (R47), not before its registers are filled (R97) and its mask registers
written (R95), and only with the slivers of its grant (R240). `rs` are the vector registers that it uses, `ms` the mask registers that
it reads beside the governing one. -/
def State.maskOp (s : State) (op : Nat) (ms : List Nat) (rs : List (BitVec 5)) (k : State → State) : State :=
  s.afterGrant (s.afterFills (s.me.filling (rs.map fun r => r.toNat)) (s.me.governing ++ ms) (s.touch op 0 k))
/-- A vector instruction that reads no mask register but the governing one. -/
def State.vectorOp (s : State) (op : Nat) (rs : List (BitVec 5)) (k : State → State) : State := s.maskOp op [] rs k

/-- Held accesses of the open strip that write one of the bytes: an atomic does (R343). -/
def Proc.heldAtomic (p : Proc) (typ : Nat) (place : Except Cause Place) (a n : Nat) : Bool :=
  match p.strip with
  | none => false
  | some k => k.held.any fun x => match x with
    | .atomic t _ pl addr _ m _ => decide (t = typ) && (match place with
      | .ok q => pl.overlaps m q n
      | .error _ => decide (a < addr + m ∧ addr < a + n))
    | _ => false
/-- Bytes of `n` at a place that the open strip's stores supply, by offset: the latest store wins (R343). -/
def Proc.heldBytes (p : Proc) (typ : Nat) (place : Place) (n : Nat) : List WByte :=
  match p.strip with
  | none => []
  | some k =>
    let lay (acc : List WByte) (pl : Place) (bs : List WByte) : List WByte :=
      bs.foldl (fun acc b =>
        let q := pl.plus b.off
        if q.overlaps 1 place n then mergeBytes acc { b with off := q.addr - place.addr } else acc) acc
    k.held.foldl (fun acc x => match x with
      | .store t _ _ ws => if t = typ then ws.foldl (fun acc w => lay acc w.place w.bs) acc else acc
      | .capStore t _ pl _ c => if t = typ then lay acc pl (wbytes (bytesLE 16 c.bits.toNat)) else acc
      | _ => acc) []
/-- Lay forwarded bytes over bytes read. -/
def overlay (bs : List Byte) (fwd : List WByte) : List Byte :=
  bs.zipIdx.map fun e => match fwd.find? fun w => decide (w.off = e.2) with
    | some w => mergeNib e.1 w.val w.nib
    | none => e.1
/-- What a load of `n` bytes meets on its own tile: the value, or accesses to wait for, or an access to send with the bytes
that the strip supplies. -/
inductive Got
  | val (bs : List Byte)
  | wait (ids : List Nat)
  | ask (fwd : List WByte)
/-- Look for a load's bytes: in the strip (R343), in the own slice, in the combining buffer (R117). -/
def State.lookLocal (s : State) (h typ : Nat) (place : Place) (n : Nat) : State × Got :=
  let p := s.proc h
  let fwd := p.heldBytes typ place n
  let need := (List.range n).filter fun i => !(fwd.any fun w => decide (w.off = i ∧ w.nib = 0))
  match place with
  | .sram k false => (s, .val (overlay (s.sramRead k n) fwd))
  | _ =>
    if need.isEmpty then (s, .val (overlay (List.replicate n 0) fwd))
    else
      let mine := (s.tile p.tile).cb.filter fun e => decide (e.2.h = h ∧ e.2.typ = typ)
      let byteIn (i : Nat) (e : CbEntry) := e.bs.find? fun b => (e.block.plus b.off).overlaps 1 (place.plus i) 1
      let touches (e : CbEntry) := need.any fun i => (byteIn i e).isSome
      match mine.find? fun e => touches e.2 with
      | none => (s, .ask fwd)
      | some (_, e) =>
        if need.all fun i => (match byteIn i e with | some b => decide (b.nib = 0) | none => false) then
          (s, .val (overlay ((List.range n).map fun i => ((byteIn i e).map fun b => b.val).getD 0) fwd))
        else
          let (s, ids) := s.cbDrainAt h typ place n
          (s, .wait ids)

/-- Record a load of the running process in its open strip, which commits only after the reply (R151). -/
def State.noteLoads (s : State) (ids : List Nat) : State :=
  s.updMe fun p => { p with strip := p.strip.map fun k => { k with loads := k.loads ++ ids } }
/-- Take one scalar or vector entry of the strip's store buffer for `x`, or overflow (R153). -/
def State.bufferStore (s : State) (op : Nat) (vec : Bool) (x : Held) : State :=
  match s.me.strip with
  | none => (s.handOver s.running x).retire op
  | some k =>
    if (if vec then k.maxVec ≤ k.nVec else k.maxSca ≤ k.nSca) then s.raise op .stripOverflow
    else
      let k := { k with held := k.held ++ [x], nVec := if vec then k.nVec + 1 else k.nVec,
                        nSca := if vec then k.nSca else k.nSca + 1 }
      (s.updMe fun p => { p with strip := some k }).retire op
/-- Hold something for the commit without taking an entry, or hand it over now (R150). -/
def State.holdBack (s : State) (x : Held) : State :=
  match s.me.strip with
  | none => s.handOver s.running x
  | some k => s.updMe fun p => { p with strip := some { k with held := k.held ++ [x] } }

/-- The bytes of `n` at LOCAL offset `a` of the running process's window, whatever MT holds; none where the check of R80
fails (with the cause). -/
def State.readWindow (s : State) (a : Word) (n : Nat) : Except Cause (List Byte) :=
  match s.placeLocal (s.me.ctx s.running 0) a.toNat n with
  | .ok (.sram k _) => .ok (overlay (s.sramRead k n) (s.me.heldBytes 0 (.sram k false) n))
  | .ok _ => .error .protection
  | .error c => .error c
/-- The doubleword at offset `o` of bytes read. -/
def dword (bs : List Byte) (o : Nat) : Nat := ofBytesLE ((bs.drop o).take 8)

end Sys2Proof.Machine
end

