-- ==== Sys2Proof/Machine/Dda.lean ====
section
/-! DEFINITION. The differential analyser: sources, due domains, ticks with their three phases, overruns, ports and taps,
the patch table and the saved image (R173 to R186, R196). -/

namespace Sys2Proof.Machine

/-- The increment that a code stands for; a port that yields 0b10 halts its domain and counts as 0 until then (R182, R184, log 93). -/
def incOf (code : Nat) : Int := if code = 1 then 1 else if code = 3 then -1 else 0
/-- The increment of a code of a loaded image; the reserved code's is a free value (R184, log 46). -/
def incAt (n code : Nat) : Int := if code = 2 then (Config.reservedInc n).val - 1 else incOf code
/-- The code of an increment (R184). -/
def codeOf (x : Int) : Nat := if x = 0 then 0 else if 0 < x then 1 else 3
/-- Cell, domain of an analyser. -/
def Analyser.cell (an : Analyser) (i : Nat) : Cell := Tab.lookD an.cells i {}
def Analyser.dom (an : Analyser) (d : Nat) : Domain := Tab.lookD an.doms d {}
def Analyser.setCell (an : Analyser) (i : Nat) (c : Cell) : Analyser := { an with cells := Tab.store an.cells i c {} }
def Analyser.setDom (an : Analyser) (d : Nat) (x : Domain) : Analyser := { an with doms := Tab.store an.doms d x {} }
/-- Keep the array as it stands at the start of cycle `n`. -/
def Analyser.snap (an : Analyser) (n : Nat) : Analyser :=
  { an with snapAt := some n, snapCells := an.cells, snapDoms := an.doms, snapPorts := an.ports, snapTaps := an.taps }
/-- The array as it stood at the start of cycle `n`, the present one: what an instruction of that cycle reads (R323). -/
def Analyser.atStart (an : Analyser) (n : Nat) : Analyser :=
  if an.snapAt = some n then { an with cells := an.snapCells, doms := an.snapDoms, ports := an.snapPorts, taps := an.snapTaps } else an
/-- Change a tile's analyser. -/
def State.updAn (s : State) (t : Nat) (f : Analyser → Analyser) : State := s.updTile t fun x => { x with an := f x.an }
/-- Source field `j` of a cell: NEG and CODE (R175). -/
def Cell.neg (c : Cell) (j : Nat) : Bool := bitAt (Tab.lookD c.src j 0) 9
def Cell.code (c : Cell) (j : Nat) : Nat := Tab.lookD c.src j 0 % 512
/-- A source code that is not reserved (Table 8.1). -/
def codeOk (k : Nat) : Bool := decide (k ≤ 1 ∨ (16 ≤ k ∧ k ≤ 415))
/-- The code that a port holds next. -/
def DPort.next (p : DPort) : Nat := wfield p.slot (2 * p.used + 1) (2 * p.used)
/-- In(c, j) of R174. -/
def Analyser.source (an : Analyser) (d : Nat) (c : Cell) (j : Nat) : Int :=
  let k := c.code j
  let v : Int :=
    if k = 1 then 1
    else if 16 ≤ k ∧ k ≤ 31 then incOf (((Tab.look an.ports (k - 16)).map DPort.next).getD 0)
    else if 32 ≤ k then
      (if (an.cell (k - 32)).dom = d then (an.cell (k - 32)).out else Tab.lookD c.latch j 0)
    else 0
  if c.neg j then -v else v
/-- The dx and dy sums of a cell (R174). -/
def Analyser.dx (an : Analyser) (d : Nat) (c : Cell) : Int := ((List.range 4).map fun j => an.source d c j).sum
def Analyser.dy (an : Analyser) (d : Nat) (c : Cell) : Int := ((List.range 4).map fun j => an.source d c (j + 4)).sum
/-- Ports that cells of a domain name. -/
def Analyser.portsOf (an : Analyser) (d : Nat) : List Nat :=
  distinct (an.cells.flatMap fun e => if e.2.dom = d then
    (List.range 8).filterMap fun j => let k := e.2.code j; if 16 ≤ k ∧ k ≤ 31 then some (k - 16) else none else [])
/-- Inputs are present and no tap of the domain holds a full slot (R179). -/
def Analyser.ready (an : Analyser) (d : Nat) : Bool :=
  ((an.portsOf d).all fun n => match Tab.look an.ports n with
    | some p => decide (p.used < 32)
    | none => false) &&
  an.taps.all fun e => decide ((an.cell e.2.cell).dom ≠ d ∨ e.2.count < 32)
/-- The mode condition of R179. -/
def Domain.modeDue (x : Domain) : Bool :=
  match x.mode with
  | 0 => decide (0 < x.pend)
  | 1 => decide (x.phase = 0)
  | _ => true
/-- The process that owns a tile's array is resident, so the array runs (R197). -/
def State.arrayLive (s : State) (t : Nat) : Bool :=
  let o := Tab.lookD (s.tile t).owners 17 0
  decide (o ≠ 0) && decide ((s.proc o).res = .resident)
/-- Domain.Due (R179). -/
def State.domainDue (s : State) (t d : Nat) : Bool :=
  let an := (s.tile t).an
  let x := an.dom d
  x.run && decide (x.startAt ≤ s.cycle) && x.modeDue && an.ready d && s.arrayLive t
/-- The status word (Table 8.4). -/
def Analyser.status (an : Analyser) (d : Nat) : Word :=
  let x := an.dom d
  let wait := x.run && x.modeDue && !an.ready d
  BitVec.ofNat 64 (x.pend * 2 ^ 32 + x.ocell % 512 * 2 ^ 15 + x.ocause % 16 * 2 ^ 8 + x.mode % 4 * 16 + bit1 wait * 8
    + bit1 x.eos * 4 + bit1 x.ovr * 2 + bit1 x.run)
/-- The case of Table 8.5 that a cell meets at the sampling phase; 0 none. A port's code 0b10 adds nothing to dx (log 93). -/
def Analyser.offence (an : Analyser) (d : Nat) (c : Cell) : Nat :=
  let dx := an.dx d c
  let y := c.y.toInt
  let bad := (List.range 8).any fun j =>
    let k := c.code j
    decide (16 ≤ k ∧ k ≤ 31) && decide (((Tab.look an.ports (k - 16)).map DPort.next).getD 0 = 2)
  if dx < -1 ∨ 1 < dx then 1 else if y ≤ -(2 ^ 46) ∨ 2 ^ 46 ≤ y then 2 else if bad then 4 else 0
/-- A domain overruns (R182): of several offending cells in one cycle the lowest is recorded. -/
def Analyser.overrun (an : Analyser) (d cell cause : Nat) : Analyser :=
  let x := an.dom d
  let keep := an.hits.contains d && decide (x.ocell < cell ∨ (x.ocell = cell ∧ x.ocause ≤ cause))
  let x := { x with run := false, ovr := true, ocell := if keep then x.ocell else cell, ocause := if keep then x.ocause else cause }
  { an.setDom d x with hits := if an.hits.contains d then an.hits else an.hits ++ [d] }
/-- One cell's update (R174). -/
def Cell.integrate (c : Cell) (dx dy : Int) (others : Nat → Bool) : Cell :=
  let res := c.res.toInt + dx * c.y.toInt
  let dz : Int := if 2 ^ 46 ≤ res then 1 else if res < -(2 ^ 46) then -1 else 0
  { c with res := BitVec.ofInt 48 (res - dz * 2 ^ 47), y := BitVec.ofInt 48 (c.y.toInt + dy), out := dz,
           latch := c.latch.filter fun e => !others e.1 }
/-- Position `j` of a cell of domain `d` names a cell of another domain. -/
def Analyser.foreign (an : Analyser) (d : Nat) (c : Cell) (j : Nat) : Bool :=
  decide (32 ≤ c.code j) && decide ((an.cell (c.code j - 32)).dom ≠ d)
/-- Latches of other domains that the emissions of a domain go to (R181). -/
def Analyser.emissions (an : Analyser) (d : Nat) : List (Nat × Nat × Int) :=
  an.cells.flatMap fun r => if r.2.dom = d then [] else
    (List.range 8).filterMap fun j =>
      let k := r.2.code j
      let c := an.cell (k - 32)
      if 32 ≤ k ∧ c.dom = d ∧ c.out ≠ 0 then some (r.1, j, c.out) else none
/-- A tap appends a code (R186). -/
def DTap.add (x : DTap) (dz : Int) : DTap :=
  { x with slot := x.slot ||| BitVec.ofNat 64 (codeOf dz * 4 ^ x.count), count := x.count + 1 }
/-- A tap is removed, and its channel register returns to plain use (R195). -/
def State.tapCut (s : State) (t n : Nat) (x : DTap) : State :=
  (s.updAn t fun an => { an with taps := Tab.cut an.taps n }).updChan x.h x.ch fun y => { y with use := .plain }
/-- Push a tap's full slot, or wait for credit (R186); the push releases no store of the process (R323). A tap pushes to a freed endpoint as
to any other, and the message is lost (log 93). A tap whose process waits in EXIT is unbound with the push (R324). -/
def State.tapPush (s : State) (t n : Nat) : State :=
  match Tab.look (s.tile t).an.taps n with
  | none => s
  | some x =>
    if x.count < 32 then s
    else
      let c := (s.proc x.h).chan x.ch
      if c.role = .writer ∧ 1 ≤ c.credits then
        let s := s.updChan x.h x.ch fun c => { c with credits := c.credits - 1 }
        let s := if x.closing then s.tapCut t n x else s.updAn t fun an => { an with taps := Tab.put an.taps n { x with slot := 0, count := 0 } }
        let m : Staged := { h := x.h, c := x.ch, msg := { slots := [x.slot] }, after := [] }
        { s with staged := s.staged ++ [m] }.injectAll.wake x.h (.blockedWrite x.ch)
      else s.askCredit x.h x.ch 1
/-- Take the next slot for a port that holds no code, behind the slots that a move left retained (R69); a marker halts the domain that reads it
(R185). -/
def State.portTake (s : State) (t n : Nat) : State :=
  match Tab.look (s.tile t).an.ports n with
  | none => s
  | some p =>
    if p.used < 32 ∨ p.eos ∨ s.arrayLive t = false then s
    else match ((s.proc p.h).chan p.ch).dest.rid with
      | none => s
      | some rid => match (s.ep rid).queue.drop (s.ep rid).kept with
        | [] => s
        | q :: _ =>
          let s := s.consume rid 1
          s.updAn t fun an =>
            let an := { an with ports := Tab.put an.ports n (if q.marker then { p with eos := true } else { p with slot := q.val, used := 0 }) }
            if q.marker then
              (List.range 8).foldl (fun an d => if (an.portsOf d).contains n then an.setDom d { an.dom d with run := false, eos := true } else an) an
            else an
/-- The emission phase, once every domain of the tile that is due has updated (R181): full latches overrun their domain;
then one record per domain that overran, in increasing number (R183). -/
def State.flushEmit (s : State) (t : Nat) : State :=
  if s.events.any fun e => decide (e.1 = s.cycle) && (match e.2 with
    | .domainTick t' _ => decide (t' = t)
    | _ => false) then s
  else
    let an := (s.tile t).an
    let an := an.emit.foldl (fun an e =>
      let c := an.cell e.1
      if (Tab.look c.latch e.2.1).isSome then an.overrun c.dom e.1 3
      else an.setCell e.1 { c with latch := Tab.put c.latch e.2.1 e.2.2 }) { an with emit := [] }
    let hits := (List.range 8).filter an.hits.contains
    let s := s.updAn t fun _ => { an with hits := [] }
    let o := Tab.lookD (s.tile t).owners 17 0
    hits.foldl (fun s d =>
      let x := an.dom d
      s.queueRecord t
        { kind := .domain d, part := (s.proc o).part, firmware := false,
          slots := [recSlot0 o (d + x.ocause % 16 * 8 + x.ocell * 128) 2 false 0 Cause.incrOverrun.code, 0, 0, 0, 0, 0, 0, 0] }) s
/-- One tick of a due domain: sampling, overrun check, update, and its share of the emission (R174, R181, R182, R186). -/
def State.tick (s : State) (t d : Nat) : State :=
  let an := (s.tile t).an
  if s.domainDue t d = false then s.flushEmit t
  else
    let mine := an.cells.filter fun e => decide (e.2.dom = d)
    match mine.find? fun e => decide (an.offence d e.2 ≠ 0) with
    | some e => (s.updAn t fun _ => an.overrun d e.1 (an.offence d e.2)).flushEmit t
    | none =>
      let ports := an.portsOf d
      let cells := an.cells.filterMap fun e =>
        let c := if e.2.dom = d then e.2.integrate (an.dx d e.2) (an.dy d e.2) (an.foreign d e.2) else e.2
        if c = {} then none else some (e.1, c)
      let x := an.dom d
      let x := { x with tcnt := x.tcnt + 1, pend := if x.mode = 0 then x.pend - 1 else x.pend,
                        phase := if x.mode = 1 then x.divm1 + 1 else x.phase }
      let an := { an.setDom d x with
        cells := cells
        ports := Tab.mapV (fun n p => if ports.contains n then { p with used := p.used + 1 } else p) an.ports }
      let an := { an with
        emit := an.emit ++ an.emissions d
        taps := Tab.mapV (fun _ y => if (an.cell y.cell).dom = d then y.add (an.cell y.cell).out else y) an.taps }
      let s := s.updAn t fun _ => an
      let s := an.taps.foldl (fun s e => if 32 ≤ e.2.count then s.tapPush t e.1 else s) s
      let s := ports.foldl (fun s n => match Tab.look (s.tile t).an.ports n with
        | some p => if 32 ≤ p.used ∧ !s.isDue (.portTakeSlot t n) then s.afterCycles 0 (.portTakeSlot t n) else s
        | none => s) s
      s.flushEmit t

/-- A patch entry as a number: cell, domain, reserved bits, sources (Table 8.2). -/
def entryCell (e : Nat) : Nat := field e 127 119
def entryDom (e : Nat) : Nat := field e 118 116
def entryRsv (e : Nat) : Nat := field e 115 80
def entrySrc (e : Nat) : Tab Nat :=
  (List.range 8).filterMap fun j => let x := field e (10 * j + 9) (10 * j); if x = 0 then none else some (j, x)
/-- Put an entry into the table: the cell's own state stays. -/
def Analyser.place (an : Analyser) (e : Nat) : Analyser :=
  an.setCell (entryCell e) { an.cell (entryCell e) with dom := entryDom e, src := entrySrc e }
/-- A table is valid (R177), reserved bits and cell numbers apart. -/
def Analyser.valid (an : Analyser) : Bool :=
  (an.cells.all fun e => (List.range 8).all fun j => codeOk (e.2.code j)) &&
  (List.range 16).all fun n => decide (((List.range 8).filter fun d => (an.portsOf d).contains n).length ≤ 1)
/-- The entry of cell `i` as it stands. -/
def Analyser.entry (an : Analyser) (i : Nat) : Nat :=
  let c := an.cell i
  i * 2 ^ 119 + c.dom % 8 * 2 ^ 116 + (c.src.map fun e => e.2 % 1024 * 1024 ^ e.1).sum

/-- A 48-bit value sign-extended. -/
def sext48 (x : BitVec 48) : Nat := (x.signExtend 64).toNat
/-- The words of the saved image (Tables 8.9 to 8.11, R196). -/
def Analyser.image (an : Analyser) : List Nat :=
  ((List.range Config.cells).flatMap fun i =>
    let c := an.cell i
    let tap := an.taps.find? fun e => decide (e.2.cell = i)
    let (tv, tn, tc, cnt, slot) := match tap with
      | some e => (1, e.1, e.2.ch, e.2.count, e.2.slot.toNat)
      | none => (0, 0, 0, 0, 0)
    [sext48 c.y, sext48 c.res,
     tc * 2 ^ 43 + tn * 2 ^ 39 + tv * 2 ^ 38 + cnt * 2 ^ 32 + (c.latch.map fun e => codeOf e.2 * 4 ^ (e.1 + 1)).sum + codeOf c.out,
     slot]) ++
  ((List.range 8).flatMap fun d =>
    let x := an.dom d
    let port (n : Nat) := match Tab.look an.ports n with
      | some p => [p.slot.toNat, p.ch * 256 + 128 + bit1 p.eos * 64 + p.used]
      | none => [0, 0]
    [x.divm1 * 2 ^ 32 + x.mode, x.tcnt.toNat, (an.status d).toNat, x.phase] ++ port (2 * d) ++ port (2 * d + 1)) ++
  (List.range Config.cells).flatMap fun i => [an.entry i % 2 ^ 64, an.entry i / 2 ^ 64]
/-- A 64-bit number is the sign extension of its bit 47. -/
def ext48 (x : Nat) : Bool := decide ((BitVec.ofNat 48 x).signExtend 64 = BitVec.ofNat 64 x)
/-- The value fits the residue's range. -/
def resOk (x : Nat) : Bool := ext48 x && decide (-(2 ^ 46) ≤ (BitVec.ofNat 48 x).toInt ∧ (BitVec.ofNat 48 x).toInt < 2 ^ 46)
/-- The words of an image satisfy the checks of R196 that concern the image alone; it has none of counts, PHASE or doubled numbers (log 93). -/
def imageOk (w : Nat → Nat) : Bool :=
  ((List.range Config.cells).all fun i =>
    ext48 (w (4 * i)) && resOk (w (4 * i + 1)) && decide (field (w (4 * i + 2)) 63 47 = 0 ∧ field (w (4 * i + 2)) 31 18 = 0) &&
    (let e := w (1600 + 2 * i) + w (1601 + 2 * i) * 2 ^ 64
     decide (entryCell e = i ∧ entryRsv e = 0) && (entrySrc e).all fun x => codeOk (x.2 % 512))) &&
  (List.range 8).all fun d =>
    let b := 1536 + 8 * d
    decide (field (w b) 63 48 = 0 ∧ field (w b) 31 2 = 0 ∧ w b % 4 ≠ 3 ∧ field (w (b + 2)) 31 24 = 0 ∧ field (w (b + 2)) 14 12 = 0 ∧
      field (w (b + 2)) 7 6 = 0 ∧ field (w (b + 3)) 63 17 = 0 ∧ field (w (b + 5)) 63 12 = 0 ∧ field (w (b + 7)) 63 12 = 0)
/-- The array that an image describes, bound to the channel registers of process `h`. Counts above 32 are taken as 32, and of two cells that
name one tap the later has it (log 93). -/
def ofImage (h cycle : Nat) (w : Nat → Nat) : Analyser :=
  let cells : Tab Cell := (List.range Config.cells).filterMap fun i =>
    let m := w (4 * i + 2)
    let e := w (1600 + 2 * i) + w (1601 + 2 * i) * 2 ^ 64
    let latch : Tab Int := (List.range 8).filterMap fun j =>
      let v := incAt (16 * i + j) (field m (2 * j + 3) (2 * j + 2)); if v = 0 then none else some (j, v)
    let c : Cell := { y := BitVec.ofNat 48 (w (4 * i)), res := BitVec.ofNat 48 (w (4 * i + 1)), out := incAt (16 * i + 8) (m % 4), latch := latch,
                      dom := entryDom e, src := entrySrc e }
    if c = {} then none else some (i, c)
  let doms : Tab Domain := (List.range 8).filterMap fun d =>
    let b := 1536 + 8 * d
    let st := w (b + 2)
    let x : Domain := { divm1 := field (w b) 47 32, mode := w b % 4, tcnt := BitVec.ofNat 64 (w (b + 1)), pend := field st 63 32,
                        ocell := field st 23 15, ocause := field st 11 8, eos := bitAt st 2, ovr := bitAt st 1, run := bitAt st 0,
                        phase := w (b + 3), startAt := if bitAt st 0 then cycle else 0 }
    if x = {} then none else some (d, x)
  let ports : Tab DPort := (List.range 16).filterMap fun n =>
    let b := 1540 + 8 * (n / 2) + 2 * (n % 2)
    if bitAt (w (b + 1)) 7 then
      some (n, { h := h, ch := field (w (b + 1)) 11 8, slot := BitVec.ofNat 64 (w b), used := min 32 (w (b + 1) % 64), eos := bitAt (w (b + 1)) 6 })
    else none
  let taps : Tab DTap := (List.range Config.cells).foldl (fun a i =>
    let m := w (4 * i + 2)
    if bitAt m 38 then
      Tab.put a (field m 42 39) { h := h, ch := field m 46 43, cell := i, slot := BitVec.ofNat 64 (w (4 * i + 3)), count := min 32 (field m 37 32) }
    else a) []
  { cells := cells, doms := doms, ports := ports, taps := taps }

/-- The channel registers that the array uses return to plain use, those of a former owner too (log 93). -/
def State.looseChans (s : State) (t : Nat) : State :=
  let an := (s.tile t).an
  let s := an.ports.foldl (fun s e => s.updChan e.2.h e.2.ch fun x => if x.use = .port e.1 then { x with use := .plain } else x) s
  an.taps.foldl (fun s e => s.updChan e.2.h e.2.ch fun x => if x.use = .tap e.1 then { x with use := .plain } else x) s
/-- A tap is unbound: a full slot is pushed first, and the tap stays while that waits for credit; a partial slot is discarded (R195, R324). -/
def State.tapEnd (s : State) (t n : Nat) : State :=
  let s := s.tapPush t n
  match Tab.look (s.tile t).an.taps n with
  | some x => if 32 ≤ x.count then s else s.tapCut t n x
  | none => s
/-- The channel registers that the array names are marked, the last port or tap that names one (log 93), and ports take their first slot. -/
def State.markChans (s : State) (t : Nat) : State :=
  let an := (s.tile t).an
  let s := an.ports.foldl (fun s e => (s.updChan e.2.h e.2.ch fun x => { x with use := .port e.1 }).afterCycles 1 (.portTakeSlot t e.1)) s
  an.taps.foldl (fun s e => (s.updChan e.2.h e.2.ch fun x => { x with use := .tap e.1 }).afterCycles 1 (.tapCreditPush t e.1)) s

/-- An array goes on in a tile: its running domains start in the next cycle (R431). -/
def State.startArray (s : State) (t : Nat) (an : Analyser) : State :=
  (s.updAn t fun _ => { an with doms := Tab.mapV (fun _ x => if x.run then { x with startAt := max x.startAt (s.cycle + 1) } else x) an.doms }).markChans t
/-- A process whose array was saved has it back, and is its owner again; the array that it replaces is saved for its owner in turn (R197,
log 41). -/
def State.takeBackArray (s : State) (h : Nat) : State :=
  let t := (s.proc h).tile
  let o := Tab.lookD (s.tile t).owners 17 0
  match (s.proc h).image with
  | none => s
  | some an =>
    let now := (s.tile t).an
    let s := s.updProc h fun p => { p with image := none }
    let s := if o = 0 ∨ o = h then s else (s.dropDstep o h).updProc o fun q => { q with image := some now }
    ((s.looseChans t).updTile t fun x => { x with owners := Tab.put x.owners 17 h }).startArray t an
/-- What the start of a cycle does to the array of a tile: it is kept for the reads of the cycle, DIV phases count down, due domains are put on the list in
increasing number (R179). -/
def State.arrayCycle (s : State) (t : Nat) : State :=
  let an := (s.tile t).an
  if (an.doms.all fun e => !e.2.run) && an.ports.isEmpty then s
  else if s.arrayLive t = false then s
  else
    let s := s.updAn t fun an => an.snap s.cycle
    let counting (x : Domain) := x.run && decide (x.mode = 1) && decide (x.startAt ≤ s.cycle)
    let zero := an.doms.filter fun e => counting e.2 && decide (e.2.phase = 1)
    let s := zero.foldl (fun s e => s.afterCycles 0 (.divPhaseZero t e.1)) s
    let s := s.updAn t fun an => { an with doms := Tab.mapV (fun _ x => if counting x && decide (2 ≤ x.phase) then { x with phase := x.phase - 1 } else x) an.doms }
    an.doms.foldl (fun s e =>
      if s.domainDue t e.1 || (zero.any (fun z => z.1 == e.1) && an.ready e.1) then s.afterCycles 0 (.domainTick t e.1) else s) s
/-- A DSTEP ends in the cycle after its last tick or the halt of its domain: the process goes on behind it (R193, R331). -/
def State.endDstep (s : State) (h : Nat) : State :=
  let p := s.proc h
  match p.dstep with
  | none => s
  | some n =>
    let x := (s.tile p.tile).an.dom n
    if p.pst ≠ .ready then s.dropHeld h
    else if x.run && decide (0 < x.pend) then s
    else
        let s := s.updProc h fun q => { q with dstep := none, pc := p.pc + 4 }
        if p.steps then s.stepTrap h 0x31 p.pc else s

end Sys2Proof.Machine
end

