-- ==== Sys2Proof/Machine/AnalyserOps.lean ====
section
/-! DEFINITION. The analyser instructions, major 0x31 (R188 to R196, R323 to R331, R358), and the steps of the array (R174,
R179, R185, R186). -/

namespace Sys2Proof.Machine

/-- The common checks of R189: ownership, then no open strip, then the instruction's own, which answer the fault or the state
after the instruction. An array of the process that was saved is restored before its instruction (R197). -/
def State.analyserOp (s : State) (inStrip : Bool) (k : State → Except (Cause × FInfo) State) : State :=
  match s.conflict s.running 2 [] with
  | some (o, _) => s.raise 0x31 .vown { detail := 128, owner := o }
  | none =>
    let s := if s.me.crosses 2 then s else s.takeBackArray s.running
    if s.me.strip.isSome && !inStrip then s.raise 0x31 .protection
    else match k (s.takeUnits s.running 2 []) with
      | .error (c, x) => s.raise 0x31 c x
      | .ok s' => s'
/-- The running process's analyser. -/
def State.an (s : State) : Analyser := (s.tile s.myTile).an
/-- The running process's analyser as it stood at the start of the cycle, which an instruction reads (R323). -/
def State.oldAn (s : State) : Analyser := s.an.atStart s.cycle
/-- A failed operand check. -/
def deny : Except (Cause × FInfo) State := .error (.protection, {})

/-- PATCH (R190, R358). The alignment of s(a) is checked first, also where n is 0 (log 79). -/
def execPatch (a b : BitVec 5) (s : State) : Out :=
  .next (s.withRegs [a, b] (s.analyserOp false fun s =>
    let off := s.reg a
    let n := s.regN b
    if off.toNat % 16 ≠ 0 then .error (.misalign, FInfo.at off.toNat)
    else if 384 < n then deny
    else if n = 0 then .ok (s.retire 0x31)
    else match s.readWindow off (16 * n) with
      | .error c => .error (c, FInfo.at off.toNat)
      | .ok bs =>
        let es := (List.range n).map fun i => dword bs (16 * i) + dword bs (16 * i + 8) * 2 ^ 64
        let an := s.an
        let new := es.foldl Analyser.place an
        let old := s.oldAn
        let running (e : Nat) := (old.dom (an.cell (entryCell e)).dom).run || (old.dom (new.cell (entryCell e)).dom).run
        if es.any (fun e => decide (entryRsv e ≠ 0 ∨ Config.cells ≤ entryCell e) || running e) || !new.valid then deny
        else .ok ((s.updAn s.myTile fun _ => new).retire 0x31)))
/-- DCFG (R191, R325). -/
def execDcfg (n : BitVec 3) (a : BitVec 5) (s : State) : Out :=
  .next (s.withRegs [a] (s.analyserOp false fun s =>
    let w := s.reg a
    let x := s.an.dom n.toNat
    if (s.oldAn.dom n.toNat).run ∨ wfield w 63 48 ≠ 0 ∨ wfield w 31 2 ≠ 0 ∨ wfield w 1 0 = 3 then deny
    else
      let x := { x with divm1 := wfield w 47 32, mode := wfield w 1 0, phase := wfield w 47 32 + 1 }
      .ok ((s.updAn s.myTile fun an => an.setDom n.toNat x).retire 0x31)))
/-- The target that a target word names: KIND and INDEX, where they are in range (Table 8.7). -/
def targetOf (w : Word) : Option (Nat × Nat) :=
  let kind := wfield w 14 12
  let i := wfield w 8 0
  if wfield w 63 15 ≠ 0 ∨ wfield w 11 9 ≠ 0 ∨ 3 < kind ∨ (kind ≤ 1 ∧ Config.cells ≤ i) ∨ (2 ≤ kind ∧ 7 < i) then none else some (kind, i)
/-- DSET (R192, R330). -/
def execDset (a b : BitVec 5) (s : State) : Out :=
  .next (s.withRegs [a, b] (s.analyserOp false fun s =>
    let v := s.reg b
    let an := s.an
    match targetOf (s.reg a) with
    | none => deny
    | some (kind, i) =>
      let put (f : Analyser → Analyser) : Except (Cause × FInfo) State := .ok ((s.updAn s.myTile f).retire 0x31)
      let c := an.cell i
      let x := an.dom i
      let old := s.oldAn
      match kind with
      | 0 => if (old.dom c.dom).run ∨ ext48 v.toNat = false then deny else put fun an => an.setCell i { c with y := v.setWidth 48 }
      | 1 => if (old.dom c.dom).run ∨ resOk v.toNat = false then deny else put fun an => an.setCell i { c with res := v.setWidth 48 }
      | 2 => if (old.dom i).run then deny else put fun an => an.setDom i { x with tcnt := v }
      | _ => put fun an => an.setDom i { x with eos := x.eos && !bitAt v.toNat 2, ovr := x.ovr && !bitAt v.toNat 1 }))
/-- DGET (R192, R326): the values at the start of the cycle. -/
def execDget (d a : BitVec 5) (s : State) : Out :=
  .next (s.withRegs [a, d] (s.analyserOp true fun s =>
    let old := s.oldAn
    match targetOf (s.reg a) with
    | none => deny
    | some (kind, i) =>
      let v : Word := match kind with
        | 0 => (old.cell i).y.signExtend 64
        | 1 => (old.cell i).res.signExtend 64
        | 2 => (old.dom i).tcnt
        | _ => old.status i
      .ok ((s.setReg d v).retire 0x31)))
/-- The running process's array as an instruction of it finds it, a saved one come back (R197, R242, R323). -/
def State.ownOldAn (s : State) : Analyser := (if s.me.crosses 2 then s else s.takeBackArray s.running).oldAn
/-- DSTEP (R193, R331): what PEND and RUN were at the start of the cycle decides whether it sets PEND or continues; s(a) is then
neither read nor waited for. One that was given up continues, and ends where its last tick has been performed or its domain halted. -/
def execDstep (n : BitVec 3) (a : BitVec 5) (s : State) : Out :=
  .next (s.withRegs (if (s.ownOldAn.dom n.toNat).pend = 0 ∧ s.me.dcont ≠ some s.me.pc then [a] else []) (s.analyserOp false fun s =>
    let x := s.oldAn.dom n.toNat
    let k := s.regN a
    if s.me.dcont = some s.me.pc ∧ (x.pend = 0 ∨ x.run = false) then .ok (s.retire 0x31)
    else if x.run = false ∨ x.mode ≠ 0 ∨ (x.pend = 0 ∧ 65536 < k) then deny
    else if x.pend = 0 ∧ k = 0 then .ok (s.retire 0x31)
    else
      let s := if x.pend = 0 then s.updAn s.myTile fun an => an.setDom n.toNat { an.dom n.toNat with pend := k } else s
      let s := s.countEvent s.myTile 1 1
      .ok (s.updMe fun p => { p.enter .ready s.cycle with dstep := some n.toNat, dcont := none, lastIssue := some s.cycle, since := s.cycle + 1 })))
/-- DRUN (R194, R327). -/
def execDrun (a : BitVec 5) (s : State) : Out :=
  .next (s.withRegs [a] (s.analyserOp false fun s =>
    let w := s.reg a
    if wfield w 63 8 ≠ 0 then deny
    else
      let named := (List.range 8).filter fun d => bitAt w.toNat d
      let t := s.myTile
      let ports := named.flatMap s.an.portsOf
      let s := s.updAn t fun an =>
        let an := named.foldl (fun an d =>
          let x := an.dom d
          let x := { x with ovr := false, ocause := 0, eos := false }
          an.setDom d (if x.run then x
            else { x with run := true, startAt := max x.startAt (s.cycle + 1), phase := if x.mode = 1 then x.divm1 + 1 else x.phase })) an
        { an with ports := Tab.mapV (fun n p => if ports.contains n then { p with eos := false } else p) an.ports }
      .ok ((ports.foldl (fun s n => s.afterCycles 1 (.portTakeSlot t n)) s).retire 0x31)))
/-- DHALT (R194, R327): a tick due in this cycle has been performed; a DRUN in the next cycle starts one cycle later. -/
def execDhalt (a : BitVec 5) (s : State) : Out :=
  .next (s.withRegs [a] (s.analyserOp false fun s =>
    let w := s.reg a
    if wfield w 63 8 ≠ 0 then deny
    else
      let named := (List.range 8).filter fun d => bitAt w.toNat d && (s.an.dom d).run
      .ok ((s.updAn s.myTile fun an =>
        named.foldl (fun an d => an.setDom d { an.dom d with run := false, startAt := s.cycle + 3 }) an).retire 0x31)))
/-- DSAVE (R196, R329). -/
def execDsave (a : BitVec 5) (s : State) : Out :=
  .next (s.withRegs [a] (s.analyserOp false fun s =>
    let off := s.reg a
    if off.toNat % 64 ≠ 0 then .error (.misalign, FInfo.at off.toNat)
    else match s.placeLocal (s.me.ctx s.running 0) off.toNat 18944 with
      | .error c => .error (c, FInfo.at off.toNat)
      | .ok p => .ok ((s.sramStore p.addr (wbytes (s.an.image.flatMap (bytesLE 8)))).retire 0x31)))
/-- DLOAD (R196, R329): what it loads takes the place of an image that the process has not had back. -/
def execDload (a : BitVec 5) (s : State) : Out :=
  .next (s.withRegs [a] (s.analyserOp false fun s =>
    let off := s.reg a
    let t := s.myTile
    if off.toNat % 64 ≠ 0 then .error (.misalign, FInfo.at off.toNat)
    else match s.readWindow off 18944 with
      | .error c => .error (c, FInfo.at off.toNat)
      | .ok bs =>
        let ws := (List.range 2368).map fun i => dword (bs.drop (8 * i)) 0
        let w (i : Nat) := ws.getD i 0
        let new := ofImage s.running s.cycle w
        let held (r : Role) (c : Nat) := decide ((s.me.chan c).role = r)
        let badTap (i : Nat) := bitAt (w (4 * i + 2)) 38 && !held .writer (field (w (4 * i + 2)) 46 43)
        if s.oldAn.doms.any (fun e => e.2.run) || !imageOk w || !new.valid || new.ports.any (fun e => !held .reader e.2.ch)
            || (List.range Config.cells).any badTap then deny
        else .ok (((((s.looseChans t).updAn t fun _ => new).markChans t).updMe fun p => { p with image := none }).retire 0x31)))
/-- DBIND (R195, R324). Unbinding a tap asks for the domain of the cell that the tap is bound to, for the CELL field is then zero
(log 79). -/
def execDbind (a : BitVec 5) (c : BitVec 4) (s : State) : Out :=
  .next (s.withRegs [a] (s.analyserOp false fun s =>
    let w := s.reg a
    let t := s.myTile
    let h := s.running
    let an := s.an
    let dir := bitAt w.toNat 31
    let unb := bitAt w.toNat 30
    let num := wfield w 19 16
    let cell := wfield w 8 0
    let ch := c.toNat
    let x := s.me.chan ch
    let rsv := decide (wfield w 63 32 ≠ 0 ∨ wfield w 29 20 ≠ 0 ∨ wfield w 15 9 ≠ 0)
    let old := s.oldAn
    let portRun := (List.range 8).any fun d => (old.dom d).run && (an.portsOf d).contains num
    if x.role = .unbound then .error (.chanUnbound, {})
    else if rsv ∨ Config.cells ≤ cell ∨ (dir = false ∧ cell ≠ 0) ∨ (unb ∧ cell ≠ 0) then deny
    else if x.role ≠ (if dir then .writer else .reader) then deny
    else if unb then
      (if dir then match Tab.look an.taps num with
        | none => deny
        | some y =>
          if x.use ≠ .tap num ∨ y.h ≠ h ∨ y.ch ≠ ch ∨ (old.dom (an.cell y.cell).dom).run then deny
          else
            let s := s.tapEnd t num
            if (Tab.look s.an.taps num).isSome then .ok (s.block (.blockedWrite ch) 1) else .ok (s.retire 0x31)
      else match Tab.look an.ports num with
        | none => deny
        | some y =>
          if x.use ≠ .port num ∨ y.h ≠ h ∨ y.ch ≠ ch ∨ portRun then deny
          else .ok (((s.updAn t fun an => { an with ports := Tab.cut an.ports num }).updChan h ch fun x => { x with use := .plain }).retire 0x31))
    else if x.use ≠ .plain then deny
    else if dir then
      if (Tab.look an.taps num).isSome ∨ an.taps.any (fun e => decide (e.2.cell = cell)) ∨ (old.dom (an.cell cell).dom).run then deny
      else .ok (((s.updAn t fun an => { an with taps := Tab.put an.taps num { h := h, ch := ch, cell := cell } }).updChan h ch
        fun x => { x with use := .tap num }).retire 0x31)
    else if (Tab.look an.ports num).isSome ∨ portRun then deny
    else .ok ((((s.updAn t fun an => { an with ports := Tab.put an.ports num { h := h, ch := ch } }).updChan h ch
        fun x => { x with use := .port num }).afterCycles 1 (.portTakeSlot t num)).retire 0x31)))

/-- DIV_PHASE_ZERO (R179): the phase of a DIV domain reaches zero. -/
def execDivPhaseZero (tile dom : Nat) (s : State) : Out :=
  .next (if ((s.tile tile).an.dom dom).run ∧ ((s.tile tile).an.dom dom).phase = 1 then
    s.updAn tile fun an => an.setDom dom { an.dom dom with phase := 0 } else s)
/-- DOMAIN_TICK (R174, R181, R182). -/
def execDomainTick (tile dom : Nat) (s : State) : Out := .next (s.tick tile dom)
/-- PORT_TAKE_SLOT (R185). -/
def execPortTakeSlot (tile port : Nat) (s : State) : Out := .next (s.portTake tile port)
/-- TAP_CREDIT_PUSH (R186); an array that stands still keeps its taps (R197, R431). -/
def execTapCreditPush (tile tap : Nat) (s : State) : Out := .next (if s.arrayLive tile then s.tapPush tile tap else s)

end Sys2Proof.Machine
end

