-- ==== Sys2Proof/Machine/LoadStore.lean ====
section
/-! DEFINITION. Scalar loads and stores, majors 0x0C and 0x0D (R77 to R89, R105, R117, R342, R343, R373). -/

namespace Sys2Proof.Machine

/-- Bytes of an access size. -/
def Size.bytes : Size → Nat
  | .b => 1 | .h => 2 | .w => 4 | .d => 8
/-- What the record of a failed access at address `a` names (R235): its page, its address, and the peer of LEASE_FAULT. -/
def State.accessInfo (s : State) (c : Cause) (a : Nat) : FInfo :=
  let p := s.me
  let base := if p.mtype = 4 then (s.part p.part).symbase else 0
  { pages := [if p.mtype = 2 ∨ p.mtype = 4 then s.pageNum p.part (base + a) else a / 65536 % 2 ^ 32], addr := some a,
    aux := if c = .leaseFault then (if p.mtype = 4 then p.peer.toNat else (p.cap p.ksel).peer) else 0 }
/-- The access of a load of `n` bytes at `a`, once no held atomic of the strip meets it (R342). -/
def State.loadScalar (s : State) (op : Nat) (d : BitVec 5) (n : Nat) (a : Word) : State :=
  match s.placeMt (s.me.mtCtx s.running) a n n .load with
  | (s, .error c) => s.raise op c (s.accessInfo c a.toNat)
  | (s, .ok pl) =>
    match s.lookLocal s.running s.me.mtype pl n with
    | (s, .val bs) => (s.setReg d (sext64 (8 * n) (ofBytesLE bs))).retire op
    | (s, .wait ids) => s.holdOn ids
    | (s, .ask fwd) =>
      let p := s.me
      let r : Req := { p.req s.running p.mtype pl a.toNat (.read n) (.scalar d.toNat n) p.pc op with strip := p.strip.isSome, fwd := fwd }
      let (s, id) := s.send r
      let s := s.noteLoads [id]
      let s := if d = 0 then s else s.updMe fun p => { p with pend := Tab.put p.pend d.toNat (.load id) }
      s.retire op
/-- A load commits the strip first when it touches a byte that a held atomic writes (R343); a commit that has begun ends. -/
def State.pastAtomics (s : State) (a : Word) (n : Nat) (k : State → State) : State :=
  if s.me.strip.isSome && (s.me.inCommit || s.me.heldAtomic s.me.mtype (s.placeMt (s.me.mtCtx s.running) a n n .load).2 a.toNat n) then
    s.afterCommit k
  else k s

/-- LD (R342, R343). -/
def execLd (d a : BitVec 5) (z : Size) (i : BitVec 14) (s : State) : Out :=
  .next (s.withRegs [a, d]
    (let addr := s.reg a + sx i
     s.pastAtomics addr (Size.bytes z) fun s => s.withRegs [a, d] (s.loadScalar 0x0C d (Size.bytes z) (s.reg a + sx i))))
/-- ST (R373). -/
def execSt (d a : BitVec 5) (z : Size) (i : BitVec 14) (s : State) : Out :=
  .next (s.withRegs [a, d]
    (let addr := s.reg a + sx i
     let n := Size.bytes z
     match s.placeMt (s.me.mtCtx s.running) addr n n .store with
     | (s, .error c) => s.raise 0x0D c (s.accessInfo c addr.toNat)
     | (s, .ok pl) =>
       let w : Wr := { place := pl, addr := addr.toNat, bs := wbytes (bytesLE n (s.regN d)) }
       s.bufferStore 0x0D false (.store s.me.mtype s.me.pc 0x0D [w])))

end Sys2Proof.Machine
end

