-- ==== Sys2Proof/Machine/Atomics.lean ====
section
/-! DEFINITION. Atomics and FENCE, major 0x2B (R109, R110, R117 to R122, R297 to R299, R334). -/

namespace Sys2Proof.Machine

/-- Bytes of an atomic's size. -/
def ASize.bytes : ASize → Nat
  | .w => 4 | .d => 8
/-- A non-returning atomic: the checks of R120, then the strip's buffer or the home (R121, R298). -/
def State.atomicPlain (s : State) (fn : Nat) (a b : BitVec 5) (z : ASize) : State :=
  s.withRegs [a, b]
    (let n := ASize.bytes z
     let addr := s.reg a
     match s.placeMt (s.me.mtCtx s.running) addr n n .atomic with
     | (s, .error c) => s.raise 0x2B c (s.accessInfo c addr.toNat)
     | (s, .ok pl) => s.bufferStore 0x2B false (.atomic s.me.mtype s.me.pc pl addr.toNat fn n (s.regN b % 256 ^ n)))
/-- A value-returning atomic: it commits the strip, then the checks of R120; the old value goes to `d` (R110, R119, R121). -/
def State.atomicValue (s : State) (fn : Nat) (d a b : BitVec 5) (more : List (BitVec 5)) (z : ASize) : State :=
  s.withRegsCommit ([a, b, d] ++ more)
    (fun s =>
      let n := ASize.bytes z
      let addr := s.reg a
      let typ := s.me.mtype
      if s.me.det then s.raise 0x2B .detViolation
      else if typ = 4 ∧ addr.toNat % n = 0 then s.raise 0x2B .protection (s.accessInfo .protection addr.toNat)
      else match s.placeMt (s.me.mtCtx s.running) addr n n .atomic with
        | (s, .error c) => s.raise 0x2B c (s.accessInfo c addr.toNat)
        | (s, .ok pl) =>
            let w := (more.head?.map fun r => s.regN r).getD 0
            let old := s.me.pc
            match s.atomicOne s.running typ old pl addr.toNat fn n (s.regN b % 256 ^ n) (w % 256 ^ n) (.scalar d.toNat n) with
            | (s, some (.inl v)) => (s.setReg d (sext64 (8 * n) v)).retire 0x2B
            | (s, some (.inr id)) =>
              (if d = 0 then s else s.updMe fun p => { p with pend := Tab.put p.pend d.toNat (.load id) }).retire 0x2B
            | (s, none) => s.retire 0x2B)
/-- AADD (R119, R297). -/
def execAadd (a b : BitVec 5) (z : ASize) (s : State) : Out := .next (s.atomicPlain 0 a b z)
/-- AMIN (R119, R297). -/
def execAmin (a b : BitVec 5) (z : ASize) (s : State) : Out := .next (s.atomicPlain 1 a b z)
/-- AMAX (R119, R297). -/
def execAmax (a b : BitVec 5) (z : ASize) (s : State) : Out := .next (s.atomicPlain 2 a b z)
/-- AAND (R119, R297). -/
def execAand (a b : BitVec 5) (z : ASize) (s : State) : Out := .next (s.atomicPlain 3 a b z)
/-- AOR (R119, R297). -/
def execAor (a b : BitVec 5) (z : ASize) (s : State) : Out := .next (s.atomicPlain 4 a b z)
/-- AXADD (R119, R297). -/
def execAxadd (d a b : BitVec 5) (z : ASize) (s : State) : Out := .next (s.atomicValue 5 d a b [] z)
/-- AXCHG (R119, R297). -/
def execAxchg (d a b : BitVec 5) (z : ASize) (s : State) : Out := .next (s.atomicValue 6 d a b [] z)
/-- ACAS (R119, R297): compares with s(b), writes s(b + 1). -/
def execAcas (d a b : BitVec 5) (z : ASize) (s : State) : Out := .next (s.atomicValue 7 d a b [b + 1] z)

/-- The home of a place lies within a FENCE scope of a tile (Table 5.1). -/
def Place.within (p : Place) (tile : Nat) (sc : Scope) : Bool :=
  match sc, p with
  | .system, _ => true
  | .package, .remote _ _ _ => false
  | .package, _ => true
  | .die, .sram k _ => dieOf (k / 0x100000) == dieOf tile
  | .die, .dram k _ => decide (k / Config.serverBytes / 64 = dieOf tile)
  | .die, .remote _ _ _ => false
  | .tile, .sram k _ => decide (k / 0x100000 = tile)
  | .tile, _ => false
/-- FENCE (R109, R334): commit, drain, and wait for the covered accesses. -/
def execFence (sc : Scope) (s : State) : Out :=
  .next (s.afterCommit fun s =>
    let s := s.cbDrainAll s.running
    let t := s.myTile
    let ids := (s.reqs.filter fun e => decide (e.2.h = s.running ∧ e.2.performed = false) && e.2.place.within t sc && !e.2.ofStream).map fun e => e.1
    if ids.isEmpty then s.retire 0x2B else s.holdOn ids)

end Sys2Proof.Machine
end

