-- ==== Sys2Proof/Machine/Scalar.lean ====
section
/-! DEFINITION. Scalar register arithmetic and logic, majors 0x01 to 0x0B (R277, R300, R301, R314, R328, R345, R346, R356, R357,
R359, R361, R371, R376, R415). -/

namespace Sys2Proof.Machine

/-- A scalar instruction: it waits for pending operands and destination, writes `d` and completes (R31, R295). -/
def State.alu (s : State) (op : Nat) (d : BitVec 5) (rs : List (BitVec 5)) (v : Word) : Out :=
  .next (s.withRegs (rs ++ [d]) ((s.setReg d v).retire op))

/-- A scalar instruction whose result has a fixed latency of `n` cycles (R31, R328, R356, R361). -/
def State.aluAfter (s : State) (op : Nat) (d : BitVec 5) (rs : List (BitVec 5)) (v : Word) (n : Nat) : Out :=
  .next (s.withRegs (rs ++ [d]) ((s.setRegAfter d v n).retire op))

/-- The quotient of DIV and DIVU (R328). -/
def divS (x y : Word) : Word :=
  if y = 0 then BitVec.allOnes 64 else if x = BitVec.intMin 64 ∧ y = BitVec.allOnes 64 then BitVec.intMin 64 else x.sdiv y
def divU (x y : Word) : Word := if y = 0 then BitVec.allOnes 64 else x / y
/-- The remainder of REM and REMU (R361). -/
def remS (x y : Word) : Word :=
  if y = 0 then x else if x = BitVec.intMin 64 ∧ y = BitVec.allOnes 64 then 0 else x.srem y
def remU (x y : Word) : Word := if y = 0 then x else x % y
/-- 1 or 0. -/
def boolWord (b : Bool) : Word := if b then 1 else 0
/-- Zero bits above the most significant 1 (R314). -/
def clzNat (x : Nat) : Nat := if x = 0 then 64 else 63 - Nat.log2 x
/-- Number of 1 bits (R359). -/
def popNat (x : Nat) : Nat := ((List.range 64).filter fun i => bitAt x i).length
/-- The high half of a product (R356). -/
def mulHigh (x y : Int) : Word := BitVec.ofInt 64 (x * y / 2 ^ 64)

/-- ADD (R300). -/
def execAdd (d a b : BitVec 5) (s : State) : Out :=
  let x := s.reg a
  let y := s.reg b
  s.alu 0x01 d [a, b] (x + y)
/-- SUB (R376). -/
def execSub (d a b : BitVec 5) (s : State) : Out :=
  let x := s.reg a
  let y := s.reg b
  s.alu 0x01 d [a, b] (x - y)
/-- MUL (R356). -/
def execMul (d a b : BitVec 5) (s : State) : Out :=
  let x := s.reg a
  let y := s.reg b
  s.aluAfter 0x01 d [a, b] (x * y) 4
/-- MULH (R356). -/
def execMulh (d a b : BitVec 5) (s : State) : Out :=
  let x := s.reg a
  let y := s.reg b
  s.aluAfter 0x01 d [a, b] (mulHigh x.toInt y.toInt) 4
/-- MULHU (R356). -/
def execMulhu (d a b : BitVec 5) (s : State) : Out :=
  let x := s.reg a
  let y := s.reg b
  s.aluAfter 0x01 d [a, b] (mulHigh x.toNat y.toNat) 4
/-- DIV (R328). -/
def execDiv (d a b : BitVec 5) (s : State) : Out :=
  let x := s.reg a
  let y := s.reg b
  s.aluAfter 0x01 d [a, b] (divS x y) 24
/-- DIVU (R328). -/
def execDivu (d a b : BitVec 5) (s : State) : Out :=
  let x := s.reg a
  let y := s.reg b
  s.aluAfter 0x01 d [a, b] (divU x y) 24
/-- REM (R361). -/
def execRem (d a b : BitVec 5) (s : State) : Out :=
  let x := s.reg a
  let y := s.reg b
  s.aluAfter 0x01 d [a, b] (remS x y) 24
/-- REMU (R361). -/
def execRemu (d a b : BitVec 5) (s : State) : Out :=
  let x := s.reg a
  let y := s.reg b
  s.aluAfter 0x01 d [a, b] (remU x y) 24
/-- AND (R300). -/
def execAnd (d a b : BitVec 5) (s : State) : Out :=
  let x := s.reg a
  let y := s.reg b
  s.alu 0x01 d [a, b] (x &&& y)
/-- OR (R357). -/
def execOr (d a b : BitVec 5) (s : State) : Out :=
  let x := s.reg a
  let y := s.reg b
  s.alu 0x01 d [a, b] (x ||| y)
/-- XOR (R415). -/
def execXor (d a b : BitVec 5) (s : State) : Out :=
  let x := s.reg a
  let y := s.reg b
  s.alu 0x01 d [a, b] (x ^^^ y)
/-- SLL (R371). -/
def execSll (d a b : BitVec 5) (s : State) : Out :=
  let x := s.reg a
  let y := s.reg b
  s.alu 0x01 d [a, b] (x <<< (y.toNat % 64))
/-- SRL (R371). -/
def execSrl (d a b : BitVec 5) (s : State) : Out :=
  let x := s.reg a
  let y := s.reg b
  s.alu 0x01 d [a, b] (x >>> (y.toNat % 64))
/-- SRA (R371). -/
def execSra (d a b : BitVec 5) (s : State) : Out :=
  let x := s.reg a
  let y := s.reg b
  s.alu 0x01 d [a, b] (x.sshiftRight (y.toNat % 64))
/-- SLT (R371). -/
def execSlt (d a b : BitVec 5) (s : State) : Out :=
  let x := s.reg a
  let y := s.reg b
  s.alu 0x01 d [a, b] (boolWord (x.slt y))
/-- SLTU (R371). -/
def execSltu (d a b : BitVec 5) (s : State) : Out :=
  let x := s.reg a
  let y := s.reg b
  s.alu 0x01 d [a, b] (boolWord (x.ult y))
/-- MIN (R346). -/
def execMin (d a b : BitVec 5) (s : State) : Out :=
  let x := s.reg a
  let y := s.reg b
  s.alu 0x01 d [a, b] (if x.sle y then x else y)
/-- MAX (R346). -/
def execMax (d a b : BitVec 5) (s : State) : Out :=
  let x := s.reg a
  let y := s.reg b
  s.alu 0x01 d [a, b] (if y.sle x then x else y)
/-- CLZ (R314). -/
def execClz (d a : BitVec 5) (s : State) : Out :=
  let x := s.reg a
  s.alu 0x01 d [a] (BitVec.ofNat 64 (clzNat x.toNat))
/-- POPC (R359). -/
def execPopc (d a : BitVec 5) (s : State) : Out :=
  let x := s.reg a
  s.alu 0x01 d [a] (BitVec.ofNat 64 (popNat x.toNat))
/-- ADDI (R300). -/
def execAddi (d a : BitVec 5) (i : BitVec 16) (s : State) : Out :=
  let x := s.reg a
  s.alu 0x02 d [a] (x + sx i)
/-- ANDI (R300). -/
def execAndi (d a : BitVec 5) (i : BitVec 16) (s : State) : Out :=
  let x := s.reg a
  s.alu 0x03 d [a] (x &&& zx i)
/-- ORI (R357). -/
def execOri (d a : BitVec 5) (i : BitVec 16) (s : State) : Out :=
  let x := s.reg a
  s.alu 0x04 d [a] (x ||| zx i)
/-- XORI (R415). -/
def execXori (d a : BitVec 5) (i : BitVec 16) (s : State) : Out :=
  let x := s.reg a
  s.alu 0x05 d [a] (x ^^^ zx i)
/-- SLTI (R371). -/
def execSlti (d a : BitVec 5) (i : BitVec 16) (s : State) : Out :=
  let x := s.reg a
  s.alu 0x06 d [a] (boolWord (x.slt (sx i)))
/-- SLLI (R371). -/
def execSlli (d a : BitVec 5) (h : BitVec 6) (s : State) : Out :=
  let x := s.reg a
  s.alu 0x07 d [a] (x <<< h.toNat)
/-- SRLI (R371). -/
def execSrli (d a : BitVec 5) (h : BitVec 6) (s : State) : Out :=
  let x := s.reg a
  s.alu 0x08 d [a] (x >>> h.toNat)
/-- SRAI (R371). -/
def execSrai (d a : BitVec 5) (h : BitVec 6) (s : State) : Out :=
  let x := s.reg a
  s.alu 0x09 d [a] (x.sshiftRight h.toNat)
/-- LUI (R345). -/
def execLui (d : BitVec 5) (i : BitVec 16) (s : State) : Out := s.alu 0x0A d [] (sx i <<< 16)
/-- AUIPC (R301). -/
def execAuipc (d : BitVec 5) (i : BitVec 16) (s : State) : Out := s.alu 0x0B d [] (s.me.pc.setWidth 64 + (sx i <<< 16))

end Sys2Proof.Machine
end

