-- ==== Sys2Proof/Machine/Branch.lean ====
section
/-! DEFINITION. Branches and jumps, majors 0x0E to 0x10 (R279, R280, R302 to R304, R336). -/

namespace Sys2Proof.Machine

/-- A transfer to a 64-bit address: one beyond 48 bits faults PROTECTION with no effect (R280, R302). -/
def State.transfer (s : State) (op : Nat) (next : Word) : State :=
  if next.toNat < 2 ^ 48 then s.jump op (next.setWidth 48) else s.raise op .protection
/-- The address of the running process's instruction. -/
def State.pcWord (s : State) : Word := s.me.pc.setWidth 64
/-- The target of a branch or of JAL: a signed word count from its own address (R274). -/
def State.target {n : Nat} (s : State) (o : BitVec n) : Word := s.pcWord + (sx o <<< 2)
/-- A conditional branch (R302). -/
def State.branch (s : State) (taken : Bool) (o : BitVec 13) : State :=
  s.transfer 0x0E (if taken then s.target o else s.pcWord + 4)

/-- BEQ (R302). -/
def execBeq (x y : BitVec 5) (o : BitVec 13) (s : State) : Out :=
  .next (s.withRegs [x, y] (s.branch (decide (s.reg x = s.reg y)) o))
/-- BNE (R302). -/
def execBne (x y : BitVec 5) (o : BitVec 13) (s : State) : Out :=
  .next (s.withRegs [x, y] (s.branch (decide (s.reg x ≠ s.reg y)) o))
/-- BLT (R302). -/
def execBlt (x y : BitVec 5) (o : BitVec 13) (s : State) : Out :=
  .next (s.withRegs [x, y] (s.branch ((s.reg x).slt (s.reg y)) o))
/-- BGE (R302). -/
def execBge (x y : BitVec 5) (o : BitVec 13) (s : State) : Out :=
  .next (s.withRegs [x, y] (s.branch ((s.reg y).sle (s.reg x)) o))
/-- BLTU (R302). -/
def execBltu (x y : BitVec 5) (o : BitVec 13) (s : State) : Out :=
  .next (s.withRegs [x, y] (s.branch ((s.reg x).ult (s.reg y)) o))
/-- BGEU (R302). -/
def execBgeu (x y : BitVec 5) (o : BitVec 13) (s : State) : Out :=
  .next (s.withRegs [x, y] (s.branch ((s.reg y).ule (s.reg x)) o))
/-- BEOS (R302, R304). -/
def execBeos (o : BitVec 13) (s : State) : Out := .next (s.branch s.me.eos o)
/-- JAL (R280, R336): a fault writes no link. -/
def execJal (d : BitVec 5) (o : BitVec 21) (s : State) : Out :=
  .next (s.withRegs [d]
    (let t := s.target o
     if t.toNat < 2 ^ 48 then (s.setReg d (s.pcWord + 4)).jump 0x0F (t.setWidth 48)
     else s.raise 0x0F .protection))
/-- JALR (R280, R336): the target is computed before the link is written. -/
def execJalr (d a : BitVec 5) (i : BitVec 16) (s : State) : Out :=
  .next (s.withRegs [a, d]
    (let t := s.reg a + sx i
     if t.toNat % 4 ≠ 0 then s.raise 0x10 .misalign
     else if t.toNat < 2 ^ 48 then (s.setReg d (s.pcWord + 4)).jump 0x10 (t.setWidth 48)
     else s.raise 0x10 .protection))

end Sys2Proof.Machine
end

