-- ==== Sys2Proof/Machine/Chan.lean ====
section
/-! DEFINITION. The channel instructions, major 0x28 (R57 to R69, R72, R306 to R318, R321, R406, R407). -/

namespace Sys2Proof.Machine

/-- The checks of R58 on channel register `c` of the running process for an instruction that needs `n` slots; a push to an entry that was
freed faults CHAN_UNBOUND (R37). -/
def State.chanCheck (s : State) (c : Nat) (role : Role) (n : Nat) : Option Cause :=
  let x := s.me.chan c
  if x.role = .unbound then some .chanUnbound
  else if x.role ≠ role ∨ x.use ≠ .plain then some .protection
  else match role with
    | .writer => if x.gone then some .chanUnbound else if x.granted ∧ x.bcap < n then some .protection else none
    | _ => match x.dest.rid with
      | some r => if (s.ep r).bcap < n then some .protection else none
      | none => none
/-- Go on behind the checks of R58. -/
def State.onChan (s : State) (op c : Nat) (role : Role) (n : Nat) (k : State) : State :=
  match s.chanCheck c role n with
  | some e => s.raise op e
  | none => k
/-- A writer whose message a relay refused: LEASE_FAULT with the peer, and what is staged stays held (R318). -/
def State.refusal (s : State) (op c : Nat) (k : State) : State :=
  match (s.me.chan c).refused with
  | some p => (s.updChan s.running c fun x => { x with refused := none, frozen := true }).raise op .leaseFault { aux := p }
  | none => k
/-- A push of `n` slots that passes the checks behind R58: the future (R65), the key (R260), the credits (R56, R59). `k` goes
on with the credits spent. -/
def State.withCredits (s : State) (op c n : Nat) (k : State → State) : State :=
  let x := s.me.chan c
  s.refusal op c
    (if x.once ∧ x.granted ∧ x.credits = 0 then s.raise op .futureOverwrite
     else if x.dest.isPeer && !s.myPart.key.full then s.raise op .protection
     else if x.frozen then s.block (.blockedWrite c) n
     else if x.credits < n then (s.askCredit s.running c (n - x.credits)).block (.blockedWrite c) n
     else k (s.updChan s.running c fun x => { x with credits := x.credits - n }))
/-- The reader of channel register `c` is a DRAM server. -/
def State.toServer (s : State) (c : Nat) : Bool :=
  match (s.me.chan c).dest with
  | .server _ => true
  | _ => false
/-- The request of a push to a DRAM server breaks a rule of R72. -/
def State.badRequest (s : State) (c : Nat) (m : Msg) : Bool :=
  let (n, e) := replySize m
  s.toServer c && decide (e / 256 ≠ s.myTile ∨ (s.ep e).bound = false ∨ (s.ep e).bcap < n)
/-- The reply endpoint has room for the reply of a request to a DRAM server (R72). -/
def State.replyRoom (s : State) (c : Nat) (m : Msg) : Bool := !s.toServer c || decide ((replySize m).1 ≤ (s.ep (replySize m).2).free)
/-- Reserve the reply of a request to a DRAM server (R72). -/
def State.reserveReply (s : State) (c : Nat) (m : Msg) : State :=
  let (n, e) := replySize m
  if s.toServer c then s.updEp e fun x => { x with free := x.free - n, reserved := x.reserved + n } else s
/-- CPUSH (R59, R72, R317). -/
def execCpush (d : BitVec 5) (c : BitVec 4) (m : BitVec 5) (s : State) : Out :=
  .next (s.withRegs (regRun d m.toNat)
    (s.onChan 0x28 c.toNat .writer (m.toNat + 1)
      (let msg : Msg := { slots := (regRun d m.toNat).map fun r => s.reg r }
       if s.badRequest c.toNat msg then s.raise 0x28 .protection
       else if s.replyRoom c.toNat msg = false then s.block (.blockedWrite c.toNat) msg.size
       else s.withCredits 0x28 c.toNat msg.size fun s =>
         ((s.reserveReply c.toNat msg).holdBack (.push c.toNat msg)).retire 0x28)))
/-- CCLOSE (R62, R313). -/
def execCclose (c : BitVec 4) (s : State) : Out :=
  .next (s.onChan 0x28 c.toNat .writer 1
    (if s.toServer c.toNat then s.raise 0x28 .protection
     else s.withCredits 0x28 c.toNat 1 fun s => (s.holdBack (.push c.toNat markerMsg)).retire 0x28))

/-- Take entries from the head of the queue: consumed, or retained by the open strip (R60, R63). -/
def State.takeSlots (s : State) (c k : Nat) : State :=
  match s.me.strip with
  | some t => s.updMe fun p => { p with strip := some { t with retained := Tab.store t.retained c (Tab.lookD t.retained c 0 + k) 0 } }
  | none => match (s.me.chan c).dest.rid with
    | some r => s.consume r k
    | none => s
/-- Write CFLAGS. -/
def State.setCflags (s : State) (eos : Bool) (cnt : Nat) : State := s.updMe fun p => { p with cflags := cflagsOf eos cnt }
/-- The partition's key slot is empty and the read meets a Caldera slot (R260). -/
def State.calDenied (s : State) (q : List QSlot) (n : Nat) : Bool := !s.myPart.key.full && (q.take (min n ((dataAhead q).1 + 1))).any fun x => x.cal
/-- A read of up to `n` slots: waits, takes them with the marker that ends them early, sets CFLAGS, and goes on with the data
slots taken (R60). -/
def State.popSlots (s : State) (op c n : Nat) (k : State → List QSlot → State) : State :=
  let q := s.queueOf s.running c
  if readReady q n = false then s.block (.blockedRead c) n
  else if s.calDenied q n then s.raise op .protection
  else
    let j := (dataAhead q).1
    let t := min n j
    k ((s.takeSlots c (t + (if j < n then 1 else 0))).setCflags (decide (j < n)) t) (q.take t)
/-- The value of slot `i` among those taken; zero beyond. -/
def slotVal (l : List QSlot) (i : Nat) : Word := ((l[i]?).map fun x => x.val).getD 0
/-- CPOP (R60, R316). -/
def execCpop (d : BitVec 5) (c : BitVec 4) (m : BitVec 5) (s : State) : Out :=
  .next (s.withRegs (regRun d m.toNat)
    (s.onChan 0x28 c.toNat .reader (m.toNat + 1)
      (s.popSlots 0x28 c.toNat (m.toNat + 1) fun s l =>
        ((regRun d m.toNat).zipIdx.foldl (fun s r => s.setReg r.1 (slotVal l r.2)) s).retire 0x28)))
/-- CPEEK (R60, R315). -/
def execCpeek (d : BitVec 5) (c : BitVec 4) (b : BitVec 5) (s : State) : Out :=
  .next (s.withRegs [d, b]
    (let k := s.regN b
     s.onChan 0x28 c.toNat .reader (k + 1)
      (let q := s.queueOf s.running c.toNat
       let j := (dataAhead q).1
       if readReady q (k + 1) = false then s.block (.blockedRead c.toNat) (k + 1)
       else if s.calDenied q (k + 1) then s.raise 0x28 .protection
       else if j ≤ k then ((s.setReg d 0).setCflags true 0).retire 0x28
       else ((s.setReg d (slotVal q k)).setCflags false 1).retire 0x28)))
/-- CADV (R60, R307). -/
def execCadv (c : BitVec 4) (b : BitVec 5) (s : State) : Out :=
  .next (s.withRegs [b]
    (s.onChan 0x28 c.toNat .reader (s.regN b) (s.popSlots 0x28 c.toNat (s.regN b) fun s _ => s.retire 0x28)))

/-- A reader takes an entry (R308): every writer already registered is granted, the first one all that is FREE; a request made
before is made anew against that grant (R317). -/
def State.bindReader (s : State) (h c id cap run : Nat) (once : Bool) : State :=
  let s := s.updProc h fun p => p.setChan c { role := .reader, dest := .tile id, registered := true }
  let ws := (s.ep id).writers
  let s := s.updEp id fun e =>
    { e with bound := true, owner := widOf h c, bcap := cap, cap := cap, once := once, queue := [], free := if ws.isEmpty then cap else 0,
             arrived := 0, consumed := 0, reserved := 0, recalled := [], run := run, digest := 0, mon := false, nextMsg := 0, shortfalls := [] }
  (ws.zipIdx.foldl (fun s w => s.grantCredit id w.1 (if w.2 = 0 then cap else 0)) s)
/-- A writer sends its registration (R308, R309), which takes the time of a credit return (log 88); in determinate mode it waits until the
target has recorded it. -/
def State.bindWriter (s : State) (h c : Nat) (d : Dest) : State :=
  let p := s.proc h
  let s := s.updProc h fun p => p.setChan c { role := .writer, dest := d }
  let s := match d with
    | .peer q e => s.ctrlSend p.part q 1 (widOf h c) e 0 (bit1 p.det)
    | _ => s.netSend { wid := widOf h c, dest := d, body := .register p.det, part := p.part, net := p.net }
        (meshLatency p.tile (d.tileOr p.tile) 0) (.writerRegistration (widOf h c))
  if p.det then s.block (.blockedWrite c) waitOnly else s.retire 0x28
/-- Check 2 of R67 and R310: reserved fields and the operands of each role. -/
def State.bindShape (s : State) (w at_ : Word) : Bool :=
  let kind := wfield w 33 32
  let tile := wfield w 19 9
  let ix := wfield w 7 0
  let cap := wfield at_ 12 0
  let once := bitAt at_.toNat 16
  let rsv := decide (wfield w 63 56 = 0 ∧ wfield w 31 20 = 0 ∧ wfield at_ 62 17 = 0 ∧ wfield at_ 15 13 = 0)
  let e := s.ep (tile * 256 + ix)
  rsv && (if bitAt w.toNat 8 then
      decide (kind = 0 ∧ tile = s.myTile ∧ 1 ≤ cap ∧ cap ≤ 4096 ∧ (once → cap = 1)) && !e.bound
    else decide (cap = 0 ∧ once = false) && (match kind with
      | 2 => let k := Tab.lookD s.hostEps tile {}
             decide (ix = 0 ∧ k.dir = 2 ∧ k.part = s.me.part)
      | 3 => decide (ix = 0 ∧ wfield w 19 17 = 0)
      | _ => true))
/-- Check 3 of R67 and R310; checking mode admits no peer (R124). -/
def State.bindOwned (s : State) (w : Word) : Bool :=
  let q := s.myPart
  match wfield w 33 32 with
  | 0 => q.inRect (wfield w 19 9)
  | 1 => q.peers.contains (wfield w 55 34) && q.key.full && decide (s.checkOf s.me.part s.me.net = 0)
  | 3 => q.servers.contains (wfield w 16 9)
  | _ => true
/-- The destination that an endpoint word names (Table 3.5). -/
def destOf (w : Word) : Dest :=
  match wfield w 33 32 with
  | 0 => .tile (wfield w 19 9 * 256 + wfield w 7 0)
  | 1 => .peer (wfield w 55 34) (wfield w 19 9 * 256 + wfield w 7 0)
  | 2 => .host (wfield w 19 9)
  | _ => .server (wfield w 16 9)
/-- The ordinary form of CBIND (R67, R308 to R310). -/
def State.cbindPlain (s : State) (c : Nat) (w at_ : Word) : State :=
  let h := s.running
  let id := wfield w 19 9 * 256 + wfield w 7 0
  let kind := wfield w 33 32
  if (s.me.chan c).role ≠ .unbound then s.raise 0x28 .protection
  else if s.bindShape w at_ = false ∨ s.bindOwned w = false then s.raise 0x28 .protection
  else if kind = 3 ∧ s.me.pl = 0 then s.raise 0x28 .privilege
  else if bitAt w.toNat 8 then
    match s.bufferRun s.myTile (wfield at_ 12 0) with
    | none => s.raise 0x28 .protection
    | some run => (s.bindReader h c id (wfield at_ 12 0) run (bitAt at_.toNat 16)).retire 0x28
  else if kind = 1 ∧ s.reachable s.me.part (wfield w 55 34) = false then s.raise 0x28 .leaseFault { aux := wfield w 55 34 }
  else s.bindWriter h c (destOf w)
/-- The lowest free endpoint index of a tile. -/
def State.freeIndex (s : State) (t : Nat) : Option Nat := (List.range 256).find? fun i => !(s.ep (t * 256 + i)).bound
/-- The move form of CBIND (R69): checks, then the move with its notices; the issuer waits. A P that is unknown or of another partition,
or whose cN is unbound or used by the analyser or a monitor, is PROTECTION, as is the move to a peer of a writer to a host endpoint or a DRAM
server (log 82, R324, R354). A peer is asked whether Q has room for the end before the move begins (log 18). -/
def State.cbindMove (s : State) (c : Nat) (w at_ : Word) : State :=
  let p := wfield w 31 0
  let q := wfield at_ 31 0
  let peer := wfield at_ 55 34
  let own := s.ownId.toNat
  let pp := s.proc p
  let qq := s.proc q
  let x := pp.chan c
  let known (h : Nat) := (Tab.look s.procs h).isSome && decide ((s.proc h).part = s.me.part ∧ (s.proc h).pst ≠ .exited)
  if s.me.pl = 0 then s.raise 0x28 .privilege
  else if wfield w 63 32 ≠ 0 ∨ wfield at_ 62 56 ≠ 0 ∨ wfield at_ 33 32 ≠ 0 then s.raise 0x28 .protection
  else if known p = false ∨ pp.atRest = false ∨ x.role = .unbound ∨ x.use ≠ .plain then s.raise 0x28 .protection
  else if peer = own ∧ (known q = false ∨ qq.atRest = false ∨ (qq.chan c).role ≠ .unbound) then s.raise 0x28 .protection
  else if peer ≠ own ∧ s.myPart.peers.contains peer = false then s.raise 0x28 .protection
  else if peer ≠ own ∧ x.role = .writer ∧ x.dest.onPackage then s.raise 0x28 .protection
  else if peer ≠ own ∧ s.reachable s.me.part peer = false then s.raise 0x28 .leaseFault { aux := peer }
  else if x.role = .reader ∧ peer = own ∧ (s.freeIndex qq.tile).isNone then s.raise 0x28 .protection
  else
    let (s, mv) := s.fresh
    let rid := (x.dest.rid).getD 0
    let reader := decide (x.role = .reader)
    let ws := if reader then (s.ep rid).writers else [0]
    let m : Move := { issuer := s.running, c := c, p := p, q := q, peer := peer, reader := reader, waiting := ws }
    let s := if peer = own then s.moveStart mv m
      else { s with moves := Tab.put s.moves mv m }.ctrlSendMore s.me.part peer 14 (widOf q c) 0 mv (2 + bit1 reader) [BitVec.ofNat 64 (s.ep rid).bcap]
    s.block (.blockedWrite c) waitOnly
/-- CBIND (R67, R308): the attribute word's bit 63 selects the move form of R69. -/
def execCbind (d : BitVec 5) (c : BitVec 4) (b : BitVec 5) (s : State) : Out :=
  .next (s.withRegsCommit [d, b] (fun s =>
    if bitAt (s.reg b).toNat 63 then s.cbindMove c.toNat (s.reg d) (s.reg b) else s.cbindPlain c.toNat (s.reg d) (s.reg b)))
/-- CBIND_MOVE (R69): the same word, with the move form in the attribute word. -/
def execCbindMove (d : BitVec 5) (c : BitVec 4) (b : BitVec 5) (s : State) : Out :=
  .next (s.withRegsCommit [d, b] (fun s => s.cbindMove c.toNat (s.reg d) (s.reg b ||| 0x8000000000000000)))
/-- CUNBIND (R68, R318, R321). -/
def execCunbind (c : BitVec 4) (s : State) : Out :=
  .next (s.afterCommit fun s =>
    let h := s.running
    let x := s.me.chan c.toNat
    if x.role = .unbound then s.raise 0x28 .chanUnbound
    else if x.use ≠ .plain then s.raise 0x28 .protection
    else s.refusal 0x28 c.toNat
      (match x.role with
       | .reader =>
         let e := (x.dest.rid).getD 0
         if (s.ep e).writers ≠ [] then s.raise 0x28 .protection
         else ((s.freeEntry e).updProc h fun p => p.setChan c.toNat {}).retire 0x28
       | _ =>
         if s.unsent h c.toNat then s.block (.blockedWrite c.toNat) 0
         else ((s.leaveReader h c.toNat).updProc h fun p => p.setChan c.toNat {}).retire 0x28))

/-- Slots that elements 0 to VL − 1 fill (R61). -/
def VCtx.slots (v : VCtx) : Nat := cdiv (v.vl * v.ew) 64
/-- Elements 0 to VL − 1 packed into slots. -/
def State.packSlots (s : State) (v : VCtx) (r : BitVec 5) : List Word :=
  let bs := (List.range v.vl).flatMap fun i => bytesLE (v.ew / 8) (s.elem v r i)
  (List.range v.slots).map fun j => BitVec.ofNat 64 (dword bs (8 * j))
/-- Cut slots into messages of `m`. -/
def cutMessages (m : Nat) : Nat → List Word → List Msg
  | 0, _ => []
  | _, [] => []
  | f + 1, l => { slots := l.take m } :: cutMessages m f (l.drop m)
/-- Push the messages of a VPUSH from the first unstaged one on; block when credits lack (R61). -/
def State.pushEach (s : State) (c : Nat) : List Msg → State
  | [] => s.retire 0x28
  | m :: rest => s.withCredits 0x28 c m.size fun s =>
      State.pushEach ((s.holdBack (.push c m)).updMe fun p => { p with vpushed := Tab.put p.vpushed p.pc.toNat (Tab.lookD p.vpushed p.pc.toNat 0 + 1) }) c rest
/-- VPUSH (R61, R406, R407): in a strip it takes the credits of all its slots at once (R63). -/
def execVpush (d : BitVec 5) (c : BitVec 4) (m : BitVec 5) (s : State) : Out :=
  .next (s.vectorOp 0x28 [d] fun s =>
    let v := s.vc
    let n := min (m.toNat + 1) v.slots
    s.onChan 0x28 c.toNat .writer n
      (if s.toServer c.toNat then s.raise 0x28 .protection
       else
        let ms := cutMessages (m.toNat + 1) v.slots (s.packSlots v d)
        if ms.isEmpty then s.retire 0x28
        else if s.me.strip.isSome then
          s.withCredits 0x28 c.toNat v.slots fun s => (ms.foldl (fun s x => s.holdBack (.push c.toNat x)) s).retire 0x28
        else s.pushEach c.toNat (ms.drop (Tab.lookD s.me.vpushed s.me.pc.toNat 0))))
/-- VPOP (R61, R406, R407). -/
def execVpop (d : BitVec 5) (c : BitVec 4) (s : State) : Out :=
  .next (s.vectorOp 0x28 [d] fun s =>
    let v := s.vc
    s.onChan 0x28 c.toNat .reader v.slots
      (s.popSlots 0x28 c.toNat v.slots fun s l =>
        let bs := l.flatMap fun x => bytesLE 8 x.val.toNat
        (s.putElems v d ((List.range v.vl).map fun i => (i, ofBytesLE ((bs.drop (i * (v.ew / 8))).take (v.ew / 8))))).retire 0x28))

end Sys2Proof.Machine
end

