-- ==== Sys2Proof/Machine/Stream.lean ====
section
/-! DEFINITION. Stream bindings, major 0x29, and the steps of the stream ports (R90 to R96, R101, R108, R113, R362 to R370). -/

namespace Sys2Proof.Machine

/-- A stream descriptor as read: eight doublewords (Table 4.7). -/
abbrev Desc := List Nat
/-- Doubleword `i` of a descriptor. -/
def Desc.at_ (x : Desc) (i : Nat) : Nat := x.getD i 0
/-- The space code of a side: 0 source, 1 destination. -/
def Desc.space (x : Desc) (side : Nat) : Nat := field (x.at_ side) 63 61
/-- The capability register of a side. -/
def Desc.ksel (x : Desc) (side : Nat) : Nat := field (x.at_ side) 60 58
/-- SECTOR, COUNT, MIG and PTEA. -/
def Desc.sector (x : Desc) : Nat := field (x.at_ 4) 16 0
def Desc.count (x : Desc) : Nat := field (x.at_ 4) 63 32
def Desc.mig (x : Desc) : Bool := bitAt (x.at_ 5) 63
def Desc.ptea (x : Desc) : Nat := x.at_ 6
/-- The conditions of a migration descriptor (R101): PTEA is a leaf entry of the partition's tables, its page lies at the source, and
SECTOR times COUNT is its size. -/
def State.migOk (s : State) (x : Desc) : Bool :=
  let q := s.myPart
  let size := x.sector * x.count
  let src := field (x.at_ 0) 47 0
  decide (x.space 0 = 5 ∧ x.space 1 = 5) && (s.leaves s.me.part 3 1 q.ptroot).contains (x.ptea, src, size)
/-- The descriptor checks of R92 step 1 and R101. -/
def State.descFault (s : State) (x : Desc) (gather : Bool) : Option Cause :=
  let rsv := decide (field (x.at_ 0) 57 48 ≠ 0 ∨ field (x.at_ 1) 57 48 ≠ 0 ∨ field (x.at_ 4) 31 17 ≠ 0 ∨ field (x.at_ 5) 62 22 ≠ 0 ∨
    x.at_ 7 ≠ 0) || (!x.mig && decide (x.ptea ≠ 0))
  let n := x.sector
  let range := if gather then !(n == 1 || n == 2 || n == 4 || n == 8) || decide (x.space 1 ≠ 0)
    else decide (n = 0 ∨ 65536 < n ∨ n % 8 ≠ 0 ∨ x.count = 0)
  let badSpace (sp : Nat) := decide (6 ≤ sp) || (decide (sp = 5) && (!x.mig || decide (s.me.pl = 0)))
  if rsv || range then some .protection
  else if badSpace (x.space 0) || badSpace (x.space 1) then some .memtype
  else if x.mig && decide (s.me.pl = 0) then some .privilege
  else if x.mig && (gather || !s.migOk x) then some .protection
  else none
/-- The binding that a descriptor makes (R92). -/
def State.mkBinding (s : State) (x : Desc) (port : Nat) (sd : BitVec 5) (g : Option (List (Nat × Word))) : Binding :=
  let p := s.me
  { h := s.running, tile := p.tile, part := p.part, net := p.net, port := port, sd := sd.toNat, pc := p.pc,
    sspace := x.space 0, dspace := x.space 1, scap := p.cap (x.ksel 0), dcap := p.cap (x.ksel 1),
    sbase := field (x.at_ 0) 47 0, dbase := field (x.at_ 1) 47 0, sstride := BitVec.ofNat 64 (x.at_ 2), dstride := BitVec.ofNat 64 (x.at_ 3),
    count := (g.map fun l => l.length).getD x.count, sector := x.sector, mig := x.mig, peer := field (x.at_ 5) 21 0, ptea := x.ptea, gather := g }
/-- The running process's SCOPY or SGATHER has issued, and it waits for an entry of a full port (R92); STEP waits with it (R245). -/
def State.portWait (s : State) (d id : Nat) : State :=
  (s.countEvent s.myTile 1 1).updMe fun p =>
    { p.enter (.blockedToken d) s.cycle with pc := p.pc + 4, lastIssue := some s.cycle, vpushed := Tab.cut p.vpushed p.pc.toNat, need := id }
/-- Issue of a binding (R92): the checks, then the token and the queue, or the strip's hold. -/
def State.bindStream (s : State) (d a : BitVec 5) (port : Nat) (g : Option (List (Nat × Word))) (k : State → State) : State :=
  let off := s.reg a
  if off.toNat % 8 ≠ 0 then s.raise 0x29 .misalign (FInfo.at off.toNat)
  else match s.readWindow off 64 with
    | .error c => s.raise 0x29 c (FInfo.at off.toNat)
    | .ok bs =>
      let x : Desc := (List.range 8).map fun i => dword bs (8 * i)
      match s.descFault x g.isSome with
      | some c => s.raise 0x29 c
      | none =>
        let b := s.mkBinding x port d g
        let s := k s
        let (s, id) := s.fresh
        match s.me.strip with
        | some _ => (({ s with binds := Tab.put s.binds id b }).holdBack (.bind id)).retire 0x29
        | none =>
          let (s, ids) := s.release s.running
          let s := { s with binds := Tab.put s.binds id { b with after := ids } }
          let s := s.handOver s.running (.bind id)
          let waits : Bool := match Tab.look s.binds id with
            | some b => decide (b.st = .held)
            | none => false
          if waits then s.portWait d.toNat id else s.retire 0x29
/-- SCOPY (R92, R363, R364). -/
def execScopy (d a : BitVec 5) (p : BitVec 3) (s : State) : Out :=
  .next (s.withRegs [a, d] (s.bindStream d a p.toNat none fun s => s))
/-- SGATHER (R95, R369, R370): the indices are taken, and the duplicate mask formed, at issue; its readers are held for 8 cycles. -/
def execSgather (d a b : BitVec 5) (p m : BitVec 3) (s : State) : Out :=
  .next (s.withRegs [a, d] (s.vectorOp 0x29 [b] fun s =>
    let v := s.vc
    let act := s.actives v
    let ix := act.map fun i => (i, sext64 v.ew (s.elem v b i))
    let dup (i : Nat) := match ix.find? fun e => e.1 == i with
      | some (_, x) => ix.any fun e => decide (e.1 < i) && decide (e.2 = x)
      | none => false
    let bits := (List.range (v.lanes.length * 32)).map fun i => (v.maskKey m.toNat i, dup i)
    s.bindStream d a p.toNat (some ix) fun s =>
      (if v.lanes.isEmpty then s else s.maskWrite v.h v.tile bits).updMe fun p => { p with mlat := Tab.put p.mlat m.toNat (s.cycle + 8) }))
/-- The youngest binding of the running process on a set of ports that has not written its token. -/
def State.youngest (s : State) (ports : List Nat) : Option Binding :=
  ((s.binds.filter fun e => decide (e.2.h = s.running) && ports.contains e.2.port).getLast?).map fun e => e.2
/-- SBAR (R96, R108, R362). -/
def execSbar (p : BitVec 8) (s : State) : Out :=
  .next (s.afterCommit fun s =>
    let s := s.cbDrainAll s.running
    match s.youngest ((List.range 8).filter fun i => bitAt p.toNat i) with
    | some b => s.block (.blockedToken b.sd) 0
    | none => s.retire 0x29)

/-- The context in which a binding forms addresses of a side. -/
def State.bindCtx (s : State) (b : Binding) (side : Nat) : Ctx :=
  let p := s.proc b.h
  { h := b.h, tile := b.tile, part := b.part, wbase := p.wbase, wsize := p.wsize, typ := if side = 0 then b.sspace else b.dspace,
    cap := if side = 0 then b.scap else b.dcap, peer := b.peer }
/-- First address of a side of the sector that the binding has reached. -/
def Binding.addr (b : Binding) (side : Nat) : Word :=
  match b.gather with
  | none => if side = 0 then BitVec.ofNat 64 b.sbase + BitVec.ofNat 64 b.done * b.sstride
            else BitVec.ofNat 64 b.dbase + BitVec.ofNat 64 b.done * b.dstride
  | some l =>
    let e := l.getD b.done (0, 0)
    if side = 0 then BitVec.ofNat 64 b.sbase + e.2 * b.sstride else BitVec.ofNat 64 b.dbase + BitVec.ofNat 64 e.1 * b.dstride
/-- The naturally aligned pieces of at most 8 bytes of `n` bytes at `a`, in increasing address: offset and length (R93, R115). -/
def cuts (a : Nat) : Nat → Nat → Nat → List (Nat × Nat)
  | 0, _, _ => []
  | f + 1, off, n => if n = 0 then [] else
      let fits (k : Nat) := decide (k ≤ n ∧ (a + off) % k = 0)
      let k := if fits 8 then 8 else if fits 4 then 4 else if fits 2 then 2 else 1
      (off, k) :: cuts a f (off + k) (n - k)
/-- Consecutive doublewords in one naturally aligned 64-byte block at a peer are one request (R210, R417). -/
def joinBlocks (ps : List (Nat × Nat × Place)) : List (Nat × Nat × Place) :=
  ps.foldr (fun x acc => match x, acc with
    | (o, 8, .remote q sp a), (o', m, .remote q' sp' a') :: rest =>
      if o' = o + 8 ∧ q' = q ∧ sp' = sp ∧ a' = a + 8 ∧ a % 8 = 0 ∧ m % 8 = 0 ∧ a' / 64 = a / 64 then (o, 8 + m, .remote q sp a) :: rest else x :: acc
    | _, _ => x :: acc) []
/-- Places of the pieces of a side of the current sector, or the first failing check with the unmapped pages (R93, R94). The pieces are
aligned at the home (R210). -/
def State.sectorPlaces (s : State) (b : Binding) (side : Nat) : State × Except (Cause × List Nat) (List (Nat × Nat × Place)) :=
  let a := b.addr side
  let c := s.bindCtx b side
  let perm : Perm := if side = 0 then .load else .store
  let init : State × List (Nat × Nat × Place) × Option Cause × List Nat := (s, [], none, [])
  let r := (cuts (s.homeBase c + a.toNat) 8208 0 b.sector).foldl (fun (st : State × List (Nat × Nat × Place) × Option Cause × List Nat) e =>
    let (s, ps, err, pages) := st
    let x := a + BitVec.ofNat 64 e.1
    match s.placeOf c x e.2 1 perm with
    | (s, .ok p) => (s, (e.1, e.2, p) :: ps, err, pages)
    | (s, .error k) => (s, ps, if err.isNone then some k else err, if k = .pageFault then pages ++ [x.toNat / 65536 % 2 ^ 32] else pages)) init
  match r with
  | (s, ps, none, _) => (s, .ok (joinBlocks ps.reverse))
  | (s, _, some k, pages) => (s, .error (k, distinct pages))
/-- The record of a binding that stops on unmapped pages (R94, R235). -/
def Binding.record (b : Binding) (side : Nat) (pages : List Nat) : List Word :=
  [recSlot0 b.h (b.port + side * 8) 1 false (min 8 pages.length) Cause.pageFault.code, BitVec.ofNat 64 b.pc.toNat,
   BitVec.ofNat 64 ((b.count - b.done) % 2 ^ 32 * 2 ^ 32), if side = 0 then b.sstride else b.dstride] ++ pageSlots (pages.take 8)
/-- A binding's failing check: a page fault stops it with a record, every other one ends it (R94). -/
def State.stopStream (s : State) (id : Nat) (b : Binding) (side : Nat) (c : Cause) (pages : List Nat) : State :=
  if c = .pageFault then
    let s := { s with binds := Tab.put s.binds id { b with st := .stopped } }
    s.queueRecord b.tile { kind := .stream b.port, part := b.part, firmware := false, slots := b.record side pages }
  else
    { s with binds := Tab.put s.binds id { b with err := some c, errSide := side } }.later (.streamComplete b.tile b.port)
/-- An access of a stream. -/
def State.streamReq (s : State) (id : Nat) (b : Binding) (space : Nat) (place : Place) (off : Nat) (op : ReqOp) : State × Nat :=
  s.send ((s.proc b.h).req b.h space place off op (.stream id off) b.pc 0x29)
/-- The next word of the current sector is read, or written: on the own slice at once, elsewhere by a request. The words of a sector go
one after the other, in increasing address (R93, R107, R115); the blocks at a peer, which leave and perform in issue order (R210), go as
fast as the tile has tags for them (R417). -/
def State.streamWord (s : State) (id : Nat) (b : Binding) : State :=
  match b.todo with
  | [] => s
  | (off, n, place) :: rest =>
    let b := { b with todo := rest }
    let go (s : State) (b : Binding) : State := { s with binds := Tab.put s.binds id b }.later (.streamSector b.tile b.port)
    let byteOf (o : Nat) : Byte := ((b.data.find? fun e => e.1 == o).map fun e => e.2).getD 0
    let bytes (off n : Nat) : List WByte := (List.range n).map fun i => { off := i, val := byteOf (off + i) }
    let ask (more : List (Nat × Nat × Place)) : State :=
      let (s, ids) := ((off, n, place) :: more).foldl (fun (st : State × List Nat) e =>
        let (s, i) := st.1.streamReq id b (if b.writing then b.dspace else b.sspace) e.2.2 e.1 (if b.writing then .write (bytes e.1 e.2.1) else .read e.2.1)
        (s, st.2 ++ [i])) (s, [])
      { s with binds := Tab.put s.binds id { b with todo := rest.drop more.length, reqs := ids } }
    match place with
    | .sram k false =>
      if s.isWithdrawn k n then ask []
      else if b.writing then go (s.sramStore k (bytes off n)) b
      else go s { b with data := b.data ++ (s.sramRead k n).zipIdx.map fun x => (off + x.2, x.1) }
    | .remote _ _ _ => ask (rest.take (255 - (s.tagged b.tile).length))
    | _ => ask []
/-- The answer to an access of a stream: data, or the error that ends it. A write that waited for a migration and then met an unmapped page
stops the stream instead: the checks of the sector's writes are made anew (R94, R101). -/
def State.streamAnswer (s : State) (req id off : Nat) (bs : List Byte) (err : Option Cause) : State :=
  match Tab.look s.binds id with
  | none => s
  | some b =>
    if b.writing ∧ err = some .pageFault then
      let b := { b with reqs := b.reqs.filter (· ≠ req), todo := [], writing := false }
      { s with binds := Tab.put s.binds id b }.later (.streamSector b.tile b.port)
    else
    let side := if b.writing then 1 else 0
    let b := { b with reqs := b.reqs.filter (· ≠ req), todo := if err.isSome then [] else b.todo, err := b.err.or err, errSide := if b.err.isNone then side else b.errSide,
                      data := if b.writing then b.data else b.data ++ bs.zipIdx.map fun x => (off + x.2, x.1) }
    let s := { s with binds := Tab.put s.binds id b }
    if b.reqs.isEmpty then
      (if b.err.isSome then s.later (.streamComplete b.tile b.port) else s.later (.streamSector b.tile b.port))
    else s
/-- The binding at the head of a port's queue. -/
def State.portHead (s : State) (tile port : Nat) : Option (Nat × Binding) :=
  ((Tab.lookD (s.tile tile).ports port []).head?).bind fun id => (Tab.look s.binds id).map fun b => (id, b)
/-- The order of a gather's reads: by server for DRAM, else by element (R95). An element that does not translate when the stream starts has no
server and is read last (log 98). -/
def State.gatherOrder (s : State) (b : Binding) : Binding :=
  match b.gather with
  | none => b
  | some l =>
    if b.sspace ≠ 2 then b
    else
      let srv (e : Nat × Word) : Nat :=
        match (s.placeOf (s.bindCtx b 0) (BitVec.ofNat 64 b.sbase + e.2 * b.sstride) b.sector 1 .load).2 with
        | .ok p => p.addr / Config.serverBytes
        | .error _ => Config.servers
      { b with gather := some ((List.range (Config.servers + 1)).flatMap fun v => l.filter fun e => srv e == v) }

/-- HELD_BINDING_ENQUEUE (R92): the first held binding of the process enters its port's queue. A process that waited for that raises STEP
under single step (R245). -/
def execHeldBindingEnqueue (h port : Nat) (s : State) : Out :=
  .next (match (s.heldOn h port).head? with
    | some id =>
      let t := s.enqueueBind id
      if (s.proc h).pst ≠ .ready ∧ (t.proc h).pst = .ready ∧ (t.proc h).steps then t.stepTrap h 0x29 ((t.proc h).pc - 4) else t
    | none => s)
/-- STREAM_START (R92, R113): once the accesses before it have performed. -/
def execStreamStart (tile port : Nat) (s : State) : Out :=
  .next (match s.portHead tile port with
    | some (id, b) =>
      if b.st ≠ .queued then s
      else if b.after.isEmpty then
        ({ s with binds := Tab.put s.binds id { (if b.done = 0 then s.gatherOrder b else b) with st := .running } }).afterCycles 1
          (if b.count = 0 then .streamComplete tile port else .streamSector tile port)
      else s.afterCycles 1 (.streamStart tile port)
    | none => s)
/-- A store or atomic to the page of a migration had left its tile before the copy began and has not performed: the copy waits (R101, log 95). -/
def State.writesUnder (s : State) (b : Binding) : Bool :=
  s.reqs.any fun e => decide (e.2.part = b.part) && e.2.sent && !e.2.performed && e.2.op.writes && (match e.2.place with
    | .dram k _ => let a := (s.part b.part).physOf k
                   decide (b.sbase ≤ a ∧ a < b.sbase + b.sector * b.count)
    | _ => false)
/-- STREAM_SECTOR (R93, R115): the checks of a side of a sector, then its words one by one; the reads of a sector, then its writes,
then the next sector. -/
def execStreamSector (tile port : Nat) (s : State) : Out :=
  .next (match s.portHead tile port with
    | some (id, b) =>
      if b.st ≠ .running ∨ b.reqs ≠ [] ∨ b.err.isSome then s
      else if b.mig && s.writesUnder b then s.afterCycles 1 (.streamSector tile port)
      else if b.todo ≠ [] then s.streamWord id b
      else if b.writing then
        let b := { b with writing := false, data := [], done := b.done + 1 }
        let s := { s with binds := Tab.put s.binds id b }
        if b.count ≤ b.done then s.afterCycles 1 (.streamComplete tile port) else s.afterCycles 1 (.streamSector tile port)
      else if b.data.isEmpty then
        match s.sectorPlaces b 0 with
        | (s, .error (c, pages)) => s.stopStream id b 0 c pages
        | (s, .ok ps) => s.streamWord id { b with todo := ps }
      else
        match s.sectorPlaces b 1 with
        | (s, .error (c, pages)) => s.stopStream id b 1 c pages
        | (s, .ok ps) => s.streamWord id { b with todo := ps, writing := true }
    | none => s)
/-- What the combining buffers hold of a page whose migration ends is drained: it waits with the other stores (R101, R117, log 95). -/
def State.drainPage (s : State) (b : Binding) : State :=
  let q := s.part b.part
  let on (e : CbEntry) : Bool := match e.block with
    | .dram k _ => decide ((s.proc e.h).part = b.part ∧ b.sbase ≤ q.physOf k ∧ q.physOf k < b.sbase + b.sector * b.count)
    | _ => false
  s.tiles.foldl (fun s t => (t.2.cb.filter fun e => on e.2).foldl (fun s e => (s.cbDrain t.1 e.1).1) s) s
/-- Where a place lies once a migration has succeeded: one of its source page that its leaf entry maps has moved with the page (R101). -/
def State.movedPlace (s : State) (b : Binding) (p : Place) : Place :=
  match p with
  | .dram k va =>
    let q := s.part b.part
    let a := q.physOf k
    if b.err.isNone ∧ b.sbase ≤ a ∧ a < b.sbase + b.sector * b.count ∧ (s.leafOf b.part va 3 1 q.ptroot).any (fun e => e.2 = b.ptea) then
      .dram ((q.physKey (b.dbase + (a - b.sbase))).getD k) va
    else p
  | _ => p
/-- Change the places of what a strip holds. -/
def Held.mapPlace (f : Place → Place) (x : Held) : Held :=
  match x with
  | .store t pc op ws => .store t pc op (ws.map fun w => { w with place := f w.place })
  | .capStore t pc pl a c => .capStore t pc (f pl) a c
  | .atomic t pc pl a fn n v => .atomic t pc (f pl) a fn n v
  | _ => x
/-- What the open strips of a partition hold of the page has moved with it, where later loads find it (R343), and translates again when they
commit (R101). -/
def State.noteMigrated (s : State) (b : Binding) : State :=
  let size := b.sector * b.count
  let note (k : Strip) : Strip :=
    { k with held := k.held.map (Held.mapPlace (s.movedPlace b)), migrated := k.migrated ++ [(b.sbase, size), (b.dbase, size)] }
  { s with procs := Tab.mapV (fun _ p => if p.part = b.part then { p with strip := p.strip.map note } else p) s.procs }
/-- Accesses to the page that have not left their tiles when its migration ends: stores and atomics translate again (R101), and a load that
waits behind them reads where they write (R105). -/
def State.retranslate (s : State) (b : Binding) : State :=
  s.reqs.foldl (fun s e =>
    let r := e.2
    match r.place with
    | .dram k va =>
      let a := (s.part b.part).physOf k
      if r.part ≠ b.part ∨ r.sent ∨ r.performed ∨ r.typ = 5 ∨ r.typ = 6 ∨ r.err ≠ 0 ∨ a < b.sbase ∨ b.sbase + b.sector * b.count ≤ a then s
      else if r.op.writes = false then { s with reqs := Tab.put s.reqs e.1 { r with place := s.movedPlace b r.place } }
      else
        let perm : Perm := match r.op with | .atomic _ _ _ _ => .atomic | _ => .store
        match s.xlate r.tile r.part va perm with
        | (s, .ok k) => { s with reqs := Tab.put s.reqs e.1 { r with place := .dram k va } }
        | (s, .error c) => { s with reqs := Tab.put s.reqs e.1 { r with err := againErr r.typ c } }
    | _ => s) s
/-- The end of a migration (R101): the leaf entry names the new page, or the source is poisoned after an uncorrectable read. -/
def State.endMigration (s : State) (b : Binding) : State :=
  match (s.part b.part).physKey b.ptea with
  | none => s
  | some k =>
    let e := ofBytesLE (s.hbmRead b.part k 8)
    let drop (s : State) : State :=
      let keep (l : List TlbEntry) := l.filter fun x => decide (x.part ≠ b.part ∨ x.pteAt ≠ b.ptea)
      { s with tiles := Tab.mapV (fun _ x => { x with l1 := keep x.l1 }) s.tiles, lltlb := Tab.mapV (fun _ l => keep l) s.lltlb }
    match b.err with
    | none => drop (s.hbmStore b.part k (wbytes (bytesLE 8 (e - field e 39 16 * 65536 + b.dbase / 65536 % 2 ^ 24 * 65536))))
    | some c =>
      let s := (List.range (b.sector * b.count)).foldl (fun (s : State) i => match (s.part b.part).physKey (b.dbase + i) with
        | some d => s.hbmStore b.part d [{ off := 0, val := Config.abortedPageByte s.freeCtr d }]
        | none => s) s
      let s := { s with freeCtr := s.freeCtr + 1 }
      if c = .uncorrectable ∧ b.errSide = 0 then
        drop (s.hbmStore b.part k (wbytes (bytesLE 8 (if bitAt e 57 then e else e + 2 ^ 57))))
      else s
/-- The token of a binding is written (R94, R364). Of several bindings of one strip with one register each writes its token, and the
register stays pending until the last of them has (log 78). A process that waits for a token of s0, or of such a register, looks again (an
SBAR waits only for the bindings that it names, R96), but not one that waits for an entry of a port (R92). -/
def State.writeToken (s : State) (id : Nat) (b : Binding) (token : Word) : State :=
  let p := s.proc b.h
  let others := s.binds.filter fun e => decide (e.1 ≠ id ∧ e.2.h = b.h ∧ e.2.sd = b.sd) && !p.uncommitted.contains e.1
  let awaits (t : Tab Pend) : Bool := match Tab.look t b.sd with
    | some (.token _) => true
    | _ => false
  let mine (t : Tab Pend) : Bool := decide (Tab.look t b.sd = some (.token id))
  if b.sd = 0 then (if p.need = 0 then s.wake b.h (.blockedToken 0) else s)
  else match others with
    | [] => if mine p.pend ∨ p.strip.any fun k => mine k.pend then s.deliver b.h b.sd token else s
    | (o, _) :: _ =>
      if awaits p.pend then
        let s := if p.need = 0 then s.wake b.h (.blockedToken b.sd) else s
        let next (t : Tab Pend) : Tab Pend := if mine t then Tab.put t b.sd (.token o) else t
        (s.updProc b.h fun p =>
          { p.setReg b.sd token with
            pend := next p.pend
            strip := p.strip.map fun k => if awaits k.pend then { k with sregs := Tab.store k.sregs b.sd token 0, pend := next k.pend } else k }).saveReg
          b.h b.sd token
      else s
/-- STREAM_COMPLETE (R94): the token is written, the port goes on. -/
def execStreamComplete (tile port : Nat) (s : State) : Out :=
  .next (match s.portHead tile port with
    | some (id, b) =>
      if b.st ≠ .running ∨ b.reqs ≠ [] then s
      else
        let token : Word := match b.err with
          | some c => BitVec.ofNat 64 (2 ^ 63 + b.done * 256 + c.code)
          | none => BitVec.ofNat 64 (b.count * b.sector)
        let s := if b.mig then (((s.drainPage b).endMigration b).retranslate b).noteMigrated b else s
        let s := { s with binds := Tab.cut s.binds id }
        let rest := (Tab.lookD (s.tile tile).ports port []).filter (· ≠ id)
        let s := s.updTile tile fun t => { t with ports := Tab.store t.ports port rest [] }
        let s := s.writeToken id b token
        let s := (s.finish id)
        let s := if rest.isEmpty then s else s.afterCycles 1 (.streamStart tile port)
        (s.binds.filter fun e => decide (e.2.tile = tile ∧ e.2.port = port ∧ e.2.st = .held) && !(s.proc e.2.h).uncommitted.contains e.1).foldl
          (fun s e => s.afterCycles 1 (.heldBindingEnqueue e.2.h port)) s
    | none => s)

end Sys2Proof.Machine
end

