-- ==== Sys2Proof/Machine/Caps.lean ====
section
/-! DEFINITION. The capability instructions, major 0x2A (R82 to R88, R114, R337, R340, R341). -/

namespace Sys2Proof.Machine

/-- Write a capability register of the running process. -/
def State.setCap (s : State) (k : Nat) (c : Cap) : State := s.updMe fun p => p.setCap k c
/-- A capability narrowed: BASE, LENGTH and permissions replaced (R86). A BASE past 2^48, of a capability that reaches over the top of the address
space, wraps modulo 2^48 (log 99). -/
def Cap.narrow (c : Cap) (base len perms : Nat) : Cap :=
  { bits := BitVec.ofNat 128 (c.peer * 2 ^ 106 + perms % 64 * 2 ^ 100 + c.space * 2 ^ 96 + base % 2 ^ 48 * 2 ^ 48 + len % 2 ^ 40 * 256), tag := true }
/-- KDERIVE (R86, R337). -/
def execKderive (d a : BitVec 3) (b : BitVec 5) (p : BitVec 6) (s : State) : Out :=
  .next (s.withRegsCommit [b, b + 1] (fun s =>
    let c := s.me.cap a.toNat
    let o := s.regN b
    let l := s.regN (b + 1)
    if c.tag = false ∨ c.derive = false ∨ c.len < o ∨ c.len - o < l then s.raise 0x2A .capFault
    else (s.setCap d.toNat (c.narrow (c.base + o) l (c.perms &&& p.toNat))).retire 0x2A))
/-- KLD (R87, R340): a LOCAL granule at once; from another home the instruction completes with the reply. -/
def execKld (d : BitVec 3) (a : BitVec 5) (s : State) : Out :=
  .next (s.withRegsCommit [a] (fun s =>
    let addr := s.reg a
    let typ := s.me.mtype
    match s.placeMt (s.me.mtCtx s.running) addr 16 16 .load with
    | (s, .error c) => s.raise 0x2A c (s.accessInfo c addr.toNat)
    | (s, .ok (.sram k false)) =>
      let c : Cap := { bits := BitVec.ofNat 128 (ofBytesLE (s.sramRead k 16)), tag := Tab.lookD s.sramTags (k / 16) false }
      (s.setCap d.toNat c).retire 0x2A
    | (s, .ok pl) =>
      let (s, ids) := s.cbDrainTouched s.running pl 16
      let op : ReqOp := match pl with | .remote _ _ _ => .read 16 | _ => .capRead
      let (s, id) := s.send { s.me.req s.running typ pl addr.toNat op (.cap d.toNat) s.me.pc 0x2A with after := ids }
      s.issueHeld [id]))
/-- KST (R87, R340). -/
def execKst (d : BitVec 3) (a : BitVec 5) (s : State) : Out :=
  .next (s.withRegs [a]
    (let addr := s.reg a
     let typ := s.me.mtype
     let c := s.me.cap d.toNat
     match s.placeMt (s.me.mtCtx s.running) addr 16 16 .store with
     | (s, .error e) => s.raise 0x2A e (s.accessInfo e addr.toNat)
     | (s, .ok pl) =>
       if typ = 3 ∨ typ = 4 ∨ (typ ≠ 0 ∧ c.tag ∧ c.global = false) then s.raise 0x2A .capFault (s.accessInfo .capFault addr.toNat)
       else s.bufferStore 0x2A false (.capStore typ s.me.pc pl addr.toNat c)))
/-- The youngest binding of the running process that its strips have handed over and that has not written its token (R88). -/
def State.youngestIssued (s : State) : Option Binding :=
  ((s.binds.filter fun e => decide (e.2.h = s.running) && !s.me.uncommitted.contains e.1).getLast?).map fun e => e.2
/-- KSEND (R88, R114, R341). -/
def execKsend (d : BitVec 3) (c : BitVec 4) (s : State) : Out :=
  .next (s.onChan 0x2A c.toNat .writer 2
    (let k := s.me.cap d.toNat
     let x := s.me.chan c.toNat
     let away : Bool := match x.dest with
       | .tile _ => false
       | .peer _ _ => !k.global
       | _ => true
     s.refusal 0x2A c.toNat
      (if k.tag = false ∨ k.send = false ∨ away then s.raise 0x2A .capFault
       else match s.youngestIssued with
        | some b => s.block (.blockedToken b.sd) 0
        | none =>
          let m : Msg := { slots := [BitVec.ofNat 64 k.bits.toNat, BitVec.ofNat 64 (k.bits.toNat / 2 ^ 64)], tagged := true }
          s.withCredits 0x2A c.toNat 2 fun s => (s.holdBack (.ksend c.toNat d.toNat m)).retire 0x2A)))
/-- KRECV (R88, R341). -/
def execKrecv (d : BitVec 3) (c : BitVec 4) (s : State) : Out :=
  .next (s.afterCommit fun s =>
    s.onChan 0x2A c.toNat .reader 2
      (s.popSlots 0x2A c.toNat 2 fun s l =>
        let tag := match l with
          | [x, y] => x.tagged && y.tagged && decide (x.msg = y.msg)
          | _ => false
        let eos := s.me.eos
        let k : Cap := if eos then {} else { bits := BitVec.ofNat 128 ((slotVal l 0).toNat + (slotVal l 1).toNat * 2 ^ 64), tag := tag }
        (s.setCap d.toNat k).retire 0x2A))

end Sys2Proof.Machine
end

