-- ==== Sys2Proof/Machine/Matrix.lean ====
section
/-! DEFINITION. The tile registers and the matrix unit, major 0x30, and CBTLD (R144 to R146, R162 to R172, R311, R312, R347 to
R351, R355, R377 to R384). -/

namespace Sys2Proof.Machine

/-- TSH of a tile register; reset is 64 rows and 64 columns of FP32 (Table 7.9). -/
def Tile.shape (x : Tile) (n : Nat) : BitVec 20 := Tab.lookD x.tsh n 0x3F3F
/-- Its FMT, rows and columns. -/
def Tile.tfmt (x : Tile) (n : Nat) : Nat := field (x.shape n).toNat 19 16
def Tile.rows (x : Tile) (n : Nat) : Nat := field (x.shape n).toNat 13 8 + 1
def Tile.cols (x : Tile) (n : Nat) : Nat := field (x.shape n).toNat 5 0 + 1
/-- Bits of an element in a tile register (R162). -/
def tileBits : Nat → Nat
  | 0 => 32 | 1 => 16 | 4 => 4 | _ => 8
/-- The float format of an element; CB2 is held decoded as E4M3 (R162). -/
def tileFmt : Nat → Fmt
  | 0 => .fp32 | 1 => .bf16 | 3 => .e5m2 | 4 => .e2m1 | _ => .e4m3
/-- Byte of a tile register. -/
def Tile.tbyte (x : Tile) (n r b : Nat) : Byte := Tab.lookD x.treg (n * 16384 + r * 256 + b) 0
/-- The bits of element (r, c) under the register's shape (R162). -/
def Tile.telem (x : Tile) (n r c : Nat) : Nat :=
  let w := tileBits (x.tfmt n)
  if w = 4 then (x.tbyte n r (c / 2)).toNat / 16 ^ (c % 2) % 16
  else ofBytesLE ((List.range (w / 8)).map fun b => x.tbyte n r (c * (w / 8) + b))
/-- Val(t, r, c) of R166. -/
def Tile.tval (x : Tile) (n r c : Nat) : FVal := (tileFmt (x.tfmt n)).decode (x.telem n r c)
/-- Write bytes of tile registers by key. -/
def State.tregWrite (s : State) (t : Nat) (kvs : List (Nat × Byte)) : State :=
  s.updTile t fun x => { x with treg := kvs.foldl (fun b e => Tab.store b e.1 e.2 0) x.treg }
/-- Write an element of at least a byte. -/
def State.telemWrite (s : State) (t n r c w v : Nat) : State :=
  s.tregWrite t ((List.range (w / 8)).map fun b => (n * 16384 + r * 256 + c * (w / 8) + b, byteAt v b))

/-- The running process's tile. -/
def State.mt (s : State) : Tile := s.tile s.myTile
/-- Ownership of the tile registers, and of the slivers where `vec` says so, checked and then taken (R240, R241). -/
def State.touchTiles (s : State) (op : Nat) (vec : Bool) (k : State → State) : State :=
  let h := s.running
  match s.conflict h 1 [] with
  | some (o, _) => s.raise op .vown { detail := 64, owner := o }
  | none => match (if vec then s.conflict h 0 s.me.slivers else none) with
    | some (o, m) => s.raise op .vown { owner := o, xmask := m }
    | none =>
      let s1 := s.takeUnits h 1 []
      let r := k (if vec then s1.takeUnits h 0 s.me.slivers else s1)
      if r.me.pst = .parkedFault ∧ r.me.fclass ≠ .step then r.updTile s.myTile fun x => { x with owners := s.mt.owners } else r
/-- The issue of a matrix opcode: no grant pending (R47), its vector registers filled (R97) and the mask registers that it reads
written (R95), the strip committed, its scalar registers `rs` not pending behind it, the units its own (R165). -/
def State.matrixOp (s : State) (rs : List (BitVec 5)) (vecs : List (BitVec 5)) (ms : List Nat) (vec : Bool) (k : State → State) : State :=
  s.afterGrant (s.afterFills (s.me.filling (vecs.map fun r => r.toNat)) ms (s.afterCommit fun s => s.withRegs rs (s.touchTiles 0x30 vec k)))
/-- A command is released as a push is: it starts once every earlier store and atomic of the process has performed, so that
whoever reads its result finds them performed (R111, R113, R165). -/
def State.released (s : State) (k : State → State) : State :=
  let (s, ids) := s.release s.running
  if ids.isEmpty then k s else s.holdOn ids
/-- The command completes issue; the next instruction waits `n` cycles (R165, R377). -/
def State.command (s : State) (n : Nat) : State := (s.updMe fun p => { p with busy := s.cycle + n }).retire 0x30
/-- A shape or format that the instruction does not take. -/
def State.badShape (s : State) : State := s.raise 0x30 .illegalOpcode

/-- The step group of an operand pair; none for a pair that Table 15.2 does not list. -/
def stepGroup (fa fb : Nat) : Option Nat :=
  let fp8 (f : Nat) := decide (f = 2 ∨ f = 3 ∨ f = 5)
  if fa = 1 ∧ fb = 1 then some 1 else if fp8 fa && fp8 fb then some 2 else if fa = 4 ∧ fb = 4 then some 4 else none
/-- The shape rules of R167 with K rows of tb, and ta rows `ra`; gives the step group. -/
def Tile.pairOk (x : Tile) (td ta tb : Nat) : Option Nat :=
  if x.tfmt td = 0 ∧ x.rows td = x.cols ta ∧ x.cols td = x.cols tb ∧ td ≠ ta ∧ td ≠ tb then stepGroup (x.tfmt ta) (x.tfmt tb)
  else none
/-- A value scaled by an E8M0 byte; 0xFF makes a NaN (R145). -/
def scaled (v : FVal) (b : Nat) : FVal := if b = 255 then .nan else v.scale ((b : Int) - 127)
/-- The product of step k at (i, j), none where MMASP skips it (R167 to R169). -/
def Tile.product (x : Tile) (r : MatRun) (k i j : Nat) : Option (FVal × Flags) :=
  if r.sparse then
    let g := k / 4
    let q := k % 4
    let pos (sl : Nat) : Nat :=
      let b := 4 * (g * r.m + i) + 2 * sl
      bit1 (r.metaBits.getD b false) + 2 * bit1 (r.metaBits.getD (b + 1) false)
    if q = pos 0 then some ((x.tval r.ta (2 * g) i).mul (x.tval r.tb k j))
    else if q = pos 1 then some ((x.tval r.ta (2 * g + 1) i).mul (x.tval r.tb k j))
    else none
  else
    let a := x.tval r.ta k i
    let b := x.tval r.tb k j
    if r.scaled then
      some ((scaled a (r.sa.getD (k / r.blk * r.m + i) 0)).mul (scaled b (r.sb.getD (k / r.blk * r.n + j) 0)))
    else some (a.mul b)
/-- One step group of a command: every accumulator, and the flags of all (R144, R166). -/
def Tile.group (x : Tile) (r : MatRun) (k : Nat) : List (Nat × Nat × Nat) × Flags :=
  let hi := min (k + r.g) r.kEnd
  let cells := (List.range r.m).flatMap fun i => (List.range r.n).map fun j =>
    (i, j, accGroup (x.tval r.td i j) ((List.range (hi - k)).filterMap fun o => x.product r (k + o) i j))
  (cells.map fun c => (c.1, c.2.1, c.2.2.1), cells.foldl (fun a c => a ||| c.2.2.2) 0)
/-- The group that MSTEP names of a process's command: the accumulators and FFLAGS; gives the next NEXTK (R166). -/
def State.runGroup (s : State) (h : Nat) (r : MatRun) : State × Nat :=
  let p := s.proc h
  let k := p.mstep.toNat
  let (cells, fl) := (s.tile p.tile).group r k
  let s := cells.foldl (fun s c => s.telemWrite p.tile r.td c.1 c.2.1 32 c.2.2) s
  (s.updProc h fun p => { p with fflags := p.fflags ||| fl }, min (k + r.g) r.kEnd)
/-- The next group of a process's command; the last one ends it, 8 cycles before the next instruction (R165, R166). -/
def State.stepMatrix (s : State) (h : Nat) : State :=
  let p := s.proc h
  match p.mat with
  | none => s
  | some r =>
    let (s, hi) := s.runGroup h r
    if hi < r.kEnd then
      let s := s.updProc h fun p => { p with mstep := BitVec.ofNat 7 hi, mat := some { r with groups := r.groups + 1 } }
      let u := Nat.max 1 (s.unfused p.tile).length
      s.afterCycles (r.start + cdiv ((r.groups + 2) * 4) u - s.cycle) (.matrixStepGroup h)
    else
      (s.updProc h fun p => { p with mstep := 0, mat := none, busy := s.cycle + 8 }).finishHeld h 0x30
/-- A stop request: the group under way completes, and the command stops there with EPC at it and NEXTK at the next group, be
that K (R166, R172). -/
def State.stopMatrix (s : State) (h : Nat) : State :=
  match (s.proc h).mat with
  | none => s
  | some r =>
    let (s, hi) := s.runGroup h r
    (s.cancel (.matrixStepGroup h)).updProc h fun p => { p with mat := none, mstep := BitVec.ofNat 7 hi, epc := p.pc }
/-- Matrix.Run of R166 from MSTEP.NEXTK. -/
def State.runMatrix (s : State) (r : MatRun) : State :=
  s.released fun s =>
    if r.kEnd ≤ s.me.mstep.toNat then (s.updMe fun p => { p with mstep := 0 }).command 8
    else
      let u := Nat.max 1 (s.unfused s.myTile).length
      let s := s.updMe fun p => { p with mat := some { r with start := s.cycle } }
      (s.issueHeld []).afterCycles (cdiv 4 u) (.matrixStepGroup s.running)
/-- MMA (R167, R347, R349). -/
def execMma (d a b : BitVec 3) (s : State) : Out :=
  .next (s.matrixOp [] [] [] false fun s =>
    let x := s.mt
    match x.pairOk d.toNat a.toNat b.toNat with
    | none => s.badShape
    | some g =>
      let k := x.rows a.toNat
      if x.rows b.toNat ≠ k then s.badShape
      else s.runMatrix { td := d.toNat, ta := a.toNat, tb := b.toNat, m := x.cols a.toNat, n := x.cols b.toNat, kEnd := k, g := g })
/-- MMAS (R168, R347, R350): the scales are bytes 0 and on of both vector registers, read at issue. -/
def execMmas (d a b : BitVec 3) (va vb : BitVec 5) (s : State) : Out :=
  .next (s.matrixOp [] [va, vb] [] true fun s =>
    let x := s.mt
    let v := s.vc
    match x.pairOk d.toNat a.toNat b.toNat with
    | none => s.badShape
    | some g =>
      let k := x.rows a.toNat
      let m := x.cols a.toNat
      let n := x.cols b.toNat
      let blk := vtBlock v.vt
      let nb := cdiv k blk
      if g = 1 ∨ x.rows b.toNat ≠ k ∨ v.lanes.length * 32 < nb * max m n then s.badShape
      else
        let bytes (r : BitVec 5) (c : Nat) := (List.range c).map fun i => s.elemAt v 8 r.toNat i
        s.runMatrix { td := d.toNat, ta := a.toNat, tb := b.toNat, m := m, n := n, kEnd := k, g := g, blk := blk, scaled := true,
                      sa := bytes va (nb * m), sb := bytes vb (nb * n) })
/-- MMASP (R169, R347, R351): the metadata are the bits of m(c) and m(c + 1), read at issue. -/
def execMmasp (d a b : BitVec 3) (c : BitVec 3) (s : State) : Out :=
  .next (s.matrixOp [] [] [c.toNat, c.toNat + 1] true fun s =>
    let x := s.mt
    let v := s.vc
    match x.pairOk d.toNat a.toNat b.toNat with
    | none => s.badShape
    | some _ =>
      let k := x.rows b.toNat
      let m := x.cols a.toNat
      let w := v.lanes.length * 32
      if k % 4 ≠ 0 ∨ 2 * x.rows a.toNat ≠ k ∨ 2 * w < k * m then s.badShape
      else
        let bits := (List.range (2 * w)).map fun i => s.maskBit v (if i < w then c.toNat else c.toNat + 1) (i % Nat.max 1 w)
        s.runMatrix { td := d.toNat, ta := a.toNat, tb := b.toNat, m := m, n := x.cols b.toNat, kEnd := k, g := 4, sparse := true,
                      metaBits := bits })
/-- MOPA (R170, R250, R347, R355): one update, without MSTEP. -/
def execMopa (d : BitVec 3) (va vb : BitVec 5) (s : State) : Out :=
  .next (s.matrixOp [] [va, vb] s.me.governing true fun s =>
    let x := s.mt
    let v := s.vc
    let td := d.toNat
    if v.vt.toNat % 8 ≠ 1 ∨ x.tfmt td ≠ 0 then s.badShape
    else s.released fun s =>
      let act (n : Nat) := (List.range n).filter fun i => s.active v i
      let val (r : BitVec 5) (i : Nat) := Fmt.bf16.decode (s.elem v r i)
      let cells := (act (x.rows td)).flatMap fun i => (act (x.cols td)).map fun j =>
        (i, j, accGroup (x.tval td i j) [(val va i).mul (val vb j)])
      let s := cells.foldl (fun s c => s.telemWrite s.myTile td c.1 c.2.1 32 c.2.2.1) s
      (s.raiseFlags (cells.foldl (fun a c => a ||| c.2.2.2) 0)).command (cdiv 4 (Nat.max 1 (s.unfused s.myTile).length) + 8))
/-- MATRIX_STEP_GROUP (R166). -/
def execMatrixStepGroup (h : Nat) (s : State) : Out := .next (s.stepMatrix h)

/-- TCFG (R163, R378). -/
def execTcfg (d : BitVec 3) (a : BitVec 5) (s : State) : Out :=
  .next (s.withRegs [a] (s.matrixOp [a] [] [] false fun s =>
    let w := s.reg a
    let f := wfield w 19 16
    let c := wfield w 5 0 + 1
    if 5 < f ∨ (f = 4 ∧ c % 2 = 1) ∨ (f = 5 ∧ c % 8 ≠ 0) then s.raise 0x30 .protection
    else s.released fun s =>
      let v : BitVec 20 := BitVec.ofNat 20 (f * 65536 + wfield w 13 8 * 256 + wfield w 5 0)
      (s.updTile s.myTile fun x => { x with tsh := Tab.store x.tsh d.toNat v 0x3F3F }).command 1))
/-- TZERO (R384). -/
def execTzero (d : BitVec 3) (s : State) : Out :=
  .next (s.matrixOp [] [] [] false fun s => s.released fun s =>
    (s.updTile s.myTile fun x => { x with treg := x.treg.filter fun e => decide (e.1 / 16384 ≠ d.toNat) }).command 8)
/-- The line that a selector names: the extent, and the element at position j; none where the selector is out of range (R381). -/
def Tile.line (x : Tile) (t : Nat) (w : Word) : Option (Nat × (Nat → Nat × Nat)) :=
  let i := wfield w 5 0
  let col := bitAt w.toNat 6
  if wfield w 63 7 ≠ 0 ∨ (if col then x.cols t else x.rows t) ≤ i then none
  else some (if col then (x.rows t, fun j => (j, i)) else (x.cols t, fun j => (i, j)))
/-- VT.EW does not equal the tile's element width (R381). -/
def Tile.widthOff (x : Tile) (t ew : Nat) : Bool := decide (tileBits (x.tfmt t) ≠ ew ∨ x.tfmt t = 4)
/-- TMVV (R381). -/
def execTmvv (d : BitVec 5) (a : BitVec 3) (b : BitVec 5) (s : State) : Out :=
  .next (s.withRegs [b] (s.matrixOp [b] [d] s.me.governing true fun s =>
    let x := s.mt
    let v := s.vc
    let t := a.toNat
    if x.widthOff t v.ew then s.badShape
    else match x.line t (s.reg b) with
      | none => s.raise 0x30 .protection
      | some (e, f) => s.released fun s =>
        (s.putElems v d ((s.actives v).map fun j => (j, if j < e then x.telem t (f j).1 (f j).2 else 0))).command 1))
/-- TMVT (R381). -/
def execTmvt (d : BitVec 3) (a b : BitVec 5) (s : State) : Out :=
  .next (s.withRegs [b] (s.matrixOp [b] [a] s.me.governing true fun s =>
    let x := s.mt
    let v := s.vc
    let t := d.toNat
    if x.widthOff t v.ew then s.badShape
    else match x.line t (s.reg b) with
      | none => s.raise 0x30 .protection
      | some (e, f) => s.released fun s =>
        (((s.actives v).filter fun j => decide (j < e)).foldl
          (fun s j => s.telemWrite s.myTile t (f j).1 (f j).2 v.ew (s.elem v a j)) s).command 1))

/-- Pieces of `n` bytes at an address of the home: offset and length, each within an aligned 64-byte block, whole 8-byte words or a
naturally aligned smaller size (R115, R210). -/
def bulkCuts (a : Nat) : Nat → Nat → Nat → List (Nat × Nat)
  | 0, _, _ => []
  | f + 1, off, n => if n = 0 then [] else
      let x := a + off
      let k := if x % 8 = 0 ∧ 8 ≤ n then min (n / 8 * 8) (64 - x % 64)
        else if x % 4 = 0 ∧ 4 ≤ n then 4 else if x % 2 = 0 ∧ 2 ≤ n then 2 else 1
      (off, k) :: bulkCuts a f (off + k) (n - k)
/-- One row of a bulk access: its offset in the register, its address, its bytes, and its pieces. -/
structure BRow where
  off : Nat
  addr : Word
  n : Nat
  deriving Repr
/-- The first failing cause of a bulk access, the row of the first address that fails with it, and the addresses that do: one more failing
address joins them; with `late`, UNCORRECTABLE decides only where nothing else fails (R380). -/
def noteBad (late : Bool) (row : Nat) (bad : Option (Cause × Nat × List Nat)) (a : Nat) (c : Cause) : Option (Cause × Nat × List Nat) :=
  match bad with
  | none => some (c, row, [a])
  | some (c', r, l) => if c' = c then some (c', r, l ++ [a])
    else if late && decide (c' = .uncorrectable) then some (c, row, [a]) else bad
/-- Check every row in units of at most `u` bytes: the first failing cause, the addresses that fail with it and the row of the first. Of a
failing unit without an alignment of its own each byte is checked (R380, R383). -/
def State.bulkCheck (s : State) (rows : List BRow) (u al : Nat) (late : Bool) (p : Perm) : State × Option (Cause × Nat × List Nat) :=
  rows.zipIdx.foldl (fun st e =>
    (List.range (cdiv e.1.n u)).foldl (fun (st : State × Option (Cause × Nat × List Nat)) i =>
      let a := e.1.addr + BitVec.ofNat 64 (u * i)
      let n := min u (e.1.n - u * i)
      match st.1.placeMt (s.me.mtCtx s.running) a n (min al n) p with
      | (s, .ok _) => (s, st.2)
      | (s, .error c) =>
        if 1 < al then (s, noteBad late e.2 st.2 a.toNat c)
        else (List.range n).foldl (fun (st : State × Option (Cause × Nat × List Nat)) j =>
          match st.1.placeMt (s.me.mtCtx s.running) (a + BitVec.ofNat 64 j) 1 1 p with
          | (s, .ok _) => (s, st.2)
          | (s, .error c) => (s, noteBad late e.2 st.2 (a.toNat + j) c)) (s, st.2)) st) (s, none)
/-- The record of a bulk access. -/
def State.bulkInfo (s : State) (c : Cause) (row rows : Nat) (addrs : List Nat) (stride : Word) : FInfo :=
  { s.accessInfo c (addrs.headD 0) with pages := addrs.flatMap fun a => (s.accessInfo c a).pages, count := rows - row, stride := stride }
/-- The bytes of a bulk load as they lie in the register or the table: a CB2 row decodes under the table in force at issue (R131, R379). -/
def State.bulkWrite (s : State) (t : Nat) (b : Bulk) : State :=
  match b.td with
  | none =>
    let w (n : Nat) := BitVec.ofNat 32 (ofBytesLE ((List.range 4).map fun i => ((b.got.find? fun e => e.1 == 4 * n + i).map fun e => e.2).getD 0))
    s.updTile t fun x => { x with cbt := (List.range 256).foldl (fun c n => Tab.store c n (w n) 0) x.cbt }
  | some td =>
    let x := { s.tile t with tsh := Tab.store (s.tile t).tsh td b.shape 0x3F3F, cbt := b.cbt }
    if x.tfmt td = 5 then
      let byte (o : Nat) := ((b.got.find? fun e => e.1 == o).map fun e => e.2.toNat).getD 0
      s.tregWrite t ((List.range (x.rows td)).flatMap fun r => (List.range (x.cols td)).map fun c =>
        let w := byte (r * 256 + c / 8 * 2) + 256 * byte (r * 256 + c / 8 * 2 + 1)
        (td * 16384 + r * 256 + c, BitVec.ofNat 8 (cb2Weight (Tab.lookD x.cbt (w / 256) 0).toNat w (c % 8))))
    else s.tregWrite t (b.got.map fun e => (td * 16384 + e.1, e.2))
/-- The loads of a bulk instruction, by their offset, address and bytes: what the own tile supplies, and requests for the rest; the instruction
ends with the last reply (R311, R379). `left` is the COUNT of a record by offset, `stride` its STRIDE (R380). -/
def State.bulkLoad (s : State) (op : Nat) (ps : List (Nat × Word × Nat)) (td : Option Nat) (cycles : Nat) (left : Nat → Nat) (stride : Word) : State :=
  let h := s.running
  let typ := s.me.mtype
  let base : Bulk := { td := td, shape := (td.map s.mt.shape).getD 0x3F3F, cbt := s.mt.cbt }
  let g := s.nextId
  let (s, got, asks, waits) := ps.foldl (fun (st : State × List (Nat × Byte) × List (Nat × Nat × Nat × Place) × List Nat) e =>
    let (s, got, asks, waits) := st
    match s.placeMt (s.me.mtCtx h) e.2.1 e.2.2 1 .load with
    | (s, .error _) => (s, got, asks, waits)
    | (s, .ok pl) => match s.lookLocal h typ pl e.2.2 with
      | (s, .val bs) => (s, got ++ bs.zipIdx.map (fun x => (e.1 + x.2, x.1)), asks, waits)
      | (s, .wait ids) => (s, got, asks, waits ++ ids)
      | (s, .ask _) => (s, got, asks ++ [(e.1, e.2.1.toNat, e.2.2, pl)], waits)) (s, [], [], [])
  if waits ≠ [] then s.holdOn waits
  else if asks.isEmpty then ((s.bulkWrite s.myTile { base with got := got }).updMe fun p => { p with busy := s.cycle + cycles }).retire op
  else
    let (s, ids) := asks.foldl (fun (st : State × List Nat) e =>
      let r := s.me.req h typ e.2.2.2 e.2.1 (.read e.2.2.1) (.bulk e.1) s.me.pc op
      let (s, id) := st.1.send { r with grp := g, count := left e.1, stride := stride }
      (s, st.2 ++ [id])) (s, [])
    (s.updMe fun p => { p with bulk := some { base with got := got } }).issueHeld ids
/-- CBTLD (R311, R312): 256 four-byte loads. -/
def execCbtld (a : BitVec 5) (s : State) : Out :=
  .next (s.withRegsCommit [a] (fun s => s.touchTiles 0x2E false fun s =>
    match s.bulkCheck [{ off := 0, addr := s.reg a, n := 1024 }] 4 4 false .load with
    | (s, some (c, _, l)) => s.raise 0x2E c (s.bulkInfo c 0 0 l 0)
    | (s, none) => s.released fun s =>
      s.bulkLoad 0x2E ((List.range 256).map fun n => (4 * n, s.reg a + BitVec.ofNat 64 (4 * n), 4)) none 1 (fun _ => 0) 0))
/-- Rows of a tile register in memory: RB bytes at s(a) + r × VS (Table 16.2, R379). -/
def State.tileRows (s : State) (t : Nat) (a : Word) : List BRow :=
  let x := s.mt
  let rb := if x.tfmt t = 5 then x.cols t / 4 else x.cols t * tileBits (x.tfmt t) / 8
  (List.range (x.rows t)).map fun r => { off := r * 256, addr := a + BitVec.ofNat 64 r * s.me.vs, n := rb }
/-- The checks that TLD and TST share (R379, R380, R383). -/
def State.tileAccess (s : State) (t : Nat) (a : Word) (p : Perm) (k : State → List BRow → State) : State :=
  let rows := s.tileRows t a
  if 5 ≤ s.me.mtype then s.raise 0x30 .memtype (s.bulkInfo .memtype 0 rows.length [a.toNat] s.me.vs)
  else if a.toNat % 8 ≠ 0 ∨ s.me.vs.toNat % 8 ≠ 0 then s.raise 0x30 .misalign (s.bulkInfo .misalign 0 rows.length [a.toNat] s.me.vs)
  else match s.bulkCheck rows 8 1 true p with
    | (s, some (c, r, l)) => s.raise 0x30 c (s.bulkInfo c r rows.length l s.me.vs)
    | (s, none) => k s rows
/-- TLD (R379, R380). -/
def execTld (d : BitVec 3) (a : BitVec 5) (s : State) : Out :=
  .next (s.withRegs [a] (s.matrixOp [a] [] [] false fun s =>
    s.tileAccess d.toNat (s.reg a) .load fun s rows =>
      let ps := rows.flatMap fun r => (bulkCuts (s.homeBase (s.me.mtCtx s.running) + r.addr.toNat) 300 0 r.n).map fun c =>
        (r.off + c.1, r.addr + BitVec.ofNat 64 c.1, c.2)
      s.bulkLoad 0x30 ps (some d.toNat) (rows.length + 8) (fun off => rows.length - off / 256) s.me.vs))
/-- TST (R383): everything is checked before any byte is written; the words of off-tile homes pass through the combining
buffer. -/
def execTst (d : BitVec 3) (a : BitVec 5) (s : State) : Out :=
  .next (s.withRegs [a] (s.matrixOp [a] [] [] false fun s =>
    if s.mt.tfmt d.toNat = 5 then s.badShape
    else s.tileAccess d.toNat (s.reg a) .store fun s rows =>
      let x := s.mt
      let typ := s.me.mtype
      let s := rows.foldl (fun s r =>
        (bulkCuts (s.homeBase (s.me.mtCtx s.running) + r.addr.toNat) 300 0 r.n).foldl (fun s c =>
          let at_ := r.addr + BitVec.ofNat 64 c.1
          match s.placeMt (s.me.mtCtx s.running) at_ c.2 1 .store with
          | (s, .error _) => s
          | (s, .ok pl) =>
            s.storeOne s.running typ s.me.pc 0x30
              { place := pl, addr := at_.toNat,
                bs := (List.range c.2).map fun i => { off := i, val := x.tbyte d.toNat (r.off / 256) (c.1 + i) } }) s) s
      s.command (rows.length + 8)))

end Sys2Proof.Machine
end

