-- ==== Sys2Proof/Machine/VecMem.lean ====
section
/-! DEFINITION. Vector loads and stores, major 0x18: element addresses, memory formats, segments, the checks and their record
(R77 to R79, R97 to R100, R135, R136, R142, R154, R161, R397 to R400, R410 to R412, R433). -/

namespace Sys2Proof.Machine

/-- The memory format suits the register type, for plain accesses (Table 6.5). -/
def fmtSuits (vt : Word) : Bool :=
  let e := vt.toNat % 4
  match vtFmt vt with
  | 0 | 8 | 9 => true
  | 1 => decide (e = 2)
  | 2 => decide (e = 2) || (decide (e = 1) && vtH vt)
  | 3 => decide (e = 2) || (decide (e = 1) && !vtH vt)
  | 4 | 5 | 6 | 7 => decide (e = 1 ∨ e = 2)
  | 10 | 11 => decide (1 ≤ e)
  | 12 | 13 => decide (2 ≤ e)
  | _ => false
/-- The format is packed below the byte (R136). -/
def fmtPacked (vt : Word) : Bool := decide (vtFmt vt = 6 ∨ vtFmt vt = 7)
/-- Bytes of an element in memory (Table 6.5); of a packed format, the bytes that one access of an element takes. -/
def fmtBytes (vt : Word) : Nat :=
  match vtFmt vt with
  | 0 => ewOf vt / 8
  | 1 | 12 | 13 => 4
  | 2 | 3 | 7 | 10 | 11 => 2
  | _ => 1
/-- The float format of a memory format. -/
def memFloat : Nat → Fmt
  | 1 => .fp32 | 2 => .fp16 | 3 => .bf16 | 5 => .e5m2 | 6 => .e2m1 | _ => .e4m3
/-- The register's float format, where the element is one. -/
def regFloat (vt : Word) : Fmt := (vtFloat vt).getD .fp32
/-- The integer formats: bits and signedness (Table 6.5). -/
def memInt : Nat → Nat × Bool
  | 8 => (8, true) | 9 => (8, false) | 10 => (16, true) | 11 => (16, false) | 12 => (32, true) | _ => (32, false)
/-- Widening of a memory element into the register type (R135); a packed one has been unpacked. -/
def widen (vt : Word) (x : Nat) : Nat :=
  match vtFmt vt with
  | 0 => x
  | 1 | 2 | 3 | 4 | 5 | 6 | 7 => (convert ((memFloat (vtFmt vt)).decode x) (regFloat vt) false).1
  | f => let (w, sg) := memInt f
         if sg then wrapInt (ewOf vt) (signedOf w x) else x
/-- Narrowing of a register element into the memory format, with its flags (R135, R138). -/
def narrow (vt : Word) (x : Nat) : Nat × Flags :=
  match vtFmt vt with
  | 0 => (x, 0)
  | 1 | 2 | 3 | 4 | 5 | 6 => convert ((regFloat vt).decode x) (memFloat (vtFmt vt)) (vtSat vt)
  | f =>
    let (w, sg) := memInt f
    if vtSat vt then
      let v : Int := if sg then signedOf (ewOf vt) x else x
      let lo : Int := if sg then -(2 ^ (w - 1) : Nat) else 0
      let hi : Int := if sg then (2 ^ (w - 1) : Nat) - 1 else (2 ^ w : Nat) - 1
      (wrapInt w (Min.min (Max.max v lo) hi), 0)
    else (x % 2 ^ w, 0)
/-- Weight `j` of a CB2 word as an E4M3 code, under a tile's codebook table (R131). -/
def Tile.cb2 (x : Tile) (w j : Nat) : Nat := cb2Weight (Tab.lookD x.cbt (w / 256 % 256) 0).toNat w j
/-- The register value of an element whose bytes have come; `sel` is the nibble or weight of a packed element. -/
def Tile.elemOf (x : Tile) (vt : Word) (sel : Nat) (bs : List Byte) : Nat :=
  let w := ofBytesLE bs
  match vtFmt vt with
  | 6 => widen vt (w / 16 ^ sel % 16)
  | 7 => widen vt (x.cb2 w sel)
  | _ => widen vt w
/-- Element bytes and size of a segment (Table 7.8). -/
def segSize (vt : Word) : Nat × Nat :=
  let b := vtBlock vt
  if vtFmt vt = 6 then (b / 2, b) else (b / 4, if b ≤ 16 then 8 else b / 2)
/-- The register values and flags of the active elements of a segment: MX.Decode of each code with the block's scale (R142, R161). -/
def Tile.segOf (x : Tile) (vt : Word) (first : Nat) (act : List Nat) (bs : List Byte) : List (Nat × Nat) × Flags :=
  let e := (segSize vt).1
  let scale := ofBytesLE ((bs.drop e).take 1)
  let vals := act.map fun i =>
    let o := i - first
    let v : FVal := if vtFmt vt = 6 then e2m1Value (ofBytesLE ((bs.drop (o / 2)).take 1) / 16 ^ (o % 2))
      else Fmt.e4m3.decode (x.cb2 (ofBytesLE ((bs.drop (o / 8 * 2)).take 2)) (o % 8))
    (i, mxDecode v scale (regFloat vt))
  (vals.map fun a => (a.1, a.2.1), vals.foldl (fun a b => a ||| b.2.2) 0)

/-- How a vector access forms its addresses (R79, R161). -/
inductive VForm
  | unit | strided | indexed (b : BitVec 5) | segment
  deriving DecidableEq, Repr
/-- STRIDE of a fault record: VS, and zero for unit stride and segments (R100, Table 10.5). -/
def VForm.stride (f : VForm) (vs : Word) : Word :=
  match f with
  | .unit | .segment => 0
  | .strided | .indexed _ => vs
/-- One access of a vector instruction: its element (of a segment, the active ones), address, bytes, alignment and place in a
packed byte or word. -/
structure VAcc where
  i : Nat
  addr : Word
  n : Nat
  al : Nat
  sel : Nat := 0
  act : List Nat := []
  deriving Repr
/-- The accesses of a vector instruction, in element order; the index vector is read whole (R397, R410). -/
def State.vaccs (s : State) (v : VCtx) (f : VForm) (base : Word) : List VAcc :=
  let n := fmtBytes v.vt
  let act := s.actives v
  match f with
  | .unit => act.map fun i => match vtFmt v.vt with
    | 6 => { i := i, addr := base + BitVec.ofNat 64 (i / 2), n := 1, al := 1, sel := i % 2 }
    | 7 => { i := i, addr := base + BitVec.ofNat 64 (2 * (i / 8)), n := 2, al := 2, sel := i % 8 }
    | _ => { i := i, addr := base + BitVec.ofNat 64 (i * n), n := n, al := n }
  | .strided => act.map fun i => { i := i, addr := base + BitVec.ofNat 64 i * s.me.vs, n := n, al := n }
  | .indexed b => act.map fun i => { i := i, addr := base + sext64 v.ew (s.elem v b i), n := n, al := n }
  | .segment =>
    let b := vtBlock v.vt
    let size := (segSize v.vt).2
    (distinct (act.map fun i => i / b)).map fun k =>
      { i := (act.find? fun i => i / b == k).getD 0, addr := base + BitVec.ofNat 64 (k * size), n := size, al := size, sel := k * b,
        act := act.filter fun i => i / b == k }
/-- MEMTYPE of R399 step 3 and R412 step 3. -/
def vMemtype (vt : Word) (f : VForm) (mtype : Nat) (store : Bool) : Bool :=
  decide (5 ≤ mtype) || !fmtSuits vt || (store && decide (vtFmt vt = 7)) || (match f with
    | .unit => false
    | .strided | .indexed _ => fmtPacked vt
    | .segment => !fmtPacked vt)
/-- What the record of a failing vector access says: the first failing element, its address, the addresses that fail with the
same cause (R100, R235, R399). -/
def State.vInfo (s : State) (v : VCtx) (f : VForm) (c : Cause) (i : Nat) (addrs : List Nat) : FInfo :=
  { s.accessInfo c (addrs.headD 0) with
    pages := addrs.flatMap fun a => (s.accessInfo c a).pages
    count := v.vl - i
    stride := f.stride s.me.vs
    vec := true }
/-- The places of all accesses, or the raised fault (R399, R412): the element with the lowest index decides. -/
def State.vPlaces (s : State) (f : VForm) (store : Bool) (accs : List VAcc) (k : State → List (VAcc × Place) → State) : State :=
  let v := s.vc
  match accs with
  | [] => k s []
  | first :: _ =>
    if vMemtype v.vt f s.me.mtype store then s.raise 0x18 .memtype (s.vInfo v f .memtype first.i [first.addr.toNat])
    else
      let init : State × List (VAcc × Place) × Option (Cause × Nat × List Nat) := (s, [], none)
      let r := accs.foldl (fun (st : State × List (VAcc × Place) × Option (Cause × Nat × List Nat)) a =>
        let (s, ps, bad) := st
        match s.placeMt (s.me.mtCtx s.running) a.addr a.n a.al (if store then .store else .load) with
        | (s, .ok p) => (s, ps ++ [(a, p)], bad)
        | (s, .error c) => (s, ps, match bad with
          | none => some (c, a.i, [a.addr.toNat])
          | some (c', i, l) => if c' = c then some (c', i, l ++ [a.addr.toNat]) else bad)) init
      match r with
      | (s, ps, none) => k s ps
      | (s, _, some (c, i, l)) => s.raise 0x18 c (s.vInfo v f c i l)

/-- Exception flags of process `h`, held back in an open strip (R141). -/
def State.flagsOf (s : State) (h : Nat) (f : Flags) : State :=
  s.updProc h fun p => match p.strip with
    | some k => { p with strip := some { k with fflags := k.fflags ||| f } }
    | none => { p with fflags := p.fflags ||| f }
/-- The bytes of a load's element or segment come into the register (R97, R135, R161). CB2 words are decoded by the codebook table that the tile holds
as the reply comes, whichever process owns the tile registers (log 100). -/
def State.fillElem (s : State) (h : Nat) (vd : Nat) (vt : Word) (seg : Bool) (i sel : Nat) (act : List Nat) (bs : List Byte) : State :=
  let v := { (s.proc h).vctx h with vt := vt, ew := ewOf vt }
  let x := s.tile v.tile
  if seg then
    let (vals, fl) := x.segOf vt sel act bs
    (s.putElemsAt v v.ew vd vals).flagsOf h fl
  else s.putElemsAt v v.ew vd [(i, x.elemOf vt sel bs)]
/-- A vector load touches a byte that a held atomic of the strip writes (R343). -/
def State.vAtomics (s : State) (accs : List VAcc) : Bool :=
  s.me.strip.isSome && accs.any fun a =>
    s.me.heldAtomic s.me.mtype (s.placeMt (s.me.mtCtx s.running) a.addr a.n 1 .load).2 a.addr.toNat a.n
/-- The accesses of a load that the tile cannot supply, as requests: of a unit-stride load, the elements that fill a naturally aligned
64-byte block at a peer make one request; every other element makes its own (R210, log 87). -/
def vrequests (f : VForm) (asks : List (VAcc × Place × List WByte)) : List (List (VAcc × Place × List WByte)) :=
  let blk (e : VAcc × Place × List WByte) := e.2.1.block
  let full (e : VAcc × Place × List WByte) : Bool := match f, e.2.1 with
    | .unit, .remote _ _ _ =>
      let mine := asks.filter fun x => decide ((blk x).1 = (blk e).1)
      (mine.all fun x => decide ((blk x).2 + x.1.n ≤ 64)) &&
        (List.range 64).all fun o => mine.any fun x => decide ((blk x).2 ≤ o ∧ o < (blk x).2 + x.1.n)
    | _, _ => false
  asks.foldr (fun e acc => match acc with
    | (x :: g) :: rest => if full e && decide ((blk x).1 = (blk e).1) then (e :: x :: g) :: rest else [e] :: acc
    | _ => [e] :: acc) []
/-- What a group of accesses reads: bytes, where they go, and what the strip's stores supply of them (R97, R210, R343). -/
def vask (vd : Nat) (vt : Word) (seg : Bool) (a : VAcc) (fwd : List WByte) (g : List (VAcc × Place × List WByte)) : Nat × ReqDest × List WByte :=
  match g with
  | _ :: _ :: _ =>
    (64, .block vd vt (g.map fun e => (e.1.i, e.2.1.block.2, e.1.sel)),
      g.flatMap fun e => e.2.2.map fun b => { b with off := e.2.1.block.2 + b.off })
  | _ => (a.n, if seg then .seg vd a.sel vt a.act else .elem vd a.i vt a.sel, fwd)
/-- The access itself: what the own tile supplies at once; for the rest requests, which fill the register as their replies
come (R97). With no strip open the load is a strip of its own and the next instruction waits for its end (R154). -/
def State.vloadFrom (s : State) (d : BitVec 5) (f : VForm) (ps : List (VAcc × Place)) : State :=
  let h := s.running
  let v := s.vc
  let typ := s.me.mtype
  let seg := decide (f = .segment)
  let init : State × List (VAcc × List Byte) × List (VAcc × Place × List WByte) × List Nat := (s, [], [], [])
  let (s, vals, asks, waits) := ps.foldl (fun (st : State × List (VAcc × List Byte) × List (VAcc × Place × List WByte) × List Nat) e =>
    let (s, vals, asks, waits) := st
    match s.lookLocal h typ e.2 e.1.n with
    | (s, .val bs) => (s, vals ++ [(e.1, bs)], asks, waits)
    | (s, .wait ids) => (s, vals, asks, waits ++ ids)
    | (s, .ask fwd) => (s, vals, asks ++ [(e.1, e.2, fwd)], waits)) init
  if waits ≠ [] then s.holdOn waits
  else
    let own := s.me.strip.isNone && !asks.isEmpty
    let s := if own then (s.openStrip h s.me.pc 8 64).updMe fun p => { p with strip := p.strip.map fun k => { k with own := true } } else s
    let s := vals.foldl (fun s e => s.fillElem h d.toNat v.vt seg e.1.i e.1.sel e.1.act e.2) s
    let grp := s.nextId
    let (s, ids) := (vrequests f asks).foldl (fun (st : State × List Nat) g => match g with
      | [] => st
      | (a, pl, fwd) :: _ =>
        let (n, dest, fwd) := vask d.toNat v.vt seg a fwd g
        let r : Req := { st.1.me.req h typ pl a.addr.toNat (.read n) dest st.1.me.pc 0x18 with strip := true, fwd := fwd, grp := grp, count := v.vl - a.i, stride := f.stride st.1.me.vs }
        let (s, id) := st.1.send r
        (s, st.2 ++ [id])) (s, [])
    if ids.isEmpty then s.retire 0x18
    else
      let s := (s.noteLoads ids).updMe fun p => { p with fills := p.fills ++ ids.map fun id => (d.toNat, id) }
      if own then s.issueHeld ids else s.retire 0x18
/-- A vector load (R397 to R400). -/
def State.vload (s : State) (d a : BitVec 5) (f : VForm) (rs : List (BitVec 5)) : State :=
  s.withRegs [a] (s.vectorOp 0x18 (d :: rs) fun s =>
    let accs := s.vaccs s.vc f (s.reg a)
    if accs.isEmpty then s.retire 0x18
    else if s.me.inCommit || s.vAtomics accs then
      s.afterCommit fun s => s.withRegs [a] (s.vPlaces f false (s.vaccs s.vc f (s.reg a)) fun s ps => s.vloadFrom d f ps)
    else s.vPlaces f false accs fun s ps => s.vloadFrom d f ps)

/-- What an access of a vector store writes, and its flags (R135, R136, R161). -/
def State.vbytes (s : State) (v : VCtx) (d : BitVec 5) (f : VForm) (a : VAcc) : List WByte × Flags :=
  if f = .segment then
    let e := (segSize v.vt).1
    let (scale, codes, fl) := mxQuantise (a.act.map fun i => (i, (regFloat v.vt).decode (s.elem v d i)))
    let body := (List.range e).flatMap fun b =>
      let code (i : Nat) := (codes.find? fun c => c.1 == i).map fun c => c.2
      match code (a.sel + 2 * b), code (a.sel + 2 * b + 1) with
      | some x, some y => [({ off := b, val := BitVec.ofNat 8 (x % 16 + 16 * y) } : WByte)]
      | some x, none => [{ off := b, nib := 1, val := BitVec.ofNat 8 (x % 16) }]
      | none, some y => [{ off := b, nib := 2, val := BitVec.ofNat 8 (16 * y) }]
      | none, none => []
    let tail := (List.range (a.n - e)).map fun b => ({ off := e + b, val := if b = 0 then BitVec.ofNat 8 scale else 0 } : WByte)
    (body ++ tail, fl)
  else
    let (x, fl) := narrow v.vt (s.elem v d a.i)
    if vtFmt v.vt = 6 then ([{ off := 0, nib := 1 + a.sel, val := BitVec.ofNat 8 (x % 16 * 16 ^ a.sel) }], fl)
    else (wbytes (bytesLE a.n x), fl)
/-- A vector store (R410 to R412). -/
def State.vstore (s : State) (d a : BitVec 5) (f : VForm) (rs : List (BitVec 5)) : State :=
  s.withRegs [a] (s.vectorOp 0x18 (d :: rs) fun s =>
    let v := s.vc
    if v.vl = 0 then s.retire 0x18
    else s.vPlaces f true (s.vaccs v f (s.reg a)) fun s ps =>
      let outs := ps.map fun e => (e.1, e.2, s.vbytes v d f e.1)
      let ws : List Wr := outs.map fun o => { place := o.2.1, addr := o.1.addr.toNat, bs := o.2.2.1, seg := if f = .segment then o.1.n else 0 }
      (s.raiseFlags (outs.foldl (fun a o => a ||| o.2.2.2) 0)).bufferStore 0x18 true (.store s.me.mtype s.me.pc 0x18 ws))

/-- VLD (R397). -/
def execVld (d a : BitVec 5) (s : State) : Out := .next (s.vload d a .unit [])
/-- VLDS (R397). -/
def execVlds (d a : BitVec 5) (s : State) : Out := .next (s.vload d a .strided [])
/-- VLDX (R397). -/
def execVldx (d a b : BitVec 5) (s : State) : Out := .next (s.vload d a (.indexed b) [b])
/-- VLDSEG (R161, R400). -/
def execVldseg (d a : BitVec 5) (s : State) : Out := .next (s.vload d a .segment [])
/-- VST (R410). -/
def execVst (d a : BitVec 5) (s : State) : Out := .next (s.vstore d a .unit [])
/-- VSTS (R410). -/
def execVsts (d a : BitVec 5) (s : State) : Out := .next (s.vstore d a .strided [])
/-- VSTX (R410). -/
def execVstx (d a b : BitVec 5) (s : State) : Out := .next (s.vstore d a (.indexed b) [b])
/-- VSTSEG (R161). -/
def execVstseg (d a : BitVec 5) (s : State) : Out := .next (s.vstore d a .segment [])

end Sys2Proof.Machine
end

