-- ==== Sys2Proof/Machine/MemEvents.lean ====
section
/-! DEFINITION. The steps of the memory system: homes that perform accesses, replies at the memory port, drops, the combining
buffer's idle drain, DRAM servers, and requests from and replies of peers (R70 to R73, R81, R97, R102, R117, R120, R210, R211,
R299, R419, R433). -/

namespace Sys2Proof.Machine

/-- Set POISON in the leaf entry at a physical address, and invalidate its page (R101, R102). -/
def State.poisonLeaf (s : State) (part pteAt : Nat) : State :=
  match (s.part part).physKey pteAt with
  | none => s
  | some k =>
    let e := ofBytesLE (s.hbmRead part k 8)
    let keep (l : List TlbEntry) := l.filter fun x => decide (x.part ≠ part ∨ x.pteAt ≠ pteAt)
    let s := s.hbmStore part k (wbytes (bytesLE 8 (if bitAt e 57 then e else e + 2 ^ 57)))
    { s with tiles := Tab.mapV (fun _ x => { x with l1 := keep x.l1 }) s.tiles, lltlb := Tab.mapV (fun _ l => keep l) s.lltlb }
/-- Poison the page that maps a virtual address (R102). -/
def State.poisonVa (s : State) (part va : Nat) : State :=
  match s.walk part va 3 1 (s.part part).ptroot with
  | .ok e => s.poisonLeaf part e.pteAt
  | .error _ => s
/-- Poison every page that maps a physical address (R71, R102). -/
def State.poisonPhys (s : State) (part phys : Nat) : State :=
  ((s.leaves part 3 1 (s.part part).ptroot).filter fun e => decide (e.2.1 ≤ phys ∧ phys < e.2.1 + e.2.2)).foldl (fun s e => s.poisonLeaf part e.1) s

/-- Poison the pages of the lines among `n` bytes of HBM that cannot be read (R71, R102). -/
def State.poisonLines (s : State) (part key n : Nat) : State :=
  (List.range ((key + n - 1) / 64 + 1 - key / 64)).foldl (fun s i =>
    if Tab.lookD s.hbmBad (key / 64 + i) false then s.poisonPhys part ((s.part part).physOf ((key / 64 + i) * 64)) else s) s
/-- The home has answered an access: data, error, and the capability of a KLD. A server's replies to a tile return in the order of its requests
(R419). -/
def State.answer (s : State) (id : Nat) (data : List Byte) (err : Nat) (c : Cap) : State :=
  match Tab.look s.reqs id with
  | none => s
  | some r =>
    let back : Word := if r.words = [] ∨ r.place.server = none then 0 else pipeReply r.words err
    let s := { s with reqs := Tab.put s.reqs id { r with performed := true, data := data, err := err, capOut := c, back := back } }
    s.laterBehind (if r.place.server = none then fun _ => false else s.replyComes r.tile r.place) (.memoryReply id)
/-- The home performs an access that has reached it (R81, R103, R119, R120, R419): a write whose issuer was killed is not
performed (R248), nor one that failed already. -/
def State.perform (s : State) (id : Nat) : State :=
  match Tab.look s.reqs id with
  | none => s
  | some r =>
    if r.performed then s
    else if r.err ≠ 0 ∨ (r.dropped ∧ r.op.writes) then s.answer id [] r.err {}
    else match r.place with
      | .remote _ _ _ => s
      | .sram k _ =>
        if s.isWithdrawn k r.op.span then s.answer id [] 2 {}
        else match r.op with
          | .read n => s.answer id (s.sramRead k n) 0 {}
          | .capRead => s.answer id [] 0 { bits := BitVec.ofNat 128 (ofBytesLE (s.sramRead k 16)), tag := Tab.lookD s.sramTags (k / 16) false }
          | .write bs => (s.sramStore k bs).answer id [] 0 {}
          | .capWrite c => (s.capToSram k c).answer id [] 0 {}
          | .atomic fn n v w =>
            let old := ofBytesLE (s.sramRead k n)
            (s.sramStore k (wbytes (bytesLE n (atomicNew fn n old v w)))).answer id (bytesLE n old) 0 {}
      | .dram k va =>
        let part := r.part
        let reads : Bool := match r.op with | .write _ | .capWrite _ => false | _ => true
        if (s.part part).key.full = false then s.answer id [] 4 {}
        else if reads && s.hbmFails k r.op.span then
          (if r.typ = 5 then s else if r.typ = 6 then s.poisonPhys part va else s.poisonVa part va).answer id [] 2 {}
        else match r.op with
          | .read n => s.answer id (s.hbmRead part k n) 0 {}
          | .capRead => s.answer id [] 0 { bits := BitVec.ofNat 128 (ofBytesLE (s.hbmRead part k 16)), tag := s.hbmTag part k }
          | .write bs => (s.hbmStore part k bs).answer id [] 0 {}
          | .capWrite c => (s.capToHbm part k c).answer id [] 0 {}
          | .atomic fn n v w =>
            let old := ofBytesLE (s.hbmRead part k n)
            (s.hbmStore part k (wbytes (bytesLE n (atomicNew fn n old v w)))).answer id (bytesLE n old) 0 {}
/-- MEMPIPE_READ (R419). -/
def execMempipeRead (id : Nat) (s : State) : Out := .next (s.perform id)
/-- MEMPIPE_WRITE (R419). -/
def execMempipeWrite (id : Nat) (s : State) : Out := .next (s.perform id)
/-- DRAM_ATOMIC (R119, R120). -/
def execDramAtomic (id : Nat) (s : State) : Out := .next (s.perform id)
/-- GLOBAL_SRAM_ACCESS (R81). -/
def execGlobalSramAccess (id : Nat) (s : State) : Out := .next (s.perform id)

/-- What the record of a fault says that a reply reports (R235). -/
def State.replyInfo (s : State) (r : Req) (vec : Bool) : FInfo :=
  let page := match r.place with
    | .dram _ va => s.pageNum r.part va
    | p => p.addr / 65536 % 2 ^ 32
  let peer := match r.place with
    | .remote q _ _ => if r.err = 7 then q else 0
    | _ => 0
  { pages := [page], addr := some r.addr, aux := peer, count := r.count, stride := r.stride, vec := vec }
/-- A fault of the instruction that made an access and has not completed, or lies in the open strip (R211, R230). -/
def State.raiseReply (s : State) (r : Req) (c : Cause) (vec : Bool) : State :=
  let mine (e : Req) : Bool := decide (e.h = r.h) && (match e.dest with
    | .bulk _ | .cap _ => true
    | _ => false)
  let s := { s with reqs := Tab.mapV (fun _ e => if mine e then { e with dropped := true } else e) s.reqs }
  let s := s.updProc r.h fun p => { p with bulk := none, pc := r.pc }
  s.raiseAt r.h r.opcode c (s.replyInfo r vec)
/-- The process stands at an instruction boundary: no matrix command, TLD, KLD or vector load of its own runs on, and no commit is in
progress (R151, R433). A DSTEP is given up with its PEND, as by a pre-emption (R243). -/
def State.atBoundary (s : State) (h : Nat) : Bool :=
  let p := s.proc h
  let runs (r : Req) : Bool := decide (r.h = h ∧ r.dropped = false) && (match r.dest with
    | .cap _ => true
    | _ => false)
  p.mat.isNone && p.bulk.isNone && !p.inCommit && !(p.strip.any fun k => k.own) && !s.reqs.any fun e => runs e.2
/-- The class Deferred reply of R433, at an instruction boundary: the process parks. A strip opened since the access stays open: its
instructions keep their effects, and the next one goes on inside it. -/
def State.deferredPark (s : State) (r : Req) (d : Nat) (c : Cause) : State :=
  let s := s.unpend r.h d
  s.park r.h (recordOf r.h r.opcode c (s.replyInfo r false) r.pc r.pc) (s.proc r.h).pc .deferred r.pc
/-- Report a dropped store or non-returning atomic, or merge it into the record that waits (R233, R299). -/
def State.dropRecord (s : State) (r : Req) (c : Cause) : State :=
  let t := r.tile
  match (s.tile t).frecs.find? fun f => decide (f.kind = .drop r.h) with
  | some f =>
    let aux := wfield (f.slots.getD 2 0) 30 0
    let other := bitAt (f.slots.getD 2 0).toNat 31 || decide (wfield (f.slots.getD 0 0) 7 0 ≠ c.code)
    let slots := f.slots.set 2 (BitVec.ofNat 64 (aux + 1 + bit1 other * 2 ^ 31))
    let slots := if aux < 4 then slots.set (4 + aux) (BitVec.ofNat 64 r.addr) else slots
    s.updTile t fun x => { x with frecs := x.frecs.map fun g => if g.kind = .drop r.h then { g with slots := slots } else g }
  | none =>
    s.queueRecord t
      { kind := .drop r.h, part := r.part, firmware := decide (1 ≤ (s.proc r.h).pl),
        slots := [recSlot0 r.h (r.opcode % 64) 0 false 0 c.code, BitVec.ofNat 64 r.pc.toNat, 1, 0, BitVec.ofNat 64 r.addr, 0, 0, 0] }
/-- A vector load that was a strip of its own has its last reply: it commits and ends (R154). -/
def State.endOwnLoad (s : State) (h : Nat) : State :=
  match (s.proc h).strip with
  | some k => if k.own && k.loads.isEmpty then (s.commit h).finishHeld h 0x18 else s
  | none => s
/-- The last reply of a TLD or CBTLD ends it (R311, R379). -/
def State.endBulk (s : State) (h op : Nat) : State :=
  let p := s.proc h
  match p.bulk with
  | some b => if p.hold.isEmpty then (((s.bulkWrite p.tile b).updProc h fun p => { p with bulk := none })).finishHeld h op else s
  | none => s
/-- How far an access stands from the first of its instruction: a vector load's count what is left, a TLD or CBTLD its bytes in order. -/
def Req.rank (r : Req) : Nat :=
  match r.dest with
  | .bulk off => off
  | _ => 2 ^ 32 - r.count
/-- A failing reply of a vector load, TLD or CBTLD: once every other access of the instruction has been answered, the lowest element, row or
load that failed decides the cause, and the record lists the pages of that cause; of a TLD UNCORRECTABLE decides only where nothing else fails
(R237, R312, R380). -/
def State.vectorFault (s : State) (id : Nat) (r : Req) : State :=
  let load := if r.grp = 0 then [(id, r)] else s.reqs.filter fun e => decide (e.2.h = r.h ∧ e.2.grp = r.grp) && !e.2.dropped
  if load.any fun e => decide (e.1 ≠ id) && !e.2.failed then
    ({ s with reqs := Tab.put s.reqs id { r with failed := true } }.unsend id).afterCycles 1 (.memoryReply id)
  else
    let late (e : Req) : Bool := decide (e.opcode = 0x30 ∧ errCause e.typ e.err = .uncorrectable)
    let firm := load.filter fun e => !late e.2
    let first := (if firm.isEmpty then load else firm).foldl (fun (a : Req) e =>
      if e.2.rank < a.rank ∨ late a && !late e.2 then e.2 else a) r
    let c := errCause first.typ first.err
    let same := (load.filter fun e => decide (errCause e.2.typ e.2.err = c)).map fun e => e.2
    let sorted := same.foldl (fun (l : List Req) x => l.filter (fun y => decide (y.rank < x.rank)) ++ x :: l.filter fun y => decide (x.rank ≤ y.rank)) []
    let vec := first.opcode = 0x18
    let x := { s.replyInfo first vec with pages := sorted.flatMap fun q => (s.replyInfo q vec).pages }
    let s := ({ s with reqs := Tab.cut s.reqs id }.finish id)
    let s := { s with reqs := Tab.mapV (fun i (q : Req) => if load.any fun e => decide (e.1 = i) then { q with dropped := true } else q) s.reqs }
    (s.updProc r.h fun p => { p with pc := first.pc, bulk := none }).raiseAt r.h first.opcode c x
/-- The answer to an access comes to the memory port of its tile. -/
def State.reply (s : State) (id : Nat) : State :=
  match Tab.look s.reqs id with
  | none => s
  | some r =>
    let p := s.proc r.h
    let out (s : State) : State := { s with reqs := Tab.cut s.reqs id }
    let bs := overlay r.data r.fwd
    let cause := if r.err = 0 then none else some (errCause r.typ r.err)
    let away := decide (p.pst = .parkedFault ∨ p.pst = .haltedDebug ∨ p.res = .swapped)
    if r.dropped then (out s).finish id
    else match r.dest, cause with
      | .stream b off, _ => ((out s).streamAnswer id b off bs cause).finish id
      | .none, none => (out s).finish id
      | .none, some c => ((out s).dropRecord r c).finish id
      | .scalar d n, none =>
        let s := (out s)
        (if d = 0 then s else s.deliver r.h d (sext64 (8 * n) (ofBytesLE bs))).finish id
      | .elem vd i vt sel, none => (((out s).fillElem r.h vd vt false i sel [] bs).finish id).endOwnLoad r.h
      | .seg vd first vt act, none => (((out s).fillElem r.h vd vt true first first act bs).finish id).endOwnLoad r.h
      | .block vd vt els, none =>
        ((els.foldl (fun (s : State) e => s.fillElem r.h vd vt false e.1 e.2.2 [] ((bs.drop e.2.1).take (fmtBytes vt))) (out s)).finish id).endOwnLoad r.h
      | .bulk off, none =>
        let s := (out s).updProc r.h fun p =>
          { p with bulk := p.bulk.map fun b => { b with got := b.got ++ bs.zipIdx.map fun x => (off + x.2, x.1) } }
        (s.finish id).endBulk r.h r.opcode
      | .cap k, none =>
        let c : Cap := match r.op with
          | .capRead => r.capOut
          | _ => { bits := BitVec.ofNat 128 (ofBytesLE bs) }
        (((out s).finish id).updProc r.h fun p => p.setCap k c).finishHeld r.h 0x2A
      | dest, some c =>
        if p.pst = .exited then (out s).finish id
        else if away then (s.unsend id).afterCycles 1 (.memoryReply id)
        else
          match dest with
          | .scalar d _ =>
            if r.strip then ((out s).finish id).raiseReply r c false
            else if s.atBoundary r.h then ((out s).finish id).deferredPark r d c
            else (s.unsend id).afterCycles 1 (.memoryReply id)
          | .elem _ _ _ _ | .seg _ _ _ _ | .block _ _ _ | .bulk _ => s.vectorFault id r
          | _ => ((out s).finish id).raiseReply r c false
/-- MEMORY_REPLY (R97, R419, R433). -/
def execMemoryReply (id : Nat) (s : State) : Out := .next (s.reply id)
/-- CB_IDLE_DRAIN (R117): the entry has been idle for 64 cycles. -/
def execCbIdleDrain (tile entry : Nat) (s : State) : Out :=
  .next (match Tab.look (s.tile tile).cb entry with
    | some e => if e.last + 64 ≤ s.cycle then (s.cbDrain tile entry).1 else s
    | none => s)

/-- The message at the head of a server's request queue: its writer and slots, and how many entries it takes. -/
def State.serverHead (s : State) (v : Nat) : Option (Nat × List Word) :=
  match (s.ep (serverRid v)).queue with
  | [] => none
  | x :: rest => some (x.wid, ((x :: rest).takeWhile fun y => decide (y.wid = x.wid ∧ y.msg = x.msg)).map fun y => y.val)
/-- A server serves a request (R70 to R73): kind 1 reads, 2 writes, 0 answers with ERR 3, as a request of another length than its
header asks for is, be it a READ or a WRITE (log 30). Of several errors 3 comes before 1, 1 before 4 and 4 before 2 (log 82). The reply goes to the
entry that the request names, whichever binding holds it by then, and what it does not use of the reservation falls FREE there (log 82). -/
def State.serveRequest (s : State) (v kind : Nat) (ms : List Word) : State :=
  let part := ((s.parts.find? fun e => e.2.valid && e.2.servers.contains v).map fun e => e.1).getD 16
  let hd := ms.headD 0
  let len := wfield hd 59 55
  let slot := wfield hd 27 0
  let key := v * Config.serverBytes + 8 * slot
  let n := 8 * (len + 1)
  let err := if kind = 0 ∨ (kind = 2 ∧ ms.length ≠ len + 2) ∨ (kind = 1 ∧ ms.length ≠ 1) then 3
    else if 0x0C000000 ≤ slot + len then 1
    else if (s.part part).key.full = false then 4
    else if kind = 1 ∧ s.hbmFails key n then 2 else 0
  let data := if kind = 1 ∧ err = 0 then (List.range (len + 1)).map fun i => BitVec.ofNat 64 (ofBytesLE (s.hbmRead part (key + 8 * i) 8)) else []
  let s := if kind = 2 ∧ err = 0 then s.hbmStore part key (wbytes ((ms.drop 1).flatMap fun w => bytesLE 8 w.toNat)) else s
  let s := if err = 2 then s.poisonLines part key n else s
  let op := if wfield hd 63 60 = 1 then 9 else if wfield hd 63 60 = 2 then 10 else 15
  let reply : Word := BitVec.ofNat 64 (op * 2 ^ 60 + len * 2 ^ 55 + wfield hd 54 47 * 2 ^ 47 + err * 2 ^ 40)
  let (size, e) := replySize { slots := ms }
  let m : Msg := { slots := reply :: data }
  let s := s.consume (serverRid v) ms.length
  let s := (s.updEp e fun y => { y with reserved := y.reserved - size }).addFree e (size - m.size)
  s.netSend { wid := serverWid v, dest := .tile e, body := .data m, part := part, net := 0 }
    (meshLatency (serverTile v) (e / 256) m.size) (.channelMessageArrive (serverWid v))
/-- A step of a server: it serves the request at the head when that is this writer's and of this kind; one whose turn has not
come waits (R73). -/
def State.serverStepAt (s : State) (v wid kind : Nat) (i : Instr) : State :=
  let isKind (ms : List Word) : Bool := decide (serverStep v wid { slots := ms } = i)
  match s.serverHead v with
  | none => s
  | some (w, ms) =>
    if w = wid ∧ isKind ms then s.serveRequest v kind ms
    else if (s.ep (serverRid v)).queue.any fun y => decide (y.wid = wid) then s.afterCycles 1 i else s
/-- DRAM_READ (R70). -/
def execDramRead (srv wid : Nat) (s : State) : Out := .next (s.serverStepAt srv wid 1 (.dramRead srv wid))
/-- DRAM_WRITE (R70). -/
def execDramWrite (srv wid : Nat) (s : State) : Out := .next (s.serverStepAt srv wid 2 (.dramWrite srv wid))
/-- DRAM_BAD_REQUEST (R71). -/
def execDramBadRequest (srv wid : Nat) (s : State) : Out := .next (s.serverStepAt srv wid 0 (.dramBadRequest srv wid))

/-- A remote request as a target reads it (Table 9.13). -/
structure RReq where
  op : Nat
  len : Nat
  afn : Nat
  sz : Nat
  space : Nat
  addr : Nat
  tag : Nat
  rtile : Nat
  rpeer : Nat
  data : List Word
  /-- Bytes that it touches. -/
  n : Nat
  bad : Bool
  deriving Repr
/-- Read the slots of a remote request; `bad` when it is malformed (R210). -/
def rreqOf (ms : List Word) : RReq :=
  let a := ms.headD 0
  let b := ms.getD 1 0
  let op := wfield a 63 60
  let len := wfield a 59 55
  let afn := wfield a 54 52
  let sz := wfield a 51 50
  let addr := wfield a 47 0
  let data := ms.drop 2
  let n := if op = 3 then 2 ^ sz else if len = 0 then 2 ^ sz else 8 * (len + 1)
  let nib := decide (op = 2 ∧ len = 0 ∧ sz = 0 ∧ afn ≤ 2)
  let bad := decide (ms.length < 2 ∨ wfield b 18 0 ≠ 0 ∨ 7 < len ∨ addr % (if len = 0 then 2 ^ sz else 8) ≠ 0 ∨ (len ≠ 0 ∧ sz ≠ 3))
    || bitAt a.toNat 49
    || (match op with
      | 1 => decide (data ≠ [] ∨ afn ≠ 0)
      | 2 => decide (data.length ≠ len + 1) || (decide (afn ≠ 0) && !nib)
      | 3 => decide (len ≠ 0 ∨ sz < 2 ∨ data.length ≠ if afn = 7 then 2 else 1)
      | _ => true)
  { op := op, len := len, afn := afn, sz := sz, space := wfield a 48 48, addr := addr, tag := wfield b 63 56, rtile := wfield b 55 45,
    rpeer := wfield b 44 23, data := data, n := n, bad := bad }
/-- The home of a remote request in the target partition, or the error (Table 9.14). -/
def State.remoteHome (s : State) (part : Nat) (x : RReq) : Except Nat Place :=
  let q := s.part part
  if x.bad then .error 3
  else if q.peers.contains x.rpeer = false then .error 6
  else if q.key.full = false then .error 4
  else if x.space = 0 then
    if 0x80000000 ≤ x.addr ∨ q.inRect (x.addr / 0x100000) = false ∨ q.inBuffer (x.addr % 0x100000) x.n then .error 1
    else if s.isWithdrawn x.addr x.n then .error 2 else .ok (.sram x.addr true)
  else match s.walk part x.addr 3 1 q.ptroot with
    | .error .uncorrectable => .error 2
    | .error _ => .error 5
    | .ok e =>
      if bitAt e.leaf.toNat (Perm.bit (if x.op = 1 then .load else if x.op = 2 then .store else .atomic)) = false then .error 5
      else match q.physKey (field e.leaf.toNat 39 16 * 65536 + x.addr % e.size) with
        | none => .error 1
        | some k => .ok (.dram k x.addr)
/-- Read bytes at a home on this package. -/
def State.readPlace (s : State) (part : Nat) (p : Place) (n : Nat) : List Byte :=
  match p with
  | .sram k _ => s.sramRead k n
  | .dram k _ => s.hbmRead part k n
  | .remote _ _ _ => []
/-- Write bytes at a home on this package. -/
def State.writePlace (s : State) (part : Nat) (p : Place) (bs : List WByte) : State :=
  match p with
  | .sram k _ => s.sramStore k bs
  | .dram k _ => s.hbmStore part k bs
  | .remote _ _ _ => s
/-- The reply goes back on the reverse link (R211). -/
def State.remoteAnswer (s : State) (part : Nat) (x : RReq) (err : Nat) (data : List Byte) : State :=
  let op := if 1 ≤ x.op ∧ x.op ≤ 3 then x.op + 8 else 15
  let hd : Word := BitVec.ofNat 64 (op * 2 ^ 60 + x.len * 2 ^ 55 + x.tag * 2 ^ 47 + err * 2 ^ 40 + x.rtile * 2 ^ 29)
  let ds := (List.range (cdiv data.length 8)).map fun i => BitVec.ofNat 64 (ofBytesLE ((data.drop (8 * i)).take 8))
  s.linkSend part x.rpeer 1 x.rtile 0 (hd :: ds) 0
/-- The home of a remote request: a slice, or the partition's DRAM (R210). -/
def homeOf (body : List Word) : Nat := if bitAt (body.headD 0).toNat 48 then 0 else wfield (body.headD 0) 47 20 + 1
/-- The step performs a remote request at the home: a home performs them in arrival order (R210, log 83). -/
def performs (part home : Nat) (i : Instr) : Bool :=
  match i with
  | .remoteRead p b | .remoteWrite p b | .remoteAtomic p b => p == part && homeOf b == home
  | _ => false
/-- A remote request waits at its home, and those that came after it wait behind it (R101, R210). -/
def State.holdHome (s : State) (part home : Nat) (i : Instr) : State :=
  let behind := s.events.filter fun e => performs part home e.2
  let s := { s with events := s.events.filter fun e => !performs part home e.2 }
  behind.foldl (fun (s : State) e => { s with events := insertDue (max e.1 (s.cycle + 1)) e.2 s.events }) (s.afterCycles 1 i)
/-- A target performs a remote request as a local access of its kind and answers it (R210, R211); a store or atomic to a page under
migration waits (R101), and a line of a table that the walk cannot read poisons its page (R102). -/
def State.remoteServe (s : State) (part : Nat) (ms : List Word) : State :=
  let x := rreqOf ms
  match s.remoteHome part x with
  | .error e =>
    let s := match s.walkBad part x.addr 3 1 (s.part part).ptroot with
      | some k => if e = 2 ∧ x.space = 1 then s.poisonPhys part ((s.part part).physOf k) else s
      | none => s
    s.remoteAnswer part x e []
  | .ok p =>
    let held : Bool := match p with
      | .dram k _ => decide (x.op ≠ 1) && (s.migrating part k).isSome
      | _ => false
    if held then s.holdHome part (homeOf ms) (if x.op = 2 then .remoteWrite part ms else .remoteAtomic part ms) else
    let fails : Bool := match p with
      | .dram k _ => decide (x.op ≠ 2) && s.hbmFails k x.n
      | _ => false
    if fails then (s.poisonVa part x.addr).remoteAnswer part x 2 []
    else
      let v := (x.data.flatMap fun w => bytesLE 8 w.toNat)
      match x.op with
      | 1 => s.remoteAnswer part x 0 (s.readPlace part p x.n)
      | 2 =>
        let bs := (wbytes (v.take x.n)).map fun b => { b with nib := x.afn }
        (s.writePlace part p bs).remoteAnswer part x 0 []
      | _ =>
        let old := ofBytesLE (s.readPlace part p x.n)
        let new := atomicNew x.afn x.n old ((x.data.headD 0).toNat % 256 ^ x.n) ((x.data.getD 1 0).toNat % 256 ^ x.n)
        (s.writePlace part p (wbytes (bytesLE x.n new))).remoteAnswer part x 0 (if 5 ≤ x.afn then bytesLE 8 old else [])
/-- REMOTE_READ (R210). -/
def execRemoteRead (part : Nat) (slots : List (BitVec 64)) (s : State) : Out := .next (s.remoteServe part slots)
/-- REMOTE_WRITE (R210). -/
def execRemoteWrite (part : Nat) (slots : List (BitVec 64)) (s : State) : Out := .next (s.remoteServe part slots)
/-- REMOTE_ATOMIC (R210). -/
def execRemoteAtomic (part : Nat) (slots : List (BitVec 64)) (s : State) : Out := .next (s.remoteServe part slots)
/-- REMOTE_REPLY (R211): the reply completes or faults the access whose tag it echoes. -/
def execRemoteReply (part : Nat) (slots : List (BitVec 64)) (s : State) : Out :=
  .next (let hd := slots.headD 0
         let tag := wfield hd 54 47
         match s.remotes.find? fun x => decide (x.tile = wfield hd 39 29 ∧ x.tag = tag ∧ (s.reqs.any fun e => decide (e.1 = x.req ∧ e.2.part = part))) with
         | none => s
         | some x =>
           match Tab.look s.reqs x.req with
           | none => s
           | some r =>
             let data := ((slots.drop 1).flatMap fun w => bytesLE 8 w.toNat).take r.op.span
             let s := { s with remotes := s.remotes.filter (· ≠ x),
                               reqs := Tab.put s.reqs x.req { r with performed := true, err := wfield hd 46 40, data := data } }
             s.reply x.req)

end Sys2Proof.Machine
end

