-- ==== Sys2Proof/Machine/ChanEvents.lean ====
section
/-! DEFINITION. The steps of the channel protocol: registrations, credits, arrivals, moves, and refusals by relays (R20, R56,
R64, R69, R209, R309, R318, R434). -/

namespace Sys2Proof.Machine

/-- The first message of a list that satisfies `f`, and the list without it. -/
def takeFirst {α : Type} (f : α → Bool) : List α → Option (α × List α)
  | [] => none
  | x :: t => if f x then some (x, t) else (takeFirst f t).map fun r => (r.1, x :: r.2)
/-- The body of a data message. -/
def NetBody.isData : NetBody → Bool
  | .data _ => true
  | _ => false
/-- The oldest message under way that a step of writer `w` is about. -/
def State.netTake (s : State) (w : Nat) (f : NetBody → Bool) : Option (NetMsg × State) :=
  (takeFirst (fun m => decide (m.wid = w) && f m.body) s.net).map fun r => (r.1, { s with net := r.2 })

/-- A writer's registration is refused in determinate mode: nothing is bound, and CBIND faults (R309). -/
def State.refuseWriter (s : State) (h c : Nat) : State :=
  let s := s.updProc h fun p => p.setChan c {}
  if (s.proc h).pst = .blockedWrite c then s.raiseAt h 0x28 .detViolation {} else s
/-- A writer's registration has been recorded: a CBIND of determinate mode completes (R309). -/
def State.bindDone (s : State) (h c : Nat) : State :=
  let p := s.proc h
  let s := s.updChan h c fun x => { x with registered := true }
  if p.pst = .blockedWrite c ∧ p.need = waitOnly ∧ p.det then s.completeAt h 0x28 (p.pc + 4) else s
/-- The target entry records a writer, which gets every FREE slot (R56); in determinate mode a second one is refused (R20). -/
def State.recordWriter (s : State) (rid w : Nat) : State :=
  let e := s.ep rid
  let free := e.free
  let s := s.updEp rid fun e => { e with writers := e.writers ++ [w], free := 0, came := Tab.cut e.came w }
  let s := if e.bound then s.grantCredit rid w free else s
  let s := if isRemoteWid w then s.ctrlSend (s.ridPart rid) (remotePeer w) 11 (remoteOf w) rid 0 0 else s
  s.serveAll rid
/-- WRITER_REGISTRATION (R308, R309). -/
def execWriterRegistration (wid : Nat) (s : State) : Out :=
  .next (match s.netTake wid (fun b => match b with | .register _ => true | _ => false) with
    | none => s
    | some (m, s) =>
      match m.dest.rid with
      | none => s
      | some rid =>
        let det := decide (m.body = .register true)
        let s := if rid < 1048576 ∨ (s.ep rid).bound then s
          else
            let cap := if rid < 2097152 then (Tab.lookD s.hostEps (rid - 1048576) {}).cap else 4096
            s.updEp rid fun e => { e with bound := true, bcap := cap, cap := cap, free := cap }
        if isProcWid wid then
          let h := widProc wid
          let c := widReg wid
          let x := (s.proc h).chan c
          if x.role ≠ .writer ∨ x.dest ≠ m.dest then s
          else if det ∧ (s.ep rid).writers ≠ [] then s.refuseWriter h c
          else (s.recordWriter rid wid).bindDone h c
        else if isRemoteWid wid ∧ det ∧ (s.ep rid).writers ≠ [] then
          s.ctrlSend (s.ridPart rid) (remotePeer wid) 7 (remoteOf wid) rid 0 0
        else s.recordWriter rid wid)
/-- A request joins those that wait at a reader, or takes the place of the writer's own earlier one. -/
def askFor (w n : Nat) (l : List (Nat × Nat)) : List (Nat × Nat) :=
  if l.any fun q => decide (q.1 = w) then l.map fun q => if q.1 = w then (w, n) else q else l ++ [(w, n)]
/-- SHORTFALL_REQUEST (R56). -/
def execShortfallRequest (wid : Nat) (s : State) : Out :=
  .next (match s.netTake wid (fun b => match b with | .shortfall _ => true | _ => false) with
    | none => s
    | some (m, s) =>
      match m.dest.rid, m.body with
      | some rid, .shortfall n =>
        if (s.ep rid).writers.contains wid then (s.updEp rid fun e => { e with shortfalls := askFor wid n e.shortfalls }).serveAll rid else s
      | _, _ => s)
/-- CREDIT_RECALL (R56): the writer returns every credit that no staged message has spent. -/
def execCreditRecall (wid : Nat) (s : State) : Out :=
  .next (match s.netTake wid (fun b => decide (b = .recall)) with
    | none => s
    | some (m, s) =>
      let h := widProc wid
      let c := widReg wid
      let x := (s.proc h).chan c
      let mine := isProcWid wid && decide (x.role = .writer ∧ x.dest = m.dest)
      let n := if mine then x.credits else if isProcWid wid then 0 else (Tab.lookD s.hostEps (wid - 2 ^ 40) {}).credits
      let s := if mine then
          let s := s.updChan h c fun x => { x with credits := 0 }
          let p := s.proc h
          if p.pst = .blockedWrite c ∧ p.need < waitOnly ∧ n ≠ 0 ∧ x.asked ≠ 0 then s.adjustAsk h c p.need else s
        else if isProcWid wid then s
        else { s with hostEps := Tab.upd s.hostEps (wid - 2 ^ 40) fun k => { k with credits := 0 } }
      match m.dest with
      | .peer p e => s.ctrlSend (s.proc h).part p 12 (widOf h c) e n 0
      | d => match d.rid with
        | some rid => (s.updEp rid fun e => { e with recalled := e.recalled.filter (· ≠ wid) }).addFree rid n
        | none => s)
/-- CREDIT_RETURN (R56, R434). -/
def execCreditReturn (wid : Nat) (s : State) : Out :=
  .next (match s.netTake wid (fun b => match b with | .credit _ _ _ => true | _ => false) with
    | none => s
    | some (m, s) => match m.body with
      | .credit n bcap once => s.gainCredit wid n bcap once m.dest
      | _ => s)
/-- A kill's window at the tile of a message's reader discards it (R247). -/
def State.inWindow (s : State) (m : NetMsg) : Bool :=
  s.kills.any fun e => decide (e.2.part = m.part ∧ e.2.net = m.net) && e.2.windows.any fun t => m.dest.onTile t
/-- A push of a network in checking mode to a host endpoint is digested, and discarded in run A or held in the Caldera in run B
(R124), where it fits (R255); a monitor's channel has no digest (R126). One that does not fit ends the run, at the tile of its writer (log 62). -/
def State.checkOutput (s : State) (n wid part net : Nat) (m : Msg) : State :=
  let rid := hostRid n
  let put (l : List (Nat × Word × Word)) : List (Nat × Word × Word) :=
    let old := ((l.find? fun x => decide (x.1 = rid)).map fun x => x.2).getD (0, 0)
    (l.filter fun x => decide (x.1 ≠ rid)) ++ [(rid, digestMsg old.1 m, old.2 + 1)]
  let b := decide (s.checkOf part net = 2)
  let s := if s.monitored rid then s
    else s.updNet part net fun x => if b then { x with digestsB := put x.digestsB } else { x with digestsA := put x.digestsA }
  let q := s.part part
  let s := if b then
      (if q.calsize / 8 < q.calUsed + m.size then s.failRun part net (s.widTile wid)
       else (s.updNet part net fun x => { x with outputs := x.outputs ++ [(n, m)] }).updPart part fun q => { q with calUsed := q.calUsed + m.size })
    else s
  if (s.ep rid).bound then s.giveBack rid wid m.size else s
/-- The other writers whose message for the same reader is due by this cycle (R64). -/
def State.contenders (s : State) (wid rid : Nat) : List Nat :=
  distinct ((s.events.filterMap fun e => if s.cycle < e.1 then none else match e.2 with
    | .channelMessageArrive w => if w ≠ wid ∧ (s.net.find? fun m => decide (m.wid = w) && m.body.isData).any (fun m => decide (m.dest.rid = some rid))
        then some w else none
    | _ => none))
/-- The arbiter lets a writer's message go first (R64, R125): one alone always does; of several the choice is free, or the seed's. -/
def State.goesFirst (s : State) (part wid rid : Nat) : Bool :=
  let l := s.contenders wid rid
  l.isEmpty || decide (s.drawn part (arriveArbiter rid) % (l.length + 1) = 0)
/-- A message for a peer is at the egress engine; the flood of a kill has come to the engine with its package (R247). -/
def State.reachEngine (s : State) (m : NetMsg) (x : Msg) : State :=
  match m.dest with
  | .peer p e => s.toPeer m.wid p e x m.part
  | _ => s
/-- The questions about the messages of peers' writers that an entry can answer are answered: to the peer, or to the move that waits (R69, R218,
log 18). -/
def State.answerProbes (s : State) (rid : Nat) : State :=
  let e := s.ep rid
  let here (q : Nat × Nat × Nat) : Bool := !e.bound || decide (q.2.1 ≤ Tab.lookD e.came q.1 0)
  (e.probes.filter here).foldl (fun (s : State) q =>
    if q.2.2 = 0 then s.ctrlSend (s.ridPart rid) (remotePeer q.1) 14 (remoteOf q.1) rid q.2.1 7
    else s.afterCycles 1 (.retargetAck (q.2.2 - 1) q.1)) (s.updEp rid fun e => { e with probes := e.probes.filter fun q => !here q })
/-- One is asked. -/
def State.askCame (s : State) (rid wid n mv : Nat) : State :=
  (s.updEp rid fun e => { e with probes := e.probes ++ [(wid, n, mv)] }).answerProbes rid
/-- One more message of a peer's writer has come to an entry, or will not come (R218). -/
def State.noteCame (s : State) (rid wid : Nat) : State :=
  if isRemoteWid wid && (s.ep rid).bound then
    (s.updEp rid fun e => { e with came := Tab.put e.came wid (Tab.lookD e.came wid 0 + 1) }).answerProbes rid
  else s
/-- CHANNEL_MESSAGE_ARRIVE (R19, R64, R76, R124): a reader begins to write one message in a cycle; a message that finds it taken, or
that the arbiter does not choose, comes in the next. One for a peer comes to the egress engine (R226). -/
def execChannelMessageArrive (wid : Nat) (s : State) : Out :=
  .next (match s.netTake wid NetBody.isData with
    | none => s
    | some (m, t) =>
      let rid := (m.dest.rid).getD deadEp
      if (s.ep rid).wrote = some s.cycle then s.afterCycles 1 (.channelMessageArrive wid)
      else if s.goesFirst m.part wid rid = false then (s.afterDraw m.part (arriveArbiter rid)).afterCycles 1 (.channelMessageArrive wid)
      else
      let s := (if (s.contenders wid rid).isEmpty then t else t.afterDraw m.part (arriveArbiter rid)).noteCame rid wid
      match m.dest.rid, m.body with
      | none, .data x => s.reachEngine m x
      | some rid, .data x =>
        if s.inWindow m then (if (s.ep rid).bound then s.addFree rid x.size else s)
        else match m.dest with
          | .host n => if s.checkOf m.part m.net ≠ 0 then s.checkOutput n wid m.part m.net x else s.arrive rid wid x
          | _ => s.arrive rid wid x
      | _, _ => s)

/-- Data of a writer is still under way. -/
def State.flying (s : State) (w : Nat) : Bool :=
  s.net.any fun m => decide (m.wid = w) && (match m.body with | .data _ => true | _ => false)
/-- A writer stops injecting until its reader has moved (R69). -/
def State.freezeWriter (s : State) (w : Nat) : State :=
  if isProcWid w then s.updChan (widProc w) (widReg w) fun x => { x with frozen := true } else s
/-- A writer goes on toward its reader's new place, with its credits unchanged (R69); the messages to it are counted anew. -/
def State.thawWriter (s : State) (w : Nat) (d : Dest) : State :=
  if isProcWid w then
    let h := widProc w
    let c := widReg w
    let s := s.updChan h c fun x => { x with frozen := false, dest := d, sent := 0, relayOut := 0, probe := none }
    if (s.proc h).need < waitOnly then s.wake h (.blockedWrite c) else s
  else match d with
    | .tile e => { s with hostEps := Tab.upd s.hostEps (w - 2 ^ 40) fun k => { k with tep := e } }
    | _ => s
/-- The issuer of a move goes on (R69). -/
def State.moveDone (s : State) (mv : Nat) (m : Move) : State :=
  let s := { s with moves := Tab.cut s.moves mv }
  let p := s.proc m.issuer
  if p.pst = .blockedWrite m.c ∧ p.need = waitOnly then s.completeAt m.issuer 0x28 (p.pc + 4) else s
/-- Whoever retains entries of an endpoint that gets another number knows it by that (R69). -/
def Strip.follow (old new : Nat) (k : Strip) : Strip :=
  match Tab.look k.kept old with
  | some n => { k with kept := Tab.put (Tab.cut k.kept old) new (n + Tab.lookD k.kept new 0) }
  | none => k
/-- Whoever retains entries of an endpoint that leaves for a peer tells them by the end's number there (R69, log 18). -/
def Strip.followAway (old peer there part : Nat) (k : Strip) : Strip :=
  match Tab.look k.kept old with
  | some n => { k with kept := Tab.cut k.kept old, keptAway := k.keptAway ++ [(peer, there, part, n)] }
  | none => k
/-- What a process's open strip retains of its channel `c`, whose end moves, is kept by the endpoint's number `e` (R69). -/
def Strip.keep (c e : Nat) (k : Strip) : Strip :=
  let n := Tab.lookD k.retained c 0
  { k with retained := Tab.cut k.retained c, kept := if n = 0 then k.kept else Tab.put k.kept e (Tab.lookD k.kept e 0 + n) }
/-- Change every open strip. -/
def State.mapStrips (s : State) (f : Strip → Strip) : State :=
  { s with procs := Tab.mapV (fun _ p => { p with strip := p.strip.map f }) s.procs }
/-- The first slot of a request to a DRAM server, its reply endpoint `old` replaced (Table 3.7). -/
def readdress (old new : Nat) (w : Word) : Word := if wfield w 46 28 = old then BitVec.ofNat 64 (w.toNat - old * 2 ^ 28 + new * 2 ^ 28) else w
def Msg.readdress (old new : Nat) (m : Msg) : Msg := { m with slots := (m.slots.take 1).map (Machine.readdress old new) ++ m.slots.drop 1 }
/-- The same in the queue of a server. -/
def readdressQueue (old new : Nat) (q : List QSlot) : List QSlot :=
  (q.zip (none :: q.map fun x => some x.msg)).map fun x =>
    if x.2 = some x.1.msg then x.1 else { x.1 with val := Machine.readdress old new x.1.val }
/-- The replies that DRAM servers owe an entry go to its new place: its requests, held, staged, under way and queued, name that (R69, R72). -/
def State.readdress (s : State) (old new : Nat) : State :=
  let held (h : Nat) (x : Held) : Held := match x with
    | .push c m => match ((s.proc h).chan c).dest with
      | .server _ => .push c (m.readdress old new)
      | _ => x
    | _ => x
  let onNet (x : NetMsg) : NetMsg := match x.dest, x.body with
    | .server _, .data m => { x with body := .data (m.readdress old new) }
    | _, _ => x
  let staged (x : Staged) : Staged := match ((s.proc x.h).chan x.c).dest with
    | .server _ => if x.tree.isNone then { x with msg := x.msg.readdress old new } else x
    | _ => x
  { s with procs := Tab.mapV (fun h p => { p with strip := p.strip.map fun k => { k with held := k.held.map (held h) } }) s.procs
           net := s.net.map onNet
           staged := s.staged.map staged
           eps := Tab.mapV (fun i e => if i < 2097152 then e else { e with queue := readdressQueue old new e.queue }) s.eps }
/-- The endpoint moves to Q's tile on this package (R69, steps 3 to 5). What P's open strip retains stays retained at the head of the
queue until that strip commits or restarts. Where the tile's buffer area has no run that fits, the run lies behind the area and takes
none of it; writers that registered at the new entry before stay registered there (log 82). -/
def State.moveReader (s : State) (m : Move) : State :=
  let old := ((s.proc m.p).chan m.c).dest
  match old.rid with
  | none => s
  | some rid =>
    let t := (s.proc m.q).tile
    match s.freeIndex t with
    | none => s
    | some i =>
      let new := t * 256 + i
      let e := s.ep rid
      let run := (s.bufferRun t e.bcap).getD 0x100000
      let ret := (s.proc m.p).retained m.c
      let turn (d : Dest) : Dest := if d = old then .tile new else d
      let early := (s.ep new).writers
      let moved : Endpoint := { e with owner := widOf m.q m.c, run := run, kept := e.kept + ret, came := [], probes := []
                                       writers := e.writers ++ early }
      let s := (s.leaveRun rid).readdress rid new
      let s := { s with eps := Tab.put (Tab.cut s.eps rid) new moved
                        net := s.net.map fun (x : NetMsg) => { x with dest := turn x.dest } }
      let s := (s.updProc m.p fun p => { p with strip := p.strip.map (Strip.keep m.c rid) }).mapStrips (Strip.follow rid new)
      let s := (s.updChan m.p m.c fun _ => {}).updChan m.q m.c fun _ => { role := .reader, dest := .tile new, registered := true }
      let s := e.writers.foldl (fun s w =>
        if isRemoteWid w then s.ctrlSend (s.proc m.q).part (remotePeer w) 10 (remoteOf w) new rid 0 else s.thawWriter w (.tile new)) s
      (early.foldl (fun s w => s.grantCredit new w 0) s).injectAll
/-- A number by which a writer of an entry is known at another package: its peer id and its own number there. -/
def State.outWid (s : State) (w : Nat) : Word :=
  BitVec.ofNat 64 (if isRemoteWid w then remotePeer w * 2 ^ 40 + remoteOf w else s.ownId.toNat * 2 ^ 40 + w)
/-- The number here of a writer so known. -/
def State.inWid (s : State) (x : Word) : Nat :=
  if x.toNat / 2 ^ 40 = s.ownId.toNat then x.toNat % 2 ^ 40 else remoteWid (x.toNat / 2 ^ 40) (x.toNat % 2 ^ 40)
/-- A moved end leaves for a peer (R69, log 18): a message with the end, its counts, writers and requests, then one for each slot of a
queue. -/
def State.moveAway (s : State) (m : Move) : State :=
  let x := (s.proc m.p).chan m.c
  let part := (s.proc m.p).part
  let there := widOf m.q m.c
  let n (k : Nat) : Word := BitVec.ofNat 64 k
  let s := match m.reader, x.dest with
    | true, .tile e =>
      let y := s.ep e
      let s := s.leaveRun e
      let kept := y.kept + (s.proc m.p).retained m.c
      let s := (s.updProc m.p fun p => { p with strip := p.strip.map (Strip.keep m.c e) }).mapStrips (Strip.followAway e m.peer there part)
      let s := s.ctrlSendMore part m.peer 15 there e y.writers.length (1 + 2 * bit1 y.once)
        ([n y.bcap, n y.cap, n y.free, y.arrived, y.consumed, n kept] ++ y.writers.map s.outWid
          ++ y.shortfalls.flatMap fun (q : Nat × Nat) => [s.outWid q.1, n q.2])
      let s := y.queue.foldl (fun (s : State) (q : QSlot) =>
        s.ctrlSendMore part m.peer 0 there e 0 (bit1 q.marker + 2 * bit1 q.tagged) [q.val, n q.msg, s.outWid q.wid]) s
      let s := match s.partOfTile (e / 256) with
        | some k => s.updPart k fun q => { q with calUsed := q.calUsed - (y.cap - y.bcap) }
        | none => s
      { s with eps := Tab.cut s.eps e }
    | false, .tile e =>
      let old := widOf m.p m.c
      let under := (s.net.filter fun (y : NetMsg) => decide (y.wid = old) && y.body.isData).length
      (s.ctrlSendMore part m.peer 15 there e 0 (4 * bit1 x.granted + 2 * bit1 x.once) [n x.bcap, n x.credits, n s.ownId.toNat, n under]).renameWid
        old (remoteWid m.peer there)
    | false, .peer p e =>
      let s := s.flushPeer (widOf m.p m.c)
      let s := s.ctrlSendMore part m.peer 15 there e 0 (4 * bit1 x.granted + 2 * bit1 x.once) [n x.bcap, n x.credits, n p, n x.sent]
      s.ctrlSendMore part p 14 (widOf m.p m.c) e 0 0 [n (m.peer * 2 ^ 40 + there)]
    | _, _ => s
  s.updChan m.p m.c fun _ => {}
/-- A peer asks whether process `widProc w` can take a channel end (R69). Where it can, its register is bound at once, as a writer that holds
its messages back or a reader at the lowest free entry of its tile, and waits for the end (log 18). -/
def State.roomForEnd (s : State) (part src w mv bcap : Nat) (reader : Bool) : State :=
  let h := widProc w
  let c := widReg w
  let p := s.proc h
  let known := (Tab.look s.procs h).isSome && decide (p.part = part ∧ p.pst ≠ .exited) && p.atRest
  let slot := s.freeIndex p.tile
  if known = false ∨ (p.chan c).role ≠ .unbound ∨ (reader && slot.isNone) then s.ctrlSend part src 14 w 0 mv 6
  else
    let s := if reader then
        let id := p.tile * 256 + slot.getD 0
        (s.updEp id fun e => { e with bound := true, owner := w, bcap := bcap, cap := bcap, run := (s.bufferRun p.tile bcap).getD 0x100000 }).updChan h c
          fun _ => { role := .reader, dest := .tile id, registered := true }
      else s.updChan h c fun _ => { role := .writer, dest := .peer src 0, frozen := true }
    s.ctrlSend part src 14 w 0 mv 5
/-- A channel end from a peer comes to the register of Q that waits for it: a writer, or a reader, of whose place every writer is told (R69,
log 18). Where Q has ended meanwhile, so has the end. -/
def State.moveInEnd (s : State) (part w e k more : Nat) (extra : List Word) : State :=
  let q := widProc w
  let c := widReg w
  let f (i : Nat) : Nat := (extra.getD i 0).toNat
  let x := (s.proc q).chan c
  let ends : Bool := decide ((s.proc q).pst = .exited)
  if more % 2 = 0 then
    let d : Dest := if f 2 = s.ownId.toNat then .tile e else .peer (f 2) e
    let s := s.updChan q c fun _ => { role := .writer, dest := d, credits := f 1, bcap := f 0, once := bitAt more 1, granted := bitAt more 2,
                                      registered := true, sent := f 3 }
    if ends then (s.leaveReader q c).updProc q fun p => p.setChan c {}
    else if (s.proc q).need < waitOnly then s.wake q (.blockedWrite c) else s
  else
    let ws := ((extra.drop 6).take k).map s.inWid
    let asks := extra.drop (6 + k)
    let short := (List.range (asks.length / 2)).map fun i => (s.inWid (asks.getD (2 * i) 0), (asks.getD (2 * i + 1) 0).toNat)
    match ends, x.role, x.dest with
    | false, .reader, .tile id =>
      let was := (s.ep id).writers
      let s := s.updEp id fun y => { y with bcap := f 0, cap := f 1, once := bitAt more 1, free := f 2, writers := ws ++ y.writers, shortfalls := short,
                                            arrived := extra.getD 3 0, consumed := extra.getD 4 0, kept := f 5 }
      let s := s.updPart part fun p => { p with calUsed := p.calUsed + (f 1 - f 0) }
      let s := ws.foldl (fun s v =>
        if isRemoteWid v then s.ctrlSend part (remotePeer v) 10 (remoteOf v) id e 0
        else s.thawWriter v (.tile id)) s
      (was.foldl (fun s v => s.grantCredit id v 0) s).injectAll
    | _, _, _ => ws.foldl (fun (s : State) v =>
        if isRemoteWid v then s.ctrlSend part (remotePeer v) 6 (remoteOf v) e 0 0
        else (s.thawWriter v (.tile deadEp)).dropWriters deadEp [v]) s
/-- A slot of the queue of a reader that has come from a peer, or the end of entries that an open strip there retained (R69, log 18). -/
def State.moveInSlot (s : State) (w more : Nat) (extra : List Word) : State :=
  match ((s.proc (widProc w)).chan (widReg w)).dest.rid with
  | none => s
  | some id =>
    if bitAt more 2 || bitAt more 3 then (s.endKeptAt id (extra.getD 0 0).toNat (bitAt more 2)).wakeReader id
    else
    let m := (extra.getD 1 0).toNat
    let s := s.updEp id fun y =>
      let cal := (y.queue.any fun x => x.cal) || decide (y.bcap ≤ y.queue.length)
      { y with nextMsg := m + 1, queue := y.queue ++ [{ val := extra.getD 0 0, marker := more % 2 = 1, wid := s.inWid (extra.getD 2 0), msg := m,
                                                         tagged := bitAt more 1, cal := cal }] }
    s.wakeReader id
/-- The open strip of a process holds messages of its channel `c` staged (R63); a move waits for them (log 95). -/
def Proc.pushesHeld (p : Proc) (c : Nat) : Bool :=
  (p.strip.map fun k => k.held.any fun x => match x with
    | .push d _ | .ksend d _ _ => decide (d = c)
    | _ => false).getD false
/-- Every writer has acknowledged, or P's staged messages are injected: the end moves (R69). To a peer it moves once no reply of a DRAM server
to it is outstanding (log 82). -/
def State.moveEnd (s : State) (mv : Nat) (m : Move) : State :=
  let own := decide (m.peer = s.ownId.toNat)
  if m.reader then
    let y := s.ep ((((s.proc m.p).chan m.c).dest.rid).getD deadEp)
    if own then (s.moveReader m).moveDone mv m
    else if y.reserved ≠ 0 then s.afterCycles 1 (.retargetAck mv 0)
    else
      let ws := y.writers
      let s := s.moveAway m
      if ws.any isProcWid then { s with moves := Tab.put s.moves mv { m with waiting := ws } } else s.moveDone mv m
  else if s.unsettled m.p m.c || (s.proc m.p).pushesHeld m.c then
    (s.askArrived (s.proc m.p).part (widOf m.p m.c)).afterCycles 1 (.retargetAck mv 0)
  else if own then (s.moveWriter m.p m.c m.q).moveDone mv m
  else (s.moveAway m).moveDone mv m
/-- A peer has answered whether Q has room for the end: the move begins, or the CBIND faults PROTECTION and has changed nothing (R69). -/
def State.moveAnswered (s : State) (mv : Nat) (room : Bool) : State :=
  match Tab.look s.moves mv with
  | none => s
  | some m =>
    if room then
      let ws := if m.reader then (s.ep ((((s.proc m.p).chan m.c).dest.rid).getD deadEp)).writers else [0]
      s.moveStart mv { m with waiting := ws }
    else
      let s := { s with moves := Tab.cut s.moves mv }
      let p := s.proc m.issuer
      if p.pst = .blockedWrite m.c ∧ p.need = waitOnly then s.raiseAt m.issuer 0x28 .protection {} else s
/-- RETARGET_NOTICE (R69): the writer stops injecting, and acknowledges once what it injected has been accepted. -/
def execRetargetNotice (mv wid : Nat) (s : State) : Out :=
  .next (match Tab.look s.moves mv with
    | none => s
    | some m =>
      if isRemoteWid wid then
        s.ctrlSend (s.proc m.p).part (remotePeer wid) 8 (remoteOf wid) ((((s.proc m.p).chan m.c).dest.rid).getD 0) mv 0
      else
        let s := s.freezeWriter wid
        if s.flying wid then s.afterCycles 1 (.retargetNotice mv wid) else s.later (.retargetAck mv wid))
/-- RETARGET_ACK (R69): that of a peer's writer holds once its messages have all been accepted here. -/
def execRetargetAck (mv wid : Nat) (s : State) : Out :=
  .next (match Tab.look s.moves mv with
    | none => s
    | some m =>
      if isRemoteWid wid && s.flying wid then s.afterCycles 1 (.retargetAck mv wid)
      else
      let m := { m with waiting := m.waiting.filter (· ≠ wid) }
      let s := { s with moves := Tab.put s.moves mv m }
      if m.waiting.isEmpty then s.moveEnd mv m else s)

/-- RELAY_FORWARD (R208, R209): the message goes on over the lanes of the partition that owns the arrival lane; without lanes it
is refused. -/
def execRelayForward (part vnet : Nat) (slots : List (BitVec 64)) (s : State) : Out :=
  .next (let rw := slots.headD 0
         let d := Tab.lookD s.directPeers (wfield rw 61 51) 0
         let q := wfield d 21 0
         if bitAt d.toNat 63 = false ∨ s.laneList part q = [] then s.emit (.refusal part slots)
         else
           let rw := routeWord (wfield rw 63 62 - 1) (wfield rw 50 40) 0 (wfield rw 39 29) (routeIndex rw)
           (s.updLink part q fun k => { k with txq := k.txq ++ toFlits vnet 40 true (rw :: slots.drop 1) }).transmit part q 40)
/-- Messages of a writer that wait at the link go back into its source endpoint, ahead of what it has staged (R318). -/
def State.backToStage (s : State) (h c part p : Nat) : State :=
  let mine (w : Nat × List Word × Nat) : Bool := decide (w.1 = 2 ∧ w.2.2 = widOf h c)
  let back : List Staged := ((s.link part p).waiting.filter mine).map fun w =>
    let body := w.2.1.drop 1
    let data := plainBody body
    { h := h, c := c, msg := { slots := data, marker := data.isEmpty, tagged := decide (32 < body.length) && bitAt (body.headD 0).toNat 40 }, after := [] }
  if back.isEmpty then s
  else { s.updLink part p fun k => { k with waiting := k.waiting.filter fun w => !mine w } with staged := back ++ s.staged }
/-- RELAY_REFUSAL (R209, R318): the message is discarded and its credits return; what is staged behind it is held, and the writer's
next use of the channel faults. The number is the writer's plus 2^42 for each message that left before it since the register was bound
(log 80). The peer is told that it will not come (log 18). The refusal of an access is its LEASE_FAULT. -/
def execRelayRefusal (wid : Nat) (s : State) : Out :=
  .next (if 2 ^ 67 ≤ wid then
      match Tab.look s.reqs (wid - 2 ^ 67) with
      | some r =>
        let s := { s with remotes := s.remotes.filter fun x => decide (x.req ≠ wid - 2 ^ 67),
                          reqs := Tab.put s.reqs (wid - 2 ^ 67) { r with performed := true, err := 7 } }
        s.reply (wid - 2 ^ 67)
      | none => s
    else
      let pos := wid / 2 ^ 42
      let h := widProc (wid % 2 ^ 42)
      let c := widReg (wid % 2 ^ 42)
      let x := (s.proc h).chan c
      match x.role, x.dest with
      | .writer, .peer p e =>
        let n := x.relayed.getD pos 0
        let s := s.updChan h c fun x =>
          { x with credits := x.credits + n, relayed := x.relayed.set pos 0, relayOut := x.relayOut - 1, refused := some p }
        let s := s.backToStage h c (s.proc h).part p
        let s := s.ctrlSend (s.proc h).part p 14 (widOf h c) e 0 8
        if (s.proc h).need < waitOnly then s.wake h (.blockedWrite c) else s
      | _, _ => s)

/-- A control message names a channel end of another partition: it acts on nothing (R26). -/
def State.foreignEnd (s : State) (part kind w e : Nat) : Bool :=
  if kind = 1 ∨ kind = 2 ∨ kind = 5 ∨ kind = 12 then !(s.part part).inRect (e / 256)
  else isProcWid w && decide (kind ≠ 9 ∧ kind ≠ 14 ∧ (s.proc (widProc w)).part ≠ part)
/-- A control message of kind 14, by its form (R69, R218, log 18). -/
def State.formArrive (s : State) (part src w e n form : Nat) (extra : List Word) : State :=
  let rw := remoteWid src w
  let h := widProc w
  let c := widReg w
  match form with
  | 0 => s.renameWid rw (s.inWid (extra.headD 0))
  | 2 => s.roomForEnd part src w n 0 false
  | 3 => s.roomForEnd part src w n (extra.headD 0).toNat true
  | 5 => s.moveAnswered n true
  | 6 => s.moveAnswered n false
  | 4 => s.askCame e rw n 0
  | 7 =>
    let x := (s.proc h).chan c
    if x.role = .writer ∧ x.dest = .peer src e ∧ x.sent = n then
      let s := (s.updChan h c fun x => { x with relayOut := 0, probe := none }).pumpAll part
      if (s.proc h).need = 0 then s.wake h (.blockedWrite c) else s
    else s
  | 8 => s.noteCame e rw
  | _ => s
/-- The partition's record of a control message from a peer's channel ends (log 18): kinds as `State.ctrlSend` says. Registrations,
requests, recalls and credits go on over the mesh from the port of the link `via` on which they came, which takes what R434 gives such a message
(R15, log 88). -/
def State.ctrlArrive (s : State) (part via : Nat) (slots : List Word) : State :=
  let a := slots.headD 0
  let b := slots.getD 1 0
  let src := wfield (slots.getD 2 0) 21 0
  let w := wfield a 39 0
  let more := wfield a 59 40
  let e := wfield b 51 32
  let n := wfield b 31 0
  let rw := remoteWid src w
  let h := widProc w
  let c := widReg w
  let x := (s.proc h).chan c
  let mine := decide (x.role = .writer ∧ x.dest = .peer src e)
  let put (wid : Nat) (d : Dest) (body : NetBody) (i : Instr) : State :=
    let port := portTile ((s.laneList part via).headD 0) 2
    let t := match d with
      | .tile t => t / 256
      | _ => s.widTile wid
    s.netSendOn { wid := wid, dest := d, body := body, part := part, net := 0 } port t (420 + meshLatency port t 0) i
  if s.foreignEnd part (wfield a 63 60) w e then s else
  match wfield a 63 60 with
  | 1 =>
    put rw (.tile e) (.register (decide (more % 2 = 1))) (.writerRegistration rw)
  | 2 => put rw (.tile e) (.shortfall n) (.shortfallRequest rw)
  | 3 => put w (.peer src e) .recall (.creditRecall w)
  | 12 => if (s.ep e).writers.contains rw then (s.updEp e fun y => { y with recalled := y.recalled.filter (· ≠ rw) }).addFree e n else s
  | 4 => put w (.peer src e) (.credit n (more / 2) (decide (more % 2 = 1))) (.creditReturn w)
  | 5 =>
    if (s.ep e).writers.contains rw then
      (s.updEp e fun y => { y with writers := y.writers.filter (· ≠ rw), shortfalls := y.shortfalls.filter fun q => decide (q.1 ≠ rw),
                                   recalled := y.recalled.filter (· ≠ rw) }).addFree e n
    else s
  | 6 =>
    if mine then
      let s := s.updChan h c fun x => { x with gone := true }
      if (s.proc h).pst = .blockedWrite c ∧ (s.proc h).need < waitOnly then s.raiseAt h 0x28 .chanUnbound {} else s
    else s
  | 7 => if mine then s.refuseWriter h c else s
  | 8 =>
    if mine then
      let s := (s.freezeWriter w).flushPeer w
      let inLine := s.links.foldl (fun a k => a + (k.2.waiting.filter fun v => decide (v.2.2 = w)).length) 0
      s.ctrlSendMore part src 9 w e n 0 [BitVec.ofNat 64 (((s.proc h).chan c).sent + inLine)]
    else s
  | 11 => if mine then s.bindDone h c else s
  | 14 => s.formArrive part src w e n more (slots.drop 3)
  | 15 => s.moveInEnd part w e n more (slots.drop 3)
  | 0 => s.moveInSlot w more (slots.drop 3)
  | 9 => s.askCame e rw (slots.getD 3 0).toNat (n + 1)
  | 10 =>
    if x.role = .writer ∧ x.dest = .peer src n then (s.thawWriter w (.peer src e)).injectAll
    else
      let s := s.thawWriter w (.peer src e)
      (s.moves.foldl (fun s m => if m.2.waiting.contains w then s.moveDone m.1 m.2 else s) s).injectAll
  | _ => s

end Sys2Proof.Machine
end

