-- ==== Sys2Proof/Machine/Watch.lean ====
section
/-! DEFINITION. What watches a run: monitors (R50 to R52, R352 to R354), the Fumarole detector (R74 to R76), the queues of fault
records (R232, R233), the debugger (R32, R172). -/

namespace Sys2Proof.Machine

/-- An ERROR record, to the partition's event endpoint or to 128 (R252). -/
def State.errorRecord (s : State) (unit : Nat) (part : Option Nat) (tile index : Nat) (lasting : Bool) (addr : Nat) : State :=
  s.toHost (match part with
    | some p => 8 * p + 2
    | none => 128)
    [BitVec.ofNat 64 (2 + unit * 2 ^ 8 + bit1 lasting * 2 ^ 16 + tile % 2048 * 2 ^ 17 + part.getD 0 % 16 * 2 ^ 28 + index % 256 * 2 ^ 32),
     BitVec.ofNat 64 addr, BitVec.ofNat 64 s.cycle, 0]
/-- Change the monitor of writer `w` on a tile. -/
def State.updMon (s : State) (t w : Nat) (f : Monitor → Monitor) : State :=
  s.updTile t fun x => { x with mons := x.mons.map fun m => if widOf m.h m.c = w then f m else m }
/-- The monitor of writer `w` on a tile. -/
def State.monOf (s : State) (t w : Nat) : Option Monitor := (s.tile t).mons.find? fun m => decide (widOf m.h m.c = w)
/-- The record of a monitor (R51). -/
def monRecord (t : Nat) (m : Monitor) (v : Nat) : Msg :=
  { slots := [BitVec.ofNat 64 (m.sel + min m.ovf 255 * 256 + t % 2048 * 65536), BitVec.ofNat 64 v] }
/-- Push a monitor's record if its channel has the credit, behind what the channel has staged (R20, R51, R354). -/
def State.monPush (s : State) (t w : Nat) : State :=
  match s.monOf t w with
  | none => s
  | some m =>
    let x := (s.proc m.h).chan m.c
    match m.pending with
    | none => s
    | some v =>
      if x.gone ∨ x.frozen ∨ x.refused.isSome then s
      else if x.credits < 2 then s.askCredit m.h m.c (2 - x.credits)
      else
        let s := s.updChan m.h m.c fun x => { x with credits := x.credits - 2 }
        let s := s.updMon t w fun m => { m with pending := none, ovf := 0 }
        let x : Staged := { h := m.h, c := m.c, msg := monRecord t m v, after := [] }
        { s with staged := s.staged ++ [x] }.injectAll
/-- A monitor fires with a value: the record is pushed, or kept as the pending one, which counts the record it replaces (R51). -/
def State.monFire (s : State) (t w v : Nat) : State :=
  (s.updMon t w fun m => { m with pending := some v, ovf := if m.pending.isSome then min 255 (m.ovf + 1) else m.ovf }).monPush t w
/-- MONITOR_FIRE (R51). -/
def execMonitorFire (tile wid : Nat) (s : State) : Out :=
  .next (match s.monOf tile wid with
    | some m => s.monFire tile wid m.count
    | none => s)
/-- MONITOR_PENDING_PUSH (R51). -/
def execMonitorPendingPush (tile wid : Nat) (s : State) : Out := .next (s.monPush tile wid)
/-- One evaluation of a level counter on a tile (R51). -/
def State.evalLevel (s : State) (t sel v : Nat) : State :=
  (s.tile t).mons.foldl (fun s m =>
    let w := widOf m.h m.c
    if m.sel ≠ sel then s
    else if m.armed && decide (m.t ≤ v) then (s.updMon t w fun m => { m with armed := false, count := v }).afterCycles 0 (.monitorFire t w)
    else if v + m.t / 16 < m.t then s.updMon t w fun m => { m with armed := true }
    else s) s
/-- One update of the counters 0x10, 0x11 and 0x12 of a tile (R354). -/
def State.evalLevels (s : State) (tile power hotSpot modulePower : Nat) : State :=
  ((s.evalLevel tile 0x10 power).evalLevel tile 0x11 hotSpot).evalLevel tile 0x12 modulePower
/-- LEVEL_COUNTER_UPDATE (R354): an update with values read from outside; `State.newCycle` makes one every 1500 cycles. -/
def execLevelCounterUpdate (tile power hotSpot modulePower : Nat) (s : State) : Out :=
  .next (s.evalLevels tile power hotSpot modulePower)
/-- MONBIND (R50, R352 to R354). -/
def execMonbind (n : BitVec 4) (a b : BitVec 5) (s : State) : Out :=
  .next (s.withRegsCommit (if bitAt (s.reg a).toNat 8 then [a] else [a, b]) (fun s =>
    let w := s.reg a
    let sel := wfield w 7 0
    let unb := bitAt w.toNat 8
    let c := n.toNat
    let h := s.running
    let t := s.myTile
    let x := s.me.chan c
    let used := (s.tile t).mons.any fun m => decide (m.h = h ∧ m.c = c)
    if (sel = 0x11 ∨ sel = 0x12) ∧ s.me.pl = 0 then s.raise 0x3C .privilege
    else if x.role = .unbound then s.raise 0x3C .chanUnbound
    else if x.role = .reader ∨ (x.use ≠ .plain ∧ x.use ≠ .monitor) ∨ used ≠ unb ∨ wfield w 63 9 ≠ 0
        ∨ (7 ≤ sel ∧ sel ≤ 15) ∨ 0x12 < sel ∨ (unb = false ∧ (s.reg b = 0 ∨ 16 ≤ (s.tile t).mons.length)) then s.raise 0x3C .protection
    else
      let thr := s.regN b
      let s := s.retire 0x3C
      if unb then s.plainChan h c else
        (s.updTile t fun x => { x with mons := x.mons ++ [{ h := h, c := c, sel := sel, t := thr }] }).updChan h c
          fun x => { x with use := .monitor }))

/-- A process's channel end is held by a process of the partition that may act on it (R74). -/
def State.plainEnd (s : State) (part w : Nat) (role : Role) : Bool :=
  isProcWid w && decide ((s.proc (widProc w)).part = part) &&
    (let x := (s.proc (widProc w)).chan (widReg w)
     decide (x.role = role ∧ x.use = .plain))
/-- A channel is internal to a partition (R74); a DRAM server counts as a writer of it while a reply is reserved at its entry
(log 82). The partition's fault channel, which tiles' record hardware writes, counts as any other (log 90); an unbound register names no
channel. -/
def State.internal (s : State) (part h c : Nat) : Bool :=
  let x := (s.proc h).chan c
  match x.dest with
  | .tile id =>
    let e := s.ep id
    (s.part part).inRect (id / 256) && decide (x.role ≠ .unbound ∧ x.use = .plain ∧ e.reserved = 0) && (!e.bound || s.plainEnd part e.owner .reader)
      && e.writers.all fun w => s.plainEnd part w .writer
  | _ => false
/-- A process is stuck (R74). -/
def State.stuck (s : State) (h : Nat) : Bool :=
  let p := s.proc h
  p.pend.isEmpty && (match p.pst with
    | .blockedRead c | .blockedWrite c => s.internal p.part h c
    | _ => false)
/-- A partition is stuck (R74). -/
def State.partStuck (s : State) (part : Nat) : Bool := let l := s.liveOf part; !l.isEmpty && l.all s.stuck
/-- (ARRIVED, CONSUMED) of the reader endpoints of a partition (R75). -/
def State.snapshot (s : State) (part : Nat) : List (Nat × Word × Word) :=
  (s.eps.filter fun e => e.2.bound && decide (e.1 < 1048576) && (s.part part).inRect (e.1 / 256)).map fun e => (e.1, e.2.arrived, e.2.consumed)
/-- FUMAROLE_SWEEP_START (R75): the detector looks every 1024 cycles; a sweep starts once in 65,536 cycles and while the partition
is stuck. -/
def execFumaroleSweepStart (part : Nat) (s : State) : Out :=
  .next (if (s.part part).valid = false then s
    else
      let s := s.afterCycles 1024 (.fumaroleSweepStart part)
      if s.partStuck part ∨ s.cycle % 65536 < 1024 then
        (s.updPart part fun q => { q with det := { q.det with sweeping := true } }).afterCycles 1023 (.fumaroleSweepDone part)
      else s)
/-- Writers stuck on an endpoint with more need than it has FREE (R75). -/
def State.stuckWriters (s : State) (part id : Nat) : List Nat :=
  (s.liveOf part).filter fun h =>
    let p := s.proc h
    s.stuck h && (match p.pst with
      | .blockedWrite c => decide (p.need < waitOnly ∧ (p.chan c).dest = .tile id ∧ (s.ep id).free < p.need - (p.chan c).credits)
      | _ => false)
/-- DEADLOCK is reported to the supervisor (R75, R235). -/
def State.reportDeadlock (s : State) (part h detail aux : Nat) : State :=
  let s := s.updPart part fun q => { q with det := { q.det with reported := true } }
  let r : FRec := { kind := .report, part := part, firmware := false,
                    slots := [recSlot0 h detail 3 false 0 Cause.deadlock.code, 0, BitVec.ofNat 64 aux, 0, 0, 0, 0, 0] }
  (s.queueRecord (s.proc h).tile r).failRun part (s.proc h).net (s.proc h).tile
/-- The decision of a stuck sweep: grow the smallest full channel from the Caldera, or report (R75, R255). -/
def State.growOrReport (s : State) (part : Nat) : State :=
  let q := s.part part
  let f := (s.eps.filter fun e => e.2.bound && decide (e.1 < 1048576) && q.inRect (e.1 / 256) && !(s.stuckWriters part e.1).isEmpty)
  let best := f.foldl (fun (a : Option (Nat × Nat)) e => match a with
    | none => some (e.2.cap, e.1)
    | some b => if e.2.cap < b.1 then some (e.2.cap, e.1) else a) none
  let least (l : List Nat) := match l with
    | [] => 0
    | h :: t => t.foldl min h
  match best with
  | none => s.reportDeadlock part (least ((s.liveOf part).filter s.stuck)) 0 0
  | some (cap, id) =>
    let add := min (2 * cap) 65536 - cap
    if add = 0 ∨ q.calsize / 8 < q.calUsed + add then s.reportDeadlock part (least (s.stuckWriters part id)) 1 id
    else ((s.updPart part fun q => { q with calUsed := q.calUsed + add }).updEp id fun e => { e with cap := e.cap + add }).addFree id add
/-- FUMAROLE_SWEEP_DONE (R75): the decision, on what the partition shows as the sweep completes. -/
def execFumaroleSweepDone (part : Nat) (s : State) : Out :=
  .next (let d := (s.part part).det
         if d.sweeping = false then s
         else
           let snap := s.snapshot part
           let stuck := s.partStuck part
           let acts := stuck && d.prevStuck && decide (snap = d.prev) && !d.reported
           let s := if acts then s.growOrReport part else s
           s.updPart part fun q => { q with det := { prev := snap, prevStuck := stuck, sweeping := false,
                                                     reported := if snap ≠ d.prev then false else q.det.reported } })

/-- FAULT_RECORD_PUSH (R232, R233): the oldest record of a tile goes out once its channel has credit and the accesses before it
have performed; a tile with further records goes on in the next cycle. -/
def execFaultRecordPush (tile : Nat) (s : State) : Out :=
  .next (match (s.tile tile).frecs with
    | [] => s
    | f :: rest =>
      let again (s : State) : State := s.afterCycles 1 (.faultRecordPush tile)
      let pop (s : State) : State := s.updTile tile fun x => { x with frecs := rest }
      let more (s : State) : State := if rest.isEmpty then s else again s
      if f.after ≠ [] then again s
      else if f.firmware then
        if 512 ≤ s.fwQueue.length then again s
        else more ({ pop s with fwQueue := s.fwQueue ++ [f.slots] }.later .firmwareFaultForward)
      else
        let id := (s.part f.part).faultep
        let e := s.ep id
        if e.bound = false ∨ e.free < 8 then again s
        else
          let s := (pop s).updEp id fun e => { e with free := e.free - 8 }
          more (s.netSend { wid := recordWid tile, dest := .tile id, body := .data { slots := f.slots }, part := f.part, net := 0 }
            (meshLatency tile (id / 256) 8) (.channelMessageArrive (recordWid tile))))
/-- FIRMWARE_FAULT_FORWARD (R232): the oldest record goes to host endpoint 128, unchanged. -/
def execFirmwareFaultForward (s : State) : Out :=
  .next (match s.fwQueue with
    | [] => s
    | r :: rest => { s with fwQueue := rest }.toHost 128 r)

/-- An instruction that has issued and not ended is given up at an instruction boundary; it issues again later (R172, R193, R243). -/
def State.giveUp (s : State) (h : Nat) : State :=
  let s := s.stopMatrix h
  (if (s.proc h).strip.any fun k => k.own then s.restart h else s).dropHeld h
/-- A READY process halts at its instruction boundary (R32). -/
def State.debugHalt (s : State) (h : Nat) : State :=
  if (s.proc h).pst = .ready ∨ (s.proc h).pst = .running then
    (s.giveUp h).updProc h fun p => { p.enter .haltedDebug s.cycle with epc := p.pc }
  else s
/-- A halt that waited for a commit takes place once that has ended (R243). -/
def State.lateHalt (s : State) (h : Nat) : State :=
  if (s.proc h).inCommit then s else (s.updProc h fun p => { p with haltAsked := false }).debugHalt h
/-- A fault of the process is due in this cycle: a failing reply, or a grant that may raise VOWN. -/
def State.faultDue (s : State) (h : Nat) : Bool :=
  s.events.any fun e => decide (e.1 ≤ s.cycle) && (match e.2 with
    | .memoryReply id => (Tab.look s.reqs id).any fun r => decide (r.h = h ∧ r.err ≠ 0 ∧ r.dropped = false)
    | .remoteReply _ ms => decide (wfield (ms.headD 0) 46 40 ≠ 0) && s.remotes.any fun x =>
        decide (x.tile = wfield (ms.headD 0) 39 29 ∧ x.tag = wfield (ms.headD 0) 54 47) && (Tab.look s.reqs x.req).any fun r => decide (r.h = h)
    | .laneGrantEffect _ h' => decide (h' = h)
    | _ => false)
/-- DEBUGGER_HALT (R32, R172, R243): a process that is READY halts at its instruction boundary; its strip stays open, but a commit in
progress ends first, and a fault of the same cycle wins (R238, log 95). -/
def execDebuggerHalt (h : Nat) (s : State) : Out :=
  .next (if (s.proc h).inCommit || s.faultDue h then s.updProc h fun p => { p with haltAsked := true } else s.debugHalt h)
/-- DEBUGGER_RELEASE (R32). -/
def execDebuggerRelease (h : Nat) (s : State) : Out :=
  .next (if (s.proc h).pst = .haltedDebug then (s.goto h .ready).updProc h fun p => { p with dhold := false } else s)

end Sys2Proof.Machine
end

