-- ==== Sys2Proof/Machine/HostIo.lean ====
section
/-! DEFINITION. Host attachment: pushes and credits of host-to-device endpoints, rings of device-to-host endpoints, HOST records
(R262 to R266). -/

namespace Sys2Proof.Machine

/-- A host endpoint entry. -/
def State.hep (s : State) (n : Nat) : HostEp := Tab.lookD s.hostEps n {}
def State.updHep (s : State) (n : Nat) (f : HostEp → HostEp) : State := { s with hostEps := Tab.upd s.hostEps n f }
/-- A HOST record with the queue pair that was used (R265), to the event endpoint of the partition named, or to 128. -/
def State.hostRecord (s : State) (n event : Nat) (qpn : BitVec 24) : State :=
  let k := s.hep n
  let used := decide (k.dir ≠ 0 ∧ n ≠ 128)
  s.toHost (if used then 8 * k.part + 2 else 128)
    [BitVec.ofNat 64 (k.port * 2 ^ 32 + k.part * 2 ^ 28 + n % 2048 * 2 ^ 16 + event * 2 ^ 8 + 3), BitVec.ofNat 64 qpn.toNat,
     BitVec.ofNat 64 s.cycle, 0]
/-- The event of a HOST record for an access that the entry does not admit (R263 to R265): the offset of the other direction is a bad one. -/
def HostEp.refuses (k : HostEp) (dir : Nat) (qpn : BitVec 24) (rkey : BitVec 32) : Option Nat :=
  if k.dir = 0 then some 3 else if k.err then some 4 else if k.dir ≠ dir ∨ k.qpn ≠ qpn ∨ k.mkey ≠ rkey then some 1 else none
/-- The event with which an access to a window is refused: EVENT 3 also where the queue pair is one of another partition's entry (R265). -/
def State.hepRefuses (s : State) (k : HostEp) (dir : Nat) (qpn : BitVec 24) (rkey : BitVec 32) : Option Nat :=
  let foreign := s.hostEps.any fun e => decide (e.2.dir ≠ 0 ∧ e.2.qpn = qpn ∧ e.2.part ≠ k.part)
  match k.refuses dir qpn rkey with
  | some 1 => if k.qpn ≠ qpn ∧ foreign then some 3 else some 1
  | r => r
/-- The launch window takes a push, and gives each slot back, the marker's too (R263, log 63); the marker closes an image (R266). -/
def State.launchPush (s : State) (part : Nat) (slots : List Word) : State :=
  let s := (s.updHep (8 * part) fun k => { k with granted := k.granted + BitVec.ofNat 64 (max 1 slots.length) }).afterCycles 1
    (.hostCreditUpdate (8 * part))
  if slots.isEmpty then
    (s.updPart part fun q => { q with image := [], images := q.images ++ [q.image] }).later (.networkLaunch part)
  else s.updPart part fun q => { q with image := q.image ++ slots }
/-- Replay recorded inputs of run B that the host endpoints have credit for, in their order (R124). -/
def State.replayInputs (s : State) (part net : Nat) : Nat → State
  | 0 => s
  | fuel + 1 =>
    match (s.part part).nets.find? fun n => decide (n.num = net ∧ n.check = 2) with
    | none => s
    | some n => match n.inputs with
      | [] => s
      | (hep, m) :: rest =>
        let k := s.hep hep
        if k.credits < m.size then s
        else
          let s := s.updHep hep fun k => { k with credits := k.credits - m.size }
          let s := s.updNet part net fun n => { n with inputs := rest }
          let s := s.updPart part fun q => { q with calUsed := q.calUsed - m.size }
          let s := s.netSend { wid := hostWid hep, dest := .tile k.tep, body := .data m, part := part, net := 0 } (meshLatency (bridgeTile (k.tep / 256)) (k.tep / 256) m.size)
            (.channelMessageArrive (hostWid hep))
          State.replayInputs s part net fuel
/-- Partition, number and checking-mode run of the network whose endpoint a host endpoint writes to (R124). -/
def State.checkAt (s : State) (k : HostEp) : Nat × Nat × Nat :=
  let p := s.proc ((s.ep k.tep).owner / 16)
  (p.part, p.net, if (s.ep k.tep).bound then s.checkOf p.part p.net else 0)
/-- An input of run A is recorded in the Caldera; one that does not fit ends the run (R124). -/
def State.recordInput (s : State) (hep part net : Nat) (m : Msg) : State :=
  let q := s.part part
  if q.calsize / 8 < q.calUsed + m.size then s.failRun part net ((s.hep hep).tep / 256)
  else (s.updNet part net fun n => { n with inputs := n.inputs ++ [(hep, m)] }).updPart part fun q => { q with calUsed := q.calUsed + m.size }
/-- HOST_PUSH (R263, R266); in checking mode inputs are accepted once, in run A (R124). From the bridge a push takes the time of a message from
its tile (R17, log 88). -/
def execHostPush (hep : Nat) (qpn : BitVec 24) (rkey : BitVec 32) (off len : Nat) (slots : List (BitVec 64)) (s : State) : Out :=
  .next (let k := s.hep hep
         let m := len / 8
         match s.hepRefuses k 1 qpn rkey with
         | some e => s.hostRecord hep e qpn
         | none =>
           if off ≠ 0 ∨ len % 8 ≠ 0 ∨ 32 < m ∨ slots.length ≠ m then s.hostRecord hep 1 qpn
           else if k.credits < max 1 m ∨ (128 ≤ hep ∧ (s.checkAt k).2.2 = 2) then s.hostRecord hep 2 qpn
           else if hep < 128 then s.launchPush (hep / 8) slots
           else
             let s := s.updHep hep fun k => { k with credits := k.credits - max 1 m }
             let x : Msg := { slots := slots, marker := slots.isEmpty }
             let (part, net, run) := s.checkAt k
             let s := if run = 1 then s.recordInput hep part net x else s
             s.netSend { wid := hostWid hep, dest := .tile k.tep, body := .data x, part := k.part, net := 0 } (meshLatency (bridgeTile (k.tep / 256)) (k.tep / 256) x.size)
               (.channelMessageArrive (hostWid hep)))
/-- HOST_CREDIT_READ (R263): the cumulative count of credits granted. -/
def execHostCreditRead (hep : Nat) (qpn : BitVec 24) (rkey : BitVec 32) (s : State) : Out :=
  .next (let k := s.hep hep
         match s.hepRefuses k 1 qpn rkey with
         | some e => s.hostRecord hep e qpn
         | none => s.emit (.readReply hep k.granted))
/-- HOST_CREDIT_UPDATE (R263): the count is written to HADDR; inputs of run B go on (R124). -/
def execHostCreditUpdate (hep : Nat) (s : State) : Out :=
  .next (let k := s.hep hep
         let (part, net, run) := s.checkAt k
         let s := if run = 2 then s.replayInputs part net 4096 else s
         if k.dir ≠ 1 ∨ k.err ∨ k.told = k.granted then s
         else (s.emit (.rdmaWrite hep k.qpn k.haddr k.granted)).updHep hep fun k => { k with told := k.granted })
/-- The slots of the first message of a queue, and its writer. -/
def headMessage (q : List QSlot) : List QSlot :=
  match q with
  | [] => []
  | x :: _ => q.takeWhile fun y => decide (y.wid = x.wid ∧ y.msg = x.msg)
/-- D2H_DELIVER (R264): the message at the head goes to the ring, data first and then its header, once positions are free. -/
def execD2hDeliver (hep : Nat) (s : State) : Out :=
  .next (let k := s.hep hep
         let ms := headMessage (s.ep (hostRid hep)).queue
         let n := ms.length
         if ms.isEmpty ∨ k.dir ≠ 2 ∨ k.err ∨ k.cap < k.ring.length + n then s
         else
           let eos := ms.any fun x => x.marker
           let s := s.updEp (hostRid hep) fun e => { e with queue := e.queue.drop n, consumed := e.consumed + BitVec.ofNat 64 n }
           let at_ (i : Nat) : Word := k.haddr + BitVec.ofNat 64 (8 * ((k.dcount.toNat + i) % k.cap))
           let s := if eos then s else ms.zipIdx.foldl (fun s x => s.emit (.rdmaWrite hep k.qpn (at_ x.2) x.1.val)) s
           let header := (if eos then 64 else n - 1) + k.dcount.toNat % 2 ^ 32 * 2 ^ 32
           let s := s.emit (.rdmaWrite hep k.qpn (k.haddr + BitVec.ofNat 64 (8 * k.cap + 8 * (k.hcount.toNat % k.cap))) (BitVec.ofNat 64 header))
           let s := s.updHep hep fun k =>
             { k with dcount := k.dcount + BitVec.ofNat 64 n, hcount := k.hcount + 1, ring := k.ring ++ ms.map fun x => x.wid }
           if (s.ep (hostRid hep)).queue.isEmpty then s else s.afterCycles 1 (.d2hDeliver hep))
/-- HOST_CREDIT_RETURN (R264): positions are free, and their slots return to the writers; the module's own records hold no
credit. -/
def execHostCreditReturn (hep : Nat) (qpn : BitVec 24) (rkey : BitVec 32) (count : BitVec 64) (s : State) : Out :=
  .next (let k := s.hep hep
         match s.hepRefuses k 2 qpn rkey with
         | some e => s.hostRecord hep e qpn
         | none =>
           if count < k.freed ∨ k.dcount < count then s.hostRecord hep 1 qpn
           else
             let n := (count - k.freed).toNat
             let s := s.updHep hep fun k => { k with freed := count, ring := k.ring.drop n }
             let s := (k.ring.take n).foldl (fun s w => if w = loaderWid then s else s.giveBack (hostRid hep) w 1) s
             if (s.ep (hostRid hep)).queue.isEmpty then s else s.afterCycles 1 (.d2hDeliver hep))
/-- QUEUE_PAIR_ERROR (R265): the entry carries nothing until HEPSET rewrites it. -/
def execQueuePairError (hep : Nat) (s : State) : Out :=
  .next (if (s.hep hep).dir = 0 then s else (s.updHep hep fun k => { k with err := true }).hostRecord hep 4 (s.hep hep).qpn)

end Sys2Proof.Machine
end

