-- ==== Sys2Proof/Machine/ProcCtl.lean ====
section
/-! DEFINITION. Process control, major 0x2C: SPAWN, EXIT, YIELD, PRIO (R29, R34 to R40, R333, R360, R372, R416). -/

namespace Sys2Proof.Machine

/-- A process handle from partition, tile and sequence number (R29). -/
def handleOf (part tile seq : Nat) : Nat := part * 2 ^ 28 + tile * 2 ^ 17 + seq
/-- The sequence number after `q`: never 0 (R29). -/
def nextSeq (q : Nat) : Nat := if q = 131071 then 1 else q + 1
/-- The first sequence number from `q` on that no live process of the tile holds (R29). -/
def State.liveSeq (s : State) (tile : Nat) : Nat → Nat → Nat
  | 0, q => q
  | f + 1, q =>
    if s.procs.any fun e => decide (e.2.tile = tile ∧ e.1 % 2 ^ 17 = q ∧ e.2.pst ≠ .exited) then s.liveSeq tile f (nextSeq q) else q
/-- The lowest free context slot of a tile (R30, log 91). -/
def State.freeSlot (s : State) (tile : Nat) : Option Nat :=
  (List.range Config.contexts).find? fun i => (Tab.look (s.tile tile).slots i).isNone
/-- Create a process on a tile of a partition, resident where a context slot is free (R29, R30, R34). Gives its handle. -/
def State.create (s : State) (part tile : Nat) (p : Proc) : State × Nat :=
  let q := s.liveSeq tile (s.procs.length + 1) (s.tile tile).nextSeq
  let h := handleOf part tile q
  let slot := s.freeSlot tile
  let s := s.updTile tile fun x => { x with nextSeq := nextSeq q, slots := match slot with | some i => Tab.put x.slots i h | none => x.slots }
  let p := { p with part := part, tile := tile, res := if slot.isSome then .resident else .swapped, slot := slot.getD 0, since := s.cycle }
  (s.setProc h p, h)
/-- A process has reached EXITED: its network counts it, an end reply follows the last one (R266), and a RESUME with ACT 3 holds its writer no
longer (R234). -/
def State.noteExit (s : State) (h : Nat) : State :=
  let p := s.proc h
  let s := s.updPart p.part fun q => { q with nets := q.nets.map fun n => if n.num = p.net then { n with ended := n.ended + 1 } else n }
  let q := s.part p.part
  let alive := (s.liveOf p.part).any fun x => decide ((s.proc x).net = p.net)
  let s := if !alive && q.nets.any (fun n => decide (n.num = p.net ∧ n.killing = false)) then s.later (.loaderEndReply p.part p.net) else s
  { s with procs := Tab.mapV (fun _ p => if p.ending = some h then { p with ending := none } else p) s.procs }

/-- Number of a state of R31, in its order (log 21). -/
def PState.code : PState → Nat
  | .running => 0 | .ready => 1 | .blockedRead _ => 2 | .blockedWrite _ => 3 | .blockedToken _ => 4
  | .parkedFault => 5 | .haltedDebug => 6 | .exited => 7
/-- The endpoint word of a channel register (Table 3.5). -/
def ChanReg.word (x : ChanReg) : Nat :=
  let role := bit1 (decide (x.role = .reader)) * 256
  match x.role, x.dest with
  | .unbound, _ => 0
  | _, .tile e => e / 256 * 512 + role + e % 256
  | _, .peer p e => p * 2 ^ 34 + 2 ^ 32 + e / 256 * 512 + role + e % 256
  | _, .host n => 2 * 2 ^ 32 + n * 512
  | _, .server v => 3 * 2 ^ 32 + v * 512
/-- The doublewords of a control block that are not left as they are: offset and value (Table 11.6). -/
def Proc.blockWords (p : Proc) : List (Nat × Nat) :=
  ((List.range 32).map fun i => (8 * i, (p.reg i).toNat)) ++
  [(0x100, p.pc.toNat), (0x108, p.epc.toNat), (0x110, p.cause.toNat), (0x118, p.frec.toNat), (0x120, p.status.toNat),
   (0x128, p.vs.toNat), (0x130, p.vt.toNat), (0x138, p.vmsel.toNat), (0x140, p.mt.toNat), (0x148, p.peer.toNat),
   (0x150, p.mstep.toNat), (0x158, p.nbv.toNat), (0x160, p.fflags.toNat), (0x168, p.cflags.toNat), (0x170, p.vl.toNat),
   (0x178, p.wbase / 4096 * 2 ^ 12 + p.wsize / 4096 * 2 ^ 44),
   (0x180, p.level + p.ceiling * 4 + bit1 p.dhold * 16 + p.net * 256 + p.pst.code * 65536)] ++
  ((List.range 8).flatMap fun k => [(0x200 + 16 * k, (p.cap k).bits.toNat % 2 ^ 64), (0x208 + 16 * k, (p.cap k).bits.toNat / 2 ^ 64)]) ++
  [(0x280, ((List.range 8).map fun k => bit1 (p.cap k).tag * 2 ^ k).sum)] ++
  ((List.range 16).map fun c => (0x300 + 8 * c, (p.chan c).word)) ++ [(0x400, p.saved.toNat)]
/-- The HBM key of a control block; a failing translation is PAGE_FAULT (R267). -/
def State.blockKey (s : State) (h : Nat) (perm : Perm) : State × Except (Cause × FInfo) Nat :=
  let p := s.proc h
  let va := (s.part p.part).blockAt h
  match s.xlate p.tile p.part va perm with
  | (s, .ok k) => (s, .ok k)
  | (s, .error _) => (s, .error (.pageFault, FInfo.at va))
/-- The control block of a process is written at key `k` (R267). -/
def State.writeBlock (s : State) (h k : Nat) : State :=
  let p := s.proc h
  (p.blockWords.foldl (fun s w => s.hbmStore p.part (k + w.1) (wbytes (bytesLE 8 w.2))) s).updProc h fun p =>
    { p with cbAt := some k, cbState := p.pst.code }
/-- The control block of a process that is created non-resident is held in the swap area (R30, R36); where its address does not translate,
none is written and the tile keeps the state (log 42). -/
def State.bornBlock (s : State) (h : Nat) : State :=
  if (s.proc h).res = .resident then s
  else match s.blockKey h .store with
  | (s, .ok k) => s.writeBlock h k
  | (s, .error _) => s
/-- The fields of a spawn descriptor that must be zero are (Table 2.3). -/
def spawnRsv (bs : List Byte) : Bool :=
  decide (field (dword bs 0) 63 48 = 0 ∧ field (dword bs 8) 47 19 = 0 ∧ field (dword bs 8) 15 11 = 0 ∧ dword bs 48 = 0 ∧ dword bs 56 = 0)
/-- SPAWN (R34 to R36, R372). It waits in BLOCKED-WRITE until what is staged on a channel that moves is injected (R35), and what went over
relays has arrived (R218, log 83). Its analyser port
or tap, or its monitor, ends with the move (log 76). -/
def execSpawn (d a : BitVec 5) (s : State) : Out :=
  .next (s.withRegsCommit [a, d] (fun s =>
    let off := s.reg a
    if off.toNat % 8 ≠ 0 then s.raise 0x2C .misalign (FInfo.at off.toNat)
    else match s.readWindow off 64 with
      | .error c => s.raise 0x2C c (FInfo.at off.toNat)
      | .ok bs =>
        let p := s.me
        let h := s.running
        let w := dword bs 8
        let tile := field w 10 0
        let named := (List.range 16).filter fun i => bitAt w (48 + i)
        let fixed := named.any fun i => decide ((p.chan i).role = .reader ∧ tile ≠ p.tile)
        if dword bs 0 % 4 ≠ 0 then s.raise 0x2C .misalign
        else if s.myPart.inRect tile = false ∨ spawnRsv bs = false ∨ fixed then s.raise 0x2C .protection
        else if named.any fun i => decide ((p.chan i).role = .unbound) then s.raise 0x2C .chanUnbound
        else match named.find? fun i => s.unsettled h i with
        | some i => (s.askArrived p.part (widOf h i)).block (.blockedWrite i) 0
        | none =>
          let (s, ids) := s.release h
          let hold := bitAt w 18 || p.ss
          let prio := max (field w 17 16) p.ceiling
          let child : Proc :=
            { pc := BitVec.ofNat 48 (dword bs 0), nbv := p.nbv, status := statusOf 0 0 p.det false false false, wbase := p.wbase,
              wsize := p.wsize, net := p.net, level := prio, ceiling := prio, dhold := hold, pst := if hold then .haltedDebug else .ready,
              shut := true, hold := ids }
          let child := (List.range 4).foldl (fun q i => q.setReg (i + 1) (BitVec.ofNat 64 (dword bs (16 + 8 * i)))) child
          let (s, k) := s.create p.part tile child
          let s := named.foldl (fun s i => s.plainChan h i) s
          let s := named.foldl (fun s i =>
            match (p.chan i).role with
            | .writer => s.moveWriter h i k
            | _ =>
              let e := ((p.chan i).dest.rid).getD 0
              ((s.updChan h i fun _ => {}).updChan k i fun _ => { p.chan i with use := .plain }).updEp e fun x => { x with owner := widOf k i }) s
          let s := s.bornBlock k
          ((s.setReg d (BitVec.ofNat 64 k)).afterCycles 1 (.childRelease k)).retire 0x2C))
/-- CHILD_RELEASE (R372): the child may issue once the accesses before its SPAWN have performed. -/
def execChildRelease (h : Nat) (s : State) : Out :=
  .next (let p := s.proc h
         if p.shut = false then s
         else if p.hold.isEmpty then s.updProc h fun p => { p with shut := false }
         else s.afterCycles 1 (.childRelease h))
/-- Pending token registers of a process, s0 included for bindings whose token it discards (R37, R364). -/
def State.tokenRegs (s : State) (h : Nat) : List Nat := (s.binds.filter fun e => decide (e.2.h = h)).map fun e => e.2.sd
/-- EXIT (R37, R324, R333): it unbinds its taps as DBIND does, and one whose full slot awaits credit with the push. R37 names the state in which it waits for tokens; the model's choice (log 76) is BLOCKED-WRITE of the channel while
it waits for staged messages alone, and READY, held, while it waits for stores alone. -/
def execExit (s : State) : Out :=
  .next (s.afterCommit fun s =>
    let h := s.running
    let t := s.myTile
    let (s, ids) := s.release h
    let s := ((s.tile t).an.taps.filter fun e => decide (e.2.h = h)).foldl (fun s e => s.tapEnd t e.1) s
    let s := s.updAn t fun an => { an with taps := Tab.mapV (fun _ x => if x.h = h then { x with closing := true } else x) an.taps }
    let full := (s.tile t).an.taps.find? fun e => decide (e.2.h = h ∧ 32 ≤ e.2.count)
    let regs := s.tokenRegs h
    let staged := s.me.chans.find? fun e => s.unsent h e.1
    match regs with
    | r :: rs => s.block (.blockedToken (rs.foldl min r)) 0
    | [] => match full, staged with
      | some e, _ => s.block (.blockedWrite e.2.ch) 1
      | none, some e => s.block (.blockedWrite e.1) 0
      | none, none =>
        let ids := ids ++ (s.staged.filter fun m => decide (m.h = h)).flatMap fun m => m.after
        if ids ≠ [] then s.holdOn ids
        else ((s.countEvent t 1 1).finishProcess h).noteExit h)
/-- YIELD (R38, R416). -/
def execYield (s : State) : Out :=
  .next (let me := s.me
         let others := (s.residents s.myTile).filter fun h =>
           decide (h ≠ s.running ∧ (s.proc h).pst = .ready ∧ (s.proc h).level ≤ me.level)
         (s.updMe fun p => { p with yields := others.map fun h => (h, (s.proc h).epoch) }).retire 0x2C)
/-- PRIO (R39, R360). -/
def execPrio (d a : BitVec 5) (s : State) : Out :=
  .next (s.withRegsCommit [a, d] (fun s =>
    let v := s.regN a % 4
    let old := s.me.level
    ((s.setReg d (BitVec.ofNat 64 old)).updMe fun p => { p with level := max v p.ceiling }).retire 0x2C))

end Sys2Proof.Machine
end

