-- ==== Sys2Proof/Machine/Supervisor.lean ====
section
/-! DEFINITION. What the supervisor and firmware do by control registers: TLBI (R100), RESUME (R234), PSWAP with control blocks
(R243, R244, R267, R431), PSET with partitions (R253 to R256), HEPSET with host endpoints (R262, R288). -/

namespace Sys2Proof.Machine

/-- The action of a write of TLBI (R100, Table 4.10). -/
def State.tlbi (s : State) (part : Nat) (v : Word) : State :=
  let size := wfield v 63 62
  let bytes := if size = 0 then 0x10000 else if size = 1 then 0x200000 else 0x80000000
  let va := wfield v 47 16 * 65536
  s.dropTlb part (va / bytes * bytes) bytes (decide (size = 3))
/-- TLBI_WRITE (R100). -/
def execTlbiWrite (part : Nat) (v : BitVec 64) (s : State) : Out := .next (s.tlbi part v)

/-- A binding leaves its port; the port goes on with the next one. -/
def State.leavePort (s : State) (id : Nat) (b : Binding) : State :=
  let rest := (Tab.lookD (s.tile b.tile).ports b.port []).filter (· ≠ id)
  let s := s.updTile b.tile fun t => { t with ports := Tab.store t.ports b.port rest [] }
  let s := if rest.isEmpty then s else s.afterCycles 1 (.streamStart b.tile b.port)
  (s.binds.filter fun e => decide (e.2.tile = b.tile ∧ e.2.port = b.port ∧ e.2.st = .held) && !(s.proc e.2.h).uncommitted.contains e.1).foldl
    (fun s e => s.afterCycles 1 (.heldBindingEnqueue e.2.h b.port)) s
/-- Abort a binding: its accesses are no longer wanted and its token is not written (R234, R247). -/
def State.abortBinding (s : State) (id : Nat) (b : Binding) : State :=
  let s := { s with reqs := Tab.mapV (fun i r => if b.reqs.contains i then { r with dropped := true } else r) s.reqs
                    binds := Tab.cut s.binds id }
  (s.leavePort id b).finish id

/-- The process that a handle of the partition names, if there is one that has not ended. -/
def State.named (s : State) (part h : Nat) : Bool :=
  (Tab.look s.procs h).isSome && decide ((s.proc h).part = part ∧ (s.proc h).pst ≠ .exited)
/-- Channels that a refusal held go on when their process resumes (R318). -/
def State.unholdChans (s : State) (h : Nat) : State :=
  let moving (c : Nat) := s.moves.any fun m => m.2.waiting.contains (widOf h c)
  ((s.proc h).chans.foldl (fun s e =>
    if e.2.dest.isPeer && e.2.frozen && !moving e.1 then s.updChan h e.1 fun x => { x with frozen := false } else s) s).injectAll
/-- RESUME with ACT 0 (R234). -/
def State.resumeAt (s : State) (h : Nat) : State :=
  ((s.goto h .ready).updProc h fun p => { p with since := s.cycle }).unholdChans h
/-- RESUME with ACT 1 (R234): behind the instruction that faulted; past a VTREEW the tile's receive counter passes the round (R223). -/
def State.resumeAfter (s : State) (h : Nat) : State :=
  let p := s.proc h
  let pc := p.fpc + 4
  let s := match p.res, p.cbAt with
    | .swapped, some k => s.hbmStore p.part (k + 0x100) (wbytes (bytesLE 8 pc.toNat))
    | _, _ => s
  let s := match p.passes with
    | some k =>
      let c := Tab.lookD (s.tile p.tile).sint k {}
      s.updTile p.tile fun x => { x with sint := Tab.put x.sint k { c with recv := c.recv + 1 } }
    | none => s
  (s.updProc h fun p => { p with pc := pc, vpushed := Tab.cut p.vpushed p.fpc.toNat }).resumeAt h
/-- The stopped or saved binding of a process on a port (R94, R244). -/
def State.stoppedOn (s : State) (h port : Nat) : Option (Nat × Binding) :=
  s.binds.find? fun e => decide (e.2.h = h ∧ e.2.port = port ∧ (e.2.st = .stopped ∨ (e.2.st = .saved ∧ e.2.released = false)))
/-- RESUME with ACT 2 (R234, R244). -/
def State.resumePort (s : State) (h port : Nat) : State :=
  match s.stoppedOn h port with
  | none => s
  | some (id, b) =>
    if b.st = .saved then { s with binds := Tab.put s.binds id { b with released := true } }
    else
      let run (s : State) : State := { s with binds := Tab.put s.binds id { b with st := .running } }
      let head := decide ((Tab.lookD (s.tile b.tile).ports port []).head? = some id)
      if head then (run s).afterCycles 1 (.streamSector b.tile port)
      else { s with binds := Tab.put s.binds id { b with st := .queued } }
/-- RESUME with ACT 3 begins: the strip is discarded, stopped bindings are aborted (R234). -/
def State.beginEnd (s : State) (h : Nat) : State :=
  let s := (s.giveUp h).restart h
  let s := (s.binds.filter fun e => decide (e.2.h = h ∧ (e.2.st = .stopped ∨ e.2.st = .saved))).foldl (fun s e => s.abortBinding e.1 e.2) s
  s.updProc h fun p => { p with dying := true }
/-- An ending process goes on: once its staged messages are injected it gives up what it holds (R37 steps 3 and 4), and it is
EXITED once its tokens are written (R234). -/
def State.goEnd (s : State) (h : Nat) : State :=
  let p := s.proc h
  if p.dying = false then s
  else if s.staged.any (fun m => decide (m.h = h)) || p.chans.any (fun e => s.unsent h e.1) then s
  else
    let st := p.pst
    let tokens := s.binds.any fun e => decide (e.2.h = h)
    let s := if p.slot = 33 then s else (s.finishProcess h).updProc h fun p => { p with slot := 33 }
    if tokens then s.updProc h fun p => { p with pst := st }
    else (s.updProc h fun p => { p.enter .exited s.cycle with dying := false }).noteExit h
/-- The checks of RESUME, and its action (R234). -/
def State.resume (s : State) (part : Nat) (v : Word) : Except (Cause × FInfo) State :=
  let h := wfield v 31 0
  let p := s.proc h
  let no : Except (Cause × FInfo) State := .error (.protection, {})
  if s.named part h = false then no
  else match wfield v 39 36 with
    | 0 => if p.pst ≠ .parkedFault ∨ p.dying then no else .ok (s.resumeAt h)
    | 1 => if p.pst ≠ .parkedFault ∨ p.dying ∨ p.fclass ≠ .precise then no else .ok (s.resumeAfter h)
    | 2 => if (s.stoppedOn h (wfield v 34 32)).isNone then no else .ok (s.resumePort h (wfield v 34 32))
    | 3 => if (p.pst ≠ .parkedFault ∧ p.pst ≠ .haltedDebug) ∨ p.dying then no else .ok (s.beginEnd h)
    | _ => no
/-- A step's action, where its checks hold. -/
def State.orSame (s : State) (r : Except (Cause × FInfo) State) : State :=
  match r with
  | .ok t => t
  | .error _ => s
/-- The word that names an action on a process. -/
def resumeWord (act port h : Nat) : Word := BitVec.ofNat 64 (act * 2 ^ 36 + port * 2 ^ 32 + h)
/-- RESUME_AT_POINT (R234). -/
def execResumeAtPoint (part h : Nat) (s : State) : Out := .next (s.orSame (s.resume part (resumeWord 0 0 h)))
/-- RESUME_SKIP (R234). -/
def execResumeSkip (part h : Nat) (s : State) : Out := .next (s.orSame (s.resume part (resumeWord 1 0 h)))
/-- RESUME_STREAM (R234). -/
def execResumeStream (part h port : Nat) (s : State) : Out := .next (s.orSame (s.resume part (resumeWord 2 port h)))
/-- RESUME_END (R234). -/
def execResumeEnd (part h : Nat) (s : State) : Out := .next (s.orSame (s.resume part (resumeWord 3 0 h)))

/-- The state that a restored control block names, where software has changed the number saved: READY, PARKED-FAULT or HALTED-DEBUG; a blocked
state cannot be named, since the number has no channel or register (R267, log 42). -/
def PState.ofCode (was now : Nat) (st : PState) : PState :=
  if was = now then st
  else match now with
    | 0 | 1 => .ready
    | 5 => .parkedFault
    | 6 => .haltedDebug
    | _ => st
/-- Swap-out with its control block at key `k`; the array is saved as it stands at the end of the cycle (R30, R197, R243, R244, R267,
R431). -/
def State.swapOut (s : State) (h k : Nat) : State :=
  let inStrip := (s.proc h).strip.any fun k => !k.own
  let s := ((s.giveUp h).abandon h).cbDrainAll h
  let ask := if inStrip then none else (s.proc h).askAgain (s.unfused (s.proc h).tile).length
  let s := (s.binds.filter fun e => decide (e.2.h = h ∧ e.2.st = .stopped)).foldl (fun s e =>
    { s with binds := Tab.put s.binds e.1 { e.2 with st := .saved } }.leavePort e.1 e.2) s
  let s := s.leaveLanes h true
  let bits := s.savedBits h
  let s := (s.updProc h fun p => { p with saved := bits }).writeBlock h k
  let p := s.proc h
  let s := if Tab.lookD (s.tile p.tile).owners 17 0 = h then s.updProc h fun p => { p with image := some (s.tile p.tile).an } else s
  let s := if s.binds.any fun e => decide (e.2.h = h ∧ e.2.st = .saved) then
      { s.hbmStore p.part (k + 0x800) (wbytes ((List.range 1024).map fun i => Config.bindingByte s.freeCtr i)) with freeCtr := s.freeCtr + 1 }
    else s
  let s := s.updTile p.tile fun x => { x with slots := x.slots.filter fun e => decide (e.2 ≠ h) }
  s.updProc h fun p => { p with res := .swapped, yields := [], laneAsk := ask }
/-- A process as a control block gives it, reserved fields dropped; what is read-only there stays (R5, R267). -/
def Proc.fromBlock (p : Proc) (w : Nat → Nat) : Proc :=
  let f (o n : Nat) : BitVec n := BitVec.ofNat n (w o)
  { p with
    sregs := (List.range 32).foldl (fun r i => if i = 0 then r else Tab.store r i (BitVec.ofNat 64 (w (8 * i))) 0) []
    pc := BitVec.ofNat 48 (w 0x100 / 4 * 4), epc := BitVec.ofNat 48 (w 0x108 / 4 * 4)
    cause := BitVec.ofNat 48 (w 0x110 / 65536 % 2 ^ 32 * 65536 + w 0x110 % 256), frec := BitVec.ofNat 64 (w 0x118)
    status := f 0x120 8, vs := f 0x128 64, vt := f 0x130 64 &&& vtMask, vmsel := f 0x138 5, mt := f 0x140 7 &&& mtMask
    peer := f 0x148 22, mstep := f 0x150 7, nbv := f 0x158 8, fflags := f 0x160 5, cflags := f 0x168 21 &&& cflagsMask
    vl := f 0x170 12, wbase := field (w 0x178) 19 12 * 4096, wsize := field (w 0x178) 52 44 * 4096
    level := w 0x180 % 4, ceiling := field (w 0x180) 3 2, dhold := bitAt (w 0x180) 4, net := field (w 0x180) 15 8
    saved := f 0x400 3, handler := p.handler && decide (w 0x120 % 4 = 1)
    caps := (List.range 8).foldl (fun c k =>
      Tab.store c k { bits := BitVec.ofNat 128 (w (0x200 + 16 * k) + w (0x208 + 16 * k) * 2 ^ 64), tag := bitAt (w 0x280) k } {}) [] }
/-- The array at a swap-in of its owner (R197, R431): its domains go on in the next cycle. Where another process has taken the array since,
a saved image with a running domain is restored now, and any other before the owner's next analyser instruction (log 41). -/
def State.restoreArray (s : State) (h : Nat) : State :=
  let p := s.proc h
  if Tab.lookD (s.tile p.tile).owners 17 0 = h then
    (s.updProc h fun p => { p with image := none }).startArray p.tile (s.tile p.tile).an
  else if p.image.any fun an => an.doms.any fun e => e.2.run then s.takeBackArray h
  else s
/-- Swap-in from a control block at key `k` into context slot `i` (R30, R244, R267, R431). A process that was created non-resident
where no block could be written begins with the state it was created with (R30, R36, log 42). -/
def State.swapIn (s : State) (h k i : Nat) : State :=
  let p := s.proc h
  let t := p.tile
  let w (o : Nat) := ofBytesLE (s.hbmRead p.part (k + o) 8)
  let s := s.updTile t fun x => { x with slots := Tab.put x.slots i h }
  let s := s.updProc h fun p =>
    let q := if p.cbAt.isSome then { p.fromBlock w with pst := PState.ofCode p.cbState (field (w 0x180) 19 16) p.pst } else p
    { q with res := .resident, cbAt := none, slot := i, since := s.cycle }
  let s := (s.binds.filter fun e => decide (e.2.h = h ∧ e.2.st = .saved)).foldr (fun e s =>
    let q := Tab.lookD (s.tile t).ports e.2.port []
    let busy := match q.head?.bind (Tab.look s.binds) with
      | some b => decide (b.st = .running)
      | none => false
    let q := if busy then q.take 1 ++ e.1 :: q.drop 1 else e.1 :: q
    let st : BState := if e.2.released then .queued else .stopped
    let s := { s with binds := Tab.put s.binds e.1 { e.2 with st := st, released := false } }
    let s := s.updTile t fun x => { x with ports := Tab.put x.ports e.2.port q }
    if e.2.released && !busy then s.afterCycles 1 (.streamStart t e.2.port) else s) s
  let s := match (s.proc h).laneAsk with
    | some q =>
      let q : LaneAsk := if q.sd = 0 then { q with avl := (s.proc h).vl.toNat } else q
      (s.updProc h fun p => { p with laneAsk := none }).askLanes h q s.cycle true
    | none => s
  s.restoreArray h
/-- The checks of PSWAP, and its action (R267); a control block whose lines fail is not restored (R102, R249). -/
def State.pswap (s : State) (part : Nat) (v : Word) : State × Except (Cause × FInfo) State :=
  let h := wfield v 31 0
  let p := s.proc h
  let into := bitAt v.toNat 32
  if s.named part h = false ∨ (into ↔ p.res = .resident) then (s, .error (.protection, {}))
  else if into then
    match s.freeSlot p.tile with
    | none => (s, .error (.protection, {}))
    | some i => match s.blockKey h .load with
      | (s, .error e) => (s, .error e)
      | (s, .ok k) =>
        if s.hbmFails k 0x408 || s.hbmFails (k + 0x800) 0x400 then
          let va := (s.part p.part).blockAt h
          (s.poisonVa p.part va, .error (.uncorrectable, FInfo.at va))
        else (s, .ok (s.swapIn h k i))
  else match s.blockKey h .store with
    | (s, .error e) => (s, .error e)
    | (s, .ok k) => (s, .ok (s.swapOut h k))
/-- PSWAP_OUT (R243, R267). It stands behind the other steps of its cycle, faults of the process and ticks of its array among them (`rankOf`; R238,
R431). -/
def execPswapOut (part h : Nat) (s : State) : Out := .next
  (if s.named part (h % 2 ^ 32) && (s.proc (h % 2 ^ 32)).inCommit then s.afterCycles 1 (.pswapOut part h) else s.orSame (s.pswap part (BitVec.ofNat 64 (h % 2 ^ 32))).2)
/-- PSWAP_IN (R267). -/
def execPswapIn (part h : Nat) (s : State) : Out := .next (s.orSame (s.pswap part (BitVec.ofNat 64 (2 ^ 32 + h % 2 ^ 32))).2)

/-- A partition descriptor as read: a doubleword at an offset (Table 11.1). -/
abbrev DescAt := Nat → Nat
/-- Ids of a bit set that lies at an offset. -/
def bitSet (rd : DescAt) (off n : Nat) : List Nat := (List.range n).filter fun i => bitAt (rd (off + i / 64 * 8)) (i % 64)
/-- The peer ids of a descriptor. -/
def descPeers (rd : DescAt) : List Nat :=
  (List.range (rd 384 % 4096)).map fun i => rd (392 + i / 2 * 8) / 2 ^ (32 * (i % 2)) % 2 ^ 32
/-- The partition that a descriptor describes. -/
def descPart (rd : DescAt) : Partition :=
  { valid := true, x0 := field (rd 8) 5 0, x1 := field (rd 8) 13 8, y0 := field (rd 8) 20 16, y1 := field (rd 8) 28 24,
    ptroot := rd 16, calbase := rd 24, calsize := rd 32, symbase := rd 40, symsize := rd 48, cbbase := rd 56, faultep := rd 64,
    cbsize := rd 72, servers := bitSet rd 96 256, pool := bitSet rd 128 2048, peers := descPeers rd }
/-- Fields of a descriptor that must be zero are, and those with a stated form have it (Table 11.1). -/
def descForm (rd : DescAt) : Bool :=
  decide (rd 0 / 512 = 0 ∧ field (rd 0) 7 4 = 0 ∧ rd 8 / 2 ^ 29 = 0 ∧ field (rd 8) 23 21 = 0 ∧ field (rd 8) 15 14 = 0 ∧ field (rd 8) 7 6 = 0
    ∧ rd 16 < 2 ^ 40 ∧ rd 16 % 2 ^ 20 = 0 ∧ rd 24 < 2 ^ 40 ∧ rd 24 % 65536 = 0 ∧ rd 32 < 2 ^ 40 ∧ rd 32 % 65536 = 0 ∧ rd 32 ≠ 0
    ∧ rd 40 < 2 ^ 48 ∧ rd 40 % 65536 = 0 ∧ rd 48 < 2 ^ 48 ∧ rd 48 % 65536 = 0 ∧ rd 56 < 2 ^ 48 ∧ rd 56 % 2 ^ 28 = 0
    ∧ rd 64 < 2 ^ 19 ∧ rd 72 < 2 ^ 20 ∧ rd 80 = 0 ∧ rd 88 = 0 ∧ rd 384 ≤ 2048) && (descPeers rd).all fun p => decide (p < 2 ^ 22)
/-- The checks of a create (R254). -/
def State.createOk (s : State) (n : Nat) (rd : DescAt) : Bool :=
  let q := descPart rd
  let others := (s.parts.filter fun e => e.2.valid).map fun e => e.2
  descForm rd && !(s.part n).valid && decide (q.x0 ≤ q.x1 ∧ q.y0 ≤ q.y1)
    && others.all (fun o => decide (q.x1 < o.x0 ∨ o.x1 < q.x0 ∨ q.y1 < o.y0 ∨ o.y1 < q.y0)
        && q.servers.all (fun v => !o.servers.contains v) && q.pool.all fun l => !o.pool.contains l)
    && decide (q.ptroot < q.servers.length * Config.serverBytes ∧ q.calbase + q.calsize ≤ q.servers.length * Config.serverBytes)
    && !q.peers.contains s.ownId.toNat && decide ((distinct q.peers).length = q.peers.length)
    && q.inRect (q.faultep / 256) && decide (q.cbsize % 4096 = 0 ∧ 0x10000 ≤ q.cbsize ∧ q.cbsize ≤ 0x80000)
/-- Create partition `n` (R254): no process, an empty key slot, no lease, pool lanes FREE, empty buffer areas; its detector starts. -/
def State.createPart (s : State) (n : Nat) (rd : DescAt) : State :=
  let q := { descPart rd with keyOps := (s.part n).keyOps }
  let inQ (e : Nat) := decide (e < 1048576) && q.inRect (e / 256)
  let s := { s with parts := Tab.put s.parts n q
                    eps := s.eps.filter fun e => !inQ e.1
                    lanes := s.lanes.filter fun e => !q.pool.contains e.1 }
  s.afterCycles 1024 (.fumaroleSweepStart n)
/-- The checks of a teardown (R256). -/
def State.teardownOk (s : State) (n : Nat) : Bool := (s.part n).valid && (s.liveOf n).isEmpty
/-- The lanes of a partition's pool leave their links without draining, and their companions are revoked; a DARK one stays DARK, revoked
(R212, R216, R256, R260). -/
def State.detachPool (s : State) (n : Nat) : State :=
  let pool := (s.part n).pool
  let mine := s.lanes.filter fun e => pool.contains e.1
  let revoked (x : Lane) : Bool := decide (x.st = .held ∨ x.st = .quar ∨ (x.st = .dark ∧ x.forced = false))
  let left (e : Nat × Lane) : Option (Nat × Lane) :=
    if pool.contains e.1 = false then some e
    else if (s.lane e.1).st = .dark then some (e.1, { s.lane e.1 with forced := true }) else none
  let lanes := s.lanes.filterMap left
  let s := (mine.filter fun e => revoked e.2).foldl (fun s e => s.tellPeer e.2.peer e.1) s
  { mine.foldl (fun s e => s.cancel (.laneDrainEnd e.1)) s with lanes := lanes }
/-- Accesses of a partition to peers for which no reply can come any more fail with ERR 4 (R211, R260, R299). -/
def State.failRemotes (s : State) (n : Nat) : State :=
  let mine (x : Remote) : Bool := (Tab.look s.reqs x.req).any fun r => decide (r.part = n)
  let gone := (s.remotes.filter mine).map fun x => x.req
  let s := { s with remotes := s.remotes.filter fun x => !mine x
                    links := Tab.mapV (fun i k => if i / 4194304 = n then { k with waiting := k.waiting.filter fun w => decide (w.2.2 < 2 ^ 67) } else k) s.links }
  gone.foldl (fun (s : State) id => { s with reqs := Tab.upd s.reqs id fun r => { r with performed := true, err := 4 } }.later (.memoryReply id)) s
/-- The key slot of a partition is emptied, and its lanes leave their links; what was cut into flits is lost (R256, R260). A link whose epoch
would wrap stays quarantined (R257). -/
def State.emptyKey (s : State) (n : Nat) : State :=
  let s := (s.detachPool n).failRemotes n
  let out (e : Nat × Link) : Option (Nat × Link) :=
    if e.1 / 4194304 ≠ n then some e
    else if e.2.spent then some (e.1, { waiting := e.2.waiting, next := e.2.next, quar := true })
    else if e.2.waiting.isEmpty then none else some (e.1, { waiting := e.2.waiting })
  { s.updPart n fun q => { q with key := { revoked := true, epoch := q.key.epoch } } with links := s.links.filterMap out }
/-- Tear partition `n` down (R256). Nothing of it stays: a record of its that waits for the fault channel is lost with the channel, and of a KEYSET or
KEYREV under way only the token is left (log 57). -/
def State.teardown (s : State) (n : Nat) : State :=
  let q := s.part n
  let s := s.detachPool n
  let s := (s.eps.filter fun e => decide (e.1 < 1048576) && q.inRect (e.1 / 256)).foldl (fun s e => s.freeEntry e.1) s
  let s := ((List.range 16).foldl (fun (s : State) k => s.zeroTree n k) (s.emptyKey n)).dropTlb n 0 0 true
  let ops := q.keyOps.map fun o => { o with gone := true }
  { s with parts := if ops.isEmpty then Tab.cut s.parts n else Tab.put s.parts n { keyOps := ops }
           tiles := Tab.mapV (fun _ x => { x with frecs := x.frecs.filter fun r => !decide (r.part = n ∧ r.firmware = false) }) s.tiles
           lanes := Tab.mapV (fun l x => if q.pool.contains l then { x with part := 16 } else x) s.lanes
           links := s.links.filter fun e => decide (e.1 / 4194304 ≠ n) }
/-- The action of a write of PSET (R253 to R256); none where its checks fail. -/
def State.pset_ (s : State) (rd : DescAt) : Option State :=
  let n := rd 0 % 16
  if bitAt (rd 0) 8 then (if s.createOk n rd then some (s.createPart n rd) else none)
  else if rd 0 / 512 = 0 ∧ field (rd 0) 7 4 = 0 ∧ s.teardownOk n then some (s.teardown n) else none
/-- A descriptor in a tile's own slice. -/
def State.sliceAt (s : State) (tile off : Nat) : DescAt := fun o => ofBytesLE (s.sramRead (tile * 0x100000 + off + o) 8)
/-- PSET_CREATE (R254). -/
def execPsetCreate (tile off : Nat) (s : State) : Out :=
  .next (let rd := s.sliceAt tile off
         if bitAt (rd 0) 8 then (s.pset_ rd).getD s else s)
/-- PSET_TEARDOWN (R256). -/
def execPsetTeardown (part : Nat) (s : State) : Out := .next (if s.teardownOk part then s.teardown part else s)

/-- A number of Table 11.4 that is reserved. -/
def hepReserved (n : Nat) : Bool := decide (n < 128 ∧ 3 ≤ n % 8)
/-- The entry of Table 11.3, from its four doublewords. -/
def hepEntry (a b c d : Nat) : HostEp :=
  let dir := field a 19 18
  { dir := dir, part := field a 15 12, port := field a 17 16, qpn := BitVec.ofNat 24 (field a 55 32), tep := if dir = 1 then b % 2 ^ 19 else 0,
    cap := if dir = 2 then b % 2 ^ 13 else 0, haddr := BitVec.ofNat 64 c, mkey := BitVec.ofNat 32 (d / 2 ^ 32), hkey := BitVec.ofNat 32 d }
/-- A host endpoint gives up its place as writer, and its credits (R262, R288). -/
def State.hepLeave (s : State) (n : Nat) : State :=
  let k := Tab.lookD s.hostEps n {}
  if k.dir ≠ 1 ∨ n < 128 then s
  else
    let s := { s with hostEps := Tab.put s.hostEps n { k with credits := 0 } }
    (s.updEp k.tep fun e => { e with writers := e.writers.filter (· ≠ hostWid n), shortfalls := e.shortfalls.filter fun q => decide (q.1 ≠ hostWid n) }).addFree
      k.tep k.credits
/-- A D2H endpoint's reader at the I/O die (R264); the positions that a former entry left unreturned are free again. -/
def State.hepReader (s : State) (n cap : Nat) (ring : List Nat) : State :=
  let e := s.ep (hostRid n)
  if e.bound then
    let s := s.updEp (hostRid n) fun e => { e with bcap := cap, cap := cap, free := e.free + (cap - e.cap) }
    let s := ring.foldl (fun s w => if w = loaderWid then s else s.giveBack (hostRid n) w 1) s
    if e.queue.isEmpty then s else s.afterCycles 1 (.d2hDeliver n)
  else s.updEp (hostRid n) fun e => { e with bound := true, bcap := cap, cap := cap, free := cap }
/-- The action of a write of HEPSET (R288); none where its checks fail. -/
def State.hepset_ (s : State) (a b c d : Nat) : Option State :=
  let n := a % 2048
  let k := hepEntry a b c d
  let q := s.part k.part
  let rsv := decide (a / 2 ^ 56 ≠ 0 ∨ field a 31 20 ≠ 0 ∨ bitAt a 11 ∨ (k.dir = 0 ∧ b ≠ 0) ∨ (k.dir = 1 ∧ 2 ^ 19 ≤ b) ∨ (k.dir = 2 ∧ 2 ^ 13 ≤ b))
  let open_ := decide (k.dir ≠ 0)
  let fixedDir := decide (n ≤ 128 ∧ open_ ∧ (if n = 128 then k.dir ≠ 2 else if n % 8 = 0 then k.dir ≠ 1 else k.dir ≠ 2))
  if rsv ∨ k.dir = 3 ∨ hepReserved n ∨ fixedDir ∨ q.valid = false ∨ (k.dir = 2 ∧ (k.cap = 0 ∨ 4096 < k.cap))
      ∨ (k.dir = 1 ∧ q.inRect (k.tep / 256) = false) then none
  else
    let old := Tab.lookD s.hostEps n {}
    let s := s.hepLeave n
    let s := { s with hostEps := if open_ then Tab.put s.hostEps n k else Tab.cut s.hostEps n }
    some (if k.dir = 1 then
        (if n < 128 then { s with hostEps := Tab.put s.hostEps n { k with credits := 4096, granted := 4096 } }.afterCycles 1 (.hostCreditUpdate n)
         else s.netSend { wid := hostWid n, dest := .tile k.tep, body := .register false, part := k.part, net := 0 } (meshLatency (bridgeTile (k.tep / 256)) (k.tep / 256) 0) (.writerRegistration (hostWid n)))
      else if k.dir = 2 then s.hepReader n k.cap old.ring
      else if old.dir = 2 then s.updEp (hostRid n) fun e => { e with bound := false, queue := [] } else s)
/-- HEPSET_WRITE (R288). -/
def execHepsetWrite (tile off : Nat) (s : State) : Out :=
  .next (let rd := s.sliceAt tile off
         (s.hepset_ (rd 0) (rd 8) (rd 16) (rd 24)).getD s)

end Sys2Proof.Machine
end

