-- ==== Sys2Proof/Machine/Keys.lean ====
section
/-! DEFINITION. Key slots: KEYSET, KEYREV and the steps at which they take effect (R257 to R260, R338). -/

namespace Sys2Proof.Machine

/-- The slot as the next key instruction finds it, behind those under way: whether it is full, and whether a KEYREV emptied it
(R338). -/
def Partition.keyAhead (q : Partition) : Bool × Bool :=
  (q.keyOps.filter fun o => !o.gone).foldl (fun a o => if o.set then (true, false) else (false, a.1 || a.2)) (q.key.full, q.key.revoked)
/-- A KEYREV takes effect within 3000 cycles, and a KEYSET that it stands behind before it (R260, R338). -/
def State.revoke3000 (s : State) (part : Nat) : State :=
  let due := s.cycle + 1 + Config.delay s.freeCtr % 2999
  let late := s.events.filter fun e => decide (e.2 = .keysetComplete part ∧ due < e.1)
  let es := late.foldl (fun l e => insertDue due e.2 l) (s.events.filter fun e => !decide (e.2 = .keysetComplete part ∧ due < e.1))
  { s with events := insertDue due (.keyrevComplete part) es, freeCtr := s.freeCtr + 1 }
/-- A KEYSET or KEYREV is handed to the key controller, and its register is pending (R260, R338). -/
def State.keyIssue (s : State) (part : Nat) (o : KeyOp) : State :=
  let s := s.updPart part fun q => { q with keyOps := q.keyOps ++ [o] }
  let s := if o.sd = 0 then s else s.updMe fun p => { p with pend := Tab.put p.pend o.sd .keyOp }
  (if o.set then s.later (.keysetComplete part) else s.revoke3000 part).retire 0x3C
/-- Bytes at an offset as a number. -/
def bytesAt (bs : List Byte) (o n : Nat) : Nat := ofBytesLE ((bs.drop o).take n)
/-- The partition may be named by the running process: valid, and its own at level 1 (R259, R260). -/
def State.keyPart (s : State) (part : Nat) : Bool := (s.part part).valid && (decide (s.me.pl = 2) || decide (part = s.me.part))
/-- KEYSET (R259, R338); a withdrawn line under its descriptor is UNCORRECTABLE (R249, R251). -/
def execKeyset (d a : BitVec 5) (s : State) : Out :=
  .next (s.withRegsCommit [a, d] (fun s =>
    let off := s.reg a
    if s.me.pl = 0 then s.raise 0x3C .privilege
    else if off.toNat % 64 ≠ 0 then s.raise 0x3C .misalign (FInfo.at off.toNat)
    else match s.readWindow off 128 with
      | .error c => s.raise 0x3C (if c = .uncorrectable then c else .protection) (FInfo.at off.toNat)
      | .ok bs =>
        let part := dword bs 0 % 16
        let (full, revoked) := (s.part part).keyAhead
        let rsv := decide (dword bs 0 / 16 ≠ 0 ∨ dword bs 8 / 2 ^ 32 ≠ 0 ∨ bytesAt bs 16 16 ≠ 0)
        if rsv ∨ s.keyPart part = false ∨ full ∨ bytesAt bs 32 32 = bytesAt bs 64 32 ∨ (revoked ∧ s.liveOf part ≠ []) then
          s.raise 0x3C .protection
        else s.keyIssue part
          { set := true, h := s.running, sd := d.toNat, keyid := BitVec.ofNat 32 (bytesAt bs 8 4), xts1 := BitVec.ofNat 256 (bytesAt bs 32 32),
            xts2 := BitVec.ofNat 256 (bytesAt bs 64 32), gcm := BitVec.ofNat 256 (bytesAt bs 96 32) }))
/-- KEYREV (R260, R338). -/
def execKeyrev (d a : BitVec 5) (s : State) : Out :=
  .next (s.withRegsCommit [a, d] (fun s =>
    let w := s.reg a
    let part := wfield w 3 0
    if s.me.pl = 0 then s.raise 0x3C .privilege
    else if wfield w 63 4 ≠ 0 ∨ s.keyPart part = false then s.raise 0x3C .protection
    else s.keyIssue part { set := false, h := s.running, sd := d.toNat }))
/-- The token of a key instruction. -/
def State.keyToken (s : State) (o : KeyOp) (v : Word) : State := if o.sd = 0 then s else s.deliver o.h o.sd v
/-- KEYSET_COMPLETE (R257, R259, R338): the slot is filled, with an epoch of its own; a link whose epoch would have wrapped is quarantined no
longer; an earlier KEYREV goes first. Of one whose partition has been torn down only the token is left (log 57). -/
def execKeysetComplete (part : Nat) (s : State) : Out :=
  .next (match (s.part part).keyOps with
    | [] => s
    | o :: rest =>
      if o.set && o.gone then (s.updPart part fun q => { q with keyOps := rest }).keyToken o 1
      else if o.set then
        let (s, epoch) := s.fresh
        let k : KeySlot := { full := true, revoked := false, keyid := o.keyid, xts1 := o.xts1, xts2 := o.xts2, gcm := o.gcm, epoch := epoch }
        let s := { s with links := Tab.mapV (fun i x => if i / 4194304 = part ∧ x.spent then { waiting := x.waiting } else x) s.links }
        ((s.updPart part fun q => { q with keyOps := rest, key := k }).keyToken o 1).pumpAll part
      else if rest.any fun x => x.set then s.afterCycles 1 (.keysetComplete part) else s)
/-- KEYREV_COMPLETE (R260, R338): the slot is emptied; KEYREVs in flight together complete at this point, and one receives 1. A teardown has
emptied the slot before those that it found under way, and they receive 0 (log 57). -/
def execKeyrevComplete (part : Nat) (s : State) : Out :=
  .next (let ops := (s.part part).keyOps
         let revs := ops.takeWhile fun o => !o.set && (o.gone = (ops.headD o).gone)
         match revs with
         | [] => if ops.any fun o => !o.set then s.afterCycles 1 (.keyrevComplete part) else s
         | o :: more =>
           let full := (s.part part).key.full && !o.gone
           let s := s.updPart part fun q => { q with keyOps := ops.drop revs.length }
           let s := if full then s.emptyKey part else s
           more.foldl (fun s x => s.keyToken x 0) (s.keyToken o (if full then 1 else 0)))

end Sys2Proof.Machine
end

