-- ==== Sys2Proof/Machine/VecFlt.lean ====
section
/-! DEFINITION. Floating-point vector arithmetic and conversions, major 0x1A (R129, R134, R138 to R141, R391, R393, R394). -/

namespace Sys2Proof.Machine

/-- A vector instruction that is legal only where `ok` holds of VT; otherwise ILLEGAL_OPCODE precisely (R134, R386). -/
def State.vectorIf (s : State) (op : Nat) (ok : Bool) (rs : List (BitVec 5)) (k : State → State) : State :=
  s.afterGrant (if ok then s.vectorOp op rs k else s.raise op .illegalOpcode)
/-- The element has a floating-point type (R134). -/
def isFloat (vt : Word) : Bool := (vtFloat vt).isSome
/-- Write elements with the flags that each raised (R141). -/
def State.putFlagged (s : State) (v : VCtx) (d : BitVec 5) (xs : List (Nat × Nat × Flags)) : State :=
  (s.putElems v d (xs.map fun e => (e.1, e.2.1))).raiseFlags (xs.foldl (fun a e => a ||| e.2.2) 0)
/-- A floating-point element operation: `f` gives a code and its flags at each active position. -/
def State.vflt (s : State) (d : BitVec 5) (rs : List (BitVec 5)) (f : State → VCtx → Fmt → Nat → Nat × Flags) : Out :=
  .next (s.vectorIf 0x1A (isFloat s.me.vt) (d :: rs) fun s =>
    let v := s.vc
    (s.putFlagged v d ((s.actives v).map fun i => (i, f s v ((vtFloat v.vt).getD .fp32) i))).retire 0x1A)
/-- One rounding of an exact result, with the flags of both (R140). -/
def roundOnce (t : Fmt) (r : FVal × Flags) : Nat × Flags :=
  let c := convert r.1 t false
  (c.1, c.2 ||| r.2)
/-- An operation of two sources. -/
def State.vflt2 (s : State) (d a b : BitVec 5) (r : Rep) (f : FVal → FVal → FVal × Flags) : Out :=
  s.vflt d [a, b] fun s v t i => roundOnce t (f (t.decode (s.elem v a i)) (t.decode (s.elem v b (Rep.index r i))))
/-- The fused sum c ± a × b, rounded once; a NaN operand raises nothing (R129, Table 6.6). -/
def fusedSum (neg : Bool) (c a b : FVal) : FVal × Flags :=
  if c.isNan || a.isNan || b.isNan then (.nan, 0)
  else
    let (p, fl) := a.mul b
    let (x, fl') := c.add (if neg then p.neg else p)
    (x, fl ||| fl')
/-- VFADD (R391). -/
def execVfadd (d a b : BitVec 5) (r : Rep) (s : State) : Out := s.vflt2 d a b r fun x y => x.add y
/-- VFSUB (R391). -/
def execVfsub (d a b : BitVec 5) (r : Rep) (s : State) : Out := s.vflt2 d a b r fun x y => x.add y.neg
/-- VFMUL (R391). -/
def execVfmul (d a b : BitVec 5) (r : Rep) (s : State) : Out := s.vflt2 d a b r fun x y => x.mul y
/-- VFMA (R391). -/
def execVfma (d a b : BitVec 5) (r : Rep) (s : State) : Out :=
  s.vflt d [a, b] fun s v t i =>
    roundOnce t (fusedSum false (t.decode (s.elem v d i)) (t.decode (s.elem v a i)) (t.decode (s.elem v b (Rep.index r i))))
/-- VFNMA (R391). -/
def execVfnma (d a b : BitVec 5) (r : Rep) (s : State) : Out :=
  s.vflt d [a, b] fun s v t i =>
    roundOnce t (fusedSum true (t.decode (s.elem v d i)) (t.decode (s.elem v a i)) (t.decode (s.elem v b (Rep.index r i))))
/-- VFDIV (R391). -/
def execVfdiv (d a b : BitVec 5) (r : Rep) (s : State) : Out := s.vflt2 d a b r fun x y => x.div y
/-- VFSQRT (R391). -/
def execVfsqrt (d a : BitVec 5) (s : State) : Out := s.vflt d [a] fun s v t i => roundOnce t (t.decode (s.elem v a i)).sqrt
/-- VFMIN (R391). -/
def execVfmin (d a b : BitVec 5) (r : Rep) (s : State) : Out := s.vflt2 d a b r fun x y => (x.min y, 0)
/-- VFMAX (R391). -/
def execVfmax (d a b : BitVec 5) (r : Rep) (s : State) : Out := s.vflt2 d a b r fun x y => (x.max y, 0)
/-- VFSGN (R391): a bit operation. -/
def execVfsgn (d a b : BitVec 5) (r : Rep) (s : State) : Out :=
  s.vflt d [a, b] fun s v t i =>
    (s.elem v a i % t.signCode + s.elem v b (Rep.index r i) / t.signCode % 2 * t.signCode, 0)

/-- The register element `x` rounded to a narrower format and held in the element type (kinds 4 to 8 of Table 16.5). -/
def roundTo (t f : Fmt) (sat : Bool) (x : Nat) : Nat × Flags :=
  let c := convert (t.decode x) f sat
  ((convert (f.decode c.1) t false).1, c.2)
/-- The conversion of one element that stays in its register (Table 16.5). -/
def cvtElem (k : CvtKind) (t : Fmt) (w : Nat) (x : Nat) : Nat × Flags :=
  match k with
  | .ftoi => let c := floatToInt (t.decode x) (-(2 ^ (w - 1) : Nat)) ((2 ^ (w - 1) : Nat) - 1); (wrapInt w c.1, c.2)
  | .ftou => let c := floatToInt (t.decode x) 0 ((2 ^ w : Nat) - 1); (wrapInt w c.1, c.2)
  | .itof => convert (FVal.ofInt (signedOf w x) 0 false) t false
  | .utof => convert (FVal.ofInt x 0 false) t false
  | .rbf16 => roundTo t .bf16 false x
  | .rfp16 => roundTo t .fp16 false x
  | .re4m3 => roundTo t .e4m3 false x
  | .re5m2 => roundTo t .e5m2 false x
  | .re2m1 => roundTo t .e2m1 true x
  | .widen | .narrow => (x, 0)
/-- The kind is legal at VT, with its register numbers (Table 16.5, R394). -/
def cvtOk (k : CvtKind) (vt : Word) (d a : BitVec 5) : Bool :=
  let e := vt.toNat % 4
  match k with
  | .rbf16 | .rfp16 => decide (e = 2)
  | .widen => decide (e = 1 ∧ d.toNat % 2 = 0)
  | .narrow => decide (e = 1 ∧ a.toNat % 2 = 0)
  | _ => decide (e = 1 ∨ e = 2)
/-- FP32 element `i` of the pair based on `r`: its register and position (R394). -/
def VCtx.pairAt (v : VCtx) (r : BitVec 5) (i : Nat) : Nat × Nat :=
  let q := Nat.max 1 (v.lanes.length * 8)
  (r.toNat + i / q, i % q)
/-- VFCVT (R393, R394). -/
def execVfcvt (d a : BitVec 5) (k : CvtKind) (s : State) : Out :=
  .next (s.vectorIf 0x1A (cvtOk k s.me.vt d a)
    ([d, a] ++ (match k with | .widen => [d + 1] | .narrow => [a + 1] | _ => [])) fun s =>
    let v := s.vc
    let t := (vtFloat v.vt).getD .fp32
    match k with
    | .widen =>
      let xs := (s.actives v).map fun i => (v.pairAt d i, (convert (t.decode (s.elem v a i)) .fp32 false).1)
      (xs.foldl (fun s e => s.putElemsAt v 32 e.1.1 [(e.1.2, e.2)]) s).retire 0x1A
    | .narrow =>
      let xs := (s.actives v).map fun i =>
        let (r, j) := v.pairAt a i
        (i, convert (Fmt.fp32.decode (s.elemAt v 32 r j)) t false)
      (s.putFlagged v d xs).retire 0x1A
    | k => (s.putFlagged v d ((s.actives v).map fun i => (i, cvtElem k t v.ew (s.elem v a i)))).retire 0x1A)
/-- VFCVT_SAT (R393): kind 6 with saturation. -/
def execVfcvtSat (d a : BitVec 5) (s : State) : Out := s.vflt d [a] fun s v t i => roundTo t .e4m3 true (s.elem v a i)

end Sys2Proof.Machine
end

