-- ==== Sys2Proof/Machine/Sinter.lean ====
section
/-! DEFINITION. The Sinter reduction network, major 0x33: VTREE, VTREEW and the steps of the routers (R220 to R225, R413, R414). -/

namespace Sys2Proof.Machine

/-- The number under which a process waits for something of tree `k` on its tile. -/
def sinterWait (k : Nat) : Nat := 2 ^ 60 + k
/-- The number under which a VTREE waits for an older round of tree `k` (R223). -/
def sinterAhead (k : Nat) : Nat := 2 ^ 60 + 16 + k
/-- Processes of a tile that wait on a tree look again. -/
def State.sinterWake (s : State) (t k : Nat) : State :=
  { s with procs := Tab.mapV (fun _ p =>
      if p.tile = t then { p with hold := p.hold.filter fun i => decide (i ≠ sinterWait k ∧ i ≠ sinterAhead k) } else p) s.procs }
/-- Round `n` of a tree. -/
def Tree.round (tr : Tree) (n : Nat) : Round := (tr.rounds.find? fun r => r.num == n).getD { num := n }
/-- Replace a round. -/
def Tree.setRound (tr : Tree) (r : Round) : Tree := { tr with rounds := (tr.rounds.filter fun x => x.num != r.num) ++ [r] }
def State.setTree (s : State) (part k : Nat) (tr : Tree) : State :=
  s.updPart part fun q => { q with trees := Tab.put q.trees k tr }
/-- A tile's counters for a tree. -/
def State.scount (s : State) (t k : Nat) : SCount := Tab.lookD (s.tile t).sint k {}
def State.setScount (s : State) (t k : Nat) (c : SCount) : State := s.updTile t fun x => { x with sint := Tab.store x.sint k c {} }
/-- The type suits VT (R223 check 1). -/
def sinterType (ty : SType) (vt : Word) : Bool :=
  match ty with
  | .f32 | .i32 => decide (vt.toNat % 4 = 2)
  | .bf16 => decide (vt.toNat % 8 = 1)
/-- Check 2 of R223: the tree number and its table where the operands are in order. -/
def State.sinterTree (s : State) (a : Word) (recv : Bool) : Option (Nat × Tree) :=
  let k := wfield a 3 0
  if wfield a 63 4 ≠ 0 ∨ s.vc.vl = 0 ∨ 64 < s.vc.vl then none
  else (Tab.look s.myPart.trees k).bind fun tr =>
    if tr.entries.any fun e => decide (e.tile = s.myTile) && (if recv then e.recv else e.contrib) then some (k, tr) else none
/-- Contributions of this tile to a tree that are staged and not yet injected; those of an open strip are not counted before its commit
(R414). -/
def State.sinterStaged (s : State) (t k : Nat) : Nat :=
  (s.staged.filter fun m => (match m.tree with | some (j, _) => decide (j = k) | none => false) && decide ((s.proc m.h).tile = t)).length
/-- VTREE (R222, R223, R413, R414): it is held while its round would lie more than two ahead of the oldest open one, those that staged
contributions will open included. -/
def execVtree (a b : BitVec 5) (t : SType) (o : SOp) (s : State) : Out :=
  .next (s.withRegs [a] (s.vectorIf 0x33 (sinterType t s.me.vt) [b] fun s =>
    match s.sinterTree (s.reg a) false with
    | none => s.raise 0x33 .protection
    | some (k, tr) =>
      let first := (s.scount s.myTile k).contrib
      let next := first + s.sinterStaged s.myTile k
      if (first + 2 < next) ∨ (tr.rounds.filter Round.isOpen).any fun r => decide (r.num + 2 < next) then s.holdOn [sinterAhead k]
      else
        let v := s.vc
        (s.holdBack (.tree k t o ((List.range v.vl).map fun i => s.elem v b i))).retire 0x33))
/-- The time of a timer that never expires: STIMEO was 0 when it started (R224). -/
def neverDue : Nat := 2 ^ 128
/-- The record of SINTER_TIMEOUT (R224, R235). -/
def sinterInfo (k round reason : Nat) : FInfo := { detail := k * 4096 + reason * 1024, aux := round }
/-- What VTREEW does (R222 to R224, R413, R414): it waits for the round that the tile's receive counter names. -/
def State.vtreew (s : State) (d a : BitVec 5) (t : SType) (o : SOp) : State :=
  s.withRegs [a] (s.afterGrant <| s.afterCommit fun s => s.withRegs [a] <| s.vectorIf 0x33 (sinterType t s.me.vt) [d] fun s =>
    match s.sinterTree (s.reg a) true with
    | none => s.raise 0x33 .protection
    | some (k, tr) =>
      let tile := s.myTile
      let c := s.scount tile k
      let r := tr.round c.recv
      let here := r.seen.contains tile
      match r.aborted, r.result with
      | some reason, _ => if here then s.raise 0x33 .sinterTimeout (sinterInfo k r.num reason) else s.holdOn [sinterWait k]
      | none, some (xs, fl) =>
        if here then
          if r.ty ≠ t ∨ r.op ≠ o then s.raise 0x33 .sinterTimeout (sinterInfo k r.num 1)
          else
            let v := s.vc
            let s := s.putElems v d ((List.range (min v.vl xs.length)).map fun i => (i, xs.getD i 0))
            ((s.raiseFlags fl).setScount tile k { c with recv := c.recv + 1, timer := none }).retire 0x33
        else s.holdOn [sinterWait k]
      | none, none =>
        let cyc := s.myPart.stimeo.toNat
        let s := if c.timer.isSome then s
          else if cyc = 0 then s.setScount tile k { c with timer := some (c.recv, neverDue) }
          else (s.setScount tile k { c with timer := some (c.recv, s.cycle + cyc) }).afterCycles cyc (.sinterTimerExpire s.me.part k tile)
        s.holdOn [sinterWait k])
/-- The tree whose round a VTREEW takes, where s(a) names one that the tile receives from (R223). -/
def State.passesOf (s : State) (a : BitVec 5) : Option Nat :=
  let k := wfield (s.reg a) 3 0
  if wfield (s.reg a) 63 4 = 0 ∧ ((Tab.look s.myPart.trees k).any fun tr => tr.entries.any fun e => decide (e.tile = s.myTile) && e.recv) then some k
  else none
/-- VTREEW (R222 to R224, R413, R414). One that parks its process leaves its round to a RESUME with ACT 1. -/
def execVtreew (d a : BitVec 5) (t : SType) (o : SOp) (s : State) : Out :=
  .next (let r := s.vtreew d a t o
         if r.me.pst = .parkedFault then r.updMe fun p => { p with passes := s.passesOf a } else r)

/-- Combine of R224 on one element. -/
def sinterElem (ty : SType) (op : SOp) (a b : Nat) : Nat × Flags :=
  let f : Fmt := match ty with | .bf16 => .bf16 | _ => .fp32
  match ty, op with
  | .i32, .sum => ((a + b) % 2 ^ 32, 0)
  | .i32, .min => (if signedOf 32 a ≤ signedOf 32 b then a else b, 0)
  | .i32, .max => (if signedOf 32 b ≤ signedOf 32 a then a else b, 0)
  | _, .sum => roundOnce f ((f.decode a).add (f.decode b))
  | _, .min => convert ((f.decode a).min (f.decode b)) f false
  | _, .max => convert ((f.decode a).max (f.decode b)) f false
/-- Combine of R224, element by element, an absent side passed over. -/
def sinterCombine2 (ty : SType) (op : SOp) (a b : Option (List Nat × Flags)) : Option (List Nat × Flags) :=
  match a, b with
  | none, y => y
  | x, none => x
  | some (xs, f), some (ys, g) =>
    let zs := (xs.zip ys).map fun e => sinterElem ty op e.1 e.2
    some (zs.map fun z => z.1, zs.foldl (fun a z => a ||| z.2) (f ||| g))
/-- Children of a tile in a tree, by CORDER. -/
def Tree.children (tr : Tree) (t : Nat) : List Nat :=
  (List.range 8).flatMap fun c => (tr.entries.filter fun e => !e.root && decide (e.parent = t ∧ e.corder = c)).map fun e => e.tile
/-- The subtree of a tile holds a contributor. -/
def Tree.gives (tr : Tree) : Nat → Nat → Bool
  | 0, _ => false
  | f + 1, t => (tr.entries.any fun e => decide (e.tile = t) && e.contrib) || (tr.children t).any fun u => tr.gives f u
/-- SINTER_COMBINE (R224): a router that has all its inputs of a round combines them and passes the partial result on. -/
def execSinterCombine (part tree tile round : Nat) (s : State) : Out :=
  .next (match Tab.look (s.part part).trees tree with
    | none => s
    | some tr =>
      let r := tr.round round
      match tr.entries.find? fun e => e.tile == tile with
      | none => s
      | some e =>
        let kids := (tr.children tile).filter fun u => tr.gives 2049 u
        let own := Tab.look r.contribs tile
        if r.aborted.isSome ∨ (Tab.look r.partials tile).isSome ∨ (e.contrib && own.isNone) ∨ kids.any fun u => (Tab.look r.partials u).isNone then s
        else
          let init : Option (List Nat × Flags) := own.map fun xs => (xs, 0)
          match kids.foldl (fun acc u => sinterCombine2 r.ty r.op acc (Tab.look r.partials u)) init with
          | none => s
          | some x =>
            let r := { r with partials := Tab.put r.partials tile x, result := if e.root then some x else none }
            let s := s.setTree part tree (tr.setRound r)
            if e.root then (tr.entries.filter fun e => e.recv).foldl (fun s e => s.later (.sinterResult part tree e.tile round)) s
            else s.later (.sinterCombine part tree e.parent round))
/-- The result or the abort of a round has come to a tile: its timer stops, and waiting processes look again (R224). -/
def State.sinterSeen (s : State) (part tree tile round : Nat) : State :=
  match Tab.look (s.part part).trees tree with
  | none => s
  | some tr =>
    let r := tr.round round
    let s := s.setTree part tree (tr.setRound { r with seen := if r.seen.contains tile then r.seen else r.seen ++ [tile] })
    let c := s.scount tile tree
    let s := match c.timer with
      | some (n, _) => if n = round then (s.setScount tile tree { c with timer := none }).cancel (.sinterTimerExpire part tree tile) else s
      | none => s
    (tr.entries.foldl (fun (s : State) e => s.sinterWake e.tile tree) s).injectAll
/-- SINTER_RESULT (R223): the result of a round comes to a RECV tile. -/
def execSinterResult (part tree tile round : Nat) (s : State) : Out := .next (s.sinterSeen part tree tile round)
/-- SINTER_TIMER_EXPIRE (R224): the tile asks the root to abort. -/
def execSinterTimerExpire (part tree tile : Nat) (s : State) : Out :=
  .next (let c := s.scount tile tree
         match c.timer with
         | some (n, due) => if due ≤ s.cycle then (s.setScount tile tree { c with timer := some (n, 0) }).later (.sinterAbortRequest part tree n) else s
         | none => s)
/-- SINTER_ABORT_REQUEST (R224): the root aborts unless the round is complete. -/
def execSinterAbortRequest (part tree round : Nat) (s : State) : Out := .next (s.abortRound part tree round 0)
/-- SINTER_ABORT (R224): the abort comes to a tile; its contribution counter passes the round. -/
def execSinterAbort (part tree tile round reason : Nat) (s : State) : Out :=
  .next (match Tab.look (s.part part).trees tree with
    | none => s
    | some tr =>
      let r := tr.round round
      let s := if r.aborted.isNone ∧ r.result.isNone then s.setTree part tree (tr.setRound { r with aborted := some reason }) else s
      let c := s.scount tile tree
      ((s.setScount tile tree { c with contrib := max c.contrib (round + 1) }).sinterSeen part tree tile round))

/-- An entry of a tree descriptor (Table 9.10). -/
def treeEntry (w : Nat) : TreeEntry :=
  { tile := field w 10 0, parent := field w 21 11, root := bitAt w 22, contrib := bitAt w 23, recv := bitAt w 24, corder := field w 27 25 }
/-- The parent chain of a tile reaches the root. -/
def Tree.reaches (tr : Tree) : Nat → Nat → Bool
  | 0, _ => false
  | f + 1, t => match tr.entries.find? fun e => e.tile == t with
    | none => false
    | some e => e.root || tr.reaches f e.parent
/-- A descriptor is valid (R221). -/
def Partition.treeOk (q : Partition) (ws : List Nat) : Bool :=
  let es := ws.map treeEntry
  let tr : Tree := { entries := es }
  (ws.all fun w => field w 63 28 == 0) && (es.all fun e => q.inRect e.tile) && decide ((distinct (es.map fun e => e.tile)).length = es.length)
    && decide ((es.filter fun e => e.root).length = 1) && (es.all fun e => !e.root || decide (e.parent = e.tile))
    && (es.all fun e => tr.reaches (es.length + 1) e.tile)
    && (es.all fun p =>
        let kids := es.filter fun e => !e.root && decide (e.parent = p.tile)
        decide (kids.length ≤ 8 ∧ (distinct (kids.map fun e => e.corder)).length = kids.length))
    && es.any (fun e => e.contrib) && es.any fun e => e.recv
/-- A tree leaves: rounds under way abort with reason 2, waiting VTREEWs fault, the counters are zero again on every tile of the
rectangle (R220, R223). -/
def State.dropTree (s : State) (part k : Nat) : State :=
  match Tab.look (s.part part).trees k with
  | none => s.zeroTree part k
  | some tr =>
    let s := s.procs.foldl (fun s e =>
      if e.2.part = part ∧ e.2.hold.contains (sinterWait k) then
        (s.raiseAt e.1 0x33 .sinterTimeout (sinterInfo k (s.scount e.2.tile k).recv 2)).updProc e.1 fun p => { p with passes := some k }
      else s) s
    let s := { s with staged := s.staged.filter fun m => !(match m.tree with
      | some (j, _) => decide (j = k ∧ (s.proc m.h).part = part)
      | none => false) }
    let s := tr.entries.foldl (fun s e => (s.cancel (.sinterTimerExpire part k e.tile)).sinterWake e.tile k) s
    (s.zeroTree part k).updPart part fun q => { q with trees := Tab.cut q.trees k }
/-- SDESC reads as it was last written: OFF, CLEAR and TREE (Table 9.9). -/
def State.noteSdesc (s : State) (part : Nat) (v : Word) : State := s.updPart part fun q => { q with sdesc := v &&& 0xFFFFF001F }
/-- A write of SDESC by process `h` (R220). -/
def State.sdescWrite (s : State) (h : Nat) (v : Word) : Except (Cause × FInfo) State :=
  let p := s.proc h
  let k := wfield v 3 0
  let off := wfield v 35 16
  if bitAt v.toNat 4 then .ok ((s.dropTree p.part k).noteSdesc p.part v)
  else if off % 8 ≠ 0 then .error (.misalign, FInfo.at off)
  else
    let rd (n : Nat) : Except Cause (List Byte) := match s.placeLocal (p.ctx h 0) off n with
      | .ok (.sram a _) => .ok (s.sramRead a n)
      | .ok _ => .error .protection
      | .error c => .error c
    match rd 8 with
    | .error c => .error (c, FInfo.at off)
    | .ok hd =>
      let n := field (dword hd 0) 11 0
      if n = 0 ∨ 2048 < n ∨ dword hd 0 / 4096 ≠ 0 then .error (.protection, {})
      else match rd (8 + 8 * n) with
        | .error c => .error (c, FInfo.at off)
        | .ok bs =>
          let ws := (List.range n).map fun i => dword (bs.drop (8 + 8 * i)) 0
          if (s.part p.part).treeOk ws = false then .error (.protection, {})
          else
            let s := s.dropTree p.part k
            .ok ((s.setTree p.part k { entries := ws.map treeEntry }).noteSdesc p.part v)
/-- SDESC_LOAD (R220): the action of a write of SDESC by process `h`; one that fails a check changes nothing. -/
def execSdescLoad (h : Nat) (v : BitVec 64) (s : State) : Out :=
  .next (match s.sdescWrite h v with
    | .ok s => s
    | .error _ => s)
/-- SDESC_CLEAR (R220). -/
def execSdescClear (part tree : Nat) (s : State) : Out := .next ((s.dropTree part tree).noteSdesc part (BitVec.ofNat 64 (16 + tree % 16)))

end Sys2Proof.Machine
end

