-- ==== Sys2Proof/Machine/Kill.lean ====
section
/-! DEFINITION. The Lahar kill: KILL, its flood, the routers' windows and the confirmation (R33, R246 to R248, R339). -/

namespace Sys2Proof.Machine

/-- A kill of a network that is in progress. -/
def State.killOf (s : State) (part net : Nat) : Option (Nat × Kill) :=
  s.kills.find? fun e => decide (e.2.part = part ∧ e.2.net = net)
/-- A KILL's register is pending, and it joins a kill in progress or floods the rectangle (R247, R248). -/
def State.killIssue (s : State) (part net d : Nat) : State :=
  let s := if d = 0 then s else s.updMe fun p => { p with pend := Tab.put p.pend d (.kill part) }
  let token := (s.running, d)
  match s.killOf part net with
  | some (id, k) => { s with kills := Tab.put s.kills id { k with tokens := k.tokens ++ [token] } }.retire 0x3C
  | none =>
    let (s, id) := s.fresh
    let tiles := (s.part part).tilesOf
    let k : Kill := { part := part, net := net, root := s.myTile, tokens := [token], waiting := tiles }
    let s := { s with kills := Tab.put s.kills id k }
    let s := s.updPart part fun q => { q with nets := q.nets.map fun n => if n.num = net then { n with killing := true } else n }
    (tiles.foldl (fun s t => s.within 4000 (.laharFlood id t)) s).retire 0x3C
/-- KILL (R246, R339). -/
def execKill (d a : BitVec 5) (s : State) : Out :=
  .next (s.withRegsCommit [a, d] (fun s =>
    let w := s.reg a
    let net := wfield w 7 0
    let part := wfield w 11 8
    if s.me.pl = 0 ∨ (s.me.pl = 1 ∧ part ≠ s.me.part) then s.raise 0x3C .privilege
    else if net = 0 ∨ net = 255 ∨ wfield w 63 12 ≠ 0 ∨ net = s.me.net ∨ (s.part part).valid = false then s.raise 0x3C .protection
    else s.killIssue part net d.toNat))

/-- Credits of messages that a kill discards at their writer return to it, and fall FREE when it leaves its reader. -/
def State.refundStaged (s : State) (h : Nat) : State :=
  let mine := s.staged.filter fun m => decide (m.h = h)
  let s := { s with staged := s.staged.filter fun m => decide (m.h ≠ h) }
  mine.foldl (fun s m => if m.tree.isSome then s else s.takeBack h (.push m.c m.msg)) s
/-- A DRAM server drops the queued requests of a process (R247). -/
def State.dropServerQueue (s : State) (h : Nat) : State :=
  s.eps.foldl (fun s e =>
    if e.1 < 2097152 then s
    else
      let mine (x : QSlot) : Bool := isProcWid x.wid && decide (widProc x.wid = h)
      let gone := (s.ep e.1).queue.filter mine
      let heads := (distinct (gone.map fun x => x.msg)).filterMap fun m => gone.find? fun x => decide (x.msg = m)
      let s := s.updEp e.1 fun y => { y with queue := y.queue.filter fun x => !mine x }
      let s := heads.foldl (fun s x =>
        let (n, r) := replySize { slots := [x.val] }
        (s.updEp r fun y => { y with reserved := y.reserved - n }).addFree r n) s
      if gone.isEmpty then s else s.addFree e.1 gone.length) s
/-- A write of a killed process that has been injected is performed or dropped (R248, log 11). -/
def State.killWrite (s : State) (id : Nat) (r : Req) : State :=
  let c := s.freeCtr
  let s := { s with freeCtr := c + 1 }
  let keep := r.op.writes && Config.killPerforms c
  let s := if keep then s.perform id else s
  { s with reqs := Tab.upd s.reqs id fun r => { r with dropped := true } }
/-- What the egress of an optical link has not sent of a process is dropped: its accesses and its messages (R247). -/
def State.dropEgress (s : State) (h : Nat) : State :=
  let acc (wid : Nat) : Bool := decide (2 ^ 67 ≤ wid) && (Tab.look s.reqs (wid - 2 ^ 67)).any fun r => decide (r.h = h)
  let mine (wid key : Nat) : Bool := acc wid || (isProcWid key && decide (key ≠ 0 ∧ widProc key = h))
  let cut (k : Link) := splitMsgs (fun f => f.own.any fun o => mine o.1 o.2.1) k.txq.length k.txq
  let wids := s.links.flatMap fun e =>
    (e.2.waiting.map fun w => w.2.2) ++ (cut e.2).1.map fun l => (((l.headD default).own).map fun o => o.1).getD 0
  let gone := (wids.filter acc).map fun w => w - 2 ^ 67
  { s with links := Tab.mapV (fun _ k => { k with waiting := k.waiting.filter fun w => !mine w.2.2 (orderKey w), txq := (cut k).2 }) s.links
           remotes := s.remotes.filter fun x => !gone.contains x.req
           reqs := s.reqs.filter fun e => !gone.contains e.1 }
/-- The accesses of a killed process: those not yet injected disappear, the others are no longer wanted (R247, R248). -/
def State.dropAccesses (s : State) (h : Nat) : State :=
  let s := s.dropEgress h
  let held := (s.reqs.filter fun e => decide (e.2.h = h ∧ e.2.after ≠ [])).map fun e => e.1
  let s := { s with reqs := s.reqs.filter fun e => !held.contains e.1 }
  let s := held.foldl (fun s i => s.finish i) s
  (s.reqs.filter fun e => decide (e.2.h = h)).foldl (fun s e => s.killWrite e.1 e.2) s
/-- The records formed in this cycle for a process that a kill ends in it are not produced (R33). -/
def State.dropRecords (s : State) (h : Nat) : State :=
  let mine (r : FRec) : Bool := decide (r.at_ = s.cycle ∧ wfield (r.slots.headD 0) 63 32 = h ∧ r.kind ≠ .report)
  s.updTile (s.proc h).tile fun x => { x with frecs := x.frecs.filter fun r => !mine r }
/-- A kill ends a process: what it holds back is discarded, its bindings are aborted, its control block is marked (R247). The step group of a matrix
command that is under way completes first, and no further one (R172, R348, log 69). -/
def State.killProcess (s : State) (h : Nat) : State :=
  let s := (s.dropRecords h).stopMatrix h
  let s := (s.restart h).refundStaged h
  let t := (s.proc h).tile
  let cb := (s.tile t).cb.filter fun e => decide (e.2.h = h)
  let s := cb.foldl (fun s e => (s.updTile t fun x => { x with cb := Tab.cut x.cb e.1 }).cancel (.cbIdleDrain t e.1)) s
  let s := (s.dropAccesses h).dropServerQueue h
  let s := (s.binds.filter fun e => decide (e.2.h = h)).foldl (fun s e => s.abortBinding e.1 e.2) s
  let p := s.proc h
  let s := s.updPart p.part fun q => { q with leases := q.leases.filter fun l => decide (l.h ≠ h) }
  let s := match p.res, p.cbAt with
    | .swapped, some k => s.hbmStore p.part (k + 0x182) [{ off := 0, nib := 1, val := 7 }]
    | _, _ => s
  let s := (s.finishProcess h).updProc h fun p => { p with dying := false, bulk := none, ending := none, pend := [] }
  s.noteExit h
/-- A router discards the packets of a network that come from or go to its tile; the slots they would have taken are free (R247). -/
def State.routerDiscard (s : State) (part net t : Nat) : State :=
  let hit (m : NetMsg) : Bool := decide (m.part = part ∧ m.net = net) && (match m.body with
    | .data _ => decide (s.widTile m.wid = t) || m.dest.onTile t
    | _ => false)
  let gone := s.net.filter hit
  gone.foldl (fun s m => match m.dest.rid, m.body with
    | some rid, .data x => if (s.ep rid).bound then s.addFree rid x.size else s
    | _, _ => s) { s with net := s.net.filter fun m => !hit m }
/-- An open round to which a network has contributed. -/
def Round.takes (r : Round) (net : Nat) : Bool := r.isOpen && r.nets.any fun e => decide (e.2 = net)
/-- The rounds of a partition's trees change. -/
def State.mapRounds (s : State) (part : Nat) (f : Round → Option Round) : State :=
  s.updPart part fun q => { q with trees := Tab.mapV (fun _ tr => { tr with rounds := tr.rounds.filterMap f }) q.trees }
/-- The router of a tile drops what a killed network has contributed there and is not combined, and the partial result of its rounds
(R414, R428). -/
def State.sinterDiscard (s : State) (part net t : Nat) : State :=
  s.mapRounds part fun r =>
    if r.takes net then
      some { r with contribs := if Tab.look r.nets t = some net then Tab.cut r.contribs t else r.contribs, partials := Tab.cut r.partials t }
    else some r
/-- The timers of a round of tree `k` stop on every tile of the partition. -/
def State.stopTimers (s : State) (part k n : Nat) : State :=
  let on (t : Nat) : Bool := (s.part part).inRect t && (s.scount t k).timer.any fun x => decide (x.1 = n)
  (s.tiles.filter fun e => on e.1).foldl (fun (s : State) e =>
    (s.setScount e.1 k { s.scount e.1 k with timer := none }).cancel (.sinterTimerExpire part k e.1)) s
/-- With the confirmation no router holds any state of a round to which the killed network contributed; the tiles keep their counters (R428,
log 94). -/
def State.sinterPurge (s : State) (part net : Nat) : State :=
  let gone := (s.part part).trees.flatMap fun e => (e.2.rounds.filter fun r => r.takes net).map fun r => (e.1, r.num)
  let s := s.mapRounds part fun r => if r.takes net then none else some r
  let s := gone.foldl (fun (s : State) g => (s.stopTimers part g.1 g.2).cancel (.sinterAbortRequest part g.1 g.2)) s
  ((s.part part).trees.foldl (fun s e => e.2.entries.foldl (fun (s : State) x => s.sinterWake x.tile e.1) s) s).injectAll
/-- A kill acts at a tile: the router discards, and every process of the network there ends (R247). -/
def State.killAt (s : State) (id tile : Nat) (k : Kill) : State :=
  let hs := (s.liveOf k.part).filter fun h => decide ((s.proc h).net = k.net ∧ (s.proc h).tile = tile)
  let s := hs.foldl (fun s h => s.killProcess h) ((s.routerDiscard k.part k.net tile).sinterDiscard k.part k.net tile)
  { s with kills := Tab.upd s.kills id fun k => { k with count := k.count + hs.length } }
/-- LAHAR_FLOOD (R247): the flood reaches a tile. -/
def execLaharFlood (kill tile : Nat) (s : State) : Out :=
  .next (match Tab.look s.kills kill with
    | none => s
    | some k =>
      let s := s.killAt kill tile k
      { s with kills := Tab.upd s.kills kill fun k => { k with windows := k.windows ++ [tile] } }.afterCycles 4096 (.killWindowEnd kill tile))
/-- KILL_WINDOW_END (R247): a child whose SPAWN was under way to the tile ends too; the window ends, and the tile reports. -/
def execKillWindowEnd (kill tile : Nat) (s : State) : Out :=
  .next (match Tab.look s.kills kill with
    | none => s
    | some k =>
      let s := s.killAt kill tile k
      { s with kills := Tab.upd s.kills kill fun k => { k with windows := k.windows.filter (· ≠ tile) } }.within 40000 (.killReport kill tile))
/-- KILL_REPORT (R247, R248): with the last report the root writes every token with the count. -/
def execKillReport (kill tile : Nat) (s : State) : Out :=
  .next (match Tab.look s.kills kill with
    | none => s
    | some k =>
      let k := { k with waiting := k.waiting.filter (· ≠ tile) }
      if k.waiting ≠ [] then { s with kills := Tab.put s.kills kill k }
      else
        let s := { s with kills := Tab.cut s.kills kill }.sinterPurge k.part k.net
        let s := k.tokens.foldl (fun s t => if t.2 = 0 then s else s.deliver t.1 t.2 (BitVec.ofNat 64 k.count)) s
        let mine := (s.part k.part).nets.any fun n => decide (n.num = k.net)
        let s := s.updPart k.part fun q =>
          { q with nets := q.nets.map fun n => if n.num = k.net then { n with killing := false, killed := some k.count } else n }
        if mine then s.later (.loaderEndReply k.part k.net) else s)

end Sys2Proof.Machine
end

