-- ==== Sys2Proof/Machine/Lease.lean ====
section
/-! DEFINITION. Wavelength leases, lane states, training and loss of light: LEASE, LREVOKE, LQUERY and the steps of the optical
engines (R198, R202 to R207, R212 to R219). -/

namespace Sys2Proof.Machine

/-- Engine, fibre and wavelength of a transmit lane (Table 1.2) where a LINK record has them (Table 9.3). -/
def linkLane (lane : Nat) : Nat := lane % 4 * 2 ^ 25 + lane / 4 % 32 * 2 ^ 20 + lane / 128 % 16 * 2 ^ 16
/-- The LINK record of a lane of a link (Table 9.3). -/
def State.linkRecord (s : State) (part peer lane event : Nat) (repl seq : Nat) : State :=
  let n := (s.laneList part peer).length
  s.toHost (8 * part + 2)
    [BitVec.ofNat 64 (peer % 2 ^ 22 * 2 ^ 31 + part % 16 * 2 ^ 27 + linkLane lane + event * 2 ^ 8 + 1),
     BitVec.ofNat 64 (n * 2 ^ 48 + repl % 2 ^ 16 * 2 ^ 32 + seq % 2 ^ 32), BitVec.ofNat 64 s.cycle, 0]
/-- The partition whose pool holds a lane. -/
def State.poolOf (s : State) (l : Nat) : Option Nat := (s.parts.find? fun e => e.2.valid && e.2.pool.contains l).map fun e => e.1
/-- HELD lanes to a peer. -/
def State.heldTo (s : State) (part p : Nat) : Nat := (s.laneList part p).length
/-- Lanes OFFERED and TRAINING to a peer. -/
def State.underWay (s : State) (part p : Nat) : List (Nat × Lane) :=
  s.lanes.filter fun e => decide (e.2.part = part ∧ e.2.peer = p ∧ (e.2.st = .offered ∨ e.2.st = .training))
/-- Those that serve the partition's own request. -/
def State.requestLanesTo (s : State) (part p : Nat) : Nat :=
  ((s.underWay part p).filter fun e => !e.2.taken && !e.2.removed).length
/-- Change the request of a partition to a peer. -/
def State.updLease (s : State) (part p : Nat) (f : LeaseReq → LeaseReq) : State :=
  s.updPart part fun q => { q with leases := q.leases.map fun r => if r.peer = p then f r else r }
/-- The request of a partition to a peer. -/
def State.leaseOf (s : State) (part p : Nat) : Option LeaseReq := (s.part part).leases.find? fun r => decide (r.peer = p)
/-- A request ends, and its token receives a value (R214, R216). -/
def State.endLease (s : State) (part p : Nat) (v : Word) : State :=
  match s.leaseOf part p with
  | none => s
  | some r =>
    let s := s.updPart part fun q => { q with leases := q.leases.filter fun x => decide (x.peer ≠ p) }
    let s := s.cancel (.starvationRevoke part p)
    if r.sd = 0 then s else s.deliver r.h r.sd v
/-- A request completes, or fails once every lane of the pool that reaches the peer has been rejected or is held to it (R214). -/
def State.settleLease (s : State) (part p : Nat) : State :=
  match s.leaseOf part p with
  | none => s
  | some r =>
    let held := s.laneList part p
    let reach := (s.part part).pool.filter fun l => (s.reachOf l p).isSome
    if r.n ≤ r.added then s.endLease part p (BitVec.ofNat 64 held.length)
    else if reach.all fun l => r.rejected.contains l || held.contains l then
      s.endLease part p (BitVec.ofNat 64 (2 ^ 63 + held.length * 256 + 0x0E))
    else s
/-- The lane can be offered to a request (R214). -/
def State.canOffer (s : State) (part l : Nat) (r : LeaseReq) : Bool :=
  (s.reachOf l r.peer).isSome && !r.rejected.contains l && decide (s.requestLanesTo part r.peer < r.n - r.added)
/-- Every FREE lane of a pool is offered to the oldest request that can take it, in increasing lane id (R212, R214). -/
def State.offerLanes (s : State) (part : Nat) : State :=
  if (s.part part).leases.isEmpty then s
  else (s.part part).pool.foldl (fun s l =>
    if (s.lane l).st ≠ .free then s
    else match (s.part part).leases.find? fun r => s.canOffer part l r with
      | none => s
      | some r =>
        let s := s.updLane l fun _ => { st := .offered, peer := r.peer, part := part, at_ := s.cycle }
        let s := s.updLease part r.peer fun r => { r with offeredEver := true, lastOffer := s.cycle }
        (s.emit (.offer l r.peer)).afterCycles 7500 (.offerTimeout l)) s
/-- Lanes that fall FREE in this cycle are offered to whoever waits for them. -/
def State.offerFallen (s : State) (part : Nat) (ls : List Nat) : State :=
  ls.foldl (fun s l => if (s.lane l).st = .offered then s.updLane l fun x => { x with fell := true } else s) (s.offerLanes part)
/-- A lane becomes FREE, and is offered to whoever waits for it. -/
def State.freeLane (s : State) (l : Nat) : State :=
  let s := { s with lanes := Tab.cut s.lanes l }.cancel (.laneDrainEnd l)
  match s.poolOf l with
  | some n => s.offerFallen n [l]
  | none => s
/-- A request has been cancelled: lanes that fell FREE in this cycle and were offered for it go to the next request in age order
(R219). -/
def State.reoffer (s : State) (part p : Nat) : State :=
  let ls := (s.lanes.filter fun e => decide (e.2.part = part ∧ e.2.peer = p ∧ e.2.st = .offered ∧ e.2.fell ∧ e.2.at_ = s.cycle)).map fun e => e.1
  if ls.isEmpty then s
  else
    (ls.foldl (fun (s : State) l =>
      { s with lanes := Tab.cut s.lanes l, out := (s.out.reverse.erase (.offer l p)).reverse }.cancel (.offerTimeout l)) s).offerFallen part ls

/-- Check 1 of R214. -/
def State.badPeer (s : State) (w : Word) : Bool :=
  decide (wfield w 63 22 ≠ 0 ∨ w.toNat = s.ownId.toNat) || !s.myPart.peers.contains w.toNat
/-- LEASE (R213, R214). -/
def execLease (d a b : BitVec 5) (s : State) : Out :=
  .next (s.withRegsCommit [a, b, d] (fun s =>
    let p := s.regN a
    let n := s.regN b
    let part := s.me.part
    if s.badPeer (s.reg a) then s.raise 0x32 .protection
    else if n = 0 ∨ 64 < n + s.heldTo part p + (s.underWay part p).length then s.raise 0x32 .protection
    else if (s.leaseOf part p).isSome then s.raise 0x32 .protection
    else if (s.myPart.pool.any fun l => (s.reachOf l p).isSome) = false then s.raise 0x32 .leaseFault { aux := p }
    else
      let r : LeaseReq := { peer := p, n := n, h := s.running, sd := d.toNat, age := s.cycle }
      let s := s.updPart part fun q => { q with leases := q.leases ++ [r] }
      let s := if d = 0 then s else s.updMe fun x => { x with pend := Tab.put x.pend d.toNat (.lease p) }
      (((s.afterCycles 1500000 (.starvationRevoke part p)).offerLanes part).settleLease part p).retire 0x32))

/-- The floor of a link: a channel joins the partition to the peer (R216). -/
def State.floor (s : State) (part q : Nat) : Nat :=
  let writes := s.procs.any fun e => decide (e.2.part = part) && e.2.chans.any fun c => decide (c.2.role = .writer) && (match c.2.dest with
    | .peer p _ => decide (p = q)
    | _ => false)
  let reads := s.eps.any fun e => decide (e.1 < 1048576 ∧ s.ridPart e.1 = part) && e.2.writers.any fun w => isRemoteWid w && decide (remotePeer w = q)
  bit1 (writes || reads)
/-- A HELD lane drains: it takes no new flit (R212). One with nothing unacknowledged still shows as draining in the next cycle (R344). -/
def State.drainAlone (s : State) (part p l : Nat) : State :=
  let s := s.updLane l fun x => { x with st := .draining, since := s.cycle }
  let s := s.updLink part p fun k => { k with q0 := k.next }
  if (s.link part p).unacked.all fun f => decide (f.lane ≠ l) then
    { s with events := insertDue (s.cycle + 2 + Config.delay s.freeCtr % 2999) (.laneDrainEnd l) s.events, freeCtr := s.freeCtr + 1 }
  else s.afterCycles 3000 (.laneDrainEnd l)
/-- A HELD lane is revoked, and its companion at the peer with it (R212, R216). -/
def State.drainLane (s : State) (part p l : Nat) : State := (s.drainAlone part p l).tellPeer p l
/-- A link whose last quarantined lane has been revoked is quarantined no longer, but for one whose epoch would wrap (R207, R216,
R257). -/
def State.settleQuar (s : State) (part p : Nat) : State :=
  if s.lanesIn part p .quar = [] ∧ (s.link part p).spent = false then s.updLink part p fun k => { k with quar := false } else s
/-- Revoke one lane as a forced LREVOKE does (R216); a DARK one stays DARK until its light returns (R205, R217). -/
def State.forceLane (s : State) (part p l : Nat) : State :=
  match (s.lane l).st with
  | .held => s.drainLane part p l
  | .quar => (s.freeLane l).tellPeer p l
  | .dark => (s.updLane l fun x => { x with forced := true }).tellPeer p l
  | _ => s
/-- The lane was revoked by a starvation revocation of this cycle (R219). -/
def State.starvedNow (s : State) (x : Lane) : Bool := decide (x.st = .draining ∧ x.starved ∧ x.since = s.cycle)
/-- Lanes of a link that a forced LREVOKE may revoke, or counts as revoked in this cycle (R216, R219). -/
def State.forceable (s : State) (part p : Nat) : List Nat :=
  (s.lanes.filter fun e => decide (e.2.part = part ∧ e.2.peer = p) &&
    (decide (e.2.st = .held ∨ e.2.st = .quar ∨ (e.2.st = .dark ∧ e.2.forced = false)) || s.starvedNow e.2)).map fun e => e.1
/-- HELD lanes of the link, with one that a starvation revocation has chosen in this cycle: an LREVOKE that chooses it too counts it
(R219). -/
def State.heldBefore (s : State) (part p : Nat) : List Nat :=
  (s.lanes.filter fun e => decide (e.2.part = part ∧ e.2.peer = p) && (decide (e.2.st = .held) || s.starvedNow e.2)).map fun e => e.1
/-- The lanes that an LREVOKE takes of those it may, in the order given: up to `n`, and `spare` of the HELD ones, so that the link keeps its
floor; one that a starvation revocation takes in this cycle counts as well (R216, R219). -/
def State.pickLanes (s : State) : List Nat → Nat → Nat → List Nat
  | [], _, _ => []
  | _ :: _, 0, _ => []
  | l :: t, n + 1, spare =>
    if (s.lane l).st ≠ .held then l :: s.pickLanes t n spare
    else if spare = 0 then s.pickLanes t (n + 1) 0
    else l :: s.pickLanes t n (spare - 1)
/-- LREVOKE (R213, R216, R219): its checks in the order in which R216 states them (R344). -/
def execLrevoke (d a b : BitVec 5) (s : State) : Out :=
  .next (s.withRegsCommit [a, b, d] (fun s =>
    let p := s.regN a
    let w := s.reg b
    let n := wfield w 6 0
    let part := s.me.part
    let force := bitAt w.toNat 63
    if wfield w 62 7 ≠ 0 then s.raise 0x32 .protection
    else if force ∧ s.me.pl = 0 then s.raise 0x32 .privilege
    else if s.badPeer (s.reg a) then s.raise 0x32 .protection
    else if n = 0 then
      let t := (s.endLease part p (BitVec.ofNat 64 (s.heldTo part p))).reoffer part p
      (t.setReg d 0).retire 0x32
    else if force then
      let ls := (s.forceable part p).reverse.take n
      let s := ((ls.foldl (fun s l => s.forceLane part p l) s).settleQuar part p).pumpAll part
      (s.setReg d (BitVec.ofNat 64 ls.length)).retire 0x32
    else
      let was := s.heldBefore part p
      let ok := was.filter fun l => decide ((s.lane l).st = .draining ∨ (s.lane l).at_ + 150000 ≤ s.cycle)
      let ls := s.pickLanes ok.reverse n (s.heldTo part p - s.floor part p)
      let s := ls.foldl (fun s l => if (s.lane l).st = .held then s.drainLane part p l else s) s |>.pumpAll part
      (s.setReg d (BitVec.ofNat 64 ls.length)).retire 0x32))
/-- LINK of Table 9.8: 0 only where no lane is QUAR either. -/
def State.linkState (s : State) (part p : Nat) : Nat :=
  if (s.link part p).quar then 3
  else if s.heldTo part p ≠ 0 then 1
  else if (s.underWay part p) ≠ [] then 2
  else if s.lanesIn part p .quar ≠ [] then 3 else 0
/-- The result of LQUERY (Table 9.8). -/
def State.linkQuery (s : State) (part p : Nat) : Nat :=
  let n (st : LState) := (s.lanesIn part p st).length
  let r := s.leaseOf part p
  s.linkState part p * 2 ^ 62 + s.floor part p * 2 ^ 61 + bit1 r.isSome * 2 ^ 60 + ((r.map fun r => r.n - r.added).getD 0) * 2 ^ 40
    + n .dark * 2 ^ 32 + n .draining * 2 ^ 24 + (s.underWay part p).length * 2 ^ 16 + s.heldTo part p
/-- LQUERY (R217); it commits no strip. -/
def execLquery (d a : BitVec 5) (s : State) : Out :=
  .next (s.withRegs [a, d]
    (if s.badPeer (s.reg a) then s.raise 0x32 .protection
     else (s.setReg d (BitVec.ofNat 64 (s.linkQuery s.me.part (s.regN a)))).retire 0x32))

/-- The lanes of a link's lease, in increasing id: those a lane map names (R199). -/
def State.leaseLanes (s : State) (part p : Nat) : List Nat :=
  (s.lanes.filter fun e => decide (e.2.part = part ∧ e.2.peer = p ∧ (e.2.st = .held ∨ e.2.st = .training))).map fun e => e.1
/-- The number of set bits below 64. -/
def popc (m : Nat) : Nat := ((List.range 64).filter fun i => bitAt m i).length
/-- The capability word of a view (Table 9.5). -/
def capWord (map width speed : Nat) : BitVec 128 :=
  let hi := (map % 2 ^ 64 * 2 ^ 64 + width % 256 * 2 ^ 56 + speed % 16 * 2 ^ 52) / 2 ^ 32
  BitVec.ofNat 128 (hi * 2 ^ 32 + crc32 ((List.range 12).map fun i => hi / 256 ^ i % 256))
/-- The word's own CRC holds (R206). -/
def capGood (w : BitVec 128) : Bool :=
  decide (w.toNat % 2 ^ 32 = crc32 ((List.range 12).map fun i => w.toNat / 2 ^ 32 / 256 ^ i % 256))
/-- Send the own view on every trained lane, with the KEYID behind it (R207, R257, log 83). -/
def State.sendView (s : State) (part p : Nat) : State :=
  match (s.link part p).training with
  | none => s
  | some (_, map, width, speed, _) =>
    let w := (capWord map width speed).toNat
    let id := (s.part part).key.keyid.toNat
    let f := flitBits (flitHeader 2 3 true true 2 0 false) [BitVec.ofNat 64 w, BitVec.ofNat 64 (w / 2 ^ 64), BitVec.ofNat 64 id]
    (s.lanesIn part p .training).foldl (fun s l => s.emit (.flit part p l f)) s
/-- A training exchange starts with this end's view: every lane of the lease, at the link's speed (R207). -/
def State.startTraining (s : State) (part p : Nat) (report : Bool) : State :=
  let n := (s.leaseLanes part p).length
  let told := match (s.link part p).training with
    | some (_, _, _, _, r) => r
    | none => false
  if s.lanesIn part p .training = [] then s.updLink part p fun k => { k with training := none }
  else
    (s.updLink part p fun k => { k with training := some (1, 2 ^ n - 1, n, k.speed, report || told) }).sendView part p
/-- Quarantine of a link (R207, Table 9.6): EVENT 3, and every lane of the link is QUAR. -/
def State.quarantine (s : State) (part p : Nat) : State :=
  let ls := s.leaseLanes part p
  let s := s.quarLink part p
  let s := s.linkRecord part p (ls.headD 0) 3 0 (s.link part p).next
  (s.offerLanes part).settleLease part p
/-- Agreed: the lanes of the map are HELD, at the agreed speed (R207, R212). A link that had lost all its lanes replays what is not acknowledged
(R202, R203, R212). -/
def State.agreed (s : State) (part p map speed : Nat) (report : Bool) : State :=
  let ls := s.leaseLanes part p
  let dead := (s.laneList part p).isEmpty
  let inMap (i : Nat) := bitAt map i
  let news := (ls.zipIdx.filter fun x => inMap x.2 && decide ((s.lane x.1).st = .training)).map fun x => x.1
  let mine := (news.filter fun l => !(s.lane l).taken && !(s.lane l).removed).length
  let s := ls.zipIdx.foldl (fun s x =>
    s.updLane x.1 fun y => if inMap x.2 = false ∨ y.st = .held then y
                           else { y with st := .held, at_ := s.cycle, removed := false, crcBad := 0, crcAll := 0 }) s
  let s := s.updLink part p fun k => { k with training := none, speed := speed, q0 := k.next }
  let (s, n, q) := if dead then s.replayAll part p else (s, 0, (s.link part p).next)
  let s := s.updLease part p fun r => { r with added := r.added + mine }
  let s := if report then s.linkRecord part p ((news ++ ls).headD 0) 2 n q else s
  ((s.settleLease part p).offerLanes part).pumpAll part
/-- RETRAIN (R207): the supervisor asks, and the link's HELD lanes are trained, with those that are in training. -/
def execRetrain (part peer : Nat) (s : State) : Out :=
  .next (if (s.link part peer).quar then s
    else
      let s := (s.laneList part peer).foldl (fun s l => s.updLane l fun x => { x with st := .training, removed := true }) s
      ((s.updLink part peer fun k => { k with q0 := k.next }).startTraining part peer true).pumpAll part)
/-- TRAINING_WORD (R206, R207, R257): the peer's word of one exchange. A map that leaves a lane of the lease out does not agree it: it goes to
QUAR with its link (Table 9.6, log 35). A word that comes while this end does not train is ignored (log 83). -/
def execTrainingWord (part peer : Nat) (w : BitVec 128) (keyid : BitVec 32) (s : State) : Out :=
  .next (match (s.link part peer).training with
    | none => s
    | some (x, map, width, speed, report) =>
      let m := w.toNat / 2 ^ 64
      let same := m &&& map
      let aw := min (min width (w.toNat / 2 ^ 56 % 256)) (popc same)
      let asp := max speed (w.toNat / 2 ^ 52 % 16)
      let good := capGood w
      if good ∧ keyid ≠ (s.part part).key.keyid then s.quarantine part peer
      else if good ∧ m = map ∧ w.toNat / 2 ^ 56 % 256 = width ∧ w.toNat / 2 ^ 52 % 16 = speed ∧ same = map ∧ aw = width ∧ asp = speed then
        (if popc map < (s.leaseLanes part peer).length then s.quarantine part peer else s.agreed part peer map speed report)
      else if 3 ≤ x then s.quarantine part peer
      else
        (s.updLink part peer fun k =>
          { k with training := some (if good then (x + 1, same, aw, asp, report) else (x + 1, map, width, speed, report)) }).sendView part peer)

/-- The offer of a lane is rejected: it is FREE and marked for the request (R212). -/
def State.rejectOffer (s : State) (l : Nat) : State :=
  let x := s.lane l
  let s := { s with lanes := Tab.cut s.lanes l }
  let s := s.updLease x.part x.peer fun r => { r with rejected := r.rejected ++ [l] }
  (s.settleLease x.part x.peer).offerFallen x.part [l]
/-- OFFER_ANSWER (R212). -/
def execOfferAnswer (lane : Nat) (accept : Bool) (s : State) : Out :=
  .next (let x := s.lane lane
         if x.st ≠ .offered then s
         else if accept = false ∨ x.at_ + 7500 < s.cycle then s.rejectOffer lane
         else
           let s := s.updLane lane fun x => { x with st := .training }
           ({ s with events := insertDue (max s.cycle (x.at_ + 30000)) (.trainingTimeout lane) s.events }).startTraining x.part x.peer false)
/-- OFFER_TIMEOUT (R212). -/
def execOfferTimeout (lane : Nat) (s : State) : Out :=
  .next (let x := s.lane lane
         if x.st = .offered ∧ x.at_ + 7500 ≤ s.cycle then s.rejectOffer lane else s)
/-- TRAINING_TIMEOUT (R212): a lane not agreed goes to QUAR, with its link. -/
def execTrainingTimeout (lane : Nat) (s : State) : Out :=
  .next (let x := s.lane lane
         if x.st = .training ∧ x.removed = false ∧ x.at_ + 30000 ≤ s.cycle then s.quarantine x.part x.peer else s)
/-- LANE_OFFER (R198, R212): a peer offers its lane `peerLane`, which arrives on receive lane `rlane`; the companion that the
peer's tables name is `backLane`. -/
def execLaneOffer (rlane peer peerLane backLane : Nat) (s : State) : Out :=
  .next (match s.poolOf rlane with
    | none => s.emit (.answer rlane false)
    | some n =>
      let lanes := s.leaseLanes n peer
      let ok := decide ((s.lane rlane).st = .free ∧ backLane = rlane ∧ s.reachOf rlane peer = some peerLane ∧ lanes.length < 64)
        && (s.part n).peers.contains peer
      if ok then
        let s := s.updLane rlane fun _ => { st := .training, peer := peer, part := n, at_ := s.cycle, taken := true }
        ((s.emit (.answer rlane true)).afterCycles 30000 (.trainingTimeout rlane)).startTraining n peer false
      else s.emit (.answer rlane false))
/-- STARVATION_REVOKE (R215): the request has been pending for a further full millisecond. -/
def execStarvationRevoke (part peer : Nat) (s : State) : Out :=
  .next (match s.leaseOf part peer with
    | none => s
    | some r =>
      let s := s.afterCycles 1500000 (.starvationRevoke part peer)
      if r.offeredEver ∧ s.cycle ≤ r.lastOffer + 1500000 then s
      else
        let lane (q : Nat) : Option Nat :=
          if s.floor part q < s.heldTo part q then
            (s.laneList part q).reverse.find? fun l => (s.reachOf l peer).isSome && decide ((s.lane l).at_ + 150000 ≤ s.cycle)
          else none
        let qs := (s.part part).peers.filter fun q => decide (q ≠ peer ∧ s.heldTo part q ≠ 0) && (lane q).isSome
        let best := qs.foldl (fun (a : Option Nat) q => match a with
          | none => some q
          | some b => if s.heldTo part b < s.heldTo part q ∨ (s.heldTo part b = s.heldTo part q ∧ q < b) then some q else a) none
        match best with
        | none => s
        | some q => match lane q with
          | none => s
          | some l => ((s.drainLane part q l).updLane l fun x => { x with starved := true }).pumpAll part)
/-- The flits last sent on a lane that has drained for 3000 cycles: with no other lane in the link they follow R209 (R212). -/
def State.leaveAstray (s : State) (part p lane : Nat) : State :=
  if s.laneList part p = [] then
    s.updLink part p fun k => { k with unacked := k.unacked.map fun f => if f.lane = lane then { f with astray := true } else f }
  else s
/-- LANE_DRAIN_END (R212): the lane's flits are acknowledged, or 3000 cycles have elapsed, and what is left goes by the others. At a lane
that does not drain it is the lease protocol's message that the companion at the peer has been revoked: a HELD lane drains, one that is QUAR
is FREE, and one that is DARK is revoked (R216, log 83). -/
def execLaneDrainEnd (lane : Nat) (s : State) : Out :=
  .next (let x := s.lane lane
         let done := (s.link x.part x.peer).unacked.all fun f => decide (f.lane ≠ lane)
         match x.st with
         | .held => (s.drainAlone x.part x.peer lane).pumpAll x.part
         | .quar => ((s.freeLane lane).settleQuar x.part x.peer).pumpAll x.part
         | .dark => s.updLane lane fun y => { y with forced := true }
         | .draining =>
           if done then (s.freeLane lane).pumpAll x.part
           else if x.since + 3000 ≤ s.cycle then (((s.leaveAstray x.part x.peer lane).replayAll x.part x.peer).1.freeLane lane).pumpAll x.part
           else s
         | _ => s)

/-- CRC_THRESHOLD (R202): the lane leaves the list at once and is trained again; what is not acknowledged is replayed. -/
def execCrcThreshold (lane : Nat) (s : State) : Out :=
  .next (let x := s.lane lane
         if x.st ≠ .held then s
         else
           let s := s.updLane lane fun x => { x with st := .training, removed := true, crcBad := 0, crcAll := 0 }
           let (s, n, q) := s.replayAll x.part x.peer
           ((s.linkRecord x.part x.peer lane 5 n q).startTraining x.part x.peer true).pumpAll x.part)
/-- The step is the loss of light of this lane, or of the laser source that feeds it: numbers from 2048 on name sources (R15, log 83). -/
def darkens (lane : Nat) (i : Instr) : Bool :=
  match i with
  | .lossOfLight m => m == lane || (decide (2048 ≤ m) && (laserLanes (m - 2048)).contains lane)
  | _ => false
/-- The other lanes of the same link whose loss of light is detected in this cycle: those of the failed source, and those whose own step
is due (R15, R203). -/
def State.alsoDark (s : State) (group : List Nat) (lane : Nat) : List Nat :=
  let x := s.lane lane
  (s.lanes.filter fun e => decide (e.1 ≠ lane ∧ e.2.part = x.part ∧ e.2.peer = x.peer ∧ e.2.st ≠ .free ∧ e.2.st ≠ .dark)
    && (group.contains e.1 || s.events.any fun v => decide (v.1 ≤ s.cycle) && darkens e.1 v.2)).map fun e => e.1
/-- Loss of light on a lane, which on a DARK one interrupts the millisecond of its light (R205): the lanes of its link that are lost in this cycle are DARK together, what is not acknowledged is replayed
once, and each lane has its record, with the lane list as it then is (R203, R212). -/
def State.loseLight (s : State) (group : List Nat) (lane : Nat) : State :=
  let x := s.lane lane
  if x.st = .free then s
  else if x.st = .dark then s.updLane lane fun y => { y with at_ := s.cycle }
  else
    let ls := lane :: s.alsoDark group lane
    let was (c : LState) : List Nat := ls.filter fun l => decide ((s.lane l).st = c)
    let lit := [LState.held, .draining, .training].any fun c => !(was c).isEmpty
    let offers := was .offered
    let trains := was .training
    let s := ls.foldl (fun s l => s.updLane l fun y => { st := .dark, peer := y.peer, part := y.part, at_ := s.cycle }) s
    let s := ls.foldl (fun s l => s.cancel (.laneDrainEnd l)) s
    let s := if offers.isEmpty then s else s.updLease x.part x.peer fun r => { r with rejected := r.rejected ++ offers }
    let (s, n, q) := if lit then s.replayAll x.part x.peer else (s, 0, (s.link x.part x.peer).next)
    let s := ls.foldl (fun s l => s.linkRecord x.part x.peer l 1 n q) s
    let s := if trains.isEmpty then s else s.startTraining x.part x.peer false
    (if offers.isEmpty && trains.isEmpty then s else (s.settleLease x.part x.peer).offerLanes x.part).pumpAll x.part
/-- LOSS_OF_LIGHT (R15, R203, R212, R219): of one lane, or of the 32 lanes of a failed laser source. -/
def execLossOfLight (lane : Nat) (s : State) : Out :=
  .next (if lane < 2048 then s.loseLight [] lane
         else
           let ls := laserLanes (lane - 2048)
           ls.foldl (fun s l => s.loseLight ls l) s)
/-- LIGHT_RESTORED (R205): light has been present for 1,500,000 cycles; the DARK lane is FREE in its pool, whose partition has the record,
and its companion is revoked where that has not happened before (R212, R216). -/
def execLightRestored (lane : Nat) (s : State) : Out :=
  .next (let x := s.lane lane
         if x.st ≠ .dark ∨ s.cycle < x.at_ + 1500000 then s
         else
           let t := { s with lanes := Tab.cut s.lanes lane }
           let t := match s.poolOf lane with
             | some n => t.linkRecord n x.peer lane 4 0 (s.link x.part x.peer).next
             | none => t
           if x.forced then t.freeLane lane else (t.freeLane lane).tellPeer x.peer lane)

end Sys2Proof.Machine
end

