-- ==== Sys2Proof/Machine/Loader.lean ====
section
/-! DEFINITION. The loader: images, launches, replies, and the two runs of checking mode (R2, R124 to R127, R246, R266, R292 to
R294). -/

namespace Sys2Proof.Machine

/-- A process record (Table 12.18), tile relative to the rectangle. -/
structure IProc where
  tile : Nat
  prio : Nat
  lanes : Nat
  entry : Nat
  wbase : Nat
  wsize : Nat
  args : List Word
  deriving DecidableEq, Repr
/-- A channel record. -/
structure IChan where
  wproc : Nat
  wreg : Nat
  rproc : Nat
  rreg : Nat
  once : Bool
  cap : Nat
  hep : Nat
  deriving DecidableEq, Repr
/-- A section record. -/
structure ISect where
  base : Nat
  kind : Nat
  len : Nat
  perm : Nat
  zero : Bool
  proc : Nat
  data : List Word
  deriving DecidableEq, Repr
/-- An image whose records have the layout of Table 12.18. -/
structure Image where
  det : Bool
  check : Bool
  procs : List IProc
  chans : List IChan
  sects : List ISect
  leases : List (Nat × Nat)
  trees : List (Nat × List Nat)
  deriving DecidableEq, Repr

/-- The records of an image: kind and body; none where one overruns it or its head has a reserved bit. -/
def cutRecords : Nat → List Word → Option (List (Nat × List Word))
  | 0, [] => some []
  | 0, _ => none
  | _, [] => none
  | n + 1, h :: t =>
    let body := wfield h 31 8
    if wfield h 63 32 ≠ 0 ∨ t.length < body then none
    else (cutRecords n (t.drop body)).map fun l => (wfield h 7 0, t.take body) :: l
/-- A process record. -/
def iproc (b : List Word) : Option IProc :=
  match b with
  | [a, e, w, x1, x2, x3, x4] =>
    if wfield a 15 11 ≠ 0 ∨ wfield a 19 18 ≠ 0 ∨ wfield a 63 27 ≠ 0 ∨ wfield e 63 48 ≠ 0 ∨ wfield w 31 9 ≠ 0 ∨ wfield w 63 41 ≠ 0
        ∨ wfield w 40 32 = 0 then none
    else some { tile := wfield a 10 0, prio := wfield a 17 16, lanes := wfield a 26 20, entry := e.toNat, wbase := wfield w 8 0 * 4096,
                wsize := wfield w 40 32 * 4096, args := [x1, x2, x3, x4] }
  | _ => none
/-- A channel record. -/
def ichan (b : List Word) : Option IChan :=
  match b with
  | [a, c] =>
    if wfield a 63 41 ≠ 0 ∨ wfield c 31 13 ≠ 0 ∨ wfield c 63 43 ≠ 0 then none
    else some { wproc := wfield a 15 0, wreg := wfield a 19 16, rproc := wfield a 35 20, rreg := wfield a 39 36, once := bitAt a.toNat 40,
                cap := wfield c 12 0, hep := wfield c 42 32 }
  | _ => none
/-- A section record. -/
def isect (b : List Word) : Option ISect :=
  match b with
  | a :: c :: data =>
    let x : ISect := { base := wfield a 47 0, kind := wfield a 51 48, len := wfield c 31 0, perm := wfield c 35 32, zero := bitAt c.toNat 36,
                       proc := wfield c 63 48, data := data }
    if wfield a 63 52 ≠ 0 ∨ wfield c 47 37 ≠ 0 ∨ 2 < x.kind ∨ data.length ≠ (if x.zero then 0 else cdiv x.len 8) ∨ (x.kind ≠ 2 ∧ x.perm ≠ 0)
        ∨ (x.kind ≠ 0 ∧ x.proc ≠ 0) then none
    else some x
  | _ => none
/-- A lease record. -/
def ilease (b : List Word) : Option (Nat × Nat) :=
  match b with
  | [a] => if wfield a 63 29 ≠ 0 then none else some (wfield a 21 0, wfield a 28 22)
  | _ => none
/-- A tree record: number and entries with relative tiles. -/
def itree (b : List Word) : Option (Nat × List Nat) :=
  match b with
  | a :: es => if wfield a 63 16 ≠ 0 ∨ es.length ≠ wfield a 15 4 then none else some (wfield a 3 0, es.map fun e => e.toNat)
  | _ => none
/-- Every member, if all are there. -/
def allSome {α β : Type} (f : α → Option β) : List α → Option (List β)
  | [] => some []
  | x :: t => match f x, allSome f t with
    | some y, some l => some (y :: l)
    | _, _ => none
/-- The records of a kind, read. -/
def recordsOf {β : Type} (k : Nat) (f : List Word → Option β) (rs : List (Nat × List Word)) : Option (List β) :=
  allSome f ((rs.filter fun r => decide (r.1 = k)).map fun r => r.2)
/-- The image in slots, as Table 12.18 lays it out. -/
def readImage (ws : List Word) : Option Image :=
  match ws with
  | h0 :: h1 :: t =>
    if wfield h0 63 42 ≠ 0 ∨ wfield h1 63 16 ≠ 0 then none
    else match cutRecords (wfield h1 15 0) t with
      | none => none
      | some rs =>
        if rs.any fun r => decide (r.1 = 0 ∨ 5 < r.1) then none
        else match recordsOf 1 iproc rs, recordsOf 2 ichan rs, recordsOf 3 isect rs, recordsOf 4 ilease rs, recordsOf 5 itree rs with
          | some ps, some cs, some ss, some ls, some ts =>
            some { det := bitAt h0.toNat 40 || bitAt h0.toNat 41, check := bitAt h0.toNat 41, procs := ps, chans := cs, sects := ss,
                   leases := ls, trees := ts }
          | _, _, _, _, _ => none
  | _ => none

/-- Index of the host in a channel record. -/
def hostIndex : Nat := 0xFFFF
/-- The tile of a relative tile id (R293). -/
def Partition.absTile (q : Partition) (t : Nat) : Nat := t + q.x0 + 64 * q.y0
/-- A tree entry with its tiles absolute. -/
def Partition.absEntry (q : Partition) (e : Nat) : Nat :=
  e - field e 21 0 + q.absTile (field e 10 0) % 2048 + q.absTile (field e 21 11) % 2048 * 2048
/-- The channel registers that a channel record names: process index and register. -/
def IChan.regs (c : IChan) : List (Nat × Nat) :=
  (if c.wproc = hostIndex then [] else [(c.wproc, c.wreg)]) ++ (if c.rproc = hostIndex then [] else [(c.rproc, c.rreg)])
/-- No member twice. -/
def noTwice {α : Type} [DecidableEq α] : List α → Bool
  | [] => true
  | x :: t => !t.contains x && noTwice t
/-- `n` bytes at `a` lie whole in a process's window. -/
def IProc.holds (p : IProc) (a n : Nat) : Bool := decide (p.wbase ≤ a ∧ a + n ≤ p.wbase + p.wsize)
/-- A section fits its window or its region (R294). -/
def Image.sectOk (im : Image) (x : ISect) : Bool :=
  match x.kind with
  | 0 =>
    if x.proc = hostIndex then im.procs.any fun p => p.holds x.base x.len
    else match im.procs[x.proc]? with
      | some p => p.holds x.base x.len
      | none => false
  | 2 => x.zero || im.sects.any fun r => decide (r.kind = 2 ∧ r.zero ∧ r.base ≤ x.base ∧ x.base + x.len ≤ r.base + r.len)
  | _ => true
/-- The remaining layout checks of R294. -/
def Image.layoutOk (im : Image) (q : Partition) : Bool :=
  let n := im.procs.length
  decide (0 < n) && (im.chans.all fun c =>
      decide ((c.wproc < n ∨ c.wproc = hostIndex) ∧ (c.rproc < n ∨ c.rproc = hostIndex) ∧ ¬(c.wproc = hostIndex ∧ c.rproc = hostIndex)
        ∧ (c.rproc = hostIndex → c.cap = 0 ∧ c.once = false) ∧ (c.rproc ≠ hostIndex → 1 ≤ c.cap ∧ c.cap ≤ 4096 ∧ (c.once → c.cap = 1))
        ∧ (c.wproc ≠ hostIndex → c.rproc ≠ hostIndex → c.hep = 0)))
    && noTwice (im.chans.flatMap IChan.regs) && (im.trees.all fun t => q.treeOk (t.2.map q.absEntry)) && noTwice (im.trees.map fun t => t.1)
    && im.sects.all im.sectOk
/-- The lanes that a LANES field counts for (R294). -/
def laneShare (l : Nat) : Nat := if l = 0 then 0 else if l ≤ 4 then 4 else cdiv l 16 * 16
/-- The kinds of access that a section's pages must permit. -/
def ISect.needs (x : ISect) : List Perm :=
  if x.kind = 1 then [.fetch]
  else (if bitAt x.perm 3 then [.load] else []) ++ (if bitAt x.perm 2 then [.store] else []) ++ (if bitAt x.perm 1 then [.fetch] else [])
    ++ (if bitAt x.perm 0 then [.atomic] else [])
/-- Every page of a section is mapped with what it needs (R294). -/
def State.mapsSect (s : State) (part : Nat) (x : ISect) : Bool :=
  if x.kind = 0 ∨ x.len = 0 then true
  else if (s.part part).key.full = false ∨ 2 ^ 48 < x.base + x.len then false
  else
    let first := x.base / 65536
    (List.range ((x.base + x.len - 1) / 65536 + 1 - first)).all fun i =>
      match s.walk part ((first + i) * 65536) 3 1 (s.part part).ptroot with
      | .error _ => false
      | .ok e => (x.needs.all fun p => bitAt e.leaf.toNat p.bit) && ((s.part part).physKey (field e.leaf.toNat 39 16 * 65536 + (first + i) * 65536 % e.size)).isSome
/-- The resource checks of R294 that concern tiles, windows, lanes, host endpoints and pages. -/
def State.resourcesOk (s : State) (part : Nat) (im : Image) : Bool :=
  let q := s.part part
  let at_ (p : IProc) := q.absTile p.tile
  let on (t : Nat) := im.procs.filter fun p => decide (at_ p = t)
  (im.procs.all fun p => q.inRect (at_ p) && decide (p.wbase + p.wsize + q.cbsize ≤ Config.sliceBytes)
      && decide ((on (at_ p)).length + (s.tile (at_ p)).slots.length ≤ Config.contexts)
      && decide (((on (at_ p)).map fun x => laneShare x.lanes).sum ≤ 16 * (s.unfused (at_ p)).length))
    && (im.procs.zipIdx.all fun x => im.procs.zipIdx.all fun y =>
      decide (x.2 = y.2 ∨ at_ x.1 ≠ at_ y.1 ∨ x.1.wbase + x.1.wsize ≤ y.1.wbase ∨ y.1.wbase + y.1.wsize ≤ x.1.wbase))
    && (im.chans.all fun c =>
      let k := Tab.lookD s.hostEps c.hep {}
      if c.wproc = hostIndex then decide (k.dir = 1 ∧ k.part = part) else if c.rproc = hostIndex then decide (k.dir = 2 ∧ k.part = part) else true)
    && im.sects.all (s.mapsSect part)

/-- Write bytes at virtual addresses of a partition, without a check of PW (R294). -/
def State.loadVirtual (s : State) (part va : Nat) (bs : List Byte) : State :=
  bs.zipIdx.foldl (fun s b =>
    match s.walk part (va + b.2) 3 1 (s.part part).ptroot with
    | .error _ => s
    | .ok e => match (s.part part).physKey (field e.leaf.toNat 39 16 * 65536 + (va + b.2) % e.size) with
      | some k => s.hbmStore part k [{ off := 0, val := b.1 }]
      | none => s) s
/-- Write every section (R294 step 3). -/
def State.loadSections (s : State) (part : Nat) (im : Image) : State :=
  im.sects.foldl (fun s x =>
    let bs := (x.data.flatMap fun w => bytesLE 8 w.toNat).take x.len
    if x.zero then s
    else if x.kind = 0 then
      im.procs.zipIdx.foldl (fun s p =>
        if (x.proc = hostIndex ∨ x.proc = p.2) ∧ p.1.holds x.base x.len then
          s.sramStore ((s.part part).absTile p.1.tile * 0x100000 + x.base) (wbytes bs) else s) s
    else s.loadVirtual part x.base bs) s
/-- A tile whose first process comes in a cycle before its issue takes part in that cycle's issue (R41). -/
def State.joinIssue (s : State) (t : Nat) : State :=
  if s.issueLeft.contains t then s else { s with issueLeft := s.issueLeft ++ [t] }
/-- Create every process in its order, held out of issue (R34, R294 step 4). -/
def State.loadProcs (s : State) (part net : Nat) (im : Image) : State × List Nat :=
  im.procs.foldl (fun (s, hs) p =>
    let x : Proc := { pc := BitVec.ofNat 48 (p.entry / 4 * 4), status := statusOf 0 0 im.det false false false, wbase := p.wbase, wsize := p.wsize,
                      net := net, level := p.prio, ceiling := p.prio }
    let x := p.args.zipIdx.foldl (fun x a => x.setReg (a.2 + 1) a.1) x
    let (s, h) := s.create part ((s.part part).absTile p.tile) x
    (s.joinIssue ((s.part part).absTile p.tile), hs ++ [h])) (s, [])
/-- Bind every reader; none where a tile lacks an entry or a buffer (R266, R294 step 5). -/
def State.loadReaders (s : State) (im : Image) (hs : List Nat) : Option State :=
  im.chans.foldl (fun a c => match a with
    | none => none
    | some s =>
      if c.rproc = hostIndex then some s
      else
        let h := hs.getD c.rproc 0
        let t := (s.proc h).tile
        match s.freeIndex t, s.bufferRun t c.cap with
        | some i, some run => some (s.bindReader h c.rreg (t * 256 + i) c.cap run c.once)
        | _, _ => none) (some s)
/-- Bind every writer; a host writer's entry takes the reader as its TEP (R294 step 5). -/
def State.loadWriters (s : State) (im : Image) (hs : List Nat) : State :=
  im.chans.foldl (fun s c =>
    let reader := (((s.proc (hs.getD c.rproc 0)).chan c.rreg).dest.rid).getD 0
    if c.wproc = hostIndex then
      let s := s.hepLeave c.hep
      (({ s with hostEps := Tab.upd s.hostEps c.hep fun k => { k with tep := reader } })).recordWriter reader (hostWid c.hep)
    else
      let h := hs.getD c.wproc 0
      let d : Dest := if c.rproc = hostIndex then .host c.hep else .tile reader
      let s := s.updProc h fun p => p.setChan c.wreg { role := .writer, dest := d, registered := true }
      let rid := (d.rid).getD 0
      let cap := (s.hep c.hep).cap
      let s := if c.rproc = hostIndex ∧ (s.ep rid).bound = false then
          s.updEp rid fun e => { e with bound := true, bcap := cap, cap := cap, free := cap } else s
      s.recordWriter rid (widOf h c.wreg)) s
/-- Issue every lease; its token is the loader's (R214, R294). -/
def State.loadLeases (s : State) (part : Nat) (im : Image) : State :=
  im.leases.foldl (fun s l =>
    let (p, n) := l
    let q := s.part part
    if p = s.ownId.toNat ∨ q.peers.contains p = false ∨ n = 0 ∨ 64 < n + s.heldTo part p + (s.underWay part p).length
        ∨ (s.leaseOf part p).isSome ∨ (q.pool.any fun x => (s.reachOf x p).isSome) = false then s
    else
      let r : LeaseReq := { peer := p, n := n, h := 0, sd := 0, age := s.cycle }
      let s := s.updPart part fun q => { q with leases := q.leases ++ [r] }
      ((s.afterCycles 1500000 (.starvationRevoke part p)).offerLanes part).settleLease part p) s
/-- Load every tree (R220, R294). -/
def State.loadTrees (s : State) (part : Nat) (im : Image) : State :=
  im.trees.foldl (fun s t => (s.dropTree part t.1).setTree part t.1 { entries := t.2.map fun e => treeEntry ((s.part part).absEntry e) }) s
/-- Steps 3 to 6 of R294 for a network number; none where the endpoint entries or buffers do not suffice. -/
def State.loadNet (s : State) (part net : Nat) (im : Image) (leases : Bool) : Option State :=
  let s := s.loadSections part im
  let (s, hs) := s.loadProcs part net im
  (s.loadReaders im hs).map fun s =>
    let s := hs.foldl (fun s h => s.bornBlock h) (s.loadWriters im hs)
    let s := if leases then s.loadLeases part im else s
    s.loadTrees part im
/-- The lowest network number that is free (R246, R266). -/
def Partition.freeNet (q : Partition) : Option Nat :=
  ((List.range 254).map (· + 1)).find? fun n => !(q.nets.any fun x => decide (x.num = n))
/-- A reply of the loader on 8p + 1 (R266). -/
def State.loaderReply (s : State) (part status net a b c : Nat) : State :=
  s.toHost (8 * part + 1) [BitVec.ofNat 64 (status + net * 256), BitVec.ofNat 64 a, BitVec.ofNat 64 b, BitVec.ofNat 64 c]
/-- The arbiters of a partition start a run under a seed (R124, R125). -/
def State.startSeed (s : State) (part : Nat) (v : Word) : State :=
  { s.updPart part fun q => { q with seed := v } with arbs := s.arbs.filter fun e => decide (e.1 / 2 ^ 44 ≠ part) }
/-- Launch an image (R2, R266, R294). A partition that is not valid has no tile, and its resources do not suffice. -/
def State.launch (s : State) (part : Nat) (ws : List Word) : State :=
  let q := s.part part
  let h0 := ws.headD 0
  let nbv := wfield h0 39 32
  if q.valid = false then s.loaderReply part 0x23 0 0 0 0
  else if wfield h0 31 0 ≠ 0x39494B45 then s.loaderReply part 0x22 0 0 0 0
  else if nbv ≠ 1 then
    let r : FRec := { kind := .report, part := part, firmware := false,
                      slots := [recSlot0 0 nbv 4 false 0 Cause.nbvUnsupported.code, 0, 0, 0, 0, 0, 0, 0] }
    (s.queueRecord (q.faultep / 256) r).loaderReply part 0x21 0 0 0 0
  else match readImage ws with
    | none => s.loaderReply part 0x22 0 0 0 0
    | some im =>
      if im.layoutOk q = false then s.loaderReply part 0x22 0 0 0 0
      else match q.freeNet with
        | none => s.loaderReply part 0x23 0 0 0 0
        | some net =>
          if s.resourcesOk part im = false then s.loaderReply part 0x23 0 0 0 0
          else
            let n : Net := { num := net, created := im.procs.length, check := if im.check then 1 else 0, image := ws }
            let t := s.updPart part fun q => { q with nets := q.nets ++ [n] }
            let t := if im.check then t.startSeed part q.seeda else t
            match t.loadNet part net im true with
            | none => s.loaderReply part 0x23 0 0 0 0
            | some t => t.loaderReply part 0x20 net n.created 0 0
/-- NETWORK_LAUNCH (R266): the oldest image whose marker has come. -/
def execNetworkLaunch (part : Nat) (s : State) : Out :=
  .next (match (s.part part).images with
    | [] => s
    | ws :: rest => (s.updPart part fun q => { q with images := rest }).launch part ws)

/-- Processes of a network that have not ended. -/
def State.aliveIn (s : State) (part net : Nat) : List Nat := (s.liveOf part).filter fun h => decide ((s.proc h).net = net)
/-- A network's entry disappears and its number is free; what checking mode recorded leaves the Caldera (R255, R266). -/
def State.dropNet (s : State) (part : Nat) (n : Net) : State :=
  let held := ((n.inputs ++ n.outputs).map fun m => m.2.size).sum
  (s.updPart part fun q =>
    { q with nets := q.nets.filter fun x => decide (x.num ≠ n.num), calUsed := q.calUsed - held }).startSeed part
      (if n.check = 0 then (s.part part).seed else 0)
/-- The result message of a checked launch (R127); of an id that does not fit bits [26:8], a host endpoint's, they hold the lowest 19, which are the
host endpoint's number (log 62). -/
def State.checkReply (s : State) (part st id : Nat) (x y : Word) (k : Nat) : State :=
  s.toHost (8 * part + 1) [BitVec.ofNat 64 (st + id % 2 ^ 19 * 256), x, y, BitVec.ofNat 64 k]
/-- LOADER_END_REPLY (R266, R124): the last process of a network has ended; in checking mode the next part follows. A checked network that was
killed has R127's message in place of the end reply, with the status of a run that a fault ended and no tile (log 85). -/
def execLoaderEndReply (part net : Nat) (s : State) : Out :=
  .next (match (s.part part).nets.find? fun n => decide (n.num = net) with
    | none => s
    | some n =>
      if n.killing ∨ s.aliveIn part net ≠ [] then s
      else match n.killed with
        | some c =>
          if n.check ≠ 0 then (s.dropNet part n).checkReply part (1 + n.check) 0 0 0 0
          else (s.dropNet part n).loaderReply part 0x11 net n.created c n.ended
        | none =>
          if n.check = 1 ∧ n.failed = none then s.later (.checkRunB part net)
          else if n.check ≠ 0 then s.later (.checkCompare part net)
          else (s.dropNet part n).loaderReply part 0x10 net n.created 0 n.ended)
/-- CHECK_RUN_B (R124): the sections are loaded again, and the network runs under SEEDB. -/
def execCheckRunB (part net : Nat) (s : State) : Out :=
  .next (match (s.part part).nets.find? fun n => decide (n.num = net ∧ n.check = 1 ∧ n.failed = none) with
    | none => s
    | some n => match readImage n.image with
      | none => s
      | some im =>
        let t := (s.updNet part net fun n => { n with check := 2 }).startSeed part (s.part part).seedb
        match t.loadNet part net im false with
        | some t => t.replayInputs part net 4096
        | none => t.failRun part net ((s.part part).absTile 0))
/-- The first endpoint whose digest or count differs between the runs, with both digests (R127). -/
def firstDiff (a b : List (Nat × Word × Word)) : Option (Nat × Word × Word) :=
  let ids := distinct (a.map (fun x => x.1) ++ b.map fun x => x.1)
  let of (l : List (Nat × Word × Word)) (i : Nat) := (l.filter fun x => decide (x.1 = i)).map fun x => x.2
  let bad := ids.filter fun i => decide (of a i ≠ of b i)
  match bad with
  | [] => none
  | i :: t =>
    let m := t.foldl min i
    some (m, ((of a m).headD (0, 0)).1, ((of b m).headD (0, 0)).1)
/-- CHECK_COMPARE (R124, R127): the result message; outputs held in run B are delivered only when the runs are equal. A run that a
fault ended ends its processes. -/
def execCheckCompare (part net : Nat) (s : State) : Out :=
  .next (match (s.part part).nets.find? fun n => decide (n.num = net ∧ n.check ≠ 0) with
    | none => s
    | some n =>
      match n.failed with
      | some t =>
        let s := (s.aliveIn part net).foldl (fun s h => s.killProcess h) (s.dropNet part n)
        s.checkReply part (1 + n.check) (t * 256) 0 0 0
      | none =>
        if n.check ≠ 2 ∨ s.aliveIn part net ≠ [] then s
        else
          let k := (distinct (n.digestsA.map (fun x => x.1) ++ n.digestsB.map fun x => x.1)).length
          let s := s.dropNet part n
          match firstDiff n.digestsA n.digestsB with
          | some (id, x, y) => s.checkReply part 1 id x y k
          | none => (n.outputs.foldl (fun s o => s.arrive (hostRid o.1) loaderWid o.2) (s.checkReply part 0 0 0 0 k)))

end Sys2Proof.Machine
end

