-- ==== Sys2Proof/Machine/Module.lean ====
section
/-! DEFINITION. Detected errors, power and cooling, and the reset of the module (R249 to R252, R269 to R271). -/

namespace Sys2Proof.Machine

/-- UNIT of an ERROR record (R252). -/
def errUnitCode : ErrUnit → Nat
  | .cluster => 1 | .sram => 2 | .hbm => 3 | .meshLink => 4 | .opticalLane => 5
/-- HBM key of an offset in a server. -/
def serverKey (server off : Nat) : Nat := server * Config.serverBytes + off % Config.serverBytes
/-- The partition that an error names: that of the tile, the server or the lane. -/
def State.errPart (s : State) (unit : ErrUnit) (tile index : Nat) : Option Nat :=
  match unit with
  | .hbm => (s.parts.find? fun e => e.2.valid && e.2.servers.contains index).map fun e => e.1
  | .opticalLane => (s.parts.find? fun e => e.2.valid && e.2.pool.contains index).map fun e => e.1
  | _ => s.partOfTile tile
/-- The shape that a grant of `n` slivers is asked for again in behind the fusing of a cluster (R43, R250, log 64). -/
def wantAgain (n unfused : Nat) (cluster : Bool) : Want := if cluster then .clusters (min (n / 4) unfused) else .sliver
/-- A pending grant is computed again (R44, R250); one that must wait now is queued. -/
def State.regrant (s : State) (h : Nat) (g : PGrant) : State :=
  let p := s.proc h
  let want := wantAgain g.slivers.length (s.unfused p.tile).length g.cluster
  let put (s : State) (g : PGrant) : State := s.updProc h fun p => { p with pgrant := some g }
  let queue (s : State) (part : Bool) : State :=
    let r : LaneReq := { h := h, age := s.cycle, want := want, partialGrant := part, sd := g.sd, avl := g.avl, ew := g.ew, pc := g.pc, again := g.again }
    s.updTile p.tile fun x => if x.laneReqs.any fun q => decide (q.h = h) then x else { x with laneReqs := x.laneReqs ++ [r] }
  match s.grant h want with
  | .current => put s { g with slivers := p.slivers, cluster := p.cluster }
  | .lanes l cl part => put (if part then queue s true else s) { g with slivers := l, cluster := cl }
  | .wait => put (queue s false) { g with slivers := [], cluster := false, assigned := false }
/-- Lanes of a cluster lie among some slivers. -/
def inCluster (c : Nat) (l : List Nat) : Bool := l.any fun n => decide (n / 4 = c)
/-- A process whose grant holds slivers of a fused cluster: its strip restarts, it keeps the slivers that are left, VL falls, and its grant
is computed again: the rest comes as a grant comes (R43, R44, R47, R250). -/
def State.fuseNow (s : State) (h c : Nat) : State :=
  let s := s.abandon h
  let p := s.proc h
  let n := (s.unfused p.tile).length
  let rest := p.slivers.filter fun x => decide (x / 4 ≠ c)
  let s := if inCluster c p.slivers then
      (s.moveLanes h rest (p.cluster && !rest.isEmpty) (s.conflict h 0 rest).isNone).updProc h fun q =>
        { q with vl := BitVec.ofNat 12 (min p.vl.toNat (vlmaxOf (lanesOf rest).length (ewOf p.vt))) }
    else s
  match p.pgrant with
  | some g => if inCluster c g.slivers then s.regrant h g else s
  | none =>
    if inCluster c p.slivers = false ∨ (p.cluster ∧ rest.length = 4 * min (p.slivers.length / 4) n) then s
    else s.askLanes h { want := wantAgain p.slivers.length n p.cluster, sd := 0, avl := p.vl.toNat, ew := ewOf p.vt } s.cycle true
/-- The same, once a commit in progress has ended (R151). -/
def State.fuseProcess (s : State) (h c : Nat) : State :=
  if (s.proc h).inCommit then s.updTile (s.proc h).tile fun x => { x with fusing := x.fusing ++ [(h, c)] } else s.fuseNow h c
/-- Processes of a tile whose grant waits for a commit to end look again. -/
def State.lateFuse (s : State) (t : Nat) : State :=
  let l := (s.tile t).fusing
  if l.isEmpty then s
  else (l.foldl (fun s e => s.fuseProcess e.1 e.2) (s.updTile t fun x => { x with fusing := [] })).settleLanes t
/-- A waiting request behind the fusing of a cluster. -/
def LaneReq.refuse (q : LaneReq) (unfused : Nat) : LaneReq :=
  { q with resv := [], want := match q.want with
      | .clusters c => .clusters (min c unfused)
      | w => w }
/-- Fuse a cluster of a tile (R250). -/
def State.fuseCluster (s : State) (t c : Nat) : State :=
  if bitAt (s.fused t).toNat c ∨ 4 ≤ c then s
  else
    let hs := s.residents t
    let s := hs.foldl (fun s h => if (s.proc h).mat.isSome then s.giveUp h else s) s
    let s := { s with fuses := Tab.put s.fuses t (s.fused t ||| BitVec.ofNat 4 (2 ^ c)) }
    let s := (hs.filter fun h => (s.proc h).heldSlivers.any fun n => decide (n / 4 = c)).foldl (fun s h => s.fuseProcess h c) s
    let n := (s.unfused t).length
    (s.updTile t fun x => { x with laneReqs := x.laneReqs.map fun q => q.refuse n }).settleLanes t
/-- DETECTED_ERROR (R249 to R252): every error is recorded, with the address of its 64-byte line; a lasting one has the consequence of
Table 10.7, which for an optical lane is that of R202 (log 86). For SRAM and HBM `addr` is the offset in the slice or in the server. -/
def execDetectedError (unit : ErrUnit) (tile index addr : Nat) (lasting : Bool) (s : State) : Out :=
  .next (let part := s.errPart unit tile index
         let where_ := match unit with
           | .sram => (tile * 0x100000 + addr % 0x100000) / 64 * 64
           | .hbm => (match part with
             | some n => (s.part n).physOf (serverKey index addr)
             | none => addr % 2 ^ 40) / 64 * 64
           | _ => 0
         let tileOf := match unit with
           | .hbm | .opticalLane => 0
           | _ => tile
         let indexOf := match unit with
           | .sram | .opticalLane => 0
           | _ => index
         let s := s.errorRecord (errUnitCode unit) part tileOf indexOf lasting where_
         if lasting = false then s
         else match unit with
           | .cluster => s.fuseCluster tile index
           | .sram => { s with withdrawn := Tab.put s.withdrawn (where_ / 64) true }
           | .hbm => { s with hbmBad := Tab.put s.hbmBad (serverKey index addr / 64) true }
           | .opticalLane => s.afterCycles 0 (.crcThreshold index)
           | .meshLink => s)
/-- POWER_LIMIT (R270): vector and matrix issue cycles are withheld. -/
def execPowerLimit (s : State) : Out := .next { s with throttled := true }
/-- POWER_LIMIT_CLEARED (R270). -/
def execPowerLimitCleared (s : State) : Out := .next { s with throttled := false }
/-- The 115 degree action (R270, R271): every domain and process stops; the ERROR record goes to endpoint 128. -/
def State.stopModule (s : State) (index addr : Nat) : State :=
  let s := s.errorRecord 0 none 0 index true addr
  { s with stopped := true, issueLeft := [], events := s.events.filter fun e => decide (e.2 = .d2hDeliver 128) }
/-- THERMAL_STOP (R252, R270). -/
def execThermalStop (die : Nat) (s : State) : Out := .next (s.stopModule 1 die)
/-- COOLANT_LOW (R252, R271). -/
def execCoolantLow (s : State) : Out := .next (s.stopModule 2 0)
/-- MODULE_RESET (R250, R269): the state after reset, with the fuse map kept and firmware's tables loaded again. What has left the
module has left it. Where the coolant flow is low, step 1 stops bring-up, and the module stays stopped (R271). -/
def execModuleReset (s : State) : Out :=
  .next { State.reset with fuses := s.fuses, ownId := s.ownId, reach := s.reach, routes := s.routes, directPeers := s.directPeers,
                           out := s.out, freeCtr := s.freeCtr + 1, stopped := !Config.coolantFlows s.freeCtr }

end Sys2Proof.Machine
end

