-- ==== Sys2Proof/Machine/Optics.lean ====
section
/-! DEFINITION. The flits of an optical link: reception, groups and their tags, acknowledgement and replay, delivery of messages
(R200 to R202, R208 to R211, R257, R309, R317). -/

namespace Sys2Proof.Machine

/-- The full count at or after `near` whose low ten bits are `seq`; none for one behind it. -/
def fullCount (near seq : Nat) : Option Nat :=
  let d := (seq + 1024 - near % 1024) % 1024
  if d < 512 then some (near + d) else none
/-- The writer to which a message from a peer that names none is attributed at a reader of this package: the first registered one of that
peer (log 18). -/
def State.remoteWriter (s : State) (rid peer : Nat) : Nat :=
  let ws := (s.ep rid).writers.filter isRemoteWid
  match ws.find? fun w => decide (remotePeer w = peer) with
  | some w => w
  | none => ws.headD (remoteWid peer 0)
/-- A whole message has come over a link, route word first: a relay passes it on after its 280 ns, otherwise it goes to its target (R208 to
R211, R226, log 88); one for a tile outside the partition is discarded (R26). A body without slots is the end-of-stream marker (log 18). -/
def State.linkDeliver (s : State) (part peer vnet : Nat) (slots : List Word) : State :=
  let rw := slots.headD 0
  let body := slots.drop 1
  if wfield rw 63 62 ≠ 0 then s.afterCycles 420 (.relayForward part vnet slots)
  else match vnet with
    | 0 =>
      let op := wfield (body.headD 0) 63 60
      s.laterBehind (performs part (homeOf body))
        (if op = 2 then .remoteWrite part body else if op = 3 then .remoteAtomic part body else .remoteRead part body)
    | 1 => s.later (.remoteReply part body)
    | 2 =>
      let a := body.headD 0
      let named := decide (32 < body.length)
      if named && decide (wfield a 63 60 ≠ 13) then s.ctrlArrive part peer body
      else
        let rid := wfield rw 39 29 * 256 + wfield rw 28 21
        if (s.part part).inRect (rid / 256) = false then s else
        let w := if named then remoteWid (wfield (body.getD 2 0) 21 0) (wfield a 39 0) else s.remoteWriter rid peer
        let data := plainBody body
        let m : Msg := { slots := data, marker := data.isEmpty, tagged := named && bitAt a.toNat 40 }
        let port := portTile ((s.laneList part peer).headD 0) 2
        s.netSendOn { wid := w, dest := .tile rid, body := .data m, part := part, net := 0 } port (rid / 256)
          (420 + meshLatency port (rid / 256) m.size) (.channelMessageArrive w)
    | _ => s.ctrlArrive part peer body

/-- Send an acknowledgement, or a NACK naming a count, on the lowest lane of the reverse link (R198, R201); nothing goes where it has none. -/
def State.sendAck (s : State) (part peer seq : Nat) (nack : Bool) : State :=
  match s.laneList part peer with
  | [] => s
  | l :: _ => s.emit (.flit part peer l (flitBits (flitHeader 1 3 true true 0 seq nack) []))
/-- Acknowledge what has been delivered; without a lane of the reverse link that is tried again 256 cycles later (R201, log 83). -/
def State.ackNow (s : State) (part peer seq : Nat) : State :=
  let s := (s.sendAck part peer seq false).cancel (.ackTimer part peer)
  if s.laneList part peer = [] then s.afterCycles 256 (.ackTimer part peer) else s.updLink part peer fun k => { k with sinceAck := 0 }
/-- A receiver's lane has had `n` more flits of which `bad` failed: each failure is a detected error with its record (R202, R249, R252). The
flits are counted in blocks of 65,536 that follow one another (log 83). -/
def State.countCrc (s : State) (l n bad : Nat) : State :=
  let x := s.lane l
  let s := (List.range bad).foldl (fun (s : State) _ => s.errorRecord 5 (some x.part) 0 0 false 0) s
  let b := x.crcBad + bad
  let fails := decide (x.crcBad < 8 ∧ 8 ≤ b)
  let s := s.updLane l fun x =>
    if x.st = .free then x
    else if 65536 ≤ x.crcAll + n then { x with crcBad := 0, crcAll := 0 } else { x with crcBad := b, crcAll := x.crcAll + n }
  if fails then s.afterCycles 0 (.crcThreshold l) else s
/-- The first count at or after `q` that is not among those given. -/
def firstMissing (have_ : List Nat) : Nat → Nat → Nat
  | 0, q => q
  | n + 1, q => if have_.contains q then firstMissing have_ n (q + 1) else q
/-- A gap in the sequence is there: its timer runs until it closes (R201). -/
def State.noteGap (s : State) (part peer : Nat) (force : Bool) : State :=
  let k := s.link part peer
  let counts := k.store.map fun e => e.1
  let gap := force || counts.any fun c => decide (firstMissing counts 1024 k.rnext < c)
  if gap = false then (s.updLink part peer fun k => { k with gapAt := none }).cancel (.gapTimeout part peer)
  else if k.gapAt.isSome then s
  else (s.updLink part peer fun k => { k with gapAt := some s.cycle }).afterCycles 64 (.gapTimeout part peer)
/-- Slots of a flit on the wire, and its header fields. -/
def flitSlots (f : BitVec 576) : List Word := (List.range 8).map fun i => BitVec.ofNat 64 (f.toNat / 2 ^ (32 + 64 * i))
/-- The flit's CRC holds (R200). -/
def flitGood (f : BitVec 576) : Bool :=
  decide (f.toNat / 2 ^ 544 = crc32 ((List.range 68).map fun i => f.toNat / 256 ^ i % 256))
/-- The link on which a receive lane's flits come: that of the companion, which has the same id (R198). -/
def State.linkOfLane (s : State) (l : Nat) : Option (Nat × Nat) :=
  let x := s.lane l
  if x.st = .free ∨ x.st = .offered then none else some (x.part, x.peer)
/-- OPTICAL_DATA_FLIT (R200, R201): a good flit in the window is kept for its group's tag; duplicates are discarded. -/
def execOpticalDataFlit (lane : Nat) (flit : BitVec 576) (s : State) : Out :=
  .next (match s.linkOfLane lane with
    | none => s
    | some (part, peer) =>
      if flitGood flit = false then s.countCrc lane 1 1
      else
        let h := flit.toNat % 2 ^ 32
        let s := s.countCrc lane 1 0
        let k := s.link part peer
        match fullCount k.rnext (field h 22 13) with
        | none => s
        | some q =>
          if h / 2 ^ 30 ≠ 0 ∨ (Tab.look k.store q).isSome then s
          else
            let f : OFlit := { count := q, vnet := field h 29 28, first := bitAt h 27, last := bitAt h 26, slots := flitSlots flit,
                               nslot := field h 25 23, lane := lane }
            (s.updLink part peer fun k => { k with store := Tab.put k.store q f }).noteGap part peer false)
/-- A flit of a group joins its message; the last one delivers it (R200, R201). -/
def State.takeFlit (s : State) (part peer : Nat) (f : OFlit) (slots : List Word) : State :=
  let old := if f.first then [] else Tab.lookD (s.link part peer).parts f.vnet []
  let all := old ++ slots.take (f.nslot + 1)
  let s := s.updLink part peer fun k => { k with parts := Tab.store k.parts f.vnet (if f.last then [] else all) [] }
  if f.last then s.linkDeliver part peer f.vnet all else s
/-- The header of a received flit as it was sent. -/
def OFlit.rheader (f : OFlit) : Nat := flitHeader 0 f.vnet f.first f.last f.nslot f.count false
/-- The IV under which a group's tag verifies, if one does: the sender's partition number is not known here (log 12). -/
def State.verifyTag (s : State) (part peer g : Nat) (fl : List OFlit) (tag : BitVec 128) : Option (BitVec 96) :=
  let key := (s.part part).key.gcm
  let ns := fl.map fun f => f.rheader + payloadOf f.slots * 2 ^ 32
  ((List.range 16).map fun n => gcmIv peer n (g / 2 ^ 32) g).find? fun iv => decide (Config.gcmTag key iv ns = tag)
/-- GCM_TAG_FLIT (R257): the tag of the group that is next in sequence. An acknowledgement goes out before a further whole group would
make more than 32 flits without one (R201). -/
def execGcmTagFlit (part peer : Nat) (tag : BitVec 128) (count : Nat) (s : State) : Out :=
  .next (let k := s.link part peer
         let g := groupOf k.rnext
         let fl := (List.range count).filterMap fun i => Tab.look k.store (g + i)
         if count = 0 ∨ 8 < count then s
         else if fl.length < count then s.noteGap part peer true
         else match s.verifyTag part peer g fl tag with
           | none =>
             let s := s.updLink part peer fun k => { k with store := k.store.filter fun e => decide (groupOf e.1 ≠ g) }
             (fl.foldl (fun s f => s.countCrc f.lane 0 1) s).noteGap part peer true
           | some iv =>
             let s := s.updLink part peer fun k =>
               { k with store := k.store.filter fun e => decide (groupOf e.1 ≠ g), rnext := g + 8, sinceAck := k.sinceAck + count, gapAt := none }
             let s := s.cancel (.gapTimeout part peer)
             let s := fl.foldl (fun s f => s.takeFlit part peer f (gcmSlots (s.part part).key.gcm iv (f.count % 8) f.slots)) s
             let s := s.noteGap part peer false
             let k := s.link part peer
             if 24 < k.sinceAck then s.ackNow part peer ((g + 7) % 1024)
             else if s.isDue (.ackTimer part peer) then s else s.afterCycles 256 (.ackTimer part peer))
/-- ACK_TIMER (R201). -/
def execAckTimer (part peer : Nat) (s : State) : Out :=
  .next (let k := s.link part peer
         if k.sinceAck = 0 then s else s.ackNow part peer ((k.rnext + 1023) % 1024))
/-- GAP_TIMEOUT (R201): a NACK names the first missing count; the timer starts anew. -/
def execGapTimeout (part peer : Nat) (s : State) : Out :=
  .next (let k := s.link part peer
         match k.gapAt with
         | none => s
         | some t =>
           if s.cycle < t + 64 then s
           else
             let q := firstMissing (k.store.map fun e => e.1) 1024 k.rnext
             ((s.sendAck part peer (q % 1024) true).updLink part peer fun k => { k with gapAt := some s.cycle }).afterCycles 64
               (.gapTimeout part peer))
/-- Flits whose whole group lies at or before an acknowledged count leave the retry buffer (R201, R257). -/
def Link.acked (k : Link) (q : Nat) : Link :=
  let gs := k.groups.takeWhile fun x => decide (x.1 + x.2 ≤ q + 1)
  { k with groups := k.groups.drop gs.length
           unacked := k.unacked.filter fun f => !gs.any fun x => decide (x.1 = groupOf f.count) }
/-- Room in the retry buffer: lanes that have drained are free, and what waited goes on. -/
def State.afterAck (s : State) (part peer : Nat) : State :=
  let s := (s.lanesIn part peer .draining).foldl (fun s l =>
    if (s.link part peer).unacked.all fun f => decide (f.lane ≠ l) then s.afterCycles 0 (.laneDrainEnd l) else s) s
  (s.transmit part peer 256).pumpAll part
/-- OPTICAL_ACK (R201). -/
def execOpticalAck (part peer seq : Nat) (s : State) : Out :=
  .next (match (s.link part peer).unacked with
    | [] => s
    | f :: _ =>
      match fullCount f.count seq with
      | none => s
      | some q => (s.updLink part peer fun k => k.acked q).afterAck part peer)
/-- OPTICAL_NACK (R201, R257): the unacknowledged flits from the group of the count named on are replayed. -/
def execOpticalNack (part peer seq : Nat) (s : State) : Out :=
  .next (match (s.link part peer).unacked with
    | [] => s
    | f :: _ =>
      match fullCount f.count seq with
      | none => s
      | some q => s.replay part peer q)
/-- GCM_GROUP_CLOSE (R257): the link has had no data flit to send for 32 cycles; while some are in line the group stays open. -/
def execGcmGroupClose (part peer : Nat) (s : State) : Out :=
  .next (if (s.link part peer).txq = [] then s.closeGroup part peer else s.afterCycles 32 (.gcmGroupClose part peer))

end Sys2Proof.Machine
end

