-- ==== Sys2Proof/Machine/VecCfg.lean ====
section
/-! DEFINITION. SETVL, the SET instructions, STRIPEND (major 0x2D), and the steps of the lane scheduler (R43 to R47, R148,
R153, R367, R368, R375, R422 to R424). -/

namespace Sys2Proof.Machine

/-- The limits of Table 7.2: vector and scalar stores, by the shape requested (R153). -/
def stripLimits : Want → Nat × Nat
  | .none => (0, 16)
  | .sliver => (8, 16)
  | .clusters _ => (8, 64)
/-- The age under which a SETVL of process `h` asks: that of the request it withdraws, or this cycle (R44, R424). -/
def State.requestAge (s : State) (h : Nat) : Nat :=
  (((s.tile (s.proc h).tile).laneReqs.find? fun q => decide (q.h = h)).map fun q => q.age).getD s.cycle
/-- SETVL with AVL = 0: the lanes are released at once, VL and sd become 0 (R43). -/
def State.setvlZero (s : State) (d : BitVec 5) : State :=
  let h := s.running
  let t := s.myTile
  let s := (s.withdraw h).releaseLanes h
  let s := (s.updMe fun p => { p with vl := 0 }).setReg d 0
  (s.settleLanes t).retire 0x2D
/-- SETVL whose grant is CURRENT: VL and sd at once (R47). -/
def State.setvlCurrent (s : State) (d : BitVec 5) (avl : Nat) : State :=
  let vl := min avl (vlmaxOf (lanesOf s.me.slivers).length (ewOf s.me.vt))
  let s := (s.updMe fun p => { p with vl := BitVec.ofNat 12 vl }).setReg d (BitVec.ofNat 64 vl)
  (s.settleLanes s.myTile).retire 0x2D
/-- SETVL completes issue with its grant pending; under SS its step follows once sd is written (R47, R367). -/
def State.setvlPending (s : State) (d : BitVec 5) : State :=
  if s.me.steps then
    let s := s.countEvent s.myTile 1 1
    s.updMe fun p => { p.enter (.blockedToken d.toNat) s.cycle with
      pc := p.pc + 4, lastIssue := some s.cycle, since := s.cycle + 1, need := 1 }
  else s.retire 0x2D
/-- SETVL (R43 to R47, R148, R367, R424): slivers that it holds already are touched at once, a new grant's when it takes effect (R240). -/
def execSetvl (d a : BitVec 5) (s : State) : Out :=
  .next (s.withRegs [a, d] (s.afterGrant <| s.afterCommit fun s => s.withRegs [a, d] <|
    let h := s.running
    let avl := s.regN a
    let want := wantOf avl (ewOf s.me.vt) (s.unfused s.myTile).length
    let lim := stripLimits want
    let s := s.openStrip h s.me.pc lim.1 lim.2
    if avl = 0 then s.setvlZero d
    else
      let age := s.requestAge h
      let t := (s.withdraw h).requestLanes h d.toNat avl age
      if t.me.pgrant.isSome then t.setvlPending d
      else match s.conflict h 0 s.me.slivers with
        | some (o, m) => s.raise 0x2D .vown { owner := o, xmask := m }
        | none => (t.takeUnits h 0 t.me.slivers).setvlCurrent d avl))
/-- SETVS (R368). -/
def execSetvs (a : BitVec 5) (s : State) : Out :=
  .next (s.withRegs [a] ((s.updMe fun p => { p with vs := s.reg a }).retire 0x2D))
/-- A write of VT: VL falls to the new VLMAX and never rises (R159). -/
def State.setVt (s : State) (v : Word) : State :=
  s.updMe fun p =>
    let vt := v &&& vtMask
    { p with vt := vt, vl := BitVec.ofNat 12 (min p.vl.toNat (vlmaxOf (lanesOf p.slivers).length (ewOf vt))) }
/-- SETVT (R159, R368). -/
def execSetvt (a : BitVec 5) (s : State) : Out :=
  .next (s.withRegs [a] (s.afterGrant ((s.setVt (s.reg a)).retire 0x2D)))
/-- SETMT (R77, R368). -/
def execSetmt (a : BitVec 5) (s : State) : Out :=
  .next (s.withRegs [a] ((s.updMe fun p => { p with mt := (s.reg a).setWidth 7 &&& mtMask }).retire 0x2D))
/-- SETPEER (R89, R368). -/
def execSetpeer (a : BitVec 5) (s : State) : Out :=
  .next (s.withRegs [a] ((s.updMe fun p => { p with peer := (s.reg a).setWidth 22 }).retire 0x2D))
/-- STRIPEND (R148, R375). -/
def execStripend (s : State) : Out := .next (s.afterCommit fun s => s.retire 0x2D)

/-- LANE_GRANT_EFFECT (R44, R47): assigned lanes take effect; the release of a WAIT gives up the old lanes, also when the waiting request has
been granted meanwhile. A commit in progress does not hold them back, but the VOWN that a slivers' owner raises follows it (R150, R151). -/
def execLaneGrantEffect (tile h : Nat) (s : State) : Out :=
  .next (match (s.proc h).pgrant with
    | none => s
    | some g =>
      if g.assigned && decide (g.due ≤ s.cycle) then
        if (s.proc h).inCommit && (s.conflict h 0 g.slivers).isSome then
          ((s.moveLanes h g.slivers g.cluster false).settleLanes tile).afterCycles 1 (.laneGrantEffect tile h)
        else s.grantEffect h g
      else
        let p := s.proc h
        let s := s.disown tile h (p.slivers ++ p.lastGrant)
        (s.updProc h fun p => { p with slivers := [], cluster := false, lastGrant := [] }).settleLanes tile)
/-- RESERVED_GRANT (R45, R46): the clusters reserved for a waiting request are empty, and it is granted; the lanes take
effect 64 cycles later (R47). -/
def execReservedGrant (tile h : Nat) (s : State) : Out :=
  .next (match (s.tile tile).laneReqs.find? fun q => decide (q.h = h) with
    | none => s
    | some q =>
      if q.partialGrant || q.resv.isEmpty || (s.occupied tile).any (fun n => q.resv.contains (n / 4)) then s
      else
        let sl := match q.want with
          | .sliver => [4 * q.resv.headD 0]
          | _ => ((List.range 4).filter q.resv.contains).flatMap sliversIn
        let cl := match q.want with
          | .sliver => false
          | _ => true
        let g : PGrant := { sd := q.sd, avl := q.avl, ew := q.ew, slivers := sl, cluster := cl, assigned := true,
                            due := s.cycle + Config.grantDelay, pc := q.pc, again := q.again }
        let s := s.updTile tile fun x => { x with laneReqs := x.laneReqs.filter fun y => decide (y.h ≠ h) }
        let s := s.updProc h fun p => { p with pgrant := some g }
        (s.afterCycles Config.grantDelay (.laneGrantEffect tile h)).settleLanes tile)

end Sys2Proof.Machine
end

