-- ==== Sys2Proof/Machine/System.lean ====
section
/-! DEFINITION. System instructions, major 0x3C: CSRR, CSRW, TRAP, ERET, BRK, HALT, and the illegal word (R227 to R229, R273,
R287, R289, R305, R319, R320, R332, R335, R382). -/

namespace Sys2Proof.Machine

/-- The lowest level that may read a control register (Table 12.14). -/
def csrReadLevel : Csr → Nat
  | .tlbi | .sdesc | .resume | .pswap | .pcap => 1
  | .pset | .hepset => 2
  | _ => 0
/-- The lowest level that may write a control register without PRIVILEGE (Table 12.14); one that discards writes admits all. -/
def csrWriteLevel : Csr → Nat
  | .tvec | .stimeo | .seeda | .seedb | .tlbi | .sdesc | .resume | .pswap => 1
  | .pset | .hepset | .pcap => 2
  | _ => 0
/-- LPART of process `h` (Table 2.6). -/
def State.lpart (s : State) (h : Nat) : Nat :=
  let p := s.proc h
  let t := p.tile
  let granted := (s.residents t).flatMap fun x => (s.proc x).slivers
  let set (l : List Nat) := ((List.range 16).map fun i => bit1 (l.contains i) * 2 ^ i).sum
  let waits := (s.tile t).laneReqs.any fun q => decide (q.h = h)
  set granted * 2 ^ 32 + (s.fused t).toNat * 2 ^ 28 + bit1 waits * 2 ^ 25 + bit1 p.cluster * 2 ^ 24 + 4 * p.slivers.length * 2 ^ 16 + set p.slivers
/-- The value of a control register as process `h` reads it (R287, R319). -/
def State.csrValue (s : State) (h : Nat) (n : Csr) : Word :=
  let p := s.proc h
  let q := s.part p.part
  match n with
  | .vl => zx p.vl
  | .vs => p.vs
  | .vt => p.vt
  | .vmsel => zx p.vmsel
  | .mt => zx p.mt
  | .peer => zx p.peer
  | .mstep => zx p.mstep
  | .nbv => zx p.nbv
  | .fflags => zx p.fflags
  | .cflags => zx p.cflags
  | .lpart => BitVec.ofNat 64 (s.lpart h)
  | .pid => BitVec.ofNat 64 h
  | .cycle => BitVec.ofNat 64 s.cycle
  | .status => zx p.status
  | .epc => zx p.epc
  | .cause => zx p.cause
  | .frec => p.frec
  | .tvec => zx q.tvec
  | .stimeo => zx q.stimeo
  | .tsh i => zx (Tab.lookD (s.tile p.tile).tsh i.toNat 0x3F3F)
  | .seeda => q.seeda
  | .seedb => q.seedb
  | .tlbi | .resume | .pswap => 0
  | .sdesc => q.sdesc
  | .pset => zx s.pset
  | .hepset => zx s.hepset
  | .pcap => zx s.pcap
/-- CSRR (R287, R319): it never commits a strip; a read of VL waits for a pending grant (R47). -/
def execCsrr (d : BitVec 5) (n : Csr) (s : State) : Out :=
  .next (s.withRegs [d]
    (if s.me.pl < csrReadLevel n then s.raise 0x3C .privilege
     else
      let go := (s.setReg d (s.csrValue s.running n)).retire 0x3C
      if n = .vl then s.afterGrant go else go))

/-- A PC kept in bits [47:2] of a word (Table 10.2). -/
def pcOf (v : Word) : BitVec 48 := BitVec.ofNat 48 (v.toNat / 4 * 4)
/-- A register that a write outside the checkpoint changes and that has no action (R229, R287). -/
def State.csrStore (s : State) (n : Csr) (v : Word) : State :=
  let lv := decide (1 ≤ s.me.pl)
  match n with
  | .mstep => if lv then s.updMe fun p => { p with mstep := v.setWidth 7 } else s
  | .fflags => s.updMe fun p => { p with fflags := v.setWidth 5 }
  | .status => s.updMe fun p => { p with status := BitVec.ofNat 8 (p.status.toNat % 16 + wfield v 7 4 * 16) }
  | .epc => if lv then s.updMe fun p => { p with epc := pcOf v } else s
  | .tvec => s.updPart s.me.part fun q => { q with tvec := pcOf v }
  | .stimeo => s.updPart s.me.part fun q => { q with stimeo := v.setWidth 32 }
  | .seeda => s.updPart s.me.part fun q => { q with seeda := v }
  | .seedb => s.updPart s.me.part fun q => { q with seedb := v }
  | .pcap => { s with pcap := BitVec.ofNat 13 (min 4200 (v.toNat % 8192)) }
  | _ => s
/-- A level 0 write of STATUS that would change DET, SS, DBG or XO (R227). -/
def Proc.statusGuard (p : Proc) (v : Word) : Bool := decide (p.pl = 0 ∧ wfield v 7 4 ≠ p.status.toNat / 16)
/-- The doublewords of a descriptor at LOCAL offset `off` of the running process: `n` bytes that pass its window. -/
def State.descAt (s : State) (off n : Nat) : Except Cause DescAt :=
  match s.readWindow (BitVec.ofNat 64 off) n with
  | .ok bs => .ok fun o => dword bs o
  | .error c => .error c
/-- The action of a write of PSET by the running process (R253 to R256). -/
def State.writePset (s : State) (off : Nat) : Except (Cause × FInfo) State :=
  if off % 8 ≠ 0 then .error (.misalign, FInfo.at off)
  else match s.descAt off 392 with
    | .error c => .error (c, FInfo.at off)
    | .ok hd => match s.descAt off (392 + (min 2048 (hd 384 % 4096) + 1) / 2 * 8) with
      | .error c => .error (c, FInfo.at off)
      | .ok rd => match s.pset_ rd with
        | some s => .ok { s with pset := BitVec.ofNat 20 off }
        | none => .error (.protection, {})
/-- The action of a write of HEPSET by the running process (R288). -/
def State.writeHepset (s : State) (off : Nat) : Except (Cause × FInfo) State :=
  if off % 8 ≠ 0 then .error (.misalign, FInfo.at off)
  else match s.descAt off 32 with
    | .error c => .error (c, FInfo.at off)
    | .ok rd => match s.hepset_ (rd 0) (rd 8) (rd 16) (rd 24) with
      | some s => .ok { s with hepset := BitVec.ofNat 20 off }
      | none => .error (.protection, {})
/-- The running process's instruction completes, or takes the fault of its action. -/
def State.retireOr (s : State) (op : Nat) (r : Except (Cause × FInfo) State) : State :=
  match r with
  | .ok t => t.retire op
  | .error (c, x) => s.raise op c x
/-- A write of RESUME: with ACT 3 the writer's next instruction is held, as by a fixed-latency interlock, until the process has reached EXITED
(R31, R234). -/
def State.writeResume (s : State) (v : Word) : State :=
  match s.resume s.me.part v with
  | .error (c, x) => s.raise 0x3C c x
  | .ok t => (if wfield v 39 36 = 3 then t.updMe fun p => { p with ending := some (wfield v 31 0) } else t).retire 0x3C
/-- A write of PSWAP (R267); a process that swaps itself out first completes. A commit of the process in progress completes first, and
the writer is held meanwhile (R243). -/
def State.writePswap (s : State) (v : Word) : State :=
  if s.named s.me.part (wfield v 31 0) && (s.proc (wfield v 31 0)).inCommit then s.holdUntil (s.cycle + 1)
  else match s.pswap s.me.part v with
  | (t, .error (c, x)) => t.raise 0x3C c x
  | (t, .ok u) => if wfield v 31 0 = s.running then (t.retire 0x3C).orSame ((t.retire 0x3C).pswap s.me.part v).2 else u.retire 0x3C
/-- CSRW of a register that the checkpoint does not hold, behind the commit (R289, R320). A value of STATUS takes effect for
the next instruction, also where STEP reads it; EPC is written before STEP saves the next instruction's address there (R245). -/
def State.csrAct (s : State) (n : Csr) (v : Word) : State :=
  if s.me.pl < csrWriteLevel n ∨ (n = .status ∧ s.me.statusGuard v) then s.raise 0x3C .privilege
  else match n with
    | .tlbi => (s.tlbi s.me.part v).retire 0x3C
    | .sdesc => s.retireOr 0x3C (s.sdescWrite s.running v)
    | .resume => s.writeResume v
    | .pswap => s.writePswap v
    | .pset => s.retireOr 0x3C (s.writePset (wfield v 19 0))
    | .hepset => s.retireOr 0x3C (s.writeHepset (wfield v 19 0))
    | .status => (s.retire 0x3C).csrStore .status v
    | n => (s.csrStore n v).retire 0x3C
/-- CSRW (R287, R289, R320). -/
def execCsrw (a : BitVec 5) (n : Csr) (s : State) : Out :=
  .next (s.withRegs [a]
    (let v := s.reg a
     match n with
     | .vs => (s.updMe fun p => { p with vs := v }).retire 0x3C
     | .vt => s.afterGrant ((s.setVt v).retire 0x3C)
     | .vmsel => (s.updMe fun p => { p with vmsel := v.setWidth 5 }).retire 0x3C
     | .mt => (s.updMe fun p => { p with mt := v.setWidth 7 &&& mtMask }).retire 0x3C
     | .peer => (s.updMe fun p => { p with peer := v.setWidth 22 }).retire 0x3C
     | .cflags => (s.updMe fun p => { p with cflags := v.setWidth 21 &&& cflagsMask }).retire 0x3C
     | n => s.afterCommit fun s => s.withRegs [a] (s.csrAct n (s.reg a))))

/-- TRAP (R228, R382). -/
def execTrap (c : BitVec 12) (s : State) : Out := .next (s.afterCommit fun s => s.raise 0 .softwareTrap { detail := c.toNat })
/-- ERET (R228, R242, R332). Where it gives the process the analyser, a saved array of the process that its handler has not loaded comes back
(R197, log 41). -/
def execEret (s : State) : Out :=
  .next (s.afterCommit fun s =>
    if s.me.pl ≠ 1 then s.raise 0x3C .privilege
    else
      let h := s.running
      let owner (s : State) := Tab.lookD (s.tile (s.proc h).tile).owners 17 0
      let t := (if s.me.xo ∧ s.me.causeUnit = 2 then s.takeBackArray h else s).eretAt h
      t.dropDstep (owner s) (owner t))
/-- The running process enters HALTED-DEBUG with EPC and the PC at which a release goes on (R305, R335). -/
def State.haltHere (s : State) (epc pc : BitVec 48) : State :=
  s.updMe fun p => { p.enter .haltedDebug s.cycle with epc := epc, pc := pc, lastIssue := some s.cycle, need := 0 }
/-- BRK (R305). -/
def execBrk (s : State) : Out :=
  .next (s.afterCommit fun s =>
    if s.me.dbg then s.haltHere s.me.pc (s.me.pc + 4) else s.raise 0x3C .breakpoint)
/-- HALT (R335). -/
def execHalt (s : State) : Out :=
  .next (s.afterCommit fun s =>
    if s.me.dbg then (s.countEvent s.myTile 1 1).haltHere (s.me.pc + 4) (s.me.pc + 4) else s.raise 0x3C .breakpoint)
/-- ILLEGAL_WORD (R273): the word commits nothing. -/
def execIllegalWord (w : BitVec 32) (s : State) : Out := .next (s.raise (w.toNat / 2 ^ 26) .illegalOpcode)

end Sys2Proof.Machine
end

