-- ==== Sys2Proof/Machine/VecInt.lean ====
section
/-! DEFINITION. Integer vector arithmetic, major 0x19 (R160, R385 to R387, R401). -/

namespace Sys2Proof.Machine

/-- A vector instruction that writes the active elements of `d`, each by `f` from the state before it (R385). -/
def State.vmap (s : State) (op : Nat) (d : BitVec 5) (rs : List (BitVec 5)) (f : State → VCtx → Nat → Nat) : State :=
  s.vectorOp op (d :: rs) fun s =>
    let v := s.vc
    (s.putElems v d ((s.actives v).map fun i => (i, f s v i))).retire op
/-- An integer element operation of two sources, the second under the replicate modifier: `f` takes EW and the elements
(R401). -/
def State.vint (s : State) (d a b : BitVec 5) (r : Rep) (f : Nat → Nat → Nat → Nat) : Out :=
  .next (s.vmap 0x19 d [a, b] fun s v i => f v.ew (s.elem v a i) (s.elem v b (Rep.index r i)) % 2 ^ v.ew)
/-- SatS of R401. -/
def satS (w : Nat) (x : Int) : Nat := wrapInt w (Min.min (Max.max x (-(2 ^ (w - 1) : Nat))) ((2 ^ (w - 1) : Nat) - 1))
/-- The element with the lesser, or the greater, signed value. -/
def minS (w x y : Nat) : Nat := if signedOf w x ≤ signedOf w y then x else y
def maxS (w x y : Nat) : Nat := if signedOf w y ≤ signedOf w x then x else y

/-- VADD (R387). -/
def execVadd (d a b : BitVec 5) (r : Rep) (s : State) : Out := s.vint d a b r fun _ x y => x + y
/-- VSUB (R401). -/
def execVsub (d a b : BitVec 5) (r : Rep) (s : State) : Out := s.vint d a b r fun w x y => x + (2 ^ w - y)
/-- VMUL (R401). -/
def execVmul (d a b : BitVec 5) (r : Rep) (s : State) : Out := s.vint d a b r fun _ x y => x * y
/-- VMULH (R401). -/
def execVmulh (d a b : BitVec 5) (r : Rep) (s : State) : Out :=
  s.vint d a b r fun w x y => wrapInt w (signedOf w x * signedOf w y / (2 ^ w : Nat))
/-- VMADD (R401). -/
def execVmadd (d a b : BitVec 5) (r : Rep) (s : State) : Out :=
  .next (s.vmap 0x19 d [a, b] fun s v i => (s.elem v d i + s.elem v a i * s.elem v b (Rep.index r i)) % 2 ^ v.ew)
/-- VAND (R387). -/
def execVand (d a b : BitVec 5) (r : Rep) (s : State) : Out := s.vint d a b r fun _ x y => x &&& y
/-- VOR (R401). -/
def execVor (d a b : BitVec 5) (r : Rep) (s : State) : Out := s.vint d a b r fun _ x y => x ||| y
/-- VXOR (R401). -/
def execVxor (d a b : BitVec 5) (r : Rep) (s : State) : Out := s.vint d a b r fun _ x y => x ^^^ y
/-- VSLL (R401). -/
def execVsll (d a b : BitVec 5) (r : Rep) (s : State) : Out := s.vint d a b r fun w x y => x * 2 ^ (y % w)
/-- VSRL (R401). -/
def execVsrl (d a b : BitVec 5) (r : Rep) (s : State) : Out := s.vint d a b r fun w x y => x / 2 ^ (y % w)
/-- VSRA (R401). -/
def execVsra (d a b : BitVec 5) (r : Rep) (s : State) : Out :=
  s.vint d a b r fun w x y => wrapInt w (signedOf w x / (2 ^ (y % w) : Nat))
/-- VMIN (R401). -/
def execVmin (d a b : BitVec 5) (r : Rep) (s : State) : Out := s.vint d a b r minS
/-- VMAX (R401). -/
def execVmax (d a b : BitVec 5) (r : Rep) (s : State) : Out := s.vint d a b r maxS
/-- VMINU (R401). -/
def execVminu (d a b : BitVec 5) (r : Rep) (s : State) : Out := s.vint d a b r fun _ x y => min x y
/-- VMAXU (R401). -/
def execVmaxu (d a b : BitVec 5) (r : Rep) (s : State) : Out := s.vint d a b r fun _ x y => max x y
/-- VSADD (R401). -/
def execVsadd (d a b : BitVec 5) (r : Rep) (s : State) : Out := s.vint d a b r fun w x y => satS w (signedOf w x + signedOf w y)
/-- VSSUB (R401). -/
def execVssub (d a b : BitVec 5) (r : Rep) (s : State) : Out := s.vint d a b r fun w x y => satS w (signedOf w x - signedOf w y)
/-- VABS (R387). -/
def execVabs (d a : BitVec 5) (s : State) : Out :=
  .next (s.vmap 0x19 d [a] fun s v i => wrapInt v.ew ((signedOf v.ew (s.elem v a i)).natAbs : Int))

end Sys2Proof.Machine
end

