-- ==== Sys2Proof/Machine/VecMask.lean ====
section
/-! DEFINITION. Comparisons, mask logic, merge, compress, expand, iota: major 0x1B (R156, R157, R388 to R390, R392, R396,
R402, R403). -/

namespace Sys2Proof.Machine

/-- VCMP's conditions on elements of width `w` (R388). -/
def ICond.holds (c : ICond) (w x y : Nat) : Bool :=
  match c with
  | .eq => decide (x = y)
  | .ne => decide (x ≠ y)
  | .lt => decide (signedOf w x < signedOf w y)
  | .ge => decide (signedOf w y ≤ signedOf w x)
  | .ltu => decide (x < y)
  | .geu => decide (y ≤ x)
/-- VFCMP's conditions (R392). -/
def FCond.holds (c : FCond) (x y : FVal) : Bool :=
  let un := x.isNan || y.isNan
  match c with
  | .eq => !un && decide (x.cmp y = 0)
  | .ne => un || decide (x.cmp y ≠ 0)
  | .lt => !un && decide (x.cmp y < 0)
  | .le => !un && decide (x.cmp y ≤ 0)
  | .un => un
/-- VMLOG's functions (R403). -/
def MOp.eval (o : MOp) (x y : Bool) : Bool :=
  match o with
  | .and => x && y
  | .or => x || y
  | .xor => x != y
  | .andn => x && !y
  | .orn => x || !y
  | .nand => !(x && y)
  | .nor => !(x || y)
  | .xnor => x == y
/-- VCMP (R388). -/
def execVcmp (d : BitVec 3) (a b : BitVec 5) (r : Rep) (c : ICond) (s : State) : Out :=
  .next (s.vectorOp 0x1B [a, b] fun s =>
    let v := s.vc
    (s.putMask v d.toNat fun i => ICond.holds c v.ew (s.elem v a i) (s.elem v b (Rep.index r i))).retire 0x1B)
/-- VFCMP (R392). -/
def execVfcmp (d : BitVec 3) (a b : BitVec 5) (r : Rep) (c : FCond) (s : State) : Out :=
  .next (s.vectorIf 0x1B (isFloat s.me.vt) [a, b] fun s =>
    let v := s.vc
    let t := (vtFloat v.vt).getD .fp32
    (s.putMask v d.toNat fun i => FCond.holds c (t.decode (s.elem v a i)) (t.decode (s.elem v b (Rep.index r i)))).retire 0x1B)
/-- VMLOG (R403). -/
def execVmlog (d a b : BitVec 3) (o : MOp) (s : State) : Out :=
  .next (s.maskOp 0x1B [a.toNat, b.toNat] [] fun s =>
    let v := s.vc
    (s.putMask v d.toNat fun i => MOp.eval o (s.maskBit v a.toNat i) (s.maskBit v b.toNat i)).retire 0x1B)
/-- VMPOP (R403). -/
def execVmpop (d : BitVec 5) (a : BitVec 3) (s : State) : Out :=
  .next (s.withRegs [d] (s.maskOp 0x1B [a.toNat] [] fun s =>
    let v := s.vc
    (s.setReg d (BitVec.ofNat 64 ((s.actives v).filter fun i => s.maskBit v a.toNat i).length)).retire 0x1B))
/-- VMFIRST (R403). -/
def execVmfirst (d : BitVec 5) (a : BitVec 3) (s : State) : Out :=
  .next (s.withRegs [d] (s.maskOp 0x1B [a.toNat] [] fun s =>
    let v := s.vc
    let w : Word := match (s.actives v).find? fun i => s.maskBit v a.toNat i with
      | some i => BitVec.ofNat 64 i
      | none => BitVec.allOnes 64
    (s.setReg d w).retire 0x1B))
/-- VMERGE (R402): every position below VL. -/
def execVmerge (d a b : BitVec 5) (r : Rep) (s : State) : Out :=
  .next (s.vectorOp 0x1B [d, a, b] fun s =>
    let v := s.vc
    (s.putElems v d ((List.range v.vl).map fun i => (i, if s.active v i then s.elem v b (Rep.index r i) else s.elem v a i))).retire 0x1B)
/-- VCOMPRESS (R389). -/
def execVcompress (d a : BitVec 5) (s : State) : Out :=
  .next (s.vectorOp 0x1B [d, a] fun s =>
    let v := s.vc
    (s.putElems v d ((s.actives v).zipIdx.map fun e => (e.2, s.elem v a e.1))).retire 0x1B)
/-- VEXPAND (R390). -/
def execVexpand (d a : BitVec 5) (s : State) : Out :=
  .next (s.vectorOp 0x1B [d, a] fun s =>
    let v := s.vc
    (s.putElems v d ((s.actives v).zipIdx.map fun e => (e.1, s.elem v a e.2))).retire 0x1B)
/-- VIOTA (R396). -/
def execViota (d : BitVec 5) (a : BitVec 3) (s : State) : Out :=
  .next (s.maskOp 0x1B [a.toNat] [d] fun s =>
    let v := s.vc
    let act := s.actives v
    (s.putElems v d (act.map fun i =>
      (i, (act.filter fun j => decide (j < i) && s.maskBit v a.toNat j).length % 2 ^ v.ew))).retire 0x1B)

end Sys2Proof.Machine
end

