-- ==== Sys2Proof/Machine/VecMove.lean ====
section
/-! DEFINITION. Vector moves, slides and permutation, major 0x1C (R404, R405, R409). -/

namespace Sys2Proof.Machine

/-- VSLIDEUP (R409): positions below the count keep their values. -/
def execVslideup (d a b : BitVec 5) (s : State) : Out :=
  .next (s.withRegs [b] (s.vectorOp 0x1C [d, a] fun s =>
    let v := s.vc
    let k := s.regN b
    (s.putElems v d (((s.actives v).filter fun i => decide (k ≤ i)).map fun i => (i, s.elem v a (i - k)))).retire 0x1C))
/-- VSLIDEDN (R409). -/
def execVslidedn (d a b : BitVec 5) (s : State) : Out :=
  .next (s.withRegs [b] (s.vectorOp 0x1C [d, a] fun s =>
    let v := s.vc
    let k := s.regN b
    (s.putElems v d ((s.actives v).map fun i => (i, if i + k < v.vlmax then s.elem v a (i + k) else 0))).retire 0x1C))
/-- VPERM (R405). -/
def execVperm (d a b : BitVec 5) (r : Rep) (s : State) : Out :=
  .next (s.vectorOp 0x1C [d, a, b] fun s =>
    let v := s.vc
    (s.putElems v d ((s.actives v).map fun i =>
      let x := s.elem v b (Rep.index r i)
      (i, if x < v.vlmax then s.elem v a x else 0))).retire 0x1C)
/-- VMV (R404). -/
def execVmv (d a : BitVec 5) (s : State) : Out :=
  .next (s.vectorOp 0x1C [d, a] fun s =>
    let v := s.vc
    (s.putElems v d ((s.actives v).map fun i => (i, s.elem v a i))).retire 0x1C)
/-- VMVSV (R404). -/
def execVmvsv (d a : BitVec 5) (s : State) : Out :=
  .next (s.withRegs [a] (s.vectorOp 0x1C [d] fun s =>
    let v := s.vc
    (s.putElems v d ((s.actives v).map fun i => (i, s.regN a % 2 ^ v.ew))).retire 0x1C))
/-- VMVVS (R404): it waits for the group that holds its element (R97), and reads no mask register. -/
def execVmvvs (d a b : BitVec 5) (s : State) : Out :=
  .next (s.withRegs [b, d] (s.afterGrant
    (let ids := s.fillingGroup a.toNat (s.regN b)
     if ids ≠ [] then s.holdOn ids
     else s.touch 0x1C 0 fun s =>
      let v := s.vc
      let k := s.regN b
      (s.setReg d (if k < v.vlmax then sext64 v.ew (s.elem v a k) else 0)).retire 0x1C)))

end Sys2Proof.Machine
end

