-- ==== Sys2Proof/Machine/VecRed.lean ====
section
/-! DEFINITION. Vector reductions, major 0x1D (R143, R395, R408). -/

namespace Sys2Proof.Machine

/-- An integer reduction: the seed is element 0 of `b`, the result goes to element 0 of `d` (R408). -/
def State.vred (s : State) (d a b : BitVec 5) (f : Nat → Nat → Nat → Nat) : Out :=
  .next (s.vectorOp 0x1D [d, a, b] fun s =>
    let v := s.vc
    let r := (s.actives v).foldl (fun x i => f v.ew x (s.elem v a i) % 2 ^ v.ew) (s.elem v b 0)
    (s.putElems v d [(0, r)]).retire 0x1D)
/-- VREDSUM (R408). -/
def execVredsum (d a b : BitVec 5) (s : State) : Out := s.vred d a b fun _ x y => x + y
/-- VREDMIN (R408). -/
def execVredmin (d a b : BitVec 5) (s : State) : Out := s.vred d a b minS
/-- VREDMAX (R408). -/
def execVredmax (d a b : BitVec 5) (s : State) : Out := s.vred d a b maxS

/-- How two values of a reduction tree combine in FP32: the code and its flags (R143). -/
abbrev Combine := Nat → Nat → Nat × Flags
/-- A sum node, rounded to FP32. -/
def sumNode : Combine := fun x y => roundOnce .fp32 ((Fmt.fp32.decode x).add (Fmt.fp32.decode y))
/-- A minimum or maximum node. -/
def minNode : Combine := fun x y => convert ((Fmt.fp32.decode x).min (Fmt.fp32.decode y)) .fp32 false
def maxNode : Combine := fun x y => convert ((Fmt.fp32.decode x).max (Fmt.fp32.decode y)) .fp32 false
/-- One level of the tree: an absent leaf passes its sibling up. -/
def treeLevel (f : Combine) : List (Option Nat) → List (Option Nat) × Flags
  | a :: b :: rest =>
    let (l, fl) := treeLevel f rest
    (match a, b with
      | none, y => (y :: l, fl)
      | x, none => (x :: l, fl)
      | some x, some y => let (z, g) := f x y; (some z :: l, fl ||| g))
  | l => (l, 0)
/-- The root of the tree over 2^n leaves, with the flags of every node. -/
def treeRoot (f : Combine) : Nat → List (Option Nat) → Option Nat × Flags
  | 0, l => (l.headD none, 0)
  | n + 1, l =>
    let (l, fl) := treeLevel f l
    let (r, g) := treeRoot f n l
    (r, fl ||| g)
/-- An element widened exactly to FP32. -/
def toFp32 (t : Fmt) (x : Nat) : Nat := if t = .fp32 then x else (convert (t.decode x) .fp32 false).1
/-- A floating-point reduction (R143, R395): with no active element the seed is returned bit for bit. -/
def State.vfred (s : State) (d a b : BitVec 5) (f : Combine) : Out :=
  .next (s.vectorIf 0x1D (isFloat s.me.vt) [d, a, b] fun s =>
    let v := s.vc
    let t := (vtFloat v.vt).getD .fp32
    let n := if v.vl ≤ 1 then 0 else Nat.log2 (v.vl - 1) + 1
    let leaves := (List.range (2 ^ n)).map fun i => if s.active v i then some (toFp32 t (s.elem v a i)) else none
    let seed := s.elem v b 0
    let (r, fl) := treeRoot f n leaves
    let (x, fl) : Nat × Flags := match r with
      | none => (seed, 0)
      | some y =>
        let (z, g) := f y (toFp32 t seed)
        let (c, g') := if t = .fp32 then (z, 0) else convert (Fmt.fp32.decode z) t false
        (c, fl ||| g ||| g')
    ((s.putElems v d [(0, x)]).raiseFlags fl).retire 0x1D)
/-- VFREDSUM (R143, R395). -/
def execVfredsum (d a b : BitVec 5) (s : State) : Out := s.vfred d a b sumNode
/-- VFREDMIN (R143, R395). -/
def execVfredmin (d a b : BitVec 5) (s : State) : Out := s.vfred d a b minNode
/-- VFREDMAX (R143, R395). -/
def execVfredmax (d a b : BitVec 5) (s : State) : Out := s.vfred d a b maxNode

end Sys2Proof.Machine
end

