-- ==== Sys2Proof/Machine/Dispatch.lean ====
section
/-! DEFINITION. The dispatch: one arm for each constructor of Instr, one direct call of its meaning. -/

namespace Sys2Proof.Machine

def exec (i : Instr) (s : State) : Host.Outcome State Fault Refusal :=
  match i with
  | .add d a b => Sys2Proof.Machine.execAdd d a b s
  | .sub d a b => Sys2Proof.Machine.execSub d a b s
  | .mul d a b => Sys2Proof.Machine.execMul d a b s
  | .mulh d a b => Sys2Proof.Machine.execMulh d a b s
  | .mulhu d a b => Sys2Proof.Machine.execMulhu d a b s
  | .div d a b => Sys2Proof.Machine.execDiv d a b s
  | .divu d a b => Sys2Proof.Machine.execDivu d a b s
  | .rem d a b => Sys2Proof.Machine.execRem d a b s
  | .remu d a b => Sys2Proof.Machine.execRemu d a b s
  | .and d a b => Sys2Proof.Machine.execAnd d a b s
  | .or d a b => Sys2Proof.Machine.execOr d a b s
  | .xor d a b => Sys2Proof.Machine.execXor d a b s
  | .sll d a b => Sys2Proof.Machine.execSll d a b s
  | .srl d a b => Sys2Proof.Machine.execSrl d a b s
  | .sra d a b => Sys2Proof.Machine.execSra d a b s
  | .slt d a b => Sys2Proof.Machine.execSlt d a b s
  | .sltu d a b => Sys2Proof.Machine.execSltu d a b s
  | .min d a b => Sys2Proof.Machine.execMin d a b s
  | .max d a b => Sys2Proof.Machine.execMax d a b s
  | .clz d a => Sys2Proof.Machine.execClz d a s
  | .popc d a => Sys2Proof.Machine.execPopc d a s
  | .addi d a imm => Sys2Proof.Machine.execAddi d a imm s
  | .andi d a imm => Sys2Proof.Machine.execAndi d a imm s
  | .ori d a imm => Sys2Proof.Machine.execOri d a imm s
  | .xori d a imm => Sys2Proof.Machine.execXori d a imm s
  | .slti d a imm => Sys2Proof.Machine.execSlti d a imm s
  | .slli d a h => Sys2Proof.Machine.execSlli d a h s
  | .srli d a h => Sys2Proof.Machine.execSrli d a h s
  | .srai d a h => Sys2Proof.Machine.execSrai d a h s
  | .lui d imm => Sys2Proof.Machine.execLui d imm s
  | .auipc d imm => Sys2Proof.Machine.execAuipc d imm s
  | .ld d a z imm => Sys2Proof.Machine.execLd d a z imm s
  | .st d a z imm => Sys2Proof.Machine.execSt d a z imm s
  | .beq x y o => Sys2Proof.Machine.execBeq x y o s
  | .bne x y o => Sys2Proof.Machine.execBne x y o s
  | .blt x y o => Sys2Proof.Machine.execBlt x y o s
  | .bge x y o => Sys2Proof.Machine.execBge x y o s
  | .bltu x y o => Sys2Proof.Machine.execBltu x y o s
  | .bgeu x y o => Sys2Proof.Machine.execBgeu x y o s
  | .beos o => Sys2Proof.Machine.execBeos o s
  | .jal d o => Sys2Proof.Machine.execJal d o s
  | .jalr d a imm => Sys2Proof.Machine.execJalr d a imm s
  | .vld d a => Sys2Proof.Machine.execVld d a s
  | .vlds d a => Sys2Proof.Machine.execVlds d a s
  | .vldx d a b => Sys2Proof.Machine.execVldx d a b s
  | .vldseg d a => Sys2Proof.Machine.execVldseg d a s
  | .vst d a => Sys2Proof.Machine.execVst d a s
  | .vsts d a => Sys2Proof.Machine.execVsts d a s
  | .vstx d a b => Sys2Proof.Machine.execVstx d a b s
  | .vstseg d a => Sys2Proof.Machine.execVstseg d a s
  | .vadd d a b r => Sys2Proof.Machine.execVadd d a b r s
  | .vsub d a b r => Sys2Proof.Machine.execVsub d a b r s
  | .vmul d a b r => Sys2Proof.Machine.execVmul d a b r s
  | .vmulh d a b r => Sys2Proof.Machine.execVmulh d a b r s
  | .vmadd d a b r => Sys2Proof.Machine.execVmadd d a b r s
  | .vand d a b r => Sys2Proof.Machine.execVand d a b r s
  | .vor d a b r => Sys2Proof.Machine.execVor d a b r s
  | .vxor d a b r => Sys2Proof.Machine.execVxor d a b r s
  | .vsll d a b r => Sys2Proof.Machine.execVsll d a b r s
  | .vsrl d a b r => Sys2Proof.Machine.execVsrl d a b r s
  | .vsra d a b r => Sys2Proof.Machine.execVsra d a b r s
  | .vmin d a b r => Sys2Proof.Machine.execVmin d a b r s
  | .vmax d a b r => Sys2Proof.Machine.execVmax d a b r s
  | .vminu d a b r => Sys2Proof.Machine.execVminu d a b r s
  | .vmaxu d a b r => Sys2Proof.Machine.execVmaxu d a b r s
  | .vsadd d a b r => Sys2Proof.Machine.execVsadd d a b r s
  | .vssub d a b r => Sys2Proof.Machine.execVssub d a b r s
  | .vabs d a => Sys2Proof.Machine.execVabs d a s
  | .vfadd d a b r => Sys2Proof.Machine.execVfadd d a b r s
  | .vfsub d a b r => Sys2Proof.Machine.execVfsub d a b r s
  | .vfmul d a b r => Sys2Proof.Machine.execVfmul d a b r s
  | .vfma d a b r => Sys2Proof.Machine.execVfma d a b r s
  | .vfnma d a b r => Sys2Proof.Machine.execVfnma d a b r s
  | .vfdiv d a b r => Sys2Proof.Machine.execVfdiv d a b r s
  | .vfsqrt d a => Sys2Proof.Machine.execVfsqrt d a s
  | .vfmin d a b r => Sys2Proof.Machine.execVfmin d a b r s
  | .vfmax d a b r => Sys2Proof.Machine.execVfmax d a b r s
  | .vfsgn d a b r => Sys2Proof.Machine.execVfsgn d a b r s
  | .vfcvt d a k => Sys2Proof.Machine.execVfcvt d a k s
  | .vfcvtSat d a => Sys2Proof.Machine.execVfcvtSat d a s
  | .vcmp d a b r c => Sys2Proof.Machine.execVcmp d a b r c s
  | .vfcmp d a b r c => Sys2Proof.Machine.execVfcmp d a b r c s
  | .vmlog d a b o => Sys2Proof.Machine.execVmlog d a b o s
  | .vmpop d a => Sys2Proof.Machine.execVmpop d a s
  | .vmfirst d a => Sys2Proof.Machine.execVmfirst d a s
  | .vmerge d a b r => Sys2Proof.Machine.execVmerge d a b r s
  | .vcompress d a => Sys2Proof.Machine.execVcompress d a s
  | .vexpand d a => Sys2Proof.Machine.execVexpand d a s
  | .viota d a => Sys2Proof.Machine.execViota d a s
  | .vslideup d a b => Sys2Proof.Machine.execVslideup d a b s
  | .vslidedn d a b => Sys2Proof.Machine.execVslidedn d a b s
  | .vperm d a b r => Sys2Proof.Machine.execVperm d a b r s
  | .vmv d a => Sys2Proof.Machine.execVmv d a s
  | .vmvsv d a => Sys2Proof.Machine.execVmvsv d a s
  | .vmvvs d a b => Sys2Proof.Machine.execVmvvs d a b s
  | .vredsum d a b => Sys2Proof.Machine.execVredsum d a b s
  | .vredmin d a b => Sys2Proof.Machine.execVredmin d a b s
  | .vredmax d a b => Sys2Proof.Machine.execVredmax d a b s
  | .vfredsum d a b => Sys2Proof.Machine.execVfredsum d a b s
  | .vfredmin d a b => Sys2Proof.Machine.execVfredmin d a b s
  | .vfredmax d a b => Sys2Proof.Machine.execVfredmax d a b s
  | .cpush d c m => Sys2Proof.Machine.execCpush d c m s
  | .cpop d c m => Sys2Proof.Machine.execCpop d c m s
  | .cpeek d c b => Sys2Proof.Machine.execCpeek d c b s
  | .cadv c b => Sys2Proof.Machine.execCadv c b s
  | .cclose c => Sys2Proof.Machine.execCclose c s
  | .cbind d c b => Sys2Proof.Machine.execCbind d c b s
  | .cbindMove d c b => Sys2Proof.Machine.execCbindMove d c b s
  | .cunbind c => Sys2Proof.Machine.execCunbind c s
  | .vpush d c m => Sys2Proof.Machine.execVpush d c m s
  | .vpop d c => Sys2Proof.Machine.execVpop d c s
  | .scopy d a p => Sys2Proof.Machine.execScopy d a p s
  | .sgather d a b p m => Sys2Proof.Machine.execSgather d a b p m s
  | .sbar p => Sys2Proof.Machine.execSbar p s
  | .kderive d a b p => Sys2Proof.Machine.execKderive d a b p s
  | .kld d a => Sys2Proof.Machine.execKld d a s
  | .kst d a => Sys2Proof.Machine.execKst d a s
  | .ksend d c => Sys2Proof.Machine.execKsend d c s
  | .krecv d c => Sys2Proof.Machine.execKrecv d c s
  | .aadd a b z => Sys2Proof.Machine.execAadd a b z s
  | .amin a b z => Sys2Proof.Machine.execAmin a b z s
  | .amax a b z => Sys2Proof.Machine.execAmax a b z s
  | .aand a b z => Sys2Proof.Machine.execAand a b z s
  | .aor a b z => Sys2Proof.Machine.execAor a b z s
  | .axadd d a b z => Sys2Proof.Machine.execAxadd d a b z s
  | .axchg d a b z => Sys2Proof.Machine.execAxchg d a b z s
  | .acas d a b z => Sys2Proof.Machine.execAcas d a b z s
  | .fence sz => Sys2Proof.Machine.execFence sz s
  | .spawn d a => Sys2Proof.Machine.execSpawn d a s
  | .exit => Sys2Proof.Machine.execExit s
  | .yield => Sys2Proof.Machine.execYield s
  | .prio d a => Sys2Proof.Machine.execPrio d a s
  | .setvl d a => Sys2Proof.Machine.execSetvl d a s
  | .setvs a => Sys2Proof.Machine.execSetvs a s
  | .setvt a => Sys2Proof.Machine.execSetvt a s
  | .setmt a => Sys2Proof.Machine.execSetmt a s
  | .setpeer a => Sys2Proof.Machine.execSetpeer a s
  | .stripend => Sys2Proof.Machine.execStripend s
  | .cbtld a => Sys2Proof.Machine.execCbtld a s
  | .tcfg d a => Sys2Proof.Machine.execTcfg d a s
  | .mopa d a b => Sys2Proof.Machine.execMopa d a b s
  | .mma d a b => Sys2Proof.Machine.execMma d a b s
  | .mmas d a b x y => Sys2Proof.Machine.execMmas d a b x y s
  | .mmasp d a b m => Sys2Proof.Machine.execMmasp d a b m s
  | .tld d a => Sys2Proof.Machine.execTld d a s
  | .tst d a => Sys2Proof.Machine.execTst d a s
  | .tzero d => Sys2Proof.Machine.execTzero d s
  | .tmvv d a b => Sys2Proof.Machine.execTmvv d a b s
  | .tmvt d a b => Sys2Proof.Machine.execTmvt d a b s
  | .patch a b => Sys2Proof.Machine.execPatch a b s
  | .dcfg n a => Sys2Proof.Machine.execDcfg n a s
  | .dset a b => Sys2Proof.Machine.execDset a b s
  | .dget d a => Sys2Proof.Machine.execDget d a s
  | .dstep n a => Sys2Proof.Machine.execDstep n a s
  | .drun a => Sys2Proof.Machine.execDrun a s
  | .dhalt a => Sys2Proof.Machine.execDhalt a s
  | .dsave a => Sys2Proof.Machine.execDsave a s
  | .dload a => Sys2Proof.Machine.execDload a s
  | .dbind a c => Sys2Proof.Machine.execDbind a c s
  | .lease d a b => Sys2Proof.Machine.execLease d a b s
  | .lrevoke d a b => Sys2Proof.Machine.execLrevoke d a b s
  | .lquery d a => Sys2Proof.Machine.execLquery d a s
  | .vtree a b t o => Sys2Proof.Machine.execVtree a b t o s
  | .vtreew d a t o => Sys2Proof.Machine.execVtreew d a t o s
  | .csrr d n => Sys2Proof.Machine.execCsrr d n s
  | .csrw a n => Sys2Proof.Machine.execCsrw a n s
  | .trap c => Sys2Proof.Machine.execTrap c s
  | .eret => Sys2Proof.Machine.execEret s
  | .brk => Sys2Proof.Machine.execBrk s
  | .halt => Sys2Proof.Machine.execHalt s
  | .kill d a => Sys2Proof.Machine.execKill d a s
  | .keyset d a => Sys2Proof.Machine.execKeyset d a s
  | .keyrev d a => Sys2Proof.Machine.execKeyrev d a s
  | .monbind n a b => Sys2Proof.Machine.execMonbind n a b s
  | .tlbiWrite part v => Sys2Proof.Machine.execTlbiWrite part v s
  | .sdescLoad h v => Sys2Proof.Machine.execSdescLoad h v s
  | .sdescClear part tree => Sys2Proof.Machine.execSdescClear part tree s
  | .resumeAtPoint part h => Sys2Proof.Machine.execResumeAtPoint part h s
  | .resumeSkip part h => Sys2Proof.Machine.execResumeSkip part h s
  | .resumeStream part h port => Sys2Proof.Machine.execResumeStream part h port s
  | .resumeEnd part h => Sys2Proof.Machine.execResumeEnd part h s
  | .pswapOut part h => Sys2Proof.Machine.execPswapOut part h s
  | .pswapIn part h => Sys2Proof.Machine.execPswapIn part h s
  | .psetCreate tile off => Sys2Proof.Machine.execPsetCreate tile off s
  | .psetTeardown part => Sys2Proof.Machine.execPsetTeardown part s
  | .hepsetWrite tile off => Sys2Proof.Machine.execHepsetWrite tile off s
  | .laneGrantEffect tile h => Sys2Proof.Machine.execLaneGrantEffect tile h s
  | .reservedGrant tile h => Sys2Proof.Machine.execReservedGrant tile h s
  | .childRelease h => Sys2Proof.Machine.execChildRelease h s
  | .networkLaunch part => Sys2Proof.Machine.execNetworkLaunch part s
  | .loaderEndReply part net => Sys2Proof.Machine.execLoaderEndReply part net s
  | .checkRunB part net => Sys2Proof.Machine.execCheckRunB part net s
  | .checkCompare part net => Sys2Proof.Machine.execCheckCompare part net s
  | .writerRegistration wid => Sys2Proof.Machine.execWriterRegistration wid s
  | .shortfallRequest wid => Sys2Proof.Machine.execShortfallRequest wid s
  | .creditRecall wid => Sys2Proof.Machine.execCreditRecall wid s
  | .creditReturn wid => Sys2Proof.Machine.execCreditReturn wid s
  | .channelMessageArrive wid => Sys2Proof.Machine.execChannelMessageArrive wid s
  | .retargetNotice mv wid => Sys2Proof.Machine.execRetargetNotice mv wid s
  | .retargetAck mv wid => Sys2Proof.Machine.execRetargetAck mv wid s
  | .dramRead srv wid => Sys2Proof.Machine.execDramRead srv wid s
  | .dramWrite srv wid => Sys2Proof.Machine.execDramWrite srv wid s
  | .dramBadRequest srv wid => Sys2Proof.Machine.execDramBadRequest srv wid s
  | .mempipeRead id => Sys2Proof.Machine.execMempipeRead id s
  | .mempipeWrite id => Sys2Proof.Machine.execMempipeWrite id s
  | .dramAtomic id => Sys2Proof.Machine.execDramAtomic id s
  | .globalSramAccess id => Sys2Proof.Machine.execGlobalSramAccess id s
  | .memoryReply id => Sys2Proof.Machine.execMemoryReply id s
  | .cbIdleDrain tile entry => Sys2Proof.Machine.execCbIdleDrain tile entry s
  | .heldBindingEnqueue h port => Sys2Proof.Machine.execHeldBindingEnqueue h port s
  | .streamStart tile port => Sys2Proof.Machine.execStreamStart tile port s
  | .streamSector tile port => Sys2Proof.Machine.execStreamSector tile port s
  | .streamComplete tile port => Sys2Proof.Machine.execStreamComplete tile port s
  | .matrixStepGroup h => Sys2Proof.Machine.execMatrixStepGroup h s
  | .debuggerHalt h => Sys2Proof.Machine.execDebuggerHalt h s
  | .debuggerRelease h => Sys2Proof.Machine.execDebuggerRelease h s
  | .divPhaseZero tile dom => Sys2Proof.Machine.execDivPhaseZero tile dom s
  | .domainTick tile dom => Sys2Proof.Machine.execDomainTick tile dom s
  | .portTakeSlot tile port => Sys2Proof.Machine.execPortTakeSlot tile port s
  | .tapCreditPush tile tap => Sys2Proof.Machine.execTapCreditPush tile tap s
  | .monitorFire tile wid => Sys2Proof.Machine.execMonitorFire tile wid s
  | .levelCounterUpdate tile power hotSpot modulePower => Sys2Proof.Machine.execLevelCounterUpdate tile power hotSpot modulePower s
  | .monitorPendingPush tile wid => Sys2Proof.Machine.execMonitorPendingPush tile wid s
  | .fumaroleSweepStart part => Sys2Proof.Machine.execFumaroleSweepStart part s
  | .fumaroleSweepDone part => Sys2Proof.Machine.execFumaroleSweepDone part s
  | .faultRecordPush tile => Sys2Proof.Machine.execFaultRecordPush tile s
  | .firmwareFaultForward => Sys2Proof.Machine.execFirmwareFaultForward s
  | .opticalDataFlit lane flit => Sys2Proof.Machine.execOpticalDataFlit lane flit s
  | .opticalAck part peer seq => Sys2Proof.Machine.execOpticalAck part peer seq s
  | .opticalNack part peer seq => Sys2Proof.Machine.execOpticalNack part peer seq s
  | .ackTimer part peer => Sys2Proof.Machine.execAckTimer part peer s
  | .gapTimeout part peer => Sys2Proof.Machine.execGapTimeout part peer s
  | .crcThreshold lane => Sys2Proof.Machine.execCrcThreshold lane s
  | .lossOfLight lane => Sys2Proof.Machine.execLossOfLight lane s
  | .lightRestored lane => Sys2Proof.Machine.execLightRestored lane s
  | .retrain part peer => Sys2Proof.Machine.execRetrain part peer s
  | .trainingWord part peer w keyid => Sys2Proof.Machine.execTrainingWord part peer w keyid s
  | .laneOffer rlane peer peerLane backLane => Sys2Proof.Machine.execLaneOffer rlane peer peerLane backLane s
  | .offerAnswer lane accept => Sys2Proof.Machine.execOfferAnswer lane accept s
  | .offerTimeout lane => Sys2Proof.Machine.execOfferTimeout lane s
  | .trainingTimeout lane => Sys2Proof.Machine.execTrainingTimeout lane s
  | .laneDrainEnd lane => Sys2Proof.Machine.execLaneDrainEnd lane s
  | .starvationRevoke part peer => Sys2Proof.Machine.execStarvationRevoke part peer s
  | .gcmGroupClose part peer => Sys2Proof.Machine.execGcmGroupClose part peer s
  | .gcmTagFlit part peer tag count => Sys2Proof.Machine.execGcmTagFlit part peer tag count s
  | .relayForward part vnet slots => Sys2Proof.Machine.execRelayForward part vnet slots s
  | .relayRefusal wid => Sys2Proof.Machine.execRelayRefusal wid s
  | .remoteRead part slots => Sys2Proof.Machine.execRemoteRead part slots s
  | .remoteWrite part slots => Sys2Proof.Machine.execRemoteWrite part slots s
  | .remoteAtomic part slots => Sys2Proof.Machine.execRemoteAtomic part slots s
  | .remoteReply part slots => Sys2Proof.Machine.execRemoteReply part slots s
  | .sinterCombine part tree tile round => Sys2Proof.Machine.execSinterCombine part tree tile round s
  | .sinterResult part tree tile round => Sys2Proof.Machine.execSinterResult part tree tile round s
  | .sinterTimerExpire part tree tile => Sys2Proof.Machine.execSinterTimerExpire part tree tile s
  | .sinterAbortRequest part tree round => Sys2Proof.Machine.execSinterAbortRequest part tree round s
  | .sinterAbort part tree tile round reason => Sys2Proof.Machine.execSinterAbort part tree tile round reason s
  | .laharFlood kill tile => Sys2Proof.Machine.execLaharFlood kill tile s
  | .killWindowEnd kill tile => Sys2Proof.Machine.execKillWindowEnd kill tile s
  | .killReport kill tile => Sys2Proof.Machine.execKillReport kill tile s
  | .keysetComplete part => Sys2Proof.Machine.execKeysetComplete part s
  | .keyrevComplete part => Sys2Proof.Machine.execKeyrevComplete part s
  | .hostPush hep qpn rkey off len slots => Sys2Proof.Machine.execHostPush hep qpn rkey off len slots s
  | .hostCreditRead hep qpn rkey => Sys2Proof.Machine.execHostCreditRead hep qpn rkey s
  | .hostCreditUpdate hep => Sys2Proof.Machine.execHostCreditUpdate hep s
  | .d2hDeliver hep => Sys2Proof.Machine.execD2hDeliver hep s
  | .hostCreditReturn hep qpn rkey count => Sys2Proof.Machine.execHostCreditReturn hep qpn rkey count s
  | .queuePairError hep => Sys2Proof.Machine.execQueuePairError hep s
  | .detectedError unit tile index addr lasting => Sys2Proof.Machine.execDetectedError unit tile index addr lasting s
  | .powerLimit => Sys2Proof.Machine.execPowerLimit s
  | .thermalStop die => Sys2Proof.Machine.execThermalStop die s
  | .coolantLow => Sys2Proof.Machine.execCoolantLow s
  | .moduleReset => Sys2Proof.Machine.execModuleReset s
  | .illegalWord w => Sys2Proof.Machine.execIllegalWord w s
  | .powerLimitCleared => Sys2Proof.Machine.execPowerLimitCleared s

end Sys2Proof.Machine
end

