-- ==== Sys2Proof/WellFormed.lean ====
section
/-! DEFINITION. Which instructions and events are well formed: the operand limits that the types of Syntax do not carry. -/

namespace Sys2Proof

/-- What makes an instruction or an event ill formed. -/
inductive Violation
  /-- CPUSH and CPOP: d + M greater than 31 (R57). -/
  | slotRange
  /-- KDERIVE and ACAS: b = 31 has no second register (R85, R118). -/
  | pairRange
  /-- MMASP: an odd mask register number (R164). -/
  | oddMask
  /-- SBAR: an empty port set (R96). -/
  | emptyPortSet
  /-- An event that names a tile outside 0 to 2047 (R8). -/
  | noSuchTile
  /-- An event that names a partition outside 0 to 15 (R26). -/
  | noSuchPartition
  /-- An event that names a transmit lane outside 0 to 2047 (R13), or a loss of light whose number is that of none of the 64 laser
  sources either (R15). -/
  | noSuchLane
  /-- An event that names a stream port outside 0 to 7 (R11). -/
  | noSuchPort
  /-- An event that names a domain outside 0 to 7 (R11). -/
  | noSuchDomain
  /-- An event that names a tap or an external port outside 0 to 15 (R11, R186). -/
  | noSuchTap
  /-- An event that names a DRAM server outside 0 to 255 (R13). -/
  | noSuchServer
  /-- An event that names a host endpoint outside 0 to 2047 (R262). -/
  | noSuchHostEndpoint
  /-- An event that names a Sinter tree outside 0 to 15 (R220). -/
  | noSuchTree
  deriving DecidableEq, Repr

/-- A check: the violation when the condition fails. -/
def Violation.unless (v : Violation) (c : Bool) : Option Violation := if c then none else some v

/-- The first violation of an instruction or event, if any. -/
def Instr.violation : Instr → Option Violation
  | .cpush d _ m | .cpop d _ m => Violation.slotRange.unless (decide (d.toNat + m.toNat ≤ 31))
  | .kderive _ _ b _ | .acas _ _ b _ => Violation.pairRange.unless (decide (b.toNat ≤ 30))
  | .mmasp _ _ _ m => Violation.oddMask.unless (decide (m.toNat % 2 = 0))
  | .sbar p => Violation.emptyPortSet.unless (decide (p ≠ 0))
  | .psetCreate t _ | .hepsetWrite t _ | .laneGrantEffect t _ | .reservedGrant t _ | .cbIdleDrain t _
  | .monitorFire t _ | .levelCounterUpdate t _ _ _ | .monitorPendingPush t _ | .faultRecordPush t
  | .laharFlood _ t | .killWindowEnd _ t | .killReport _ t | .detectedError _ t _ _ _ =>
      Violation.noSuchTile.unless (decide (t < Config.tiles))
  | .tlbiWrite p _ | .resumeAtPoint p _ | .resumeSkip p _ | .resumeEnd p _ | .pswapOut p _ | .pswapIn p _
  | .psetTeardown p | .networkLaunch p | .loaderEndReply p _ | .checkRunB p _ | .checkCompare p _
  | .fumaroleSweepStart p | .fumaroleSweepDone p | .opticalAck p _ _ | .opticalNack p _ _ | .ackTimer p _
  | .gapTimeout p _ | .retrain p _ | .trainingWord p _ _ _ | .starvationRevoke p _ | .gcmGroupClose p _
  | .gcmTagFlit p _ _ _ | .relayForward p _ _ | .remoteRead p _ | .remoteWrite p _ | .remoteAtomic p _
  | .remoteReply p _ | .keysetComplete p | .keyrevComplete p => Violation.noSuchPartition.unless (decide (p < 16))
  | .resumeStream p _ q => (Violation.noSuchPartition.unless (decide (p < 16))).or
      (Violation.noSuchPort.unless (decide (q < 8)))
  | .heldBindingEnqueue _ q => Violation.noSuchPort.unless (decide (q < 8))
  | .streamStart t q | .streamSector t q | .streamComplete t q =>
      (Violation.noSuchTile.unless (decide (t < Config.tiles))).or (Violation.noSuchPort.unless (decide (q < 8)))
  | .divPhaseZero t d | .domainTick t d =>
      (Violation.noSuchTile.unless (decide (t < Config.tiles))).or (Violation.noSuchDomain.unless (decide (d < 8)))
  | .portTakeSlot t e | .tapCreditPush t e =>
      (Violation.noSuchTile.unless (decide (t < Config.tiles))).or (Violation.noSuchTap.unless (decide (e < 16)))
  | .lossOfLight l => Violation.noSuchLane.unless (decide (l < Config.lanes + 64))
  | .opticalDataFlit l _ | .crcThreshold l | .lightRestored l | .laneOffer l _ _ _ | .offerAnswer l _
  | .offerTimeout l | .trainingTimeout l | .laneDrainEnd l => Violation.noSuchLane.unless (decide (l < Config.lanes))
  | .dramRead v _ | .dramWrite v _ | .dramBadRequest v _ => Violation.noSuchServer.unless (decide (v < Config.servers))
  | .sdescClear p k => (Violation.noSuchPartition.unless (decide (p < 16))).or
      (Violation.noSuchTree.unless (decide (k < 16)))
  | .sinterCombine p k t _ | .sinterResult p k t _ | .sinterTimerExpire p k t | .sinterAbort p k t _ _ =>
      ((Violation.noSuchPartition.unless (decide (p < 16))).or (Violation.noSuchTree.unless (decide (k < 16)))).or
        (Violation.noSuchTile.unless (decide (t < Config.tiles)))
  | .sinterAbortRequest p k _ => (Violation.noSuchPartition.unless (decide (p < 16))).or
      (Violation.noSuchTree.unless (decide (k < 16)))
  | .hostPush n _ _ _ _ _ | .hostCreditRead n _ _ | .hostCreditUpdate n | .d2hDeliver n | .hostCreditReturn n _ _ _
  | .queuePairError n => Violation.noSuchHostEndpoint.unless (decide (n < 2048))
  | .add _ _ _ | .sub _ _ _ | .mul _ _ _ | .mulh _ _ _ | .mulhu _ _ _ | .div _ _ _ | .divu _ _ _ | .rem _ _ _
  | .remu _ _ _ | .and _ _ _ | .or _ _ _ | .xor _ _ _ | .sll _ _ _ | .srl _ _ _ | .sra _ _ _ | .slt _ _ _ | .sltu _ _ _
  | .min _ _ _ | .max _ _ _ | .clz _ _ | .popc _ _ | .addi _ _ _ | .andi _ _ _ | .ori _ _ _ | .xori _ _ _
  | .slti _ _ _ | .slli _ _ _ | .srli _ _ _ | .srai _ _ _ | .lui _ _ | .auipc _ _ | .ld _ _ _ _ | .st _ _ _ _
  | .beq _ _ _ | .bne _ _ _ | .blt _ _ _ | .bge _ _ _ | .bltu _ _ _ | .bgeu _ _ _ | .beos _ | .jal _ _
  | .jalr _ _ _ | .vld _ _ | .vlds _ _ | .vldx _ _ _ | .vldseg _ _ | .vst _ _ | .vsts _ _ | .vstx _ _ _
  | .vstseg _ _ | .vadd _ _ _ _ | .vsub _ _ _ _ | .vmul _ _ _ _ | .vmulh _ _ _ _ | .vmadd _ _ _ _ | .vand _ _ _ _
  | .vor _ _ _ _ | .vxor _ _ _ _ | .vsll _ _ _ _ | .vsrl _ _ _ _ | .vsra _ _ _ _ | .vmin _ _ _ _ | .vmax _ _ _ _
  | .vminu _ _ _ _ | .vmaxu _ _ _ _ | .vsadd _ _ _ _ | .vssub _ _ _ _ | .vabs _ _ | .vfadd _ _ _ _ | .vfsub _ _ _ _
  | .vfmul _ _ _ _ | .vfma _ _ _ _ | .vfnma _ _ _ _ | .vfdiv _ _ _ _ | .vfsqrt _ _ | .vfmin _ _ _ _
  | .vfmax _ _ _ _ | .vfsgn _ _ _ _ | .vfcvt _ _ _ | .vfcvtSat _ _ | .vcmp _ _ _ _ _ | .vfcmp _ _ _ _ _
  | .vmlog _ _ _ _ | .vmpop _ _ | .vmfirst _ _ | .vmerge _ _ _ _ | .vcompress _ _ | .vexpand _ _ | .viota _ _
  | .vslideup _ _ _ | .vslidedn _ _ _ | .vperm _ _ _ _ | .vmv _ _ | .vmvsv _ _ | .vmvvs _ _ _ | .vredsum _ _ _
  | .vredmin _ _ _ | .vredmax _ _ _ | .vfredsum _ _ _ | .vfredmin _ _ _ | .vfredmax _ _ _ | .cpeek _ _ _
  | .cadv _ _ | .cclose _ | .cbind _ _ _ | .cbindMove _ _ _ | .cunbind _ | .vpush _ _ _ | .vpop _ _ | .scopy _ _ _
  | .sgather _ _ _ _ _ | .kld _ _ | .kst _ _ | .ksend _ _ | .krecv _ _ | .aadd _ _ _ | .amin _ _ _ | .amax _ _ _
  | .aand _ _ _ | .aor _ _ _ | .axadd _ _ _ _ | .axchg _ _ _ _ | .fence _ | .spawn _ _ | .exit | .yield | .prio _ _
  | .setvl _ _ | .setvs _ | .setvt _ | .setmt _ | .setpeer _ | .stripend | .cbtld _ | .tcfg _ _ | .mopa _ _ _
  | .mma _ _ _ | .mmas _ _ _ _ _ | .tld _ _ | .tst _ _ | .tzero _ | .tmvv _ _ _ | .tmvt _ _ _ | .patch _ _
  | .dcfg _ _ | .dset _ _ | .dget _ _ | .dstep _ _ | .drun _ | .dhalt _ | .dsave _ | .dload _ | .dbind _ _
  | .lease _ _ _ | .lrevoke _ _ _ | .lquery _ _ | .vtree _ _ _ _ | .vtreew _ _ _ _ | .csrr _ _ | .csrw _ _
  | .trap _ | .eret | .brk | .halt | .kill _ _ | .keyset _ _ | .keyrev _ _ | .monbind _ _ _ | .sdescLoad _ _
  | .childRelease _ | .writerRegistration _ | .shortfallRequest _ | .creditRecall _ | .creditReturn _
  | .channelMessageArrive _ | .retargetNotice _ _ | .retargetAck _ _ | .mempipeRead _ | .mempipeWrite _
  | .dramAtomic _ | .globalSramAccess _ | .memoryReply _ | .matrixStepGroup _ | .debuggerHalt _
  | .debuggerRelease _ | .firmwareFaultForward | .relayRefusal _ | .powerLimit | .thermalStop _ | .coolantLow
  | .moduleReset | .illegalWord _ | .powerLimitCleared => none

/-- An instruction or event is well formed when it has no violation. -/
def Instr.wf (i : Instr) : Bool := i.violation.isNone

end Sys2Proof
end

