-- ==== Sys2Proof/Decode.lean ====
section
/-! DEFINITION. The decoder, total on any bytes and rejecting by name (R272 to R287), and after it the encoder written
from the same encoding tables. -/

namespace Sys2Proof

/-- Why a word is not an instruction (R273). -/
inductive Reject
  | shortWord | unassignedMajor | unassignedFunction | reservedField | noSuchRegister | badPair
  deriving DecidableEq, Repr

/-- Bits [hi:lo] of a word (R4). -/
def fld (w : BitVec 32) (hi lo : Nat) : Nat := w.toNat / 2 ^ lo % 2 ^ (hi + 1 - lo)

/-- The word whose fields must be zero is accepted only when they are (R273). -/
def guardZero (z : Nat) (k : Except Reject Instr) : Except Reject Instr :=
  if z = 0 then k else .error .reservedField

/-- A register field is accepted only below the bound of Table 12.4 (R276). -/
def guardBelow (x n : Nat) (k : Except Reject Instr) : Except Reject Instr :=
  if x < n then k else .error .noSuchRegister

/-- A pair or range of registers is accepted only when it exists (R57, R85, R118, R164, R362). -/
def guardPair (c : Bool) (k : Except Reject Instr) : Except Reject Instr :=
  if c then k else .error .badPair

/-- An enumerated field is accepted only at an assigned value. -/
def guardSome {α : Type} (x : Option α) (k : α → Except Reject Instr) : Except Reject Instr :=
  match x with
  | some v => k v
  | none => .error .unassignedFunction

/-- Field z of LD and ST (R277). -/
def Size.ofBits : Nat → Option Size
  | 0 => some .b
  | 1 => some .h
  | 2 => some .w
  | 3 => some .d
  | _ => Option.none

/-- Field z of LD and ST (R277). -/
def Size.toBits : Size → Nat
  | .b => 0
  | .h => 1
  | .w => 2
  | .d => 3

/-- Field SZ of an atomic, Table 5.3 (R118). -/
def ASize.ofBits : Nat → Option ASize
  | 2 => some .w
  | 3 => some .d
  | _ => Option.none

/-- Field SZ of an atomic, Table 5.3 (R118). -/
def ASize.toBits : ASize → Nat
  | .w => 2
  | .d => 3

/-- Field SCOPE of FENCE, Table 5.1 (R109). -/
def Scope.ofBits : Nat → Option Scope
  | 0 => some .tile
  | 1 => some .die
  | 2 => some .package
  | 3 => some .system
  | _ => Option.none

/-- Field SCOPE of FENCE, Table 5.1 (R109). -/
def Scope.toBits : Scope → Nat
  | .tile => 0
  | .die => 1
  | .package => 2
  | .system => 3

/-- Bits [10:8] of format V: rep = 0 with rsz ≠ 0 is illegal (R160). -/
def Rep.ofBits : Nat → Option Rep
  | 0 => some .none
  | 4 => some .rep1
  | 5 => some .rep4
  | 6 => some .rep16
  | 7 => some .rep64
  | _ => Option.none

/-- Bits [10:8] of format V: rep = 0 with rsz ≠ 0 is illegal (R160). -/
def Rep.toBits : Rep → Nat
  | .none => 0
  | .rep1 => 4
  | .rep4 => 5
  | .rep16 => 6
  | .rep64 => 7

/-- Condition of VCMP, fn 0x00 to 0x05 (R388). -/
def ICond.ofBits : Nat → Option ICond
  | 0 => some .eq
  | 1 => some .ne
  | 2 => some .lt
  | 3 => some .ge
  | 4 => some .ltu
  | 5 => some .geu
  | _ => Option.none

/-- Condition of VCMP, fn 0x00 to 0x05 (R388). -/
def ICond.toBits : ICond → Nat
  | .eq => 0
  | .ne => 1
  | .lt => 2
  | .ge => 3
  | .ltu => 4
  | .geu => 5

/-- Condition of VFCMP, fn 0x08 to 0x0C (R392). -/
def FCond.ofBits : Nat → Option FCond
  | 0 => some .eq
  | 1 => some .ne
  | 2 => some .lt
  | 3 => some .le
  | 4 => some .un
  | _ => Option.none

/-- Condition of VFCMP, fn 0x08 to 0x0C (R392). -/
def FCond.toBits : FCond → Nat
  | .eq => 0
  | .ne => 1
  | .lt => 2
  | .le => 3
  | .un => 4

/-- Function of VMLOG, fn 0x10 to 0x17 (R403). -/
def MOp.ofBits : Nat → Option MOp
  | 0 => some .and
  | 1 => some .or
  | 2 => some .xor
  | 3 => some .andn
  | 4 => some .orn
  | 5 => some .nand
  | 6 => some .nor
  | 7 => some .xnor
  | _ => Option.none

/-- Function of VMLOG, fn 0x10 to 0x17 (R403). -/
def MOp.toBits : MOp → Nat
  | .and => 0
  | .or => 1
  | .xor => 2
  | .andn => 3
  | .orn => 4
  | .nand => 5
  | .nor => 6
  | .xnor => 7

/-- Kind of VFCVT (R283). -/
def CvtKind.ofBits : Nat → Option CvtKind
  | 0 => some .ftoi
  | 1 => some .ftou
  | 2 => some .itof
  | 3 => some .utof
  | 4 => some .rbf16
  | 5 => some .rfp16
  | 6 => some .re4m3
  | 7 => some .re5m2
  | 8 => some .re2m1
  | 9 => some .widen
  | 10 => some .narrow
  | _ => Option.none

/-- Kind of VFCVT (R283). -/
def CvtKind.toBits : CvtKind → Nat
  | .ftoi => 0
  | .ftou => 1
  | .itof => 2
  | .utof => 3
  | .rbf16 => 4
  | .rfp16 => 5
  | .re4m3 => 6
  | .re5m2 => 7
  | .re2m1 => 8
  | .widen => 9
  | .narrow => 10

/-- TYPE of Table 9.11 (R222). -/
def SType.ofBits : Nat → Option SType
  | 0 => some .f32
  | 1 => some .bf16
  | 2 => some .i32
  | _ => Option.none

/-- TYPE of Table 9.11 (R222). -/
def SType.toBits : SType → Nat
  | .f32 => 0
  | .bf16 => 1
  | .i32 => 2

/-- OP of Table 9.11 (R222). -/
def SOp.ofBits : Nat → Option SOp
  | 0 => some .sum
  | 1 => some .min
  | 2 => some .max
  | _ => Option.none

/-- OP of Table 9.11 (R222). -/
def SOp.toBits : SOp → Nat
  | .sum => 0
  | .min => 1
  | .max => 2

/-- Control register numbers, Table 12.14 (R287); an unassigned number is illegal (R286). -/
def Csr.ofBits : Nat → Option Csr
  | 0 => some .vl
  | 1 => some .vs
  | 2 => some .vt
  | 3 => some .vmsel
  | 4 => some .mt
  | 5 => some .peer
  | 6 => some .mstep
  | 7 => some .nbv
  | 8 => some .fflags
  | 9 => some .cflags
  | 10 => some .lpart
  | 11 => some .pid
  | 12 => some .cycle
  | 16 => some .status
  | 17 => some .epc
  | 18 => some .cause
  | 19 => some .frec
  | 20 => some .tvec
  | 24 => some .stimeo
  | 32 => some (.tsh 0)
  | 33 => some (.tsh 1)
  | 34 => some (.tsh 2)
  | 35 => some (.tsh 3)
  | 36 => some (.tsh 4)
  | 37 => some (.tsh 5)
  | 38 => some (.tsh 6)
  | 39 => some (.tsh 7)
  | 256 => some .seeda
  | 257 => some .seedb
  | 258 => some .tlbi
  | 259 => some .sdesc
  | 260 => some .resume
  | 261 => some .pswap
  | 512 => some .pset
  | 513 => some .hepset
  | 514 => some .pcap
  | _ => none

/-- Control register numbers, Table 12.14 (R287). -/
def Csr.toBits : Csr → Nat
  | .vl => 0
  | .vs => 1
  | .vt => 2
  | .vmsel => 3
  | .mt => 4
  | .peer => 5
  | .mstep => 6
  | .nbv => 7
  | .fflags => 8
  | .cflags => 9
  | .lpart => 10
  | .pid => 11
  | .cycle => 12
  | .status => 16
  | .epc => 17
  | .cause => 18
  | .frec => 19
  | .tvec => 20
  | .stimeo => 24
  | .seeda => 256
  | .seedb => 257
  | .tlbi => 258
  | .sdesc => 259
  | .resume => 260
  | .pswap => 261
  | .pset => 512
  | .hepset => 513
  | .pcap => 514
  | .tsh n => 32 + n.toNat

/-- Major 0x01 by its function table (R275). -/
def decodeOp (w : BitVec 32) : Except Reject Instr :=
  match fld w 10 0 with
  | 1 => .ok (.add (.ofNat 5 (fld w 25 21)) (.ofNat 5 (fld w 20 16)) (.ofNat 5 (fld w 15 11)))
  | 2 => .ok (.sub (.ofNat 5 (fld w 25 21)) (.ofNat 5 (fld w 20 16)) (.ofNat 5 (fld w 15 11)))
  | 3 => .ok (.mul (.ofNat 5 (fld w 25 21)) (.ofNat 5 (fld w 20 16)) (.ofNat 5 (fld w 15 11)))
  | 4 => .ok (.mulh (.ofNat 5 (fld w 25 21)) (.ofNat 5 (fld w 20 16)) (.ofNat 5 (fld w 15 11)))
  | 5 => .ok (.mulhu (.ofNat 5 (fld w 25 21)) (.ofNat 5 (fld w 20 16)) (.ofNat 5 (fld w 15 11)))
  | 6 => .ok (.div (.ofNat 5 (fld w 25 21)) (.ofNat 5 (fld w 20 16)) (.ofNat 5 (fld w 15 11)))
  | 7 => .ok (.divu (.ofNat 5 (fld w 25 21)) (.ofNat 5 (fld w 20 16)) (.ofNat 5 (fld w 15 11)))
  | 8 => .ok (.rem (.ofNat 5 (fld w 25 21)) (.ofNat 5 (fld w 20 16)) (.ofNat 5 (fld w 15 11)))
  | 9 => .ok (.remu (.ofNat 5 (fld w 25 21)) (.ofNat 5 (fld w 20 16)) (.ofNat 5 (fld w 15 11)))
  | 10 => .ok (.and (.ofNat 5 (fld w 25 21)) (.ofNat 5 (fld w 20 16)) (.ofNat 5 (fld w 15 11)))
  | 11 => .ok (.or (.ofNat 5 (fld w 25 21)) (.ofNat 5 (fld w 20 16)) (.ofNat 5 (fld w 15 11)))
  | 12 => .ok (.xor (.ofNat 5 (fld w 25 21)) (.ofNat 5 (fld w 20 16)) (.ofNat 5 (fld w 15 11)))
  | 13 => .ok (.sll (.ofNat 5 (fld w 25 21)) (.ofNat 5 (fld w 20 16)) (.ofNat 5 (fld w 15 11)))
  | 14 => .ok (.srl (.ofNat 5 (fld w 25 21)) (.ofNat 5 (fld w 20 16)) (.ofNat 5 (fld w 15 11)))
  | 15 => .ok (.sra (.ofNat 5 (fld w 25 21)) (.ofNat 5 (fld w 20 16)) (.ofNat 5 (fld w 15 11)))
  | 16 => .ok (.slt (.ofNat 5 (fld w 25 21)) (.ofNat 5 (fld w 20 16)) (.ofNat 5 (fld w 15 11)))
  | 17 => .ok (.sltu (.ofNat 5 (fld w 25 21)) (.ofNat 5 (fld w 20 16)) (.ofNat 5 (fld w 15 11)))
  | 18 => .ok (.min (.ofNat 5 (fld w 25 21)) (.ofNat 5 (fld w 20 16)) (.ofNat 5 (fld w 15 11)))
  | 19 => .ok (.max (.ofNat 5 (fld w 25 21)) (.ofNat 5 (fld w 20 16)) (.ofNat 5 (fld w 15 11)))
  | 20 => guardZero (fld w 15 11) <| .ok (.clz (.ofNat 5 (fld w 25 21)) (.ofNat 5 (fld w 20 16)))
  | 21 => guardZero (fld w 15 11) <| .ok (.popc (.ofNat 5 (fld w 25 21)) (.ofNat 5 (fld w 20 16)))
  | _ => .error .unassignedFunction

/-- Major 0x0E by its function table (R275). -/
def decodeBranch (w : BitVec 32) : Except Reject Instr :=
  match fld w 15 13 with
  | 0 => .ok (.beq (.ofNat 5 (fld w 25 21)) (.ofNat 5 (fld w 20 16)) (.ofNat 13 (fld w 12 0)))
  | 1 => .ok (.bne (.ofNat 5 (fld w 25 21)) (.ofNat 5 (fld w 20 16)) (.ofNat 13 (fld w 12 0)))
  | 2 => .ok (.blt (.ofNat 5 (fld w 25 21)) (.ofNat 5 (fld w 20 16)) (.ofNat 13 (fld w 12 0)))
  | 3 => .ok (.bge (.ofNat 5 (fld w 25 21)) (.ofNat 5 (fld w 20 16)) (.ofNat 13 (fld w 12 0)))
  | 4 => .ok (.bltu (.ofNat 5 (fld w 25 21)) (.ofNat 5 (fld w 20 16)) (.ofNat 13 (fld w 12 0)))
  | 5 => .ok (.bgeu (.ofNat 5 (fld w 25 21)) (.ofNat 5 (fld w 20 16)) (.ofNat 13 (fld w 12 0)))
  | 6 => guardZero (fld w 25 16) <| .ok (.beos (.ofNat 13 (fld w 12 0)))
  | _ => .error .unassignedFunction

/-- Major 0x18 by its function table (R275). -/
def decodeVmem (w : BitVec 32) : Except Reject Instr :=
  match fld w 3 0 with
  | 0 => guardZero (fld w 15 4) <| .ok (.vld (.ofNat 5 (fld w 25 21)) (.ofNat 5 (fld w 20 16)))
  | 1 => guardZero (fld w 15 4) <| .ok (.vlds (.ofNat 5 (fld w 25 21)) (.ofNat 5 (fld w 20 16)))
  | 2 => guardZero (fld w 10 4) <| .ok (.vldx (.ofNat 5 (fld w 25 21)) (.ofNat 5 (fld w 20 16)) (.ofNat 5 (fld w 15 11)))
  | 3 => guardZero (fld w 15 4) <| .ok (.vldseg (.ofNat 5 (fld w 25 21)) (.ofNat 5 (fld w 20 16)))
  | 8 => guardZero (fld w 15 4) <| .ok (.vst (.ofNat 5 (fld w 25 21)) (.ofNat 5 (fld w 20 16)))
  | 9 => guardZero (fld w 15 4) <| .ok (.vsts (.ofNat 5 (fld w 25 21)) (.ofNat 5 (fld w 20 16)))
  | 10 => guardZero (fld w 10 4) <| .ok (.vstx (.ofNat 5 (fld w 25 21)) (.ofNat 5 (fld w 20 16)) (.ofNat 5 (fld w 15 11)))
  | 11 => guardZero (fld w 15 4) <| .ok (.vstseg (.ofNat 5 (fld w 25 21)) (.ofNat 5 (fld w 20 16)))
  | _ => .error .unassignedFunction

/-- Major 0x19 by its function table (R275). -/
def decodeVint (w : BitVec 32) : Except Reject Instr :=
  match fld w 7 0 with
  | 0 => guardSome (Rep.ofBits (fld w 10 8)) fun r => .ok (.vadd (.ofNat 5 (fld w 25 21)) (.ofNat 5 (fld w 20 16)) (.ofNat 5 (fld w 15 11)) r)
  | 1 => guardSome (Rep.ofBits (fld w 10 8)) fun r => .ok (.vsub (.ofNat 5 (fld w 25 21)) (.ofNat 5 (fld w 20 16)) (.ofNat 5 (fld w 15 11)) r)
  | 2 => guardSome (Rep.ofBits (fld w 10 8)) fun r => .ok (.vmul (.ofNat 5 (fld w 25 21)) (.ofNat 5 (fld w 20 16)) (.ofNat 5 (fld w 15 11)) r)
  | 3 => guardSome (Rep.ofBits (fld w 10 8)) fun r => .ok (.vmulh (.ofNat 5 (fld w 25 21)) (.ofNat 5 (fld w 20 16)) (.ofNat 5 (fld w 15 11)) r)
  | 4 => guardSome (Rep.ofBits (fld w 10 8)) fun r => .ok (.vmadd (.ofNat 5 (fld w 25 21)) (.ofNat 5 (fld w 20 16)) (.ofNat 5 (fld w 15 11)) r)
  | 5 => guardSome (Rep.ofBits (fld w 10 8)) fun r => .ok (.vand (.ofNat 5 (fld w 25 21)) (.ofNat 5 (fld w 20 16)) (.ofNat 5 (fld w 15 11)) r)
  | 6 => guardSome (Rep.ofBits (fld w 10 8)) fun r => .ok (.vor (.ofNat 5 (fld w 25 21)) (.ofNat 5 (fld w 20 16)) (.ofNat 5 (fld w 15 11)) r)
  | 7 => guardSome (Rep.ofBits (fld w 10 8)) fun r => .ok (.vxor (.ofNat 5 (fld w 25 21)) (.ofNat 5 (fld w 20 16)) (.ofNat 5 (fld w 15 11)) r)
  | 8 => guardSome (Rep.ofBits (fld w 10 8)) fun r => .ok (.vsll (.ofNat 5 (fld w 25 21)) (.ofNat 5 (fld w 20 16)) (.ofNat 5 (fld w 15 11)) r)
  | 9 => guardSome (Rep.ofBits (fld w 10 8)) fun r => .ok (.vsrl (.ofNat 5 (fld w 25 21)) (.ofNat 5 (fld w 20 16)) (.ofNat 5 (fld w 15 11)) r)
  | 10 => guardSome (Rep.ofBits (fld w 10 8)) fun r => .ok (.vsra (.ofNat 5 (fld w 25 21)) (.ofNat 5 (fld w 20 16)) (.ofNat 5 (fld w 15 11)) r)
  | 11 => guardSome (Rep.ofBits (fld w 10 8)) fun r => .ok (.vmin (.ofNat 5 (fld w 25 21)) (.ofNat 5 (fld w 20 16)) (.ofNat 5 (fld w 15 11)) r)
  | 12 => guardSome (Rep.ofBits (fld w 10 8)) fun r => .ok (.vmax (.ofNat 5 (fld w 25 21)) (.ofNat 5 (fld w 20 16)) (.ofNat 5 (fld w 15 11)) r)
  | 13 => guardSome (Rep.ofBits (fld w 10 8)) fun r => .ok (.vminu (.ofNat 5 (fld w 25 21)) (.ofNat 5 (fld w 20 16)) (.ofNat 5 (fld w 15 11)) r)
  | 14 => guardSome (Rep.ofBits (fld w 10 8)) fun r => .ok (.vmaxu (.ofNat 5 (fld w 25 21)) (.ofNat 5 (fld w 20 16)) (.ofNat 5 (fld w 15 11)) r)
  | 15 => guardSome (Rep.ofBits (fld w 10 8)) fun r => .ok (.vsadd (.ofNat 5 (fld w 25 21)) (.ofNat 5 (fld w 20 16)) (.ofNat 5 (fld w 15 11)) r)
  | 16 => guardSome (Rep.ofBits (fld w 10 8)) fun r => .ok (.vssub (.ofNat 5 (fld w 25 21)) (.ofNat 5 (fld w 20 16)) (.ofNat 5 (fld w 15 11)) r)
  | 17 => guardZero (fld w 15 8) <| .ok (.vabs (.ofNat 5 (fld w 25 21)) (.ofNat 5 (fld w 20 16)))
  | _ => .error .unassignedFunction

/-- Major 0x1A by its function table (R275). -/
def decodeVflt (w : BitVec 32) : Except Reject Instr :=
  match fld w 7 0 with
  | 0 => guardSome (Rep.ofBits (fld w 10 8)) fun r => .ok (.vfadd (.ofNat 5 (fld w 25 21)) (.ofNat 5 (fld w 20 16)) (.ofNat 5 (fld w 15 11)) r)
  | 1 => guardSome (Rep.ofBits (fld w 10 8)) fun r => .ok (.vfsub (.ofNat 5 (fld w 25 21)) (.ofNat 5 (fld w 20 16)) (.ofNat 5 (fld w 15 11)) r)
  | 2 => guardSome (Rep.ofBits (fld w 10 8)) fun r => .ok (.vfmul (.ofNat 5 (fld w 25 21)) (.ofNat 5 (fld w 20 16)) (.ofNat 5 (fld w 15 11)) r)
  | 3 => guardSome (Rep.ofBits (fld w 10 8)) fun r => .ok (.vfma (.ofNat 5 (fld w 25 21)) (.ofNat 5 (fld w 20 16)) (.ofNat 5 (fld w 15 11)) r)
  | 4 => guardSome (Rep.ofBits (fld w 10 8)) fun r => .ok (.vfnma (.ofNat 5 (fld w 25 21)) (.ofNat 5 (fld w 20 16)) (.ofNat 5 (fld w 15 11)) r)
  | 5 => guardSome (Rep.ofBits (fld w 10 8)) fun r => .ok (.vfdiv (.ofNat 5 (fld w 25 21)) (.ofNat 5 (fld w 20 16)) (.ofNat 5 (fld w 15 11)) r)
  | 6 => guardZero (fld w 15 8) <| .ok (.vfsqrt (.ofNat 5 (fld w 25 21)) (.ofNat 5 (fld w 20 16)))
  | 7 => guardSome (Rep.ofBits (fld w 10 8)) fun r => .ok (.vfmin (.ofNat 5 (fld w 25 21)) (.ofNat 5 (fld w 20 16)) (.ofNat 5 (fld w 15 11)) r)
  | 8 => guardSome (Rep.ofBits (fld w 10 8)) fun r => .ok (.vfmax (.ofNat 5 (fld w 25 21)) (.ofNat 5 (fld w 20 16)) (.ofNat 5 (fld w 15 11)) r)
  | 9 => guardSome (Rep.ofBits (fld w 10 8)) fun r => .ok (.vfsgn (.ofNat 5 (fld w 25 21)) (.ofNat 5 (fld w 20 16)) (.ofNat 5 (fld w 15 11)) r)
  | 10 => guardZero (fld w 10 8) <| guardSome (CvtKind.ofBits (fld w 15 11)) fun k => .ok (.vfcvt (.ofNat 5 (fld w 25 21)) (.ofNat 5 (fld w 20 16)) k)
  | 11 => guardZero (fld w 10 8) <| guardZero (if fld w 15 11 = 6 then 0 else 1) <| .ok (.vfcvtSat (.ofNat 5 (fld w 25 21)) (.ofNat 5 (fld w 20 16)))
  | _ => .error .unassignedFunction

/-- Major 0x1B by its function table (R275). -/
def decodeVmask (w : BitVec 32) : Except Reject Instr :=
  match fld w 7 0 with
  | 0 => guardBelow (fld w 25 21) 8 <| guardSome (Rep.ofBits (fld w 10 8)) fun r => guardSome (ICond.ofBits (fld w 2 0)) fun c => .ok (.vcmp (.ofNat 3 (fld w 25 21)) (.ofNat 5 (fld w 20 16)) (.ofNat 5 (fld w 15 11)) r c)
  | 1 => guardBelow (fld w 25 21) 8 <| guardSome (Rep.ofBits (fld w 10 8)) fun r => guardSome (ICond.ofBits (fld w 2 0)) fun c => .ok (.vcmp (.ofNat 3 (fld w 25 21)) (.ofNat 5 (fld w 20 16)) (.ofNat 5 (fld w 15 11)) r c)
  | 2 => guardBelow (fld w 25 21) 8 <| guardSome (Rep.ofBits (fld w 10 8)) fun r => guardSome (ICond.ofBits (fld w 2 0)) fun c => .ok (.vcmp (.ofNat 3 (fld w 25 21)) (.ofNat 5 (fld w 20 16)) (.ofNat 5 (fld w 15 11)) r c)
  | 3 => guardBelow (fld w 25 21) 8 <| guardSome (Rep.ofBits (fld w 10 8)) fun r => guardSome (ICond.ofBits (fld w 2 0)) fun c => .ok (.vcmp (.ofNat 3 (fld w 25 21)) (.ofNat 5 (fld w 20 16)) (.ofNat 5 (fld w 15 11)) r c)
  | 4 => guardBelow (fld w 25 21) 8 <| guardSome (Rep.ofBits (fld w 10 8)) fun r => guardSome (ICond.ofBits (fld w 2 0)) fun c => .ok (.vcmp (.ofNat 3 (fld w 25 21)) (.ofNat 5 (fld w 20 16)) (.ofNat 5 (fld w 15 11)) r c)
  | 5 => guardBelow (fld w 25 21) 8 <| guardSome (Rep.ofBits (fld w 10 8)) fun r => guardSome (ICond.ofBits (fld w 2 0)) fun c => .ok (.vcmp (.ofNat 3 (fld w 25 21)) (.ofNat 5 (fld w 20 16)) (.ofNat 5 (fld w 15 11)) r c)
  | 8 => guardBelow (fld w 25 21) 8 <| guardSome (Rep.ofBits (fld w 10 8)) fun r => guardSome (FCond.ofBits (fld w 2 0)) fun c => .ok (.vfcmp (.ofNat 3 (fld w 25 21)) (.ofNat 5 (fld w 20 16)) (.ofNat 5 (fld w 15 11)) r c)
  | 9 => guardBelow (fld w 25 21) 8 <| guardSome (Rep.ofBits (fld w 10 8)) fun r => guardSome (FCond.ofBits (fld w 2 0)) fun c => .ok (.vfcmp (.ofNat 3 (fld w 25 21)) (.ofNat 5 (fld w 20 16)) (.ofNat 5 (fld w 15 11)) r c)
  | 10 => guardBelow (fld w 25 21) 8 <| guardSome (Rep.ofBits (fld w 10 8)) fun r => guardSome (FCond.ofBits (fld w 2 0)) fun c => .ok (.vfcmp (.ofNat 3 (fld w 25 21)) (.ofNat 5 (fld w 20 16)) (.ofNat 5 (fld w 15 11)) r c)
  | 11 => guardBelow (fld w 25 21) 8 <| guardSome (Rep.ofBits (fld w 10 8)) fun r => guardSome (FCond.ofBits (fld w 2 0)) fun c => .ok (.vfcmp (.ofNat 3 (fld w 25 21)) (.ofNat 5 (fld w 20 16)) (.ofNat 5 (fld w 15 11)) r c)
  | 12 => guardBelow (fld w 25 21) 8 <| guardSome (Rep.ofBits (fld w 10 8)) fun r => guardSome (FCond.ofBits (fld w 2 0)) fun c => .ok (.vfcmp (.ofNat 3 (fld w 25 21)) (.ofNat 5 (fld w 20 16)) (.ofNat 5 (fld w 15 11)) r c)
  | 16 => guardZero (fld w 10 8) <| guardBelow (fld w 25 21) 8 <| guardBelow (fld w 20 16) 8 <| guardBelow (fld w 15 11) 8 <| guardSome (MOp.ofBits (fld w 2 0)) fun o => .ok (.vmlog (.ofNat 3 (fld w 25 21)) (.ofNat 3 (fld w 20 16)) (.ofNat 3 (fld w 15 11)) o)
  | 17 => guardZero (fld w 10 8) <| guardBelow (fld w 25 21) 8 <| guardBelow (fld w 20 16) 8 <| guardBelow (fld w 15 11) 8 <| guardSome (MOp.ofBits (fld w 2 0)) fun o => .ok (.vmlog (.ofNat 3 (fld w 25 21)) (.ofNat 3 (fld w 20 16)) (.ofNat 3 (fld w 15 11)) o)
  | 18 => guardZero (fld w 10 8) <| guardBelow (fld w 25 21) 8 <| guardBelow (fld w 20 16) 8 <| guardBelow (fld w 15 11) 8 <| guardSome (MOp.ofBits (fld w 2 0)) fun o => .ok (.vmlog (.ofNat 3 (fld w 25 21)) (.ofNat 3 (fld w 20 16)) (.ofNat 3 (fld w 15 11)) o)
  | 19 => guardZero (fld w 10 8) <| guardBelow (fld w 25 21) 8 <| guardBelow (fld w 20 16) 8 <| guardBelow (fld w 15 11) 8 <| guardSome (MOp.ofBits (fld w 2 0)) fun o => .ok (.vmlog (.ofNat 3 (fld w 25 21)) (.ofNat 3 (fld w 20 16)) (.ofNat 3 (fld w 15 11)) o)
  | 20 => guardZero (fld w 10 8) <| guardBelow (fld w 25 21) 8 <| guardBelow (fld w 20 16) 8 <| guardBelow (fld w 15 11) 8 <| guardSome (MOp.ofBits (fld w 2 0)) fun o => .ok (.vmlog (.ofNat 3 (fld w 25 21)) (.ofNat 3 (fld w 20 16)) (.ofNat 3 (fld w 15 11)) o)
  | 21 => guardZero (fld w 10 8) <| guardBelow (fld w 25 21) 8 <| guardBelow (fld w 20 16) 8 <| guardBelow (fld w 15 11) 8 <| guardSome (MOp.ofBits (fld w 2 0)) fun o => .ok (.vmlog (.ofNat 3 (fld w 25 21)) (.ofNat 3 (fld w 20 16)) (.ofNat 3 (fld w 15 11)) o)
  | 22 => guardZero (fld w 10 8) <| guardBelow (fld w 25 21) 8 <| guardBelow (fld w 20 16) 8 <| guardBelow (fld w 15 11) 8 <| guardSome (MOp.ofBits (fld w 2 0)) fun o => .ok (.vmlog (.ofNat 3 (fld w 25 21)) (.ofNat 3 (fld w 20 16)) (.ofNat 3 (fld w 15 11)) o)
  | 23 => guardZero (fld w 10 8) <| guardBelow (fld w 25 21) 8 <| guardBelow (fld w 20 16) 8 <| guardBelow (fld w 15 11) 8 <| guardSome (MOp.ofBits (fld w 2 0)) fun o => .ok (.vmlog (.ofNat 3 (fld w 25 21)) (.ofNat 3 (fld w 20 16)) (.ofNat 3 (fld w 15 11)) o)
  | 32 => guardZero (fld w 15 8) <| guardBelow (fld w 20 16) 8 <| .ok (.vmpop (.ofNat 5 (fld w 25 21)) (.ofNat 3 (fld w 20 16)))
  | 33 => guardZero (fld w 15 8) <| guardBelow (fld w 20 16) 8 <| .ok (.vmfirst (.ofNat 5 (fld w 25 21)) (.ofNat 3 (fld w 20 16)))
  | 34 => guardSome (Rep.ofBits (fld w 10 8)) fun r => .ok (.vmerge (.ofNat 5 (fld w 25 21)) (.ofNat 5 (fld w 20 16)) (.ofNat 5 (fld w 15 11)) r)
  | 35 => guardZero (fld w 15 8) <| .ok (.vcompress (.ofNat 5 (fld w 25 21)) (.ofNat 5 (fld w 20 16)))
  | 36 => guardZero (fld w 15 8) <| .ok (.vexpand (.ofNat 5 (fld w 25 21)) (.ofNat 5 (fld w 20 16)))
  | 37 => guardZero (fld w 15 8) <| guardBelow (fld w 20 16) 8 <| .ok (.viota (.ofNat 5 (fld w 25 21)) (.ofNat 3 (fld w 20 16)))
  | _ => .error .unassignedFunction

/-- Major 0x1C by its function table (R275). -/
def decodeVmove (w : BitVec 32) : Except Reject Instr :=
  match fld w 7 0 with
  | 0 => guardZero (fld w 10 8) <| .ok (.vslideup (.ofNat 5 (fld w 25 21)) (.ofNat 5 (fld w 20 16)) (.ofNat 5 (fld w 15 11)))
  | 1 => guardZero (fld w 10 8) <| .ok (.vslidedn (.ofNat 5 (fld w 25 21)) (.ofNat 5 (fld w 20 16)) (.ofNat 5 (fld w 15 11)))
  | 2 => guardSome (Rep.ofBits (fld w 10 8)) fun r => .ok (.vperm (.ofNat 5 (fld w 25 21)) (.ofNat 5 (fld w 20 16)) (.ofNat 5 (fld w 15 11)) r)
  | 3 => guardZero (fld w 15 8) <| .ok (.vmv (.ofNat 5 (fld w 25 21)) (.ofNat 5 (fld w 20 16)))
  | 4 => guardZero (fld w 15 8) <| .ok (.vmvsv (.ofNat 5 (fld w 25 21)) (.ofNat 5 (fld w 20 16)))
  | 5 => guardZero (fld w 10 8) <| .ok (.vmvvs (.ofNat 5 (fld w 25 21)) (.ofNat 5 (fld w 20 16)) (.ofNat 5 (fld w 15 11)))
  | _ => .error .unassignedFunction

/-- Major 0x1D by its function table (R275). -/
def decodeVred (w : BitVec 32) : Except Reject Instr :=
  match fld w 7 0 with
  | 0 => guardZero (fld w 10 8) <| .ok (.vredsum (.ofNat 5 (fld w 25 21)) (.ofNat 5 (fld w 20 16)) (.ofNat 5 (fld w 15 11)))
  | 1 => guardZero (fld w 10 8) <| .ok (.vredmin (.ofNat 5 (fld w 25 21)) (.ofNat 5 (fld w 20 16)) (.ofNat 5 (fld w 15 11)))
  | 2 => guardZero (fld w 10 8) <| .ok (.vredmax (.ofNat 5 (fld w 25 21)) (.ofNat 5 (fld w 20 16)) (.ofNat 5 (fld w 15 11)))
  | 8 => guardZero (fld w 10 8) <| .ok (.vfredsum (.ofNat 5 (fld w 25 21)) (.ofNat 5 (fld w 20 16)) (.ofNat 5 (fld w 15 11)))
  | 9 => guardZero (fld w 10 8) <| .ok (.vfredmin (.ofNat 5 (fld w 25 21)) (.ofNat 5 (fld w 20 16)) (.ofNat 5 (fld w 15 11)))
  | 10 => guardZero (fld w 10 8) <| .ok (.vfredmax (.ofNat 5 (fld w 25 21)) (.ofNat 5 (fld w 20 16)) (.ofNat 5 (fld w 15 11)))
  | _ => .error .unassignedFunction

/-- Major 0x28 by its function table (R275). -/
def decodeChan (w : BitVec 32) : Except Reject Instr :=
  match fld w 3 0 with
  | 0 => guardZero (fld w 16 9) <| guardPair (decide (fld w 25 21 + fld w 8 4 ≤ 31)) <| .ok (.cpush (.ofNat 5 (fld w 25 21)) (.ofNat 4 (fld w 20 17)) (.ofNat 5 (fld w 8 4)))
  | 1 => guardZero (fld w 16 9) <| guardPair (decide (fld w 25 21 + fld w 8 4 ≤ 31)) <| .ok (.cpop (.ofNat 5 (fld w 25 21)) (.ofNat 4 (fld w 20 17)) (.ofNat 5 (fld w 8 4)))
  | 2 => guardZero (fld w 16 16 + fld w 10 4) <| .ok (.cpeek (.ofNat 5 (fld w 25 21)) (.ofNat 4 (fld w 20 17)) (.ofNat 5 (fld w 15 11)))
  | 3 => guardZero (fld w 25 21 + fld w 16 16 + fld w 10 4) <| .ok (.cadv (.ofNat 4 (fld w 20 17)) (.ofNat 5 (fld w 15 11)))
  | 4 => guardZero (fld w 25 21 + fld w 16 4) <| .ok (.cclose (.ofNat 4 (fld w 20 17)))
  | 5 => guardZero (fld w 16 16 + fld w 10 4) <| .ok (.cbind (.ofNat 5 (fld w 25 21)) (.ofNat 4 (fld w 20 17)) (.ofNat 5 (fld w 15 11)))
  | 6 => guardZero (fld w 25 21 + fld w 16 4) <| .ok (.cunbind (.ofNat 4 (fld w 20 17)))
  | 7 => guardZero (fld w 16 9) <| .ok (.vpush (.ofNat 5 (fld w 25 21)) (.ofNat 4 (fld w 20 17)) (.ofNat 5 (fld w 8 4)))
  | 8 => guardZero (fld w 16 4) <| .ok (.vpop (.ofNat 5 (fld w 25 21)) (.ofNat 4 (fld w 20 17)))
  | _ => .error .unassignedFunction

/-- Major 0x29 by its function table (R275). -/
def decodeStrm (w : BitVec 32) : Except Reject Instr :=
  match fld w 3 0 with
  | 0 => guardZero (fld w 15 11 + fld w 7 4) <| .ok (.scopy (.ofNat 5 (fld w 25 21)) (.ofNat 5 (fld w 20 16)) (.ofNat 3 (fld w 10 8)))
  | 1 => guardZero (fld w 4 4) <| .ok (.sgather (.ofNat 5 (fld w 25 21)) (.ofNat 5 (fld w 20 16)) (.ofNat 5 (fld w 15 11)) (.ofNat 3 (fld w 10 8)) (.ofNat 3 (fld w 7 5)))
  | 2 => guardZero (fld w 25 16 + fld w 7 4) <| guardPair (decide (fld w 15 8 ≠ 0)) <| .ok (.sbar (.ofNat 8 (fld w 15 8)))
  | _ => .error .unassignedFunction

/-- Major 0x2A by its function table (R275). -/
def decodeCaps (w : BitVec 32) : Except Reject Instr :=
  match fld w 3 0 with
  | 0 => guardZero (fld w 4 4) <| guardBelow (fld w 25 21) 8 <| guardBelow (fld w 20 16) 8 <| guardPair (decide (fld w 15 11 ≤ 30)) <| .ok (.kderive (.ofNat 3 (fld w 25 21)) (.ofNat 3 (fld w 20 16)) (.ofNat 5 (fld w 15 11)) (.ofNat 6 (fld w 10 5)))
  | 1 => guardZero (fld w 15 4) <| guardBelow (fld w 25 21) 8 <| .ok (.kld (.ofNat 3 (fld w 25 21)) (.ofNat 5 (fld w 20 16)))
  | 2 => guardZero (fld w 15 4) <| guardBelow (fld w 25 21) 8 <| .ok (.kst (.ofNat 3 (fld w 25 21)) (.ofNat 5 (fld w 20 16)))
  | 3 => guardZero (fld w 16 4) <| guardBelow (fld w 25 21) 8 <| .ok (.ksend (.ofNat 3 (fld w 25 21)) (.ofNat 4 (fld w 20 17)))
  | 4 => guardZero (fld w 16 4) <| guardBelow (fld w 25 21) 8 <| .ok (.krecv (.ofNat 3 (fld w 25 21)) (.ofNat 4 (fld w 20 17)))
  | _ => .error .unassignedFunction

/-- Major 0x2B by its function table (R275). -/
def decodeAtom (w : BitVec 32) : Except Reject Instr :=
  match fld w 3 0 with
  | 0 => guardZero (fld w 25 21 + fld w 8 4) <| guardSome (ASize.ofBits (fld w 10 9)) fun z => .ok (.aadd (.ofNat 5 (fld w 20 16)) (.ofNat 5 (fld w 15 11)) z)
  | 1 => guardZero (fld w 25 21 + fld w 8 4) <| guardSome (ASize.ofBits (fld w 10 9)) fun z => .ok (.amin (.ofNat 5 (fld w 20 16)) (.ofNat 5 (fld w 15 11)) z)
  | 2 => guardZero (fld w 25 21 + fld w 8 4) <| guardSome (ASize.ofBits (fld w 10 9)) fun z => .ok (.amax (.ofNat 5 (fld w 20 16)) (.ofNat 5 (fld w 15 11)) z)
  | 3 => guardZero (fld w 25 21 + fld w 8 4) <| guardSome (ASize.ofBits (fld w 10 9)) fun z => .ok (.aand (.ofNat 5 (fld w 20 16)) (.ofNat 5 (fld w 15 11)) z)
  | 4 => guardZero (fld w 25 21 + fld w 8 4) <| guardSome (ASize.ofBits (fld w 10 9)) fun z => .ok (.aor (.ofNat 5 (fld w 20 16)) (.ofNat 5 (fld w 15 11)) z)
  | 5 => guardZero (fld w 8 4) <| guardSome (ASize.ofBits (fld w 10 9)) fun z => .ok (.axadd (.ofNat 5 (fld w 25 21)) (.ofNat 5 (fld w 20 16)) (.ofNat 5 (fld w 15 11)) z)
  | 6 => guardZero (fld w 8 4) <| guardSome (ASize.ofBits (fld w 10 9)) fun z => .ok (.axchg (.ofNat 5 (fld w 25 21)) (.ofNat 5 (fld w 20 16)) (.ofNat 5 (fld w 15 11)) z)
  | 7 => guardZero (fld w 8 4) <| guardSome (ASize.ofBits (fld w 10 9)) fun z => guardPair (decide (fld w 15 11 ≤ 30)) <| .ok (.acas (.ofNat 5 (fld w 25 21)) (.ofNat 5 (fld w 20 16)) (.ofNat 5 (fld w 15 11)) z)
  | 8 => guardZero (fld w 25 11 + fld w 8 4) <| guardSome (Scope.ofBits (fld w 10 9)) fun s => .ok (.fence s)
  | _ => .error .unassignedFunction

/-- Major 0x2C by its function table (R275). -/
def decodeProc (w : BitVec 32) : Except Reject Instr :=
  match fld w 10 0 with
  | 1 => guardZero (fld w 15 11) <| .ok (.spawn (.ofNat 5 (fld w 25 21)) (.ofNat 5 (fld w 20 16)))
  | 2 => guardZero (fld w 25 11) <| .ok (.exit)
  | 3 => guardZero (fld w 25 11) <| .ok (.yield)
  | 4 => guardZero (fld w 15 11) <| .ok (.prio (.ofNat 5 (fld w 25 21)) (.ofNat 5 (fld w 20 16)))
  | _ => .error .unassignedFunction

/-- Major 0x2D by its function table (R275). -/
def decodeVcfg (w : BitVec 32) : Except Reject Instr :=
  match fld w 10 0 with
  | 1 => guardZero (fld w 15 11) <| .ok (.setvl (.ofNat 5 (fld w 25 21)) (.ofNat 5 (fld w 20 16)))
  | 2 => guardZero (fld w 25 21 + fld w 15 11) <| .ok (.setvs (.ofNat 5 (fld w 20 16)))
  | 3 => guardZero (fld w 25 21 + fld w 15 11) <| .ok (.setvt (.ofNat 5 (fld w 20 16)))
  | 4 => guardZero (fld w 25 21 + fld w 15 11) <| .ok (.setmt (.ofNat 5 (fld w 20 16)))
  | 5 => guardZero (fld w 25 21 + fld w 15 11) <| .ok (.setpeer (.ofNat 5 (fld w 20 16)))
  | 6 => guardZero (fld w 25 11) <| .ok (.stripend)
  | _ => .error .unassignedFunction

/-- Major 0x2E by its function table (R275). -/
def decodeCbt (w : BitVec 32) : Except Reject Instr :=
  match fld w 10 0 with
  | 1 => guardZero (fld w 25 21 + fld w 15 11) <| .ok (.cbtld (.ofNat 5 (fld w 20 16)))
  | _ => .error .unassignedFunction

/-- Major 0x30 by its function table (R275). -/
def decodeMat (w : BitVec 32) : Except Reject Instr :=
  match fld w 3 0 with
  | 0 => guardZero (fld w 22 17 + fld w 11 4) <| .ok (.tcfg (.ofNat 3 (fld w 25 23)) (.ofNat 5 (fld w 16 12)))
  | 1 => guardZero (fld w 22 17 + fld w 6 4) <| .ok (.mopa (.ofNat 3 (fld w 25 23)) (.ofNat 5 (fld w 16 12)) (.ofNat 5 (fld w 11 7)))
  | 2 => guardZero (fld w 16 4) <| .ok (.mma (.ofNat 3 (fld w 25 23)) (.ofNat 3 (fld w 22 20)) (.ofNat 3 (fld w 19 17)))
  | 3 => guardZero (fld w 6 4) <| .ok (.mmas (.ofNat 3 (fld w 25 23)) (.ofNat 3 (fld w 22 20)) (.ofNat 3 (fld w 19 17)) (.ofNat 5 (fld w 16 12)) (.ofNat 5 (fld w 11 7)))
  | 4 => guardZero (fld w 13 4) <| guardPair (decide (fld w 16 14 % 2 = 0)) <| .ok (.mmasp (.ofNat 3 (fld w 25 23)) (.ofNat 3 (fld w 22 20)) (.ofNat 3 (fld w 19 17)) (.ofNat 3 (fld w 16 14)))
  | 5 => guardZero (fld w 22 17 + fld w 11 4) <| .ok (.tld (.ofNat 3 (fld w 25 23)) (.ofNat 5 (fld w 16 12)))
  | 6 => guardZero (fld w 22 17 + fld w 11 4) <| .ok (.tst (.ofNat 3 (fld w 25 23)) (.ofNat 5 (fld w 16 12)))
  | 7 => guardZero (fld w 22 4) <| .ok (.tzero (.ofNat 3 (fld w 25 23)))
  | 8 => guardZero (fld w 25 23 + fld w 19 17 + fld w 6 4) <| .ok (.tmvv (.ofNat 5 (fld w 11 7)) (.ofNat 3 (fld w 22 20)) (.ofNat 5 (fld w 16 12)))
  | 9 => guardZero (fld w 22 17 + fld w 6 4) <| .ok (.tmvt (.ofNat 3 (fld w 25 23)) (.ofNat 5 (fld w 11 7)) (.ofNat 5 (fld w 16 12)))
  | _ => .error .unassignedFunction

/-- Major 0x31 by its function table (R275). -/
def decodeDda (w : BitVec 32) : Except Reject Instr :=
  match fld w 3 0 with
  | 0 => guardZero (fld w 25 21 + fld w 10 4) <| .ok (.patch (.ofNat 5 (fld w 20 16)) (.ofNat 5 (fld w 15 11)))
  | 1 => guardZero (fld w 15 4) <| guardBelow (fld w 25 21) 8 <| .ok (.dcfg (.ofNat 3 (fld w 25 21)) (.ofNat 5 (fld w 20 16)))
  | 2 => guardZero (fld w 25 21 + fld w 10 4) <| .ok (.dset (.ofNat 5 (fld w 20 16)) (.ofNat 5 (fld w 15 11)))
  | 3 => guardZero (fld w 15 4) <| .ok (.dget (.ofNat 5 (fld w 25 21)) (.ofNat 5 (fld w 20 16)))
  | 4 => guardZero (fld w 15 4) <| guardBelow (fld w 25 21) 8 <| .ok (.dstep (.ofNat 3 (fld w 25 21)) (.ofNat 5 (fld w 20 16)))
  | 5 => guardZero (fld w 25 21 + fld w 15 4) <| .ok (.drun (.ofNat 5 (fld w 20 16)))
  | 6 => guardZero (fld w 25 21 + fld w 15 4) <| .ok (.dhalt (.ofNat 5 (fld w 20 16)))
  | 7 => guardZero (fld w 25 21 + fld w 15 4) <| .ok (.dsave (.ofNat 5 (fld w 20 16)))
  | 8 => guardZero (fld w 25 21 + fld w 15 4) <| .ok (.dload (.ofNat 5 (fld w 20 16)))
  | 9 => guardZero (fld w 25 21 + fld w 10 4) <| guardBelow (fld w 15 11) 16 <| .ok (.dbind (.ofNat 5 (fld w 20 16)) (.ofNat 4 (fld w 15 11)))
  | _ => .error .unassignedFunction

/-- Major 0x32 by its function table (R275). -/
def decodeLeas (w : BitVec 32) : Except Reject Instr :=
  match fld w 10 0 with
  | 1 => .ok (.lease (.ofNat 5 (fld w 25 21)) (.ofNat 5 (fld w 20 16)) (.ofNat 5 (fld w 15 11)))
  | 2 => .ok (.lrevoke (.ofNat 5 (fld w 25 21)) (.ofNat 5 (fld w 20 16)) (.ofNat 5 (fld w 15 11)))
  | 3 => guardZero (fld w 15 11) <| .ok (.lquery (.ofNat 5 (fld w 25 21)) (.ofNat 5 (fld w 20 16)))
  | _ => .error .unassignedFunction

/-- Major 0x33 by its function table (R275). -/
def decodeSint (w : BitVec 32) : Except Reject Instr :=
  match fld w 3 0 with
  | 1 => guardZero (fld w 25 21 + fld w 5 4) <| guardSome (SType.ofBits (fld w 10 8)) fun t => guardSome (SOp.ofBits (fld w 7 6)) fun o => .ok (.vtree (.ofNat 5 (fld w 20 16)) (.ofNat 5 (fld w 15 11)) t o)
  | 2 => guardZero (fld w 15 11 + fld w 5 4) <| guardSome (SType.ofBits (fld w 10 8)) fun t => guardSome (SOp.ofBits (fld w 7 6)) fun o => .ok (.vtreew (.ofNat 5 (fld w 25 21)) (.ofNat 5 (fld w 20 16)) t o)
  | _ => .error .unassignedFunction

/-- Major 0x3C by its function table (R275). -/
def decodeSys (w : BitVec 32) : Except Reject Instr :=
  match fld w 3 0 with
  | 0 => guardZero (fld w 20 16) <| guardSome (Csr.ofBits (fld w 15 4)) fun n => .ok (.csrr (.ofNat 5 (fld w 25 21)) n)
  | 1 => guardZero (fld w 25 21) <| guardSome (Csr.ofBits (fld w 15 4)) fun n => .ok (.csrw (.ofNat 5 (fld w 20 16)) n)
  | 2 => guardZero (fld w 25 16) <| .ok (.trap (.ofNat 12 (fld w 15 4)))
  | 3 => guardZero (fld w 25 4) <| .ok (.eret)
  | 4 => guardZero (fld w 25 4) <| .ok (.brk)
  | 5 => guardZero (fld w 25 4) <| .ok (.halt)
  | 6 => guardZero (fld w 15 4) <| .ok (.kill (.ofNat 5 (fld w 25 21)) (.ofNat 5 (fld w 20 16)))
  | 7 => guardZero (fld w 15 4) <| .ok (.keyset (.ofNat 5 (fld w 25 21)) (.ofNat 5 (fld w 20 16)))
  | 8 => guardZero (fld w 15 4) <| .ok (.keyrev (.ofNat 5 (fld w 25 21)) (.ofNat 5 (fld w 20 16)))
  | 9 => guardZero (fld w 10 4) <| guardBelow (fld w 25 21) 16 <| .ok (.monbind (.ofNat 4 (fld w 25 21)) (.ofNat 5 (fld w 20 16)) (.ofNat 5 (fld w 15 11)))
  | _ => .error .unassignedFunction

/-- The instruction that a 32-bit word is, or the reason why it is none (R273, R275). -/
def decode (w : BitVec 32) : Except Reject Instr :=
  match fld w 31 26 with
  | 1 => decodeOp w
  | 2 => .ok (.addi (.ofNat 5 (fld w 25 21)) (.ofNat 5 (fld w 20 16)) (.ofNat 16 (fld w 15 0)))
  | 3 => .ok (.andi (.ofNat 5 (fld w 25 21)) (.ofNat 5 (fld w 20 16)) (.ofNat 16 (fld w 15 0)))
  | 4 => .ok (.ori (.ofNat 5 (fld w 25 21)) (.ofNat 5 (fld w 20 16)) (.ofNat 16 (fld w 15 0)))
  | 5 => .ok (.xori (.ofNat 5 (fld w 25 21)) (.ofNat 5 (fld w 20 16)) (.ofNat 16 (fld w 15 0)))
  | 6 => .ok (.slti (.ofNat 5 (fld w 25 21)) (.ofNat 5 (fld w 20 16)) (.ofNat 16 (fld w 15 0)))
  | 7 => guardZero (fld w 15 6) <| .ok (.slli (.ofNat 5 (fld w 25 21)) (.ofNat 5 (fld w 20 16)) (.ofNat 6 (fld w 5 0)))
  | 8 => guardZero (fld w 15 6) <| .ok (.srli (.ofNat 5 (fld w 25 21)) (.ofNat 5 (fld w 20 16)) (.ofNat 6 (fld w 5 0)))
  | 9 => guardZero (fld w 15 6) <| .ok (.srai (.ofNat 5 (fld w 25 21)) (.ofNat 5 (fld w 20 16)) (.ofNat 6 (fld w 5 0)))
  | 10 => guardZero (fld w 20 16) <| .ok (.lui (.ofNat 5 (fld w 25 21)) (.ofNat 16 (fld w 15 0)))
  | 11 => guardZero (fld w 20 16) <| .ok (.auipc (.ofNat 5 (fld w 25 21)) (.ofNat 16 (fld w 15 0)))
  | 12 => guardSome (Size.ofBits (fld w 15 14)) fun z => .ok (.ld (.ofNat 5 (fld w 25 21)) (.ofNat 5 (fld w 20 16)) z (.ofNat 14 (fld w 13 0)))
  | 13 => guardSome (Size.ofBits (fld w 15 14)) fun z => .ok (.st (.ofNat 5 (fld w 25 21)) (.ofNat 5 (fld w 20 16)) z (.ofNat 14 (fld w 13 0)))
  | 14 => decodeBranch w
  | 15 => .ok (.jal (.ofNat 5 (fld w 25 21)) (.ofNat 21 (fld w 20 0)))
  | 16 => .ok (.jalr (.ofNat 5 (fld w 25 21)) (.ofNat 5 (fld w 20 16)) (.ofNat 16 (fld w 15 0)))
  | 24 => decodeVmem w
  | 25 => decodeVint w
  | 26 => decodeVflt w
  | 27 => decodeVmask w
  | 28 => decodeVmove w
  | 29 => decodeVred w
  | 40 => decodeChan w
  | 41 => decodeStrm w
  | 42 => decodeCaps w
  | 43 => decodeAtom w
  | 44 => decodeProc w
  | 45 => decodeVcfg w
  | 46 => decodeCbt w
  | 48 => decodeMat w
  | 49 => decodeDda w
  | 50 => decodeLeas w
  | 51 => decodeSint w
  | 60 => decodeSys w
  | _ => .error .unassignedMajor

/-- The word that four bytes of memory hold, little-endian (R272). -/
def wordOfBytes (b0 b1 b2 b3 : Byte) : BitVec 32 := b3 ++ b2 ++ b1 ++ b0

/-- The decoder on bytes: the first four are the word, lowest address first (R272). -/
def decodeBytes : List Byte → Except Reject (Instr × List Byte)
  | b0 :: b1 :: b2 :: b3 :: rest => (decode (wordOfBytes b0 b1 b2 b3)).map fun i => (i, rest)
  | _ => .error .shortWord

/-- The instruction the decoder reads from a word numbered as the opcode table numbers its bits; every instruction is
one 32-bit word (R272), laid out little-endian. -/
def decodeTableWord (nbits w : Nat) : Option Instr :=
  let v := w % 2 ^ nbits
  match decodeBytes [.ofNat 8 v, .ofNat 8 (v / 256), .ofNat 8 (v / 65536), .ofNat 8 (v / 16777216)] with
  | .ok (i, _) => some i
  | .error _ => none

/-- The word of an instruction, as a number built from its fields; a step without a word has none (Tables 12.1 to 12.13). -/
def encodeNat : Instr → Option Nat
  | .add d a b => some (67108865 + d.toNat * 2097152 + a.toNat * 65536 + b.toNat * 2048)
  | .sub d a b => some (67108866 + d.toNat * 2097152 + a.toNat * 65536 + b.toNat * 2048)
  | .mul d a b => some (67108867 + d.toNat * 2097152 + a.toNat * 65536 + b.toNat * 2048)
  | .mulh d a b => some (67108868 + d.toNat * 2097152 + a.toNat * 65536 + b.toNat * 2048)
  | .mulhu d a b => some (67108869 + d.toNat * 2097152 + a.toNat * 65536 + b.toNat * 2048)
  | .div d a b => some (67108870 + d.toNat * 2097152 + a.toNat * 65536 + b.toNat * 2048)
  | .divu d a b => some (67108871 + d.toNat * 2097152 + a.toNat * 65536 + b.toNat * 2048)
  | .rem d a b => some (67108872 + d.toNat * 2097152 + a.toNat * 65536 + b.toNat * 2048)
  | .remu d a b => some (67108873 + d.toNat * 2097152 + a.toNat * 65536 + b.toNat * 2048)
  | .and d a b => some (67108874 + d.toNat * 2097152 + a.toNat * 65536 + b.toNat * 2048)
  | .or d a b => some (67108875 + d.toNat * 2097152 + a.toNat * 65536 + b.toNat * 2048)
  | .xor d a b => some (67108876 + d.toNat * 2097152 + a.toNat * 65536 + b.toNat * 2048)
  | .sll d a b => some (67108877 + d.toNat * 2097152 + a.toNat * 65536 + b.toNat * 2048)
  | .srl d a b => some (67108878 + d.toNat * 2097152 + a.toNat * 65536 + b.toNat * 2048)
  | .sra d a b => some (67108879 + d.toNat * 2097152 + a.toNat * 65536 + b.toNat * 2048)
  | .slt d a b => some (67108880 + d.toNat * 2097152 + a.toNat * 65536 + b.toNat * 2048)
  | .sltu d a b => some (67108881 + d.toNat * 2097152 + a.toNat * 65536 + b.toNat * 2048)
  | .min d a b => some (67108882 + d.toNat * 2097152 + a.toNat * 65536 + b.toNat * 2048)
  | .max d a b => some (67108883 + d.toNat * 2097152 + a.toNat * 65536 + b.toNat * 2048)
  | .clz d a => some (67108884 + d.toNat * 2097152 + a.toNat * 65536)
  | .popc d a => some (67108885 + d.toNat * 2097152 + a.toNat * 65536)
  | .addi d a i => some (134217728 + d.toNat * 2097152 + a.toNat * 65536 + i.toNat)
  | .andi d a i => some (201326592 + d.toNat * 2097152 + a.toNat * 65536 + i.toNat)
  | .ori d a i => some (268435456 + d.toNat * 2097152 + a.toNat * 65536 + i.toNat)
  | .xori d a i => some (335544320 + d.toNat * 2097152 + a.toNat * 65536 + i.toNat)
  | .slti d a i => some (402653184 + d.toNat * 2097152 + a.toNat * 65536 + i.toNat)
  | .slli d a h => some (469762048 + d.toNat * 2097152 + a.toNat * 65536 + h.toNat)
  | .srli d a h => some (536870912 + d.toNat * 2097152 + a.toNat * 65536 + h.toNat)
  | .srai d a h => some (603979776 + d.toNat * 2097152 + a.toNat * 65536 + h.toNat)
  | .lui d i => some (671088640 + d.toNat * 2097152 + i.toNat)
  | .auipc d i => some (738197504 + d.toNat * 2097152 + i.toNat)
  | .ld d a z i => some (805306368 + d.toNat * 2097152 + a.toNat * 65536 + z.toBits * 16384 + i.toNat)
  | .st d a z i => some (872415232 + d.toNat * 2097152 + a.toNat * 65536 + z.toBits * 16384 + i.toNat)
  | .beq x y o => some (939524096 + x.toNat * 2097152 + y.toNat * 65536 + o.toNat)
  | .bne x y o => some (939532288 + x.toNat * 2097152 + y.toNat * 65536 + o.toNat)
  | .blt x y o => some (939540480 + x.toNat * 2097152 + y.toNat * 65536 + o.toNat)
  | .bge x y o => some (939548672 + x.toNat * 2097152 + y.toNat * 65536 + o.toNat)
  | .bltu x y o => some (939556864 + x.toNat * 2097152 + y.toNat * 65536 + o.toNat)
  | .bgeu x y o => some (939565056 + x.toNat * 2097152 + y.toNat * 65536 + o.toNat)
  | .beos o => some (939573248 + o.toNat)
  | .jal d o => some (1006632960 + d.toNat * 2097152 + o.toNat)
  | .jalr d a i => some (1073741824 + d.toNat * 2097152 + a.toNat * 65536 + i.toNat)
  | .vld d a => some (1610612736 + d.toNat * 2097152 + a.toNat * 65536)
  | .vlds d a => some (1610612737 + d.toNat * 2097152 + a.toNat * 65536)
  | .vldx d a b => some (1610612738 + d.toNat * 2097152 + a.toNat * 65536 + b.toNat * 2048)
  | .vldseg d a => some (1610612739 + d.toNat * 2097152 + a.toNat * 65536)
  | .vst d a => some (1610612744 + d.toNat * 2097152 + a.toNat * 65536)
  | .vsts d a => some (1610612745 + d.toNat * 2097152 + a.toNat * 65536)
  | .vstx d a b => some (1610612746 + d.toNat * 2097152 + a.toNat * 65536 + b.toNat * 2048)
  | .vstseg d a => some (1610612747 + d.toNat * 2097152 + a.toNat * 65536)
  | .vadd d a b r => some (1677721600 + d.toNat * 2097152 + a.toNat * 65536 + b.toNat * 2048 + r.toBits * 256)
  | .vsub d a b r => some (1677721601 + d.toNat * 2097152 + a.toNat * 65536 + b.toNat * 2048 + r.toBits * 256)
  | .vmul d a b r => some (1677721602 + d.toNat * 2097152 + a.toNat * 65536 + b.toNat * 2048 + r.toBits * 256)
  | .vmulh d a b r => some (1677721603 + d.toNat * 2097152 + a.toNat * 65536 + b.toNat * 2048 + r.toBits * 256)
  | .vmadd d a b r => some (1677721604 + d.toNat * 2097152 + a.toNat * 65536 + b.toNat * 2048 + r.toBits * 256)
  | .vand d a b r => some (1677721605 + d.toNat * 2097152 + a.toNat * 65536 + b.toNat * 2048 + r.toBits * 256)
  | .vor d a b r => some (1677721606 + d.toNat * 2097152 + a.toNat * 65536 + b.toNat * 2048 + r.toBits * 256)
  | .vxor d a b r => some (1677721607 + d.toNat * 2097152 + a.toNat * 65536 + b.toNat * 2048 + r.toBits * 256)
  | .vsll d a b r => some (1677721608 + d.toNat * 2097152 + a.toNat * 65536 + b.toNat * 2048 + r.toBits * 256)
  | .vsrl d a b r => some (1677721609 + d.toNat * 2097152 + a.toNat * 65536 + b.toNat * 2048 + r.toBits * 256)
  | .vsra d a b r => some (1677721610 + d.toNat * 2097152 + a.toNat * 65536 + b.toNat * 2048 + r.toBits * 256)
  | .vmin d a b r => some (1677721611 + d.toNat * 2097152 + a.toNat * 65536 + b.toNat * 2048 + r.toBits * 256)
  | .vmax d a b r => some (1677721612 + d.toNat * 2097152 + a.toNat * 65536 + b.toNat * 2048 + r.toBits * 256)
  | .vminu d a b r => some (1677721613 + d.toNat * 2097152 + a.toNat * 65536 + b.toNat * 2048 + r.toBits * 256)
  | .vmaxu d a b r => some (1677721614 + d.toNat * 2097152 + a.toNat * 65536 + b.toNat * 2048 + r.toBits * 256)
  | .vsadd d a b r => some (1677721615 + d.toNat * 2097152 + a.toNat * 65536 + b.toNat * 2048 + r.toBits * 256)
  | .vssub d a b r => some (1677721616 + d.toNat * 2097152 + a.toNat * 65536 + b.toNat * 2048 + r.toBits * 256)
  | .vabs d a => some (1677721617 + d.toNat * 2097152 + a.toNat * 65536)
  | .vfadd d a b r => some (1744830464 + d.toNat * 2097152 + a.toNat * 65536 + b.toNat * 2048 + r.toBits * 256)
  | .vfsub d a b r => some (1744830465 + d.toNat * 2097152 + a.toNat * 65536 + b.toNat * 2048 + r.toBits * 256)
  | .vfmul d a b r => some (1744830466 + d.toNat * 2097152 + a.toNat * 65536 + b.toNat * 2048 + r.toBits * 256)
  | .vfma d a b r => some (1744830467 + d.toNat * 2097152 + a.toNat * 65536 + b.toNat * 2048 + r.toBits * 256)
  | .vfnma d a b r => some (1744830468 + d.toNat * 2097152 + a.toNat * 65536 + b.toNat * 2048 + r.toBits * 256)
  | .vfdiv d a b r => some (1744830469 + d.toNat * 2097152 + a.toNat * 65536 + b.toNat * 2048 + r.toBits * 256)
  | .vfsqrt d a => some (1744830470 + d.toNat * 2097152 + a.toNat * 65536)
  | .vfmin d a b r => some (1744830471 + d.toNat * 2097152 + a.toNat * 65536 + b.toNat * 2048 + r.toBits * 256)
  | .vfmax d a b r => some (1744830472 + d.toNat * 2097152 + a.toNat * 65536 + b.toNat * 2048 + r.toBits * 256)
  | .vfsgn d a b r => some (1744830473 + d.toNat * 2097152 + a.toNat * 65536 + b.toNat * 2048 + r.toBits * 256)
  | .vfcvt d a k => some (1744830474 + d.toNat * 2097152 + a.toNat * 65536 + k.toBits * 2048)
  | .vfcvtSat d a => some (1744842763 + d.toNat * 2097152 + a.toNat * 65536)
  | .vcmp d a b r c => some (1811939328 + d.toNat * 2097152 + a.toNat * 65536 + b.toNat * 2048 + r.toBits * 256 + c.toBits)
  | .vfcmp d a b r c => some (1811939336 + d.toNat * 2097152 + a.toNat * 65536 + b.toNat * 2048 + r.toBits * 256 + c.toBits)
  | .vmlog d a b o => some (1811939344 + d.toNat * 2097152 + a.toNat * 65536 + b.toNat * 2048 + o.toBits)
  | .vmpop d a => some (1811939360 + d.toNat * 2097152 + a.toNat * 65536)
  | .vmfirst d a => some (1811939361 + d.toNat * 2097152 + a.toNat * 65536)
  | .vmerge d a b r => some (1811939362 + d.toNat * 2097152 + a.toNat * 65536 + b.toNat * 2048 + r.toBits * 256)
  | .vcompress d a => some (1811939363 + d.toNat * 2097152 + a.toNat * 65536)
  | .vexpand d a => some (1811939364 + d.toNat * 2097152 + a.toNat * 65536)
  | .viota d a => some (1811939365 + d.toNat * 2097152 + a.toNat * 65536)
  | .vslideup d a b => some (1879048192 + d.toNat * 2097152 + a.toNat * 65536 + b.toNat * 2048)
  | .vslidedn d a b => some (1879048193 + d.toNat * 2097152 + a.toNat * 65536 + b.toNat * 2048)
  | .vperm d a b r => some (1879048194 + d.toNat * 2097152 + a.toNat * 65536 + b.toNat * 2048 + r.toBits * 256)
  | .vmv d a => some (1879048195 + d.toNat * 2097152 + a.toNat * 65536)
  | .vmvsv d a => some (1879048196 + d.toNat * 2097152 + a.toNat * 65536)
  | .vmvvs d a b => some (1879048197 + d.toNat * 2097152 + a.toNat * 65536 + b.toNat * 2048)
  | .vredsum d a b => some (1946157056 + d.toNat * 2097152 + a.toNat * 65536 + b.toNat * 2048)
  | .vredmin d a b => some (1946157057 + d.toNat * 2097152 + a.toNat * 65536 + b.toNat * 2048)
  | .vredmax d a b => some (1946157058 + d.toNat * 2097152 + a.toNat * 65536 + b.toNat * 2048)
  | .vfredsum d a b => some (1946157064 + d.toNat * 2097152 + a.toNat * 65536 + b.toNat * 2048)
  | .vfredmin d a b => some (1946157065 + d.toNat * 2097152 + a.toNat * 65536 + b.toNat * 2048)
  | .vfredmax d a b => some (1946157066 + d.toNat * 2097152 + a.toNat * 65536 + b.toNat * 2048)
  | .cpush d c m => some (2684354560 + d.toNat * 2097152 + c.toNat * 131072 + m.toNat * 16)
  | .cpop d c m => some (2684354561 + d.toNat * 2097152 + c.toNat * 131072 + m.toNat * 16)
  | .cpeek d c b => some (2684354562 + d.toNat * 2097152 + c.toNat * 131072 + b.toNat * 2048)
  | .cadv c b => some (2684354563 + c.toNat * 131072 + b.toNat * 2048)
  | .cclose c => some (2684354564 + c.toNat * 131072)
  | .cbind d c b => some (2684354565 + d.toNat * 2097152 + c.toNat * 131072 + b.toNat * 2048)
  | .cbindMove d c b => some (2684354565 + d.toNat * 2097152 + c.toNat * 131072 + b.toNat * 2048)
  | .cunbind c => some (2684354566 + c.toNat * 131072)
  | .vpush d c m => some (2684354567 + d.toNat * 2097152 + c.toNat * 131072 + m.toNat * 16)
  | .vpop d c => some (2684354568 + d.toNat * 2097152 + c.toNat * 131072)
  | .scopy d a p => some (2751463424 + d.toNat * 2097152 + a.toNat * 65536 + p.toNat * 256)
  | .sgather d a b p m => some (2751463425 + d.toNat * 2097152 + a.toNat * 65536 + b.toNat * 2048 + p.toNat * 256 + m.toNat * 32)
  | .sbar p => some (2751463426 + p.toNat * 256)
  | .kderive d a b p => some (2818572288 + d.toNat * 2097152 + a.toNat * 65536 + b.toNat * 2048 + p.toNat * 32)
  | .kld d a => some (2818572289 + d.toNat * 2097152 + a.toNat * 65536)
  | .kst d a => some (2818572290 + d.toNat * 2097152 + a.toNat * 65536)
  | .ksend d c => some (2818572291 + d.toNat * 2097152 + c.toNat * 131072)
  | .krecv d c => some (2818572292 + d.toNat * 2097152 + c.toNat * 131072)
  | .aadd a b z => some (2885681152 + a.toNat * 65536 + b.toNat * 2048 + z.toBits * 512)
  | .amin a b z => some (2885681153 + a.toNat * 65536 + b.toNat * 2048 + z.toBits * 512)
  | .amax a b z => some (2885681154 + a.toNat * 65536 + b.toNat * 2048 + z.toBits * 512)
  | .aand a b z => some (2885681155 + a.toNat * 65536 + b.toNat * 2048 + z.toBits * 512)
  | .aor a b z => some (2885681156 + a.toNat * 65536 + b.toNat * 2048 + z.toBits * 512)
  | .axadd d a b z => some (2885681157 + d.toNat * 2097152 + a.toNat * 65536 + b.toNat * 2048 + z.toBits * 512)
  | .axchg d a b z => some (2885681158 + d.toNat * 2097152 + a.toNat * 65536 + b.toNat * 2048 + z.toBits * 512)
  | .acas d a b z => some (2885681159 + d.toNat * 2097152 + a.toNat * 65536 + b.toNat * 2048 + z.toBits * 512)
  | .fence s => some (2885681160 + s.toBits * 512)
  | .spawn d a => some (2952790017 + d.toNat * 2097152 + a.toNat * 65536)
  | .exit => some (2952790018)
  | .yield => some (2952790019)
  | .prio d a => some (2952790020 + d.toNat * 2097152 + a.toNat * 65536)
  | .setvl d a => some (3019898881 + d.toNat * 2097152 + a.toNat * 65536)
  | .setvs a => some (3019898882 + a.toNat * 65536)
  | .setvt a => some (3019898883 + a.toNat * 65536)
  | .setmt a => some (3019898884 + a.toNat * 65536)
  | .setpeer a => some (3019898885 + a.toNat * 65536)
  | .stripend => some (3019898886)
  | .cbtld a => some (3087007745 + a.toNat * 65536)
  | .tcfg d a => some (3221225472 + d.toNat * 8388608 + a.toNat * 4096)
  | .mopa d a b => some (3221225473 + d.toNat * 8388608 + a.toNat * 4096 + b.toNat * 128)
  | .mma d a b => some (3221225474 + d.toNat * 8388608 + a.toNat * 1048576 + b.toNat * 131072)
  | .mmas d a b x y => some (3221225475 + d.toNat * 8388608 + a.toNat * 1048576 + b.toNat * 131072 + x.toNat * 4096 + y.toNat * 128)
  | .mmasp d a b m => some (3221225476 + d.toNat * 8388608 + a.toNat * 1048576 + b.toNat * 131072 + m.toNat * 16384)
  | .tld d a => some (3221225477 + d.toNat * 8388608 + a.toNat * 4096)
  | .tst d a => some (3221225478 + d.toNat * 8388608 + a.toNat * 4096)
  | .tzero d => some (3221225479 + d.toNat * 8388608)
  | .tmvv d a b => some (3221225480 + d.toNat * 128 + a.toNat * 1048576 + b.toNat * 4096)
  | .tmvt d a b => some (3221225481 + d.toNat * 8388608 + a.toNat * 128 + b.toNat * 4096)
  | .patch a b => some (3288334336 + a.toNat * 65536 + b.toNat * 2048)
  | .dcfg n a => some (3288334337 + n.toNat * 2097152 + a.toNat * 65536)
  | .dset a b => some (3288334338 + a.toNat * 65536 + b.toNat * 2048)
  | .dget d a => some (3288334339 + d.toNat * 2097152 + a.toNat * 65536)
  | .dstep n a => some (3288334340 + n.toNat * 2097152 + a.toNat * 65536)
  | .drun a => some (3288334341 + a.toNat * 65536)
  | .dhalt a => some (3288334342 + a.toNat * 65536)
  | .dsave a => some (3288334343 + a.toNat * 65536)
  | .dload a => some (3288334344 + a.toNat * 65536)
  | .dbind a c => some (3288334345 + a.toNat * 65536 + c.toNat * 2048)
  | .lease d a b => some (3355443201 + d.toNat * 2097152 + a.toNat * 65536 + b.toNat * 2048)
  | .lrevoke d a b => some (3355443202 + d.toNat * 2097152 + a.toNat * 65536 + b.toNat * 2048)
  | .lquery d a => some (3355443203 + d.toNat * 2097152 + a.toNat * 65536)
  | .vtree a b t o => some (3422552065 + a.toNat * 65536 + b.toNat * 2048 + t.toBits * 256 + o.toBits * 64)
  | .vtreew d a t o => some (3422552066 + d.toNat * 2097152 + a.toNat * 65536 + t.toBits * 256 + o.toBits * 64)
  | .csrr d n => some (4026531840 + d.toNat * 2097152 + n.toBits * 16)
  | .csrw a n => some (4026531841 + a.toNat * 65536 + n.toBits * 16)
  | .trap c => some (4026531842 + c.toNat * 16)
  | .eret => some (4026531843)
  | .brk => some (4026531844)
  | .halt => some (4026531845)
  | .kill d a => some (4026531846 + d.toNat * 2097152 + a.toNat * 65536)
  | .keyset d a => some (4026531847 + d.toNat * 2097152 + a.toNat * 65536)
  | .keyrev d a => some (4026531848 + d.toNat * 2097152 + a.toNat * 65536)
  | .monbind n a b => some (4026531849 + n.toNat * 2097152 + a.toNat * 65536 + b.toNat * 2048)
  | .tlbiWrite _ _ => none
  | .sdescLoad _ _ => none
  | .sdescClear _ _ => none
  | .resumeAtPoint _ _ => none
  | .resumeSkip _ _ => none
  | .resumeStream _ _ _ => none
  | .resumeEnd _ _ => none
  | .pswapOut _ _ => none
  | .pswapIn _ _ => none
  | .psetCreate _ _ => none
  | .psetTeardown _ => none
  | .hepsetWrite _ _ => none
  | .laneGrantEffect _ _ => none
  | .reservedGrant _ _ => none
  | .childRelease _ => none
  | .networkLaunch _ => none
  | .loaderEndReply _ _ => none
  | .checkRunB _ _ => none
  | .checkCompare _ _ => none
  | .writerRegistration _ => none
  | .shortfallRequest _ => none
  | .creditRecall _ => none
  | .creditReturn _ => none
  | .channelMessageArrive _ => none
  | .retargetNotice _ _ => none
  | .retargetAck _ _ => none
  | .dramRead _ _ => none
  | .dramWrite _ _ => none
  | .dramBadRequest _ _ => none
  | .mempipeRead _ => none
  | .mempipeWrite _ => none
  | .dramAtomic _ => none
  | .globalSramAccess _ => none
  | .memoryReply _ => none
  | .cbIdleDrain _ _ => none
  | .heldBindingEnqueue _ _ => none
  | .streamStart _ _ => none
  | .streamSector _ _ => none
  | .streamComplete _ _ => none
  | .matrixStepGroup _ => none
  | .debuggerHalt _ => none
  | .debuggerRelease _ => none
  | .divPhaseZero _ _ => none
  | .domainTick _ _ => none
  | .portTakeSlot _ _ => none
  | .tapCreditPush _ _ => none
  | .monitorFire _ _ => none
  | .levelCounterUpdate _ _ _ _ => none
  | .monitorPendingPush _ _ => none
  | .fumaroleSweepStart _ => none
  | .fumaroleSweepDone _ => none
  | .faultRecordPush _ => none
  | .firmwareFaultForward => none
  | .opticalDataFlit _ _ => none
  | .opticalAck _ _ _ => none
  | .opticalNack _ _ _ => none
  | .ackTimer _ _ => none
  | .gapTimeout _ _ => none
  | .crcThreshold _ => none
  | .lossOfLight _ => none
  | .lightRestored _ => none
  | .retrain _ _ => none
  | .trainingWord _ _ _ _ => none
  | .laneOffer _ _ _ _ => none
  | .offerAnswer _ _ => none
  | .offerTimeout _ => none
  | .trainingTimeout _ => none
  | .laneDrainEnd _ => none
  | .starvationRevoke _ _ => none
  | .gcmGroupClose _ _ => none
  | .gcmTagFlit _ _ _ _ => none
  | .relayForward _ _ _ => none
  | .relayRefusal _ => none
  | .remoteRead _ _ => none
  | .remoteWrite _ _ => none
  | .remoteAtomic _ _ => none
  | .remoteReply _ _ => none
  | .sinterCombine _ _ _ _ => none
  | .sinterResult _ _ _ _ => none
  | .sinterTimerExpire _ _ _ => none
  | .sinterAbortRequest _ _ _ => none
  | .sinterAbort _ _ _ _ _ => none
  | .laharFlood _ _ => none
  | .killWindowEnd _ _ => none
  | .killReport _ _ => none
  | .keysetComplete _ => none
  | .keyrevComplete _ => none
  | .hostPush _ _ _ _ _ _ => none
  | .hostCreditRead _ _ _ => none
  | .hostCreditUpdate _ => none
  | .d2hDeliver _ => none
  | .hostCreditReturn _ _ _ _ => none
  | .queuePairError _ => none
  | .detectedError _ _ _ _ _ => none
  | .powerLimit => none
  | .thermalStop _ => none
  | .coolantLow => none
  | .moduleReset => none
  | .illegalWord _ => none
  | .powerLimitCleared => none

/-- The word of an instruction (R272). -/
def encode (i : Instr) : Option (BitVec 32) := (encodeNat i).map (BitVec.ofNat 32)

end Sys2Proof
end

