-- ==== Sys2Proof/Machine/Issue.lean ====
section
/-! DEFINITION. The start of a cycle, the choice of a process, the fetch and the decoding of its next instruction (R38, R41, R42,
R50, R51, R179, R193, R270, R272, R273), and the placing of an instruction where the next step fetches. -/

namespace Sys2Proof.Machine

/-- YIELD's wait: processes still READY at their level that have not issued since (R38). -/
def State.yieldsLeft (s : State) (p : Proc) : List (Nat × Nat) :=
  p.yields.filter fun e => let q := s.proc e.1
    decide (q.epoch = e.2 ∧ q.pst = .ready ∧ q.res = .resident)
/-- A process whose YIELD has ended returns to selection in this cycle (R38, R42). -/
def State.settleYield (s : State) (h : Nat) : State :=
  let p := s.proc h
  if p.yields.isEmpty then s
  else
    let l := s.yieldsLeft p
    s.updProc h fun p => { p with yields := l, since := if l.isEmpty then s.cycle else p.since }
/-- The process may be selected: resident, READY, not held by YIELD or an interlock (R31, R41). -/
def State.eligible (s : State) (h : Nat) : Bool :=
  let p := s.proc h
  decide (p.res = .resident ∧ p.pst = .ready ∧ p.hold = [] ∧ p.shut = false ∧ p.busy ≤ s.cycle) && p.mat.isNone && p.bulk.isNone
    && p.dstep.isNone && p.ending.isNone && p.yields.isEmpty
/-- `a` issues before `b` when both have the same deadline: lower level, earlier last issue, lower slot (R41). -/
def Proc.before (a b : Proc) : Bool :=
  if a.level ≠ b.level then decide (a.level < b.level)
  else match a.lastIssue, b.lastIssue with
    | none, some _ => true
    | some _, none => false
    | some x, some y => if x ≠ y then decide (x < y) else decide (a.slot < b.slot)
    | none, none => decide (a.slot < b.slot)
/-- The deadline D of R41 among the eligible processes `e`. -/
def State.deadline (s : State) (e : List Nat) (h : Nat) : Nat :=
  let p := s.proc h
  p.since + 4 * (e.filter fun q => decide ((s.proc q).level ≤ p.level)).length
/-- The process that R41 chooses; under a nonzero seed the tie among the least deadlines is an arbiter's (R125). -/
def State.choose (s : State) (e : List Nat) : Option Nat :=
  let first := e.foldl (fun a h => match a with
    | none => some h
    | some b =>
      let dh := s.deadline e h
      let db := s.deadline e b
      if dh < db ∨ (dh = db ∧ (s.proc h).before (s.proc b)) then some h else a) none
  match first with
  | none => none
  | some b =>
    let part := (s.proc b).part
    if (s.part part).seed = 0 then some b
    else
      let ties := e.filter fun h => decide (s.deadline e h = s.deadline e b)
      (ties[s.drawn part (issueArbiter (s.proc b).tile) % Nat.max 1 ties.length]?).or (some b)

/-- The fetch of a process: through translation with PX (R272). -/
def State.fetchKey (s : State) (h : Nat) : State × Except Cause Nat :=
  let p := s.proc h
  s.xlate p.tile p.part p.pc.toNat .fetch
/-- The four bytes at an HBM key as a process's partition reads them. -/
def State.fetchWord (s : State) (h k : Nat) : BitVec 32 :=
  let part := (s.proc h).part
  wordOfBytes (s.hbmByte part k) (s.hbmByte part (k + 1)) (s.hbmByte part (k + 2)) (s.hbmByte part (k + 3))
/-- The instruction that four bytes stand for; any other word is an illegal one (R273). -/
def decodeOr (w : BitVec 32) : Instr :=
  match decode w with
  | .ok i => i
  | .error _ => .illegalWord w
/-- The next instruction of a process is a vector or matrix one (R270). -/
def State.nextIsVector (s : State) (h : Nat) : Bool :=
  match (s.fetchKey h).2 with
  | .error _ => false
  | .ok k =>
    let m := (s.fetchWord h k).toNat / 2 ^ 26
    decide ((0x18 ≤ m ∧ m ≤ 0x1D) ∨ m = 0x30)
/-- The processes of a tile that may be selected in this cycle (R41); the power controller withholds vector and matrix issue. -/
def State.selectable (s : State) (t : Nat) : List Nat :=
  ((s.tile t).slots.map fun e => e.2).filter fun h => s.eligible h && !(s.throttled && s.nextIsVector h)
/-- A fetch of the running process faults: a commit that has begun ends first (R151, log 95). -/
def State.fetchFault (s : State) (c : Cause) : State :=
  let h := s.running
  let x : FInfo := { FInfo.at (s.proc h).pc.toNat with fetch := true }
  if (s.proc h).inCommit then
    if s.injectAfter h ≠ [] then s.holdOn (s.injectAfter h) else (s.commitEnd h).raiseAt h 0 c x
  else s.raiseAt h 0 c x
/-- A process is RUNNING, and its instruction is fetched; none when the fetch faults: its translation (R272), or an HBM line whose errors
cannot be corrected, whose page is then poisoned (R102, R249). -/
def State.fetchFor (s : State) (h : Nat) : State × Option Instr :=
  let s := { s with running := h }.goto h .running
  match s.fetchKey h with
  | (s, .error c) => (s.fetchFault c, none)
  | (s, .ok k) =>
    if s.hbmFails k 4 then ((s.poisonVa (s.proc h).part (s.proc h).pc.toNat).fetchFault .uncorrectable, none)
    else (s, some (decodeOr (s.fetchWord h k)))
/-- YIELDs that have ended return to selection on a tile (R38). -/
def State.settleYields (s : State) (t : Nat) : State := ((s.tile t).slots.map fun e => e.2).foldl (fun s h => s.settleYield h) s
/-- Select a process of the tile and fetch for it: the state with that process running, and its instruction; none when
nothing issues or the fetch faults. -/
def State.issue (s : State) (t : Nat) : State × Option Instr :=
  let s := s.settleYields t
  let e := s.selectable t
  match s.choose e with
  | none => (s.countEvent t 2 1, none)
  | some h =>
    (if (s.part (s.proc h).part).seed = 0 then s else s.afterDraw (s.proc h).part (issueArbiter t)).fetchFor h
/-- The attempt from `a` to `b` ended held by an interlock, or by accesses that were under way before it, and did nothing else to the
process's strip: its tile chooses again. -/
def State.heldIn (a b : State) (h : Nat) : Bool :=
  let p := b.proc h
  decide (a.issueLeft.length < b.issueLeft.length ∧ p.strip = (a.proc h).strip) && p.hold.all fun i => (Tab.look a.reqs i).isSome
/-- A process whose next instruction would be held is left out of the choice from here on (R41). -/
def State.tryHold (ex : Instr → State → Out) (s : State) (h : Nat) : State :=
  match s.fetchFor h with
  | (a, some i) => match ex i a with
    | .next b => if a.heldIn b h then s.updProc h fun p => { p with hold := (b.proc h).hold, busy := (b.proc h).busy } else s
    | _ => s
  | (_, none) => s
/-- Where several processes of a tile may be selected, those whose next instruction an interlock holds are left out of R41's set before
the choice is made. -/
def State.holdOut (ex : Instr → State → Out) (s : State) (t : Nat) : State :=
  let s := s.settleYields t
  let e := s.selectable t
  if e.length ≤ 1 then s else e.foldl (fun s h => s.tryHold ex h) s

/-- Every 1500 cycles the counters 0x10, 0x11 and 0x12 are updated on a tile that monitors one of them (R354, log 84). -/
def State.levelDue (s : State) (t : Nat) : State :=
  if s.cycle % 1500 = 0 ∧ (s.tile t).mons.any fun m => decide (0x10 ≤ m.sel) then
    s.evalLevels t (Config.tilePower t s.cycle) (Config.hotSpot (dieOf t) s.cycle) (Config.modulePower s.cycle)
  else s
/-- The counters that each cycle feeds on a tile with monitors (Table 2.7). -/
def State.countCycle (s : State) (t : Nat) : State :=
  if (s.tile t).mons.isEmpty then s
  else
    let s := s.levelDue t
    let hs := (s.tile t).slots.map fun e => e.2
    let inR := hs.filter fun h => match (s.proc h).pst with | .blockedRead _ => true | _ => false
    let inW := hs.filter fun h => match (s.proc h).pst with | .blockedWrite _ => true | _ => false
    let refused := Config.injectionRefused s.freeCtr
    let s := { s with freeCtr := s.freeCtr + 1 }
    let ages := (s.tile t).laneReqs.map fun q => q.age
    let waited := match ages with
      | [] => 0
      | a :: l => s.cycle - l.foldl min a
    ((((s.countEvent t 0 1).countEvent t 3 inR.length).countEvent t 4 inW.length).countEvent t 5 (if refused then 1 else 0)).evalLevel t 6
      waited
/-- The start of a cycle: CYCLE counts by one, and nothing in it changes CYCLE further; processes that a debugger halts, grants to compute again
for a fused cluster, processes that are ending, DSTEPs that have ended, analyser domains that are due, counters, and the tiles that issue. -/
def State.newCycle (s : State) : State :=
  let now := s.cycle + 1
  let s := { s with cycle := now, running := 0 }
  if s.stopped then s else
  let s := s.procs.foldl (fun s e => if e.2.haltAsked then s.lateHalt e.1 else s) s
  let s := s.tiles.foldl (fun s e => s.lateFuse e.1) s
  let s := s.procs.foldl (fun s e => if e.2.dying then s.goEnd e.1 else s) s
  let s := s.procs.foldl (fun s e => if e.2.dstep.isSome then s.endDstep e.1 else s) s
  let s := s.tiles.foldl (fun s e => s.arrayCycle e.1) s
  let s := s.tiles.foldl (fun s e => s.countCycle e.1) s
  { s with cycle := now, issueLeft := (s.tiles.filter fun e => !e.2.slots.isEmpty || !e.2.mons.isEmpty).map fun e => e.1 }

/-- The tile whose issue is the next step, when no event is due. -/
def State.nextIssue (s : State) : Option Nat :=
  match s.events with
  | (d, _) :: _ => if d ≤ s.cycle then none else s.issueLeft.head?
  | [] => s.issueLeft.head?
/-- The HBM key from which the next step fetches, if it fetches, and the partition that fetches. -/
def State.nextFetch (s : State) : Option (Nat × Nat) :=
  match s.nextIssue with
  | none => none
  | some t =>
    let s := s.settleYields t
    match s.choose (s.selectable t) with
    | none => none
    | some h => match (s.fetchKey h).2 with
      | .ok k => some ((s.proc h).part, k)
      | .error _ => none
/-- A program loaded from outside (log 19): partition 0 over tile 0 and DRAM server 0, one executable leaf for addresses 0 to
2^31 − 1 at physical address 0, and a level 0 process whose PC is 0x200000. -/
def State.install (s : State) : State :=
  let (s, epoch) := s.fresh
  let part : Partition := { valid := true, servers := [0], key := { full := true, epoch := epoch } }
  let p : Proc := { pc := 0x200000, since := s.cycle }
  let h := 1
  let s := { s with parts := [(0, part)], procs := [(h, p)], tiles := [(0, { slots := [(0, h)], nextSeq := 2 })],
                    events := [], issueLeft := [0], running := 0, lltlb := [] }
  s.hbmStore 0 0 (wbytes (bytesLE 8 (2 ^ 63 + 2 ^ 62 + 2 ^ 59)))

end Sys2Proof.Machine
end

