-- ==== Sys2Proof/Machine/Step.lean ====
section
/-! DEFINITION. One step of the module: an event that is due, or the issue of one tile, or the start of the next cycle. -/

namespace Sys2Proof.Machine

/-- One step (R41, R272, R434, log 20): before a tile chooses, the processes that an interlock holds are left out. -/
def step (s : State) : Host.Outcome State Fault Refusal :=
  match s.events with
  | (d, i) :: rest =>
    if d ≤ s.cycle then exec i { s with events := rest, running := 0 }
    else match s.issueLeft with
      | t :: more => match ({ s with issueLeft := more }.holdOut exec t).issue t with
        | (s, some i) => exec i s
        | (s, none) => .next s
      | [] => .next s.newCycle
  | [] => match s.issueLeft with
    | t :: more => match ({ s with issueLeft := more }.holdOut exec t).issue t with
      | (s, some i) => exec i s
      | (s, none) => .next s
    | [] => if s.stopped then .fault .moduleStopped else .next s.newCycle

/-- `s` with an instruction of `nbits` bits stored where the next step fetches; where the next step fetches nothing, a program
is first loaded (log 19). -/
def State.withFetchWord (s : State) (nbits w : Nat) : State :=
  let bs := wbytes (bytesLE 4 (w % 2 ^ nbits))
  match s.nextFetch with
  | some (part, k) => s.hbmStore part k bs
  | none => s.install.hbmStore 0 0x200000 bs

end Sys2Proof.Machine
end

