-- ==== Sys2Proof/Laws/PerInstr.lean ====
section
/-! SUPPORT. Families of statements made constructor by constructor. RoundTrip: decoding the word of a well-formed instruction
gives that instruction with every operand; CBIND_MOVE shares the word of CBIND (R69). -/

namespace Sys2Proof.Laws.RoundTrip

/-- The instruction that the word of `i` decodes to: itself, and CBIND for CBIND_MOVE. -/
def reads : Instr → Instr
  | .cbindMove d c b => .cbind d c b
  | i => i

/-- Decoding the word of `i` gives `i`. -/
def Statement (i : Instr) : Prop := i.wf = true → ∀ w : BitVec 32, encode i = some w → decode w = .ok (reads i)

/-- The word of an instruction as a number. -/
theorem toNat_of_encode {i : Instr} {w : BitVec 32} {n : Nat} (h : encode i = some w) (hn : encodeNat i = some n) (hlt : n < 2 ^ 32) :
    w.toNat = n := by
  simp only [encode, hn, Option.map_some, Option.some.injEq] at h
  rw [← h, BitVec.toNat_ofNat, Nat.mod_eq_of_lt hlt]

theorem of_none {i : Instr} (h : encode i = none) : Statement i := by
  intro _ w hw; rw [h] at hw; cases hw

theorem three_bits (n : BitVec 3) : n = 0 ∨ n = 1 ∨ n = 2 ∨ n = 3 ∨ n = 4 ∨ n = 5 ∨ n = 6 ∨ n = 7 := by
  revert n; decide

@[simp] theorem Size_read (x : Size) : Size.ofBits x.toBits = some x := by cases x <;> rfl
theorem Size_lt (x : Size) : x.toBits < 4 := by cases x <;> decide
@[simp] theorem ASize_read (x : ASize) : ASize.ofBits x.toBits = some x := by cases x <;> rfl
theorem ASize_lt (x : ASize) : x.toBits < 4 := by cases x <;> decide
@[simp] theorem Scope_read (x : Scope) : Scope.ofBits x.toBits = some x := by cases x <;> rfl
theorem Scope_lt (x : Scope) : x.toBits < 4 := by cases x <;> decide
@[simp] theorem Rep_read (x : Rep) : Rep.ofBits x.toBits = some x := by cases x <;> rfl
theorem Rep_lt (x : Rep) : x.toBits < 8 := by cases x <;> decide
@[simp] theorem ICond_read (x : ICond) : ICond.ofBits x.toBits = some x := by cases x <;> rfl
theorem ICond_lt (x : ICond) : x.toBits < 8 := by cases x <;> decide
@[simp] theorem FCond_read (x : FCond) : FCond.ofBits x.toBits = some x := by cases x <;> rfl
theorem FCond_lt (x : FCond) : x.toBits < 8 := by cases x <;> decide
@[simp] theorem MOp_read (x : MOp) : MOp.ofBits x.toBits = some x := by cases x <;> rfl
theorem MOp_lt (x : MOp) : x.toBits < 8 := by cases x <;> decide
@[simp] theorem CvtKind_read (x : CvtKind) : CvtKind.ofBits x.toBits = some x := by cases x <;> rfl
theorem CvtKind_lt (x : CvtKind) : x.toBits < 32 := by cases x <;> decide
@[simp] theorem SType_read (x : SType) : SType.ofBits x.toBits = some x := by cases x <;> rfl
theorem SType_lt (x : SType) : x.toBits < 8 := by cases x <;> decide
@[simp] theorem SOp_read (x : SOp) : SOp.ofBits x.toBits = some x := by cases x <;> rfl
theorem SOp_lt (x : SOp) : x.toBits < 4 := by cases x <;> decide
@[simp] theorem Csr_read (x : Csr) : Csr.ofBits x.toBits = some x := by
  cases x with
  | tsh n => rcases three_bits n with h | h | h | h | h | h | h | h <;> subst h <;> rfl
  | _ => rfl
theorem Csr_lt (x : Csr) : x.toBits < 4096 := by
  cases x with
  | tsh n => have := n.isLt; simp only [Csr.toBits]; omega
  | _ => decide

theorem add (d : BitVec 5) (a : BitVec 5) (b : BitVec 5) : Statement (.add d a b) := by
  intro _ w hw
  have h0 := d.isLt; have h1 := a.isLt; have h2 := b.isLt
  have hn := toNat_of_encode hw rfl (by omega)
  have e : fld w 31 26 = 1 ∧ fld w 25 21 = d.toNat ∧ fld w 20 16 = a.toNat ∧ fld w 15 11 = b.toNat ∧ fld w 10 0 = 1 := by
    simp only [fld, Nat.reduceSub, Nat.reduceAdd, Nat.reducePow] at hn ⊢; omega
  simp [decode, decodeOp, reads, e]
theorem sub (d : BitVec 5) (a : BitVec 5) (b : BitVec 5) : Statement (.sub d a b) := by
  intro _ w hw
  have h0 := d.isLt; have h1 := a.isLt; have h2 := b.isLt
  have hn := toNat_of_encode hw rfl (by omega)
  have e : fld w 31 26 = 1 ∧ fld w 25 21 = d.toNat ∧ fld w 20 16 = a.toNat ∧ fld w 15 11 = b.toNat ∧ fld w 10 0 = 2 := by
    simp only [fld, Nat.reduceSub, Nat.reduceAdd, Nat.reducePow] at hn ⊢; omega
  simp [decode, decodeOp, reads, e]
theorem mul (d : BitVec 5) (a : BitVec 5) (b : BitVec 5) : Statement (.mul d a b) := by
  intro _ w hw
  have h0 := d.isLt; have h1 := a.isLt; have h2 := b.isLt
  have hn := toNat_of_encode hw rfl (by omega)
  have e : fld w 31 26 = 1 ∧ fld w 25 21 = d.toNat ∧ fld w 20 16 = a.toNat ∧ fld w 15 11 = b.toNat ∧ fld w 10 0 = 3 := by
    simp only [fld, Nat.reduceSub, Nat.reduceAdd, Nat.reducePow] at hn ⊢; omega
  simp [decode, decodeOp, reads, e]
theorem mulh (d : BitVec 5) (a : BitVec 5) (b : BitVec 5) : Statement (.mulh d a b) := by
  intro _ w hw
  have h0 := d.isLt; have h1 := a.isLt; have h2 := b.isLt
  have hn := toNat_of_encode hw rfl (by omega)
  have e : fld w 31 26 = 1 ∧ fld w 25 21 = d.toNat ∧ fld w 20 16 = a.toNat ∧ fld w 15 11 = b.toNat ∧ fld w 10 0 = 4 := by
    simp only [fld, Nat.reduceSub, Nat.reduceAdd, Nat.reducePow] at hn ⊢; omega
  simp [decode, decodeOp, reads, e]
theorem mulhu (d : BitVec 5) (a : BitVec 5) (b : BitVec 5) : Statement (.mulhu d a b) := by
  intro _ w hw
  have h0 := d.isLt; have h1 := a.isLt; have h2 := b.isLt
  have hn := toNat_of_encode hw rfl (by omega)
  have e : fld w 31 26 = 1 ∧ fld w 25 21 = d.toNat ∧ fld w 20 16 = a.toNat ∧ fld w 15 11 = b.toNat ∧ fld w 10 0 = 5 := by
    simp only [fld, Nat.reduceSub, Nat.reduceAdd, Nat.reducePow] at hn ⊢; omega
  simp [decode, decodeOp, reads, e]
theorem div (d : BitVec 5) (a : BitVec 5) (b : BitVec 5) : Statement (.div d a b) := by
  intro _ w hw
  have h0 := d.isLt; have h1 := a.isLt; have h2 := b.isLt
  have hn := toNat_of_encode hw rfl (by omega)
  have e : fld w 31 26 = 1 ∧ fld w 25 21 = d.toNat ∧ fld w 20 16 = a.toNat ∧ fld w 15 11 = b.toNat ∧ fld w 10 0 = 6 := by
    simp only [fld, Nat.reduceSub, Nat.reduceAdd, Nat.reducePow] at hn ⊢; omega
  simp [decode, decodeOp, reads, e]
theorem divu (d : BitVec 5) (a : BitVec 5) (b : BitVec 5) : Statement (.divu d a b) := by
  intro _ w hw
  have h0 := d.isLt; have h1 := a.isLt; have h2 := b.isLt
  have hn := toNat_of_encode hw rfl (by omega)
  have e : fld w 31 26 = 1 ∧ fld w 25 21 = d.toNat ∧ fld w 20 16 = a.toNat ∧ fld w 15 11 = b.toNat ∧ fld w 10 0 = 7 := by
    simp only [fld, Nat.reduceSub, Nat.reduceAdd, Nat.reducePow] at hn ⊢; omega
  simp [decode, decodeOp, reads, e]
theorem rem (d : BitVec 5) (a : BitVec 5) (b : BitVec 5) : Statement (.rem d a b) := by
  intro _ w hw
  have h0 := d.isLt; have h1 := a.isLt; have h2 := b.isLt
  have hn := toNat_of_encode hw rfl (by omega)
  have e : fld w 31 26 = 1 ∧ fld w 25 21 = d.toNat ∧ fld w 20 16 = a.toNat ∧ fld w 15 11 = b.toNat ∧ fld w 10 0 = 8 := by
    simp only [fld, Nat.reduceSub, Nat.reduceAdd, Nat.reducePow] at hn ⊢; omega
  simp [decode, decodeOp, reads, e]
theorem remu (d : BitVec 5) (a : BitVec 5) (b : BitVec 5) : Statement (.remu d a b) := by
  intro _ w hw
  have h0 := d.isLt; have h1 := a.isLt; have h2 := b.isLt
  have hn := toNat_of_encode hw rfl (by omega)
  have e : fld w 31 26 = 1 ∧ fld w 25 21 = d.toNat ∧ fld w 20 16 = a.toNat ∧ fld w 15 11 = b.toNat ∧ fld w 10 0 = 9 := by
    simp only [fld, Nat.reduceSub, Nat.reduceAdd, Nat.reducePow] at hn ⊢; omega
  simp [decode, decodeOp, reads, e]
theorem and (d : BitVec 5) (a : BitVec 5) (b : BitVec 5) : Statement (.and d a b) := by
  intro _ w hw
  have h0 := d.isLt; have h1 := a.isLt; have h2 := b.isLt
  have hn := toNat_of_encode hw rfl (by omega)
  have e : fld w 31 26 = 1 ∧ fld w 25 21 = d.toNat ∧ fld w 20 16 = a.toNat ∧ fld w 15 11 = b.toNat ∧ fld w 10 0 = 10 := by
    simp only [fld, Nat.reduceSub, Nat.reduceAdd, Nat.reducePow] at hn ⊢; omega
  simp [decode, decodeOp, reads, e]
theorem or (d : BitVec 5) (a : BitVec 5) (b : BitVec 5) : Statement (.or d a b) := by
  intro _ w hw
  have h0 := d.isLt; have h1 := a.isLt; have h2 := b.isLt
  have hn := toNat_of_encode hw rfl (by omega)
  have e : fld w 31 26 = 1 ∧ fld w 25 21 = d.toNat ∧ fld w 20 16 = a.toNat ∧ fld w 15 11 = b.toNat ∧ fld w 10 0 = 11 := by
    simp only [fld, Nat.reduceSub, Nat.reduceAdd, Nat.reducePow] at hn ⊢; omega
  simp [decode, decodeOp, reads, e]
theorem xor (d : BitVec 5) (a : BitVec 5) (b : BitVec 5) : Statement (.xor d a b) := by
  intro _ w hw
  have h0 := d.isLt; have h1 := a.isLt; have h2 := b.isLt
  have hn := toNat_of_encode hw rfl (by omega)
  have e : fld w 31 26 = 1 ∧ fld w 25 21 = d.toNat ∧ fld w 20 16 = a.toNat ∧ fld w 15 11 = b.toNat ∧ fld w 10 0 = 12 := by
    simp only [fld, Nat.reduceSub, Nat.reduceAdd, Nat.reducePow] at hn ⊢; omega
  simp [decode, decodeOp, reads, e]
theorem sll (d : BitVec 5) (a : BitVec 5) (b : BitVec 5) : Statement (.sll d a b) := by
  intro _ w hw
  have h0 := d.isLt; have h1 := a.isLt; have h2 := b.isLt
  have hn := toNat_of_encode hw rfl (by omega)
  have e : fld w 31 26 = 1 ∧ fld w 25 21 = d.toNat ∧ fld w 20 16 = a.toNat ∧ fld w 15 11 = b.toNat ∧ fld w 10 0 = 13 := by
    simp only [fld, Nat.reduceSub, Nat.reduceAdd, Nat.reducePow] at hn ⊢; omega
  simp [decode, decodeOp, reads, e]
theorem srl (d : BitVec 5) (a : BitVec 5) (b : BitVec 5) : Statement (.srl d a b) := by
  intro _ w hw
  have h0 := d.isLt; have h1 := a.isLt; have h2 := b.isLt
  have hn := toNat_of_encode hw rfl (by omega)
  have e : fld w 31 26 = 1 ∧ fld w 25 21 = d.toNat ∧ fld w 20 16 = a.toNat ∧ fld w 15 11 = b.toNat ∧ fld w 10 0 = 14 := by
    simp only [fld, Nat.reduceSub, Nat.reduceAdd, Nat.reducePow] at hn ⊢; omega
  simp [decode, decodeOp, reads, e]
theorem sra (d : BitVec 5) (a : BitVec 5) (b : BitVec 5) : Statement (.sra d a b) := by
  intro _ w hw
  have h0 := d.isLt; have h1 := a.isLt; have h2 := b.isLt
  have hn := toNat_of_encode hw rfl (by omega)
  have e : fld w 31 26 = 1 ∧ fld w 25 21 = d.toNat ∧ fld w 20 16 = a.toNat ∧ fld w 15 11 = b.toNat ∧ fld w 10 0 = 15 := by
    simp only [fld, Nat.reduceSub, Nat.reduceAdd, Nat.reducePow] at hn ⊢; omega
  simp [decode, decodeOp, reads, e]
theorem slt (d : BitVec 5) (a : BitVec 5) (b : BitVec 5) : Statement (.slt d a b) := by
  intro _ w hw
  have h0 := d.isLt; have h1 := a.isLt; have h2 := b.isLt
  have hn := toNat_of_encode hw rfl (by omega)
  have e : fld w 31 26 = 1 ∧ fld w 25 21 = d.toNat ∧ fld w 20 16 = a.toNat ∧ fld w 15 11 = b.toNat ∧ fld w 10 0 = 16 := by
    simp only [fld, Nat.reduceSub, Nat.reduceAdd, Nat.reducePow] at hn ⊢; omega
  simp [decode, decodeOp, reads, e]
theorem sltu (d : BitVec 5) (a : BitVec 5) (b : BitVec 5) : Statement (.sltu d a b) := by
  intro _ w hw
  have h0 := d.isLt; have h1 := a.isLt; have h2 := b.isLt
  have hn := toNat_of_encode hw rfl (by omega)
  have e : fld w 31 26 = 1 ∧ fld w 25 21 = d.toNat ∧ fld w 20 16 = a.toNat ∧ fld w 15 11 = b.toNat ∧ fld w 10 0 = 17 := by
    simp only [fld, Nat.reduceSub, Nat.reduceAdd, Nat.reducePow] at hn ⊢; omega
  simp [decode, decodeOp, reads, e]
theorem min (d : BitVec 5) (a : BitVec 5) (b : BitVec 5) : Statement (.min d a b) := by
  intro _ w hw
  have h0 := d.isLt; have h1 := a.isLt; have h2 := b.isLt
  have hn := toNat_of_encode hw rfl (by omega)
  have e : fld w 31 26 = 1 ∧ fld w 25 21 = d.toNat ∧ fld w 20 16 = a.toNat ∧ fld w 15 11 = b.toNat ∧ fld w 10 0 = 18 := by
    simp only [fld, Nat.reduceSub, Nat.reduceAdd, Nat.reducePow] at hn ⊢; omega
  simp [decode, decodeOp, reads, e]
theorem max (d : BitVec 5) (a : BitVec 5) (b : BitVec 5) : Statement (.max d a b) := by
  intro _ w hw
  have h0 := d.isLt; have h1 := a.isLt; have h2 := b.isLt
  have hn := toNat_of_encode hw rfl (by omega)
  have e : fld w 31 26 = 1 ∧ fld w 25 21 = d.toNat ∧ fld w 20 16 = a.toNat ∧ fld w 15 11 = b.toNat ∧ fld w 10 0 = 19 := by
    simp only [fld, Nat.reduceSub, Nat.reduceAdd, Nat.reducePow] at hn ⊢; omega
  simp [decode, decodeOp, reads, e]
theorem clz (d : BitVec 5) (a : BitVec 5) : Statement (.clz d a) := by
  intro _ w hw
  have h0 := d.isLt; have h1 := a.isLt
  have hn := toNat_of_encode hw rfl (by omega)
  have e : fld w 31 26 = 1 ∧ fld w 25 21 = d.toNat ∧ fld w 20 16 = a.toNat ∧ fld w 15 11 = 0 ∧ fld w 10 0 = 20 := by
    simp only [fld, Nat.reduceSub, Nat.reduceAdd, Nat.reducePow] at hn ⊢; omega
  simp [decode, decodeOp, guardZero, reads, e]
theorem popc (d : BitVec 5) (a : BitVec 5) : Statement (.popc d a) := by
  intro _ w hw
  have h0 := d.isLt; have h1 := a.isLt
  have hn := toNat_of_encode hw rfl (by omega)
  have e : fld w 31 26 = 1 ∧ fld w 25 21 = d.toNat ∧ fld w 20 16 = a.toNat ∧ fld w 15 11 = 0 ∧ fld w 10 0 = 21 := by
    simp only [fld, Nat.reduceSub, Nat.reduceAdd, Nat.reducePow] at hn ⊢; omega
  simp [decode, decodeOp, guardZero, reads, e]
theorem addi (d : BitVec 5) (a : BitVec 5) (i : BitVec 16) : Statement (.addi d a i) := by
  intro _ w hw
  have h0 := d.isLt; have h1 := a.isLt; have h2 := i.isLt
  have hn := toNat_of_encode hw rfl (by omega)
  have e : fld w 31 26 = 2 ∧ fld w 25 21 = d.toNat ∧ fld w 20 16 = a.toNat ∧ fld w 15 0 = i.toNat := by
    simp only [fld, Nat.reduceSub, Nat.reduceAdd, Nat.reducePow] at hn ⊢; omega
  simp [decode, reads, e]
theorem andi (d : BitVec 5) (a : BitVec 5) (i : BitVec 16) : Statement (.andi d a i) := by
  intro _ w hw
  have h0 := d.isLt; have h1 := a.isLt; have h2 := i.isLt
  have hn := toNat_of_encode hw rfl (by omega)
  have e : fld w 31 26 = 3 ∧ fld w 25 21 = d.toNat ∧ fld w 20 16 = a.toNat ∧ fld w 15 0 = i.toNat := by
    simp only [fld, Nat.reduceSub, Nat.reduceAdd, Nat.reducePow] at hn ⊢; omega
  simp [decode, reads, e]
theorem ori (d : BitVec 5) (a : BitVec 5) (i : BitVec 16) : Statement (.ori d a i) := by
  intro _ w hw
  have h0 := d.isLt; have h1 := a.isLt; have h2 := i.isLt
  have hn := toNat_of_encode hw rfl (by omega)
  have e : fld w 31 26 = 4 ∧ fld w 25 21 = d.toNat ∧ fld w 20 16 = a.toNat ∧ fld w 15 0 = i.toNat := by
    simp only [fld, Nat.reduceSub, Nat.reduceAdd, Nat.reducePow] at hn ⊢; omega
  simp [decode, reads, e]
theorem xori (d : BitVec 5) (a : BitVec 5) (i : BitVec 16) : Statement (.xori d a i) := by
  intro _ w hw
  have h0 := d.isLt; have h1 := a.isLt; have h2 := i.isLt
  have hn := toNat_of_encode hw rfl (by omega)
  have e : fld w 31 26 = 5 ∧ fld w 25 21 = d.toNat ∧ fld w 20 16 = a.toNat ∧ fld w 15 0 = i.toNat := by
    simp only [fld, Nat.reduceSub, Nat.reduceAdd, Nat.reducePow] at hn ⊢; omega
  simp [decode, reads, e]
theorem slti (d : BitVec 5) (a : BitVec 5) (i : BitVec 16) : Statement (.slti d a i) := by
  intro _ w hw
  have h0 := d.isLt; have h1 := a.isLt; have h2 := i.isLt
  have hn := toNat_of_encode hw rfl (by omega)
  have e : fld w 31 26 = 6 ∧ fld w 25 21 = d.toNat ∧ fld w 20 16 = a.toNat ∧ fld w 15 0 = i.toNat := by
    simp only [fld, Nat.reduceSub, Nat.reduceAdd, Nat.reducePow] at hn ⊢; omega
  simp [decode, reads, e]
theorem slli (d : BitVec 5) (a : BitVec 5) (h : BitVec 6) : Statement (.slli d a h) := by
  intro _ w hw
  have h0 := d.isLt; have h1 := a.isLt; have h2 := h.isLt
  have hn := toNat_of_encode hw rfl (by omega)
  have e : fld w 31 26 = 7 ∧ fld w 25 21 = d.toNat ∧ fld w 20 16 = a.toNat ∧ fld w 15 6 = 0 ∧ fld w 5 0 = h.toNat := by
    simp only [fld, Nat.reduceSub, Nat.reduceAdd, Nat.reducePow] at hn ⊢; omega
  simp [decode, guardZero, reads, e]
theorem srli (d : BitVec 5) (a : BitVec 5) (h : BitVec 6) : Statement (.srli d a h) := by
  intro _ w hw
  have h0 := d.isLt; have h1 := a.isLt; have h2 := h.isLt
  have hn := toNat_of_encode hw rfl (by omega)
  have e : fld w 31 26 = 8 ∧ fld w 25 21 = d.toNat ∧ fld w 20 16 = a.toNat ∧ fld w 15 6 = 0 ∧ fld w 5 0 = h.toNat := by
    simp only [fld, Nat.reduceSub, Nat.reduceAdd, Nat.reducePow] at hn ⊢; omega
  simp [decode, guardZero, reads, e]
theorem srai (d : BitVec 5) (a : BitVec 5) (h : BitVec 6) : Statement (.srai d a h) := by
  intro _ w hw
  have h0 := d.isLt; have h1 := a.isLt; have h2 := h.isLt
  have hn := toNat_of_encode hw rfl (by omega)
  have e : fld w 31 26 = 9 ∧ fld w 25 21 = d.toNat ∧ fld w 20 16 = a.toNat ∧ fld w 15 6 = 0 ∧ fld w 5 0 = h.toNat := by
    simp only [fld, Nat.reduceSub, Nat.reduceAdd, Nat.reducePow] at hn ⊢; omega
  simp [decode, guardZero, reads, e]
theorem lui (d : BitVec 5) (i : BitVec 16) : Statement (.lui d i) := by
  intro _ w hw
  have h0 := d.isLt; have h1 := i.isLt
  have hn := toNat_of_encode hw rfl (by omega)
  have e : fld w 31 26 = 10 ∧ fld w 25 21 = d.toNat ∧ fld w 20 16 = 0 ∧ fld w 15 0 = i.toNat := by
    simp only [fld, Nat.reduceSub, Nat.reduceAdd, Nat.reducePow] at hn ⊢; omega
  simp [decode, guardZero, reads, e]
theorem auipc (d : BitVec 5) (i : BitVec 16) : Statement (.auipc d i) := by
  intro _ w hw
  have h0 := d.isLt; have h1 := i.isLt
  have hn := toNat_of_encode hw rfl (by omega)
  have e : fld w 31 26 = 11 ∧ fld w 25 21 = d.toNat ∧ fld w 20 16 = 0 ∧ fld w 15 0 = i.toNat := by
    simp only [fld, Nat.reduceSub, Nat.reduceAdd, Nat.reducePow] at hn ⊢; omega
  simp [decode, guardZero, reads, e]
theorem ld (d : BitVec 5) (a : BitVec 5) (z : Size) (i : BitVec 14) : Statement (.ld d a z i) := by
  intro _ w hw
  have h0 := d.isLt; have h1 := a.isLt; have h2 := Size_lt z; have h3 := i.isLt
  have hn := toNat_of_encode hw rfl (by omega)
  have e : fld w 31 26 = 12 ∧ fld w 25 21 = d.toNat ∧ fld w 20 16 = a.toNat ∧ fld w 15 14 = z.toBits ∧ fld w 13 0 = i.toNat := by
    simp only [fld, Nat.reduceSub, Nat.reduceAdd, Nat.reducePow] at hn ⊢; omega
  simp [decode, guardSome, reads, e]
theorem st (d : BitVec 5) (a : BitVec 5) (z : Size) (i : BitVec 14) : Statement (.st d a z i) := by
  intro _ w hw
  have h0 := d.isLt; have h1 := a.isLt; have h2 := Size_lt z; have h3 := i.isLt
  have hn := toNat_of_encode hw rfl (by omega)
  have e : fld w 31 26 = 13 ∧ fld w 25 21 = d.toNat ∧ fld w 20 16 = a.toNat ∧ fld w 15 14 = z.toBits ∧ fld w 13 0 = i.toNat := by
    simp only [fld, Nat.reduceSub, Nat.reduceAdd, Nat.reducePow] at hn ⊢; omega
  simp [decode, guardSome, reads, e]
theorem beq (x : BitVec 5) (y : BitVec 5) (o : BitVec 13) : Statement (.beq x y o) := by
  intro _ w hw
  have h0 := x.isLt; have h1 := y.isLt; have h2 := o.isLt
  have hn := toNat_of_encode hw rfl (by omega)
  have e : fld w 31 26 = 14 ∧ fld w 25 21 = x.toNat ∧ fld w 20 16 = y.toNat ∧ fld w 15 13 = 0 ∧ fld w 12 0 = o.toNat := by
    simp only [fld, Nat.reduceSub, Nat.reduceAdd, Nat.reducePow] at hn ⊢; omega
  simp [decode, decodeBranch, reads, e]
theorem bne (x : BitVec 5) (y : BitVec 5) (o : BitVec 13) : Statement (.bne x y o) := by
  intro _ w hw
  have h0 := x.isLt; have h1 := y.isLt; have h2 := o.isLt
  have hn := toNat_of_encode hw rfl (by omega)
  have e : fld w 31 26 = 14 ∧ fld w 25 21 = x.toNat ∧ fld w 20 16 = y.toNat ∧ fld w 15 13 = 1 ∧ fld w 12 0 = o.toNat := by
    simp only [fld, Nat.reduceSub, Nat.reduceAdd, Nat.reducePow] at hn ⊢; omega
  simp [decode, decodeBranch, reads, e]
theorem blt (x : BitVec 5) (y : BitVec 5) (o : BitVec 13) : Statement (.blt x y o) := by
  intro _ w hw
  have h0 := x.isLt; have h1 := y.isLt; have h2 := o.isLt
  have hn := toNat_of_encode hw rfl (by omega)
  have e : fld w 31 26 = 14 ∧ fld w 25 21 = x.toNat ∧ fld w 20 16 = y.toNat ∧ fld w 15 13 = 2 ∧ fld w 12 0 = o.toNat := by
    simp only [fld, Nat.reduceSub, Nat.reduceAdd, Nat.reducePow] at hn ⊢; omega
  simp [decode, decodeBranch, reads, e]
theorem bge (x : BitVec 5) (y : BitVec 5) (o : BitVec 13) : Statement (.bge x y o) := by
  intro _ w hw
  have h0 := x.isLt; have h1 := y.isLt; have h2 := o.isLt
  have hn := toNat_of_encode hw rfl (by omega)
  have e : fld w 31 26 = 14 ∧ fld w 25 21 = x.toNat ∧ fld w 20 16 = y.toNat ∧ fld w 15 13 = 3 ∧ fld w 12 0 = o.toNat := by
    simp only [fld, Nat.reduceSub, Nat.reduceAdd, Nat.reducePow] at hn ⊢; omega
  simp [decode, decodeBranch, reads, e]
theorem bltu (x : BitVec 5) (y : BitVec 5) (o : BitVec 13) : Statement (.bltu x y o) := by
  intro _ w hw
  have h0 := x.isLt; have h1 := y.isLt; have h2 := o.isLt
  have hn := toNat_of_encode hw rfl (by omega)
  have e : fld w 31 26 = 14 ∧ fld w 25 21 = x.toNat ∧ fld w 20 16 = y.toNat ∧ fld w 15 13 = 4 ∧ fld w 12 0 = o.toNat := by
    simp only [fld, Nat.reduceSub, Nat.reduceAdd, Nat.reducePow] at hn ⊢; omega
  simp [decode, decodeBranch, reads, e]
theorem bgeu (x : BitVec 5) (y : BitVec 5) (o : BitVec 13) : Statement (.bgeu x y o) := by
  intro _ w hw
  have h0 := x.isLt; have h1 := y.isLt; have h2 := o.isLt
  have hn := toNat_of_encode hw rfl (by omega)
  have e : fld w 31 26 = 14 ∧ fld w 25 21 = x.toNat ∧ fld w 20 16 = y.toNat ∧ fld w 15 13 = 5 ∧ fld w 12 0 = o.toNat := by
    simp only [fld, Nat.reduceSub, Nat.reduceAdd, Nat.reducePow] at hn ⊢; omega
  simp [decode, decodeBranch, reads, e]
theorem beos (o : BitVec 13) : Statement (.beos o) := by
  intro _ w hw
  have h0 := o.isLt
  have hn := toNat_of_encode hw rfl (by omega)
  have e : fld w 31 26 = 14 ∧ fld w 25 16 = 0 ∧ fld w 15 13 = 6 ∧ fld w 12 0 = o.toNat := by
    simp only [fld, Nat.reduceSub, Nat.reduceAdd, Nat.reducePow] at hn ⊢; omega
  simp [decode, decodeBranch, guardZero, reads, e]
theorem jal (d : BitVec 5) (o : BitVec 21) : Statement (.jal d o) := by
  intro _ w hw
  have h0 := d.isLt; have h1 := o.isLt
  have hn := toNat_of_encode hw rfl (by omega)
  have e : fld w 31 26 = 15 ∧ fld w 25 21 = d.toNat ∧ fld w 20 0 = o.toNat := by
    simp only [fld, Nat.reduceSub, Nat.reduceAdd, Nat.reducePow] at hn ⊢; omega
  simp [decode, reads, e]
theorem jalr (d : BitVec 5) (a : BitVec 5) (i : BitVec 16) : Statement (.jalr d a i) := by
  intro _ w hw
  have h0 := d.isLt; have h1 := a.isLt; have h2 := i.isLt
  have hn := toNat_of_encode hw rfl (by omega)
  have e : fld w 31 26 = 16 ∧ fld w 25 21 = d.toNat ∧ fld w 20 16 = a.toNat ∧ fld w 15 0 = i.toNat := by
    simp only [fld, Nat.reduceSub, Nat.reduceAdd, Nat.reducePow] at hn ⊢; omega
  simp [decode, reads, e]
theorem vld (d : BitVec 5) (a : BitVec 5) : Statement (.vld d a) := by
  intro _ w hw
  have h0 := d.isLt; have h1 := a.isLt
  have hn := toNat_of_encode hw rfl (by omega)
  have e : fld w 31 26 = 24 ∧ fld w 25 21 = d.toNat ∧ fld w 20 16 = a.toNat ∧ fld w 15 4 = 0 ∧ fld w 3 0 = 0 := by
    simp only [fld, Nat.reduceSub, Nat.reduceAdd, Nat.reducePow] at hn ⊢; omega
  simp [decode, decodeVmem, guardZero, reads, e]
theorem vlds (d : BitVec 5) (a : BitVec 5) : Statement (.vlds d a) := by
  intro _ w hw
  have h0 := d.isLt; have h1 := a.isLt
  have hn := toNat_of_encode hw rfl (by omega)
  have e : fld w 31 26 = 24 ∧ fld w 25 21 = d.toNat ∧ fld w 20 16 = a.toNat ∧ fld w 15 4 = 0 ∧ fld w 3 0 = 1 := by
    simp only [fld, Nat.reduceSub, Nat.reduceAdd, Nat.reducePow] at hn ⊢; omega
  simp [decode, decodeVmem, guardZero, reads, e]
theorem vldx (d : BitVec 5) (a : BitVec 5) (b : BitVec 5) : Statement (.vldx d a b) := by
  intro _ w hw
  have h0 := d.isLt; have h1 := a.isLt; have h2 := b.isLt
  have hn := toNat_of_encode hw rfl (by omega)
  have e : fld w 31 26 = 24 ∧ fld w 25 21 = d.toNat ∧ fld w 20 16 = a.toNat ∧ fld w 15 11 = b.toNat ∧ fld w 10 4 = 0 ∧ fld w 3 0 = 2 := by
    simp only [fld, Nat.reduceSub, Nat.reduceAdd, Nat.reducePow] at hn ⊢; omega
  simp [decode, decodeVmem, guardZero, reads, e]
theorem vldseg (d : BitVec 5) (a : BitVec 5) : Statement (.vldseg d a) := by
  intro _ w hw
  have h0 := d.isLt; have h1 := a.isLt
  have hn := toNat_of_encode hw rfl (by omega)
  have e : fld w 31 26 = 24 ∧ fld w 25 21 = d.toNat ∧ fld w 20 16 = a.toNat ∧ fld w 15 4 = 0 ∧ fld w 3 0 = 3 := by
    simp only [fld, Nat.reduceSub, Nat.reduceAdd, Nat.reducePow] at hn ⊢; omega
  simp [decode, decodeVmem, guardZero, reads, e]
theorem vst (d : BitVec 5) (a : BitVec 5) : Statement (.vst d a) := by
  intro _ w hw
  have h0 := d.isLt; have h1 := a.isLt
  have hn := toNat_of_encode hw rfl (by omega)
  have e : fld w 31 26 = 24 ∧ fld w 25 21 = d.toNat ∧ fld w 20 16 = a.toNat ∧ fld w 15 4 = 0 ∧ fld w 3 0 = 8 := by
    simp only [fld, Nat.reduceSub, Nat.reduceAdd, Nat.reducePow] at hn ⊢; omega
  simp [decode, decodeVmem, guardZero, reads, e]
theorem vsts (d : BitVec 5) (a : BitVec 5) : Statement (.vsts d a) := by
  intro _ w hw
  have h0 := d.isLt; have h1 := a.isLt
  have hn := toNat_of_encode hw rfl (by omega)
  have e : fld w 31 26 = 24 ∧ fld w 25 21 = d.toNat ∧ fld w 20 16 = a.toNat ∧ fld w 15 4 = 0 ∧ fld w 3 0 = 9 := by
    simp only [fld, Nat.reduceSub, Nat.reduceAdd, Nat.reducePow] at hn ⊢; omega
  simp [decode, decodeVmem, guardZero, reads, e]
theorem vstx (d : BitVec 5) (a : BitVec 5) (b : BitVec 5) : Statement (.vstx d a b) := by
  intro _ w hw
  have h0 := d.isLt; have h1 := a.isLt; have h2 := b.isLt
  have hn := toNat_of_encode hw rfl (by omega)
  have e : fld w 31 26 = 24 ∧ fld w 25 21 = d.toNat ∧ fld w 20 16 = a.toNat ∧ fld w 15 11 = b.toNat ∧ fld w 10 4 = 0 ∧ fld w 3 0 = 10 := by
    simp only [fld, Nat.reduceSub, Nat.reduceAdd, Nat.reducePow] at hn ⊢; omega
  simp [decode, decodeVmem, guardZero, reads, e]
theorem vstseg (d : BitVec 5) (a : BitVec 5) : Statement (.vstseg d a) := by
  intro _ w hw
  have h0 := d.isLt; have h1 := a.isLt
  have hn := toNat_of_encode hw rfl (by omega)
  have e : fld w 31 26 = 24 ∧ fld w 25 21 = d.toNat ∧ fld w 20 16 = a.toNat ∧ fld w 15 4 = 0 ∧ fld w 3 0 = 11 := by
    simp only [fld, Nat.reduceSub, Nat.reduceAdd, Nat.reducePow] at hn ⊢; omega
  simp [decode, decodeVmem, guardZero, reads, e]
theorem vadd (d : BitVec 5) (a : BitVec 5) (b : BitVec 5) (r : Rep) : Statement (.vadd d a b r) := by
  intro _ w hw
  have h0 := d.isLt; have h1 := a.isLt; have h2 := b.isLt; have h3 := Rep_lt r
  have hn := toNat_of_encode hw rfl (by omega)
  have e : fld w 31 26 = 25 ∧ fld w 25 21 = d.toNat ∧ fld w 20 16 = a.toNat ∧ fld w 15 11 = b.toNat ∧ fld w 10 8 = r.toBits ∧ fld w 7 0 = 0 := by
    simp only [fld, Nat.reduceSub, Nat.reduceAdd, Nat.reducePow] at hn ⊢; omega
  simp [decode, decodeVint, guardSome, reads, e]
theorem vsub (d : BitVec 5) (a : BitVec 5) (b : BitVec 5) (r : Rep) : Statement (.vsub d a b r) := by
  intro _ w hw
  have h0 := d.isLt; have h1 := a.isLt; have h2 := b.isLt; have h3 := Rep_lt r
  have hn := toNat_of_encode hw rfl (by omega)
  have e : fld w 31 26 = 25 ∧ fld w 25 21 = d.toNat ∧ fld w 20 16 = a.toNat ∧ fld w 15 11 = b.toNat ∧ fld w 10 8 = r.toBits ∧ fld w 7 0 = 1 := by
    simp only [fld, Nat.reduceSub, Nat.reduceAdd, Nat.reducePow] at hn ⊢; omega
  simp [decode, decodeVint, guardSome, reads, e]
theorem vmul (d : BitVec 5) (a : BitVec 5) (b : BitVec 5) (r : Rep) : Statement (.vmul d a b r) := by
  intro _ w hw
  have h0 := d.isLt; have h1 := a.isLt; have h2 := b.isLt; have h3 := Rep_lt r
  have hn := toNat_of_encode hw rfl (by omega)
  have e : fld w 31 26 = 25 ∧ fld w 25 21 = d.toNat ∧ fld w 20 16 = a.toNat ∧ fld w 15 11 = b.toNat ∧ fld w 10 8 = r.toBits ∧ fld w 7 0 = 2 := by
    simp only [fld, Nat.reduceSub, Nat.reduceAdd, Nat.reducePow] at hn ⊢; omega
  simp [decode, decodeVint, guardSome, reads, e]
theorem vmulh (d : BitVec 5) (a : BitVec 5) (b : BitVec 5) (r : Rep) : Statement (.vmulh d a b r) := by
  intro _ w hw
  have h0 := d.isLt; have h1 := a.isLt; have h2 := b.isLt; have h3 := Rep_lt r
  have hn := toNat_of_encode hw rfl (by omega)
  have e : fld w 31 26 = 25 ∧ fld w 25 21 = d.toNat ∧ fld w 20 16 = a.toNat ∧ fld w 15 11 = b.toNat ∧ fld w 10 8 = r.toBits ∧ fld w 7 0 = 3 := by
    simp only [fld, Nat.reduceSub, Nat.reduceAdd, Nat.reducePow] at hn ⊢; omega
  simp [decode, decodeVint, guardSome, reads, e]
theorem vmadd (d : BitVec 5) (a : BitVec 5) (b : BitVec 5) (r : Rep) : Statement (.vmadd d a b r) := by
  intro _ w hw
  have h0 := d.isLt; have h1 := a.isLt; have h2 := b.isLt; have h3 := Rep_lt r
  have hn := toNat_of_encode hw rfl (by omega)
  have e : fld w 31 26 = 25 ∧ fld w 25 21 = d.toNat ∧ fld w 20 16 = a.toNat ∧ fld w 15 11 = b.toNat ∧ fld w 10 8 = r.toBits ∧ fld w 7 0 = 4 := by
    simp only [fld, Nat.reduceSub, Nat.reduceAdd, Nat.reducePow] at hn ⊢; omega
  simp [decode, decodeVint, guardSome, reads, e]
theorem vand (d : BitVec 5) (a : BitVec 5) (b : BitVec 5) (r : Rep) : Statement (.vand d a b r) := by
  intro _ w hw
  have h0 := d.isLt; have h1 := a.isLt; have h2 := b.isLt; have h3 := Rep_lt r
  have hn := toNat_of_encode hw rfl (by omega)
  have e : fld w 31 26 = 25 ∧ fld w 25 21 = d.toNat ∧ fld w 20 16 = a.toNat ∧ fld w 15 11 = b.toNat ∧ fld w 10 8 = r.toBits ∧ fld w 7 0 = 5 := by
    simp only [fld, Nat.reduceSub, Nat.reduceAdd, Nat.reducePow] at hn ⊢; omega
  simp [decode, decodeVint, guardSome, reads, e]
theorem vor (d : BitVec 5) (a : BitVec 5) (b : BitVec 5) (r : Rep) : Statement (.vor d a b r) := by
  intro _ w hw
  have h0 := d.isLt; have h1 := a.isLt; have h2 := b.isLt; have h3 := Rep_lt r
  have hn := toNat_of_encode hw rfl (by omega)
  have e : fld w 31 26 = 25 ∧ fld w 25 21 = d.toNat ∧ fld w 20 16 = a.toNat ∧ fld w 15 11 = b.toNat ∧ fld w 10 8 = r.toBits ∧ fld w 7 0 = 6 := by
    simp only [fld, Nat.reduceSub, Nat.reduceAdd, Nat.reducePow] at hn ⊢; omega
  simp [decode, decodeVint, guardSome, reads, e]
theorem vxor (d : BitVec 5) (a : BitVec 5) (b : BitVec 5) (r : Rep) : Statement (.vxor d a b r) := by
  intro _ w hw
  have h0 := d.isLt; have h1 := a.isLt; have h2 := b.isLt; have h3 := Rep_lt r
  have hn := toNat_of_encode hw rfl (by omega)
  have e : fld w 31 26 = 25 ∧ fld w 25 21 = d.toNat ∧ fld w 20 16 = a.toNat ∧ fld w 15 11 = b.toNat ∧ fld w 10 8 = r.toBits ∧ fld w 7 0 = 7 := by
    simp only [fld, Nat.reduceSub, Nat.reduceAdd, Nat.reducePow] at hn ⊢; omega
  simp [decode, decodeVint, guardSome, reads, e]
theorem vsll (d : BitVec 5) (a : BitVec 5) (b : BitVec 5) (r : Rep) : Statement (.vsll d a b r) := by
  intro _ w hw
  have h0 := d.isLt; have h1 := a.isLt; have h2 := b.isLt; have h3 := Rep_lt r
  have hn := toNat_of_encode hw rfl (by omega)
  have e : fld w 31 26 = 25 ∧ fld w 25 21 = d.toNat ∧ fld w 20 16 = a.toNat ∧ fld w 15 11 = b.toNat ∧ fld w 10 8 = r.toBits ∧ fld w 7 0 = 8 := by
    simp only [fld, Nat.reduceSub, Nat.reduceAdd, Nat.reducePow] at hn ⊢; omega
  simp [decode, decodeVint, guardSome, reads, e]
theorem vsrl (d : BitVec 5) (a : BitVec 5) (b : BitVec 5) (r : Rep) : Statement (.vsrl d a b r) := by
  intro _ w hw
  have h0 := d.isLt; have h1 := a.isLt; have h2 := b.isLt; have h3 := Rep_lt r
  have hn := toNat_of_encode hw rfl (by omega)
  have e : fld w 31 26 = 25 ∧ fld w 25 21 = d.toNat ∧ fld w 20 16 = a.toNat ∧ fld w 15 11 = b.toNat ∧ fld w 10 8 = r.toBits ∧ fld w 7 0 = 9 := by
    simp only [fld, Nat.reduceSub, Nat.reduceAdd, Nat.reducePow] at hn ⊢; omega
  simp [decode, decodeVint, guardSome, reads, e]
theorem vsra (d : BitVec 5) (a : BitVec 5) (b : BitVec 5) (r : Rep) : Statement (.vsra d a b r) := by
  intro _ w hw
  have h0 := d.isLt; have h1 := a.isLt; have h2 := b.isLt; have h3 := Rep_lt r
  have hn := toNat_of_encode hw rfl (by omega)
  have e : fld w 31 26 = 25 ∧ fld w 25 21 = d.toNat ∧ fld w 20 16 = a.toNat ∧ fld w 15 11 = b.toNat ∧ fld w 10 8 = r.toBits ∧ fld w 7 0 = 10 := by
    simp only [fld, Nat.reduceSub, Nat.reduceAdd, Nat.reducePow] at hn ⊢; omega
  simp [decode, decodeVint, guardSome, reads, e]
theorem vmin (d : BitVec 5) (a : BitVec 5) (b : BitVec 5) (r : Rep) : Statement (.vmin d a b r) := by
  intro _ w hw
  have h0 := d.isLt; have h1 := a.isLt; have h2 := b.isLt; have h3 := Rep_lt r
  have hn := toNat_of_encode hw rfl (by omega)
  have e : fld w 31 26 = 25 ∧ fld w 25 21 = d.toNat ∧ fld w 20 16 = a.toNat ∧ fld w 15 11 = b.toNat ∧ fld w 10 8 = r.toBits ∧ fld w 7 0 = 11 := by
    simp only [fld, Nat.reduceSub, Nat.reduceAdd, Nat.reducePow] at hn ⊢; omega
  simp [decode, decodeVint, guardSome, reads, e]
theorem vmax (d : BitVec 5) (a : BitVec 5) (b : BitVec 5) (r : Rep) : Statement (.vmax d a b r) := by
  intro _ w hw
  have h0 := d.isLt; have h1 := a.isLt; have h2 := b.isLt; have h3 := Rep_lt r
  have hn := toNat_of_encode hw rfl (by omega)
  have e : fld w 31 26 = 25 ∧ fld w 25 21 = d.toNat ∧ fld w 20 16 = a.toNat ∧ fld w 15 11 = b.toNat ∧ fld w 10 8 = r.toBits ∧ fld w 7 0 = 12 := by
    simp only [fld, Nat.reduceSub, Nat.reduceAdd, Nat.reducePow] at hn ⊢; omega
  simp [decode, decodeVint, guardSome, reads, e]
theorem vminu (d : BitVec 5) (a : BitVec 5) (b : BitVec 5) (r : Rep) : Statement (.vminu d a b r) := by
  intro _ w hw
  have h0 := d.isLt; have h1 := a.isLt; have h2 := b.isLt; have h3 := Rep_lt r
  have hn := toNat_of_encode hw rfl (by omega)
  have e : fld w 31 26 = 25 ∧ fld w 25 21 = d.toNat ∧ fld w 20 16 = a.toNat ∧ fld w 15 11 = b.toNat ∧ fld w 10 8 = r.toBits ∧ fld w 7 0 = 13 := by
    simp only [fld, Nat.reduceSub, Nat.reduceAdd, Nat.reducePow] at hn ⊢; omega
  simp [decode, decodeVint, guardSome, reads, e]
theorem vmaxu (d : BitVec 5) (a : BitVec 5) (b : BitVec 5) (r : Rep) : Statement (.vmaxu d a b r) := by
  intro _ w hw
  have h0 := d.isLt; have h1 := a.isLt; have h2 := b.isLt; have h3 := Rep_lt r
  have hn := toNat_of_encode hw rfl (by omega)
  have e : fld w 31 26 = 25 ∧ fld w 25 21 = d.toNat ∧ fld w 20 16 = a.toNat ∧ fld w 15 11 = b.toNat ∧ fld w 10 8 = r.toBits ∧ fld w 7 0 = 14 := by
    simp only [fld, Nat.reduceSub, Nat.reduceAdd, Nat.reducePow] at hn ⊢; omega
  simp [decode, decodeVint, guardSome, reads, e]
theorem vsadd (d : BitVec 5) (a : BitVec 5) (b : BitVec 5) (r : Rep) : Statement (.vsadd d a b r) := by
  intro _ w hw
  have h0 := d.isLt; have h1 := a.isLt; have h2 := b.isLt; have h3 := Rep_lt r
  have hn := toNat_of_encode hw rfl (by omega)
  have e : fld w 31 26 = 25 ∧ fld w 25 21 = d.toNat ∧ fld w 20 16 = a.toNat ∧ fld w 15 11 = b.toNat ∧ fld w 10 8 = r.toBits ∧ fld w 7 0 = 15 := by
    simp only [fld, Nat.reduceSub, Nat.reduceAdd, Nat.reducePow] at hn ⊢; omega
  simp [decode, decodeVint, guardSome, reads, e]
theorem vssub (d : BitVec 5) (a : BitVec 5) (b : BitVec 5) (r : Rep) : Statement (.vssub d a b r) := by
  intro _ w hw
  have h0 := d.isLt; have h1 := a.isLt; have h2 := b.isLt; have h3 := Rep_lt r
  have hn := toNat_of_encode hw rfl (by omega)
  have e : fld w 31 26 = 25 ∧ fld w 25 21 = d.toNat ∧ fld w 20 16 = a.toNat ∧ fld w 15 11 = b.toNat ∧ fld w 10 8 = r.toBits ∧ fld w 7 0 = 16 := by
    simp only [fld, Nat.reduceSub, Nat.reduceAdd, Nat.reducePow] at hn ⊢; omega
  simp [decode, decodeVint, guardSome, reads, e]
theorem vabs (d : BitVec 5) (a : BitVec 5) : Statement (.vabs d a) := by
  intro _ w hw
  have h0 := d.isLt; have h1 := a.isLt
  have hn := toNat_of_encode hw rfl (by omega)
  have e : fld w 31 26 = 25 ∧ fld w 25 21 = d.toNat ∧ fld w 20 16 = a.toNat ∧ fld w 15 8 = 0 ∧ fld w 7 0 = 17 := by
    simp only [fld, Nat.reduceSub, Nat.reduceAdd, Nat.reducePow] at hn ⊢; omega
  simp [decode, decodeVint, guardZero, reads, e]
theorem vfadd (d : BitVec 5) (a : BitVec 5) (b : BitVec 5) (r : Rep) : Statement (.vfadd d a b r) := by
  intro _ w hw
  have h0 := d.isLt; have h1 := a.isLt; have h2 := b.isLt; have h3 := Rep_lt r
  have hn := toNat_of_encode hw rfl (by omega)
  have e : fld w 31 26 = 26 ∧ fld w 25 21 = d.toNat ∧ fld w 20 16 = a.toNat ∧ fld w 15 11 = b.toNat ∧ fld w 10 8 = r.toBits ∧ fld w 7 0 = 0 := by
    simp only [fld, Nat.reduceSub, Nat.reduceAdd, Nat.reducePow] at hn ⊢; omega
  simp [decode, decodeVflt, guardSome, reads, e]
theorem vfsub (d : BitVec 5) (a : BitVec 5) (b : BitVec 5) (r : Rep) : Statement (.vfsub d a b r) := by
  intro _ w hw
  have h0 := d.isLt; have h1 := a.isLt; have h2 := b.isLt; have h3 := Rep_lt r
  have hn := toNat_of_encode hw rfl (by omega)
  have e : fld w 31 26 = 26 ∧ fld w 25 21 = d.toNat ∧ fld w 20 16 = a.toNat ∧ fld w 15 11 = b.toNat ∧ fld w 10 8 = r.toBits ∧ fld w 7 0 = 1 := by
    simp only [fld, Nat.reduceSub, Nat.reduceAdd, Nat.reducePow] at hn ⊢; omega
  simp [decode, decodeVflt, guardSome, reads, e]
theorem vfmul (d : BitVec 5) (a : BitVec 5) (b : BitVec 5) (r : Rep) : Statement (.vfmul d a b r) := by
  intro _ w hw
  have h0 := d.isLt; have h1 := a.isLt; have h2 := b.isLt; have h3 := Rep_lt r
  have hn := toNat_of_encode hw rfl (by omega)
  have e : fld w 31 26 = 26 ∧ fld w 25 21 = d.toNat ∧ fld w 20 16 = a.toNat ∧ fld w 15 11 = b.toNat ∧ fld w 10 8 = r.toBits ∧ fld w 7 0 = 2 := by
    simp only [fld, Nat.reduceSub, Nat.reduceAdd, Nat.reducePow] at hn ⊢; omega
  simp [decode, decodeVflt, guardSome, reads, e]
theorem vfma (d : BitVec 5) (a : BitVec 5) (b : BitVec 5) (r : Rep) : Statement (.vfma d a b r) := by
  intro _ w hw
  have h0 := d.isLt; have h1 := a.isLt; have h2 := b.isLt; have h3 := Rep_lt r
  have hn := toNat_of_encode hw rfl (by omega)
  have e : fld w 31 26 = 26 ∧ fld w 25 21 = d.toNat ∧ fld w 20 16 = a.toNat ∧ fld w 15 11 = b.toNat ∧ fld w 10 8 = r.toBits ∧ fld w 7 0 = 3 := by
    simp only [fld, Nat.reduceSub, Nat.reduceAdd, Nat.reducePow] at hn ⊢; omega
  simp [decode, decodeVflt, guardSome, reads, e]
theorem vfnma (d : BitVec 5) (a : BitVec 5) (b : BitVec 5) (r : Rep) : Statement (.vfnma d a b r) := by
  intro _ w hw
  have h0 := d.isLt; have h1 := a.isLt; have h2 := b.isLt; have h3 := Rep_lt r
  have hn := toNat_of_encode hw rfl (by omega)
  have e : fld w 31 26 = 26 ∧ fld w 25 21 = d.toNat ∧ fld w 20 16 = a.toNat ∧ fld w 15 11 = b.toNat ∧ fld w 10 8 = r.toBits ∧ fld w 7 0 = 4 := by
    simp only [fld, Nat.reduceSub, Nat.reduceAdd, Nat.reducePow] at hn ⊢; omega
  simp [decode, decodeVflt, guardSome, reads, e]
theorem vfdiv (d : BitVec 5) (a : BitVec 5) (b : BitVec 5) (r : Rep) : Statement (.vfdiv d a b r) := by
  intro _ w hw
  have h0 := d.isLt; have h1 := a.isLt; have h2 := b.isLt; have h3 := Rep_lt r
  have hn := toNat_of_encode hw rfl (by omega)
  have e : fld w 31 26 = 26 ∧ fld w 25 21 = d.toNat ∧ fld w 20 16 = a.toNat ∧ fld w 15 11 = b.toNat ∧ fld w 10 8 = r.toBits ∧ fld w 7 0 = 5 := by
    simp only [fld, Nat.reduceSub, Nat.reduceAdd, Nat.reducePow] at hn ⊢; omega
  simp [decode, decodeVflt, guardSome, reads, e]
theorem vfsqrt (d : BitVec 5) (a : BitVec 5) : Statement (.vfsqrt d a) := by
  intro _ w hw
  have h0 := d.isLt; have h1 := a.isLt
  have hn := toNat_of_encode hw rfl (by omega)
  have e : fld w 31 26 = 26 ∧ fld w 25 21 = d.toNat ∧ fld w 20 16 = a.toNat ∧ fld w 15 8 = 0 ∧ fld w 7 0 = 6 := by
    simp only [fld, Nat.reduceSub, Nat.reduceAdd, Nat.reducePow] at hn ⊢; omega
  simp [decode, decodeVflt, guardZero, reads, e]
theorem vfmin (d : BitVec 5) (a : BitVec 5) (b : BitVec 5) (r : Rep) : Statement (.vfmin d a b r) := by
  intro _ w hw
  have h0 := d.isLt; have h1 := a.isLt; have h2 := b.isLt; have h3 := Rep_lt r
  have hn := toNat_of_encode hw rfl (by omega)
  have e : fld w 31 26 = 26 ∧ fld w 25 21 = d.toNat ∧ fld w 20 16 = a.toNat ∧ fld w 15 11 = b.toNat ∧ fld w 10 8 = r.toBits ∧ fld w 7 0 = 7 := by
    simp only [fld, Nat.reduceSub, Nat.reduceAdd, Nat.reducePow] at hn ⊢; omega
  simp [decode, decodeVflt, guardSome, reads, e]
theorem vfmax (d : BitVec 5) (a : BitVec 5) (b : BitVec 5) (r : Rep) : Statement (.vfmax d a b r) := by
  intro _ w hw
  have h0 := d.isLt; have h1 := a.isLt; have h2 := b.isLt; have h3 := Rep_lt r
  have hn := toNat_of_encode hw rfl (by omega)
  have e : fld w 31 26 = 26 ∧ fld w 25 21 = d.toNat ∧ fld w 20 16 = a.toNat ∧ fld w 15 11 = b.toNat ∧ fld w 10 8 = r.toBits ∧ fld w 7 0 = 8 := by
    simp only [fld, Nat.reduceSub, Nat.reduceAdd, Nat.reducePow] at hn ⊢; omega
  simp [decode, decodeVflt, guardSome, reads, e]
theorem vfsgn (d : BitVec 5) (a : BitVec 5) (b : BitVec 5) (r : Rep) : Statement (.vfsgn d a b r) := by
  intro _ w hw
  have h0 := d.isLt; have h1 := a.isLt; have h2 := b.isLt; have h3 := Rep_lt r
  have hn := toNat_of_encode hw rfl (by omega)
  have e : fld w 31 26 = 26 ∧ fld w 25 21 = d.toNat ∧ fld w 20 16 = a.toNat ∧ fld w 15 11 = b.toNat ∧ fld w 10 8 = r.toBits ∧ fld w 7 0 = 9 := by
    simp only [fld, Nat.reduceSub, Nat.reduceAdd, Nat.reducePow] at hn ⊢; omega
  simp [decode, decodeVflt, guardSome, reads, e]
theorem vfcvt (d : BitVec 5) (a : BitVec 5) (k : CvtKind) : Statement (.vfcvt d a k) := by
  intro _ w hw
  have h0 := d.isLt; have h1 := a.isLt; have h2 := CvtKind_lt k
  have hn := toNat_of_encode hw rfl (by omega)
  have e : fld w 31 26 = 26 ∧ fld w 25 21 = d.toNat ∧ fld w 20 16 = a.toNat ∧ fld w 15 11 = k.toBits ∧ fld w 10 8 = 0 ∧ fld w 7 0 = 10 := by
    simp only [fld, Nat.reduceSub, Nat.reduceAdd, Nat.reducePow] at hn ⊢; omega
  simp [decode, decodeVflt, guardZero, guardSome, reads, e]
theorem vfcvtSat (d : BitVec 5) (a : BitVec 5) : Statement (.vfcvtSat d a) := by
  intro _ w hw
  have h0 := d.isLt; have h1 := a.isLt
  have hn := toNat_of_encode hw rfl (by omega)
  have e : fld w 31 26 = 26 ∧ fld w 25 21 = d.toNat ∧ fld w 20 16 = a.toNat ∧ fld w 15 11 = 6 ∧ fld w 10 8 = 0 ∧ fld w 7 0 = 11 := by
    simp only [fld, Nat.reduceSub, Nat.reduceAdd, Nat.reducePow] at hn ⊢; omega
  simp [decode, decodeVflt, guardZero, reads, e]
theorem vcmp (d : BitVec 3) (a : BitVec 5) (b : BitVec 5) (r : Rep) (c : ICond) : Statement (.vcmp d a b r c) := by
  intro hv w hw
  have h0 := d.isLt; have h1 := a.isLt; have h2 := b.isLt; have h3 := Rep_lt r; have h4 := ICond_lt c
  have hn := toNat_of_encode hw rfl (by omega)
  cases c with
  | eq =>
    have e : fld w 31 26 = 27 ∧ fld w 25 21 = d.toNat ∧ fld w 20 16 = a.toNat ∧ fld w 15 11 = b.toNat ∧ fld w 10 8 = r.toBits ∧ fld w 7 0 = 0 ∧ fld w 2 0 = 0 := by
      simp only [fld, Nat.reduceSub, Nat.reduceAdd, Nat.reducePow, ICond.toBits] at hn ⊢; omega
    simp [decode, decodeVmask, guardBelow, guardSome, reads, e, h0, ICond.ofBits]
  | ne =>
    have e : fld w 31 26 = 27 ∧ fld w 25 21 = d.toNat ∧ fld w 20 16 = a.toNat ∧ fld w 15 11 = b.toNat ∧ fld w 10 8 = r.toBits ∧ fld w 7 0 = 1 ∧ fld w 2 0 = 1 := by
      simp only [fld, Nat.reduceSub, Nat.reduceAdd, Nat.reducePow, ICond.toBits] at hn ⊢; omega
    simp [decode, decodeVmask, guardBelow, guardSome, reads, e, h0, ICond.ofBits]
  | lt =>
    have e : fld w 31 26 = 27 ∧ fld w 25 21 = d.toNat ∧ fld w 20 16 = a.toNat ∧ fld w 15 11 = b.toNat ∧ fld w 10 8 = r.toBits ∧ fld w 7 0 = 2 ∧ fld w 2 0 = 2 := by
      simp only [fld, Nat.reduceSub, Nat.reduceAdd, Nat.reducePow, ICond.toBits] at hn ⊢; omega
    simp [decode, decodeVmask, guardBelow, guardSome, reads, e, h0, ICond.ofBits]
  | ge =>
    have e : fld w 31 26 = 27 ∧ fld w 25 21 = d.toNat ∧ fld w 20 16 = a.toNat ∧ fld w 15 11 = b.toNat ∧ fld w 10 8 = r.toBits ∧ fld w 7 0 = 3 ∧ fld w 2 0 = 3 := by
      simp only [fld, Nat.reduceSub, Nat.reduceAdd, Nat.reducePow, ICond.toBits] at hn ⊢; omega
    simp [decode, decodeVmask, guardBelow, guardSome, reads, e, h0, ICond.ofBits]
  | ltu =>
    have e : fld w 31 26 = 27 ∧ fld w 25 21 = d.toNat ∧ fld w 20 16 = a.toNat ∧ fld w 15 11 = b.toNat ∧ fld w 10 8 = r.toBits ∧ fld w 7 0 = 4 ∧ fld w 2 0 = 4 := by
      simp only [fld, Nat.reduceSub, Nat.reduceAdd, Nat.reducePow, ICond.toBits] at hn ⊢; omega
    simp [decode, decodeVmask, guardBelow, guardSome, reads, e, h0, ICond.ofBits]
  | geu =>
    have e : fld w 31 26 = 27 ∧ fld w 25 21 = d.toNat ∧ fld w 20 16 = a.toNat ∧ fld w 15 11 = b.toNat ∧ fld w 10 8 = r.toBits ∧ fld w 7 0 = 5 ∧ fld w 2 0 = 5 := by
      simp only [fld, Nat.reduceSub, Nat.reduceAdd, Nat.reducePow, ICond.toBits] at hn ⊢; omega
    simp [decode, decodeVmask, guardBelow, guardSome, reads, e, h0, ICond.ofBits]
theorem vfcmp (d : BitVec 3) (a : BitVec 5) (b : BitVec 5) (r : Rep) (c : FCond) : Statement (.vfcmp d a b r c) := by
  intro hv w hw
  have h0 := d.isLt; have h1 := a.isLt; have h2 := b.isLt; have h3 := Rep_lt r; have h4 := FCond_lt c
  have hn := toNat_of_encode hw rfl (by omega)
  cases c with
  | eq =>
    have e : fld w 31 26 = 27 ∧ fld w 25 21 = d.toNat ∧ fld w 20 16 = a.toNat ∧ fld w 15 11 = b.toNat ∧ fld w 10 8 = r.toBits ∧ fld w 7 0 = 8 ∧ fld w 2 0 = 0 := by
      simp only [fld, Nat.reduceSub, Nat.reduceAdd, Nat.reducePow, FCond.toBits] at hn ⊢; omega
    simp [decode, decodeVmask, guardBelow, guardSome, reads, e, h0, FCond.ofBits]
  | ne =>
    have e : fld w 31 26 = 27 ∧ fld w 25 21 = d.toNat ∧ fld w 20 16 = a.toNat ∧ fld w 15 11 = b.toNat ∧ fld w 10 8 = r.toBits ∧ fld w 7 0 = 9 ∧ fld w 2 0 = 1 := by
      simp only [fld, Nat.reduceSub, Nat.reduceAdd, Nat.reducePow, FCond.toBits] at hn ⊢; omega
    simp [decode, decodeVmask, guardBelow, guardSome, reads, e, h0, FCond.ofBits]
  | lt =>
    have e : fld w 31 26 = 27 ∧ fld w 25 21 = d.toNat ∧ fld w 20 16 = a.toNat ∧ fld w 15 11 = b.toNat ∧ fld w 10 8 = r.toBits ∧ fld w 7 0 = 10 ∧ fld w 2 0 = 2 := by
      simp only [fld, Nat.reduceSub, Nat.reduceAdd, Nat.reducePow, FCond.toBits] at hn ⊢; omega
    simp [decode, decodeVmask, guardBelow, guardSome, reads, e, h0, FCond.ofBits]
  | le =>
    have e : fld w 31 26 = 27 ∧ fld w 25 21 = d.toNat ∧ fld w 20 16 = a.toNat ∧ fld w 15 11 = b.toNat ∧ fld w 10 8 = r.toBits ∧ fld w 7 0 = 11 ∧ fld w 2 0 = 3 := by
      simp only [fld, Nat.reduceSub, Nat.reduceAdd, Nat.reducePow, FCond.toBits] at hn ⊢; omega
    simp [decode, decodeVmask, guardBelow, guardSome, reads, e, h0, FCond.ofBits]
  | un =>
    have e : fld w 31 26 = 27 ∧ fld w 25 21 = d.toNat ∧ fld w 20 16 = a.toNat ∧ fld w 15 11 = b.toNat ∧ fld w 10 8 = r.toBits ∧ fld w 7 0 = 12 ∧ fld w 2 0 = 4 := by
      simp only [fld, Nat.reduceSub, Nat.reduceAdd, Nat.reducePow, FCond.toBits] at hn ⊢; omega
    simp [decode, decodeVmask, guardBelow, guardSome, reads, e, h0, FCond.ofBits]
theorem vmlog (d : BitVec 3) (a : BitVec 3) (b : BitVec 3) (o : MOp) : Statement (.vmlog d a b o) := by
  intro hv w hw
  have h0 := d.isLt; have h1 := a.isLt; have h2 := b.isLt; have h3 := MOp_lt o
  have hn := toNat_of_encode hw rfl (by omega)
  cases o with
  | and =>
    have e : fld w 31 26 = 27 ∧ fld w 25 21 = d.toNat ∧ fld w 20 16 = a.toNat ∧ fld w 15 11 = b.toNat ∧ fld w 10 8 = 0 ∧ fld w 7 0 = 16 ∧ fld w 2 0 = 0 := by
      simp only [fld, Nat.reduceSub, Nat.reduceAdd, Nat.reducePow, MOp.toBits] at hn ⊢; omega
    simp [decode, decodeVmask, guardZero, guardBelow, guardSome, reads, e, h0, h1, h2, MOp.ofBits]
  | or =>
    have e : fld w 31 26 = 27 ∧ fld w 25 21 = d.toNat ∧ fld w 20 16 = a.toNat ∧ fld w 15 11 = b.toNat ∧ fld w 10 8 = 0 ∧ fld w 7 0 = 17 ∧ fld w 2 0 = 1 := by
      simp only [fld, Nat.reduceSub, Nat.reduceAdd, Nat.reducePow, MOp.toBits] at hn ⊢; omega
    simp [decode, decodeVmask, guardZero, guardBelow, guardSome, reads, e, h0, h1, h2, MOp.ofBits]
  | xor =>
    have e : fld w 31 26 = 27 ∧ fld w 25 21 = d.toNat ∧ fld w 20 16 = a.toNat ∧ fld w 15 11 = b.toNat ∧ fld w 10 8 = 0 ∧ fld w 7 0 = 18 ∧ fld w 2 0 = 2 := by
      simp only [fld, Nat.reduceSub, Nat.reduceAdd, Nat.reducePow, MOp.toBits] at hn ⊢; omega
    simp [decode, decodeVmask, guardZero, guardBelow, guardSome, reads, e, h0, h1, h2, MOp.ofBits]
  | andn =>
    have e : fld w 31 26 = 27 ∧ fld w 25 21 = d.toNat ∧ fld w 20 16 = a.toNat ∧ fld w 15 11 = b.toNat ∧ fld w 10 8 = 0 ∧ fld w 7 0 = 19 ∧ fld w 2 0 = 3 := by
      simp only [fld, Nat.reduceSub, Nat.reduceAdd, Nat.reducePow, MOp.toBits] at hn ⊢; omega
    simp [decode, decodeVmask, guardZero, guardBelow, guardSome, reads, e, h0, h1, h2, MOp.ofBits]
  | orn =>
    have e : fld w 31 26 = 27 ∧ fld w 25 21 = d.toNat ∧ fld w 20 16 = a.toNat ∧ fld w 15 11 = b.toNat ∧ fld w 10 8 = 0 ∧ fld w 7 0 = 20 ∧ fld w 2 0 = 4 := by
      simp only [fld, Nat.reduceSub, Nat.reduceAdd, Nat.reducePow, MOp.toBits] at hn ⊢; omega
    simp [decode, decodeVmask, guardZero, guardBelow, guardSome, reads, e, h0, h1, h2, MOp.ofBits]
  | nand =>
    have e : fld w 31 26 = 27 ∧ fld w 25 21 = d.toNat ∧ fld w 20 16 = a.toNat ∧ fld w 15 11 = b.toNat ∧ fld w 10 8 = 0 ∧ fld w 7 0 = 21 ∧ fld w 2 0 = 5 := by
      simp only [fld, Nat.reduceSub, Nat.reduceAdd, Nat.reducePow, MOp.toBits] at hn ⊢; omega
    simp [decode, decodeVmask, guardZero, guardBelow, guardSome, reads, e, h0, h1, h2, MOp.ofBits]
  | nor =>
    have e : fld w 31 26 = 27 ∧ fld w 25 21 = d.toNat ∧ fld w 20 16 = a.toNat ∧ fld w 15 11 = b.toNat ∧ fld w 10 8 = 0 ∧ fld w 7 0 = 22 ∧ fld w 2 0 = 6 := by
      simp only [fld, Nat.reduceSub, Nat.reduceAdd, Nat.reducePow, MOp.toBits] at hn ⊢; omega
    simp [decode, decodeVmask, guardZero, guardBelow, guardSome, reads, e, h0, h1, h2, MOp.ofBits]
  | xnor =>
    have e : fld w 31 26 = 27 ∧ fld w 25 21 = d.toNat ∧ fld w 20 16 = a.toNat ∧ fld w 15 11 = b.toNat ∧ fld w 10 8 = 0 ∧ fld w 7 0 = 23 ∧ fld w 2 0 = 7 := by
      simp only [fld, Nat.reduceSub, Nat.reduceAdd, Nat.reducePow, MOp.toBits] at hn ⊢; omega
    simp [decode, decodeVmask, guardZero, guardBelow, guardSome, reads, e, h0, h1, h2, MOp.ofBits]
theorem vmpop (d : BitVec 5) (a : BitVec 3) : Statement (.vmpop d a) := by
  intro _ w hw
  have h0 := d.isLt; have h1 := a.isLt
  have hn := toNat_of_encode hw rfl (by omega)
  have e : fld w 31 26 = 27 ∧ fld w 25 21 = d.toNat ∧ fld w 20 16 = a.toNat ∧ fld w 15 8 = 0 ∧ fld w 7 0 = 32 := by
    simp only [fld, Nat.reduceSub, Nat.reduceAdd, Nat.reducePow] at hn ⊢; omega
  simp [decode, decodeVmask, guardZero, guardBelow, reads, e, h1]
theorem vmfirst (d : BitVec 5) (a : BitVec 3) : Statement (.vmfirst d a) := by
  intro _ w hw
  have h0 := d.isLt; have h1 := a.isLt
  have hn := toNat_of_encode hw rfl (by omega)
  have e : fld w 31 26 = 27 ∧ fld w 25 21 = d.toNat ∧ fld w 20 16 = a.toNat ∧ fld w 15 8 = 0 ∧ fld w 7 0 = 33 := by
    simp only [fld, Nat.reduceSub, Nat.reduceAdd, Nat.reducePow] at hn ⊢; omega
  simp [decode, decodeVmask, guardZero, guardBelow, reads, e, h1]
theorem vmerge (d : BitVec 5) (a : BitVec 5) (b : BitVec 5) (r : Rep) : Statement (.vmerge d a b r) := by
  intro _ w hw
  have h0 := d.isLt; have h1 := a.isLt; have h2 := b.isLt; have h3 := Rep_lt r
  have hn := toNat_of_encode hw rfl (by omega)
  have e : fld w 31 26 = 27 ∧ fld w 25 21 = d.toNat ∧ fld w 20 16 = a.toNat ∧ fld w 15 11 = b.toNat ∧ fld w 10 8 = r.toBits ∧ fld w 7 0 = 34 := by
    simp only [fld, Nat.reduceSub, Nat.reduceAdd, Nat.reducePow] at hn ⊢; omega
  simp [decode, decodeVmask, guardSome, reads, e]
theorem vcompress (d : BitVec 5) (a : BitVec 5) : Statement (.vcompress d a) := by
  intro _ w hw
  have h0 := d.isLt; have h1 := a.isLt
  have hn := toNat_of_encode hw rfl (by omega)
  have e : fld w 31 26 = 27 ∧ fld w 25 21 = d.toNat ∧ fld w 20 16 = a.toNat ∧ fld w 15 8 = 0 ∧ fld w 7 0 = 35 := by
    simp only [fld, Nat.reduceSub, Nat.reduceAdd, Nat.reducePow] at hn ⊢; omega
  simp [decode, decodeVmask, guardZero, reads, e]
theorem vexpand (d : BitVec 5) (a : BitVec 5) : Statement (.vexpand d a) := by
  intro _ w hw
  have h0 := d.isLt; have h1 := a.isLt
  have hn := toNat_of_encode hw rfl (by omega)
  have e : fld w 31 26 = 27 ∧ fld w 25 21 = d.toNat ∧ fld w 20 16 = a.toNat ∧ fld w 15 8 = 0 ∧ fld w 7 0 = 36 := by
    simp only [fld, Nat.reduceSub, Nat.reduceAdd, Nat.reducePow] at hn ⊢; omega
  simp [decode, decodeVmask, guardZero, reads, e]
theorem viota (d : BitVec 5) (a : BitVec 3) : Statement (.viota d a) := by
  intro _ w hw
  have h0 := d.isLt; have h1 := a.isLt
  have hn := toNat_of_encode hw rfl (by omega)
  have e : fld w 31 26 = 27 ∧ fld w 25 21 = d.toNat ∧ fld w 20 16 = a.toNat ∧ fld w 15 8 = 0 ∧ fld w 7 0 = 37 := by
    simp only [fld, Nat.reduceSub, Nat.reduceAdd, Nat.reducePow] at hn ⊢; omega
  simp [decode, decodeVmask, guardZero, guardBelow, reads, e, h1]
theorem vslideup (d : BitVec 5) (a : BitVec 5) (b : BitVec 5) : Statement (.vslideup d a b) := by
  intro _ w hw
  have h0 := d.isLt; have h1 := a.isLt; have h2 := b.isLt
  have hn := toNat_of_encode hw rfl (by omega)
  have e : fld w 31 26 = 28 ∧ fld w 25 21 = d.toNat ∧ fld w 20 16 = a.toNat ∧ fld w 15 11 = b.toNat ∧ fld w 10 8 = 0 ∧ fld w 7 0 = 0 := by
    simp only [fld, Nat.reduceSub, Nat.reduceAdd, Nat.reducePow] at hn ⊢; omega
  simp [decode, decodeVmove, guardZero, reads, e]
theorem vslidedn (d : BitVec 5) (a : BitVec 5) (b : BitVec 5) : Statement (.vslidedn d a b) := by
  intro _ w hw
  have h0 := d.isLt; have h1 := a.isLt; have h2 := b.isLt
  have hn := toNat_of_encode hw rfl (by omega)
  have e : fld w 31 26 = 28 ∧ fld w 25 21 = d.toNat ∧ fld w 20 16 = a.toNat ∧ fld w 15 11 = b.toNat ∧ fld w 10 8 = 0 ∧ fld w 7 0 = 1 := by
    simp only [fld, Nat.reduceSub, Nat.reduceAdd, Nat.reducePow] at hn ⊢; omega
  simp [decode, decodeVmove, guardZero, reads, e]
theorem vperm (d : BitVec 5) (a : BitVec 5) (b : BitVec 5) (r : Rep) : Statement (.vperm d a b r) := by
  intro _ w hw
  have h0 := d.isLt; have h1 := a.isLt; have h2 := b.isLt; have h3 := Rep_lt r
  have hn := toNat_of_encode hw rfl (by omega)
  have e : fld w 31 26 = 28 ∧ fld w 25 21 = d.toNat ∧ fld w 20 16 = a.toNat ∧ fld w 15 11 = b.toNat ∧ fld w 10 8 = r.toBits ∧ fld w 7 0 = 2 := by
    simp only [fld, Nat.reduceSub, Nat.reduceAdd, Nat.reducePow] at hn ⊢; omega
  simp [decode, decodeVmove, guardSome, reads, e]
theorem vmv (d : BitVec 5) (a : BitVec 5) : Statement (.vmv d a) := by
  intro _ w hw
  have h0 := d.isLt; have h1 := a.isLt
  have hn := toNat_of_encode hw rfl (by omega)
  have e : fld w 31 26 = 28 ∧ fld w 25 21 = d.toNat ∧ fld w 20 16 = a.toNat ∧ fld w 15 8 = 0 ∧ fld w 7 0 = 3 := by
    simp only [fld, Nat.reduceSub, Nat.reduceAdd, Nat.reducePow] at hn ⊢; omega
  simp [decode, decodeVmove, guardZero, reads, e]
theorem vmvsv (d : BitVec 5) (a : BitVec 5) : Statement (.vmvsv d a) := by
  intro _ w hw
  have h0 := d.isLt; have h1 := a.isLt
  have hn := toNat_of_encode hw rfl (by omega)
  have e : fld w 31 26 = 28 ∧ fld w 25 21 = d.toNat ∧ fld w 20 16 = a.toNat ∧ fld w 15 8 = 0 ∧ fld w 7 0 = 4 := by
    simp only [fld, Nat.reduceSub, Nat.reduceAdd, Nat.reducePow] at hn ⊢; omega
  simp [decode, decodeVmove, guardZero, reads, e]
theorem vmvvs (d : BitVec 5) (a : BitVec 5) (b : BitVec 5) : Statement (.vmvvs d a b) := by
  intro _ w hw
  have h0 := d.isLt; have h1 := a.isLt; have h2 := b.isLt
  have hn := toNat_of_encode hw rfl (by omega)
  have e : fld w 31 26 = 28 ∧ fld w 25 21 = d.toNat ∧ fld w 20 16 = a.toNat ∧ fld w 15 11 = b.toNat ∧ fld w 10 8 = 0 ∧ fld w 7 0 = 5 := by
    simp only [fld, Nat.reduceSub, Nat.reduceAdd, Nat.reducePow] at hn ⊢; omega
  simp [decode, decodeVmove, guardZero, reads, e]
theorem vredsum (d : BitVec 5) (a : BitVec 5) (b : BitVec 5) : Statement (.vredsum d a b) := by
  intro _ w hw
  have h0 := d.isLt; have h1 := a.isLt; have h2 := b.isLt
  have hn := toNat_of_encode hw rfl (by omega)
  have e : fld w 31 26 = 29 ∧ fld w 25 21 = d.toNat ∧ fld w 20 16 = a.toNat ∧ fld w 15 11 = b.toNat ∧ fld w 10 8 = 0 ∧ fld w 7 0 = 0 := by
    simp only [fld, Nat.reduceSub, Nat.reduceAdd, Nat.reducePow] at hn ⊢; omega
  simp [decode, decodeVred, guardZero, reads, e]
theorem vredmin (d : BitVec 5) (a : BitVec 5) (b : BitVec 5) : Statement (.vredmin d a b) := by
  intro _ w hw
  have h0 := d.isLt; have h1 := a.isLt; have h2 := b.isLt
  have hn := toNat_of_encode hw rfl (by omega)
  have e : fld w 31 26 = 29 ∧ fld w 25 21 = d.toNat ∧ fld w 20 16 = a.toNat ∧ fld w 15 11 = b.toNat ∧ fld w 10 8 = 0 ∧ fld w 7 0 = 1 := by
    simp only [fld, Nat.reduceSub, Nat.reduceAdd, Nat.reducePow] at hn ⊢; omega
  simp [decode, decodeVred, guardZero, reads, e]
theorem vredmax (d : BitVec 5) (a : BitVec 5) (b : BitVec 5) : Statement (.vredmax d a b) := by
  intro _ w hw
  have h0 := d.isLt; have h1 := a.isLt; have h2 := b.isLt
  have hn := toNat_of_encode hw rfl (by omega)
  have e : fld w 31 26 = 29 ∧ fld w 25 21 = d.toNat ∧ fld w 20 16 = a.toNat ∧ fld w 15 11 = b.toNat ∧ fld w 10 8 = 0 ∧ fld w 7 0 = 2 := by
    simp only [fld, Nat.reduceSub, Nat.reduceAdd, Nat.reducePow] at hn ⊢; omega
  simp [decode, decodeVred, guardZero, reads, e]
theorem vfredsum (d : BitVec 5) (a : BitVec 5) (b : BitVec 5) : Statement (.vfredsum d a b) := by
  intro _ w hw
  have h0 := d.isLt; have h1 := a.isLt; have h2 := b.isLt
  have hn := toNat_of_encode hw rfl (by omega)
  have e : fld w 31 26 = 29 ∧ fld w 25 21 = d.toNat ∧ fld w 20 16 = a.toNat ∧ fld w 15 11 = b.toNat ∧ fld w 10 8 = 0 ∧ fld w 7 0 = 8 := by
    simp only [fld, Nat.reduceSub, Nat.reduceAdd, Nat.reducePow] at hn ⊢; omega
  simp [decode, decodeVred, guardZero, reads, e]
theorem vfredmin (d : BitVec 5) (a : BitVec 5) (b : BitVec 5) : Statement (.vfredmin d a b) := by
  intro _ w hw
  have h0 := d.isLt; have h1 := a.isLt; have h2 := b.isLt
  have hn := toNat_of_encode hw rfl (by omega)
  have e : fld w 31 26 = 29 ∧ fld w 25 21 = d.toNat ∧ fld w 20 16 = a.toNat ∧ fld w 15 11 = b.toNat ∧ fld w 10 8 = 0 ∧ fld w 7 0 = 9 := by
    simp only [fld, Nat.reduceSub, Nat.reduceAdd, Nat.reducePow] at hn ⊢; omega
  simp [decode, decodeVred, guardZero, reads, e]
theorem vfredmax (d : BitVec 5) (a : BitVec 5) (b : BitVec 5) : Statement (.vfredmax d a b) := by
  intro _ w hw
  have h0 := d.isLt; have h1 := a.isLt; have h2 := b.isLt
  have hn := toNat_of_encode hw rfl (by omega)
  have e : fld w 31 26 = 29 ∧ fld w 25 21 = d.toNat ∧ fld w 20 16 = a.toNat ∧ fld w 15 11 = b.toNat ∧ fld w 10 8 = 0 ∧ fld w 7 0 = 10 := by
    simp only [fld, Nat.reduceSub, Nat.reduceAdd, Nat.reducePow] at hn ⊢; omega
  simp [decode, decodeVred, guardZero, reads, e]
theorem cpush (d : BitVec 5) (c : BitVec 4) (m : BitVec 5) : Statement (.cpush d c m) := by
  intro hv w hw
  have h0 := d.isLt; have h1 := c.isLt; have h2 := m.isLt
  simp [Instr.wf, Instr.violation, Violation.unless] at hv
  have hn := toNat_of_encode hw rfl (by omega)
  have e : fld w 31 26 = 40 ∧ fld w 25 21 = d.toNat ∧ fld w 20 17 = c.toNat ∧ fld w 16 9 = 0 ∧ fld w 8 4 = m.toNat ∧ fld w 3 0 = 0 := by
    simp only [fld, Nat.reduceSub, Nat.reduceAdd, Nat.reducePow] at hn ⊢; omega
  simp [decode, decodeChan, guardZero, guardPair, reads, e, hv]
theorem cpop (d : BitVec 5) (c : BitVec 4) (m : BitVec 5) : Statement (.cpop d c m) := by
  intro hv w hw
  have h0 := d.isLt; have h1 := c.isLt; have h2 := m.isLt
  simp [Instr.wf, Instr.violation, Violation.unless] at hv
  have hn := toNat_of_encode hw rfl (by omega)
  have e : fld w 31 26 = 40 ∧ fld w 25 21 = d.toNat ∧ fld w 20 17 = c.toNat ∧ fld w 16 9 = 0 ∧ fld w 8 4 = m.toNat ∧ fld w 3 0 = 1 := by
    simp only [fld, Nat.reduceSub, Nat.reduceAdd, Nat.reducePow] at hn ⊢; omega
  simp [decode, decodeChan, guardZero, guardPair, reads, e, hv]
theorem cpeek (d : BitVec 5) (c : BitVec 4) (b : BitVec 5) : Statement (.cpeek d c b) := by
  intro _ w hw
  have h0 := d.isLt; have h1 := c.isLt; have h2 := b.isLt
  have hn := toNat_of_encode hw rfl (by omega)
  have e : fld w 31 26 = 40 ∧ fld w 25 21 = d.toNat ∧ fld w 20 17 = c.toNat ∧ fld w 16 16 = 0 ∧ fld w 15 11 = b.toNat ∧ fld w 10 4 = 0 ∧ fld w 3 0 = 2 := by
    simp only [fld, Nat.reduceSub, Nat.reduceAdd, Nat.reducePow] at hn ⊢; omega
  simp [decode, decodeChan, guardZero, reads, e]
theorem cadv (c : BitVec 4) (b : BitVec 5) : Statement (.cadv c b) := by
  intro _ w hw
  have h0 := c.isLt; have h1 := b.isLt
  have hn := toNat_of_encode hw rfl (by omega)
  have e : fld w 31 26 = 40 ∧ fld w 25 21 = 0 ∧ fld w 20 17 = c.toNat ∧ fld w 16 16 = 0 ∧ fld w 15 11 = b.toNat ∧ fld w 10 4 = 0 ∧ fld w 3 0 = 3 := by
    simp only [fld, Nat.reduceSub, Nat.reduceAdd, Nat.reducePow] at hn ⊢; omega
  simp [decode, decodeChan, guardZero, reads, e]
theorem cclose (c : BitVec 4) : Statement (.cclose c) := by
  intro _ w hw
  have h0 := c.isLt
  have hn := toNat_of_encode hw rfl (by omega)
  have e : fld w 31 26 = 40 ∧ fld w 25 21 = 0 ∧ fld w 20 17 = c.toNat ∧ fld w 16 4 = 0 ∧ fld w 3 0 = 4 := by
    simp only [fld, Nat.reduceSub, Nat.reduceAdd, Nat.reducePow] at hn ⊢; omega
  simp [decode, decodeChan, guardZero, reads, e]
theorem cbind (d : BitVec 5) (c : BitVec 4) (b : BitVec 5) : Statement (.cbind d c b) := by
  intro _ w hw
  have h0 := d.isLt; have h1 := c.isLt; have h2 := b.isLt
  have hn := toNat_of_encode hw rfl (by omega)
  have e : fld w 31 26 = 40 ∧ fld w 25 21 = d.toNat ∧ fld w 20 17 = c.toNat ∧ fld w 16 16 = 0 ∧ fld w 15 11 = b.toNat ∧ fld w 10 4 = 0 ∧ fld w 3 0 = 5 := by
    simp only [fld, Nat.reduceSub, Nat.reduceAdd, Nat.reducePow] at hn ⊢; omega
  simp [decode, decodeChan, guardZero, reads, e]
theorem cunbind (c : BitVec 4) : Statement (.cunbind c) := by
  intro _ w hw
  have h0 := c.isLt
  have hn := toNat_of_encode hw rfl (by omega)
  have e : fld w 31 26 = 40 ∧ fld w 25 21 = 0 ∧ fld w 20 17 = c.toNat ∧ fld w 16 4 = 0 ∧ fld w 3 0 = 6 := by
    simp only [fld, Nat.reduceSub, Nat.reduceAdd, Nat.reducePow] at hn ⊢; omega
  simp [decode, decodeChan, guardZero, reads, e]
theorem vpush (d : BitVec 5) (c : BitVec 4) (m : BitVec 5) : Statement (.vpush d c m) := by
  intro _ w hw
  have h0 := d.isLt; have h1 := c.isLt; have h2 := m.isLt
  have hn := toNat_of_encode hw rfl (by omega)
  have e : fld w 31 26 = 40 ∧ fld w 25 21 = d.toNat ∧ fld w 20 17 = c.toNat ∧ fld w 16 9 = 0 ∧ fld w 8 4 = m.toNat ∧ fld w 3 0 = 7 := by
    simp only [fld, Nat.reduceSub, Nat.reduceAdd, Nat.reducePow] at hn ⊢; omega
  simp [decode, decodeChan, guardZero, reads, e]
theorem vpop (d : BitVec 5) (c : BitVec 4) : Statement (.vpop d c) := by
  intro _ w hw
  have h0 := d.isLt; have h1 := c.isLt
  have hn := toNat_of_encode hw rfl (by omega)
  have e : fld w 31 26 = 40 ∧ fld w 25 21 = d.toNat ∧ fld w 20 17 = c.toNat ∧ fld w 16 4 = 0 ∧ fld w 3 0 = 8 := by
    simp only [fld, Nat.reduceSub, Nat.reduceAdd, Nat.reducePow] at hn ⊢; omega
  simp [decode, decodeChan, guardZero, reads, e]
theorem scopy (d : BitVec 5) (a : BitVec 5) (p : BitVec 3) : Statement (.scopy d a p) := by
  intro _ w hw
  have h0 := d.isLt; have h1 := a.isLt; have h2 := p.isLt
  have hn := toNat_of_encode hw rfl (by omega)
  have e : fld w 31 26 = 41 ∧ fld w 25 21 = d.toNat ∧ fld w 20 16 = a.toNat ∧ fld w 15 11 = 0 ∧ fld w 10 8 = p.toNat ∧ fld w 7 4 = 0 ∧ fld w 3 0 = 0 := by
    simp only [fld, Nat.reduceSub, Nat.reduceAdd, Nat.reducePow] at hn ⊢; omega
  simp [decode, decodeStrm, guardZero, reads, e]
theorem sgather (d : BitVec 5) (a : BitVec 5) (b : BitVec 5) (p : BitVec 3) (m : BitVec 3) : Statement (.sgather d a b p m) := by
  intro _ w hw
  have h0 := d.isLt; have h1 := a.isLt; have h2 := b.isLt; have h3 := p.isLt; have h4 := m.isLt
  have hn := toNat_of_encode hw rfl (by omega)
  have e : fld w 31 26 = 41 ∧ fld w 25 21 = d.toNat ∧ fld w 20 16 = a.toNat ∧ fld w 15 11 = b.toNat ∧ fld w 10 8 = p.toNat ∧ fld w 7 5 = m.toNat ∧ fld w 4 4 = 0 ∧ fld w 3 0 = 1 := by
    simp only [fld, Nat.reduceSub, Nat.reduceAdd, Nat.reducePow] at hn ⊢; omega
  simp [decode, decodeStrm, guardZero, reads, e]
theorem sbar (p : BitVec 8) : Statement (.sbar p) := by
  intro hv w hw
  have h0 := p.isLt
  simp [Instr.wf, Instr.violation, Violation.unless] at hv
  have hp : p.toNat ≠ 0 := fun h => hv (by simpa using BitVec.eq_of_toNat_eq (x := p) (y := 0) (by simpa using h))
  have hn := toNat_of_encode hw rfl (by omega)
  have e : fld w 31 26 = 41 ∧ fld w 25 16 = 0 ∧ fld w 15 8 = p.toNat ∧ fld w 7 4 = 0 ∧ fld w 3 0 = 2 := by
    simp only [fld, Nat.reduceSub, Nat.reduceAdd, Nat.reducePow] at hn ⊢; omega
  simp [decode, decodeStrm, guardZero, guardPair, reads, e, hp]
theorem kderive (d : BitVec 3) (a : BitVec 3) (b : BitVec 5) (p : BitVec 6) : Statement (.kderive d a b p) := by
  intro hv w hw
  have h0 := d.isLt; have h1 := a.isLt; have h2 := b.isLt; have h3 := p.isLt
  simp [Instr.wf, Instr.violation, Violation.unless] at hv
  have hn := toNat_of_encode hw rfl (by omega)
  have e : fld w 31 26 = 42 ∧ fld w 25 21 = d.toNat ∧ fld w 20 16 = a.toNat ∧ fld w 15 11 = b.toNat ∧ fld w 10 5 = p.toNat ∧ fld w 4 4 = 0 ∧ fld w 3 0 = 0 := by
    simp only [fld, Nat.reduceSub, Nat.reduceAdd, Nat.reducePow] at hn ⊢; omega
  simp [decode, decodeCaps, guardZero, guardBelow, guardPair, reads, e, hv, h0, h1]
theorem kld (d : BitVec 3) (a : BitVec 5) : Statement (.kld d a) := by
  intro _ w hw
  have h0 := d.isLt; have h1 := a.isLt
  have hn := toNat_of_encode hw rfl (by omega)
  have e : fld w 31 26 = 42 ∧ fld w 25 21 = d.toNat ∧ fld w 20 16 = a.toNat ∧ fld w 15 4 = 0 ∧ fld w 3 0 = 1 := by
    simp only [fld, Nat.reduceSub, Nat.reduceAdd, Nat.reducePow] at hn ⊢; omega
  simp [decode, decodeCaps, guardZero, guardBelow, reads, e, h0]
theorem kst (d : BitVec 3) (a : BitVec 5) : Statement (.kst d a) := by
  intro _ w hw
  have h0 := d.isLt; have h1 := a.isLt
  have hn := toNat_of_encode hw rfl (by omega)
  have e : fld w 31 26 = 42 ∧ fld w 25 21 = d.toNat ∧ fld w 20 16 = a.toNat ∧ fld w 15 4 = 0 ∧ fld w 3 0 = 2 := by
    simp only [fld, Nat.reduceSub, Nat.reduceAdd, Nat.reducePow] at hn ⊢; omega
  simp [decode, decodeCaps, guardZero, guardBelow, reads, e, h0]
theorem ksend (d : BitVec 3) (c : BitVec 4) : Statement (.ksend d c) := by
  intro _ w hw
  have h0 := d.isLt; have h1 := c.isLt
  have hn := toNat_of_encode hw rfl (by omega)
  have e : fld w 31 26 = 42 ∧ fld w 25 21 = d.toNat ∧ fld w 20 17 = c.toNat ∧ fld w 16 4 = 0 ∧ fld w 3 0 = 3 := by
    simp only [fld, Nat.reduceSub, Nat.reduceAdd, Nat.reducePow] at hn ⊢; omega
  simp [decode, decodeCaps, guardZero, guardBelow, reads, e, h0]
theorem krecv (d : BitVec 3) (c : BitVec 4) : Statement (.krecv d c) := by
  intro _ w hw
  have h0 := d.isLt; have h1 := c.isLt
  have hn := toNat_of_encode hw rfl (by omega)
  have e : fld w 31 26 = 42 ∧ fld w 25 21 = d.toNat ∧ fld w 20 17 = c.toNat ∧ fld w 16 4 = 0 ∧ fld w 3 0 = 4 := by
    simp only [fld, Nat.reduceSub, Nat.reduceAdd, Nat.reducePow] at hn ⊢; omega
  simp [decode, decodeCaps, guardZero, guardBelow, reads, e, h0]
theorem aadd (a : BitVec 5) (b : BitVec 5) (z : ASize) : Statement (.aadd a b z) := by
  intro _ w hw
  have h0 := a.isLt; have h1 := b.isLt; have h2 := ASize_lt z
  have hn := toNat_of_encode hw rfl (by omega)
  have e : fld w 31 26 = 43 ∧ fld w 25 21 = 0 ∧ fld w 20 16 = a.toNat ∧ fld w 15 11 = b.toNat ∧ fld w 10 9 = z.toBits ∧ fld w 8 4 = 0 ∧ fld w 3 0 = 0 := by
    simp only [fld, Nat.reduceSub, Nat.reduceAdd, Nat.reducePow] at hn ⊢; omega
  simp [decode, decodeAtom, guardZero, guardSome, reads, e]
theorem amin (a : BitVec 5) (b : BitVec 5) (z : ASize) : Statement (.amin a b z) := by
  intro _ w hw
  have h0 := a.isLt; have h1 := b.isLt; have h2 := ASize_lt z
  have hn := toNat_of_encode hw rfl (by omega)
  have e : fld w 31 26 = 43 ∧ fld w 25 21 = 0 ∧ fld w 20 16 = a.toNat ∧ fld w 15 11 = b.toNat ∧ fld w 10 9 = z.toBits ∧ fld w 8 4 = 0 ∧ fld w 3 0 = 1 := by
    simp only [fld, Nat.reduceSub, Nat.reduceAdd, Nat.reducePow] at hn ⊢; omega
  simp [decode, decodeAtom, guardZero, guardSome, reads, e]
theorem amax (a : BitVec 5) (b : BitVec 5) (z : ASize) : Statement (.amax a b z) := by
  intro _ w hw
  have h0 := a.isLt; have h1 := b.isLt; have h2 := ASize_lt z
  have hn := toNat_of_encode hw rfl (by omega)
  have e : fld w 31 26 = 43 ∧ fld w 25 21 = 0 ∧ fld w 20 16 = a.toNat ∧ fld w 15 11 = b.toNat ∧ fld w 10 9 = z.toBits ∧ fld w 8 4 = 0 ∧ fld w 3 0 = 2 := by
    simp only [fld, Nat.reduceSub, Nat.reduceAdd, Nat.reducePow] at hn ⊢; omega
  simp [decode, decodeAtom, guardZero, guardSome, reads, e]
theorem aand (a : BitVec 5) (b : BitVec 5) (z : ASize) : Statement (.aand a b z) := by
  intro _ w hw
  have h0 := a.isLt; have h1 := b.isLt; have h2 := ASize_lt z
  have hn := toNat_of_encode hw rfl (by omega)
  have e : fld w 31 26 = 43 ∧ fld w 25 21 = 0 ∧ fld w 20 16 = a.toNat ∧ fld w 15 11 = b.toNat ∧ fld w 10 9 = z.toBits ∧ fld w 8 4 = 0 ∧ fld w 3 0 = 3 := by
    simp only [fld, Nat.reduceSub, Nat.reduceAdd, Nat.reducePow] at hn ⊢; omega
  simp [decode, decodeAtom, guardZero, guardSome, reads, e]
theorem aor (a : BitVec 5) (b : BitVec 5) (z : ASize) : Statement (.aor a b z) := by
  intro _ w hw
  have h0 := a.isLt; have h1 := b.isLt; have h2 := ASize_lt z
  have hn := toNat_of_encode hw rfl (by omega)
  have e : fld w 31 26 = 43 ∧ fld w 25 21 = 0 ∧ fld w 20 16 = a.toNat ∧ fld w 15 11 = b.toNat ∧ fld w 10 9 = z.toBits ∧ fld w 8 4 = 0 ∧ fld w 3 0 = 4 := by
    simp only [fld, Nat.reduceSub, Nat.reduceAdd, Nat.reducePow] at hn ⊢; omega
  simp [decode, decodeAtom, guardZero, guardSome, reads, e]
theorem axadd (d : BitVec 5) (a : BitVec 5) (b : BitVec 5) (z : ASize) : Statement (.axadd d a b z) := by
  intro _ w hw
  have h0 := d.isLt; have h1 := a.isLt; have h2 := b.isLt; have h3 := ASize_lt z
  have hn := toNat_of_encode hw rfl (by omega)
  have e : fld w 31 26 = 43 ∧ fld w 25 21 = d.toNat ∧ fld w 20 16 = a.toNat ∧ fld w 15 11 = b.toNat ∧ fld w 10 9 = z.toBits ∧ fld w 8 4 = 0 ∧ fld w 3 0 = 5 := by
    simp only [fld, Nat.reduceSub, Nat.reduceAdd, Nat.reducePow] at hn ⊢; omega
  simp [decode, decodeAtom, guardZero, guardSome, reads, e]
theorem axchg (d : BitVec 5) (a : BitVec 5) (b : BitVec 5) (z : ASize) : Statement (.axchg d a b z) := by
  intro _ w hw
  have h0 := d.isLt; have h1 := a.isLt; have h2 := b.isLt; have h3 := ASize_lt z
  have hn := toNat_of_encode hw rfl (by omega)
  have e : fld w 31 26 = 43 ∧ fld w 25 21 = d.toNat ∧ fld w 20 16 = a.toNat ∧ fld w 15 11 = b.toNat ∧ fld w 10 9 = z.toBits ∧ fld w 8 4 = 0 ∧ fld w 3 0 = 6 := by
    simp only [fld, Nat.reduceSub, Nat.reduceAdd, Nat.reducePow] at hn ⊢; omega
  simp [decode, decodeAtom, guardZero, guardSome, reads, e]
theorem acas (d : BitVec 5) (a : BitVec 5) (b : BitVec 5) (z : ASize) : Statement (.acas d a b z) := by
  intro hv w hw
  have h0 := d.isLt; have h1 := a.isLt; have h2 := b.isLt; have h3 := ASize_lt z
  simp [Instr.wf, Instr.violation, Violation.unless] at hv
  have hn := toNat_of_encode hw rfl (by omega)
  have e : fld w 31 26 = 43 ∧ fld w 25 21 = d.toNat ∧ fld w 20 16 = a.toNat ∧ fld w 15 11 = b.toNat ∧ fld w 10 9 = z.toBits ∧ fld w 8 4 = 0 ∧ fld w 3 0 = 7 := by
    simp only [fld, Nat.reduceSub, Nat.reduceAdd, Nat.reducePow] at hn ⊢; omega
  simp [decode, decodeAtom, guardZero, guardPair, guardSome, reads, e, hv]
theorem fence (s : Scope) : Statement (.fence s) := by
  intro _ w hw
  have h0 := Scope_lt s
  have hn := toNat_of_encode hw rfl (by omega)
  have e : fld w 31 26 = 43 ∧ fld w 25 11 = 0 ∧ fld w 10 9 = s.toBits ∧ fld w 8 4 = 0 ∧ fld w 3 0 = 8 := by
    simp only [fld, Nat.reduceSub, Nat.reduceAdd, Nat.reducePow] at hn ⊢; omega
  simp [decode, decodeAtom, guardZero, guardSome, reads, e]
theorem spawn (d : BitVec 5) (a : BitVec 5) : Statement (.spawn d a) := by
  intro _ w hw
  have h0 := d.isLt; have h1 := a.isLt
  have hn := toNat_of_encode hw rfl (by omega)
  have e : fld w 31 26 = 44 ∧ fld w 25 21 = d.toNat ∧ fld w 20 16 = a.toNat ∧ fld w 15 11 = 0 ∧ fld w 10 0 = 1 := by
    simp only [fld, Nat.reduceSub, Nat.reduceAdd, Nat.reducePow] at hn ⊢; omega
  simp [decode, decodeProc, guardZero, reads, e]
theorem exit : Statement .exit := by
  intro _ w hw
  have hn := toNat_of_encode hw rfl (by omega)
  have e : fld w 31 26 = 44 ∧ fld w 25 11 = 0 ∧ fld w 10 0 = 2 := by
    simp only [fld, Nat.reduceSub, Nat.reduceAdd, Nat.reducePow] at hn ⊢; omega
  simp [decode, decodeProc, guardZero, reads, e]
theorem yield : Statement .yield := by
  intro _ w hw
  have hn := toNat_of_encode hw rfl (by omega)
  have e : fld w 31 26 = 44 ∧ fld w 25 11 = 0 ∧ fld w 10 0 = 3 := by
    simp only [fld, Nat.reduceSub, Nat.reduceAdd, Nat.reducePow] at hn ⊢; omega
  simp [decode, decodeProc, guardZero, reads, e]
theorem prio (d : BitVec 5) (a : BitVec 5) : Statement (.prio d a) := by
  intro _ w hw
  have h0 := d.isLt; have h1 := a.isLt
  have hn := toNat_of_encode hw rfl (by omega)
  have e : fld w 31 26 = 44 ∧ fld w 25 21 = d.toNat ∧ fld w 20 16 = a.toNat ∧ fld w 15 11 = 0 ∧ fld w 10 0 = 4 := by
    simp only [fld, Nat.reduceSub, Nat.reduceAdd, Nat.reducePow] at hn ⊢; omega
  simp [decode, decodeProc, guardZero, reads, e]
theorem setvl (d : BitVec 5) (a : BitVec 5) : Statement (.setvl d a) := by
  intro _ w hw
  have h0 := d.isLt; have h1 := a.isLt
  have hn := toNat_of_encode hw rfl (by omega)
  have e : fld w 31 26 = 45 ∧ fld w 25 21 = d.toNat ∧ fld w 20 16 = a.toNat ∧ fld w 15 11 = 0 ∧ fld w 10 0 = 1 := by
    simp only [fld, Nat.reduceSub, Nat.reduceAdd, Nat.reducePow] at hn ⊢; omega
  simp [decode, decodeVcfg, guardZero, reads, e]
theorem setvs (a : BitVec 5) : Statement (.setvs a) := by
  intro _ w hw
  have h0 := a.isLt
  have hn := toNat_of_encode hw rfl (by omega)
  have e : fld w 31 26 = 45 ∧ fld w 25 21 = 0 ∧ fld w 20 16 = a.toNat ∧ fld w 15 11 = 0 ∧ fld w 10 0 = 2 := by
    simp only [fld, Nat.reduceSub, Nat.reduceAdd, Nat.reducePow] at hn ⊢; omega
  simp [decode, decodeVcfg, guardZero, reads, e]
theorem setvt (a : BitVec 5) : Statement (.setvt a) := by
  intro _ w hw
  have h0 := a.isLt
  have hn := toNat_of_encode hw rfl (by omega)
  have e : fld w 31 26 = 45 ∧ fld w 25 21 = 0 ∧ fld w 20 16 = a.toNat ∧ fld w 15 11 = 0 ∧ fld w 10 0 = 3 := by
    simp only [fld, Nat.reduceSub, Nat.reduceAdd, Nat.reducePow] at hn ⊢; omega
  simp [decode, decodeVcfg, guardZero, reads, e]
theorem setmt (a : BitVec 5) : Statement (.setmt a) := by
  intro _ w hw
  have h0 := a.isLt
  have hn := toNat_of_encode hw rfl (by omega)
  have e : fld w 31 26 = 45 ∧ fld w 25 21 = 0 ∧ fld w 20 16 = a.toNat ∧ fld w 15 11 = 0 ∧ fld w 10 0 = 4 := by
    simp only [fld, Nat.reduceSub, Nat.reduceAdd, Nat.reducePow] at hn ⊢; omega
  simp [decode, decodeVcfg, guardZero, reads, e]
theorem setpeer (a : BitVec 5) : Statement (.setpeer a) := by
  intro _ w hw
  have h0 := a.isLt
  have hn := toNat_of_encode hw rfl (by omega)
  have e : fld w 31 26 = 45 ∧ fld w 25 21 = 0 ∧ fld w 20 16 = a.toNat ∧ fld w 15 11 = 0 ∧ fld w 10 0 = 5 := by
    simp only [fld, Nat.reduceSub, Nat.reduceAdd, Nat.reducePow] at hn ⊢; omega
  simp [decode, decodeVcfg, guardZero, reads, e]
theorem stripend : Statement .stripend := by
  intro _ w hw
  have hn := toNat_of_encode hw rfl (by omega)
  have e : fld w 31 26 = 45 ∧ fld w 25 11 = 0 ∧ fld w 10 0 = 6 := by
    simp only [fld, Nat.reduceSub, Nat.reduceAdd, Nat.reducePow] at hn ⊢; omega
  simp [decode, decodeVcfg, guardZero, reads, e]
theorem cbtld (a : BitVec 5) : Statement (.cbtld a) := by
  intro _ w hw
  have h0 := a.isLt
  have hn := toNat_of_encode hw rfl (by omega)
  have e : fld w 31 26 = 46 ∧ fld w 25 21 = 0 ∧ fld w 20 16 = a.toNat ∧ fld w 15 11 = 0 ∧ fld w 10 0 = 1 := by
    simp only [fld, Nat.reduceSub, Nat.reduceAdd, Nat.reducePow] at hn ⊢; omega
  simp [decode, decodeCbt, guardZero, reads, e]
theorem tcfg (d : BitVec 3) (a : BitVec 5) : Statement (.tcfg d a) := by
  intro _ w hw
  have h0 := d.isLt; have h1 := a.isLt
  have hn := toNat_of_encode hw rfl (by omega)
  have e : fld w 31 26 = 48 ∧ fld w 25 23 = d.toNat ∧ fld w 22 17 = 0 ∧ fld w 16 12 = a.toNat ∧ fld w 11 4 = 0 ∧ fld w 3 0 = 0 := by
    simp only [fld, Nat.reduceSub, Nat.reduceAdd, Nat.reducePow] at hn ⊢; omega
  simp [decode, decodeMat, guardZero, reads, e]
theorem mopa (d : BitVec 3) (a : BitVec 5) (b : BitVec 5) : Statement (.mopa d a b) := by
  intro _ w hw
  have h0 := d.isLt; have h1 := a.isLt; have h2 := b.isLt
  have hn := toNat_of_encode hw rfl (by omega)
  have e : fld w 31 26 = 48 ∧ fld w 25 23 = d.toNat ∧ fld w 22 17 = 0 ∧ fld w 16 12 = a.toNat ∧ fld w 11 7 = b.toNat ∧ fld w 6 4 = 0 ∧ fld w 3 0 = 1 := by
    simp only [fld, Nat.reduceSub, Nat.reduceAdd, Nat.reducePow] at hn ⊢; omega
  simp [decode, decodeMat, guardZero, reads, e]
theorem mma (d : BitVec 3) (a : BitVec 3) (b : BitVec 3) : Statement (.mma d a b) := by
  intro _ w hw
  have h0 := d.isLt; have h1 := a.isLt; have h2 := b.isLt
  have hn := toNat_of_encode hw rfl (by omega)
  have e : fld w 31 26 = 48 ∧ fld w 25 23 = d.toNat ∧ fld w 22 20 = a.toNat ∧ fld w 19 17 = b.toNat ∧ fld w 16 4 = 0 ∧ fld w 3 0 = 2 := by
    simp only [fld, Nat.reduceSub, Nat.reduceAdd, Nat.reducePow] at hn ⊢; omega
  simp [decode, decodeMat, guardZero, reads, e]
theorem mmas (d : BitVec 3) (a : BitVec 3) (b : BitVec 3) (x : BitVec 5) (y : BitVec 5) : Statement (.mmas d a b x y) := by
  intro _ w hw
  have h0 := d.isLt; have h1 := a.isLt; have h2 := b.isLt; have h3 := x.isLt; have h4 := y.isLt
  have hn := toNat_of_encode hw rfl (by omega)
  have e : fld w 31 26 = 48 ∧ fld w 25 23 = d.toNat ∧ fld w 22 20 = a.toNat ∧ fld w 19 17 = b.toNat ∧ fld w 16 12 = x.toNat ∧ fld w 11 7 = y.toNat ∧ fld w 6 4 = 0 ∧ fld w 3 0 = 3 := by
    simp only [fld, Nat.reduceSub, Nat.reduceAdd, Nat.reducePow] at hn ⊢; omega
  simp [decode, decodeMat, guardZero, reads, e]
theorem mmasp (d : BitVec 3) (a : BitVec 3) (b : BitVec 3) (m : BitVec 3) : Statement (.mmasp d a b m) := by
  intro hv w hw
  have h0 := d.isLt; have h1 := a.isLt; have h2 := b.isLt; have h3 := m.isLt
  simp [Instr.wf, Instr.violation, Violation.unless] at hv
  have hn := toNat_of_encode hw rfl (by omega)
  have e : fld w 31 26 = 48 ∧ fld w 25 23 = d.toNat ∧ fld w 22 20 = a.toNat ∧ fld w 19 17 = b.toNat ∧ fld w 16 14 = m.toNat ∧ fld w 13 4 = 0 ∧ fld w 3 0 = 4 := by
    simp only [fld, Nat.reduceSub, Nat.reduceAdd, Nat.reducePow] at hn ⊢; omega
  simp [decode, decodeMat, guardZero, guardPair, reads, e, hv]
theorem tld (d : BitVec 3) (a : BitVec 5) : Statement (.tld d a) := by
  intro _ w hw
  have h0 := d.isLt; have h1 := a.isLt
  have hn := toNat_of_encode hw rfl (by omega)
  have e : fld w 31 26 = 48 ∧ fld w 25 23 = d.toNat ∧ fld w 22 17 = 0 ∧ fld w 16 12 = a.toNat ∧ fld w 11 4 = 0 ∧ fld w 3 0 = 5 := by
    simp only [fld, Nat.reduceSub, Nat.reduceAdd, Nat.reducePow] at hn ⊢; omega
  simp [decode, decodeMat, guardZero, reads, e]
theorem tst (d : BitVec 3) (a : BitVec 5) : Statement (.tst d a) := by
  intro _ w hw
  have h0 := d.isLt; have h1 := a.isLt
  have hn := toNat_of_encode hw rfl (by omega)
  have e : fld w 31 26 = 48 ∧ fld w 25 23 = d.toNat ∧ fld w 22 17 = 0 ∧ fld w 16 12 = a.toNat ∧ fld w 11 4 = 0 ∧ fld w 3 0 = 6 := by
    simp only [fld, Nat.reduceSub, Nat.reduceAdd, Nat.reducePow] at hn ⊢; omega
  simp [decode, decodeMat, guardZero, reads, e]
theorem tzero (d : BitVec 3) : Statement (.tzero d) := by
  intro _ w hw
  have h0 := d.isLt
  have hn := toNat_of_encode hw rfl (by omega)
  have e : fld w 31 26 = 48 ∧ fld w 25 23 = d.toNat ∧ fld w 22 4 = 0 ∧ fld w 3 0 = 7 := by
    simp only [fld, Nat.reduceSub, Nat.reduceAdd, Nat.reducePow] at hn ⊢; omega
  simp [decode, decodeMat, guardZero, reads, e]
theorem tmvv (d : BitVec 5) (a : BitVec 3) (b : BitVec 5) : Statement (.tmvv d a b) := by
  intro _ w hw
  have h0 := d.isLt; have h1 := a.isLt; have h2 := b.isLt
  have hn := toNat_of_encode hw rfl (by omega)
  have e : fld w 31 26 = 48 ∧ fld w 25 23 = 0 ∧ fld w 22 20 = a.toNat ∧ fld w 19 17 = 0 ∧ fld w 16 12 = b.toNat ∧ fld w 11 7 = d.toNat ∧ fld w 6 4 = 0 ∧ fld w 3 0 = 8 := by
    simp only [fld, Nat.reduceSub, Nat.reduceAdd, Nat.reducePow] at hn ⊢; omega
  simp [decode, decodeMat, guardZero, reads, e]
theorem tmvt (d : BitVec 3) (a : BitVec 5) (b : BitVec 5) : Statement (.tmvt d a b) := by
  intro _ w hw
  have h0 := d.isLt; have h1 := a.isLt; have h2 := b.isLt
  have hn := toNat_of_encode hw rfl (by omega)
  have e : fld w 31 26 = 48 ∧ fld w 25 23 = d.toNat ∧ fld w 22 17 = 0 ∧ fld w 16 12 = b.toNat ∧ fld w 11 7 = a.toNat ∧ fld w 6 4 = 0 ∧ fld w 3 0 = 9 := by
    simp only [fld, Nat.reduceSub, Nat.reduceAdd, Nat.reducePow] at hn ⊢; omega
  simp [decode, decodeMat, guardZero, reads, e]
theorem patch (a : BitVec 5) (b : BitVec 5) : Statement (.patch a b) := by
  intro _ w hw
  have h0 := a.isLt; have h1 := b.isLt
  have hn := toNat_of_encode hw rfl (by omega)
  have e : fld w 31 26 = 49 ∧ fld w 25 21 = 0 ∧ fld w 20 16 = a.toNat ∧ fld w 15 11 = b.toNat ∧ fld w 10 4 = 0 ∧ fld w 3 0 = 0 := by
    simp only [fld, Nat.reduceSub, Nat.reduceAdd, Nat.reducePow] at hn ⊢; omega
  simp [decode, decodeDda, guardZero, reads, e]
theorem dcfg (n : BitVec 3) (a : BitVec 5) : Statement (.dcfg n a) := by
  intro _ w hw
  have h0 := n.isLt; have h1 := a.isLt
  have hn := toNat_of_encode hw rfl (by omega)
  have e : fld w 31 26 = 49 ∧ fld w 25 21 = n.toNat ∧ fld w 20 16 = a.toNat ∧ fld w 15 4 = 0 ∧ fld w 3 0 = 1 := by
    simp only [fld, Nat.reduceSub, Nat.reduceAdd, Nat.reducePow] at hn ⊢; omega
  simp [decode, decodeDda, guardZero, guardBelow, reads, e, h0]
theorem dset (a : BitVec 5) (b : BitVec 5) : Statement (.dset a b) := by
  intro _ w hw
  have h0 := a.isLt; have h1 := b.isLt
  have hn := toNat_of_encode hw rfl (by omega)
  have e : fld w 31 26 = 49 ∧ fld w 25 21 = 0 ∧ fld w 20 16 = a.toNat ∧ fld w 15 11 = b.toNat ∧ fld w 10 4 = 0 ∧ fld w 3 0 = 2 := by
    simp only [fld, Nat.reduceSub, Nat.reduceAdd, Nat.reducePow] at hn ⊢; omega
  simp [decode, decodeDda, guardZero, reads, e]
theorem dget (d : BitVec 5) (a : BitVec 5) : Statement (.dget d a) := by
  intro _ w hw
  have h0 := d.isLt; have h1 := a.isLt
  have hn := toNat_of_encode hw rfl (by omega)
  have e : fld w 31 26 = 49 ∧ fld w 25 21 = d.toNat ∧ fld w 20 16 = a.toNat ∧ fld w 15 4 = 0 ∧ fld w 3 0 = 3 := by
    simp only [fld, Nat.reduceSub, Nat.reduceAdd, Nat.reducePow] at hn ⊢; omega
  simp [decode, decodeDda, guardZero, reads, e]
theorem dstep (n : BitVec 3) (a : BitVec 5) : Statement (.dstep n a) := by
  intro _ w hw
  have h0 := n.isLt; have h1 := a.isLt
  have hn := toNat_of_encode hw rfl (by omega)
  have e : fld w 31 26 = 49 ∧ fld w 25 21 = n.toNat ∧ fld w 20 16 = a.toNat ∧ fld w 15 4 = 0 ∧ fld w 3 0 = 4 := by
    simp only [fld, Nat.reduceSub, Nat.reduceAdd, Nat.reducePow] at hn ⊢; omega
  simp [decode, decodeDda, guardZero, guardBelow, reads, e, h0]
theorem drun (a : BitVec 5) : Statement (.drun a) := by
  intro _ w hw
  have h0 := a.isLt
  have hn := toNat_of_encode hw rfl (by omega)
  have e : fld w 31 26 = 49 ∧ fld w 25 21 = 0 ∧ fld w 20 16 = a.toNat ∧ fld w 15 4 = 0 ∧ fld w 3 0 = 5 := by
    simp only [fld, Nat.reduceSub, Nat.reduceAdd, Nat.reducePow] at hn ⊢; omega
  simp [decode, decodeDda, guardZero, reads, e]
theorem dhalt (a : BitVec 5) : Statement (.dhalt a) := by
  intro _ w hw
  have h0 := a.isLt
  have hn := toNat_of_encode hw rfl (by omega)
  have e : fld w 31 26 = 49 ∧ fld w 25 21 = 0 ∧ fld w 20 16 = a.toNat ∧ fld w 15 4 = 0 ∧ fld w 3 0 = 6 := by
    simp only [fld, Nat.reduceSub, Nat.reduceAdd, Nat.reducePow] at hn ⊢; omega
  simp [decode, decodeDda, guardZero, reads, e]
theorem dsave (a : BitVec 5) : Statement (.dsave a) := by
  intro _ w hw
  have h0 := a.isLt
  have hn := toNat_of_encode hw rfl (by omega)
  have e : fld w 31 26 = 49 ∧ fld w 25 21 = 0 ∧ fld w 20 16 = a.toNat ∧ fld w 15 4 = 0 ∧ fld w 3 0 = 7 := by
    simp only [fld, Nat.reduceSub, Nat.reduceAdd, Nat.reducePow] at hn ⊢; omega
  simp [decode, decodeDda, guardZero, reads, e]
theorem dload (a : BitVec 5) : Statement (.dload a) := by
  intro _ w hw
  have h0 := a.isLt
  have hn := toNat_of_encode hw rfl (by omega)
  have e : fld w 31 26 = 49 ∧ fld w 25 21 = 0 ∧ fld w 20 16 = a.toNat ∧ fld w 15 4 = 0 ∧ fld w 3 0 = 8 := by
    simp only [fld, Nat.reduceSub, Nat.reduceAdd, Nat.reducePow] at hn ⊢; omega
  simp [decode, decodeDda, guardZero, reads, e]
theorem dbind (a : BitVec 5) (c : BitVec 4) : Statement (.dbind a c) := by
  intro _ w hw
  have h0 := a.isLt; have h1 := c.isLt
  have hn := toNat_of_encode hw rfl (by omega)
  have e : fld w 31 26 = 49 ∧ fld w 25 21 = 0 ∧ fld w 20 16 = a.toNat ∧ fld w 15 11 = c.toNat ∧ fld w 10 4 = 0 ∧ fld w 3 0 = 9 := by
    simp only [fld, Nat.reduceSub, Nat.reduceAdd, Nat.reducePow] at hn ⊢; omega
  simp [decode, decodeDda, guardZero, guardBelow, reads, e, h1]
theorem lease (d : BitVec 5) (a : BitVec 5) (b : BitVec 5) : Statement (.lease d a b) := by
  intro _ w hw
  have h0 := d.isLt; have h1 := a.isLt; have h2 := b.isLt
  have hn := toNat_of_encode hw rfl (by omega)
  have e : fld w 31 26 = 50 ∧ fld w 25 21 = d.toNat ∧ fld w 20 16 = a.toNat ∧ fld w 15 11 = b.toNat ∧ fld w 10 0 = 1 := by
    simp only [fld, Nat.reduceSub, Nat.reduceAdd, Nat.reducePow] at hn ⊢; omega
  simp [decode, decodeLeas, reads, e]
theorem lrevoke (d : BitVec 5) (a : BitVec 5) (b : BitVec 5) : Statement (.lrevoke d a b) := by
  intro _ w hw
  have h0 := d.isLt; have h1 := a.isLt; have h2 := b.isLt
  have hn := toNat_of_encode hw rfl (by omega)
  have e : fld w 31 26 = 50 ∧ fld w 25 21 = d.toNat ∧ fld w 20 16 = a.toNat ∧ fld w 15 11 = b.toNat ∧ fld w 10 0 = 2 := by
    simp only [fld, Nat.reduceSub, Nat.reduceAdd, Nat.reducePow] at hn ⊢; omega
  simp [decode, decodeLeas, reads, e]
theorem lquery (d : BitVec 5) (a : BitVec 5) : Statement (.lquery d a) := by
  intro _ w hw
  have h0 := d.isLt; have h1 := a.isLt
  have hn := toNat_of_encode hw rfl (by omega)
  have e : fld w 31 26 = 50 ∧ fld w 25 21 = d.toNat ∧ fld w 20 16 = a.toNat ∧ fld w 15 11 = 0 ∧ fld w 10 0 = 3 := by
    simp only [fld, Nat.reduceSub, Nat.reduceAdd, Nat.reducePow] at hn ⊢; omega
  simp [decode, decodeLeas, guardZero, reads, e]
theorem vtree (a : BitVec 5) (b : BitVec 5) (t : SType) (o : SOp) : Statement (.vtree a b t o) := by
  intro _ w hw
  have h0 := a.isLt; have h1 := b.isLt; have h2 := SType_lt t; have h3 := SOp_lt o
  have hn := toNat_of_encode hw rfl (by omega)
  have e : fld w 31 26 = 51 ∧ fld w 25 21 = 0 ∧ fld w 20 16 = a.toNat ∧ fld w 15 11 = b.toNat ∧ fld w 10 8 = t.toBits ∧ fld w 7 6 = o.toBits ∧ fld w 5 4 = 0 ∧ fld w 3 0 = 1 := by
    simp only [fld, Nat.reduceSub, Nat.reduceAdd, Nat.reducePow] at hn ⊢; omega
  simp [decode, decodeSint, guardZero, guardSome, reads, e]
theorem vtreew (d : BitVec 5) (a : BitVec 5) (t : SType) (o : SOp) : Statement (.vtreew d a t o) := by
  intro _ w hw
  have h0 := d.isLt; have h1 := a.isLt; have h2 := SType_lt t; have h3 := SOp_lt o
  have hn := toNat_of_encode hw rfl (by omega)
  have e : fld w 31 26 = 51 ∧ fld w 25 21 = d.toNat ∧ fld w 20 16 = a.toNat ∧ fld w 15 11 = 0 ∧ fld w 10 8 = t.toBits ∧ fld w 7 6 = o.toBits ∧ fld w 5 4 = 0 ∧ fld w 3 0 = 2 := by
    simp only [fld, Nat.reduceSub, Nat.reduceAdd, Nat.reducePow] at hn ⊢; omega
  simp [decode, decodeSint, guardZero, guardSome, reads, e]
theorem csrr (d : BitVec 5) (n : Csr) : Statement (.csrr d n) := by
  intro _ w hw
  have h0 := d.isLt; have h1 := Csr_lt n
  have hn := toNat_of_encode hw rfl (by omega)
  have e : fld w 31 26 = 60 ∧ fld w 25 21 = d.toNat ∧ fld w 20 16 = 0 ∧ fld w 15 4 = n.toBits ∧ fld w 3 0 = 0 := by
    simp only [fld, Nat.reduceSub, Nat.reduceAdd, Nat.reducePow] at hn ⊢; omega
  simp [decode, decodeSys, guardZero, guardSome, reads, e]
theorem csrw (a : BitVec 5) (n : Csr) : Statement (.csrw a n) := by
  intro _ w hw
  have h0 := a.isLt; have h1 := Csr_lt n
  have hn := toNat_of_encode hw rfl (by omega)
  have e : fld w 31 26 = 60 ∧ fld w 25 21 = 0 ∧ fld w 20 16 = a.toNat ∧ fld w 15 4 = n.toBits ∧ fld w 3 0 = 1 := by
    simp only [fld, Nat.reduceSub, Nat.reduceAdd, Nat.reducePow] at hn ⊢; omega
  simp [decode, decodeSys, guardZero, guardSome, reads, e]
theorem trap (c : BitVec 12) : Statement (.trap c) := by
  intro _ w hw
  have h0 := c.isLt
  have hn := toNat_of_encode hw rfl (by omega)
  have e : fld w 31 26 = 60 ∧ fld w 25 16 = 0 ∧ fld w 15 4 = c.toNat ∧ fld w 3 0 = 2 := by
    simp only [fld, Nat.reduceSub, Nat.reduceAdd, Nat.reducePow] at hn ⊢; omega
  simp [decode, decodeSys, guardZero, reads, e]
theorem eret : Statement .eret := by
  intro _ w hw
  have hn := toNat_of_encode hw rfl (by omega)
  have e : fld w 31 26 = 60 ∧ fld w 25 4 = 0 ∧ fld w 3 0 = 3 := by
    simp only [fld, Nat.reduceSub, Nat.reduceAdd, Nat.reducePow] at hn ⊢; omega
  simp [decode, decodeSys, guardZero, reads, e]
theorem brk : Statement .brk := by
  intro _ w hw
  have hn := toNat_of_encode hw rfl (by omega)
  have e : fld w 31 26 = 60 ∧ fld w 25 4 = 0 ∧ fld w 3 0 = 4 := by
    simp only [fld, Nat.reduceSub, Nat.reduceAdd, Nat.reducePow] at hn ⊢; omega
  simp [decode, decodeSys, guardZero, reads, e]
theorem halt : Statement .halt := by
  intro _ w hw
  have hn := toNat_of_encode hw rfl (by omega)
  have e : fld w 31 26 = 60 ∧ fld w 25 4 = 0 ∧ fld w 3 0 = 5 := by
    simp only [fld, Nat.reduceSub, Nat.reduceAdd, Nat.reducePow] at hn ⊢; omega
  simp [decode, decodeSys, guardZero, reads, e]
theorem kill (d : BitVec 5) (a : BitVec 5) : Statement (.kill d a) := by
  intro _ w hw
  have h0 := d.isLt; have h1 := a.isLt
  have hn := toNat_of_encode hw rfl (by omega)
  have e : fld w 31 26 = 60 ∧ fld w 25 21 = d.toNat ∧ fld w 20 16 = a.toNat ∧ fld w 15 4 = 0 ∧ fld w 3 0 = 6 := by
    simp only [fld, Nat.reduceSub, Nat.reduceAdd, Nat.reducePow] at hn ⊢; omega
  simp [decode, decodeSys, guardZero, reads, e]
theorem keyset (d : BitVec 5) (a : BitVec 5) : Statement (.keyset d a) := by
  intro _ w hw
  have h0 := d.isLt; have h1 := a.isLt
  have hn := toNat_of_encode hw rfl (by omega)
  have e : fld w 31 26 = 60 ∧ fld w 25 21 = d.toNat ∧ fld w 20 16 = a.toNat ∧ fld w 15 4 = 0 ∧ fld w 3 0 = 7 := by
    simp only [fld, Nat.reduceSub, Nat.reduceAdd, Nat.reducePow] at hn ⊢; omega
  simp [decode, decodeSys, guardZero, reads, e]
theorem keyrev (d : BitVec 5) (a : BitVec 5) : Statement (.keyrev d a) := by
  intro _ w hw
  have h0 := d.isLt; have h1 := a.isLt
  have hn := toNat_of_encode hw rfl (by omega)
  have e : fld w 31 26 = 60 ∧ fld w 25 21 = d.toNat ∧ fld w 20 16 = a.toNat ∧ fld w 15 4 = 0 ∧ fld w 3 0 = 8 := by
    simp only [fld, Nat.reduceSub, Nat.reduceAdd, Nat.reducePow] at hn ⊢; omega
  simp [decode, decodeSys, guardZero, reads, e]
theorem monbind (n : BitVec 4) (a : BitVec 5) (b : BitVec 5) : Statement (.monbind n a b) := by
  intro _ w hw
  have h0 := n.isLt; have h1 := a.isLt; have h2 := b.isLt
  have hn := toNat_of_encode hw rfl (by omega)
  have e : fld w 31 26 = 60 ∧ fld w 25 21 = n.toNat ∧ fld w 20 16 = a.toNat ∧ fld w 15 11 = b.toNat ∧ fld w 10 4 = 0 ∧ fld w 3 0 = 9 := by
    simp only [fld, Nat.reduceSub, Nat.reduceAdd, Nat.reducePow] at hn ⊢; omega
  simp [decode, decodeSys, guardZero, guardBelow, reads, e, h0]
theorem cbindMove (d : BitVec 5) (c : BitVec 4) (b : BitVec 5) : Statement (.cbindMove d c b) :=
  fun _ w hw => cbind d c b rfl w hw
theorem tlbiWrite (part : Nat) (v : BitVec 64) : Statement (.tlbiWrite part v) := of_none rfl
theorem sdescLoad (h : Nat) (v : BitVec 64) : Statement (.sdescLoad h v) := of_none rfl
theorem sdescClear (part : Nat) (tree : Nat) : Statement (.sdescClear part tree) := of_none rfl
theorem resumeAtPoint (part : Nat) (h : Nat) : Statement (.resumeAtPoint part h) := of_none rfl
theorem resumeSkip (part : Nat) (h : Nat) : Statement (.resumeSkip part h) := of_none rfl
theorem resumeStream (part : Nat) (h : Nat) (port : Nat) : Statement (.resumeStream part h port) := of_none rfl
theorem resumeEnd (part : Nat) (h : Nat) : Statement (.resumeEnd part h) := of_none rfl
theorem pswapOut (part : Nat) (h : Nat) : Statement (.pswapOut part h) := of_none rfl
theorem pswapIn (part : Nat) (h : Nat) : Statement (.pswapIn part h) := of_none rfl
theorem psetCreate (tile : Nat) (off : Nat) : Statement (.psetCreate tile off) := of_none rfl
theorem psetTeardown (part : Nat) : Statement (.psetTeardown part) := of_none rfl
theorem hepsetWrite (tile : Nat) (off : Nat) : Statement (.hepsetWrite tile off) := of_none rfl
theorem laneGrantEffect (tile : Nat) (h : Nat) : Statement (.laneGrantEffect tile h) := of_none rfl
theorem reservedGrant (tile : Nat) (h : Nat) : Statement (.reservedGrant tile h) := of_none rfl
theorem childRelease (h : Nat) : Statement (.childRelease h) := of_none rfl
theorem networkLaunch (part : Nat) : Statement (.networkLaunch part) := of_none rfl
theorem loaderEndReply (part : Nat) (net : Nat) : Statement (.loaderEndReply part net) := of_none rfl
theorem checkRunB (part : Nat) (net : Nat) : Statement (.checkRunB part net) := of_none rfl
theorem checkCompare (part : Nat) (net : Nat) : Statement (.checkCompare part net) := of_none rfl
theorem writerRegistration (wid : Nat) : Statement (.writerRegistration wid) := of_none rfl
theorem shortfallRequest (wid : Nat) : Statement (.shortfallRequest wid) := of_none rfl
theorem creditRecall (wid : Nat) : Statement (.creditRecall wid) := of_none rfl
theorem creditReturn (wid : Nat) : Statement (.creditReturn wid) := of_none rfl
theorem channelMessageArrive (wid : Nat) : Statement (.channelMessageArrive wid) := of_none rfl
theorem retargetNotice (mv : Nat) (wid : Nat) : Statement (.retargetNotice mv wid) := of_none rfl
theorem retargetAck (mv : Nat) (wid : Nat) : Statement (.retargetAck mv wid) := of_none rfl
theorem dramRead (srv : Nat) (wid : Nat) : Statement (.dramRead srv wid) := of_none rfl
theorem dramWrite (srv : Nat) (wid : Nat) : Statement (.dramWrite srv wid) := of_none rfl
theorem dramBadRequest (srv : Nat) (wid : Nat) : Statement (.dramBadRequest srv wid) := of_none rfl
theorem mempipeRead (id : Nat) : Statement (.mempipeRead id) := of_none rfl
theorem mempipeWrite (id : Nat) : Statement (.mempipeWrite id) := of_none rfl
theorem dramAtomic (id : Nat) : Statement (.dramAtomic id) := of_none rfl
theorem globalSramAccess (id : Nat) : Statement (.globalSramAccess id) := of_none rfl
theorem memoryReply (id : Nat) : Statement (.memoryReply id) := of_none rfl
theorem cbIdleDrain (tile : Nat) (entry : Nat) : Statement (.cbIdleDrain tile entry) := of_none rfl
theorem heldBindingEnqueue (h : Nat) (port : Nat) : Statement (.heldBindingEnqueue h port) := of_none rfl
theorem streamStart (tile : Nat) (port : Nat) : Statement (.streamStart tile port) := of_none rfl
theorem streamSector (tile : Nat) (port : Nat) : Statement (.streamSector tile port) := of_none rfl
theorem streamComplete (tile : Nat) (port : Nat) : Statement (.streamComplete tile port) := of_none rfl
theorem matrixStepGroup (h : Nat) : Statement (.matrixStepGroup h) := of_none rfl
theorem debuggerHalt (h : Nat) : Statement (.debuggerHalt h) := of_none rfl
theorem debuggerRelease (h : Nat) : Statement (.debuggerRelease h) := of_none rfl
theorem divPhaseZero (tile : Nat) (dom : Nat) : Statement (.divPhaseZero tile dom) := of_none rfl
theorem domainTick (tile : Nat) (dom : Nat) : Statement (.domainTick tile dom) := of_none rfl
theorem portTakeSlot (tile : Nat) (port : Nat) : Statement (.portTakeSlot tile port) := of_none rfl
theorem tapCreditPush (tile : Nat) (tap : Nat) : Statement (.tapCreditPush tile tap) := of_none rfl
theorem monitorFire (tile : Nat) (wid : Nat) : Statement (.monitorFire tile wid) := of_none rfl
theorem levelCounterUpdate (tile : Nat) (power : Nat) (hotSpot : Nat) (modulePower : Nat) : Statement (.levelCounterUpdate tile power hotSpot modulePower) := of_none rfl
theorem monitorPendingPush (tile : Nat) (wid : Nat) : Statement (.monitorPendingPush tile wid) := of_none rfl
theorem fumaroleSweepStart (part : Nat) : Statement (.fumaroleSweepStart part) := of_none rfl
theorem fumaroleSweepDone (part : Nat) : Statement (.fumaroleSweepDone part) := of_none rfl
theorem faultRecordPush (tile : Nat) : Statement (.faultRecordPush tile) := of_none rfl
theorem firmwareFaultForward : Statement (.firmwareFaultForward) := of_none rfl
theorem opticalDataFlit (lane : Nat) (flit : BitVec 576) : Statement (.opticalDataFlit lane flit) := of_none rfl
theorem opticalAck (part : Nat) (peer : Nat) (seq : Nat) : Statement (.opticalAck part peer seq) := of_none rfl
theorem opticalNack (part : Nat) (peer : Nat) (seq : Nat) : Statement (.opticalNack part peer seq) := of_none rfl
theorem ackTimer (part : Nat) (peer : Nat) : Statement (.ackTimer part peer) := of_none rfl
theorem gapTimeout (part : Nat) (peer : Nat) : Statement (.gapTimeout part peer) := of_none rfl
theorem crcThreshold (lane : Nat) : Statement (.crcThreshold lane) := of_none rfl
theorem lossOfLight (lane : Nat) : Statement (.lossOfLight lane) := of_none rfl
theorem lightRestored (lane : Nat) : Statement (.lightRestored lane) := of_none rfl
theorem retrain (part : Nat) (peer : Nat) : Statement (.retrain part peer) := of_none rfl
theorem trainingWord (part : Nat) (peer : Nat) (w : BitVec 128) (keyid : BitVec 32) : Statement (.trainingWord part peer w keyid) := of_none rfl
theorem laneOffer (rlane : Nat) (peer : Nat) (peerLane : Nat) (backLane : Nat) : Statement (.laneOffer rlane peer peerLane backLane) := of_none rfl
theorem offerAnswer (lane : Nat) (accept : Bool) : Statement (.offerAnswer lane accept) := of_none rfl
theorem offerTimeout (lane : Nat) : Statement (.offerTimeout lane) := of_none rfl
theorem trainingTimeout (lane : Nat) : Statement (.trainingTimeout lane) := of_none rfl
theorem laneDrainEnd (lane : Nat) : Statement (.laneDrainEnd lane) := of_none rfl
theorem starvationRevoke (part : Nat) (peer : Nat) : Statement (.starvationRevoke part peer) := of_none rfl
theorem gcmGroupClose (part : Nat) (peer : Nat) : Statement (.gcmGroupClose part peer) := of_none rfl
theorem gcmTagFlit (part : Nat) (peer : Nat) (tag : BitVec 128) (count : Nat) : Statement (.gcmTagFlit part peer tag count) := of_none rfl
theorem relayForward (part : Nat) (vnet : Nat) (slots : List (BitVec 64)) : Statement (.relayForward part vnet slots) := of_none rfl
theorem relayRefusal (wid : Nat) : Statement (.relayRefusal wid) := of_none rfl
theorem remoteRead (part : Nat) (slots : List (BitVec 64)) : Statement (.remoteRead part slots) := of_none rfl
theorem remoteWrite (part : Nat) (slots : List (BitVec 64)) : Statement (.remoteWrite part slots) := of_none rfl
theorem remoteAtomic (part : Nat) (slots : List (BitVec 64)) : Statement (.remoteAtomic part slots) := of_none rfl
theorem remoteReply (part : Nat) (slots : List (BitVec 64)) : Statement (.remoteReply part slots) := of_none rfl
theorem sinterCombine (part : Nat) (tree : Nat) (tile : Nat) (round : Nat) : Statement (.sinterCombine part tree tile round) := of_none rfl
theorem sinterResult (part : Nat) (tree : Nat) (tile : Nat) (round : Nat) : Statement (.sinterResult part tree tile round) := of_none rfl
theorem sinterTimerExpire (part : Nat) (tree : Nat) (tile : Nat) : Statement (.sinterTimerExpire part tree tile) := of_none rfl
theorem sinterAbortRequest (part : Nat) (tree : Nat) (round : Nat) : Statement (.sinterAbortRequest part tree round) := of_none rfl
theorem sinterAbort (part : Nat) (tree : Nat) (tile : Nat) (round : Nat) (reason : Nat) : Statement (.sinterAbort part tree tile round reason) := of_none rfl
theorem laharFlood (kill : Nat) (tile : Nat) : Statement (.laharFlood kill tile) := of_none rfl
theorem killWindowEnd (kill : Nat) (tile : Nat) : Statement (.killWindowEnd kill tile) := of_none rfl
theorem killReport (kill : Nat) (tile : Nat) : Statement (.killReport kill tile) := of_none rfl
theorem keysetComplete (part : Nat) : Statement (.keysetComplete part) := of_none rfl
theorem keyrevComplete (part : Nat) : Statement (.keyrevComplete part) := of_none rfl
theorem hostPush (hep : Nat) (qpn : BitVec 24) (rkey : BitVec 32) (off : Nat) (len : Nat) (slots : List (BitVec 64)) : Statement (.hostPush hep qpn rkey off len slots) := of_none rfl
theorem hostCreditRead (hep : Nat) (qpn : BitVec 24) (rkey : BitVec 32) : Statement (.hostCreditRead hep qpn rkey) := of_none rfl
theorem hostCreditUpdate (hep : Nat) : Statement (.hostCreditUpdate hep) := of_none rfl
theorem d2hDeliver (hep : Nat) : Statement (.d2hDeliver hep) := of_none rfl
theorem hostCreditReturn (hep : Nat) (qpn : BitVec 24) (rkey : BitVec 32) (count : BitVec 64) : Statement (.hostCreditReturn hep qpn rkey count) := of_none rfl
theorem queuePairError (hep : Nat) : Statement (.queuePairError hep) := of_none rfl
theorem detectedError (unit : ErrUnit) (tile : Nat) (index : Nat) (addr : Nat) (lasting : Bool) : Statement (.detectedError unit tile index addr lasting) := of_none rfl
theorem powerLimit : Statement (.powerLimit) := of_none rfl
theorem thermalStop (die : Nat) : Statement (.thermalStop die) := of_none rfl
theorem coolantLow : Statement (.coolantLow) := of_none rfl
theorem moduleReset : Statement (.moduleReset) := of_none rfl
theorem illegalWord (w : BitVec 32) : Statement (.illegalWord w) := of_none rfl
theorem powerLimitCleared : Statement (.powerLimitCleared) := of_none rfl

end Sys2Proof.Laws.RoundTrip
end

