-- ==== Sys2Proof/Safety.lean ====
section
/-! DEFINITION. What counts as a safe run, and the form of the state that every step keeps. -/

namespace Sys2Proof.Machine

/-- The memories list every byte once, in rising addresses, and no byte that is zero. -/
def State.memOk (s : State) : Prop := Memory.wf s.sram ∧ Memory.wf s.hbm
/-- A step that goes on. -/
def goesOn (s : State) : Prop := ∃ t, step s = .next t
/-- A run of `n` steps that never stops. -/
def safeRun (n : Nat) (s : State) : Prop := ∃ t, core.run n s = .next t

/-- The running process may use the registers: none is pending, and none is still in a fixed-latency pipeline (R31). -/
def State.free (s : State) (rs : List (BitVec 5)) : Prop :=
  (∀ r ∈ rs, s.me.isPending r.toNat = false) ∧ s.me.lateUntil rs ≤ s.cycle
/-- The running process has no open strip, no pending grant and no single step: what it does next happens at once. -/
def State.plain (s : State) : Prop := s.me.ss = false ∧ s.me.strip = none ∧ s.me.pgrant = none

/-- The special registers of a process (Table 12.14): what CSRR reads of it beside its identity and its lanes. -/
structure Specials where
  vl : BitVec 12
  vs : Word
  vt : Word
  vmsel : BitVec 5
  mt : BitVec 7
  peer : BitVec 22
  mstep : BitVec 7
  nbv : BitVec 8
  fflags : BitVec 5
  cflags : BitVec 21
  status : BitVec 8
  epc : BitVec 48
  cause : BitVec 48
  frec : Word
  deriving DecidableEq, Repr
/-- All but FFLAGS. -/
def Specials.noFlags (x : Specials) : Specials := { x with fflags := 0 }
/-- Those of a process. -/
def Proc.specials (p : Proc) : Specials :=
  { vl := p.vl, vs := p.vs, vt := p.vt, vmsel := p.vmsel, mt := p.mt, peer := p.peer, mstep := p.mstep, nbv := p.nbv,
    fflags := p.fflags, cflags := p.cflags, status := p.status, epc := p.epc, cause := p.cause, frec := p.frec }

/-- Every byte of memory and every capability tag reads as before. -/
structure SameMemory (s t : State) : Prop where
  sram : ∀ k, t.sramByte k = s.sramByte k
  hbm : ∀ part k, t.hbmByte part k = s.hbmByte part k
  sramTag : ∀ g, Tab.lookD t.sramTags g false = Tab.lookD s.sramTags g false
  hbmTag : ∀ g, Tab.lookD t.hbmTags g false = Tab.lookD s.hbmTags g false
/-- The units of every tile hold what they held: vector bank, mask bits, tile registers with their shapes, codebook table,
analyser, and their owners. -/
structure SameUnits (s t : State) : Prop where
  vbank : ∀ n, (t.tile n).vbank = (s.tile n).vbank
  mbank : ∀ n, (t.tile n).mbank = (s.tile n).mbank
  treg : ∀ n, (t.tile n).treg = (s.tile n).treg
  tsh : ∀ n, (t.tile n).tsh = (s.tile n).tsh
  cbt : ∀ n, (t.tile n).cbt = (s.tile n).cbt
  an : ∀ n, (t.tile n).an = (s.tile n).an
  owners : ∀ n, (t.tile n).owners = (s.tile n).owners
/-- Every other process, every partition and the module's own registers are as before. -/
structure SameRest (s t : State) : Prop where
  running : t.running = s.running
  procs : ∀ h, h ≠ s.running → t.proc h = s.proc h
  parts : ∀ n, t.part n = s.part n
  eps : ∀ e, t.ep e = s.ep e
  pcap : t.pcap = s.pcap
  pset : t.pset = s.pset
  hepset : t.hepset = s.hepset
  cycle : t.cycle = s.cycle
/-- The running process keeps its channel and capability registers, and its scalar registers but those of the list. -/
structure SameRegs (s t : State) (ds : List (BitVec 5)) : Prop where
  regs : ∀ r, r ∉ ds → t.reg r = s.reg r
  caps : ∀ k, t.me.cap k = s.me.cap k
  chans : ∀ c, t.me.chan c = s.me.chan c
/-- The running process's instruction has completed: it is READY at `pc`. -/
structure WentTo (t : State) (pc : BitVec 48) : Prop where
  pc : t.me.pc = pc
  ready : t.me.pst = .ready
/-- An instruction that writes the scalar registers `ds` at most: it completes, and everything else is as before. -/
structure OnlyRegs (s t : State) (ds : List (BitVec 5)) (pc : BitVec 48) : Prop where
  went : WentTo t pc
  regs : SameRegs s t ds
  special : t.me.specials = s.me.specials
  memory : SameMemory s t
  units : SameUnits s t
  rest : SameRest s t

/-- The running process has been parked by a cause (R231): EPC, the record's first slot in FREC, the record queued at its tile;
its scalar and capability registers, memory and the units are as before. -/
structure Parks (s t : State) (c : Cause) (epc : BitVec 48) : Prop where
  parked : t.me.pst = .parkedFault
  epc : t.me.epc = epc
  cause : t.me.frec.toNat % 256 = c.code
  handle : t.me.frec.toNat / 2 ^ 32 = s.running % 2 ^ 32
  record : ∃ f ∈ (t.tile s.me.tile).frecs, f.part = s.me.part ∧ f.slots.length = 8 ∧ f.slots.headD 0 = t.me.frec ∧
    f.firmware = decide (1 ≤ s.me.pl)
  pc : t.me.pc = s.me.pc
  regs : ∀ r, t.reg r = s.reg r
  caps : ∀ k, t.me.cap k = s.me.cap k
  memory : SameMemory s t
  units : SameUnits s t
  running : t.running = s.running

/-- The running process may use its lanes at once: no grant and no single step is pending, no fill of the vector registers is under
way, every mask register can be read, and no sliver belongs to another process (R47, R95, R97, R241, R245). -/
structure VecReady (s : State) (rs : List (BitVec 5)) : Prop where
  grant : s.me.pgrant = none
  step : s.me.ss = false
  filled : s.me.filling (rs.map fun r => r.toNat) = []
  masks : ∀ m, Tab.lookD s.me.mlat m 0 ≤ s.cycle
  own : s.conflict s.running 0 s.me.slivers = none
/-- A vector instruction of the running process has completed: its slivers are its own, and but for the scalar registers of the list,
FFLAGS, the vector bank and the mask bits everything is as before. -/
structure VecDone (s t : State) (ds : List (BitVec 5)) : Prop where
  went : WentTo t (s.me.pc + 4)
  regs : SameRegs s t ds
  special : t.me.specials.noFlags = s.me.specials.noFlags
  memory : SameMemory s t
  rest : SameRest s t
  treg : ∀ n, (t.tile n).treg = (s.tile n).treg
  tsh : ∀ n, (t.tile n).tsh = (s.tile n).tsh
  cbt : ∀ n, (t.tile n).cbt = (s.tile n).cbt
  an : ∀ n, (t.tile n).an = (s.tile n).an
  owners : ∀ n u, Tab.lookD (t.tile n).owners u 0 =
    if n = s.me.tile ∧ u ∈ s.me.slivers ∧ s.me.crosses 0 = false then s.running else Tab.lookD (s.tile n).owners u 0
/-- The vector banks hold what they held. -/
def SameVec (s t : State) : Prop := ∀ n k, Tab.lookD (t.tile n).vbank k 0 = Tab.lookD (s.tile n).vbank k 0
/-- The mask bits are as before. -/
def SameMask (s t : State) : Prop := ∀ n k, Tab.lookD (t.tile n).mbank k false = Tab.lookD (s.tile n).mbank k false
/-- Of the vector banks, the elements of one register of the running process at the positions where `f` answers have its values, cut to
the element width; every other byte is as before. -/
structure PutVec (s t : State) (v : VCtx) (ew r : Nat) (f : Nat → Option Nat) : Prop where
  elems : ∀ i, i < vlmaxOf v.lanes.length ew → t.elemAt v ew r i = match f i with
    | some x => x % 2 ^ ew
    | none => s.elemAt v ew r i
  others : ∀ n k, (∀ i b, n = v.tile → i < vlmaxOf v.lanes.length ew → (f i).isSome → b < ew / 8 → k ≠ v.keyAt ew r i b) →
    Tab.lookD (t.tile n).vbank k 0 = Tab.lookD (s.tile n).vbank k 0
/-- Of the mask bits, those of one register of the running process are `f`; every other bit is as before. -/
structure PutMask (s t : State) (v : VCtx) (r : Nat) (f : Nat → Bool) : Prop where
  bits : ∀ i, i < v.lanes.length * 32 → t.maskBit v r i = f i
  others : ∀ n k, (∀ i, n = v.tile → i < v.lanes.length * 32 → k ≠ v.maskKey r i) →
    Tab.lookD (t.tile n).mbank k false = Tab.lookD (s.tile n).mbank k false

end Sys2Proof.Machine
end

