-- ==== Sys2Proof/Certificates/Slice0/Obligations.lean ====
section
/-! DEFINITION. The statements of this model for the provers. -/

namespace Sys2Proof.Machine

/-- No event is due in this cycle. -/
def NothingDue (s : State) : Prop := ∀ d i rest, s.events = (d, i) :: rest → s.cycle < d

/-- The fetch of the chosen process: the process `h` that R41 chooses on tile `t` once those whose next instruction an interlock holds
are left out, its fetch at HBM key `k`, and the state `u` in which its instruction is performed (R41, R272). -/
structure Fetches (s : State) (t h k : Nat) (u : State) : Prop where
  chosen : ∃ v, v = (s.holdOut exec t).settleYields t ∧ v.choose (v.selectable t) = some h ∧
    ({ (if (v.part (v.proc h).part).seed = 0 then v else v.afterDraw (v.proc h).part (issueArbiter t)) with running := h }.goto h
      .running).fetchKey h = (u, .ok k)
  readable : u.hbmFails k 4 = false

/-- The deadline D of R41 for process `h` among the processes `e`. -/
def dueAt (s : State) (e : List Nat) (h : Nat) : Nat :=
  (s.proc h).since + 4 * e.countP fun q => decide ((s.proc q).level ≤ (s.proc h).level)
/-- By R41's tie rule `a` does not come behind `b`: lower level, then earlier last issue, one that has never issued before all others, then lower
context slot. -/
def NotBehind (a b : Proc) : Prop :=
  a.level < b.level ∨ a.level = b.level ∧ match a.lastIssue, b.lastIssue with
    | none, some _ => True
    | some _, none => False
    | some x, some y => x < y ∨ x = y ∧ a.slot ≤ b.slot
    | none, none => a.slot ≤ b.slot

/-- Destination, source registers and result of the scalar instructions with the ordinary latency (Tables 13.2 and 15.4, R301, R314,
R345, R346, R357, R359, R376, R415): numbers without bound, wrapped once at the end. -/
def aluOf (s : State) : Instr → Option (BitVec 5 × List (BitVec 5) × Word)
  | .add d a b => some (d, [a, b], .ofNat 64 ((s.reg a).toNat + (s.reg b).toNat))
  | .sub d a b => some (d, [a, b], .ofInt 64 ((s.reg a).toInt - (s.reg b).toInt))
  | .and d a b => some (d, [a, b], s.reg a &&& s.reg b)
  | .or d a b => some (d, [a, b], s.reg a ||| s.reg b)
  | .xor d a b => some (d, [a, b], s.reg a ^^^ s.reg b)
  | .sll d a b => some (d, [a, b], .ofNat 64 ((s.reg a).toNat * 2 ^ ((s.reg b).toNat % 64)))
  | .srl d a b => some (d, [a, b], .ofNat 64 ((s.reg a).toNat / 2 ^ ((s.reg b).toNat % 64)))
  | .sra d a b => some (d, [a, b], .ofInt 64 ((s.reg a).toInt / 2 ^ ((s.reg b).toNat % 64)))
  | .slt d a b => some (d, [a, b], if (s.reg a).toInt < (s.reg b).toInt then 1 else 0)
  | .sltu d a b => some (d, [a, b], if (s.reg a).toNat < (s.reg b).toNat then 1 else 0)
  | .min d a b => some (d, [a, b], if (s.reg a).toInt ≤ (s.reg b).toInt then s.reg a else s.reg b)
  | .max d a b => some (d, [a, b], if (s.reg b).toInt ≤ (s.reg a).toInt then s.reg a else s.reg b)
  | .clz d a => some (d, [a], .ofNat 64 (64 - (s.reg a).toNat.size))
  | .popc d a => some (d, [a], .ofNat 64 ((List.range 64).countP fun i => (s.reg a).getLsbD i))
  | .addi d a i => some (d, [a], .ofInt 64 ((s.reg a).toInt + i.toInt))
  | .andi d a i => some (d, [a], .ofNat 64 ((s.reg a).toNat &&& i.toNat))
  | .ori d a i => some (d, [a], .ofNat 64 ((s.reg a).toNat ||| i.toNat))
  | .xori d a i => some (d, [a], .ofNat 64 ((s.reg a).toNat ^^^ i.toNat))
  | .slti d a i => some (d, [a], if (s.reg a).toInt < i.toInt then 1 else 0)
  | .slli d a h => some (d, [a], .ofNat 64 ((s.reg a).toNat * 2 ^ h.toNat))
  | .srli d a h => some (d, [a], .ofNat 64 ((s.reg a).toNat / 2 ^ h.toNat))
  | .srai d a h => some (d, [a], .ofInt 64 ((s.reg a).toInt / 2 ^ h.toNat))
  | .lui d i => some (d, [], .ofInt 64 (i.toInt * 65536))
  | .auipc d i => some (d, [], .ofInt 64 (s.me.pc.toNat + i.toInt * 65536))
  | _ => none

/-- Destination, operands, result and latency of multiplication and division (R328, R356, R361): the quotient rounds toward zero, the
remainder takes the sign of the dividend; a divisor 0 gives all ones and the dividend. -/
def longOf (s : State) : Instr → Option (BitVec 5 × List (BitVec 5) × Word × Nat)
  | .mul d a b => some (d, [a, b], .ofInt 64 ((s.reg a).toInt * (s.reg b).toInt), 4)
  | .mulh d a b => some (d, [a, b], .ofInt 64 ((s.reg a).toInt * (s.reg b).toInt / 2 ^ 64), 4)
  | .mulhu d a b => some (d, [a, b], .ofNat 64 ((s.reg a).toNat * (s.reg b).toNat / 2 ^ 64), 4)
  | .div d a b => some (d, [a, b], if s.reg b = 0 then .allOnes 64 else .ofInt 64 ((s.reg a).toInt.tdiv (s.reg b).toInt), 24)
  | .divu d a b => some (d, [a, b], if s.reg b = 0 then .allOnes 64 else .ofNat 64 ((s.reg a).toNat / (s.reg b).toNat), 24)
  | .rem d a b => some (d, [a, b], if s.reg b = 0 then s.reg a else .ofInt 64 ((s.reg a).toInt.tmod (s.reg b).toInt), 24)
  | .remu d a b => some (d, [a, b], if s.reg b = 0 then s.reg a else .ofNat 64 ((s.reg a).toNat % (s.reg b).toNat), 24)
  | _ => none

/-- Operands, condition and offset of the branches (R302). -/
def branchOf (s : State) : Instr → Option (List (BitVec 5) × Bool × BitVec 13)
  | .beq x y o => some ([x, y], decide (s.reg x = s.reg y), o)
  | .bne x y o => some ([x, y], decide (s.reg x ≠ s.reg y), o)
  | .blt x y o => some ([x, y], decide ((s.reg x).toInt < (s.reg y).toInt), o)
  | .bge x y o => some ([x, y], decide ((s.reg y).toInt ≤ (s.reg x).toInt), o)
  | .bltu x y o => some ([x, y], decide ((s.reg x).toNat < (s.reg y).toNat), o)
  | .bgeu x y o => some ([x, y], decide ((s.reg y).toNat ≤ (s.reg x).toNat), o)
  | .beos o => some ([], decide (s.me.cflags.toNat % 2 = 1), o)
  | _ => none

/-- What a value is at the active positions. -/
def State.each {β : Type} (s : State) (v : VCtx) (f : Nat → β) : Nat → Option β := fun i => if s.active v i then some (f i) else none

/-- The elements that a vector instruction on integers writes, with its destination and the vector registers it uses (R387, R401):
arithmetic without bound, cut to EW at the end; SatS keeps the nearest value that EW bits hold. -/
def vintOf (s : State) (v : VCtx) : Instr → Option (BitVec 5 × List (BitVec 5) × (Nat → Option Nat))
  | .vadd d a b r => some (d, [d, a, b], s.each v fun i => s.elem v a i + s.elem v b (Rep.index r i))
  | .vsub d a b r => some (d, [d, a, b], s.each v fun i => wrapInt v.ew ((s.elem v a i : Int) - s.elem v b (Rep.index r i)))
  | .vmul d a b r => some (d, [d, a, b], s.each v fun i => s.elem v a i * s.elem v b (Rep.index r i))
  | .vmulh d a b r => some (d, [d, a, b], s.each v fun i =>
      wrapInt v.ew (signedOf v.ew (s.elem v a i) * signedOf v.ew (s.elem v b (Rep.index r i)) / 2 ^ v.ew))
  | .vmadd d a b r => some (d, [d, a, b], s.each v fun i => s.elem v d i + s.elem v a i * s.elem v b (Rep.index r i))
  | .vand d a b r => some (d, [d, a, b], s.each v fun i => s.elem v a i &&& s.elem v b (Rep.index r i))
  | .vor d a b r => some (d, [d, a, b], s.each v fun i => s.elem v a i ||| s.elem v b (Rep.index r i))
  | .vxor d a b r => some (d, [d, a, b], s.each v fun i => s.elem v a i ^^^ s.elem v b (Rep.index r i))
  | .vsll d a b r => some (d, [d, a, b], s.each v fun i => s.elem v a i * 2 ^ (s.elem v b (Rep.index r i) % v.ew))
  | .vsrl d a b r => some (d, [d, a, b], s.each v fun i => s.elem v a i / 2 ^ (s.elem v b (Rep.index r i) % v.ew))
  | .vsra d a b r => some (d, [d, a, b], s.each v fun i =>
      wrapInt v.ew (signedOf v.ew (s.elem v a i) / 2 ^ (s.elem v b (Rep.index r i) % v.ew)))
  | .vmin d a b r => some (d, [d, a, b], s.each v fun i =>
      if signedOf v.ew (s.elem v a i) ≤ signedOf v.ew (s.elem v b (Rep.index r i)) then s.elem v a i else s.elem v b (Rep.index r i))
  | .vmax d a b r => some (d, [d, a, b], s.each v fun i =>
      if signedOf v.ew (s.elem v b (Rep.index r i)) ≤ signedOf v.ew (s.elem v a i) then s.elem v a i else s.elem v b (Rep.index r i))
  | .vminu d a b r => some (d, [d, a, b], s.each v fun i => min (s.elem v a i) (s.elem v b (Rep.index r i)))
  | .vmaxu d a b r => some (d, [d, a, b], s.each v fun i => max (s.elem v a i) (s.elem v b (Rep.index r i)))
  | .vsadd d a b r => some (d, [d, a, b], s.each v fun i => satS v.ew (signedOf v.ew (s.elem v a i) + signedOf v.ew (s.elem v b (Rep.index r i))))
  | .vssub d a b r => some (d, [d, a, b], s.each v fun i => satS v.ew (signedOf v.ew (s.elem v a i) - signedOf v.ew (s.elem v b (Rep.index r i))))
  | .vabs d a => some (d, [d, a], s.each v fun i => (signedOf v.ew (s.elem v a i)).natAbs)
  | _ => none

/-- The same for merging, compressing, moving, permuting and integer reductions, with the scalar registers they read (R389, R390, R396,
R402, R404, R405, R408, R409). -/
def vmoveOf (s : State) (v : VCtx) : Instr → Option (BitVec 5 × List (BitVec 5) × List (BitVec 5) × (Nat → Option Nat))
  | .vmerge d a b r => some (d, [d, a, b], [], fun i =>
      if i < v.vl then some (if s.active v i then s.elem v b (Rep.index r i) else s.elem v a i) else none)
  | .vcompress d a => some (d, [d, a], [], fun i => (s.actives v)[i]?.map fun j => s.elem v a j)
  | .vexpand d a => some (d, [d, a], [], s.each v fun i => s.elem v a ((List.range i).countP fun j => s.active v j))
  | .viota d a => some (d, [d], [], s.each v fun i => (List.range i).countP fun j => s.active v j && s.maskBit v a.toNat j)
  | .vslideup d a b => some (d, [d, a], [b], fun i =>
      if s.active v i ∧ (s.reg b).toNat ≤ i then some (s.elem v a (i - (s.reg b).toNat)) else none)
  | .vslidedn d a b => some (d, [d, a], [b], s.each v fun i =>
      if i + (s.reg b).toNat < v.vlmax then s.elem v a (i + (s.reg b).toNat) else 0)
  | .vperm d a b r => some (d, [d, a, b], [], s.each v fun i =>
      if s.elem v b (Rep.index r i) < v.vlmax then s.elem v a (s.elem v b (Rep.index r i)) else 0)
  | .vmv d a => some (d, [d, a], [], s.each v fun i => s.elem v a i)
  | .vmvsv d a => some (d, [d], [a], s.each v fun _ => (s.reg a).toNat)
  | .vredsum d a b => some (d, [d, a, b], [], fun i => if i = 0 then
      some (s.elem v b 0 + ((s.actives v).map fun j => s.elem v a j).sum) else none)
  | .vredmin d a b => some (d, [d, a, b], [], fun i => if i = 0 then
      some (((s.actives v).map fun j => s.elem v a j).foldl (fun x y => if signedOf v.ew x ≤ signedOf v.ew y then x else y) (s.elem v b 0)) else none)
  | .vredmax d a b => some (d, [d, a, b], [], fun i => if i = 0 then
      some (((s.actives v).map fun j => s.elem v a j).foldl (fun x y => if signedOf v.ew y ≤ signedOf v.ew x then x else y) (s.elem v b 0)) else none)
  | _ => none

/-- Code and flags of the elements that a floating-point instruction writes, where the element type is `t` (R139, R140, R391, R393):
the exact result, rounded once. -/
def vfltOf (s : State) (v : VCtx) (t : Fmt) : Instr → Option (BitVec 5 × List (BitVec 5) × (Nat → Nat × Flags))
  | .vfadd d a b r => some (d, [d, a, b], fun i => roundOnce t ((t.decode (s.elem v a i)).add (t.decode (s.elem v b (Rep.index r i)))))
  | .vfsub d a b r => some (d, [d, a, b], fun i => roundOnce t ((t.decode (s.elem v a i)).add (t.decode (s.elem v b (Rep.index r i))).neg))
  | .vfmul d a b r => some (d, [d, a, b], fun i => roundOnce t ((t.decode (s.elem v a i)).mul (t.decode (s.elem v b (Rep.index r i)))))
  | .vfma d a b r => some (d, [d, a, b], fun i =>
      roundOnce t (fusedSum false (t.decode (s.elem v d i)) (t.decode (s.elem v a i)) (t.decode (s.elem v b (Rep.index r i)))))
  | .vfnma d a b r => some (d, [d, a, b], fun i =>
      roundOnce t (fusedSum true (t.decode (s.elem v d i)) (t.decode (s.elem v a i)) (t.decode (s.elem v b (Rep.index r i)))))
  | .vfdiv d a b r => some (d, [d, a, b], fun i => roundOnce t ((t.decode (s.elem v a i)).div (t.decode (s.elem v b (Rep.index r i)))))
  | .vfsqrt d a => some (d, [d, a], fun i => roundOnce t (t.decode (s.elem v a i)).sqrt)
  | .vfmin d a b r => some (d, [d, a, b], fun i => roundOnce t ((t.decode (s.elem v a i)).min (t.decode (s.elem v b (Rep.index r i))), 0))
  | .vfmax d a b r => some (d, [d, a, b], fun i => roundOnce t ((t.decode (s.elem v a i)).max (t.decode (s.elem v b (Rep.index r i))), 0))
  | .vfsgn d a b r => some (d, [d, a, b], fun i => (s.elem v a i % 2 ^ (v.ew - 1) + s.elem v b (Rep.index r i) / 2 ^ (v.ew - 1) % 2 * 2 ^ (v.ew - 1), 0))
  | .vfcvtSat d a => some (d, [d, a], fun i =>
      let c := convert (t.decode (s.elem v a i)) .e4m3 true
      ((convert (Fmt.e4m3.decode c.1) t false).1, c.2))
  | _ => none

/-- Code and flags of a conversion that stays within its register (Table 16.5). -/
def cvtOf (k : CvtKind) (t : Fmt) (w x : Nat) : Option (Nat × Flags) :=
  let via (f : Fmt) (sat : Bool) : Nat × Flags := let c := convert (t.decode x) f sat; ((convert (f.decode c.1) t false).1, c.2)
  match k with
  | .ftoi => let c := floatToInt (t.decode x) (-2 ^ (w - 1)) (2 ^ (w - 1) - 1); some (wrapInt w c.1, c.2)
  | .ftou => let c := floatToInt (t.decode x) 0 (2 ^ w - 1); some (wrapInt w c.1, c.2)
  | .itof => some (convert (FVal.ofInt (signedOf w x) 0 false) t false)
  | .utof => some (convert (FVal.ofInt x 0 false) t false)
  | .rbf16 => some (via .bf16 false)
  | .rfp16 => some (via .fp16 false)
  | .re4m3 => some (via .e4m3 false)
  | .re5m2 => some (via .e5m2 false)
  | .re2m1 => some (via .e2m1 true)
  | .widen | .narrow => none

/-- FFLAGS after flags have been raised outside any strip; a strip holds them back until it commits (R141). -/
def flagsAfter (s : State) (f : Flags) : Flags := if s.me.strip = none then s.me.fflags ||| f else s.me.fflags
/-- The flags of all active positions together. -/
def orAll (l : List Nat) (f : Nat → Flags) : Flags := l.foldl (fun a i => a ||| f i) 0

/-- The bits that a comparison or VMLOG writes at active positions, with its destination and the vector registers it reads (R388, R392,
R403). -/
def maskOf (s : State) (v : VCtx) (t : Fmt) : Instr → Option (BitVec 3 × List (BitVec 5) × (Nat → Bool))
  | .vcmp d a b r c => some (d, [a, b], fun i => ICond.holds c v.ew (s.elem v a i) (s.elem v b (Rep.index r i)))
  | .vfcmp d a b r c => some (d, [a, b], fun i => FCond.holds c (t.decode (s.elem v a i)) (t.decode (s.elem v b (Rep.index r i))))
  | .vmlog d a b o => some (d, [], fun i => MOp.eval o (s.maskBit v a.toNat i) (s.maskBit v b.toNat i))
  | _ => none

/-- The scalar results of vector instructions, with the vector and the scalar registers they use (R403, R404). -/
def vscalOf (s : State) (v : VCtx) : Instr → Option (BitVec 5 × List (BitVec 5) × List (BitVec 5) × Word)
  | .vmpop d a => some (d, [], [d], .ofNat 64 ((List.range v.vl).countP fun i => s.active v i && s.maskBit v a.toNat i))
  | .vmfirst d a => some (d, [], [d], match (List.range v.vl).find? fun i => s.active v i && s.maskBit v a.toNat i with
      | some i => .ofNat 64 i
      | none => .allOnes 64)
  | .vmvvs d a b => some (d, [a], [b, d],
      if (s.reg b).toNat < v.vlmax then .ofInt 64 (signedOf v.ew (s.elem v a (s.reg b).toNat)) else 0)
  | _ => none

/-- A node of the reduction tree of R143 at height `n`: leaves are the active elements as FP32; a node with one child present passes it
on, and one with two combines them. -/
def treeNode (f : Nat → Nat → Nat × Flags) (leaf : Nat → Option Nat) : Nat → Nat → Option Nat × Flags
  | 0, i => (leaf i, 0)
  | n + 1, i =>
    let x := treeNode f leaf n (2 * i)
    let y := treeNode f leaf n (2 * i + 1)
    match x.1, y.1 with
    | none, z => (z, x.2 ||| y.2)
    | z, none => (z, x.2 ||| y.2)
    | some p, some q => (some (f p q).1, x.2 ||| y.2 ||| (f p q).2)
/-- The result and flags of a floating-point reduction: the root of the least tree over VL leaves, combined with the seed, rounded once
more to the element type; the seed bit for bit where nothing is active (R143, R395). -/
def vfredOf (s : State) (v : VCtx) (t : Fmt) : Instr → Option (BitVec 5 × List (BitVec 5) × Nat × Flags)
  | .vfredsum d a b => some (d, [d, a, b], go a b sumNode)
  | .vfredmin d a b => some (d, [d, a, b], go a b minNode)
  | .vfredmax d a b => some (d, [d, a, b], go a b maxNode)
  | _ => none
where
  go (a b : BitVec 5) (f : Nat → Nat → Nat × Flags) : Nat × Flags :=
    let n := ((List.range 13).find? fun n => decide (v.vl ≤ 2 ^ n)).getD 0
    let root := treeNode f (fun i => if s.active v i then some (toFp32 t (s.elem v a i)) else none) n 0
    match root.1 with
    | none => (s.elem v b 0, 0)
    | some y =>
      let z := f y (toFp32 t (s.elem v b 0))
      if t = .fp32 then (z.1, root.2 ||| z.2)
      else
        let c := convert (Fmt.fp32.decode z.1) t false
        (c.1, root.2 ||| z.2 ||| c.2)

/-- R77, R80. `n` bytes at LOCAL offset `a`: MT names LOCAL, they lie in the window and below the channel buffer area, and no line of
them is withdrawn. -/
structure LocalBytes (s : State) (a n : Nat) : Prop where
  mt : s.me.mtype = 0
  low : s.me.wbase ≤ a
  high : a + n ≤ s.me.wbase + s.me.wsize
  slice : a + n + s.myPart.cbsize ≤ 0x100000
  kept : s.isWithdrawn (s.me.tile * 0x100000 + a) n = false

/-- The number that `n` bytes of the own slice stand for, lowest byte first. -/
def localVal (s : State) (a n : Nat) : Nat :=
  ((List.range n).map fun i => (s.sramByte (s.me.tile * 0x100000 + a + i)).toNat * 256 ^ i).sum

/-- Of all memory, `n` bytes of the own slice have changed, to those of `v`; the granules they touch have lost their tags (R83). -/
structure StoredLocal (s t : State) (a n v : Nat) : Prop where
  bytes : ∀ k, t.sramByte k = if s.me.tile * 0x100000 + a ≤ k ∧ k < s.me.tile * 0x100000 + a + n then
    BitVec.ofNat 8 (v / 256 ^ (k - (s.me.tile * 0x100000 + a))) else s.sramByte k
  tags : ∀ g, Tab.lookD t.sramTags g false =
    if (s.me.tile * 0x100000 + a) / 16 ≤ g ∧ g ≤ (s.me.tile * 0x100000 + a + n - 1) / 16 then false else Tab.lookD s.sramTags g false
  hbm : ∀ part k, t.hbmByte part k = s.hbmByte part k
  hbmTag : ∀ g, Tab.lookD t.hbmTags g false = Tab.lookD s.hbmTags g false

/-- An instruction that stores to the own slice, and writes the scalar registers of the list at most, has completed. -/
structure OnlyStored (s t : State) (a n v : Nat) (ds : List (BitVec 5)) : Prop where
  went : WentTo t (s.me.pc + 4)
  regs : SameRegs s t ds
  special : t.me.specials = s.me.specials
  memory : StoredLocal s t a n v
  units : SameUnits s t
  rest : SameRest s t

/-- What the atomics write, of the old value `x` and the operand `y`, both `n` bytes wide; `z` is ACAS's new value (R119, R297). -/
def atomicResult (n x y z : Nat) : Instr → Nat
  | .aadd _ _ _ | .axadd _ _ _ _ => (x + y) % 256 ^ n
  | .amin _ _ _ => if signedOf (8 * n) x ≤ signedOf (8 * n) y then x else y
  | .amax _ _ _ => if signedOf (8 * n) y ≤ signedOf (8 * n) x then x else y
  | .aand _ _ _ => x &&& y
  | .aor _ _ _ => x ||| y
  | .axchg _ _ _ _ => y
  | .acas _ _ _ _ => if x = y then z else x
  | _ => x
/-- Address register, operand register and size of the atomics without a result. -/
def atomicPlainOf : Instr → Option (BitVec 5 × BitVec 5 × Nat)
  | .aadd a b z | .amin a b z | .amax a b z | .aand a b z | .aor a b z => some (a, b, ASize.bytes z)
  | _ => none
/-- Destination, address register, operand register, further register and size of the atomics with a result. -/
def atomicValueOf : Instr → Option (BitVec 5 × BitVec 5 × BitVec 5 × List (BitVec 5) × Nat)
  | .axadd d a b z | .axchg d a b z => some (d, a, b, [], ASize.bytes z)
  | .acas d a b z => some (d, a, b, [b + 1], ASize.bytes z)
  | _ => none

/-- The scalar registers that an access instruction reads, its major opcode, its address, its bytes and its alignment. -/
def accessOf (s : State) : Instr → Option (List (BitVec 5) × Word × Nat)
  | .ld d a z i => some ([a, d], s.reg a + i.signExtend 64, Size.bytes z)
  | .st d a z i => some ([a, d], s.reg a + i.signExtend 64, Size.bytes z)
  | .aadd a b z | .amin a b z | .amax a b z | .aand a b z | .aor a b z => some ([a, b], s.reg a, ASize.bytes z)
  | .kld _ a | .kst _ a => some ([a], s.reg a, 16)
  | _ => none
/-- The cause of an access of `n` bytes at `a` that the checks before translation refuse, in their order: MEMTYPE, MISALIGN, and for
LOCAL the window (R77 to R80, R237). -/
def accessFault (s : State) (a n : Nat) : Option Cause :=
  if 5 ≤ s.me.mtype then some .memtype
  else if a % n ≠ 0 then some .misalign
  else if s.me.mtype = 0 ∧ (a < s.me.wbase ∨ s.me.wbase + s.me.wsize < a + n ∨ 0x100000 < a + n + s.myPart.cbsize) then some .protection
  else none

/-- A capability as a granule holds it (R82). -/
def localCap (s : State) (a : Nat) : Cap :=
  { bits := .ofNat 128 (localVal s a 16), tag := Tab.lookD s.sramTags ((s.me.tile * 0x100000 + a) / 16) false }

/-- An instruction that leaves the special registers as `x` and writes the scalar registers of the list at most: it completes, and
everything else is as before. -/
structure OnlySpecial (s t : State) (x : Specials) (ds : List (BitVec 5)) : Prop where
  went : WentTo t (s.me.pc + 4)
  regs : SameRegs s t ds
  special : t.me.specials = x
  memory : SameMemory s t
  units : SameUnits s t
  rest : SameRest s t

/-- What the SET instructions and CSRW leave in the special registers of the checkpoint, with the register they read (R77, R89, R159, R287,
R368): reserved bits are dropped. -/
def setRegOf (s : State) : Instr → Option (BitVec 5 × Specials)
  | .setvs a | .csrw a .vs => some (a, { s.me.specials with vs := s.reg a })
  | .setmt a | .csrw a .mt => some (a, { s.me.specials with mt := .ofNat 7 ((s.reg a).toNat % 8 + (s.reg a).toNat / 16 % 8 * 16) })
  | .setpeer a | .csrw a .peer => some (a, { s.me.specials with peer := .ofNat 22 (s.reg a).toNat })
  | .csrw a .vmsel => some (a, { s.me.specials with vmsel := .ofNat 5 (s.reg a).toNat })
  | .csrw a .cflags => some (a, { s.me.specials with cflags := .ofNat 21 ((s.reg a).toNat % 2 + (s.reg a).toNat / 256 % 8192 * 256) })
  | _ => none

/-- What CSRR reads, for the registers of a process and of its partition (Table 12.14, R287, R319). -/
def csrReads (s : State) : Csr → Option Word
  | .vl => some (.ofNat 64 s.me.vl.toNat)
  | .vs => some s.me.vs
  | .vt => some s.me.vt
  | .vmsel => some (.ofNat 64 s.me.vmsel.toNat)
  | .mt => some (.ofNat 64 s.me.mt.toNat)
  | .peer => some (.ofNat 64 s.me.peer.toNat)
  | .mstep => some (.ofNat 64 s.me.mstep.toNat)
  | .nbv => some (.ofNat 64 s.me.nbv.toNat)
  | .fflags => some (.ofNat 64 s.me.fflags.toNat)
  | .cflags => some (.ofNat 64 s.me.cflags.toNat)
  | .lpart => some (.ofNat 64 (s.lpart s.running))
  | .pid => some (.ofNat 64 s.running)
  | .cycle => some (.ofNat 64 s.cycle)
  | .status => some (.ofNat 64 s.me.status.toNat)
  | .epc => some (.ofNat 64 s.me.epc.toNat)
  | .cause => some (.ofNat 64 s.me.cause.toNat)
  | .frec => some s.me.frec
  | .tvec => some (.ofNat 64 s.myPart.tvec.toNat)
  | .stimeo => some (.ofNat 64 s.myPart.stimeo.toNat)
  | .tsh i => some (.ofNat 64 (Tab.lookD (s.tile s.me.tile).tsh i.toNat 0x3F3F).toNat)
  | .seeda => some s.myPart.seeda
  | .seedb => some s.myPart.seedb
  | .tlbi | .resume | .pswap => some 0
  | .sdesc => some s.myPart.sdesc
  | .pset => some (.ofNat 64 s.pset.toNat)
  | .hepset => some (.ofNat 64 s.hepset.toNat)
  | .pcap => some (.ofNat 64 s.pcap.toNat)
/-- The level that a read needs (Table 12.14). -/
def csrNeeds : Csr → Nat
  | .pset | .hepset => 2
  | .tlbi | .sdesc | .resume | .pswap | .pcap => 1
  | _ => 0

/-- What a CSRW of a process register outside the checkpoint leaves, at the level that may change it (Table 12.14, R227, R229, R287); a
read-only register discards the write. -/
def csrWrites (s : State) (v : Word) : Csr → Option Specials
  | .fflags => some { s.me.specials with fflags := .ofNat 5 v.toNat }
  | .mstep => some (if 1 ≤ s.me.pl then { s.me.specials with mstep := .ofNat 7 v.toNat } else s.me.specials)
  | .epc => some (if 1 ≤ s.me.pl then { s.me.specials with epc := .ofNat 48 (v.toNat / 4 * 4) } else s.me.specials)
  | .status =>
    if s.me.pl = 0 ∧ v.toNat / 16 % 16 ≠ s.me.status.toNat / 16 then none
    else some { s.me.specials with status := .ofNat 8 (s.me.status.toNat % 16 + v.toNat / 16 % 16 * 16) }
  | .vl | .nbv | .lpart | .pid | .cycle | .cause | .frec | .tsh _ => some s.me.specials
  | _ => none

/-- The shape that a SETVL of `avl` elements asks for on an unfused tile (R43): nothing, one sliver, or whole clusters. -/
def shapeFor (avl ew : Nat) : Want :=
  let lanes := min 64 ((avl * ew + 255) / 256)
  if avl = 0 then .none else if lanes ≤ 4 then .sliver else .clusters (if lanes ≤ 16 then 1 else if lanes ≤ 32 then 2 else 4)

/-- The plain vector accesses: store or load, the vector register, the address register, the vector registers used, and the address of each
element (R79, R397, R410). -/
def vmemOf (s : State) (v : VCtx) : Instr → Option (Bool × BitVec 5 × BitVec 5 × List (BitVec 5) × (Nat → Word))
  | .vld d a => some (false, d, a, [d], fun i => s.reg a + .ofNat 64 (i * fmtBytes v.vt))
  | .vlds d a => some (false, d, a, [d], fun i => s.reg a + .ofNat 64 i * s.me.vs)
  | .vldx d a b => some (false, d, a, [d, b], fun i => s.reg a + .ofInt 64 (signedOf v.ew (s.elem v b i)))
  | .vst d a => some (true, d, a, [d], fun i => s.reg a + .ofNat 64 (i * fmtBytes v.vt))
  | .vsts d a => some (true, d, a, [d], fun i => s.reg a + .ofNat 64 i * s.me.vs)
  | .vstx d a b => some (true, d, a, [d, b], fun i => s.reg a + .ofInt 64 (signedOf v.ew (s.elem v b i)))
  | _ => none
/-- VT names a memory format that holds one element in whole bytes and suits the register type (Table 6.5). -/
def PlainFormat (vt : Word) : Prop := fmtSuits vt = true ∧ vtFmt vt ≠ 6 ∧ vtFmt vt ≠ 7

/-- A byte of the own slice after stores of `n` bytes of `val i` at LOCAL address `addr i`, in the order of the list. -/
def storedByte (s : State) (n : Nat) (addr val : Nat → Nat) (l : List Nat) (k : Nat) : Byte :=
  l.foldl (fun b i => if s.me.tile * 0x100000 + addr i ≤ k ∧ k < s.me.tile * 0x100000 + addr i + n then
    BitVec.ofNat 8 (val i / 256 ^ (k - (s.me.tile * 0x100000 + addr i))) else b) (s.sramByte k)
/-- A vector store has completed: but for FFLAGS and memory all is as before. -/
structure VecStored (s t : State) : Prop where
  went : WentTo t (s.me.pc + 4)
  regs : SameRegs s t []
  special : t.me.specials.noFlags = s.me.specials.noFlags
  vec : SameVec s t
  mask : SameMask s t
  treg : ∀ n, (t.tile n).treg = (s.tile n).treg
  rest : SameRest s t
  hbm : ∀ part k, t.hbmByte part k = s.hbmByte part k
  hbmTag : ∀ g, Tab.lookD t.hbmTags g false = Tab.lookD s.hbmTags g false

/-- Where the segment of element `i` starts, of a vector access at LOCAL address `a` (R161, Table 7.8). -/
def segStart (vt : Word) (a i : Nat) : Nat := a + i / vtBlock vt * (segSize vt).2
/-- The exact value of the code of element `i` of such a segment: a nibble as E2M1, or a codebook weight as E4M3 (R131, R142). -/
def segCode (s : State) (vt : Word) (a i : Nat) : FVal :=
  let o := i % vtBlock vt
  if vtFmt vt = 6 then e2m1Value (localVal s (segStart vt a i + o / 2) 1 / 16 ^ (o % 2))
  else Fmt.e4m3.decode ((s.tile s.me.tile).cb2 (localVal s (segStart vt a i + o / 8 * 2) 2) (o % 8))

/-- Nothing of the running process is on its way to memory or to a channel. -/
structure NoneUnderWay (s : State) : Prop where
  staged : s.staged = []
  buffered : ∀ e ∈ (s.tile s.me.tile).cb, e.2.h ≠ s.running
  accesses : ∀ e ∈ s.reqs, e.2.h ≠ s.running
/-- Channel register `c` of the running process writes to tile endpoint `e`, and holds the credits for `n` slots in messages of at most
`m` (R56, R58). -/
structure WritesTo (s : State) (c : BitVec 4) (e m n : Nat) : Prop where
  role : (s.me.chan c.toNat).role = .writer
  plain : (s.me.chan c.toNat).use = .plain
  dest : (s.me.chan c.toNat).dest = .tile e
  open_ : (s.me.chan c.toNat).gone = false ∧ (s.me.chan c.toNat).frozen = false ∧ (s.me.chan c.toNat).refused = none
  fits : (s.me.chan c.toNat).granted = true → m ≤ (s.me.chan c.toNat).bcap
  credits : n ≤ (s.me.chan c.toNat).credits
/-- Channel register `c` of the running process reads tile endpoint `e`, whose BCAP is at least `n`; no slot lies in the Caldera, and none is
retained for a process from which the end has moved (R69). -/
structure ReadsFrom (s : State) (c : BitVec 4) (e n : Nat) : Prop where
  role : (s.me.chan c.toNat).role = .reader
  plain : (s.me.chan c.toNat).use = .plain
  open_ : (s.me.chan c.toNat).gone = false
  dest : (s.me.chan c.toNat).dest = .tile e
  fits : n ≤ (s.ep e).bcap
  kept : (s.ep e).kept = 0
  near : ∀ x ∈ (s.ep e).queue, x.cal = false
/-- The data message that channel register `c` of the running process sends. -/
def dataOf (s : State) (c : BitVec 4) (m : Msg) : NetMsg :=
  { wid := widOf s.running c.toNat, dest := (s.me.chan c.toNat).dest, body := .data m, part := s.me.part, net := s.me.net }
/-- An instruction that completes, writes the scalar registers of the list at most, and changes no special register but CFLAGS, to `cf`. -/
structure OnlyFlags (s t : State) (ds : List (BitVec 5)) (cf : BitVec 21) : Prop where
  went : WentTo t (s.me.pc + 4)
  regs : ∀ r, r ∉ ds → t.reg r = s.reg r
  special : t.me.specials = { s.me.specials with cflags := cf }
  memory : SameMemory s t
  running : t.running = s.running
/-- A push has completed: `n` credits are spent; the messages are under way, each with the step of its arrival; no register, no other
channel register and no byte of memory has changed. -/
structure Sent (s t : State) (c : BitVec 4) (n : Nat) (ms : List Msg) : Prop where
  only : OnlyFlags s t [] s.me.cflags
  chan : t.me.chan c.toNat = { s.me.chan c.toNat with credits := (s.me.chan c.toNat).credits - n }
  others : ∀ k, k ≠ c.toNat → t.me.chan k = s.me.chan k
  net : t.net = s.net ++ ms.map (dataOf s c)
  due : ms ≠ [] → ∃ e ∈ t.events, e.2 = .channelMessageArrive (widOf s.running c.toNat)
  staged : t.staged = []
/-- The same inside a strip, which holds the messages back until its commit (R63). -/
structure HeldBack (s t : State) (c : BitVec 4) (n : Nat) (xs : List Held) : Prop where
  only : OnlyFlags s t [] s.me.cflags
  chan : t.me.chan c.toNat = { s.me.chan c.toNat with credits := (s.me.chan c.toNat).credits - n }
  others : ∀ k, k ≠ c.toNat → t.me.chan k = s.me.chan k
  strip : t.me.strip = s.me.strip.map fun k => { k with held := k.held ++ xs }
  net : t.net = s.net
  staged : t.staged = s.staged

/-- The number that the elements 0 to VL − 1 of a vector register stand for, element 0 lowest (R61). -/
def packedVec (s : State) (v : VCtx) (r : BitVec 5) : Nat := ((List.range v.vl).map fun i => s.elem v r i * 2 ^ (v.ew * i)).sum
/-- The number that slots stand for, the first lowest. -/
def packedSlots (l : List QSlot) : Nat := (l.zipIdx.map fun x => x.1.val.toNat * 2 ^ (64 * x.2)).sum
/-- The slots that VL elements fill (R61). -/
def slotsOf (v : VCtx) : Nat := (v.vl * v.ew + 63) / 64

/-- Slots of data ahead of the first marker in the queue of endpoint `e` (R60). -/
def dataIn (s : State) (e : Nat) : Nat := ((s.ep e).queue.takeWhile fun x => !x.marker).length
/-- There is a marker in that queue. -/
def markerIn (s : State) (e : Nat) : Prop := ∃ x ∈ (s.ep e).queue, x.marker = true
/-- CFLAGS after a read of `n` slots that meets `j` data slots: EOS where the marker comes first, CNT the data slots taken (R60). -/
def cflagsRead (n j : Nat) : BitVec 21 := .ofNat 21 ((if j < n then 1 else 0) + min n j * 256)
/-- Entries that such a read consumes. -/
def takenBy (n j : Nat) : Nat := if j < n then j + 1 else n
/-- A read of `n` slots at endpoint `e` has consumed what it took. -/
structure Consumed (s t : State) (e n : Nat) : Prop where
  queue : (t.ep e).queue = (s.ep e).queue.drop (takenBy n (dataIn s e))
  count : (t.ep e).consumed = (s.ep e).consumed + .ofNat 64 (takenBy n (dataIn s e))

/-- The checks of R58 on channel register `c`, for the instruction's role and slots. -/
def chanFault (s : State) (c : BitVec 4) (role : Role) (n : Nat) : Option Cause :=
  let x := s.me.chan c.toNat
  if x.role = .unbound then some .chanUnbound
  else if x.role ≠ role ∨ x.use ≠ .plain then some .protection
  else if role = .writer ∧ x.gone then some .chanUnbound
  else if role = .writer ∧ x.granted ∧ x.bcap < n then some .protection
  else match role, x.dest with
    | .reader, .tile e => if (s.ep e).bcap < n then some .protection else none
    | _, _ => none
/-- Channel register, role, slots and scalar registers of the instructions that use a channel. -/
def chanUseOf (s : State) : Instr → Option (BitVec 4 × Role × Nat × List (BitVec 5))
  | .cpush d c m => some (c, .writer, m.toNat + 1, (List.range (m.toNat + 1)).map fun i => d + .ofNat 5 i)
  | .cclose c => some (c, .writer, 1, [])
  | .ksend _ c => some (c, .writer, 2, [])
  | .cpop d c m => some (c, .reader, m.toNat + 1, (List.range (m.toNat + 1)).map fun i => d + .ofNat 5 i)
  | .cpeek d c b => some (c, .reader, (s.reg b).toNat + 1, [d, b])
  | .cadv c b => some (c, .reader, (s.reg b).toNat, [b])
  | .krecv _ c => some (c, .reader, 2, [])
  | _ => none

/-- An instruction on a channel register that completes and leaves the channel register `c` as `x`; no scalar or special register, no
other channel register and no byte of memory has changed. -/
structure Rebound (s t : State) (c : BitVec 4) (x : ChanReg) : Prop where
  only : OnlyFlags s t [] s.me.cflags
  chan : t.me.chan c.toNat = x
  others : ∀ k, k ≠ c.toNat → t.me.chan k = s.me.chan k
  caps : ∀ k, t.me.cap k = s.me.cap k
/-- An instruction has freed endpoint `e`: of memory, only the bytes of its buffer run may have changed, where a message ever came (R55, log 81). -/
structure FreesEntry (s t : State) (e : Nat) : Prop where
  ep : t.ep e = {}
  others : ∀ k, k ≠ e → t.ep k = s.ep k
  regs : ∀ r, t.reg r = s.reg r
  caps : ∀ k, t.me.cap k = s.me.cap k
  special : t.me.specials = s.me.specials
  sram : ∀ k, ((s.ep e).arrived = 0 ∨ k < e / 256 * 0x100000 + (s.ep e).run ∨ e / 256 * 0x100000 + (s.ep e).run + 8 * (s.ep e).bcap ≤ k) →
    t.sramByte k = s.sramByte k
  hbm : ∀ part k, t.hbmByte part k = s.hbmByte part k
  running : t.running = s.running
/-- The message at the head of what is under way is `b` from the writer in channel register `c` of process `h` to endpoint `e`, where
that register writes. -/
structure HeadMsg (s : State) (h c e : Nat) (b : NetBody) (rest : List NetMsg) : Prop where
  head : ∃ m, s.net = m :: rest ∧ m.wid = widOf h c ∧ m.dest = .tile e ∧ m.body = b
  writer : ((s.proc h).chan c).role = .writer ∧ ((s.proc h).chan c).dest = .tile e
  ids : h < 2 ^ 32 ∧ c < 16 ∧ e < 2 ^ 19

/-- R80. `n` bytes at LOCAL offset `a` of a process lie in its window and below the channel buffer area, and no line of the module's SRAM
is withdrawn. -/
structure WindowBytes (s : State) (h a n : Nat) : Prop where
  low : (s.proc h).wbase ≤ a
  high : a + n ≤ (s.proc h).wbase + (s.proc h).wsize
  slice : a + n + (s.part (s.proc h).part).cbsize ≤ 0x100000
  kept : s.withdrawn = []
/-- Doubleword `i` of the descriptor at LOCAL offset `a` of the running process (Table 4.7). -/
def descAt (s : State) (a i : Nat) : Nat := localVal s (a + 8 * i) 8
/-- R92 step 1. A descriptor without migration that breaks no rule of Table 4.7: no reserved bit, space codes 0 to 4. -/
structure PlainDesc (s : State) (a : Nat) : Prop where
  window : WindowBytes s s.running a 64
  aligned : a % 8 = 0
  src : descAt s a 0 / 2 ^ 61 ≤ 4 ∧ descAt s a 0 / 2 ^ 48 % 2 ^ 10 = 0
  dst : descAt s a 1 / 2 ^ 61 ≤ 4 ∧ descAt s a 1 / 2 ^ 48 % 2 ^ 10 = 0
  sizes : descAt s a 4 / 2 ^ 17 % 2 ^ 15 = 0
  rest : descAt s a 5 < 2 ^ 22 ∧ descAt s a 6 = 0 ∧ descAt s a 7 = 0
/-- The binding that a descriptor makes (R92), whose capabilities are those of the registers it names. -/
structure BoundBy (s : State) (a port d : Nat) (b : Binding) : Prop where
  owner : b.h = s.running ∧ b.tile = s.me.tile ∧ b.port = port ∧ b.sd = d ∧ b.pc = s.me.pc
  spaces : b.sspace = descAt s a 0 / 2 ^ 61 ∧ b.dspace = descAt s a 1 / 2 ^ 61
  bases : b.sbase = descAt s a 0 % 2 ^ 48 ∧ b.dbase = descAt s a 1 % 2 ^ 48
  caps : b.scap = s.me.cap (descAt s a 0 / 2 ^ 58 % 8) ∧ b.dcap = s.me.cap (descAt s a 1 / 2 ^ 58 % 8)
  strides : b.sstride = .ofNat 64 (descAt s a 2) ∧ b.dstride = .ofNat 64 (descAt s a 3)
  sector : b.sector = descAt s a 4 % 2 ^ 17
  peer : b.peer = descAt s a 5 % 2 ^ 22
  start : b.done = 0 ∧ b.mig = false
/-- A stream instruction has made binding `s.nextId`, alone on its port, and its token is pending. -/
structure Launched (s t : State) (a port d : Nat) (g : Option (List (Nat × Word))) (n : Nat) : Prop where
  bind : ∃ b, Tab.look t.binds s.nextId = some b ∧ BoundBy s a port d b ∧ b.st = .queued ∧ b.count = n ∧ b.gather = g
  queue : Tab.lookD (t.tile s.me.tile).ports port [] = [s.nextId]
  due : ∃ e ∈ t.events, e.2 = .streamStart s.me.tile port
  token : d ≠ 0 → Tab.look t.me.pend d = some (.token s.nextId)
  regs : ∀ r, t.reg r = s.reg r
  went : WentTo t (s.me.pc + 4)
  memory : SameMemory s t
/-- The binding at the head of a port copies a sector of `n` bytes from LOCAL offset `a` to LOCAL offset `d` next (R93). -/
structure CopiesNext (s : State) (port id : Nat) (b : Binding) (a d n : Nat) : Prop where
  head : s.portHead b.tile port = some (id, b)
  home : b.port = port ∧ b.tile = (s.proc b.h).tile ∧ b.part = (s.proc b.h).part
  local_ : b.sspace = 0 ∧ b.dspace = 0 ∧ b.gather = none ∧ b.mig = false
  idle : b.st = .running ∧ b.reqs = [] ∧ b.todo = [] ∧ b.data = [] ∧ b.writing = false ∧ b.err = none
  sector : b.sector = n ∧ 8 ≤ n ∧ n ≤ 65536 ∧ n % 8 = 0
  src : (BitVec.ofNat 64 b.sbase + BitVec.ofNat 64 b.done * b.sstride).toNat = a ∧ a % 8 = 0 ∧ WindowBytes s b.h a n
  dst : (BitVec.ofNat 64 b.dbase + BitVec.ofNat 64 b.done * b.dstride).toNat = d ∧ d % 8 = 0 ∧ WindowBytes s b.h d n

/-- `n` STREAM_SECTOR steps of a port, one after another. -/
def sectorSteps (tile port : Nat) : Nat → State → Out
  | 0, s => .next s
  | n + 1, s => match exec (.streamSector tile port) s with
    | .next t => sectorSteps tile port n t
    | o => o

/-- The running process may issue a matrix instruction at once: no strip, no pending grant, no single step, no fill of the vector registers
named, every mask register readable, none of its accesses under way, and the tile registers, and its slivers where `vec` says so, belong to
nobody else (R95, R97, R111, R165, R241). -/
structure MatReady (s : State) (vecs : List (BitVec 5)) (vec : Bool) : Prop where
  plain : s.plain
  filled : s.me.filling (vecs.map fun r => r.toNat) = []
  masks : ∀ m, Tab.lookD s.me.mlat m 0 ≤ s.cycle
  buffered : ∀ e ∈ (s.tile s.me.tile).cb, e.2.h ≠ s.running
  accesses : ∀ e ∈ s.reqs, e.2.h ≠ s.running
  own : s.conflict s.running 1 [] = none
  lanes : vec = true → s.conflict s.running 0 s.me.slivers = none
/-- A matrix instruction has completed; of the registers it may have changed FFLAGS and MSTEP. -/
structure MatDone (s t : State) : Prop where
  went : WentTo t (s.me.pc + 4)
  regs : SameRegs s t []
  special : t.me.specials = { s.me.specials with fflags := t.me.fflags, mstep := t.me.mstep }
  rest : SameRest s t
/-- Every byte of tile register `d` of the running process's tile is `f` of its row and offset; the other registers are as before, and so
is every other tile's. -/
structure PutTile (s t : State) (d : Nat) (f : Nat → Nat → Byte) : Prop where
  bytes : ∀ r b, r < 64 → b < 256 → (t.tile s.me.tile).tbyte d r b = f r b
  others : ∀ n r b, n ≠ d → r < 64 → b < 256 → (t.tile s.me.tile).tbyte n r b = (s.tile s.me.tile).tbyte n r b
  tiles : ∀ n k, n ≠ s.me.tile → Tab.lookD (t.tile n).treg k 0 = Tab.lookD (s.tile n).treg k 0
/-- The tile registers are as before. -/
def SameTregs (s t : State) : Prop := ∀ n k, Tab.lookD (t.tile n).treg k 0 = Tab.lookD (s.tile n).treg k 0
/-- The shapes and the codebook table are as before. -/
def SameShapes (s t : State) : Prop :=
  (∀ n k, Tab.lookD (t.tile n).tsh k 0x3F3F = Tab.lookD (s.tile n).tsh k 0x3F3F) ∧ (∀ n, (t.tile n).cbt = (s.tile n).cbt)
/-- Bytes of a row of a tile register in memory (Table 16.2). -/
def rowBytes (x : Tile) (d : Nat) : Nat := if x.tfmt d = 5 then x.cols d / 4 else x.cols d * tileBits (x.tfmt d) / 8

/-- The values that a matrix instruction multiplies at step `k` for element (x, y), as they stand when it issues; none where MMASP skips the
step (R167 to R169). -/
def matTerm (s : State) (k x y : Nat) : Instr → Option (FVal × Flags)
  | .mma _ a b => some (((s.tile s.me.tile).tval a.toNat k x).mul ((s.tile s.me.tile).tval b.toNat k y))
  | .mmas _ a b va vb =>
    let n := vtBlock s.me.vt
    let m := (s.tile s.me.tile).cols a.toNat
    let w := (s.tile s.me.tile).cols b.toNat
    some ((scaled ((s.tile s.me.tile).tval a.toNat k x) (s.elemAt s.vc 8 va.toNat (k / n * m + x))).mul
      (scaled ((s.tile s.me.tile).tval b.toNat k y) (s.elemAt s.vc 8 vb.toNat (k / n * w + y))))
  | .mmasp _ a b c =>
    let bit (i : Nat) : Nat :=
      let w := s.vc.lanes.length * 32
      if s.maskBit s.vc (if i < w then c.toNat else c.toNat + 1) (i % w) then 1 else 0
    let at_ (sl : Nat) : Nat :=
      let i := 4 * (k / 4 * (s.tile s.me.tile).cols a.toNat + x) + 2 * sl
      bit i + 2 * bit (i + 1)
    if k % 4 = at_ 0 then some (((s.tile s.me.tile).tval a.toNat (2 * (k / 4)) x).mul ((s.tile s.me.tile).tval b.toNat k y))
    else if k % 4 = at_ 1 then some (((s.tile s.me.tile).tval a.toNat (2 * (k / 4) + 1) x).mul ((s.tile s.me.tile).tval b.toNat k y))
    else none
  | _ => none
/-- Step group of an operand pair (R144, R167). -/
def stepsPerGroup (fa fb : Nat) : Option Nat :=
  if fa = 1 ∧ fb = 1 then some 1
  else if (fa = 2 ∨ fa = 3 ∨ fa = 5) ∧ (fb = 2 ∨ fb = 3 ∨ fb = 5) then some 2
  else if fa = 4 ∧ fb = 4 then some 4 else none
/-- Accumulator, vector registers, steps K and step group of a matrix instruction whose shapes and formats are in order (R167 to R169). -/
def matOf (s : State) : Instr → Option (Nat × List (BitVec 5) × Bool × Nat × Nat)
  | .mma d a b =>
    let x := s.tile s.me.tile
    if x.tfmt d.toNat = 0 ∧ x.rows d.toNat = x.cols a.toNat ∧ x.cols d.toNat = x.cols b.toNat ∧ d ≠ a ∧ d ≠ b ∧ x.rows a.toNat = x.rows b.toNat then
      (stepsPerGroup (x.tfmt a.toNat) (x.tfmt b.toNat)).map fun g => (d.toNat, [], false, x.rows a.toNat, g)
    else none
  | .mmas d a b va vb =>
    let x := s.tile s.me.tile
    let n := vtBlock s.me.vt
    if x.tfmt d.toNat = 0 ∧ x.rows d.toNat = x.cols a.toNat ∧ x.cols d.toNat = x.cols b.toNat ∧ d ≠ a ∧ d ≠ b ∧ x.rows a.toNat = x.rows b.toNat ∧
        x.tfmt a.toNat ≠ 1 ∧ (x.rows a.toNat + n - 1) / n * max (x.cols a.toNat) (x.cols b.toNat) ≤ s.vc.lanes.length * 32 then
      (stepsPerGroup (x.tfmt a.toNat) (x.tfmt b.toNat)).map fun g => (d.toNat, [va, vb], true, x.rows a.toNat, g)
    else none
  | .mmasp d a b _ =>
    let x := s.tile s.me.tile
    if x.tfmt d.toNat = 0 ∧ x.rows d.toNat = x.cols a.toNat ∧ x.cols d.toNat = x.cols b.toNat ∧ d ≠ a ∧ d ≠ b ∧ x.rows b.toNat % 4 = 0 ∧
        2 * x.rows a.toNat = x.rows b.toNat ∧ x.rows b.toNat * x.cols a.toNat ≤ 64 * s.vc.lanes.length then
      (stepsPerGroup (x.tfmt a.toNat) (x.tfmt b.toNat)).map fun _ => (d.toNat, [], true, x.rows b.toNat, 4)
    else none
  | _ => none
/-- Element (x, y) of the accumulator after the groups from step `k` on have been added, `n` groups in all: Acc.Group once per group, in
increasing k, with one rounding each (R144, R166). -/
def accRun (term : Nat → Option (FVal × Flags)) (kEnd g : Nat) : Nat → Nat → Nat → Nat
  | 0, _, v => v
  | n + 1, k, v =>
    let qs := (List.range (min (k + g) kEnd - k)).filterMap fun o => term (k + o)
    accRun term kEnd g n (k + g) (accGroup (Fmt.fp32.decode v) qs).1
/-- `n` MATRIX_STEP_GROUP steps of a process, one after another. -/
def groupSteps (h : Nat) : Nat → State → Out
  | 0, s => .next s
  | n + 1, s => match exec (.matrixStepGroup h) s with
    | .next t => groupSteps h n t
    | o => o

/-- The running process may issue an analyser instruction: no strip, no single step, the array is nobody else's (R189, R241), and none of its
own is saved elsewhere (R197). -/
structure AnReady (s : State) : Prop where
  plain : s.plain
  image : s.me.image = none ∨ s.me.crosses 2 = true
  own : s.conflict s.running 2 [] = none
/-- An analyser instruction has completed: the array of its tile is `an`, in its cells, domains, ports and taps; the scalar registers of the
list may have changed, and nothing else but the array's owner. -/
structure AnDone (s t : State) (ds : List (BitVec 5)) : Prop where
  went : WentTo t (s.me.pc + 4)
  regs : ∀ r, r ∉ ds → t.reg r = s.reg r
  special : t.me.specials = s.me.specials
  vec : SameVec s t
  treg : SameTregs s t
  running : t.running = s.running
/-- The array of the running process's tile after an instruction, and before it. -/
def anOf (s : State) (t : State) : Analyser := (t.tile s.me.tile).an
/-- Cells and domains of the array keep everything but what the two functions change. -/
structure AnIs (s t : State) (cell : Nat → Cell) (dom : Nat → Domain) : Prop where
  cells : ∀ i, (anOf s t).cell i = cell i
  doms : ∀ d, (anOf s t).dom d = dom d
/-- In(c, j) of R174 for a source that is no port: zero, one, the last increment of a cell of the same domain, or the latch. -/
def srcInc (an : Analyser) (d : Nat) (c : Cell) (j : Nat) : Int :=
  let f := Tab.lookD c.src j 0
  let k := f % 512
  let v : Int := if k = 1 then 1 else if k < 32 then 0
    else if (an.cell (k - 32)).dom = d then (an.cell (k - 32)).out else Tab.lookD c.latch j 0
  if f / 512 % 2 = 1 then -v else v
/-- The sums of the dx and the dy sources (R174). -/
def dxOf (an : Analyser) (d : Nat) (c : Cell) : Int := srcInc an d c 0 + srcInc an d c 1 + srcInc an d c 2 + srcInc an d c 3
def dyOf (an : Analyser) (d : Nat) (c : Cell) : Int := srcInc an d c 4 + srcInc an d c 5 + srcInc an d c 6 + srcInc an d c 7
/-- No cell of the domain names a port. -/
def NoPorts (an : Analyser) (d : Nat) : Prop := an.portsOf d = []
/-- The array of tile `n` at the start of a tick of domain `d`: each cell is listed once, the domain is due, its cells name no port, no tap is bound, and no other domain of
the tile ticks in this cycle. -/
structure TicksAlone (s : State) (n d : Nat) : Prop where
  sorted : Tab.sortedFrom 0 (s.tile n).an.cells = true
  due : s.domainDue n d = true
  ports : NoPorts (s.tile n).an d
  taps : (s.tile n).an.taps = []
  fresh : (s.tile n).an.emit = [] ∧ (s.tile n).an.hits = []
  alone : ∀ e ∈ s.events, ∀ m, e.2 ≠ .domainTick n m
/-- Word `i` of a saved image at LOCAL offset `a` of the running process. -/
def imageAt (s : State) (a i : Nat) : Nat := localVal s (a + 8 * i) 8

/-- Bytes of the page that a write of TLBI names (Table 4.10). -/
def tlbiBytes (v : Word) : Nat :=
  if v.toNat / 2 ^ 62 = 0 then 0x10000 else if v.toNat / 2 ^ 62 = 1 then 0x200000 else 0x80000000
/-- A write of TLBI in a partition drops this entry: it is the partition's, and meets the page or all are dropped (R100). -/
def tlbiDrops (part : Nat) (v : Word) (e : TlbEntry) : Prop :=
  let a := v.toNat / 65536 % 2 ^ 32 * 65536 / tlbiBytes v * tlbiBytes v
  e.part = part ∧ (v.toNat / 2 ^ 62 = 3 ∨ e.base < a + tlbiBytes v ∧ a < e.base + e.size)
/-- Of the TLBs, exactly the entries that the write drops are gone. -/
structure TlbAfter (s t : State) (part : Nat) (v : Word) : Prop where
  l1 : ∀ n e, e ∈ (t.tile n).l1 ↔ e ∈ (s.tile n).l1 ∧ ¬ tlbiDrops part v e
  ll : ∀ d e, e ∈ Tab.lookD t.lltlb d [] ↔ e ∈ Tab.lookD s.lltlb d [] ∧ ¬ tlbiDrops part v e
/-- A process of the partition is parked by a fault, and RESUME may act on it (R234). -/
structure ParkedIn (s : State) (part h : Nat) : Prop where
  word : h < 2 ^ 32
  named : s.named part h = true
  parked : (s.proc h).pst = .parkedFault
  alive : (s.proc h).dying = false
  staged : s.staged = []
/-- A process with nothing under way: no strip, no command, no grant, no stream, no combining-buffer entry. -/
structure Settled (s : State) (h : Nat) : Prop where
  strip : (s.proc h).strip = none
  mat : (s.proc h).mat = none
  grant : (s.proc h).pgrant = none
  binds : ∀ e ∈ s.binds, e.2.h ≠ h
  cb : ∀ e ∈ (s.tile (s.proc h).tile).cb, e.2.h ≠ h

/-- A lane of a pool is as when it was never used; one that is DARK stays so, revoked, until its light returns (R205, R212, R217). -/
def LaneOff (s t : State) (l : Nat) : Prop :=
  if (s.lane l).st = .dark then (t.lane l).st = .dark ∧ (t.lane l).forced = true ∧ (t.lane l).at_ = (s.lane l).at_ ∧ (t.lane l).peer = (s.lane l).peer
  else t.lane l = {}
/-- No freed reader entry of the partition's rectangle has its buffer run over SRAM byte `k`, where a message ever came (R55, log 81). -/
def OffRuns (s : State) (n k : Nat) : Prop :=
  ∀ e, e < 1048576 → (s.part n).inRect (e / 256) = true → (s.ep e).arrived = 0 ∨ k < e / 256 * 0x100000 + (s.ep e).run ∨
    e / 256 * 0x100000 + (s.ep e).run + 8 * (s.ep e).bcap ≤ k

/-- Every byte that the two memories hold is as before. -/
def SameBytes (s t : State) : Prop := ∀ k, t.sramByte k = s.sramByte k ∧ Memory.read t.hbm k = Memory.read s.hbm k

/-- The vector context of a process over the lanes of given slivers. -/
def laneCtx (s : State) (h : Nat) (sl : List Nat) : VCtx :=
  { h := h, tile := (s.proc h).tile, lanes := lanesOf sl, ew := ewOf (s.proc h).vt, vl := 0, vt := 0, vmsel := 0 }
/-- A message of the module has gone to host endpoint `n`: its slots stand behind the others, and their delivery is due. -/
structure Told (s t : State) (n : Nat) (slots : List Word) : Prop where
  queue : (t.ep (hostRid n)).queue.map (fun q => q.val) = (s.ep (hostRid n)).queue.map (fun q => q.val) ++ slots
  due : ∃ e ∈ t.events, e.2 = .d2hDeliver n

/-- A process as the loader creates it from its record (R294, Table 12.18). -/
structure Loaded (s t : State) (part net h : Nat) (det : Bool) (p : IProc) : Prop where
  ready : (t.proc h).pst = .ready
  pc : (t.proc h).pc.toNat = p.entry / 4 * 4 % 2 ^ 48
  place : (t.proc h).tile = (s.part part).absTile p.tile ∧ (t.proc h).part = part ∧ (t.proc h).net = net
  window : (t.proc h).wbase = p.wbase ∧ (t.proc h).wsize = p.wsize
  level : (t.proc h).level = p.prio ∧ (t.proc h).ceiling = p.prio ∧ (t.proc h).pl = 0 ∧ (t.proc h).det = det
  args : ∀ i, i < 4 → (t.proc h).reg (i + 1) = p.args.getD i 0
/-- An image of two processes, with two channels and two sections. -/
def pairImage (det : Bool) (p q : IProc) (c e : IChan) (x y : ISect) : Image :=
  { det := det, check := false, procs := [p, q], chans := [c, e], sects := [x, y], leases := [], trees := [] }
/-- The bytes of a section lie at its base in the slice of a tile. -/
def SectLoaded (t : State) (tile : Nat) (x : ISect) : Prop :=
  ∀ (k : Nat) (b : Byte), ((x.data.flatMap fun w => bytesLE 8 w.toNat).take x.len)[k]? = some b → t.sramByte (tile * 0x100000 + x.base + k) = b
/-- An image of one process that needs nothing else. -/
def bareImage (det check : Bool) (p : IProc) : Image :=
  { det := det, check := check, procs := [p], chans := [], sects := [], leases := [], trees := [] }

/-- Byte at address `a` of the memory in which a place lies, as a partition reads it. -/
def homeByte (s : State) (part : Nat) (p : Place) (a : Nat) : Byte :=
  match p with
  | .dram _ _ => s.hbmByte part a
  | _ => s.sramByte a
/-- The address of a place there. -/
def homeAt (p : Place) : Nat :=
  match p with
  | .sram k _ => k
  | .dram k _ => k
  | .remote _ _ a => a
/-- The written bytes are in memory behind those before, every other byte of it is as before, and the other memory too. -/
structure Stores (s t : State) (part : Nat) (p : Place) (bs : List WByte) : Prop where
  bytes : ∀ a, homeByte t part p a = bs.foldl (fun v b => if homeAt p + b.off = a then mergeNib v b.val b.nib else v) (homeByte s part p a)
  other : match p with
    | .dram _ _ => t.sram = s.sram ∧ t.sramTags = s.sramTags ∧ ∀ b ∈ bs, Tab.lookD t.hbmTags ((homeAt p + b.off) / 16) false = false
    | _ => t.hbm = s.hbm ∧ t.hbmTags = s.hbmTags ∧ ∀ b ∈ bs, Tab.lookD t.sramTags ((homeAt p + b.off) / 16) false = false
/-- An access is on its way, and its home on this package can serve it. -/
structure Homed (s : State) (id : Nat) (r : Req) : Prop where
  here : Tab.look s.reqs id = some r
  live : r.performed = false ∧ r.err = 0 ∧ r.dropped = false
  home : match r.place with
    | .sram k _ => s.isWithdrawn k r.op.span = false
    | .dram k _ => (s.part r.part).key.full = true ∧ s.hbmFails k r.op.span = false
    | .remote _ _ _ => False
/-- The home has answered the access; a server's answer has the header of Table 3.8, with the operation, length and tag of the request. -/
structure Answered (t : State) (id : Nat) (r : Req) (data : List Byte) (err : Nat) (c : Cap) : Prop where
  req : ∃ w : Word, Tab.look t.reqs id = some { r with performed := true, data := data, err := err, capOut := c, back := w } ∧
    ∀ k va hd ws, r.place = .dram k va → r.words = hd :: ws →
      w = .ofNat 64 ((hd.toNat / 2 ^ 60 + 8) * 2 ^ 60 + hd.toNat / 2 ^ 47 % 2 ^ 13 * 2 ^ 47 + err * 2 ^ 40)
  due : ∃ e ∈ t.events, e.2 = .memoryReply id

/-- The partition that owns a DRAM server. -/
def OwnsServer (s : State) (part v : Nat) : Prop :=
  (s.parts.find? fun e => e.2.valid && e.2.servers.contains v).map (fun e => e.1) = some part
/-- A server's reply has left: its header's fields and its data. -/
structure Replied (t : State) (v : Nat) (hd : Word) (op err : Nat) (data : List Word) : Prop where
  sent : ∃ m ∈ t.net, m.wid = serverWid v ∧ m.dest = .tile (hd.toNat / 2 ^ 36 % 2048 * 256 + hd.toNat / 2 ^ 28 % 256) ∧
    m.body = .data { slots := .ofNat 64 (op * 2 ^ 60 + hd.toNat / 2 ^ 55 % 32 * 2 ^ 55 + hd.toNat / 2 ^ 47 % 256 * 2 ^ 47 + err * 2 ^ 40) :: data }

/-- What flits carry. -/
def flitWords (l : List OFlit) : List (Nat × Bool × Bool × List Word) := l.map fun f => (f.vnet, f.first, f.last, f.slots)
/-- R200, R201. Flits have joined those in line on a link: as many as may be sent have left in order, each on a lane of the link's list; the others
stand in line behind them, and none is lost. -/
def SentOn (s t : State) (part via : Nat) (add : List OFlit) : Prop :=
  let k := s.link part via
  let line := flitWords (k.txq ++ add)
  let n := if k.quar then 0 else min 40 (min line.length (256 - k.unacked.length))
  flitWords (t.link part via).txq = line.drop n ∧
  ∃ new, (t.link part via).unacked = k.unacked ++ new ∧ flitWords new = line.take n ∧
    ∀ f ∈ new, k.next ≤ f.count ∧ f.lane ∈ s.laneList part via ∧ .flit part via f.lane (s.wireFlit part f) ∈ t.out
/-- The reply to a remote request, route word, header and data (Table 9.14), has gone on its way, over the lanes or the relay that lead to the
peer, or waits for one (R209). -/
def RemoteTold (s t : State) (part : Nat) (x : RReq) (err : Nat) (data : List Byte) : Prop :=
  let body : List Word :=
    .ofNat 64 ((if 1 ≤ x.op ∧ x.op ≤ 3 then x.op + 8 else 15) * 2 ^ 60 + x.len * 2 ^ 55 + x.tag * 2 ^ 47 + err * 2 ^ 40 + x.rtile * 2 ^ 29) ::
      ((List.range (cdiv data.length 8)).map fun i => .ofNat 64 (ofBytesLE ((data.drop (8 * i)).take 8)))
  match s.route part x.rpeer with
  | none => (t.link part x.rpeer).waiting = [(1, routeWord 0 0 0 x.rtile 0 :: body, 0)]
  | some (via, hops, n1, n2) => SentOn s t part via (toFlits 1 40 true (routeWord hops n1 n2 x.rtile 0 :: body))
/-- A reply to the peer may go on its way at once: nothing waits before it, nothing of its order is unacknowledged on another link, and the epoch of
the link has room (R201, R209, R257). -/
structure MayReply (s : State) (part peer : Nat) : Prop where
  first : (s.link part peer).waiting = []
  heard : s.route part peer = none → s.routeRefused peer = false
  free : ∀ via hops n1 n2, s.route part peer = some (via, hops, n1, n2) →
    s.elsewhere part peer 0 via = false ∧ (s.link part via).next + 400 < 2 ^ 64

/-- The tile holds exactly one monitor of writer `w`, and its channel writes to endpoint `e`; no message is staged. -/
structure OneMonitor (s : State) (tile w e : Nat) (m : Monitor) : Prop where
  mon : s.monOf tile w = some m
  wid : widOf m.h m.c = w
  dest : ((s.proc m.h).chan m.c).dest = .tile e
  open_ : ((s.proc m.h).chan m.c).gone = false ∧ ((s.proc m.h).chan m.c).frozen = false ∧ ((s.proc m.h).chan m.c).refused = none
  alone : s.staged = []
/-- The monitor's record has left on its channel, which gave two credits for it (R51, Table 3.8). -/
structure Recorded (s t : State) (tile w e : Nat) (m : Monitor) (v ovf : Nat) : Prop where
  net : t.net = s.net ++ [{ wid := w, dest := .tile e, body := .data { slots := [.ofNat 64 (m.sel + ovf * 256 + tile % 2048 * 65536), .ofNat 64 v] },
                            part := (s.proc m.h).part, net := (s.proc m.h).net }]
  credits : ((t.proc m.h).chan m.c).credits = ((s.proc m.h).chan m.c).credits - 2
  idle : ∃ x, t.monOf tile w = some x ∧ x.pending = none ∧ x.ovf = 0

/-- The operands of a Sinter instruction of the running process are in order: type, tree number and length, its tile a contributor or a receiver
(R223). -/
structure TreeReady (s : State) (a : BitVec 5) (ty : SType) (recv : Bool) (k : Nat) (tr : Tree) : Prop where
  type : match ty with
    | .bf16 => s.me.vt.toNat % 8 = 1
    | _ => s.me.vt.toNat % 4 = 2
  number : k < 16 ∧ s.reg a = .ofNat 64 k
  length : 1 ≤ s.vc.vl ∧ s.vc.vl ≤ 64
  tree : Tab.look s.myPart.trees k = some tr
  entry : ∃ e ∈ tr.entries, e.tile = s.me.tile ∧ (if recv then e.recv else e.contrib) = true
/-- Every process of a tile has stopped waiting for a tree. -/
def StopsWaiting (t : State) (tile k : Nat) : Prop := ∀ h, (t.proc h).tile = tile → sinterWait k ∉ (t.proc h).hold

/-- An instruction that leaves register `d` pending: it has completed issue, and s0 is never pending (R31). -/
structure LeftPending (s t : State) (d : BitVec 5) (p : Pend) : Prop where
  went : WentTo t (s.me.pc + 4)
  pending : d ≠ 0 → Tab.look t.me.pend d.toNat = some p
  regs : ∀ r, t.reg r = s.reg r
  special : t.me.specials = s.me.specials
  memory : SameMemory s t
/-- A token has been written: its register holds the value and is not pending, and a process that waited for it is READY. -/
structure TokenWritten (s t : State) (h d : Nat) (v : Word) : Prop where
  value : (t.proc h).reg d = v
  done : (t.proc h).isPending d = false
  wakes : (s.proc h).pst = .blockedToken d → (t.proc h).pst = .ready

/-- The fields of a key descriptor (R259), as bytes of LOCAL memory. -/
structure KeyBytes (bs : List Byte) (part : Nat) (keyid xts1 xts2 gcm : Nat) : Prop where
  part : part < 16 ∧ dword bs 0 = part
  keyid : dword bs 8 = keyid ∧ keyid < 2 ^ 32
  zero : bytesAt bs 16 16 = 0
  keys : bytesAt bs 32 32 = xts1 ∧ bytesAt bs 64 32 = xts2 ∧ bytesAt bs 96 32 = gcm

/-- A HOST record about host endpoint `n` and the queue pair that was used has gone to its partition's event endpoint, or to 128 where there is
none (R265). -/
def HostTold (s t : State) (n event : Nat) (q : BitVec 24) : Prop :=
  let k := s.hep n
  Told s t (if k.dir ≠ 0 ∧ n ≠ 128 then 8 * k.part + 2 else 128)
    [.ofNat 64 (k.port * 2 ^ 32 + k.part * 2 ^ 28 + n % 2048 * 2 ^ 16 + event * 2 ^ 8 + 3), .ofNat 64 q.toNat, .ofNat 64 s.cycle, 0]
/-- A queue pair is that of another partition's host endpoint (R265). -/
def ForeignPair (s : State) (part : Nat) (q : BitVec 24) : Prop := ∃ e ∈ s.hostEps, e.2.dir ≠ 0 ∧ e.2.qpn = q ∧ e.2.part ≠ part

/-- The ERROR record of R252 has gone to the event endpoint of the partition named, or to 128. -/
def ErrorTold (s t : State) (unit : Nat) (part : Option Nat) (tile index : Nat) (lasting : Bool) (addr : Nat) : Prop :=
  Told s t (match part with
    | some p => 8 * p + 2
    | none => 128)
    [.ofNat 64 (2 + unit * 2 ^ 8 + (if lasting then 2 ^ 16 else 0) + tile % 2048 * 2 ^ 17 + part.getD 0 % 16 * 2 ^ 28 + index % 256 * 2 ^ 32),
     .ofNat 64 addr, .ofNat 64 s.cycle, 0]

/-- The ERROR record of an error at a unit: its partition, tile and index where the unit has them, and the address of its 64-byte line (R252). -/
def ErrorAt (s t : State) (unit : ErrUnit) (tile index addr : Nat) (lasting : Bool) : Prop :=
  match unit with
  | .cluster | .meshLink => ErrorTold s t (errUnitCode unit) (s.partOfTile tile) tile index lasting 0
  | .sram => ErrorTold s t 2 (s.partOfTile tile) tile 0 lasting ((tile * 0x100000 + addr % 0x100000) / 64 * 64)
  | .hbm => ErrorTold s t 3 (s.errPart .hbm tile index) 0 index lasting
      ((match s.errPart .hbm tile index with
        | some n => (s.part n).physOf (serverKey index addr)
        | none => addr % 2 ^ 40) / 64 * 64)
  | .opticalLane => ErrorTold s t 5 (s.errPart .opticalLane tile index) 0 0 lasting 0

/-- A LINK record about a lane of a link has gone to the partition's event endpoint (Table 9.3). -/
def LinkTold (s t : State) (part peer lane event : Nat) : Prop :=
  ∃ w, Told s t (8 * part + 2)
    [.ofNat 64 (peer % 2 ^ 22 * 2 ^ 31 + part % 16 * 2 ^ 27 + lane % 4 * 2 ^ 25 + lane / 4 % 32 * 2 ^ 20 + lane / 128 % 16 * 2 ^ 16 +
      event * 2 ^ 8 + 1), w, .ofNat 64 s.cycle, 0]
/-- The peer named by `a` may be leased to: in range, another package, in the partition's peer mask (R214 check 1). -/
def PeerOk (s : State) (a : BitVec 5) (p : Nat) : Prop := s.reg a = .ofNat 64 p ∧ p < 2 ^ 22 ∧ p ≠ s.ownId.toNat ∧ p ∈ s.myPart.peers
/-- No other lane loses its light in this cycle. -/
def OnlyDark (s : State) (l : Nat) : Prop := ∀ e ∈ s.events, e.1 ≤ s.cycle → ∀ m, e.2 = .lossOfLight m → m = l
/-- No message waits at a link, no flit is in line there, and none is left from before the link lost its last lane (R212). -/
def NoneWait (s : State) : Prop := ∀ e ∈ s.links, e.2.txq = [] ∧ e.2.waiting = [] ∧ ∀ f ∈ e.2.unacked, f.astray = false
/-- No partition has a lease request, so a lane that becomes FREE stays so. -/
def NoLeases (s : State) : Prop := ∀ n, (s.part n).leases = []

/-- The state holds one link, `k`, of a partition to a peer, over the lanes given, with nothing in line. -/
structure LoneLink (s : State) (part peer : Nat) (k : Link) (lanes : List Nat) : Prop where
  links : s.links = [(linkKey part peer, k)]
  list : s.laneList part peer = lanes
  idle : k.txq = [] ∧ k.waiting = []
  stays : ∀ f ∈ k.unacked, f.astray = false
  known : part < 16 ∧ peer < 2 ^ 22

end Sys2Proof.Machine

open Sys2Proof Sys2Proof.Machine

/-- R272 to R287. Decoding the word of any well-formed instruction gives that instruction with every operand. -/
def Obligations.DecodeEncodeRoundTrip : Prop :=
∀ i : Instr, Laws.RoundTrip.Statement i

/-- R273. A word that decodes is the word of the instruction it decodes to, and that instruction is well formed: no bit of the word is left
over, and no two words mean the same instruction. -/
def Obligations.DecodedWordEncodesBack : Prop :=
  ∀ (w : BitVec 32) (i : Instr), decode w = .ok i → i.wf = true ∧ encode i = some w

/-- Words written out from Tables 12.1 to 12.13 decode to the instruction they stand for. -/
def Obligations.SpecWordsDecode : Prop :=
  -- major 0x02, d = 1, a = 2, imm16 = 0xFFFF
  decode 0b000010_00001_00010_1111111111111111#32 = .ok (.addi 1 2 0xFFFF) ∧
  -- major 0x01, d = 3, a = 4, b = 5, fn = 0x002
  decode 0b000001_00011_00100_00101_00000000010#32 = .ok (.sub 3 4 5) ∧
  -- major 0x0C, d = 7, a = 8, z = 3, off14 = 8
  decode 0b001100_00111_01000_11_00000000001000#32 = .ok (.ld 7 8 .d 8) ∧
  -- major 0x0E, a = 1, b = 2, cond = 1, off13 = 3
  decode 0b001110_00001_00010_001_0000000000011#32 = .ok (.bne 1 2 3) ∧
  -- major 0x19, d = 1, a = 2, b = 3, rep = 1 with rsz = 1, fn = 0
  decode 0b011001_00001_00010_00011_101_00000000#32 = .ok (.vadd 1 2 3 .rep4) ∧
  -- major 0x28, d = 4, c = 9, M = 2, fn = 0
  decode 0b101000_00100_1001_00000000_00010_0000#32 = .ok (.cpush 4 9 2) ∧
  -- major 0x2B, d = 0, a = 6, b = 7, SZ = 3, fn = 0
  decode 0b101011_00000_00110_00111_11_00000_0000#32 = .ok (.aadd 6 7 .d) ∧
  -- major 0x3C, d = 5, csr = 0x00C, fn = 0
  decode 0b111100_00101_00000_000000001100_0000#32 = .ok (.csrr 5 .cycle) ∧
  -- major 0x00 is assigned to nothing
  decode 0#32 = .error .unassignedMajor

/-- R272. When no event is due, a tile is left to issue, and the four bytes at the place the chosen process's PC names decode to an
instruction, the step is that instruction's meaning in the state in which the process runs. R41. Those that may be selected are the resident
READY processes that neither YIELD nor an interlock holds, which the power controller may thin out (R270); of them the one with the least
deadline is chosen, where no seed is set by the tie rule, and some process whenever there is one. -/
def Obligations.StepRunsDecoded : Prop :=
  (∀ (s : State) (t h k : Nat) (more : List Nat) (u : State) (i : Instr),
    NothingDue s → s.issueLeft = t :: more → Fetches { s with issueLeft := more } t h k u →
    decodeBytes [u.hbmByte (u.proc h).part k, u.hbmByte (u.proc h).part (k + 1), u.hbmByte (u.proc h).part (k + 2),
      u.hbmByte (u.proc h).part (k + 3)] = .ok (i, []) →
    step s = exec i u) ∧
  (∀ (s : State) (t h : Nat), s.throttled = false → (h ∈ s.selectable t ↔ (∃ i, (i, h) ∈ (s.tile t).slots) ∧ (s.proc h).res = .resident ∧
    (s.proc h).pst = .ready ∧ (s.proc h).yields = [] ∧ (s.proc h).hold = [] ∧ (s.proc h).shut = false ∧ (s.proc h).busy ≤ s.cycle ∧
    (s.proc h).mat = none ∧ (s.proc h).bulk = none ∧ (s.proc h).dstep = none ∧ (s.proc h).ending = none)) ∧
  (∀ (s : State) (e : List Nat) (h : Nat), s.choose e = some h → h ∈ e ∧ ∀ g ∈ e, dueAt s e h ≤ dueAt s e g ∧
    ((∀ x ∈ e, (s.part (s.proc x).part).seed = 0) → dueAt s e g = dueAt s e h → NotBehind (s.proc h) (s.proc g))) ∧
  (∀ (s : State) (e : List Nat), e ≠ [] → (s.choose e).isSome = true)

/-- R273. Where the four bytes decode to nothing, the step is the meaning of the illegal word. R273. A word that decodes to nothing parks its process with
ILLEGAL_OPCODE outside a strip; R231: in an open strip it restarts the strip, and the process parks with its PC at the SETVL. The model's choices in
it: log 24. -/
def Obligations.IllegalWordFaults : Prop :=
  (∀ (s : State) (t h k : Nat) (more : List Nat) (u : State) (r : Reject),
     NothingDue s → s.issueLeft = t :: more → Fetches { s with issueLeft := more } t h k u →
     decodeBytes [u.hbmByte (u.proc h).part k, u.hbmByte (u.proc h).part (k + 1), u.hbmByte (u.proc h).part (k + 2),
       u.hbmByte (u.proc h).part (k + 3)] = .error r →
     step s = exec (.illegalWord (u.fetchWord h k)) u) ∧
  (∀ (s : State) (w : BitVec 32), s.me.strip = none → ∃ t, exec (.illegalWord w) s = .next t ∧ Parks s t .illegalOpcode s.me.pc) ∧
  (∀ (s : State) (k : Strip) (w : BitVec 32), s.me.strip = some k →
    ∃ t, exec (.illegalWord w) s = .next t ∧ t.me.pst = .parkedFault ∧ t.me.strip = none ∧ t.me.pc = k.pc ∧ t.me.epc = s.me.pc ∧
      t.me.sregs = k.sregs ∧ t.me.vs = k.vs ∧ t.me.vt = k.vt ∧ t.me.mt = k.mt ∧ t.me.frec.toNat % 256 = Cause.illegalOpcode.code ∧
      SameMemory s t)

/-- An event that is due goes before every issue; with nothing due and no tile left, the next cycle starts and CYCLE counts by one, in a
running module and in a stopped one whose last event is still to come (log 20, the model's order; R287 for CYCLE). -/
def Obligations.EventsThenNextCycle : Prop :=
  (∀ (s : State) (d : Nat) (i : Instr) (rest : List (Nat × Instr)), s.events = (d, i) :: rest → d ≤ s.cycle →
    step s = exec i { s with events := rest, running := 0 }) ∧
  (∀ s : State, NothingDue s → s.issueLeft = [] → (s.stopped = false ∨ s.events ≠ []) → step s = .next s.newCycle) ∧
  (∀ s : State, (s.newCycle).cycle = s.cycle + 1) ∧
  (∀ s : State, s.events = [] → s.issueLeft = [] → s.stopped = true → step s = .fault .moduleStopped)

/-- R269. Right after reset memory reads zero everywhere and no tag is set, there is no process and no partition, nothing is bound but host
endpoint 128, and PCAP is 4200. The memories are in canonical form at reset. -/
def Obligations.ResetState : Prop :=
  (∀ k, State.reset.sramByte k = 0) ∧ (∀ n k, State.reset.hbmByte n k = 0) ∧
  (∀ g, Tab.lookD State.reset.sramTags g false = false) ∧ (∀ g, Tab.lookD State.reset.hbmTags g false = false) ∧
  (∀ h, State.reset.proc h = {}) ∧ (∀ n, (State.reset.part n).valid = false) ∧
  (∀ e, (State.reset.ep e).bound = true → e = hostRid 128) ∧ State.reset.pcap = 4200 ∧ State.reset.cycle = 0 ∧
  (State.reset.memOk)

/-- Every step keeps the memories in canonical form. -/
def Obligations.StepKeepsMemoryCanonical : Prop :=
∀ s t : State, s.memOk → step s = .next t → t.memOk

/-- The scalar instructions of the ordinary latency complete wherever their registers are free: the destination takes the result of its table
(s0 discards it), the next instruction follows, and nothing else changes. R328, R356, R361. Multiplication and division complete wherever
their registers are free; a later user of the destination waits until the fixed latency has passed. The PC behind the
last word of the address space is 0 (log 55, the model's reading). -/
def Obligations.ScalarResult : Prop :=
  (∀ (s : State) (i : Instr) (d : BitVec 5) (rs : List (BitVec 5)) (v : Word),
     aluOf s i = some (d, rs, v) → s.free (rs ++ [d]) → s.me.ss = false →
     ∃ t, exec i s = .next t ∧ t.reg d = (if d = 0 then 0 else v) ∧ OnlyRegs s t [d] (s.me.pc + 4)) ∧
  (∀ (s : State) (i : Instr) (d : BitVec 5) (rs : List (BitVec 5)) (v : Word) (n : Nat),
     longOf s i = some (d, rs, v, n) → s.free (rs ++ [d]) → s.me.ss = false →
     ∃ t, exec i s = .next t ∧ t.reg d = (if d = 0 then 0 else v) ∧ (d ≠ 0 → t.me.lateUntil [d] = s.cycle + n) ∧
       OnlyRegs s t [d] (s.me.pc + 4))

/-- R31. A scalar instruction that reads or writes a pending register blocks on it with no effect; one that meets a register still in a fixed-
latency pipeline has no effect either, and its process stays READY. -/
def Obligations.ScalarWaitsForRegisters : Prop :=
  (∀ (s : State) (i : Instr) (d r : BitVec 5) (rs : List (BitVec 5)) (v : Word),
    aluOf s i = some (d, rs, v) → ((rs ++ [d]).find? fun q => s.me.isPending q.toNat) = some r →
    ∃ t, exec i s = .next t ∧ t.me.pst = .blockedToken r.toNat ∧ t.me.pc = s.me.pc ∧ SameRegs s t [] ∧
      t.me.specials = s.me.specials ∧ SameMemory s t ∧ SameUnits s t ∧ SameRest s t) ∧
  (∀ (s : State) (i : Instr) (d : BitVec 5) (rs : List (BitVec 5)) (v : Word),
    aluOf s i = some (d, rs, v) → (∀ q ∈ rs ++ [d], s.me.isPending q.toNat = false) → s.cycle < s.me.lateUntil (rs ++ [d]) →
    ∃ t, exec i s = .next t ∧ t.me.pst = .ready ∧ t.me.busy = s.me.lateUntil (rs ++ [d]) ∧ t.me.pc = s.me.pc ∧ SameRegs s t [] ∧
      t.me.specials = s.me.specials ∧ SameMemory s t ∧ SameUnits s t ∧ SameRest s t)

/-- R245. Under STATUS.SS and STATUS.DBG a scalar instruction writes its result and the process enters HALTED-DEBUG, EPC holding the next
instruction; under STATUS.SS alone STEP parks it, with EPC and PC at the next instruction, an open strip left open, and a record at the
stepped instruction. The instructions of a trap's handler are not stepped (R382; the model's reading of it: log 89). R305, R335. Under
STATUS.DBG, BRK and HALT enter HALTED-DEBUG: BRK with EPC at itself, HALT at the next instruction, and a release goes on behind either;
without DBG both are BREAKPOINT. The PC behind the
last word of the address space is 0 (log 55, the model's reading). -/
def Obligations.HaltResult : Prop :=
  (∀ (s : State) (i : Instr) (d : BitVec 5) (rs : List (BitVec 5)) (v : Word),
     aluOf s i = some (d, rs, v) → s.free (rs ++ [d]) → s.me.ss = true → s.me.dbg = true → s.me.handler = false →
     ∃ t, exec i s = .next t ∧ t.reg d = (if d = 0 then 0 else v) ∧ t.me.pst = .haltedDebug ∧ t.me.pc = s.me.pc + 4 ∧
       t.me.epc = s.me.pc + 4 ∧ t.me.strip = s.me.strip ∧ SameRegs s t [d] ∧ SameMemory s t ∧ SameUnits s t ∧ SameRest s t) ∧
  (∀ (s : State) (i : Instr) (d : BitVec 5) (rs : List (BitVec 5)) (v : Word),
     aluOf s i = some (d, rs, v) → s.free (rs ++ [d]) → s.me.ss = true → s.me.dbg = false → s.me.handler = false →
     ∃ t, exec i s = .next t ∧ t.reg d = (if d = 0 then 0 else v) ∧ t.me.pst = .parkedFault ∧ t.me.fclass = .step ∧ t.me.pc = s.me.pc + 4 ∧
       t.me.epc = s.me.pc + 4 ∧ t.me.frec.toNat % 256 = Cause.step.code ∧ (∀ r, r ≠ d → t.reg r = s.reg r) ∧
       (t.me.strip.map fun k => k.pc) = (s.me.strip.map fun k => k.pc) ∧ SameMemory s t ∧ SameUnits s t ∧
       ∃ f ∈ (t.tile s.me.tile).frecs, f.part = s.me.part ∧ f.slots.headD 0 = t.me.frec ∧ f.slots.getD 1 0 = .ofNat 64 s.me.pc.toNat) ∧
  (∀ (s : State) (i : Instr) (d : BitVec 5) (rs : List (BitVec 5)) (v : Word),
     aluOf s i = some (d, rs, v) → s.free (rs ++ [d]) → s.me.ss = true → s.me.handler = true →
     ∃ t, exec i s = .next t ∧ t.reg d = (if d = 0 then 0 else v) ∧ OnlyRegs s t [d] (s.me.pc + 4)) ∧
  (∀ s : State, s.plain → s.me.dbg = true →
    (∃ t, exec .brk s = .next t ∧ t.me.pst = .haltedDebug ∧ t.me.epc = s.me.pc ∧ t.me.pc = s.me.pc + 4 ∧ SameRegs s t [] ∧ SameMemory s t ∧
      SameUnits s t ∧ SameRest s t) ∧
    (∃ t, exec .halt s = .next t ∧ t.me.pst = .haltedDebug ∧ t.me.epc = s.me.pc + 4 ∧ t.me.pc = s.me.pc + 4 ∧ SameRegs s t [] ∧ SameMemory s t ∧
      SameUnits s t ∧ SameRest s t)) ∧
  (∀ (s : State) (i : Instr), (i = .brk ∨ i = .halt) → s.me.strip = none → s.me.dbg = false →
    ∃ t, exec i s = .next t ∧ Parks s t .breakpoint s.me.pc)

/-- R302. A branch whose next address lies below 2^48 goes there: 4 × the signed offset from its own address when the condition holds, else
the following instruction; nothing else changes. R280, R336. JAL and JALR write the address of the following instruction, s0 excepted, and
go to their target, which JALR computes before the link is written. R280, R302, R336. A transfer to an address of 2^48 or more parks the
process with PROTECTION and a JALR to an address that is no multiple of 4 with MISALIGN, EPC at the instruction, and no register is
written; for a process with no open strip. The PC behind the
last word of the address space is 0 (log 55, the model's reading). -/
def Obligations.TransferResult : Prop :=
  (∀ (s : State) (i : Instr) (rs : List (BitVec 5)) (taken : Bool) (o : BitVec 13) (next : Nat),
     branchOf s i = some (rs, taken, o) → s.free rs → s.me.ss = false →
     (next : Int) = s.me.pc.toNat + (if taken then 4 * o.toInt else 4) → next < 2 ^ 48 →
     ∃ t, exec i s = .next t ∧ OnlyRegs s t [] (.ofNat 48 next)) ∧
  (∀ (s : State) (d : BitVec 5) (o : BitVec 21) (next : Nat), s.free [d] → s.me.ss = false →
    (next : Int) = s.me.pc.toNat + 4 * o.toInt → next < 2 ^ 48 →
    ∃ t, exec (.jal d o) s = .next t ∧ t.reg d = (if d = 0 then 0 else .ofNat 64 (s.me.pc.toNat + 4)) ∧ OnlyRegs s t [d] (.ofNat 48 next)) ∧
  (∀ (s : State) (d a : BitVec 5) (i : BitVec 16) (next : Nat), s.free [a, d] → s.me.ss = false →
    (BitVec.ofInt 64 ((s.reg a).toInt + i.toInt)).toNat = next → next % 4 = 0 → next < 2 ^ 48 →
    ∃ t, exec (.jalr d a i) s = .next t ∧ t.reg d = (if d = 0 then 0 else .ofNat 64 (s.me.pc.toNat + 4)) ∧
      OnlyRegs s t [d] (.ofNat 48 next)) ∧
  (∀ (s : State) (i : Instr) (rs : List (BitVec 5)) (o : BitVec 13) (next : Int), branchOf s i = some (rs, true, o) → s.free rs →
    s.me.strip = none → next = s.me.pc.toNat + 4 * o.toInt → (next < 0 ∨ 2 ^ 48 ≤ next) →
    ∃ t, exec i s = .next t ∧ t.me.pst = .parkedFault ∧ t.me.epc = s.me.pc ∧ t.me.frec.toNat % 256 = Cause.protection.code ∧
      (∀ r, t.reg r = s.reg r)) ∧
  (∀ (s : State) (d : BitVec 5) (o : BitVec 21) (next : Int), s.free [d] → s.me.strip = none →
    next = s.me.pc.toNat + 4 * o.toInt → (next < 0 ∨ 2 ^ 48 ≤ next) →
    ∃ t, exec (.jal d o) s = .next t ∧ t.me.pst = .parkedFault ∧ t.me.epc = s.me.pc ∧
      t.me.frec.toNat % 256 = Cause.protection.code ∧ (∀ r, t.reg r = s.reg r)) ∧
  (∀ (s : State) (d a : BitVec 5) (i : BitVec 16) (next : Nat), s.free [a, d] → s.me.strip = none →
    (BitVec.ofInt 64 ((s.reg a).toInt + i.toInt)).toNat = next → (next % 4 ≠ 0 ∨ 2 ^ 48 ≤ next) →
    ∃ t, exec (.jalr d a i) s = .next t ∧ t.me.pst = .parkedFault ∧ t.me.epc = s.me.pc ∧
      t.me.frec.toNat % 256 = (if next % 4 ≠ 0 then Cause.misalign.code else Cause.protection.code) ∧ (∀ r, t.reg r = s.reg r))

/-- R385, R387, R401. An integer vector instruction whose lanes and registers are ready completes, in an open strip or outside one: every
active element of the destination has its value, cut to EW; every other byte of the banks, and all else, is as before. The PC behind the
last word of the address space is 0 (log 55, the model's reading). -/
def Obligations.VectorIntegerResult : Prop :=
  ∀ (s : State) (i : Instr) (d : BitVec 5) (us : List (BitVec 5)) (f : Nat → Option Nat),
    vintOf s s.vc i = some (d, us, f) → VecReady s us →
    ∃ t, exec i s = .next t ∧ PutVec s t s.vc s.vc.ew d.toNat f ∧ SameMask s t ∧ t.me.fflags = s.me.fflags ∧ VecDone s t []

/-- R389, R390, R396, R402, R404, R405, R408, R409. The same for merging, compressing, expanding, sliding, permuting, moving and integer
reductions. The PC behind the
last word of the address space is 0 (log 55, the model's reading). -/
def Obligations.VectorMoveResult : Prop :=
  ∀ (s : State) (i : Instr) (d : BitVec 5) (us rs : List (BitVec 5)) (f : Nat → Option Nat),
    vmoveOf s s.vc i = some (d, us, rs, f) → s.free rs → VecReady s us →
    ∃ t, exec i s = .next t ∧ PutVec s t s.vc s.vc.ew d.toNat f ∧ SameMask s t ∧ t.me.fflags = s.me.fflags ∧ VecDone s t []

/-- R139 to R141, R391, R393. A floating-point vector instruction at a VT whose elements are floating-point: each active element is the exact result
rounded once, and FFLAGS gathers the flags of all of them, at once outside a strip. R143, R395. A floating-point reduction writes element 0 of its
destination with the root of the tree combined with the seed. The model's choices in it: log 49. The PC behind the
last word of the address space is 0 (log 55, the model's reading). -/
def Obligations.VectorFloatResult : Prop :=
  (∀ (s : State) (i : Instr) (t : Fmt) (d : BitVec 5) (us : List (BitVec 5)) (f : Nat → Nat × Flags),
     vtFloat s.me.vt = some t → vfltOf s s.vc t i = some (d, us, f) → VecReady s us →
     ∃ u, exec i s = .next u ∧ PutVec s u s.vc s.vc.ew d.toNat (s.each s.vc fun i => (f i).1) ∧
       u.me.fflags = flagsAfter s (orAll (s.actives s.vc) fun i => (f i).2) ∧ SameMask s u ∧ VecDone s u []) ∧
  (∀ (s : State) (i : Instr) (t : Fmt) (d : BitVec 5) (us : List (BitVec 5)) (x : Nat) (fl : Flags),
     vtFloat s.me.vt = some t → vfredOf s s.vc t i = some (d, us, x, fl) → VecReady s us →
     ∃ u, exec i s = .next u ∧ PutVec s u s.vc s.vc.ew d.toNat (fun i => if i = 0 then some x else none) ∧
       u.me.fflags = flagsAfter s fl ∧ SameMask s u ∧ VecDone s u [])

/-- R393, R394, Table 16.5. VFCVT: the kinds that stay in a register; kind 9, which writes the register pair d, d + 1 with FP32 elements; kind
10, which reads such a pair. The PC behind the
last word of the address space is 0 (log 55, the model's reading). -/
def Obligations.VectorConvertResult : Prop :=
  (∀ (s : State) (d a : BitVec 5) (k : CvtKind) (t : Fmt) (f : Nat → Nat × Flags),
    vtFloat s.me.vt = some t → cvtOk k s.me.vt d a = true → (∀ i, cvtOf k t s.vc.ew (s.elem s.vc a i) = some (f i)) → VecReady s [d, a] →
    ∃ u, exec (.vfcvt d a k) s = .next u ∧ PutVec s u s.vc s.vc.ew d.toNat (s.each s.vc fun i => (f i).1) ∧
      u.me.fflags = flagsAfter s (orAll (s.actives s.vc) fun i => (f i).2) ∧ SameMask s u ∧ VecDone s u []) ∧
  (∀ (s : State) (d a : BitVec 5) (t : Fmt), vtFloat s.me.vt = some t → cvtOk .widen s.me.vt d a = true → VecReady s [d, a, d + 1] →
    ∃ u, exec (.vfcvt d a .widen) s = .next u ∧ u.me.fflags = s.me.fflags ∧ SameMask s u ∧ VecDone s u [] ∧
      (∀ i, i < s.vc.vlmax → u.elemAt s.vc 32 (d.toNat + i / (s.vc.lanes.length * 8)) (i % (s.vc.lanes.length * 8)) =
        if s.active s.vc i then (convert (t.decode (s.elem s.vc a i)) .fp32 false).1 % 2 ^ 32
        else s.elemAt s.vc 32 (d.toNat + i / (s.vc.lanes.length * 8)) (i % (s.vc.lanes.length * 8))) ∧
      (∀ n k, n ≠ s.me.tile ∨ (k / 2048 ≠ d.toNat ∧ k / 2048 ≠ d.toNat + 1) ∨ k % 2048 / 32 ∉ s.vc.lanes →
        Tab.lookD (u.tile n).vbank k 0 = Tab.lookD (s.tile n).vbank k 0)) ∧
  (∀ (s : State) (d a : BitVec 5) (t : Fmt) (f : Nat → Nat × Flags), vtFloat s.me.vt = some t → cvtOk .narrow s.me.vt d a = true →
    VecReady s [d, a, a + 1] →
    (∀ i, f i = convert (Fmt.fp32.decode (s.elemAt s.vc 32 (a.toNat + i / (s.vc.lanes.length * 8)) (i % (s.vc.lanes.length * 8)))) t false) →
    ∃ u, exec (.vfcvt d a .narrow) s = .next u ∧ PutVec s u s.vc s.vc.ew d.toNat (s.each s.vc fun i => (f i).1) ∧
      u.me.fflags = flagsAfter s (orAll (s.actives s.vc) fun i => (f i).2) ∧ SameMask s u ∧ VecDone s u [])

/-- R157, R388, R392, R403. Comparisons and VMLOG write every bit of their mask register: the condition at active positions, zero at every
other one. R403, R404. VMPOP, VMFIRST and VMVVS write a scalar register and leave banks and mask bits as they were. The PC behind the
last word of the address space is 0 (log 55, the model's reading). -/
def Obligations.VectorMaskResult : Prop :=
  (∀ (s : State) (i : Instr) (t : Fmt) (d : BitVec 3) (us : List (BitVec 5)) (f : Nat → Bool),
     ((∃ a b r c, i = .vfcmp d a b r c) → vtFloat s.me.vt = some t) → maskOf s s.vc t i = some (d, us, f) → VecReady s us →
     ∃ u, exec i s = .next u ∧ PutMask s u s.vc d.toNat (fun i => s.active s.vc i && f i) ∧ SameVec s u ∧
       u.me.fflags = s.me.fflags ∧ VecDone s u []) ∧
  (∀ (s : State) (i : Instr) (d : BitVec 5) (us rs : List (BitVec 5)) (x : Word),
     vscalOf s s.vc i = some (d, us, rs, x) → s.free rs → VecReady s us →
     ∃ t, exec i s = .next t ∧ t.reg d = (if d = 0 then 0 else x) ∧ SameVec s t ∧ SameMask s t ∧ t.me.fflags = s.me.fflags ∧ VecDone s t [d])

/-- R80, R342, R373. LD and ST of a LOCAL address that passes its checks complete, outside any strip: LD sign-extends what lies at the
address, lowest byte first, into its destination; ST changes the bytes of its size at that address and no other. The PC behind the
last word of the address space is 0 (log 55, the model's reading). -/
def Obligations.LocalLoadStoreResult : Prop :=
  (∀ (s : State) (d a : BitVec 5) (z : Size) (i : BitVec 14) (addr : Nat),
    (s.reg a + i.signExtend 64).toNat = addr → addr % Size.bytes z = 0 → LocalBytes s addr (Size.bytes z) → s.free [a, d] → s.plain →
    ∃ t, exec (.ld d a z i) s = .next t ∧
      t.reg d = (if d = 0 then 0 else .ofInt 64 (signedOf (8 * Size.bytes z) (localVal s addr (Size.bytes z)))) ∧ OnlyRegs s t [d] (s.me.pc + 4)) ∧
  (∀ (s : State) (d a : BitVec 5) (z : Size) (i : BitVec 14) (addr : Nat),
    (s.reg a + i.signExtend 64).toNat = addr → addr % Size.bytes z = 0 → LocalBytes s addr (Size.bytes z) → s.free [a, d] → s.plain →
    ∃ t, exec (.st d a z i) s = .next t ∧ OnlyStored s t addr (Size.bytes z) (s.reg d).toNat [])

/-- R77 to R80, R231, R235, R237. An access that the checks refuse parks its process with the first cause in the order MEMTYPE, MISALIGN, address, and
changes neither memory nor registers; for a process with no open strip. R154, R235, R399, R412. A vector access of a plain format that the checks of
MEMTYPE, MISALIGN or the LOCAL window refuse parks its process, outside any strip, with the cause of the lowest failing element, and its record counts
the elements from that one on; nothing is written. The model's choices in it: log 24, 67. -/
def Obligations.AccessFaults : Prop :=
  (∀ (s : State) (i : Instr) (rs : List (BitVec 5)) (addr : Word) (n : Nat) (c : Cause),
     accessOf s i = some (rs, addr, n) → accessFault s addr.toNat n = some c → s.free rs → s.me.strip = none →
     ∃ t, exec i s = .next t ∧ Parks s t c s.me.pc) ∧
  (∀ (s : State) (i : Instr) (st : Bool) (d a : BitVec 5) (us : List (BitVec 5)) (f : Nat → Word) (e : Nat) (c : Cause),
     vmemOf s s.vc i = some (st, d, a, us, f) → PlainFormat s.me.vt → s.free [a] → s.me.strip = none → VecReady s us → s.active s.vc e = true →
     accessFault s (f e).toNat (fmtBytes s.me.vt) = some c →
     (∀ j ∈ s.actives s.vc, j < e → LocalBytes s (f j).toNat (fmtBytes s.me.vt) ∧ (f j).toNat % fmtBytes s.me.vt = 0) →
     ∃ t, exec i s = .next t ∧ Parks s t c s.me.pc ∧
       ∃ r ∈ (t.tile s.me.tile).frecs, r.part = s.me.part ∧ r.slots.headD 0 = t.me.frec ∧ (r.slots.getD 2 0).toNat / 2 ^ 32 = s.vc.vl - e)

/-- R151, R153, R343. In an open strip a LOCAL store changes no memory and takes one scalar entry of the strip; a load of the same bytes in
that strip gets what was stored. With the scalar entries used up the store is STRIP_OVERFLOW, and the strip restarts. R148, R151. STRIPEND
without a strip only advances. After a store inside a strip it commits: the bytes are in memory, and no strip is open. The PC behind the
last word of the address space is 0 (log 55, the model's reading). -/
def Obligations.StripResult : Prop :=
  (∀ (s : State) (k : Strip) (d a e : BitVec 5) (z : Size) (i : BitVec 14) (addr : Nat), s.me.strip = some k → k.committing = false →
    k.nSca < k.maxSca →
    s.me.ss = false → (s.reg a + i.signExtend 64).toNat = addr → addr % Size.bytes z = 0 → LocalBytes s addr (Size.bytes z) → s.free [a, d] →
    s.free [a, e] → (∀ x ∈ k.held, ∀ t pc pl ad fn n v, x ≠ .atomic t pc pl ad fn n v) →
    ∃ t u, exec (.st d a z i) s = .next t ∧ SameMemory s t ∧ SameRegs s t [] ∧ WentTo t (s.me.pc + 4) ∧
      (t.me.strip.map fun k => (k.nSca, k.nVec)) = some (k.nSca + 1, k.nVec) ∧
      exec (.ld e a z i) t = .next u ∧
      u.reg e = (if e = 0 then 0 else .ofInt 64 (signedOf (8 * Size.bytes z) (s.reg d).toNat)) ∧ SameMemory s u) ∧
  (∀ (s : State) (k : Strip) (d a : BitVec 5) (z : Size) (i : BitVec 14) (addr : Nat), s.me.strip = some k → k.maxSca ≤ k.nSca →
    (s.reg a + i.signExtend 64).toNat = addr → addr % Size.bytes z = 0 → LocalBytes s addr (Size.bytes z) → s.free [a, d] →
    ∃ t, exec (.st d a z i) s = .next t ∧ t.me.pst = .parkedFault ∧ t.me.frec.toNat % 256 = Cause.stripOverflow.code ∧ t.me.strip = none ∧
      t.me.pc = k.pc ∧ SameMemory s t) ∧
  (∀ s : State, s.plain → ∃ t, exec .stripend s = .next t ∧ OnlyRegs s t [] (s.me.pc + 4)) ∧
  (∀ (s : State) (k : Strip) (d a : BitVec 5) (z : Size) (i : BitVec 14) (addr : Nat), s.me.strip = some k → k.held = [] → k.loads = [] →
    k.retained = [] → k.kept = [] → k.keptAway = [] → k.committing = false → k.fflags = 0 → (∀ m ∈ s.staged, m.h ≠ s.running) → k.nSca < k.maxSca → s.me.ss = false → (s.reg a + i.signExtend 64).toNat = addr →
    addr % Size.bytes z = 0 → LocalBytes s addr (Size.bytes z) → s.free [a, d] →
    ∃ t u, exec (.st d a z i) s = .next t ∧ SameMemory s t ∧ exec .stripend t = .next u ∧
      StoredLocal s u addr (Size.bytes z) (s.reg d).toNat ∧ u.me.strip = none ∧ SameRegs s u [] ∧ WentTo u (s.me.pc + 8))

/-- R14, R71, R94, R117. A load whose place is another slice, DRAM or another package, of bytes that neither the strip nor the combining
buffer supplies, completes with its destination pending and changes no memory; a store to DRAM that no migration touches lies in the
combining buffer afterwards, and memory is unchanged. The PC behind the
last word of the address space is 0 (log 55, the model's reading). -/
def Obligations.FarLoadStore : Prop :=
  (∀ (s u : State) (d a : BitVec 5) (z : Size) (i : BitVec 14) (pl : Place), s.free [a, d] → s.plain → d ≠ 0 →
    s.placeMt (s.me.mtCtx s.running) (s.reg a + i.signExtend 64) (Size.bytes z) (Size.bytes z) .load = (u, .ok pl) → (∀ k, pl ≠ .sram k false) →
    (u.tile s.me.tile).cb = [] →
    ∃ t, exec (.ld d a z i) s = .next t ∧ t.me.isPending d.toNat = true ∧ SameRegs s t [] ∧ WentTo t (s.me.pc + 4) ∧ SameMemory s t ∧
      SameUnits s t ∧ t.me.specials = s.me.specials) ∧
  (∀ (s u : State) (d a : BitVec 5) (z : Size) (i : BitVec 14) (k v : Nat), s.free [a, d] → s.plain →
    s.placeMt (s.me.mtCtx s.running) (s.reg a + i.signExtend 64) (Size.bytes z) (Size.bytes z) .store = (u, .ok (.dram k v)) →
    u.migrating s.me.part k = none → (u.tile s.me.tile).cb = [] →
    ∃ t e, exec (.st d a z i) s = .next t ∧ (t.tile s.me.tile).cb = [(0, e)] ∧ e.h = s.running ∧ e.block = .dram (k / 64 * 64) (v / 64 * 64) ∧
      (∀ j, j < Size.bytes z → ∃ b ∈ e.bs, b.off = k % 64 + j ∧ b.val = .ofNat 8 ((s.reg d).toNat / 256 ^ j)) ∧
      SameRegs s t [] ∧ WentTo t (s.me.pc + 4) ∧ SameMemory s t ∧ SameUnits s t ∧ t.me.specials = s.me.specials)

/-- R119 to R121, R297, R298. Atomics of a LOCAL address complete outside any strip: the bytes at the address take the function of what they
held and the operand; those with a result give the old value, sign-extended, and change no register else. R110, R120. A value-returning
atomic under STATUS.DET is DET_VIOLATION before any other check. The PC behind the
last word of the address space is 0 (log 55, the model's reading). -/
def Obligations.LocalAtomicResult : Prop :=
  (∀ (s : State) (i : Instr) (a b : BitVec 5) (n : Nat), atomicPlainOf i = some (a, b, n) → (s.reg a).toNat % n = 0 →
    LocalBytes s (s.reg a).toNat n → s.free [a, b] → s.plain →
    ∃ t, exec i s = .next t ∧
      OnlyStored s t (s.reg a).toNat n (atomicResult n (localVal s (s.reg a).toNat n) ((s.reg b).toNat % 256 ^ n) 0 i) []) ∧
  (∀ (s : State) (i : Instr) (d a b : BitVec 5) (more : List (BitVec 5)) (n : Nat), atomicValueOf i = some (d, a, b, more, n) →
    (s.reg a).toNat % n = 0 → LocalBytes s (s.reg a).toNat n → s.free ([a, b, d] ++ more) → s.plain → s.me.det = false →
    ∃ t, exec i s = .next t ∧ t.reg d = (if d = 0 then 0 else .ofInt 64 (signedOf (8 * n) (localVal s (s.reg a).toNat n))) ∧
      OnlyStored s t (s.reg a).toNat n (atomicResult n (localVal s (s.reg a).toNat n) ((s.reg b).toNat % 256 ^ n)
        ((s.reg (b + 1)).toNat % 256 ^ n) i) [d]) ∧
  (∀ (s : State) (i : Instr) (d a b : BitVec 5) (more : List (BitVec 5)) (n : Nat), atomicValueOf i = some (d, a, b, more, n) →
     s.free ([a, b, d] ++ more) → s.me.strip = none → s.me.det = true →
     ∃ t, exec i s = .next t ∧ Parks s t .detViolation s.me.pc)

/-- R82, R83, R86, R87, R337, R340. KDERIVE narrows a capability that permits it; KLD and KST of a LOCAL granule move sixteen bytes with their
tag; nothing else changes. R86. KDERIVE of a capability without tag or DERIVE, or beyond its length, is CAP_FAULT. The PC behind the
last word of the address space is 0 (log 55, the model's reading). -/
def Obligations.CapabilityResult : Prop :=
  (∀ (s : State) (d a : BitVec 3) (b : BitVec 5) (p : BitVec 6), s.free [b, b + 1] → s.plain → (s.me.cap a.toNat).tag = true →
    (s.me.cap a.toNat).derive = true → (s.reg b).toNat + (s.reg (b + 1)).toNat ≤ (s.me.cap a.toNat).len →
    (s.me.cap a.toNat).base + (s.reg b).toNat < 2 ^ 48 →
    ∃ t, exec (.kderive d a b p) s = .next t ∧ (t.me.cap d.toNat).tag = true ∧
      (t.me.cap d.toNat).base = (s.me.cap a.toNat).base + (s.reg b).toNat ∧ (t.me.cap d.toNat).len = (s.reg (b + 1)).toNat ∧
      (t.me.cap d.toNat).perms = (s.me.cap a.toNat).perms &&& p.toNat ∧ (t.me.cap d.toNat).peer = (s.me.cap a.toNat).peer ∧
      (t.me.cap d.toNat).space = (s.me.cap a.toNat).space ∧ (∀ k, k ≠ d.toNat → t.me.cap k = s.me.cap k) ∧ (∀ r, t.reg r = s.reg r) ∧
      WentTo t (s.me.pc + 4) ∧ SameMemory s t ∧ SameUnits s t ∧ SameRest s t ∧ t.me.specials = s.me.specials) ∧
  (∀ (s : State) (d : BitVec 3) (a : BitVec 5), (s.reg a).toNat % 16 = 0 → LocalBytes s (s.reg a).toNat 16 → s.free [a] → s.plain →
    ∃ t, exec (.kld d a) s = .next t ∧ t.me.cap d.toNat = localCap s (s.reg a).toNat ∧ (∀ k, k ≠ d.toNat → t.me.cap k = s.me.cap k) ∧
      (∀ r, t.reg r = s.reg r) ∧ WentTo t (s.me.pc + 4) ∧ SameMemory s t ∧ SameUnits s t ∧ SameRest s t ∧ t.me.specials = s.me.specials) ∧
  (∀ (s : State) (d : BitVec 3) (a : BitVec 5), (s.reg a).toNat % 16 = 0 → LocalBytes s (s.reg a).toNat 16 → s.free [a] → s.plain →
    ∃ t, exec (.kst d a) s = .next t ∧ localCap t (s.reg a).toNat = s.me.cap d.toNat ∧
      (∀ k, ¬(s.me.tile * 0x100000 + (s.reg a).toNat ≤ k ∧ k < s.me.tile * 0x100000 + (s.reg a).toNat + 16) → t.sramByte k = s.sramByte k) ∧
      (∀ g, g ≠ (s.me.tile * 0x100000 + (s.reg a).toNat) / 16 → Tab.lookD t.sramTags g false = Tab.lookD s.sramTags g false) ∧
      (∀ part k, t.hbmByte part k = s.hbmByte part k) ∧ (∀ g, Tab.lookD t.hbmTags g false = Tab.lookD s.hbmTags g false) ∧
      SameRegs s t [] ∧ WentTo t (s.me.pc + 4) ∧ SameUnits s t ∧ SameRest s t ∧ t.me.specials = s.me.specials) ∧
  (∀ (s : State) (d a : BitVec 3) (b : BitVec 5) (p : BitVec 6), s.free [b, b + 1] → s.me.strip = none →
     ((s.me.cap a.toNat).tag = false ∨ (s.me.cap a.toNat).derive = false ∨
       (s.me.cap a.toNat).len < (s.reg b).toNat + (s.reg (b + 1)).toNat) →
     ∃ t, exec (.kderive d a b p) s = .next t ∧ Parks s t .capFault s.me.pc)

/-- R77, R89, R287, R368. SETVS, SETMT, SETPEER and CSRW of a checkpointed register complete, in a strip or outside: the register takes its
writable bits, the strip stays as it was, nothing else changes. R158, R159, R368. SETVT and CSRW of VT: VT keeps its defined bits, and VL
falls to the new VLMAX and never rises; with a grant pending they wait for it (R47). The PC behind the
last word of the address space is 0 (log 55, the model's reading). -/
def Obligations.SetRegisterResult : Prop :=
  (∀ (s : State) (i : Instr) (a : BitVec 5) (x : Specials), setRegOf s i = some (a, x) → s.free [a] → s.me.ss = false →
     ∃ t, exec i s = .next t ∧ t.me.strip = s.me.strip ∧ OnlySpecial s t x []) ∧
  (∀ (s : State) (i : Instr) (a : BitVec 5), (i = .setvt a ∨ i = .csrw a .vt) → s.free [a] → s.me.ss = false → s.me.pgrant = none →
    ∃ t, exec i s = .next t ∧ OnlySpecial s t { s.me.specials with
      vt := s.reg a &&& 0x8CF7
      vl := .ofNat 12 (min s.me.vl.toNat ((lanesOf s.me.slivers).length * 256 / (8 * 2 ^ ((s.reg a).toNat % 4)))) } []) ∧
  (∀ (s : State) (i : Instr) (a : BitVec 5) (g : PGrant), (i = .setvt a ∨ i = .csrw a .vt) → s.free [a] → s.me.pgrant = some g →
    ∃ t, exec i s = .next t ∧ t.me.pst = .blockedToken g.sd ∧ t.me.pc = s.me.pc ∧ t.me.specials = s.me.specials ∧ SameRegs s t [])

/-- R43, R47, R148, R153. SETVL opens a strip. With AVL 0 the lanes are released at once; a process that holds the shape it asks for keeps it,
and its sliver is its own (R240); on an idle tile a process without lanes gets a grant that takes effect 64 cycles later, and its destination is pending meanwhile. The PC behind the
last word of the address space is 0 (log 55, the model's reading). -/
def Obligations.SetvlResult : Prop :=
  (∀ (s : State) (d a : BitVec 5), s.free [a, d] → s.plain → s.reg a = 0 →
    ∃ t k, exec (.setvl d a) s = .next t ∧ t.reg d = 0 ∧ t.me.vl = 0 ∧ t.me.slivers = [] ∧ t.me.strip = some k ∧ k.pc = s.me.pc ∧
      (k.maxVec, k.maxSca) = (0, 16) ∧ WentTo t (s.me.pc + 4) ∧ SameMemory s t) ∧
  (∀ (s : State) (d a : BitVec 5) (n : Nat), s.free [a, d] → s.plain → s.me.slivers = [n] → n < 16 → s.me.cluster = false →
    s.fused s.me.tile = 0 → (s.tile s.me.tile).laneReqs = [] → shapeFor (s.reg a).toNat (8 * 2 ^ (s.me.vt.toNat % 4)) = .sliver →
    s.conflict s.running 0 [n] = none → s.me.crosses 0 = false →
    ∃ t k, exec (.setvl d a) s = .next t ∧ t.me.vl = .ofNat 12 (min (s.reg a).toNat (1024 / (8 * 2 ^ (s.me.vt.toNat % 4)))) ∧
      t.reg d = (if d = 0 then 0 else .ofNat 64 (min (s.reg a).toNat (1024 / (8 * 2 ^ (s.me.vt.toNat % 4))))) ∧ t.me.slivers = [n] ∧
      t.me.strip = some k ∧ k.pc = s.me.pc ∧ (k.maxVec, k.maxSca) = (8, 16) ∧ SameRegs s t [d] ∧ WentTo t (s.me.pc + 4) ∧ SameMemory s t ∧
      SameVec s t ∧ SameMask s t ∧ SameTregs s t ∧ SameShapes s t ∧ (∀ k, (t.tile k).an = (s.tile k).an) ∧
      Tab.lookD (t.tile s.me.tile).owners n 0 = s.running) ∧
  (∀ (s : State) (d a : BitVec 5), s.free [a, d] → s.plain → d ≠ 0 → s.me.slivers = [] → s.fused s.me.tile = 0 →
    (s.tile s.me.tile).laneReqs = [] → (∀ h ∈ s.residents s.me.tile, (s.proc h).slivers = [] ∧ (s.proc h).pgrant = none) →
    s.running ∈ s.residents s.me.tile → s.reg a ≠ 0 →
    ∃ t g, exec (.setvl d a) s = .next t ∧ t.me.pgrant = some g ∧ g.assigned = true ∧ g.due = s.cycle + 64 ∧ g.avl = (s.reg a).toNat ∧
      g.sd = d.toNat ∧ t.me.isPending d.toNat = true ∧ t.me.slivers = [] ∧ t.me.strip.isSome = true ∧ SameRegs s t [] ∧
      WentTo t (s.me.pc + 4) ∧ SameMemory s t ∧ SameUnits s t)

/-- R287, R319. CSRR of a register that the process's level may read gives its value, and changes nothing but its destination; with a grant pending, a
read of VL waits; below the level it is PRIVILEGE. R227, R229, R287, R320. CSRW of a register outside the checkpoint, with no strip open: a process
register takes its writable bits or discards the write; TVEC, STIMEO, SEEDA and SEEDB of the partition need level 1, PCAP level 2; below its level,
and for a level 0 write that would change STATUS, it is PRIVILEGE. The model's choices in it: log 25, 50, 51. The PC behind the
last word of the address space is 0 (log 55, the model's reading). -/
def Obligations.CsrResult : Prop :=
  (∀ (s : State) (d : BitVec 5) (n : Csr) (x : Word), csrReads s n = some x → csrNeeds n ≤ s.me.pl → s.free [d] → s.me.ss = false →
    (n = .vl → s.me.pgrant = none) →
    ∃ t, exec (.csrr d n) s = .next t ∧ t.reg d = (if d = 0 then 0 else x) ∧ t.me.strip = s.me.strip ∧ OnlyRegs s t [d] (s.me.pc + 4)) ∧
  (∀ (s : State) (d : BitVec 5) (n : Csr), s.me.pl < csrNeeds n → s.free [d] → s.me.strip = none →
    ∃ t, exec (.csrr d n) s = .next t ∧ Parks s t .privilege s.me.pc) ∧
  (∀ (s : State) (a : BitVec 5) (n : Csr) (x : Specials), csrWrites s (s.reg a) n = some x → s.free [a] → s.plain →
    ∃ t, exec (.csrw a n) s = .next t ∧ OnlySpecial s t x []) ∧
  (∀ (s : State) (a : BitVec 5), s.free [a] → s.plain → 1 ≤ s.me.pl →
    (∃ t, exec (.csrw a .tvec) s = .next t ∧ t.part s.me.part = { s.myPart with tvec := .ofNat 48 ((s.reg a).toNat / 4 * 4) } ∧
      WentTo t (s.me.pc + 4) ∧ SameRegs s t [] ∧ (∀ n, n ≠ s.me.part → t.part n = s.part n)) ∧
    (∃ t, exec (.csrw a .stimeo) s = .next t ∧ t.part s.me.part = { s.myPart with stimeo := .ofNat 32 (s.reg a).toNat } ∧
      WentTo t (s.me.pc + 4) ∧ SameRegs s t [] ∧ (∀ n, n ≠ s.me.part → t.part n = s.part n)) ∧
    (∃ t, exec (.csrw a .seeda) s = .next t ∧ t.part s.me.part = { s.myPart with seeda := s.reg a } ∧
      WentTo t (s.me.pc + 4) ∧ SameRegs s t [] ∧ (∀ n, n ≠ s.me.part → t.part n = s.part n)) ∧
    (∃ t, exec (.csrw a .seedb) s = .next t ∧ t.part s.me.part = { s.myPart with seedb := s.reg a } ∧
      WentTo t (s.me.pc + 4) ∧ SameRegs s t [] ∧ (∀ n, n ≠ s.me.part → t.part n = s.part n))) ∧
  (∀ (s : State) (a : BitVec 5), s.free [a] → s.plain → 2 ≤ s.me.pl →
    ∃ t, exec (.csrw a .pcap) s = .next t ∧ t.pcap = .ofNat 13 (min 4200 ((s.reg a).toNat % 8192)) ∧ WentTo t (s.me.pc + 4) ∧
      SameRegs s t [] ∧ SameMemory s t) ∧
  (∀ (s : State) (a : BitVec 5) (n : Csr), s.free [a] → s.me.strip = none →
    (s.me.pl < 1 ∧ n ∈ [.tvec, .stimeo, .seeda, .seedb, .tlbi, .sdesc, .resume, .pswap] ∨ s.me.pl < 2 ∧ n ∈ [.pset, .hepset, .pcap] ∨
      s.me.pl = 0 ∧ n = .status ∧ (s.reg a).toNat / 16 % 16 ≠ s.me.status.toNat / 16) →
    ∃ t, exec (.csrw a n) s = .next t ∧ Parks s t .privilege s.me.pc)

/-- R228, R230, R382. TRAP outside a strip: at level 0 the handler at TVEC is entered, with EPC at the TRAP, CAUSE, FREC and STATUS as trap entry gives
them; at a higher level the process parks. The model's choices in it: log 24. -/
def Obligations.TrapResult : Prop :=
  (∀ (s : State) (c : BitVec 12), s.me.strip = none → s.me.pl = 0 →
    ∃ t, exec (.trap c) s = .next t ∧ WentTo t s.myPart.tvec ∧ t.me.epc = s.me.pc ∧
      t.me.cause.toNat = Cause.softwareTrap.code + c.toNat * 65536 ∧ t.me.frec.toNat % 256 = Cause.softwareTrap.code ∧
      t.me.frec.toNat / 2 ^ 32 = s.running % 2 ^ 32 ∧ t.me.pl = 1 ∧ t.me.ppl = 0 ∧ t.me.det = s.me.det ∧ t.me.ss = s.me.ss ∧
      t.me.dbg = s.me.dbg ∧ t.me.xo = s.me.xo ∧ SameRegs s t [] ∧ SameMemory s t ∧ SameUnits s t ∧ SameRest s t) ∧
  (∀ (s : State) (c : BitVec 12), s.me.strip = none → 1 ≤ s.me.pl → ∃ t, exec (.trap c) s = .next t ∧ Parks s t .softwareTrap s.me.pc)

/-- R228, R242, R332. ERET at level 1 goes to EPC and takes STATUS.PL from PPL; PPL and XO become 0; at another level it is PRIVILEGE. Under XO
it makes the process the owner of the unit that CAUSE names, slivers by XMASK, and nothing in the units changes; where that is the analyser and an
array of the process is saved, the array comes back, and a former owner's is saved in turn (R197; log 41, the model's choice). R228, R332. A
TRAP from level 0 outside a strip and the ERET at its handler come back to the TRAP with the STATUS it had. -/
def Obligations.EretResult : Prop :=
  (∀ s : State, s.plain → s.me.pl = 1 → s.me.xo = false →
    ∃ t, exec .eret s = .next t ∧ WentTo t (.ofNat 48 (s.me.epc.toNat / 4 * 4)) ∧ t.me.pl = s.me.ppl ∧ t.me.ppl = 0 ∧ t.me.xo = false ∧
      t.me.det = s.me.det ∧ t.me.dbg = s.me.dbg ∧ t.me.epc = s.me.epc ∧ t.me.cause = s.me.cause ∧ t.me.frec = s.me.frec ∧
      SameRegs s t [] ∧ SameMemory s t ∧ SameUnits s t) ∧
  (∀ s : State, s.plain → s.me.pl = 1 → s.me.xo = true →
    let back : BitVec 48 := .ofNat 48 (s.me.epc.toNat / 4 * 4)
    let us := unitsOf s.me.causeUnit (sliversOf (s.me.cause.toNat / 2 ^ 32 % 65536))
    (s.me.causeUnit ≠ 2 ∨ s.me.image = none →
      ∃ t, exec .eret s = .next t ∧ WentTo t back ∧ t.me.pl = s.me.ppl ∧ t.me.ppl = 0 ∧ t.me.xo = false ∧ t.me.det = s.me.det ∧
        t.me.epc = s.me.epc ∧ t.me.cause = s.me.cause ∧ t.me.frec = s.me.frec ∧ SameRegs s t [] ∧ SameMemory s t ∧ SameVec s t ∧ SameMask s t ∧
        SameTregs s t ∧ SameShapes s t ∧ (∀ n, (t.tile n).an = (s.tile n).an) ∧
        (∀ u, Tab.lookD (t.tile s.me.tile).owners u 0 = if u ∈ us then s.running else Tab.lookD (s.tile s.me.tile).owners u 0) ∧
        ∀ n, n ≠ s.me.tile → (t.tile n).owners = (s.tile n).owners) ∧
    (∀ (an : Analyser) (o : Nat), s.me.causeUnit = 2 → s.me.image = some an → Tab.lookD (s.tile s.me.tile).owners 17 0 = o → o ≠ s.running →
      ∃ t, exec .eret s = .next t ∧ WentTo t back ∧ t.me.pl = s.me.ppl ∧ t.me.xo = false ∧ t.me.image = none ∧ SameMemory s t ∧
        (∀ i, (t.tile s.me.tile).an.cell i = an.cell i) ∧ Tab.lookD (t.tile s.me.tile).owners 17 0 = s.running ∧
        (o ≠ 0 → (t.proc o).image = some (s.tile s.me.tile).an))) ∧
  (∀ s : State, s.me.strip = none → s.me.pl ≠ 1 → ∃ t, exec .eret s = .next t ∧ Parks s t .privilege s.me.pc) ∧
  (∀ (s : State) (c : BitVec 12), s.plain → s.me.pl = 0 → s.me.ppl = 0 → s.me.xo = false → s.me.pc.toNat % 4 = 0 →
     ∃ t u, exec (.trap c) s = .next t ∧ exec .eret t = .next u ∧ u.me.pc = s.me.pc ∧ u.me.status = s.me.status ∧ SameRegs s u [] ∧
       SameMemory s u)

/-- R38, R39, R360, R416. PRIO gives the old level and takes the lesser of the priorities asked for and allowed; YIELD completes and waits for
every READY resident of its level or above (of R38's other processes, those that hold a context slot: log 43, the model's reading). R109, R334. FENCE
completes at once when the process has no access outstanding; an access of its scope that has not performed holds it. The PC behind the
last word of the address space is 0 (log 55, the model's reading). -/
def Obligations.PrioYieldFenceResult : Prop :=
  (∀ (s : State) (d a : BitVec 5), s.free [a, d] → s.plain →
    ∃ t, exec (.prio d a) s = .next t ∧ t.reg d = (if d = 0 then 0 else .ofNat 64 s.me.level) ∧
      t.me.level = max ((s.reg a).toNat % 4) s.me.ceiling ∧ OnlyRegs s t [d] (s.me.pc + 4)) ∧
  (∀ s : State, s.me.ss = false →
    ∃ t, exec .yield s = .next t ∧ OnlyRegs s t [] (s.me.pc + 4) ∧
      ∀ h, (h, (s.proc h).epoch) ∈ t.me.yields ↔
        (h ∈ s.residents s.me.tile ∧ h ≠ s.running ∧ (s.proc h).pst = .ready ∧ (s.proc h).level ≤ s.me.level)) ∧
  (∀ (s : State) (sc : Scope), s.plain → (s.tile s.me.tile).cb = [] → s.reqs = [] →
    ∃ t, exec (.fence sc) s = .next t ∧ OnlyRegs s t [] (s.me.pc + 4)) ∧
  (∀ (s : State) (id : Nat) (r : Req), s.plain → (s.tile s.me.tile).cb = [] → s.reqs = [(id, r)] → r.h = s.running → r.performed = false →
    r.ofStream = false →
    ∃ t, exec (.fence .system) s = .next t ∧ t.me.hold = [id] ∧ t.me.pc = s.me.pc ∧ t.me.pst = .ready ∧ SameRegs s t [] ∧ SameMemory s t)

/-- R34 to R36, R372. SPAWN of a well-formed descriptor that moves no binding, by a process with no access outstanding: the destination takes
the child's handle, the child stands at ENTRY with its arguments, the parent's window and determinism, and may issue one cycle later; it is resident where
its tile has a free context slot, and changes no memory then; a descriptor outside the window is PROTECTION. R37, R324, R333. EXIT of a process that has nothing outstanding and no channel bound: it is
EXITED, holds no lanes, capabilities or units, and its context slot is free. R35, R36. XFER moves a writer binding with its credits and name to a
child on any tile, and a reader binding with its entry to one on the parent's own tile; a reader for another tile is PROTECTION, an unbound register
CHAN_UNBOUND. R37. EXIT with a bound channel unbinds it: a writer's credits fall FREE at its reader, and a reader's entry is free, its unread slots gone,
its writers' registers dead for every later push. The model's choices in it: log 76, 91; of memory the entry's buffer run may change (log 81). The PC behind the
last word of the address space is 0 (log 55, the model's reading). -/
def Obligations.SpawnExitResult : Prop :=
  (∀ (s : State) (d a : BitVec 5) (bs : List Byte) (tile q h : Nat), s.free [a, d] → s.plain → (s.reg a).toNat % 8 = 0 →
    s.readWindow (s.reg a) 64 = .ok bs → dword bs 0 < 2 ^ 48 → dword bs 0 % 4 = 0 → dword bs 8 / 2 ^ 19 = 0 → dword bs 8 / 2048 % 32 = 0 →
    dword bs 48 = 0 → dword bs 56 = 0 → dword bs 8 % 2048 = tile → s.myPart.inRect tile = true → (s.tile s.me.tile).cb = [] → s.reqs = [] →
    (s.tile tile).nextSeq = q → (∀ e ∈ s.procs, e.2.tile = tile → e.1 % 2 ^ 17 ≠ q) → s.me.part * 2 ^ 28 + tile * 2 ^ 17 + q = h → h ≠ s.running →
    ∃ t, exec (.spawn d a) s = .next t ∧ t.reg d = (if d = 0 then 0 else .ofNat 64 h) ∧ (t.proc h).pc = .ofNat 48 (dword bs 0) ∧
      (∀ j, j < 4 → (t.proc h).reg (j + 1) = .ofNat 64 (dword bs (16 + 8 * j))) ∧ (t.proc h).part = s.me.part ∧ (t.proc h).tile = tile ∧
      (t.proc h).det = s.me.det ∧ (t.proc h).pl = 0 ∧ (t.proc h).wbase = s.me.wbase ∧ (t.proc h).wsize = s.me.wsize ∧
      (t.proc h).level = max (dword bs 8 / 2 ^ 16 % 4) s.me.ceiling ∧
      (t.proc h).pst = (if dword bs 8 / 2 ^ 18 % 2 = 1 then .haltedDebug else .ready) ∧ (t.proc h).shut = true ∧
      (s.cycle + 1, .childRelease h) ∈ t.events ∧ SameRegs s t [d] ∧ WentTo t (s.me.pc + 4) ∧
      (s.freeSlot tile ≠ none → (t.proc h).res = .resident ∧ SameMemory s t) ∧
      (s.freeSlot tile = none → (t.proc h).res = .swapped ∧ ∀ k, t.sramByte k = s.sramByte k)) ∧
  (∀ (s : State) (d a : BitVec 5) (bs : List Byte) (tile q h i e : Nat), s.free [a, d] → s.plain → (s.reg a).toNat % 8 = 0 →
    s.readWindow (s.reg a) 64 = .ok bs → dword bs 0 < 2 ^ 48 → dword bs 0 % 4 = 0 → dword bs 8 / 2 ^ 19 % 2 ^ 29 = 0 → dword bs 8 / 2048 % 32 = 0 →
    dword bs 48 = 0 → dword bs 56 = 0 → dword bs 8 % 2048 = tile → s.myPart.inRect tile = true → i < 16 → dword bs 8 / 2 ^ 48 = 2 ^ i →
    ((s.me.chan i).role = .unbound → ∃ t, exec (.spawn d a) s = .next t ∧ Parks s t .chanUnbound s.me.pc) ∧
    ((s.me.chan i).role = .reader → tile ≠ s.me.tile → ∃ t, exec (.spawn d a) s = .next t ∧ Parks s t .protection s.me.pc) ∧
    ((s.tile s.me.tile).cb = [] → s.reqs = [] → s.staged = [] → s.links = [] → s.net = [] → (s.me.chan i).dest = .tile e → (s.me.chan i).use = .plain →
      (s.me.chan i).relayOut = 0 → (s.tile tile).nextSeq = q → (∀ z ∈ s.procs, z.2.tile = tile → z.1 % 2 ^ 17 ≠ q) →
      s.me.part * 2 ^ 28 + tile * 2 ^ 17 + q = h → h ≠ s.running → (s.freeSlot tile).isSome = true →
      (s.me.chan i).role = .writer ∨ (s.me.chan i).role = .reader ∧ tile = s.me.tile →
      ∃ t, exec (.spawn d a) s = .next t ∧ WentTo t (s.me.pc + 4) ∧ t.reg d = (if d = 0 then 0 else .ofNat 64 h) ∧ (t.proc h).pc = .ofNat 48 (dword bs 0) ∧
        (t.proc h).chan i = s.me.chan i ∧ (∀ k, k ≠ i → (t.proc h).chan k = {}) ∧ t.me.chan i = {} ∧ (∀ k, k ≠ i → t.me.chan k = s.me.chan k) ∧
        ((s.me.chan i).role = .writer → (t.ep e).writers = (s.ep e).writers.map fun w => if w = widOf s.running i then widOf h i else w) ∧
        ((s.me.chan i).role = .reader → t.ep e = { s.ep e with owner := widOf h i }) ∧ SameMemory s t)) ∧
  (∀ (s : State) (d a : BitVec 5) (c : Cause), s.free [a, d] → s.me.strip = none → (s.reg a).toNat % 8 = 0 →
    s.readWindow (s.reg a) 64 = .error c → c ≠ .vown → c ≠ .softwareTrap → ∃ t, exec (.spawn d a) s = .next t ∧ Parks s t c s.me.pc) ∧
  (∀ s : State, s.me.strip = none → s.me.chans = [] → (s.tile s.me.tile).cb = [] → s.reqs = [] → s.binds = [] → s.staged = [] →
     (s.tile s.me.tile).an.taps = [] → (∀ e ∈ s.procs, e.2.ending ≠ some s.running) →
     ∃ t, exec .exit s = .next t ∧ (t.proc s.running).pst = .exited ∧ (t.proc s.running).caps = [] ∧ (t.proc s.running).slivers = [] ∧
       (t.proc s.running).pgrant = none ∧ (∀ e ∈ (t.tile s.me.tile).slots, e.2 ≠ s.running) ∧
       (∀ e ∈ (t.tile s.me.tile).owners, e.2 ≠ s.running) ∧ SameMemory s t) ∧
  (∀ (s : State) (c e : Nat) (x : ChanReg), s.me.strip = none → s.me.chans = [(c, x)] → c < 16 → s.running < 2 ^ 32 → x.use = .plain → x.gone = false →
     x.dest = .tile e → (s.tile s.me.tile).cb = [] → s.reqs = [] → s.binds = [] → s.staged = [] → s.links = [] → (s.tile s.me.tile).an.taps = [] →
     (∀ p ∈ s.procs, p.2.ending ≠ some s.running) →
     (x.role = .writer → widOf s.running c ∈ (s.ep e).writers → (s.ep e).shortfalls = [] →
       ∃ t, exec .exit s = .next t ∧ (t.proc s.running).pst = .exited ∧ (t.proc s.running).chans = [] ∧ (t.ep e).free = (s.ep e).free + x.credits ∧
         (t.ep e).writers = (s.ep e).writers.filter (· ≠ widOf s.running c) ∧ (t.ep e).queue = (s.ep e).queue ∧ SameMemory s t) ∧
     (x.role = .reader → e < 1048576 →
       ∃ t, exec .exit s = .next t ∧ (t.proc s.running).pst = .exited ∧ (t.proc s.running).chans = [] ∧ (t.ep e).bound = false ∧ (t.ep e).queue = [] ∧
         (∀ h k, h < 2 ^ 32 → k < 16 → h ≠ s.running → widOf h k ∈ (s.ep e).writers → ((s.proc h).chan k).role = .writer →
           ((s.proc h).chan k).dest = .tile e → ((t.proc h).chan k).gone = true) ∧
         (∀ k, ((s.ep e).arrived = 0 ∨ k < e / 256 * 0x100000 + (s.ep e).run ∨ e / 256 * 0x100000 + (s.ep e).run + 8 * (s.ep e).bcap ≤ k) →
           t.sramByte k = s.sramByte k) ∧ ∀ part k, t.hbmByte part k = s.hbmByte part k))

/-- R97, R135, R397, R398. A vector load of a plain format whose active elements lie in LOCAL memory and pass their checks completes outside
any strip: each active element of the destination is the memory element widened; all else is as before. R135, R138, R410, R411. A vector
store of a plain format, likewise: memory takes each active element narrowed, in element order, and changes nowhere else; FFLAGS gathers
the flags of the narrowing. The PC behind the
last word of the address space is 0 (log 55, the model's reading). -/
def Obligations.LocalVectorAccess : Prop :=
  (∀ (s : State) (i : Instr) (d a : BitVec 5) (us : List (BitVec 5)) (f : Nat → Word),
     vmemOf s s.vc i = some (false, d, a, us, f) → PlainFormat s.me.vt → s.free [a] → s.plain → VecReady s us →
     (∀ i ∈ s.actives s.vc, LocalBytes s (f i).toNat (fmtBytes s.me.vt) ∧ (f i).toNat % fmtBytes s.me.vt = 0) →
     ∃ t, exec i s = .next t ∧ PutVec s t s.vc s.vc.ew d.toNat (s.each s.vc fun i => widen s.me.vt (localVal s (f i).toNat (fmtBytes s.me.vt))) ∧
       SameMask s t ∧ t.me.fflags = s.me.fflags ∧ VecDone s t []) ∧
  (∀ (s : State) (i : Instr) (d a : BitVec 5) (us : List (BitVec 5)) (f : Nat → Word),
     vmemOf s s.vc i = some (true, d, a, us, f) → PlainFormat s.me.vt → s.free [a] → s.plain → VecReady s us →
     (∀ i ∈ s.actives s.vc, LocalBytes s (f i).toNat (fmtBytes s.me.vt) ∧ (f i).toNat % fmtBytes s.me.vt = 0) →
     ∃ t, exec i s = .next t ∧
       (∀ k, t.sramByte k = storedByte s (fmtBytes s.me.vt) (fun i => (f i).toNat) (fun i => (narrow s.me.vt (s.elem s.vc d i)).1) (s.actives s.vc) k) ∧
       t.me.fflags = flagsAfter s (orAll (s.actives s.vc) fun i => (narrow s.me.vt (s.elem s.vc d i)).2) ∧ VecStored s t)

/-- R131, R136. VLD of a packed format reads element i from nibble i of the bytes at its address, or weight i of the codebook words there. VST
of FMT 6 writes the nibbles of its active elements and keeps every other. R142, R161, R400. VLDSEG and VSTSEG of LOCAL segments: a load
decodes each active element with the scale of its block; a store quantises the active elements of each block together, writes the scale
behind the codes, and keeps the codes of inactive elements. The PC behind the
last word of the address space is 0 (log 55, the model's reading). -/
def Obligations.PackedSegmentAccess : Prop :=
  (∀ (s : State) (d a : BitVec 5), fmtSuits s.me.vt = true → s.free [a] → s.plain → VecReady s [d] → vtFmt s.me.vt = 6 →
    (∀ i ∈ s.actives s.vc, LocalBytes s (s.reg a + .ofNat 64 (i / 2)).toNat 1) →
    ∃ t, exec (.vld d a) s = .next t ∧ PutVec s t s.vc s.vc.ew d.toNat (s.each s.vc fun i =>
        widen s.me.vt (localVal s (s.reg a + .ofNat 64 (i / 2)).toNat 1 / 16 ^ (i % 2) % 16)) ∧
      SameMask s t ∧ t.me.fflags = s.me.fflags ∧ VecDone s t []) ∧
  (∀ (s : State) (d a : BitVec 5), fmtSuits s.me.vt = true → s.free [a] → s.plain → VecReady s [d] → vtFmt s.me.vt = 7 →
    (∀ i ∈ s.actives s.vc, LocalBytes s (s.reg a + .ofNat 64 (2 * (i / 8))).toNat 2 ∧ (s.reg a + .ofNat 64 (2 * (i / 8))).toNat % 2 = 0) →
    ∃ t, exec (.vld d a) s = .next t ∧ PutVec s t s.vc s.vc.ew d.toNat (s.each s.vc fun i =>
        widen s.me.vt ((s.tile s.me.tile).cb2 (localVal s (s.reg a + .ofNat 64 (2 * (i / 8))).toNat 2) (i % 8))) ∧
      SameMask s t ∧ t.me.fflags = s.me.fflags ∧ VecDone s t []) ∧
  (∀ (s : State) (d a : BitVec 5), fmtSuits s.me.vt = true → s.free [a] → s.plain → VecReady s [d] → vtFmt s.me.vt = 6 →
    (∀ i ∈ s.actives s.vc, LocalBytes s (s.reg a + .ofNat 64 (i / 2)).toNat 1) →
    ∃ t, exec (.vst d a) s = .next t ∧ VecStored s t ∧
      (∀ i ∈ s.actives s.vc, (t.sramByte (s.me.tile * 0x100000 + (s.reg a + .ofNat 64 (i / 2)).toNat)).toNat / 16 ^ (i % 2) % 16 =
        (narrow s.me.vt (s.elem s.vc d i)).1 % 16) ∧
      (∀ i, i < s.vc.vl → s.active s.vc i = false →
        (t.sramByte (s.me.tile * 0x100000 + (s.reg a + .ofNat 64 (i / 2)).toNat)).toNat / 16 ^ (i % 2) % 16 =
          (s.sramByte (s.me.tile * 0x100000 + (s.reg a + .ofNat 64 (i / 2)).toNat)).toNat / 16 ^ (i % 2) % 16) ∧
      (∀ k, (∀ i ∈ s.actives s.vc, k ≠ s.me.tile * 0x100000 + (s.reg a + .ofNat 64 (i / 2)).toNat) → t.sramByte k = s.sramByte k)) ∧
  (∀ (s : State) (d a : BitVec 5) (f : Nat → Nat × Flags), fmtSuits s.me.vt = true → (vtFmt s.me.vt = 6 ∨ vtFmt s.me.vt = 7) → s.free [a] →
    s.plain → VecReady s [d] →
    (∀ i ∈ s.actives s.vc, LocalBytes s (s.reg a + .ofNat 64 (i / vtBlock s.me.vt * (segSize s.me.vt).2)).toNat (segSize s.me.vt).2 ∧
      (s.reg a + .ofNat 64 (i / vtBlock s.me.vt * (segSize s.me.vt).2)).toNat = segStart s.me.vt (s.reg a).toNat i ∧
      segStart s.me.vt (s.reg a).toNat i % (segSize s.me.vt).2 = 0) →
    (∀ i, f i = mxDecode (segCode s s.me.vt (s.reg a).toNat i) (localVal s (segStart s.me.vt (s.reg a).toNat i + (segSize s.me.vt).1) 1)
      (regFloat s.me.vt)) →
    ∃ t, exec (.vldseg d a) s = .next t ∧ PutVec s t s.vc s.vc.ew d.toNat (s.each s.vc fun i => (f i).1) ∧
      t.me.fflags = flagsAfter s (orAll (s.actives s.vc) fun i => (f i).2) ∧ SameMask s t ∧ VecDone s t []) ∧
  (∀ (s : State) (d a : BitVec 5) (q : Nat → Nat × List (Nat × Nat) × Flags), fmtSuits s.me.vt = true → vtFmt s.me.vt = 6 → s.free [a] →
    s.plain → VecReady s [d] →
    (∀ i ∈ s.actives s.vc, LocalBytes s (s.reg a + .ofNat 64 (i / vtBlock s.me.vt * (segSize s.me.vt).2)).toNat (segSize s.me.vt).2 ∧
      (s.reg a + .ofNat 64 (i / vtBlock s.me.vt * (segSize s.me.vt).2)).toNat = segStart s.me.vt (s.reg a).toNat i ∧
      segStart s.me.vt (s.reg a).toNat i % (segSize s.me.vt).2 = 0) →
    (∀ b, q b = mxQuantise (((s.actives s.vc).filter fun i => decide (i / vtBlock s.me.vt = b)).map fun i =>
      (i, (regFloat s.me.vt).decode (s.elem s.vc d i)))) →
    ∃ t, exec (.vstseg d a) s = .next t ∧ VecStored s t ∧
      (∀ i ∈ s.actives s.vc,
        (t.sramByte (s.me.tile * 0x100000 + segStart s.me.vt (s.reg a).toNat i + (segSize s.me.vt).1)).toNat = (q (i / vtBlock s.me.vt)).1 % 256 ∧
        ∀ x, ((q (i / vtBlock s.me.vt)).2.1.find? fun e => decide (e.1 = i)) = some (i, x) →
          (t.sramByte (s.me.tile * 0x100000 + segStart s.me.vt (s.reg a).toNat i + i % vtBlock s.me.vt / 2)).toNat / 16 ^ (i % vtBlock s.me.vt % 2) % 16
            = x % 16) ∧
      (∀ i, ∀ j ∈ s.actives s.vc, i / vtBlock s.me.vt = j / vtBlock s.me.vt → s.active s.vc i = false →
        (t.sramByte (s.me.tile * 0x100000 + segStart s.me.vt (s.reg a).toNat i + i % vtBlock s.me.vt / 2)).toNat / 16 ^ (i % vtBlock s.me.vt % 2) % 16 =
          (s.sramByte (s.me.tile * 0x100000 + segStart s.me.vt (s.reg a).toNat i + i % vtBlock s.me.vt / 2)).toNat / 16 ^ (i % vtBlock s.me.vt % 2) % 16) ∧
      (∀ k, (∀ i ∈ s.actives s.vc, ¬(s.me.tile * 0x100000 + segStart s.me.vt (s.reg a).toNat i ≤ k ∧
        k < s.me.tile * 0x100000 + segStart s.me.vt (s.reg a).toNat i + (segSize s.me.vt).2)) → t.sramByte k = s.sramByte k))

/-- R53, R58, R59, R61, R62, R88. CPUSH, CCLOSE, VPUSH and KSEND with the credits they need complete: the credits are spent and the messages leave for the
reader, and KSEND clears its capability register; in a strip they are held back. With fewer credits the process blocks in BLOCKED-WRITE, and nothing
is spent. R58, R65. Outside any strip, a channel instruction on a register that is unbound, or bound in the wrong role, or that needs more slots than
BCAP parks its process; so does a push to a future whose writer holds no credit. The model's choices in it: log 27. The PC behind the
last word of the address space is 0 (log 55, the model's reading). -/
def Obligations.ChannelPush : Prop :=
  (∀ (s : State) (d m : BitVec 5) (c : BitVec 4) (e : Nat), WritesTo s c e (m.toNat + 1) (m.toNat + 1) →
    s.free ((List.range (m.toNat + 1)).map fun i => d + .ofNat 5 i) → s.plain → NoneUnderWay s →
    ∃ t, exec (.cpush d c m) s = .next t ∧
      Sent s t c (m.toNat + 1) [{ slots := (List.range (m.toNat + 1)).map fun i => s.reg (d + .ofNat 5 i) }]) ∧
  (∀ (s : State) (d m : BitVec 5) (c : BitVec 4) (e : Nat) (k : Strip), WritesTo s c e (m.toNat + 1) (m.toNat + 1) →
    s.free ((List.range (m.toNat + 1)).map fun i => d + .ofNat 5 i) → s.me.strip = some k → s.me.ss = false →
    ∃ t, exec (.cpush d c m) s = .next t ∧
      HeldBack s t c (m.toNat + 1) [.push c.toNat { slots := (List.range (m.toNat + 1)).map fun i => s.reg (d + .ofNat 5 i) }]) ∧
  (∀ (s : State) (c : BitVec 4) (e : Nat), WritesTo s c e 1 1 → s.plain → NoneUnderWay s →
    ∃ t, exec (.cclose c) s = .next t ∧ Sent s t c 1 [{ slots := [], marker := true }]) ∧
  (∀ (s : State) (k : BitVec 3) (c : BitVec 4) (e : Nat), WritesTo s c e 2 2 → s.plain → NoneUnderWay s → (s.me.cap k.toNat).tag = true →
    (s.me.cap k.toNat).bits.toNat / 2 ^ 102 % 2 = 1 → s.binds = [] →
    ∃ t, exec (.ksend k c) s = .next t ∧ t.me.cap k.toNat = {} ∧ (∀ j, j ≠ k.toNat → t.me.cap j = s.me.cap j) ∧
      Sent s t c 2 [{ slots := [.ofNat 64 (s.me.cap k.toNat).bits.toNat, .ofNat 64 ((s.me.cap k.toNat).bits.toNat / 2 ^ 64)], tagged := true }]) ∧
  (∀ (s : State) (d m : BitVec 5) (c : BitVec 4) (e : Nat), VecReady s [d] → s.me.strip = none → Tab.lookD s.me.vpushed s.me.pc.toNat 0 = 0 →
    NoneUnderWay s →
    WritesTo s c e (min (m.toNat + 1) (slotsOf s.vc)) (slotsOf s.vc) →
    ∃ t, exec (.vpush d c m) s = .next t ∧ SameVec s t ∧ Sent s t c (slotsOf s.vc)
      ((List.range ((slotsOf s.vc + m.toNat) / (m.toNat + 1))).map fun j =>
        { slots := (((List.range (slotsOf s.vc)).map fun i => .ofNat 64 (packedVec s s.vc d / 2 ^ (64 * i))).drop (j * (m.toNat + 1))).take
            (m.toNat + 1) })) ∧
  (∀ (s : State) (d m : BitVec 5) (c : BitVec 4) (e : Nat), WritesTo s c e (m.toNat + 1) 0 → s.plain →
    s.free ((List.range (m.toNat + 1)).map fun i => d + .ofNat 5 i) → (s.me.chan c.toNat).credits < m.toNat + 1 →
    ((s.me.chan c.toNat).once = true → (s.me.chan c.toNat).granted = false) →
    ∃ t, exec (.cpush d c m) s = .next t ∧ t.me.pst = .blockedWrite c.toNat ∧ t.me.need = m.toNat + 1 ∧ t.me.pc = s.me.pc ∧
      (t.me.chan c.toNat).credits = (s.me.chan c.toNat).credits ∧ t.staged = s.staged ∧ (∀ r, t.reg r = s.reg r) ∧ SameMemory s t) ∧
  (∀ (s : State) (i : Instr) (c : BitVec 4) (role : Role) (n : Nat) (rs : List (BitVec 5)) (x : Cause), chanUseOf s i = some (c, role, n, rs) →
    chanFault s c role n = some x → s.free rs → s.me.strip = none → ∃ t, exec i s = .next t ∧ Parks s t x s.me.pc) ∧
  (∀ (s : State) (d : BitVec 5) (c : BitVec 4) (e : Nat), WritesTo s c e 1 0 → s.free [d] → s.me.strip = none →
    (s.me.chan c.toNat).once = true → (s.me.chan c.toNat).granted = true → (s.me.chan c.toNat).credits = 0 →
    ∃ t, exec (.cpush d c 0) s = .next t ∧ Parks s t .futureOverwrite s.me.pc)

/-- R60, R61, R88. CPOP, CADV, VPOP and KRECV take what lies ahead of the first marker, up to the slots they name, and the marker that ends it
early; CPEEK takes nothing. Registers and elements beyond what was taken read zero; CFLAGS says what came. Where neither the slots nor a
marker are there, the process blocks in BLOCKED-READ and nothing is taken. The PC behind the
last word of the address space is 0 (log 55, the model's reading). -/
def Obligations.ChannelRead : Prop :=
  (∀ (s : State) (d m : BitVec 5) (c : BitVec 4) (e : Nat), ReadsFrom s c e (m.toNat + 1) → s.plain →
    s.free ((List.range (m.toNat + 1)).map fun i => d + .ofNat 5 i) → (m.toNat + 1 ≤ dataIn s e ∨ markerIn s e) →
    ∃ t, exec (.cpop d c m) s = .next t ∧ Consumed s t e (m.toNat + 1) ∧
      (∀ i, i ≤ m.toNat → t.reg (d + .ofNat 5 i) = if d + .ofNat 5 i = 0 then 0
        else if i < dataIn s e then (((s.ep e).queue[i]?).map fun x => x.val).getD 0 else 0) ∧
      OnlyFlags s t ((List.range (m.toNat + 1)).map fun i => d + .ofNat 5 i) (cflagsRead (m.toNat + 1) (dataIn s e))) ∧
  (∀ (s : State) (d b : BitVec 5) (c : BitVec 4) (e : Nat), ReadsFrom s c e ((s.reg b).toNat + 1) → s.plain → s.free [d, b] →
    ((s.reg b).toNat < dataIn s e ∨ markerIn s e) →
    ∃ t, exec (.cpeek d c b) s = .next t ∧ (∀ e, t.ep e = s.ep e) ∧
      t.reg d = (if d = 0 then 0 else if (s.reg b).toNat < dataIn s e then (((s.ep e).queue[(s.reg b).toNat]?).map fun x => x.val).getD 0 else 0) ∧
      OnlyFlags s t [d] (if (s.reg b).toNat < dataIn s e then 256 else 1)) ∧
  (∀ (s : State) (b : BitVec 5) (c : BitVec 4) (e : Nat), ReadsFrom s c e (s.reg b).toNat → s.plain → s.free [b] →
    ((s.reg b).toNat ≤ dataIn s e ∨ markerIn s e) →
    ∃ t, exec (.cadv c b) s = .next t ∧ Consumed s t e (s.reg b).toNat ∧ OnlyFlags s t [] (cflagsRead (s.reg b).toNat (dataIn s e))) ∧
  (∀ (s : State) (d : BitVec 5) (c : BitVec 4) (e : Nat), VecReady s [d] → s.me.strip = none → ReadsFrom s c e (slotsOf s.vc) →
    (slotsOf s.vc ≤ dataIn s e ∨ markerIn s e) →
    ∃ t, exec (.vpop d c) s = .next t ∧ Consumed s t e (slotsOf s.vc) ∧
      PutVec s t s.vc s.vc.ew d.toNat (fun i => if i < s.vc.vl then
        some (packedSlots ((s.ep e).queue.take (min (slotsOf s.vc) (dataIn s e))) / 2 ^ (s.vc.ew * i) % 2 ^ s.vc.ew) else none) ∧
      OnlyFlags s t [] (cflagsRead (slotsOf s.vc) (dataIn s e))) ∧
  (∀ (s : State) (k : BitVec 3) (c : BitVec 4) (e : Nat) (x y : QSlot) (q : List QSlot), ReadsFrom s c e 2 → s.plain →
    (s.ep e).queue = x :: y :: q → x.marker = false → y.marker = false →
    ∃ t, exec (.krecv k c) s = .next t ∧ Consumed s t e 2 ∧ OnlyFlags s t [] 0x200 ∧ (∀ j, j ≠ k.toNat → t.me.cap j = s.me.cap j) ∧
      (t.me.cap k.toNat).bits = .ofNat 128 (x.val.toNat + y.val.toNat * 2 ^ 64) ∧
      (x.tagged = true ∧ y.tagged = true ∧ x.msg = y.msg → (t.me.cap k.toNat).tag = true) ∧ (x.tagged = false → (t.me.cap k.toNat).tag = false)) ∧
  (∀ (s : State) (k : BitVec 3) (c : BitVec 4) (e : Nat) (x : QSlot) (q : List QSlot), ReadsFrom s c e 2 → s.plain →
    (s.ep e).queue = x :: q → x.marker = true →
    ∃ t, exec (.krecv k c) s = .next t ∧ Consumed s t e 2 ∧ OnlyFlags s t [] 1 ∧ t.me.cap k.toNat = {}) ∧
  (∀ (s : State) (d m : BitVec 5) (c : BitVec 4) (e : Nat), ReadsFrom s c e (m.toNat + 1) → s.plain →
    s.free ((List.range (m.toNat + 1)).map fun i => d + .ofNat 5 i) → dataIn s e < m.toNat + 1 → ¬markerIn s e →
    ∃ t, exec (.cpop d c m) s = .next t ∧ t.me.pst = .blockedRead c.toNat ∧ t.me.need = m.toNat + 1 ∧ t.me.pc = s.me.pc ∧
      (∀ e, t.ep e = s.ep e) ∧ SameRegs s t [] ∧ SameMemory s t ∧ t.me.specials = s.me.specials) ∧
  (∀ (s : State) (d m : BitVec 5) (c : BitVec 4) (e : Nat) (k : Strip), ReadsFrom s c e (m.toNat + 1) → s.me.strip = some k → k.retained = [] →
    s.me.ss = false → s.free ((List.range (m.toNat + 1)).map fun i => d + .ofNat 5 i) → m.toNat + 1 ≤ dataIn s e →
    ∃ t, exec (.cpop d c m) s = .next t ∧ (∀ e, t.ep e = s.ep e) ∧
      t.me.strip = some { k with retained := [(c.toNat, m.toNat + 1)] } ∧
      OnlyFlags s t ((List.range (m.toNat + 1)).map fun i => d + .ofNat 5 i) (.ofNat 21 ((m.toNat + 1) * 256)))

/-- R67, R68, R308, R309. CBIND as reader takes its entry with every slot FREE; as writer it sends its registration, and in determinate mode
waits for the record. CUNBIND frees a reader's entry, refuses while writers are bound, and gives a writer's credits back. An unbound
register is CHAN_UNBOUND for CUNBIND, a bound one PROTECTION for CBIND. R69. The move form is PRIVILEGE at process privilege. Otherwise it
holds its process in BLOCKED-WRITE until the move is done: a writer goes over with its credits, and a reader's entry with its queue to the
lowest free index of Q's tile. The PC behind the
last word of the address space is 0 (log 55, the model's reading). -/
def Obligations.BindingResult : Prop :=
  (∀ (s : State) (d b : BitVec 5) (c : BitVec 4) (ix cap run : Nat) (once : Bool), s.me.tile < 2048 → ix < 256 → 1 ≤ cap → cap ≤ 4096 →
    (once = true → cap = 1) → s.reg d = .ofNat 64 (s.me.tile * 512 + 256 + ix) → s.reg b = .ofNat 64 (cap + if once then 65536 else 0) →
    s.myPart.inRect s.me.tile = true → (s.me.chan c.toNat).role = .unbound → s.ep (s.me.tile * 256 + ix) = {} →
    s.bufferRun s.me.tile cap = some run → s.free [d, b] → s.plain →
    ∃ t, exec (.cbind d c b) s = .next t ∧
      Rebound s t c { role := .reader, dest := .tile (s.me.tile * 256 + ix), registered := true } ∧
      t.ep (s.me.tile * 256 + ix) = { bound := true, owner := widOf s.running c.toNat, bcap := cap, cap := cap, once := once, free := cap, run := run } ∧
      (∀ e, e ≠ s.me.tile * 256 + ix → t.ep e = s.ep e)) ∧
  (∀ (s : State) (d b : BitVec 5) (c : BitVec 4) (n ix : Nat), n < 2048 → ix < 256 → s.reg d = .ofNat 64 (n * 512 + ix) → s.reg b = 0 →
    s.myPart.inRect n = true → (s.me.chan c.toNat).role = .unbound → s.free [d, b] → s.plain →
    ∃ t, exec (.cbind d c b) s = .next t ∧ (∀ e, t.ep e = s.ep e) ∧
      t.net = s.net ++ [{ wid := widOf s.running c.toNat, dest := .tile (n * 256 + ix), body := .register s.me.det, part := s.me.part, net := s.me.net }] ∧
      (∃ e ∈ t.events, e.2 = .writerRegistration (widOf s.running c.toNat)) ∧
      t.me.chan c.toNat = { role := .writer, dest := .tile (n * 256 + ix) } ∧
      (s.me.det = false → Rebound s t c { role := .writer, dest := .tile (n * 256 + ix) }) ∧
      (s.me.det = true → t.me.pst = .blockedWrite c.toNat ∧ t.me.pc = s.me.pc)) ∧
  (∀ (s : State) (c : BitVec 4) (e : Nat), (s.me.chan c.toNat).role = .reader → (s.me.chan c.toNat).use = .plain →
    (s.me.chan c.toNat).refused = none → (s.me.chan c.toNat).dest = .tile e → s.plain →
    ((s.ep e).writers = [] → ∃ t, exec (.cunbind c) s = .next t ∧ FreesEntry s t e ∧ WentTo t (s.me.pc + 4) ∧
      t.me.chan c.toNat = {} ∧ (∀ k, k ≠ c.toNat → t.me.chan k = s.me.chan k)) ∧
    ((s.ep e).writers ≠ [] → ∃ t, exec (.cunbind c) s = .next t ∧ Parks s t .protection s.me.pc)) ∧
  (∀ (s : State) (c : BitVec 4) (e : Nat), (s.me.chan c.toNat).role = .writer → (s.me.chan c.toNat).use = .plain →
    (s.me.chan c.toNat).refused = none → (s.me.chan c.toNat).gone = false → (s.me.chan c.toNat).dest = .tile e → s.plain → s.staged = [] →
    s.links = [] → widOf s.running c.toNat ∈ (s.ep e).writers → (s.ep e).shortfalls = [] →
    ∃ t, exec (.cunbind c) s = .next t ∧ Rebound s t c {} ∧ (t.ep e).free = (s.ep e).free + (s.me.chan c.toNat).credits ∧
      (t.ep e).writers = (s.ep e).writers.filter (· ≠ widOf s.running c.toNat) ∧ (t.ep e).queue = (s.ep e).queue) ∧
  (∀ (s : State) (c : BitVec 4), (s.me.chan c.toNat).role = .unbound → s.me.strip = none →
    ∃ t, exec (.cunbind c) s = .next t ∧ Parks s t .chanUnbound s.me.pc) ∧
  (∀ (s : State) (d b : BitVec 5) (c : BitVec 4), (s.me.chan c.toNat).role ≠ .unbound → (s.reg b).toNat < 2 ^ 63 → s.free [d, b] →
    s.me.strip = none → ∃ t, exec (.cbind d c b) s = .next t ∧ Parks s t .protection s.me.pc) ∧
  (∀ (s : State) (i : Instr) (d b : BitVec 5) (c : BitVec 4), (i = .cbindMove d c b ∨ i = .cbind d c b ∧ 2 ^ 63 ≤ (s.reg b).toNat) →
    s.me.pl = 0 → s.free [d, b] → s.me.strip = none → ∃ t, exec i s = .next t ∧ Parks s t .privilege s.me.pc) ∧
  (∀ (s : State) (i : Instr) (d b : BitVec 5) (c : BitVec 4) (p q : Nat), (i = .cbindMove d c b ∨ i = .cbind d c b) → p < 2 ^ 32 → q < 2 ^ 32 →
    s.reg d = .ofNat 64 p → s.reg b = .ofNat 64 (2 ^ 63 + s.ownId.toNat * 2 ^ 34 + q) → s.free [d, b] → s.plain → 1 ≤ s.me.pl →
    p ≠ s.running → q ≠ s.running → (∀ h, h = p ∨ h = q → (Tab.look s.procs h).isSome = true ∧ (s.proc h).part = s.me.part ∧
      (s.proc h).pst = .parkedFault) → ((s.proc p).chan c.toNat).role = .writer → ((s.proc p).chan c.toNat).use = .plain →
    ((s.proc p).chan c.toNat).dest.isPeer = false → ((s.proc q).chan c.toNat).role = .unbound → s.staged = [] → s.links = [] →
    (s.proc p).pushesHeld c.toNat = false → ((s.proc p).chan c.toNat).relayOut = 0 →
    ∃ t u, exec i s = .next t ∧ t.me.pst = .blockedWrite c.toNat ∧ t.me.pc = s.me.pc ∧ (∃ e ∈ t.events, e.2 = .retargetAck s.nextId 0) ∧
      exec (.retargetAck s.nextId 0) t = .next u ∧ (u.proc q).chan c.toNat = (s.proc p).chan c.toNat ∧ (u.proc p).chan c.toNat = {} ∧
      (u.proc s.running).pc = s.me.pc + 4 ∧ (u.proc s.running).pst = .ready ∧ SameMemory s u) ∧
  (∀ (s : State) (mv w e i : Nat) (m : Move), Tab.look s.moves mv = some m → m.reader = true → m.peer = s.ownId.toNat → m.p ≠ m.q →
    m.waiting = [w] → isRemoteWid w = false → ((s.proc m.p).chan m.c).role = .reader → ((s.proc m.p).chan m.c).dest = .tile e → (s.ep e).bound = true →
    (s.ep e).writers = [] → (∀ v ∈ (s.ep ((s.proc m.q).tile * 256 + i)).writers, isRemoteWid v = false) → s.freeIndex (s.proc m.q).tile = some i →
    s.staged = [] → (s.proc m.issuer).ss = false →
    ∃ t, exec (.retargetAck mv w) s = .next t ∧ t.ep e = {} ∧ (t.ep ((s.proc m.q).tile * 256 + i)).queue = (s.ep e).queue ∧
      (t.ep ((s.proc m.q).tile * 256 + i)).free = (s.ep e).free ∧ (t.ep ((s.proc m.q).tile * 256 + i)).owner = widOf m.q m.c ∧
      (t.proc m.p).chan m.c = {} ∧ ((t.proc m.q).chan m.c).role = .reader ∧ ((t.proc m.q).chan m.c).dest = .tile ((s.proc m.q).tile * 256 + i) ∧
      Tab.look t.moves mv = none) ∧
  (∀ (s : State) (mv h c : Nat) (m : Move), Tab.look s.moves mv = some m → h < 2 ^ 32 → c < 16 →
    ∃ t, exec (.retargetNotice mv (widOf h c)) s = .next t ∧ (t.proc h).chan c = { (s.proc h).chan c with frozen := true } ∧
      (s.net = [] → ∃ e ∈ t.events, e.2 = .retargetAck mv (widOf h c)) ∧
      ((∃ x ∈ s.net, x.wid = widOf h c ∧ ∃ y, x.body = .data y) → ∃ e ∈ t.events, e.2 = .retargetNotice mv (widOf h c)))

/-- R56, R64, R309, R434. The steps of the channel protocol. A registration is recorded and granted every FREE slot; in determinate mode it lets its CBIND
complete, and a second writer is a DET_VIOLATION. A shortfall is served whole from FREE, or waits. A recalled credit serves it. Credits reach the
writer and wake it. A message that no other is due beside enters its reader's queue whole and in order, and wakes the reader; one that finds
another begun in the same cycle comes in the next, which is the model's choice (log 14: R64 says only that at most one begins per cycle). The
model's other choices in it: log 23, 27, 28. The PC behind the
last word of the address space is 0 (log 55, the model's reading). -/
def Obligations.ChannelEvents : Prop :=
  (∀ (s : State) (h c e : Nat) (rest : List NetMsg), HeadMsg s h c e (.register (s.proc h).det) rest → (s.ep e).bound = true → (s.ep e).shortfalls = [] →
    ((s.proc h).det = true → (s.ep e).writers = [] ∧ (s.proc h).ss = false) →
    ∃ t, exec (.writerRegistration (widOf h c)) s = .next t ∧ (t.ep e).writers = (s.ep e).writers ++ [widOf h c] ∧ (t.ep e).free = 0 ∧
      (∃ m, t.net = rest ++ [m] ∧ m.wid = widOf h c ∧ m.body = .credit (s.ep e).free (s.ep e).bcap (s.ep e).once) ∧
      (t.proc h).chan c = { (s.proc h).chan c with registered := true } ∧
      ((s.proc h).det = true → (s.proc h).pst = .blockedWrite c → (s.proc h).need = waitOnly →
        (t.proc h).pc = (s.proc h).pc + 4 ∧ (t.proc h).pst = .ready)) ∧
  (∀ (s : State) (h c e : Nat) (rest : List NetMsg), HeadMsg s h c e (.register (s.proc h).det) rest → (s.ep e).bound = true → (s.ep e).writers ≠ [] →
    (s.proc h).det = true → (s.proc h).pst = .blockedWrite c → (s.proc h).strip = none → (∀ x ∈ (s.tile (s.proc h).tile).cb, x.2.h ≠ h) →
    ∃ t, exec (.writerRegistration (widOf h c)) s = .next t ∧ (t.proc h).chan c = {} ∧ (t.proc h).pst = .parkedFault ∧
      (t.proc h).frec.toNat % 256 = Cause.detViolation.code ∧ (t.ep e).writers = (s.ep e).writers) ∧
  (∀ (s : State) (h c e n : Nat) (rest : List NetMsg), HeadMsg s h c e (.shortfall n) rest → widOf h c ∈ (s.ep e).writers →
    (s.ep e).shortfalls = [] → 0 < n →
    ∃ t, exec (.shortfallRequest (widOf h c)) s = .next t ∧
      (n ≤ (s.ep e).free → (t.ep e).free = (s.ep e).free - n ∧ (t.ep e).shortfalls = [] ∧
        ∃ m, t.net = rest ++ [m] ∧ m.wid = widOf h c ∧ m.body = .credit n (s.ep e).bcap (s.ep e).once) ∧
      ((s.ep e).free < n → (t.ep e).free = (s.ep e).free ∧ (t.ep e).shortfalls = [(widOf h c, n)])) ∧
  (∀ (s : State) (h c e w n : Nat) (rest : List NetMsg), HeadMsg s h c e .recall rest → (s.ep e).shortfalls = [(w, n)] → 0 < n → w < 2 ^ 40 →
    n ≤ (s.ep e).free + ((s.proc h).chan c).credits → (s.proc h).pst ≠ .blockedWrite c →
    ∃ t, exec (.creditRecall (widOf h c)) s = .next t ∧ ((t.proc h).chan c).credits = 0 ∧
      (t.ep e).free = (s.ep e).free + ((s.proc h).chan c).credits - n ∧ (t.ep e).shortfalls = [] ∧
      ∃ m, t.net = rest ++ [m] ∧ m.wid = w ∧ m.body = .credit n (s.ep e).bcap (s.ep e).once) ∧
  (∀ (s : State) (h c e n bcap : Nat) (once : Bool) (rest : List NetMsg), HeadMsg s h c e (.credit n bcap once) rest →
    ((s.proc h).chan c).use = .plain → (s.ep e).shortfalls = [] →
    ∃ t, exec (.creditReturn (widOf h c)) s = .next t ∧ ((t.proc h).chan c).credits = ((s.proc h).chan c).credits + n ∧
      ((t.proc h).chan c).granted = true ∧ ((t.proc h).chan c).bcap = bcap ∧ ((t.proc h).chan c).once = once ∧
      ((s.proc h).pst = .blockedWrite c → (s.proc h).need < waitOnly → (s.proc h).need ≤ ((s.proc h).chan c).credits + n → (t.proc h).pst = .ready)) ∧
  (∀ (s : State) (h c e : Nat) (x : Msg) (rest : List NetMsg), HeadMsg s h c e (.data x) rest → x.marker = false → (s.ep e).bound = true →
    s.kills = [] → (s.ep e).wrote ≠ some s.cycle → s.contenders (widOf h c) e = [] → (∀ q ∈ (s.ep e).queue, q.cal = false) → (s.ep e).queue.length + x.slots.length ≤ (s.ep e).bcap →
    ∃ t, exec (.channelMessageArrive (widOf h c)) s = .next t ∧ t.net = rest ∧ (t.ep e).arrived = (s.ep e).arrived + 1 ∧
      (t.ep e).queue = (s.ep e).queue ++ x.slots.map (fun w => { val := w, marker := false, wid := widOf h c, msg := (s.ep e).nextMsg, tagged := x.tagged }) ∧
      (∀ r k, (s.ep e).owner = widOf r k → k < 16 → 0 < r → ((s.proc r).chan k).use = .plain → ((s.proc r).chan k).dest = .tile e →
        (s.proc r).strip = none → (s.ep e).kept = 0 → (s.proc r).pst = .blockedRead k → (s.proc r).need ≤ dataIn s e + x.slots.length →
        (∀ q ∈ (s.ep e).queue, q.marker = false) → (t.proc r).pst = .ready)) ∧
  (∀ (s : State) (h c e : Nat) (x : Msg) (rest : List NetMsg), HeadMsg s h c e (.data x) rest → (s.ep e).wrote = some s.cycle →
    ∃ t, exec (.channelMessageArrive (widOf h c)) s = .next t ∧ t.net = s.net ∧ (∀ k, t.ep k = s.ep k) ∧
      (s.cycle + 1, .channelMessageArrive (widOf h c)) ∈ t.events)

/-- R92, R95, R96, R363, R369. SCOPY and SGATHER bind the stream of their descriptor, queue it on its port and leave their token pending;
SGATHER takes its indices at issue and marks the active positions whose index came before. SBAR waits for the youngest binding of the
ports it names. A misaligned descriptor parks the process. R92 to R94, R115. The steps of a stream port: a queued binding starts once the
accesses before it have performed; a LOCAL sector is read word by word, then written word by word in increasing address, then the binding
goes on; at its end the token takes the bytes
moved, the binding disappears; a held binding takes a free entry of its port. The next step of a port comes in the next cycle, which is the model's
choice (log 101). The PC behind the
last word of the address space is 0 (log 55, the model's reading). -/
def Obligations.StreamResult : Prop :=
  (∀ (s : State) (d a : BitVec 5) (p : BitVec 3) (off : Nat), (s.reg a).toNat = off → PlainDesc s off → s.free [a, d] → s.plain →
    NoneUnderWay s → s.binds = [] → Tab.lookD (s.tile s.me.tile).ports p.toNat [] = [] →
    1 ≤ descAt s off 4 % 2 ^ 17 → descAt s off 4 % 2 ^ 17 ≤ 65536 → descAt s off 4 % 8 = 0 → 1 ≤ descAt s off 4 / 2 ^ 32 →
    ∃ t, exec (.scopy d a p) s = .next t ∧ Launched s t off p.toNat d.toNat none (descAt s off 4 / 2 ^ 32) ∧ SameUnits s t ∧
      SameRegs s t []) ∧
  (∀ (s : State) (d a : BitVec 5) (p : BitVec 3) (off : Nat) (k : Strip), (s.reg a).toNat = off → PlainDesc s off → s.free [a, d] →
    s.me.strip = some k → k.held = [] → s.me.ss = false → 1 ≤ descAt s off 4 % 2 ^ 17 → descAt s off 4 % 2 ^ 17 ≤ 65536 →
    descAt s off 4 % 8 = 0 → 1 ≤ descAt s off 4 / 2 ^ 32 →
    ∃ t b, exec (.scopy d a p) s = .next t ∧ Tab.look t.binds s.nextId = some b ∧ BoundBy s off p.toNat d.toNat b ∧ b.st = .held ∧
      t.me.strip = some { k with held := [.bind s.nextId] } ∧ (∀ r, t.reg r = s.reg r) ∧ WentTo t (s.me.pc + 4) ∧ SameMemory s t) ∧
  (∀ (s : State) (d a b : BitVec 5) (p m : BitVec 3) (off : Nat), (s.reg a).toNat = off → PlainDesc s off → s.free [a, d] →
    VecReady s [b] → s.me.strip = none → NoneUnderWay s → s.binds = [] → Tab.lookD (s.tile s.me.tile).ports p.toNat [] = [] →
    s.vc.lanes ≠ [] → (descAt s off 4 % 2 ^ 17 = 1 ∨ descAt s off 4 % 2 ^ 17 = 2 ∨ descAt s off 4 % 2 ^ 17 = 4 ∨ descAt s off 4 % 2 ^ 17 = 8) →
    descAt s off 1 / 2 ^ 61 = 0 →
    ∃ t, exec (.sgather d a b p m) s = .next t ∧
      Launched s t off p.toNat d.toNat (some ((s.actives s.vc).map fun i => (i, .ofInt 64 (signedOf s.vc.ew (s.elem s.vc b i)))))
        (s.actives s.vc).length ∧
      PutMask s t s.vc m.toNat (fun i => s.active s.vc i && (s.actives s.vc).any fun j => decide (j < i) && decide (s.elem s.vc b j = s.elem s.vc b i)) ∧
      SameVec s t) ∧
  (∀ (s : State) (p : BitVec 8), s.plain → NoneUnderWay s →
    ((∀ e ∈ s.binds, e.2.h = s.running → bitAt p.toNat e.2.port = false) → ∃ t, exec (.sbar p) s = .next t ∧ OnlyRegs s t [] (s.me.pc + 4)) ∧
    (∀ id b, s.binds = [(id, b)] → b.h = s.running → b.port < 8 → bitAt p.toNat b.port = true →
      ∃ t, exec (.sbar p) s = .next t ∧ t.me.pst = .blockedToken b.sd ∧ t.me.pc = s.me.pc ∧ SameRegs s t [] ∧ SameMemory s t)) ∧
  (∀ (s : State) (d a : BitVec 5) (p : BitVec 3), (s.reg a).toNat % 8 ≠ 0 → s.free [a, d] → s.me.strip = none →
    ∃ t, exec (.scopy d a p) s = .next t ∧ Parks s t .misalign s.me.pc) ∧
  (∀ (s : State) (tile port id : Nat) (b : Binding), s.portHead tile port = some (id, b) → b.st = .queued → b.gather = none →
    (b.after = [] → ∃ t, exec (.streamStart tile port) s = .next t ∧ Tab.look t.binds id = some { b with st := .running } ∧
      (s.cycle + 1, if b.count = 0 then .streamComplete tile port else .streamSector tile port) ∈ t.events) ∧
    (b.after ≠ [] → ∃ t, exec (.streamStart tile port) s = .next t ∧ Tab.look t.binds id = some b ∧
      (s.cycle + 1, .streamStart tile port) ∈ t.events)) ∧
  (∀ (s : State) (port id : Nat) (b : Binding) (a d n : Nat), CopiesNext s port id b a d n →
    ∃ t u v, sectorSteps b.tile port (n / 8) s = .next t ∧ SameMemory s t ∧ (∃ e ∈ t.events, e.2 = .streamSector b.tile port) ∧
      (∀ j, j ≤ n / 8 → ∃ w, sectorSteps b.tile port j t = .next w ∧
        ∀ k, w.sramByte k = if b.tile * 0x100000 + d ≤ k ∧ k < b.tile * 0x100000 + d + 8 * j then
          s.sramByte (k - (b.tile * 0x100000 + d) + (b.tile * 0x100000 + a)) else s.sramByte k) ∧
      sectorSteps b.tile port (n / 8) t = .next u ∧
      exec (.streamSector b.tile port) u = .next v ∧ SameMemory u v ∧ Tab.look v.binds id = some { b with done := b.done + 1 } ∧
      (s.cycle + 1, if b.count ≤ b.done + 1 then .streamComplete b.tile port else .streamSector b.tile port) ∈ v.events) ∧
  (∀ (s : State) (tile port id : Nat) (b : Binding), s.portHead tile port = some (id, b) → b.st = .running → b.reqs = [] → b.mig = false →
    b.sd ≠ 0 → Tab.look (s.proc b.h).pend b.sd = some (.token id) → (s.proc b.h).strip = none → s.staged = [] →
    (∀ e ∈ s.binds, e.1 ≠ id → e.2.h = b.h → e.2.sd ≠ b.sd) → (∀ e ∈ s.reqs, id ∉ e.2.after) →
    ∃ t, exec (.streamComplete tile port) s = .next t ∧
      (t.proc b.h).reg b.sd = (match b.err with
        | some c => .ofNat 64 (2 ^ 63 + b.done * 256 + c.code)
        | none => .ofNat 64 (b.count * b.sector)) ∧
      (t.proc b.h).isPending b.sd = false ∧ Tab.look t.binds id = none ∧ id ∉ Tab.lookD (t.tile tile).ports port [] ∧
      ((s.proc b.h).pst = .blockedToken b.sd → (t.proc b.h).pst = .ready)) ∧
  (∀ (s : State) (h port id : Nat) (b : Binding) (l : List Nat), s.heldOn h port = id :: l → (∀ i ∈ l, id < i) → Tab.look s.binds id = some b →
    b.h = h → b.port = port → (Tab.lookD (s.tile b.tile).ports port []).length < 8 → (s.proc h).ss = false →
    ∃ t, exec (.heldBindingEnqueue h port) s = .next t ∧ Tab.look t.binds id = some { b with st := .queued } ∧
      Tab.lookD (t.tile b.tile).ports port [] = Tab.lookD (s.tile b.tile).ports port [] ++ [id] ∧
      ((s.proc h).pst = .blockedToken b.sd → (s.proc h).need = id → (t.proc h).pst = .ready))

/-- R163, R165, R378, R381, R384. TCFG gives a register its shape and leaves its bytes; TZERO clears it; TMVV and TMVT move a row or column between a tile
register and a vector register at the active positions. A reserved format is PROTECTION; tile registers of another process trap VOWN. R311, R379,
R383. CBTLD, TLD and TST on LOCAL memory: the codebook table takes 256 words; a tile register takes its rows, one every VS bytes, or gives them to
memory, and nothing else changes. The model's choices in it: log 50. The PC behind the
last word of the address space is 0 (log 55, the model's reading). -/
def Obligations.TileResult : Prop :=
  (∀ (s : State) (d : BitVec 3) (a : BitVec 5) (f r c : Nat), f ≤ 5 → r < 64 → c < 64 → (f = 4 → c % 2 = 1) → (f = 5 → c % 8 = 7) →
    (s.reg a).toNat % 2 ^ 20 / 2 ^ 16 = f → (s.reg a).toNat / 2 ^ 8 % 64 = r → (s.reg a).toNat % 64 = c → s.free [a] → MatReady s [] false →
    ∃ t, exec (.tcfg d a) s = .next t ∧ MatDone s t ∧ SameMemory s t ∧ SameTregs s t ∧ SameVec s t ∧ SameMask s t ∧
      ((t.tile s.me.tile).tfmt d.toNat = f ∧ (t.tile s.me.tile).rows d.toNat = r + 1 ∧ (t.tile s.me.tile).cols d.toNat = c + 1) ∧
      (∀ n, n ≠ d.toNat → (t.tile s.me.tile).shape n = (s.tile s.me.tile).shape n)) ∧
  (∀ (s : State) (d : BitVec 3) (a : BitVec 5), 5 < (s.reg a).toNat % 2 ^ 20 / 2 ^ 16 → s.free [a] → MatReady s [] false →
    ∃ t, exec (.tcfg d a) s = .next t ∧ Parks s t .protection s.me.pc) ∧
  (∀ (s : State) (d : BitVec 3), MatReady s [] false →
    ∃ t, exec (.tzero d) s = .next t ∧ MatDone s t ∧ SameMemory s t ∧ SameShapes s t ∧ SameVec s t ∧ SameMask s t ∧
      PutTile s t d.toNat (fun _ _ => 0)) ∧
  (∀ (s : State) (d : BitVec 5) (a : BitVec 3) (b : BitVec 5) (i : Nat) (col : Bool), s.free [b] → MatReady s [d] true →
    s.reg b = .ofNat 64 (i + if col then 64 else 0) → i < (if col then (s.tile s.me.tile).cols a.toNat else (s.tile s.me.tile).rows a.toNat) →
    (s.tile s.me.tile).tfmt a.toNat ≠ 4 → tileBits ((s.tile s.me.tile).tfmt a.toNat) = s.vc.ew →
    ∃ t, exec (.tmvv d a b) s = .next t ∧ MatDone s t ∧ SameMemory s t ∧ SameShapes s t ∧ SameTregs s t ∧ SameMask s t ∧
      PutVec s t s.vc s.vc.ew d.toNat (s.each s.vc fun j =>
        if col then (if j < (s.tile s.me.tile).rows a.toNat then (s.tile s.me.tile).telem a.toNat j i else 0)
        else if j < (s.tile s.me.tile).cols a.toNat then (s.tile s.me.tile).telem a.toNat i j else 0)) ∧
  (∀ (s : State) (d : BitVec 3) (a b : BitVec 5) (i : Nat) (col : Bool), s.free [b] → MatReady s [a] true →
    s.reg b = .ofNat 64 (i + if col then 64 else 0) → i < (if col then (s.tile s.me.tile).cols d.toNat else (s.tile s.me.tile).rows d.toNat) →
    (s.tile s.me.tile).tfmt d.toNat ≠ 4 → tileBits ((s.tile s.me.tile).tfmt d.toNat) = s.vc.ew →
    ∃ t, exec (.tmvt d a b) s = .next t ∧ MatDone s t ∧ SameMemory s t ∧ SameShapes s t ∧ SameVec s t ∧ SameMask s t ∧
      ∀ r c, r < (s.tile s.me.tile).rows d.toNat → c < (s.tile s.me.tile).cols d.toNat →
        (t.tile s.me.tile).telem d.toNat r c =
          if col then (if c = i ∧ s.active s.vc r then s.elem s.vc a r else (s.tile s.me.tile).telem d.toNat r c)
          else if r = i ∧ s.active s.vc c then s.elem s.vc a c else (s.tile s.me.tile).telem d.toNat r c) ∧
  (∀ (s : State) (d : BitVec 3), s.plain → s.me.pl = 0 → s.me.xo = false → Tab.lookD (s.tile s.me.tile).owners 16 0 ≠ 0 →
    Tab.lookD (s.tile s.me.tile).owners 16 0 ≠ s.running →
    ∃ t, exec (.tzero d) s = .next t ∧ t.me.pc = s.myPart.tvec ∧ t.me.epc = s.me.pc ∧ t.me.cause.toNat % 256 = Cause.vown.code ∧ t.me.pl = 1 ∧
      t.me.frec.toNat / 2 ^ 32 = Tab.lookD (s.tile s.me.tile).owners 16 0 % 2 ^ 32 ∧ SameUnits s t ∧ SameMemory s t) ∧
  (∀ (s : State) (a : BitVec 5) (off : Nat), s.free [a] → s.plain → s.conflict s.running 1 [] = none → s.me.mtype = 0 → (s.reg a).toNat = off →
    (∀ e ∈ (s.tile s.me.tile).cb, e.2.h ≠ s.running) → (∀ e ∈ s.reqs, e.2.h ≠ s.running) → off % 4 = 0 → WindowBytes s s.running off 1024 →
    ∃ t, exec (.cbtld a) s = .next t ∧ MatDone s t ∧ SameMemory s t ∧ SameTregs s t ∧ SameVec s t ∧ SameMask s t ∧
      (∀ n, n < 256 → Tab.lookD (t.tile s.me.tile).cbt n 0 = .ofNat 32 (localVal s (off + 4 * n) 4)) ∧
      (∀ n k, Tab.lookD (t.tile n).tsh k 0x3F3F = Tab.lookD (s.tile n).tsh k 0x3F3F)) ∧
  (∀ (s : State) (d : BitVec 3) (a : BitVec 5) (off : Nat), s.free [a] → MatReady s [] false → s.me.mtype = 0 → (s.reg a).toNat = off →
    off % 8 = 0 → s.me.vs.toNat % 8 = 0 → (s.tile s.me.tile).tfmt d.toNat ≤ 4 →
    (∀ r, r < (s.tile s.me.tile).rows d.toNat → WindowBytes s s.running (off + r * s.me.vs.toNat) (max 1 (rowBytes (s.tile s.me.tile) d.toNat))) →
    (∃ t, exec (.tld d a) s = .next t ∧ MatDone s t ∧ SameMemory s t ∧ SameShapes s t ∧ SameVec s t ∧ SameMask s t ∧
      PutTile s t d.toNat (fun r b => if r < (s.tile s.me.tile).rows d.toNat ∧ b < rowBytes (s.tile s.me.tile) d.toNat then
        s.sramByte (s.me.tile * 0x100000 + off + r * s.me.vs.toNat + b) else (s.tile s.me.tile).tbyte d.toNat r b)) ∧
    (rowBytes (s.tile s.me.tile) d.toNat ≤ s.me.vs.toNat →
      ∃ t, exec (.tst d a) s = .next t ∧ MatDone s t ∧ SameShapes s t ∧ SameTregs s t ∧ SameVec s t ∧ SameMask s t ∧
        (∀ r b, r < (s.tile s.me.tile).rows d.toNat → b < rowBytes (s.tile s.me.tile) d.toNat →
          t.sramByte (s.me.tile * 0x100000 + off + r * s.me.vs.toNat + b) = (s.tile s.me.tile).tbyte d.toNat r b) ∧
        (∀ k, (∀ r b, r < (s.tile s.me.tile).rows d.toNat → b < rowBytes (s.tile s.me.tile) d.toNat →
          k ≠ s.me.tile * 0x100000 + off + r * s.me.vs.toNat + b) → t.sramByte k = s.sramByte k) ∧
        (∀ part k, t.hbmByte part k = s.hbmByte part k))) ∧
  (∀ (s : State) (d : BitVec 3) (a : BitVec 5), s.free [a] → MatReady s [] false → s.me.mtype ≤ 4 → (s.reg a).toNat % 8 ≠ 0 →
    ∃ t, exec (.tld d a) s = .next t ∧ Parks s t .misalign s.me.pc)

/-- R144, R166 to R170. MMA, MMAS and MMASP issue, and their step groups follow one another from NEXTK: at the end every element of the accumulator holds
Acc.Group of each group in turn, MSTEP is zero and the process stands behind the instruction. A NEXTK of K or more completes at once. MOPA adds one
product at the active positions. A wrong shape is ILLEGAL_OPCODE. The model's choices in it: log 69. The PC behind the
last word of the address space is 0 (log 55, the model's reading). -/
def Obligations.MatrixResult : Prop :=
  (∀ (s : State) (i : Instr) (d : Nat) (vs : List (BitVec 5)) (vec : Bool) (kEnd g : Nat), matOf s i = some (d, vs, vec, kEnd, g) →
    MatReady s vs vec → s.me.mstep.toNat < kEnd →
    ∃ t u, exec i s = .next t ∧ t.me.pc = s.me.pc ∧ t.me.pst = .ready ∧ (∃ e ∈ t.events, e.2 = .matrixStepGroup s.running) ∧
      groupSteps s.running ((kEnd - s.me.mstep.toNat + g - 1) / g) t = .next u ∧ u.me.mstep = 0 ∧ u.me.mat = none ∧ MatDone s u ∧
      SameMemory s u ∧ SameShapes s u ∧ SameVec s u ∧ SameMask s u ∧
      (∀ x y, x < (s.tile s.me.tile).rows d → y < (s.tile s.me.tile).cols d → (u.tile s.me.tile).telem d x y =
        accRun (fun k => matTerm s k x y i) kEnd g ((kEnd - s.me.mstep.toNat + g - 1) / g) s.me.mstep.toNat ((s.tile s.me.tile).telem d x y)) ∧
      (∀ n r b, n ≠ d → r < 64 → b < 256 → (u.tile s.me.tile).tbyte n r b = (s.tile s.me.tile).tbyte n r b)) ∧
  (∀ (s : State) (i : Instr) (d : Nat) (vs : List (BitVec 5)) (vec : Bool) (kEnd g : Nat), matOf s i = some (d, vs, vec, kEnd, g) →
    MatReady s vs vec → kEnd ≤ s.me.mstep.toNat →
    ∃ t, exec i s = .next t ∧ MatDone s t ∧ t.me.mstep = 0 ∧ t.me.fflags = s.me.fflags ∧ SameTregs s t ∧ SameShapes s t ∧ SameMemory s t) ∧
  (∀ (s : State) (d : BitVec 3) (va vb : BitVec 5), MatReady s [va, vb] true → s.me.vt.toNat % 8 = 1 → (s.tile s.me.tile).tfmt d.toNat = 0 →
    ∃ t, exec (.mopa d va vb) s = .next t ∧ MatDone s t ∧ t.me.mstep = s.me.mstep ∧ SameMemory s t ∧ SameShapes s t ∧ SameVec s t ∧ SameMask s t ∧
      ∀ x y, x < (s.tile s.me.tile).rows d.toNat → y < (s.tile s.me.tile).cols d.toNat → (t.tile s.me.tile).telem d.toNat x y =
        if s.active s.vc x ∧ s.active s.vc y then
          (accGroup ((s.tile s.me.tile).tval d.toNat x y) [(Fmt.bf16.decode (s.elem s.vc va x)).mul (Fmt.bf16.decode (s.elem s.vc vb y))]).1
        else (s.tile s.me.tile).telem d.toNat x y) ∧
  (∀ (s : State) (i : Instr) (d a b : BitVec 3), i = .mma d a b → MatReady s [] false →
    (d = a ∨ d = b ∨ (s.tile s.me.tile).tfmt d.toNat ≠ 0 ∨ (s.tile s.me.tile).rows a.toNat ≠ (s.tile s.me.tile).rows b.toNat) →
    ∃ t, exec i s = .next t ∧ Parks s t .illegalOpcode s.me.pc)

/-- R190 to R195. PATCH puts an entry into the table, DCFG configures a halted domain, DSET and DGET write and read Y, Res, TCNT and the
status word, DSTEP asks for ticks, or goes on with those asked for, and where they ended while it was given up it ends (log 95), DRUN and
DHALT start and halt the named domains, DBIND binds and frees ports and taps. What they read and check is the array at the start of the
cycle (R323). What a rule forbids parks the process and changes nothing. R196. DSAVE writes the image of the array, 2368 words, and no other
byte; DLOAD of a legal image gives the array those cells and domains. R197. A saved array of the process comes back before its next analyser
instruction. The model's choices in it: log 41, 46, 47, 93. The PC behind the
last word of the address space is 0 (log 55, the model's reading). -/
def Obligations.AnalyserResult : Prop :=
  (∀ (s : State) (a b : BitVec 5) (off e : Nat), s.free [a, b] → AnReady s → (s.reg a).toNat = off → off % 16 = 0 →
    WindowBytes s s.running off 16 → s.reg b = 1 → e = localVal s off 16 → e / 2 ^ 80 % 2 ^ 36 = 0 → e / 2 ^ 119 % 512 < 384 →
    (∀ j, j < 8 → e / 2 ^ (10 * j) % 512 ≤ 1 ∨ 32 ≤ e / 2 ^ (10 * j) % 512 ∧ e / 2 ^ (10 * j) % 512 ≤ 415) → s.an.valid = true →
    (s.oldAn.dom (s.an.cell (e / 2 ^ 119 % 512)).dom).run = false → (s.oldAn.dom (e / 2 ^ 116 % 8)).run = false →
    ∃ t c, exec (.patch a b) s = .next t ∧ AnDone s t [] ∧ SameMemory s t ∧
      AnIs s t (fun i => if i = e / 2 ^ 119 % 512 then c else s.an.cell i) s.an.dom ∧
      c = { s.an.cell (e / 2 ^ 119 % 512) with dom := e / 2 ^ 116 % 8, src := c.src } ∧
      ∀ j, Tab.lookD c.src j 0 = if j < 8 then e / 2 ^ (10 * j) % 1024 else 0) ∧
  (∀ (s : State) (a b : BitVec 5), s.free [a, b] → AnReady s → (s.reg a).toNat % 16 = 0 → 384 < (s.reg b).toNat →
    ∃ t, exec (.patch a b) s = .next t ∧ Parks s t .protection s.me.pc) ∧
  (∀ (s : State) (n : BitVec 3) (a : BitVec 5) (v m : Nat), s.free [a] → AnReady s → v < 65536 → m < 3 → s.reg a = .ofNat 64 (v * 2 ^ 32 + m) →
    ((s.oldAn.dom n.toNat).run = false → ∃ t, exec (.dcfg n a) s = .next t ∧ AnDone s t [] ∧ SameMemory s t ∧
      AnIs s t s.an.cell (fun d => if d = n.toNat then { s.an.dom n.toNat with divm1 := v, mode := m, phase := v + 1 } else s.an.dom d)) ∧
    ((s.oldAn.dom n.toNat).run = true → ∃ t, exec (.dcfg n a) s = .next t ∧ Parks s t .protection s.me.pc)) ∧
  (∀ (s : State) (a b : BitVec 5) (i : Nat) (y : BitVec 48), s.free [a, b] → AnReady s → i < 384 → s.reg b = y.signExtend 64 →
    (s.oldAn.dom (s.an.cell i).dom).run = false →
    (s.reg a = .ofNat 64 i → ∃ t, exec (.dset a b) s = .next t ∧ AnDone s t [] ∧ SameMemory s t ∧
      AnIs s t (fun k => if k = i then { s.an.cell i with y := y } else s.an.cell k) s.an.dom) ∧
    (s.reg a = .ofNat 64 (4096 + i) → -(2 ^ 46) ≤ y.toInt → y.toInt < 2 ^ 46 →
      ∃ t, exec (.dset a b) s = .next t ∧ AnDone s t [] ∧ SameMemory s t ∧
        AnIs s t (fun k => if k = i then { s.an.cell i with res := y } else s.an.cell k) s.an.dom) ∧
    (s.reg a = .ofNat 64 (4096 + i) → 2 ^ 46 ≤ y.toInt → ∃ t, exec (.dset a b) s = .next t ∧ Parks s t .protection s.me.pc)) ∧
  (∀ (s : State) (a b : BitVec 5) (d : Nat), s.free [a, b] → AnReady s → d < 8 →
    (s.reg a = .ofNat 64 (8192 + d) → (s.oldAn.dom d).run = false → ∃ t, exec (.dset a b) s = .next t ∧ AnDone s t [] ∧ SameMemory s t ∧
      AnIs s t s.an.cell (fun k => if k = d then { s.an.dom d with tcnt := s.reg b } else s.an.dom k)) ∧
    (s.reg a = .ofNat 64 (12288 + d) → ∃ t, exec (.dset a b) s = .next t ∧ AnDone s t [] ∧ SameMemory s t ∧
      AnIs s t s.an.cell (fun k => if k = d then { s.an.dom d with
        eos := (s.an.dom d).eos && !bitAt (s.reg b).toNat 2, ovr := (s.an.dom d).ovr && !bitAt (s.reg b).toNat 1 } else s.an.dom k))) ∧
  (∀ (s : State) (d a : BitVec 5) (i n : Nat), s.free [a, d] → AnReady s → i < 384 → n < 8 →
    (s.reg a = .ofNat 64 i → ∃ t, exec (.dget d a) s = .next t ∧ AnDone s t [d] ∧ AnIs s t s.an.cell s.an.dom ∧ SameMemory s t ∧
      t.reg d = if d = 0 then 0 else (s.oldAn.cell i).y.signExtend 64) ∧
    (s.reg a = .ofNat 64 (4096 + i) → ∃ t, exec (.dget d a) s = .next t ∧ AnDone s t [d] ∧ AnIs s t s.an.cell s.an.dom ∧ SameMemory s t ∧
      t.reg d = if d = 0 then 0 else (s.oldAn.cell i).res.signExtend 64) ∧
    (s.reg a = .ofNat 64 (8192 + n) → ∃ t, exec (.dget d a) s = .next t ∧ AnDone s t [d] ∧ AnIs s t s.an.cell s.an.dom ∧ SameMemory s t ∧
      t.reg d = if d = 0 then 0 else (s.oldAn.dom n).tcnt) ∧
    (s.reg a = .ofNat 64 (12288 + n) → (s.oldAn.dom n).run = false → ∃ t, exec (.dget d a) s = .next t ∧ AnDone s t [d] ∧ SameMemory s t ∧
      t.reg d = if d = 0 then 0 else .ofNat 64 ((s.oldAn.dom n).pend * 2 ^ 32 + (s.oldAn.dom n).ocell % 512 * 2 ^ 15 + (s.oldAn.dom n).ocause % 16 * 2 ^ 8 +
        (s.oldAn.dom n).mode % 4 * 16 + (if (s.oldAn.dom n).eos then 4 else 0) + if (s.oldAn.dom n).ovr then 2 else 0)) ∧
    (s.reg a = .ofNat 64 384 → ∃ t, exec (.dget d a) s = .next t ∧ Parks s t .protection s.me.pc)) ∧
  (∀ (s : State) (d a : BitVec 5) (i : Nat) (an : Analyser), s.free [a, d] → s.plain → s.conflict s.running 2 [] = none → s.me.crosses 2 = false →
    s.me.image = some an → an.snapAt ≠ some s.cycle → i < 384 → s.reg a = .ofNat 64 i →
    ∃ t, exec (.dget d a) s = .next t ∧ WentTo t (s.me.pc + 4) ∧ t.reg d = (if d = 0 then 0 else (an.cell i).y.signExtend 64) ∧
      t.me.image = none ∧ (∀ k, (anOf s t).cell k = an.cell k) ∧ Tab.lookD (t.tile s.me.tile).owners 17 0 = s.running ∧ SameMemory s t) ∧
  (∀ (s : State) (n : BitVec 3) (a : BitVec 5), s.free [a] → AnReady s →
    s.me.dcont ≠ some s.me.pc →
    ((s.oldAn.dom n.toNat).run = true → (s.oldAn.dom n.toNat).mode = 0 → (s.oldAn.dom n.toNat).pend = 0 → (s.reg a).toNat ≤ 65536 →
      ∃ t, exec (.dstep n a) s = .next t ∧
        AnIs s t s.an.cell (fun d => if d = n.toNat ∧ s.reg a ≠ 0 then { s.an.dom n.toNat with pend := (s.reg a).toNat } else s.an.dom d) ∧
        (s.reg a ≠ 0 → t.me.dstep = some n.toNat ∧ t.me.pc = s.me.pc ∧ t.me.pst = .ready) ∧ (s.reg a = 0 → WentTo t (s.me.pc + 4))) ∧
    ((s.oldAn.dom n.toNat).run = false ∨ (s.oldAn.dom n.toNat).mode ≠ 0 → ∃ t, exec (.dstep n a) s = .next t ∧ Parks s t .protection s.me.pc)) ∧
  (∀ (s : State) (n : BitVec 3) (a : BitVec 5), AnReady s → (s.oldAn.dom n.toNat).run = true → (s.oldAn.dom n.toNat).mode = 0 →
    (s.oldAn.dom n.toNat).pend ≠ 0 →
    ∃ t, exec (.dstep n a) s = .next t ∧ AnIs s t s.an.cell s.an.dom ∧ t.me.dstep = some n.toNat ∧ t.me.pc = s.me.pc ∧ t.me.pst = .ready) ∧
  (∀ (s : State) (n : BitVec 3) (a : BitVec 5), AnReady s → s.me.dcont = some s.me.pc →
    ((s.oldAn.dom n.toNat).pend = 0 ∨ (s.oldAn.dom n.toNat).run = false) →
    ∃ t, exec (.dstep n a) s = .next t ∧ AnIs s t s.an.cell s.an.dom ∧ WentTo t (s.me.pc + 4)) ∧
  (∀ (s : State) (a : BitVec 5), s.free [a] → AnReady s →
    ((s.reg a).toNat < 256 →
      (∃ t, exec (.drun a) s = .next t ∧ AnDone s t [] ∧ SameMemory s t ∧ AnIs s t s.an.cell (fun d =>
        let x := { s.an.dom d with ovr := false, ocause := 0, eos := false }
        if d < 8 ∧ bitAt (s.reg a).toNat d then
          (if x.run then x else { x with run := true, startAt := max x.startAt (s.cycle + 1), phase := if x.mode = 1 then x.divm1 + 1 else x.phase })
        else s.an.dom d)) ∧
      (∃ t, exec (.dhalt a) s = .next t ∧ AnDone s t [] ∧ SameMemory s t ∧ AnIs s t s.an.cell (fun d =>
        if d < 8 ∧ bitAt (s.reg a).toNat d ∧ (s.an.dom d).run then { s.an.dom d with run := false, startAt := s.cycle + 3 } else s.an.dom d))) ∧
    (256 ≤ (s.reg a).toNat → ∃ t u, exec (.drun a) s = .next t ∧ Parks s t .protection s.me.pc ∧ exec (.dhalt a) s = .next u ∧
      Parks s u .protection s.me.pc)) ∧
  (∀ (s : State) (a : BitVec 5) (c : BitVec 4) (n : Nat), s.free [a] → AnReady s → n < 16 → (s.me.chan c.toNat).use = .plain →
    (∀ d, d < 8 → (s.oldAn.dom d).run = false) →
    ((s.me.chan c.toNat).role = .reader → s.reg a = .ofNat 64 (n * 2 ^ 16) → Tab.look s.an.ports n = none →
      ∃ t, exec (.dbind a c) s = .next t ∧ AnDone s t [] ∧ SameMemory s t ∧ AnIs s t s.an.cell s.an.dom ∧
        Tab.look (anOf s t).ports n = some { h := s.running, ch := c.toNat } ∧ t.me.chan c.toNat = { s.me.chan c.toNat with use := .port n }) ∧
    (∀ i, (s.me.chan c.toNat).role = .writer → i < 384 → s.reg a = .ofNat 64 (2 ^ 31 + n * 2 ^ 16 + i) → s.an.taps = [] → (s.an.cell i).dom < 8 →
      ∃ t, exec (.dbind a c) s = .next t ∧ AnDone s t [] ∧ SameMemory s t ∧ AnIs s t s.an.cell s.an.dom ∧
        Tab.look (anOf s t).taps n = some { h := s.running, ch := c.toNat, cell := i } ∧ t.me.chan c.toNat = { s.me.chan c.toNat with use := .tap n })) ∧
  (∀ (s : State) (a : BitVec 5) (c : BitVec 4) (n : Nat) (p : DPort), s.free [a] → AnReady s → n < 16 → (s.me.chan c.toNat).use = .port n →
    (∀ d, d < 8 → (s.oldAn.dom d).run = false) → (s.me.chan c.toNat).role = .reader → s.reg a = .ofNat 64 (2 ^ 30 + n * 2 ^ 16) →
    Tab.look s.an.ports n = some p → p.h = s.running → p.ch = c.toNat →
    ∃ t, exec (.dbind a c) s = .next t ∧ AnDone s t [] ∧ Tab.look (anOf s t).ports n = none ∧
      t.me.chan c.toNat = { s.me.chan c.toNat with use := .plain }) ∧
  (∀ (s : State) (a : BitVec 5) (c : BitVec 4), s.free [a] → AnReady s → (s.me.chan c.toNat).role = .unbound →
    ∃ t, exec (.dbind a c) s = .next t ∧ Parks s t .chanUnbound s.me.pc) ∧
  (∀ (s : State) (a : BitVec 5) (off : Nat), s.free [a] → AnReady s → (s.reg a).toNat = off → off % 64 = 0 → WindowBytes s s.running off 18944 →
    ∃ t, exec (.dsave a) s = .next t ∧ AnDone s t [] ∧ AnIs s t s.an.cell s.an.dom ∧
      (∀ i, i < 384 → imageAt t off (4 * i) = ((s.an.cell i).y.signExtend 64).toNat ∧ imageAt t off (4 * i + 1) = ((s.an.cell i).res.signExtend 64).toNat) ∧
      (∀ d, d < 8 → imageAt t off (1536 + 8 * d + 1) = (s.an.dom d).tcnt.toNat ∧
        ((s.an.dom d).divm1 < 65536 → (s.an.dom d).mode < 3 → imageAt t off (1536 + 8 * d) = (s.an.dom d).divm1 * 2 ^ 32 + (s.an.dom d).mode)) ∧
      (∀ k, k < s.me.tile * 0x100000 + off ∨ s.me.tile * 0x100000 + off + 18944 ≤ k → t.sramByte k = s.sramByte k)) ∧
  (∀ (s : State) (a : BitVec 5) (off : Nat) (new : Analyser), s.free [a] → AnReady s → (s.reg a).toNat = off → off % 64 = 0 →
    WindowBytes s s.running off 18944 → (∀ e ∈ s.oldAn.doms, e.2.run = false) → imageOk (fun i => if i < 2368 then imageAt s off i else 0) = true →
    new = ofImage s.running s.cycle (fun i => if i < 2368 then imageAt s off i else 0) → new.valid = true → new.ports = [] → new.taps = [] →
    s.an.ports = [] → s.an.taps = [] →
    ∃ t, exec (.dload a) s = .next t ∧ AnDone s t [] ∧ SameMemory s t ∧
      (∀ i, i < 384 → ((anOf s t).cell i).y = .ofNat 48 (imageAt s off (4 * i)) ∧ ((anOf s t).cell i).res = .ofNat 48 (imageAt s off (4 * i + 1)) ∧
        ((anOf s t).cell i).dom = imageAt s off (1600 + 2 * i + 1) / 2 ^ 52 % 8) ∧
      (∀ d, d < 8 → ((anOf s t).dom d).mode = imageAt s off (1536 + 8 * d) % 4 ∧ ((anOf s t).dom d).tcnt = .ofNat 64 (imageAt s off (1536 + 8 * d + 1)) ∧
        ((anOf s t).dom d).pend = imageAt s off (1536 + 8 * d + 2) / 2 ^ 32)) ∧
  (∀ (s : State) (a : BitVec 5), s.free [a] → AnReady s → (s.reg a).toNat % 64 ≠ 0 → ∃ t u, exec (.dsave a) s = .next t ∧ Parks s t .misalign s.me.pc ∧
    exec (.dload a) s = .next u ∧ Parks s u .misalign s.me.pc)

/-- R174, R179, R182, R185, R186. The steps of the array. A tick of a due domain moves every cell of the domain at once, from what the sources
held before, and counts; an offending cell halts the domain instead and changes no cell. A DIV phase reaches zero. A port takes the next
slot, and a marker halts its domain. A full tap pushes its slot, but not while the array stands still (R197); one that its process's EXIT unbinds
is free then (R324). -/
def Obligations.ArrayEvents : Prop :=
  (∀ (s : State) (n d : Nat), TicksAlone s n d →
    (∀ i, ((s.tile n).an.cell i).dom = d → Tab.look (s.tile n).an.cells i ≠ none → -1 ≤ dxOf (s.tile n).an d ((s.tile n).an.cell i) ∧
      dxOf (s.tile n).an d ((s.tile n).an.cell i) ≤ 1 ∧ -(2 ^ 46) < ((s.tile n).an.cell i).y.toInt ∧ ((s.tile n).an.cell i).y.toInt < 2 ^ 46) →
    ∃ t, exec (.domainTick n d) s = .next t ∧
      (∀ i, ((s.tile n).an.cell i).dom = d → Tab.look (s.tile n).an.cells i ≠ none →
        let c := (s.tile n).an.cell i
        let res := c.res.toInt + dxOf (s.tile n).an d c * c.y.toInt
        let dz : Int := if 2 ^ 46 ≤ res then 1 else if res < -(2 ^ 46) then -1 else 0
        ((t.tile n).an.cell i).y = .ofInt 48 (c.y.toInt + dyOf (s.tile n).an d c) ∧ ((t.tile n).an.cell i).res = .ofInt 48 (res - dz * 2 ^ 47) ∧
          ((t.tile n).an.cell i).out = dz) ∧
      (∀ i, ((s.tile n).an.cell i).dom ≠ d → ((t.tile n).an.cell i).y = ((s.tile n).an.cell i).y ∧
        ((t.tile n).an.cell i).res = ((s.tile n).an.cell i).res ∧ ((t.tile n).an.cell i).out = ((s.tile n).an.cell i).out) ∧
      ((t.tile n).an.dom d).tcnt = ((s.tile n).an.dom d).tcnt + 1 ∧
      (((s.tile n).an.dom d).mode = 0 → ((t.tile n).an.dom d).pend = ((s.tile n).an.dom d).pend - 1) ∧
      (((s.tile n).an.dom d).mode = 1 → ((t.tile n).an.dom d).phase = ((s.tile n).an.dom d).divm1 + 1) ∧ SameMemory s t) ∧
  (∀ (s : State) (n d i : Nat) (c : Cell), TicksAlone s n d → (s.tile n).an.cells = [(i, c)] → c.dom = d →
    2 ^ 46 ≤ c.y.toInt → -1 ≤ dxOf (s.tile n).an d c → dxOf (s.tile n).an d c ≤ 1 →
    ∃ t, exec (.domainTick n d) s = .next t ∧ (t.tile n).an.cell i = c ∧ ((t.tile n).an.dom d).run = false ∧ ((t.tile n).an.dom d).ovr = true ∧
      ((t.tile n).an.dom d).ocell = i ∧ ((t.tile n).an.dom d).ocause = 2 ∧ ((t.tile n).an.dom d).tcnt = ((s.tile n).an.dom d).tcnt) ∧
  (∀ (s : State) (n d : Nat), ((s.tile n).an.dom d).run = true → ((s.tile n).an.dom d).phase = 1 →
    ∃ t, exec (.divPhaseZero n d) s = .next t ∧ (t.tile n).an.dom d = { (s.tile n).an.dom d with phase := 0 } ∧
      (∀ k, k ≠ d → (t.tile n).an.dom k = (s.tile n).an.dom k) ∧ ∀ i, (t.tile n).an.cell i = (s.tile n).an.cell i) ∧
  (∀ (s : State) (n k e : Nat) (p : DPort) (x : QSlot) (q : List QSlot), Tab.look (s.tile n).an.ports k = some p → p.used = 32 → p.eos = false →
    s.arrayLive n = true → ((s.proc p.h).chan p.ch).dest = .tile e → (s.ep e).kept = 0 → (s.ep e).queue = x :: q → (∀ y ∈ x :: q, y.cal = false) →
    ∃ t, exec (.portTakeSlot n k) s = .next t ∧ (t.ep e).queue = q ∧ (t.ep e).consumed = (s.ep e).consumed + 1 ∧
      (x.marker = false → Tab.look (t.tile n).an.ports k = some { p with slot := x.val, used := 0 }) ∧
      (x.marker = true → Tab.look (t.tile n).an.ports k = some { p with eos := true } ∧
        ∀ d, d < 8 → k ∈ (s.tile n).an.portsOf d → ((t.tile n).an.dom d).run = false ∧ ((t.tile n).an.dom d).eos = true)) ∧
  (∀ (s : State) (n k : Nat), s.arrayLive n = false → exec (.tapCreditPush n k) s = .next s) ∧
  (∀ (s : State) (n k e : Nat) (y : DTap), s.arrayLive n = true → Tab.look (s.tile n).an.taps k = some y → y.count = 32 → ((s.proc y.h).chan y.ch).role = .writer →
    1 ≤ ((s.proc y.h).chan y.ch).credits → ((s.proc y.h).chan y.ch).dest = .tile e → ((s.proc y.h).chan y.ch).frozen = false →
    ((s.proc y.h).chan y.ch).refused = none → s.staged = [] →
    ∃ t, exec (.tapCreditPush n k) s = .next t ∧
      (y.closing = false → Tab.look (t.tile n).an.taps k = some { y with slot := 0, count := 0 }) ∧
      (y.closing = true → Tab.look (t.tile n).an.taps k = none ∧ (((s.proc y.h).chan y.ch).use = .tap k → ((t.proc y.h).chan y.ch).use = .plain)) ∧
      ((t.proc y.h).chan y.ch).credits = ((s.proc y.h).chan y.ch).credits - 1 ∧
      ∃ m, t.net = s.net ++ [m] ∧ m.wid = widOf y.h y.ch ∧ m.body = .data { slots := [y.slot] })

/-- R30, R100, R234, R243, R267. TLBI drops the partition's entries that meet the page. RESUME makes a parked process READY at its PC, or
behind the instruction at FPC, past the Sinter round for a VTREEW (R223); it lets a stopped binding go on, or starts the end of the process,
whose writer's next instruction then waits. PSWAP writes the registers and the PC to the control block, and reads them back into the lowest free slot. What
RESUME may not act on is PROTECTION. The model's choices in it: log 21, 42, 91. The PC behind the
last word of the address space is 0 (log 55, the model's reading). -/
def Obligations.SupervisorResult : Prop :=
  (∀ (s : State) (part : Nat) (v : Word), ∃ t, exec (.tlbiWrite part v) s = .next t ∧ SameMemory s t ∧ TlbAfter s t part v) ∧
  (∀ (s : State) (a : BitVec 5), s.free [a] → s.plain → 1 ≤ s.me.pl →
    ∃ t, exec (.csrw a .tlbi) s = .next t ∧ WentTo t (s.me.pc + 4) ∧ SameRegs s t [] ∧ SameMemory s t ∧ TlbAfter s t s.me.part (s.reg a)) ∧
  (∀ (s : State) (part h : Nat), ParkedIn s part h →
    (∃ t, exec (.resumeAtPoint part h) s = .next t ∧ (t.proc h).pst = .ready ∧ (t.proc h).pc = (s.proc h).pc ∧
      (∀ r, (t.proc h).reg r = (s.proc h).reg r) ∧ SameMemory s t) ∧
    ((s.proc h).fclass = .precise → (s.proc h).res = .resident →
      ∃ t, exec (.resumeSkip part h) s = .next t ∧ (t.proc h).pst = .ready ∧ (t.proc h).pc = (s.proc h).fpc + 4 ∧
        (∀ r, (t.proc h).reg r = (s.proc h).reg r) ∧
        (∀ k, (s.proc h).passes = some k →
          (Tab.lookD (t.tile (s.proc h).tile).sint k {}).recv = (Tab.lookD (s.tile (s.proc h).tile).sint k {}).recv + 1)) ∧
    ((s.proc h).fclass ≠ .precise → exec (.resumeSkip part h) s = .next s) ∧
    (Settled s h → ∃ t, exec (.resumeEnd part h) s = .next t ∧ (t.proc h).dying = true ∧ SameMemory s t)) ∧
  (∀ (s : State) (part h port id : Nat) (b : Binding), h < 2 ^ 32 → port < 8 → s.named part h = true → s.stoppedOn h port = some (id, b) →
    ∃ t, exec (.resumeStream part h port) s = .next t ∧
      (b.st = .saved → Tab.look t.binds id = some { b with released := true }) ∧
      (b.st ≠ .saved → (Tab.lookD (s.tile b.tile).ports b.port []).head? = some id →
        Tab.look t.binds id = some { b with st := .running } ∧ ∃ e ∈ t.events, e.2 = .streamSector b.tile port) ∧
      (b.st ≠ .saved → (Tab.lookD (s.tile b.tile).ports b.port []).head? ≠ some id → Tab.look t.binds id = some { b with st := .queued })) ∧
  (∀ (s : State) (a : BitVec 5) (h : Nat), ParkedIn s s.me.part h → s.free [a] → s.plain → 1 ≤ s.me.pl → h ≠ s.running →
    (s.reg a = .ofNat 64 h → ∃ t, exec (.csrw a .resume) s = .next t ∧ WentTo t (s.me.pc + 4) ∧ (t.proc h).pst = .ready ∧
      (t.proc h).pc = (s.proc h).pc) ∧
    (s.reg a = .ofNat 64 (3 * 2 ^ 36 + h) → Settled s h →
      ∃ t, exec (.csrw a .resume) s = .next t ∧ WentTo t (s.me.pc + 4) ∧ t.me.ending = some h ∧ (t.proc h).dying = true)) ∧
  (∀ (s : State) (a : BitVec 5), s.free [a] → s.me.strip = none → 1 ≤ s.me.pl → s.named s.me.part ((s.reg a).toNat % 2 ^ 32) = false →
    (∃ t, exec (.csrw a .resume) s = .next t ∧ Parks s t .protection s.me.pc) ∧
    (∃ t, exec (.csrw a .pswap) s = .next t ∧ Parks s t .protection s.me.pc)) ∧
  (∀ (s u : State) (part h k : Nat), h < 2 ^ 32 → s.named part h = true → (s.proc h).res = .resident → Settled s h →
    s.blockKey h .store = (u, .ok k) →
    ∃ t, exec (.pswapOut part h) s = .next t ∧ (t.proc h).res = .swapped ∧ (t.proc h).cbAt = some k ∧
      (∀ i, Tab.look (t.tile (s.proc h).tile).slots i ≠ some h) ∧ (t.proc h).slivers = [] ∧
      (∀ r, r < 32 → t.hbmRead part (k + 8 * r) 8 = bytesLE 8 ((s.proc h).reg r).toNat) ∧
      t.hbmRead part (k + 0x100) 8 = bytesLE 8 (s.proc h).pc.toNat) ∧
  (∀ (s u : State) (part h k i : Nat), h < 2 ^ 32 → s.named part h = true → (s.proc h).res = .swapped → (s.proc h).laneAsk = none →
    (∀ e ∈ s.binds, e.2.h ≠ h) → Tab.lookD (s.tile (s.proc h).tile).owners 17 0 ≠ h → s.freeSlot (s.proc h).tile = some i →
    s.blockKey h .load = (u, .ok k) → u.hbmFails k 0x408 = false → u.hbmFails (k + 0x800) 0x400 = false →
    ∃ t, exec (.pswapIn part h) s = .next t ∧ (t.proc h).res = .resident ∧ Tab.look (t.tile (s.proc h).tile).slots i = some h ∧
      ((s.proc h).cbAt ≠ none →
        (∀ r, 0 < r → r < 32 → ((t.proc h).reg r).toNat = ofBytesLE (s.hbmRead part (k + 8 * r) 8) % 2 ^ 64) ∧
        (t.proc h).pc.toNat = ofBytesLE (s.hbmRead part (k + 0x100) 8) / 4 * 4 % 2 ^ 48) ∧
      ((s.proc h).cbAt = none → (∀ r, (t.proc h).reg r = (s.proc h).reg r) ∧ (t.proc h).pc = (s.proc h).pc) ∧ SameMemory s t)

/-- R205, R212, R253 to R256, R262, R288. PSET creates a partition as its descriptor says, over FREE endpoints, only where nothing of it belongs to
another one, and tears one down that has no process, of which only the tokens of key instructions under way are left. HEPSET opens and closes a host
endpoint. A descriptor that fails its checks has no effect; one that is not aligned is MISALIGN. The model's choices in it: the first look of the
detector 1024 cycles behind the creation is log 26, a DARK lane that stays DARK log 40, and what a teardown leaves of key instructions and records
log 57. -/
def Obligations.PartitionResult : Prop :=
  (∀ (s : State) (tile off : Nat), bitAt (s.sliceAt tile off 0) 8 = true →
    let rd := s.sliceAt tile off
    let n := rd 0 % 16
    (s.createOk n rd = true → ∃ t, exec (.psetCreate tile off) s = .next t ∧ t.part n = { descPart rd with keyOps := (s.part n).keyOps } ∧
      (∀ m, m ≠ n → t.part m = s.part m) ∧
      (∀ e, t.ep e = if e < 1048576 ∧ (descPart rd).inRect (e / 256) = true then {} else s.ep e) ∧
      (∀ l, t.lane l = if l ∈ (descPart rd).pool then {} else s.lane l) ∧
      (∃ e ∈ t.events, e = (s.cycle + 1024, .fumaroleSweepStart n)) ∧ SameBytes s t) ∧
    (s.createOk n rd = false → exec (.psetCreate tile off) s = .next s)) ∧
  (∀ (s : State) (n : Nat) (rd : DescAt), s.createOk n rd = true → (s.part n).valid = false ∧
    ∀ m o, Tab.look s.parts m = some o → o.valid = true →
      (∀ x, ¬ ((descPart rd).inRect x = true ∧ o.inRect x = true)) ∧ (∀ v, ¬ (v ∈ (descPart rd).servers ∧ v ∈ o.servers)) ∧
      ∀ l, ¬ (l ∈ (descPart rd).pool ∧ l ∈ o.pool)) ∧
  (∀ (s : State) (n : Nat), (s.part n).valid = true → s.liveOf n = [] →
    ∃ t, exec (.psetTeardown n) s = .next t ∧ t.part n = { keyOps := (s.part n).keyOps.map fun o => { o with gone := true } } ∧
      (∀ k, ∀ f ∈ (t.tile k).frecs, f.part = n → f.firmware = true) ∧
      (∀ l ∈ (s.part n).pool, LaneOff s t l) ∧ (∀ k, OffRuns s n k → t.sramByte k = s.sramByte k) ∧ t.hbm = s.hbm) ∧
  (∀ (s : State) (n : Nat), (s.part n).valid = false ∨ s.liveOf n ≠ [] → exec (.psetTeardown n) s = .next s) ∧
  (∀ (s : State) (tile off n p port qpn cap : Nat), 128 < n → n < 2048 → p < 16 → port < 4 → qpn < 2 ^ 24 → 1 ≤ cap → cap ≤ 4096 →
    (s.part p).valid = true → s.sliceAt tile off 0 = n + p * 4096 + port * 65536 + 2 * 262144 + qpn * 2 ^ 32 → s.sliceAt tile off 8 = cap →
    Tab.look s.hostEps n = none → s.ep (hostRid n) = {} →
    ∃ t, exec (.hepsetWrite tile off) s = .next t ∧ (∃ k, Tab.look t.hostEps n = some k ∧ k.dir = 2 ∧ k.part = p ∧ k.port = port ∧
      k.qpn.toNat = qpn ∧ k.cap = cap) ∧ (t.ep (hostRid n)).bound = true ∧ (t.ep (hostRid n)).free = cap ∧ (t.ep (hostRid n)).cap = cap ∧
      SameBytes s t) ∧
  (∀ (s : State) (tile off n p : Nat), 128 < n → n < 2048 → p < 16 → (s.part p).valid = true → s.sliceAt tile off 0 = n + p * 4096 →
    (s.sliceAt tile off 8 = 0 → (Tab.lookD s.hostEps n {}).dir ≠ 1 →
      ∃ t, exec (.hepsetWrite tile off) s = .next t ∧ Tab.look t.hostEps n = none ∧ SameBytes s t) ∧
    (s.sliceAt tile off 8 ≠ 0 → exec (.hepsetWrite tile off) s = .next s)) ∧
  (∀ (s : State) (tile off n p : Nat), n < 2048 → p < 16 → s.sliceAt tile off 0 = n + p * 4096 + 262144 →
    (s.part p).inRect (s.sliceAt tile off 8 % 2 ^ 19 / 256) = false → exec (.hepsetWrite tile off) s = .next s) ∧
  (∀ (s : State) (tile off : Nat), s.sliceAt tile off 0 % 2048 < 128 → 3 ≤ s.sliceAt tile off 0 % 8 → exec (.hepsetWrite tile off) s = .next s) ∧
  (∀ (s : State) (a : BitVec 5) (n : Csr), n = .pset ∨ n = .hepset → s.free [a] → s.me.strip = none → 2 ≤ s.me.pl → (s.reg a).toNat % 8 ≠ 0 →
    ∃ t, exec (.csrw a n) s = .next t ∧ Parks s t .misalign s.me.pc)

/-- R44 to R47, R241, R367, R423. A grant that takes effect gives the process its slivers and their ownership, VL and sd; each element that
both mappings hold keeps its contents, and every other position reads zero. On a sliver that another process owns it raises VOWN instead, in
whatever state the process waits: with EPC at the SETVL, whose strip, where one is open, restarts; a commit in progress takes the lanes and ends
before that VOWN (R151). The release of a waiting request gives up the old lanes. A request whose reserved clusters are empty is granted, for 64 cycles later. The model's choices in it: log 22, 68. -/
def Obligations.LaneEvents : Prop :=
  (∀ (s : State) (tile h : Nat) (g : PGrant), (s.proc h).pgrant = some g → g.assigned = true → g.due ≤ s.cycle →
    s.conflict h 0 g.slivers = none → (s.proc h).need ≠ 1 → 8 ≤ g.ew →
    ∃ t, exec (.laneGrantEffect tile h) s = .next t ∧ (t.proc h).pgrant = none ∧ (t.proc h).slivers = g.slivers ∧ (t.proc h).cluster = g.cluster ∧
      (∀ n ∈ g.slivers, Tab.lookD (t.tile (s.proc h).tile).owners n 0 = h) ∧
      (t.proc h).vl.toNat = min g.avl (vlmaxOf (lanesOf g.slivers).length g.ew) ∧
      (g.sd ≠ 0 → ((t.proc h).reg g.sd).toNat = min g.avl (vlmaxOf (lanesOf g.slivers).length g.ew) ∧ (t.proc h).isPending g.sd = false) ∧
      (∀ last, ((s.proc h).slivers ≠ [] ∧ (∀ n ∈ (s.proc h).slivers, Tab.lookD (s.tile (s.proc h).tile).owners n 0 = h) ∧ last = (s.proc h).slivers ∨
          (s.proc h).slivers = [] ∧ last = (s.proc h).lastGrant) →
        (∀ n ∈ last, Tab.lookD (s.tile (s.proc h).tile).owners n 0 = h) → Tab.sortedFrom 0 (s.tile (s.proc h).tile).vbank = true → Tab.sortedFrom 0 (s.tile (s.proc h).tile).mbank = true →
        let old := laneCtx s h last
        let new := laneCtx s h g.slivers
        ∀ r i, i < new.vlmax →
          t.elemAt new new.ew r i = (if i < old.vlmax then s.elemAt old old.ew r i else 0) ∧
          t.maskBit new r i = if i < old.vlmax then s.maskBit old r i else false)) ∧
  (∀ (s : State) (tile h o m : Nat) (g : PGrant), (s.proc h).pgrant = some g → g.assigned = true → g.due ≤ s.cycle →
    s.conflict h 0 g.slivers = some (o, m) → (s.proc h).pst ≠ .parkedFault → (s.proc h).pst ≠ .haltedDebug → (s.proc h).pst ≠ .exited →
    (s.proc h).pl = 0 → g.again = false → o < 2 ^ 32 → m < 2 ^ 16 → (s.proc h).inCommit = false →
    ∃ t, exec (.laneGrantEffect tile h) s = .next t ∧ (t.proc h).pst = .ready ∧ (t.proc h).pc = (s.part (s.proc h).part).tvec ∧
      (t.proc h).cause.toNat % 256 = Cause.vown.code ∧ (t.proc h).cause.toNat / 2 ^ 32 = m ∧ (t.proc h).frec.toNat / 2 ^ 32 = o ∧
      (t.proc h).pl = 1 ∧ (t.proc h).xo = true ∧ (t.proc h).vl = (s.proc h).vl ∧ (t.proc h).slivers = g.slivers ∧ (t.proc h).pgrant = none ∧
      (t.proc h).strip = none ∧
      ((s.proc h).strip = none → (t.proc h).epc = g.pc ∧ ∀ r, (t.proc h).reg r = (s.proc h).reg r) ∧
      (∀ k, (s.proc h).strip = some k → (t.proc h).epc = k.pc ∧ (t.proc h).sregs = k.sregs ∧ (t.proc h).vs = k.vs ∧ (t.proc h).mt = k.mt ∧
        (t.proc h).pend = k.pend)) ∧
  (∀ (s : State) (tile h o m : Nat) (g : PGrant), (s.proc h).pgrant = some g → g.assigned = true → g.due ≤ s.cycle →
    s.conflict h 0 g.slivers = some (o, m) → (s.proc h).inCommit = true →
    ∃ t, exec (.laneGrantEffect tile h) s = .next t ∧ (t.proc h).slivers = g.slivers ∧ (t.proc h).cluster = g.cluster ∧
      (t.proc h).pgrant = some g ∧ (t.proc h).pst = (s.proc h).pst ∧ (s.cycle + 1, .laneGrantEffect tile h) ∈ t.events) ∧
  (∀ (s : State) (h : Nat) (g : PGrant), (s.proc h).pgrant = some g → g.assigned = false → h ≠ 0 →
    ∃ t, exec (.laneGrantEffect (s.proc h).tile h) s = .next t ∧ (t.proc h).slivers = [] ∧ (t.proc h).cluster = false ∧
      (t.proc h).pgrant = some g ∧ ∀ n ∈ (s.proc h).slivers, n < 16 → Tab.lookD (t.tile (s.proc h).tile).owners n 0 ≠ h) ∧
  (∀ (s : State) (tile h : Nat) (q : LaneReq), ((s.tile tile).laneReqs.find? fun x => decide (x.h = h)) = some q → q.partialGrant = false →
    q.resv ≠ [] → (∀ n ∈ s.occupied tile, n / 4 ∉ q.resv) →
    ∃ t g, exec (.reservedGrant tile h) s = .next t ∧ (t.proc h).pgrant = some g ∧ g.sd = q.sd ∧ g.avl = q.avl ∧ g.ew = q.ew ∧
      g.assigned = true ∧ g.due = s.cycle + 64 ∧ (s.cycle + 64, .laneGrantEffect tile h) ∈ t.events ∧
      (q.want = .sliver → g.slivers = [4 * q.resv.headD 0] ∧ g.cluster = false) ∧
      (q.want ≠ .sliver → (∀ n, n ∈ g.slivers ↔ n < 16 ∧ n / 4 ∈ q.resv) ∧ g.cluster = true) ∧
      ∀ x ∈ (t.tile tile).laneReqs, x.h ≠ h)

/-- R124 to R127, R235, R246, R266, R294. The loader's steps. An image without the magic word is answered 0x22, one for another version 0x21 with a
record, one that cannot have its resources, or has no partition, 0x23; otherwise the lowest free network number is taken, its sections are written, its
processes created, its readers bound to free entries and its writers registered with every credit, and the answer is 0x20.
The end of the last process is answered 0x10, after a kill 0x11, and in checking mode a kill by R127's message (log 85). Run B starts over under SEEDB; the comparison answers 0 for equal digests, or 1 with
the first that differs. The model's choices in it: log 61, 62, 85. -/
def Obligations.LoaderEvents : Prop :=
  (∀ (s : State) (part : Nat) (ws : List Word) (rest : List (List Word)), part < 16 → (s.part part).images = ws :: rest →
    let h0 := (ws.headD 0).toNat
    ((s.part part).valid = false → ∃ t, exec (.networkLaunch part) s = .next t ∧ (t.part part).images = rest ∧ Told s t (8 * part + 1) [0x23, 0, 0, 0] ∧
      SameMemory s t ∧ t.procs = s.procs) ∧
    ((s.part part).valid = true →
    (h0 % 2 ^ 32 ≠ 0x39494B45 → ∃ t, exec (.networkLaunch part) s = .next t ∧ (t.part part).images = rest ∧ Told s t (8 * part + 1) [0x22, 0, 0, 0]) ∧
    (h0 % 2 ^ 32 = 0x39494B45 → h0 / 2 ^ 32 % 256 ≠ 1 →
      ∃ t, exec (.networkLaunch part) s = .next t ∧ (t.part part).images = rest ∧ Told s t (8 * part + 1) [0x21, 0, 0, 0] ∧
        ∃ f ∈ (t.tile ((s.part part).faultep / 256)).frecs, f.part = part ∧ f.firmware = false ∧
          (f.slots.headD 0).toNat % 256 = Cause.nbvUnsupported.code ∧ (f.slots.headD 0).toNat / 65536 % 65536 = h0 / 2 ^ 32 % 256) ∧
    (h0 % 2 ^ 32 = 0x39494B45 → h0 / 2 ^ 32 % 256 = 1 → readImage ws = none →
      ∃ t, exec (.networkLaunch part) s = .next t ∧ (t.part part).images = rest ∧ Told s t (8 * part + 1) [0x22, 0, 0, 0]) ∧
    (h0 % 2 ^ 32 = 0x39494B45 → h0 / 2 ^ 32 % 256 = 1 → ∀ im, readImage ws = some im → im.layoutOk (s.part part) = true →
      ((s.part part).freeNet = none ∨ s.resourcesOk part im = false) →
      ∃ t, exec (.networkLaunch part) s = .next t ∧ (t.part part).images = rest ∧ Told s t (8 * part + 1) [0x23, 0, 0, 0]) ∧
    (h0 % 2 ^ 32 = 0x39494B45 → h0 / 2 ^ 32 % 256 = 1 → ∀ det p net, readImage ws = some (bareImage det false p) → p.args.length = 4 →
      (bareImage det false p).layoutOk (s.part part) = true → (s.part part).freeNet = some net →
      s.resourcesOk part (bareImage det false p) = true →
      ∃ t h, exec (.networkLaunch part) s = .next t ∧ (t.part part).images = rest ∧ Loaded s t part net h det p ∧
        (∃ n ∈ (t.part part).nets, n.num = net ∧ n.created = 1) ∧ Told s t (8 * part + 1) [.ofNat 64 (0x20 + net * 256), 1, 0, 0]) ∧
    (h0 % 2 ^ 32 = 0x39494B45 → h0 / 2 ^ 32 % 256 = 1 → ∀ det p q c e x y net i run, readImage ws = some (pairImage det p q c e x y) →
      let a := (s.part part).absTile p.tile
      let b := (s.part part).absTile q.tile
      p.args.length = 4 → q.args.length = 4 → c.wproc = 0 → c.rproc = 1 → e.wproc = 1 → e.rproc = hostIndex → x.kind = 0 → x.proc = 0 → x.zero = false →
      y.kind = 0 → y.proc = 1 → y.zero = false → (pairImage det p q c e x y).layoutOk (s.part part) = true → (s.part part).freeNet = some net →
      s.resourcesOk part (pairImage det p q c e x y) = true → s.freeIndex b = some i → s.ep (b * 256 + i) = {} → s.bufferRun b c.cap = some run →
      (s.tile a).nextSeq < 2 ^ 17 → (s.tile b).nextSeq < 2 ^ 17 → (∀ z ∈ s.procs, z.2.pst = .exited ∨ z.2.tile ≠ a ∧ z.2.tile ≠ b) →
      ∃ t h g, exec (.networkLaunch part) s = .next t ∧ (t.part part).images = rest ∧ h ≠ g ∧ Loaded s t part net h det p ∧ Loaded s t part net g det q ∧
        (t.proc h).chan c.wreg = { role := .writer, dest := .tile (b * 256 + i), registered := true } ∧
        (t.proc g).chan c.rreg = { role := .reader, dest := .tile (b * 256 + i), registered := true } ∧
        (t.proc g).chan e.wreg = { role := .writer, dest := .host e.hep, registered := true } ∧
        (t.ep (b * 256 + i)).bound = true ∧ (t.ep (b * 256 + i)).bcap = c.cap ∧ (t.ep (b * 256 + i)).once = c.once ∧ (t.ep (b * 256 + i)).run = run ∧
        (t.ep (b * 256 + i)).owner = widOf g c.rreg ∧ (t.ep (b * 256 + i)).writers = [widOf h c.wreg] ∧
        (∃ v ∈ t.net, v.wid = widOf h c.wreg ∧ v.body = .credit c.cap c.cap c.once) ∧ SectLoaded t a x ∧ SectLoaded t b y ∧
        (∃ n ∈ (t.part part).nets, n.num = net ∧ n.created = 2) ∧ Told s t (8 * part + 1) [.ofNat 64 (0x20 + net * 256), 2, 0, 0]))) ∧
  (∀ (s : State) (part : Nat) (n : Net), part < 16 → (s.part part).nets = [n] → n.num < 256 → s.aliveIn part n.num = [] →
    (n.killing = false → n.check = 0 → n.killed = none →
      ∃ t, exec (.loaderEndReply part n.num) s = .next t ∧ (t.part part).nets = [] ∧
        Told s t (8 * part + 1) [.ofNat 64 (0x10 + n.num * 256), .ofNat 64 n.created, 0, .ofNat 64 n.ended]) ∧
    (∀ c, n.killing = false → n.check = 0 → n.killed = some c →
      ∃ t, exec (.loaderEndReply part n.num) s = .next t ∧ (t.part part).nets = [] ∧
        Told s t (8 * part + 1) [.ofNat 64 (0x11 + n.num * 256), .ofNat 64 n.created, .ofNat 64 c, .ofNat 64 n.ended]) ∧
    (∀ c, n.killing = false → n.check ≠ 0 → n.killed = some c →
      ∃ t, exec (.loaderEndReply part n.num) s = .next t ∧ (t.part part).nets = [] ∧
        Told s t (8 * part + 1) [.ofNat 64 (1 + n.check), 0, 0, 0]) ∧
    (n.killing = false → n.killed = none → n.check = 1 → n.failed = none →
      ∃ t, exec (.loaderEndReply part n.num) s = .next t ∧ ∃ e ∈ t.events, e.2 = .checkRunB part n.num) ∧
    (∀ det p, n.check = 1 → n.failed = none → n.inputs = [] → readImage n.image = some (bareImage det true p) → p.args.length = 4 →
      ∃ t h, exec (.checkRunB part n.num) s = .next t ∧ (t.part part).nets = [{ n with check := 2 }] ∧
        (t.part part).seed = (s.part part).seedb ∧ Loaded s t part n.num h det p) ∧
    (n.check = 2 → n.failed = none → n.digestsA = n.digestsB → n.outputs = [] →
      ∃ t k, exec (.checkCompare part n.num) s = .next t ∧ (t.part part).nets = [] ∧ (t.part part).seed = 0 ∧
        Told s t (8 * part + 1) [0, 0, 0, k]) ∧
    (∀ e x y c d, n.check = 2 → n.failed = none → n.digestsA = [(e, x, c)] → n.digestsB = [(e, y, d)] → (x ≠ y ∨ c ≠ d) → e < 2 ^ 19 →
      ∃ t, exec (.checkCompare part n.num) s = .next t ∧ (t.part part).nets = [] ∧
        Told s t (8 * part + 1) [.ofNat 64 (1 + e * 256), x, y, 1] ∧
        (∀ o, o ≠ 8 * part + 1 → t.ep (hostRid o) = s.ep (hostRid o))) ∧
    (∀ f, n.check ≠ 0 → n.failed = some f → f < 2048 →
      ∃ t, exec (.checkCompare part n.num) s = .next t ∧ (t.part part).nets = [] ∧
        Told s t (8 * part + 1) [.ofNat 64 (1 + n.check + f * 65536), 0, 0, 0]))

/-- R81, R102, R103, R117, R119, R120, R211, R299, R419, R433. An access performs at its home: a read gives the bytes, a write stores them, an atomic does
both at once; a withdrawn line or an uncorrectable one answers 2, an empty key slot 4. The reply writes the register and wakes its process; an error
parks it at its next boundary, where a strip opened since stays open, and until then its tag is free; or it is reported for a store. An idle combining-buffer entry drains. The model's choices in it: log 8, 33. -/
def Obligations.MemoryEvents : Prop :=
  (∀ (s : State) (i : Instr) (id : Nat) (r : Req),
    (i = .mempipeRead id ∨ i = .mempipeWrite id ∨ i = .dramAtomic id ∨ i = .globalSramAccess id) →
    (Homed s id r →
      (∀ n, r.op = .read n → ∃ t, exec i s = .next t ∧ SameMemory s t ∧
        Answered t id r ((List.range n).map fun j => homeByte s r.part r.place (homeAt r.place + j)) 0 {}) ∧
      (∀ bs, r.op = .write bs → ∃ t, exec i s = .next t ∧ Stores s t r.part r.place bs ∧ Answered t id r [] 0 {}) ∧
      (∀ fn n v w, r.op = .atomic fn n v w → let old := (List.range n).map fun j => homeByte s r.part r.place (homeAt r.place + j)
        ∃ t, exec i s = .next t ∧ Stores s t r.part r.place (wbytes (bytesLE n (atomicNew fn n (ofBytesLE old) v w))) ∧ Answered t id r old 0 {}) ∧
      (r.op = .capRead → ∃ t c, exec i s = .next t ∧ SameMemory s t ∧ Answered t id r [] 0 c ∧
        c.bits.toNat = ofBytesLE ((List.range 16).map fun j => homeByte s r.part r.place (homeAt r.place + j)) ∧
        c.tag = match r.place with
          | .dram k _ => s.hbmTag r.part k
          | _ => Tab.lookD s.sramTags (homeAt r.place / 16) false)) ∧
    (Tab.look s.reqs id = some r → r.performed = false → r.err = 0 → r.dropped = false →
      (∀ k net, r.place = .sram k net → s.isWithdrawn k r.op.span = true →
        ∃ t, exec i s = .next t ∧ SameMemory s t ∧ Answered t id r [] 2 {}) ∧
      (∀ k va, r.place = .dram k va → (s.part r.part).key.full = false →
        ∃ t, exec i s = .next t ∧ SameMemory s t ∧ Answered t id r [] 4 {}) ∧
      (∀ k va n, r.place = .dram k va → (s.part r.part).key.full = true → r.op = .read n → s.hbmFails k n = true →
        ∃ t, exec i s = .next t ∧ Answered t id r [] 2 {}))) ∧
  (∀ (s : State) (id : Nat) (r : Req), Tab.look s.reqs id = some r → r.dropped = false → r.fwd = [] → s.staged = [] →
    (∀ d n, r.dest = .scalar d n → d ≠ 0 → r.err = 0 → (s.proc r.h).res = .resident →
      ∃ t, exec (.memoryReply id) s = .next t ∧ (t.proc r.h).reg d = sext64 (8 * n) (ofBytesLE r.data) ∧ (t.proc r.h).isPending d = false ∧
        (∀ x, x ≠ d → (t.proc r.h).reg x = (s.proc r.h).reg x) ∧ Tab.look t.reqs id = none ∧ SameMemory s t ∧
        ((s.proc r.h).pst = .blockedToken d → (t.proc r.h).pst = .ready)) ∧
    (r.dest = .none → r.err = 0 → ∃ t, exec (.memoryReply id) s = .next t ∧ Tab.look t.reqs id = none ∧ id ∉ (t.proc r.h).hold ∧ SameMemory s t) ∧
    (r.dest = .none → r.err ≠ 0 → (s.tile r.tile).frecs = [] →
      ∃ t, exec (.memoryReply id) s = .next t ∧ Tab.look t.reqs id = none ∧ ∃ f ∈ (t.tile r.tile).frecs, f.kind = .drop r.h ∧
        (f.slots.headD 0).toNat % 256 = (errCause r.typ r.err).code ∧ (f.slots.getD 4 0) = .ofNat 64 r.addr) ∧
    (∀ d n, r.dest = .scalar d n → r.err ≠ 0 → r.strip = false → (s.proc r.h).pst = .ready → (s.proc r.h).res = .resident →
      s.atBoundary r.h = false →
      (r.sent = false → exec (.memoryReply id) s = .next (s.afterCycles 1 (.memoryReply id))) ∧
      ((∀ e ∈ s.reqs, id ∉ e.2.after) → ∃ t, exec (.memoryReply id) s = .next t ∧ (∀ h, t.proc h = s.proc h) ∧ (s.cycle + 1, .memoryReply id) ∈ t.events ∧ SameMemory s t ∧
        ∃ q, Tab.look t.reqs id = some q ∧ q.sent = false ∧ q.err = r.err)) ∧
    (∀ d n, r.dest = .scalar d n → d ≠ 0 → r.err ≠ 0 → r.strip = false → (s.proc r.h).pst = .ready →
      s.atBoundary r.h = true → (s.proc r.h).res = .resident → (∀ x ∈ (s.tile (s.proc r.h).tile).cb, x.2.h ≠ r.h) → r.h < 2 ^ 32 →
      ∃ t, exec (.memoryReply id) s = .next t ∧ (t.proc r.h).pst = .parkedFault ∧ (t.proc r.h).fclass = .deferred ∧
        (t.proc r.h).frec.toNat % 256 = (errCause r.typ r.err).code ∧ (t.proc r.h).frec.toNat / 2 ^ 32 = r.h ∧
        (t.proc r.h).fpc = r.pc ∧ (t.proc r.h).pc = (s.proc r.h).pc ∧ (∀ x, (t.proc r.h).reg x = (s.proc r.h).reg x) ∧
        (t.proc r.h).isPending d = false ∧
        ((t.proc r.h).strip.map fun k => (k.pc, k.held)) = ((s.proc r.h).strip.map fun k => (k.pc, k.held)))) ∧
  (∀ (s : State) (tile n k : Nat) (net : Bool) (e : CbEntry), Tab.look (s.tile tile).cb n = some e → e.block = .sram k net →
    (e.last + 64 ≤ s.cycle → ∃ t, exec (.cbIdleDrain tile n) s = .next t ∧ Tab.look (t.tile tile).cb n = none ∧ SameMemory s t ∧
      ∃ x ∈ t.reqs, x.2.h = e.h ∧ ∃ bs, x.2.op = .write bs ∧ bs.length = (sortBytes e.bs).length) ∧
    (s.cycle < e.last + 64 → exec (.cbIdleDrain tile n) s = .next s))

/-- R70 to R73. The request at the head of a DRAM server's queue: a read is answered with its doublewords, a write stores its own, a slot beyond the
server is error 1, an empty key slot 4, any other request 3, without an access. One whose turn has not come waits. Table 3.8 gives no order among the
errors: 3 before 1 before 4 is the model's choice (log 82), and so is 3 for a wrong number of slots (log 30). -/
def Obligations.ServerEvents : Prop :=
  (∀ (s : State) (v part wid : Nat) (hd : Word) (ds : List Word), s.serverHead v = some (wid, hd :: ds) → OwnsServer s part v →
    let op := hd.toNat / 2 ^ 60
    let len := hd.toNat / 2 ^ 55 % 32
    let slot := hd.toNat % 2 ^ 28
    let key := v * Config.serverBytes + 8 * slot
    (op = 1 → len ≠ 31 → ds = [] → slot + len < 0x0C000000 → (s.part part).key.full = true → s.hbmFails key (8 * (len + 1)) = false →
      ∃ t data, exec (.dramRead v wid) s = .next t ∧ SameMemory s t ∧ Replied t v hd 9 0 data ∧ data.length = len + 1 ∧
        ∀ i, i ≤ len → (data.getD i 0).toNat = ofBytesLE (s.hbmRead part (key + 8 * i) 8)) ∧
    (op = 2 → len ≠ 31 → ds.length = len + 1 → slot + len < 0x0C000000 → (s.part part).key.full = true →
      ∃ t, exec (.dramWrite v wid) s = .next t ∧ Replied t v hd 10 0 [] ∧
        Stores s t part (.dram key 0) (wbytes (ds.flatMap fun w => bytesLE 8 w.toNat))) ∧
    (op = 1 ∨ op = 2 → len ≠ 31 → ds.length = (if op = 2 then len + 1 else 0) →
      let i := if op = 1 then Instr.dramRead v wid else Instr.dramWrite v wid
      (0x0C000000 ≤ slot + len → ∃ t, exec i s = .next t ∧ SameMemory s t ∧ Replied t v hd (op + 8) 1 []) ∧
      (slot + len < 0x0C000000 → (s.part part).key.full = false → ∃ t, exec i s = .next t ∧ SameMemory s t ∧ Replied t v hd (op + 8) 4 [])) ∧
    (op ≠ 1 → op ≠ 2 → ∃ t, exec (.dramBadRequest v wid) s = .next t ∧ SameMemory s t ∧ Replied t v hd 15 3 []) ∧
    (len = 31 → ∃ t, exec (.dramBadRequest v wid) s = .next t ∧ SameMemory s t ∧
      Replied t v hd (if op = 1 then 9 else if op = 2 then 10 else 15) 3 [])) ∧
  (∀ (s : State) (i : Instr) (v wid w : Nat) (ms : List Word), (i = .dramRead v wid ∨ i = .dramWrite v wid ∨ i = .dramBadRequest v wid) →
    s.serverHead v = some (w, ms) → w ≠ wid → (∃ q ∈ (s.ep (serverRid v)).queue, q.wid = wid) →
    exec i s = .next (s.afterCycles 1 i))

/-- R209 to R211. A remote request performs at its home as a local one does, and its answer goes back on the lanes or the relay that lead to the peer,
or waits for one; one that is malformed, from another peer,
outside, or not permitted is answered with its error and does nothing (a bad line of its page table poisons the page, R102), and a store to a page
under migration waits, with what came to that home behind it. A reply completes the access whose tag it carries, or parks its process. The
model's choices in it: log 29, 83. -/
def Obligations.RemoteEvents : Prop :=
  (∀ (s : State) (i : Instr) (part : Nat) (ms : List Word), (i = .remoteRead part ms ∨ i = .remoteWrite part ms ∨ i = .remoteAtomic part ms) →
    let x := rreqOf ms
    MayReply s part x.rpeer →
    (x.bad = true → ∃ t, exec i s = .next t ∧ SameMemory s t ∧ RemoteTold s t part x 3 []) ∧
    (x.bad = false → x.rpeer ∉ (s.part part).peers → ∃ t, exec i s = .next t ∧ SameMemory s t ∧ RemoteTold s t part x 6 []) ∧
    (x.bad = false → x.rpeer ∈ (s.part part).peers → (s.part part).key.full = false →
      ∃ t, exec i s = .next t ∧ SameMemory s t ∧ RemoteTold s t part x 4 []) ∧
    (∀ e, s.remoteHome part x = .error e → ∃ t, exec i s = .next t ∧ (e ≠ 2 ∨ x.space ≠ 1 → SameMemory s t) ∧ RemoteTold s t part x e []) ∧
    (∀ k va i', s.remoteHome part x = .ok (.dram k va) → s.migrating part k ≠ none →
      (x.op = 2 ∧ i' = Instr.remoteWrite part ms ∨ x.op = 3 ∧ i' = Instr.remoteAtomic part ms) →
      ∃ t, exec i s = .next t ∧ SameMemory s t ∧ (s.cycle + 1, i') ∈ t.events ∧
        (∀ e ∈ s.events, performs part (homeOf ms) e.2 = true → (max e.1 (s.cycle + 1), e.2) ∈ t.events) ∧
        ∀ e ∈ t.events, performs part (homeOf ms) e.2 = true → s.cycle < e.1) ∧
    (∀ p, s.remoteHome part x = .ok p → (∀ k va, p = .dram k va → s.hbmFails k x.n = false ∧ s.migrating part k = none) →
      let old := (List.range x.n).map fun j => homeByte s part p (homeAt p + j)
      (x.op = 1 → ∃ t, exec i s = .next t ∧ SameMemory s t ∧ RemoteTold s t part x 0 old) ∧
      (x.op = 2 → ∃ t, exec i s = .next t ∧ RemoteTold s t part x 0 [] ∧
        Stores s t part p ((wbytes ((x.data.flatMap fun w => bytesLE 8 w.toNat).take x.n)).map fun b => { b with nib := x.afn })) ∧
      (x.op = 3 → ∃ t, exec i s = .next t ∧
        RemoteTold s t part x 0 (if 5 ≤ x.afn then bytesLE 8 (ofBytesLE old) else []) ∧
        Stores s t part p (wbytes (bytesLE x.n
          (atomicNew x.afn x.n (ofBytesLE old) ((x.data.headD 0).toNat % 256 ^ x.n) ((x.data.getD 1 0).toNat % 256 ^ x.n))))))) ∧
  (∀ (s : State) (part id d n : Nat) (hd : Word) (ds : List Word) (r : Req), Tab.look s.reqs id = some r → r.part = part → r.dropped = false →
    r.fwd = [] → r.dest = .scalar d n → d ≠ 0 → (s.proc r.h).res = .resident → s.staged = [] →
    s.remotes = [{ tile := hd.toNat / 2 ^ 29 % 2048, tag := hd.toNat / 2 ^ 47 % 256, req := id }] →
    (hd.toNat / 2 ^ 40 % 128 = 0 →
      ∃ t, exec (.remoteReply part (hd :: ds)) s = .next t ∧
        (t.proc r.h).reg d = sext64 (8 * n) (ofBytesLE ((ds.flatMap fun w => bytesLE 8 w.toNat).take r.op.span)) ∧
        (t.proc r.h).isPending d = false ∧ (∀ x ∈ t.remotes, x.req ≠ id) ∧ Tab.look t.reqs id = none ∧ SameMemory s t) ∧
    (hd.toNat / 2 ^ 40 % 128 ≠ 0 → r.strip = false → (s.proc r.h).pst = .ready → (s.proc r.h).strip = none → s.atBoundary r.h = true →
      (∀ x ∈ (s.tile (s.proc r.h).tile).cb, x.2.h ≠ r.h) →
      ∃ t, exec (.remoteReply part (hd :: ds)) s = .next t ∧ (t.proc r.h).pst = .parkedFault ∧
        (t.proc r.h).frec.toNat % 256 = (errCause r.typ (hd.toNat / 2 ^ 40 % 128)).code ∧ ∀ x ∈ t.remotes, x.req ≠ id))

/-- R50 to R52, R352 to R354. MONBIND attaches a monitor to a writer channel and takes it off again, and PRIVILEGE, CHAN_UNBOUND and PROTECTION refuse it.
A monitor that fires pushes its record with two credits, or keeps its value and counts what it replaces. A level counter fires once at its threshold,
and is armed again below fifteen sixteenths of it. The model's choices in it: log 70. The PC behind the
last word of the address space is 0 (log 55, the model's reading). -/
def Obligations.MonitorResult : Prop :=
  (∀ (s : State) (n : BitVec 4) (a b : BitVec 5) (sel : Nat), s.free [a, b] → s.plain → (sel ≤ 6 ∨ 16 ≤ sel ∧ sel ≤ 18) →
    (sel = 17 ∨ sel = 18 → 1 ≤ s.me.pl) → s.reg a = .ofNat 64 sel → s.reg b ≠ 0 → (s.me.chan n.toNat).role = .writer →
    (s.me.chan n.toNat).use = .plain → (∀ m ∈ (s.tile s.me.tile).mons, ¬ (m.h = s.running ∧ m.c = n.toNat)) → (s.tile s.me.tile).mons.length < 16 →
    ∃ t, exec (.monbind n a b) s = .next t ∧ WentTo t (s.me.pc + 4) ∧ (∀ r, t.reg r = s.reg r) ∧ SameMemory s t ∧
      (∃ m ∈ (t.tile s.me.tile).mons, m = { h := s.running, c := n.toNat, sel := sel, t := (s.reg b).toNat }) ∧
      t.me.chan n.toNat = { s.me.chan n.toNat with use := .monitor } ∧ ∀ c, c ≠ n.toNat → t.me.chan c = s.me.chan c) ∧
  (∀ (s : State) (n : BitVec 4) (a b : BitVec 5), s.free [a, b] → s.plain → s.reg a = 256 → (s.me.chan n.toNat).role = .writer →
    (s.me.chan n.toNat).use = .monitor → (∃ m ∈ (s.tile s.me.tile).mons, m.h = s.running ∧ m.c = n.toNat) →
    ∃ t, exec (.monbind n a b) s = .next t ∧ WentTo t (s.me.pc + 4) ∧ (∀ r, t.reg r = s.reg r) ∧
      (∀ m ∈ (t.tile s.me.tile).mons, ¬ (m.h = s.running ∧ m.c = n.toNat)) ∧ t.me.chan n.toNat = { s.me.chan n.toNat with use := .plain }) ∧
  (∀ (s : State) (n : BitVec 4) (a b : BitVec 5), s.free [a, b] → s.me.strip = none →
    let sel := (s.reg a).toNat % 256
    ((sel = 17 ∨ sel = 18) → s.me.pl = 0 → ∃ t, exec (.monbind n a b) s = .next t ∧ Parks s t .privilege s.me.pc) ∧
    (sel ≠ 17 → sel ≠ 18 → (s.me.chan n.toNat).role = .unbound → ∃ t, exec (.monbind n a b) s = .next t ∧ Parks s t .chanUnbound s.me.pc) ∧
    (sel ≠ 17 → sel ≠ 18 → (s.me.chan n.toNat).role = .reader → ∃ t, exec (.monbind n a b) s = .next t ∧ Parks s t .protection s.me.pc) ∧
    (7 ≤ sel ∧ sel ≤ 15 ∨ 18 < sel → (s.me.chan n.toNat).role ≠ .unbound →
      ∃ t, exec (.monbind n a b) s = .next t ∧ Parks s t .protection s.me.pc)) ∧
  (∀ (s : State) (tile w e : Nat) (m : Monitor), OneMonitor s tile w e m →
    (m.ovf ≤ 255 → 2 ≤ ((s.proc m.h).chan m.c).credits →
      ∃ t, exec (.monitorFire tile w) s = .next t ∧ SameMemory s t ∧
        Recorded s t tile w e m m.count (if m.pending.isSome then min 255 (m.ovf + 1) else m.ovf)) ∧
    (((s.proc m.h).chan m.c).credits < 2 →
      ∃ t x, exec (.monitorFire tile w) s = .next t ∧ t.monOf tile w = some x ∧ x.pending = some m.count ∧
        x.ovf = (if m.pending.isSome then min 255 (m.ovf + 1) else m.ovf) ∧ ((t.proc m.h).chan m.c).credits = ((s.proc m.h).chan m.c).credits) ∧
    (∀ v, m.pending = some v → m.ovf ≤ 255 → 2 ≤ ((s.proc m.h).chan m.c).credits →
      ∃ t, exec (.monitorPendingPush tile w) s = .next t ∧ Recorded s t tile w e m v m.ovf) ∧
    (m.pending = none → exec (.monitorPendingPush tile w) s = .next s)) ∧
  (∀ (s : State) (tile p hot mp : Nat) (m : Monitor), (s.tile tile).mons = [m] →
    let v := if m.sel = 16 then p else if m.sel = 17 then hot else mp
    m.sel = 16 ∨ m.sel = 17 ∨ m.sel = 18 →
    ∃ t, exec (.levelCounterUpdate tile p hot mp) s = .next t ∧ SameMemory s t ∧
      (m.armed = true → m.t ≤ v → (t.tile tile).mons = [{ m with armed := false, count := v }] ∧
        ∃ e ∈ t.events, e = (s.cycle, .monitorFire tile (widOf m.h m.c))) ∧
      (v + m.t / 16 < m.t → (t.tile tile).mons = [{ m with armed := true }]) ∧
      (m.armed = false → m.t ≤ v + m.t / 16 → t.tile tile = s.tile tile))

/-- R32, R74 to R76, R172, R231 to R233, R243. The detector starts a sweep while its partition is stuck, and decides at its end: the
smallest full channel grows, the one with the lowest id among equals, or DEADLOCK is reported where none is full or the Caldera has no room. A tile's oldest fault record goes out with eight credits of the fault channel, or to
firmware, whose queue goes to host endpoint 128. A debugger halts a READY process at its boundary, behind a commit in progress or a fault
that is due in the same cycle (R238), and releases a halted one. The model's choices in it: log 26, 34, 95. -/
def Obligations.WatchEvents : Prop :=
  (∀ (s : State) (part : Nat), (s.part part).valid = true →
    ∃ t, exec (.fumaroleSweepStart part) s = .next t ∧ (s.cycle + 1024, .fumaroleSweepStart part) ∈ t.events ∧ SameMemory s t ∧
      (s.partStuck part = true ∨ s.cycle % 65536 < 1024 →
        (t.part part).det.sweeping = true ∧ (s.cycle + 1023, .fumaroleSweepDone part) ∈ t.events)) ∧
  (∀ (s : State) (part : Nat), (s.part part).det.sweeping = true → (s.part part).det.prev = s.snapshot part → (s.part part).det.reported = false →
    let full := s.eps.filter fun e => e.2.bound && decide (e.1 < 1048576) && (s.part part).inRect (e.1 / 256) && !(s.stuckWriters part e.1).isEmpty
    (s.partStuck part = false ∨ (s.part part).det.prevStuck = false →
      ∃ t, exec (.fumaroleSweepDone part) s = .next t ∧ (t.part part).det.sweeping = false ∧
        (t.part part).det.prevStuck = s.partStuck part ∧ (∀ e, t.ep e = s.ep e)) ∧
    (s.partStuck part = true → (s.part part).det.prevStuck = true → ∀ id, full = [(id, s.ep id)] →
      let add := min (2 * (s.ep id).cap) 65536 - (s.ep id).cap
      0 < add → (s.part part).calUsed + add ≤ (s.part part).calsize / 8 →
      ∃ t, exec (.fumaroleSweepDone part) s = .next t ∧ (t.ep id).cap = (s.ep id).cap + add ∧ (t.part part).calUsed = (s.part part).calUsed + add ∧
        (t.part part).det.sweeping = false) ∧
    (s.partStuck part = true → (s.part part).det.prevStuck = true → ∀ l id x r, full = l ++ (id, x) :: r → s.ep id = x →
      (∀ e ∈ l, x.cap < e.2.cap) → (∀ e ∈ r, x.cap ≤ e.2.cap) →
      let add := min (2 * x.cap) 65536 - x.cap
      (0 < add → (s.part part).calUsed + add ≤ (s.part part).calsize / 8 →
        ∃ t, exec (.fumaroleSweepDone part) s = .next t ∧ (t.ep id).cap = x.cap + add ∧ (∀ e, e ≠ id → (t.ep e).cap = (s.ep e).cap) ∧
          (t.part part).calUsed = (s.part part).calUsed + add ∧ (t.part part).det.reported = false) ∧
      (add = 0 ∨ (s.part part).calsize / 8 < (s.part part).calUsed + add →
        ∃ t h, exec (.fumaroleSweepDone part) s = .next t ∧ h ∈ s.stuckWriters part id ∧ (∀ g ∈ s.stuckWriters part id, h ≤ g) ∧
          (∀ e, (t.ep e).cap = (s.ep e).cap) ∧ (t.part part).det.reported = true ∧
          ∃ f ∈ (t.tile (s.proc h).tile).frecs, f.part = part ∧ f.firmware = false ∧ (f.slots.headD 0).toNat % 256 = Cause.deadlock.code ∧
            (f.slots.headD 0).toNat / 65536 % 65536 = 1 ∧ f.slots.getD 2 0 = .ofNat 64 id)) ∧
    (s.partStuck part = true → (s.part part).det.prevStuck = true → full = [] →
      ∃ t h, exec (.fumaroleSweepDone part) s = .next t ∧ h ∈ s.liveOf part ∧ (t.part part).det.reported = true ∧
        ∃ f ∈ (t.tile (s.proc h).tile).frecs, f.part = part ∧ (f.slots.headD 0).toNat % 256 = Cause.deadlock.code)) ∧
  (∀ (s : State) (tile : Nat) (f : FRec) (rest : List FRec), (s.tile tile).frecs = f :: rest → f.after = [] →
    (f.firmware = false →
      let id := (s.part f.part).faultep
      ((s.ep id).bound = true → 8 ≤ (s.ep id).free →
        ∃ t, exec (.faultRecordPush tile) s = .next t ∧ (t.tile tile).frecs = rest ∧ (t.ep id).free = (s.ep id).free - 8 ∧
          t.net = s.net ++ [{ wid := recordWid tile, dest := .tile id, body := .data { slots := f.slots }, part := f.part, net := 0 }]) ∧
      ((s.ep id).bound = false ∨ (s.ep id).free < 8 → exec (.faultRecordPush tile) s = .next (s.afterCycles 1 (.faultRecordPush tile)))) ∧
    (f.firmware = true → s.fwQueue.length < 512 →
      ∃ t, exec (.faultRecordPush tile) s = .next t ∧ (t.tile tile).frecs = rest ∧ t.fwQueue = s.fwQueue ++ [f.slots] ∧
        ∃ e ∈ t.events, e.2 = .firmwareFaultForward) ∧
    (f.firmware = true → 512 ≤ s.fwQueue.length → exec (.faultRecordPush tile) s = .next (s.afterCycles 1 (.faultRecordPush tile)))) ∧
  (∀ (s : State) (r : List Word) (rest : List (List Word)), s.fwQueue = r :: rest →
    ∃ t, exec .firmwareFaultForward s = .next t ∧ t.fwQueue = rest ∧ Told s t 128 r) ∧
  (∀ (s : State) (h : Nat), (s.proc h).mat = none → (∀ k, (s.proc h).strip = some k → k.own = false) → (s.proc h).inCommit = false →
    s.faultDue h = false →
    ((s.proc h).pst = .ready → ∃ t, exec (.debuggerHalt h) s = .next t ∧ (t.proc h).pst = .haltedDebug ∧ (t.proc h).epc = (s.proc h).pc ∧
      (t.proc h).pc = (s.proc h).pc ∧ (t.proc h).strip = (s.proc h).strip ∧ (∀ r, (t.proc h).reg r = (s.proc h).reg r) ∧ SameMemory s t)) ∧
  (∀ (s : State) (h : Nat),
    ((s.proc h).pst ≠ .ready → (s.proc h).pst ≠ .running → (s.proc h).inCommit = false → s.faultDue h = false → exec (.debuggerHalt h) s = .next s) ∧
    ((s.proc h).inCommit = true ∨ s.faultDue h = true → ∃ t, exec (.debuggerHalt h) s = .next t ∧ (t.proc h).haltAsked = true ∧ (t.proc h).pst = (s.proc h).pst ∧
      (t.proc h).strip = (s.proc h).strip ∧ SameMemory s t) ∧
    ((s.proc h).pst = .haltedDebug → ∃ t, exec (.debuggerRelease h) s = .next t ∧ (t.proc h).pst = .ready ∧ (t.proc h).dhold = false ∧
      (t.proc h).pc = (s.proc h).pc ∧ (∀ r, (t.proc h).reg r = (s.proc h).reg r) ∧ SameMemory s t) ∧
    ((s.proc h).pst ≠ .haltedDebug → exec (.debuggerRelease h) s = .next s))

/-- R150, R222 to R224. VTREE contributes its elements to the round that its tile's counter names, at once or at the commit of the strip.
VTREEW waits for the result of the round that the receive counter names, with the timer of STIMEO running; it writes the result and passes
the round, or takes SINTER_TIMEOUT for an aborted one, which leaves the round to a RESUME with ACT 1. A wrong type is ILLEGAL_OPCODE, a wrong operand PROTECTION. The PC behind the
last word of the address space is 0 (log 55, the model's reading). -/
def Obligations.SinterResult : Prop :=
  (∀ (s : State) (a b : BitVec 5) (ty : SType) (o : SOp) (k : Nat) (tr : Tree), TreeReady s a ty false k tr → s.free [a] → VecReady s [b] →
    (∀ r ∈ tr.rounds, r.isOpen = false) →
    let xs := (List.range s.vc.vl).map fun i => s.elem s.vc b i
    let n := (s.scount s.me.tile k).contrib
    (s.me.strip = none → s.staged = [] → (∀ e ∈ s.reqs, e.2.h ≠ s.running) → (∀ e ∈ (s.tile s.me.tile).cb, e.2.h ≠ s.running) →
      (∀ r ∈ tr.rounds, r.num ≠ n) →
      ∃ t u, exec (.vtree a b ty o) s = .next t ∧ WentTo t (s.me.pc + 4) ∧ SameRegs s t [] ∧ SameMemory s t ∧
        Tab.look (t.part s.me.part).trees k = some u ∧ u.entries = tr.entries ∧
        u.round n = { num := n, ty := ty, op := o, vl := s.vc.vl, started := true, contribs := [(s.me.tile, xs)], nets := [(s.me.tile, s.me.net)] } ∧
        (t.scount s.me.tile k).contrib = n + 1 ∧ ∃ e ∈ t.events, e.2 = .sinterCombine s.me.part k s.me.tile n) ∧
    (∀ z, s.me.strip = some z → s.staged = [] →
      ∃ t, exec (.vtree a b ty o) s = .next t ∧ WentTo t (s.me.pc + 4) ∧ SameRegs s t [] ∧ SameMemory s t ∧
        t.me.strip = some { z with held := z.held ++ [.tree k ty o xs] } ∧ t.part s.me.part = s.myPart)) ∧
  (∀ (s : State) (d a : BitVec 5) (ty : SType) (o : SOp) (k : Nat) (tr : Tree), TreeReady s a ty true k tr → s.free [a] → s.plain → VecReady s [d] →
    let c := s.scount s.me.tile k
    let r := tr.round c.recv
    (∀ xs fl, r.aborted = none → r.result = some (xs, fl) → s.me.tile ∈ r.seen → r.ty = ty → r.op = o →
      ∃ t, exec (.vtreew d a ty o) s = .next t ∧ VecDone s t [] ∧ SameMask s t ∧ t.me.fflags = s.me.fflags ||| fl ∧
        PutVec s t s.vc s.vc.ew d.toNat (fun i => if i < min s.vc.vl xs.length then some (xs.getD i 0) else none) ∧
        t.scount s.me.tile k = { c with recv := c.recv + 1, timer := none }) ∧
    (∀ reason, r.aborted = some reason → s.me.tile ∈ r.seen → reason < 4 →
      ∃ t, exec (.vtreew d a ty o) s = .next t ∧ Parks s t .sinterTimeout s.me.pc ∧
        t.me.frec.toNat / 65536 % 65536 = k * 4096 + reason * 1024 + 0x33 ∧ t.me.passes = some k) ∧
    (r.aborted = none → r.result = none →
      ∃ t, exec (.vtreew d a ty o) s = .next t ∧ t.me.pst = .ready ∧ t.me.pc = s.me.pc ∧ t.me.hold = [sinterWait k] ∧ SameRegs s t [] ∧ SameVec s t ∧
        (c.timer = none → s.myPart.stimeo ≠ 0 → (t.scount s.me.tile k).timer = some (c.recv, s.cycle + s.myPart.stimeo.toNat) ∧
          (s.cycle + s.myPart.stimeo.toNat, .sinterTimerExpire s.me.part k s.me.tile) ∈ t.events))) ∧
  (∀ (s : State) (i : Instr) (d a b : BitVec 5) (ty : SType) (o : SOp), (i = .vtree a b ty o ∨ i = .vtreew d a ty o) → s.free [a] →
    s.me.strip = none → VecReady s [b, d] →
    let suits := match ty with
      | .bf16 => s.me.vt.toNat % 8 = 1
      | _ => s.me.vt.toNat % 4 = 2
    (¬ suits → ∃ t, exec i s = .next t ∧ Parks s t .illegalOpcode s.me.pc) ∧
    (suits → (16 ≤ (s.reg a).toNat ∨ s.vc.vl = 0 ∨ 64 < s.vc.vl ∨ Tab.look s.myPart.trees ((s.reg a).toNat % 16) = none) →
      ∃ t, exec i s = .next t ∧ Parks s t .protection s.me.pc))

/-- R220, R221, R223, R224. The steps of the Sinter routers: a router waits for its own contribution and those of all its children, and combines them
element by element, its own first and its children's in the order of CORDER; it passes the partial result to its parent, and the root gives the
result to every receiver; a tile's timer asks the root to abort, the root aborts a round that is not complete, and an abort passes the
tile's contribution counter on. SDESC loads a valid descriptor, and clears a tree with its counters. The PC behind the
last word of the address space is 0 (log 55, the model's reading). -/
def Obligations.SinterEvents : Prop :=
  (∀ (s : State) (part k tile n : Nat) (tr : Tree) (e : TreeEntry) (xs : List Nat), Tab.look (s.part part).trees k = some tr →
    (tr.entries.find? fun x => x.tile == tile) = some e → (tr.round n).aborted = none → Tab.look (tr.round n).partials tile = none →
    e.contrib = true → Tab.look (tr.round n).contribs tile = some xs →
    (((tr.children tile).filter fun u => tr.gives 2049 u) = [] → e.root = false →
      ∃ t u, exec (.sinterCombine part k tile n) s = .next t ∧ Tab.look (t.part part).trees k = some u ∧
        Tab.look (u.round n).partials tile = some (xs, 0) ∧ (u.round n).result = none ∧ ∃ x ∈ t.events, x.2 = .sinterCombine part k e.parent n) ∧
    (∀ c ys fl, ((tr.children tile).filter fun u => tr.gives 2049 u) = [c] → Tab.look (tr.round n).partials c = some (ys, fl) → e.root = true →
      let zs := (xs.zip ys).map fun z => sinterElem (tr.round n).ty (tr.round n).op z.1 z.2
      ∃ t u, exec (.sinterCombine part k tile n) s = .next t ∧ Tab.look (t.part part).trees k = some u ∧
        (u.round n).result = some (zs.map fun z => z.1, zs.foldl (fun f z => f ||| z.2) (0 ||| fl)) ∧
        ∀ x ∈ tr.entries, x.recv = true → ∃ y ∈ t.events, y.2 = .sinterResult part k x.tile n)) ∧
  (∀ (s : State) (part k tile n : Nat) (tr : Tree) (e : TreeEntry) (us : List Nat) (ps : List (List Nat × Flags)),
    Tab.look (s.part part).trees k = some tr → (tr.entries.find? fun x => x.tile == tile) = some e → (tr.round n).aborted = none →
    Tab.look (tr.round n).partials tile = none → ((tr.children tile).filter fun u => tr.gives 2049 u) = us →
    us.map (Tab.look (tr.round n).partials) = ps.map some →
    let add (i v : Nat) (p : List Nat × Flags) : Nat := (sinterElem (tr.round n).ty (tr.round n).op v (p.1.getD i 0)).1
    let done (m : Nat) (f : Nat → Nat) : Prop := ∃ t u ys fl, exec (.sinterCombine part k tile n) s = .next t ∧ Tab.look (t.part part).trees k = some u ∧
      Tab.look (u.round n).partials tile = some (ys, fl) ∧ ys.length = m ∧ (∀ i, i < m → ys.getD i 0 = f i) ∧
      (e.root = false → (u.round n).result = none ∧ ∃ x ∈ t.events, x.2 = .sinterCombine part k e.parent n) ∧
      (e.root = true → (u.round n).result = some (ys, fl) ∧ ∀ x ∈ tr.entries, x.recv = true → ∃ y ∈ t.events, y.2 = .sinterResult part k x.tile n)
    (∀ xs, e.contrib = true → Tab.look (tr.round n).contribs tile = some xs → (∀ p ∈ ps, p.1.length = xs.length) →
      done xs.length fun i => ps.foldl (add i) (xs.getD i 0)) ∧
    (∀ p qs, e.contrib = false → Tab.look (tr.round n).contribs tile = none → ps = p :: qs → (∀ q ∈ qs, q.1.length = p.1.length) →
      done p.1.length fun i => qs.foldl (add i) (p.1.getD i 0))) ∧
  (∀ (s : State) (part k tile n u : Nat) (tr : Tree), Tab.look (s.part part).trees k = some tr → u ∈ tr.children tile → tr.gives 2049 u = true →
    Tab.look (tr.round n).partials u = none → exec (.sinterCombine part k tile n) s = .next s) ∧
  (∀ a b : Nat, a < 2 ^ 32 → b < 2 ^ 32 → sinterElem .i32 .sum a b = ((a + b) % 2 ^ 32, 0) ∧
    (signedOf 32 a ≤ signedOf 32 b → sinterElem .i32 .min a b = (a, 0) ∧ sinterElem .i32 .max b a = (b, 0)) ∧
    (signedOf 32 b < signedOf 32 a → sinterElem .i32 .min a b = (b, 0) ∧ sinterElem .i32 .max b a = (a, 0))) ∧
  (∀ (s : State) (part k tile n : Nat) (tr : Tree), Tab.look (s.part part).trees k = some tr → (∃ e ∈ tr.entries, e.tile = tile) → s.staged = [] →
    (∃ t u, exec (.sinterResult part k tile n) s = .next t ∧ Tab.look (t.part part).trees k = some u ∧ tile ∈ (u.round n).seen ∧
      (u.round n).result = (tr.round n).result ∧ StopsWaiting t tile k ∧ SameMemory s t ∧
      (∀ due, (s.scount tile k).timer = some (n, due) → (t.scount tile k).timer = none)) ∧
    (∀ reason, (tr.round n).aborted = none → (tr.round n).result = none →
      ∃ t u, exec (.sinterAbort part k tile n reason) s = .next t ∧ Tab.look (t.part part).trees k = some u ∧ (u.round n).aborted = some reason ∧
        tile ∈ (u.round n).seen ∧ (t.scount tile k).contrib = max (s.scount tile k).contrib (n + 1) ∧ StopsWaiting t tile k ∧ SameMemory s t) ∧
    ((tr.round n).aborted = none → (tr.round n).result = none →
      ∃ t u, exec (.sinterAbortRequest part k n) s = .next t ∧ Tab.look (t.part part).trees k = some u ∧ (u.round n).aborted = some 0 ∧
        ∀ e ∈ tr.entries, ∃ y ∈ t.events, y.2 = .sinterAbort part k e.tile n 0) ∧
    ((tr.round n).result ≠ none → exec (.sinterAbortRequest part k n) s = .next s)) ∧
  (∀ (s : State) (part k tile n due : Nat), (s.scount tile k).timer = some (n, due) → due ≤ s.cycle →
    ∃ t, exec (.sinterTimerExpire part k tile) s = .next t ∧ SameMemory s t ∧ ∃ y ∈ t.events, y.2 = .sinterAbortRequest part k n) ∧
  (∀ (s : State) (h k off cnt a : Nat) (net met : Bool) (v : Word), k < 16 → off < 2 ^ 20 → off % 8 = 0 → v = .ofNat 64 (k + off * 65536) →
    s.placeLocal ((s.proc h).ctx h 0) off 8 = .ok (.sram a net) → ofBytesLE (s.sramRead a 8) = cnt → 1 ≤ cnt → cnt ≤ 2048 →
    s.placeLocal ((s.proc h).ctx h 0) off (8 + 8 * cnt) = .ok (.sram a met) →
    let ws := (List.range cnt).map fun i => ofBytesLE (s.sramRead (a + 8 + 8 * i) 8)
    ((s.part (s.proc h).part).treeOk ws = true → Tab.look (s.part (s.proc h).part).trees k = none →
      ∃ t, exec (.sdescLoad h v) s = .next t ∧ Tab.look (t.part (s.proc h).part).trees k = some { entries := ws.map treeEntry } ∧ SameMemory s t) ∧
    ((s.part (s.proc h).part).treeOk ws = false → exec (.sdescLoad h v) s = .next s)) ∧
  (∀ (s : State) (part k : Nat) (tr : Tree), Tab.look (s.part part).trees k = some tr →
    ∃ t, exec (.sdescClear part k) s = .next t ∧ Tab.look (t.part part).trees k = none ∧
      ∀ x, (s.part part).inRect x = true → t.scount x k = {}) ∧
  (∀ (s : State) (a : BitVec 5) (k : Nat), k < 16 → s.free [a] → s.plain → 1 ≤ s.me.pl → s.reg a = .ofNat 64 (16 + k) →
    (∀ e ∈ s.procs, sinterWait k ∉ e.2.hold) →
    ∃ t, exec (.csrw a .sdesc) s = .next t ∧ WentTo t (s.me.pc + 4) ∧ SameRegs s t [] ∧ SameMemory s t ∧
      Tab.look (t.part s.me.part).trees k = none)

/-- R33, R246 to R248, R339. KILL floods the partition's rectangle, or joins a kill that is under way, with its register pending; it needs level 1, and at
level 1 the own partition. The flood ends the network's process at a tile and discards its messages there; the window closes after 4096 cycles, and
the last report writes the count to every token. The model's choices in it: log 58. The PC behind the
last word of the address space is 0 (log 55, the model's reading). -/
def Obligations.KillResult : Prop :=
  (∀ (s : State) (d a : BitVec 5) (part net : Nat), s.free [a, d] → s.plain → 1 ≤ s.me.pl → (s.me.pl = 1 → part = s.me.part) → part < 16 →
    0 < net → net < 255 → net ≠ s.me.net → (s.part part).valid = true → s.reg a = .ofNat 64 (part * 256 + net) →
    (s.killOf part net = none →
      ∃ t, exec (.kill d a) s = .next t ∧ LeftPending s t d (.kill part) ∧
        (∃ k, Tab.look t.kills s.nextId = some k ∧ k.part = part ∧ k.net = net ∧ k.root = s.me.tile ∧ k.tokens = [(s.running, d.toNat)] ∧ k.count = 0) ∧
        ∀ x, (s.part part).inRect x = true → ∃ e ∈ t.events, e.2 = .laharFlood s.nextId x ∧ s.cycle < e.1 ∧ e.1 ≤ s.cycle + 4000) ∧
    (∀ id k, s.killOf part net = some (id, k) →
      ∃ t, exec (.kill d a) s = .next t ∧ LeftPending s t d (.kill part) ∧
        Tab.look t.kills id = some { k with tokens := k.tokens ++ [(s.running, d.toNat)] })) ∧
  (∀ (s : State) (d a : BitVec 5), s.free [a, d] → s.me.strip = none →
    let part := (s.reg a).toNat / 256 % 16
    let net := (s.reg a).toNat % 256
    (s.me.pl = 0 ∨ s.me.pl = 1 ∧ part ≠ s.me.part → ∃ t, exec (.kill d a) s = .next t ∧ Parks s t .privilege s.me.pc) ∧
    (1 ≤ s.me.pl → part = s.me.part → net = 0 ∨ net = 255 ∨ net = s.me.net ∨ 4096 ≤ (s.reg a).toNat →
      ∃ t, exec (.kill d a) s = .next t ∧ Parks s t .protection s.me.pc)) ∧
  (∀ (s : State) (id tile : Nat) (k : Kill), Tab.look s.kills id = some k →
    ((s.liveOf k.part).filter (fun h => decide ((s.proc h).net = k.net ∧ (s.proc h).tile = tile)) = [] →
      (∃ t, exec (.laharFlood id tile) s = .next t ∧ Tab.look t.kills id = some { k with windows := k.windows ++ [tile] } ∧ SameMemory s t ∧
        (s.cycle + 4096, .killWindowEnd id tile) ∈ t.events ∧
        ∀ m ∈ t.net, m.part = k.part → m.net = k.net → (∃ x, m.body = .data x) → ∀ e, m.dest = .tile e → e / 256 ≠ tile) ∧
      (∃ t, exec (.killWindowEnd id tile) s = .next t ∧ Tab.look t.kills id = some { k with windows := k.windows.filter (· ≠ tile) } ∧
        SameMemory s t ∧ ∃ e ∈ t.events, e.2 = .killReport id tile ∧ s.cycle < e.1 ∧ e.1 ≤ s.cycle + 40000)) ∧
    (∀ h, (s.liveOf k.part).filter (fun h => decide ((s.proc h).net = k.net ∧ (s.proc h).tile = tile)) = [h] → Settled s h → (s.proc h).chans = [] →
      (s.proc h).res = .resident → (∀ e ∈ s.reqs, e.2.h ≠ h) → s.staged = [] → s.links = [] →
      ∃ t, exec (.laharFlood id tile) s = .next t ∧ (t.proc h).pst = .exited ∧ (t.proc h).slivers = [] ∧ (t.proc h).caps = [] ∧
        (∀ i, Tab.look (t.tile tile).slots i ≠ some h) ∧
        Tab.look t.kills id = some { k with windows := k.windows ++ [tile], count := k.count + 1 })) ∧
  (∀ (s : State) (id tile : Nat) (k : Kill), Tab.look s.kills id = some k →
    (k.waiting.filter (· ≠ tile) ≠ [] → ∃ t, exec (.killReport id tile) s = .next t ∧
      Tab.look t.kills id = some { k with waiting := k.waiting.filter (· ≠ tile) } ∧ SameMemory s t) ∧
    (∀ h d, k.waiting.filter (· ≠ tile) = [] → k.tokens = [(h, d)] → d ≠ 0 → (s.proc h).res = .resident →
      ∃ t, exec (.killReport id tile) s = .next t ∧ Tab.look t.kills id = none ∧ TokenWritten s t h d (.ofNat 64 k.count) ∧ SameMemory s t ∧
        ∀ n ∈ (t.part k.part).nets, n.num = k.net → n.killed = some k.count ∧ n.killing = false))

/-- R257 to R260, R338. KEYSET hands the keys of its descriptor to the key controller, and KEYREV the order to empty the slot, with their register
pending; the slot is filled, or emptied with its lanes taken off their links, and the token receives 1, or 0 for a slot that was empty. Level 0 is
PRIVILEGE; a full slot, equal XTS keys and another's partition are PROTECTION. Where the partition has been torn down meanwhile, only the token is
written. The model's choices in it: log 40 (a DARK lane stays DARK), 57 (an epoch of its own for every key, and what a teardown leaves), 59. The PC behind the
last word of the address space is 0 (log 55, the model's reading). -/
def Obligations.KeyResult : Prop :=
  (∀ (s : State) (d a : BitVec 5) (bs : List Byte) (part keyid x1 x2 g : Nat), s.free [a, d] → s.plain → 1 ≤ s.me.pl → (s.reg a).toNat % 64 = 0 →
    s.readWindow (s.reg a) 128 = .ok bs → KeyBytes bs part keyid x1 x2 g → (s.part part).valid = true → (s.me.pl ≠ 2 → part = s.me.part) →
    (s.part part).keyOps = [] →
    ((s.part part).key.full = false → ((s.part part).key.revoked = true → s.liveOf part = []) → x1 ≠ x2 →
      ∃ t o, exec (.keyset d a) s = .next t ∧ LeftPending s t d .keyOp ∧ (t.part part).keyOps = [o] ∧ o.set = true ∧ o.h = s.running ∧
        o.sd = d.toNat ∧ o.keyid.toNat = keyid ∧ o.xts1 = .ofNat 256 x1 ∧ o.xts2 = .ofNat 256 x2 ∧ o.gcm = .ofNat 256 g ∧
        ∃ e ∈ t.events, e.2 = .keysetComplete part) ∧
    ((s.part part).key.full = true ∨ x1 = x2 → ∃ t, exec (.keyset d a) s = .next t ∧ Parks s t .protection s.me.pc)) ∧
  (∀ (s : State) (d a : BitVec 5), s.free [a, d] → s.me.strip = none →
    (s.me.pl = 0 → (∃ t, exec (.keyset d a) s = .next t ∧ Parks s t .privilege s.me.pc) ∧
      ∃ t, exec (.keyrev d a) s = .next t ∧ Parks s t .privilege s.me.pc) ∧
    (1 ≤ s.me.pl → (s.reg a).toNat % 64 ≠ 0 → ∃ t, exec (.keyset d a) s = .next t ∧ Parks s t .misalign s.me.pc) ∧
    (s.me.pl = 1 → (s.reg a).toNat ≠ s.me.part → s.me.part < 16 → ∃ t, exec (.keyrev d a) s = .next t ∧ Parks s t .protection s.me.pc)) ∧
  (∀ (s : State) (d a : BitVec 5) (part : Nat), s.free [a, d] → s.plain → 1 ≤ s.me.pl → part < 16 → s.reg a = .ofNat 64 part →
    (s.part part).valid = true → (s.me.pl ≠ 2 → part = s.me.part) →
    ∃ t o, exec (.keyrev d a) s = .next t ∧ LeftPending s t d .keyOp ∧ (t.part part).keyOps = (s.part part).keyOps ++ [o] ∧ o.set = false ∧
      o.h = s.running ∧ o.sd = d.toNat ∧ ∃ e ∈ t.events, e.2 = .keyrevComplete part ∧ e.1 < s.cycle + 3000) ∧
  (∀ (s : State) (part : Nat) (o : KeyOp), (s.part part).keyOps = [o] → o.gone = true → o.sd ≠ 0 → (s.proc o.h).res = .resident →
    let i := if o.set then Instr.keysetComplete part else Instr.keyrevComplete part
    ∃ t, exec i s = .next t ∧ TokenWritten s t o.h o.sd (if o.set then 1 else 0) ∧ t.part part = { s.part part with keyOps := [] } ∧
      (∀ l, t.lane l = s.lane l) ∧ SameMemory s t) ∧
  (∀ (s : State) (part : Nat) (o : KeyOp), (s.part part).keyOps = [o] → o.gone = false → o.sd ≠ 0 → (s.proc o.h).res = .resident →
    (o.set = true → ∃ t, exec (.keysetComplete part) s = .next t ∧ TokenWritten s t o.h o.sd 1 ∧ (t.part part).keyOps = [] ∧
      (t.part part).key = { full := true, revoked := false, keyid := o.keyid, xts1 := o.xts1, xts2 := o.xts2, gcm := o.gcm, epoch := s.nextId } ∧
      t.hbm = s.hbm ∧ t.hbmEpoch = s.hbmEpoch) ∧
    (o.set = false → (s.part part).key.full = true → ∃ t, exec (.keyrevComplete part) s = .next t ∧ TokenWritten s t o.h o.sd 1 ∧
      (t.part part).keyOps = [] ∧ (t.part part).key.full = false ∧ (t.part part).key.revoked = true ∧
      ∀ l ∈ (s.part part).pool, LaneOff s t l) ∧
    (o.set = false → (s.part part).key.full = false → ∃ t, exec (.keyrevComplete part) s = .next t ∧ TokenWritten s t o.h o.sd 0 ∧
      (t.part part).keyOps = [] ∧ (t.part part).key = (s.part part).key))

/-- R262 to R266. A host push with credit enters its network, or the launch window, whose marker closes an image; one without credit, misaligned, for
another queue pair or key, in the wrong direction or after an error leaves a HOST record. Credits are read and written as their count. A message for
the host goes to the ring, data before header, while positions are free, and the host returns positions by their count. The model's choices in it: log
60, 63, 66. -/
def Obligations.HostEvents : Prop :=
  (∀ (s : State) (n : Nat) (q : BitVec 24) (rkey : BitVec 32) (off len : Nat) (ws : List (BitVec 64)),
    let k := s.hep n
    (k.dir = 0 → (∃ t, exec (.hostPush n q rkey off len ws) s = .next t ∧ HostTold s t n 3 q) ∧
      ∃ t, exec (.hostCreditRead n q rkey) s = .next t ∧ HostTold s t n 3 q) ∧
    (k.dir ≠ 0 → k.err = true → (∃ t, exec (.hostPush n q rkey off len ws) s = .next t ∧ HostTold s t n 4 q) ∧
      ∃ t, exec (.hostCreditRead n q rkey) s = .next t ∧ HostTold s t n 4 q) ∧
    (k.dir ≠ 0 → k.err = false → k.dir ≠ 1 ∨ k.qpn ≠ q ∨ k.mkey ≠ rkey → ∀ e, (k.qpn ≠ q ∧ ForeignPair s k.part q ∧ e = 3 ∨ ¬ (k.qpn ≠ q ∧ ForeignPair s k.part q) ∧ e = 1) →
      (∃ t, exec (.hostPush n q rkey off len ws) s = .next t ∧ HostTold s t n e q) ∧
      ∃ t, exec (.hostCreditRead n q rkey) s = .next t ∧ HostTold s t n e q) ∧
    (k.dir = 1 → k.err = false → k.qpn = q → k.mkey = rkey →
      (∃ t, exec (.hostCreditRead n q rkey) s = .next t ∧ t.out = s.out ++ [.readReply n k.granted] ∧ SameMemory s t) ∧
      (off ≠ 0 ∨ len % 8 ≠ 0 ∨ 256 < len → ∃ t, exec (.hostPush n q rkey off len ws) s = .next t ∧ HostTold s t n 1 q) ∧
      (off = 0 → len = 8 * ws.length → ws.length ≤ 32 →
        (k.credits < max 1 ws.length → ∃ t, exec (.hostPush n q rkey off len ws) s = .next t ∧ HostTold s t n 2 q) ∧
        (max 1 ws.length ≤ k.credits → 128 ≤ n → (s.checkAt k).2.2 = 0 → Tab.look s.hostEps n = some k →
          ∃ t, exec (.hostPush n q rkey off len ws) s = .next t ∧ (t.hep n).credits = k.credits - max 1 ws.length ∧ SameMemory s t ∧
            t.net = s.net ++ [{ wid := hostWid n, dest := .tile k.tep, body := .data { slots := ws, marker := ws.isEmpty }, part := k.part, net := 0 }]) ∧
        (max 1 ws.length ≤ k.credits → n < 128 →
          ∃ t, exec (.hostPush n q rkey off len ws) s = .next t ∧ SameMemory s t ∧
            (∃ e ∈ t.events, e.2 = .hostCreditUpdate (8 * (n / 8))) ∧
            (∀ j, Tab.look s.hostEps (8 * (n / 8)) = some j → (t.hep (8 * (n / 8))).granted = j.granted + .ofNat 64 (max 1 ws.length)) ∧
            (ws ≠ [] → (t.part (n / 8)).image = (s.part (n / 8)).image ++ ws ∧ (t.part (n / 8)).images = (s.part (n / 8)).images) ∧
            (ws = [] → (t.part (n / 8)).image = [] ∧ (t.part (n / 8)).images = (s.part (n / 8)).images ++ [(s.part (n / 8)).image] ∧
              ∃ e ∈ t.events, e.2 = .networkLaunch (n / 8)))))) ∧
  (∀ (s : State) (n : Nat) (k : HostEp), Tab.look s.hostEps n = some k → (s.checkAt k).2.2 ≠ 2 →
    (k.dir = 1 → k.err = false → k.told ≠ k.granted → ∃ t, exec (.hostCreditUpdate n) s = .next t ∧
      t.out = s.out ++ [.rdmaWrite n k.qpn k.haddr k.granted] ∧ t.hep n = { k with told := k.granted } ∧ SameMemory s t) ∧
    (k.told = k.granted → exec (.hostCreditUpdate n) s = .next s)) ∧
  (∀ (s : State) (n : Nat) (k : HostEp), Tab.look s.hostEps n = some k → k.dir = 2 → k.err = false → 0 < k.cap →
    let ms := headMessage (s.ep (hostRid n)).queue
    (ms ≠ [] → k.ring.length + ms.length ≤ k.cap → (∀ x ∈ ms, x.marker = false) →
      ∃ t, exec (.d2hDeliver n) s = .next t ∧ (t.ep (hostRid n)).queue = (s.ep (hostRid n)).queue.drop ms.length ∧
        t.out = s.out ++ ms.zipIdx.map (fun x => .rdmaWrite n k.qpn (k.haddr + .ofNat 64 (8 * ((k.dcount.toNat + x.2) % k.cap))) x.1.val) ++
          [.rdmaWrite n k.qpn (k.haddr + .ofNat 64 (8 * k.cap + 8 * (k.hcount.toNat % k.cap)))
            (.ofNat 64 (ms.length - 1 + k.dcount.toNat % 2 ^ 32 * 2 ^ 32))] ∧
        (t.hep n).dcount = k.dcount + .ofNat 64 ms.length ∧ (t.hep n).hcount = k.hcount + 1 ∧
        (t.hep n).ring = k.ring ++ ms.map (fun x => x.wid) ∧ SameMemory s t) ∧
    (∀ x, ms = [x] → x.marker = true → k.ring.length < k.cap →
      ∃ t, exec (.d2hDeliver n) s = .next t ∧ t.out = s.out ++
        [.rdmaWrite n k.qpn (k.haddr + .ofNat 64 (8 * k.cap + 8 * (k.hcount.toNat % k.cap))) (.ofNat 64 (64 + k.dcount.toNat % 2 ^ 32 * 2 ^ 32))]) ∧
    (k.cap < k.ring.length + ms.length → exec (.d2hDeliver n) s = .next s)) ∧
  (∀ (s : State) (n : Nat) (k : HostEp) (count : BitVec 64), Tab.look s.hostEps n = some k → k.dir = 2 → k.err = false →
    (k.freed ≤ count → count ≤ k.dcount → (∀ w ∈ k.ring, w = loaderWid) →
      ∃ t, exec (.hostCreditReturn n k.qpn k.mkey count) s = .next t ∧ (t.hep n).freed = count ∧
        (t.hep n).ring = k.ring.drop (count - k.freed).toNat ∧ SameMemory s t ∧
        ((s.ep (hostRid n)).queue ≠ [] → ∃ e ∈ t.events, e.2 = .d2hDeliver n)) ∧
    (count < k.freed ∨ k.dcount < count → ∃ t, exec (.hostCreditReturn n k.qpn k.mkey count) s = .next t ∧ HostTold s t n 1 k.qpn)) ∧
  (∀ (s : State) (n : Nat) (k : HostEp), Tab.look s.hostEps n = some k →
    (k.dir ≠ 0 → ∃ t, exec (.queuePairError n) s = .next t ∧ (t.hep n).err = true ∧ HostTold s t n 4 k.qpn ∧ SameMemory s t) ∧
    (k.dir = 0 → exec (.queuePairError n) s = .next s))

/-- R249 to R252, R269 to R271. A detected error leaves its record; a lasting one withdraws the SRAM line, makes reads of the HBM line fail, or fuses the
cluster: strips of processes with lanes there restart, a matrix command stops between groups, the lanes there are gone and VL falls with them. The power limit sets and clears the throttle. At 115 degrees or without coolant the module stops, and only its record is still due. A module
reset gives the reset state, with the fuses kept and firmware's tables loaded again. The model's choices in it: log 64, 65, 86. -/
def Obligations.ModuleEvents : Prop :=
  (∀ (s : State) (unit : ErrUnit) (tile index addr : Nat),
    (∃ t, exec (.detectedError unit tile index addr false) s = .next t ∧ SameMemory s t ∧ t.withdrawn = s.withdrawn ∧ t.hbmBad = s.hbmBad ∧
      t.fuses = s.fuses ∧ ErrorAt s t unit tile index addr false) ∧
    (unit ≠ .cluster → ∃ t, exec (.detectedError unit tile index addr true) s = .next t ∧ SameMemory s t ∧ t.fuses = s.fuses ∧
      ErrorAt s t unit tile index addr true ∧
      (unit = .opticalLane → ∃ e ∈ t.events, e = (s.cycle, .crcThreshold index)) ∧
      (∀ a, Tab.lookD t.withdrawn (a / 64) false = true ↔
        unit = .sram ∧ a / 64 = (tile * 0x100000 + addr % 0x100000) / 64 ∨ Tab.lookD s.withdrawn (a / 64) false = true) ∧
      ∀ a, Tab.lookD t.hbmBad (a / 64) false = true ↔
        unit = .hbm ∧ a / 64 = serverKey index addr / 64 ∨ Tab.lookD s.hbmBad (a / 64) false = true) ∧
    (index < 4 → (s.tile tile).slots = [] → ∃ t, exec (.detectedError .cluster tile index addr true) s = .next t ∧ SameMemory s t ∧
      ErrorAt s t .cluster tile index addr true ∧ t.unfused tile = (s.unfused tile).filter (· ≠ index) ∧
      ∀ n, n ≠ tile → t.fused n = s.fused n)) ∧
  (∀ (s : State) (tile index addr h : Nat), index < 4 → index ∈ s.unfused tile → h ∈ s.residents tile → (s.proc h).tile = tile →
    (s.proc h).inCommit = false →
    ∃ t, exec (.detectedError .cluster tile index addr true) s = .next t ∧ t.unfused tile = (s.unfused tile).filter (· ≠ index) ∧
      (t.proc h).slivers = (s.proc h).slivers.filter (fun n => decide (n / 4 ≠ index)) ∧
      ((s.proc h).mat ≠ none → (t.proc h).mat = none) ∧
      ((∃ n ∈ (s.proc h).slivers, n / 4 = index) → (t.proc h).strip = none ∧
        (∀ k, (s.proc h).strip = some k → (t.proc h).pc = k.pc ∧ (t.proc h).sregs = k.sregs) ∧
        ((s.proc h).strip = none → (t.proc h).pc = (s.proc h).pc ∧ (t.proc h).vl.toNat = min (s.proc h).vl.toNat
          (vlmaxOf (lanesOf ((s.proc h).slivers.filter fun n => decide (n / 4 ≠ index))).length (ewOf (s.proc h).vt))))) ∧
  (∀ s : State, ∃ t, exec .powerLimit s = .next t ∧ t.throttled = true ∧ SameMemory s t ∧ t.procs = s.procs ∧ t.cycle = s.cycle) ∧
  (∀ s : State, ∃ t, exec .powerLimitCleared s = .next t ∧ t.throttled = false ∧ SameMemory s t ∧ t.procs = s.procs ∧ t.cycle = s.cycle) ∧
  (∀ (s : State) (die : Nat) (i : Instr), (i = .thermalStop die ∨ i = .coolantLow) →
    ∃ t, exec i s = .next t ∧ t.stopped = true ∧ t.issueLeft = [] ∧ (∀ e ∈ t.events, e.2 = .d2hDeliver 128) ∧ SameMemory s t ∧
      (if i = .coolantLow then ErrorTold s t 0 none 0 2 true 0 else ErrorTold s t 0 none 0 1 true die)) ∧
  (∀ s : State, ∃ t, exec .moduleReset s = .next t ∧ t.fuses = s.fuses ∧ t.procs = [] ∧ t.parts = State.reset.parts ∧ t.cycle = 0 ∧
    t.sram = [] ∧ t.hbm = [] ∧ t.events = State.reset.events ∧ t.pcap = State.reset.pcap ∧ t.stopped = !Config.coolantFlows s.freeCtr)

/-- R213 to R217. LEASE offers a FREE lane of the pool and leaves its register pending, or fails at once where every lane that reaches the
peer is held; LREVOKE drains the youngest lane ids above the floor that are old enough, or with count 0 ends the request; LQUERY reads the
state of the link. A wrong peer or count and a second request are PROTECTION, a peer out of reach LEASE_FAULT, the forced form at level 0
PRIVILEGE, in this order. The model's choices in it: log 37, 40. The PC behind the
last word of the address space is 0 (log 55, the model's reading). -/
def Obligations.LeaseResult : Prop :=
  (∀ (s : State) (d a b : BitVec 5) (p n l r : Nat), s.free [a, b, d] → s.plain → PeerOk s a p → s.reg b = .ofNat 64 n → 0 < n →
    n + s.heldTo s.me.part p + (s.underWay s.me.part p).length ≤ 64 → s.myPart.leases = [] → s.myPart.pool = [l] → s.reachOf l p = some r →
    ((s.lane l).st = .free → s.heldTo s.me.part p = 0 → s.underWay s.me.part p = [] →
      ∃ t, exec (.lease d a b) s = .next t ∧ LeftPending s t d (.lease p) ∧
        t.lane l = { st := .offered, peer := p, part := s.me.part, at_ := s.cycle } ∧ t.out = s.out ++ [.offer l p] ∧
        (s.cycle + 7500, .offerTimeout l) ∈ t.events ∧ (s.cycle + 1500000, .starvationRevoke s.me.part p) ∈ t.events ∧
        ∃ q, (t.part s.me.part).leases = [q] ∧ q.peer = p ∧ q.n = n ∧ q.added = 0 ∧ q.h = s.running ∧ q.sd = d.toNat ∧ q.age = s.cycle) ∧
    (l ∈ s.laneList s.me.part p → (s.lane l).st = .held → d ≠ 0 → s.me.res = .resident →
      ∃ t, exec (.lease d a b) s = .next t ∧ WentTo t (s.me.pc + 4) ∧ t.reg d = .ofNat 64 (2 ^ 63 + s.heldTo s.me.part p * 256 + 0x0E) ∧
        t.me.isPending d.toNat = false ∧ (t.part s.me.part).leases = [] ∧ SameMemory s t)) ∧
  (∀ (s : State) (d a b : BitVec 5), s.free [a, b, d] → s.me.strip = none →
    let p := (s.reg a).toNat
    let n := (s.reg b).toNat
    (2 ^ 22 ≤ p ∨ p = s.ownId.toNat ∨ p ∉ s.myPart.peers →
      (∃ t, exec (.lease d a b) s = .next t ∧ Parks s t .protection s.me.pc) ∧
      (n < 2 ^ 63 → ∃ t, exec (.lrevoke d a b) s = .next t ∧ Parks s t .protection s.me.pc)) ∧
    (n / 128 % 2 ^ 56 ≠ 0 → ∃ t, exec (.lrevoke d a b) s = .next t ∧ Parks s t .protection s.me.pc) ∧
    (2 ^ 63 ≤ n → n / 128 % 2 ^ 56 = 0 → s.me.pl = 0 → ∃ t, exec (.lrevoke d a b) s = .next t ∧ Parks s t .privilege s.me.pc) ∧
    (PeerOk s a p → n = 0 ∨ 64 < n + s.heldTo s.me.part p + (s.underWay s.me.part p).length →
      ∃ t, exec (.lease d a b) s = .next t ∧ Parks s t .protection s.me.pc) ∧
    (PeerOk s a p → (∃ q ∈ s.myPart.leases, q.peer = p) → ∃ t, exec (.lease d a b) s = .next t ∧ Parks s t .protection s.me.pc) ∧
    (PeerOk s a p → 0 < n → n + s.heldTo s.me.part p + (s.underWay s.me.part p).length ≤ 64 → (∀ q ∈ s.myPart.leases, q.peer ≠ p) →
      (∀ l ∈ s.myPart.pool, s.reachOf l p = none) → ∃ t, exec (.lease d a b) s = .next t ∧ Parks s t .leaseFault s.me.pc)) ∧
  (∀ (s : State) (d a b : BitVec 5) (p n : Nat), s.free [a, b, d] → s.plain → PeerOk s a p → s.reg b = .ofNat 64 n →
    (0 < n → n < 128 → (∀ l ∈ s.laneList s.me.part p, (s.lane l).st = .held ∧ (s.lane l).at_ + 150000 ≤ s.cycle) → s.heldBefore s.me.part p = s.laneList s.me.part p →
      let k := min n (s.heldTo s.me.part p - s.floor s.me.part p)
      let ls := (s.laneList s.me.part p).reverse.take k
      ∃ t, exec (.lrevoke d a b) s = .next t ∧ WentTo t (s.me.pc + 4) ∧ (d ≠ 0 → t.reg d = .ofNat 64 k) ∧ (∀ r, r ≠ d → t.reg r = s.reg r) ∧
        (∀ l ∈ ls, (t.lane l).st = .draining) ∧ (NoneWait s → ∀ l, l ∉ ls → t.lane l = s.lane l) ∧ SameMemory s t) ∧
    (n = 0 → s.myPart.leases = [] → (∀ e ∈ s.lanes, e.2.fell = false) → ∃ t, exec (.lrevoke d a b) s = .next t ∧ WentTo t (s.me.pc + 4) ∧ t.reg d = 0 ∧
      (∀ r, r ≠ d → t.reg r = s.reg r) ∧ (∀ l, t.lane l = s.lane l) ∧ SameMemory s t)) ∧
  (∀ (s : State) (d a : BitVec 5) (p : Nat), s.free [a, d] → s.me.ss = false → PeerOk s a p →
    ∃ t, exec (.lquery d a) s = .next t ∧ OnlyRegs s t [d] (s.me.pc + 4) ∧
      (d ≠ 0 → t.reg d = .ofNat 64 ((if (s.link s.me.part p).quar then 3 else if s.heldTo s.me.part p ≠ 0 then 1
            else if s.underWay s.me.part p ≠ [] then 2 else if s.lanesIn s.me.part p .quar ≠ [] then 3 else 0) * 2 ^ 62 + s.floor s.me.part p * 2 ^ 61
          + (if (s.leaseOf s.me.part p).isSome then 2 ^ 60 else 0) + ((s.leaseOf s.me.part p).map fun r => r.n - r.added).getD 0 * 2 ^ 40
          + (s.lanesIn s.me.part p .dark).length * 2 ^ 32 + (s.lanesIn s.me.part p .draining).length * 2 ^ 24
          + (s.underWay s.me.part p).length * 2 ^ 16 + s.heldTo s.me.part p)))

/-- R198, R202, R203, R205 to R207, R212, R215, R216, R219. The changes of a lane's state: an accepted offer trains, a rejected or late one frees
the lane; agreement holds the lanes of the map, three exchanges or another key quarantine the link; a drained lane is FREE, at once or after 3,000
cycles; one whose companion was revoked drains, is FREE or stays DARK; CRC failures train a lane again; loss of light darkens it, that of a laser source
its 32 lanes, and 1,500,000 cycles of restored light free it, each with its LINK record; a request that starves drains another link's lane. The
model's choices in it: log 35, 36, 38, 39, 74, 83. -/
def Obligations.LaneStateEvents : Prop :=
  (∀ (s : State) (l : Nat), NoLeases s → l < 2048 →
    let x := s.lane l
    (x.st = .offered → s.cycle ≤ x.at_ + 7500 →
      ∃ t, exec (.offerAnswer l true) s = .next t ∧ (t.lane l).st = .training ∧ (t.lane l).peer = x.peer ∧ SameMemory s t ∧
        (max s.cycle (x.at_ + 30000), .trainingTimeout l) ∈ t.events ∧ (t.link x.part x.peer).training ≠ none) ∧
    (x.st = .offered → (∃ t, exec (.offerAnswer l false) s = .next t ∧ t.lane l = {} ∧ SameMemory s t) ∧
      (x.at_ + 7500 ≤ s.cycle → ∃ t, exec (.offerTimeout l) s = .next t ∧ t.lane l = {} ∧ SameMemory s t) ∧
      (s.cycle < x.at_ + 7500 → exec (.offerTimeout l) s = .next s)) ∧
    (x.st ≠ .offered → (∀ ok, exec (.offerAnswer l ok) s = .next s) ∧ exec (.offerTimeout l) s = .next s) ∧
    (x.st = .training → x.removed = false → x.at_ + 30000 ≤ s.cycle →
      ∃ t, exec (.trainingTimeout l) s = .next t ∧ (t.link x.part x.peer).quar = true ∧ SameMemory s t ∧
        LinkTold s t x.part x.peer ((s.leaseLanes x.part x.peer).headD 0) 3 ∧ ∀ y ∈ s.leaseLanes x.part x.peer, (t.lane y).st = .quar) ∧
    (x.st = .draining → (∀ f ∈ (s.link x.part x.peer).unacked, f.lane ≠ l) →
      ∃ t, exec (.laneDrainEnd l) s = .next t ∧ t.lane l = {} ∧ SameMemory s t ∧ (NoneWait s → t.out = s.out ∧ ∀ m, m ≠ l → t.lane m = s.lane m)) ∧
    (x.st = .draining → x.since + 3000 ≤ s.cycle → ∃ t, exec (.laneDrainEnd l) s = .next t ∧ t.lane l = {} ∧ SameMemory s t) ∧
    (x.st = .draining → (∃ f ∈ (s.link x.part x.peer).unacked, f.lane = l) → s.cycle < x.since + 3000 → exec (.laneDrainEnd l) s = .next s) ∧
    (x.st = .held → ∃ t, exec (.laneDrainEnd l) s = .next t ∧ (t.lane l).st = .draining ∧ (∃ e ∈ t.events, e.2 = .laneDrainEnd l) ∧
      SameMemory s t ∧ (NoneWait s → t.out = s.out ∧ ∀ m, m ≠ l → t.lane m = s.lane m)) ∧
    (x.st = .quar → ∃ t, exec (.laneDrainEnd l) s = .next t ∧ t.lane l = {} ∧ SameMemory s t) ∧
    (x.st = .dark → ∃ t, exec (.laneDrainEnd l) s = .next t ∧ t.lane l = { x with forced := true } ∧ (∀ m, m ≠ l → t.lane m = s.lane m) ∧
      t.out = s.out ∧ SameMemory s t) ∧
    (x.st = .free ∨ x.st = .offered ∨ x.st = .training → exec (.laneDrainEnd l) s = .next s) ∧
    (x.st = .held → (s.link x.part x.peer).unacked = [] → NoneWait s →
      ∃ t, exec (.crcThreshold l) s = .next t ∧ (t.lane l).st = .training ∧ (t.link x.part x.peer).training ≠ none ∧
        LinkTold s t x.part x.peer l 5 ∧ SameMemory s t) ∧
    (x.st ≠ .free → x.st ≠ .dark → OnlyDark s l →
      ∃ t, exec (.lossOfLight l) s = .next t ∧ (t.lane l).st = .dark ∧ LinkTold s t x.part x.peer l 1 ∧ SameMemory s t) ∧
    (∀ m c, x.st = .held → (s.link x.part x.peer).unacked = [] → l < m → m < 2048 → (s.lane m).st = .held → (s.lane m).part = x.part →
      (s.lane m).peer = x.peer → s.lanes = [(l, x), (m, s.lane m)] → s.events = [(c, .lossOfLight m)] → c ≤ s.cycle →
      ∃ t, exec (.lossOfLight l) s = .next t ∧ (t.lane l).st = .dark ∧ (t.lane m).st = .dark ∧
        let w : Word := .ofNat 64 ((s.link x.part x.peer).next % 2 ^ 32)
        (t.ep (hostRid (8 * x.part + 2))).queue.map (fun q => q.val) = (s.ep (hostRid (8 * x.part + 2))).queue.map (fun q => q.val) ++
          [.ofNat 64 (x.peer % 2 ^ 22 * 2 ^ 31 + x.part % 16 * 2 ^ 27 + l % 4 * 2 ^ 25 + l / 4 % 32 * 2 ^ 20 + l / 128 % 16 * 2 ^ 16 + 257), w,
           .ofNat 64 s.cycle, 0] ++
          [.ofNat 64 (x.peer % 2 ^ 22 * 2 ^ 31 + x.part % 16 * 2 ^ 27 + m % 4 * 2 ^ 25 + m / 4 % 32 * 2 ^ 20 + m / 128 % 16 * 2 ^ 16 + 257), w,
           .ofNat 64 s.cycle, 0]) ∧
    (x.st ≠ .held → exec (.crcThreshold l) s = .next s) ∧
    (x.st = .free → exec (.lossOfLight l) s = .next s) ∧
    (x.st = .dark → ∃ t, exec (.lossOfLight l) s = .next t ∧ t.lane l = { x with at_ := s.cycle } ∧ (∀ m, m ≠ l → t.lane m = s.lane m) ∧
      t.out = s.out ∧ SameMemory s t) ∧
    (x.st = .dark → x.at_ + 1500000 ≤ s.cycle → ∃ t, exec (.lightRestored l) s = .next t ∧ t.lane l = {} ∧
      (∀ n, s.poolOf l = some n → LinkTold s t n x.peer l 4) ∧ SameMemory s t ∧
      t.out = s.out ++ (if x.forced then [] else ((s.reachOf l x.peer).map fun r => .revoke x.peer r).toList)) ∧
    (x.st ≠ .dark ∨ s.cycle < x.at_ + 1500000 → exec (.lightRestored l) s = .next s)) ∧
  (∀ (s : State) (n : Nat), NoLeases s → n < 64 →
    ∃ t, exec (.lossOfLight (2048 + n)) s = .next t ∧ ∀ l ∈ laserLanes n, (t.lane l).st = .free ∨ (t.lane l).st = .dark) ∧
  (∀ (s : State) (rlane peer plane back n : Nat), s.poolOf rlane = some n →
    ((s.lane rlane).st = .free → back = rlane → s.reachOf rlane peer = some plane → peer ∈ (s.part n).peers →
      (s.leaseLanes n peer).length < 64 →
      ∃ t, exec (.laneOffer rlane peer plane back) s = .next t ∧ (t.lane rlane).st = .training ∧ (t.lane rlane).peer = peer ∧
        (t.lane rlane).part = n ∧ .answer rlane true ∈ t.out ∧ (s.cycle + 30000, .trainingTimeout rlane) ∈ t.events ∧ SameMemory s t) ∧
    ((s.lane rlane).st ≠ .free ∨ back ≠ rlane ∨ peer ∉ (s.part n).peers ∨ s.reachOf rlane peer ≠ some plane →
      ∃ t, exec (.laneOffer rlane peer plane back) s = .next t ∧ t.out = s.out ++ [.answer rlane false] ∧ (∀ l, t.lane l = s.lane l))) ∧
  (∀ (s : State) (part peer x map width speed : Nat) (report : Bool) (w : BitVec 128) (key : BitVec 32), NoLeases s →
    (s.link part peer).training = some (x, map, width, speed, report) → capGood w = true →
    (key ≠ (s.part part).key.keyid → ∃ t, exec (.trainingWord part peer w key) s = .next t ∧ (t.link part peer).quar = true ∧
      LinkTold s t part peer ((s.leaseLanes part peer).headD 0) 3 ∧ ∀ l ∈ s.leaseLanes part peer, (t.lane l).st = .quar) ∧
    (key = (s.part part).key.keyid → w.toNat / 2 ^ 64 = map → w.toNat / 2 ^ 56 % 256 = width → w.toNat / 2 ^ 52 % 16 = speed → width ≤ popc map →
      (∀ i, i < (s.leaseLanes part peer).length → bitAt map i = true) → NoneWait s →
      ∃ t, exec (.trainingWord part peer w key) s = .next t ∧ (t.link part peer).training = none ∧ (t.link part peer).speed = speed ∧
        ∀ l ∈ s.leaseLanes part peer, (t.lane l).st = .held) ∧
    (key = (s.part part).key.keyid → 3 ≤ x → w.toNat / 2 ^ 64 ≠ map →
      ∃ t, exec (.trainingWord part peer w key) s = .next t ∧ (t.link part peer).quar = true ∧ ∀ l ∈ s.leaseLanes part peer, (t.lane l).st = .quar) ∧
    (key = (s.part part).key.keyid → x < 3 → w.toNat / 2 ^ 64 ≠ map →
      let same := w.toNat / 2 ^ 64 &&& map
      ∃ t, exec (.trainingWord part peer w key) s = .next t ∧ (t.link part peer).training =
        some (x + 1, same, min (min width (w.toNat / 2 ^ 56 % 256)) (popc same), max speed (w.toNat / 2 ^ 52 % 16), report))) ∧
  (∀ (s : State) (part peer : Nat), Tab.sortedFrom 0 s.lanes = true → (s.link part peer).quar = false →
    s.laneList part peer ≠ [] ∨ s.lanesIn part peer .training ≠ [] →
    ∃ t, exec (.retrain part peer) s = .next t ∧ (∀ l ∈ s.laneList part peer, (t.lane l).st = .training) ∧
      (∃ n, (t.link part peer).training = some (1, 2 ^ n - 1, n, (s.link part peer).speed, true)) ∧ SameMemory s t) ∧
  (∀ (s : State) (part peer : Nat), (s.link part peer).quar = true → exec (.retrain part peer) s = .next s) ∧
  (∀ (s : State) (part peer q l : Nat) (r : LeaseReq), (s.part part).leases = [r] → r.peer = peer → r.offeredEver = false →
    (s.part part).peers = [q] → q ≠ peer → s.laneList part q = [l] → s.floor part q = 0 → (s.reachOf l peer).isSome = true →
    (s.lane l).at_ + 150000 ≤ s.cycle →
    ∃ t, exec (.starvationRevoke part peer) s = .next t ∧ (t.lane l).st = .draining ∧
      (s.cycle + 1500000, .starvationRevoke part peer) ∈ t.events ∧ SameMemory s t)

/-- R198, R200 to R202, R208, R209, R257, R318. A good data flit of the window is stored for its group, a bad one is counted against its
lane. A tag that verifies lets the group through, another one discards it. Acknowledged groups leave the retry buffer, and a NACK replays
from its group. The timers send acknowledgements, NACKs, and the tag of an unfinished group, on a lane of the link; without one nothing
leaves, and the acknowledgement is tried again. A relay passes a message on with one hop less, whose flits leave as the link has room for them and
stand in line while it is quarantined, or sends it back, and its writer learns of it. The model's choices in it: log 12, 16, 38, 80, 83. -/
def Obligations.LinkEvents : Prop :=
  (∀ (s : State) (l part peer : Nat) (f : BitVec 576), s.linkOfLane l = some (part, peer) →
    (flitGood f = true → f.toNat % 2 ^ 32 / 2 ^ 30 = 0 → ∀ q, fullCount (s.link part peer).rnext (f.toNat / 2 ^ 13 % 1024) = some q →
      Tab.look (s.link part peer).store q = none →
      ∃ t x, exec (.opticalDataFlit l f) s = .next t ∧ Tab.look (t.link part peer).store q = some x ∧ x.count = q ∧
        x.vnet = f.toNat / 2 ^ 28 % 4 ∧ x.first = f.toNat.testBit 27 ∧ x.last = f.toNat.testBit 26 ∧ x.nslot = f.toNat / 2 ^ 23 % 8 ∧ x.lane = l ∧
        x.slots = (List.range 8).map (fun i => .ofNat 64 (f.toNat / 2 ^ (32 + 64 * i))) ∧ SameMemory s t) ∧
    (flitGood f = true → ∀ q x, fullCount (s.link part peer).rnext (f.toNat / 2 ^ 13 % 1024) = some q →
      Tab.look (s.link part peer).store q = some x → ∃ t, exec (.opticalDataFlit l f) s = .next t ∧ t.links = s.links) ∧
    (flitGood f = false → (s.lane l).crcBad < 7 → (s.lane l).crcAll < 65535 →
      ∃ t, exec (.opticalDataFlit l f) s = .next t ∧ t.links = s.links ∧
        t.lane l = { s.lane l with crcBad := (s.lane l).crcBad + 1, crcAll := (s.lane l).crcAll + 1 } ∧ ErrorTold s t 5 (some part) 0 0 false 0) ∧
    (flitGood f = false → (s.lane l).crcBad = 7 → ∃ t, exec (.opticalDataFlit l f) s = .next t ∧ t.links = s.links ∧
      (s.cycle, .crcThreshold l) ∈ t.events)) ∧
  (∀ (s : State) (part peer n : Nat) (tag : BitVec 128), 0 < n → n ≤ 8 →
    let k := s.link part peer
    let g := k.rnext / 8 * 8
    let fl := (List.range n).filterMap fun i => Tab.look k.store (g + i)
    fl.length = n →
    (∀ iv f, s.verifyTag part peer g fl tag = some iv → fl = [f] → f.vnet = 1 → f.first = true → f.last = true → f.nslot = 1 →
      (wfield ((gcmSlots (s.part part).key.gcm iv (f.count % 8) f.slots).headD 0) 63 62 = 0) → k.sinceAck = 0 →
      ∃ t, exec (.gcmTagFlit part peer tag n) s = .next t ∧ (t.link part peer).rnext = g + 8 ∧ SameMemory s t ∧
        (∃ e ∈ t.events, e.2 = .remoteReply part [(gcmSlots (s.part part).key.gcm iv (f.count % 8) f.slots).getD 1 0]) ∧
        ∃ e ∈ t.events, e.2 = .ackTimer part peer) ∧
    (s.verifyTag part peer g fl tag = none → ∃ t, exec (.gcmTagFlit part peer tag n) s = .next t ∧ (t.link part peer).rnext = k.rnext ∧
      (∀ q x, Tab.look (t.link part peer).store q = some x → q / 8 * 8 ≠ g) ∧ (t.link part peer).gapAt ≠ none ∧ SameMemory s t)) ∧
  (∀ (s : State) (part peer seq q : Nat) (k : Link) (f : OFlit) (rest : List OFlit), LoneLink s part peer k (s.laneList part peer) →
    k.unacked = f :: rest → fullCount f.count seq = some q →
    (∃ t, exec (.opticalAck part peer seq) s = .next t ∧ SameMemory s t ∧ t.link part peer = k.acked q) ∧
    (∀ l, s.laneList part peer = [l] → k.groups = [] →
      ∃ t, exec (.opticalNack part peer seq) s = .next t ∧ SameMemory s t ∧
        (t.link part peer).unacked = k.unacked.map (fun x => if q / 8 * 8 ≤ x.count then { x with lane := l, astray := false } else x) ∧
        t.out = s.out ++ (k.unacked.dropWhile fun x => decide (x.count / 8 * 8 ≠ q / 8 * 8)).map fun x => .flit part peer l (s.wireFlit part x))) ∧
  (∀ (k : Link) (q : Nat) (f : OFlit), f ∈ (k.acked q).unacked ↔
    f ∈ k.unacked ∧ ∀ g ∈ k.groups.takeWhile (fun x => decide (x.1 + x.2 ≤ q + 1)), g.1 ≠ f.count / 8 * 8) ∧
  (∀ (s : State) (part peer : Nat),
    let k := s.link part peer
    let l := (s.laneList part peer).headD 0
    (k.sinceAck ≠ 0 → s.laneList part peer ≠ [] → ∃ t, exec (.ackTimer part peer) s = .next t ∧ (t.link part peer).sinceAck = 0 ∧ SameMemory s t ∧
      t.out = s.out ++ [.flit part peer l (flitBits (flitHeader 1 3 true true 0 ((k.rnext + 1023) % 1024) false) [])]) ∧
    (k.sinceAck ≠ 0 → s.laneList part peer = [] → ∃ t, exec (.ackTimer part peer) s = .next t ∧ t.out = s.out ∧ t.links = s.links ∧
      (s.cycle + 256, .ackTimer part peer) ∈ t.events ∧ SameMemory s t) ∧
    (k.sinceAck = 0 → exec (.ackTimer part peer) s = .next s) ∧
    (∀ c, k.gapAt = some c → c + 64 ≤ s.cycle → ∃ t, exec (.gapTimeout part peer) s = .next t ∧ (t.link part peer).gapAt = some s.cycle ∧
      (t.link part peer).sinceAck = k.sinceAck ∧ (s.cycle + 64, .gapTimeout part peer) ∈ t.events ∧
      t.out = s.out ++ (if s.laneList part peer = [] then [] else [.flit part peer l (flitBits (flitHeader 1 3 true true 0
        (firstMissing (k.store.map fun e => e.1) 1024 k.rnext % 1024) true) [])])) ∧
    (∀ c, k.gapAt = some c → s.cycle < c + 64 → exec (.gapTimeout part peer) s = .next s) ∧
    (k.gapAt = none → exec (.gapTimeout part peer) s = .next s) ∧
    (k.groupLen ≠ 0 → k.txq = [] → let g := (k.next - 1) / 8 * 8
      ∃ t, exec (.gcmGroupClose part peer) s = .next t ∧ (t.link part peer).next = g + 8 ∧ (t.link part peer).groupLen = 0 ∧
        (t.link part peer).groups = k.groups ++ [(g, k.groupLen)] ∧ SameMemory s t ∧ (s.laneList part peer = [] → t.out = s.out) ∧
        (s.laneList part peer ≠ [] → ∃ x ∈ s.laneList part peer, ∃ y, t.out = s.out ++ [.flit part peer x y])) ∧
    (k.txq ≠ [] → exec (.gcmGroupClose part peer) s = .next (s.afterCycles 32 (.gcmGroupClose part peer))) ∧
    (k.groupLen = 0 → k.txq = [] → exec (.gcmGroupClose part peer) s = .next s)) ∧
  (∀ (s : State) (part vnet : Nat) (rw : Word) (rest : List Word),
    let d := Tab.lookD s.directPeers (rw.toNat / 2 ^ 51 % 2048) 0
    let q := d.toNat % 2 ^ 22
    (d.toNat < 2 ^ 63 ∨ s.laneList part q = [] →
      ∃ t, exec (.relayForward part vnet (rw :: rest)) s = .next t ∧ t.out = s.out ++ [.refusal part (rw :: rest)] ∧ SameMemory s t) ∧
    (2 ^ 63 ≤ d.toNat → s.laneList part q ≠ [] → (s.link part q).next + 400 < 2 ^ 64 →
      ∃ t, exec (.relayForward part vnet (rw :: rest)) s = .next t ∧ SameMemory s t ∧ t.procs = s.procs ∧ t.parts = s.parts ∧ t.eps = s.eps ∧
        t.net = s.net ∧ SentOn s t part q (toFlits vnet 40 true
          (routeWord (rw.toNat / 2 ^ 62 - 1) (rw.toNat / 2 ^ 40 % 2048) 0 (rw.toNat / 2 ^ 29 % 2048) (routeIndex rw) :: rest))) ∧
    (2 ^ 63 ≤ d.toNat → s.laneList part q ≠ [] → (s.link part q).quar = true →
      ∃ t, exec (.relayForward part vnet (rw :: rest)) s = .next t ∧ SameMemory s t ∧ (t.link part q).txq = (s.link part q).txq ++ toFlits vnet 40 true
        (routeWord (rw.toNat / 2 ^ 62 - 1) (rw.toNat / 2 ^ 40 % 2048) 0 (rw.toNat / 2 ^ 29 % 2048) (routeIndex rw) :: rest))) ∧
  (∀ (s : State) (h c p e pos : Nat), h < 2 ^ 32 → c < 16 → pos < 2 ^ 20 → ((s.proc h).chan c).role = .writer → ((s.proc h).chan c).dest = .peer p e →
    (s.link (s.proc h).part p).waiting = [] →
    ∃ t, exec (.relayRefusal (widOf h c + 2 ^ 42 * pos)) s = .next t ∧ ((t.proc h).chan c).refused = some p ∧
      ((t.proc h).chan c).credits = ((s.proc h).chan c).credits + ((s.proc h).chan c).relayed.getD pos 0 ∧
      ((t.proc h).chan c).relayed = ((s.proc h).chan c).relayed.set pos 0 ∧
      ((t.proc h).chan c).relayOut = ((s.proc h).chan c).relayOut - 1 ∧ SameMemory s t ∧
      ((s.proc h).pst = .blockedWrite c → (s.proc h).need < waitOnly → (t.proc h).pst = .ready)) ∧
  (∀ (s : State) (id d n : Nat) (r : Req), Tab.look s.reqs id = some r → r.dropped = false → r.dest = .scalar d n → d ≠ 0 → r.strip = false →
    (s.proc r.h).pst = .ready → s.atBoundary r.h = true → (s.proc r.h).res = .resident → s.staged = [] →
    (∀ x ∈ (s.tile (s.proc r.h).tile).cb, x.2.h ≠ r.h) →
    ∃ t, exec (.relayRefusal (2 ^ 67 + id)) s = .next t ∧ (t.proc r.h).pst = .parkedFault ∧
      (t.proc r.h).frec.toNat % 256 = Cause.leaseFault.code ∧ Tab.look t.reqs id = none)

/-- R372, R250, R270, R271, R269. Steps that complete in every state: CHILD_RELEASE lets the child issue once what its parent's SPAWN stands behind has
performed, and comes again a cycle later before that; the fusing of a cluster, the power limit and its end, both stops of the module, and a module reset
take effect whatever runs. The model's choices in it: log 65, 86. -/
def Obligations.EventsComplete : Prop :=
  (∀ (s : State) (h : Nat),
    ((s.proc h).shut = false → exec (.childRelease h) s = .next s) ∧
    ((s.proc h).shut = true → (s.proc h).hold = [] → ∃ t, exec (.childRelease h) s = .next t ∧ t.proc h = { s.proc h with shut := false } ∧
      (∀ g, g ≠ h → t.proc g = s.proc g) ∧ t.events = s.events ∧ SameMemory s t) ∧
    ((s.proc h).shut = true → (s.proc h).hold ≠ [] → exec (.childRelease h) s = .next (s.afterCycles 1 (.childRelease h)))) ∧
  (∀ (s : State) (unit : ErrUnit) (tile index addr : Nat) (lasting : Bool), ∃ t, exec (.detectedError unit tile index addr lasting) s = .next t ∧
    (unit = .cluster → lasting = true → index < 4 → t.fused tile = s.fused tile ||| .ofNat 4 (2 ^ index)) ∧
    (∀ n, n ≠ tile ∨ unit ≠ .cluster ∨ lasting = false → t.fused n = s.fused n) ∧
    (lasting = false ∨ unit ≠ .cluster ∨ (s.tile tile).slots = [] → ErrorAt s t unit tile index addr lasting ∧ t.stopped = s.stopped ∧ t.procs = s.procs)) ∧
  (∀ s : State, ∃ t, exec .powerLimit s = .next t ∧ t = { s with throttled := true }) ∧
  (∀ s : State, ∃ t, exec .powerLimitCleared s = .next t ∧ t = { s with throttled := false }) ∧
  (∀ (s : State) (die : Nat), ∃ t, exec (.thermalStop die) s = .next t ∧ t.stopped = true ∧ t.issueLeft = [] ∧ t.procs = s.procs ∧
    ErrorTold s t 0 none 0 1 true die) ∧
  (∀ s : State, ∃ t, exec .coolantLow s = .next t ∧ t.stopped = true ∧ t.issueLeft = [] ∧ t.procs = s.procs ∧ ErrorTold s t 0 none 0 2 true 0) ∧
  (∀ s : State, ∃ t, exec .moduleReset s = .next t ∧ t.fuses = s.fuses ∧ t.out = s.out ∧ t.procs = [] ∧ t.parts = State.reset.parts ∧
    t.sram = [] ∧ t.hbm = [] ∧ t.events = State.reset.events ∧ t.cycle = 0 ∧ (t.stopped = true ↔ Config.coolantFlows s.freeCtr = false))
end

