-- ==== Sys2Proof/Laws/Table.lean ====
section
/-! SUPPORT. The laws of tables and of the two memories: a read after a write, and the canonical form that every write keeps. -/

namespace Sys2Proof.Machine

variable {α : Type}

@[simp] theorem Tab.look_nil (k : Nat) : Tab.look ([] : Tab α) k = none := rfl

theorem Tab.look_put (t : Tab α) (k m : Nat) (v : α) : Tab.look (Tab.put t k v) m = if k = m then some v else Tab.look t m := by
  induction t with
  | nil => simp [Tab.put, Tab.look]
  | cons e t ih =>
    obtain ⟨j, w⟩ := e
    simp only [Tab.put]
    split
    · simp only [Tab.look]
    · split
      · subst_vars
        simp only [Tab.look]
        split <;> rfl
      · simp only [Tab.look, ih]
        split <;> split <;> simp_all

@[simp] theorem Tab.look_put_same (t : Tab α) (k : Nat) (v : α) : Tab.look (Tab.put t k v) k = some v := by
  simp [Tab.look_put]

theorem Tab.look_put_other (t : Tab α) (v : α) {k m : Nat} (h : k ≠ m) : Tab.look (Tab.put t k v) m = Tab.look t m := by
  simp [Tab.look_put, h]

theorem Tab.look_cut (t : Tab α) (k m : Nat) : Tab.look (Tab.cut t k) m = if k = m then none else Tab.look t m := by
  induction t with
  | nil => simp [Tab.cut, Tab.look]
  | cons e t ih =>
    obtain ⟨j, w⟩ := e
    simp only [Tab.cut]
    split
    · subst_vars
      rw [ih]
      simp only [Tab.look]
      split <;> rfl
    · simp only [Tab.look, ih]
      split <;> split <;> simp_all

@[simp] theorem Tab.lookD_nil (k : Nat) (d : α) : Tab.lookD ([] : Tab α) k d = d := rfl

theorem Tab.lookD_put (t : Tab α) (k m : Nat) (v d : α) : Tab.lookD (Tab.put t k v) m d = if k = m then v else Tab.lookD t m d := by
  simp only [Tab.lookD, Tab.look_put]
  split <;> simp

@[simp] theorem Tab.lookD_put_same (t : Tab α) (k : Nat) (v d : α) : Tab.lookD (Tab.put t k v) k d = v := by
  simp [Tab.lookD_put]

theorem Tab.lookD_store [DecidableEq α] (t : Tab α) (k m : Nat) (v d : α) :
    Tab.lookD (Tab.store t k v d) m d = if k = m then v else Tab.lookD t m d := by
  simp only [Tab.store]
  split
  · subst_vars
    simp only [Tab.lookD, Tab.look_cut]
    split <;> simp
  · exact Tab.lookD_put t k m v d

@[simp] theorem Tab.lookD_store_same [DecidableEq α] (t : Tab α) (k : Nat) (v d : α) : Tab.lookD (Tab.store t k v d) k d = v := by
  simp [Tab.lookD_store]

/-- Raising the bound of a sorted table. -/
theorem Tab.sortedFrom_mono {n m : Nat} (h : n ≤ m) : ∀ {t : Tab α}, Tab.sortedFrom m t = true → Tab.sortedFrom n t = true
  | [], _ => rfl
  | (k, v) :: t, ht => by
    simp only [Tab.sortedFrom, Bool.and_eq_true, decide_eq_true_eq] at ht ⊢
    exact ⟨by omega, ht.2⟩

theorem Tab.sortedFrom_put (k : Nat) (v : α) : ∀ {n : Nat} {t : Tab α}, n ≤ k → Tab.sortedFrom n t = true →
    Tab.sortedFrom n (Tab.put t k v) = true
  | n, [], hn, _ => by simp [Tab.put, Tab.sortedFrom, hn]
  | n, (j, w) :: t, hn, ht => by
    simp only [Tab.sortedFrom, Bool.and_eq_true, decide_eq_true_eq] at ht
    simp only [Tab.put]
    split
    · simp only [Tab.sortedFrom, Bool.and_eq_true, decide_eq_true_eq]
      exact ⟨hn, by omega, ht.2⟩
    · split
      · subst_vars
        simp only [Tab.sortedFrom, Bool.and_eq_true, decide_eq_true_eq]
        exact ht
      · simp only [Tab.sortedFrom, Bool.and_eq_true, decide_eq_true_eq]
        exact ⟨ht.1, Tab.sortedFrom_put k v (by omega) ht.2⟩

theorem Tab.sortedFrom_cut (k : Nat) : ∀ {n : Nat} {t : Tab α}, Tab.sortedFrom n t = true → Tab.sortedFrom n (Tab.cut t k) = true
  | n, [], _ => rfl
  | n, (j, w) :: t, ht => by
    simp only [Tab.sortedFrom, Bool.and_eq_true, decide_eq_true_eq] at ht
    simp only [Tab.cut]
    split
    · exact Tab.sortedFrom_cut k (Tab.sortedFrom_mono (by omega) ht.2)
    · simp only [Tab.sortedFrom, Bool.and_eq_true, decide_eq_true_eq]
      exact ⟨ht.1, Tab.sortedFrom_cut k ht.2⟩

theorem Tab.all_put (p : Nat × α → Bool) (t : Tab α) (k : Nat) (v : α) (hv : p (k, v) = true) (h : t.all p = true) :
    (Tab.put t k v).all p = true := by
  induction t with
  | nil => simpa [Tab.put] using hv
  | cons e t ih =>
    obtain ⟨j, w⟩ := e
    simp only [List.all_cons, Bool.and_eq_true] at h
    simp only [Tab.put]
    split
    · simp [hv, h]
    · split
      · simp [hv, h]
      · simp only [List.all_cons, Bool.and_eq_true]
        exact ⟨h.1, ih h.2⟩

theorem Tab.all_cut (p : Nat × α → Bool) (t : Tab α) (k : Nat) (h : t.all p = true) : (Tab.cut t k).all p = true := by
  induction t with
  | nil => rfl
  | cons e t ih =>
    obtain ⟨j, w⟩ := e
    simp only [List.all_cons, Bool.and_eq_true] at h
    simp only [Tab.cut]
    split
    · exact ih h.2
    · simp only [List.all_cons, Bool.and_eq_true]
      exact ⟨h.1, ih h.2⟩

/-- A store keeps the canonical form. -/
theorem Tab.canonical_store [DecidableEq α] (t : Tab α) (k : Nat) (v d : α) (h : Tab.canonical d t = true) :
    Tab.canonical d (Tab.store t k v d) = true := by
  simp only [Tab.canonical, Bool.and_eq_true] at h ⊢
  simp only [Tab.store]
  split
  · exact ⟨Tab.sortedFrom_cut k h.1, Tab.all_cut _ t k h.2⟩
  · rename_i hv
    exact ⟨Tab.sortedFrom_put k v (Nat.zero_le k) h.1, Tab.all_put _ t k v (by simp [hv]) h.2⟩

theorem Tab.sortedFrom_filter (p : Nat × α → Bool) : ∀ {n : Nat} {t : Tab α}, Tab.sortedFrom n t = true →
    Tab.sortedFrom n (t.filter p) = true
  | n, [], _ => rfl
  | n, (j, w) :: t, ht => by
    simp only [Tab.sortedFrom, Bool.and_eq_true, decide_eq_true_eq] at ht
    by_cases hp : p (j, w) = true
    · rw [List.filter_cons_of_pos hp]
      simp only [Tab.sortedFrom, Bool.and_eq_true, decide_eq_true_eq]
      exact ⟨ht.1, Tab.sortedFrom_filter p ht.2⟩
    · rw [List.filter_cons_of_neg hp]
      exact Tab.sortedFrom_filter p (Tab.sortedFrom_mono (by omega) ht.2)

/-- Removing entries keeps the canonical form. -/
theorem Tab.canonical_filter [DecidableEq α] (p : Nat × α → Bool) (t : Tab α) (d : α) (h : Tab.canonical d t = true) :
    Tab.canonical d (t.filter p) = true := by
  simp only [Tab.canonical, Bool.and_eq_true] at h ⊢
  refine ⟨Tab.sortedFrom_filter p h.1, ?_⟩
  simp only [List.all_eq_true] at h ⊢
  exact fun x hx => h.2 x (List.mem_filter.mp hx).1

/-- Memory: a read after a write. -/
theorem Memory.read_write (m : List Host.Cell) (a b : Nat) (v : Byte) :
    Memory.read (Memory.write m a v) b = if a = b then v else Memory.read m b := Tab.lookD_store m a b v Memory.blank
@[simp] theorem Memory.read_write_same (m : List Host.Cell) (a : Nat) (v : Byte) : Memory.read (Memory.write m a v) a = v := by
  simp [Memory.read_write]
/-- Memory: a write keeps the canonical form. -/
theorem Memory.wf_write (m : List Host.Cell) (a : Nat) (v : Byte) (h : Memory.wf m) : Memory.wf (Memory.write m a v) :=
  Tab.canonical_store m a v Memory.blank h

/-- A store to SRAM keeps the canonical form. -/
theorem State.sramStore_wf (k : Nat) (bs : List WByte) : ∀ s : State, Memory.wf s.sram → Memory.wf (s.sramStore k bs).sram := by
  induction bs with
  | nil => exact fun _ h => h
  | cons b bs ih => exact fun s h => ih _ (Memory.wf_write _ _ _ h)

/-- A store to HBM keeps the canonical form. -/
theorem State.hbmStore_wf (part k : Nat) (bs : List WByte) : ∀ s : State, Memory.wf s.hbm → Memory.wf (s.hbmStore part k bs).hbm := by
  induction bs with
  | nil => exact fun _ h => h
  | cons b bs ih => exact fun s h => ih _ (Memory.wf_write _ _ _ h)

end Sys2Proof.Machine
end

