-- ==== Sys2Proof/Laws/State.lean ====
section
/-! SUPPORT. One lemma for each field of the state under each named update, and what a named read gives after a named update. -/

namespace Sys2Proof.Machine

variable (s : State)

@[simp] theorem State.setProc_cycle (h : Nat) (p : Proc) : (s.setProc h p).cycle = s.cycle := rfl
@[simp] theorem State.setProc_pcap (h : Nat) (p : Proc) : (s.setProc h p).pcap = s.pcap := rfl
@[simp] theorem State.setProc_pset (h : Nat) (p : Proc) : (s.setProc h p).pset = s.pset := rfl
@[simp] theorem State.setProc_hepset (h : Nat) (p : Proc) : (s.setProc h p).hepset = s.hepset := rfl
@[simp] theorem State.setProc_ownId (h : Nat) (p : Proc) : (s.setProc h p).ownId = s.ownId := rfl
@[simp] theorem State.setProc_sram (h : Nat) (p : Proc) : (s.setProc h p).sram = s.sram := rfl
@[simp] theorem State.setProc_hbm (h : Nat) (p : Proc) : (s.setProc h p).hbm = s.hbm := rfl
@[simp] theorem State.setProc_hbmEpoch (h : Nat) (p : Proc) : (s.setProc h p).hbmEpoch = s.hbmEpoch := rfl
@[simp] theorem State.setProc_sramTags (h : Nat) (p : Proc) : (s.setProc h p).sramTags = s.sramTags := rfl
@[simp] theorem State.setProc_hbmTags (h : Nat) (p : Proc) : (s.setProc h p).hbmTags = s.hbmTags := rfl
@[simp] theorem State.setProc_hbmBad (h : Nat) (p : Proc) : (s.setProc h p).hbmBad = s.hbmBad := rfl
@[simp] theorem State.setProc_withdrawn (h : Nat) (p : Proc) : (s.setProc h p).withdrawn = s.withdrawn := rfl
@[simp] theorem State.setProc_fuses (h : Nat) (p : Proc) : (s.setProc h p).fuses = s.fuses := rfl
@[simp] theorem State.setProc_tiles (h : Nat) (p : Proc) : (s.setProc h p).tiles = s.tiles := rfl
@[simp] theorem State.setProc_parts (h : Nat) (p : Proc) : (s.setProc h p).parts = s.parts := rfl
@[simp] theorem State.setProc_eps (h : Nat) (p : Proc) : (s.setProc h p).eps = s.eps := rfl
@[simp] theorem State.setProc_hostEps (h : Nat) (p : Proc) : (s.setProc h p).hostEps = s.hostEps := rfl
@[simp] theorem State.setProc_net (h : Nat) (p : Proc) : (s.setProc h p).net = s.net := rfl
@[simp] theorem State.setProc_staged (h : Nat) (p : Proc) : (s.setProc h p).staged = s.staged := rfl
@[simp] theorem State.setProc_reqs (h : Nat) (p : Proc) : (s.setProc h p).reqs = s.reqs := rfl
@[simp] theorem State.setProc_binds (h : Nat) (p : Proc) : (s.setProc h p).binds = s.binds := rfl
@[simp] theorem State.setProc_moves (h : Nat) (p : Proc) : (s.setProc h p).moves = s.moves := rfl
@[simp] theorem State.setProc_kills (h : Nat) (p : Proc) : (s.setProc h p).kills = s.kills := rfl
@[simp] theorem State.setProc_remotes (h : Nat) (p : Proc) : (s.setProc h p).remotes = s.remotes := rfl
@[simp] theorem State.setProc_lltlb (h : Nat) (p : Proc) : (s.setProc h p).lltlb = s.lltlb := rfl
@[simp] theorem State.setProc_lanes (h : Nat) (p : Proc) : (s.setProc h p).lanes = s.lanes := rfl
@[simp] theorem State.setProc_links (h : Nat) (p : Proc) : (s.setProc h p).links = s.links := rfl
@[simp] theorem State.setProc_reach (h : Nat) (p : Proc) : (s.setProc h p).reach = s.reach := rfl
@[simp] theorem State.setProc_routes (h : Nat) (p : Proc) : (s.setProc h p).routes = s.routes := rfl
@[simp] theorem State.setProc_directPeers (h : Nat) (p : Proc) : (s.setProc h p).directPeers = s.directPeers := rfl
@[simp] theorem State.setProc_arbs (h : Nat) (p : Proc) : (s.setProc h p).arbs = s.arbs := rfl
@[simp] theorem State.setProc_fwQueue (h : Nat) (p : Proc) : (s.setProc h p).fwQueue = s.fwQueue := rfl
@[simp] theorem State.setProc_throttled (h : Nat) (p : Proc) : (s.setProc h p).throttled = s.throttled := rfl
@[simp] theorem State.setProc_stopped (h : Nat) (p : Proc) : (s.setProc h p).stopped = s.stopped := rfl
@[simp] theorem State.setProc_out (h : Nat) (p : Proc) : (s.setProc h p).out = s.out := rfl
@[simp] theorem State.setProc_running (h : Nat) (p : Proc) : (s.setProc h p).running = s.running := rfl
@[simp] theorem State.setProc_issueLeft (h : Nat) (p : Proc) : (s.setProc h p).issueLeft = s.issueLeft := rfl
@[simp] theorem State.setProc_events (h : Nat) (p : Proc) : (s.setProc h p).events = s.events := rfl
@[simp] theorem State.setProc_nextId (h : Nat) (p : Proc) : (s.setProc h p).nextId = s.nextId := rfl
@[simp] theorem State.setProc_freeCtr (h : Nat) (p : Proc) : (s.setProc h p).freeCtr = s.freeCtr := rfl

@[simp] theorem State.updProc_cycle (h : Nat) (f : Proc → Proc) : (s.updProc h f).cycle = s.cycle := rfl
@[simp] theorem State.updProc_pcap (h : Nat) (f : Proc → Proc) : (s.updProc h f).pcap = s.pcap := rfl
@[simp] theorem State.updProc_pset (h : Nat) (f : Proc → Proc) : (s.updProc h f).pset = s.pset := rfl
@[simp] theorem State.updProc_hepset (h : Nat) (f : Proc → Proc) : (s.updProc h f).hepset = s.hepset := rfl
@[simp] theorem State.updProc_ownId (h : Nat) (f : Proc → Proc) : (s.updProc h f).ownId = s.ownId := rfl
@[simp] theorem State.updProc_sram (h : Nat) (f : Proc → Proc) : (s.updProc h f).sram = s.sram := rfl
@[simp] theorem State.updProc_hbm (h : Nat) (f : Proc → Proc) : (s.updProc h f).hbm = s.hbm := rfl
@[simp] theorem State.updProc_hbmEpoch (h : Nat) (f : Proc → Proc) : (s.updProc h f).hbmEpoch = s.hbmEpoch := rfl
@[simp] theorem State.updProc_sramTags (h : Nat) (f : Proc → Proc) : (s.updProc h f).sramTags = s.sramTags := rfl
@[simp] theorem State.updProc_hbmTags (h : Nat) (f : Proc → Proc) : (s.updProc h f).hbmTags = s.hbmTags := rfl
@[simp] theorem State.updProc_hbmBad (h : Nat) (f : Proc → Proc) : (s.updProc h f).hbmBad = s.hbmBad := rfl
@[simp] theorem State.updProc_withdrawn (h : Nat) (f : Proc → Proc) : (s.updProc h f).withdrawn = s.withdrawn := rfl
@[simp] theorem State.updProc_fuses (h : Nat) (f : Proc → Proc) : (s.updProc h f).fuses = s.fuses := rfl
@[simp] theorem State.updProc_tiles (h : Nat) (f : Proc → Proc) : (s.updProc h f).tiles = s.tiles := rfl
@[simp] theorem State.updProc_parts (h : Nat) (f : Proc → Proc) : (s.updProc h f).parts = s.parts := rfl
@[simp] theorem State.updProc_eps (h : Nat) (f : Proc → Proc) : (s.updProc h f).eps = s.eps := rfl
@[simp] theorem State.updProc_hostEps (h : Nat) (f : Proc → Proc) : (s.updProc h f).hostEps = s.hostEps := rfl
@[simp] theorem State.updProc_net (h : Nat) (f : Proc → Proc) : (s.updProc h f).net = s.net := rfl
@[simp] theorem State.updProc_staged (h : Nat) (f : Proc → Proc) : (s.updProc h f).staged = s.staged := rfl
@[simp] theorem State.updProc_reqs (h : Nat) (f : Proc → Proc) : (s.updProc h f).reqs = s.reqs := rfl
@[simp] theorem State.updProc_binds (h : Nat) (f : Proc → Proc) : (s.updProc h f).binds = s.binds := rfl
@[simp] theorem State.updProc_moves (h : Nat) (f : Proc → Proc) : (s.updProc h f).moves = s.moves := rfl
@[simp] theorem State.updProc_kills (h : Nat) (f : Proc → Proc) : (s.updProc h f).kills = s.kills := rfl
@[simp] theorem State.updProc_remotes (h : Nat) (f : Proc → Proc) : (s.updProc h f).remotes = s.remotes := rfl
@[simp] theorem State.updProc_lltlb (h : Nat) (f : Proc → Proc) : (s.updProc h f).lltlb = s.lltlb := rfl
@[simp] theorem State.updProc_lanes (h : Nat) (f : Proc → Proc) : (s.updProc h f).lanes = s.lanes := rfl
@[simp] theorem State.updProc_links (h : Nat) (f : Proc → Proc) : (s.updProc h f).links = s.links := rfl
@[simp] theorem State.updProc_reach (h : Nat) (f : Proc → Proc) : (s.updProc h f).reach = s.reach := rfl
@[simp] theorem State.updProc_routes (h : Nat) (f : Proc → Proc) : (s.updProc h f).routes = s.routes := rfl
@[simp] theorem State.updProc_directPeers (h : Nat) (f : Proc → Proc) : (s.updProc h f).directPeers = s.directPeers := rfl
@[simp] theorem State.updProc_arbs (h : Nat) (f : Proc → Proc) : (s.updProc h f).arbs = s.arbs := rfl
@[simp] theorem State.updProc_fwQueue (h : Nat) (f : Proc → Proc) : (s.updProc h f).fwQueue = s.fwQueue := rfl
@[simp] theorem State.updProc_throttled (h : Nat) (f : Proc → Proc) : (s.updProc h f).throttled = s.throttled := rfl
@[simp] theorem State.updProc_stopped (h : Nat) (f : Proc → Proc) : (s.updProc h f).stopped = s.stopped := rfl
@[simp] theorem State.updProc_out (h : Nat) (f : Proc → Proc) : (s.updProc h f).out = s.out := rfl
@[simp] theorem State.updProc_running (h : Nat) (f : Proc → Proc) : (s.updProc h f).running = s.running := rfl
@[simp] theorem State.updProc_issueLeft (h : Nat) (f : Proc → Proc) : (s.updProc h f).issueLeft = s.issueLeft := rfl
@[simp] theorem State.updProc_events (h : Nat) (f : Proc → Proc) : (s.updProc h f).events = s.events := rfl
@[simp] theorem State.updProc_nextId (h : Nat) (f : Proc → Proc) : (s.updProc h f).nextId = s.nextId := rfl
@[simp] theorem State.updProc_freeCtr (h : Nat) (f : Proc → Proc) : (s.updProc h f).freeCtr = s.freeCtr := rfl

@[simp] theorem State.updTile_cycle (n : Nat) (f : Tile → Tile) : (s.updTile n f).cycle = s.cycle := rfl
@[simp] theorem State.updTile_pcap (n : Nat) (f : Tile → Tile) : (s.updTile n f).pcap = s.pcap := rfl
@[simp] theorem State.updTile_pset (n : Nat) (f : Tile → Tile) : (s.updTile n f).pset = s.pset := rfl
@[simp] theorem State.updTile_hepset (n : Nat) (f : Tile → Tile) : (s.updTile n f).hepset = s.hepset := rfl
@[simp] theorem State.updTile_ownId (n : Nat) (f : Tile → Tile) : (s.updTile n f).ownId = s.ownId := rfl
@[simp] theorem State.updTile_sram (n : Nat) (f : Tile → Tile) : (s.updTile n f).sram = s.sram := rfl
@[simp] theorem State.updTile_hbm (n : Nat) (f : Tile → Tile) : (s.updTile n f).hbm = s.hbm := rfl
@[simp] theorem State.updTile_hbmEpoch (n : Nat) (f : Tile → Tile) : (s.updTile n f).hbmEpoch = s.hbmEpoch := rfl
@[simp] theorem State.updTile_sramTags (n : Nat) (f : Tile → Tile) : (s.updTile n f).sramTags = s.sramTags := rfl
@[simp] theorem State.updTile_hbmTags (n : Nat) (f : Tile → Tile) : (s.updTile n f).hbmTags = s.hbmTags := rfl
@[simp] theorem State.updTile_hbmBad (n : Nat) (f : Tile → Tile) : (s.updTile n f).hbmBad = s.hbmBad := rfl
@[simp] theorem State.updTile_withdrawn (n : Nat) (f : Tile → Tile) : (s.updTile n f).withdrawn = s.withdrawn := rfl
@[simp] theorem State.updTile_fuses (n : Nat) (f : Tile → Tile) : (s.updTile n f).fuses = s.fuses := rfl
@[simp] theorem State.updTile_procs (n : Nat) (f : Tile → Tile) : (s.updTile n f).procs = s.procs := rfl
@[simp] theorem State.updTile_parts (n : Nat) (f : Tile → Tile) : (s.updTile n f).parts = s.parts := rfl
@[simp] theorem State.updTile_eps (n : Nat) (f : Tile → Tile) : (s.updTile n f).eps = s.eps := rfl
@[simp] theorem State.updTile_hostEps (n : Nat) (f : Tile → Tile) : (s.updTile n f).hostEps = s.hostEps := rfl
@[simp] theorem State.updTile_net (n : Nat) (f : Tile → Tile) : (s.updTile n f).net = s.net := rfl
@[simp] theorem State.updTile_staged (n : Nat) (f : Tile → Tile) : (s.updTile n f).staged = s.staged := rfl
@[simp] theorem State.updTile_reqs (n : Nat) (f : Tile → Tile) : (s.updTile n f).reqs = s.reqs := rfl
@[simp] theorem State.updTile_binds (n : Nat) (f : Tile → Tile) : (s.updTile n f).binds = s.binds := rfl
@[simp] theorem State.updTile_moves (n : Nat) (f : Tile → Tile) : (s.updTile n f).moves = s.moves := rfl
@[simp] theorem State.updTile_kills (n : Nat) (f : Tile → Tile) : (s.updTile n f).kills = s.kills := rfl
@[simp] theorem State.updTile_remotes (n : Nat) (f : Tile → Tile) : (s.updTile n f).remotes = s.remotes := rfl
@[simp] theorem State.updTile_lltlb (n : Nat) (f : Tile → Tile) : (s.updTile n f).lltlb = s.lltlb := rfl
@[simp] theorem State.updTile_lanes (n : Nat) (f : Tile → Tile) : (s.updTile n f).lanes = s.lanes := rfl
@[simp] theorem State.updTile_links (n : Nat) (f : Tile → Tile) : (s.updTile n f).links = s.links := rfl
@[simp] theorem State.updTile_reach (n : Nat) (f : Tile → Tile) : (s.updTile n f).reach = s.reach := rfl
@[simp] theorem State.updTile_routes (n : Nat) (f : Tile → Tile) : (s.updTile n f).routes = s.routes := rfl
@[simp] theorem State.updTile_directPeers (n : Nat) (f : Tile → Tile) : (s.updTile n f).directPeers = s.directPeers := rfl
@[simp] theorem State.updTile_arbs (n : Nat) (f : Tile → Tile) : (s.updTile n f).arbs = s.arbs := rfl
@[simp] theorem State.updTile_fwQueue (n : Nat) (f : Tile → Tile) : (s.updTile n f).fwQueue = s.fwQueue := rfl
@[simp] theorem State.updTile_throttled (n : Nat) (f : Tile → Tile) : (s.updTile n f).throttled = s.throttled := rfl
@[simp] theorem State.updTile_stopped (n : Nat) (f : Tile → Tile) : (s.updTile n f).stopped = s.stopped := rfl
@[simp] theorem State.updTile_out (n : Nat) (f : Tile → Tile) : (s.updTile n f).out = s.out := rfl
@[simp] theorem State.updTile_running (n : Nat) (f : Tile → Tile) : (s.updTile n f).running = s.running := rfl
@[simp] theorem State.updTile_issueLeft (n : Nat) (f : Tile → Tile) : (s.updTile n f).issueLeft = s.issueLeft := rfl
@[simp] theorem State.updTile_events (n : Nat) (f : Tile → Tile) : (s.updTile n f).events = s.events := rfl
@[simp] theorem State.updTile_nextId (n : Nat) (f : Tile → Tile) : (s.updTile n f).nextId = s.nextId := rfl
@[simp] theorem State.updTile_freeCtr (n : Nat) (f : Tile → Tile) : (s.updTile n f).freeCtr = s.freeCtr := rfl

@[simp] theorem State.updPart_cycle (n : Nat) (f : Partition → Partition) : (s.updPart n f).cycle = s.cycle := rfl
@[simp] theorem State.updPart_pcap (n : Nat) (f : Partition → Partition) : (s.updPart n f).pcap = s.pcap := rfl
@[simp] theorem State.updPart_pset (n : Nat) (f : Partition → Partition) : (s.updPart n f).pset = s.pset := rfl
@[simp] theorem State.updPart_hepset (n : Nat) (f : Partition → Partition) : (s.updPart n f).hepset = s.hepset := rfl
@[simp] theorem State.updPart_ownId (n : Nat) (f : Partition → Partition) : (s.updPart n f).ownId = s.ownId := rfl
@[simp] theorem State.updPart_sram (n : Nat) (f : Partition → Partition) : (s.updPart n f).sram = s.sram := rfl
@[simp] theorem State.updPart_hbm (n : Nat) (f : Partition → Partition) : (s.updPart n f).hbm = s.hbm := rfl
@[simp] theorem State.updPart_hbmEpoch (n : Nat) (f : Partition → Partition) : (s.updPart n f).hbmEpoch = s.hbmEpoch := rfl
@[simp] theorem State.updPart_sramTags (n : Nat) (f : Partition → Partition) : (s.updPart n f).sramTags = s.sramTags := rfl
@[simp] theorem State.updPart_hbmTags (n : Nat) (f : Partition → Partition) : (s.updPart n f).hbmTags = s.hbmTags := rfl
@[simp] theorem State.updPart_hbmBad (n : Nat) (f : Partition → Partition) : (s.updPart n f).hbmBad = s.hbmBad := rfl
@[simp] theorem State.updPart_withdrawn (n : Nat) (f : Partition → Partition) : (s.updPart n f).withdrawn = s.withdrawn := rfl
@[simp] theorem State.updPart_fuses (n : Nat) (f : Partition → Partition) : (s.updPart n f).fuses = s.fuses := rfl
@[simp] theorem State.updPart_procs (n : Nat) (f : Partition → Partition) : (s.updPart n f).procs = s.procs := rfl
@[simp] theorem State.updPart_tiles (n : Nat) (f : Partition → Partition) : (s.updPart n f).tiles = s.tiles := rfl
@[simp] theorem State.updPart_eps (n : Nat) (f : Partition → Partition) : (s.updPart n f).eps = s.eps := rfl
@[simp] theorem State.updPart_hostEps (n : Nat) (f : Partition → Partition) : (s.updPart n f).hostEps = s.hostEps := rfl
@[simp] theorem State.updPart_net (n : Nat) (f : Partition → Partition) : (s.updPart n f).net = s.net := rfl
@[simp] theorem State.updPart_staged (n : Nat) (f : Partition → Partition) : (s.updPart n f).staged = s.staged := rfl
@[simp] theorem State.updPart_reqs (n : Nat) (f : Partition → Partition) : (s.updPart n f).reqs = s.reqs := rfl
@[simp] theorem State.updPart_binds (n : Nat) (f : Partition → Partition) : (s.updPart n f).binds = s.binds := rfl
@[simp] theorem State.updPart_moves (n : Nat) (f : Partition → Partition) : (s.updPart n f).moves = s.moves := rfl
@[simp] theorem State.updPart_kills (n : Nat) (f : Partition → Partition) : (s.updPart n f).kills = s.kills := rfl
@[simp] theorem State.updPart_remotes (n : Nat) (f : Partition → Partition) : (s.updPart n f).remotes = s.remotes := rfl
@[simp] theorem State.updPart_lltlb (n : Nat) (f : Partition → Partition) : (s.updPart n f).lltlb = s.lltlb := rfl
@[simp] theorem State.updPart_lanes (n : Nat) (f : Partition → Partition) : (s.updPart n f).lanes = s.lanes := rfl
@[simp] theorem State.updPart_links (n : Nat) (f : Partition → Partition) : (s.updPart n f).links = s.links := rfl
@[simp] theorem State.updPart_reach (n : Nat) (f : Partition → Partition) : (s.updPart n f).reach = s.reach := rfl
@[simp] theorem State.updPart_routes (n : Nat) (f : Partition → Partition) : (s.updPart n f).routes = s.routes := rfl
@[simp] theorem State.updPart_directPeers (n : Nat) (f : Partition → Partition) : (s.updPart n f).directPeers = s.directPeers := rfl
@[simp] theorem State.updPart_arbs (n : Nat) (f : Partition → Partition) : (s.updPart n f).arbs = s.arbs := rfl
@[simp] theorem State.updPart_fwQueue (n : Nat) (f : Partition → Partition) : (s.updPart n f).fwQueue = s.fwQueue := rfl
@[simp] theorem State.updPart_throttled (n : Nat) (f : Partition → Partition) : (s.updPart n f).throttled = s.throttled := rfl
@[simp] theorem State.updPart_stopped (n : Nat) (f : Partition → Partition) : (s.updPart n f).stopped = s.stopped := rfl
@[simp] theorem State.updPart_out (n : Nat) (f : Partition → Partition) : (s.updPart n f).out = s.out := rfl
@[simp] theorem State.updPart_running (n : Nat) (f : Partition → Partition) : (s.updPart n f).running = s.running := rfl
@[simp] theorem State.updPart_issueLeft (n : Nat) (f : Partition → Partition) : (s.updPart n f).issueLeft = s.issueLeft := rfl
@[simp] theorem State.updPart_events (n : Nat) (f : Partition → Partition) : (s.updPart n f).events = s.events := rfl
@[simp] theorem State.updPart_nextId (n : Nat) (f : Partition → Partition) : (s.updPart n f).nextId = s.nextId := rfl
@[simp] theorem State.updPart_freeCtr (n : Nat) (f : Partition → Partition) : (s.updPart n f).freeCtr = s.freeCtr := rfl

@[simp] theorem State.updEp_cycle (e : Nat) (f : Endpoint → Endpoint) : (s.updEp e f).cycle = s.cycle := rfl
@[simp] theorem State.updEp_pcap (e : Nat) (f : Endpoint → Endpoint) : (s.updEp e f).pcap = s.pcap := rfl
@[simp] theorem State.updEp_pset (e : Nat) (f : Endpoint → Endpoint) : (s.updEp e f).pset = s.pset := rfl
@[simp] theorem State.updEp_hepset (e : Nat) (f : Endpoint → Endpoint) : (s.updEp e f).hepset = s.hepset := rfl
@[simp] theorem State.updEp_ownId (e : Nat) (f : Endpoint → Endpoint) : (s.updEp e f).ownId = s.ownId := rfl
@[simp] theorem State.updEp_sram (e : Nat) (f : Endpoint → Endpoint) : (s.updEp e f).sram = s.sram := rfl
@[simp] theorem State.updEp_hbm (e : Nat) (f : Endpoint → Endpoint) : (s.updEp e f).hbm = s.hbm := rfl
@[simp] theorem State.updEp_hbmEpoch (e : Nat) (f : Endpoint → Endpoint) : (s.updEp e f).hbmEpoch = s.hbmEpoch := rfl
@[simp] theorem State.updEp_sramTags (e : Nat) (f : Endpoint → Endpoint) : (s.updEp e f).sramTags = s.sramTags := rfl
@[simp] theorem State.updEp_hbmTags (e : Nat) (f : Endpoint → Endpoint) : (s.updEp e f).hbmTags = s.hbmTags := rfl
@[simp] theorem State.updEp_hbmBad (e : Nat) (f : Endpoint → Endpoint) : (s.updEp e f).hbmBad = s.hbmBad := rfl
@[simp] theorem State.updEp_withdrawn (e : Nat) (f : Endpoint → Endpoint) : (s.updEp e f).withdrawn = s.withdrawn := rfl
@[simp] theorem State.updEp_fuses (e : Nat) (f : Endpoint → Endpoint) : (s.updEp e f).fuses = s.fuses := rfl
@[simp] theorem State.updEp_procs (e : Nat) (f : Endpoint → Endpoint) : (s.updEp e f).procs = s.procs := rfl
@[simp] theorem State.updEp_tiles (e : Nat) (f : Endpoint → Endpoint) : (s.updEp e f).tiles = s.tiles := rfl
@[simp] theorem State.updEp_parts (e : Nat) (f : Endpoint → Endpoint) : (s.updEp e f).parts = s.parts := rfl
@[simp] theorem State.updEp_hostEps (e : Nat) (f : Endpoint → Endpoint) : (s.updEp e f).hostEps = s.hostEps := rfl
@[simp] theorem State.updEp_net (e : Nat) (f : Endpoint → Endpoint) : (s.updEp e f).net = s.net := rfl
@[simp] theorem State.updEp_staged (e : Nat) (f : Endpoint → Endpoint) : (s.updEp e f).staged = s.staged := rfl
@[simp] theorem State.updEp_reqs (e : Nat) (f : Endpoint → Endpoint) : (s.updEp e f).reqs = s.reqs := rfl
@[simp] theorem State.updEp_binds (e : Nat) (f : Endpoint → Endpoint) : (s.updEp e f).binds = s.binds := rfl
@[simp] theorem State.updEp_moves (e : Nat) (f : Endpoint → Endpoint) : (s.updEp e f).moves = s.moves := rfl
@[simp] theorem State.updEp_kills (e : Nat) (f : Endpoint → Endpoint) : (s.updEp e f).kills = s.kills := rfl
@[simp] theorem State.updEp_remotes (e : Nat) (f : Endpoint → Endpoint) : (s.updEp e f).remotes = s.remotes := rfl
@[simp] theorem State.updEp_lltlb (e : Nat) (f : Endpoint → Endpoint) : (s.updEp e f).lltlb = s.lltlb := rfl
@[simp] theorem State.updEp_lanes (e : Nat) (f : Endpoint → Endpoint) : (s.updEp e f).lanes = s.lanes := rfl
@[simp] theorem State.updEp_links (e : Nat) (f : Endpoint → Endpoint) : (s.updEp e f).links = s.links := rfl
@[simp] theorem State.updEp_reach (e : Nat) (f : Endpoint → Endpoint) : (s.updEp e f).reach = s.reach := rfl
@[simp] theorem State.updEp_routes (e : Nat) (f : Endpoint → Endpoint) : (s.updEp e f).routes = s.routes := rfl
@[simp] theorem State.updEp_directPeers (e : Nat) (f : Endpoint → Endpoint) : (s.updEp e f).directPeers = s.directPeers := rfl
@[simp] theorem State.updEp_arbs (e : Nat) (f : Endpoint → Endpoint) : (s.updEp e f).arbs = s.arbs := rfl
@[simp] theorem State.updEp_fwQueue (e : Nat) (f : Endpoint → Endpoint) : (s.updEp e f).fwQueue = s.fwQueue := rfl
@[simp] theorem State.updEp_throttled (e : Nat) (f : Endpoint → Endpoint) : (s.updEp e f).throttled = s.throttled := rfl
@[simp] theorem State.updEp_stopped (e : Nat) (f : Endpoint → Endpoint) : (s.updEp e f).stopped = s.stopped := rfl
@[simp] theorem State.updEp_out (e : Nat) (f : Endpoint → Endpoint) : (s.updEp e f).out = s.out := rfl
@[simp] theorem State.updEp_running (e : Nat) (f : Endpoint → Endpoint) : (s.updEp e f).running = s.running := rfl
@[simp] theorem State.updEp_issueLeft (e : Nat) (f : Endpoint → Endpoint) : (s.updEp e f).issueLeft = s.issueLeft := rfl
@[simp] theorem State.updEp_events (e : Nat) (f : Endpoint → Endpoint) : (s.updEp e f).events = s.events := rfl
@[simp] theorem State.updEp_nextId (e : Nat) (f : Endpoint → Endpoint) : (s.updEp e f).nextId = s.nextId := rfl
@[simp] theorem State.updEp_freeCtr (e : Nat) (f : Endpoint → Endpoint) : (s.updEp e f).freeCtr = s.freeCtr := rfl

@[simp] theorem State.updLink_cycle (n q : Nat) (f : Link → Link) : (s.updLink n q f).cycle = s.cycle := rfl
@[simp] theorem State.updLink_pcap (n q : Nat) (f : Link → Link) : (s.updLink n q f).pcap = s.pcap := rfl
@[simp] theorem State.updLink_pset (n q : Nat) (f : Link → Link) : (s.updLink n q f).pset = s.pset := rfl
@[simp] theorem State.updLink_hepset (n q : Nat) (f : Link → Link) : (s.updLink n q f).hepset = s.hepset := rfl
@[simp] theorem State.updLink_ownId (n q : Nat) (f : Link → Link) : (s.updLink n q f).ownId = s.ownId := rfl
@[simp] theorem State.updLink_sram (n q : Nat) (f : Link → Link) : (s.updLink n q f).sram = s.sram := rfl
@[simp] theorem State.updLink_hbm (n q : Nat) (f : Link → Link) : (s.updLink n q f).hbm = s.hbm := rfl
@[simp] theorem State.updLink_hbmEpoch (n q : Nat) (f : Link → Link) : (s.updLink n q f).hbmEpoch = s.hbmEpoch := rfl
@[simp] theorem State.updLink_sramTags (n q : Nat) (f : Link → Link) : (s.updLink n q f).sramTags = s.sramTags := rfl
@[simp] theorem State.updLink_hbmTags (n q : Nat) (f : Link → Link) : (s.updLink n q f).hbmTags = s.hbmTags := rfl
@[simp] theorem State.updLink_hbmBad (n q : Nat) (f : Link → Link) : (s.updLink n q f).hbmBad = s.hbmBad := rfl
@[simp] theorem State.updLink_withdrawn (n q : Nat) (f : Link → Link) : (s.updLink n q f).withdrawn = s.withdrawn := rfl
@[simp] theorem State.updLink_fuses (n q : Nat) (f : Link → Link) : (s.updLink n q f).fuses = s.fuses := rfl
@[simp] theorem State.updLink_procs (n q : Nat) (f : Link → Link) : (s.updLink n q f).procs = s.procs := rfl
@[simp] theorem State.updLink_tiles (n q : Nat) (f : Link → Link) : (s.updLink n q f).tiles = s.tiles := rfl
@[simp] theorem State.updLink_parts (n q : Nat) (f : Link → Link) : (s.updLink n q f).parts = s.parts := rfl
@[simp] theorem State.updLink_eps (n q : Nat) (f : Link → Link) : (s.updLink n q f).eps = s.eps := rfl
@[simp] theorem State.updLink_hostEps (n q : Nat) (f : Link → Link) : (s.updLink n q f).hostEps = s.hostEps := rfl
@[simp] theorem State.updLink_net (n q : Nat) (f : Link → Link) : (s.updLink n q f).net = s.net := rfl
@[simp] theorem State.updLink_staged (n q : Nat) (f : Link → Link) : (s.updLink n q f).staged = s.staged := rfl
@[simp] theorem State.updLink_reqs (n q : Nat) (f : Link → Link) : (s.updLink n q f).reqs = s.reqs := rfl
@[simp] theorem State.updLink_binds (n q : Nat) (f : Link → Link) : (s.updLink n q f).binds = s.binds := rfl
@[simp] theorem State.updLink_moves (n q : Nat) (f : Link → Link) : (s.updLink n q f).moves = s.moves := rfl
@[simp] theorem State.updLink_kills (n q : Nat) (f : Link → Link) : (s.updLink n q f).kills = s.kills := rfl
@[simp] theorem State.updLink_remotes (n q : Nat) (f : Link → Link) : (s.updLink n q f).remotes = s.remotes := rfl
@[simp] theorem State.updLink_lltlb (n q : Nat) (f : Link → Link) : (s.updLink n q f).lltlb = s.lltlb := rfl
@[simp] theorem State.updLink_lanes (n q : Nat) (f : Link → Link) : (s.updLink n q f).lanes = s.lanes := rfl
@[simp] theorem State.updLink_reach (n q : Nat) (f : Link → Link) : (s.updLink n q f).reach = s.reach := rfl
@[simp] theorem State.updLink_routes (n q : Nat) (f : Link → Link) : (s.updLink n q f).routes = s.routes := rfl
@[simp] theorem State.updLink_directPeers (n q : Nat) (f : Link → Link) : (s.updLink n q f).directPeers = s.directPeers := rfl
@[simp] theorem State.updLink_arbs (n q : Nat) (f : Link → Link) : (s.updLink n q f).arbs = s.arbs := rfl
@[simp] theorem State.updLink_fwQueue (n q : Nat) (f : Link → Link) : (s.updLink n q f).fwQueue = s.fwQueue := rfl
@[simp] theorem State.updLink_throttled (n q : Nat) (f : Link → Link) : (s.updLink n q f).throttled = s.throttled := rfl
@[simp] theorem State.updLink_stopped (n q : Nat) (f : Link → Link) : (s.updLink n q f).stopped = s.stopped := rfl
@[simp] theorem State.updLink_out (n q : Nat) (f : Link → Link) : (s.updLink n q f).out = s.out := rfl
@[simp] theorem State.updLink_running (n q : Nat) (f : Link → Link) : (s.updLink n q f).running = s.running := rfl
@[simp] theorem State.updLink_issueLeft (n q : Nat) (f : Link → Link) : (s.updLink n q f).issueLeft = s.issueLeft := rfl
@[simp] theorem State.updLink_events (n q : Nat) (f : Link → Link) : (s.updLink n q f).events = s.events := rfl
@[simp] theorem State.updLink_nextId (n q : Nat) (f : Link → Link) : (s.updLink n q f).nextId = s.nextId := rfl
@[simp] theorem State.updLink_freeCtr (n q : Nat) (f : Link → Link) : (s.updLink n q f).freeCtr = s.freeCtr := rfl

@[simp] theorem State.updLane_cycle (l : Nat) (f : Lane → Lane) : (s.updLane l f).cycle = s.cycle := rfl
@[simp] theorem State.updLane_pcap (l : Nat) (f : Lane → Lane) : (s.updLane l f).pcap = s.pcap := rfl
@[simp] theorem State.updLane_pset (l : Nat) (f : Lane → Lane) : (s.updLane l f).pset = s.pset := rfl
@[simp] theorem State.updLane_hepset (l : Nat) (f : Lane → Lane) : (s.updLane l f).hepset = s.hepset := rfl
@[simp] theorem State.updLane_ownId (l : Nat) (f : Lane → Lane) : (s.updLane l f).ownId = s.ownId := rfl
@[simp] theorem State.updLane_sram (l : Nat) (f : Lane → Lane) : (s.updLane l f).sram = s.sram := rfl
@[simp] theorem State.updLane_hbm (l : Nat) (f : Lane → Lane) : (s.updLane l f).hbm = s.hbm := rfl
@[simp] theorem State.updLane_hbmEpoch (l : Nat) (f : Lane → Lane) : (s.updLane l f).hbmEpoch = s.hbmEpoch := rfl
@[simp] theorem State.updLane_sramTags (l : Nat) (f : Lane → Lane) : (s.updLane l f).sramTags = s.sramTags := rfl
@[simp] theorem State.updLane_hbmTags (l : Nat) (f : Lane → Lane) : (s.updLane l f).hbmTags = s.hbmTags := rfl
@[simp] theorem State.updLane_hbmBad (l : Nat) (f : Lane → Lane) : (s.updLane l f).hbmBad = s.hbmBad := rfl
@[simp] theorem State.updLane_withdrawn (l : Nat) (f : Lane → Lane) : (s.updLane l f).withdrawn = s.withdrawn := rfl
@[simp] theorem State.updLane_fuses (l : Nat) (f : Lane → Lane) : (s.updLane l f).fuses = s.fuses := rfl
@[simp] theorem State.updLane_procs (l : Nat) (f : Lane → Lane) : (s.updLane l f).procs = s.procs := rfl
@[simp] theorem State.updLane_tiles (l : Nat) (f : Lane → Lane) : (s.updLane l f).tiles = s.tiles := rfl
@[simp] theorem State.updLane_parts (l : Nat) (f : Lane → Lane) : (s.updLane l f).parts = s.parts := rfl
@[simp] theorem State.updLane_eps (l : Nat) (f : Lane → Lane) : (s.updLane l f).eps = s.eps := rfl
@[simp] theorem State.updLane_hostEps (l : Nat) (f : Lane → Lane) : (s.updLane l f).hostEps = s.hostEps := rfl
@[simp] theorem State.updLane_net (l : Nat) (f : Lane → Lane) : (s.updLane l f).net = s.net := rfl
@[simp] theorem State.updLane_staged (l : Nat) (f : Lane → Lane) : (s.updLane l f).staged = s.staged := rfl
@[simp] theorem State.updLane_reqs (l : Nat) (f : Lane → Lane) : (s.updLane l f).reqs = s.reqs := rfl
@[simp] theorem State.updLane_binds (l : Nat) (f : Lane → Lane) : (s.updLane l f).binds = s.binds := rfl
@[simp] theorem State.updLane_moves (l : Nat) (f : Lane → Lane) : (s.updLane l f).moves = s.moves := rfl
@[simp] theorem State.updLane_kills (l : Nat) (f : Lane → Lane) : (s.updLane l f).kills = s.kills := rfl
@[simp] theorem State.updLane_remotes (l : Nat) (f : Lane → Lane) : (s.updLane l f).remotes = s.remotes := rfl
@[simp] theorem State.updLane_lltlb (l : Nat) (f : Lane → Lane) : (s.updLane l f).lltlb = s.lltlb := rfl
@[simp] theorem State.updLane_links (l : Nat) (f : Lane → Lane) : (s.updLane l f).links = s.links := rfl
@[simp] theorem State.updLane_reach (l : Nat) (f : Lane → Lane) : (s.updLane l f).reach = s.reach := rfl
@[simp] theorem State.updLane_routes (l : Nat) (f : Lane → Lane) : (s.updLane l f).routes = s.routes := rfl
@[simp] theorem State.updLane_directPeers (l : Nat) (f : Lane → Lane) : (s.updLane l f).directPeers = s.directPeers := rfl
@[simp] theorem State.updLane_arbs (l : Nat) (f : Lane → Lane) : (s.updLane l f).arbs = s.arbs := rfl
@[simp] theorem State.updLane_fwQueue (l : Nat) (f : Lane → Lane) : (s.updLane l f).fwQueue = s.fwQueue := rfl
@[simp] theorem State.updLane_throttled (l : Nat) (f : Lane → Lane) : (s.updLane l f).throttled = s.throttled := rfl
@[simp] theorem State.updLane_stopped (l : Nat) (f : Lane → Lane) : (s.updLane l f).stopped = s.stopped := rfl
@[simp] theorem State.updLane_out (l : Nat) (f : Lane → Lane) : (s.updLane l f).out = s.out := rfl
@[simp] theorem State.updLane_running (l : Nat) (f : Lane → Lane) : (s.updLane l f).running = s.running := rfl
@[simp] theorem State.updLane_issueLeft (l : Nat) (f : Lane → Lane) : (s.updLane l f).issueLeft = s.issueLeft := rfl
@[simp] theorem State.updLane_events (l : Nat) (f : Lane → Lane) : (s.updLane l f).events = s.events := rfl
@[simp] theorem State.updLane_nextId (l : Nat) (f : Lane → Lane) : (s.updLane l f).nextId = s.nextId := rfl
@[simp] theorem State.updLane_freeCtr (l : Nat) (f : Lane → Lane) : (s.updLane l f).freeCtr = s.freeCtr := rfl

@[simp] theorem State.afterCycles_cycle (n : Nat) (i : Instr) : (s.afterCycles n i).cycle = s.cycle := rfl
@[simp] theorem State.afterCycles_pcap (n : Nat) (i : Instr) : (s.afterCycles n i).pcap = s.pcap := rfl
@[simp] theorem State.afterCycles_pset (n : Nat) (i : Instr) : (s.afterCycles n i).pset = s.pset := rfl
@[simp] theorem State.afterCycles_hepset (n : Nat) (i : Instr) : (s.afterCycles n i).hepset = s.hepset := rfl
@[simp] theorem State.afterCycles_ownId (n : Nat) (i : Instr) : (s.afterCycles n i).ownId = s.ownId := rfl
@[simp] theorem State.afterCycles_sram (n : Nat) (i : Instr) : (s.afterCycles n i).sram = s.sram := rfl
@[simp] theorem State.afterCycles_hbm (n : Nat) (i : Instr) : (s.afterCycles n i).hbm = s.hbm := rfl
@[simp] theorem State.afterCycles_hbmEpoch (n : Nat) (i : Instr) : (s.afterCycles n i).hbmEpoch = s.hbmEpoch := rfl
@[simp] theorem State.afterCycles_sramTags (n : Nat) (i : Instr) : (s.afterCycles n i).sramTags = s.sramTags := rfl
@[simp] theorem State.afterCycles_hbmTags (n : Nat) (i : Instr) : (s.afterCycles n i).hbmTags = s.hbmTags := rfl
@[simp] theorem State.afterCycles_hbmBad (n : Nat) (i : Instr) : (s.afterCycles n i).hbmBad = s.hbmBad := rfl
@[simp] theorem State.afterCycles_withdrawn (n : Nat) (i : Instr) : (s.afterCycles n i).withdrawn = s.withdrawn := rfl
@[simp] theorem State.afterCycles_fuses (n : Nat) (i : Instr) : (s.afterCycles n i).fuses = s.fuses := rfl
@[simp] theorem State.afterCycles_procs (n : Nat) (i : Instr) : (s.afterCycles n i).procs = s.procs := rfl
@[simp] theorem State.afterCycles_tiles (n : Nat) (i : Instr) : (s.afterCycles n i).tiles = s.tiles := rfl
@[simp] theorem State.afterCycles_parts (n : Nat) (i : Instr) : (s.afterCycles n i).parts = s.parts := rfl
@[simp] theorem State.afterCycles_eps (n : Nat) (i : Instr) : (s.afterCycles n i).eps = s.eps := rfl
@[simp] theorem State.afterCycles_hostEps (n : Nat) (i : Instr) : (s.afterCycles n i).hostEps = s.hostEps := rfl
@[simp] theorem State.afterCycles_net (n : Nat) (i : Instr) : (s.afterCycles n i).net = s.net := rfl
@[simp] theorem State.afterCycles_staged (n : Nat) (i : Instr) : (s.afterCycles n i).staged = s.staged := rfl
@[simp] theorem State.afterCycles_reqs (n : Nat) (i : Instr) : (s.afterCycles n i).reqs = s.reqs := rfl
@[simp] theorem State.afterCycles_binds (n : Nat) (i : Instr) : (s.afterCycles n i).binds = s.binds := rfl
@[simp] theorem State.afterCycles_moves (n : Nat) (i : Instr) : (s.afterCycles n i).moves = s.moves := rfl
@[simp] theorem State.afterCycles_kills (n : Nat) (i : Instr) : (s.afterCycles n i).kills = s.kills := rfl
@[simp] theorem State.afterCycles_remotes (n : Nat) (i : Instr) : (s.afterCycles n i).remotes = s.remotes := rfl
@[simp] theorem State.afterCycles_lltlb (n : Nat) (i : Instr) : (s.afterCycles n i).lltlb = s.lltlb := rfl
@[simp] theorem State.afterCycles_lanes (n : Nat) (i : Instr) : (s.afterCycles n i).lanes = s.lanes := rfl
@[simp] theorem State.afterCycles_links (n : Nat) (i : Instr) : (s.afterCycles n i).links = s.links := rfl
@[simp] theorem State.afterCycles_reach (n : Nat) (i : Instr) : (s.afterCycles n i).reach = s.reach := rfl
@[simp] theorem State.afterCycles_routes (n : Nat) (i : Instr) : (s.afterCycles n i).routes = s.routes := rfl
@[simp] theorem State.afterCycles_directPeers (n : Nat) (i : Instr) : (s.afterCycles n i).directPeers = s.directPeers := rfl
@[simp] theorem State.afterCycles_arbs (n : Nat) (i : Instr) : (s.afterCycles n i).arbs = s.arbs := rfl
@[simp] theorem State.afterCycles_fwQueue (n : Nat) (i : Instr) : (s.afterCycles n i).fwQueue = s.fwQueue := rfl
@[simp] theorem State.afterCycles_throttled (n : Nat) (i : Instr) : (s.afterCycles n i).throttled = s.throttled := rfl
@[simp] theorem State.afterCycles_stopped (n : Nat) (i : Instr) : (s.afterCycles n i).stopped = s.stopped := rfl
@[simp] theorem State.afterCycles_out (n : Nat) (i : Instr) : (s.afterCycles n i).out = s.out := rfl
@[simp] theorem State.afterCycles_running (n : Nat) (i : Instr) : (s.afterCycles n i).running = s.running := rfl
@[simp] theorem State.afterCycles_issueLeft (n : Nat) (i : Instr) : (s.afterCycles n i).issueLeft = s.issueLeft := rfl
@[simp] theorem State.afterCycles_nextId (n : Nat) (i : Instr) : (s.afterCycles n i).nextId = s.nextId := rfl
@[simp] theorem State.afterCycles_freeCtr (n : Nat) (i : Instr) : (s.afterCycles n i).freeCtr = s.freeCtr := rfl

@[simp] theorem State.cancel_cycle (i : Instr) : (s.cancel i).cycle = s.cycle := rfl
@[simp] theorem State.cancel_pcap (i : Instr) : (s.cancel i).pcap = s.pcap := rfl
@[simp] theorem State.cancel_pset (i : Instr) : (s.cancel i).pset = s.pset := rfl
@[simp] theorem State.cancel_hepset (i : Instr) : (s.cancel i).hepset = s.hepset := rfl
@[simp] theorem State.cancel_ownId (i : Instr) : (s.cancel i).ownId = s.ownId := rfl
@[simp] theorem State.cancel_sram (i : Instr) : (s.cancel i).sram = s.sram := rfl
@[simp] theorem State.cancel_hbm (i : Instr) : (s.cancel i).hbm = s.hbm := rfl
@[simp] theorem State.cancel_hbmEpoch (i : Instr) : (s.cancel i).hbmEpoch = s.hbmEpoch := rfl
@[simp] theorem State.cancel_sramTags (i : Instr) : (s.cancel i).sramTags = s.sramTags := rfl
@[simp] theorem State.cancel_hbmTags (i : Instr) : (s.cancel i).hbmTags = s.hbmTags := rfl
@[simp] theorem State.cancel_hbmBad (i : Instr) : (s.cancel i).hbmBad = s.hbmBad := rfl
@[simp] theorem State.cancel_withdrawn (i : Instr) : (s.cancel i).withdrawn = s.withdrawn := rfl
@[simp] theorem State.cancel_fuses (i : Instr) : (s.cancel i).fuses = s.fuses := rfl
@[simp] theorem State.cancel_procs (i : Instr) : (s.cancel i).procs = s.procs := rfl
@[simp] theorem State.cancel_tiles (i : Instr) : (s.cancel i).tiles = s.tiles := rfl
@[simp] theorem State.cancel_parts (i : Instr) : (s.cancel i).parts = s.parts := rfl
@[simp] theorem State.cancel_eps (i : Instr) : (s.cancel i).eps = s.eps := rfl
@[simp] theorem State.cancel_hostEps (i : Instr) : (s.cancel i).hostEps = s.hostEps := rfl
@[simp] theorem State.cancel_net (i : Instr) : (s.cancel i).net = s.net := rfl
@[simp] theorem State.cancel_staged (i : Instr) : (s.cancel i).staged = s.staged := rfl
@[simp] theorem State.cancel_reqs (i : Instr) : (s.cancel i).reqs = s.reqs := rfl
@[simp] theorem State.cancel_binds (i : Instr) : (s.cancel i).binds = s.binds := rfl
@[simp] theorem State.cancel_moves (i : Instr) : (s.cancel i).moves = s.moves := rfl
@[simp] theorem State.cancel_kills (i : Instr) : (s.cancel i).kills = s.kills := rfl
@[simp] theorem State.cancel_remotes (i : Instr) : (s.cancel i).remotes = s.remotes := rfl
@[simp] theorem State.cancel_lltlb (i : Instr) : (s.cancel i).lltlb = s.lltlb := rfl
@[simp] theorem State.cancel_lanes (i : Instr) : (s.cancel i).lanes = s.lanes := rfl
@[simp] theorem State.cancel_links (i : Instr) : (s.cancel i).links = s.links := rfl
@[simp] theorem State.cancel_reach (i : Instr) : (s.cancel i).reach = s.reach := rfl
@[simp] theorem State.cancel_routes (i : Instr) : (s.cancel i).routes = s.routes := rfl
@[simp] theorem State.cancel_directPeers (i : Instr) : (s.cancel i).directPeers = s.directPeers := rfl
@[simp] theorem State.cancel_arbs (i : Instr) : (s.cancel i).arbs = s.arbs := rfl
@[simp] theorem State.cancel_fwQueue (i : Instr) : (s.cancel i).fwQueue = s.fwQueue := rfl
@[simp] theorem State.cancel_throttled (i : Instr) : (s.cancel i).throttled = s.throttled := rfl
@[simp] theorem State.cancel_stopped (i : Instr) : (s.cancel i).stopped = s.stopped := rfl
@[simp] theorem State.cancel_out (i : Instr) : (s.cancel i).out = s.out := rfl
@[simp] theorem State.cancel_running (i : Instr) : (s.cancel i).running = s.running := rfl
@[simp] theorem State.cancel_issueLeft (i : Instr) : (s.cancel i).issueLeft = s.issueLeft := rfl
@[simp] theorem State.cancel_nextId (i : Instr) : (s.cancel i).nextId = s.nextId := rfl
@[simp] theorem State.cancel_freeCtr (i : Instr) : (s.cancel i).freeCtr = s.freeCtr := rfl

@[simp] theorem State.later_cycle (i : Instr) : (s.later i).cycle = s.cycle := rfl
@[simp] theorem State.later_pcap (i : Instr) : (s.later i).pcap = s.pcap := rfl
@[simp] theorem State.later_pset (i : Instr) : (s.later i).pset = s.pset := rfl
@[simp] theorem State.later_hepset (i : Instr) : (s.later i).hepset = s.hepset := rfl
@[simp] theorem State.later_ownId (i : Instr) : (s.later i).ownId = s.ownId := rfl
@[simp] theorem State.later_sram (i : Instr) : (s.later i).sram = s.sram := rfl
@[simp] theorem State.later_hbm (i : Instr) : (s.later i).hbm = s.hbm := rfl
@[simp] theorem State.later_hbmEpoch (i : Instr) : (s.later i).hbmEpoch = s.hbmEpoch := rfl
@[simp] theorem State.later_sramTags (i : Instr) : (s.later i).sramTags = s.sramTags := rfl
@[simp] theorem State.later_hbmTags (i : Instr) : (s.later i).hbmTags = s.hbmTags := rfl
@[simp] theorem State.later_hbmBad (i : Instr) : (s.later i).hbmBad = s.hbmBad := rfl
@[simp] theorem State.later_withdrawn (i : Instr) : (s.later i).withdrawn = s.withdrawn := rfl
@[simp] theorem State.later_fuses (i : Instr) : (s.later i).fuses = s.fuses := rfl
@[simp] theorem State.later_procs (i : Instr) : (s.later i).procs = s.procs := rfl
@[simp] theorem State.later_tiles (i : Instr) : (s.later i).tiles = s.tiles := rfl
@[simp] theorem State.later_parts (i : Instr) : (s.later i).parts = s.parts := rfl
@[simp] theorem State.later_eps (i : Instr) : (s.later i).eps = s.eps := rfl
@[simp] theorem State.later_hostEps (i : Instr) : (s.later i).hostEps = s.hostEps := rfl
@[simp] theorem State.later_net (i : Instr) : (s.later i).net = s.net := rfl
@[simp] theorem State.later_staged (i : Instr) : (s.later i).staged = s.staged := rfl
@[simp] theorem State.later_reqs (i : Instr) : (s.later i).reqs = s.reqs := rfl
@[simp] theorem State.later_binds (i : Instr) : (s.later i).binds = s.binds := rfl
@[simp] theorem State.later_moves (i : Instr) : (s.later i).moves = s.moves := rfl
@[simp] theorem State.later_kills (i : Instr) : (s.later i).kills = s.kills := rfl
@[simp] theorem State.later_remotes (i : Instr) : (s.later i).remotes = s.remotes := rfl
@[simp] theorem State.later_lltlb (i : Instr) : (s.later i).lltlb = s.lltlb := rfl
@[simp] theorem State.later_lanes (i : Instr) : (s.later i).lanes = s.lanes := rfl
@[simp] theorem State.later_links (i : Instr) : (s.later i).links = s.links := rfl
@[simp] theorem State.later_reach (i : Instr) : (s.later i).reach = s.reach := rfl
@[simp] theorem State.later_routes (i : Instr) : (s.later i).routes = s.routes := rfl
@[simp] theorem State.later_directPeers (i : Instr) : (s.later i).directPeers = s.directPeers := rfl
@[simp] theorem State.later_arbs (i : Instr) : (s.later i).arbs = s.arbs := rfl
@[simp] theorem State.later_fwQueue (i : Instr) : (s.later i).fwQueue = s.fwQueue := rfl
@[simp] theorem State.later_throttled (i : Instr) : (s.later i).throttled = s.throttled := rfl
@[simp] theorem State.later_stopped (i : Instr) : (s.later i).stopped = s.stopped := rfl
@[simp] theorem State.later_out (i : Instr) : (s.later i).out = s.out := rfl
@[simp] theorem State.later_running (i : Instr) : (s.later i).running = s.running := rfl
@[simp] theorem State.later_issueLeft (i : Instr) : (s.later i).issueLeft = s.issueLeft := rfl
@[simp] theorem State.later_nextId (i : Instr) : (s.later i).nextId = s.nextId := rfl

@[simp] theorem State.within_cycle (n : Nat) (i : Instr) : (s.within n i).cycle = s.cycle := rfl
@[simp] theorem State.within_pcap (n : Nat) (i : Instr) : (s.within n i).pcap = s.pcap := rfl
@[simp] theorem State.within_pset (n : Nat) (i : Instr) : (s.within n i).pset = s.pset := rfl
@[simp] theorem State.within_hepset (n : Nat) (i : Instr) : (s.within n i).hepset = s.hepset := rfl
@[simp] theorem State.within_ownId (n : Nat) (i : Instr) : (s.within n i).ownId = s.ownId := rfl
@[simp] theorem State.within_sram (n : Nat) (i : Instr) : (s.within n i).sram = s.sram := rfl
@[simp] theorem State.within_hbm (n : Nat) (i : Instr) : (s.within n i).hbm = s.hbm := rfl
@[simp] theorem State.within_hbmEpoch (n : Nat) (i : Instr) : (s.within n i).hbmEpoch = s.hbmEpoch := rfl
@[simp] theorem State.within_sramTags (n : Nat) (i : Instr) : (s.within n i).sramTags = s.sramTags := rfl
@[simp] theorem State.within_hbmTags (n : Nat) (i : Instr) : (s.within n i).hbmTags = s.hbmTags := rfl
@[simp] theorem State.within_hbmBad (n : Nat) (i : Instr) : (s.within n i).hbmBad = s.hbmBad := rfl
@[simp] theorem State.within_withdrawn (n : Nat) (i : Instr) : (s.within n i).withdrawn = s.withdrawn := rfl
@[simp] theorem State.within_fuses (n : Nat) (i : Instr) : (s.within n i).fuses = s.fuses := rfl
@[simp] theorem State.within_procs (n : Nat) (i : Instr) : (s.within n i).procs = s.procs := rfl
@[simp] theorem State.within_tiles (n : Nat) (i : Instr) : (s.within n i).tiles = s.tiles := rfl
@[simp] theorem State.within_parts (n : Nat) (i : Instr) : (s.within n i).parts = s.parts := rfl
@[simp] theorem State.within_eps (n : Nat) (i : Instr) : (s.within n i).eps = s.eps := rfl
@[simp] theorem State.within_hostEps (n : Nat) (i : Instr) : (s.within n i).hostEps = s.hostEps := rfl
@[simp] theorem State.within_net (n : Nat) (i : Instr) : (s.within n i).net = s.net := rfl
@[simp] theorem State.within_staged (n : Nat) (i : Instr) : (s.within n i).staged = s.staged := rfl
@[simp] theorem State.within_reqs (n : Nat) (i : Instr) : (s.within n i).reqs = s.reqs := rfl
@[simp] theorem State.within_binds (n : Nat) (i : Instr) : (s.within n i).binds = s.binds := rfl
@[simp] theorem State.within_moves (n : Nat) (i : Instr) : (s.within n i).moves = s.moves := rfl
@[simp] theorem State.within_kills (n : Nat) (i : Instr) : (s.within n i).kills = s.kills := rfl
@[simp] theorem State.within_remotes (n : Nat) (i : Instr) : (s.within n i).remotes = s.remotes := rfl
@[simp] theorem State.within_lltlb (n : Nat) (i : Instr) : (s.within n i).lltlb = s.lltlb := rfl
@[simp] theorem State.within_lanes (n : Nat) (i : Instr) : (s.within n i).lanes = s.lanes := rfl
@[simp] theorem State.within_links (n : Nat) (i : Instr) : (s.within n i).links = s.links := rfl
@[simp] theorem State.within_reach (n : Nat) (i : Instr) : (s.within n i).reach = s.reach := rfl
@[simp] theorem State.within_routes (n : Nat) (i : Instr) : (s.within n i).routes = s.routes := rfl
@[simp] theorem State.within_directPeers (n : Nat) (i : Instr) : (s.within n i).directPeers = s.directPeers := rfl
@[simp] theorem State.within_arbs (n : Nat) (i : Instr) : (s.within n i).arbs = s.arbs := rfl
@[simp] theorem State.within_fwQueue (n : Nat) (i : Instr) : (s.within n i).fwQueue = s.fwQueue := rfl
@[simp] theorem State.within_throttled (n : Nat) (i : Instr) : (s.within n i).throttled = s.throttled := rfl
@[simp] theorem State.within_stopped (n : Nat) (i : Instr) : (s.within n i).stopped = s.stopped := rfl
@[simp] theorem State.within_out (n : Nat) (i : Instr) : (s.within n i).out = s.out := rfl
@[simp] theorem State.within_running (n : Nat) (i : Instr) : (s.within n i).running = s.running := rfl
@[simp] theorem State.within_issueLeft (n : Nat) (i : Instr) : (s.within n i).issueLeft = s.issueLeft := rfl
@[simp] theorem State.within_nextId (n : Nat) (i : Instr) : (s.within n i).nextId = s.nextId := rfl

@[simp] theorem State.laterBehind_cycle (same : Instr → Bool) (i : Instr) : (s.laterBehind same i).cycle = s.cycle := rfl
@[simp] theorem State.laterBehind_pcap (same : Instr → Bool) (i : Instr) : (s.laterBehind same i).pcap = s.pcap := rfl
@[simp] theorem State.laterBehind_pset (same : Instr → Bool) (i : Instr) : (s.laterBehind same i).pset = s.pset := rfl
@[simp] theorem State.laterBehind_hepset (same : Instr → Bool) (i : Instr) : (s.laterBehind same i).hepset = s.hepset := rfl
@[simp] theorem State.laterBehind_ownId (same : Instr → Bool) (i : Instr) : (s.laterBehind same i).ownId = s.ownId := rfl
@[simp] theorem State.laterBehind_sram (same : Instr → Bool) (i : Instr) : (s.laterBehind same i).sram = s.sram := rfl
@[simp] theorem State.laterBehind_hbm (same : Instr → Bool) (i : Instr) : (s.laterBehind same i).hbm = s.hbm := rfl
@[simp] theorem State.laterBehind_hbmEpoch (same : Instr → Bool) (i : Instr) : (s.laterBehind same i).hbmEpoch = s.hbmEpoch := rfl
@[simp] theorem State.laterBehind_sramTags (same : Instr → Bool) (i : Instr) : (s.laterBehind same i).sramTags = s.sramTags := rfl
@[simp] theorem State.laterBehind_hbmTags (same : Instr → Bool) (i : Instr) : (s.laterBehind same i).hbmTags = s.hbmTags := rfl
@[simp] theorem State.laterBehind_hbmBad (same : Instr → Bool) (i : Instr) : (s.laterBehind same i).hbmBad = s.hbmBad := rfl
@[simp] theorem State.laterBehind_withdrawn (same : Instr → Bool) (i : Instr) : (s.laterBehind same i).withdrawn = s.withdrawn := rfl
@[simp] theorem State.laterBehind_fuses (same : Instr → Bool) (i : Instr) : (s.laterBehind same i).fuses = s.fuses := rfl
@[simp] theorem State.laterBehind_procs (same : Instr → Bool) (i : Instr) : (s.laterBehind same i).procs = s.procs := rfl
@[simp] theorem State.laterBehind_tiles (same : Instr → Bool) (i : Instr) : (s.laterBehind same i).tiles = s.tiles := rfl
@[simp] theorem State.laterBehind_parts (same : Instr → Bool) (i : Instr) : (s.laterBehind same i).parts = s.parts := rfl
@[simp] theorem State.laterBehind_eps (same : Instr → Bool) (i : Instr) : (s.laterBehind same i).eps = s.eps := rfl
@[simp] theorem State.laterBehind_hostEps (same : Instr → Bool) (i : Instr) : (s.laterBehind same i).hostEps = s.hostEps := rfl
@[simp] theorem State.laterBehind_net (same : Instr → Bool) (i : Instr) : (s.laterBehind same i).net = s.net := rfl
@[simp] theorem State.laterBehind_staged (same : Instr → Bool) (i : Instr) : (s.laterBehind same i).staged = s.staged := rfl
@[simp] theorem State.laterBehind_reqs (same : Instr → Bool) (i : Instr) : (s.laterBehind same i).reqs = s.reqs := rfl
@[simp] theorem State.laterBehind_binds (same : Instr → Bool) (i : Instr) : (s.laterBehind same i).binds = s.binds := rfl
@[simp] theorem State.laterBehind_moves (same : Instr → Bool) (i : Instr) : (s.laterBehind same i).moves = s.moves := rfl
@[simp] theorem State.laterBehind_kills (same : Instr → Bool) (i : Instr) : (s.laterBehind same i).kills = s.kills := rfl
@[simp] theorem State.laterBehind_remotes (same : Instr → Bool) (i : Instr) : (s.laterBehind same i).remotes = s.remotes := rfl
@[simp] theorem State.laterBehind_lltlb (same : Instr → Bool) (i : Instr) : (s.laterBehind same i).lltlb = s.lltlb := rfl
@[simp] theorem State.laterBehind_lanes (same : Instr → Bool) (i : Instr) : (s.laterBehind same i).lanes = s.lanes := rfl
@[simp] theorem State.laterBehind_links (same : Instr → Bool) (i : Instr) : (s.laterBehind same i).links = s.links := rfl
@[simp] theorem State.laterBehind_reach (same : Instr → Bool) (i : Instr) : (s.laterBehind same i).reach = s.reach := rfl
@[simp] theorem State.laterBehind_routes (same : Instr → Bool) (i : Instr) : (s.laterBehind same i).routes = s.routes := rfl
@[simp] theorem State.laterBehind_directPeers (same : Instr → Bool) (i : Instr) : (s.laterBehind same i).directPeers = s.directPeers := rfl
@[simp] theorem State.laterBehind_arbs (same : Instr → Bool) (i : Instr) : (s.laterBehind same i).arbs = s.arbs := rfl
@[simp] theorem State.laterBehind_fwQueue (same : Instr → Bool) (i : Instr) : (s.laterBehind same i).fwQueue = s.fwQueue := rfl
@[simp] theorem State.laterBehind_throttled (same : Instr → Bool) (i : Instr) : (s.laterBehind same i).throttled = s.throttled := rfl
@[simp] theorem State.laterBehind_stopped (same : Instr → Bool) (i : Instr) : (s.laterBehind same i).stopped = s.stopped := rfl
@[simp] theorem State.laterBehind_out (same : Instr → Bool) (i : Instr) : (s.laterBehind same i).out = s.out := rfl
@[simp] theorem State.laterBehind_running (same : Instr → Bool) (i : Instr) : (s.laterBehind same i).running = s.running := rfl
@[simp] theorem State.laterBehind_issueLeft (same : Instr → Bool) (i : Instr) : (s.laterBehind same i).issueLeft = s.issueLeft := rfl
@[simp] theorem State.laterBehind_nextId (same : Instr → Bool) (i : Instr) : (s.laterBehind same i).nextId = s.nextId := rfl

@[simp] theorem State.setProc_tile (h : Nat) (p : Proc) (k : Nat) : (s.setProc h p).tile k = s.tile k := rfl
@[simp] theorem State.setProc_part (h : Nat) (p : Proc) (k : Nat) : (s.setProc h p).part k = s.part k := rfl
@[simp] theorem State.setProc_ep (h : Nat) (p : Proc) (k : Nat) : (s.setProc h p).ep k = s.ep k := rfl
@[simp] theorem State.setProc_link (h : Nat) (p : Proc) (k m : Nat) : (s.setProc h p).link k m = s.link k m := rfl
@[simp] theorem State.setProc_lane (h : Nat) (p : Proc) (k : Nat) : (s.setProc h p).lane k = s.lane k := rfl
@[simp] theorem State.setProc_hbmByte (h : Nat) (p : Proc) (k m : Nat) : (s.setProc h p).hbmByte k m = s.hbmByte k m := rfl
@[simp] theorem State.setProc_sramByte (h : Nat) (p : Proc) (k : Nat) : (s.setProc h p).sramByte k = s.sramByte k := rfl
@[simp] theorem State.updProc_tile (h : Nat) (f : Proc → Proc) (k : Nat) : (s.updProc h f).tile k = s.tile k := rfl
@[simp] theorem State.updProc_part (h : Nat) (f : Proc → Proc) (k : Nat) : (s.updProc h f).part k = s.part k := rfl
@[simp] theorem State.updProc_ep (h : Nat) (f : Proc → Proc) (k : Nat) : (s.updProc h f).ep k = s.ep k := rfl
@[simp] theorem State.updProc_link (h : Nat) (f : Proc → Proc) (k m : Nat) : (s.updProc h f).link k m = s.link k m := rfl
@[simp] theorem State.updProc_lane (h : Nat) (f : Proc → Proc) (k : Nat) : (s.updProc h f).lane k = s.lane k := rfl
@[simp] theorem State.updProc_hbmByte (h : Nat) (f : Proc → Proc) (k m : Nat) : (s.updProc h f).hbmByte k m = s.hbmByte k m := rfl
@[simp] theorem State.updProc_sramByte (h : Nat) (f : Proc → Proc) (k : Nat) : (s.updProc h f).sramByte k = s.sramByte k := rfl
@[simp] theorem State.updTile_proc (n : Nat) (f : Tile → Tile) (k : Nat) : (s.updTile n f).proc k = s.proc k := rfl
@[simp] theorem State.updTile_part (n : Nat) (f : Tile → Tile) (k : Nat) : (s.updTile n f).part k = s.part k := rfl
@[simp] theorem State.updTile_ep (n : Nat) (f : Tile → Tile) (k : Nat) : (s.updTile n f).ep k = s.ep k := rfl
@[simp] theorem State.updTile_link (n : Nat) (f : Tile → Tile) (k m : Nat) : (s.updTile n f).link k m = s.link k m := rfl
@[simp] theorem State.updTile_lane (n : Nat) (f : Tile → Tile) (k : Nat) : (s.updTile n f).lane k = s.lane k := rfl
@[simp] theorem State.updTile_hbmByte (n : Nat) (f : Tile → Tile) (k m : Nat) : (s.updTile n f).hbmByte k m = s.hbmByte k m := rfl
@[simp] theorem State.updTile_sramByte (n : Nat) (f : Tile → Tile) (k : Nat) : (s.updTile n f).sramByte k = s.sramByte k := rfl
@[simp] theorem State.updTile_me (n : Nat) (f : Tile → Tile) : (s.updTile n f).me = s.me := rfl
@[simp] theorem State.updTile_reg (n : Nat) (f : Tile → Tile) (r : BitVec 5) : (s.updTile n f).reg r = s.reg r := rfl
@[simp] theorem State.updPart_proc (n : Nat) (f : Partition → Partition) (k : Nat) : (s.updPart n f).proc k = s.proc k := rfl
@[simp] theorem State.updPart_tile (n : Nat) (f : Partition → Partition) (k : Nat) : (s.updPart n f).tile k = s.tile k := rfl
@[simp] theorem State.updPart_ep (n : Nat) (f : Partition → Partition) (k : Nat) : (s.updPart n f).ep k = s.ep k := rfl
@[simp] theorem State.updPart_link (n : Nat) (f : Partition → Partition) (k m : Nat) : (s.updPart n f).link k m = s.link k m := rfl
@[simp] theorem State.updPart_lane (n : Nat) (f : Partition → Partition) (k : Nat) : (s.updPart n f).lane k = s.lane k := rfl
@[simp] theorem State.updPart_sramByte (n : Nat) (f : Partition → Partition) (k : Nat) : (s.updPart n f).sramByte k = s.sramByte k := rfl
@[simp] theorem State.updPart_me (n : Nat) (f : Partition → Partition) : (s.updPart n f).me = s.me := rfl
@[simp] theorem State.updPart_reg (n : Nat) (f : Partition → Partition) (r : BitVec 5) : (s.updPart n f).reg r = s.reg r := rfl
@[simp] theorem State.updEp_proc (e : Nat) (f : Endpoint → Endpoint) (k : Nat) : (s.updEp e f).proc k = s.proc k := rfl
@[simp] theorem State.updEp_tile (e : Nat) (f : Endpoint → Endpoint) (k : Nat) : (s.updEp e f).tile k = s.tile k := rfl
@[simp] theorem State.updEp_part (e : Nat) (f : Endpoint → Endpoint) (k : Nat) : (s.updEp e f).part k = s.part k := rfl
@[simp] theorem State.updEp_link (e : Nat) (f : Endpoint → Endpoint) (k m : Nat) : (s.updEp e f).link k m = s.link k m := rfl
@[simp] theorem State.updEp_lane (e : Nat) (f : Endpoint → Endpoint) (k : Nat) : (s.updEp e f).lane k = s.lane k := rfl
@[simp] theorem State.updEp_hbmByte (e : Nat) (f : Endpoint → Endpoint) (k m : Nat) : (s.updEp e f).hbmByte k m = s.hbmByte k m := rfl
@[simp] theorem State.updEp_sramByte (e : Nat) (f : Endpoint → Endpoint) (k : Nat) : (s.updEp e f).sramByte k = s.sramByte k := rfl
@[simp] theorem State.updEp_me (e : Nat) (f : Endpoint → Endpoint) : (s.updEp e f).me = s.me := rfl
@[simp] theorem State.updEp_reg (e : Nat) (f : Endpoint → Endpoint) (r : BitVec 5) : (s.updEp e f).reg r = s.reg r := rfl
@[simp] theorem State.updLink_proc (n q : Nat) (f : Link → Link) (k : Nat) : (s.updLink n q f).proc k = s.proc k := rfl
@[simp] theorem State.updLink_tile (n q : Nat) (f : Link → Link) (k : Nat) : (s.updLink n q f).tile k = s.tile k := rfl
@[simp] theorem State.updLink_part (n q : Nat) (f : Link → Link) (k : Nat) : (s.updLink n q f).part k = s.part k := rfl
@[simp] theorem State.updLink_ep (n q : Nat) (f : Link → Link) (k : Nat) : (s.updLink n q f).ep k = s.ep k := rfl
@[simp] theorem State.updLink_lane (n q : Nat) (f : Link → Link) (k : Nat) : (s.updLink n q f).lane k = s.lane k := rfl
@[simp] theorem State.updLink_hbmByte (n q : Nat) (f : Link → Link) (k m : Nat) : (s.updLink n q f).hbmByte k m = s.hbmByte k m := rfl
@[simp] theorem State.updLink_sramByte (n q : Nat) (f : Link → Link) (k : Nat) : (s.updLink n q f).sramByte k = s.sramByte k := rfl
@[simp] theorem State.updLink_me (n q : Nat) (f : Link → Link) : (s.updLink n q f).me = s.me := rfl
@[simp] theorem State.updLink_reg (n q : Nat) (f : Link → Link) (r : BitVec 5) : (s.updLink n q f).reg r = s.reg r := rfl
@[simp] theorem State.updLane_proc (l : Nat) (f : Lane → Lane) (k : Nat) : (s.updLane l f).proc k = s.proc k := rfl
@[simp] theorem State.updLane_tile (l : Nat) (f : Lane → Lane) (k : Nat) : (s.updLane l f).tile k = s.tile k := rfl
@[simp] theorem State.updLane_part (l : Nat) (f : Lane → Lane) (k : Nat) : (s.updLane l f).part k = s.part k := rfl
@[simp] theorem State.updLane_ep (l : Nat) (f : Lane → Lane) (k : Nat) : (s.updLane l f).ep k = s.ep k := rfl
@[simp] theorem State.updLane_link (l : Nat) (f : Lane → Lane) (k m : Nat) : (s.updLane l f).link k m = s.link k m := rfl
@[simp] theorem State.updLane_hbmByte (l : Nat) (f : Lane → Lane) (k m : Nat) : (s.updLane l f).hbmByte k m = s.hbmByte k m := rfl
@[simp] theorem State.updLane_sramByte (l : Nat) (f : Lane → Lane) (k : Nat) : (s.updLane l f).sramByte k = s.sramByte k := rfl
@[simp] theorem State.updLane_me (l : Nat) (f : Lane → Lane) : (s.updLane l f).me = s.me := rfl
@[simp] theorem State.updLane_reg (l : Nat) (f : Lane → Lane) (r : BitVec 5) : (s.updLane l f).reg r = s.reg r := rfl
@[simp] theorem State.afterCycles_proc (n : Nat) (i : Instr) (k : Nat) : (s.afterCycles n i).proc k = s.proc k := rfl
@[simp] theorem State.afterCycles_tile (n : Nat) (i : Instr) (k : Nat) : (s.afterCycles n i).tile k = s.tile k := rfl
@[simp] theorem State.afterCycles_part (n : Nat) (i : Instr) (k : Nat) : (s.afterCycles n i).part k = s.part k := rfl
@[simp] theorem State.afterCycles_ep (n : Nat) (i : Instr) (k : Nat) : (s.afterCycles n i).ep k = s.ep k := rfl
@[simp] theorem State.afterCycles_link (n : Nat) (i : Instr) (k m : Nat) : (s.afterCycles n i).link k m = s.link k m := rfl
@[simp] theorem State.afterCycles_lane (n : Nat) (i : Instr) (k : Nat) : (s.afterCycles n i).lane k = s.lane k := rfl
@[simp] theorem State.afterCycles_hbmByte (n : Nat) (i : Instr) (k m : Nat) : (s.afterCycles n i).hbmByte k m = s.hbmByte k m := rfl
@[simp] theorem State.afterCycles_sramByte (n : Nat) (i : Instr) (k : Nat) : (s.afterCycles n i).sramByte k = s.sramByte k := rfl
@[simp] theorem State.afterCycles_me (n : Nat) (i : Instr) : (s.afterCycles n i).me = s.me := rfl
@[simp] theorem State.afterCycles_reg (n : Nat) (i : Instr) (r : BitVec 5) : (s.afterCycles n i).reg r = s.reg r := rfl
@[simp] theorem State.cancel_proc (i : Instr) (k : Nat) : (s.cancel i).proc k = s.proc k := rfl
@[simp] theorem State.cancel_tile (i : Instr) (k : Nat) : (s.cancel i).tile k = s.tile k := rfl
@[simp] theorem State.cancel_part (i : Instr) (k : Nat) : (s.cancel i).part k = s.part k := rfl
@[simp] theorem State.cancel_ep (i : Instr) (k : Nat) : (s.cancel i).ep k = s.ep k := rfl
@[simp] theorem State.cancel_link (i : Instr) (k m : Nat) : (s.cancel i).link k m = s.link k m := rfl
@[simp] theorem State.cancel_lane (i : Instr) (k : Nat) : (s.cancel i).lane k = s.lane k := rfl
@[simp] theorem State.cancel_hbmByte (i : Instr) (k m : Nat) : (s.cancel i).hbmByte k m = s.hbmByte k m := rfl
@[simp] theorem State.cancel_sramByte (i : Instr) (k : Nat) : (s.cancel i).sramByte k = s.sramByte k := rfl
@[simp] theorem State.cancel_me (i : Instr) : (s.cancel i).me = s.me := rfl
@[simp] theorem State.cancel_reg (i : Instr) (r : BitVec 5) : (s.cancel i).reg r = s.reg r := rfl
@[simp] theorem State.later_proc (i : Instr) (k : Nat) : (s.later i).proc k = s.proc k := rfl
@[simp] theorem State.later_tile (i : Instr) (k : Nat) : (s.later i).tile k = s.tile k := rfl
@[simp] theorem State.later_part (i : Instr) (k : Nat) : (s.later i).part k = s.part k := rfl
@[simp] theorem State.later_ep (i : Instr) (k : Nat) : (s.later i).ep k = s.ep k := rfl
@[simp] theorem State.later_link (i : Instr) (k m : Nat) : (s.later i).link k m = s.link k m := rfl
@[simp] theorem State.later_lane (i : Instr) (k : Nat) : (s.later i).lane k = s.lane k := rfl
@[simp] theorem State.later_hbmByte (i : Instr) (k m : Nat) : (s.later i).hbmByte k m = s.hbmByte k m := rfl
@[simp] theorem State.later_sramByte (i : Instr) (k : Nat) : (s.later i).sramByte k = s.sramByte k := rfl
@[simp] theorem State.later_me (i : Instr) : (s.later i).me = s.me := rfl
@[simp] theorem State.later_reg (i : Instr) (r : BitVec 5) : (s.later i).reg r = s.reg r := rfl
@[simp] theorem State.within_proc (n : Nat) (i : Instr) (k : Nat) : (s.within n i).proc k = s.proc k := rfl
@[simp] theorem State.within_tile (n : Nat) (i : Instr) (k : Nat) : (s.within n i).tile k = s.tile k := rfl
@[simp] theorem State.within_part (n : Nat) (i : Instr) (k : Nat) : (s.within n i).part k = s.part k := rfl
@[simp] theorem State.within_ep (n : Nat) (i : Instr) (k : Nat) : (s.within n i).ep k = s.ep k := rfl
@[simp] theorem State.within_link (n : Nat) (i : Instr) (k m : Nat) : (s.within n i).link k m = s.link k m := rfl
@[simp] theorem State.within_lane (n : Nat) (i : Instr) (k : Nat) : (s.within n i).lane k = s.lane k := rfl
@[simp] theorem State.within_hbmByte (n : Nat) (i : Instr) (k m : Nat) : (s.within n i).hbmByte k m = s.hbmByte k m := rfl
@[simp] theorem State.within_sramByte (n : Nat) (i : Instr) (k : Nat) : (s.within n i).sramByte k = s.sramByte k := rfl
@[simp] theorem State.within_me (n : Nat) (i : Instr) : (s.within n i).me = s.me := rfl
@[simp] theorem State.within_reg (n : Nat) (i : Instr) (r : BitVec 5) : (s.within n i).reg r = s.reg r := rfl
@[simp] theorem State.laterBehind_proc (same : Instr → Bool) (i : Instr) (k : Nat) : (s.laterBehind same i).proc k = s.proc k := rfl
@[simp] theorem State.laterBehind_tile (same : Instr → Bool) (i : Instr) (k : Nat) : (s.laterBehind same i).tile k = s.tile k := rfl
@[simp] theorem State.laterBehind_part (same : Instr → Bool) (i : Instr) (k : Nat) : (s.laterBehind same i).part k = s.part k := rfl
@[simp] theorem State.laterBehind_ep (same : Instr → Bool) (i : Instr) (k : Nat) : (s.laterBehind same i).ep k = s.ep k := rfl
@[simp] theorem State.laterBehind_link (same : Instr → Bool) (i : Instr) (k m : Nat) : (s.laterBehind same i).link k m = s.link k m := rfl
@[simp] theorem State.laterBehind_lane (same : Instr → Bool) (i : Instr) (k : Nat) : (s.laterBehind same i).lane k = s.lane k := rfl
@[simp] theorem State.laterBehind_hbmByte (same : Instr → Bool) (i : Instr) (k m : Nat) : (s.laterBehind same i).hbmByte k m = s.hbmByte k m := rfl
@[simp] theorem State.laterBehind_sramByte (same : Instr → Bool) (i : Instr) (k : Nat) : (s.laterBehind same i).sramByte k = s.sramByte k := rfl
@[simp] theorem State.laterBehind_me (same : Instr → Bool) (i : Instr) : (s.laterBehind same i).me = s.me := rfl
@[simp] theorem State.laterBehind_reg (same : Instr → Bool) (i : Instr) (r : BitVec 5) : (s.laterBehind same i).reg r = s.reg r := rfl

theorem State.updProc_proc (h k : Nat) (f : Proc → Proc) : (s.updProc h f).proc k = if h = k then f (s.proc h) else s.proc k :=
  Tab.lookD_put s.procs h k (f (s.proc h)) {}
@[simp] theorem State.updProc_proc_same (h : Nat) (f : Proc → Proc) : (s.updProc h f).proc h = f (s.proc h) := by
  simp [State.updProc_proc]
theorem State.updProc_proc_other {h k : Nat} (f : Proc → Proc) (n : h ≠ k) : (s.updProc h f).proc k = s.proc k := by
  simp [State.updProc_proc, n]
@[simp] theorem State.setProc_proc_same (h : Nat) (p : Proc) : (s.setProc h p).proc h = p := Tab.lookD_put_same s.procs h p {}
theorem State.setProc_proc (h k : Nat) (p : Proc) : (s.setProc h p).proc k = if h = k then p else s.proc k :=
  Tab.lookD_put s.procs h k p {}
@[simp] theorem State.updProc_me_same (f : Proc → Proc) : (s.updProc s.running f).me = f s.me := State.updProc_proc_same s s.running f
@[simp] theorem State.updMe_me (f : Proc → Proc) : (s.updMe f).me = f s.me := State.updProc_proc_same s s.running f
theorem State.updTile_tile (t k : Nat) (f : Tile → Tile) : (s.updTile t f).tile k = if t = k then f (s.tile t) else s.tile k :=
  Tab.lookD_put s.tiles t k (f (s.tile t)) {}
@[simp] theorem State.updTile_tile_same (t : Nat) (f : Tile → Tile) : (s.updTile t f).tile t = f (s.tile t) := by
  simp [State.updTile_tile]
theorem State.updPart_part (n k : Nat) (f : Partition → Partition) :
    (s.updPart n f).part k = if n = k then f (s.part n) else s.part k := Tab.lookD_put s.parts n k (f (s.part n)) {}
@[simp] theorem State.updPart_part_same (n : Nat) (f : Partition → Partition) : (s.updPart n f).part n = f (s.part n) := by
  simp [State.updPart_part]
theorem State.updEp_ep (e k : Nat) (f : Endpoint → Endpoint) : (s.updEp e f).ep k = if e = k then f (s.ep e) else s.ep k :=
  Tab.lookD_store s.eps e k (f (s.ep e)) {}
@[simp] theorem State.updEp_ep_same (e : Nat) (f : Endpoint → Endpoint) : (s.updEp e f).ep e = f (s.ep e) := by
  simp [State.updEp_ep]
@[simp] theorem State.updLink_link_same (n q : Nat) (f : Link → Link) : (s.updLink n q f).link n q = f (s.link n q) :=
  Tab.lookD_store_same s.links (linkKey n q) (f (s.link n q)) {}
@[simp] theorem State.updLane_lane_same (l : Nat) (f : Lane → Lane) : (s.updLane l f).lane l = f (s.lane l) :=
  Tab.lookD_store_same s.lanes l (f (s.lane l)) {}

/-- s0 reads zero (R28). -/
@[simp] theorem Proc.reg_zero (p : Proc) : p.reg 0 = 0 := rfl
/-- A register after a write of a register: s0 discards it. -/
theorem Proc.reg_setReg (p : Proc) (r q : Nat) (v : Word) : (p.setReg r v).reg q = if r = q ∧ r ≠ 0 then v else p.reg q := by
  unfold Proc.setReg Proc.reg
  by_cases hr : r = 0
  · simp [hr]
  · by_cases hq : q = 0
    · subst hq; simp [hr]
    · simp only [hr, hq, if_false, ne_eq, not_false_eq_true, and_true]
      exact Tab.lookD_store p.sregs r q v 0
@[simp] theorem Proc.reg_setReg_same (p : Proc) (r : Nat) (v : Word) (h : r ≠ 0) : (p.setReg r v).reg r = v := by
  simp [Proc.reg_setReg, h]

@[simp] theorem Proc.setReg_pc (p : Proc) (r : Nat) (v : Word) : (p.setReg r v).pc = p.pc := by unfold Proc.setReg; split <;> rfl
@[simp] theorem Proc.setReg_pend (p : Proc) (r : Nat) (v : Word) : (p.setReg r v).pend = p.pend := by unfold Proc.setReg; split <;> rfl
@[simp] theorem Proc.setReg_chans (p : Proc) (r : Nat) (v : Word) : (p.setReg r v).chans = p.chans := by unfold Proc.setReg; split <;> rfl
@[simp] theorem Proc.setReg_caps (p : Proc) (r : Nat) (v : Word) : (p.setReg r v).caps = p.caps := by unfold Proc.setReg; split <;> rfl
@[simp] theorem Proc.setReg_vl (p : Proc) (r : Nat) (v : Word) : (p.setReg r v).vl = p.vl := by unfold Proc.setReg; split <;> rfl
@[simp] theorem Proc.setReg_vs (p : Proc) (r : Nat) (v : Word) : (p.setReg r v).vs = p.vs := by unfold Proc.setReg; split <;> rfl
@[simp] theorem Proc.setReg_vt (p : Proc) (r : Nat) (v : Word) : (p.setReg r v).vt = p.vt := by unfold Proc.setReg; split <;> rfl
@[simp] theorem Proc.setReg_vmsel (p : Proc) (r : Nat) (v : Word) : (p.setReg r v).vmsel = p.vmsel := by unfold Proc.setReg; split <;> rfl
@[simp] theorem Proc.setReg_mt (p : Proc) (r : Nat) (v : Word) : (p.setReg r v).mt = p.mt := by unfold Proc.setReg; split <;> rfl
@[simp] theorem Proc.setReg_peer (p : Proc) (r : Nat) (v : Word) : (p.setReg r v).peer = p.peer := by unfold Proc.setReg; split <;> rfl
@[simp] theorem Proc.setReg_mstep (p : Proc) (r : Nat) (v : Word) : (p.setReg r v).mstep = p.mstep := by unfold Proc.setReg; split <;> rfl
@[simp] theorem Proc.setReg_nbv (p : Proc) (r : Nat) (v : Word) : (p.setReg r v).nbv = p.nbv := by unfold Proc.setReg; split <;> rfl
@[simp] theorem Proc.setReg_fflags (p : Proc) (r : Nat) (v : Word) : (p.setReg r v).fflags = p.fflags := by unfold Proc.setReg; split <;> rfl
@[simp] theorem Proc.setReg_cflags (p : Proc) (r : Nat) (v : Word) : (p.setReg r v).cflags = p.cflags := by unfold Proc.setReg; split <;> rfl
@[simp] theorem Proc.setReg_status (p : Proc) (r : Nat) (v : Word) : (p.setReg r v).status = p.status := by unfold Proc.setReg; split <;> rfl
@[simp] theorem Proc.setReg_epc (p : Proc) (r : Nat) (v : Word) : (p.setReg r v).epc = p.epc := by unfold Proc.setReg; split <;> rfl
@[simp] theorem Proc.setReg_cause (p : Proc) (r : Nat) (v : Word) : (p.setReg r v).cause = p.cause := by unfold Proc.setReg; split <;> rfl
@[simp] theorem Proc.setReg_frec (p : Proc) (r : Nat) (v : Word) : (p.setReg r v).frec = p.frec := by unfold Proc.setReg; split <;> rfl
@[simp] theorem Proc.setReg_wbase (p : Proc) (r : Nat) (v : Word) : (p.setReg r v).wbase = p.wbase := by unfold Proc.setReg; split <;> rfl
@[simp] theorem Proc.setReg_wsize (p : Proc) (r : Nat) (v : Word) : (p.setReg r v).wsize = p.wsize := by unfold Proc.setReg; split <;> rfl
@[simp] theorem Proc.setReg_net (p : Proc) (r : Nat) (v : Word) : (p.setReg r v).net = p.net := by unfold Proc.setReg; split <;> rfl
@[simp] theorem Proc.setReg_part (p : Proc) (r : Nat) (v : Word) : (p.setReg r v).part = p.part := by unfold Proc.setReg; split <;> rfl
@[simp] theorem Proc.setReg_tile (p : Proc) (r : Nat) (v : Word) : (p.setReg r v).tile = p.tile := by unfold Proc.setReg; split <;> rfl
@[simp] theorem Proc.setReg_level (p : Proc) (r : Nat) (v : Word) : (p.setReg r v).level = p.level := by unfold Proc.setReg; split <;> rfl
@[simp] theorem Proc.setReg_ceiling (p : Proc) (r : Nat) (v : Word) : (p.setReg r v).ceiling = p.ceiling := by unfold Proc.setReg; split <;> rfl
@[simp] theorem Proc.setReg_dhold (p : Proc) (r : Nat) (v : Word) : (p.setReg r v).dhold = p.dhold := by unfold Proc.setReg; split <;> rfl
@[simp] theorem Proc.setReg_pst (p : Proc) (r : Nat) (v : Word) : (p.setReg r v).pst = p.pst := by unfold Proc.setReg; split <;> rfl
@[simp] theorem Proc.setReg_need (p : Proc) (r : Nat) (v : Word) : (p.setReg r v).need = p.need := by unfold Proc.setReg; split <;> rfl
@[simp] theorem Proc.setReg_since (p : Proc) (r : Nat) (v : Word) : (p.setReg r v).since = p.since := by unfold Proc.setReg; split <;> rfl
@[simp] theorem Proc.setReg_lastIssue (p : Proc) (r : Nat) (v : Word) : (p.setReg r v).lastIssue = p.lastIssue := by unfold Proc.setReg; split <;> rfl
@[simp] theorem Proc.setReg_epoch (p : Proc) (r : Nat) (v : Word) : (p.setReg r v).epoch = p.epoch := by unfold Proc.setReg; split <;> rfl
@[simp] theorem Proc.setReg_yields (p : Proc) (r : Nat) (v : Word) : (p.setReg r v).yields = p.yields := by unfold Proc.setReg; split <;> rfl
@[simp] theorem Proc.setReg_hold (p : Proc) (r : Nat) (v : Word) : (p.setReg r v).hold = p.hold := by unfold Proc.setReg; split <;> rfl
@[simp] theorem Proc.setReg_shut (p : Proc) (r : Nat) (v : Word) : (p.setReg r v).shut = p.shut := by unfold Proc.setReg; split <;> rfl
@[simp] theorem Proc.setReg_dstep (p : Proc) (r : Nat) (v : Word) : (p.setReg r v).dstep = p.dstep := by unfold Proc.setReg; split <;> rfl
@[simp] theorem Proc.setReg_dcont (p : Proc) (r : Nat) (v : Word) : (p.setReg r v).dcont = p.dcont := by unfold Proc.setReg; split <;> rfl
@[simp] theorem Proc.setReg_image (p : Proc) (r : Nat) (v : Word) : (p.setReg r v).image = p.image := by unfold Proc.setReg; split <;> rfl
@[simp] theorem Proc.setReg_handler (p : Proc) (r : Nat) (v : Word) : (p.setReg r v).handler = p.handler := by unfold Proc.setReg; split <;> rfl
@[simp] theorem Proc.setReg_passes (p : Proc) (r : Nat) (v : Word) : (p.setReg r v).passes = p.passes := by unfold Proc.setReg; split <;> rfl
@[simp] theorem Proc.setReg_mat (p : Proc) (r : Nat) (v : Word) : (p.setReg r v).mat = p.mat := by unfold Proc.setReg; split <;> rfl
@[simp] theorem Proc.setReg_bulk (p : Proc) (r : Nat) (v : Word) : (p.setReg r v).bulk = p.bulk := by unfold Proc.setReg; split <;> rfl
@[simp] theorem Proc.setReg_busy (p : Proc) (r : Nat) (v : Word) : (p.setReg r v).busy = p.busy := by unfold Proc.setReg; split <;> rfl
@[simp] theorem Proc.setReg_lat (p : Proc) (r : Nat) (v : Word) : (p.setReg r v).lat = p.lat := by unfold Proc.setReg; split <;> rfl
@[simp] theorem Proc.setReg_mlat (p : Proc) (r : Nat) (v : Word) : (p.setReg r v).mlat = p.mlat := by unfold Proc.setReg; split <;> rfl
@[simp] theorem Proc.setReg_haltAsked (p : Proc) (r : Nat) (v : Word) : (p.setReg r v).haltAsked = p.haltAsked := by unfold Proc.setReg; split <;> rfl
@[simp] theorem Proc.setReg_ending (p : Proc) (r : Nat) (v : Word) : (p.setReg r v).ending = p.ending := by unfold Proc.setReg; split <;> rfl
@[simp] theorem Proc.setReg_strip (p : Proc) (r : Nat) (v : Word) : (p.setReg r v).strip = p.strip := by unfold Proc.setReg; split <;> rfl
@[simp] theorem Proc.setReg_fclass (p : Proc) (r : Nat) (v : Word) : (p.setReg r v).fclass = p.fclass := by unfold Proc.setReg; split <;> rfl
@[simp] theorem Proc.setReg_fpc (p : Proc) (r : Nat) (v : Word) : (p.setReg r v).fpc = p.fpc := by unfold Proc.setReg; split <;> rfl
@[simp] theorem Proc.setReg_dying (p : Proc) (r : Nat) (v : Word) : (p.setReg r v).dying = p.dying := by unfold Proc.setReg; split <;> rfl
@[simp] theorem Proc.setReg_slivers (p : Proc) (r : Nat) (v : Word) : (p.setReg r v).slivers = p.slivers := by unfold Proc.setReg; split <;> rfl
@[simp] theorem Proc.setReg_cluster (p : Proc) (r : Nat) (v : Word) : (p.setReg r v).cluster = p.cluster := by unfold Proc.setReg; split <;> rfl
@[simp] theorem Proc.setReg_lastGrant (p : Proc) (r : Nat) (v : Word) : (p.setReg r v).lastGrant = p.lastGrant := by unfold Proc.setReg; split <;> rfl
@[simp] theorem Proc.setReg_pgrant (p : Proc) (r : Nat) (v : Word) : (p.setReg r v).pgrant = p.pgrant := by unfold Proc.setReg; split <;> rfl
@[simp] theorem Proc.setReg_laneAsk (p : Proc) (r : Nat) (v : Word) : (p.setReg r v).laneAsk = p.laneAsk := by unfold Proc.setReg; split <;> rfl
@[simp] theorem Proc.setReg_saved (p : Proc) (r : Nat) (v : Word) : (p.setReg r v).saved = p.saved := by unfold Proc.setReg; split <;> rfl
@[simp] theorem Proc.setReg_vpushed (p : Proc) (r : Nat) (v : Word) : (p.setReg r v).vpushed = p.vpushed := by unfold Proc.setReg; split <;> rfl
@[simp] theorem Proc.setReg_fills (p : Proc) (r : Nat) (v : Word) : (p.setReg r v).fills = p.fills := by unfold Proc.setReg; split <;> rfl
@[simp] theorem Proc.setReg_res (p : Proc) (r : Nat) (v : Word) : (p.setReg r v).res = p.res := by unfold Proc.setReg; split <;> rfl
@[simp] theorem Proc.setReg_cbAt (p : Proc) (r : Nat) (v : Word) : (p.setReg r v).cbAt = p.cbAt := by unfold Proc.setReg; split <;> rfl
@[simp] theorem Proc.setReg_cbState (p : Proc) (r : Nat) (v : Word) : (p.setReg r v).cbState = p.cbState := by unfold Proc.setReg; split <;> rfl
@[simp] theorem Proc.setReg_slot (p : Proc) (r : Nat) (v : Word) : (p.setReg r v).slot = p.slot := by unfold Proc.setReg; split <;> rfl
@[simp] theorem Proc.setChan_pc (p : Proc) (c : Nat) (x : ChanReg) : (p.setChan c x).pc = p.pc := rfl
@[simp] theorem Proc.setChan_sregs (p : Proc) (c : Nat) (x : ChanReg) : (p.setChan c x).sregs = p.sregs := rfl
@[simp] theorem Proc.setChan_pend (p : Proc) (c : Nat) (x : ChanReg) : (p.setChan c x).pend = p.pend := rfl
@[simp] theorem Proc.setChan_caps (p : Proc) (c : Nat) (x : ChanReg) : (p.setChan c x).caps = p.caps := rfl
@[simp] theorem Proc.setChan_vl (p : Proc) (c : Nat) (x : ChanReg) : (p.setChan c x).vl = p.vl := rfl
@[simp] theorem Proc.setChan_vs (p : Proc) (c : Nat) (x : ChanReg) : (p.setChan c x).vs = p.vs := rfl
@[simp] theorem Proc.setChan_vt (p : Proc) (c : Nat) (x : ChanReg) : (p.setChan c x).vt = p.vt := rfl
@[simp] theorem Proc.setChan_vmsel (p : Proc) (c : Nat) (x : ChanReg) : (p.setChan c x).vmsel = p.vmsel := rfl
@[simp] theorem Proc.setChan_mt (p : Proc) (c : Nat) (x : ChanReg) : (p.setChan c x).mt = p.mt := rfl
@[simp] theorem Proc.setChan_peer (p : Proc) (c : Nat) (x : ChanReg) : (p.setChan c x).peer = p.peer := rfl
@[simp] theorem Proc.setChan_mstep (p : Proc) (c : Nat) (x : ChanReg) : (p.setChan c x).mstep = p.mstep := rfl
@[simp] theorem Proc.setChan_nbv (p : Proc) (c : Nat) (x : ChanReg) : (p.setChan c x).nbv = p.nbv := rfl
@[simp] theorem Proc.setChan_fflags (p : Proc) (c : Nat) (x : ChanReg) : (p.setChan c x).fflags = p.fflags := rfl
@[simp] theorem Proc.setChan_cflags (p : Proc) (c : Nat) (x : ChanReg) : (p.setChan c x).cflags = p.cflags := rfl
@[simp] theorem Proc.setChan_status (p : Proc) (c : Nat) (x : ChanReg) : (p.setChan c x).status = p.status := rfl
@[simp] theorem Proc.setChan_epc (p : Proc) (c : Nat) (x : ChanReg) : (p.setChan c x).epc = p.epc := rfl
@[simp] theorem Proc.setChan_cause (p : Proc) (c : Nat) (x : ChanReg) : (p.setChan c x).cause = p.cause := rfl
@[simp] theorem Proc.setChan_frec (p : Proc) (c : Nat) (x : ChanReg) : (p.setChan c x).frec = p.frec := rfl
@[simp] theorem Proc.setChan_wbase (p : Proc) (c : Nat) (x : ChanReg) : (p.setChan c x).wbase = p.wbase := rfl
@[simp] theorem Proc.setChan_wsize (p : Proc) (c : Nat) (x : ChanReg) : (p.setChan c x).wsize = p.wsize := rfl
@[simp] theorem Proc.setChan_net (p : Proc) (c : Nat) (x : ChanReg) : (p.setChan c x).net = p.net := rfl
@[simp] theorem Proc.setChan_part (p : Proc) (c : Nat) (x : ChanReg) : (p.setChan c x).part = p.part := rfl
@[simp] theorem Proc.setChan_tile (p : Proc) (c : Nat) (x : ChanReg) : (p.setChan c x).tile = p.tile := rfl
@[simp] theorem Proc.setChan_level (p : Proc) (c : Nat) (x : ChanReg) : (p.setChan c x).level = p.level := rfl
@[simp] theorem Proc.setChan_ceiling (p : Proc) (c : Nat) (x : ChanReg) : (p.setChan c x).ceiling = p.ceiling := rfl
@[simp] theorem Proc.setChan_dhold (p : Proc) (c : Nat) (x : ChanReg) : (p.setChan c x).dhold = p.dhold := rfl
@[simp] theorem Proc.setChan_pst (p : Proc) (c : Nat) (x : ChanReg) : (p.setChan c x).pst = p.pst := rfl
@[simp] theorem Proc.setChan_need (p : Proc) (c : Nat) (x : ChanReg) : (p.setChan c x).need = p.need := rfl
@[simp] theorem Proc.setChan_since (p : Proc) (c : Nat) (x : ChanReg) : (p.setChan c x).since = p.since := rfl
@[simp] theorem Proc.setChan_lastIssue (p : Proc) (c : Nat) (x : ChanReg) : (p.setChan c x).lastIssue = p.lastIssue := rfl
@[simp] theorem Proc.setChan_epoch (p : Proc) (c : Nat) (x : ChanReg) : (p.setChan c x).epoch = p.epoch := rfl
@[simp] theorem Proc.setChan_yields (p : Proc) (c : Nat) (x : ChanReg) : (p.setChan c x).yields = p.yields := rfl
@[simp] theorem Proc.setChan_hold (p : Proc) (c : Nat) (x : ChanReg) : (p.setChan c x).hold = p.hold := rfl
@[simp] theorem Proc.setChan_shut (p : Proc) (c : Nat) (x : ChanReg) : (p.setChan c x).shut = p.shut := rfl
@[simp] theorem Proc.setChan_dstep (p : Proc) (c : Nat) (x : ChanReg) : (p.setChan c x).dstep = p.dstep := rfl
@[simp] theorem Proc.setChan_dcont (p : Proc) (c : Nat) (x : ChanReg) : (p.setChan c x).dcont = p.dcont := rfl
@[simp] theorem Proc.setChan_image (p : Proc) (c : Nat) (x : ChanReg) : (p.setChan c x).image = p.image := rfl
@[simp] theorem Proc.setChan_handler (p : Proc) (c : Nat) (x : ChanReg) : (p.setChan c x).handler = p.handler := rfl
@[simp] theorem Proc.setChan_passes (p : Proc) (c : Nat) (x : ChanReg) : (p.setChan c x).passes = p.passes := rfl
@[simp] theorem Proc.setChan_mat (p : Proc) (c : Nat) (x : ChanReg) : (p.setChan c x).mat = p.mat := rfl
@[simp] theorem Proc.setChan_bulk (p : Proc) (c : Nat) (x : ChanReg) : (p.setChan c x).bulk = p.bulk := rfl
@[simp] theorem Proc.setChan_busy (p : Proc) (c : Nat) (x : ChanReg) : (p.setChan c x).busy = p.busy := rfl
@[simp] theorem Proc.setChan_lat (p : Proc) (c : Nat) (x : ChanReg) : (p.setChan c x).lat = p.lat := rfl
@[simp] theorem Proc.setChan_mlat (p : Proc) (c : Nat) (x : ChanReg) : (p.setChan c x).mlat = p.mlat := rfl
@[simp] theorem Proc.setChan_haltAsked (p : Proc) (c : Nat) (x : ChanReg) : (p.setChan c x).haltAsked = p.haltAsked := rfl
@[simp] theorem Proc.setChan_ending (p : Proc) (c : Nat) (x : ChanReg) : (p.setChan c x).ending = p.ending := rfl
@[simp] theorem Proc.setChan_strip (p : Proc) (c : Nat) (x : ChanReg) : (p.setChan c x).strip = p.strip := rfl
@[simp] theorem Proc.setChan_fclass (p : Proc) (c : Nat) (x : ChanReg) : (p.setChan c x).fclass = p.fclass := rfl
@[simp] theorem Proc.setChan_fpc (p : Proc) (c : Nat) (x : ChanReg) : (p.setChan c x).fpc = p.fpc := rfl
@[simp] theorem Proc.setChan_dying (p : Proc) (c : Nat) (x : ChanReg) : (p.setChan c x).dying = p.dying := rfl
@[simp] theorem Proc.setChan_slivers (p : Proc) (c : Nat) (x : ChanReg) : (p.setChan c x).slivers = p.slivers := rfl
@[simp] theorem Proc.setChan_cluster (p : Proc) (c : Nat) (x : ChanReg) : (p.setChan c x).cluster = p.cluster := rfl
@[simp] theorem Proc.setChan_lastGrant (p : Proc) (c : Nat) (x : ChanReg) : (p.setChan c x).lastGrant = p.lastGrant := rfl
@[simp] theorem Proc.setChan_pgrant (p : Proc) (c : Nat) (x : ChanReg) : (p.setChan c x).pgrant = p.pgrant := rfl
@[simp] theorem Proc.setChan_laneAsk (p : Proc) (c : Nat) (x : ChanReg) : (p.setChan c x).laneAsk = p.laneAsk := rfl
@[simp] theorem Proc.setChan_saved (p : Proc) (c : Nat) (x : ChanReg) : (p.setChan c x).saved = p.saved := rfl
@[simp] theorem Proc.setChan_vpushed (p : Proc) (c : Nat) (x : ChanReg) : (p.setChan c x).vpushed = p.vpushed := rfl
@[simp] theorem Proc.setChan_fills (p : Proc) (c : Nat) (x : ChanReg) : (p.setChan c x).fills = p.fills := rfl
@[simp] theorem Proc.setChan_res (p : Proc) (c : Nat) (x : ChanReg) : (p.setChan c x).res = p.res := rfl
@[simp] theorem Proc.setChan_cbAt (p : Proc) (c : Nat) (x : ChanReg) : (p.setChan c x).cbAt = p.cbAt := rfl
@[simp] theorem Proc.setChan_cbState (p : Proc) (c : Nat) (x : ChanReg) : (p.setChan c x).cbState = p.cbState := rfl
@[simp] theorem Proc.setChan_slot (p : Proc) (c : Nat) (x : ChanReg) : (p.setChan c x).slot = p.slot := rfl
@[simp] theorem Proc.setCap_pc (p : Proc) (k : Nat) (x : Cap) : (p.setCap k x).pc = p.pc := rfl
@[simp] theorem Proc.setCap_sregs (p : Proc) (k : Nat) (x : Cap) : (p.setCap k x).sregs = p.sregs := rfl
@[simp] theorem Proc.setCap_pend (p : Proc) (k : Nat) (x : Cap) : (p.setCap k x).pend = p.pend := rfl
@[simp] theorem Proc.setCap_chans (p : Proc) (k : Nat) (x : Cap) : (p.setCap k x).chans = p.chans := rfl
@[simp] theorem Proc.setCap_vl (p : Proc) (k : Nat) (x : Cap) : (p.setCap k x).vl = p.vl := rfl
@[simp] theorem Proc.setCap_vs (p : Proc) (k : Nat) (x : Cap) : (p.setCap k x).vs = p.vs := rfl
@[simp] theorem Proc.setCap_vt (p : Proc) (k : Nat) (x : Cap) : (p.setCap k x).vt = p.vt := rfl
@[simp] theorem Proc.setCap_vmsel (p : Proc) (k : Nat) (x : Cap) : (p.setCap k x).vmsel = p.vmsel := rfl
@[simp] theorem Proc.setCap_mt (p : Proc) (k : Nat) (x : Cap) : (p.setCap k x).mt = p.mt := rfl
@[simp] theorem Proc.setCap_peer (p : Proc) (k : Nat) (x : Cap) : (p.setCap k x).peer = p.peer := rfl
@[simp] theorem Proc.setCap_mstep (p : Proc) (k : Nat) (x : Cap) : (p.setCap k x).mstep = p.mstep := rfl
@[simp] theorem Proc.setCap_nbv (p : Proc) (k : Nat) (x : Cap) : (p.setCap k x).nbv = p.nbv := rfl
@[simp] theorem Proc.setCap_fflags (p : Proc) (k : Nat) (x : Cap) : (p.setCap k x).fflags = p.fflags := rfl
@[simp] theorem Proc.setCap_cflags (p : Proc) (k : Nat) (x : Cap) : (p.setCap k x).cflags = p.cflags := rfl
@[simp] theorem Proc.setCap_status (p : Proc) (k : Nat) (x : Cap) : (p.setCap k x).status = p.status := rfl
@[simp] theorem Proc.setCap_epc (p : Proc) (k : Nat) (x : Cap) : (p.setCap k x).epc = p.epc := rfl
@[simp] theorem Proc.setCap_cause (p : Proc) (k : Nat) (x : Cap) : (p.setCap k x).cause = p.cause := rfl
@[simp] theorem Proc.setCap_frec (p : Proc) (k : Nat) (x : Cap) : (p.setCap k x).frec = p.frec := rfl
@[simp] theorem Proc.setCap_wbase (p : Proc) (k : Nat) (x : Cap) : (p.setCap k x).wbase = p.wbase := rfl
@[simp] theorem Proc.setCap_wsize (p : Proc) (k : Nat) (x : Cap) : (p.setCap k x).wsize = p.wsize := rfl
@[simp] theorem Proc.setCap_net (p : Proc) (k : Nat) (x : Cap) : (p.setCap k x).net = p.net := rfl
@[simp] theorem Proc.setCap_part (p : Proc) (k : Nat) (x : Cap) : (p.setCap k x).part = p.part := rfl
@[simp] theorem Proc.setCap_tile (p : Proc) (k : Nat) (x : Cap) : (p.setCap k x).tile = p.tile := rfl
@[simp] theorem Proc.setCap_level (p : Proc) (k : Nat) (x : Cap) : (p.setCap k x).level = p.level := rfl
@[simp] theorem Proc.setCap_ceiling (p : Proc) (k : Nat) (x : Cap) : (p.setCap k x).ceiling = p.ceiling := rfl
@[simp] theorem Proc.setCap_dhold (p : Proc) (k : Nat) (x : Cap) : (p.setCap k x).dhold = p.dhold := rfl
@[simp] theorem Proc.setCap_pst (p : Proc) (k : Nat) (x : Cap) : (p.setCap k x).pst = p.pst := rfl
@[simp] theorem Proc.setCap_need (p : Proc) (k : Nat) (x : Cap) : (p.setCap k x).need = p.need := rfl
@[simp] theorem Proc.setCap_since (p : Proc) (k : Nat) (x : Cap) : (p.setCap k x).since = p.since := rfl
@[simp] theorem Proc.setCap_lastIssue (p : Proc) (k : Nat) (x : Cap) : (p.setCap k x).lastIssue = p.lastIssue := rfl
@[simp] theorem Proc.setCap_epoch (p : Proc) (k : Nat) (x : Cap) : (p.setCap k x).epoch = p.epoch := rfl
@[simp] theorem Proc.setCap_yields (p : Proc) (k : Nat) (x : Cap) : (p.setCap k x).yields = p.yields := rfl
@[simp] theorem Proc.setCap_hold (p : Proc) (k : Nat) (x : Cap) : (p.setCap k x).hold = p.hold := rfl
@[simp] theorem Proc.setCap_shut (p : Proc) (k : Nat) (x : Cap) : (p.setCap k x).shut = p.shut := rfl
@[simp] theorem Proc.setCap_dstep (p : Proc) (k : Nat) (x : Cap) : (p.setCap k x).dstep = p.dstep := rfl
@[simp] theorem Proc.setCap_dcont (p : Proc) (k : Nat) (x : Cap) : (p.setCap k x).dcont = p.dcont := rfl
@[simp] theorem Proc.setCap_image (p : Proc) (k : Nat) (x : Cap) : (p.setCap k x).image = p.image := rfl
@[simp] theorem Proc.setCap_handler (p : Proc) (k : Nat) (x : Cap) : (p.setCap k x).handler = p.handler := rfl
@[simp] theorem Proc.setCap_passes (p : Proc) (k : Nat) (x : Cap) : (p.setCap k x).passes = p.passes := rfl
@[simp] theorem Proc.setCap_mat (p : Proc) (k : Nat) (x : Cap) : (p.setCap k x).mat = p.mat := rfl
@[simp] theorem Proc.setCap_bulk (p : Proc) (k : Nat) (x : Cap) : (p.setCap k x).bulk = p.bulk := rfl
@[simp] theorem Proc.setCap_busy (p : Proc) (k : Nat) (x : Cap) : (p.setCap k x).busy = p.busy := rfl
@[simp] theorem Proc.setCap_lat (p : Proc) (k : Nat) (x : Cap) : (p.setCap k x).lat = p.lat := rfl
@[simp] theorem Proc.setCap_mlat (p : Proc) (k : Nat) (x : Cap) : (p.setCap k x).mlat = p.mlat := rfl
@[simp] theorem Proc.setCap_haltAsked (p : Proc) (k : Nat) (x : Cap) : (p.setCap k x).haltAsked = p.haltAsked := rfl
@[simp] theorem Proc.setCap_ending (p : Proc) (k : Nat) (x : Cap) : (p.setCap k x).ending = p.ending := rfl
@[simp] theorem Proc.setCap_strip (p : Proc) (k : Nat) (x : Cap) : (p.setCap k x).strip = p.strip := rfl
@[simp] theorem Proc.setCap_fclass (p : Proc) (k : Nat) (x : Cap) : (p.setCap k x).fclass = p.fclass := rfl
@[simp] theorem Proc.setCap_fpc (p : Proc) (k : Nat) (x : Cap) : (p.setCap k x).fpc = p.fpc := rfl
@[simp] theorem Proc.setCap_dying (p : Proc) (k : Nat) (x : Cap) : (p.setCap k x).dying = p.dying := rfl
@[simp] theorem Proc.setCap_slivers (p : Proc) (k : Nat) (x : Cap) : (p.setCap k x).slivers = p.slivers := rfl
@[simp] theorem Proc.setCap_cluster (p : Proc) (k : Nat) (x : Cap) : (p.setCap k x).cluster = p.cluster := rfl
@[simp] theorem Proc.setCap_lastGrant (p : Proc) (k : Nat) (x : Cap) : (p.setCap k x).lastGrant = p.lastGrant := rfl
@[simp] theorem Proc.setCap_pgrant (p : Proc) (k : Nat) (x : Cap) : (p.setCap k x).pgrant = p.pgrant := rfl
@[simp] theorem Proc.setCap_laneAsk (p : Proc) (k : Nat) (x : Cap) : (p.setCap k x).laneAsk = p.laneAsk := rfl
@[simp] theorem Proc.setCap_saved (p : Proc) (k : Nat) (x : Cap) : (p.setCap k x).saved = p.saved := rfl
@[simp] theorem Proc.setCap_vpushed (p : Proc) (k : Nat) (x : Cap) : (p.setCap k x).vpushed = p.vpushed := rfl
@[simp] theorem Proc.setCap_fills (p : Proc) (k : Nat) (x : Cap) : (p.setCap k x).fills = p.fills := rfl
@[simp] theorem Proc.setCap_res (p : Proc) (k : Nat) (x : Cap) : (p.setCap k x).res = p.res := rfl
@[simp] theorem Proc.setCap_cbAt (p : Proc) (k : Nat) (x : Cap) : (p.setCap k x).cbAt = p.cbAt := rfl
@[simp] theorem Proc.setCap_cbState (p : Proc) (k : Nat) (x : Cap) : (p.setCap k x).cbState = p.cbState := rfl
@[simp] theorem Proc.setCap_slot (p : Proc) (k : Nat) (x : Cap) : (p.setCap k x).slot = p.slot := rfl
@[simp] theorem Proc.enter_pc (p : Proc) (st : PState) (n : Nat) : (p.enter st n).pc = p.pc := rfl
@[simp] theorem Proc.enter_sregs (p : Proc) (st : PState) (n : Nat) : (p.enter st n).sregs = p.sregs := rfl
@[simp] theorem Proc.enter_pend (p : Proc) (st : PState) (n : Nat) : (p.enter st n).pend = p.pend := rfl
@[simp] theorem Proc.enter_chans (p : Proc) (st : PState) (n : Nat) : (p.enter st n).chans = p.chans := rfl
@[simp] theorem Proc.enter_caps (p : Proc) (st : PState) (n : Nat) : (p.enter st n).caps = p.caps := rfl
@[simp] theorem Proc.enter_vl (p : Proc) (st : PState) (n : Nat) : (p.enter st n).vl = p.vl := rfl
@[simp] theorem Proc.enter_vs (p : Proc) (st : PState) (n : Nat) : (p.enter st n).vs = p.vs := rfl
@[simp] theorem Proc.enter_vt (p : Proc) (st : PState) (n : Nat) : (p.enter st n).vt = p.vt := rfl
@[simp] theorem Proc.enter_vmsel (p : Proc) (st : PState) (n : Nat) : (p.enter st n).vmsel = p.vmsel := rfl
@[simp] theorem Proc.enter_mt (p : Proc) (st : PState) (n : Nat) : (p.enter st n).mt = p.mt := rfl
@[simp] theorem Proc.enter_peer (p : Proc) (st : PState) (n : Nat) : (p.enter st n).peer = p.peer := rfl
@[simp] theorem Proc.enter_mstep (p : Proc) (st : PState) (n : Nat) : (p.enter st n).mstep = p.mstep := rfl
@[simp] theorem Proc.enter_nbv (p : Proc) (st : PState) (n : Nat) : (p.enter st n).nbv = p.nbv := rfl
@[simp] theorem Proc.enter_fflags (p : Proc) (st : PState) (n : Nat) : (p.enter st n).fflags = p.fflags := rfl
@[simp] theorem Proc.enter_cflags (p : Proc) (st : PState) (n : Nat) : (p.enter st n).cflags = p.cflags := rfl
@[simp] theorem Proc.enter_status (p : Proc) (st : PState) (n : Nat) : (p.enter st n).status = p.status := rfl
@[simp] theorem Proc.enter_epc (p : Proc) (st : PState) (n : Nat) : (p.enter st n).epc = p.epc := rfl
@[simp] theorem Proc.enter_cause (p : Proc) (st : PState) (n : Nat) : (p.enter st n).cause = p.cause := rfl
@[simp] theorem Proc.enter_frec (p : Proc) (st : PState) (n : Nat) : (p.enter st n).frec = p.frec := rfl
@[simp] theorem Proc.enter_wbase (p : Proc) (st : PState) (n : Nat) : (p.enter st n).wbase = p.wbase := rfl
@[simp] theorem Proc.enter_wsize (p : Proc) (st : PState) (n : Nat) : (p.enter st n).wsize = p.wsize := rfl
@[simp] theorem Proc.enter_net (p : Proc) (st : PState) (n : Nat) : (p.enter st n).net = p.net := rfl
@[simp] theorem Proc.enter_part (p : Proc) (st : PState) (n : Nat) : (p.enter st n).part = p.part := rfl
@[simp] theorem Proc.enter_tile (p : Proc) (st : PState) (n : Nat) : (p.enter st n).tile = p.tile := rfl
@[simp] theorem Proc.enter_level (p : Proc) (st : PState) (n : Nat) : (p.enter st n).level = p.level := rfl
@[simp] theorem Proc.enter_ceiling (p : Proc) (st : PState) (n : Nat) : (p.enter st n).ceiling = p.ceiling := rfl
@[simp] theorem Proc.enter_dhold (p : Proc) (st : PState) (n : Nat) : (p.enter st n).dhold = p.dhold := rfl
@[simp] theorem Proc.enter_need (p : Proc) (st : PState) (n : Nat) : (p.enter st n).need = p.need := rfl
@[simp] theorem Proc.enter_lastIssue (p : Proc) (st : PState) (n : Nat) : (p.enter st n).lastIssue = p.lastIssue := rfl
@[simp] theorem Proc.enter_yields (p : Proc) (st : PState) (n : Nat) : (p.enter st n).yields = p.yields := rfl
@[simp] theorem Proc.enter_hold (p : Proc) (st : PState) (n : Nat) : (p.enter st n).hold = p.hold := rfl
@[simp] theorem Proc.enter_shut (p : Proc) (st : PState) (n : Nat) : (p.enter st n).shut = p.shut := rfl
@[simp] theorem Proc.enter_dstep (p : Proc) (st : PState) (n : Nat) : (p.enter st n).dstep = p.dstep := rfl
@[simp] theorem Proc.enter_dcont (p : Proc) (st : PState) (n : Nat) : (p.enter st n).dcont = p.dcont := rfl
@[simp] theorem Proc.enter_image (p : Proc) (st : PState) (n : Nat) : (p.enter st n).image = p.image := rfl
@[simp] theorem Proc.enter_handler (p : Proc) (st : PState) (n : Nat) : (p.enter st n).handler = p.handler := rfl
@[simp] theorem Proc.enter_passes (p : Proc) (st : PState) (n : Nat) : (p.enter st n).passes = p.passes := rfl
@[simp] theorem Proc.enter_mat (p : Proc) (st : PState) (n : Nat) : (p.enter st n).mat = p.mat := rfl
@[simp] theorem Proc.enter_bulk (p : Proc) (st : PState) (n : Nat) : (p.enter st n).bulk = p.bulk := rfl
@[simp] theorem Proc.enter_busy (p : Proc) (st : PState) (n : Nat) : (p.enter st n).busy = p.busy := rfl
@[simp] theorem Proc.enter_lat (p : Proc) (st : PState) (n : Nat) : (p.enter st n).lat = p.lat := rfl
@[simp] theorem Proc.enter_mlat (p : Proc) (st : PState) (n : Nat) : (p.enter st n).mlat = p.mlat := rfl
@[simp] theorem Proc.enter_haltAsked (p : Proc) (st : PState) (n : Nat) : (p.enter st n).haltAsked = p.haltAsked := rfl
@[simp] theorem Proc.enter_ending (p : Proc) (st : PState) (n : Nat) : (p.enter st n).ending = p.ending := rfl
@[simp] theorem Proc.enter_strip (p : Proc) (st : PState) (n : Nat) : (p.enter st n).strip = p.strip := rfl
@[simp] theorem Proc.enter_fclass (p : Proc) (st : PState) (n : Nat) : (p.enter st n).fclass = p.fclass := rfl
@[simp] theorem Proc.enter_fpc (p : Proc) (st : PState) (n : Nat) : (p.enter st n).fpc = p.fpc := rfl
@[simp] theorem Proc.enter_dying (p : Proc) (st : PState) (n : Nat) : (p.enter st n).dying = p.dying := rfl
@[simp] theorem Proc.enter_slivers (p : Proc) (st : PState) (n : Nat) : (p.enter st n).slivers = p.slivers := rfl
@[simp] theorem Proc.enter_cluster (p : Proc) (st : PState) (n : Nat) : (p.enter st n).cluster = p.cluster := rfl
@[simp] theorem Proc.enter_lastGrant (p : Proc) (st : PState) (n : Nat) : (p.enter st n).lastGrant = p.lastGrant := rfl
@[simp] theorem Proc.enter_pgrant (p : Proc) (st : PState) (n : Nat) : (p.enter st n).pgrant = p.pgrant := rfl
@[simp] theorem Proc.enter_laneAsk (p : Proc) (st : PState) (n : Nat) : (p.enter st n).laneAsk = p.laneAsk := rfl
@[simp] theorem Proc.enter_saved (p : Proc) (st : PState) (n : Nat) : (p.enter st n).saved = p.saved := rfl
@[simp] theorem Proc.enter_vpushed (p : Proc) (st : PState) (n : Nat) : (p.enter st n).vpushed = p.vpushed := rfl
@[simp] theorem Proc.enter_fills (p : Proc) (st : PState) (n : Nat) : (p.enter st n).fills = p.fills := rfl
@[simp] theorem Proc.enter_res (p : Proc) (st : PState) (n : Nat) : (p.enter st n).res = p.res := rfl
@[simp] theorem Proc.enter_cbAt (p : Proc) (st : PState) (n : Nat) : (p.enter st n).cbAt = p.cbAt := rfl
@[simp] theorem Proc.enter_cbState (p : Proc) (st : PState) (n : Nat) : (p.enter st n).cbState = p.cbState := rfl
@[simp] theorem Proc.enter_slot (p : Proc) (st : PState) (n : Nat) : (p.enter st n).slot = p.slot := rfl
@[simp] theorem Proc.enter_pst (p : Proc) (st : PState) (n : Nat) : (p.enter st n).pst = st := rfl
theorem Proc.chan_setChan (p : Proc) (c d : Nat) (x : ChanReg) : (p.setChan c x).chan d = if c = d then x else p.chan d :=
  Tab.lookD_store p.chans c d x {}
@[simp] theorem Proc.chan_setChan_same (p : Proc) (c : Nat) (x : ChanReg) : (p.setChan c x).chan c = x := by simp [Proc.chan_setChan]
theorem Proc.cap_setCap (p : Proc) (c d : Nat) (x : Cap) : (p.setCap c x).cap d = if c = d then x else p.cap d :=
  Tab.lookD_store p.caps c d x {}
@[simp] theorem Proc.cap_setCap_same (p : Proc) (c : Nat) (x : Cap) : (p.setCap c x).cap c = x := by simp [Proc.cap_setCap]
theorem Proc.reg_congr {p q : Proc} (h : p.sregs = q.sregs) (r : Nat) : p.reg r = q.reg r := by unfold Proc.reg; rw [h]
theorem Proc.cap_congr {p q : Proc} (h : p.caps = q.caps) (k : Nat) : p.cap k = q.cap k := by unfold Proc.cap; rw [h]
theorem Proc.chan_congr {p q : Proc} (h : p.chans = q.chans) (c : Nat) : p.chan c = q.chan c := by unfold Proc.chan; rw [h]

end Sys2Proof.Machine
end

