-- ==== Sys2Proof/Laws/Ops.lean ====
section
/-! SUPPORT. What the shared operations do: counting, completing, holding back, waiting for registers, writing registers; said
once, so that no proof unfolds them. -/

namespace Sys2Proof.Machine

/-- A state with another list of what is due. -/
def State.withEvents (s : State) (ev : List (Nat × Instr)) : State := { s with events := ev }

/-- Several steps put on the list of what is due change nothing else. -/
theorem foldl_afterCycles {β : Type} (l : List β) (n : Nat) (g : β → Instr) (s : State) :
    ∃ ev, l.foldl (fun s m => s.afterCycles n (g m)) s = s.withEvents ev := by
  induction l generalizing s with
  | nil => exact ⟨s.events, rfl⟩
  | cons m l ih =>
    obtain ⟨ev, h⟩ := ih (s.afterCycles n (g m))
    exact ⟨ev, by rw [List.foldl_cons, h]; rfl⟩

/-- Counting an event changes the monitors of the tile and the list of what is due, and nothing else (R51). -/
theorem State.countEvent_eq (s : State) (t sel n : Nat) :
    ∃ (f : List Monitor → List Monitor) (ev : List (Nat × Instr)), s.countEvent t sel n = (s.updTile t fun x => { x with mons := f x.mons }).withEvents ev ∨
      s.countEvent t sel n = s := by
  unfold State.countEvent
  by_cases h : ((s.tile t).mons.any fun m => decide (m.sel = sel)) = true
  · simp only [h, if_true]
    obtain ⟨ev, e⟩ := foldl_afterCycles ((s.tile t).mons.filter fun m => decide (m.sel = sel ∧ m.count / m.t < (m.count + n) / m.t)) 0
      (fun m => .monitorFire t (widOf m.h m.c))
      (s.updTile t fun x => { x with mons := x.mons.map fun m => if m.sel = sel then { m with count := m.count + n } else m })
    exact ⟨fun l => l.map fun m => if m.sel = sel then { m with count := m.count + n } else m, ev, .inl e⟩
  · exact ⟨id, [], .inr (by simp [h])⟩

@[simp] theorem State.countEvent_cycle (s : State) (t sel n : Nat) : (s.countEvent t sel n).cycle = s.cycle := by
  obtain ⟨f, ev, h | h⟩ := State.countEvent_eq s t sel n <;> (rw [h]; try rfl)
@[simp] theorem State.countEvent_pcap (s : State) (t sel n : Nat) : (s.countEvent t sel n).pcap = s.pcap := by
  obtain ⟨f, ev, h | h⟩ := State.countEvent_eq s t sel n <;> (rw [h]; try rfl)
@[simp] theorem State.countEvent_arbs (s : State) (t sel n : Nat) : (s.countEvent t sel n).arbs = s.arbs := by
  obtain ⟨f, ev, h | h⟩ := State.countEvent_eq s t sel n <;> (rw [h]; try rfl)
@[simp] theorem State.countEvent_pset (s : State) (t sel n : Nat) : (s.countEvent t sel n).pset = s.pset := by
  obtain ⟨f, ev, h | h⟩ := State.countEvent_eq s t sel n <;> (rw [h]; try rfl)
@[simp] theorem State.countEvent_hepset (s : State) (t sel n : Nat) : (s.countEvent t sel n).hepset = s.hepset := by
  obtain ⟨f, ev, h | h⟩ := State.countEvent_eq s t sel n <;> (rw [h]; try rfl)
@[simp] theorem State.countEvent_ownId (s : State) (t sel n : Nat) : (s.countEvent t sel n).ownId = s.ownId := by
  obtain ⟨f, ev, h | h⟩ := State.countEvent_eq s t sel n <;> (rw [h]; try rfl)
@[simp] theorem State.countEvent_sram (s : State) (t sel n : Nat) : (s.countEvent t sel n).sram = s.sram := by
  obtain ⟨f, ev, h | h⟩ := State.countEvent_eq s t sel n <;> (rw [h]; try rfl)
@[simp] theorem State.countEvent_hbm (s : State) (t sel n : Nat) : (s.countEvent t sel n).hbm = s.hbm := by
  obtain ⟨f, ev, h | h⟩ := State.countEvent_eq s t sel n <;> (rw [h]; try rfl)
@[simp] theorem State.countEvent_hbmEpoch (s : State) (t sel n : Nat) : (s.countEvent t sel n).hbmEpoch = s.hbmEpoch := by
  obtain ⟨f, ev, h | h⟩ := State.countEvent_eq s t sel n <;> (rw [h]; try rfl)
@[simp] theorem State.countEvent_sramTags (s : State) (t sel n : Nat) : (s.countEvent t sel n).sramTags = s.sramTags := by
  obtain ⟨f, ev, h | h⟩ := State.countEvent_eq s t sel n <;> (rw [h]; try rfl)
@[simp] theorem State.countEvent_hbmTags (s : State) (t sel n : Nat) : (s.countEvent t sel n).hbmTags = s.hbmTags := by
  obtain ⟨f, ev, h | h⟩ := State.countEvent_eq s t sel n <;> (rw [h]; try rfl)
@[simp] theorem State.countEvent_hbmBad (s : State) (t sel n : Nat) : (s.countEvent t sel n).hbmBad = s.hbmBad := by
  obtain ⟨f, ev, h | h⟩ := State.countEvent_eq s t sel n <;> (rw [h]; try rfl)
@[simp] theorem State.countEvent_withdrawn (s : State) (t sel n : Nat) : (s.countEvent t sel n).withdrawn = s.withdrawn := by
  obtain ⟨f, ev, h | h⟩ := State.countEvent_eq s t sel n <;> (rw [h]; try rfl)
@[simp] theorem State.countEvent_fuses (s : State) (t sel n : Nat) : (s.countEvent t sel n).fuses = s.fuses := by
  obtain ⟨f, ev, h | h⟩ := State.countEvent_eq s t sel n <;> (rw [h]; try rfl)
@[simp] theorem State.countEvent_procs (s : State) (t sel n : Nat) : (s.countEvent t sel n).procs = s.procs := by
  obtain ⟨f, ev, h | h⟩ := State.countEvent_eq s t sel n <;> (rw [h]; try rfl)
@[simp] theorem State.countEvent_parts (s : State) (t sel n : Nat) : (s.countEvent t sel n).parts = s.parts := by
  obtain ⟨f, ev, h | h⟩ := State.countEvent_eq s t sel n <;> (rw [h]; try rfl)
@[simp] theorem State.countEvent_eps (s : State) (t sel n : Nat) : (s.countEvent t sel n).eps = s.eps := by
  obtain ⟨f, ev, h | h⟩ := State.countEvent_eq s t sel n <;> (rw [h]; try rfl)
@[simp] theorem State.countEvent_hostEps (s : State) (t sel n : Nat) : (s.countEvent t sel n).hostEps = s.hostEps := by
  obtain ⟨f, ev, h | h⟩ := State.countEvent_eq s t sel n <;> (rw [h]; try rfl)
@[simp] theorem State.countEvent_net (s : State) (t sel n : Nat) : (s.countEvent t sel n).net = s.net := by
  obtain ⟨f, ev, h | h⟩ := State.countEvent_eq s t sel n <;> (rw [h]; try rfl)
@[simp] theorem State.countEvent_staged (s : State) (t sel n : Nat) : (s.countEvent t sel n).staged = s.staged := by
  obtain ⟨f, ev, h | h⟩ := State.countEvent_eq s t sel n <;> (rw [h]; try rfl)
@[simp] theorem State.countEvent_reqs (s : State) (t sel n : Nat) : (s.countEvent t sel n).reqs = s.reqs := by
  obtain ⟨f, ev, h | h⟩ := State.countEvent_eq s t sel n <;> (rw [h]; try rfl)
@[simp] theorem State.countEvent_binds (s : State) (t sel n : Nat) : (s.countEvent t sel n).binds = s.binds := by
  obtain ⟨f, ev, h | h⟩ := State.countEvent_eq s t sel n <;> (rw [h]; try rfl)
@[simp] theorem State.countEvent_moves (s : State) (t sel n : Nat) : (s.countEvent t sel n).moves = s.moves := by
  obtain ⟨f, ev, h | h⟩ := State.countEvent_eq s t sel n <;> (rw [h]; try rfl)
@[simp] theorem State.countEvent_kills (s : State) (t sel n : Nat) : (s.countEvent t sel n).kills = s.kills := by
  obtain ⟨f, ev, h | h⟩ := State.countEvent_eq s t sel n <;> (rw [h]; try rfl)
@[simp] theorem State.countEvent_remotes (s : State) (t sel n : Nat) : (s.countEvent t sel n).remotes = s.remotes := by
  obtain ⟨f, ev, h | h⟩ := State.countEvent_eq s t sel n <;> (rw [h]; try rfl)
@[simp] theorem State.countEvent_lltlb (s : State) (t sel n : Nat) : (s.countEvent t sel n).lltlb = s.lltlb := by
  obtain ⟨f, ev, h | h⟩ := State.countEvent_eq s t sel n <;> (rw [h]; try rfl)
@[simp] theorem State.countEvent_lanes (s : State) (t sel n : Nat) : (s.countEvent t sel n).lanes = s.lanes := by
  obtain ⟨f, ev, h | h⟩ := State.countEvent_eq s t sel n <;> (rw [h]; try rfl)
@[simp] theorem State.countEvent_links (s : State) (t sel n : Nat) : (s.countEvent t sel n).links = s.links := by
  obtain ⟨f, ev, h | h⟩ := State.countEvent_eq s t sel n <;> (rw [h]; try rfl)
@[simp] theorem State.countEvent_reach (s : State) (t sel n : Nat) : (s.countEvent t sel n).reach = s.reach := by
  obtain ⟨f, ev, h | h⟩ := State.countEvent_eq s t sel n <;> (rw [h]; try rfl)
@[simp] theorem State.countEvent_routes (s : State) (t sel n : Nat) : (s.countEvent t sel n).routes = s.routes := by
  obtain ⟨f, ev, h | h⟩ := State.countEvent_eq s t sel n <;> (rw [h]; try rfl)
@[simp] theorem State.countEvent_directPeers (s : State) (t sel n : Nat) : (s.countEvent t sel n).directPeers = s.directPeers := by
  obtain ⟨f, ev, h | h⟩ := State.countEvent_eq s t sel n <;> (rw [h]; try rfl)
@[simp] theorem State.countEvent_fwQueue (s : State) (t sel n : Nat) : (s.countEvent t sel n).fwQueue = s.fwQueue := by
  obtain ⟨f, ev, h | h⟩ := State.countEvent_eq s t sel n <;> (rw [h]; try rfl)
@[simp] theorem State.countEvent_throttled (s : State) (t sel n : Nat) : (s.countEvent t sel n).throttled = s.throttled := by
  obtain ⟨f, ev, h | h⟩ := State.countEvent_eq s t sel n <;> (rw [h]; try rfl)
@[simp] theorem State.countEvent_stopped (s : State) (t sel n : Nat) : (s.countEvent t sel n).stopped = s.stopped := by
  obtain ⟨f, ev, h | h⟩ := State.countEvent_eq s t sel n <;> (rw [h]; try rfl)
@[simp] theorem State.countEvent_out (s : State) (t sel n : Nat) : (s.countEvent t sel n).out = s.out := by
  obtain ⟨f, ev, h | h⟩ := State.countEvent_eq s t sel n <;> (rw [h]; try rfl)
@[simp] theorem State.countEvent_running (s : State) (t sel n : Nat) : (s.countEvent t sel n).running = s.running := by
  obtain ⟨f, ev, h | h⟩ := State.countEvent_eq s t sel n <;> (rw [h]; try rfl)
@[simp] theorem State.countEvent_issueLeft (s : State) (t sel n : Nat) : (s.countEvent t sel n).issueLeft = s.issueLeft := by
  obtain ⟨f, ev, h | h⟩ := State.countEvent_eq s t sel n <;> (rw [h]; try rfl)
@[simp] theorem State.countEvent_nextId (s : State) (t sel n : Nat) : (s.countEvent t sel n).nextId = s.nextId := by
  obtain ⟨f, ev, h | h⟩ := State.countEvent_eq s t sel n <;> (rw [h]; try rfl)
@[simp] theorem State.countEvent_freeCtr (s : State) (t sel n : Nat) : (s.countEvent t sel n).freeCtr = s.freeCtr := by
  obtain ⟨f, ev, h | h⟩ := State.countEvent_eq s t sel n <;> (rw [h]; try rfl)
@[simp] theorem State.countEvent_tile_slots (s : State) (t sel n k : Nat) :
    ((s.countEvent t sel n).tile k).slots = (s.tile k).slots := by
  obtain ⟨f, ev, h | h⟩ := State.countEvent_eq s t sel n
  · rw [h]
    change ((s.updTile t fun x => { x with mons := f x.mons }).tile k).slots = _
    rw [State.updTile_tile]
    split
    · subst_vars; rfl
    · rfl
  · rw [h]
@[simp] theorem State.countEvent_tile_nextSeq (s : State) (t sel n k : Nat) :
    ((s.countEvent t sel n).tile k).nextSeq = (s.tile k).nextSeq := by
  obtain ⟨f, ev, h | h⟩ := State.countEvent_eq s t sel n
  · rw [h]
    change ((s.updTile t fun x => { x with mons := f x.mons }).tile k).nextSeq = _
    rw [State.updTile_tile]
    split
    · subst_vars; rfl
    · rfl
  · rw [h]
@[simp] theorem State.countEvent_tile_l1 (s : State) (t sel n k : Nat) :
    ((s.countEvent t sel n).tile k).l1 = (s.tile k).l1 := by
  obtain ⟨f, ev, h | h⟩ := State.countEvent_eq s t sel n
  · rw [h]
    change ((s.updTile t fun x => { x with mons := f x.mons }).tile k).l1 = _
    rw [State.updTile_tile]
    split
    · subst_vars; rfl
    · rfl
  · rw [h]
@[simp] theorem State.countEvent_tile_cb (s : State) (t sel n k : Nat) :
    ((s.countEvent t sel n).tile k).cb = (s.tile k).cb := by
  obtain ⟨f, ev, h | h⟩ := State.countEvent_eq s t sel n
  · rw [h]
    change ((s.updTile t fun x => { x with mons := f x.mons }).tile k).cb = _
    rw [State.updTile_tile]
    split
    · subst_vars; rfl
    · rfl
  · rw [h]
@[simp] theorem State.countEvent_tile_ports (s : State) (t sel n k : Nat) :
    ((s.countEvent t sel n).tile k).ports = (s.tile k).ports := by
  obtain ⟨f, ev, h | h⟩ := State.countEvent_eq s t sel n
  · rw [h]
    change ((s.updTile t fun x => { x with mons := f x.mons }).tile k).ports = _
    rw [State.updTile_tile]
    split
    · subst_vars; rfl
    · rfl
  · rw [h]
@[simp] theorem State.countEvent_tile_vbank (s : State) (t sel n k : Nat) :
    ((s.countEvent t sel n).tile k).vbank = (s.tile k).vbank := by
  obtain ⟨f, ev, h | h⟩ := State.countEvent_eq s t sel n
  · rw [h]
    change ((s.updTile t fun x => { x with mons := f x.mons }).tile k).vbank = _
    rw [State.updTile_tile]
    split
    · subst_vars; rfl
    · rfl
  · rw [h]
@[simp] theorem State.countEvent_tile_mbank (s : State) (t sel n k : Nat) :
    ((s.countEvent t sel n).tile k).mbank = (s.tile k).mbank := by
  obtain ⟨f, ev, h | h⟩ := State.countEvent_eq s t sel n
  · rw [h]
    change ((s.updTile t fun x => { x with mons := f x.mons }).tile k).mbank = _
    rw [State.updTile_tile]
    split
    · subst_vars; rfl
    · rfl
  · rw [h]
@[simp] theorem State.countEvent_tile_treg (s : State) (t sel n k : Nat) :
    ((s.countEvent t sel n).tile k).treg = (s.tile k).treg := by
  obtain ⟨f, ev, h | h⟩ := State.countEvent_eq s t sel n
  · rw [h]
    change ((s.updTile t fun x => { x with mons := f x.mons }).tile k).treg = _
    rw [State.updTile_tile]
    split
    · subst_vars; rfl
    · rfl
  · rw [h]
@[simp] theorem State.countEvent_tile_tsh (s : State) (t sel n k : Nat) :
    ((s.countEvent t sel n).tile k).tsh = (s.tile k).tsh := by
  obtain ⟨f, ev, h | h⟩ := State.countEvent_eq s t sel n
  · rw [h]
    change ((s.updTile t fun x => { x with mons := f x.mons }).tile k).tsh = _
    rw [State.updTile_tile]
    split
    · subst_vars; rfl
    · rfl
  · rw [h]
@[simp] theorem State.countEvent_tile_cbt (s : State) (t sel n k : Nat) :
    ((s.countEvent t sel n).tile k).cbt = (s.tile k).cbt := by
  obtain ⟨f, ev, h | h⟩ := State.countEvent_eq s t sel n
  · rw [h]
    change ((s.updTile t fun x => { x with mons := f x.mons }).tile k).cbt = _
    rw [State.updTile_tile]
    split
    · subst_vars; rfl
    · rfl
  · rw [h]
@[simp] theorem State.countEvent_tile_owners (s : State) (t sel n k : Nat) :
    ((s.countEvent t sel n).tile k).owners = (s.tile k).owners := by
  obtain ⟨f, ev, h | h⟩ := State.countEvent_eq s t sel n
  · rw [h]
    change ((s.updTile t fun x => { x with mons := f x.mons }).tile k).owners = _
    rw [State.updTile_tile]
    split
    · subst_vars; rfl
    · rfl
  · rw [h]
@[simp] theorem State.countEvent_tile_laneReqs (s : State) (t sel n k : Nat) :
    ((s.countEvent t sel n).tile k).laneReqs = (s.tile k).laneReqs := by
  obtain ⟨f, ev, h | h⟩ := State.countEvent_eq s t sel n
  · rw [h]
    change ((s.updTile t fun x => { x with mons := f x.mons }).tile k).laneReqs = _
    rw [State.updTile_tile]
    split
    · subst_vars; rfl
    · rfl
  · rw [h]
@[simp] theorem State.countEvent_tile_an (s : State) (t sel n k : Nat) :
    ((s.countEvent t sel n).tile k).an = (s.tile k).an := by
  obtain ⟨f, ev, h | h⟩ := State.countEvent_eq s t sel n
  · rw [h]
    change ((s.updTile t fun x => { x with mons := f x.mons }).tile k).an = _
    rw [State.updTile_tile]
    split
    · subst_vars; rfl
    · rfl
  · rw [h]
@[simp] theorem State.countEvent_tile_sint (s : State) (t sel n k : Nat) :
    ((s.countEvent t sel n).tile k).sint = (s.tile k).sint := by
  obtain ⟨f, ev, h | h⟩ := State.countEvent_eq s t sel n
  · rw [h]
    change ((s.updTile t fun x => { x with mons := f x.mons }).tile k).sint = _
    rw [State.updTile_tile]
    split
    · subst_vars; rfl
    · rfl
  · rw [h]
@[simp] theorem State.countEvent_tile_frecs (s : State) (t sel n k : Nat) :
    ((s.countEvent t sel n).tile k).frecs = (s.tile k).frecs := by
  obtain ⟨f, ev, h | h⟩ := State.countEvent_eq s t sel n
  · rw [h]
    change ((s.updTile t fun x => { x with mons := f x.mons }).tile k).frecs = _
    rw [State.updTile_tile]
    split
    · subst_vars; rfl
    · rfl
  · rw [h]
@[simp] theorem State.countEvent_proc (s : State) (t sel n : Nat) (k : Nat) : (s.countEvent t sel n).proc k = s.proc k := by simp [State.proc]
@[simp] theorem State.countEvent_part (s : State) (t sel n : Nat) (k : Nat) : (s.countEvent t sel n).part k = s.part k := by simp [State.part]
@[simp] theorem State.countEvent_ep (s : State) (t sel n : Nat) (k : Nat) : (s.countEvent t sel n).ep k = s.ep k := by simp [State.ep]
@[simp] theorem State.countEvent_lane (s : State) (t sel n : Nat) (k : Nat) : (s.countEvent t sel n).lane k = s.lane k := by simp [State.lane]
@[simp] theorem State.countEvent_sramByte (s : State) (t sel n : Nat) (k : Nat) : (s.countEvent t sel n).sramByte k = s.sramByte k := by simp [State.sramByte]
@[simp] theorem State.countEvent_hbmByte (s : State) (t sel n p k : Nat) : (s.countEvent t sel n).hbmByte p k = s.hbmByte p k := by simp [State.hbmByte]
@[simp] theorem State.countEvent_me (s : State) (t sel n : Nat) : (s.countEvent t sel n).me = s.me := by simp [State.me]
@[simp] theorem State.countEvent_reg (s : State) (t sel n : Nat) (r : BitVec 5) : (s.countEvent t sel n).reg r = s.reg r := by simp [State.reg]

/-- What completing an instruction makes of its process (R32, R41). -/
def Proc.completed (p : Proc) (cycle : Nat) (next : BitVec 48) : Proc :=
  { p.enter .ready cycle with
    pc := next, lastIssue := some cycle, since := cycle + 1, vpushed := Tab.cut p.vpushed p.pc.toNat, need := 0
    dcont := if p.handler then p.dcont else none }

/-- Completing without single step. -/
theorem State.completeAt_plain (s : State) (h op : Nat) (next : BitVec 48) (hs : (s.proc h).ss = false) :
    s.completeAt h op next = (s.updProc h fun q => q.completed s.cycle next).countEvent (s.proc h).tile 1 1 := by
  simp only [State.completeAt, Proc.steps, hs, Bool.false_and, Bool.false_eq_true, if_false]
  rfl
theorem State.jump_plain (s : State) (op : Nat) (next : BitVec 48) (hs : s.me.ss = false) :
    s.jump op next = (s.updProc s.running fun q => q.completed s.cycle next).countEvent s.me.tile 1 1 :=
  State.completeAt_plain s s.running op next hs
theorem State.retire_plain (s : State) (op : Nat) (hs : s.me.ss = false) :
    s.retire op = (s.updProc s.running fun q => q.completed s.cycle (s.me.pc + 4)).countEvent s.me.tile 1 1 :=
  State.completeAt_plain s s.running op (s.me.pc + 4) hs

/-- The running process after a jump. -/
theorem State.jump_me (s : State) (op : Nat) (next : BitVec 48) (hs : s.me.ss = false) :
    (s.jump op next).me = s.me.completed s.cycle next := by
  rw [State.jump_plain s op next hs]; simp
/-- The running process after it has retired. -/
theorem State.retire_me (s : State) (op : Nat) (hs : s.me.ss = false) :
    (s.retire op).me = s.me.completed s.cycle (s.me.pc + 4) := State.jump_me s op (s.me.pc + 4) hs

/-- A jump that ends an instruction: the next one is at `next`, and nothing else has changed. -/
theorem State.jump_only (s : State) (op : Nat) (next : BitVec 48) (hs : s.me.ss = false) :
    OnlyRegs s (s.jump op next) [] next := by
  have hm := State.jump_me s op next hs
  rw [State.jump_plain s op next hs] at hm ⊢
  refine ⟨⟨?_, ?_⟩, ⟨?_, ?_, ?_⟩, ?_, ⟨?_, ?_, ?_, ?_⟩, ⟨?_, ?_, ?_, ?_, ?_, ?_, ?_⟩, ⟨?_, ?_, ?_, ?_, ?_, ?_, ?_, ?_⟩⟩
  all_goals first
    | (intro r _; simp only [State.reg, hm]; exact Proc.reg_congr rfl _)
    | (intro k; simp only [hm]; first | exact Proc.cap_congr rfl _ | exact Proc.chan_congr rfl _)
    | (rw [hm]; rfl)
    | (intro h hne; simp [State.updProc_proc_other _ _ (Ne.symm hne)])
    | (intro n m; simp)
    | (intro n; simp)
    | simp

/-- Two steps of which the second keeps everything but the place of the next instruction. -/
theorem OnlyRegs.after {s u t : State} {ds : List (BitVec 5)} {pc : BitVec 48} (hr : SameRegs s u ds) (hs : u.me.specials = s.me.specials)
    (hm : SameMemory s u) (hu : SameUnits s u) (hx : SameRest s u) (h : OnlyRegs u t [] pc) : OnlyRegs s t ds pc where
  went := h.went
  regs := ⟨fun r n => (h.regs.regs r (by simp)).trans (hr.regs r n), fun k => (h.regs.caps k).trans (hr.caps k),
    fun c => (h.regs.chans c).trans (hr.chans c)⟩
  special := h.special.trans hs
  memory := ⟨fun k => (h.memory.sram k).trans (hm.sram k), fun p k => (h.memory.hbm p k).trans (hm.hbm p k),
    fun g => (h.memory.sramTag g).trans (hm.sramTag g), fun g => (h.memory.hbmTag g).trans (hm.hbmTag g)⟩
  units := ⟨fun n => (h.units.vbank n).trans (hu.vbank n), fun n => (h.units.mbank n).trans (hu.mbank n),
    fun n => (h.units.treg n).trans (hu.treg n), fun n => (h.units.tsh n).trans (hu.tsh n), fun n => (h.units.cbt n).trans (hu.cbt n),
    fun n => (h.units.an n).trans (hu.an n), fun n => (h.units.owners n).trans (hu.owners n)⟩
  rest := ⟨h.rest.running.trans hx.running, fun k n => (h.rest.procs k (by rw [hx.running]; exact n)).trans (hx.procs k n),
    fun n => (h.rest.parts n).trans (hx.parts n), fun e => (h.rest.eps e).trans (hx.eps e), h.rest.pcap.trans hx.pcap,
    h.rest.pset.trans hx.pset, h.rest.hepset.trans hx.hepset, h.rest.cycle.trans hx.cycle⟩

theorem SameMemory.refl (s : State) : SameMemory s s := ⟨fun _ => rfl, fun _ _ => rfl, fun _ => rfl, fun _ => rfl⟩
theorem SameUnits.refl (s : State) : SameUnits s s := ⟨fun _ => rfl, fun _ => rfl, fun _ => rfl, fun _ => rfl, fun _ => rfl, fun _ => rfl, fun _ => rfl⟩

/-- Changing the running process alone: memory, units and the rest are as before. -/
theorem State.updMe_memory (s : State) (f : Proc → Proc) : SameMemory s (s.updMe f) := ⟨fun _ => rfl, fun _ _ => rfl, fun _ => rfl, fun _ => rfl⟩
theorem State.updMe_units (s : State) (f : Proc → Proc) : SameUnits s (s.updMe f) :=
  ⟨fun _ => rfl, fun _ => rfl, fun _ => rfl, fun _ => rfl, fun _ => rfl, fun _ => rfl, fun _ => rfl⟩
theorem State.updMe_rest (s : State) (f : Proc → Proc) : SameRest s (s.updMe f) :=
  ⟨rfl, fun _ n => State.updProc_proc_other s f (Ne.symm n), fun _ => rfl, fun _ => rfl, rfl, rfl, rfl, rfl⟩

/-- A register of the running process after a write of one (R28). -/
theorem State.reg_setReg (s : State) (d r : BitVec 5) (v : Word) : (s.setReg d v).reg r = if d = r ∧ d ≠ 0 then v else s.reg r := by
  have h : (s.setReg d v).me = s.me.setReg d.toNat v := State.updMe_me s _
  have e1 : (d.toNat = r.toNat) = (d = r) := propext BitVec.toNat_inj
  have e2 : (d.toNat = 0) = (d = 0) := propext (BitVec.toNat_inj (x := d) (y := 0))
  simp only [State.reg, h, Proc.reg_setReg, e1, ne_eq, e2]
theorem State.setReg_me (s : State) (d : BitVec 5) (v : Word) : (s.setReg d v).me = s.me.setReg d.toNat v := State.updMe_me s _
theorem State.setReg_ss (s : State) (d : BitVec 5) (v : Word) : (s.setReg d v).me.ss = s.me.ss := by
  rw [State.setReg_me]; simp [Proc.ss]
theorem State.setReg_specials (s : State) (d : BitVec 5) (v : Word) : (s.setReg d v).me.specials = s.me.specials := by
  rw [State.setReg_me]; simp [Proc.specials]
theorem State.setReg_same (s : State) (d : BitVec 5) (v : Word) : SameRegs s (s.setReg d v) [d] where
  regs r h := by
    rw [State.reg_setReg]
    have : d ≠ r := fun e => h (by simp [e])
    simp [this]
  caps k := by rw [State.setReg_me]; exact Proc.cap_congr (by simp) k
  chans c := by rw [State.setReg_me]; exact Proc.chan_congr (by simp) c

/-- Writing one register and going on: the register holds the value, s0 zero, and nothing else has changed. -/
theorem State.setReg_jump (s : State) (op : Nat) (d : BitVec 5) (v : Word) (next : BitVec 48) (hs : s.me.ss = false) :
    ((s.setReg d v).jump op next).reg d = (if d = 0 then 0 else v) ∧ OnlyRegs s ((s.setReg d v).jump op next) [d] next := by
  have hs' : (s.setReg d v).me.ss = false := (State.setReg_ss s d v).trans hs
  have h := State.jump_only (s.setReg d v) op next hs'
  refine ⟨?_, OnlyRegs.after (State.setReg_same s d v) (State.setReg_specials s d v) (State.updMe_memory s _) (State.updMe_units s _)
    (State.updMe_rest s _) h⟩
  rw [h.regs.regs d (by simp), State.reg_setReg]
  by_cases h0 : d = 0
  · subst h0; simp [State.reg]
  · rw [if_pos ⟨rfl, h0⟩, if_neg h0]

/-- Free registers let an instruction go on (R31). -/
theorem State.withRegs_free (s : State) (rs : List (BitVec 5)) (k : State) (h : s.free rs) : s.withRegs rs k = k := by
  have hf : (rs.find? fun r => s.me.isPending r.toNat) = none := by
    rw [List.find?_eq_none]; intro r hr; simp [h.1 r hr]
  simp only [State.withRegs, hf]
  rw [if_neg (Nat.not_lt.mpr h.2)]
/-- A pending register blocks (R31). -/
theorem State.withRegs_pending (s : State) (rs : List (BitVec 5)) (k : State) (r : BitVec 5)
    (h : (rs.find? fun r => s.me.isPending r.toNat) = some r) : s.withRegs rs k = s.block (.blockedToken r.toNat) 0 := by
  simp only [State.withRegs, h]
theorem State.afterCommit_none (s : State) (k : State → State) (h : s.me.strip = none) : s.afterCommit k = k s := by
  simp only [State.afterCommit, h]
/-- With no open strip and free registers, an instruction that commits goes on at once. -/
theorem State.withRegsCommit_free (s : State) (rs : List (BitVec 5)) (k : State → State) (h : s.free rs) (hn : s.me.strip = none) :
    s.withRegsCommit rs k = k s := by
  unfold State.withRegsCommit
  rw [State.withRegs_free _ _ _ h, State.afterCommit_none _ _ hn, State.withRegs_free _ _ _ h]
theorem State.afterGrant_none (s k : State) (h : s.me.pgrant = none) : s.afterGrant k = k := by
  simp only [State.afterGrant, h]

/-- A scalar instruction with one result. -/
theorem State.alu_next (s : State) (op : Nat) (d : BitVec 5) (rs : List (BitVec 5)) (v : Word) (hf : s.free (rs ++ [d]))
    (hs : s.me.ss = false) :
    ∃ t, s.alu op d rs v = .next t ∧ t.reg d = (if d = 0 then 0 else v) ∧ OnlyRegs s t [d] (s.me.pc + 4) := by
  refine ⟨_, rfl, ?_⟩
  rw [State.withRegs_free s _ _ hf]
  have e : (s.setReg d v).retire op = (s.setReg d v).jump op (s.me.pc + 4) := by
    unfold State.retire; rw [State.setReg_me]; simp
  rw [e]
  exact State.setReg_jump s op d v (s.me.pc + 4) hs

end Sys2Proof.Machine
end

