-- ==== Sys2Proof/Laws/Quiet.lean ====
section
/-! SUPPORT. What the networks change when something is handed to them: links, requests, what is due, what leaves the module, the
combining buffers, the TLBs, and of the processes only a writer's note of what left through a relay and a wake-up. -/

namespace Sys2Proof.Machine

/-- A process without its channel registers and without its scheduling. -/
def Proc.core (p : Proc) : Proc := { p with chans := [], pst := .ready, epoch := 0, since := 0 }
/-- A tile without its combining buffer and its L1 TLB. -/
def Tile.core (x : Tile) : Tile := { x with cb := [], l1 := [] }
/-- A channel register without what its writer notes of messages on their way to a peer. -/
def ChanReg.core (x : ChanReg) : ChanReg := { x with relayed := [], relayOut := 0, sent := 0, probe := none }
/-- A state without what the networks change. -/
def State.still (s : State) : State :=
  { s with procs := [], tiles := [], links := [], lanes := [], out := [], events := [], reqs := [], remotes := [], lltlb := [], nextId := 0,
           freeCtr := 0 }
/-- From `s` to `t` only the networks have changed. -/
structure Quiet (s t : State) : Prop where
  still : t.still = s.still
  tiles : ∀ n, (t.tile n).core = (s.tile n).core
  procs : ∀ h, (t.proc h).core = (s.proc h).core
  pst : ∀ h, (t.proc h).pst = (s.proc h).pst ∨ ∃ c, (s.proc h).pst = .blockedWrite c ∧ (t.proc h).pst = .ready
  chans : ∀ h c, ((t.proc h).chan c).core = ((s.proc h).chan c).core

theorem Quiet.refl (s : State) : Quiet s s := ⟨rfl, fun _ => rfl, fun _ => rfl, fun _ => .inl rfl, fun _ _ => rfl⟩
theorem Quiet.trans {s t u : State} (a : Quiet s t) (b : Quiet t u) : Quiet s u where
  still := b.still.trans a.still
  tiles n := (b.tiles n).trans (a.tiles n)
  procs h := (b.procs h).trans (a.procs h)
  pst h := by
    rcases a.pst h with e | ⟨c, e, f⟩
    · rcases b.pst h with e' | ⟨c, e', f'⟩
      · exact .inl (e'.trans e)
      · exact .inr ⟨c, e ▸ e', f'⟩
    · rcases b.pst h with e' | ⟨c', e', f'⟩
      · exact .inr ⟨c, e, e'.trans f⟩
      · rw [f] at e'; cases e'
  chans h c := (b.chans h c).trans (a.chans h c)
/-- A step that leaves processes and tiles alone. -/
theorem Quiet.of_same {s t : State} (a : t.still = s.still) (b : t.tiles = s.tiles) (c : t.procs = s.procs) : Quiet s t := by
  refine ⟨a, fun n => ?_, fun h => ?_, fun h => .inl ?_, fun h k => ?_⟩ <;> simp only [State.tile, State.proc, b, c]
/-- A fold of quiet steps. -/
theorem Quiet.foldl {β : Type} (l : List β) (f : State → β → State) (h : ∀ s x, Quiet s (f s x)) : ∀ s, Quiet s (l.foldl f s) := by
  induction l with
  | nil => exact Quiet.refl
  | cons x l ih => exact fun s => (h s x).trans (ih _)

theorem Quiet.afterCycles (s : State) (n : Nat) (i : Instr) : Quiet s (s.afterCycles n i) := .of_same rfl rfl rfl
theorem Quiet.later (s : State) (i : Instr) : Quiet s (s.later i) := .of_same rfl rfl rfl
theorem Quiet.laterBehind (s : State) (f : Instr → Bool) (i : Instr) : Quiet s (s.laterBehind f i) := .of_same rfl rfl rfl
theorem Quiet.within (s : State) (n : Nat) (i : Instr) : Quiet s (s.within n i) := .of_same rfl rfl rfl
theorem Quiet.cancel (s : State) (i : Instr) : Quiet s (s.cancel i) := .of_same rfl rfl rfl
theorem Quiet.emit (s : State) (o : OutMsg) : Quiet s (s.emit o) := .of_same rfl rfl rfl
theorem Quiet.updLink (s : State) (n q : Nat) (f : Link → Link) : Quiet s (s.updLink n q f) := .of_same rfl rfl rfl
theorem Quiet.fresh (s : State) : Quiet s s.fresh.1 := .of_same rfl rfl rfl

theorem Quiet.quarLink (s : State) (part peer : Nat) : Quiet s (s.quarLink part peer) := by
  unfold State.quarLink
  exact (Quiet.updLink s part peer fun k => { k with quar := true, training := none }).trans
    (Quiet.foldl _ (fun s (e : Nat × Lane) => s.updLane e.1 fun x => { x with st := .quar }) (fun _ _ => .of_same rfl rfl rfl) _)
/-- A quiet step that is taken in one case only. -/
theorem Quiet.ifThen {s t : State} (c : Prop) (d : Decidable c) (q : Quiet s t) : Quiet s (@ite State c d t s) := by
  split
  · exact q
  · exact .refl s
theorem Quiet.ifElse {s t : State} (c : Prop) (d : Decidable c) (q : Quiet s t) : Quiet s (@ite State c d s t) := by
  split
  · exact .refl s
  · exact q
theorem Quiet.closeGroup (s : State) (part peer : Nat) : Quiet s (s.closeGroup part peer) := by
  unfold State.closeGroup
  dsimp only
  split
  · exact .refl s
  · refine Quiet.trans ?_ (Quiet.ifThen _ _ (Quiet.quarLink _ _ _))
    exact ((Quiet.ifElse _ _ (Quiet.emit _ _)).trans (Quiet.updLink _ _ _ _)).trans (Quiet.cancel _ _)

theorem Quiet.transmit (part peer : Nat) : ∀ (n : Nat) (s : State), Quiet s (s.transmit part peer n)
  | 0, s => .refl s
  | n + 1, s => by
    unfold State.transmit
    dsimp only
    split
    · exact .refl s
    · split
      · exact .refl s
      · refine Quiet.trans ?_ (Quiet.transmit part peer n _)
        split
        · exact ((Quiet.emit _ _).trans (Quiet.updLink _ _ _ _)).trans (Quiet.closeGroup _ _ _)
        · exact (((Quiet.emit _ _).trans (Quiet.updLink _ _ _ _)).trans (Quiet.cancel _ _)).trans (Quiet.afterCycles _ _ _)

/-- A change of a process's scheduling, or of what its channel registers note. -/
theorem Quiet.updProc (s : State) (h : Nat) (f : Proc → Proc) (hc : (f (s.proc h)).core = (s.proc h).core)
    (hp : (f (s.proc h)).pst = (s.proc h).pst ∨ ∃ c, (s.proc h).pst = .blockedWrite c ∧ (f (s.proc h)).pst = .ready)
    (hk : ∀ c, ((f (s.proc h)).chan c).core = ((s.proc h).chan c).core) : Quiet s (s.updProc h f) where
  still := rfl
  tiles _ := rfl
  procs k := by rw [State.updProc_proc]; split <;> simp_all
  pst k := by rw [State.updProc_proc]; split <;> simp_all
  chans k c := by rw [State.updProc_proc]; split <;> simp_all
/-- A writer's note of what is on its way. -/
theorem Quiet.noteChan (s : State) (h c : Nat) (f : ChanReg → ChanReg) (hf : ∀ x, (f x).core = x.core) : Quiet s (s.updChan h c f) := by
  refine Quiet.updProc s h (fun p => p.setChan c (f (p.chan c))) rfl (.inl rfl) fun d => ?_
  rw [Proc.chan_setChan]
  split
  · subst_vars; exact hf _
  · rfl
theorem Quiet.noteRelayed (s : State) (wid n : Nat) : Quiet s (s.noteRelayed wid n) := Quiet.noteChan _ _ _ _ fun _ => rfl
theorem Quiet.cutFlits (s : State) (part peer via : Nat) (rw : Word) (w : Nat × List Word × Nat) : Quiet s (s.cutFlits part peer via rw w) :=
  (Quiet.updLink _ _ _ _).trans (Quiet.transmit _ _ _ _)
theorem Quiet.askArrived (s : State) (part wid : Nat) : Quiet s (s.askArrived part wid) := by
  unfold State.askArrived
  dsimp only
  split
  · split
    · exact .refl s
    · refine Quiet.trans (Quiet.noteChan s (wid / 16) (wid % 16) (fun y => { y with probe := some ((s.proc (wid / 16)).chan (wid % 16)).sent })
        fun _ => rfl) ?_
      split
      · exact .updLink _ _ _ _
      · exact .cutFlits _ _ _ _ _ _
  · exact .refl s
/-- A wake-up of a writer that waits for credits. -/
theorem Quiet.wakeWriter (s : State) (h c : Nat) : Quiet s (s.wake h (.blockedWrite c)) := by
  unfold State.wake
  split
  · rename_i hp
    exact Quiet.updProc s h _ rfl (.inr ⟨c, hp, rfl⟩) fun _ => rfl
  · exact .refl s

/-- A waiting message that goes, or is refused. -/
theorem Quiet.pumpOne {s t : State} {part peer : Nat} {w : Nat × List Word × Nat} (h : s.pumpOne part peer w = some t) : Quiet s t := by
  unfold State.pumpOne at h
  dsimp only at h
  split at h
  · cases h
  · split at h
    · split at h
      · injection h with h
        subst h
        split
        · exact .afterCycles _ _ _
        · exact Quiet.ifThen _ _ ((Quiet.noteRelayed _ _ _).trans (.afterCycles _ _ _))
      · cases h
    · split at h
      · cases h
      · injection h with h
        subst h
        refine Quiet.trans ?_ (Quiet.cutFlits _ _ _ _ _ _)
        refine Quiet.trans ?_ (Quiet.ifThen _ _ (.wakeWriter _ _ _))
        refine Quiet.ifElse _ _ ?_
        split
        · exact .noteChan _ _ _ _ fun _ => rfl
        · exact .noteRelayed _ _ _
theorem Quiet.pumpStep (part peer : Nat) (a : State × List Nat) (w : Nat × List Word × Nat) : Quiet a.1 (State.pumpStep part peer a w).1 := by
  have keep : Quiet a.1 (a.1.updLink part peer fun k => { k with waiting := k.waiting ++ [w] }) := .updLink _ _ _ _
  unfold State.pumpStep
  dsimp only
  split
  · exact keep
  · split
    · rename_i h
      exact Quiet.pumpOne h
    · exact keep.trans (.askArrived _ _ _)
/-- A fold that hands things over and notes something beside the state. -/
theorem Quiet.foldlPair {β γ : Type} (l : List β) (f : State × γ → β → State × γ) (h : ∀ s x, Quiet s.1 (f s x).1) :
    ∀ s, Quiet s.1 (l.foldl f s).1 := by
  induction l with
  | nil => exact fun s => Quiet.refl s.1
  | cons x l ih => exact fun s => (h s x).trans (ih _)
theorem Quiet.linkPump (s : State) (part peer : Nat) : Quiet s (s.linkPump part peer) :=
  (Quiet.updLink s part peer fun k => { k with waiting := [] }).trans (Quiet.foldlPair (γ := List Nat) _ _ (Quiet.pumpStep part peer) (_, []))
theorem Quiet.linkSend (s : State) (part peer vnet tile index : Nat) (slots : List Word) (wid : Nat) :
    Quiet s (s.linkSend part peer vnet tile index slots wid) := (Quiet.updLink _ _ _ _).trans (Quiet.linkPump _ _ _)
/-- A request that starts is put on the list of what is due, or handed to a link. -/
theorem Quiet.sendReq (s : State) (id : Nat) (r : Req) : Quiet s (s.sendReq id r) := by
  unfold State.sendReq
  split
  · exact .later _ _
  · exact .laterBehind _ _ _
  · dsimp only
    refine Quiet.trans ?_ (Quiet.linkSend _ _ _ _ _ _ _ _)
    exact .of_same rfl rfl rfl
theorem Quiet.startReq (s : State) (id : Nat) : Quiet s (s.startReq id) := by
  unfold State.startReq
  split
  · exact .refl s
  · split
    · exact .sendReq _ _ _
    · split
      · exact .of_same rfl rfl rfl
      · split
        · exact .of_same rfl rfl rfl
        · refine Quiet.trans ?_ (Quiet.sendReq _ _ _)
          exact .of_same rfl rfl rfl
        · exact .of_same rfl rfl rfl
theorem Quiet.send (s : State) (r : Req) : Quiet s (s.send r).1 := by
  unfold State.send
  dsimp only
  refine Quiet.trans (Quiet.fresh s) ?_
  split
  · refine Quiet.trans ?_ (Quiet.startReq _ _)
    exact .of_same rfl rfl rfl
  · exact .of_same rfl rfl rfl
/-- A change of a combining buffer. -/
theorem Quiet.cbChange (s : State) (t : Nat) (f : Tile → Tab CbEntry) : Quiet s (s.updTile t fun x => { x with cb := f x }) := by
  refine ⟨rfl, fun n => ?_, fun _ => rfl, fun _ => .inl rfl, fun _ _ => rfl⟩
  rw [State.updTile_tile]; split
  · subst_vars; rfl
  · rfl
theorem Quiet.cbDrain (s : State) (t n : Nat) : Quiet s (s.cbDrain t n).1 := by
  unfold State.cbDrain
  split
  · exact .refl s
  · refine Quiet.trans ((Quiet.cbChange s t fun x => Tab.cut x.cb n).trans (Quiet.cancel _ (.cbIdleDrain t n))) ?_
    exact Quiet.foldlPair (γ := List Nat) _ _ (by rintro ⟨u, ids⟩ x; exact Quiet.send _ _) (_, [])
theorem Quiet.cbDrainAll (s : State) (h : Nat) : Quiet s (s.cbDrainAll h) := Quiet.foldl _ _ (fun s _ => Quiet.cbDrain s _ _) s
theorem Quiet.cbDrainAt (s : State) (h typ : Nat) (p : Place) (n : Nat) : Quiet s (s.cbDrainAt h typ p n).1 :=
  Quiet.foldlPair (γ := List Nat) _ _ (by rintro ⟨u, ids⟩ x; exact Quiet.cbDrain _ _ _) (s, [])
theorem Quiet.cbDrainTouched (s : State) (h : Nat) (p : Place) (n : Nat) : Quiet s (s.cbDrainTouched h p n).1 :=
  Quiet.foldlPair (γ := List Nat) _ _ (by rintro ⟨u, ids⟩ x; exact Quiet.cbDrain _ _ _) (s, [])
theorem Quiet.release (s : State) (h : Nat) : Quiet s (s.release h).1 := Quiet.cbDrainAll s h
theorem Quiet.cbPut (s : State) (h typ : Nat) (w : Wr) (pc : BitVec 48) (opcode : Nat) : Quiet s (s.cbPut h typ w pc opcode) := by
  unfold State.cbPut
  dsimp only
  split
  · exact (((Quiet.fresh s).trans (Quiet.cbChange _ _ fun x => Tab.put x.cb _ _)).trans (Quiet.cancel _ _)).trans (Quiet.afterCycles _ _ _)
  · refine Quiet.trans ?_ (((Quiet.fresh _).trans (Quiet.cbChange _ _ fun x => Tab.put x.cb _ _)).trans (Quiet.afterCycles _ _ _))
    split
    · split
      · exact .cbDrain _ _ _
      · exact .refl _
    · exact .refl _
theorem Quiet.cbStore (s : State) (h typ : Nat) (w : Wr) (pc : BitVec 48) (opcode : Nat) : Quiet s (s.cbStore h typ w pc opcode) := by
  unfold State.cbStore
  dsimp only
  split
  · exact .cbPut _ _ _ _ _ _
  · exact (Quiet.cbPut _ _ _ _ _ _).trans (.cbPut _ _ _ _ _ _)

/-- A change of a tile's L1 TLB. -/
theorem Quiet.l1Change (s : State) (t : Nat) (f : Tile → List TlbEntry) : Quiet s (s.updTile t fun x => { x with l1 := f x }) := by
  refine ⟨rfl, fun n => ?_, fun _ => rfl, fun _ => .inl rfl, fun _ _ => rfl⟩
  rw [State.updTile_tile]; split
  · subst_vars; rfl
  · rfl
theorem Quiet.fillL1 (s : State) (t va : Nat) (e : TlbEntry) : Quiet s (s.fillL1 t va e) := by
  unfold State.fillL1
  refine Quiet.trans ?_ (Quiet.l1Change _ t fun x => _)
  exact .of_same rfl rfl rfl
theorem Quiet.fillLL (s : State) (d : Nat) (e : TlbEntry) : Quiet s (s.fillLL d e) := .of_same rfl rfl rfl
theorem Quiet.walkError (s : State) (t part va : Nat) : Quiet s (s.walkError t part va) := by
  unfold State.walkError
  split
  · exact .refl s
  · exact Quiet.send _ _
/-- A translation fills TLBs at most (R98, R99). -/
theorem Quiet.xlate (s : State) (t part va : Nat) (p : Perm) : Quiet s (s.xlate t part va p).1 := by
  unfold State.xlate
  split
  · exact .refl s
  · split
    · exact .refl s
    · split
      · exact .fillL1 _ _ _ _
      · split
        · exact .walkError _ _ _ _
        · exact (Quiet.fillLL _ _ _).trans (Quiet.fillL1 _ _ _ _)
theorem Quiet.placeDram (s : State) (c : Ctx) (a : Nat) (p : Perm) : Quiet s (s.placeDram c a p).1 := by
  unfold State.placeDram
  split
  · exact .refl s
  · exact .xlate _ _ _ _ _
theorem Quiet.placeSym (s : State) (c : Ctx) (a n : Nat) (p : Perm) : Quiet s (s.placeSym c a n p).1 := by
  unfold State.placeSym
  dsimp only
  split
  · exact .refl s
  · split
    · have h := Quiet.xlate s c.tile c.part ((s.part c.part).symbase + a) p
      repeat' split
      all_goals exact h
    · split <;> exact .refl s
/-- Forming an address fills TLBs at most (R78, R79). -/
theorem Quiet.placeOf (s : State) (c : Ctx) (a : Word) (n al : Nat) (p : Perm) : Quiet s (s.placeOf c a n al p).1 := by
  unfold State.placeOf
  split
  · exact .refl s
  · split
    · exact .refl s
    · split
      · exact .refl s
      · exact .refl s
      · exact .placeDram _ _ _ _
      · exact .refl s
      · exact .placeSym _ _ _ _ _
      · exact .refl s
theorem Quiet.placeMt (s : State) (c : Ctx) (a : Word) (n al : Nat) (p : Perm) : Quiet s (s.placeMt c a n al p).1 := by
  unfold State.placeMt
  split
  · exact .refl s
  · exact .placeOf _ _ _ _ _ _

/-- Memory and tags stand as they were. -/
theorem Quiet.memory {s t : State} (q : Quiet s t) : SameMemory s t where
  sram k := by
    have h : t.sram = s.sram := by have e := congrArg State.sram q.still; exact e
    simp only [State.sramByte, h]
  hbm part k := by
    have h1 : t.hbm = s.hbm := by have e := congrArg State.hbm q.still; exact e
    have h2 : t.hbmEpoch = s.hbmEpoch := by have e := congrArg State.hbmEpoch q.still; exact e
    have h3 : t.parts = s.parts := by have e := congrArg State.parts q.still; exact e
    simp only [State.hbmByte, State.part, h1, h2, h3]; rfl
  sramTag g := by
    have h : t.sramTags = s.sramTags := by have e := congrArg State.sramTags q.still; exact e
    rw [h]
  hbmTag g := by
    have h : t.hbmTags = s.hbmTags := by have e := congrArg State.hbmTags q.still; exact e
    rw [h]
/-- The units of every tile stand as they were. -/
theorem Quiet.units {s t : State} (q : Quiet s t) : SameUnits s t where
  vbank n := by have e := congrArg Tile.vbank (q.tiles n); exact e
  mbank n := by have e := congrArg Tile.mbank (q.tiles n); exact e
  treg n := by have e := congrArg Tile.treg (q.tiles n); exact e
  tsh n := by have e := congrArg Tile.tsh (q.tiles n); exact e
  cbt n := by have e := congrArg Tile.cbt (q.tiles n); exact e
  an n := by have e := congrArg Tile.an (q.tiles n); exact e
  owners n := by have e := congrArg Tile.owners (q.tiles n); exact e
theorem Quiet.running {s t : State} (q : Quiet s t) : t.running = s.running := by have e := congrArg State.running q.still; exact e
theorem Quiet.cycle {s t : State} (q : Quiet s t) : t.cycle = s.cycle := by have e := congrArg State.cycle q.still; exact e
theorem Quiet.part {s t : State} (q : Quiet s t) (n : Nat) : t.part n = s.part n := by
  have h : t.parts = s.parts := by have e := congrArg State.parts q.still; exact e
  simp only [State.part, h]
theorem Quiet.ep {s t : State} (q : Quiet s t) (n : Nat) : t.ep n = s.ep n := by
  have h : t.eps = s.eps := by have e := congrArg State.eps q.still; exact e
  simp only [State.ep, h]
theorem Quiet.me {s t : State} (q : Quiet s t) : t.me.core = s.me.core := by
  unfold State.me; rw [q.running]; exact q.procs _
theorem Quiet.reg {s t : State} (q : Quiet s t) (r : BitVec 5) : t.reg r = s.reg r :=
  Proc.reg_congr (by have e := congrArg Proc.sregs q.me; exact e) _
theorem Quiet.cap {s t : State} (q : Quiet s t) (h k : Nat) : (t.proc h).cap k = (s.proc h).cap k :=
  Proc.cap_congr (by have e := congrArg Proc.caps (q.procs h); exact e) _
theorem Quiet.memOk {s t : State} (q : Quiet s t) (h : s.memOk) : t.memOk := by
  have h1 : t.sram = s.sram := by have e := congrArg State.sram q.still; exact e
  have h2 : t.hbm = s.hbm := by have e := congrArg State.hbm q.still; exact e
  unfold State.memOk; rw [h1, h2]; exact h

end Sys2Proof.Machine
end

