-- ==== Sys2Proof/Laws/Traps.lean ====
section
/-! SUPPORT. Taking an exception and returning from one, said once: what parking, trap entry and the return leave (R228, R230,
R231, R332). -/

namespace Sys2Proof.Machine

theorem SameMemory.trans {s t u : State} (a : SameMemory s t) (b : SameMemory t u) : SameMemory s u :=
  ⟨fun k => (b.sram k).trans (a.sram k), fun p k => (b.hbm p k).trans (a.hbm p k), fun g => (b.sramTag g).trans (a.sramTag g),
    fun g => (b.hbmTag g).trans (a.hbmTag g)⟩
theorem SameUnits.trans {s t u : State} (a : SameUnits s t) (b : SameUnits t u) : SameUnits s u :=
  ⟨fun n => (b.vbank n).trans (a.vbank n), fun n => (b.mbank n).trans (a.mbank n), fun n => (b.treg n).trans (a.treg n),
    fun n => (b.tsh n).trans (a.tsh n), fun n => (b.cbt n).trans (a.cbt n), fun n => (b.an n).trans (a.an n),
    fun n => (b.owners n).trans (a.owners n)⟩

/-- A failed run of checking mode is noted in its partition and in what is due (R124). -/
theorem State.failRun_cases (s : State) (part net tile : Nat) :
    s.failRun part net tile = s ∨ ∃ f i, s.failRun part net tile = (s.updPart part f).later i ∧
      ∀ q, (f q).key = q.key := by
  unfold State.failRun
  split
  · exact .inl rfl
  · dsimp only
    split
    · exact .inr ⟨_, _, rfl, fun _ => rfl⟩
    · exact .inl rfl
theorem State.failRun_proc (s : State) (part net tile h : Nat) : (s.failRun part net tile).proc h = s.proc h := by
  rcases s.failRun_cases part net tile with e | ⟨f, i, e, _⟩ <;> rw [e]; rfl
theorem State.failRun_tile (s : State) (part net tile n : Nat) : (s.failRun part net tile).tile n = s.tile n := by
  rcases s.failRun_cases part net tile with e | ⟨f, i, e, _⟩ <;> rw [e]; rfl
theorem State.failRun_running (s : State) (part net tile : Nat) : (s.failRun part net tile).running = s.running := by
  rcases s.failRun_cases part net tile with e | ⟨f, i, e, _⟩ <;> rw [e]; rfl
theorem State.failRun_memory (s : State) (part net tile : Nat) : SameMemory s (s.failRun part net tile) := by
  rcases s.failRun_cases part net tile with e | ⟨f, i, e, hk⟩ <;> rw [e]
  · exact .refl s
  · refine ⟨fun _ => rfl, fun p k => ?_, fun _ => rfl, fun _ => rfl⟩
    have hp : (((s.updPart part f).later i).part p).key = (s.part p).key := by
      rw [State.later_part, State.updPart_part]
      split
      · subst_vars; exact hk _
      · rfl
    simp only [State.hbmByte, hp]
    rfl

/-- Queueing the record of a parked process changes the tile's queue of records and what is due. -/
theorem State.queueRecord_cases (s : State) (t : Nat) (r : FRec) {h : Nat} (hk : r.kind = .instr h) :
    s.queueRecord t r = (s.updTile t fun x => { x with frecs := x.frecs ++ [{ r with at_ := s.cycle }] }) ∨
    s.queueRecord t r = (s.updTile t fun x => { x with frecs := x.frecs ++ [{ r with at_ := s.cycle }] }).afterCycles 1 (.faultRecordPush t) := by
  unfold State.queueRecord
  simp only [hk]
  split
  · exact .inl rfl
  · exact .inr rfl
theorem State.queueRecord_tile (s : State) (t n : Nat) (r : FRec) {h : Nat} (hk : r.kind = .instr h) :
    (s.queueRecord t r).tile n = if t = n then { s.tile n with frecs := (s.tile n).frecs ++ [{ r with at_ := s.cycle }] } else s.tile n := by
  rcases s.queueRecord_cases t r hk with e | e <;> rw [e]
  · rw [State.updTile_tile]; split
    · subst_vars; rfl
    · rfl
  · rw [State.afterCycles_tile, State.updTile_tile]; split
    · subst_vars; rfl
    · rfl
theorem State.queueRecord_proc (s : State) (t g : Nat) (r : FRec) {h : Nat} (hk : r.kind = .instr h) : (s.queueRecord t r).proc g = s.proc g := by
  rcases s.queueRecord_cases t r hk with e | e <;> rw [e] <;> rfl
theorem State.queueRecord_running (s : State) (t : Nat) (r : FRec) {h : Nat} (hk : r.kind = .instr h) :
    (s.queueRecord t r).running = s.running := by
  rcases s.queueRecord_cases t r hk with e | e <;> rw [e] <;> rfl
theorem State.queueRecord_memory (s : State) (t : Nat) (r : FRec) {h : Nat} (hk : r.kind = .instr h) : SameMemory s (s.queueRecord t r) := by
  rcases s.queueRecord_cases t r hk with e | e <;> rw [e] <;> exact ⟨fun _ => rfl, fun _ _ => rfl, fun _ => rfl, fun _ => rfl⟩
theorem State.queueRecord_units (s : State) (t : Nat) (r : FRec) {h : Nat} (hk : r.kind = .instr h) : SameUnits s (s.queueRecord t r) := by
  refine ⟨fun n => ?_, fun n => ?_, fun n => ?_, fun n => ?_, fun n => ?_, fun n => ?_, fun n => ?_⟩ <;>
    rw [State.queueRecord_tile s t n r hk] <;> split <;> rfl

/-- What parking writes into the process, and the record it queues (R231). -/
def State.parkProc (u : State) (h : Nat) (slots : List Word) (epc : BitVec 48) (cls : FClass) (fpc : BitVec 48) : State :=
  u.updProc h fun p =>
    { p.enter .parkedFault u.cycle with epc := epc, fclass := cls, fpc := fpc, frec := slots.headD 0, need := 0, hold := [], passes := none }
def State.parkRec (u : State) (h : Nat) (slots : List Word) (ids : List Nat) : FRec :=
  { kind := .instr h, part := (u.proc h).part, firmware := decide (1 ≤ (u.proc h).pl), slots := slots, after := ids }
theorem State.park_eq (s u : State) (ids : List Nat) (h : Nat) (slots : List Word) (epc : BitVec 48) (cls : FClass) (fpc : BitVec 48)
    (hu : s.release h = (u, ids)) :
    s.park h slots epc cls fpc = ((u.parkProc h slots epc cls fpc).queueRecord (u.proc h).tile (u.parkRec h slots ids)).failRun
      (u.proc h).part (u.proc h).net (u.proc h).tile := by
  unfold State.park
  simp only [hu]
  rfl
theorem State.parkProc_proc (u : State) (h : Nat) (slots : List Word) (epc : BitVec 48) (cls : FClass) (fpc : BitVec 48) :
    (u.parkProc h slots epc cls fpc).proc h = { (u.proc h).enter .parkedFault u.cycle with
      epc := epc, fclass := cls, fpc := fpc, frec := slots.headD 0, need := 0, hold := [], passes := none } := by
  unfold State.parkProc; rw [State.updProc_proc_same]
theorem State.parkProc_memory (u : State) (h : Nat) (slots : List Word) (epc : BitVec 48) (cls : FClass) (fpc : BitVec 48) :
    SameMemory u (u.parkProc h slots epc cls fpc) := ⟨fun _ => rfl, fun _ _ => rfl, fun _ => rfl, fun _ => rfl⟩
theorem State.parkProc_tile (u : State) (h : Nat) (slots : List Word) (epc : BitVec 48) (cls : FClass) (fpc : BitVec 48) (n : Nat) :
    (u.parkProc h slots epc cls fpc).tile n = u.tile n := rfl
theorem SameUnits.of_tile {s t : State} (h : ∀ n, t.tile n = s.tile n) : SameUnits s t := by
  refine ⟨fun n => ?_, fun n => ?_, fun n => ?_, fun n => ?_, fun n => ?_, fun n => ?_, fun n => ?_⟩ <;> rw [h n]

/-- Parking a process (R231). -/
theorem State.park_me (s : State) (slots : List Word) (epc : BitVec 48) (cls : FClass) (fpc : BitVec 48) :
    (s.park s.running slots epc cls fpc).running = s.running ∧ (s.park s.running slots epc cls fpc).me.pst = .parkedFault ∧
      (s.park s.running slots epc cls fpc).me.epc = epc ∧ (s.park s.running slots epc cls fpc).me.frec = slots.headD 0 ∧
      (s.park s.running slots epc cls fpc).me.pc = s.me.pc ∧ (∀ r, (s.park s.running slots epc cls fpc).reg r = s.reg r) ∧
      (∀ k, (s.park s.running slots epc cls fpc).me.cap k = s.me.cap k) ∧ SameMemory s (s.park s.running slots epc cls fpc) ∧
      SameUnits s (s.park s.running slots epc cls fpc) ∧
      ∃ f ∈ ((s.park s.running slots epc cls fpc).tile s.me.tile).frecs, f.part = s.me.part ∧ f.slots = slots ∧
        f.firmware = decide (1 ≤ s.me.pl) := by
  have q := Quiet.release s s.running
  generalize hu : s.release s.running = x at q
  obtain ⟨u, ids⟩ := x
  rw [State.park_eq s u ids s.running slots epc cls fpc hu]
  have hc : (u.proc s.running).core = s.me.core := q.procs s.running
  have e1 : (u.proc s.running).sregs = s.me.sregs := by have e := congrArg Proc.sregs hc; exact e
  have e2 : (u.proc s.running).caps = s.me.caps := by have e := congrArg Proc.caps hc; exact e
  have e3 : (u.proc s.running).pc = s.me.pc := by have e := congrArg Proc.pc hc; exact e
  have e4 : (u.proc s.running).tile = s.me.tile := by have e := congrArg Proc.tile hc; exact e
  have e5 : (u.proc s.running).part = s.me.part := by have e := congrArg Proc.part hc; exact e
  have e6 : (u.proc s.running).status = s.me.status := by have e := congrArg Proc.status hc; exact e
  have e7 : (u.proc s.running).pl = s.me.pl := by unfold Proc.pl; rw [e6]
  have qm : SameMemory s u := q.memory
  have qu : SameUnits s u := q.units
  have qr : u.running = s.running := q.running
  have hv := State.parkProc_proc u s.running slots epc cls fpc
  have hm := State.parkProc_memory u s.running slots epc cls fpc
  have ht := State.parkProc_tile u s.running slots epc cls fpc
  have hw : (u.parkProc s.running slots epc cls fpc).running = u.running := rfl
  generalize u.parkProc s.running slots epc cls fpc = v at hv hm ht hw
  have hk : (u.parkRec s.running slots ids).kind = .instr s.running := rfl
  generalize hrec : u.parkRec s.running slots ids = rc at hk
  have hr : ((v.queueRecord (u.proc s.running).tile rc).failRun (u.proc s.running).part (u.proc s.running).net
      (u.proc s.running).tile).running = s.running := by
    rw [State.failRun_running, State.queueRecord_running _ _ _ hk, hw, qr]
  have hme : ((v.queueRecord (u.proc s.running).tile rc).failRun (u.proc s.running).part (u.proc s.running).net
      (u.proc s.running).tile).me = v.proc s.running := by
    unfold State.me
    rw [hr, State.failRun_proc, State.queueRecord_proc _ _ _ _ hk]
  have hx := hme.trans hv
  refine ⟨hr, congrArg Proc.pst hx, congrArg Proc.epc hx, congrArg Proc.frec hx, (congrArg Proc.pc hx).trans e3, fun r => ?_, fun k => ?_, ?_, ?_, ?_⟩
  · unfold State.reg; rw [hme, hv]; exact Proc.reg_congr e1 _
  · rw [hme, hv]; exact Proc.cap_congr e2 _
  · exact ((qm.trans hm).trans (State.queueRecord_memory _ _ _ hk)).trans (State.failRun_memory _ _ _ _)
  · exact ((qu.trans (.of_tile ht)).trans (State.queueRecord_units _ _ _ hk)).trans (.of_tile fun n => State.failRun_tile _ _ _ _ _)
  · refine ⟨{ rc with at_ := v.cycle }, ?_, ?_, ?_, ?_⟩
    · rw [State.failRun_tile, State.queueRecord_tile _ _ _ _ hk, e4, if_pos rfl]
      exact List.mem_append_right _ (List.mem_singleton.2 rfl)
    · rw [← hrec]; exact e5
    · rw [← hrec]; rfl
    · rw [← hrec, ← e7]; rfl

theorem recSlot0_cause (handle detail origin npg : Nat) (more : Bool) (c : Cause) : (recSlot0 handle detail origin more npg c.code).toNat % 256 = c.code := by
  have hc : c.code < 256 := by cases c <;> decide
  have hb : bit1 more ≤ 1 := by unfold bit1; split <;> omega
  simp only [recSlot0, BitVec.toNat_ofNat]
  omega
theorem recSlot0_handle (handle detail origin npg : Nat) (more : Bool) (c : Cause) (ho : origin < 8) (hn : npg < 16) :
    (recSlot0 handle detail origin more npg c.code).toNat / 2 ^ 32 = handle % 2 ^ 32 := by
  have hc : c.code < 256 := by cases c <;> decide
  have hb : bit1 more ≤ 1 := by unfold bit1; split <;> omega
  simp only [recSlot0, BitVec.toNat_ofNat]
  omega
theorem recordOf_head (handle op : Nat) (c : Cause) (x : FInfo) (fpc spc : BitVec 48) :
    ∃ d more n, n < 16 ∧ (recordOf handle op c x fpc spc).headD 0 = recSlot0 handle d 0 more n c.code := by
  exact ⟨_, _, _, by omega, rfl⟩
theorem recordOf_length (handle op : Nat) (c : Cause) (x : FInfo) (fpc spc : BitVec 48) : (recordOf handle op c x fpc spc).length = 8 := by
  by_cases h : c = .pageFault ∨ c = .uncorrectable <;> simp [recordOf, pageSlots, h]

theorem State.restart_none (s : State) (h : Nat) (hs : (s.proc h).strip = none) : s.restart h = s := by
  unfold State.restart; rw [hs]

/-- A fault of an instruction with no open strip parks its process, unless it is a trap from level 0 (R230, R231). -/
theorem State.raise_parks (s : State) (op : Nat) (c : Cause) (x : FInfo) (hs : s.me.strip = none) (hv : c ≠ .vown)
    (ht : ¬(c = .softwareTrap ∧ s.me.pl = 0)) : Parks s (s.raise op c x) c s.me.pc := by
  have hs' : (s.proc s.running).strip = none := hs
  have hd : s.raise op c x = s.park s.running (recordOf s.running op c x s.me.pc s.me.pc) s.me.pc
      (if x.vec then .strip else .precise) s.me.pc := by
    unfold State.raise State.raiseAt
    rw [State.restart_none s s.running hs']
    have hn : ¬((c = .vown ∨ c = .softwareTrap) ∧ (s.proc s.running).pl = 0) := by
      rintro ⟨h1 | h1, h2⟩
      · exact hv h1
      · exact ht ⟨h1, h2⟩
    have hn' : ¬(c = .softwareTrap ∧ (s.proc s.running).pl = 0) := ht
    simp only [hs', hv, if_false, if_neg hn', Option.map_none, Option.getD_none, Option.isSome_none, Bool.false_eq_true, false_or]
    rfl
  rw [hd]
  obtain ⟨h1, h2, h3, h4, h5, h6, h7, h8, h9, f, hf, h10, h11, h12⟩ := State.park_me s (recordOf s.running op c x s.me.pc s.me.pc) s.me.pc
    (if x.vec then .strip else .precise) s.me.pc
  obtain ⟨d, more, n, hn, hh⟩ := recordOf_head s.running op c x s.me.pc s.me.pc
  refine ⟨h2, h3, ?_, ?_, ⟨f, hf, h10, ?_, ?_, h12⟩, h5, h6, h7, h8, h9, h1⟩
  · rw [h4, hh]; exact recSlot0_cause _ _ _ _ _ _
  · rw [h4, hh]; exact recSlot0_handle _ _ _ _ _ _ (by omega) hn
  · rw [h11]; exact recordOf_length _ _ _ _ _ _
  · rw [h11, h4]

/-- Only the networks have changed before the fault. -/
theorem Parks.after {s u t : State} {c : Cause} (q : Quiet s u) (p : Parks u t c u.me.pc) : Parks s t c s.me.pc := by
  have e1 : u.me.pc = s.me.pc := by have e := congrArg Proc.pc q.me; exact e
  have e2 : u.me.tile = s.me.tile := by have e := congrArg Proc.tile q.me; exact e
  have e3 : u.me.part = s.me.part := by have e := congrArg Proc.part q.me; exact e
  have e4 : u.me.status = s.me.status := by have e := congrArg Proc.status q.me; exact e
  obtain ⟨f, hf, h1, h2, h3, h4⟩ := p.record
  refine ⟨p.parked, p.epc.trans e1, p.cause, ?_, ⟨f, ?_, h1.trans e3, h2, h3, ?_⟩, p.pc.trans e1, fun r => (p.regs r).trans (q.reg r),
    fun k => (p.caps k).trans ?_, q.memory.trans p.memory, q.units.trans p.units, p.running.trans q.running⟩
  · rw [p.handle, q.running]
  · rw [← e2]; exact hf
  · rw [h4]; have e : u.me.pl = s.me.pl := by unfold Proc.pl; rw [e4]
    rw [e]
  · unfold State.me; rw [q.running]; exact q.cap _ _

/-- Trap entry (R228). -/
theorem State.raise_traps (s : State) (op : Nat) (x : FInfo) (hs : s.me.strip = none) (hp : s.me.pl = 0) :
    s.raise op .softwareTrap x = s.trapEntry s.running Cause.softwareTrap.code (op % 64 + x.detail) x.xmask
      ((recordOf s.running op .softwareTrap x s.me.pc s.me.pc).headD 0) s.me.pc := by
  have hs' : (s.proc s.running).strip = none := hs
  have hp' : (s.proc s.running).pl = 0 := hp
  unfold State.raise State.raiseAt
  rw [State.restart_none s s.running hs']
  simp only [hs', hp', and_true, or_true, if_true, Option.map_none, Option.getD_none]
  rfl

end Sys2Proof.Machine
end

