-- ==== Sys2Proof/Laws/Vector.lean ====
section
/-! SUPPORT. Vector elements and mask bits: what a write of them leaves to read (R12, R149, R156, R157), and what a vector instruction
leaves besides (R241, R385). -/

namespace Sys2Proof.Machine

variable {α : Type}

/-- A key that is not written reads as before. -/
theorem Tab.lookD_storeAll_other [DecidableEq α] (d : α) (m : Nat) : ∀ (kvs : List (Nat × α)) (b : Tab α), (∀ e ∈ kvs, e.1 ≠ m) →
    Tab.lookD (kvs.foldl (fun b e => Tab.store b e.1 e.2 d) b) m d = Tab.lookD b m d
  | [], _, _ => rfl
  | e :: kvs, b, h => by
    rw [List.foldl_cons, Tab.lookD_storeAll_other d m kvs _ fun x hx => h x (List.mem_cons_of_mem _ hx), Tab.lookD_store,
      if_neg (h e (List.mem_cons_self ..))]
/-- A key that is written, always with one value, reads as that value. -/
theorem Tab.lookD_storeAll_mem [DecidableEq α] (d : α) (m : Nat) (x : α) : ∀ (kvs : List (Nat × α)) (b : Tab α),
    (∃ e ∈ kvs, e.1 = m) → (∀ e ∈ kvs, e.1 = m → e.2 = x) →
    Tab.lookD (kvs.foldl (fun b e => Tab.store b e.1 e.2 d) b) m d = x
  | [], _, h, _ => by obtain ⟨_, h, _⟩ := h; cases h
  | e :: kvs, b, h, hx => by
    rw [List.foldl_cons]
    by_cases h' : ∃ y ∈ kvs, y.1 = m
    · exact Tab.lookD_storeAll_mem d m x kvs _ h' fun y hy => hx y (List.mem_cons_of_mem _ hy)
    · have hn : ∀ y ∈ kvs, y.1 ≠ m := fun y hy e => h' ⟨y, hy, e⟩
      rw [Tab.lookD_storeAll_other d m kvs _ hn, Tab.lookD_store]
      obtain ⟨y, hy, e1⟩ := h
      rcases List.mem_cons.1 hy with rfl | hy
      · rw [if_pos e1]; exact hx _ (List.mem_cons_self ..) e1
      · exact absurd e1 (hn y hy)

/-- The lanes of a set of slivers are distinct, and below 64 (R12). -/
theorem lanesOf_lt (sl : List Nat) : ∀ l ∈ lanesOf sl, l < 64 := by
  intro l h
  simp only [lanesOf, List.mem_flatMap, List.mem_filter, List.mem_range] at h
  obtain ⟨n, ⟨hn, _⟩, h⟩ := h
  simp only [List.mem_cons, List.not_mem_nil, or_false] at h
  omega
theorem lanesOf_nodup (sl : List Nat) : (lanesOf sl).Nodup := by
  unfold lanesOf
  rw [List.nodup_flatMap]
  refine ⟨fun n _ => by simp, ?_⟩
  refine (List.nodup_range.filter _).imp ?_
  intro a b hab x hx hy
  simp only [List.mem_cons, List.not_mem_nil, or_false] at hx hy
  exact hab (by omega)

/-- A context whose lanes are distinct lanes of a tile. -/
structure VCtx.Ok (v : VCtx) : Prop where
  nodup : v.lanes.Nodup
  lt : ∀ l ∈ v.lanes, l < 64
theorem State.vc_ok (s : State) : s.vc.Ok := ⟨lanesOf_nodup _, lanesOf_lt _⟩

/-- Widths of elements. -/
def IsEw (ew : Nat) : Prop := ew = 8 ∨ ew = 16 ∨ ew = 32 ∨ ew = 64
theorem ewOf_isEw (vt : Word) : IsEw (ewOf vt) := by
  unfold IsEw ewOf
  have h : vt.toNat % 4 < 4 := Nat.mod_lt _ (by omega)
  generalize vt.toNat % 4 = e at h
  match e, h with
  | 0, _ => simp
  | 1, _ => simp
  | 2, _ => simp
  | 3, _ => simp

theorem pos_of_lt_vlmax {n ew i : Nat} (h : i < vlmaxOf n ew) : 0 < n := by
  rcases Nat.eq_zero_or_pos n with rfl | h'
  · simp [vlmaxOf] at h
  · exact h'
/-- The place of a byte within its lane. -/
theorem slot_lt {n ew i b : Nat} (he : IsEw ew) (hi : i < vlmaxOf n ew) (hb : b < ew / 8) : i / n * (ew / 8) + b < 32 := by
  have hn := pos_of_lt_vlmax hi
  unfold vlmaxOf at hi
  rcases he with rfl | rfl | rfl | rfl
  · have h : i / n < 32 := Nat.div_lt_of_lt_mul (by omega)
    simp at hb ⊢; omega
  · have h : i / n < 16 := Nat.div_lt_of_lt_mul (by omega)
    simp at hb ⊢; omega
  · have h : i / n < 8 := Nat.div_lt_of_lt_mul (by omega)
    simp at hb ⊢; omega
  · have h : i / n < 4 := Nat.div_lt_of_lt_mul (by omega)
    simp at hb ⊢; omega
theorem VCtx.lane_lt {v : VCtx} (ok : v.Ok) {i : Nat} (h : i < v.lanes.length) : v.lanes.getD i 0 < 64 := by
  rw [List.getD_eq_getElem _ _ h]; exact ok.lt _ (List.getElem_mem h)
theorem VCtx.lane_inj {v : VCtx} (ok : v.Ok) {i j : Nat} (hi : i < v.lanes.length) (hj : j < v.lanes.length)
    (h : v.lanes.getD i 0 = v.lanes.getD j 0) : i = j := by
  rw [List.getD_eq_getElem _ _ hi, List.getD_eq_getElem _ _ hj] at h
  exact (List.Nodup.getElem_inj_iff ok.nodup).1 h
/-- Different bytes of elements lie at different keys (R12). -/
theorem VCtx.keyAt_inj {v : VCtx} (ok : v.Ok) {ew : Nat} (he : IsEw ew) {r r' i j b c : Nat} (hi : i < vlmaxOf v.lanes.length ew)
    (hj : j < vlmaxOf v.lanes.length ew) (hb : b < ew / 8) (hc : c < ew / 8) (h : v.keyAt ew r i b = v.keyAt ew r' j c) :
    r = r' ∧ i = j ∧ b = c := by
  have hn := pos_of_lt_vlmax hi
  have h1 := slot_lt he hi hb
  have h2 := slot_lt he hj hc
  have l1 := VCtx.lane_lt ok (Nat.mod_lt i hn)
  have l2 := VCtx.lane_lt ok (Nat.mod_lt j hn)
  unfold VCtx.keyAt at h
  have e1 : r = r' := by omega
  have e2 : v.lanes.getD (i % v.lanes.length) 0 = v.lanes.getD (j % v.lanes.length) 0 := by omega
  have e3 : i / v.lanes.length * (ew / 8) + b = j / v.lanes.length * (ew / 8) + c := by omega
  have e4 := VCtx.lane_inj ok (Nat.mod_lt i hn) (Nat.mod_lt j hn) e2
  have hw : 0 < ew / 8 := by omega
  have e5 : i / v.lanes.length = j / v.lanes.length := by
    have := congrArg (· / (ew / 8)) e3
    simp only [Nat.mul_comm _ (ew / 8), Nat.mul_add_div hw, Nat.div_eq_of_lt hb, Nat.div_eq_of_lt hc] at this
    omega
  refine ⟨e1, ?_, by rw [e5] at e3; omega⟩
  rw [← Nat.div_add_mod i v.lanes.length, ← Nat.div_add_mod j v.lanes.length, e4, e5]
theorem VCtx.maskKey_inj {v : VCtx} (ok : v.Ok) {r r' i j : Nat} (hi : i < v.lanes.length * 32) (hj : j < v.lanes.length * 32)
    (h : v.maskKey r i = v.maskKey r' j) : r = r' ∧ i = j := by
  have hi' : i < vlmaxOf v.lanes.length 8 := by unfold vlmaxOf; omega
  have hj' : j < vlmaxOf v.lanes.length 8 := by unfold vlmaxOf; omega
  have h' : v.keyAt 8 r i 0 = v.keyAt 8 r' j 0 := by
    unfold VCtx.maskKey at h; unfold VCtx.keyAt; simpa using h
  obtain ⟨a, b, _⟩ := VCtx.keyAt_inj ok (.inl rfl) hi' hj' (by omega) (by omega) h'
  exact ⟨a, b⟩

/-- The bytes of a number give it back, cut to their width. -/
theorem ofBytesLE_byteAt : ∀ (n x : Nat), ofBytesLE ((List.range n).map fun b => byteAt x b) = x % 2 ^ (8 * n)
  | 0, x => by simp [ofBytesLE, Nat.mod_one]
  | n + 1, x => by
    rw [List.range_succ_eq_map, List.map_cons, List.map_map, ofBytesLE]
    have h : ((fun b => byteAt x b) ∘ Nat.succ) = fun b => byteAt (x / 256) b := by
      funext b; simp [byteAt, Nat.pow_succ, Nat.mul_comm, Nat.div_div_eq_div_mul]
    rw [h, ofBytesLE_byteAt n (x / 256)]
    simp only [byteAt, BitVec.toNat_ofNat, Nat.pow_zero, Nat.div_one]
    have e : 2 ^ (8 * (n + 1)) = 256 * 2 ^ (8 * n) := by rw [Nat.mul_add, Nat.pow_add]; simp [Nat.mul_comm]
    rw [e, Nat.mod_mul]

/-- A write of the vector bank reads back, and changes nothing else but the strip's undo list (R149). -/
theorem State.bankWrite_vbank (s : State) (h t n : Nat) (kvs : List (Nat × Byte)) :
    ((s.bankWrite h t kvs).tile n).vbank =
      if t = n then kvs.foldl (fun b e => Tab.store b e.1 e.2 0) (s.tile n).vbank else (s.tile n).vbank := by
  unfold State.bankWrite
  dsimp only
  split
  · rw [State.updTile_tile]; split
    · subst_vars; rfl
    · rfl
  · rw [State.updProc_tile, State.updTile_tile]; split
    · subst_vars; rfl
    · rfl
theorem State.maskWrite_mbank (s : State) (h t n : Nat) (kvs : List (Nat × Bool)) :
    ((s.maskWrite h t kvs).tile n).mbank =
      if t = n then kvs.foldl (fun b e => Tab.store b e.1 e.2 false) (s.tile n).mbank else (s.tile n).mbank := by
  unfold State.maskWrite
  dsimp only
  split
  · rw [State.updTile_tile]; split
    · subst_vars; rfl
    · rfl
  · rw [State.updProc_tile, State.updTile_tile]; split
    · subst_vars; rfl
    · rfl

theorem State.elemAt_def (s : State) (v : VCtx) (ew r i : Nat) (hn : 0 < v.lanes.length) :
    s.elemAt v ew r i = ofBytesLE ((List.range (ew / 8)).map fun b => Tab.lookD (s.tile v.tile).vbank (v.keyAt ew r i b) 0) := by
  unfold State.elemAt
  have h : v.lanes.isEmpty = false := by
    cases hl : v.lanes with
    | nil => rw [hl] at hn; simp at hn
    | cons => rfl
  rw [h]; rfl
theorem lanes_isEmpty {v : VCtx} (hn : 0 < v.lanes.length) : v.lanes.isEmpty = false := by
  cases hl : v.lanes with
  | nil => rw [hl] at hn; simp at hn
  | cons => rfl

/-- A list of positions and values that says what `f` says. -/
structure Says (xs : List (Nat × Nat)) (lim : Nat) (f : Nat → Option Nat) : Prop where
  lt : ∀ e ∈ xs, e.1 < lim
  val : ∀ e ∈ xs, f e.1 = some e.2
  all : ∀ i x, i < lim → f i = some x → (i, x) ∈ xs

/-- Elements written read as they were written (R12). -/
theorem State.putElemsAt_put (s : State) (v : VCtx) (ok : v.Ok) {ew : Nat} (he : IsEw ew) (r : Nat) (xs : List (Nat × Nat))
    (f : Nat → Option Nat) (hx : 0 < v.lanes.length → Says xs (vlmaxOf v.lanes.length ew) f) : PutVec s (s.putElemsAt v ew r xs) v ew r f := by
  by_cases hn : 0 < v.lanes.length
  · replace hx := hx hn
    have hl := lanes_isEmpty hn
    have hb : ∀ n, ((s.putElemsAt v ew r xs).tile n).vbank = if v.tile = n then
        (xs.flatMap fun e => (List.range (ew / 8)).map fun b => (v.keyAt ew r e.1 b, byteAt e.2 b)).foldl
          (fun b e => Tab.store b e.1 e.2 0) (s.tile n).vbank else (s.tile n).vbank := by
      intro n
      unfold State.putElemsAt
      rw [hl]
      exact State.bankWrite_vbank s v.h v.tile n _
    have hmem : ∀ e ∈ xs.flatMap (fun e => (List.range (ew / 8)).map fun b => (v.keyAt ew r e.1 b, byteAt e.2 b)),
        ∃ y ∈ xs, ∃ b, b < ew / 8 ∧ e = (v.keyAt ew r y.1 b, byteAt y.2 b) := by
      intro e h
      simp only [List.mem_flatMap, List.mem_map, List.mem_range] at h
      obtain ⟨y, hy, b, hb, rfl⟩ := h
      exact ⟨y, hy, b, hb, rfl⟩
    refine ⟨fun i hi => ?_, fun n k hk => ?_⟩
    · rw [State.elemAt_def _ v ew r i hn, hb, if_pos rfl]
      cases hf : f i with
      | none =>
        dsimp only
        rw [State.elemAt_def _ v ew r i hn]
        congr 1
        refine List.map_congr_left fun b hb' => ?_
        rw [List.mem_range] at hb'
        refine Tab.lookD_storeAll_other _ _ _ _ fun e h' e1 => ?_
        obtain ⟨y, hy, c, hc, rfl⟩ := hmem e h'
        obtain ⟨_, rfl, _⟩ := VCtx.keyAt_inj ok he (hx.lt y hy) hi hc hb' e1
        rw [hx.val y hy] at hf; cases hf
      | some x =>
        dsimp only
        have e8 : 8 * (ew / 8) = ew := by rcases he with rfl | rfl | rfl | rfl <;> rfl
        have hb2 := ofBytesLE_byteAt (ew / 8) x
        rw [e8] at hb2
        rw [← hb2]
        congr 1
        refine List.map_congr_left fun b hb' => ?_
        rw [List.mem_range] at hb'
        refine Tab.lookD_storeAll_mem _ _ _ _ _ ?_ fun e h' e1 => ?_
        · refine ⟨(v.keyAt ew r i b, byteAt x b), ?_, rfl⟩
          simp only [List.mem_flatMap, List.mem_map, List.mem_range]
          exact ⟨(i, x), hx.all i x hi hf, b, hb', rfl⟩
        · obtain ⟨y, hy, c, hc, rfl⟩ := hmem e h'
          obtain ⟨_, rfl, rfl⟩ := VCtx.keyAt_inj ok he (hx.lt y hy) hi hc hb' e1
          have h2 := hx.val y hy
          rw [hf] at h2
          simp only [Option.some.injEq] at h2
          rw [h2]
    · rw [hb]
      split
      · next h =>
        refine Tab.lookD_storeAll_other _ _ _ _ fun e h' e1 => ?_
        obtain ⟨y, hy, b, hb', rfl⟩ := hmem e h'
        exact hk y.1 b h.symm (hx.lt y hy) (by rw [hx.val y hy]; rfl) hb' e1.symm
      · rfl
  · have hl : v.lanes = [] := List.eq_nil_of_length_eq_zero (by omega)
    have hs : s.putElemsAt v ew r xs = s := by unfold State.putElemsAt; rw [hl]; rfl
    rw [hs]
    refine ⟨fun i hi => ?_, fun _ _ _ => rfl⟩
    have := pos_of_lt_vlmax hi
    exact absurd this hn

theorem State.maskBit_def (s : State) (v : VCtx) (r i : Nat) (hn : 0 < v.lanes.length) :
    s.maskBit v r i = Tab.lookD (s.tile v.tile).mbank (v.maskKey r i) false := by
  unfold State.maskBit
  rw [lanes_isEmpty hn]; rfl
/-- A mask register written reads as it was written (R156, R157). -/
theorem State.putMask_put (s : State) (v : VCtx) (ok : v.Ok) (r : Nat) (f : Nat → Bool) :
    PutMask s (s.putMask v r f) v r fun i => s.active v i && f i := by
  by_cases hn : 0 < v.lanes.length
  · have hl := lanes_isEmpty hn
    have hb : ∀ n, ((s.putMask v r f).tile n).mbank = if v.tile = n then
        ((List.range (v.lanes.length * 32)).map fun i => (v.maskKey r i, s.active v i && f i)).foldl
          (fun b e => Tab.store b e.1 e.2 false) (s.tile n).mbank else (s.tile n).mbank := by
      intro n
      unfold State.putMask
      rw [hl]
      exact State.maskWrite_mbank s v.h v.tile n _
    refine ⟨fun i hi => ?_, fun n k hk => ?_⟩
    · rw [State.maskBit_def _ v r i hn, hb, if_pos rfl]
      refine Tab.lookD_storeAll_mem _ _ _ _ _ ⟨(v.maskKey r i, s.active v i && f i), ?_, rfl⟩ fun e h' e1 => ?_
      · simp only [List.mem_map, List.mem_range]
        exact ⟨i, hi, rfl⟩
      · simp only [List.mem_map, List.mem_range] at h'
        obtain ⟨j, hj, rfl⟩ := h'
        obtain ⟨_, rfl⟩ := VCtx.maskKey_inj ok hj hi e1
        rfl
    · rw [hb]
      split
      · next h =>
        refine Tab.lookD_storeAll_other _ _ _ _ fun e h' e1 => ?_
        simp only [List.mem_map, List.mem_range] at h'
        obtain ⟨j, hj, rfl⟩ := h'
        exact hk j h.symm hj e1.symm
      · rfl
  · have hl : v.lanes = [] := List.eq_nil_of_length_eq_zero (by omega)
    have hs : s.putMask v r f = s := by unfold State.putMask; rw [hl]; rfl
    rw [hs]
    refine ⟨fun i hi => ?_, fun _ _ _ => rfl⟩
    rw [hl] at hi; simp at hi

/-- What lies between the check of a vector instruction and its end: vector and mask bits apart, the scalar registers of the list and
FFLAGS at most. -/
structure VecStep (s t : State) (ds : List (BitVec 5)) : Prop where
  regs : SameRegs s t ds
  special : t.me.specials.noFlags = s.me.specials.noFlags
  pc : t.me.pc = s.me.pc
  memory : SameMemory s t
  rest : SameRest s t
  treg : ∀ n, (t.tile n).treg = (s.tile n).treg
  tsh : ∀ n, (t.tile n).tsh = (s.tile n).tsh
  cbt : ∀ n, (t.tile n).cbt = (s.tile n).cbt
  an : ∀ n, (t.tile n).an = (s.tile n).an
  owners : ∀ n, (t.tile n).owners = (s.tile n).owners

theorem SameRest.trans {s t u : State} (a : SameRest s t) (b : SameRest t u) : SameRest s u :=
  ⟨b.running.trans a.running, fun h n => (b.procs h (by rw [a.running]; exact n)).trans (a.procs h n), fun n => (b.parts n).trans (a.parts n),
    fun e => (b.eps e).trans (a.eps e), b.pcap.trans a.pcap, b.pset.trans a.pset, b.hepset.trans a.hepset, b.cycle.trans a.cycle⟩
theorem SameRegs.trans {s t u : State} {ds es : List (BitVec 5)} (a : SameRegs s t ds) (b : SameRegs t u es) : SameRegs s u (ds ++ es) :=
  ⟨fun r n => (b.regs r fun h => n (List.mem_append_right _ h)).trans (a.regs r fun h => n (List.mem_append_left _ h)),
    fun k => (b.caps k).trans (a.caps k), fun c => (b.chans c).trans (a.chans c)⟩
theorem memory_trans {s t u : State} (a : SameMemory s t) (b : SameMemory t u) : SameMemory s u :=
  ⟨fun k => (b.sram k).trans (a.sram k), fun p k => (b.hbm p k).trans (a.hbm p k), fun g => (b.sramTag g).trans (a.sramTag g),
    fun g => (b.hbmTag g).trans (a.hbmTag g)⟩
theorem VecStep.trans {s t u : State} {ds es : List (BitVec 5)} (a : VecStep s t ds) (b : VecStep t u es) : VecStep s u (ds ++ es) where
  regs := a.regs.trans b.regs
  special := b.special.trans a.special
  pc := b.pc.trans a.pc
  memory := memory_trans a.memory b.memory
  rest := a.rest.trans b.rest
  treg n := (b.treg n).trans (a.treg n)
  tsh n := (b.tsh n).trans (a.tsh n)
  cbt n := (b.cbt n).trans (a.cbt n)
  an n := (b.an n).trans (a.an n)
  owners n := (b.owners n).trans (a.owners n)
theorem VecStep.refl (s : State) : VecStep s s [] :=
  ⟨⟨fun _ _ => rfl, fun _ => rfl, fun _ => rfl⟩, rfl, rfl, SameMemory.refl s, ⟨rfl, fun _ _ => rfl, fun _ => rfl, fun _ => rfl, rfl, rfl, rfl, rfl⟩,
    fun _ => rfl, fun _ => rfl, fun _ => rfl, fun _ => rfl, fun _ => rfl⟩

/-- Changing the strip of the running process, or a tile's banks, is such a step. -/
theorem VecStep.strip (s : State) (f : Proc → Proc) (hf : ∀ p, f p = { p with strip := (f p).strip }) : VecStep s (s.updMe f) [] := by
  have hm : (s.updMe f).me = { s.me with strip := (f s.me).strip } := (State.updMe_me s f).trans (hf _)
  refine ⟨⟨fun r _ => ?_, fun k => ?_, fun c => ?_⟩, ?_, ?_, State.updMe_memory s _, State.updMe_rest s _, fun _ => rfl, fun _ => rfl, fun _ => rfl,
    fun _ => rfl, fun _ => rfl⟩
  · unfold State.reg; rw [hm]; exact Proc.reg_congr rfl _
  · rw [hm]; exact Proc.cap_congr rfl _
  · rw [hm]; exact Proc.chan_congr rfl _
  · rw [hm]; rfl
  · rw [hm]
theorem VecStep.tile (s : State) (n : Nat) (f : Tile → Tile) (h1 : ∀ x, (f x).treg = x.treg) (h2 : ∀ x, (f x).tsh = x.tsh)
    (h3 : ∀ x, (f x).cbt = x.cbt) (h4 : ∀ x, (f x).an = x.an) (h5 : ∀ x, (f x).owners = x.owners) : VecStep s (s.updTile n f) [] := by
  refine ⟨⟨fun _ _ => rfl, fun _ => rfl, fun _ => rfl⟩, rfl, rfl, ⟨fun _ => rfl, fun _ _ => rfl, fun _ => rfl, fun _ => rfl⟩,
    ⟨rfl, fun _ _ => rfl, fun _ => rfl, fun _ => rfl, rfl, rfl, rfl, rfl⟩, fun m => ?_, fun m => ?_, fun m => ?_, fun m => ?_, fun m => ?_⟩ <;>
    rw [State.updTile_tile] <;> split <;> (try rfl) <;> subst_vars
  · exact h1 _
  · exact h2 _
  · exact h3 _
  · exact h4 _
  · exact h5 _
theorem VecStep.bankWrite (s : State) (t : Nat) (kvs : List (Nat × Byte)) : VecStep s (s.bankWrite s.running t kvs) [] := by
  unfold State.bankWrite
  dsimp only
  split
  · exact VecStep.tile s t _ (fun _ => rfl) (fun _ => rfl) (fun _ => rfl) (fun _ => rfl) fun _ => rfl
  · have h := VecStep.tile s t (fun x => { x with vbank := kvs.foldl (fun b e => Tab.store b e.1 e.2 0) x.vbank }) (fun _ => rfl) (fun _ => rfl) (fun _ => rfl) (fun _ => rfl)
      fun _ => rfl
    exact h.trans (VecStep.strip (s.updTile t _) _ fun _ => rfl)
theorem VecStep.maskWrite (s : State) (t : Nat) (kvs : List (Nat × Bool)) : VecStep s (s.maskWrite s.running t kvs) [] := by
  unfold State.maskWrite
  dsimp only
  split
  · exact VecStep.tile s t _ (fun _ => rfl) (fun _ => rfl) (fun _ => rfl) (fun _ => rfl) fun _ => rfl
  · have h := VecStep.tile s t (fun x => { x with mbank := kvs.foldl (fun b e => Tab.store b e.1 e.2 false) x.mbank }) (fun _ => rfl) (fun _ => rfl) (fun _ => rfl) (fun _ => rfl)
      fun _ => rfl
    exact h.trans (VecStep.strip (s.updTile t _) _ fun _ => rfl)
theorem VecStep.putElemsAt (s : State) (v : VCtx) (hv : v.h = s.running) (ew r : Nat) (xs : List (Nat × Nat)) :
    VecStep s (s.putElemsAt v ew r xs) [] := by
  unfold State.putElemsAt
  split
  · exact VecStep.refl s
  · rw [hv]; exact VecStep.bankWrite s _ _
theorem VecStep.putMask (s : State) (v : VCtx) (hv : v.h = s.running) (r : Nat) (f : Nat → Bool) : VecStep s (s.putMask v r f) [] := by
  unfold State.putMask
  split
  · exact VecStep.refl s
  · rw [hv]; exact VecStep.maskWrite s _ _
theorem VecStep.setReg (s : State) (d : BitVec 5) (w : Word) : VecStep s (s.setReg d w) [d] := by
  refine ⟨State.setReg_same s d w, ?_, ?_, State.updMe_memory s _, State.updMe_rest s _, fun _ => rfl, fun _ => rfl, fun _ => rfl, fun _ => rfl,
    fun _ => rfl⟩
  · rw [State.setReg_specials]
  · rw [State.setReg_me]; simp
/-- Flags raised: at once, or in the open strip (R141). -/
theorem State.raiseFlags_fflags (s : State) (f : Flags) :
    (s.raiseFlags f).me.fflags = if s.me.strip = none then s.me.fflags ||| f else s.me.fflags := by
  unfold State.raiseFlags
  rw [State.updMe_me]
  cases hs : s.me.strip <;> simp
theorem VecStep.raiseFlags (s : State) (f : Flags) : VecStep s (s.raiseFlags f) [] := by
  have hm : (s.raiseFlags f).me = (match s.me.strip with
    | some k => { s.me with strip := some { k with fflags := k.fflags ||| f } }
    | none => { s.me with fflags := s.me.fflags ||| f }) := State.updMe_me s _
  refine ⟨⟨fun r _ => ?_, fun k => ?_, fun c => ?_⟩, ?_, ?_, State.updMe_memory s _, State.updMe_rest s _, fun _ => rfl, fun _ => rfl, fun _ => rfl,
    fun _ => rfl, fun _ => rfl⟩
  all_goals (try unfold State.reg); rw [hm]; cases s.me.strip
  all_goals first
    | exact Proc.reg_congr rfl _
    | exact Proc.cap_congr rfl _
    | exact Proc.chan_congr rfl _
    | rfl

/-- The state in which a vector instruction works: its slivers are the process's own (R241). -/
def State.owned (s : State) : State := s.takeUnits s.running 0 s.me.slivers
theorem foldl_put_owner (l : List Nat) (h u : Nat) : ∀ o : Tab Nat,
    Tab.lookD (l.foldl (fun o u => Tab.put o u h) o) u 0 = if u ∈ l then h else Tab.lookD o u 0 := by
  induction l with
  | nil => intro o; simp
  | cons x l ih =>
    intro o
    rw [List.foldl_cons, ih, Tab.lookD_put]
    by_cases h1 : u ∈ l
    · rw [if_pos h1, if_pos (List.mem_cons_of_mem _ h1)]
    · rw [if_neg h1]
      by_cases h2 : x = u
      · subst h2; rw [if_pos rfl, if_pos (List.mem_cons_self ..)]
      · rw [if_neg h2, if_neg]
        rintro (_ | ⟨_, h3⟩)
        · exact h2 rfl
        · exact h1 ‹_›
theorem State.owned_me (s : State) : s.owned.me = s.me := by
  unfold State.owned State.takeUnits; dsimp only; split <;> rfl
theorem State.owned_tile (s : State) (n : Nat) : ∃ o, s.owned.tile n = { s.tile n with owners := o } ∧
    ∀ u, Tab.lookD o u 0 =
      if n = s.me.tile ∧ u ∈ s.me.slivers ∧ s.me.crosses 0 = false then s.running else Tab.lookD (s.tile n).owners u 0 := by
  unfold State.owned State.takeUnits
  dsimp only
  by_cases hc : s.me.crosses 0 = true
  · have hc' : (s.proc s.running).crosses 0 = true := hc
    rw [if_pos hc']
    exact ⟨_, rfl, fun u => by
      have hn : ¬(n = s.me.tile ∧ u ∈ s.me.slivers ∧ s.me.crosses 0 = false) := fun h => by rw [hc] at h; cases h.2.2
      rw [if_neg hn]; rfl⟩
  · have hc' : ¬ (s.proc s.running).crosses 0 = true := hc
    rw [if_neg hc']
    rw [State.updTile_tile]
    split
    · next h =>
      subst h
      refine ⟨_, rfl, fun u => ?_⟩
      rw [foldl_put_owner]
      have hc2 : s.me.crosses 0 = false := by simpa using hc
      by_cases hu : u ∈ s.me.slivers
      · exact (if_pos hu).trans (if_pos ⟨rfl, hu, hc2⟩).symm
      · exact (if_neg hu).trans (if_neg fun h => hu h.2.1).symm
    · next h =>
      refine ⟨_, rfl, fun u => ?_⟩
      exact (if_neg fun x => h x.1.symm).symm
theorem State.owned_memory (s : State) : SameMemory s s.owned := by
  unfold State.owned State.takeUnits; dsimp only; split
  · exact SameMemory.refl s
  · exact ⟨fun _ => rfl, fun _ _ => rfl, fun _ => rfl, fun _ => rfl⟩
theorem State.owned_rest (s : State) : SameRest s s.owned := by
  unfold State.owned State.takeUnits; dsimp only; split <;>
    exact ⟨rfl, fun _ _ => rfl, fun _ => rfl, fun _ => rfl, rfl, rfl, rfl, rfl⟩

/-- Mask registers that can all be read hold nothing back (R95). -/
theorem masksUntil_le (p : Proc) (n : Nat) (h : ∀ m, Tab.lookD p.mlat m 0 ≤ n) (ms : List Nat) : p.masksUntil ms ≤ n := by
  unfold Proc.masksUntil
  suffices ∀ a, a ≤ n → ms.foldl (fun a m => max a (Tab.lookD p.mlat m 0)) a ≤ n from this 0 (Nat.zero_le n)
  induction ms with
  | nil => exact fun _ ha => ha
  | cons m ms ih => exact fun a ha => ih _ (Nat.max_le.2 ⟨ha, h m⟩)
/-- A vector instruction that is ready works in the state `owned`, unless it faults there (R240, R241). -/
theorem State.maskOp_ready (s : State) (op : Nat) (ms : List Nat) (rs : List (BitVec 5)) (k : State → State) (hr : VecReady s rs)
    (hk : (k s.owned).me.pst ≠ .parkedFault) : s.maskOp op ms rs k = k s.owned := by
  unfold State.maskOp
  rw [State.afterGrant_none _ _ hr.grant]
  unfold State.afterFills
  rw [hr.filled, if_neg (by simp), if_neg (Nat.not_lt.2 (masksUntil_le _ _ hr.masks _))]
  unfold State.touch
  simp only [hr.own]
  rw [if_neg]
  · rfl
  · exact fun h => hk h.1
/-- A vector instruction that reads no mask register but the governing one (R240, R241). -/
theorem State.vectorOp_ready (s : State) (op : Nat) (rs : List (BitVec 5)) (k : State → State) (hr : VecReady s rs)
    (hk : (k s.owned).me.pst ≠ .parkedFault) : s.vectorOp op rs k = k s.owned := State.maskOp_ready s op [] rs k hr hk

/-- The end of a vector instruction that has worked in the state `owned`. -/
theorem VecDone.of_step {s w : State} {ds : List (BitVec 5)} (op : Nat) (hs : s.me.ss = false) (h : VecStep s.owned w ds) :
    VecDone s (w.retire op) ds ∧ (w.retire op).me.fflags = w.me.fflags ∧
      (∀ n, ((w.retire op).tile n).vbank = (w.tile n).vbank ∧ ((w.retire op).tile n).mbank = (w.tile n).mbank) ∧
      ∀ r, (w.retire op).reg r = w.reg r := by
  have e := State.owned_me s
  have hst : w.me.status = s.me.status := by
    have h1 := congrArg Specials.status h.special
    rw [e] at h1; exact h1
  have hw : w.me.ss = false := by
    have : w.me.ss = s.me.ss := by unfold Proc.ss; rw [hst]
    rw [this, hs]
  have j := State.jump_only w op (w.me.pc + 4) hw
  have ej : w.retire op = w.jump op (w.me.pc + 4) := rfl
  rw [← ej, h.pc, e] at j
  refine ⟨⟨j.went, ?_, ?_, ?_, ?_, fun n => ?_, fun n => ?_, fun n => ?_, fun n => ?_, fun n u => ?_⟩, ?_, fun n => ⟨j.units.vbank n, j.units.mbank n⟩,
    fun r => j.regs.regs r (by simp)⟩
  · have h0 : SameRegs s s.owned [] := ⟨fun r _ => by unfold State.reg; rw [e], fun k => by rw [e], fun c => by rw [e]⟩
    have h1 := (h0.trans h.regs).trans j.regs
    simpa using h1
  · rw [j.special, h.special, e]
  · exact memory_trans (memory_trans s.owned_memory h.memory) j.memory
  · exact (s.owned_rest.trans h.rest).trans j.rest
  · obtain ⟨o, ho, _⟩ := s.owned_tile n; rw [j.units.treg, h.treg, ho]
  · obtain ⟨o, ho, _⟩ := s.owned_tile n; rw [j.units.tsh, h.tsh, ho]
  · obtain ⟨o, ho, _⟩ := s.owned_tile n; rw [j.units.cbt, h.cbt, ho]
  · obtain ⟨o, ho, _⟩ := s.owned_tile n; rw [j.units.an, h.an, ho]
  · obtain ⟨o, ho, ho'⟩ := s.owned_tile n; rw [j.units.owners, h.owners, ho]; exact ho' u
  · exact congrArg Specials.fflags j.special

/-- Reading in the state `owned`. -/
theorem State.owned_running (s : State) : s.owned.running = s.running := s.owned_rest.running
@[simp] theorem State.owned_vc (s : State) : s.owned.vc = s.vc := by unfold State.vc; rw [State.owned_me, State.owned_running]
@[simp] theorem State.owned_elemAt (s : State) (v : VCtx) (ew r i : Nat) : s.owned.elemAt v ew r i = s.elemAt v ew r i := by
  obtain ⟨o, ho, _⟩ := s.owned_tile v.tile
  unfold State.elemAt; rw [ho]
@[simp] theorem State.owned_elem (s : State) (v : VCtx) (r : BitVec 5) (i : Nat) : s.owned.elem v r i = s.elem v r i :=
  State.owned_elemAt s v _ _ i
@[simp] theorem State.owned_maskBit (s : State) (v : VCtx) (r i : Nat) : s.owned.maskBit v r i = s.maskBit v r i := by
  obtain ⟨o, ho, _⟩ := s.owned_tile v.tile
  unfold State.maskBit; rw [ho]
@[simp] theorem State.owned_active (s : State) (v : VCtx) (i : Nat) : s.owned.active v i = s.active v i := by
  unfold State.active; rw [State.owned_maskBit]
@[simp] theorem State.owned_actives (s : State) (v : VCtx) : s.owned.actives v = s.actives v := by
  unfold State.actives
  exact congrArg (fun f => (List.range v.vl).filter f) (funext fun i => State.owned_active s v i)
@[simp] theorem State.owned_reg (s : State) (r : BitVec 5) : s.owned.reg r = s.reg r := by unfold State.reg; rw [State.owned_me]

/-- VL never exceeds VLMAX (R158). -/
theorem State.vl_le (s : State) : s.vc.vl ≤ vlmaxOf s.vc.lanes.length s.vc.ew := by
  show (if s.me.crosses 0 then _ else _) ≤ _
  split
  · exact Nat.le_refl _
  · exact Nat.min_le_right _ _
theorem State.active_lt {s : State} {v : VCtx} {i : Nat} (h : s.active v i = true) : i < v.vl := by
  unfold State.active at h; simp at h; exact h.1
theorem State.mem_actives {s : State} {v : VCtx} {i : Nat} : i ∈ s.actives v ↔ s.active v i = true := by
  unfold State.actives
  rw [List.mem_filter, List.mem_range]
  exact ⟨fun h => h.2, fun h => ⟨State.active_lt h, h⟩⟩
/-- Values at the active positions. -/
theorem Says.actives (s : State) (g : Nat → Nat) :
    Says ((s.actives s.vc).map fun i => (i, g i)) (vlmaxOf s.vc.lanes.length s.vc.ew) fun i => if s.active s.vc i then some (g i) else none := by
  refine ⟨fun e h => ?_, fun e h => ?_, fun i x _ h => ?_⟩
  · obtain ⟨i, hi, rfl⟩ := List.mem_map.1 h
    exact Nat.lt_of_lt_of_le (State.active_lt (State.mem_actives.1 hi)) s.vl_le
  · obtain ⟨i, hi, rfl⟩ := List.mem_map.1 h
    simp [State.mem_actives.1 hi]
  · by_cases ha : s.active s.vc i = true
    · simp only [ha, if_true, Option.some.injEq] at h
      subst h
      exact List.mem_map.2 ⟨i, State.mem_actives.2 ha, rfl⟩
    · simp [ha] at h

/-- The end of a vector instruction that wrote elements and raised flags. -/
theorem PutVec.of_owned {s w t : State} {v : VCtx} {ew r : Nat} {f : Nat → Option Nat} (h : PutVec s.owned w v ew r f)
    (hb : ∀ n, (t.tile n).vbank = (w.tile n).vbank) : PutVec s t v ew r f := by
  have he : ∀ r i, t.elemAt v ew r i = w.elemAt v ew r i := fun r i => by unfold State.elemAt; rw [hb]
  refine ⟨fun i hi => ?_, fun n k hk => ?_⟩
  · rw [he, h.elems i hi, State.owned_elemAt]
  · rw [hb, h.others n k hk]
    obtain ⟨o, ho, _⟩ := s.owned_tile n
    rw [ho]
theorem SameMask.of_owned {s w t : State} (h : ∀ n, (w.tile n).mbank = (s.owned.tile n).mbank) (hb : ∀ n, (t.tile n).mbank = (w.tile n).mbank) :
    SameMask s t := by
  intro n k
  obtain ⟨o, ho, _⟩ := s.owned_tile n
  rw [hb, h, ho]
theorem State.putElemsAt_mbank (s : State) (v : VCtx) (ew r : Nat) (xs : List (Nat × Nat)) (n : Nat) :
    ((s.putElemsAt v ew r xs).tile n).mbank = (s.tile n).mbank := by
  unfold State.putElemsAt
  split
  · rfl
  · unfold State.bankWrite
    dsimp only
    split
    · rw [State.updTile_tile]; split
      · subst_vars; rfl
      · rfl
    · rw [State.updProc_tile, State.updTile_tile]; split
      · subst_vars; rfl
      · rfl
theorem State.putMask_vbank (s : State) (v : VCtx) (r : Nat) (f : Nat → Bool) (n : Nat) :
    ((s.putMask v r f).tile n).vbank = (s.tile n).vbank := by
  unfold State.putMask
  split
  · rfl
  · unfold State.maskWrite
    dsimp only
    split
    · rw [State.updTile_tile]; split
      · subst_vars; rfl
      · rfl
    · rw [State.updProc_tile, State.updTile_tile]; split
      · subst_vars; rfl
      · rfl
/-- The running process's strip is open or not as before. -/
theorem State.putElemsAt_strip (s : State) (v : VCtx) (hv : v.h = s.running) (ew r : Nat) (xs : List (Nat × Nat)) :
    ((s.putElemsAt v ew r xs).me.strip = none ↔ s.me.strip = none) ∧ (s.putElemsAt v ew r xs).me.fflags = s.me.fflags := by
  unfold State.putElemsAt
  split
  · exact ⟨Iff.rfl, rfl⟩
  · unfold State.bankWrite
    dsimp only
    split
    · exact ⟨Iff.rfl, rfl⟩
    · rw [hv]
      change (((s.updTile _ _).updMe _).me.strip = none ↔ _) ∧ ((s.updTile _ _).updMe _).me.fflags = _
      rw [State.updMe_me]
      simp
theorem State.putMask_fflags (s : State) (v : VCtx) (hv : v.h = s.running) (r : Nat) (f : Nat → Bool) : (s.putMask v r f).me.fflags = s.me.fflags := by
  unfold State.putMask
  split
  · rfl
  · unfold State.maskWrite
    dsimp only
    split
    · rfl
    · rw [hv]
      change ((s.updTile _ _).updMe _).me.fflags = _
      rw [State.updMe_me]
      rfl

/-- Element writes of a vector instruction, with the flags it raises. -/
theorem State.vectorPut_flags (s : State) (op : Nat) (us : List (BitVec 5)) (ew r : Nat) (hew : IsEw ew) (xs : State → List (Nat × Nat))
    (fl : State → Flags) (f : Nat → Option Nat) (hr : VecReady s us) (hx : 0 < s.vc.lanes.length → Says (xs s.owned) (vlmaxOf s.vc.lanes.length ew) f) :
    ∃ t, s.vectorOp op us (fun u => ((u.putElemsAt u.vc ew r (xs u)).raiseFlags (fl u)).retire op) = t ∧ PutVec s t s.vc ew r f ∧
      t.me.fflags = (if s.me.strip = none then s.me.fflags ||| fl s.owned else s.me.fflags) ∧ SameMask s t ∧ VecDone s t [] := by
  have hv : s.vc.h = s.owned.running := by rw [State.owned_running]; rfl
  have h1 := State.putElemsAt_put s.owned s.vc s.vc_ok hew r (xs s.owned) f hx
  have h2 := VecStep.putElemsAt s.owned s.vc hv ew r (xs s.owned)
  have h3 := h2.trans (VecStep.raiseFlags (s.owned.putElemsAt s.vc ew r (xs s.owned)) (fl s.owned))
  obtain ⟨d1, d2, d3, d4⟩ := VecDone.of_step op hr.step h3
  have h4 := State.putElemsAt_strip s.owned s.vc hv ew r (xs s.owned)
  refine ⟨_, State.vectorOp_ready s op us _ hr ?_, ?_⟩
  · rw [State.owned_vc]; rw [d1.went.ready]; decide
  · rw [State.owned_vc]
    refine ⟨PutVec.of_owned h1 fun n => (d3 n).1, ?_, SameMask.of_owned (fun n => State.putElemsAt_mbank _ _ _ _ _ n) fun n => (d3 n).2, d1⟩
    rw [d2, State.raiseFlags_fflags, h4.2]
    simp only [h4.1, State.owned_me]
/-- Element writes of a vector instruction that raises no flag. -/
theorem State.vectorPut (s : State) (op : Nat) (us : List (BitVec 5)) (d : BitVec 5) (xs : State → List (Nat × Nat))
    (f : Nat → Option Nat) (hr : VecReady s us) (hx : 0 < s.vc.lanes.length → Says (xs s.owned) (vlmaxOf s.vc.lanes.length s.vc.ew) f) :
    ∃ t, s.vectorOp op us (fun u => (u.putElems u.vc d (xs u)).retire op) = t ∧ PutVec s t s.vc s.vc.ew d.toNat f ∧
      SameMask s t ∧ t.me.fflags = s.me.fflags ∧ VecDone s t [] := by
  have hv : s.vc.h = s.owned.running := by rw [State.owned_running]; rfl
  have hew : IsEw s.vc.ew := ewOf_isEw _
  have h1 := State.putElemsAt_put s.owned s.vc s.vc_ok hew d.toNat (xs s.owned) f hx
  have h2 := VecStep.putElemsAt s.owned s.vc hv s.vc.ew d.toNat (xs s.owned)
  obtain ⟨d1, d2, d3, d4⟩ := VecDone.of_step op hr.step h2
  have h4 := State.putElemsAt_strip s.owned s.vc hv s.vc.ew d.toNat (xs s.owned)
  refine ⟨_, State.vectorOp_ready s op us _ hr ?_, ?_⟩
  · rw [State.owned_vc]; unfold State.putElems; rw [d1.went.ready]; decide
  · rw [State.owned_vc]
    refine ⟨PutVec.of_owned h1 fun n => (d3 n).1, SameMask.of_owned (fun n => State.putElemsAt_mbank _ _ _ _ _ n) fun n => (d3 n).2, ?_, d1⟩
    exact d2.trans (h4.2.trans (by rw [State.owned_me]))
/-- Mask bits written by a vector instruction. -/
theorem State.vectorMask (s : State) (op : Nat) (us : List (BitVec 5)) (d : BitVec 3) (f : State → Nat → Bool) (hr : VecReady s us) :
    ∃ t, s.vectorOp op us (fun u => (u.putMask u.vc d.toNat (f u)).retire op) = t ∧
      PutMask s t s.vc d.toNat (fun i => s.active s.vc i && f s.owned i) ∧ SameVec s t ∧ t.me.fflags = s.me.fflags ∧ VecDone s t [] := by
  have hv : s.vc.h = s.owned.running := by rw [State.owned_running]; rfl
  have h1 := State.putMask_put s.owned s.vc s.vc_ok d.toNat (f s.owned)
  have h2 := VecStep.putMask s.owned s.vc hv d.toNat (f s.owned)
  obtain ⟨d1, d2, d3, d4⟩ := VecDone.of_step op hr.step h2
  have h4 := State.putMask_fflags s.owned s.vc hv d.toNat (f s.owned)
  refine ⟨_, State.vectorOp_ready s op us _ hr ?_, ?_⟩
  · rw [State.owned_vc, d1.went.ready]; decide
  · rw [State.owned_vc]
    refine ⟨⟨fun i hi => ?_, fun n k hk => ?_⟩, fun n k => ?_, ?_, d1⟩
    · have e : ∀ r i, ((s.owned.putMask s.vc d.toNat (f s.owned)).retire op).maskBit s.vc r i = (s.owned.putMask s.vc d.toNat (f s.owned)).maskBit s.vc r i :=
        fun r i => by unfold State.maskBit; rw [(d3 _).2]
      rw [e, h1.bits i hi, State.owned_active]
    · rw [(d3 n).2, h1.others n k hk]
      obtain ⟨o, ho, _⟩ := s.owned_tile n
      rw [ho]
    · rw [(d3 n).1, State.putMask_vbank]
      obtain ⟨o, ho, _⟩ := s.owned_tile n
      rw [ho]
    · exact d2.trans (h4.trans (by rw [State.owned_me]))
/-- A scalar register written by a vector instruction. -/
theorem State.vectorScalar (s : State) (op : Nat) (us : List (BitVec 5)) (d : BitVec 5) (x : State → Word) (hr : VecReady s us) :
    ∃ t, s.vectorOp op us (fun u => (u.setReg d (x u)).retire op) = t ∧ t.reg d = (if d = 0 then 0 else x s.owned) ∧ SameVec s t ∧
      SameMask s t ∧ t.me.fflags = s.me.fflags ∧ VecDone s t [d] := by
  obtain ⟨d1, d2, d3, d4⟩ := VecDone.of_step op hr.step (VecStep.setReg s.owned d (x s.owned))
  refine ⟨_, State.vectorOp_ready s op us _ hr ?_, ?_⟩
  · rw [d1.went.ready]; decide
  · refine ⟨?_, fun n k => ?_, fun n k => ?_, ?_, d1⟩
    · rw [d4, State.reg_setReg]
      by_cases h0 : d = 0
      · subst h0; simp [State.reg]
      · rw [if_pos ⟨rfl, h0⟩, if_neg h0]
    · obtain ⟨o, ho, _⟩ := s.owned_tile n
      rw [(d3 n).1, State.setReg, State.updMe, State.updProc_tile, ho]
    · obtain ⟨o, ho, _⟩ := s.owned_tile n
      rw [(d3 n).2, State.setReg, State.updMe, State.updProc_tile, ho]
    · rw [d2, State.setReg_me, State.owned_me]; simp

end Sys2Proof.Machine
end

