-- ==== Sys2Proof/Laws/Memory.lean ====
section
/-! SUPPORT. What a store to a slice leaves to read, and what an access of LOCAL memory does (R77 to R83, R117). -/

namespace Sys2Proof.Machine

/-- A state with other SRAM bytes and tags. -/
def State.withSram (s : State) (m : List Host.Cell) (tg : Tab Bool) : State := { s with sram := m, sramTags := tg }

/-- A store changes SRAM bytes and tags only. -/
theorem State.sramStore_eq (k : Nat) : ∀ (bs : List WByte) (s : State), ∃ m tg, s.sramStore k bs = s.withSram m tg
  | [], s => ⟨s.sram, s.sramTags, rfl⟩
  | b :: bs, s => by
    obtain ⟨m, tg, h⟩ := State.sramStore_eq k bs (s.withSram (Memory.write s.sram (k + b.off) (mergeNib (s.sramByte (k + b.off)) b.val b.nib))
      (Tab.cut s.sramTags ((k + b.off) / 16)))
    exact ⟨m, tg, h⟩

/-- The bytes from offset `o` on. -/
def wbytesFrom (o : Nat) (bs : List Byte) : List WByte := (bs.zipIdx o).map fun e => { off := e.2, val := e.1 }
theorem State.sramStore_from (k : Nat) : ∀ (bs : List Byte) (o : Nat) (s : State),
    (∀ q, (s.sramStore k (wbytesFrom o bs)).sramByte q = if k + o ≤ q ∧ q < k + o + bs.length then bs.getD (q - (k + o)) 0 else s.sramByte q) ∧
    (∀ g, Tab.lookD (s.sramStore k (wbytesFrom o bs)).sramTags g false =
      if bs ≠ [] ∧ (k + o) / 16 ≤ g ∧ g ≤ (k + o + bs.length - 1) / 16 then false else Tab.lookD s.sramTags g false)
  | [], o, s => by
    refine ⟨fun q => ?_, fun g => ?_⟩
    · rw [if_neg (by simp)]; rfl
    · rw [if_neg (by simp)]; rfl
  | b :: bs, o, s => by
    obtain ⟨h1, h2⟩ := State.sramStore_from k bs (o + 1) (s.withSram (Memory.write s.sram (k + o) b) (Tab.cut s.sramTags ((k + o) / 16)))
    have e : s.sramStore k (wbytesFrom o (b :: bs)) = (s.withSram (Memory.write s.sram (k + o) b) (Tab.cut s.sramTags ((k + o) / 16))).sramStore k
        (wbytesFrom (o + 1) bs) := rfl
    rw [e]
    have hb : ∀ q, (s.withSram (Memory.write s.sram (k + o) b) (Tab.cut s.sramTags ((k + o) / 16))).sramByte q =
        if k + o = q then b else s.sramByte q := fun q => Memory.read_write _ _ _ _
    have ht : ∀ g, Tab.lookD (s.withSram (Memory.write s.sram (k + o) b) (Tab.cut s.sramTags ((k + o) / 16))).sramTags g false =
        if (k + o) / 16 = g then false else Tab.lookD s.sramTags g false := by
      intro g
      show Tab.lookD (Tab.cut s.sramTags _) g false = _
      unfold Tab.lookD
      rw [Tab.look_cut]
      split <;> rfl
    refine ⟨fun q => ?_, fun g => ?_⟩
    · rw [h1, hb, List.length_cons]
      by_cases h0 : k + o = q
      · subst h0
        rw [if_neg (by omega), if_pos rfl, if_pos (by omega)]
        simp
      · rw [if_neg h0]
        by_cases h3 : k + (o + 1) ≤ q ∧ q < k + (o + 1) + bs.length
        · rw [if_pos h3, if_pos (by omega)]
          obtain ⟨m, hm⟩ : ∃ m, q - (k + o) = m + 1 := ⟨q - (k + o) - 1, by omega⟩
          rw [hm, List.getD_cons_succ]
          congr 1
          omega
        · rw [if_neg h3, if_neg (by omega)]
    · rw [h2, ht, List.length_cons]
      by_cases h0 : (k + o) / 16 = g
      · have hc : b :: bs ≠ [] ∧ (k + o) / 16 ≤ g ∧ g ≤ (k + o + (bs.length + 1) - 1) / 16 := ⟨by simp, by omega, by omega⟩
        rw [if_pos h0, if_pos hc]
        split <;> rfl
      · rw [if_neg h0]
        by_cases h3 : bs ≠ [] ∧ (k + (o + 1)) / 16 ≤ g ∧ g ≤ (k + (o + 1) + bs.length - 1) / 16
        · rw [if_pos h3, if_pos ⟨by simp, by omega, by omega⟩]
        · rw [if_neg h3, if_neg]
          rintro ⟨_, h4, h5⟩
          refine h3 ⟨fun hn => ?_, by omega, by omega⟩
          subst hn
          simp at h5
          omega
/-- A store of the low `n` bytes of a number. -/
theorem State.sramStore_num (s : State) (k n v : Nat) (hn : 0 < n) :
    (∀ q, (s.sramStore k (wbytes (bytesLE n v))).sramByte q = if k ≤ q ∧ q < k + n then byteAt v (q - k) else s.sramByte q) ∧
    (∀ g, Tab.lookD (s.sramStore k (wbytes (bytesLE n v))).sramTags g false =
      if k / 16 ≤ g ∧ g ≤ (k + n - 1) / 16 then false else Tab.lookD s.sramTags g false) := by
  have hl : (bytesLE n v).length = n := by simp [bytesLE]
  have hne : bytesLE n v ≠ [] := fun h => by rw [h] at hl; simp at hl; omega
  obtain ⟨h1, h2⟩ := State.sramStore_from k (bytesLE n v) 0 s
  rw [hl] at h1 h2
  refine ⟨fun q => ?_, fun g => ?_⟩
  · refine (h1 q).trans ?_
    simp only [Nat.add_zero]
    split
    · next h =>
      unfold bytesLE
      rw [List.getD_eq_getElem _ _ (by simp; omega)]
      simp
    · rfl
  · refine (h2 g).trans ?_
    simp only [Nat.add_zero, ne_eq, hne, not_false_eq_true, true_and]

/-- The number that `n` bytes of SRAM stand for. -/
theorem ofBytesLE_sum (f : Nat → Byte) : ∀ n, ofBytesLE ((List.range n).map f) = ((List.range n).map fun i => (f i).toNat * 256 ^ i).sum
  | 0 => rfl
  | n + 1 => by
    rw [List.range_succ_eq_map, List.map_cons, List.map_map, ofBytesLE, List.map_cons, List.map_map, List.sum_cons]
    rw [ofBytesLE_sum (f ∘ Nat.succ) n]
    have : ((fun i => (f i).toNat * 256 ^ i) ∘ Nat.succ) = fun i => 256 * (((f ∘ Nat.succ) i).toNat * 256 ^ i) := by
      funext i; simp [Nat.pow_succ]; ring
    rw [this, List.sum_map_mul_left]
    simp

/-- A LOCAL access that passes its checks (R78, R80). -/
theorem State.placeMt_local (s : State) (a : Word) (n al : Nat) (p : Perm) (ht : s.me.mtype = 0) (ha : a.toNat % al = 0) (h0 : 0 < n)
    (h1 : s.me.wbase ≤ a.toNat) (h2 : a.toNat + n ≤ s.me.wbase + s.me.wsize) (h3 : a.toNat + n + s.myPart.cbsize ≤ 0x100000)
    (h4 : s.isWithdrawn (s.me.tile * 0x100000 + a.toNat) n = false) :
    s.placeMt (s.me.mtCtx s.running) a n al p = (s, .ok (.sram (s.me.tile * 0x100000 + a.toNat) false)) := by
  have hc : (s.me.mtCtx s.running).typ = 0 := ht
  unfold State.placeMt State.placeOf
  rw [hc]
  have hl : s.placeLocal (s.me.mtCtx s.running) a.toNat n = .ok (.sram (s.me.tile * 0x100000 + a.toNat) false) := by
    unfold State.placeLocal
    rw [if_neg, if_neg]
    · rfl
    · show ¬(s.isWithdrawn (s.me.tile * 0x100000 + a.toNat) n = true)
      rw [h4]; decide
    · rintro (h | h | h)
      · omega
      · exact h ⟨h1, h2⟩
      · have : 0x100000 < a.toNat + n + s.myPart.cbsize := by
          have h' := h
          unfold Partition.inBuffer at h'
          exact of_decide_eq_true h'
        omega
  simp [ha, hl]

/-- A change of SRAM leaves the rest. -/
theorem State.withSram_step (s : State) (m : List Host.Cell) (tg : Tab Bool) :
    SameRegs s (s.withSram m tg) [] ∧ (s.withSram m tg).me = s.me ∧ SameUnits s (s.withSram m tg) ∧ SameRest s (s.withSram m tg) :=
  ⟨⟨fun _ _ => rfl, fun _ => rfl, fun _ => rfl⟩, rfl, ⟨fun _ => rfl, fun _ => rfl, fun _ => rfl, fun _ => rfl, fun _ => rfl, fun _ => rfl, fun _ => rfl⟩,
    ⟨rfl, fun _ _ => rfl, fun _ => rfl, fun _ => rfl, rfl, rfl, rfl, rfl⟩⟩

end Sys2Proof.Machine
end

