-- ==== Sys2Proof/Tests/Slice0.lean ====
section
/-! SUPPORT. Tests of the model: ill-formed terms, words from the spec's tables and examples, single steps, and for every
statement with hypotheses small states that meet them. -/

namespace Sys2Proof.Tests

open Sys2Proof Sys2Proof.Machine

/-! Each check of WellFormed refuses a term. -/

theorem test_wf_slotRange : (Instr.cpush 30 0 2).violation = some .slotRange ∧ (Instr.cpush 29 0 2).wf = true := by decide
theorem test_wf_pairRange : (Instr.kderive 0 1 31 0).violation = some .pairRange ∧ (Instr.acas 1 2 30 .d).wf = true := by decide
theorem test_wf_oddMask : (Instr.mmasp 0 1 2 3).violation = some .oddMask := by decide
theorem test_wf_emptyPortSet : (Instr.sbar 0).violation = some .emptyPortSet := by decide
theorem test_wf_noSuchTile : (Instr.faultRecordPush 2048).violation = some .noSuchTile := by decide
theorem test_wf_noSuchPartition : (Instr.networkLaunch 16).violation = some .noSuchPartition := by decide
theorem test_wf_noSuchLane : (Instr.lossOfLight 2112).violation = some .noSuchLane ∧ (Instr.lightRestored 2048).violation = some .noSuchLane := by
  decide
theorem test_wf_noSuchPort : (Instr.streamStart 0 8).violation = some .noSuchPort := by decide
theorem test_wf_noSuchDomain : (Instr.domainTick 0 8).violation = some .noSuchDomain := by decide
theorem test_wf_noSuchTap : (Instr.tapCreditPush 0 16).violation = some .noSuchTap := by decide
theorem test_wf_noSuchServer : (Instr.dramRead 256 0).violation = some .noSuchServer := by decide
theorem test_wf_noSuchHostEndpoint : (Instr.d2hDeliver 2048).violation = some .noSuchHostEndpoint := by decide
theorem test_wf_noSuchTree : (Instr.sdescClear 0 16).violation = some .noSuchTree := by decide

/-! Words that the spec gives as examples, and words put together from its tables, for every major opcode. -/

/-- The examples of R274, R277, R282 and R284. -/
theorem test_decode_scalar : decode 0x30C5C000 = .ok (.ld 6 5 .d 0) ∧ decode 0x342AC000 = .ok (.st 1 10 .d 0) ∧
    decode 0x04A63801 = .ok (.add 5 6 7) ∧ decode 0x08E7FFFF = .ok (.addi 7 7 0xFFFF) ∧ decode 0x08000000 = .ok (.addi 0 0 0) := by decide
/-- Tables 12.3 and 12.6: SLLI by 63, LUI, BEOS, JAL and JALR. -/
theorem test_decode_transfer : decode 0b000111_00001_00010_0000000000_111111#32 = .ok (.slli 1 2 63) ∧
    decode 0b001010_00001_00000_1000000000000000#32 = .ok (.lui 1 0x8000) ∧
    decode 0b001110_00000_00000_110_1111111111111#32 = .ok (.beos 0x1FFF) ∧
    decode 0b001111_00001_000000000000000000010#32 = .ok (.jal 1 2) ∧
    decode 0b010000_00001_00010_0000000000000100#32 = .ok (.jalr 1 2 4) := by decide
/-- The examples of R282 and R284, and Tables 12.7, 12.9 and 12.11. -/
theorem test_decode_vector : decode 0x60850000 = .ok (.vld 4 5) ∧ decode 0x64221D00 = .ok (.vadd 1 2 3 .rep4) ∧
    decode 0x6C453002 = .ok (.vcmp 2 5 6 .none .lt) ∧
    decode 0b011000_00001_00010_00011_0000000_1010#32 = .ok (.vstx 1 2 3) ∧
    decode 0b011010_00001_00010_00110_000_00001010#32 = .ok (.vfcvt 1 2 .re4m3) ∧
    decode 0b011100_00001_00010_00011_000_00000101#32 = .ok (.vmvvs 1 2 3) ∧
    decode 0b011101_00001_00010_00011_000_00001001#32 = .ok (.vfredmin 1 2 3) := by decide
/-- The examples under Tables 2.4, 3.3, 4.8, 7.7, 7.10, 9.7 and 9.11. -/
theorem test_decode_units : decode 0xB0A60001 = .ok (.spawn 5 6) ∧ decode 0xB0000003 = .ok .yield ∧ decode 0xA0C60000 = .ok (.cpush 6 3 0) ∧
    decode 0xA0820020 = .ok (.cpush 4 1 2) ∧ decode 0xA52A2341 = .ok (.sgather 9 10 4 3 2) ∧ decode 0xA4000502 = .ok (.sbar 5) ∧
    decode 0xB4A60001 = .ok (.setvl 5 6) ∧ decode 0xB4070003 = .ok (.setvt 7) := by decide
theorem test_decode_units2 : decode 0xC1CA6383 = .ok (.mmas 3 4 5 6 7) ∧ decode 0xC0148004 = .ok (.mmasp 0 1 2 2) ∧
    decode 0xC8A63801 = .ok (.lease 5 6 7) ∧ decode 0xC9260003 = .ok (.lquery 9 6) ∧ decode 0xCC062001 = .ok (.vtree 6 4 .f32 .sum) ∧
    decode 0xCD060002 = .ok (.vtreew 8 6 .f32 .sum) := by decide
/-- Tables 4.5, 5.4, 8.6, 12.12 and 12.13, and R278. -/
theorem test_decode_units3 : decode 0b101010_00010_00001_00110_110000_0_0000#32 = .ok (.kderive 2 1 6 0b110000) ∧
    decode 0b101011_00001_00010_00011_10_00000_0101#32 = .ok (.axadd 1 2 3 .w) ∧
    decode 0b101110_00000_00101_00000_00000000001#32 = .ok (.cbtld 5) ∧
    decode 0b110000_011_000_000_00100_00101_000_1001#32 = .ok (.tmvt 3 5 4) ∧
    decode 0b110001_00000_00001_01111_0000000_1001#32 = .ok (.dbind 1 15) ∧
    decode 0b111100_00000_00000_111111111111_0010#32 = .ok (.trap 0xFFF) := by decide
/-- R273: the all-zeros and the all-ones word, a reserved function, a field that must be zero, a rep that is not allowed. -/
theorem test_decode_rejects : (∃ r, decode 0 = .error r) ∧ (∃ r, decode 0xFFFFFFFF = .error r) ∧ (∃ r, decode 0x04A63816 = .error r) ∧
    (∃ r, decode 0xB0000803 = .error r) ∧ (∃ r, decode 0b011001_00001_00010_00000_101_00010001#32 = .error r) :=
  ⟨⟨_, rfl⟩, ⟨_, rfl⟩, ⟨_, rfl⟩, ⟨_, rfl⟩, ⟨_, rfl⟩⟩

/-! Small states, and what the witnesses below are made of. -/

/-- A process with handle 1 on tile 0 of partition 0, about to perform its instruction. -/
def one (p : Proc) : State :=
  { State.reset with running := 1, procs := [(1, p)], parts := [(0, { valid := true, tvec := 0x100 })], tiles := [(0, { slots := [(0, 1)] })] }
/-- The same, with given scalar registers and a window of half a mebibyte. -/
def regs (l : Tab Word) : State := one { pst := .running, wsize := 0x80000, sregs := l }
/-- The instruction or event goes on. -/
def Runs (i : Instr) (s : State) : Prop := ∃ t, exec i s = .next t

theorem runs {i : Instr} {s : State} {P : State → Prop} (h : ∃ t, exec i s = .next t ∧ P t) : Runs i s := h.imp fun _ q => q.1
theorem runs' {α : Type} {i : Instr} {s : State} {P : State → α → Prop} (h : ∃ t u, exec i s = .next t ∧ P t u) : Runs i s :=
  h.imp fun _ q => q.elim fun _ q => q.1
theorem runs'' {α β : Type} {i : Instr} {s : State} {P : State → α → β → Prop} (h : ∃ t u v, exec i s = .next t ∧ P t u v) : Runs i s :=
  h.imp fun _ q => q.elim fun _ q => q.elim fun _ q => q.1
theorem runs4 {α β γ : Type} {i : Instr} {s : State} {P : State → α → β → γ → Prop} (h : ∃ t u v w, exec i s = .next t ∧ P t u v w) : Runs i s :=
  h.imp fun _ q => q.elim fun _ q => q.elim fun _ q => q.elim fun _ q => q.1
theorem stays {i : Instr} {s t : State} (h : exec i s = .next t) : Runs i s := ⟨t, h⟩
theorem fr {s : State} {rs : List (BitVec 5)}
    (h : (rs.all (fun r => !s.me.isPending r.toNat) && decide (s.me.lateUntil rs ≤ s.cycle)) = true) : s.free rs := by
  simp at h; exact ⟨h.1, h.2⟩
theorem pl {s : State} (h : (!s.me.ss && s.me.strip.isNone && s.me.pgrant.isNone) = true) : s.plain := by
  simp at h; exact ⟨h.1.1, h.1.2, h.2⟩

theorem idle {s : State} (h : s.events = []) : NothingDue s := fun d i rest e => by rw [h] at e; cases e

theorem vr {s : State} {rs : List (BitVec 5)} (h : (s.me.pgrant.isNone && !s.me.ss && (s.me.filling (rs.map fun r => r.toNat)).isEmpty &&
    s.me.mlat.isEmpty && (s.conflict s.running 0 s.me.slivers).isNone) = true) : VecReady s rs := by
  simp at h; exact ⟨h.1.1.1.1, h.1.1.1.2, h.1.1.2, fun m => by rw [h.1.2]; exact Nat.zero_le _, h.2⟩
theorem lb {s : State} {a n : Nat} (h : (decide (s.me.mtype = 0) && decide (s.me.wbase ≤ a) && decide (a + n ≤ s.me.wbase + s.me.wsize) &&
    decide (a + n + s.myPart.cbsize ≤ 0x100000) && !s.isWithdrawn (s.me.tile * 0x100000 + a) n) = true) : LocalBytes s a n := by
  simp at h; exact ⟨h.1.1.1.1, h.1.1.1.2, h.1.1.2, h.1.2, h.2⟩

/-- A process with the first sliver, three elements of EW 32 and FP32 in VT. -/
def vecP : Proc := { pst := .running, wsize := 0x80000, slivers := [0], vl := 3 }
def vec (vt : Word) (l : Tab Word) : State := one { vecP with vt := vt, sregs := l }
/-- An open strip, begun at address 0x40. -/
def strip0 : Strip := { pc := 0x40, sregs := [(1, 7)], pend := [], vs := 0, vt := 2, vmsel := 0, mt := 0, peer := 0, cflags := 0, mstep := 0 }
def strip (k : Strip) (l : Tab Word) : State := one { pst := .running, wsize := 0x80000, sregs := l, strip := some k }

/-- The page at 0x10000 of the DRAM of partition 0 is in the TLB, with every permission; MT names DRAM. -/
def dram (l : Tab Word) : State :=
  { one { pst := .running, wsize := 0x80000, mt := 2, sregs := l } with
    parts := [(0, { valid := true, key := { full := true }, servers := [0] })]
    tiles := [(0, { slots := [(0, 1)], l1 := [{ part := 0, base := 0x10000, size := 0x10000, leaf := 0xFC00000000010000, pteAt := 0, bank := 1 }] })] }

theorem all3 {P : Nat → Prop} (a : P 0) (b : P 1) (c : P 2) : ∀ i ∈ [0, 1, 2], P i := by simp [a, b, c]

/-- An eight-byte read of DRAM by the process. -/
def req0 : Req := { h := 1, tile := 0, part := 0, net := 0, typ := 2, place := .dram 0x10000 0x10000, addr := 0x10000, op := .read 8, dest := .scalar 1 8,
                    pc := 0, opcode := 0x0C, strip := false }
/-- Channel register c15 is `x`, capability register k0 may be sent, and endpoint 300 holds a queue. -/
def chanP (x : ChanReg) (l : Tab Word) : Proc :=
  { vecP with sregs := l, chans := [(15, x)], caps := [(0, { bits := .ofNat 128 (2 ^ 102), tag := true })] }
def chanS (x : ChanReg) (q : List QSlot) (l : Tab Word) : State :=
  { one (chanP x l) with eps := [(300, { bound := true, owner := widOf 1 15, bcap := 32, cap := 32, free := 30, queue := q })] }
def writer (n : Nat) : ChanReg := { role := .writer, dest := .tile 300, credits := n, granted := true, bcap := 32 }
def reader : ChanReg := { role := .reader, dest := .tile 300 }
/-- A slot of data, and the marker. -/
def dat (v : Word) : QSlot := { val := v, marker := false, wid := 0, msg := 0, tagged := false }
def eos : QSlot := { val := 0, marker := true, wid := 0, msg := 1, tagged := false }
theorem wt {s : State} {c : BitVec 4} {e m n : Nat} (h : (decide ((s.me.chan c.toNat).role = .writer) && decide ((s.me.chan c.toNat).use = .plain) &&
    decide ((s.me.chan c.toNat).dest = .tile e) && !(s.me.chan c.toNat).gone && !(s.me.chan c.toNat).frozen && (s.me.chan c.toNat).refused.isNone &&
    (!(s.me.chan c.toNat).granted || decide (m ≤ (s.me.chan c.toNat).bcap)) && decide (n ≤ (s.me.chan c.toNat).credits)) = true) :
    WritesTo s c e m n := by
  simp at h
  obtain ⟨⟨⟨⟨⟨⟨⟨a, b⟩, c⟩, d⟩, e⟩, f⟩, g⟩, i⟩ := h
  exact ⟨a, b, c, ⟨d, e, f⟩, fun x => by rcases g with g | g; · simp [g] at x
                                         · exact g, i⟩
theorem rd {s : State} {c : BitVec 4} {e n : Nat} (h : (decide ((s.me.chan c.toNat).role = .reader) && decide ((s.me.chan c.toNat).use = .plain) &&
    !(s.me.chan c.toNat).gone && decide ((s.me.chan c.toNat).dest = .tile e) && decide (n ≤ (s.ep e).bcap) && decide ((s.ep e).kept = 0) &&
    (s.ep e).queue.all fun x => !x.cal) = true) : ReadsFrom s c e n := by
  simp at h; exact ⟨h.1.1.1.1.1.1, h.1.1.1.1.1.2, h.1.1.1.1.2, h.1.1.1.2, h.1.1.2, h.1.2, h.2⟩
theorem nu {s : State} (h : (s.staged.isEmpty && ((s.tile s.me.tile).cb.all fun e => decide (e.2.h ≠ s.running)) &&
    s.reqs.all fun e => decide (e.2.h ≠ s.running)) = true) : NoneUnderWay s := by
  simp at h; exact ⟨h.1.1, fun e q => h.1.2 e.1 e.2 q, fun e q => h.2 e.1 e.2 q⟩

/-- A stream binding on port 7 that copies one sector of eight bytes from 0 to 64. -/
def bind0 : Binding := { h := 1, tile := 0, part := 0, net := 0, port := 7, sd := 5, pc := 0, st := .queued, sspace := 0, dspace := 0, scap := {},
                         dcap := {}, sbase := 0, dbase := 64, sstride := 8, dstride := 8, count := 1, sector := 8, mig := false, peer := 0, ptea := 0 }
/-- The same at the head of its port, in a given state. -/
def bindS (b : Binding) : State :=
  { one { pst := .running, wsize := 0x80000, pend := [(5, .token 1)] } with binds := [(1, b)], tiles := [(0, { slots := [(0, 1)], ports := [(7, [1])] })] }
/-- A process on a tile whose tile registers have given shapes. -/
def tileS (p : Proc) (tsh : Tab (BitVec 20)) : State := { one p with tiles := [(0, { slots := [(0, 1)], tsh := tsh })] }
theorem mr {s : State} {vs : List (BitVec 5)} {v : Bool} (h : (!s.me.ss && s.me.strip.isNone && s.me.pgrant.isNone &&
    (s.me.filling (vs.map fun r => r.toNat)).isEmpty && s.me.mlat.isEmpty && (s.tile s.me.tile).cb.isEmpty && s.reqs.isEmpty &&
    (s.conflict s.running 1 []).isNone && (!v || (s.conflict s.running 0 s.me.slivers).isNone)) = true) : MatReady s vs v := by
  simp only [Bool.and_eq_true, List.isEmpty_iff] at h
  obtain ⟨⟨⟨⟨⟨⟨a, b⟩, c⟩, d⟩, e⟩, f⟩, g⟩ := h
  exact ⟨pl (by simpa using a), b, fun m => by rw [c]; exact Nat.zero_le _, by simp [d], by simp [e], by simpa using f, fun q => by simpa [q] using g⟩
theorem wb {s : State} {h a n : Nat} (q : (decide ((s.proc h).wbase ≤ a) && decide (a + n ≤ (s.proc h).wbase + (s.proc h).wsize) &&
    decide (a + n + (s.part (s.proc h).part).cbsize ≤ 0x100000) && s.withdrawn.isEmpty) = true) : WindowBytes s h a n := by
  simp at q; exact ⟨q.1.1.1, q.1.1.2, q.1.2, q.2⟩

/-- A tile with a given analyser, owned by the process, in cycle 1. -/
def anS (p : Proc) (an : Analyser) : State := { one p with cycle := 1, tiles := [(0, { slots := [(0, 1)], owners := [(17, 1)], an := an })] }
def anP (l : Tab Word) : Proc := { pst := .running, wsize := 0x80000, sregs := l }
theorem ar {s : State} (h : (!s.me.ss && s.me.strip.isNone && s.me.pgrant.isNone && s.me.image.isNone && (s.conflict s.running 2 []).isNone) = true) :
    AnReady s := by
  simp at h; exact ⟨⟨h.1.1.1.1, h.1.1.1.2, h.1.1.2⟩, .inl h.1.2, h.2⟩

/-! For each statement, states and operands that meet its hypotheses. -/

theorem witness_DecodeEncodeRoundTrip (h : Obligations.DecodeEncodeRoundTrip) : Laws.RoundTrip.Statement (.cpush 29 15 2) := h _
theorem witness_DecodedWordEncodesBack (h : Obligations.DecodedWordEncodesBack) : encode (.add 5 6 7) = some 0x04A63801 :=
  (h _ _ (by decide)).2

theorem witness_EventsThenNextCycle (h : Obligations.EventsThenNextCycle) :
    (∃ t, step { State.reset with events := [(0, .powerLimit)] } = exec .powerLimit t) ∧ (∃ t, step { State.reset with issueLeft := [] } = .next t) ∧
    (∃ t, step { State.reset with stopped := true, events := [(9, .powerLimit)], issueLeft := [] } = .next t) ∧
    ({ State.reset with stopped := true } : State).newCycle.cycle = 1 ∧ State.reset.newCycle.cycle = 1 ∧
    step { State.reset with stopped := true, events := [], issueLeft := [] } = .fault .moduleStopped :=
  ⟨⟨_, h.1 _ 0 _ [] rfl (by decide)⟩, ⟨_, h.2.1 _ (idle rfl) rfl (.inl rfl)⟩,
    ⟨_, h.2.1 _ (fun _ _ _ e => by cases e; decide) rfl (.inr (by simp))⟩, h.2.2.1 _, h.2.2.1 _, h.2.2.2 _ rfl rfl rfl⟩

/-- STEP: the state after the load of a program that begins with `add s5, s6, s7`, or with the word 0. -/
theorem witness_StepRunsDecoded (h : Obligations.StepRunsDecoded) : (∃ u, step (State.reset.withFetchWord 32 0x04A63801) = exec (.add 5 6 7) u) ∧
    1 ∈ (one { pst := .ready, slot := 0 }).selectable 0 ∧ NotBehind ((one { pst := .ready }).proc 1) ((one { pst := .ready }).proc 2) ∧
    ((one {}).choose [1, 2]).isSome = true := by
  obtain ⟨c1, c2, c3, c4⟩ := h
  exact ⟨⟨_, c1 (State.reset.withFetchWord 32 0x04A63801) 0 1 0x200000 [] _ (.add 5 6 7) (idle rfl) rfl ⟨⟨_, rfl, by decide, rfl⟩, rfl⟩ (by decide)⟩,
    (c2 _ 0 1 rfl).mpr ⟨⟨0, by decide⟩, rfl, rfl, rfl, rfl, rfl, by decide, rfl, rfl, rfl, rfl⟩,
    ((c3 (one { pst := .ready }) [1, 2] 1 (by decide)).2 2 (by decide)).2 (by decide) (by decide), c4 _ _ (by decide)⟩
theorem witness_IllegalWordFaults (h : Obligations.IllegalWordFaults) :
    (∃ u, step (State.reset.withFetchWord 32 0) = exec (.illegalWord (u.fetchWord 1 0x200000)) u) ∧ Runs (.illegalWord 0) (regs []) ∧
    Runs (.illegalWord 0xFFFFFFFF) (strip strip0 []) := by
  obtain ⟨c1, c2, c3⟩ := h
  exact ⟨⟨_, c1 (State.reset.withFetchWord 32 0) 0 1 0x200000 [] _ _ (idle rfl) rfl ⟨⟨_, rfl, by decide, rfl⟩, rfl⟩ rfl⟩, runs (c2 _ _ rfl),
    runs (c3 _ strip0 _ rfl)⟩

theorem witness_StepKeepsMemoryCanonical (h : Obligations.StepKeepsMemoryCanonical) : State.reset.newCycle.memOk :=
  h State.reset _ ⟨by decide, by decide⟩ rfl

theorem witness_ScalarResult (h : Obligations.ScalarResult) : Runs (.addi 1 2 0xFFFF) (regs [(2, 5)]) ∧ Runs (.sll 0 2 2) (regs [(2, 64)]) ∧
    Runs (.div 1 2 0) (regs [(2, 5)]) :=
  ⟨runs (h.1 _ _ _ _ _ rfl (fr (by decide)) (by decide)), runs (h.1 _ _ _ _ _ rfl (fr (by decide)) (by decide)),
    runs (h.2 _ _ _ _ _ _ rfl (fr (by decide)) (by decide))⟩

theorem witness_ScalarWaitsForRegisters (h : Obligations.ScalarWaitsForRegisters) :
    Runs (.addi 1 2 1) (one { pst := .running, pend := [(1, .grant)] }) ∧ Runs (.addi 1 2 1) (one { pst := .running, lat := [(1, 1)] }) :=
  ⟨runs (h.1 _ _ _ 1 _ _ rfl (by decide)), runs (h.2 _ _ _ _ _ rfl (by decide) (by decide))⟩

theorem witness_HaltResult (h : Obligations.HaltResult) : Runs (.addi 1 2 1) (one { pst := .running, status := 0x60 }) ∧
    Runs (.addi 0 2 1) (one { pst := .running, status := 0x20, strip := some strip0 }) ∧ Runs (.addi 1 2 1) (one { pst := .running, status := 0x20, handler := true }) ∧
    Runs .brk (one { pst := .running, status := 0x40 }) ∧ Runs .halt (one { pst := .running, status := 0x40 }) ∧ Runs .halt (regs []) := by
  obtain ⟨c1, cs, ch, c2, c3⟩ := h
  exact ⟨runs (c1 _ _ _ _ _ rfl (fr (by decide)) (by decide) (by decide) rfl), runs (cs _ _ _ _ _ rfl (fr (by decide)) (by decide) (by decide) rfl),
    runs (ch _ _ _ _ _ rfl (fr (by decide)) (by decide) rfl), runs (c2 _ (pl (by decide)) (by decide)).1,
    runs (c2 _ (pl (by decide)) (by decide)).2, runs (c3 _ _ (.inr rfl) rfl (by decide))⟩

/-- TRANSFER: a branch to the highest word below 2^48, a jump to 0, and targets just outside. -/
theorem witness_TransferResult (h : Obligations.TransferResult) :
    Runs (.beq 0 0 1) (one { pst := .running, pc := 0xFFFFFFFFFFF8 }) ∧ Runs (.jal 1 0x1FFFFF) (one { pst := .running, pc := 4 }) ∧
    Runs (.jalr 1 1 4) (one { pst := .running, sregs := [(1, 0xFFFFFFFFFFF8)] }) ∧ Runs (.beq 0 0 1) (one { pst := .running, pc := 0xFFFFFFFFFFFC }) ∧
    Runs (.jal 1 0x1FFFFF) (one { pst := .running, pc := 0 }) ∧ Runs (.jalr 1 1 2) (regs [(1, 0x100)]) ∧
    Runs (.jalr 1 1 0) (regs [(1, 0x1000000000000)]) := by
  obtain ⟨c1, c2, c3, c4, c5, c6⟩ := h
  exact ⟨runs (c1 _ _ _ _ _ 0xFFFFFFFFFFFC rfl (fr (by decide)) (by decide) (by decide) (by decide)),
    runs (c2 _ _ _ 0 (fr (by decide)) (by decide) (by decide) (by decide)),
    runs (c3 _ _ _ _ 0xFFFFFFFFFFFC (fr (by decide)) (by decide) (by decide) (by decide) (by decide)),
    runs (c4 _ _ _ _ _ rfl (fr (by decide)) rfl rfl (by decide)), runs (c5 _ _ _ _ (fr (by decide)) rfl rfl (by decide)),
    runs (c6 _ _ _ _ _ (fr (by decide)) rfl rfl (by decide)), runs (c6 _ _ _ _ _ (fr (by decide)) rfl rfl (by decide))⟩

theorem witness_VectorIntegerResult (h : Obligations.VectorIntegerResult) : Runs (.vadd 1 2 3 .none) (vec 2 []) ∧
    Runs (.vsadd 1 2 3 .rep4) (one { vecP with strip := some strip0 }) :=
  ⟨runs (h _ _ _ _ _ rfl (vr (by decide))), runs (h _ _ _ _ _ rfl (vr (by decide)))⟩

theorem witness_VectorMoveResult (h : Obligations.VectorMoveResult) : Runs (.vmerge 1 2 3 .none) (vec 2 []) ∧ Runs (.vmvsv 1 2) (vec 2 [(2, 9)]) :=
  ⟨runs (h _ _ _ _ _ _ rfl (fr (by decide)) (vr (by decide))), runs (h _ _ _ _ _ _ rfl (fr (by decide)) (vr (by decide)))⟩
theorem witness_VectorFloatResult (h : Obligations.VectorFloatResult) : Runs (.vfadd 1 2 3 .none) (vec 2 []) ∧ Runs (.vfredsum 1 2 3) (vec 1 []) :=
  ⟨runs (h.1 _ _ _ _ _ _ rfl rfl (vr (by decide))), runs (h.2 _ _ _ _ _ _ _ rfl rfl (vr (by decide)))⟩

theorem witness_VectorConvertResult (h : Obligations.VectorConvertResult) : Runs (.vfcvt 1 2 .ftoi) (vec 2 []) ∧
    Runs (.vfcvt 30 2 .widen) (vec 1 []) ∧ Runs (.vfcvt 1 30 .narrow) (vec 1 []) := by
  obtain ⟨c1, c2, c3⟩ := h
  exact ⟨runs (c1 _ _ _ _ _ _ rfl (by decide) (fun _ => rfl) (vr (by decide))), runs (c2 _ _ _ _ rfl (by decide) (vr (by decide))),
    runs (c3 _ _ _ _ _ rfl (by decide) (vr (by decide)) fun _ => rfl)⟩

theorem witness_VectorMaskResult (h : Obligations.VectorMaskResult) : Runs (.vfcmp 7 2 3 .none .un) (vec 2 []) ∧ Runs (.vmlog 1 2 3 .xnor) (vec 2 []) ∧
    Runs (.vmvvs 1 2 3) (vec 2 [(3, 2)]) :=
  ⟨runs (h.1 _ _ .fp32 _ _ _ (fun _ => rfl) rfl (vr (by decide))), runs (h.1 _ _ .fp32 _ _ _ (fun q => by simp at q) rfl (vr (by decide))),
    runs (h.2 _ _ _ _ _ _ rfl (fr (by decide)) (vr (by decide)))⟩

/-- LOCAL: the last doubleword of the window, and the first bytes. -/
theorem witness_LocalLoadStoreResult (h : Obligations.LocalLoadStoreResult) : Runs (.ld 1 2 .d 0x3FF8) (regs [(2, 0x80000)]) ∧
    Runs (.st 1 2 .b 0) (regs [(1, 5)]) := by
  obtain ⟨c1, c2⟩ := h
  exact ⟨runs (c1 _ _ _ _ _ _ rfl (by decide) (lb (by decide)) (fr (by decide)) (pl (by decide))),
    runs (c2 _ _ _ _ _ _ rfl (by decide) (lb (by decide)) (fr (by decide)) (pl (by decide)))⟩

/-- FAULTS: one byte beyond the window, a misaligned address, a reserved memory type; a vector whose second element lies outside. -/
theorem witness_AccessFaults (h : Obligations.AccessFaults) : Runs (.ld 1 2 .b 0) (regs [(2, 0x80000)]) ∧ Runs (.aadd 2 1 .w) (regs [(2, 2)]) ∧
    Runs (.kld 1 2) (one { pst := .running, mt := 5 }) ∧ Runs (.vld 1 2) (vec 2 [(2, 0x7FFFC)]) := by
  obtain ⟨c1, c2⟩ := h
  exact ⟨runs (c1 _ _ _ _ _ _ rfl rfl (fr (by decide)) rfl), runs (c1 _ _ _ _ _ _ rfl rfl (fr (by decide)) rfl),
    runs (c1 _ _ _ _ _ _ rfl rfl (fr (by decide)) rfl),
    runs (c2 _ _ _ _ _ _ _ 1 _ rfl ⟨by decide, by decide, by decide⟩ (fr (by decide)) rfl (vr (by decide)) (by decide) rfl
      fun j _ q => by obtain rfl : j = 0 := by omega
                      exact ⟨lb (by decide), by decide⟩)⟩
/-- STRIP: the last free scalar entry, and none left. -/
theorem witness_StripResult (h : Obligations.StripResult) : Runs (.st 1 2 .d 0) (strip { strip0 with nSca := 15, maxSca := 16 } [(1, 5)]) ∧
    Runs (.st 1 2 .d 0) (strip { strip0 with nSca := 16, maxSca := 16 } [(1, 5)]) ∧ Runs .stripend (regs []) ∧
    Runs (.st 1 2 .d 0) (strip strip0 [(1, 5)]) := by
  obtain ⟨c1, c2, c3, c4⟩ := h
  exact ⟨runs' (c1 _ _ _ _ 3 _ _ _ rfl rfl (by decide) rfl rfl (by decide) (lb (by decide)) (fr (by decide)) (fr (by decide))
      (fun x q => by cases q)),
    runs (c2 _ _ _ _ _ _ _ rfl (by decide) rfl (by decide) (lb (by decide)) (fr (by decide))), runs (c3 _ (pl (by decide))),
    runs' (c4 _ _ _ _ _ _ _ rfl rfl rfl rfl rfl rfl rfl rfl (fun m q => by cases q) (by decide) rfl rfl (by decide) (lb (by decide)) (fr (by decide)))⟩

theorem witness_FarLoadStore (h : Obligations.FarLoadStore) : Runs (.ld 1 2 .d 0) (dram [(2, 0x1FFF8)]) ∧ Runs (.st 1 2 .d 0) (dram [(2, 0x10000)]) := by
  obtain ⟨c1, c2⟩ := h
  exact ⟨runs (c1 _ _ _ _ _ _ _ (fr (by decide)) (pl (by decide)) (by decide) rfl (fun _ q => by cases q) rfl),
    runs' (c2 _ _ _ _ _ _ _ _ (fr (by decide)) (pl (by decide)) rfl rfl rfl)⟩

theorem witness_LocalAtomicResult (h : Obligations.LocalAtomicResult) : Runs (.aadd 2 1 .w) (regs [(1, 5), (2, 8)]) ∧
    Runs (.acas 1 2 30 .d) (regs [(2, 8)]) ∧ Runs (.axchg 1 2 3 .w) (one { pst := .running, status := 0x10 }) := by
  obtain ⟨c1, c2, c3⟩ := h
  exact ⟨runs (c1 _ _ _ _ _ rfl (by decide) (lb (by decide)) (fr (by decide)) (pl (by decide))),
    runs (c2 _ _ _ _ _ _ _ rfl (by decide) (lb (by decide)) (fr (by decide)) (pl (by decide)) (by decide)),
    runs (c3 _ _ _ _ _ _ _ rfl (fr (by decide)) rfl (by decide))⟩

/-- A capability register with a capability for 256 bytes at 0x1000 that permits what `perms` says. -/
def capS (perms : Nat) (l : Tab Word) : State :=
  one { pst := .running, wsize := 0x80000, sregs := l, caps := [(0, { bits := .ofNat 128 (perms * 2 ^ 100 + 0x1000 * 2 ^ 48 + 0x100 * 2 ^ 8), tag := true })] }

/-- CAP: the whole length, a granule at the end of the window, and one byte too much. -/
theorem witness_CapabilityResult (h : Obligations.CapabilityResult) : Runs (.kderive 7 0 30 63) (capS 63 [(30, 0x80), (31, 0x80)]) ∧
    Runs (.kld 1 2) (regs [(2, 0x7FFF0)]) ∧ Runs (.kst 0 2) (capS 63 [(2, 0x10)]) ∧ Runs (.kderive 7 0 30 63) (capS 63 [(30, 0x80), (31, 0x81)]) ∧
    Runs (.kderive 7 0 30 63) (capS 0 []) ∧ Runs (.kderive 7 1 30 63) (capS 63 []) := by
  obtain ⟨c1, c2, c3, c4⟩ := h
  exact ⟨runs (c1 _ _ _ _ _ (fr (by decide)) (pl (by decide)) (by decide) (by decide) (by decide) (by decide)),
    runs (c2 _ _ _ (by decide) (lb (by decide)) (fr (by decide)) (pl (by decide))),
    runs (c3 _ _ _ (by decide) (lb (by decide)) (fr (by decide)) (pl (by decide))), runs (c4 _ _ _ _ _ (fr (by decide)) rfl (by decide)),
    runs (c4 _ _ _ _ _ (fr (by decide)) rfl (by decide)), runs (c4 _ _ _ _ _ (fr (by decide)) rfl (by decide))⟩

theorem witness_SetRegisterResult (h : Obligations.SetRegisterResult) : Runs (.setmt 1) (regs [(1, 0xFF)]) ∧ Runs (.csrw 1 .cflags) (strip strip0 [(1, 1)]) ∧
    Runs (.setvt 1) (regs [(1, 3)]) ∧
    Runs (.setvt 1) (one { pst := .running, pgrant := some { sd := 2, avl := 1, ew := 32, slivers := [], cluster := false, assigned := false, due := 0, pc := 0 } }) := by
  obtain ⟨c1, c2, c3⟩ := h
  exact ⟨runs (c1 _ _ _ _ rfl (fr (by decide)) (by decide)), runs (c1 _ _ _ _ rfl (fr (by decide)) (by decide)),
    runs (c2 _ _ _ (.inl rfl) (fr (by decide)) (by decide) rfl), runs (c3 _ _ _ _ (.inl rfl) (fr (by decide)) rfl)⟩

theorem witness_SetvlResult (h : Obligations.SetvlResult) : Runs (.setvl 1 2) (vec 2 []) ∧ Runs (.setvl 1 2) (vec 2 [(2, 32)]) ∧
    Runs (.setvl 1 2) (regs [(2, 33)]) := by
  obtain ⟨c1, c2, c3⟩ := h
  exact ⟨runs' (c1 _ _ _ (fr (by decide)) (pl (by decide)) (by decide)),
    runs' (c2 _ _ _ 0 (fr (by decide)) (pl (by decide)) rfl (by decide) rfl (by decide) rfl (by decide) rfl rfl),
    runs' (c3 _ _ _ (fr (by decide)) (pl (by decide)) (by decide) rfl (by decide) rfl (by decide) (by decide) (by decide))⟩

theorem witness_CsrResult (h : Obligations.CsrResult) : Runs (.csrr 1 .cycle) (regs []) ∧ Runs (.csrr 1 .pcap) (regs []) ∧ Runs (.csrw 1 .epc) (regs []) ∧
    Runs (.csrw 1 .status) (one { pst := .running, status := 0x10, sregs := [(1, 0x10)] }) ∧ Runs (.csrw 1 .tvec) (one { pst := .running, status := 1 }) ∧
    Runs (.csrw 1 .pcap) (one { pst := .running, status := 2 }) ∧ Runs (.csrw 1 .status) (regs [(1, 0x10)]) := by
  obtain ⟨c1, c2, c3, c4, c5, c6⟩ := h
  exact ⟨runs (c1 _ _ _ _ rfl (by decide) (fr (by decide)) (by decide) (by decide)), runs (c2 _ _ _ (by decide) (fr (by decide)) rfl),
    runs (c3 _ _ _ _ rfl (fr (by decide)) (pl (by decide))), runs (c3 _ _ _ _ rfl (fr (by decide)) (pl (by decide))),
    runs (c4 _ _ (fr (by decide)) (pl (by decide)) (by decide)).1, runs (c5 _ _ (fr (by decide)) (pl (by decide)) (by decide)),
    runs (c6 _ _ _ (fr (by decide)) rfl (by decide))⟩

theorem witness_TrapResult (h : Obligations.TrapResult) : Runs (.trap 0xFFF) (regs []) ∧ Runs (.trap 0) (one { pst := .running, status := 1 }) :=
  ⟨runs (h.1 _ _ rfl (by decide)), runs (h.2 _ _ rfl (by decide))⟩

/-- ERET, and under XO over slivers 0 and 15 and over the analyser, whose array the process finds saved. -/
theorem witness_EretResult (h : Obligations.EretResult) : Runs .eret (one { pst := .running, status := 1, epc := 0x42 }) ∧
    Runs .eret (one { pst := .running, status := 0x81, cause := 0x80010000002D }) ∧
    Runs .eret { one { pst := .running, status := 0x81, cause := 0x800000, image := some {} } with tiles := [(0, { slots := [(0, 1)], owners := [(17, 2)] })] } ∧
    Runs .eret (regs []) ∧ Runs .eret (one { pst := .running, status := 2 }) ∧ Runs (.trap 1) (regs []) := by
  obtain ⟨c1, cx, c2, c3⟩ := h
  exact ⟨runs (c1 _ (pl (by decide)) (by decide) (by decide)), runs ((cx _ (pl (by decide)) (by decide) (by decide)).1 (.inl (by decide))),
    runs ((cx _ (pl (by decide)) (by decide) (by decide)).2 _ 2 (by decide) rfl (by decide) (by decide)), runs (c2 _ rfl (by decide)), runs (c2 _ rfl (by decide)),
    runs' (c3 _ _ (pl (by decide)) (by decide) (by decide) (by decide) (by decide))⟩
theorem witness_PrioYieldFenceResult (h : Obligations.PrioYieldFenceResult) : Runs (.prio 1 2) (regs [(2, 3)]) ∧ Runs .yield (regs []) ∧
    Runs (.fence .system) (regs []) ∧ Runs (.fence .system) { regs [] with reqs := [(1, req0)] } := by
  obtain ⟨c1, c2, c3, c4⟩ := h
  exact ⟨runs (c1 _ _ _ (fr (by decide)) (pl (by decide))), runs (c2 _ (by decide)), runs (c3 _ _ (pl (by decide)) rfl rfl),
    runs (c4 _ 1 req0 (pl (by decide)) rfl rfl rfl rfl rfl)⟩

/-- A SPAWN whose descriptor moves channel register c15, which is `c`; the next sequence number is `q`. -/
def xferS (c : ChanReg) (q : Nat) : State :=
  { chanS c [] [(2, 0x7FFC0)] with sram := [(0x7FFCF, 0x80)], tiles := [(0, { slots := [(0, 1)], nextSeq := q })] }
/-- A process with a bound channel register, at an entry with writers. -/
def exitS (c : ChanReg) (l : List Nat) : State :=
  { chanS c [dat 5] [] with eps := [(300, { bound := true, owner := 31, bcap := 32, cap := 32, free := 29, queue := [dat 5], writers := l })] }
/-- SPAWN: a descriptor of zeros is a well-formed one; it may end at the end of the window. -/
theorem witness_SpawnExitResult (h : Obligations.SpawnExitResult) :
    Runs (.spawn 1 2) { regs [(2, 0x7FFC0)] with tiles := [(0, { slots := [(0, 1)], nextSeq := 2 })] } ∧
    Runs (.spawn 1 2) { regs [(2, 0x7FFC0)] with tiles := [(0, { slots := (List.range 32).map fun i => (i, 1), nextSeq := 2 })] } ∧
    Runs (.spawn 1 2) (xferS {} 2) ∧ Runs (.spawn 1 2) (xferS (writer 3) 2) ∧ Runs (.spawn 1 2) (xferS reader 2) ∧
    Runs (.spawn 1 2) (regs [(2, 0x7FFC8)]) ∧
    Runs .exit (regs []) ∧ Runs .exit (exitS (writer 3) [31]) ∧ Runs .exit (exitS reader [47]) := by
  obtain ⟨c1, cx, c2, c3, ce⟩ := h
  have x (c : ChanReg) (r : (xferS c 2).readWindow ((xferS c 2).reg 2) 64 = .ok (List.replicate 15 0 ++ 0x80 :: List.replicate 48 0)) :=
    cx (xferS c 2) 1 2 _ 0 2 2 15 300 (fr rfl) ⟨show bitAt (0#64).toNat 5 = false by decide, rfl, rfl⟩ (show (0x7FFC0#64).toNat % 8 = 0 by decide) r (by decide) (by decide) (by decide) (by decide) (by decide)
      (by decide) (by decide) rfl (by decide) (by decide)
  have e (c : ChanReg) (l : List Nat) := ce (exitS c l) 15 300 c rfl rfl (by decide) (show 1 < 2 ^ 32 by decide)
  exact ⟨runs (c1 _ _ _ _ 0 2 2 (fr (by decide)) (pl (by decide)) (by decide) rfl (by decide) (by decide) (by decide) (by decide) (by decide) (by decide)
      (by decide) (by decide) rfl rfl rfl (by decide) rfl (by decide)),
    runs (c1 _ _ _ _ 0 2 2 (fr (by decide)) (pl (by decide)) (by decide) rfl (by decide) (by decide) (by decide) (by decide) (by decide) (by decide)
      (by decide) (by decide) rfl rfl rfl (by decide) rfl (by decide)),
    runs ((x {} (by decide +kernel)).1 rfl),
    runs ((x (writer 3) (by decide +kernel)).2.2 rfl rfl rfl rfl rfl rfl rfl rfl rfl (by decide) rfl (by decide) (by decide) (.inl rfl)),
    runs ((x reader (by decide +kernel)).2.2 rfl rfl rfl rfl rfl rfl rfl rfl rfl (by decide) rfl (by decide) (by decide) (.inr ⟨rfl, rfl⟩)),
    runs (c2 _ _ _ _ (fr (by decide)) rfl (by decide) rfl (by decide) (by decide)), runs (c3 _ rfl rfl rfl rfl rfl rfl rfl (by decide)),
    runs ((e (writer 3) [31] rfl rfl rfl rfl rfl rfl rfl rfl rfl (by decide)).1 rfl (by decide) rfl),
    runs ((e reader [47] rfl rfl rfl rfl rfl rfl rfl rfl rfl (by decide)).2 rfl (by decide))⟩

theorem witness_LocalVectorAccess (h : Obligations.LocalVectorAccess) : Runs (.vld 1 2) (vec 2 [(2, 0x7FFF4)]) ∧ Runs (.vsts 1 2) (vec 2 [(2, 4)]) :=
  ⟨runs (h.1 _ _ _ _ _ _ rfl ⟨by decide, by decide, by decide⟩ (fr (by decide)) (pl (by decide)) (vr (by decide))
      (all3 ⟨lb (by decide), by decide⟩ ⟨lb (by decide), by decide⟩ ⟨lb (by decide), by decide⟩)),
    runs (h.2 _ _ _ _ _ _ rfl ⟨by decide, by decide, by decide⟩ (fr (by decide)) (pl (by decide)) (vr (by decide))
      (all3 ⟨lb (by decide), by decide⟩ ⟨lb (by decide), by decide⟩ ⟨lb (by decide), by decide⟩))⟩

theorem witness_PackedSegmentAccess (h : Obligations.PackedSegmentAccess) : Runs (.vld 1 2) (vec 0x62 []) ∧ Runs (.vld 1 2) (vec 0x72 []) ∧
    Runs (.vst 1 2) (vec 0x62 []) ∧ Runs (.vldseg 1 2) (vec 0x72 []) ∧ Runs (.vstseg 1 2) (vec 0x62 []) := by
  obtain ⟨c1, c2, c3, c4, c5⟩ := h
  exact ⟨runs (c1 _ _ _ (by decide) (fr (by decide)) (pl (by decide)) (vr (by decide)) (by decide)
      (all3 (lb (by decide)) (lb (by decide)) (lb (by decide)))),
    runs (c2 _ _ _ (by decide) (fr (by decide)) (pl (by decide)) (vr (by decide)) (by decide)
      (all3 ⟨lb (by decide), by decide⟩ ⟨lb (by decide), by decide⟩ ⟨lb (by decide), by decide⟩)),
    runs (c3 _ _ _ (by decide) (fr (by decide)) (pl (by decide)) (vr (by decide)) (by decide)
      (all3 (lb (by decide)) (lb (by decide)) (lb (by decide)))),
    runs (c4 _ _ _ _ (by decide) (.inr (by decide)) (fr (by decide)) (pl (by decide)) (vr (by decide))
      (all3 ⟨lb (by decide), by decide, by decide⟩ ⟨lb (by decide), by decide, by decide⟩ ⟨lb (by decide), by decide, by decide⟩) fun _ => rfl),
    runs (c5 _ _ _ _ (by decide) (by decide) (fr (by decide)) (pl (by decide)) (vr (by decide))
      (all3 ⟨lb (by decide), by decide, by decide⟩ ⟨lb (by decide), by decide, by decide⟩ ⟨lb (by decide), by decide, by decide⟩) fun _ => rfl)⟩

/-- PUSH: exactly the credits needed, 32 slots from s0 on, and one credit too few. -/
theorem witness_ChannelPush (h : Obligations.ChannelPush) : Runs (.cpush 0 15 31) (chanS (writer 32) [] []) ∧
    Runs (.cpush 1 15 0) { regs [] with procs := [(1, { chanP (writer 1) [] with strip := some strip0 })] } ∧ Runs (.cclose 15) (chanS (writer 1) [] []) ∧
    Runs (.ksend 0 15) (chanS (writer 2) [] []) ∧ Runs (.vpush 1 15 0) (chanS (writer 2) [] []) ∧ Runs (.cpush 1 15 1) (chanS (writer 1) [] []) ∧
    Runs (.cpush 1 14 0) (chanS (writer 1) [] []) ∧ Runs (.cadv 15 1) (chanS reader [] [(1, 33)]) ∧
    Runs (.cpush 1 15 0) (chanS { role := .writer, granted := true, once := true, bcap := 1 } [] []) := by
  obtain ⟨c1, c2, c3, c4, c5, c6, c7, c8⟩ := h
  exact ⟨runs (c1 _ _ _ _ 300 (wt (by decide)) (fr (by decide)) (pl (by decide)) (nu (by decide))),
    runs (c2 _ _ _ _ 300 _ (wt (by decide)) (fr (by decide)) rfl (by decide)), runs (c3 _ _ 300 (wt (by decide)) (pl (by decide)) (nu (by decide))),
    runs (c4 _ _ _ 300 (wt (by decide)) (pl (by decide)) (nu (by decide)) (by decide) (by decide) rfl),
    runs (c5 _ _ _ _ 300 (vr (by decide)) rfl rfl (nu (by decide)) (wt (by decide))),
    runs (c6 _ _ _ _ 300 (wt (by decide)) (pl (by decide)) (fr (by decide)) (by decide) (by decide)),
    runs (c7 _ _ _ _ _ _ _ rfl rfl (fr (by decide)) rfl), runs (c7 _ _ _ _ _ _ _ rfl rfl (fr (by decide)) rfl),
    runs (c8 _ _ _ 0 (wt (by decide)) (fr (by decide)) rfl (by decide) (by decide) (by decide))⟩

/-- READ: the queue holds just enough, or ends with a marker, or neither. -/
theorem witness_ChannelRead (h : Obligations.ChannelRead) : Runs (.cpop 1 15 1) (chanS reader [dat 3, dat 4] []) ∧ Runs (.cpop 1 15 1) (chanS reader [dat 3, eos] []) ∧
    Runs (.cpeek 1 15 2) (chanS reader [dat 3] []) ∧ Runs (.cadv 15 2) (chanS reader [dat 3, dat 4] [(2, 2)]) ∧
    Runs (.vpop 1 15) (chanS reader [dat 3, dat 4] []) ∧ Runs (.krecv 0 15) (chanS reader [dat 3, dat 4] []) ∧ Runs (.krecv 0 15) (chanS reader [eos] []) ∧
    Runs (.cpop 1 15 1) (chanS reader [dat 3] []) ∧
    Runs (.cpop 1 15 1) { chanS reader [dat 3, dat 4] [] with procs := [(1, { chanP reader [] with strip := some strip0 })] } := by
  obtain ⟨c1, c2, c3, c4, c5, c6, c7, c8⟩ := h
  exact ⟨runs (c1 _ _ _ _ 300 (rd (by decide)) (pl (by decide)) (fr (by decide)) (.inl (by decide))),
    runs (c1 _ _ _ _ 300 (rd (by decide)) (pl (by decide)) (fr (by decide)) (.inr (by unfold markerIn; decide))),
    runs (c2 _ _ _ _ 300 (rd (by decide)) (pl (by decide)) (fr (by decide)) (.inl (by decide))),
    runs (c3 _ _ _ 300 (rd (by decide)) (pl (by decide)) (fr (by decide)) (.inl (by decide))),
    runs (c4 _ _ _ 300 (vr (by decide)) rfl (rd (by decide)) (.inl (by decide))),
    runs (c5 _ _ _ 300 _ _ _ (rd (by decide)) (pl (by decide)) rfl rfl rfl), runs (c6 _ _ _ 300 _ _ (rd (by decide)) (pl (by decide)) rfl rfl),
    runs (c7 _ _ _ _ 300 (rd (by decide)) (pl (by decide)) (fr (by decide)) (by decide) (by unfold markerIn; decide)),
    runs (c8 _ _ _ _ 300 _ (rd (by decide)) rfl rfl (by decide) (fr (by decide)) (by decide))⟩
/-- Two parked processes, 2 with channel register c15 and 3 without, and a supervisor that asks for a move from one to the other. -/
def moveS (x : ChanReg) : State :=
  { chanS {} [] [] with procs := [(1, { pst := .running, status := 1, sregs := [(1, 2), (2, 0x8000000000000003)] }),
                                  (2, { pst := .parkedFault, chans := [(15, x)] }), (3, { pst := .parkedFault })] }

/-- BIND: a future at the last index of the tile, a writer to it, and each refusal. -/
theorem witness_BindingResult (h : Obligations.BindingResult) :
    Runs (.cbind 1 15 2) { regs [(1, 511), (2, 65537)] with parts := [(0, { valid := true, cbsize := 0x10000 })] } ∧
    Runs (.cbind 1 15 2) (regs [(1, 255)]) ∧ Runs (.cunbind 15) (chanS reader [] []) ∧
    Runs (.cunbind 15) { chanS reader [] [] with eps := [(300, { bound := true, writers := [5] })] } ∧
    Runs (.cunbind 15) { chanS (writer 2) [] [] with eps := [(300, { bound := true, writers := [31] })] } ∧ Runs (.cunbind 14) (chanS reader [] []) ∧
    Runs (.cbind 1 15 2) (chanS reader [] []) ∧ Runs (.cbindMove 1 15 2) (chanS reader [] []) ∧ Runs (.cbind 1 15 2) (moveS (writer 3)) ∧
    Runs (.retargetAck 1 9) { moveS reader with moves := [(1, { issuer := 1, c := 15, p := 2, q := 3, peer := 0, reader := true, waiting := [9] })] } ∧
    Runs (.retargetNotice 1 (widOf 2 15))
      { moveS reader with moves := [(1, { issuer := 1, c := 15, p := 2, q := 3, peer := 0, reader := true, waiting := [9] })] } := by
  obtain ⟨c1, c2, c3, c4, c5, c6, c7, c8, c9, c10⟩ := h
  exact ⟨runs (c1 _ _ _ _ 255 1 _ true (by decide) (by decide) (by decide) (by decide) (by decide) (by decide) (by decide) (by decide) rfl rfl rfl
      (fr (by decide)) (pl (by decide))),
    runs (c2 _ _ _ _ 0 255 (by decide) (by decide) (by decide) (by decide) (by decide) rfl (fr (by decide)) (pl (by decide))),
    runs ((c3 _ _ 300 rfl rfl rfl rfl (pl (by decide))).1 rfl), runs ((c3 _ _ 300 rfl rfl rfl rfl (pl (by decide))).2 (by decide)),
    runs (c4 _ _ 300 rfl rfl rfl rfl rfl (pl (by decide)) rfl rfl (by decide) rfl), runs (c5 _ _ rfl rfl),
    runs (c6 _ _ _ _ (by decide) (by decide) (fr (by decide)) rfl), runs (c7 _ _ _ _ _ (.inl rfl) (by decide) (fr (by decide)) rfl),
    runs' (c8 _ _ _ _ _ 2 3 (.inr rfl) (by decide) (by decide) (by decide) (by decide) (fr (by decide)) (pl (by decide)) (by decide) (by decide)
      (by decide) (fun h q => by rcases q with rfl | rfl <;> decide) rfl rfl rfl rfl rfl rfl rfl rfl),
    runs (c9 _ _ _ _ 0 _ rfl rfl rfl (by decide) rfl rfl rfl rfl rfl rfl (by decide) rfl rfl (by decide)), runs (c10 _ _ _ _ _ rfl (by decide) (by decide))⟩

/-- A message of the writer in c15 of process 1 is the first under way. -/
def netS (x : ChanReg) (p : Proc) (e : Endpoint) (b : NetBody) : State :=
  { chanS x [] [] with procs := [(1, { p with chans := [(15, x)] })], eps := [(300, e)],
                       net := [{ wid := widOf 1 15, dest := .tile 300, body := b, part := 0, net := 0 }] }

theorem witness_ChannelEvents (h : Obligations.ChannelEvents) :
    Runs (.writerRegistration 31) (netS (writer 0) {} { bound := true, free := 4, bcap := 4 } (.register false)) ∧
    Runs (.writerRegistration 31) (netS (writer 0) { pst := .blockedWrite 15, status := 0x10 } { bound := true, writers := [9] } (.register true)) ∧
    Runs (.shortfallRequest 31) (netS (writer 0) {} { bound := true, free := 2, writers := [31] } (.shortfall 2)) ∧
    Runs (.creditRecall 31) (netS (writer 1) {} { bound := true, free := 2, shortfalls := [(9, 3)] } .recall) ∧
    Runs (.creditReturn 31) (netS (writer 1) { pst := .blockedWrite 15, need := 3 } { bound := true } (.credit 2 4 false)) ∧
    Runs (.channelMessageArrive 31) (netS (writer 0) {} { bound := true, bcap := 2 } (.data { slots := [7, 8] })) ∧
    Runs (.channelMessageArrive 31) (netS (writer 0) {} { bound := true, bcap := 2, wrote := some 0 } (.data { slots := [7, 8] })) := by
  obtain ⟨c1, c2, c3, c4, c5, c6, c7⟩ := h
  exact ⟨runs (c1 _ 1 15 300 [] ⟨⟨_, rfl, rfl, rfl, rfl⟩, ⟨rfl, rfl⟩, by decide⟩ rfl rfl (by decide)),
    runs (c2 _ 1 15 300 [] ⟨⟨_, rfl, rfl, rfl, rfl⟩, ⟨rfl, rfl⟩, by decide⟩ rfl (by decide) (by decide) rfl rfl (by decide)),
    runs (c3 _ 1 15 300 _ [] ⟨⟨_, rfl, rfl, rfl, rfl⟩, ⟨rfl, rfl⟩, by decide⟩ (by decide) rfl (by decide)),
    runs (c4 _ 1 15 300 9 3 [] ⟨⟨_, rfl, rfl, rfl, rfl⟩, ⟨rfl, rfl⟩, by decide⟩ rfl (by decide) (by decide) (by decide) (by decide)),
    runs (c5 _ 1 15 300 _ _ _ [] ⟨⟨_, rfl, rfl, rfl, rfl⟩, ⟨rfl, rfl⟩, by decide⟩ rfl rfl),
    runs (c6 _ 1 15 300 _ [] ⟨⟨_, rfl, rfl, rfl, rfl⟩, ⟨rfl, rfl⟩, by decide⟩ rfl rfl rfl (by decide) rfl (by decide) (by decide)),
    runs (c7 _ 1 15 300 _ [] ⟨⟨_, rfl, rfl, rfl, rfl⟩, ⟨rfl, rfl⟩, by decide⟩ rfl)⟩

/-- STREAM: a descriptor at 0 of one sector of eight bytes, of four bytes for a gather; the steps of a port. -/
theorem witness_StreamResult (h : Obligations.StreamResult) : Runs (.scopy 1 2 7) { regs [] with sram := [(32, 8), (36, 1)] } ∧
    Runs (.scopy 1 2 7) { strip strip0 [] with sram := [(32, 8), (36, 1)] } ∧ Runs (.sgather 1 2 3 7 6) { vec 2 [] with sram := [(32, 4)] } ∧
    Runs (.sbar 0x80) (bindS { bind0 with port := 6 }) ∧ Runs (.sbar 0x80) (bindS bind0) ∧ Runs (.scopy 1 2 7) (regs [(2, 4)]) ∧
    Runs (.streamStart 0 7) (bindS bind0) ∧ Runs (.streamStart 0 7) (bindS { bind0 with after := [3] }) ∧
    Runs (.streamSector 0 7) (bindS { bind0 with st := .running }) ∧ Runs (.streamComplete 0 7) (bindS { bind0 with st := .running, done := 1 }) ∧
    Runs (.heldBindingEnqueue 1 7) { regs [] with binds := [(1, { bind0 with st := .held })] } := by
  obtain ⟨c1, c2, c3, c4, c5, c6, c7, c8, c9⟩ := h
  refine ⟨runs (c1 _ _ _ _ 0 (by decide) ?_ (fr (by decide)) (pl (by decide)) (nu (by decide)) rfl rfl (by decide) (by decide) (by decide) (by decide)),
    runs' (c2 _ _ _ _ 0 _ (by decide) ?_ (fr (by decide)) rfl rfl (by decide) (by decide) (by decide) (by decide) (by decide)),
    runs (c3 _ _ _ _ _ _ 0 (by decide) ?_ (fr (by decide)) (vr (by decide)) rfl (nu (by decide)) rfl rfl (by decide) (by decide) (by decide)),
    runs ((c4 _ _ (pl (by decide)) (nu (by decide))).1 (by decide)),
    runs ((c4 _ _ (pl (by decide)) (nu (by decide))).2 _ _ rfl rfl (by decide) (by decide)), runs (c5 _ _ _ _ (by decide) (fr (by decide)) rfl),
    runs ((c6 _ _ _ _ _ rfl rfl rfl).1 rfl), runs ((c6 _ _ _ _ _ rfl rfl rfl).2 (by decide)), runs'' (c7 (bindS { bind0 with st := .running }) 7 1 { bind0 with st := .running } 0 64 8 ?_),
    runs (c8 _ _ _ _ _ rfl rfl rfl rfl (by decide) rfl rfl rfl (by decide) (by decide)), runs (c9 _ _ _ 1 _ [] rfl (by decide) rfl rfl rfl (by decide) rfl)⟩
  · exact ⟨wb (by decide), by decide, by decide, by decide, by decide, by decide⟩
  · exact ⟨wb (by decide), by decide, by decide, by decide, by decide, by decide⟩
  · exact ⟨wb (by decide), by decide, by decide, by decide, by decide, by decide⟩
  · exact ⟨rfl, by decide, by decide, by decide, by decide, ⟨by decide, by decide, wb (by decide)⟩, ⟨by decide, by decide, wb (by decide)⟩⟩

/-- TILE: the greatest shape, the last column, a row at the end of the window, and each refusal. -/
theorem witness_TileResult (h : Obligations.TileResult) : Runs (.tcfg 7 1) (regs [(1, 0x53F3F)]) ∧ Runs (.tcfg 7 1) (regs [(1, 0x60000)]) ∧
    Runs (.tzero 0) (regs []) ∧ Runs (.tmvv 1 0 2) (vec 2 [(2, 127)]) ∧ Runs (.tmvt 0 1 2) (vec 2 [(2, 63)]) ∧
    Runs (.tzero 0) { regs [] with tiles := [(0, { slots := [(0, 1)], owners := [(16, 2)] })] } ∧ Runs (.cbtld 1) (regs [(1, 0x7FC00)]) ∧
    Runs (.tld 0 1) (tileS { pst := .running, wsize := 0x80000, vs := 8, sregs := [(1, 0x7FFF8)] } [(0, 1)]) ∧
    Runs (.tst 0 1) (tileS { pst := .running, wsize := 0x80000, vs := 8, sregs := [(1, 0x7FFF8)] } [(0, 1)]) ∧ Runs (.tld 0 1) (regs [(1, 4)]) := by
  obtain ⟨c1, c2, c3, c4, c5, c6, c7, c8, c9⟩ := h
  refine ⟨runs (c1 _ _ _ 5 63 63 (by decide) (by decide) (by decide) (by decide) (by decide) (by decide) (by decide) (by decide) (fr (by decide)) (mr (by decide))),
    runs (c2 _ _ _ (by decide) (fr (by decide)) (mr (by decide))), runs (c3 _ _ (mr (by decide))),
    runs (c4 _ _ _ _ 63 true (fr (by decide)) (mr (by decide)) (by decide) (by decide) (by decide) (by decide)),
    runs (c5 _ _ _ _ 63 false (fr (by decide)) (mr (by decide)) (by decide) (by decide) (by decide) (by decide)),
    runs (c6 _ _ (pl (by decide)) (by decide) (by decide) (by decide) (by decide)),
    runs (c7 _ _ _ (fr (by decide)) (pl (by decide)) rfl (by decide) rfl (fun e q => by cases q) (fun e q => by cases q) (by decide) (wb (by decide))),
    runs (c8 _ _ _ _ (fr (by decide)) (mr (by decide)) (by decide) rfl (by decide) (by decide) (by decide) ?_).1,
    runs ((c8 _ _ _ _ (fr (by decide)) (mr (by decide)) (by decide) rfl (by decide) (by decide) (by decide) ?_).2 (by decide)),
    runs (c9 _ _ _ (fr (by decide)) (mr (by decide)) (by decide) (by decide))⟩
  all_goals
    intro r q
    obtain rfl : r = 0 := Nat.lt_one_iff.1 q
    exact wb (by decide)

/-- MATRIX: BF16 operands of 64 steps from step 0 and at the end, MOPA, and an accumulator that is its own operand. -/
theorem witness_MatrixResult (h : Obligations.MatrixResult) : Runs (.mma 0 1 2) (tileS { pst := .running } [(1, 0x13F3F), (2, 0x13F3F)]) ∧
    Runs (.mma 0 1 2) (tileS { pst := .running, mstep := 64 } [(1, 0x13F3F), (2, 0x13F3F)]) ∧ Runs (.mopa 0 1 2) (tileS { vecP with vt := 1 } []) ∧
    Runs (.mma 0 0 2) (regs []) := by
  obtain ⟨c1, c2, c3, c4⟩ := h
  exact ⟨runs' (c1 _ _ _ _ _ _ _ rfl (mr (by decide)) (by decide)), runs (c2 _ _ _ _ _ _ _ rfl (mr (by decide)) (by decide)),
    runs (c3 _ _ _ _ (mr (by decide)) (by decide) (by decide)), runs (c4 _ _ _ _ _ rfl (mr (by decide)) (by decide))⟩
theorem look_append {α : Type} (l m : Tab α) (k : Nat) : Tab.look (l ++ m) k = (Tab.look l k).or (Tab.look m k) := by
  induction l with
  | nil => rfl
  | cons e t ih => obtain ⟨j, v⟩ := e; simp only [List.cons_append, Tab.look]; split <;> simp [ih]
theorem look_range {α : Type} (f : Nat → α) (n k : Nat) :
    Tab.look ((List.range n).map fun k => (k, f k)) k = if k < n then some (f k) else none := by
  induction n with
  | zero => rfl
  | succ n ih =>
    rw [List.range_succ, List.map_append, look_append, ih]
    by_cases h : k < n
    · simp [h, Nat.lt_succ_of_lt h]
    · by_cases q : n = k
      · subst q; simp [Tab.look]
      · simp [Tab.look, h, q, show ¬k < n + 1 by omega]
/-- Byte `k` of the image of an array in which nothing is patched: the entry of each cell names it (Table 8.2). -/
def imgByte (k : Nat) : Byte := .ofNat 8 ((if 12800 ≤ k ∧ k / 8 % 2 = 1 then (k / 8 - 1601) / 2 * 2 ^ 55 else 0) / 256 ^ (k % 8))
def imgS : State := { anS (anP []) {} with sram := (List.range 18944).map fun k => (k, imgByte k) }
theorem img_word (i : Nat) (h : i < 2368) : imageAt imgS 0 i = ((List.range 8).map fun j => (imgByte (8 * i + j)).toNat * 256 ^ j).sum := by
  have e : ∀ k, k < 18944 → imgS.sramByte k = imgByte k := fun k q => by
    unfold State.sramByte Memory.read Tab.lookD imgS
    simp only [look_range, if_pos q, Option.getD_some]
  have m : imgS.me.tile = 0 := rfl
  unfold imageAt localVal
  refine congrArg List.sum (List.map_congr_left ?_)
  intro j q
  have := List.mem_range.1 q
  rw [m, show 0 * 0x100000 + (0 + 8 * i) + j = 8 * i + j by omega, e _ (by omega)]
def imgWord (i : Nat) : Nat := if i < 2368 then ((List.range 8).map fun j => (imgByte (8 * i + j)).toNat * 256 ^ j).sum else 0
theorem img_words : (fun i => if i < 2368 then imageAt imgS 0 i else 0) = imgWord := by
  funext i; by_cases h : i < 2368 <;> simp [imgWord, h]; exact img_word i h

/-- ANALYSER: the last cell, the last domain, the limits of Res, and what each rule forbids. -/
theorem witness_AnalyserResult (h : Obligations.AnalyserResult) :
    Runs (.patch 1 2) { anS (anP [(2, 1)]) {} with sram := [(0, 159), (1, 1), (14, 0xF0), (15, 191)] } ∧ Runs (.patch 1 2) (anS (anP [(2, 385)]) {}) ∧
    Runs (.dcfg 7 1) (anS (anP [(1, 65535 * 2 ^ 32 + 2)]) {}) ∧ Runs (.dcfg 7 1) (anS (anP []) { doms := [(7, { run := true })] }) ∧
    Runs (.dset 1 2) (anS (anP [(1, 383), (2, 0x00007FFFFFFFFFFF)]) {}) ∧ Runs (.dset 1 2) (anS (anP [(1, 4096 + 383), (2, 0x00003FFFFFFFFFFF)]) {}) ∧
    Runs (.dset 1 2) (anS (anP [(1, 4096 + 383), (2, 0x0000400000000000)]) {}) ∧ Runs (.dset 1 2) (anS (anP [(1, 8199), (2, 5)]) {}) ∧
    Runs (.dset 1 2) (anS (anP [(1, 12295), (2, 6)]) { doms := [(7, { ovr := true })] }) := by
  obtain ⟨c1, c2, c3, c4, c5, -⟩ := h
  exact ⟨runs' (c1 _ _ _ 0 _ (fr (by decide)) (ar (by decide)) (by decide) (by decide) (wb (by decide)) (by decide) rfl (by decide) (by decide)
      (by decide) (by decide) (by decide) (by decide)),
    runs (c2 _ _ _ (fr (by decide)) (ar (by decide)) (by decide) (by decide)),
    runs ((c3 _ _ _ 65535 2 (fr (by decide)) (ar (by decide)) (by decide) (by decide) (by decide)).1 (by decide)),
    runs ((c3 _ _ _ 0 0 (fr (by decide)) (ar (by decide)) (by decide) (by decide) (by decide)).2 (by decide)),
    runs ((c4 _ _ _ 383 0x7FFFFFFFFFFF (fr (by decide)) (ar (by decide)) (by decide) (by decide) (by decide)).1 (by decide)),
    runs ((c4 _ _ _ 383 0x3FFFFFFFFFFF (fr (by decide)) (ar (by decide)) (by decide) (by decide) (by decide)).2.1 (by decide) (by decide) (by decide)),
    runs ((c4 _ _ _ 383 0x400000000000 (fr (by decide)) (ar (by decide)) (by decide) (by decide) (by decide)).2.2 (by decide) (by decide)),
    runs ((c5 _ _ _ 7 (fr (by decide)) (ar (by decide)) (by decide)).1 (by decide) (by decide)),
    runs ((c5 _ _ _ 7 (fr (by decide)) (ar (by decide)) (by decide)).2 (by decide))⟩

theorem witness_AnalyserResult_reads (h : Obligations.AnalyserResult) : Runs (.dget 1 2) (anS (anP [(2, 383)]) {}) ∧
    Runs (.dget 1 2) (anS (anP [(2, 4096)]) {}) ∧ Runs (.dget 1 2) (anS (anP [(2, 8199)]) {}) ∧ Runs (.dget 1 2) (anS (anP [(2, 12295)]) {}) ∧
    Runs (.dget 1 2) (anS (anP [(2, 384)]) {}) ∧ Runs (.dget 1 2) (anS { anP [(2, 383)] with image := some {} } {}) ∧ Runs (.dstep 7 1) (anS (anP [(1, 65536)]) { doms := [(7, { run := true })] }) ∧
    Runs (.dstep 7 1) (anS (anP [(1, 1)]) {}) ∧ Runs (.dstep 7 1) (anS { anP [] with dcont := some 0 } { doms := [(7, { pend := 3 })] }) ∧ Runs (.dstep 7 1) (anS (anP []) { doms := [(7, { run := true, pend := 3 })] }) ∧ Runs (.drun 1) (anS (anP [(1, 255)]) {}) ∧ Runs (.dhalt 1) (anS (anP [(1, 255)]) {}) ∧
    Runs (.drun 1) (anS (anP [(1, 256)]) {}) := by
  obtain ⟨-, -, -, -, -, c6, ci, c7, c8, cd, c9, -⟩ := h
  exact ⟨runs ((c6 _ _ _ 383 0 (fr (by decide)) (ar (by decide)) (by decide) (by decide)).1 (by decide)),
    runs ((c6 _ _ _ 0 0 (fr (by decide)) (ar (by decide)) (by decide) (by decide)).2.1 (by decide)),
    runs ((c6 _ _ _ 0 7 (fr (by decide)) (ar (by decide)) (by decide) (by decide)).2.2.1 (by decide)),
    runs ((c6 _ _ _ 0 7 (fr (by decide)) (ar (by decide)) (by decide) (by decide)).2.2.2.1 (by decide) (by decide)),
    runs ((c6 _ _ _ 0 0 (fr (by decide)) (ar (by decide)) (by decide) (by decide)).2.2.2.2 (by decide)),
    runs (ci _ _ _ 383 _ (fr (by decide)) (pl (by decide)) (by decide) (by decide) rfl (by decide) (by decide) (by decide)),
    runs ((c7 _ _ _ (fr (by decide)) (ar (by decide)) (by decide)).1 (by decide) (by decide) (by decide) (by decide)),
    runs ((c7 _ _ _ (fr (by decide)) (ar (by decide)) (by decide)).2 (.inl (by decide))), runs (cd _ _ _ (ar (by decide)) rfl (.inr (by decide))),
    runs (c8 _ _ _ (ar (by decide)) (by decide) (by decide) (by decide)), runs ((c9 _ _ (fr (by decide)) (ar (by decide))).1 (by decide)).1,
    runs ((c9 _ _ (fr (by decide)) (ar (by decide))).1 (by decide)).2, runs' ((c9 _ _ (fr (by decide)) (ar (by decide))).2 (by decide))⟩

theorem witness_AnalyserResult_binds (h : Obligations.AnalyserResult) : Runs (.dbind 1 15) (anS (chanP reader [(1, 15 * 2 ^ 16)]) {}) ∧
    Runs (.dbind 1 15) (anS (chanP (writer 0) [(1, 2 ^ 31 + 15 * 2 ^ 16 + 383)]) {}) ∧
    Runs (.dbind 1 15) (anS (chanP { reader with use := .port 15 } [(1, 2 ^ 30 + 15 * 2 ^ 16)]) { ports := [(15, { h := 1, ch := 15 })] }) ∧
    Runs (.dbind 1 14) (anS (chanP reader []) {}) ∧ Runs (.dsave 1) (anS (anP []) {}) ∧ Runs (.dload 1) imgS ∧ Runs (.dsave 1) (anS (anP [(1, 8)]) {}) := by
  obtain ⟨-, -, -, -, -, -, -, -, -, -, -, c10, c11, c12, c13, c14, c15⟩ := h
  exact ⟨runs ((c10 _ _ _ 15 (fr (by decide)) (ar (by decide)) (by decide) rfl (by decide)).1 rfl (by decide) rfl),
    runs ((c10 _ _ _ 15 (fr (by decide)) (ar (by decide)) (by decide) rfl (by decide)).2 383 rfl (by decide) (by decide) rfl (by decide)),
    runs (c11 _ _ _ 15 _ (fr (by decide)) (ar (by decide)) (by decide) rfl (by decide) rfl (by decide) rfl rfl rfl),
    runs (c12 _ _ _ (fr (by decide)) (ar (by decide)) rfl), runs (c13 _ _ 0 (fr (by decide)) (ar (by decide)) (by decide) (by decide) (wb (by decide))),
    runs (c14 imgS 1 0 _ (fr (by decide)) (ar (by decide)) (by decide) (by decide) (wb (by decide)) (by decide)
      (by rw [img_words]; decide +kernel) rfl (by rw [img_words]; decide +kernel) (by rw [img_words]; decide +kernel) (by rw [img_words]; decide +kernel) rfl rfl),
    runs' (c15 _ _ (fr (by decide)) (ar (by decide)) (by decide))⟩
/-- A cell at the limit that follows one, and one beyond the limit. -/
theorem witness_ArrayEvents (h : Obligations.ArrayEvents) :
    Runs (.domainTick 0 7) (anS (anP []) { cells := [(0, { y := 0x3FFFFFFFFFFF, dom := 7, src := [(0, 1)] })], doms := [(7, { run := true, pend := 1 })] }) ∧
    Runs (.domainTick 0 7) (anS (anP []) { cells := [(0, { y := 0x400000000000, dom := 7, src := [(0, 1)] })], doms := [(7, { run := true, pend := 1 })] }) ∧
    Runs (.divPhaseZero 0 7) (anS (anP []) { doms := [(7, { run := true, phase := 1 })] }) ∧
    Runs (.portTakeSlot 0 15) { chanS { reader with use := .port 15 } [eos] [] with
      tiles := [(0, { slots := [(0, 1)], owners := [(17, 1)], an := { ports := [(15, { h := 1, ch := 15 })] } })] } ∧
    Runs (.tapCreditPush 0 15) (one {}) ∧ Runs (.tapCreditPush 0 15) { chanS { writer 1 with use := .tap 15 } [] [] with
      tiles := [(0, { slots := [(0, 1)], owners := [(17, 1)], an := { taps := [(15, { h := 1, ch := 15, cell := 0, count := 32 })] } })] } ∧
    Runs (.tapCreditPush 0 15) { chanS { writer 1 with use := .tap 15 } [] [] with
      tiles := [(0, { slots := [(0, 1)], owners := [(17, 1)], an := { taps := [(15, { h := 1, ch := 15, cell := 0, count := 32, closing := true })] } })] } := by
  obtain ⟨c1, c2, c3, c4, c5, c6⟩ := h
  exact ⟨runs (c1 _ 0 7 ⟨by decide, by decide, by unfold NoPorts; decide, rfl, ⟨rfl, rfl⟩, fun e q => by cases q⟩
      (fun i _ q => by rcases i with _ | i
                       · exact ⟨by decide, by decide, by decide, by decide⟩
                       · exact absurd rfl q)),
    runs (c2 _ 0 7 0 _ ⟨by decide, by decide, by unfold NoPorts; decide, rfl, ⟨rfl, rfl⟩, fun e q => by cases q⟩ rfl (by decide) (by decide)
      (by decide) (by decide)),
    runs (c3 _ 0 7 (by decide) (by decide)), runs (c4 _ 0 15 300 _ _ _ rfl rfl rfl rfl rfl rfl rfl (by decide)),
    stays (c5 (one {}) 0 15 rfl), runs (c6 _ 0 15 300 _ rfl rfl rfl rfl (by decide) rfl rfl rfl rfl),
    runs (c6 _ 0 15 300 _ rfl rfl rfl rfl (by decide) rfl rfl rfl rfl)⟩

/-- The page of the control blocks is mapped; process 2 is parked, or swapped out. -/
def blockS (res : Residency) : State :=
  { dram [] with procs := [(1, { pst := .running, status := 1 }), (2, { pst := .parkedFault, res := res })]
                 parts := [(0, { valid := true, key := { full := true }, servers := [0], cbbase := 0x10000 })] }

theorem witness_SupervisorResult (h : Obligations.SupervisorResult) : Runs (.tlbiWrite 0 0) (dram []) ∧
    Runs (.csrw 1 .tlbi) (one { pst := .running, status := 1, sregs := [(1, 0xC000000000000000)] }) ∧ Runs (.resumeAtPoint 0 2) (moveS {}) ∧
    Runs (.resumeSkip 0 2) (moveS {}) ∧ Runs (.resumeSkip 0 2) { moveS {} with procs := [(2, { pst := .parkedFault, fclass := .step })] } ∧
    Runs (.resumeEnd 0 2) (moveS {}) ∧ Runs (.resumeStream 0 1 7) (bindS { bind0 with st := .stopped }) ∧ Runs (.csrw 1 .resume) (moveS {}) ∧
    Runs (.csrw 1 .resume) { moveS {} with procs := [(1, { pst := .running, status := 1, sregs := [(1, 3 * 2 ^ 36 + 2)] }), (2, { pst := .parkedFault })] } ∧
    Runs (.csrw 3 .resume) (moveS {}) ∧ Runs (.pswapOut 0 2) (blockS .resident) ∧ Runs (.pswapIn 0 2) (blockS .swapped) := by
  obtain ⟨c1, c2, c3, c4, c5, c6, c7, c8⟩ := h
  exact ⟨runs (c1 _ _ _), runs (c2 _ _ (fr (by decide)) (pl (by decide)) (by decide)), runs (c3 _ 0 2 ⟨by decide, rfl, rfl, rfl, rfl⟩).1,
    runs ((c3 _ 0 2 ⟨by decide, rfl, rfl, rfl, rfl⟩).2.1 rfl rfl), stays ((c3 _ 0 2 ⟨by decide, rfl, rfl, rfl, rfl⟩).2.2.1 (by decide)),
    runs ((c3 _ 0 2 ⟨by decide, rfl, rfl, rfl, rfl⟩).2.2.2 ⟨rfl, rfl, rfl, by decide, by decide⟩),
    runs (c4 _ 0 1 7 1 _ (by decide) (by decide) rfl rfl),
    runs ((c5 _ _ 2 ⟨by decide, rfl, rfl, rfl, rfl⟩ (fr (by decide)) (pl (by decide)) (by decide) (by decide)).1 (by decide)),
    runs ((c5 _ _ 2 ⟨by decide, rfl, rfl, rfl, rfl⟩ (fr (by decide)) (pl (by decide)) (by decide) (by decide)).2 (by decide)
      ⟨rfl, rfl, rfl, by decide, by decide⟩),
    runs (c6 _ _ (fr (by decide)) rfl (by decide) (by decide)).1,
    runs (c7 _ _ 0 2 _ (by decide) rfl rfl ⟨rfl, rfl, rfl, by decide, by decide⟩ rfl),
    runs (c8 _ _ 0 2 _ 1 (by decide) rfl rfl rfl (by decide) (by decide) rfl rfl rfl rfl)⟩

/-- A descriptor of partition 15 over tile 0 at the start of the slice of tile 0, or one word of HEPSET. -/
def descS (l : List Host.Cell) : State := { State.reset with sram := l }
def desc0 : List Host.Cell := [(0, 15), (1, 1), (34, 1), (74, 1), (96, 1)]

theorem witness_PartitionResult (h : Obligations.PartitionResult) : Runs (.psetCreate 0 0) (descS desc0) ∧ Runs (.psetCreate 0 0) (descS [(1, 1)]) ∧
    ((descS desc0).part 15).valid = false ∧ Runs (.psetTeardown 0) { State.reset with parts := [(0, { valid := true })] } ∧
    Runs (.psetTeardown 0) State.reset ∧
    Runs (.hepsetWrite 0 0) { descS [(0, 255), (1, 7), (2, 11), (4, 1), (9, 16)] with parts := [(0, { valid := true })] } ∧
    Runs (.hepsetWrite 0 0) { descS [(0, 255), (1, 7)] with parts := [(0, { valid := true })] } ∧
    Runs (.hepsetWrite 0 0) { descS [(0, 255), (1, 7), (8, 1)] with parts := [(0, { valid := true })] } ∧
    Runs (.hepsetWrite 0 0) { descS [(0, 255), (1, 7), (2, 4), (9, 1)] with parts := [(0, { valid := true })] } ∧ Runs (.hepsetWrite 0 0) (descS [(0, 3)]) ∧
    Runs (.csrw 1 .pset) (one { pst := .running, status := 2, sregs := [(1, 4)] }) := by
  obtain ⟨c1, c2, c3, c4, c5, c6, c7, c8, c9⟩ := h
  exact ⟨runs ((c1 _ 0 0 (by decide)).1 (by decide +kernel)), stays ((c1 _ 0 0 (by decide)).2 (by decide +kernel)),
    (c2 (descS desc0) 15 ((descS desc0).sliceAt 0 0) (by decide +kernel)).1, runs (c3 _ 0 (by decide) (by decide)), stays (c4 _ 0 (by decide)),
    runs (c5 _ 0 0 2047 0 3 1 4096 (by decide) (by decide) (by decide) (by decide) (by decide) (by decide) (by decide) (by decide) (by decide) (by decide)
      rfl rfl),
    runs ((c6 _ 0 0 2047 0 (by decide) (by decide) (by decide) (by decide) (by decide)).1 (by decide) (by decide)),
    stays ((c6 _ 0 0 2047 0 (by decide) (by decide) (by decide) (by decide) (by decide)).2 (by decide)),
    stays (c7 _ 0 0 2047 0 (by decide) (by decide) (by decide) (by decide)), stays (c8 _ 0 0 (by decide) (by decide)),
    runs (c9 _ _ _ (.inl rfl) (fr (by decide)) rfl (by decide) (by decide))⟩

/-- A grant of sliver 3 that takes effect now. -/
def grant0 : PGrant := { sd := 5, avl := 40, ew := 32, slivers := [3], cluster := false, assigned := true, due := 0, pc := 0 }
def grantS (g : PGrant) (owners : Tab Nat) : State :=
  { one { slivers := [0], lastGrant := [0], pend := [(5, .grant)], pgrant := some g } with tiles := [(0, { slots := [(0, 1)], owners := owners })] }
/-- A grant in a strip that its SETVL opened, to a process that waits for it; sliver 3 is another's. -/
def blockedS (g : PGrant) : State :=
  { one { slivers := [0], lastGrant := [0], pst := .blockedToken 5, pend := [(5, .grant)], pgrant := some g, strip := some strip0 } with
    tiles := [(0, { slots := [(0, 1)], owners := [(0, 1), (3, 2)] })] }

theorem witness_LaneEvents (h : Obligations.LaneEvents) : Runs (.laneGrantEffect 0 1) (grantS grant0 [(0, 1)]) ∧
    Runs (.laneGrantEffect 0 1) (grantS grant0 [(0, 1), (3, 2)]) ∧ Runs (.laneGrantEffect 0 1) (blockedS grant0) ∧
    Runs (.laneGrantEffect 0 1) { blockedS grant0 with procs := [(1, { slivers := [0], pgrant := some grant0, strip := some { strip0 with committing := true } })] } ∧
    Runs (.laneGrantEffect 0 1) (grantS { grant0 with assigned := false } [(0, 1)]) ∧
    Runs (.reservedGrant 0 1) { regs [] with tiles := [(0, { slots := [(0, 1)], laneReqs := [{ h := 1, age := 0, want := .sliver, resv := [3] }] })] } := by
  obtain ⟨c1, c2, cc, c3, c4⟩ := h
  exact ⟨runs (c1 (grantS grant0 [(0, 1)]) 0 1 grant0 rfl rfl (by decide) rfl (by decide) (by decide)),
    runs (c2 _ 0 1 2 _ _ rfl rfl (by decide) rfl (by decide) (by decide) (by decide) (by decide) rfl (by decide) (by decide) rfl),
    runs (c2 (blockedS grant0) 0 1 2 _ grant0 rfl rfl (by decide) rfl (by decide) (by decide) (by decide) (by decide) rfl (by decide) (by decide) rfl),
    runs (cc _ 0 1 2 _ grant0 rfl rfl (by decide) rfl rfl), runs (c3 (grantS { grant0 with assigned := false } [(0, 1)]) 1 _ rfl rfl (by decide)),
    runs' (c4 _ 0 1 _ rfl rfl (by decide) (by decide))⟩

/-- An image of one process on a tile, with no other record; checking where `k` is 2 (Table 12.18). -/
def image (tile k : Nat) : List Word := [.ofNat 64 (0x139494B45 + k * 2 ^ 40), 1, 0x701, .ofNat 64 tile, 0x100, 0x100000000, 1, 2, 3, 4]
def proc0 : IProc := { tile := 0, prio := 0, lanes := 0, entry := 0x100, wbase := 0, wsize := 4096, args := [1, 2, 3, 4] }
def imageS (ws : List Word) : State := { State.reset with parts := [(0, { valid := true, images := [ws] })] }
def net0 : Net := { num := 1, created := 1, ended := 1 }
def netsS (n : Net) : State := { State.reset with parts := [(0, { valid := true, nets := [n] })] }

/-- An image of two processes on tile 0, a channel between them, one to host endpoint 2047, and a section in each window (Table 12.18). -/
def pairWords : List Word :=
  [0x139494B45, 6, 0x701, 0, 0x100, 0x100000000, 1, 2, 3, 4, 0x701, 0, 0x100, 0x100000001, 1, 2, 3, 4,
   0x202, 0x4000130000, 16, 0x202, 0xFFFF00000 + 0x50001, 0x7FF00000000] ++ [0x303, 0x10, 8, 0x1122, 0x303, 0x1010, 0x1000000000008, 0x3344]
def pairS : State := { State.reset with parts := [(0, { valid := true, images := [pairWords], cbsize := 65536 })], hostEps := [(2047, { dir := 2 })] }

theorem witness_LoaderEvents (h : Obligations.LoaderEvents) : Runs (.networkLaunch 0) { State.reset with parts := [(0, { images := [[]] })] } ∧
    Runs (.networkLaunch 0) pairS ∧ Runs (.networkLaunch 0) (imageS []) ∧ Runs (.networkLaunch 0) (imageS [0x239494B45]) ∧
    Runs (.networkLaunch 0) (imageS [0x139494B45]) ∧ Runs (.networkLaunch 0) (imageS (image 1 0)) ∧ Runs (.networkLaunch 0) (imageS (image 0 0)) ∧
    Runs (.loaderEndReply 0 1) (netsS net0) ∧ Runs (.loaderEndReply 0 1) (netsS { net0 with killed := some 1 }) ∧
    Runs (.loaderEndReply 0 1) (netsS { net0 with check := 2, killed := some 1 }) ∧
    Runs (.loaderEndReply 0 1) (netsS { net0 with check := 1 }) ∧ Runs (.checkRunB 0 1) (netsS { net0 with check := 1, image := image 0 2 }) ∧
    Runs (.checkCompare 0 1) (netsS { net0 with check := 2 }) ∧
    Runs (.checkCompare 0 1) (netsS { net0 with check := 2, digestsA := [(7, 1, 1)], digestsB := [(7, 2, 1)] }) ∧
    Runs (.checkCompare 0 1) (netsS { net0 with check := 1, failed := some 2047 }) := by
  obtain ⟨c1, c2⟩ := h
  have v (ws : List Word) := (c1 (imageS ws) 0 ws [] (by decide) rfl).2 rfl
  exact ⟨runs ((c1 { State.reset with parts := [(0, { images := [[]] })] } 0 [] [] (by decide) rfl).1 rfl),
    runs'' (((c1 pairS 0 pairWords [] (by decide) rfl).2 rfl).2.2.2.2.2 (by decide) (by decide) false proc0 { proc0 with wbase := 4096 }
      { wproc := 0, wreg := 3, rproc := 1, rreg := 4, once := false, cap := 16, hep := 0 }
      { wproc := 1, wreg := 5, rproc := hostIndex, rreg := 0, once := false, cap := 0, hep := 2047 }
      { base := 16, kind := 0, len := 8, perm := 0, zero := false, proc := 0, data := [0x1122] }
      { base := 4112, kind := 0, len := 8, perm := 0, zero := false, proc := 1, data := [0x3344] } 1 0 0xF0000 (by decide +kernel) rfl rfl rfl rfl rfl rfl
      rfl rfl rfl rfl rfl rfl (by decide +kernel) (by decide +kernel) (by decide +kernel) (by decide +kernel) rfl (by decide +kernel) (by decide) (by decide)
      (by decide)),
    runs ((v []).1 (by decide)), runs ((v [0x239494B45]).2.1 (by decide) (by decide)),
    runs ((v [0x139494B45]).2.2.1 (by decide) (by decide) rfl),
    runs ((v (image 1 0)).2.2.2.1 (by decide) (by decide) (bareImage false false { proc0 with tile := 1 }) (by decide) (by decide) (.inr (by decide))),
    runs' ((v (image 0 0)).2.2.2.2.1 (by decide) (by decide) false proc0 1 (by decide) rfl (by decide) rfl (by decide)),
    runs ((c2 (netsS net0) 0 net0 (by decide) rfl (by decide) rfl).1 rfl rfl rfl), runs ((c2 (netsS { net0 with killed := some 1 }) 0 { net0 with killed := some 1 } (by decide) rfl (by decide) rfl).2.1 _ rfl rfl rfl),
    runs ((c2 (netsS { net0 with check := 2, killed := some 1 }) 0 { net0 with check := 2, killed := some 1 } (by decide) rfl (by decide) rfl).2.2.1 _ rfl (by decide) rfl),
    runs ((c2 (netsS { net0 with check := 1 }) 0 { net0 with check := 1 } (by decide) rfl (by decide) rfl).2.2.2.1 rfl rfl rfl rfl),
    runs' ((c2 (netsS { net0 with check := 1, image := image 0 2 }) 0 { net0 with check := 1, image := image 0 2 } (by decide) rfl (by decide) rfl).2.2.2.2.1 true proc0 rfl rfl rfl (by decide) rfl),
    runs' ((c2 (netsS { net0 with check := 2 }) 0 { net0 with check := 2 } (by decide) rfl (by decide) rfl).2.2.2.2.2.1 rfl rfl rfl rfl),
    runs ((c2 (netsS { net0 with check := 2, digestsA := [(7, 1, 1)], digestsB := [(7, 2, 1)] }) 0 { net0 with check := 2, digestsA := [(7, 1, 1)], digestsB := [(7, 2, 1)] } (by decide) rfl (by decide) rfl).2.2.2.2.2.2.1 _ _ _ _ _ rfl rfl rfl rfl (by decide) (by decide)),
    runs ((c2 (netsS { net0 with check := 1, failed := some 2047 }) 0 { net0 with check := 1, failed := some 2047 } (by decide) rfl (by decide) rfl).2.2.2.2.2.2.2 _ (by decide) rfl (by decide))⟩
/-- The read of `req0` on its way, and what it became. -/
def reqS (r : Req) : State := { dram [] with reqs := [(1, r)] }

theorem witness_MemoryEvents (h : Obligations.MemoryEvents) : Runs (.mempipeRead 1) (reqS req0) ∧
    Runs (.mempipeWrite 1) (reqS { req0 with op := .write [{ off := 7, val := 9 }] }) ∧ Runs (.dramAtomic 1) (reqS { req0 with op := .atomic 5 8 1 0 }) ∧
    Runs (.globalSramAccess 1) (reqS { req0 with place := .sram 0x40 true, op := .capRead }) ∧
    Runs (.globalSramAccess 1) { reqS { req0 with place := .sram 0x40 true } with withdrawn := [(1, true)] } ∧
    Runs (.mempipeRead 1) { reqS req0 with parts := [(0, { valid := true })] } ∧ Runs (.mempipeRead 1) { reqS req0 with hbmBad := [(1024, true)] } ∧
    Runs (.memoryReply 1) (reqS { req0 with data := [1, 2, 3, 4, 5, 6, 7, 0x88] }) ∧ Runs (.memoryReply 1) (reqS { req0 with dest := .none, op := .write [] }) ∧
    Runs (.memoryReply 1) (reqS { req0 with dest := .none, op := .write [], err := 2 }) ∧
    Runs (.memoryReply 1) { reqS req0 with procs := [(1, {})], reqs := [(1, { req0 with err := 2 }), (2, { req0 with dest := .cap 0 })] } ∧
    Runs (.memoryReply 1) { reqS req0 with procs := [(1, {})], reqs := [(1, { req0 with err := 2, sent := true }), (2, { req0 with dest := .cap 0 })] } ∧
    Runs (.memoryReply 1) { reqS { req0 with err := 2 } with procs := [(1, { pend := [(1, .load 1)], strip := some strip0 })] } := by
  obtain ⟨c1, c2, -⟩ := h
  exact ⟨runs (((c1 (reqS req0) _ 1 req0 (.inl rfl)).1 ⟨rfl, ⟨rfl, rfl, rfl⟩, And.intro rfl rfl⟩).1 8 rfl),
    runs (((c1 _ _ 1 _ (.inr (.inl rfl))).1 ⟨rfl, ⟨rfl, rfl, rfl⟩, And.intro rfl rfl⟩).2.1 _ rfl),
    runs (((c1 _ _ 1 _ (.inr (.inr (.inl rfl)))).1 ⟨rfl, ⟨rfl, rfl, rfl⟩, And.intro rfl rfl⟩).2.2.1 5 8 1 0 rfl),
    runs' (((c1 _ _ 1 _ (.inr (.inr (.inr rfl)))).1 ⟨rfl, ⟨rfl, rfl, rfl⟩, rfl⟩).2.2.2 rfl),
    runs (((c1 _ _ 1 _ (.inr (.inr (.inr rfl)))).2 rfl rfl rfl rfl).1 _ _ rfl (by decide)),
    runs (((c1 _ _ 1 _ (.inl rfl)).2 rfl rfl rfl rfl).2.1 _ _ rfl rfl), runs (((c1 _ _ 1 _ (.inl rfl)).2 rfl rfl rfl rfl).2.2 _ _ 8 rfl rfl rfl (by decide)),
    runs ((c2 _ 1 _ rfl rfl rfl rfl).1 1 8 rfl (by decide) rfl rfl), runs ((c2 _ 1 _ rfl rfl rfl rfl).2.1 rfl rfl),
    runs ((c2 _ 1 _ rfl rfl rfl rfl).2.2.1 rfl (by decide) rfl),
    stays (((c2 _ 1 _ rfl rfl rfl rfl).2.2.2.1 1 8 rfl (by decide) rfl rfl rfl (by decide)).1 rfl),
    runs (((c2 _ 1 _ rfl rfl rfl rfl).2.2.2.1 1 8 rfl (by decide) rfl rfl rfl (by decide)).2 (by decide)),
    runs ((c2 _ 1 _ rfl rfl rfl rfl).2.2.2.2 1 8 rfl (by decide) (by decide) rfl rfl (by decide) rfl (by decide) (by decide))⟩

/-- An entry whose last write lies 64 cycles back, and 63. -/
def cb0 : CbEntry :=
  { h := 1, typ := 1, block := .sram 0x40 true, bs := [{ off := 0, val := 7 }], stores := [([(0, 0x40)], 0, 0x0D)], last := 0, seq := 0 }
def cbS (cycle : Nat) : State := { one {} with cycle := cycle, tiles := [(0, { slots := [(0, 1)], cb := [(3, cb0)] })] }
theorem witness_MemoryEvents_idle (h : Obligations.MemoryEvents) : Runs (.cbIdleDrain 0 3) (cbS 64) ∧ Runs (.cbIdleDrain 0 3) (cbS 63) :=
  ⟨runs ((h.2.2 (cbS 64) 0 3 0x40 true cb0 rfl rfl).1 (by decide)), stays ((h.2.2 (cbS 63) 0 3 0x40 true cb0 rfl rfl).2 (by decide))⟩

/-- A request at the head of server 0 of partition 0. -/
def serverS (full : Bool) (ms : List Word) : State :=
  { State.reset with parts := [(0, { valid := true, servers := [0], key := { full := full } })]
                     eps := [(serverRid 0, { bound := true, queue := ms.map fun v => { val := v, marker := false, wid := 31, msg := 0, tagged := false } })] }

/-- SERVER: the last doubleword of the server, and one beyond it. -/
theorem witness_ServerEvents (h : Obligations.ServerEvents) : Runs (.dramRead 0 31) (serverS true [0x100000000BFFFFFF]) ∧
    Runs (.dramWrite 0 31) (serverS true [0x200000000BFFFFFF, 9]) ∧ Runs (.dramRead 0 31) (serverS true [0x100000000C000000]) ∧
    Runs (.dramWrite 0 31) (serverS false [0x2000000000000000, 9]) ∧ Runs (.dramBadRequest 0 31) (serverS true [0x3000000000000000]) ∧
    Runs (.dramBadRequest 0 31) (serverS true [0x1F80000000000000]) ∧
    Runs (.dramRead 0 7) { serverS true [] with eps := [(serverRid 0, { bound := true, queue := [dat 1, { dat 2 with wid := 7 }] })] } := by
  obtain ⟨c1, c2⟩ := h
  exact ⟨runs' ((c1 (serverS true [0x100000000BFFFFFF]) 0 0 31 _ _ rfl rfl).1 (by decide) (by decide) rfl (by decide) rfl (by decide)),
    runs ((c1 (serverS true [0x200000000BFFFFFF, 9]) 0 0 31 _ _ rfl rfl).2.1 (by decide) (by decide) (by decide) (by decide) rfl),
    runs (((c1 (serverS true [0x100000000C000000]) 0 0 31 _ _ rfl rfl).2.2.1 (by decide) (by decide) (by decide)).1 (by decide)),
    runs (((c1 (serverS false [0x2000000000000000, 9]) 0 0 31 _ _ rfl rfl).2.2.1 (by decide) (by decide) (by decide)).2 (by decide) rfl),
    runs ((c1 (serverS true [0x3000000000000000]) 0 0 31 _ _ rfl rfl).2.2.2.1 (by decide) (by decide)),
    runs ((c1 (serverS true [0x1F80000000000000]) 0 0 31 _ _ rfl rfl).2.2.2.2 (by decide)),
    stays (c2 _ _ 0 7 0 _ (.inl rfl) rfl (by decide) (by decide))⟩

/-- A partition with peer 5; a request from it for eight bytes of SRAM at 0x40, with given operation, slots behind and requester. -/
def peerS (full : Bool) : State := { State.reset with parts := [(0, { valid := true, peers := [5], key := { full := full } })] }
def reqW (op space : Nat) (rpeer : Nat) : List Word := [.ofNat 64 (op * 2 ^ 60 + 3 * 2 ^ 50 + space * 2 ^ 48 + 0x40), .ofNat 64 (rpeer * 2 ^ 23)]
def remote0 (err : Nat) : List Word := [.ofNat 64 (9 * 2 ^ 60 + err * 2 ^ 40)]
def replyS : State :=
  { one { pend := [(1, .load 1)] } with reqs := [(1, { req0 with place := .remote 5 0 0x40 })], remotes := [{ tile := 0, tag := 0, req := 1 }] }

/-- A page of partition 0 that all may load and store, which a running migration copies. -/
def movingS : State :=
  { State.reset with parts := [(0, { valid := true, peers := [5], key := { full := true }, servers := [0] })], hbm := [(7, 0xFC)],
                     binds := [(1, { bind0 with st := .running, mig := true, sector := 64, count := 2 })] }

theorem my {s : State} {part peer : Nat} (a : s.route part peer = none) (h : ((s.link part peer).waiting.isEmpty && !s.routeRefused peer) = true) :
    MayReply s part peer := by
  simp at h; exact ⟨h.1, fun _ => h.2, fun _ _ _ _ e => by rw [a] at e; cases e⟩
theorem myOver {s : State} {part peer via x y z : Nat} (a : s.route part peer = some (via, x, y, z)) (h : ((s.link part peer).waiting.isEmpty &&
    !s.elsewhere part peer 0 via && decide ((s.link part via).next + 400 < 2 ^ 64)) = true) : MayReply s part peer := by
  simp at h
  exact ⟨h.1.1, (fun e => by rw [a] at e; cases e), fun _ _ _ _ e => by rw [a] at e; cases e; exact ⟨h.1.2, h.2⟩⟩

theorem witness_RemoteEvents (h : Obligations.RemoteEvents) : Runs (.remoteRead 0 []) (peerS true) ∧ Runs (.remoteRead 0 (reqW 1 0 6)) (peerS true) ∧
    Runs (.remoteRead 0 (reqW 1 0 5)) (peerS false) ∧ Runs (.remoteRead 0 (reqW 1 1 5)) (peerS true) ∧ Runs (.remoteRead 0 (reqW 1 0 5)) (peerS true) ∧
    Runs (.remoteWrite 0 (reqW 2 0 5 ++ [7])) (peerS true) ∧ Runs (.remoteAtomic 0 (reqW 3 0 5 ++ [7])) (peerS true) ∧
    Runs (.remoteRead 0 (reqW 1 0 5)) { peerS true with lanes := [(9, { st := .held, peer := 5 })] } ∧
    Runs (.remoteReply 0 (remote0 0)) replyS ∧ Runs (.remoteReply 0 (remote0 5)) replyS ∧
    Runs (.remoteWrite 0 (reqW 2 1 5 ++ [7])) movingS ∧ Runs (.remoteAtomic 0 (reqW 3 1 5 ++ [7])) movingS := by
  obtain ⟨c1, c2⟩ := h
  have m (i i' : Instr) (ms : List Word) := fun q v => (c1 movingS i 0 ms q v).2.2.2.2.1 0x40 0x40 i'
  exact ⟨runs ((c1 (peerS true) _ 0 [] (.inl rfl) (my rfl (by decide))).1 (by decide)),
    runs ((c1 (peerS true) _ 0 (reqW 1 0 6) (.inl rfl) (my rfl (by decide))).2.1 (by decide) (by decide)),
    runs ((c1 (peerS false) _ 0 (reqW 1 0 5) (.inl rfl) (my rfl (by decide))).2.2.1 (by decide) (by decide) rfl),
    runs ((c1 (peerS true) _ 0 (reqW 1 1 5) (.inl rfl) (my rfl (by decide))).2.2.2.1 _ rfl),
    runs (((c1 (peerS true) _ 0 (reqW 1 0 5) (.inl rfl) (my rfl (by decide))).2.2.2.2.2 _ rfl (fun _ _ q => by cases q)).1 (by decide)),
    runs (((c1 (peerS true) _ 0 (reqW 2 0 5 ++ [7]) (.inr (.inl rfl)) (my rfl (by decide))).2.2.2.2.2 _ rfl (fun _ _ q => by cases q)).2.1 (by decide)),
    runs (((c1 (peerS true) _ 0 (reqW 3 0 5 ++ [7]) (.inr (.inr rfl)) (my rfl (by decide))).2.2.2.2.2 _ rfl (fun _ _ q => by cases q)).2.2 (by decide)),
    runs (((c1 { peerS true with lanes := [(9, { st := .held, peer := 5 })] } _ 0 (reqW 1 0 5) (.inl rfl) (myOver rfl (by decide))).2.2.2.2.2 _ rfl
      (fun _ _ q => by cases q)).1 (by decide)),
    runs ((c2 _ 0 1 1 8 _ [] _ rfl rfl rfl rfl rfl (by decide) rfl rfl (by decide)).1 (by decide)),
    runs ((c2 _ 0 1 1 8 _ [] _ rfl rfl rfl rfl rfl (by decide) rfl rfl (by decide)).2 (by decide) rfl rfl rfl rfl (by decide)),
    runs (m _ _ _ (.inr (.inl rfl)) (my rfl (by decide)) (by decide +kernel) (by decide +kernel) (.inl ⟨by decide, rfl⟩)),
    runs (m _ _ _ (.inr (.inr rfl)) (my rfl (by decide)) (by decide +kernel) (by decide +kernel) (.inr ⟨by decide, rfl⟩))⟩

/-- R210: of 18 words of a unit-stride load at a peer from 0x3C on, the sixteen that fill a block are one read, which takes their bytes in
element order; R417: the doublewords of a stream's block are one request, a part of a word and the next block's make their own. -/
theorem test_remote_blocks :
    let asks : List (VAcc × Place × List WByte) :=
      (List.range 18).map fun i => ({ i := i, addr := .ofNat 64 (0x3C + 4 * i), n := 4, al := 4 }, .remote 5 0 (0x3C + 4 * i), [])
    ((vrequests .unit asks).map fun g => g.map fun e => e.1.i) = [[0], (List.range 16).map (· + 1), [17]] ∧
    (vask 7 0 false { i := 1, addr := 0x40, n := 4, al := 4 } [] (((vrequests .unit asks).drop 1).headD [])).1 = 64 ∧
    ((vrequests .strided asks).map fun g => g.length) = List.replicate 18 1 ∧
    joinBlocks ((cuts 0x3C 40 0 0x50).map fun e => (e.1, e.2, .remote 5 0 (0x3C + e.1))) =
      [(0, 4, .remote 5 0 0x3C), (4, 64, .remote 5 0 0x40), (68, 8, .remote 5 0 0x80), (76, 4, .remote 5 0 0x88)] := by decide
/-- R374: a dropped request names the youngest store whose bytes it carries: of two stores to an entry, the first where only its bytes are in it. -/
theorem test_youngest_store :
    let e := (cb0.noteStore (wbytes [1, 2]) 0 0x40 0x100 0x0D).noteStore [{ off := 1, val := 9 }, { off := 16, val := 9 }] 0 0x40 0x200 0x18
    (e.youngest [{ off := 0, val := 0 }]).1 = 0x100 ∧ (e.youngest [{ off := 0, val := 0 }, { off := 1, val := 0 }]) = (0x200, 0x18) ∧
    e.addrOf 16 = 0x50 := by decide
/-- A block's reply: the bytes 0 to 63 for elements 0, 1 and 2 of v9. -/
def blockR : Req :=
  { req0 with dest := .block 9 2 [(0, 0, 0), (1, 4, 0), (2, 8, 0)], place := .remote 5 0 0x40, op := .read 64, performed := true,
              data := (List.range 64).map (BitVec.ofNat 8 ·) }
/-- R210: a block's reply fills its elements from the bytes at 0, 4 and 8. -/
theorem test_block_reply :
    (match exec (.memoryReply 1) { vec 2 [] with reqs := [(1, blockR)] } with
    | .next t => some (t.elem t.vc 9 0, t.elem t.vc 9 1, t.elem t.vc 9 2)
    | _ => none) = some (0x03020100, 0x07060504, 0x0B0A0908) := by decide
/-- A monitor in c15 of process 1 on tile 0. -/
def mon0 : Monitor := { h := 1, c := 15, sel := 16, t := 16 }
def monS (m : Monitor) (n : Nat) : State :=
  { chanS { writer n with use := .monitor } [] [] with tiles := [(0, { slots := [(0, 1)], mons := [m] })] }
theorem om (m : Monitor) (n : Nat) (hh : m.h = 1) (hc : m.c = 15) : OneMonitor (monS m n) 0 31 300 m := by
  obtain ⟨h, c, sel, t, count, armed, pending, ovf, due⟩ := m
  simp only at hh hc
  subst hh hc
  exact ⟨rfl, rfl, rfl, ⟨rfl, rfl, rfl⟩, rfl⟩

theorem witness_MonitorResult (h : Obligations.MonitorResult) : Runs (.monbind 15 1 2) (chanS (writer 0) [] [(1, 6), (2, 1)]) ∧
    Runs (.monbind 15 1 2) { monS mon0 0 with procs := [(1, chanP { writer 0 with use := .monitor } [(1, 256)])] } ∧
    Runs (.monbind 15 1 2) (regs [(1, 17)]) ∧ Runs (.monbind 15 1 2) (regs [(1, 16)]) ∧ Runs (.monbind 15 1 2) (chanS reader [] []) ∧
    Runs (.monbind 15 1 2) (chanS (writer 0) [] [(1, 7)]) := by
  obtain ⟨c1, c2, c3, -⟩ := h
  exact ⟨runs (c1 _ _ _ _ 6 (fr (by decide)) (pl (by decide)) (by decide) (by decide) (by decide) (by decide) rfl rfl (by decide) (by decide)),
    runs (c2 _ _ _ _ (fr (by decide)) (pl (by decide)) (by decide) rfl rfl (by decide)),
    runs ((c3 _ _ _ _ (fr (by decide)) rfl).1 (by decide) (by decide)), runs ((c3 _ _ _ _ (fr (by decide)) rfl).2.1 (by decide) (by decide) rfl),
    runs ((c3 _ _ _ _ (fr (by decide)) rfl).2.2.1 (by decide) (by decide) rfl), runs ((c3 _ _ _ _ (fr (by decide)) rfl).2.2.2 (by decide) (by decide))⟩

theorem witness_MonitorResult_fires (h : Obligations.MonitorResult) : Runs (.monitorFire 0 31) (monS { mon0 with ovf := 255, pending := some 9 } 2) ∧
    Runs (.monitorFire 0 31) (monS mon0 1) ∧ Runs (.monitorPendingPush 0 31) (monS { mon0 with pending := some 9 } 2) ∧
    Runs (.monitorPendingPush 0 31) (monS mon0 0) ∧ Runs (.levelCounterUpdate 0 16 0 0) (monS mon0 0) := by
  obtain ⟨-, -, -, c4, c5⟩ := h
  exact ⟨runs ((c4 _ 0 31 300 _ (om { mon0 with ovf := 255, pending := some 9 } 2 rfl rfl)).1 (by decide) (by decide)),
    runs' ((c4 _ 0 31 300 _ (om mon0 1 rfl rfl)).2.1 (by decide)),
    runs ((c4 _ 0 31 300 _ (om { mon0 with pending := some 9 } 2 rfl rfl)).2.2.1 9 rfl (by decide) (by decide)),
    stays ((c4 _ 0 31 300 _ (om mon0 0 rfl rfl)).2.2.2 rfl), runs (c5 _ 0 16 0 0 mon0 rfl (.inl rfl))⟩

/-- A detector at the end of its sweep over a process that reads and writes endpoint 44 and waits. -/
def detP (st : PState) : Proc := { pst := st, need := 1, chans := [(14, { reader with dest := .tile 44 }), (15, { writer 0 with dest := .tile 44 })] }
def detS (p : Proc) (stuck : Bool) : State :=
  { one p with parts := [(0, { valid := true, calsize := 0x10000, det := { prev := [(44, 0, 0)], prevStuck := stuck, sweeping := true } })]
               eps := [(44, { bound := true, owner := widOf 1 14, bcap := 1, cap := 1, writers := [31] })] }
/-- Two such processes, at endpoints 44 and 45 of given capacities, over a Caldera of a given size. -/
def detS2 (m n cal : Nat) : State :=
  { State.reset with
    procs := [(1, detP (.blockedWrite 15)),
      (2, { detP (.blockedWrite 15) with chans := [(14, { reader with dest := .tile 45 }), (15, { writer 0 with dest := .tile 45 })] })]
    parts := [(0, { valid := true, calsize := cal, det := { prev := [(44, 0, 0), (45, 0, 0)], prevStuck := true, sweeping := true } })]
    eps := [(44, { bound := true, owner := widOf 1 14, bcap := m, cap := m, writers := [31] }),
      (45, { bound := true, owner := widOf 2 14, bcap := n, cap := n, writers := [47] })] }
def rec0 (fw : Bool) : FRec := { kind := .report, part := 0, firmware := fw, slots := [1] }
def recS (fw : Bool) (n : Nat) : State :=
  { one {} with parts := [(0, { valid := true, faultep := 300 })], tiles := [(0, { frecs := [rec0 fw] })], eps := [(300, { bound := true, bcap := 8, free := n })] }

theorem witness_WatchEvents (h : Obligations.WatchEvents) : Runs (.fumaroleSweepStart 0) (one {}) ∧ Runs (.fumaroleSweepDone 0) (detS {} true) ∧
    Runs (.fumaroleSweepDone 0) (detS (detP (.blockedWrite 15)) true) ∧ Runs (.fumaroleSweepDone 0) (detS (detP (.blockedRead 14)) true) ∧
    Runs (.fumaroleSweepDone 0) (detS2 2 1 0x10000) ∧ Runs (.fumaroleSweepDone 0) (detS2 1 1 0x10000) ∧ Runs (.fumaroleSweepDone 0) (detS2 2 1 0) ∧
    Runs (.faultRecordPush 0) (recS false 8) ∧ Runs (.faultRecordPush 0) (recS false 7) ∧ Runs (.faultRecordPush 0) (recS true 0) ∧
    Runs (.faultRecordPush 0) { recS true 0 with fwQueue := List.replicate 512 [] } ∧ Runs .firmwareFaultForward { one {} with fwQueue := [[1]] } ∧
    Runs (.debuggerHalt 1) (one {}) ∧ Runs (.debuggerHalt 1) (one { pst := .parkedFault }) ∧
    Runs (.debuggerHalt 1) (one { strip := some { strip0 with committing := true } }) ∧
    Runs (.debuggerHalt 1) { one {} with events := [(0, .laneGrantEffect 0 1)] } ∧ Runs (.debuggerRelease 1) (one { pst := .haltedDebug }) ∧
    Runs (.debuggerRelease 1) (one {}) := by
  obtain ⟨c1, c2, c3, c4, c5, c6⟩ := h
  exact ⟨runs (c1 _ 0 rfl), runs ((c2 (detS {} true) 0 rfl rfl rfl).1 (.inl (by decide))),
    runs ((c2 (detS (detP (.blockedWrite 15)) true) 0 rfl rfl rfl).2.1 (by decide) rfl 44 rfl (by decide) (by decide)),
    runs' ((c2 (detS (detP (.blockedRead 14)) true) 0 rfl rfl rfl).2.2.2 (by decide) rfl rfl),
    runs (((c2 (detS2 2 1 0x10000) 0 rfl rfl rfl).2.2.1 (by decide) rfl [(44, (detS2 2 1 0).ep 44)] 45 _ [] rfl rfl (by decide) (by decide)).1 (by decide)
      (by decide)),
    runs (((c2 (detS2 1 1 0x10000) 0 rfl rfl rfl).2.2.1 (by decide) rfl [] 44 _ [(45, (detS2 1 1 0).ep 45)] rfl rfl (by decide) (by decide)).1 (by decide)
      (by decide)),
    runs' (((c2 (detS2 2 1 0) 0 rfl rfl rfl).2.2.1 (by decide) rfl [(44, (detS2 2 1 0).ep 44)] 45 _ [] rfl rfl (by decide) (by decide)).2 (.inr (by decide))),
    runs (((c3 (recS false 8) 0 _ [] rfl rfl).1 rfl).1 rfl (by decide)), stays (((c3 (recS false 7) 0 _ [] rfl rfl).1 rfl).2 (.inr (by decide))),
    runs ((c3 (recS true 0) 0 _ [] rfl rfl).2.1 rfl (by decide)),
    stays ((c3 { recS true 0 with fwQueue := List.replicate 512 [] } 0 _ [] rfl rfl).2.2 rfl
      (by show 512 ≤ (List.replicate 512 _).length; rw [List.length_replicate])), runs (c4 _ [1] [] rfl),
    runs (c5 (one {}) 1 rfl (fun _ q => by cases q) rfl rfl rfl), stays ((c6 (one { pst := .parkedFault }) 1).1 (by decide) (by decide) rfl rfl),
    runs ((c6 (one { strip := some { strip0 with committing := true } }) 1).2.1 (.inl rfl)),
    runs ((c6 { one {} with events := [(0, .laneGrantEffect 0 1)] } 1).2.1 (.inr rfl)), runs ((c6 (one { pst := .haltedDebug }) 1).2.2.1 rfl),
    stays ((c6 (one {}) 1).2.2.2 (by decide))⟩

/-- Tree 15 of the root tile 0, which contributes and receives, with given rounds. -/
def entry0 : TreeEntry := { tile := 0, parent := 0, root := true, contrib := true, recv := true, corder := 0 }
def tree0 (rs : List Round) : Tree := { entries := [entry0], rounds := rs }
def sintS (p : Proc) (t : Tree) : State := { one p with parts := [(0, { valid := true, stimeo := 100, trees := [(15, t)] })] }
def sintP : Proc := { vecP with sregs := [(1, 15)] }
theorem tr0 {s : State} {recv : Bool} {t : Tree} (h1 : s.me.vt.toNat % 4 = 2) (h2 : s.reg 1 = .ofNat 64 15) (h3 : 1 ≤ s.vc.vl ∧ s.vc.vl ≤ 64)
    (h4 : Tab.look s.myPart.trees 15 = some t) (h5 : t.entries = [entry0]) (h6 : s.me.tile = 0) : TreeReady s 1 .f32 recv 15 t :=
  ⟨h1, ⟨by decide, h2⟩, h3, h4, ⟨entry0, by rw [h5]; simp, by rw [h6]; rfl, by cases recv <;> rfl⟩⟩

theorem witness_SinterResult (h : Obligations.SinterResult) : Runs (.vtree 1 2 .f32 .sum) (sintS sintP (tree0 [])) ∧
    Runs (.vtree 1 2 .f32 .sum) (sintS { sintP with strip := some strip0 } (tree0 [])) ∧
    Runs (.vtreew 2 1 .f32 .sum) (sintS sintP (tree0 [{ num := 0, result := some ([1, 2, 3], 0), seen := [0] }])) ∧
    Runs (.vtreew 2 1 .f32 .sum) (sintS sintP (tree0 [{ num := 0, aborted := some 3, seen := [0] }])) ∧
    Runs (.vtreew 2 1 .f32 .sum) (sintS sintP (tree0 [])) ∧ Runs (.vtree 1 2 .bf16 .sum) (sintS sintP (tree0 [])) ∧
    Runs (.vtree 1 2 .f32 .max) (sintS { sintP with sregs := [(1, 16)] } (tree0 [])) := by
  obtain ⟨c1, c2, c3⟩ := h
  exact ⟨runs' ((c1 _ _ _ _ _ 15 _ (tr0 (by decide) (by decide) (by decide) rfl rfl rfl) (fr (by decide)) (vr (by decide)) (by decide)).1 rfl rfl (by decide) (by decide) (by decide)),
    runs ((c1 _ _ _ _ _ 15 _ (tr0 (by decide) (by decide) (by decide) rfl rfl rfl) (fr (by decide)) (vr (by decide)) (by decide)).2 _ rfl rfl),
    runs ((c2 _ _ _ _ _ 15 _ (tr0 (by decide) (by decide) (by decide) rfl rfl rfl) (fr (by decide)) (pl (by decide)) (vr (by decide))).1 _ _ rfl rfl
      (by decide) rfl rfl),
    runs ((c2 _ _ _ _ _ 15 _ (tr0 (by decide) (by decide) (by decide) rfl rfl rfl) (fr (by decide)) (pl (by decide)) (vr (by decide))).2.1 3 rfl (by decide)
      (by decide)),
    runs ((c2 _ _ _ _ _ 15 _ (tr0 (by decide) (by decide) (by decide) rfl rfl rfl) (fr (by decide)) (pl (by decide)) (vr (by decide))).2.2 rfl rfl),
    runs ((c3 _ _ 0 _ _ _ _ (.inl rfl) (fr (by decide)) rfl (vr (by decide))).1 (by decide)),
    runs ((c3 _ _ 0 _ _ _ _ (.inl rfl) (fr (by decide)) rfl (vr (by decide))).2 (by decide) (by decide))⟩

/-- A leaf on tile 1 below the root on tile 0, in round 4. -/
def entry1 : TreeEntry := { tile := 1, parent := 0, root := false, contrib := true, recv := true, corder := 0 }
def tree1 (r : Round) : Tree := { entries := [entry0, entry1], rounds := [r] }
def round1 : Round := { num := 4, vl := 1, started := true, ty := .i32, contribs := [(0, [5]), (1, [6])] }
def tree1S (r : Round) : State := sintS sintP (tree1 r)

/-- An inner node on tile 1, which need not contribute, with children on tiles 2 and 3, the first of them second in CORDER; its children have given their results. -/
def innerT (contrib root : Bool) (ps : Tab (List Nat × Flags)) : Tree :=
  { entries := [{ entry1 with contrib := contrib, root := root }, { entry1 with tile := 2, parent := 1, corder := 1 }, { entry1 with tile := 3, parent := 1 }],
    rounds := [{ round1 with contribs := if contrib then [(1, [5])] else [], partials := ps }] }
def inner2 : Tab (List Nat × Flags) := [(2, ([7], 0)), (3, ([6], 0))]

theorem witness_SinterEvents (h : Obligations.SinterEvents) : Runs (.sinterCombine 0 15 1 4) (sintS sintP (innerT true false inner2)) ∧
    Runs (.sinterCombine 0 15 1 4) (sintS sintP (innerT false true inner2)) ∧
    Runs (.sinterCombine 0 15 1 4) (sintS sintP (innerT true false [(2, ([7], 0))])) ∧ Runs (.sinterCombine 0 15 1 4) (tree1S round1) ∧
    Runs (.sinterCombine 0 15 0 4) (tree1S { round1 with partials := [(1, ([6], 0))] }) ∧ sinterElem .i32 .min 0xFFFFFFFF 0 = (0xFFFFFFFF, 0) ∧
    Runs (.sinterResult 0 15 1 4) (tree1S round1) ∧ Runs (.sinterAbort 0 15 1 4 3) (tree1S round1) ∧ Runs (.sinterAbortRequest 0 15 4) (tree1S round1) ∧
    Runs (.sinterAbortRequest 0 15 4) (tree1S { round1 with result := some ([11], 0) }) ∧
    Runs (.sinterTimerExpire 0 15 0) { tree1S round1 with tiles := [(0, { sint := [(15, { timer := some (4, 0) })] })] } ∧
    Runs (.sdescLoad 1 15) { regs [] with sram := [(0, 1), (10, 0xC0), (11, 1)] } ∧ Runs (.sdescLoad 1 15) { regs [] with sram := [(0, 1)] } ∧
    Runs (.sdescClear 0 15) (tree1S round1) ∧ Runs (.csrw 1 .sdesc) (one { pst := .running, status := 1, sregs := [(1, 31)] }) := by
  obtain ⟨c1, ci, cw, c2, c3, c4, c5, c6, c7⟩ := h
  exact ⟨runs4 ((ci (sintS sintP (innerT true false inner2)) 0 15 1 4 _ _ [3, 2] [([6], 0), ([7], 0)] rfl rfl rfl rfl (by decide) rfl).1 [5] rfl rfl
      (by decide)),
    runs4 ((ci (sintS sintP (innerT false true inner2)) 0 15 1 4 _ _ [3, 2] [([6], 0), ([7], 0)] rfl rfl rfl rfl (by decide) rfl).2 ([6], 0) [([7], 0)] rfl rfl
      rfl (by decide)), stays (cw (sintS sintP (innerT true false [(2, ([7], 0))])) 0 15 1 4 3 _ rfl (by decide) (by decide) rfl),
    runs' ((c1 (tree1S round1) 0 15 1 4 _ _ _ rfl rfl rfl rfl rfl rfl).1 (by decide) rfl),
    runs' ((c1 (tree1S { round1 with partials := [(1, ([6], 0))] }) 0 15 0 4 _ _ _ rfl rfl rfl rfl rfl rfl).2 1 _ _ (by decide) rfl rfl),
    ((c2 0xFFFFFFFF 0 (by decide) (by decide)).2.1 (by decide)).1, runs' (c3 (tree1S round1) 0 15 1 4 _ rfl (by decide) rfl).1,
    runs' ((c3 (tree1S round1) 0 15 1 4 _ rfl (by decide) rfl).2.1 3 rfl rfl), runs' ((c3 (tree1S round1) 0 15 1 4 _ rfl (by decide) rfl).2.2.1 rfl rfl),
    stays ((c3 (tree1S { round1 with result := some ([11], 0) }) 0 15 1 4 _ rfl (by decide) rfl).2.2.2 (by decide)),
    runs (c4 _ 0 15 0 4 0 rfl (by decide)),
    runs ((c5 { regs [] with sram := [(0, 1), (10, 0xC0), (11, 1)] } 1 15 0 1 0 false false 15 (by decide) (by decide) (by decide) (by decide) (by decide +kernel) (by decide) (by decide) (by decide) (by decide +kernel)).1 (by decide) rfl),
    stays ((c5 { regs [] with sram := [(0, 1)] } 1 15 0 1 0 false false 15 (by decide) (by decide) (by decide) (by decide) (by decide +kernel) (by decide) (by decide) (by decide) (by decide +kernel)).2 (by decide)),
    runs (c6 _ 0 15 _ rfl), runs (c7 _ _ 15 (by decide) (fr (by decide)) (pl (by decide)) (by decide) (by decide) (by decide))⟩
def killS (p : Proc) (k : Kill) : State := { one p with procs := [(1, { p with pst := .running }), (2, { net := 254, pst := .ready })], kills := [(9, k)] }
def kill0 : Kill := { part := 0, net := 254, root := 0, tokens := [(1, 5)], waiting := [0] }
def killP (v : Word) : Proc := { pst := .running, status := 1, sregs := [(2, v)] }

theorem witness_KillResult (h : Obligations.KillResult) : Runs (.kill 1 2) (one (killP 254)) ∧ Runs (.kill 1 2) (killS (killP 254) kill0) ∧
    Runs (.kill 1 2) (regs []) ∧ Runs (.kill 1 2) (one (killP 0x1FE)) ∧ Runs (.kill 1 2) (one (killP 255)) ∧ Runs (.laharFlood 9 1) (killS {} kill0) ∧
    Runs (.killWindowEnd 9 1) (killS {} kill0) ∧ Runs (.laharFlood 9 0) (killS {} kill0) ∧ Runs (.killReport 9 1) (killS {} kill0) ∧
    Runs (.killReport 9 0) (killS { pend := [(5, .kill 0)] } kill0) := by
  obtain ⟨c1, c2, c3, c4⟩ := h
  exact ⟨runs ((c1 _ _ _ 0 254 (fr (by decide)) (pl (by decide)) (by decide) (by decide) (by decide) (by decide) (by decide) (by decide) rfl (by decide)).1 rfl),
    runs ((c1 _ _ _ 0 254 (fr (by decide)) (pl (by decide)) (by decide) (by decide) (by decide) (by decide) (by decide) (by decide) rfl (by decide)).2 _ _ rfl),
    runs ((c2 _ _ _ (fr (by decide)) rfl).1 (.inl (by decide))), runs ((c2 _ _ _ (fr (by decide)) rfl).1 (.inr (by decide))),
    runs ((c2 _ _ _ (fr (by decide)) rfl).2 (by decide) (by decide) (by decide)), runs ((c3 _ 9 1 _ rfl).1 (by decide)).1,
    runs ((c3 _ 9 1 _ rfl).1 (by decide)).2,
    runs ((c3 _ 9 0 _ rfl).2 2 (by decide) ⟨rfl, rfl, rfl, by decide, by decide⟩ rfl rfl (by decide) rfl rfl), runs ((c4 _ 9 1 _ rfl).1 (by decide)),
    runs ((c4 _ 9 0 _ rfl).2 1 5 (by decide) rfl (by decide) rfl)⟩

/-- A key descriptor at 0 whose XTS keys are `x` and 0. -/
def keyS (x : Byte) (q : Partition) : State :=
  { one { pst := .running, status := 1, wsize := 128, pend := [(5, .keyOp)] } with sram := [(32, x)], parts := [(0, { q with valid := true })] }
def keyOp0 (b : Bool) : KeyOp := { set := b, h := 1, sd := 5 }

theorem witness_KeyResult (h : Obligations.KeyResult) : Runs (.keyset 1 2) (keyS 1 {}) ∧ Runs (.keyset 1 2) (keyS 1 { key := { full := true } }) ∧
    Runs (.keyset 1 2) (keyS 0 {}) ∧ Runs (.keyset 1 2) (regs []) ∧ Runs (.keyset 1 2) (one { pst := .running, status := 1, sregs := [(2, 32)] }) ∧
    Runs (.keyrev 1 2) (one { pst := .running, status := 1, sregs := [(2, 1)] }) ∧ Runs (.keyrev 1 2) (keyS 0 {}) ∧
    Runs (.keysetComplete 0) (keyS 0 { keyOps := [keyOp0 true] }) ∧ Runs (.keyrevComplete 0) (keyS 0 { key := { full := true }, keyOps := [keyOp0 false] }) ∧
    Runs (.keyrevComplete 0) (keyS 0 { keyOps := [keyOp0 false] }) ∧ Runs (.keysetComplete 0) (keyS 0 { keyOps := [{ keyOp0 true with gone := true }] }) ∧
    Runs (.keyrevComplete 0) (keyS 0 { keyOps := [{ keyOp0 false with gone := true }] }) := by
  obtain ⟨c1, c2, c3, cg, c4⟩ := h
  exact ⟨runs' ((c1 (keyS 1 {}) 1 2 _ 0 0 1 0 0 (fr (by decide)) (pl (by decide)) (by decide) (by decide) rfl
      ⟨⟨by decide, rfl⟩, ⟨rfl, by decide⟩, rfl, ⟨rfl, rfl, rfl⟩⟩ rfl (by decide) rfl).1 rfl (by decide) (by decide)),
    runs ((c1 (keyS 1 { key := { full := true } }) 1 2 _ 0 0 1 0 0 (fr (by decide)) (pl (by decide)) (by decide) (by decide) rfl
      ⟨⟨by decide, rfl⟩, ⟨rfl, by decide⟩, rfl, ⟨rfl, rfl, rfl⟩⟩ rfl (by decide) rfl).2 (.inl rfl)),
    runs ((c1 (keyS 0 {}) 1 2 _ 0 0 0 0 0 (fr (by decide)) (pl (by decide)) (by decide) (by decide) rfl
      ⟨⟨by decide, rfl⟩, ⟨rfl, by decide⟩, rfl, ⟨rfl, rfl, rfl⟩⟩ rfl (by decide) rfl).2 (.inr rfl)),
    runs ((c2 _ _ _ (fr (by decide)) rfl).1 (by decide)).1, runs ((c2 _ _ _ (fr (by decide)) rfl).2.1 (by decide) (by decide)),
    runs ((c2 _ _ _ (fr (by decide)) rfl).2.2 (by decide) (by decide) (by decide)),
    runs' (c3 _ _ _ 0 (fr (by decide)) (pl (by decide)) (by decide) (by decide) (by decide) rfl (by decide)),
    runs ((c4 _ 0 (keyOp0 true) rfl rfl (by decide) rfl).1 rfl), runs ((c4 _ 0 (keyOp0 false) rfl rfl (by decide) rfl).2.1 rfl rfl),
    runs ((c4 _ 0 (keyOp0 false) rfl rfl (by decide) rfl).2.2 rfl rfl), runs (cg _ 0 { keyOp0 true with gone := true } rfl rfl (by decide) rfl),
    runs (cg _ 0 { keyOp0 false with gone := true } rfl rfl (by decide) rfl)⟩

/-- A host endpoint toward endpoint 44, and a host endpoint with a ring. -/
def hepIn (n : Nat) : HostEp := { dir := 1, tep := 44, credits := n, granted := 8 }
def hepOut (cap : Nat) : HostEp := { dir := 2, cap := cap, dcount := 3, freed := 1, ring := [loaderWid, loaderWid] }
def hostS (n : Nat) (k : HostEp) (q : List QSlot) : State := { State.reset with hostEps := [(n, k)], eps := [(hostRid n, { bound := true, queue := q })] }

/-- Queue pair 1 belongs to an endpoint of partition 1. -/
def foreignS : State := { hostS 200 (hepIn 1) [] with hostEps := [(200, hepIn 1), (300, { dir := 1, qpn := 1, part := 1 })] }

theorem witness_HostEvents (h : Obligations.HostEvents) : Runs (.hostPush 200 0 0 0 0 []) State.reset ∧ Runs (.hostCreditRead 200 0 0) (hostS 200 { hepIn 1 with err := true } []) ∧
    Runs (.hostPush 200 1 0 0 0 []) (hostS 200 (hepIn 1) []) ∧ Runs (.hostCreditRead 200 0 0) (hostS 200 (hepIn 1) []) ∧
    Runs (.hostPush 200 0 0 0 264 []) (hostS 200 (hepIn 1) []) ∧ Runs (.hostPush 200 0 0 0 16 [1, 2]) (hostS 200 (hepIn 1) []) ∧
    Runs (.hostPush 128 0 0 0 0 []) (hostS 128 (hepIn 1) []) ∧ Runs (.hostPush 127 0 0 0 8 [7]) (hostS 127 (hepIn 1) []) ∧ Runs (.hostPush 200 1 0 0 0 []) foreignS ∧ Runs (.hostPush 200 0 0 0 0 []) (hostS 200 (hepOut 4) []) := by
  obtain ⟨c1, -⟩ := h
  exact ⟨runs ((c1 State.reset 200 0 0 0 0 []).1 (by decide)).1, runs ((c1 (hostS 200 { hepIn 1 with err := true } []) 200 0 0 0 0 []).2.1 (by decide) rfl).2,
    runs ((c1 (hostS 200 (hepIn 1) []) 200 1 0 0 0 []).2.2.1 (by decide) rfl (.inr (.inl (by decide))) 1 (.inr ⟨by rintro ⟨-, e, m, -, -, q⟩; simp [hostS] at m; subst m; exact q rfl, rfl⟩)).1,
    runs ((c1 (hostS 200 (hepIn 1) []) 200 0 0 0 0 []).2.2.2 rfl rfl rfl rfl).1,
    runs (((c1 (hostS 200 (hepIn 1) []) 200 0 0 0 264 []).2.2.2 rfl rfl rfl rfl).2.1 (by decide)),
    runs ((((c1 (hostS 200 (hepIn 1) []) 200 0 0 0 16 [1, 2]).2.2.2 rfl rfl rfl rfl).2.2 rfl rfl (by decide)).1 (by decide)),
    runs ((((c1 (hostS 128 (hepIn 1) []) 128 0 0 0 0 []).2.2.2 rfl rfl rfl rfl).2.2 rfl rfl (by decide)).2.1 (by decide) (by decide) (by decide) rfl),
    runs ((((c1 (hostS 127 (hepIn 1) []) 127 0 0 0 8 [7]).2.2.2 rfl rfl rfl rfl).2.2 rfl rfl (by decide)).2.2 (by decide) (by decide)),
    runs ((c1 foreignS 200 1 0 0 0 []).2.2.1 (by decide) rfl (.inr (.inl (by decide))) 3 (.inl ⟨by decide, ⟨_, .tail _ (.head _), by decide, rfl, by decide⟩, rfl⟩)).1,
    runs ((c1 (hostS 200 (hepOut 4) []) 200 0 0 0 0 []).2.2.1 (by decide) rfl (.inl (by decide)) 1 (.inr ⟨fun q => q.1 rfl, rfl⟩)).1⟩

theorem witness_HostEvents_rings (h : Obligations.HostEvents) : Runs (.hostCreditUpdate 200) (hostS 200 (hepIn 1) []) ∧
    Runs (.hostCreditUpdate 200) (hostS 200 { hepIn 1 with told := 8 } []) ∧ Runs (.d2hDeliver 200) (hostS 200 (hepOut 4) [dat 1, dat 2]) ∧
    Runs (.d2hDeliver 200) (hostS 200 (hepOut 4) [eos]) ∧ Runs (.d2hDeliver 200) (hostS 200 (hepOut 3) [dat 1, dat 2]) ∧
    Runs (.hostCreditReturn 200 0 0 3) (hostS 200 (hepOut 4) []) ∧ Runs (.hostCreditReturn 200 0 0 4) (hostS 200 (hepOut 4) []) ∧
    Runs (.queuePairError 200) (hostS 200 (hepOut 4) []) ∧ Runs (.queuePairError 200) (hostS 200 {} []) := by
  obtain ⟨-, c2, c3, c4, c5⟩ := h
  exact ⟨runs ((c2 (hostS 200 (hepIn 1) []) 200 _ rfl (by decide)).1 rfl rfl (by decide)),
    stays ((c2 (hostS 200 { hepIn 1 with told := 8 } []) 200 _ rfl (by decide)).2 rfl),
    runs ((c3 (hostS 200 (hepOut 4) [dat 1, dat 2]) 200 _ rfl rfl rfl (by decide)).1 (by decide) (by decide) (by decide)),
    runs ((c3 (hostS 200 (hepOut 4) [eos]) 200 _ rfl rfl rfl (by decide)).2.1 eos rfl rfl (by decide)),
    stays ((c3 (hostS 200 (hepOut 3) [dat 1, dat 2]) 200 _ rfl rfl rfl (by decide)).2.2 (by decide)),
    runs ((c4 (hostS 200 (hepOut 4) []) 200 _ 3 rfl rfl rfl).1 (by decide) (by decide) (by decide)),
    runs ((c4 (hostS 200 (hepOut 4) []) 200 _ 4 rfl rfl rfl).2 (by decide)), runs ((c5 (hostS 200 (hepOut 4) []) 200 _ rfl).1 (by decide)),
    stays ((c5 (hostS 200 {} []) 200 _ rfl).2 rfl)⟩

theorem witness_ModuleEvents (h : Obligations.ModuleEvents) : Runs (.detectedError .sram 2047 0 0xFFFFF false) State.reset ∧
    Runs (.detectedError .sram 2047 0 0xFFFFF true) State.reset ∧ Runs (.detectedError .hbm 0 255 0 true) State.reset ∧
    Runs (.detectedError .cluster 0 3 0 true) State.reset ∧ Runs .powerLimit State.reset ∧ Runs .powerLimitCleared State.reset ∧
    Runs (.thermalStop 3) State.reset ∧ Runs .coolantLow State.reset ∧ Runs .moduleReset (regs []) ∧ Runs (.detectedError .cluster 0 0 0 true) (one vecP) ∧
    Runs (.detectedError .cluster 0 0 0 true) (one { vecP with strip := some strip0 }) ∧ Runs (.detectedError .cluster 0 3 0 true) (one vecP) := by
  obtain ⟨c1, cf, c2, c3, c4, c5⟩ := h
  exact ⟨runs (c1 _ _ _ _ _).1, runs ((c1 _ .sram _ _ _).2.1 (by decide)), runs ((c1 _ .hbm _ _ _).2.1 (by decide)),
    runs ((c1 _ .sram _ _ _).2.2 (by decide) rfl), runs (c2 _), runs (c3 _), runs (c4 _ 3 _ (.inl rfl)), runs (c4 _ 0 _ (.inr rfl)), runs (c5 _),
    runs (cf (one vecP) 0 0 0 1 (by decide) (by decide) (by decide) rfl rfl),
    runs (cf (one { vecP with strip := some strip0 }) 0 0 0 1 (by decide) (by decide) (by decide) rfl rfl),
    runs (cf (one vecP) 0 3 0 1 (by decide) (by decide) (by decide) rfl rfl)⟩
/-- Partition 0 with peer 5 and lane 9, which reaches it, and what process 1 asks for. -/
def leaseQ : Partition := { valid := true, peers := [5], pool := [9] }
def leaseS (q : Partition) (ls : Tab Lane) (l : Tab Word) : State :=
  { one { pst := .running, status := 1, sregs := l } with parts := [(0, q)], lanes := ls, reach := [(72, 0x8070000000000005)] }
def held0 : Lane := { st := .held, peer := 5 }
theorem pk {s : State} {a : BitVec 5} {p : Nat}
    (h : (decide (s.reg a = .ofNat 64 p) && decide (p < 2 ^ 22) && decide (p ≠ s.ownId.toNat) && s.myPart.peers.contains p) = true) : PeerOk s a p := by
  simp at h; exact ⟨h.1.1.1, h.1.1.2, h.1.2, h.2⟩

theorem witness_LeaseResult (h : Obligations.LeaseResult) : Runs (.lease 1 2 3) (leaseS leaseQ [] [(2, 5), (3, 64)]) ∧
    Runs (.lease 1 2 3) (leaseS leaseQ [(9, held0)] [(2, 5), (3, 63)]) ∧ Runs (.lease 1 2 3) (leaseS leaseQ [] [(2, 6), (3, 1)]) ∧
    Runs (.lrevoke 1 2 3) (leaseS leaseQ [] [(2, 6), (3, 1)]) ∧ Runs (.lrevoke 1 2 3) (regs [(3, 0x8000000000000080)]) ∧ Runs (.lrevoke 1 2 3) (regs [(3, 0x8000000000000000)]) ∧
    Runs (.lease 1 2 3) (leaseS leaseQ [] [(2, 5), (3, 65)]) ∧
    Runs (.lease 1 2 3) (leaseS { leaseQ with leases := [{ peer := 5, n := 1, h := 1, sd := 0, age := 0 }] } [] [(2, 5), (3, 1)]) ∧
    Runs (.lease 1 2 3) (leaseS { leaseQ with pool := [8] } [] [(2, 5), (3, 64)]) := by
  obtain ⟨c1, c2, -, -⟩ := h
  exact ⟨runs ((c1 _ _ _ _ 5 64 9 7 (fr (by decide)) (pl (by decide)) (pk (by decide)) (by decide) (by decide) (by decide) rfl rfl (by decide)).1 rfl
      (by decide) (by decide)),
    runs ((c1 _ _ _ _ 5 63 9 7 (fr (by decide)) (pl (by decide)) (pk (by decide)) (by decide) (by decide) (by decide) rfl rfl (by decide)).2 (by decide) rfl
      (by decide) rfl),
    runs ((c2 _ _ _ _ (fr (by decide)) rfl).1 (by decide)).1, runs (((c2 _ _ _ _ (fr (by decide)) rfl).1 (by decide)).2 (by decide)),
    runs ((c2 _ _ _ _ (fr (by decide)) rfl).2.1 (by decide)), runs ((c2 _ _ _ _ (fr (by decide)) rfl).2.2.1 (by decide) (by decide) (by decide)),
    runs ((c2 _ _ _ _ (fr (by decide)) rfl).2.2.2.1 (pk (by decide)) (by decide)),
    runs ((c2 _ _ _ _ (fr (by decide)) rfl).2.2.2.2.1 (pk (by decide)) (by decide)),
    runs ((c2 _ _ _ _ (fr (by decide)) rfl).2.2.2.2.2 (pk (by decide)) (by decide) (by decide) (by decide) (by decide))⟩

theorem witness_LeaseResult_revokes (h : Obligations.LeaseResult) :
    Runs (.lrevoke 1 2 3) { leaseS leaseQ [(9, held0)] [(2, 5), (3, 127)] with cycle := 150000 } ∧ Runs (.lrevoke 1 2 3) (leaseS leaseQ [] [(2, 5)]) ∧
    Runs (.lquery 1 2) (leaseS leaseQ [(9, held0)] [(2, 5)]) := by
  obtain ⟨-, -, c3, c4⟩ := h
  exact ⟨runs ((c3 _ _ _ _ 5 127 (fr (by decide)) (pl (by decide)) (pk (by decide)) (by decide)).1 (by decide) (by decide) (by decide) rfl),
    runs ((c3 _ _ _ _ 5 0 (fr (by decide)) (pl (by decide)) (pk (by decide)) (by decide)).2 rfl rfl (by decide)),
    runs (c4 _ _ _ 5 (fr (by decide)) (by decide) (pk (by decide)))⟩

/-- Lane 9 in a given state, in a given cycle. -/
def laneS (cycle : Nat) (st : LState) : State := { State.reset with cycle := cycle, lanes := [(9, { st := st, peer := 5 })] }
/-- Lanes 9 and 10 of one link, and a step that is due. -/
def twoLanes (i : Instr) : State :=
  { State.reset with lanes := [(9, { st := .held, peer := 5 }), (10, { st := .held, peer := 5 })], events := [(0, i)] }
/-- Both records show the lane list without either lane (R418). -/
theorem test_lanes_lost_together : (match exec (.lossOfLight 9) (twoLanes (.lossOfLight 10)) with
    | .next t => decide (((t.ep (hostRid 2)).queue.map fun q => q.val) =
        [.ofNat 64 (5 * 2 ^ 31 + 2 ^ 25 + 2 * 2 ^ 20 + 257), 0, 0, 0, .ofNat 64 (5 * 2 ^ 31 + 2 * 2 ^ 25 + 2 * 2 ^ 20 + 257), 0, 0, 0]) &&
        decide ((t.lane 10).st = .dark)
    | _ => false) = true := by decide +kernel

/-- Lane 9 drains, and a flit that it sent is not acknowledged. -/
def drainS (cycle : Nat) : State :=
  { laneS cycle .draining with links := [(linkKey 0 5, { unacked := [{ count := 0, vnet := 1, first := true, last := true, slots := [], nslot := 1, lane := 9 }] })] }
theorem none_wait (cycle : Nat) (st : LState) : NoneWait (laneS cycle st) := fun _ q => by cases q
theorem witness_LaneStateEvents (h : Obligations.LaneStateEvents) : Runs (.offerAnswer 9 true) (laneS 7500 .offered) ∧
    Runs (.offerAnswer 9 false) (laneS 0 .offered) ∧ Runs (.offerTimeout 9) (laneS 7500 .offered) ∧ Runs (.offerTimeout 9) (laneS 7499 .offered) ∧
    Runs (.offerTimeout 9) (laneS 7500 .held) ∧ Runs (.trainingTimeout 9) (laneS 30000 .training) ∧ Runs (.laneDrainEnd 9) (laneS 0 .draining) ∧
    Runs (.laneDrainEnd 9) (drainS 3000) ∧ Runs (.laneDrainEnd 9) (drainS 2999) ∧ Runs (.laneDrainEnd 9) (laneS 0 .held) ∧
    Runs (.laneDrainEnd 9) (laneS 0 .quar) ∧ Runs (.laneDrainEnd 9) (laneS 0 .dark) ∧ Runs (.laneDrainEnd 9) (laneS 0 .training) := by
  obtain ⟨c1, -⟩ := h
  have a (cycle : Nat) (st : LState) := c1 (laneS cycle st) 9 (fun _ => rfl) (by decide)
  have d (cycle : Nat) := c1 (drainS cycle) 9 (fun _ => rfl) (by decide)
  exact ⟨runs ((a 7500 .offered).1 rfl (by decide)), runs ((a 0 .offered).2.1 rfl).1, runs (((a 7500 .offered).2.1 rfl).2.1 (by decide)),
    stays (((a 7499 .offered).2.1 rfl).2.2 (by decide)), stays ((a 7500 .held).2.2.1 (by decide)).2, runs ((a 30000 .training).2.2.2.1 rfl rfl (by decide)),
    runs ((a 0 .draining).2.2.2.2.1 rfl (by decide)), runs ((d 3000).2.2.2.2.2.1 rfl (by decide)), stays ((d 2999).2.2.2.2.2.2.1 rfl ⟨_, .head _, rfl⟩ (by decide)),
    runs ((a 0 .held).2.2.2.2.2.2.2.1 rfl), runs ((a 0 .quar).2.2.2.2.2.2.2.2.1 rfl), runs ((a 0 .dark).2.2.2.2.2.2.2.2.2.1 rfl), stays ((a 0 .training).2.2.2.2.2.2.2.2.2.2.1 (.inr (.inr rfl)))⟩
theorem witness_LaneStateEvents_light (h : Obligations.LaneStateEvents) : Runs (.crcThreshold 9) (laneS 0 .held) ∧ Runs (.lossOfLight 9) (laneS 0 .held) ∧
    Runs (.lossOfLight 9) (laneS 0 .training) ∧ Runs (.lossOfLight 9) (twoLanes (.lossOfLight 10)) ∧ Runs (.crcThreshold 9) (laneS 0 .dark) ∧
    Runs (.lossOfLight 9) State.reset ∧ Runs (.lossOfLight 9) (laneS 0 .dark) ∧ Runs (.lightRestored 9) (laneS 1500000 .dark) ∧
    Runs (.lightRestored 9) (laneS 0 .held) ∧ Runs (.lightRestored 9) (laneS 1499999 .dark) := by
  obtain ⟨c1, -⟩ := h
  have a (cycle : Nat) (st : LState) := c1 (laneS cycle st) 9 (fun _ => rfl) (by decide)
  have o (st : LState) : OnlyDark (laneS 0 st) 9 := fun _ h => by cases h
  obtain ⟨t, b, -⟩ := (c1 (twoLanes (.lossOfLight 10)) 9 (fun _ => rfl) (by decide)).2.2.2.2.2.2.2.2.2.2.2.2.2.1 10 0 rfl rfl (by decide) (by decide) rfl rfl rfl rfl rfl (by decide)
  exact ⟨runs ((a 0 .held).2.2.2.2.2.2.2.2.2.2.2.1 rfl rfl (none_wait _ _)), runs ((a 0 .held).2.2.2.2.2.2.2.2.2.2.2.2.1 (by decide) (by decide) (o _)),
    runs ((a 0 .training).2.2.2.2.2.2.2.2.2.2.2.2.1 (by decide) (by decide) (o _)), ⟨t, b⟩, stays ((a 0 .dark).2.2.2.2.2.2.2.2.2.2.2.2.2.2.1 (by decide)),
    stays ((c1 State.reset 9 (fun _ => rfl) (by decide)).2.2.2.2.2.2.2.2.2.2.2.2.2.2.2.1 rfl), runs ((a 0 .dark).2.2.2.2.2.2.2.2.2.2.2.2.2.2.2.2.1 rfl), runs ((a 1500000 .dark).2.2.2.2.2.2.2.2.2.2.2.2.2.2.2.2.2.1 rfl (by decide)),
    stays ((a 0 .held).2.2.2.2.2.2.2.2.2.2.2.2.2.2.2.2.2.2 (.inl (by decide))), stays ((a 1499999 .dark).2.2.2.2.2.2.2.2.2.2.2.2.2.2.2.2.2.2 (.inr (by decide)))⟩

/-- The link to peer 5 trains with view (lane 0, width 1, speed 0). -/
def trainS (x : Nat) : State :=
  { laneS 0 .training with links := [(linkKey 0 5, { training := some (x, 1, 1, 0, false) })] }

theorem witness_LaneStateEvents_training (h : Obligations.LaneStateEvents) : Runs (.lossOfLight 2050) (laneS 0 .held) ∧ Runs (.laneOffer 9 5 7 9) (leaseS leaseQ [] []) ∧
    Runs (.laneOffer 9 5 7 8) (leaseS leaseQ [] []) ∧ Runs (.trainingWord 0 5 (capWord 1 1 0) 3) (trainS 1) ∧
    Runs (.trainingWord 0 5 (capWord 1 1 0) 0) (trainS 1) ∧ Runs (.trainingWord 0 5 (capWord 3 1 0) 0) (trainS 3) ∧
    Runs (.trainingWord 0 5 (capWord 3 1 0) 0) (trainS 2) ∧ Runs (.retrain 0 5) (laneS 0 .held) ∧ Runs (.retrain 0 5) (laneS 0 .training) ∧
    Runs (.retrain 0 5) { laneS 0 .held with links := [(linkKey 0 5, { quar := true })] } ∧
    Runs (.starvationRevoke 0 5) { leaseS { leaseQ with peers := [6], leases := [{ peer := 5, n := 1, h := 1, sd := 0, age := 0 }] }
      [(9, { held0 with peer := 6 })] [] with cycle := 150000 } := by
  obtain ⟨-, c0, c2, c3, c4, c5, c6⟩ := h
  exact ⟨runs (c0 (laneS 0 .held) 2 (fun _ => rfl) (by decide)), runs ((c2 (leaseS leaseQ [] []) 9 5 7 9 0 rfl).1 rfl rfl rfl (by decide) (by decide)),
    runs ((c2 (leaseS leaseQ [] []) 9 5 7 8 0 rfl).2 (.inr (.inl (by decide)))),
    runs ((c3 (trainS 1) 0 5 1 1 1 0 false (capWord 1 1 0) 3 (fun _ => rfl) rfl (by decide +kernel)).1 (by decide)),
    runs ((c3 (trainS 1) 0 5 1 1 1 0 false (capWord 1 1 0) 0 (fun _ => rfl) rfl (by decide +kernel)).2.1 rfl (by decide +kernel) (by decide +kernel)
      (by decide +kernel) (by decide) (by decide) (fun _ q => by cases q with | head => exact ⟨rfl, by decide⟩ | tail _ q => cases q)),
    runs ((c3 (trainS 3) 0 5 3 1 1 0 false (capWord 3 1 0) 0 (fun _ => rfl) rfl (by decide +kernel)).2.2.1 rfl (by decide) (by decide +kernel)),
    runs ((c3 (trainS 2) 0 5 2 1 1 0 false (capWord 3 1 0) 0 (fun _ => rfl) rfl (by decide +kernel)).2.2.2 rfl (by decide) (by decide +kernel)),
    runs (c4 (laneS 0 .held) 0 5 rfl rfl (.inl (by decide))), runs (c4 (laneS 0 .training) 0 5 rfl rfl (.inr (by decide))), stays (c5 _ 0 5 rfl), runs (c6 _ 0 5 6 9 _ rfl rfl rfl rfl (by decide) rfl rfl (by decide) (by decide))⟩
/-- A link to peer 5 over lane 9. -/
def linkS (k : Link) : State := { laneS 0 .held with links := [(linkKey 0 5, k)] }
/-- The same link without a lane. -/
def bareS (k : Link) : State := { State.reset with links := [(linkKey 0 5, k)] }
/-- A flit of the remote-reply network with one slot and count 7. -/
def flit0 : BitVec 576 := flitBits (flitHeader 0 1 true true 1 7 false) [5]
def oflit0 : OFlit := { count := 0, vnet := 1, first := true, last := true, slots := [], nslot := 1, lane := 9 }

theorem witness_LinkEvents (h : Obligations.LinkEvents) : Runs (.opticalDataFlit 9 flit0) (linkS {}) ∧
    Runs (.opticalDataFlit 9 flit0) (linkS { store := [(7, oflit0)] }) ∧ Runs (.opticalDataFlit 9 (flit0 + 1)) (linkS {}) ∧
    Runs (.opticalDataFlit 9 (flit0 + 1)) { linkS {} with lanes := [(9, { held0 with crcBad := 7, crcAll := 7 })] } ∧
    Runs (.opticalAck 0 5 7) (linkS { unacked := [oflit0] }) ∧ Runs (.opticalNack 0 5 0) (linkS { unacked := [oflit0] }) ∧
    Runs (.ackTimer 0 5) (linkS { sinceAck := 1 }) ∧ Runs (.ackTimer 0 5) (bareS { sinceAck := 1 }) ∧ Runs (.ackTimer 0 5) (linkS {}) ∧
    Runs (.gapTimeout 0 5) { linkS { gapAt := some 0 } with cycle := 64 } ∧ Runs (.gapTimeout 0 5) { linkS { gapAt := some 0 } with cycle := 63 } ∧
    Runs (.gapTimeout 0 5) (linkS {}) ∧ Runs (.gcmGroupClose 0 5) (linkS { next := 1, groupLen := 1 }) ∧
    Runs (.gcmGroupClose 0 5) (bareS { next := 1, groupLen := 1 }) ∧ Runs (.gcmGroupClose 0 5) (linkS { txq := [oflit0] }) ∧
    Runs (.gcmGroupClose 0 5) (linkS {}) := by
  obtain ⟨c1, -, c3, -, c5, -⟩ := h
  exact ⟨runs' ((c1 (linkS {}) 9 0 5 flit0 rfl).1 (by decide +kernel) (by decide +kernel) 7 (by decide +kernel) rfl),
    runs ((c1 (linkS { store := [(7, oflit0)] }) 9 0 5 flit0 rfl).2.1 (by decide +kernel) 7 _ (by decide +kernel) rfl),
    runs ((c1 (linkS {}) 9 0 5 (flit0 + 1) rfl).2.2.1 (by decide +kernel) (by decide) (by decide)),
    runs ((c1 { linkS {} with lanes := [(9, { held0 with crcBad := 7, crcAll := 7 })] } 9 0 5 (flit0 + 1) rfl).2.2.2 (by decide +kernel) rfl),
    runs (c3 (linkS { unacked := [oflit0] }) 0 5 7 7 { unacked := [oflit0] } oflit0 [] ⟨rfl, rfl, ⟨rfl, rfl⟩, by decide, by decide⟩ rfl rfl).1,
    runs ((c3 (linkS { unacked := [oflit0] }) 0 5 0 0 { unacked := [oflit0] } oflit0 [] ⟨rfl, rfl, ⟨rfl, rfl⟩, by decide, by decide⟩ rfl rfl).2 9 rfl rfl),
    runs ((c5 (linkS { sinceAck := 1 }) 0 5).1 (by decide) (by decide)), runs ((c5 (bareS { sinceAck := 1 }) 0 5).2.1 (by decide) rfl),
    stays ((c5 (linkS {}) 0 5).2.2.1 rfl), runs ((c5 { linkS { gapAt := some 0 } with cycle := 64 } 0 5).2.2.2.1 0 rfl (by decide)),
    stays ((c5 { linkS { gapAt := some 0 } with cycle := 63 } 0 5).2.2.2.2.1 0 rfl (by decide)), stays ((c5 (linkS {}) 0 5).2.2.2.2.2.1 rfl),
    runs ((c5 (linkS { next := 1, groupLen := 1 }) 0 5).2.2.2.2.2.2.1 (by decide) rfl),
    runs ((c5 (bareS { next := 1, groupLen := 1 }) 0 5).2.2.2.2.2.2.1 (by decide) rfl),
    stays ((c5 (linkS { txq := [oflit0] }) 0 5).2.2.2.2.2.2.2.1 (by decide)), stays ((c5 (linkS {}) 0 5).2.2.2.2.2.2.2.2 rfl rfl)⟩

theorem witness_LinkEvents_relays (h : Obligations.LinkEvents) : Runs (.relayForward 0 0 [0]) State.reset ∧
    Runs (.relayForward 0 0 [0]) { linkS { quar := true } with directPeers := [(0, 0x8000000000000005)] } ∧
    Runs (.relayForward 0 0 [0]) { linkS {} with directPeers := [(0, 0x8000000000000005)] } ∧ Runs (.relayRefusal (widOf 1 15 + 2 ^ 42 * 0)) (one (chanP { writer 1 with dest := .peer 5 300 } [])) ∧ Runs (.relayRefusal (2 ^ 67 + 1)) replyS := by
  obtain ⟨-, -, -, -, -, c6, c7, c8⟩ := h
  exact ⟨runs ((c6 State.reset 0 0 0 []).1 (.inl (by decide))),
    runs ((c6 { linkS { quar := true } with directPeers := [(0, 0x8000000000000005)] } 0 0 0 []).2.2 (by decide) (by decide) rfl),
    runs ((c6 { linkS {} with directPeers := [(0, 0x8000000000000005)] } 0 0 0 []).2.1 (by decide) (by decide) (by decide)),
    runs (c7 (one (chanP { writer 1 with dest := .peer 5 300 } [])) 1 15 5 300 0 (by decide) (by decide) (by decide) rfl rfl rfl),
    runs (c8 replyS 1 1 8 _ rfl rfl rfl (by decide) rfl rfl rfl rfl rfl (by decide))⟩

theorem pay_range (x : Nat) : ∀ n j : Nat, ((List.range' j n).map fun j => BitVec.ofNat 64 (x / 2 ^ (64 * j))).foldr
    (fun w a => w.toNat + a * 2 ^ 64) 0 = x / 2 ^ (64 * j) % 2 ^ (64 * n)
  | 0, j => by simp [Nat.mod_one]
  | n + 1, j => by
    rw [List.range'_succ, List.map_cons, List.foldr_cons, pay_range x n (j + 1), BitVec.toNat_ofNat, Nat.mul_add 64 n 1, Nat.mul_add 64 j 1,
      Nat.add_comm (64 * n), Nat.pow_add 2 (64 * 1), Nat.mod_mul, Nat.pow_add 2 (64 * j), ← Nat.div_div_eq_div_mul, Nat.mul_comm (_ % _)]
/-- Eight slots that stand for a number below 2^512. -/
theorem payload_of (x : Nat) (h : x < 2 ^ 512) : payloadOf ((List.range 8).map fun j => BitVec.ofNat 64 (x / 2 ^ (64 * j))) = x := by
  rw [payloadOf, List.take_of_length_le (by simp), List.range_eq_range', pay_range x 8 0, Nat.mul_zero, Nat.pow_zero, Nat.div_one]
  exact Nat.mod_eq_of_lt h
/-- The slots that decrypt to zero under a key stream, which is open to the model. -/
def hidden (iv : BitVec 96) : OFlit :=
  { oflit0 with slots := (List.range 8).map fun j => BitVec.ofNat 64 ((Config.gcmStream 0 iv 0).toNat / 2 ^ (64 * j)) }
theorem hidden_zero (iv : BitVec 96) : gcmSlots 0 iv 0 (hidden iv).slots = List.replicate 8 0 := by
  have e : BitVec.ofNat 512 (payloadOf (hidden iv).slots) = Config.gcmStream 0 iv 0 := by
    have q : payloadOf (hidden iv).slots = (Config.gcmStream 0 iv 0).toNat := payload_of _ (Config.gcmStream 0 iv 0).isLt
    rw [q, BitVec.ofNat_toNat, BitVec.setWidth_eq]
  unfold gcmSlots; rw [e, BitVec.xor_self]; decide +kernel
/-- A tag that none of sixteen tags is. -/
theorem other_tag (l : List (BitVec 128)) (h : l.length ≤ 16) : ∃ t, t ∉ l := by
  by_contra q
  have q : ∀ t, t ∈ l := fun t => by_contra fun c => q ⟨t, c⟩
  have d : ((List.range 17).map fun i => BitVec.ofNat 128 i).Nodup := by decide
  have := (List.subperm_of_subset d fun t _ => q t).length_le
  simp at this; omega

/-- Peer 5's link with one flit in store. -/
def storeS (f : OFlit) : State := linkS { store := [(0, f)] }
theorem storeS_link (f : OFlit) : (storeS f).link 0 5 = { store := [(0, f)] } := by
  simp [storeS, linkS, State.link, Tab.lookD, Tab.look]
theorem one_store (f : OFlit) : ((List.range 1).filterMap fun i => Tab.look [(0, f)] (0 + i)) = [f] := rfl
theorem storeS_verify (f : OFlit) (tag : BitVec 128) : (storeS f).verifyTag 0 5 0 [f] tag =
    ((List.range 16).map fun n => gcmIv 5 n 0 0).find? fun iv => decide (Config.gcmTag 0 iv [f.rheader + payloadOf f.slots * 2 ^ 32] = tag) := by
  simp only [State.verifyTag]; rfl

/-- TAG: a group of one flit whose tag verifies, and one whose tag does not. -/
theorem witness_LinkEvents_tags (h : Obligations.LinkEvents) : (∃ f tag, Runs (.gcmTagFlit 0 5 tag 1) (storeS f)) ∧
    ∃ tag, Runs (.gcmTagFlit 0 5 tag 1) (storeS oflit0) := by
  obtain ⟨-, c2, -⟩ := h
  constructor
  · refine ⟨hidden (gcmIv 5 0 0 0), Config.gcmTag 0 (gcmIv 5 0 0 0) [(hidden (gcmIv 5 0 0 0)).rheader + payloadOf (hidden (gcmIv 5 0 0 0)).slots * 2 ^ 32], ?_⟩
    have q := c2 (storeS (hidden (gcmIv 5 0 0 0))) 0 5 1 (Config.gcmTag 0 (gcmIv 5 0 0 0)
      [(hidden (gcmIv 5 0 0 0)).rheader + payloadOf (hidden (gcmIv 5 0 0 0)).slots * 2 ^ 32]) (by decide) (by decide)
    simp only [storeS_link, Nat.zero_div, Nat.zero_mul, one_store, storeS_verify] at q
    refine runs ((q rfl).1 (gcmIv 5 0 0 0) (hidden (gcmIv 5 0 0 0)) ?_ rfl rfl rfl rfl rfl ?_ (by decide))
    · rw [show List.range 16 = 0 :: (List.range 15).map (· + 1) from by decide +kernel, List.map_cons, List.find?_cons_of_pos]
      exact decide_eq_true rfl
    · show wfield ((gcmSlots 0 (gcmIv 5 0 0 0) 0 (hidden (gcmIv 5 0 0 0)).slots).headD 0) 63 62 = 0
      rw [hidden_zero]; decide
  · obtain ⟨tag, m⟩ := other_tag ((List.range 16).map fun n => Config.gcmTag 0 (gcmIv 5 n 0 0) [oflit0.rheader + payloadOf oflit0.slots * 2 ^ 32]) (by simp)
    have q := c2 (storeS oflit0) 0 5 1 tag (by decide) (by decide)
    simp only [storeS_link, Nat.zero_div, Nat.zero_mul, one_store, storeS_verify] at q
    refine ⟨tag, runs ((q rfl).2 ?_)⟩
    rw [List.find?_eq_none]
    intro iv y c
    obtain ⟨n, a, rfl⟩ := List.mem_map.1 y
    exact m (List.mem_map.2 ⟨n, a, of_decide_eq_true c⟩)

theorem witness_EventsComplete (h : Obligations.EventsComplete) : Runs (.childRelease 1) (one {}) ∧ Runs (.childRelease 1) (one { shut := true }) ∧
    Runs (.childRelease 1) (one { shut := true, hold := [1] }) ∧ Runs (.detectedError .cluster 0 3 0 true) State.reset ∧
    Runs (.detectedError .cluster 0 3 0 true) (regs []) ∧ Runs (.detectedError .meshLink 5 1 0 false) State.reset ∧
    Runs (.detectedError .opticalLane 0 9 0 true) State.reset ∧ Runs .powerLimit State.reset ∧ Runs .powerLimitCleared State.reset ∧
    Runs (.thermalStop 3) State.reset ∧ Runs .coolantLow State.reset ∧ Runs .moduleReset (regs []) := by
  obtain ⟨c1, c2, c3, c4, c5, c6, c7⟩ := h
  have e (s : State) (unit : ErrUnit) (tile index : Nat) (lasting : Bool) := runs (c2 s unit tile index 0 lasting)
  exact ⟨stays ((c1 (one {}) 1).1 rfl), runs ((c1 (one { shut := true }) 1).2.1 rfl rfl),
    stays ((c1 (one { shut := true, hold := [1] }) 1).2.2 rfl (by decide)), e _ _ _ _ _, e _ _ _ _ _, e _ _ _ _ _, e _ _ _ _ _,
    runs (c3 _), runs (c4 _), runs (c5 _ _), runs (c6 _), runs (c7 _)⟩
end Sys2Proof.Tests
end

section
/-! PROOFS. Every step keeps the memories in canonical form: one lemma for each function of the model that gives a state, in the order of the
model's files. Only `sramStore` and `hbmStore` write the memories; all else hands on what it was given. -/

namespace Sys2Proof.Machine

/-- A step that goes on leaves canonical memories. -/
def Out.memOk : Out → Prop
  | .next t => t.memOk
  | _ => True

variable {s t : State}

theorem Out.memOk.next (ok : t.memOk) : Out.memOk (.next t) := ok
/-- A change of any part beside the two memories. -/
theorem State.memOk.update {f1 f2 f3 f4 f5 f6 f7 f8 f9 f10 f11 f12 f13 f14 f15 f16 f17 f18 f19 f20 f21 f22 f23 f24 f25 f26 f27 f28 f29 f30 f31 f32 f33
    f34 f35 f36 f37 f38 f39} (ok : s.memOk) :
    State.memOk ⟨f1, f2, f3, f4, f5, s.sram, s.hbm, f6, f7, f8, f9, f10, f11, f12, f13, f14, f15, f16, f17, f18, f19, f20, f21, f22, f23, f24, f25, f26,
      f27, f28, f29, f30, f31, f32, f33, f34, f35, f36, f37, f38, f39⟩ := ok
theorem State.memOk.ite {c : Prop} [Decidable c] (hs : s.memOk) (ht : t.memOk) : (if c then s else t).memOk := by
  split <;> assumption
/-- A step taken in one case only. -/
theorem State.memOk.ifThen {c : Prop} [Decidable c] (ok : s.memOk) (ht : s.memOk → t.memOk) : (if c then t else s).memOk := .ite (ht ok) ok
theorem State.memOk.ifElse {c : Prop} [Decidable c] (ok : s.memOk) (ht : s.memOk → t.memOk) : (if c then s else t).memOk := .ite ok (ht ok)
theorem State.memOk.iteFst {α : Type} {c : Prop} [Decidable c] {a b : State × α} (ha : a.1.memOk) (hb : b.1.memOk) :
    (if c then a else b).1.memOk := by
  split <;> assumption
theorem State.memOk.fst {α : Type} {p : State × α} {x : α} (ok : p.1.memOk) (e : p = (t, x)) : t.memOk := by
  subst e; exact ok
theorem State.memOk.of_fst {α : Type} {p : State × α} {x : α} (e : p = (t, x)) (ok : p.1.memOk) : t.memOk := ok.fst e
theorem State.memOk.foldl {β : Type} {f : State → β → State} {l : List β} (ok : s.memOk) (hf : ∀ s x, s.memOk → (f s x).memOk) :
    (l.foldl f s).memOk := by
  induction l generalizing s with
  | nil => exact ok
  | cons x l ih => exact ih (hf s x ok)
theorem State.memOk.foldr {β : Type} {f : β → State → State} {l : List β} (ok : s.memOk) (hf : ∀ x s, s.memOk → (f x s).memOk) :
    (l.foldr f s).memOk := by
  induction l with
  | nil => exact ok
  | cons x l ih => exact hf x _ ih
theorem State.memOk.foldlPair {β γ : Type} {f : State × γ → β → State × γ} {l : List β} {a : State × γ} (ok : a.1.memOk)
    (hf : ∀ a x, a.1.memOk → (f a x).1.memOk) : (l.foldl f a).1.memOk := by
  induction l generalizing a with
  | nil => exact ok
  | cons x l ih => exact ih (hf a x ok)

/-- A result that leaves canonical memories where it is a state. -/
def ExceptOk {ε : Type} (r : Except ε State) : Prop := ∀ t, r = .ok t → t.memOk
def OptionOk (r : Option State) : Prop := ∀ t, r = some t → t.memOk

theorem ExceptOk.get {ε : Type} {r : Except ε State} (h : ExceptOk r) (e : r = .ok t) : t.memOk := h t e
theorem ExceptOk.error {ε : Type} {c : ε} : ExceptOk (.error c) := nofun
theorem ExceptOk.ok {ε : Type} (ht : t.memOk) : ExceptOk (.ok t : Except ε State) := fun _ e => by cases e; exact ht
theorem ExceptOk.ite {ε : Type} {c : Prop} [Decidable c] {a b : Except ε State} (ha : ExceptOk a) (hb : ExceptOk b) : ExceptOk (if c then a else b) := by
  split <;> assumption
theorem ExceptOk.deny : ExceptOk deny := .error
theorem OptionOk.get {r : Option State} (h : OptionOk r) (e : r = some t) : t.memOk := h t e
theorem OptionOk.none : OptionOk none := nofun
theorem OptionOk.some (ht : t.memOk) : OptionOk (some t) := fun _ e => by cases e; exact ht
theorem OptionOk.ite {c : Prop} [Decidable c] {a b : Option State} (ha : OptionOk a) (hb : OptionOk b) : OptionOk (if c then a else b) := by
  split <;> assumption
theorem OptionOk.getD {r : Option State} (h : OptionOk r) (ok : s.memOk) : (r.getD s).memOk := by
  cases r with
  | none => exact ok
  | some t => exact h t rfl
theorem OptionOk.map {r : Option State} {f : State → State} (h : OptionOk r) (hf : ∀ s, s.memOk → (f s).memOk) : OptionOk (r.map f) := by
  cases r with
  | none => exact .none
  | some t => exact .some (hf t (h t rfl))
theorem OptionOk.foldl {β : Type} {f : Option State → β → Option State} {l : List β} {a : Option State} (ha : OptionOk a)
    (hf : ∀ a x, OptionOk a → OptionOk (f a x)) : OptionOk (l.foldl f a) := by
  induction l generalizing a with
  | nil => exact ha
  | cons x l ih => exact ih (hf a x ha)

/-! Named updates of the state, and what is due. -/

theorem State.memOk.setProc {h p} (ok : s.memOk) : (s.setProc h p).memOk := ok
theorem State.memOk.updProc {h f} (ok : s.memOk) : (s.updProc h f).memOk := ok.setProc
theorem State.memOk.updMe {f} (ok : s.memOk) : (s.updMe f).memOk := ok.updProc
theorem State.memOk.updTile {t f} (ok : s.memOk) : (s.updTile t f).memOk := ok
theorem State.memOk.updPart {n f} (ok : s.memOk) : (s.updPart n f).memOk := ok
theorem State.memOk.updEp {e f} (ok : s.memOk) : (s.updEp e f).memOk := ok
theorem State.memOk.updLink {part peer f} (ok : s.memOk) : (s.updLink part peer f).memOk := ok
theorem State.memOk.updLane {l f} (ok : s.memOk) : (s.updLane l f).memOk := ok
theorem State.memOk.setReg {r v} (ok : s.memOk) : (s.setReg r v).memOk := ok.updMe
theorem State.memOk.updChan {h c f} (ok : s.memOk) : (s.updChan h c f).memOk := ok.updProc
theorem State.memOk.afterCycles {n i} (ok : s.memOk) : (s.afterCycles n i).memOk := ok
theorem State.memOk.later {i} (ok : s.memOk) : (s.later i).memOk := ok
theorem State.memOk.laterBehind {same i} (ok : s.memOk) : (s.laterBehind same i).memOk := ok
theorem State.memOk.within {n i} (ok : s.memOk) : (s.within n i).memOk := ok
theorem State.memOk.cancel {i} (ok : s.memOk) : (s.cancel i).memOk := ok
theorem State.memOk.goto {h st} (ok : s.memOk) : (s.goto h st).memOk := ok.updProc
theorem State.memOk.wake {h st} (ok : s.memOk) : (s.wake h st).memOk := .ite ok.goto ok
theorem State.memOk.land {h r v} (ok : s.memOk) : (s.land h r v).memOk := ok.updProc.wake
theorem State.memOk.unpend {h r} (ok : s.memOk) : (s.unpend h r).memOk := ok.updProc.wake
theorem State.memOk.zeroTree {part k} (ok : s.memOk) : (s.zeroTree part k).memOk := ok
theorem State.memOk.afterDraw {part num} (ok : s.memOk) : (s.afterDraw part num).memOk := .ite ok ok
theorem State.memOk.fresh (ok : s.memOk) : s.fresh.1.memOk := ok

/-! The sending side of optical links. -/

theorem State.memOk.emit {o} (ok : s.memOk) : (s.emit o).memOk := ok
theorem State.memOk.tellPeer {p l} (ok : s.memOk) : (s.tellPeer p l).memOk := by
  unfold State.tellPeer
  split
  · exact ok.emit
  · exact ok
theorem State.memOk.quarLink {part peer} (ok : s.memOk) : (s.quarLink part peer).memOk := (Quiet.quarLink _ _ _).memOk ok
theorem State.memOk.closeGroup {part peer} (ok : s.memOk) : (s.closeGroup part peer).memOk := (Quiet.closeGroup _ _ _).memOk ok
theorem State.memOk.transmit {part peer n} (ok : s.memOk) : (s.transmit part peer n).memOk := (Quiet.transmit _ _ _ _).memOk ok
theorem State.memOk.askArrived {part wid} (ok : s.memOk) : (s.askArrived part wid).memOk := (Quiet.askArrived _ _ _).memOk ok
theorem State.memOk.linkPump {part peer} (ok : s.memOk) : (s.linkPump part peer).memOk := (Quiet.linkPump _ _ _).memOk ok
theorem State.memOk.linkSend {part peer vnet tile index slots wid} (ok : s.memOk) : (s.linkSend part peer vnet tile index slots wid).memOk :=
  (Quiet.linkSend _ _ _ _ _ _ _ _).memOk ok
theorem State.memOk.uncut {part peer} (ok : s.memOk) : (s.uncut part peer).memOk := by
  unfold State.uncut
  refine .ite (.updLink (.foldl ok fun s x ok => ?_)) ok
  split
  · exact .ite ok.updChan ok
  · exact ok
theorem State.memOk.pumpAll {part} (ok : s.memOk) : (s.pumpAll part).memOk := .foldl ok fun _ _ ok => ok.uncut.transmit.linkPump
theorem State.memOk.replay {part peer q} (ok : s.memOk) : (s.replay part peer q).memOk := by
  unfold State.replay
  refine .ite ok.updLink (.foldl ok.updLink.updLink fun s x ok => ?_)
  split
  · exact ok.emit.emit
  · exact ok.emit
theorem State.memOk.replayAll {part peer} (ok : s.memOk) : (s.replayAll part peer).1.memOk := by
  unfold State.replayAll
  dsimp only
  split
  · exact ok.updLink
  · exact .iteFst ok.updLink ok.replay

/-! The two memories, translation, accesses and the combining buffer. -/

theorem State.memOk.sramStore {k bs} (ok : s.memOk) : (s.sramStore k bs).memOk :=
  .foldl ok fun _ _ ok => ⟨Memory.wf_write _ _ _ ok.1, ok.2⟩
theorem State.memOk.hbmStore {part k bs} (ok : s.memOk) : (s.hbmStore part k bs).memOk :=
  .foldl ok fun _ _ ok => ⟨ok.1, Memory.wf_write _ _ _ ok.2⟩
theorem State.memOk.saveReg {h r v} (ok : s.memOk) : (s.saveReg h r v).memOk := by
  unfold State.saveReg
  dsimp only
  split
  · exact .ite ok ok.hbmStore
  · exact ok
theorem State.memOk.deliver {h r v} (ok : s.memOk) : (s.deliver h r v).memOk := ok.land.saveReg
theorem State.memOk.dropTlb {part base size all} (ok : s.memOk) : (s.dropTlb part base size all).memOk := ok
theorem State.memOk.startReq {id} (ok : s.memOk) : (s.startReq id).memOk := (Quiet.startReq _ _).memOk ok
theorem State.memOk.send {r} (ok : s.memOk) : (s.send r).1.memOk := (Quiet.send _ _).memOk ok
theorem State.memOk.xlate {t part va p} (ok : s.memOk) : (s.xlate t part va p).1.memOk := (Quiet.xlate _ _ _ _ _).memOk ok
theorem State.memOk.placeOf {c a n al p} (ok : s.memOk) : (s.placeOf c a n al p).1.memOk := (Quiet.placeOf _ _ _ _ _ _).memOk ok
theorem State.memOk.placeMt {c a n al p} (ok : s.memOk) : (s.placeMt c a n al p).1.memOk := (Quiet.placeMt _ _ _ _ _ _).memOk ok
theorem State.memOk.freeReqs {id} (ok : s.memOk) : (s.freeReqs id).memOk := .foldl ok fun _ _ ok => ok.startReq
theorem State.memOk.unsend {id} (ok : s.memOk) : (s.unsend id).memOk := by
  unfold State.unsend
  split
  · exact .ite (.freeReqs ok) ok
  · exact ok
theorem State.memOk.doneId {id} (ok : s.memOk) : (s.doneId id).memOk := .freeReqs ok
theorem State.memOk.cbDrain {t n} (ok : s.memOk) : (s.cbDrain t n).1.memOk := (Quiet.cbDrain _ _ _).memOk ok
theorem State.memOk.cbDrainAll {h} (ok : s.memOk) : (s.cbDrainAll h).memOk := (Quiet.cbDrainAll _ _).memOk ok
theorem State.memOk.cbDrainAt {h typ p n} (ok : s.memOk) : (s.cbDrainAt h typ p n).1.memOk := (Quiet.cbDrainAt _ _ _ _ _).memOk ok
theorem State.memOk.cbDrainTouched {h p n} (ok : s.memOk) : (s.cbDrainTouched h p n).1.memOk := (Quiet.cbDrainTouched _ _ _ _).memOk ok
theorem State.memOk.cbStore {h typ w pc opcode} (ok : s.memOk) : (s.cbStore h typ w pc opcode).memOk := (Quiet.cbStore _ _ _ _ _ _).memOk ok
theorem State.memOk.release {h} (ok : s.memOk) : (s.release h).1.memOk := ok.cbDrainAll
theorem State.memOk.placeAgain {h typ perm place} (ok : s.memOk) : (s.placeAgain h typ perm place).1.memOk := by
  unfold State.placeAgain
  split
  · refine .iteFst ok ?_
    split <;> rename_i e <;> exact ok.xlate.fst e
  · exact ok
theorem State.memOk.storeOne {h typ pc opcode w} (ok : s.memOk) : (s.storeOne h typ pc opcode w).memOk := by
  unfold State.storeOne
  refine .ite ok.placeAgain.send ?_
  split
  · exact .ite ok.placeAgain.send ok.placeAgain.sramStore
  · exact .ite ok.placeAgain.send ok.placeAgain.cbStore
  · exact .ite ok.placeAgain.cbDrainAt.send ok.placeAgain.cbStore
  · exact ok.placeAgain.cbStore
theorem State.memOk.storeAll {h typ pc opcode ws} (ok : s.memOk) : (s.storeAll h typ pc opcode ws).memOk := .foldl ok fun _ _ ok => ok.storeOne
theorem State.memOk.capToSram {k c} (ok : s.memOk) : (s.capToSram k c).memOk := .update ok.sramStore
theorem State.memOk.capToHbm {part k c} (ok : s.memOk) : (s.capToHbm part k c).memOk := .update ok.hbmStore
theorem State.memOk.capStoreOne {h typ pc place addr c} (ok : s.memOk) : (s.capStoreOne h typ pc place addr c).memOk := by
  unfold State.capStoreOne
  dsimp only
  split
  · exact .ite ok.placeAgain.send ok.placeAgain.capToSram
  · exact ok.placeAgain.cbDrainTouched.send
theorem State.memOk.atomicOne {h typ pc place addr fn n v w dest} (ok : s.memOk) : (s.atomicOne h typ pc place addr fn n v w dest).1.memOk := by
  unfold State.atomicOne
  dsimp only
  split
  · exact .iteFst ok.placeAgain.send ok.placeAgain.sramStore
  · exact ok.placeAgain.cbDrainTouched.send

/-! Channels. -/

theorem State.memOk.arbitrate {part a b} (ok : s.memOk) : (s.arbitrate part a b).1.memOk :=
  .iteFst ok (.foldlPair ok fun _ _ ok => .iteFst ok ok.afterDraw)
theorem State.memOk.netSendOn {m a b lat i} (ok : s.memOk) : (s.netSendOn m a b lat i).memOk := .afterCycles (.update ok.arbitrate)
theorem State.memOk.netSend {m lat i} (ok : s.memOk) : (s.netSend m lat i).memOk := ok.netSendOn
theorem State.memOk.updNet {part net f} (ok : s.memOk) : (s.updNet part net f).memOk := ok.updPart
theorem State.memOk.failRun {part net tile} (ok : s.memOk) : (s.failRun part net tile).memOk := .ite ok (.ite ok.updNet.later ok)
theorem State.memOk.ctrlSendMore {part peer kind w ep n more extra} (ok : s.memOk) : (s.ctrlSendMore part peer kind w ep n more extra).memOk :=
  .ite ok.linkSend ok.linkSend
theorem State.memOk.ctrlSend {part peer kind w ep n more} (ok : s.memOk) : (s.ctrlSend part peer kind w ep n more).memOk := ok.ctrlSendMore
theorem State.memOk.toWriter {rid wid b i} (ok : s.memOk) : (s.toWriter rid wid b i).memOk := ok.netSend
theorem State.memOk.grantCredit {rid wid n} (ok : s.memOk) : (s.grantCredit rid wid n).memOk := .ite ok.ctrlSend ok.toWriter
theorem State.memOk.sendCredit {rid wid n} (ok : s.memOk) : (s.sendCredit rid wid n).memOk := .ite ok ok.grantCredit
theorem State.memOk.serve {rid} : ∀ {n} {s : State}, s.memOk → (s.serve rid n).memOk
  | 0, _, ok => ok
  | n + 1, s, ok => by
    unfold State.serve
    dsimp only
    split
    · exact ok
    · split
      · exact ok.updEp.sendCredit.serve
      · exact .foldl ok.updEp fun _ _ ok => .ite ok.ctrlSend ok.toWriter
theorem State.memOk.serveAll {rid} (ok : s.memOk) : (s.serveAll rid).memOk := ok.serve
theorem State.memOk.addFree {rid n} (ok : s.memOk) : (s.addFree rid n).memOk := by
  unfold State.addFree
  refine .foldl ok.updEp.serveAll fun s x ok => ?_
  split
  · split
    · exact .ite ok.wake ok
    · exact ok
  · exact ok
theorem State.memOk.giveBack {rid wid n} (ok : s.memOk) : (s.giveBack rid wid n).memOk := .ite ok.sendCredit ok.addFree
theorem State.memOk.wakeReader {rid} (ok : s.memOk) : (s.wakeReader rid).memOk := by
  unfold State.wakeReader
  dsimp only
  refine .ite ok ?_
  split
  · exact .ite ok ok.afterCycles
  · exact .ite ok.goto ok
theorem State.memOk.arrive {rid wid m} (ok : s.memOk) : (s.arrive rid wid m).memOk :=
  .ite ok (.ite ok.updEp.wakeReader (.ite ok.updEp.later ok.updEp.later))
theorem State.memOk.toPeer {wid p e m part} (ok : s.memOk) : (s.toPeer wid p e m part).memOk := ok.linkSend
theorem State.memOk.flushPeer {wid} (ok : s.memOk) : (s.flushPeer wid).memOk := by
  unfold State.flushPeer
  refine .ite ok (.foldl (.cancel ok) fun s x ok => ?_)
  split
  · exact ok.toPeer
  · exact ok
theorem State.memOk.inject {wid d m part net} (ok : s.memOk) : (s.inject wid d m part net).memOk := ok.netSend
theorem State.memOk.abortRound {part k r reason} (ok : s.memOk) : (s.abortRound part k r reason).memOk := by
  unfold State.abortRound
  split
  · exact ok
  · exact .ite ok (.foldl ok.updPart fun _ _ ok => ok.later)
theorem State.memOk.contribute {h k ty op xs} (ok : s.memOk) : (s.contribute h k ty op xs).memOk := by
  unfold State.contribute
  dsimp only
  split
  · exact ok.updTile
  · exact .ifElse ok.updTile fun ok => .ite ok.updPart.abortRound ok.updPart.later
theorem State.memOk.injectAll (ok : s.memOk) : s.injectAll.memOk := by
  unfold State.injectAll
  refine .foldlPair ok fun a m ok => .iteFst ok ?_
  split
  · exact ok.contribute
  · exact .ifThen ok.inject fun ok => ok.wake
theorem State.memOk.finish {id} (ok : s.memOk) : (s.finish id).memOk := ok.doneId.injectAll
theorem State.memOk.stage {h c m} (ok : s.memOk) : (s.stage h c m).memOk := .injectAll (.update ok.release)
theorem State.memOk.stageTree {h k ty op xs} (ok : s.memOk) : (s.stageTree h k ty op xs).memOk := .injectAll (.update ok.release)
theorem State.memOk.askCredit {h c n} (ok : s.memOk) : (s.askCredit h c n).memOk := by
  unfold State.askCredit
  refine .ite ok ?_
  split
  · split
    · exact ok.updChan.ctrlSend
    · exact ok
  · exact ok.updChan.netSend
theorem State.memOk.withdrawAsk {h c} (ok : s.memOk) : (s.withdrawAsk h c).memOk := by
  unfold State.withdrawAsk
  refine .ite ok ?_
  split
  · exact .serveAll (.updEp (.update ok.updChan))
  · exact .update ok.updChan
theorem State.memOk.adjustAsk {h c n} (ok : s.memOk) : (s.adjustAsk h c n).memOk := by
  unfold State.adjustAsk
  dsimp only
  split
  · split
    · exact ok.updChan.ctrlSend
    · exact ok.updChan
  · exact .ite (.update ok.updChan) (.ite ok.updChan.updEp.serveAll (.ifElse ok.updChan fun ok => ok.updChan.askCredit))
theorem State.memOk.gainCredit {wid n bcap once d} (ok : s.memOk) : (s.gainCredit wid n bcap once d).memOk := by
  unfold State.gainCredit
  dsimp only
  refine .ite (.ite ?_ ?_) (.ite (.afterCycles ok) ok)
  · split
    · exact ok.ctrlSend
    · split
      · exact ok.addFree
      · exact ok
  · split
    · exact .afterCycles (.ite ok.updChan.adjustAsk ok.updChan.withdrawAsk)
    · exact .afterCycles (.ite ok.updChan.adjustAsk ok.updChan.withdrawAsk)
    · exact .ifThen (.ite ok.updChan.adjustAsk ok.updChan.withdrawAsk) fun ok => ok.goto
theorem State.memOk.consume {rid k} (ok : s.memOk) : (s.consume rid k).memOk := .foldl ok.updEp fun _ _ ok => ok.giveBack
theorem State.memOk.renameWid {old new} (ok : s.memOk) : (s.renameWid old new).memOk := ok
theorem State.memOk.moveWriter {h c h'} (ok : s.memOk) : (s.moveWriter h c h').memOk := by
  unfold State.moveWriter
  dsimp only
  split
  · exact .updChan (.ctrlSendMore (.update ok.flushPeer.updChan))
  · exact .updChan (.renameWid (.update ok.flushPeer.updChan))
theorem State.memOk.plainChan {h c} (ok : s.memOk) : (s.plainChan h c).memOk := by
  unfold State.plainChan
  refine .updChan (.updTile ?_)
  split
  · exact ok.updEp
  · exact ok
theorem State.memOk.moveStart {mv m} (ok : s.memOk) : (s.moveStart mv m).memOk :=
  .ifThen (.ite (.foldl ok fun _ _ ok => ok.later) ok) fun ok => ok.later
theorem State.memOk.toHost {n slots} (ok : s.memOk) : (s.toHost n slots).memOk := .arrive (.ite ok ok.updEp)

/-! Strips. -/

theorem State.memOk.enqueueBind {id} (ok : s.memOk) : (s.enqueueBind id).memOk := by
  unfold State.enqueueBind
  split
  · exact ok
  · exact .ite ok (.ifThen (.ifThen (.updTile ok) fun ok => ok.later) fun ok => ok.updProc)
theorem State.memOk.openStrip {h pc maxVec maxSca} (ok : s.memOk) : (s.openStrip h pc maxVec maxSca).memOk := ok.updProc
theorem State.memOk.handOver {h x} (ok : s.memOk) : (s.handOver h x).memOk := by
  unfold State.handOver
  split
  · exact ok.storeAll
  · exact ok.capStoreOne
  · exact ok.atomicOne
  · exact ok.stage
  · exact ok.updProc.stage
  · exact ok.stageTree
  · refine .enqueueBind ?_
    split
    · exact .ite ok ok.updProc
    · exact ok
theorem State.memOk.releaseBinds {h ids} (ok : s.memOk) : (s.releaseBinds h ids).memOk := .ite ok (.update ok.release)
theorem State.memOk.commitStart {h} (ok : s.memOk) : (s.commitStart h).memOk := by
  unfold State.commitStart
  split
  · exact ok
  · exact .foldl (.foldl ok.updProc fun _ _ ok => ok.handOver) fun _ _ ok => ok.handOver
theorem State.memOk.endKeptAt {id n take} (ok : s.memOk) : (s.endKeptAt id n take).memOk := .ifThen ok.updEp fun ok => ok.consume
theorem State.memOk.endKept {k take} (ok : s.memOk) : (s.endKept k take).memOk :=
  .foldl (.foldl ok fun _ _ ok => ok.endKeptAt) fun _ _ ok => ok.ctrlSendMore
theorem State.memOk.commitEnd {h} (ok : s.memOk) : (s.commitEnd h).memOk := by
  unfold State.commitEnd
  split
  · exact ok
  · refine .updProc (.foldl (.releaseBinds (.endKept (.foldl ok.updProc fun s x ok => ?_))) fun _ _ ok => ok.handOver)
    split
    · exact ok.consume
    · exact ok
theorem State.memOk.commit {h} (ok : s.memOk) : (s.commit h).memOk := ok.commitStart.commitEnd
theorem State.memOk.takeBack {h x} (ok : s.memOk) : (s.takeBack h x).memOk := by
  unfold State.takeBack
  dsimp only
  split
  · split
    · exact ok.updChan.updEp.addFree
    · exact ok.updChan
  · split
    · exact ok.updChan.updEp.addFree
    · exact ok.updChan
  · exact ok
  · exact ok
theorem State.memOk.undoBank {t k} (ok : s.memOk) : (s.undoBank t k).memOk := ok.updTile
theorem State.memOk.restart {h} (ok : s.memOk) : (s.restart h).memOk := by
  unfold State.restart
  split
  · exact ok
  · exact .updProc (.updTile (.update (.undoBank (.endKept (.foldl ok fun _ _ ok => ok.takeBack)))))
theorem State.memOk.abandon {h} (ok : s.memOk) : (s.abandon h).memOk := by
  unfold State.abandon
  dsimp only
  refine .ite ok ?_
  split
  · exact ok.restart.goto
  · exact ok.restart.goto
  · exact ok.restart.goto
  · exact ok.restart

/-! Completing, blocking, faults, and what an end of a process leaves. -/

theorem State.memOk.countEvent {t sel n} (ok : s.memOk) : (s.countEvent t sel n).memOk := .ite (.foldl ok.updTile fun _ _ ok => ok.afterCycles) ok
theorem State.memOk.noteFrec {h w} (ok : s.memOk) : (s.noteFrec h w).memOk := by
  unfold State.noteFrec
  dsimp only
  split
  · exact ok.updProc.hbmStore
  · exact ok.updProc
theorem State.memOk.queueRecord {tile r} (ok : s.memOk) : (s.queueRecord tile r).memOk := by
  unfold State.queueRecord
  refine .ite ?_ ?_
  · refine .updTile ?_
    split
    · exact ok.noteFrec
    · exact ok.noteFrec
    · exact ok.noteFrec
    · exact ok
  · refine .afterCycles (.updTile ?_)
    split
    · exact ok.noteFrec
    · exact ok.noteFrec
    · exact ok.noteFrec
    · exact ok
theorem State.memOk.park {h slots epc cls fpc} (ok : s.memOk) : (s.park h slots epc cls fpc).memOk := ok.release.updProc.queueRecord.failRun
theorem State.memOk.dropHeld {h} (ok : s.memOk) : (s.dropHeld h).memOk := .updProc ok
theorem State.memOk.dropDstep {old new} (ok : s.memOk) : (s.dropDstep old new).memOk := .ite ok ok.dropHeld
theorem State.memOk.trapEntry {h code detail xmask rec0 epc} (ok : s.memOk) : (s.trapEntry h code detail xmask rec0 epc).memOk := ok.updProc
theorem State.memOk.raiseAt {h op c x} (ok : s.memOk) : (s.raiseAt h op c x).memOk := .ite ok.restart.trapEntry ok.restart.park
theorem State.memOk.raise {op c x} (ok : s.memOk) : (s.raise op c x).memOk := ok.raiseAt
theorem State.memOk.stepTrap {h op pc} (ok : s.memOk) : (s.stepTrap h op pc).memOk := .ite ok.updProc ok.park
theorem State.memOk.completeAt {h op next} (ok : s.memOk) : (s.completeAt h op next).memOk := .ifThen ok.updProc.countEvent fun ok => ok.stepTrap
theorem State.memOk.jump {op next} (ok : s.memOk) : (s.jump op next).memOk := ok.completeAt
theorem State.memOk.retire {op} (ok : s.memOk) : (s.retire op).memOk := ok.jump
theorem State.memOk.block {st need} (ok : s.memOk) : (s.block st need).memOk := ok.updMe
theorem State.memOk.holdOn {ids} (ok : s.memOk) : (s.holdOn ids).memOk := .update ok.updMe
theorem State.memOk.holdUntil {n} (ok : s.memOk) : (s.holdUntil n).memOk := .update ok.updMe
theorem State.memOk.setRegAfter {r v n} (ok : s.memOk) : (s.setRegAfter r v n).memOk := ok.setReg.updMe
theorem State.memOk.issueHeld {ids} (ok : s.memOk) : (s.issueHeld ids).memOk := ok.updMe.countEvent
theorem State.memOk.finishHeld {h op} (ok : s.memOk) : (s.finishHeld h op).memOk := .ifThen ok.updProc fun ok => ok.stepTrap
theorem State.memOk.withRegs {rs k} (ok : s.memOk) (hk : k.memOk) : (s.withRegs rs k).memOk := by
  unfold State.withRegs
  split
  · exact ok.block
  · exact .ite ok.holdUntil hk
theorem State.memOk.afterCommit {k : State → State} (ok : s.memOk) (hk : ∀ s, s.memOk → (k s).memOk) : (s.afterCommit k).memOk := by
  unfold State.afterCommit
  split
  · exact hk _ ok
  · exact .ite ok.holdOn (.ite (.holdOn (.ite ok ok.commitStart)) (hk _ (.commitEnd (.ite ok ok.commitStart))))
theorem State.memOk.withRegsCommit {rs} {k : State → State} (ok : s.memOk) (hk : ∀ s, s.memOk → (k s).memOk) : (s.withRegsCommit rs k).memOk :=
  ok.withRegs (ok.afterCommit fun _ ok => ok.withRegs (hk _ ok))
theorem State.memOk.afterGrant {k} (ok : s.memOk) (hk : k.memOk) : (s.afterGrant k).memOk := by
  unfold State.afterGrant
  split
  · exact ok.block
  · exact hk
theorem State.memOk.takeUnits {h kind slivers} (ok : s.memOk) : (s.takeUnits h kind slivers).memOk := .ite ok ok.updTile
theorem State.memOk.touch {op kind} {k : State → State} (ok : s.memOk) (hk : ∀ s, s.memOk → (k s).memOk) : (s.touch op kind k).memOk := by
  unfold State.touch
  dsimp only
  split
  · exact ok.raise
  · exact .ifThen (hk _ ok.takeUnits) fun ok => ok.updTile
theorem State.memOk.eretAt {h} (ok : s.memOk) : (s.eretAt h).memOk := .updProc (.completeAt (.updProc (.ite ok.updTile ok)))
theorem State.memOk.fadeUnits {t us} (ok : s.memOk) : (s.fadeUnits t us).memOk :=
  .ifThen (.ifThen (.updTile ok) fun ok => ok.updTile) fun ok => ok.updTile
theorem State.memOk.releaseUnits {h} (ok : s.memOk) : (s.releaseUnits h).memOk := .ite ok ok.fadeUnits.updTile
theorem State.memOk.leaveReader {h c} (ok : s.memOk) : (s.leaveReader h c).memOk := by
  unfold State.leaveReader
  refine .ite ok ?_
  split
  · split
    · exact ok.flushPeer.ctrlSend
    · exact ok
  · exact .ifThen (.ite ok.updEp ok) fun ok => ok.updEp.addFree
theorem State.memOk.leaveRun {e} (ok : s.memOk) : (s.leaveRun e).memOk := .ite ok (.update ok.sramStore)
theorem State.memOk.freeEntry {e} (ok : s.memOk) : (s.freeEntry e).memOk := by
  unfold State.freeEntry
  refine .updEp (.foldl ?_ fun _ _ ok => ok)
  split
  · exact .updPart (.ifThen (.update ok.leaveRun) fun ok => ok.updNet)
  · exact .ifThen (.update ok.leaveRun) fun ok => ok.updNet
theorem State.memOk.dropWriters {e ws} (ok : s.memOk) : (s.dropWriters e ws).memOk :=
  .foldl ok fun _ _ ok => .ite (.ite (.ifThen ok.updChan fun ok => ok.raiseAt) ok) (.ite ok.ctrlSend ok)
theorem State.memOk.killEntry {e} (ok : s.memOk) : (s.killEntry e).memOk := ok.freeEntry.dropWriters
theorem State.memOk.unbindAll {h} (ok : s.memOk) : (s.unbindAll h).memOk := by
  unfold State.unbindAll
  refine .updProc (.foldl ok fun s x ok => ?_)
  split
  · exact ok.killEntry
  · exact ok.leaveReader
  · exact ok
theorem State.memOk.endProcess {h} (ok : s.memOk) : (s.endProcess h).memOk := ok.releaseUnits.updTile.unbindAll.updProc

/-! The lane scheduler. -/

theorem State.memOk.reserveAll {t} : ∀ {n} {s : State}, s.memOk → (s.reserveAll t n).memOk
  | 0, _, ok => ok
  | n + 1, s, ok => by
    unfold State.reserveAll
    dsimp only
    split
    · exact ok
    · exact .ite ok ok.updTile.reserveAll
theorem State.memOk.checkReserved {t} (ok : s.memOk) : (s.checkReserved t).memOk := .foldl ok fun _ _ ok => .ite ok.afterCycles ok
theorem State.memOk.settleLanes {t} (ok : s.memOk) : (s.settleLanes t).memOk := ok.reserveAll.checkReserved
theorem State.memOk.withdraw {h} (ok : s.memOk) : (s.withdraw h).memOk := ok.updTile.cancel
theorem State.memOk.disown {t h sl} (ok : s.memOk) : (s.disown t h sl).memOk := ok.updTile
theorem State.memOk.releaseLanes {h} (ok : s.memOk) : (s.releaseLanes h).memOk := ok.disown.updProc
theorem State.memOk.moveLanes {h new cluster owned} (ok : s.memOk) : (s.moveLanes h new cluster owned).memOk :=
  .updProc (.ite (.updTile (.disown (.ite ok.updTile ok))) (.updTile (.disown (.ite ok.updTile ok))))
theorem State.memOk.grantEffect {h g} (ok : s.memOk) : (s.grantEffect h g).memOk := by
  unfold State.grantEffect
  refine .settleLanes (.ite ?_ ?_)
  · split
    · exact .ifElse ok.moveLanes.updProc fun ok => .raiseAt (.ifElse ok.dropHeld fun ok => ok.unpend.updProc)
    · exact ok.moveLanes.updProc
  · refine .ite ?_ ?_
    · refine .stepTrap (.land (.updProc ?_))
      split
      · exact .ifElse ok.moveLanes.updProc fun ok => .raiseAt (.ifElse ok.dropHeld fun ok => ok.unpend.updProc)
      · exact ok.moveLanes.updProc
    · refine .land (.updProc ?_)
      split
      · exact .ifElse ok.moveLanes.updProc fun ok => .raiseAt (.ifElse ok.dropHeld fun ok => ok.unpend.updProc)
      · exact ok.moveLanes.updProc
theorem State.memOk.waitGrant {h g} (ok : s.memOk) : (s.waitGrant h g).memOk := ok.updProc
theorem State.memOk.askLanes {h q age again} (ok : s.memOk) : (s.askLanes h q age again).memOk := by
  unfold State.askLanes
  split
  · exact ok
  · exact .settleLanes (.afterCycles (.waitGrant (.ite ok.updTile ok)))
  · exact .ite ok.updTile.waitGrant.settleLanes ok.updTile.waitGrant.afterCycles.settleLanes
theorem State.memOk.requestLanes {h sd avl age} (ok : s.memOk) : (s.requestLanes h sd avl age).memOk := ok.askLanes
theorem State.memOk.leaveLanes {h keepOwners} (ok : s.memOk) : (s.leaveLanes h keepOwners).memOk :=
  .settleLanes (.updProc (.ite ok.withdraw.cancel.updProc ok.withdraw.cancel.releaseLanes))
theorem State.memOk.finishProcess {h} (ok : s.memOk) : (s.finishProcess h).memOk := ok.withdraw.cancel.endProcess.updProc.settleLanes

/-! Vector operands. -/

theorem State.memOk.bankWrite {h t kvs} (ok : s.memOk) : (s.bankWrite h t kvs).memOk := .ifElse ok.updTile fun ok => ok.updProc
theorem State.memOk.maskWrite {h t kvs} (ok : s.memOk) : (s.maskWrite h t kvs).memOk := .ifElse ok.updTile fun ok => ok.updProc
theorem State.memOk.putElemsAt {v ew r xs} (ok : s.memOk) : (s.putElemsAt v ew r xs).memOk := .ite ok ok.bankWrite
theorem State.memOk.putElems {v r xs} (ok : s.memOk) : (s.putElems v r xs).memOk := ok.putElemsAt
theorem State.memOk.putMask {v r f} (ok : s.memOk) : (s.putMask v r f).memOk := .ite ok ok.maskWrite
theorem State.memOk.raiseFlags {f} (ok : s.memOk) : (s.raiseFlags f).memOk := ok.updMe
theorem State.memOk.afterFills {ids ms k} (ok : s.memOk) (hk : k.memOk) : (s.afterFills ids ms k).memOk := .ite ok.holdOn (.ite ok.holdUntil hk)
theorem State.memOk.maskOp {op ms rs} {k : State → State} (ok : s.memOk) (hk : ∀ s, s.memOk → (k s).memOk) : (s.maskOp op ms rs k).memOk :=
  ok.afterGrant (ok.afterFills (ok.touch hk))
theorem State.memOk.vectorOp {op rs} {k : State → State} (ok : s.memOk) (hk : ∀ s, s.memOk → (k s).memOk) : (s.vectorOp op rs k).memOk := ok.maskOp hk
theorem State.memOk.lookLocal {h typ place n} (ok : s.memOk) : (s.lookLocal h typ place n).1.memOk := by
  unfold State.lookLocal
  dsimp only
  split
  · exact ok
  · refine .iteFst ok ?_
    split
    · exact ok
    · exact .iteFst ok ok.cbDrainAt
theorem State.memOk.noteLoads {ids} (ok : s.memOk) : (s.noteLoads ids).memOk := ok.updMe
theorem State.memOk.bufferStore {op vec x} (ok : s.memOk) : (s.bufferStore op vec x).memOk := by
  unfold State.bufferStore
  split
  · exact ok.handOver.retire
  · exact .ite ok.raise ok.updMe.retire
theorem State.memOk.holdBack {x} (ok : s.memOk) : (s.holdBack x).memOk := by
  unfold State.holdBack
  split
  · exact ok.handOver
  · exact ok.updMe

/-! The differential analyser. -/

theorem State.memOk.updAn {t f} (ok : s.memOk) : (s.updAn t f).memOk := ok.updTile
theorem State.memOk.tapCut {t n x} (ok : s.memOk) : (s.tapCut t n x).memOk := ok.updAn.updChan
theorem State.memOk.tapPush {t n} (ok : s.memOk) : (s.tapPush t n).memOk := by
  unfold State.tapPush
  split
  · exact ok
  · exact .ite ok (.ite (.wake (.injectAll (.update (.ite ok.updChan.tapCut ok.updChan.updAn)))) ok.askCredit)
theorem State.memOk.portTake {t n} (ok : s.memOk) : (s.portTake t n).memOk := by
  unfold State.portTake
  split
  · exact ok
  · refine .ite ok ?_
    split
    · exact ok
    · split
      · exact ok
      · exact ok.consume.updAn
theorem State.memOk.flushEmit {t} (ok : s.memOk) : (s.flushEmit t).memOk := .ite ok (.foldl ok.updAn fun _ _ ok => ok.queueRecord)
theorem State.memOk.tick {t d} (ok : s.memOk) : (s.tick t d).memOk := by
  unfold State.tick
  dsimp only
  refine .ite ok.flushEmit ?_
  split
  · exact ok.updAn.flushEmit
  · refine .flushEmit (.foldl (.foldl ok.updAn fun _ _ ok => .ite ok.tapPush ok) fun s x ok => ?_)
    split
    · exact .ite ok.afterCycles ok
    · exact ok
theorem State.memOk.looseChans {t} (ok : s.memOk) : (s.looseChans t).memOk := .foldl (.foldl ok fun _ _ ok => ok.updChan) fun _ _ ok => ok.updChan
theorem State.memOk.tapEnd {t n} (ok : s.memOk) : (s.tapEnd t n).memOk := by
  unfold State.tapEnd
  dsimp only
  split
  · exact .ifElse ok.tapPush fun ok => ok.tapCut
  · exact ok.tapPush
theorem State.memOk.markChans {t} (ok : s.memOk) : (s.markChans t).memOk :=
  .foldl (.foldl ok fun _ _ ok => ok.updChan.afterCycles) fun _ _ ok => ok.updChan.afterCycles
theorem State.memOk.startArray {t an} (ok : s.memOk) : (s.startArray t an).memOk := ok.updAn.markChans
theorem State.memOk.takeBackArray {h} (ok : s.memOk) : (s.takeBackArray h).memOk := by
  unfold State.takeBackArray
  split
  · exact ok
  · exact .startArray (.updTile (.looseChans (.ifElse ok.updProc fun ok => ok.dropDstep.updProc)))
theorem State.memOk.arrayCycle {t} (ok : s.memOk) : (s.arrayCycle t).memOk :=
  .ite ok (.ite ok (.foldl (.updAn (.foldl ok.updAn fun _ _ ok => ok.afterCycles)) fun _ _ ok => .ite ok.afterCycles ok))
theorem State.memOk.endDstep {h} (ok : s.memOk) : (s.endDstep h).memOk := by
  unfold State.endDstep
  dsimp only
  split
  · exact ok
  · exact .ite ok.dropHeld (.ite ok (.ifThen ok.updProc fun ok => ok.stepTrap))

/-! The analyser instructions. -/

theorem State.memOk.analyserOp {inStrip} {k : State → Except (Cause × FInfo) State} (ok : s.memOk) (hk : ∀ s, s.memOk → ExceptOk (k s)) :
    (s.analyserOp inStrip k).memOk := by
  unfold State.analyserOp
  split
  · exact ok.raise
  · refine .ite (.raise (.ite ok ok.takeBackArray)) ?_
    split
    · exact .raise (.ite ok ok.takeBackArray)
    · rename_i e
      exact ((hk _ (.takeUnits (.ite ok ok.takeBackArray))).get e)
theorem execPatch_memOk {a b} (ok : s.memOk) : (execPatch a b s).memOk := by
  unfold execPatch
  exact .next (ok.withRegs (ok.analyserOp (fun _ ok => by
      refine .ite .error (.ite .deny (.ite (.ok ok.retire) ?_))
      split
      · exact .error
      · exact .ite .deny (.ok ok.updAn.retire))))
theorem execDset_memOk {a b} (ok : s.memOk) : (execDset a b s).memOk := by
  unfold execDset
  exact .next (ok.withRegs (ok.analyserOp (fun _ ok => by
      split
      · exact .deny
      · split
        · exact .ite .deny (.ok ok.updAn.retire)
        · exact .ite .deny (.ok ok.updAn.retire)
        · exact .ite .deny (.ok ok.updAn.retire)
        · exact .ok ok.updAn.retire)))
theorem execDget_memOk {d a} (ok : s.memOk) : (execDget d a s).memOk := by
  unfold execDget
  exact .next (ok.withRegs (ok.analyserOp (fun _ ok => by
      split
      · exact .deny
      · exact .ok ok.setReg.retire)))
theorem execDstep_memOk {n a} (ok : s.memOk) : (execDstep n a s).memOk :=
  .next (ok.withRegs (ok.analyserOp fun _ ok => .ite (.ok ok.retire) (.ite .deny (.ite (.ok ok.retire) (.ok (.updMe (.countEvent
    (.ite ok.updAn ok))))))))
theorem execDrun_memOk {a} (ok : s.memOk) : (execDrun a s).memOk :=
  .next (ok.withRegs (ok.analyserOp fun _ ok => .ite .deny (.ok (.retire (.foldl ok.updAn fun _ _ ok => ok.afterCycles)))))
theorem execDsave_memOk {a} (ok : s.memOk) : (execDsave a s).memOk := by
  unfold execDsave
  exact .next (ok.withRegs (ok.analyserOp (fun _ ok => by
      refine .ite .error ?_
      split
      · exact .error
      · exact .ok ok.sramStore.retire)))
theorem execDload_memOk {a} (ok : s.memOk) : (execDload a s).memOk := by
  unfold execDload
  exact .next (ok.withRegs (ok.analyserOp (fun _ ok => by
      refine .ite .error ?_
      split
      · exact .error
      · exact .ite .deny (.ok ok.looseChans.updAn.markChans.updMe.retire))))
theorem execDbind_memOk {a c} (ok : s.memOk) : (execDbind a c s).memOk := by
  unfold execDbind
  exact .next (ok.withRegs (ok.analyserOp (fun _ ok => by
      refine .ite .error (.ite .deny (.ite .deny ?_))
      refine .ite ?_ (.ite .deny (.ite (.ite .deny (.ok ok.updAn.updChan.retire)) (.ite .deny (.ok ok.updAn.updChan.afterCycles.retire))))
      refine .ite ?_ ?_
      · split
        · exact .deny
        · exact .ite .deny (.ite (.ok ok.tapEnd.block) (.ok ok.tapEnd.retire))
      · split
        · exact .deny
        · exact .ite .deny (.ok ok.updAn.updChan.retire))))

/-! Scalar loads and stores. -/

theorem State.memOk.loadScalar {op d n a} (ok : s.memOk) : (s.loadScalar op d n a).memOk := by
  unfold State.loadScalar
  split
  · rename_i e
    exact (ok.placeMt.fst e).raise
  · rename_i e
    split
    · rename_i e1
      exact ((ok.placeMt.fst e).lookLocal.fst e1).setReg.retire
    · rename_i e1
      exact ((ok.placeMt.fst e).lookLocal.fst e1).holdOn
    · rename_i e1
      exact .retire (.ifElse (((ok.placeMt.fst e).lookLocal.fst e1).send.noteLoads) fun ok => ok.updMe)
theorem State.memOk.pastAtomics {a n} {k : State → State} (ok : s.memOk) (hk : ∀ s, s.memOk → (k s).memOk) : (s.pastAtomics a n k).memOk :=
  .ite (ok.afterCommit hk) (hk _ ok)
theorem execSt_memOk {d a z i} (ok : s.memOk) : (execSt d a z i s).memOk := by
  unfold execSt
  dsimp only
  exact .next (ok.withRegs (by
      split
      · rename_i e
        exact (ok.placeMt.fst e).raise
      · rename_i e
        exact (ok.placeMt.fst e).bufferStore))

/-! Atomics. -/

theorem State.memOk.atomicPlain {fn a b z} (ok : s.memOk) : (s.atomicPlain fn a b z).memOk := by
  unfold State.atomicPlain
  dsimp only
  exact ok.withRegs (by
      split
      · rename_i e
        exact (ok.placeMt.fst e).raise
      · rename_i e
        exact (ok.placeMt.fst e).bufferStore)
theorem State.memOk.atomicValue {fn d a b more z} (ok : s.memOk) : (s.atomicValue fn d a b more z).memOk := by
  refine ok.withRegsCommit fun s ok => ?_
  dsimp only
  split
  · exact ok.raise
  · split
    · exact ok.raise
    · split
      · rename_i e
        exact (ok.placeMt.fst e).raise
      · rename_i e
        have ok := ok.placeMt.fst e
        split
        · rename_i e
          exact (ok.atomicOne.fst e).setReg.retire
        · rename_i e
          exact .retire (.ifElse (ok.atomicOne.fst e) fun ok => ok.updMe)
        · rename_i e
          exact (ok.atomicOne.fst e).retire

/-! Scalar arithmetic. -/

theorem State.memOk.alu {op d rs v} (ok : s.memOk) : (s.alu op d rs v).memOk := .next (ok.withRegs ok.setReg.retire)
theorem State.memOk.aluAfter {op d rs v n} (ok : s.memOk) : (s.aluAfter op d rs v n).memOk := .next (ok.withRegs ok.setRegAfter.retire)

/-! Branches and jumps. -/

theorem State.memOk.transfer {op next} (ok : s.memOk) : (s.transfer op next).memOk := .ite ok.jump ok.raise
theorem State.memOk.branch {taken o} (ok : s.memOk) : (s.branch taken o).memOk := ok.transfer

/-! The channel instructions. -/

theorem State.memOk.onChan {op c role n k} (ok : s.memOk) (hk : k.memOk) : (s.onChan op c role n k).memOk := by
  unfold State.onChan
  split
  · exact ok.raise
  · exact hk
theorem State.memOk.refusal {op c k} (ok : s.memOk) (hk : k.memOk) : (s.refusal op c k).memOk := by
  unfold State.refusal
  split
  · exact ok.updChan.raise
  · exact hk
theorem State.memOk.withCredits {op c n} {k : State → State} (ok : s.memOk) (hk : ∀ s, s.memOk → (k s).memOk) : (s.withCredits op c n k).memOk :=
  ok.refusal (.ite ok.raise (.ite ok.raise (.ite ok.block (.ite ok.askCredit.block (hk _ ok.updChan)))))
theorem State.memOk.reserveReply {c m} (ok : s.memOk) : (s.reserveReply c m).memOk := .ite ok.updEp ok
theorem execCpush_memOk {d c m} (ok : s.memOk) : (execCpush d c m s).memOk :=
  .next (ok.withRegs (ok.onChan (.ite ok.raise (.ite ok.block (ok.withCredits fun _ ok => ok.reserveReply.holdBack.retire)))))
theorem State.memOk.takeSlots {c k} (ok : s.memOk) : (s.takeSlots c k).memOk := by
  unfold State.takeSlots
  split
  · exact ok.updMe
  · split
    · exact ok.consume
    · exact ok
theorem State.memOk.setCflags {eos cnt} (ok : s.memOk) : (s.setCflags eos cnt).memOk := ok.updMe
theorem State.memOk.popSlots {op c n} {k : State → List QSlot → State} (ok : s.memOk) (hk : ∀ s a, s.memOk → (k s a).memOk) :
    (s.popSlots op c n k).memOk :=
  .ite ok.block (.ite ok.raise (hk _ _ ok.takeSlots.setCflags))
theorem execCpeek_memOk {d c b} (ok : s.memOk) : (execCpeek d c b s).memOk :=
  .next (ok.withRegs (ok.onChan (.ite ok.block (.ite ok.raise (.ite ok.setReg.setCflags.retire ok.setReg.setCflags.retire)))))
theorem State.memOk.bindReader {h c id cap run once} (ok : s.memOk) : (s.bindReader h c id cap run once).memOk :=
  .foldl ok.updProc.updEp fun _ _ ok => ok.grantCredit
theorem State.memOk.bindWriter {h c d} (ok : s.memOk) : (s.bindWriter h c d).memOk := by
  unfold State.bindWriter
  refine .ite ?_ ?_
  · refine .block ?_
    split
    · exact ok.updProc.ctrlSend
    · exact ok.updProc.netSend
  · refine .retire ?_
    split
    · exact ok.updProc.ctrlSend
    · exact ok.updProc.netSend
theorem State.memOk.cbindPlain {c w at_} (ok : s.memOk) : (s.cbindPlain c w at_).memOk := by
  unfold State.cbindPlain
  refine .ite ok.raise (.ite ok.raise (.ite ok.raise (.ite ?_ (.ite ok.raise ok.bindWriter))))
  split
  · exact ok.raise
  · exact ok.bindReader.retire
theorem State.memOk.cbindMove {c w at_} (ok : s.memOk) : (s.cbindMove c w at_).memOk :=
  .ite ok.raise (.ite ok.raise (.ite ok.raise (.ite ok.raise (.ite ok.raise (.ite ok.raise (.ite ok.raise (.ite ok.raise (.block
    (.ite ok.fresh.moveStart (.ctrlSendMore (.update ok.fresh)))))))))))
theorem execCunbind_memOk {c} (ok : s.memOk) : (execCunbind c s).memOk := by
  unfold execCunbind
  exact .next (ok.afterCommit (fun _ ok => .ite ok.raise (.ite ok.raise (ok.refusal (by
      split
      · exact .ite ok.raise ok.freeEntry.updProc.retire
      · exact .ite ok.block ok.leaveReader.updProc.retire)))))
theorem State.memOk.pushEach {c} : ∀ {ms} {s : State}, s.memOk → (s.pushEach c ms).memOk
  | [], _, ok => ok.retire
  | _ :: _, _, ok => ok.withCredits fun _ ok => ok.holdBack.updMe.pushEach
theorem execVpush_memOk {d c m} (ok : s.memOk) : (execVpush d c m s).memOk :=
  .next (ok.vectorOp fun _ ok => ok.onChan (.ite ok.raise (.ite ok.retire (.ite (ok.withCredits fun _ ok => .retire (.foldl ok
    fun _ _ ok => ok.holdBack)) ok.pushEach))))

/-! Streams. -/

theorem State.memOk.portWait {d id} (ok : s.memOk) : (s.portWait d id).memOk := ok.countEvent.updMe
theorem State.memOk.bindStream {d a port g} {k : State → State} (ok : s.memOk) (hk : ∀ s, s.memOk → (k s).memOk) :
    (s.bindStream d a port g k).memOk := by
  unfold State.bindStream
  dsimp only
  refine .ite ok.raise ?_
  split
  · exact ok.raise
  · split
    · exact ok.raise
    · split
      · exact .retire (.holdBack (.update (.fresh (hk _ ok))))
      · exact .ite (.portWait (.handOver (.update (.release (.fresh (hk _ ok)))))) (.retire (.handOver (.update (.release (.fresh (hk _ ok))))))
theorem execSbar_memOk {p} (ok : s.memOk) : (execSbar p s).memOk := by
  unfold execSbar
  dsimp only
  exact .next (ok.afterCommit (fun _ ok => by
      split
      · exact ok.cbDrainAll.block
      · exact ok.cbDrainAll.retire))
theorem State.memOk.sectorPlaces {b side} (ok : s.memOk) : (s.sectorPlaces b side).1.memOk := by
  unfold State.sectorPlaces
  extract_lets a c perm init r
  have ok : r.1.memOk := .foldlPair ok fun st x ok => by
    dsimp only
    split <;> rename_i e <;> exact ok.placeOf.fst e
  clear_value r
  obtain ⟨u, ps, _ | c, pages⟩ := r <;> exact ok
theorem State.memOk.stopStream {id b side c pages} (ok : s.memOk) : (s.stopStream id b side c pages).memOk := .ite (.queueRecord ok) (.later ok)
theorem State.memOk.streamReq {id b space place off op} (ok : s.memOk) : (s.streamReq id b space place off op).1.memOk := ok.send
theorem State.memOk.streamWord {id b} (ok : s.memOk) : (s.streamWord id b).memOk := by
  unfold State.streamWord
  dsimp only
  split
  · exact ok
  · split
    · exact .ite (.update (.foldlPair ok fun _ _ ok => ok.streamReq)) (.ite (.later (.update ok.sramStore)) (.later ok))
    · exact .update (.foldlPair ok fun _ _ ok => ok.streamReq)
    · exact .update (.foldlPair ok fun _ _ ok => ok.streamReq)
theorem State.memOk.streamAnswer {req id off bs err} (ok : s.memOk) : (s.streamAnswer req id off bs err).memOk := by
  unfold State.streamAnswer
  split
  · exact ok
  · exact .ite (.later ok) (.ite (.ite (.later ok) (.later ok)) ok)
theorem execHeldBindingEnqueue_memOk {h port} (ok : s.memOk) : (execHeldBindingEnqueue h port s).memOk := by
  unfold execHeldBindingEnqueue
  refine .next ?_
  split
  · exact .ifThen ok.enqueueBind fun ok => ok.stepTrap
  · exact ok
theorem execStreamStart_memOk {tile port} (ok : s.memOk) : (execStreamStart tile port s).memOk := by
  unfold execStreamStart
  refine .next ?_
  split
  · exact .ite ok (.ite (.afterCycles ok) ok.afterCycles)
  · exact ok
theorem execStreamSector_memOk {tile port} (ok : s.memOk) : (execStreamSector tile port s).memOk := by
  unfold execStreamSector
  refine .next ?_
  split
  · refine .ite ok (.ite ok.afterCycles (.ite ok.streamWord (.ite (.ite (.afterCycles ok) (.afterCycles ok)) ?_)))
    refine .ite ?_ ?_
    · split
      · rename_i e
        exact (ok.sectorPlaces.fst e).stopStream
      · rename_i e
        exact (ok.sectorPlaces.fst e).streamWord
    · split
      · rename_i e
        exact (ok.sectorPlaces.fst e).stopStream
      · rename_i e
        exact (ok.sectorPlaces.fst e).streamWord
  · exact ok
theorem State.memOk.drainPage {b} (ok : s.memOk) : (s.drainPage b).memOk := .foldl ok fun _ _ ok => .foldl ok fun _ _ ok => ok.cbDrain
theorem State.memOk.noteMigrated {b} (ok : s.memOk) : (s.noteMigrated b).memOk := ok
theorem State.memOk.retranslate {b} (ok : s.memOk) : (s.retranslate b).memOk := by
  unfold State.retranslate
  dsimp only
  refine .foldl ok fun s x ok => ?_
  split
  · refine .ite ok (.ite ok ?_)
    split <;> rename_i e <;> exact .update (ok.xlate.fst e)
  · exact ok
theorem State.memOk.endMigration {b} (ok : s.memOk) : (s.endMigration b).memOk := by
  unfold State.endMigration
  split
  · exact ok
  · split
    · exact .update ok.hbmStore
    · refine .ite ?_ ?_
      · refine .update (.hbmStore (.update (.foldl ok fun s x ok => ?_)))
        split
        · exact ok.hbmStore
        · exact ok
      · refine .update (.foldl ok fun s x ok => ?_)
        split
        · exact ok.hbmStore
        · exact ok
theorem State.memOk.writeToken {id b token} (ok : s.memOk) : (s.writeToken id b token).memOk := by
  unfold State.writeToken
  refine .ite (.ite ok.wake ok) ?_
  split
  · exact .ite ok.deliver ok
  · exact .ite (.saveReg (.updProc (.ite ok.wake ok))) ok
theorem execStreamComplete_memOk {tile port} (ok : s.memOk) : (execStreamComplete tile port s).memOk := by
  unfold execStreamComplete
  refine .next ?_
  split
  · exact .ite ok (.foldl (.ifElse (.finish (.writeToken (.updTile (.update (.ite ok.drainPage.endMigration.retranslate.noteMigrated ok)))))
      fun ok => ok.afterCycles) fun _ _ ok => ok.afterCycles)
  · exact ok

/-! Capabilities. -/

theorem State.memOk.setCap {k c} (ok : s.memOk) : (s.setCap k c).memOk := ok.updMe
theorem execKld_memOk {d a} (ok : s.memOk) : (execKld d a s).memOk := by
  unfold execKld
  dsimp only
  exact .next (ok.withRegsCommit (fun _ ok => by
      split
      · rename_i e
        exact (ok.placeMt.fst e).raise
      · rename_i e
        exact (ok.placeMt.fst e).setCap.retire
      · rename_i e
        exact (ok.placeMt.fst e).cbDrainTouched.send.issueHeld))
theorem execKst_memOk {d a} (ok : s.memOk) : (execKst d a s).memOk := by
  unfold execKst
  dsimp only
  exact .next (ok.withRegs (by
      split
      · rename_i e
        exact (ok.placeMt.fst e).raise
      · rename_i e
        exact .ite (ok.placeMt.fst e).raise (ok.placeMt.fst e).bufferStore))
theorem execKsend_memOk {d c} (ok : s.memOk) : (execKsend d c s).memOk := by
  unfold execKsend
  exact .next (ok.onChan (ok.refusal (by
      refine .ite ok.raise ?_
      split
      · exact ok.block
      · exact ok.withCredits fun _ ok => ok.holdBack.retire)))

/-! Tile registers and the matrix unit. -/

theorem State.memOk.tregWrite {t kvs} (ok : s.memOk) : (s.tregWrite t kvs).memOk := ok.updTile
theorem State.memOk.telemWrite {t n r c w v} (ok : s.memOk) : (s.telemWrite t n r c w v).memOk := ok.tregWrite
theorem State.memOk.touchTiles {op vec} {k : State → State} (ok : s.memOk) (hk : ∀ s, s.memOk → (k s).memOk) : (s.touchTiles op vec k).memOk := by
  unfold State.touchTiles
  dsimp only
  split
  · exact ok.raise
  · split
    · exact ok.raise
    · exact .ifThen (hk _ (.ifThen ok.takeUnits fun ok => ok.takeUnits)) fun ok => ok.updTile
theorem State.memOk.matrixOp {rs vecs ms vec} {k : State → State} (ok : s.memOk) (hk : ∀ s, s.memOk → (k s).memOk) :
    (s.matrixOp rs vecs ms vec k).memOk :=
  ok.afterGrant (ok.afterFills (ok.afterCommit fun _ ok => ok.withRegs (ok.touchTiles hk)))
theorem State.memOk.released {k : State → State} (ok : s.memOk) (hk : ∀ s, s.memOk → (k s).memOk) : (s.released k).memOk :=
  .ite (hk _ ok.release) ok.release.holdOn
theorem State.memOk.command {n} (ok : s.memOk) : (s.command n).memOk := ok.updMe.retire
theorem State.memOk.badShape (ok : s.memOk) : s.badShape.memOk := ok.raise
theorem State.memOk.runGroup {h r} (ok : s.memOk) : (s.runGroup h r).1.memOk := .updProc (.foldl ok fun _ _ ok => ok.telemWrite)
theorem State.memOk.stepMatrix {h} (ok : s.memOk) : (s.stepMatrix h).memOk := by
  unfold State.stepMatrix
  dsimp only
  split
  · exact ok
  · exact .ite ok.runGroup.updProc.afterCycles ok.runGroup.updProc.finishHeld
theorem State.memOk.stopMatrix {h} (ok : s.memOk) : (s.stopMatrix h).memOk := by
  unfold State.stopMatrix
  split
  · exact ok
  · exact ok.runGroup.cancel.updProc
theorem State.memOk.runMatrix {r} (ok : s.memOk) : (s.runMatrix r).memOk :=
  ok.released fun _ ok => .ite ok.updMe.command ok.updMe.issueHeld.afterCycles
theorem execMma_memOk {d a b} (ok : s.memOk) : (execMma d a b s).memOk := by
  unfold execMma
  dsimp only
  exact .next (ok.matrixOp (fun _ ok => by
      split
      · exact ok.badShape
      · exact .ite ok.badShape ok.runMatrix))
theorem execMmas_memOk {d a b va vb} (ok : s.memOk) : (execMmas d a b va vb s).memOk := by
  unfold execMmas
  dsimp only
  exact .next (ok.matrixOp (fun _ ok => by
      split
      · exact ok.badShape
      · exact .ite ok.badShape ok.runMatrix))
theorem execMmasp_memOk {d a b c} (ok : s.memOk) : (execMmasp d a b c s).memOk := by
  unfold execMmasp
  dsimp only
  exact .next (ok.matrixOp (fun _ ok => by
      split
      · exact ok.badShape
      · exact .ite ok.badShape ok.runMatrix))
theorem execMopa_memOk {d va vb} (ok : s.memOk) : (execMopa d va vb s).memOk :=
  .next (ok.matrixOp fun _ ok => .ite ok.badShape (ok.released fun _ ok => .command (.raiseFlags (.foldl ok fun _ _ ok => ok.telemWrite))))
theorem execTmvv_memOk {d a b} (ok : s.memOk) : (execTmvv d a b s).memOk := by
  unfold execTmvv
  exact .next (ok.withRegs (ok.matrixOp (fun _ ok => by
      refine .ite ok.badShape ?_
      split
      · exact ok.raise
      · exact ok.released fun _ ok => ok.putElems.command)))
theorem execTmvt_memOk {d a b} (ok : s.memOk) : (execTmvt d a b s).memOk := by
  unfold execTmvt
  exact .next (ok.withRegs (ok.matrixOp (fun _ ok => by
      refine .ite ok.badShape ?_
      split
      · exact ok.raise
      · exact ok.released fun _ ok => .command (.foldl ok fun _ _ ok => ok.telemWrite))))
theorem State.memOk.bulkCheck {rows u al late p} (ok : s.memOk) : (s.bulkCheck rows u al late p).1.memOk := by
  refine .foldlPair ok fun st e ok => .foldlPair ok fun st i ok => ?_
  dsimp only
  split
  · rename_i e
    exact ok.placeMt.fst e
  · rename_i e
    have ok := ok.placeMt.fst e
    refine .iteFst ok (.foldlPair ok fun st j ok => ?_)
    split <;> rename_i e <;> exact ok.placeMt.fst e
theorem State.memOk.bulkWrite {t b} (ok : s.memOk) : (s.bulkWrite t b).memOk := by
  unfold State.bulkWrite
  split
  · exact ok.updTile
  · exact .ite ok.tregWrite ok.tregWrite
theorem State.memOk.bulkLoad {op ps td cycles left stride} (ok : s.memOk) : (s.bulkLoad op ps td cycles left stride).memOk := by
  unfold State.bulkLoad
  extract_lets h typ base g
  split
  rename_i s' got asks waits e
  have ok : s'.memOk := .of_fst e (.foldlPair ok fun st x ok => by
    dsimp only
    split
    · rename_i e
      exact ok.placeMt.fst e
    · rename_i e
      have ok := ok.placeMt.fst e
      split <;> rename_i e <;> exact ok.lookLocal.fst e)
  refine .ite ok.holdOn (.ite ok.bulkWrite.updMe.retire ?_)
  split
  rename_i e
  exact .issueHeld (.updMe (.of_fst e (.foldlPair ok fun _ _ ok => ok.send)))
theorem execCbtld_memOk {a} (ok : s.memOk) : (execCbtld a s).memOk := by
  unfold execCbtld
  exact .next (ok.withRegsCommit (fun _ ok => ok.touchTiles (fun _ ok => by
      split
      · rename_i e
        exact (ok.bulkCheck.fst e).raise
      · rename_i e
        exact (ok.bulkCheck.fst e).released fun _ ok => ok.bulkLoad)))
theorem State.memOk.tileAccess {t a p} {k : State → List BRow → State} (ok : s.memOk) (hk : ∀ s a, s.memOk → (k s a).memOk) :
    (s.tileAccess t a p k).memOk := by
  unfold State.tileAccess
  refine .ite ok.raise (.ite ok.raise ?_)
  split
  · rename_i e
    exact (ok.bulkCheck.fst e).raise
  · rename_i e
    exact hk _ _ (ok.bulkCheck.fst e)
theorem execTst_memOk {d a} (ok : s.memOk) : (execTst d a s).memOk := by
  unfold execTst
  dsimp only
  exact .next (ok.withRegs (ok.matrixOp (fun _ ok => .ite ok.badShape (ok.tileAccess (fun _ _ ok => by
      refine .command (.foldl ok fun s x ok => (.foldl ok fun s x ok => ?_))
      split
      · rename_i e
        exact ok.placeMt.fst e
      · rename_i e
        exact (ok.placeMt.fst e).storeOne)))))

/-! Vector loads and stores. -/

theorem State.memOk.vPlaces {f store accs} {k : State → List (VAcc × Place) → State} (ok : s.memOk) (hk : ∀ s a, s.memOk → (k s a).memOk) :
    (s.vPlaces f store accs k).memOk := by
  unfold State.vPlaces
  cases accs with
  | nil => exact hk _ _ ok
  | cons first rest =>
    refine .ite ok.raise ?_
    extract_lets init r
    have ok : r.1.memOk := .foldlPair ok fun st x ok => by
      dsimp only
      split <;> rename_i e <;> exact ok.placeMt.fst e
    clear_value r
    obtain ⟨u, ps, _ | bad⟩ := r
    · exact hk _ _ ok
    · exact State.memOk.raise ok
theorem State.memOk.flagsOf {h f} (ok : s.memOk) : (s.flagsOf h f).memOk := ok.updProc
theorem State.memOk.fillElem {h vd vt seg i sel act bs} (ok : s.memOk) : (s.fillElem h vd vt seg i sel act bs).memOk :=
  .ite ok.putElemsAt.flagsOf ok.putElemsAt
theorem State.memOk.vloadFrom {d f ps} (ok : s.memOk) : (s.vloadFrom d f ps).memOk := by
  unfold State.vloadFrom
  extract_lets h v typ seg init
  split
  rename_i s' vals asks waits e
  have ok : s'.memOk := .of_fst e (.foldlPair ok fun st x ok => by
    dsimp only
    split <;> rename_i e <;> exact ok.lookLocal.fst e)
  refine .ite ok.holdOn ?_
  extract_lets own opened filled grp
  have ok : filled.memOk := .foldl (.ifThen ok fun ok => ok.openStrip.updMe) fun _ _ ok => ok.fillElem
  split
  rename_i u ids e
  have ok : u.memOk := .of_fst e (.foldlPair ok fun st g ok => by
    dsimp only
    split
    · exact ok
    · exact ok.send)
  exact .ite ok.retire (.ite ok.noteLoads.updMe.issueHeld ok.noteLoads.updMe.retire)
theorem State.memOk.vload {d a f rs} (ok : s.memOk) : (s.vload d a f rs).memOk :=
  ok.withRegs (ok.vectorOp fun _ ok => .ite ok.retire (.ite (ok.afterCommit fun _ ok => ok.withRegs (ok.vPlaces fun _ _ ok => ok.vloadFrom))
    (ok.vPlaces fun _ _ ok => ok.vloadFrom)))
theorem State.memOk.vstore {d a f rs} (ok : s.memOk) : (s.vstore d a f rs).memOk :=
  ok.withRegs (ok.vectorOp fun _ ok => .ite ok.retire (ok.vPlaces fun _ _ ok => ok.raiseFlags.bufferStore))

/-! The steps of the memory system. -/

theorem State.memOk.poisonLeaf {part pteAt} (ok : s.memOk) : (s.poisonLeaf part pteAt).memOk := by
  unfold State.poisonLeaf
  split
  · exact ok
  · exact .update ok.hbmStore
theorem State.memOk.poisonVa {part va} (ok : s.memOk) : (s.poisonVa part va).memOk := by
  unfold State.poisonVa
  split
  · exact ok.poisonLeaf
  · exact ok
theorem State.memOk.poisonPhys {part phys} (ok : s.memOk) : (s.poisonPhys part phys).memOk := .foldl ok fun _ _ ok => ok.poisonLeaf
theorem State.memOk.poisonLines {part key n} (ok : s.memOk) : (s.poisonLines part key n).memOk := .foldl ok fun _ _ ok => .ite ok.poisonPhys ok
theorem State.memOk.answer {id data err c} (ok : s.memOk) : (s.answer id data err c).memOk := by
  unfold State.answer
  split
  · exact ok
  · exact .laterBehind ok
theorem State.memOk.perform {id} (ok : s.memOk) : (s.perform id).memOk := by
  unfold State.perform
  split
  · exact ok
  · refine .ite ok (.ite ok.answer ?_)
    split
    · exact ok
    · refine .ite ok.answer ?_
      split
      · exact ok.answer
      · exact ok.answer
      · exact ok.sramStore.answer
      · exact ok.capToSram.answer
      · exact ok.sramStore.answer
    · refine .ite ok.answer (.ite (.answer (.ite ok (.ite ok.poisonPhys ok.poisonVa))) ?_)
      split
      · exact ok.answer
      · exact ok.answer
      · exact ok.hbmStore.answer
      · exact ok.capToHbm.answer
      · exact ok.hbmStore.answer
theorem State.memOk.raiseReply {r c vec} (ok : s.memOk) : (s.raiseReply r c vec).memOk := .raiseAt (.updProc ok)
theorem State.memOk.deferredPark {r d c} (ok : s.memOk) : (s.deferredPark r d c).memOk := ok.unpend.park
theorem State.memOk.dropRecord {r c} (ok : s.memOk) : (s.dropRecord r c).memOk := by
  unfold State.dropRecord
  dsimp only
  split
  · exact ok.updTile
  · exact ok.queueRecord
theorem State.memOk.endOwnLoad {h} (ok : s.memOk) : (s.endOwnLoad h).memOk := by
  unfold State.endOwnLoad
  split
  · exact .ite ok.commit.finishHeld ok
  · exact ok
theorem State.memOk.endBulk {h op} (ok : s.memOk) : (s.endBulk h op).memOk := by
  unfold State.endBulk
  dsimp only
  split
  · exact .ite ok.bulkWrite.updProc.finishHeld ok
  · exact ok
theorem State.memOk.vectorFault {id r} (ok : s.memOk) : (s.vectorFault id r).memOk :=
  .ite (.afterCycles (.unsend ok)) (.raiseAt (.updProc (.update (.finish ok))))
theorem State.memOk.reply {id} (ok : s.memOk) : (s.reply id).memOk := by
  unfold State.reply
  split
  · exact ok
  · refine .ite (.finish ok) ?_
    split
    · exact .finish (.streamAnswer ok)
    · exact .finish ok
    · exact .finish (.dropRecord ok)
    · exact .finish (.ite ok (.deliver ok))
    · exact .endOwnLoad (.finish (.fillElem ok))
    · exact .endOwnLoad (.finish (.fillElem ok))
    · exact .endOwnLoad (.finish (.foldl ok fun _ _ ok => ok.fillElem))
    · exact .endBulk (.finish (.updProc ok))
    · exact .finishHeld (.updProc (.finish ok))
    · refine .ite (.finish ok) (.ite ok.unsend.afterCycles ?_)
      split
      · exact .ite (.raiseReply (.finish ok)) (.ite (.deferredPark (.finish ok)) ok.unsend.afterCycles)
      · exact ok.vectorFault
      · exact ok.vectorFault
      · exact ok.vectorFault
      · exact ok.vectorFault
      · exact .raiseReply (.finish ok)
theorem execCbIdleDrain_memOk {tile entry} (ok : s.memOk) : (execCbIdleDrain tile entry s).memOk := by
  unfold execCbIdleDrain
  refine .next ?_
  split
  · exact .ite ok.cbDrain ok
  · exact ok
theorem State.memOk.serveRequest {v kind ms} (ok : s.memOk) : (s.serveRequest v kind ms).memOk :=
  .netSend (.addFree (.updEp (.consume (.ifThen (.ite ok.hbmStore ok) fun ok => ok.poisonLines))))
theorem State.memOk.serverStepAt {v wid kind i} (ok : s.memOk) : (s.serverStepAt v wid kind i).memOk := by
  unfold State.serverStepAt
  split
  · exact ok
  · exact .ite ok.serveRequest (.ite ok.afterCycles ok)
theorem State.memOk.writePlace {part p bs} (ok : s.memOk) : (s.writePlace part p bs).memOk := by
  unfold State.writePlace
  split
  · exact ok.sramStore
  · exact ok.hbmStore
  · exact ok
theorem State.memOk.remoteAnswer {part x err data} (ok : s.memOk) : (s.remoteAnswer part x err data).memOk := ok.linkSend
theorem State.memOk.holdHome {part home i} (ok : s.memOk) : (s.holdHome part home i).memOk := .foldl (.afterCycles ok) fun _ _ ok => ok
theorem State.memOk.remoteServe {part ms} (ok : s.memOk) : (s.remoteServe part ms).memOk := by
  unfold State.remoteServe
  dsimp only
  split
  · refine .remoteAnswer ?_
    split
    · exact .ite ok.poisonPhys ok
    · exact ok
  · refine .ite ok.holdHome (.ite ok.poisonVa.remoteAnswer ?_)
    split
    · exact ok.remoteAnswer
    · exact ok.writePlace.remoteAnswer
    · exact ok.writePlace.remoteAnswer
theorem execRemoteReply_memOk {part slots} (ok : s.memOk) : (execRemoteReply part slots s).memOk := by
  unfold execRemoteReply
  dsimp only
  refine .next ?_
  split
  · exact ok
  · split
    · exact ok
    · exact .reply ok

/-! The steps of the channel protocol. -/

theorem State.memOk.netTake {w f m} (ok : s.memOk) (e : s.netTake w f = some (m, t)) : t.memOk := by
  unfold State.netTake at e
  obtain ⟨r, -, e⟩ := Option.map_eq_some_iff.1 e
  cases e
  exact ok
theorem State.memOk.refuseWriter {h c} (ok : s.memOk) : (s.refuseWriter h c).memOk := .ifThen ok.updProc fun ok => ok.raiseAt
theorem State.memOk.bindDone {h c} (ok : s.memOk) : (s.bindDone h c).memOk := .ifThen ok.updChan fun ok => ok.completeAt
theorem State.memOk.recordWriter {rid w} (ok : s.memOk) : (s.recordWriter rid w).memOk :=
  .serveAll (.ifThen (.ifThen ok.updEp fun ok => ok.grantCredit) fun ok => ok.ctrlSend)
theorem execWriterRegistration_memOk {wid} (ok : s.memOk) : (execWriterRegistration wid s).memOk := by
  unfold execWriterRegistration
  refine .next ?_
  split
  · exact ok
  · rename_i e
    split
    · exact ok.netTake e
    · exact .ite (.ifElse (.ifElse (ok.netTake e) fun ok => ok.updEp) fun ok => .ite ok.refuseWriter ok.recordWriter.bindDone) (.ite (.ctrlSend
        (.ifElse (ok.netTake e) fun ok => ok.updEp)) (.recordWriter (.ifElse (ok.netTake e) fun ok => ok.updEp)))
theorem execShortfallRequest_memOk {wid} (ok : s.memOk) : (execShortfallRequest wid s).memOk := by
  unfold execShortfallRequest
  refine .next ?_
  split
  · exact ok
  · rename_i e
    split
    · exact .ifThen (ok.netTake e) fun ok => ok.updEp.serveAll
    · exact ok.netTake e
theorem execCreditRecall_memOk {wid} (ok : s.memOk) : (execCreditRecall wid s).memOk := by
  unfold execCreditRecall
  dsimp only
  refine .next ?_
  split
  · exact ok
  · rename_i e
    split
    · exact .ctrlSend (.ite (.ifThen ((ok.netTake e).updChan) fun ok => ok.adjustAsk) (.ifElse (ok.netTake e) fun ok => ok))
    · split
      · exact .addFree (.updEp (.ite (.ifThen ((ok.netTake e).updChan) fun ok => ok.adjustAsk) (.ifElse (ok.netTake e) fun ok => ok)))
      · exact .ite (.ifThen ((ok.netTake e).updChan) fun ok => ok.adjustAsk) (.ifElse (ok.netTake e) fun ok => ok)
theorem execCreditReturn_memOk {wid} (ok : s.memOk) : (execCreditReturn wid s).memOk := by
  unfold execCreditReturn
  refine .next ?_
  split
  · exact ok
  · rename_i e
    split
    · exact (ok.netTake e).gainCredit
    · exact ok.netTake e
theorem State.memOk.checkOutput {n wid part net m} (ok : s.memOk) : (s.checkOutput n wid part net m).memOk :=
  .ifThen (.ifThen (.ite ok ok.updNet) fun ok => .ite ok.failRun ok.updNet.updPart) fun ok => ok.giveBack
theorem State.memOk.reachEngine {m x} (ok : s.memOk) : (s.reachEngine m x).memOk := by
  unfold State.reachEngine
  split
  · exact ok.toPeer
  · exact ok
theorem State.memOk.answerProbes {rid} (ok : s.memOk) : (s.answerProbes rid).memOk := .foldl ok.updEp fun _ _ ok => .ite ok.ctrlSend ok.afterCycles
theorem State.memOk.askCame {rid wid n mv} (ok : s.memOk) : (s.askCame rid wid n mv).memOk := ok.updEp.answerProbes
theorem State.memOk.noteCame {rid wid} (ok : s.memOk) : (s.noteCame rid wid).memOk := .ite ok.updEp.answerProbes ok
theorem execChannelMessageArrive_memOk {wid} (ok : s.memOk) : (execChannelMessageArrive wid s).memOk := by
  unfold execChannelMessageArrive
  dsimp only
  refine .next ?_
  split
  · exact ok
  · rename_i e
    refine .ite ok.afterCycles (.ite ok.afterDraw.afterCycles ?_)
    split
    · exact .reachEngine (.noteCame (.ifElse (ok.netTake e) fun ok => ok.afterDraw))
    · refine .ite (.ifThen (.noteCame (.ifElse (ok.netTake e) fun ok => ok.afterDraw)) fun ok => ok.addFree) ?_
      split
      · exact .ite (.checkOutput (.noteCame (.ifElse (ok.netTake e) fun ok => ok.afterDraw))) (.arrive (.noteCame (.ifElse (ok.netTake e)
          fun ok => ok.afterDraw)))
      · exact .arrive (.noteCame (.ifElse (ok.netTake e) fun ok => ok.afterDraw))
    · exact .noteCame (.ifElse (ok.netTake e) fun ok => ok.afterDraw)
theorem State.memOk.freezeWriter {w} (ok : s.memOk) : (s.freezeWriter w).memOk := .ite ok.updChan ok
theorem State.memOk.thawWriter {w d} (ok : s.memOk) : (s.thawWriter w d).memOk := by
  unfold State.thawWriter
  refine .ite (.ifThen ok.updChan fun ok => ok.wake) ?_
  split <;> exact ok
theorem State.memOk.moveDone {mv m} (ok : s.memOk) : (s.moveDone mv m).memOk := .ite (.completeAt ok) ok
theorem State.memOk.mapStrips {f} (ok : s.memOk) : (s.mapStrips f).memOk := ok
theorem State.memOk.readdress {old new} (ok : s.memOk) : (s.readdress old new).memOk := ok
theorem State.memOk.moveReader {m} (ok : s.memOk) : (s.moveReader m).memOk := by
  unfold State.moveReader
  dsimp only
  split
  · exact ok
  · split
    · exact ok
    · exact .injectAll (.foldl (.foldl (.updChan (.updChan (.mapStrips (.updProc (.update ok.leaveRun.readdress))))) fun _ _ ok =>
        .ite ok.ctrlSend ok.thawWriter) fun _ _ ok => ok.grantCredit)
theorem State.memOk.moveAway {m} (ok : s.memOk) : (s.moveAway m).memOk := by
  unfold State.moveAway
  refine .updChan ?_
  split
  · refine .update ?_
    split
    · exact .updPart (.foldl ok.leaveRun.updProc.mapStrips.ctrlSendMore fun _ _ ok => ok.ctrlSendMore)
    · exact .foldl ok.leaveRun.updProc.mapStrips.ctrlSendMore fun _ _ ok => ok.ctrlSendMore
  · exact ok.ctrlSendMore.renameWid
  · exact ok.flushPeer.ctrlSendMore.ctrlSendMore
  · exact ok
theorem State.memOk.roomForEnd {part src w mv bcap reader} (ok : s.memOk) : (s.roomForEnd part src w mv bcap reader).memOk :=
  .ite ok.ctrlSend (.ctrlSend (.ite ok.updEp.updChan ok.updChan))
theorem State.memOk.moveInEnd {part w e k more extra} (ok : s.memOk) : (s.moveInEnd part w e k more extra).memOk := by
  unfold State.moveInEnd
  refine .ite (.ite ok.updChan.leaveReader.updProc (.ifThen ok.updChan fun ok => ok.wake)) ?_
  split
  · exact .injectAll (.foldl (.foldl ok.updEp.updPart fun _ _ ok => .ite ok.ctrlSend ok.thawWriter) fun _ _ ok => ok.grantCredit)
  · exact .foldl ok fun _ _ ok => .ite ok.ctrlSend ok.thawWriter.dropWriters
theorem State.memOk.moveInSlot {w more extra} (ok : s.memOk) : (s.moveInSlot w more extra).memOk := by
  unfold State.moveInSlot
  split
  · exact ok
  · exact .ite ok.endKeptAt.wakeReader ok.updEp.wakeReader
theorem State.memOk.moveEnd {mv m} (ok : s.memOk) : (s.moveEnd mv m).memOk :=
  .ite (.ite ok.moveReader.moveDone (.ite ok.afterCycles (.ite (.update ok.moveAway) ok.moveAway.moveDone))) (.ite ok.askArrived.afterCycles
    (.ite ok.moveWriter.moveDone ok.moveAway.moveDone))
theorem State.memOk.moveAnswered {mv room} (ok : s.memOk) : (s.moveAnswered mv room).memOk := by
  unfold State.moveAnswered
  split
  · exact ok
  · exact .ite ok.moveStart (.ite (.raiseAt ok) ok)
theorem execRetargetNotice_memOk {mv wid} (ok : s.memOk) : (execRetargetNotice mv wid s).memOk := by
  unfold execRetargetNotice
  refine .next ?_
  split
  · exact ok
  · exact .ite ok.ctrlSend (.ite ok.freezeWriter.afterCycles ok.freezeWriter.later)
theorem execRetargetAck_memOk {mv wid} (ok : s.memOk) : (execRetargetAck mv wid s).memOk := by
  unfold execRetargetAck
  refine .next ?_
  split
  · exact ok
  · exact .ite ok.afterCycles (.ite (.moveEnd ok) ok)
theorem State.memOk.backToStage {h c part p} (ok : s.memOk) : (s.backToStage h c part p).memOk := .ite ok (.update ok.updLink)
theorem execRelayRefusal_memOk {wid} (ok : s.memOk) : (execRelayRefusal wid s).memOk := by
  unfold execRelayRefusal
  dsimp only
  refine .next (.ite ?_ ?_)
  · split
    · exact .reply ok
    · exact ok
  · split
    · exact .ifThen ok.updChan.backToStage.ctrlSend fun ok => ok.wake
    · exact ok
theorem State.memOk.formArrive {part src w e n form extra} (ok : s.memOk) : (s.formArrive part src w e n form extra).memOk := by
  unfold State.formArrive
  split
  · exact ok.renameWid
  · exact ok.roomForEnd
  · exact ok.roomForEnd
  · exact ok.moveAnswered
  · exact ok.moveAnswered
  · exact ok.askCame
  · exact .ite (.ifThen ok.updChan.pumpAll fun ok => ok.wake) ok
  · exact ok.noteCame
  · exact ok
theorem State.memOk.ctrlArrive {part via slots} (ok : s.memOk) : (s.ctrlArrive part via slots).memOk := by
  unfold State.ctrlArrive
  refine .ite ok ?_
  split
  · exact ok.netSendOn
  · exact ok.netSendOn
  · exact ok.netSendOn
  · exact .ite ok.updEp.addFree ok
  · exact ok.netSendOn
  · exact .ite ok.updEp.addFree ok
  · exact .ite (.ifThen ok.updChan fun ok => ok.raiseAt) ok
  · exact .ite ok.refuseWriter ok
  · exact .ite ok.freezeWriter.flushPeer.ctrlSendMore ok
  · exact .ite ok.bindDone ok
  · exact ok.formArrive
  · exact ok.moveInEnd
  · exact ok.moveInSlot
  · exact ok.askCame
  · exact .ite ok.thawWriter.injectAll (.injectAll (.foldl ok.thawWriter fun _ _ ok => .ite ok.moveDone ok))
  · exact ok

/-! Monitors, the detector and fault records. -/

theorem State.memOk.errorRecord {unit part tile index lasting addr} (ok : s.memOk) : (s.errorRecord unit part tile index lasting addr).memOk :=
  ok.toHost
theorem State.memOk.updMon {t w f} (ok : s.memOk) : (s.updMon t w f).memOk := ok.updTile
theorem State.memOk.monPush {t w} (ok : s.memOk) : (s.monPush t w).memOk := by
  unfold State.monPush
  split
  · exact ok
  · split
    · exact ok
    · exact .ite ok (.ite ok.askCredit (.injectAll (.update ok.updChan.updMon)))
theorem State.memOk.monFire {t w v} (ok : s.memOk) : (s.monFire t w v).memOk := ok.updMon.monPush
theorem execMonitorFire_memOk {tile wid} (ok : s.memOk) : (execMonitorFire tile wid s).memOk := by
  unfold execMonitorFire
  refine .next ?_
  split
  · exact ok.monFire
  · exact ok
theorem State.memOk.evalLevel {t sel v} (ok : s.memOk) : (s.evalLevel t sel v).memOk :=
  .foldl ok fun _ _ ok => .ite ok (.ite ok.updMon.afterCycles (.ite ok.updMon ok))
theorem State.memOk.evalLevels {tile power hotSpot modulePower} (ok : s.memOk) : (s.evalLevels tile power hotSpot modulePower).memOk :=
  ok.evalLevel.evalLevel.evalLevel
theorem execMonbind_memOk {n a b} (ok : s.memOk) : (execMonbind n a b s).memOk :=
  .next (ok.withRegsCommit fun _ ok => .ite ok.raise (.ite ok.raise (.ite ok.raise (.ite ok.retire.plainChan ok.retire.updTile.updChan))))
theorem State.memOk.reportDeadlock {part h detail aux} (ok : s.memOk) : (s.reportDeadlock part h detail aux).memOk := ok.updPart.queueRecord.failRun
theorem State.memOk.growOrReport {part} (ok : s.memOk) : (s.growOrReport part).memOk := by
  unfold State.growOrReport
  dsimp only
  split
  · exact ok.reportDeadlock
  · exact .ite ok.reportDeadlock ok.updPart.updEp.addFree
theorem execFaultRecordPush_memOk {tile} (ok : s.memOk) : (execFaultRecordPush tile s).memOk := by
  unfold execFaultRecordPush
  refine .next ?_
  split
  · exact ok
  · exact .ite ok.afterCycles (.ite (.ite ok.afterCycles (.ifElse (.later (.update ok.updTile)) fun ok => ok.afterCycles)) (.ite ok.afterCycles
      (.ifElse ok.updTile.updEp.netSend fun ok => ok.afterCycles)))
theorem execFirmwareFaultForward_memOk (ok : s.memOk) : (execFirmwareFaultForward s).memOk := by
  unfold execFirmwareFaultForward
  refine .next ?_
  split
  · exact ok
  · exact .toHost ok
theorem State.memOk.giveUp {h} (ok : s.memOk) : (s.giveUp h).memOk := .dropHeld (.ifThen ok.stopMatrix fun ok => ok.restart)
theorem State.memOk.debugHalt {h} (ok : s.memOk) : (s.debugHalt h).memOk := .ite ok.giveUp.updProc ok
theorem State.memOk.lateHalt {h} (ok : s.memOk) : (s.lateHalt h).memOk := .ite ok ok.updProc.debugHalt

/-! Host attachment. -/

theorem State.memOk.updHep {n f} (ok : s.memOk) : (s.updHep n f).memOk := ok
theorem State.memOk.hostRecord {n event qpn} (ok : s.memOk) : (s.hostRecord n event qpn).memOk := ok.toHost
theorem State.memOk.launchPush {part slots} (ok : s.memOk) : (s.launchPush part slots).memOk :=
  .ite ok.updHep.afterCycles.updPart.later ok.updHep.afterCycles.updPart
theorem State.memOk.replayInputs {part net} : ∀ {n} {s : State}, s.memOk → (s.replayInputs part net n).memOk
  | 0, _, ok => ok
  | n + 1, s, ok => by
    unfold State.replayInputs
    split
    · exact ok
    · split
      · exact ok
      · exact .ite ok ok.updHep.updNet.updPart.netSend.replayInputs
theorem State.memOk.recordInput {hep part net m} (ok : s.memOk) : (s.recordInput hep part net m).memOk := .ite ok.failRun ok.updNet.updPart
theorem execHostPush_memOk {hep qpn rkey off len slots} (ok : s.memOk) : (execHostPush hep qpn rkey off len slots s).memOk := by
  unfold execHostPush
  dsimp only
  refine .next ?_
  split
  · exact ok.hostRecord
  · exact .ite ok.hostRecord (.ite ok.hostRecord (.ite ok.launchPush (.netSend (.ifThen ok.updHep fun ok => ok.recordInput))))
theorem execHostCreditRead_memOk {hep qpn rkey} (ok : s.memOk) : (execHostCreditRead hep qpn rkey s).memOk := by
  unfold execHostCreditRead
  dsimp only
  refine .next ?_
  split
  · exact ok.hostRecord
  · exact ok.emit
theorem execD2hDeliver_memOk {hep} (ok : s.memOk) : (execD2hDeliver hep s).memOk :=
  .next (.ite ok (.ifElse (.updHep (.emit (.ifElse ok.updEp fun ok => .foldl ok fun _ _ ok => ok.emit))) fun ok => ok.afterCycles))
theorem execHostCreditReturn_memOk {hep qpn rkey count} (ok : s.memOk) : (execHostCreditReturn hep qpn rkey count s).memOk := by
  unfold execHostCreditReturn
  dsimp only
  refine .next ?_
  split
  · exact ok.hostRecord
  · exact .ite ok.hostRecord (.ifElse (.foldl ok.updHep fun _ _ ok => .ite ok ok.giveBack) fun ok => ok.afterCycles)

/-! Process control. -/

theorem State.memOk.create {part tile p} (ok : s.memOk) : (s.create part tile p).1.memOk := ok.updTile.setProc
theorem State.memOk.noteExit {h} (ok : s.memOk) : (s.noteExit h).memOk := .update (.ifThen ok.updPart fun ok => ok.later)
theorem State.memOk.blockKey {h perm} (ok : s.memOk) : (s.blockKey h perm).1.memOk := by
  unfold State.blockKey
  dsimp only
  split <;> rename_i e <;> exact ok.xlate.fst e
theorem State.memOk.writeBlock {h k} (ok : s.memOk) : (s.writeBlock h k).memOk := by
  unfold State.writeBlock
  exact .updProc (.foldl ok fun _ _ ok => ok.hbmStore)
theorem State.memOk.bornBlock {h} (ok : s.memOk) : (s.bornBlock h).memOk := by
  unfold State.bornBlock
  refine .ite ok ?_
  split
  · rename_i e
    exact (ok.blockKey.fst e).writeBlock
  · rename_i e
    exact ok.blockKey.fst e
theorem execSpawn_memOk {d a} (ok : s.memOk) : (execSpawn d a s).memOk := by
  unfold execSpawn
  exact .next (ok.withRegsCommit (fun _ ok => by
      refine .ite ok.raise ?_
      split
      · exact ok.raise
      · refine .ite ok.raise (.ite ok.raise (.ite ok.raise ?_))
        split
        · exact ok.askArrived.block
        · refine .retire (.afterCycles (.setReg (.bornBlock ?_)))
          refine .foldl (.foldl ok.release.create fun _ _ ok => ok.plainChan) fun s x ok => ?_
          split
          · exact ok.moveWriter
          · exact ok.updChan.updChan.updEp))
theorem execExit_memOk (ok : s.memOk) : (execExit s).memOk := by
  unfold execExit
  dsimp only
  exact .next (ok.afterCommit (fun _ ok => by
      split
      · exact .block (.updAn (.foldl ok.release fun _ _ ok => ok.tapEnd))
      · split
        · exact .block (.updAn (.foldl ok.release fun _ _ ok => ok.tapEnd))
        · exact .block (.updAn (.foldl ok.release fun _ _ ok => ok.tapEnd))
        · exact .ite (.holdOn (.updAn (.foldl ok.release fun _ _ ok => ok.tapEnd))) (.noteExit (.finishProcess (.countEvent (.updAn
            (.foldl ok.release fun _ _ ok => ok.tapEnd)))))))

/-! What the supervisor and firmware do. -/

theorem State.memOk.tlbi {part v} (ok : s.memOk) : (s.tlbi part v).memOk := ok.dropTlb
theorem State.memOk.leavePort {id b} (ok : s.memOk) : (s.leavePort id b).memOk :=
  .foldl (.ifElse ok.updTile fun ok => ok.afterCycles) fun _ _ ok => ok.afterCycles
theorem State.memOk.abortBinding {id b} (ok : s.memOk) : (s.abortBinding id b).memOk := .finish (.leavePort ok)
theorem State.memOk.unholdChans {h} (ok : s.memOk) : (s.unholdChans h).memOk := .injectAll (.foldl ok fun _ _ ok => .ite ok.updChan ok)
theorem State.memOk.resumeAt {h} (ok : s.memOk) : (s.resumeAt h).memOk := ok.goto.updProc.unholdChans
theorem State.memOk.resumeAfter {h} (ok : s.memOk) : (s.resumeAfter h).memOk := by
  unfold State.resumeAfter
  refine .resumeAt (.updProc ?_)
  split
  · refine .updTile ?_
    split
    · exact ok.hbmStore
    · exact ok
  · split
    · exact ok.hbmStore
    · exact ok
theorem State.memOk.resumePort {h port} (ok : s.memOk) : (s.resumePort h port).memOk := by
  unfold State.resumePort
  split
  · exact ok
  · exact .ite ok (.ite (.afterCycles ok) ok)
theorem State.memOk.beginEnd {h} (ok : s.memOk) : (s.beginEnd h).memOk := .updProc (.foldl ok.giveUp.restart fun _ _ ok => ok.abortBinding)
theorem State.memOk.goEnd {h} (ok : s.memOk) : (s.goEnd h).memOk :=
  .ite ok (.ite ok (.ite (.updProc (.ite ok ok.finishProcess.updProc)) (.noteExit (.updProc (.ite ok ok.finishProcess.updProc)))))
theorem State.memOk.resume {part v} (ok : s.memOk) : ExceptOk (s.resume part v) := by
  unfold State.resume
  refine .ite .error ?_
  split
  · exact .ite .error (.ok ok.resumeAt)
  · exact .ite .error (.ok ok.resumeAfter)
  · exact .ite .error (.ok ok.resumePort)
  · exact .ite .error (.ok ok.beginEnd)
  · exact .error
theorem State.memOk.orSame {r} (ok : s.memOk) (hr : ExceptOk r) : (s.orSame r).memOk := by
  cases r with
  | error => exact ok
  | ok t => exact hr.get rfl
theorem State.memOk.swapOut {h k} (ok : s.memOk) : (s.swapOut h k).memOk := by
  unfold State.swapOut
  extract_lets inStrip s1 ask s2 s3 bits s4 p s5 s6 s7
  have ok : s2.memOk := .foldl (.cbDrainAll (.abandon ok.giveUp)) fun _ _ ok => .leavePort ok
  exact .updProc (.updTile (.ifThen (.ifThen ok.leaveLanes.updProc.writeBlock fun ok => ok.updProc) fun ok => .update ok.hbmStore))
theorem State.memOk.restoreArray {h} (ok : s.memOk) : (s.restoreArray h).memOk := .ite ok.updProc.startArray (.ite ok.takeBackArray ok)
theorem State.memOk.swapIn {h k i} (ok : s.memOk) : (s.swapIn h k i).memOk := by
  unfold State.swapIn
  extract_lets p t w s1 s2 s3 s4
  have ok : s3.memOk := .foldr ok fun e s ok => .ite (.afterCycles (.updTile ok)) (.updTile ok)
  refine .restoreArray ?_
  unfold s4
  split
  · exact ok.updProc.askLanes
  · exact ok
theorem State.memOk.pswap {part v} (ok : s.memOk) : (s.pswap part v).1.memOk ∧ ExceptOk (s.pswap part v).2 := by
  unfold State.pswap
  dsimp only
  split
  · exact ⟨ok, .error⟩
  · split
    · split
      · exact ⟨ok, .error⟩
      · split
        · rename_i e
          exact ⟨ok.blockKey.fst e, .error⟩
        · rename_i e
          have ok := ok.blockKey.fst e
          split
          · exact ⟨ok.poisonVa, .error⟩
          · exact ⟨ok, .ok ok.swapIn⟩
    · split
      · rename_i e
        exact ⟨ok.blockKey.fst e, .error⟩
      · rename_i e
        exact ⟨ok.blockKey.fst e, .ok (ok.blockKey.fst e).swapOut⟩
theorem State.memOk.createPart {n rd} (ok : s.memOk) : (s.createPart n rd).memOk := .afterCycles ok
theorem State.memOk.detachPool {n} (ok : s.memOk) : (s.detachPool n).memOk :=
  .update (.foldl (.foldl ok fun _ _ ok => ok.tellPeer) fun _ _ ok => ok.cancel)
theorem State.memOk.failRemotes {n} (ok : s.memOk) : (s.failRemotes n).memOk := .foldl ok fun _ _ ok => .later ok
theorem State.memOk.emptyKey {n} (ok : s.memOk) : (s.emptyKey n).memOk := .update ok.detachPool.failRemotes.updPart
theorem State.memOk.teardown {n} (ok : s.memOk) : (s.teardown n).memOk :=
  .update (.dropTlb (.foldl (.emptyKey (.foldl ok.detachPool fun _ _ ok => ok.freeEntry)) fun _ _ ok => ok.zeroTree))
theorem State.memOk.pset_ {rd} (ok : s.memOk) : OptionOk (s.pset_ rd) := .ite (.ite (.some ok.createPart) .none) (.ite (.some ok.teardown) .none)
theorem State.memOk.hepLeave {n} (ok : s.memOk) : (s.hepLeave n).memOk := .ite ok (.addFree (.updEp ok))
theorem State.memOk.hepReader {n cap ring} (ok : s.memOk) : (s.hepReader n cap ring).memOk :=
  .ite (.ifElse (.foldl ok.updEp fun _ _ ok => .ite ok ok.giveBack) fun ok => ok.afterCycles) ok.updEp
theorem State.memOk.hepset_ {a b c d} (ok : s.memOk) : OptionOk (s.hepset_ a b c d) :=
  .ite .none (.some (.ite (.ite (.afterCycles (.update (.update ok.hepLeave))) (.netSend (.update ok.hepLeave))) (.ite (.hepReader
    (.update ok.hepLeave)) (.ifThen (.update ok.hepLeave) fun ok => ok.updEp))))

/-! Key slots. -/

theorem State.memOk.revoke3000 {part} (ok : s.memOk) : (s.revoke3000 part).memOk := ok
theorem State.memOk.keyIssue {part o} (ok : s.memOk) : (s.keyIssue part o).memOk :=
  .retire (.ite (.later (.ifElse ok.updPart fun ok => ok.updMe)) (.revoke3000 (.ifElse ok.updPart fun ok => ok.updMe)))
theorem execKeyset_memOk {d a} (ok : s.memOk) : (execKeyset d a s).memOk := by
  unfold execKeyset
  exact .next (ok.withRegsCommit (fun _ ok => by
      refine .ite ok.raise (.ite ok.raise ?_)
      split
      · exact ok.raise
      · exact .ite ok.raise ok.keyIssue))
theorem State.memOk.keyToken {o v} (ok : s.memOk) : (s.keyToken o v).memOk := .ite ok ok.deliver
theorem execKeysetComplete_memOk {part} (ok : s.memOk) : (execKeysetComplete part s).memOk := by
  unfold execKeysetComplete
  refine .next ?_
  split
  · exact ok
  · exact .ite ok.updPart.keyToken (.ite (.pumpAll (.keyToken (.updPart (.update ok.fresh)))) (.ite ok.afterCycles ok))
theorem execKeyrevComplete_memOk {part} (ok : s.memOk) : (execKeyrevComplete part s).memOk := by
  unfold execKeyrevComplete
  dsimp only
  refine .next ?_
  split
  · exact .ite ok.afterCycles ok
  · exact .foldl (.keyToken (.ifThen ok.updPart fun ok => ok.emptyKey)) fun _ _ ok => ok.keyToken

/-! Floating-point vectors. -/

theorem State.memOk.vectorIf {op c rs} {k : State → State} (ok : s.memOk) (hk : ∀ s, s.memOk → (k s).memOk) : (s.vectorIf op c rs k).memOk :=
  ok.afterGrant (.ite (ok.vectorOp hk) ok.raise)
theorem State.memOk.putFlagged {v d xs} (ok : s.memOk) : (s.putFlagged v d xs).memOk := ok.putElems.raiseFlags
theorem State.memOk.vflt {d rs f} (ok : s.memOk) : (s.vflt d rs f).memOk := .next (ok.vectorIf fun _ ok => ok.putFlagged.retire)
theorem State.memOk.vflt2 {d a b r f} (ok : s.memOk) : (s.vflt2 d a b r f).memOk := ok.vflt
theorem execVfadd_memOk {d a b r} (ok : s.memOk) : (execVfadd d a b r s).memOk := ok.vflt2
theorem execVfsub_memOk {d a b r} (ok : s.memOk) : (execVfsub d a b r s).memOk := ok.vflt2
theorem execVfmul_memOk {d a b r} (ok : s.memOk) : (execVfmul d a b r s).memOk := ok.vflt2
theorem execVfma_memOk {d a b r} (ok : s.memOk) : (execVfma d a b r s).memOk := ok.vflt
theorem execVfnma_memOk {d a b r} (ok : s.memOk) : (execVfnma d a b r s).memOk := ok.vflt
theorem execVfdiv_memOk {d a b r} (ok : s.memOk) : (execVfdiv d a b r s).memOk := ok.vflt2
theorem execVfsqrt_memOk {d a} (ok : s.memOk) : (execVfsqrt d a s).memOk := ok.vflt
theorem execVfmin_memOk {d a b r} (ok : s.memOk) : (execVfmin d a b r s).memOk := ok.vflt2
theorem execVfmax_memOk {d a b r} (ok : s.memOk) : (execVfmax d a b r s).memOk := ok.vflt2
theorem execVfsgn_memOk {d a b r} (ok : s.memOk) : (execVfsgn d a b r s).memOk := ok.vflt
theorem execVfcvt_memOk {d a k} (ok : s.memOk) : (execVfcvt d a k s).memOk := by
  unfold execVfcvt
  exact .next (ok.vectorIf (fun _ ok => by
      split
      · exact .retire (.foldl ok fun _ _ ok => ok.putElemsAt)
      · exact ok.putFlagged.retire
      · exact ok.putFlagged.retire))
theorem execVfcvtSat_memOk {d a} (ok : s.memOk) : (execVfcvtSat d a s).memOk := ok.vflt

/-! The Sinter network. -/

theorem State.memOk.sinterWake {t k} (ok : s.memOk) : (s.sinterWake t k).memOk := ok
theorem State.memOk.setTree {part k tr} (ok : s.memOk) : (s.setTree part k tr).memOk := ok.updPart
theorem State.memOk.setScount {t k c} (ok : s.memOk) : (s.setScount t k c).memOk := ok.updTile
theorem execVtree_memOk {a b t o} (ok : s.memOk) : (execVtree a b t o s).memOk := by
  unfold execVtree
  exact .next (ok.withRegs (ok.vectorIf (fun _ ok => by
      split
      · exact ok.raise
      · exact .ite ok.holdOn ok.holdBack.retire)))
theorem State.memOk.vtreew {d a t o} (ok : s.memOk) : (s.vtreew d a t o).memOk := by
  unfold State.vtreew
  dsimp only
  exact ok.withRegs (ok.afterGrant (ok.afterCommit (fun _ ok => ok.withRegs (ok.vectorIf (fun _ ok => by
      split
      · exact ok.raise
      · split
        · exact .ite ok.raise ok.holdOn
        · exact .ite (.ite ok.raise ok.putElems.raiseFlags.setScount.retire) ok.holdOn
        · exact .holdOn (.ite ok (.ite ok.setScount ok.setScount.afterCycles)))))))
theorem execSinterCombine_memOk {part tree tile round} (ok : s.memOk) : (execSinterCombine part tree tile round s).memOk := by
  unfold execSinterCombine
  dsimp only
  refine .next ?_
  split
  · exact ok
  · split
    · exact ok
    · refine .ite ok ?_
      split
      · exact ok
      · exact .ite (.foldl ok.setTree fun _ _ ok => ok.later) ok.setTree.later
theorem State.memOk.sinterSeen {part tree tile round} (ok : s.memOk) : (s.sinterSeen part tree tile round).memOk := by
  unfold State.sinterSeen
  split
  · exact ok
  · refine .injectAll (.foldl ?_ fun _ _ ok => ok.sinterWake)
    split
    · exact .ifThen ok.setTree fun ok => ok.setScount.cancel
    · exact ok.setTree
theorem execSinterTimerExpire_memOk {part tree tile} (ok : s.memOk) : (execSinterTimerExpire part tree tile s).memOk := by
  unfold execSinterTimerExpire
  dsimp only
  refine .next ?_
  split
  · exact .ite ok.setScount.later ok
  · exact ok
theorem execSinterAbort_memOk {part tree tile round reason} (ok : s.memOk) : (execSinterAbort part tree tile round reason s).memOk := by
  unfold execSinterAbort
  refine .next ?_
  split
  · exact ok
  · exact .sinterSeen (.setScount (.ite ok.setTree ok))
theorem State.memOk.dropTree {part k} (ok : s.memOk) : (s.dropTree part k).memOk := by
  unfold State.dropTree
  split
  · exact ok.zeroTree
  · exact .updPart (.zeroTree (.foldl (.update (.foldl ok fun _ _ ok => .ite ok.raiseAt.updProc ok)) fun _ _ ok => ok.cancel.sinterWake))
theorem State.memOk.noteSdesc {part v} (ok : s.memOk) : (s.noteSdesc part v).memOk := ok.updPart
theorem State.memOk.sdescWrite {h v} (ok : s.memOk) : ExceptOk (s.sdescWrite h v) := by
  unfold State.sdescWrite
  dsimp only
  refine .ite (.ok ok.dropTree.noteSdesc) (.ite .error ?_)
  split
  · exact .error
  · refine .ite .error ?_
    split
    · exact .error
    · exact .ite .error (.ok ok.dropTree.setTree.noteSdesc)
theorem execSdescLoad_memOk {h v} (ok : s.memOk) : (execSdescLoad h v s).memOk := by
  unfold execSdescLoad
  refine .next ?_
  split
  · rename_i e
    exact ok.sdescWrite.get e
  · exact ok

/-! The Lahar kill. -/

theorem State.memOk.killIssue {part net d} (ok : s.memOk) : (s.killIssue part net d).memOk := by
  unfold State.killIssue
  dsimp only
  split
  · exact .retire (.update (.ite ok ok.updMe))
  · exact .retire (.foldl (.updPart (.update (.fresh (.ite ok ok.updMe)))) fun _ _ ok => ok.within)
theorem State.memOk.refundStaged {h} (ok : s.memOk) : (s.refundStaged h).memOk := .foldl ok fun _ _ ok => .ite ok ok.takeBack
theorem State.memOk.dropServerQueue {h} (ok : s.memOk) : (s.dropServerQueue h).memOk :=
  .foldl ok fun _ _ ok => .ite ok (.ifElse (.foldl ok.updEp fun _ _ ok => ok.updEp.addFree) fun ok => ok.addFree)
theorem State.memOk.killWrite {id r} (ok : s.memOk) : (s.killWrite id r).memOk := .update (.ite (.perform ok) ok)
theorem State.memOk.dropEgress {h} (ok : s.memOk) : (s.dropEgress h).memOk := ok
theorem State.memOk.dropAccesses {h} (ok : s.memOk) : (s.dropAccesses h).memOk :=
  .foldl (.foldl (.update ok.dropEgress) fun _ _ ok => ok.finish) fun _ _ ok => ok.killWrite
theorem State.memOk.dropRecords {h} (ok : s.memOk) : (s.dropRecords h).memOk := ok.updTile
theorem State.memOk.killProcess {h} (ok : s.memOk) : (s.killProcess h).memOk := by
  unfold State.killProcess
  refine .noteExit (.updProc (.finishProcess ?_))
  split
  · exact .hbmStore (.updPart (.foldl (.dropServerQueue (.dropAccesses (.foldl ok.dropRecords.stopMatrix.restart.refundStaged
      fun _ _ ok => ok.updTile.cancel))) fun _ _ ok => ok.abortBinding))
  · exact .updPart (.foldl (.dropServerQueue (.dropAccesses (.foldl ok.dropRecords.stopMatrix.restart.refundStaged
      fun _ _ ok => ok.updTile.cancel))) fun _ _ ok => ok.abortBinding)
theorem State.memOk.routerDiscard {part net t} (ok : s.memOk) : (s.routerDiscard part net t).memOk := by
  unfold State.routerDiscard
  refine .foldl ok fun s x ok => ?_
  split
  · exact .ite ok.addFree ok
  · exact ok
theorem State.memOk.mapRounds {part f} (ok : s.memOk) : (s.mapRounds part f).memOk := ok.updPart
theorem State.memOk.sinterDiscard {part net t} (ok : s.memOk) : (s.sinterDiscard part net t).memOk := ok.mapRounds
theorem State.memOk.stopTimers {part k n} (ok : s.memOk) : (s.stopTimers part k n).memOk := .foldl ok fun _ _ ok => ok.setScount.cancel
theorem State.memOk.sinterPurge {part net} (ok : s.memOk) : (s.sinterPurge part net).memOk :=
  .injectAll (.foldl (.foldl ok.mapRounds fun _ _ ok => ok.stopTimers.cancel) fun _ _ ok => .foldl ok fun _ _ ok => ok.sinterWake)
theorem State.memOk.killAt {id tile k} (ok : s.memOk) : (s.killAt id tile k).memOk :=
  .update (.foldl ok.routerDiscard.sinterDiscard fun _ _ ok => ok.killProcess)
theorem execLaharFlood_memOk {kill tile} (ok : s.memOk) : (execLaharFlood kill tile s).memOk := by
  unfold execLaharFlood
  refine .next ?_
  split
  · exact ok
  · exact .afterCycles (.update ok.killAt)
theorem execKillWindowEnd_memOk {kill tile} (ok : s.memOk) : (execKillWindowEnd kill tile s).memOk := by
  unfold execKillWindowEnd
  refine .next ?_
  split
  · exact ok
  · exact .within (.update ok.killAt)
theorem execKillReport_memOk {kill tile} (ok : s.memOk) : (execKillReport kill tile s).memOk := by
  unfold execKillReport
  refine .next ?_
  split
  · exact ok
  · exact .ite ok (.ifThen (.updPart (.foldl (.sinterPurge ok) fun _ _ ok => .ite ok ok.deliver)) fun ok => ok.later)

/-! Leases and lanes. -/

theorem State.memOk.linkRecord {part peer lane event repl seq} (ok : s.memOk) : (s.linkRecord part peer lane event repl seq).memOk := ok.toHost
theorem State.memOk.updLease {part p f} (ok : s.memOk) : (s.updLease part p f).memOk := ok.updPart
theorem State.memOk.endLease {part p v} (ok : s.memOk) : (s.endLease part p v).memOk := by
  unfold State.endLease
  split
  · exact ok
  · exact .ifElse ok.updPart.cancel fun ok => ok.deliver
theorem State.memOk.settleLease {part p} (ok : s.memOk) : (s.settleLease part p).memOk := by
  unfold State.settleLease
  split
  · exact ok
  · exact .ite ok.endLease (.ite ok.endLease ok)
theorem State.memOk.offerLanes {part} (ok : s.memOk) : (s.offerLanes part).memOk := by
  unfold State.offerLanes
  refine .ite ok (.foldl ok fun s x ok => (.ite ok ?_))
  split
  · exact ok
  · exact ok.updLane.updLease.emit.afterCycles
theorem State.memOk.offerFallen {part ls} (ok : s.memOk) : (s.offerFallen part ls).memOk := .foldl ok.offerLanes fun _ _ ok => .ite ok.updLane ok
theorem State.memOk.freeLane {l} (ok : s.memOk) : (s.freeLane l).memOk := by
  unfold State.freeLane
  dsimp only
  split
  · exact .offerFallen (.cancel ok)
  · exact .cancel ok
theorem State.memOk.reoffer {part p} (ok : s.memOk) : (s.reoffer part p).memOk := .ite ok (.offerFallen (.foldl ok fun _ _ ok => .cancel ok))
theorem execLease_memOk {d a b} (ok : s.memOk) : (execLease d a b s).memOk :=
  .next (ok.withRegsCommit fun _ ok => .ite ok.raise (.ite ok.raise (.ite ok.raise (.ite ok.raise (.retire (.settleLease (.offerLanes
    (.afterCycles (.ifElse ok.updPart fun ok => ok.updMe)))))))))
theorem State.memOk.drainAlone {part p l} (ok : s.memOk) : (s.drainAlone part p l).memOk :=
  .ite (.update ok.updLane.updLink) ok.updLane.updLink.afterCycles
theorem State.memOk.drainLane {part p l} (ok : s.memOk) : (s.drainLane part p l).memOk := ok.drainAlone.tellPeer
theorem State.memOk.settleQuar {part p} (ok : s.memOk) : (s.settleQuar part p).memOk := .ite ok.updLink ok
theorem State.memOk.forceLane {part p l} (ok : s.memOk) : (s.forceLane part p l).memOk := by
  unfold State.forceLane
  split
  · exact ok.drainLane
  · exact ok.freeLane.tellPeer
  · exact ok.updLane.tellPeer
  · exact ok
theorem execLrevoke_memOk {d a b} (ok : s.memOk) : (execLrevoke d a b s).memOk :=
  .next (ok.withRegsCommit fun _ ok => .ite ok.raise (.ite ok.raise (.ite ok.raise (.ite ok.endLease.reoffer.setReg.retire (.ite (.retire (.setReg
    (.pumpAll (.settleQuar (.foldl ok fun _ _ ok => ok.forceLane))))) (.retire (.setReg (.pumpAll (.foldl ok fun _ _ ok =>
    .ite ok.drainLane ok)))))))))
theorem State.memOk.sendView {part p} (ok : s.memOk) : (s.sendView part p).memOk := by
  unfold State.sendView
  split
  · exact ok
  · exact .foldl ok fun _ _ ok => ok.emit
theorem State.memOk.startTraining {part p report} (ok : s.memOk) : (s.startTraining part p report).memOk := .ite ok.updLink ok.updLink.sendView
theorem State.memOk.quarantine {part p} (ok : s.memOk) : (s.quarantine part p).memOk := ok.quarLink.linkRecord.offerLanes.settleLease
theorem State.memOk.agreed {part p map speed report} (ok : s.memOk) : (s.agreed part p map speed report).memOk :=
  .pumpAll (.offerLanes (.settleLease (.ifThen (.updLease (.iteFst (.replayAll (.updLink (.foldl ok fun _ _ ok => ok.updLane))) (.updLink
    (.foldl ok fun _ _ ok => ok.updLane)))) fun ok => ok.linkRecord)))
theorem execTrainingWord_memOk {part peer w keyid} (ok : s.memOk) : (execTrainingWord part peer w keyid s).memOk := by
  unfold execTrainingWord
  refine .next ?_
  split
  · exact ok
  · exact .ite ok.quarantine (.ite (.ite ok.quarantine ok.agreed) (.ite ok.quarantine ok.updLink.sendView))
theorem State.memOk.rejectOffer {l} (ok : s.memOk) : (s.rejectOffer l).memOk := .offerFallen (.settleLease (.updLease ok))
theorem execLaneOffer_memOk {rlane peer peerLane backLane} (ok : s.memOk) : (execLaneOffer rlane peer peerLane backLane s).memOk := by
  unfold execLaneOffer
  refine .next ?_
  split
  · exact ok.emit
  · exact .ite ok.updLane.emit.afterCycles.startTraining ok.emit
theorem execStarvationRevoke_memOk {part peer} (ok : s.memOk) : (execStarvationRevoke part peer s).memOk := by
  unfold execStarvationRevoke
  dsimp only
  refine .next ?_
  split
  · exact ok
  · refine .ite ok.afterCycles ?_
    split
    · exact ok.afterCycles
    · split
      · exact ok.afterCycles
      · exact ok.afterCycles.drainLane.updLane.pumpAll
theorem State.memOk.leaveAstray {part p lane} (ok : s.memOk) : (s.leaveAstray part p lane).memOk := .ite ok.updLink ok
theorem execLaneDrainEnd_memOk {lane} (ok : s.memOk) : (execLaneDrainEnd lane s).memOk := by
  unfold execLaneDrainEnd
  dsimp only
  refine .next ?_
  split
  · exact ok.drainAlone.pumpAll
  · exact ok.freeLane.settleQuar.pumpAll
  · exact ok.updLane
  · exact .ite ok.freeLane.pumpAll (.ite ok.leaveAstray.replayAll.freeLane.pumpAll ok)
  · exact ok
theorem State.memOk.loseLight {group lane} (ok : s.memOk) : (s.loseLight group lane).memOk :=
  .ite ok (.ite ok.updLane (.pumpAll (.ifElse (.ifElse (.foldl (.iteFst (.replayAll (.ifElse (.foldl (.foldl ok fun _ _ ok => ok.updLane)
    fun _ _ ok => ok.cancel) fun ok => ok.updLease)) (.ifElse (.foldl (.foldl ok fun _ _ ok => ok.updLane) fun _ _ ok => ok.cancel)
    fun ok => ok.updLease)) fun _ _ ok => ok.linkRecord) fun ok => ok.startTraining) fun ok => ok.settleLease.offerLanes)))
theorem execLightRestored_memOk {lane} (ok : s.memOk) : (execLightRestored lane s).memOk := by
  unfold execLightRestored
  refine .next (.ite ok (.ite ?_ ?_))
  · refine .freeLane ?_
    split
    · exact .linkRecord ok
    · exact ok
  · refine .tellPeer (.freeLane ?_)
    split
    · exact .linkRecord ok
    · exact ok

/-! The loader. -/

theorem State.memOk.loadVirtual {part va bs} (ok : s.memOk) : (s.loadVirtual part va bs).memOk := by
  unfold State.loadVirtual
  refine .foldl ok fun s x ok => ?_
  split
  · exact ok
  · split
    · exact ok.hbmStore
    · exact ok
theorem State.memOk.loadSections {part im} (ok : s.memOk) : (s.loadSections part im).memOk :=
  .foldl ok fun _ _ ok => .ite ok (.ite (.foldl ok fun _ _ ok => .ite ok.sramStore ok) ok.loadVirtual)
theorem State.memOk.joinIssue {t} (ok : s.memOk) : (s.joinIssue t).memOk := .ite ok ok
theorem State.memOk.loadProcs {part net im} (ok : s.memOk) : (s.loadProcs part net im).1.memOk := .foldlPair ok fun _ _ ok => ok.create.joinIssue
theorem State.memOk.loadReaders {im hs} (ok : s.memOk) : OptionOk (s.loadReaders im hs) := by
  refine .foldl (.some ok) fun a c ha => ?_
  cases a with
  | none => exact .none
  | some s =>
    have ok : s.memOk := ha.get rfl
    dsimp only
    split
    · exact .some ok
    · split
      · exact .some ok.bindReader
      · exact .none
theorem State.memOk.loadWriters {im hs} (ok : s.memOk) : (s.loadWriters im hs).memOk :=
  .foldl ok fun _ _ ok => .ite (.recordWriter (.update ok.hepLeave)) (.recordWriter (.ifThen ok.updProc fun ok => ok.updEp))
theorem State.memOk.loadLeases {part im} (ok : s.memOk) : (s.loadLeases part im).memOk :=
  .foldl ok fun _ _ ok => .ite ok ok.updPart.afterCycles.offerLanes.settleLease
theorem State.memOk.loadTrees {part im} (ok : s.memOk) : (s.loadTrees part im).memOk := .foldl ok fun _ _ ok => ok.dropTree.setTree
theorem State.memOk.loadNet {part net im leases} (ok : s.memOk) : OptionOk (s.loadNet part net im leases) :=
  ok.loadSections.loadProcs.loadReaders.map fun _ ok => .loadTrees (.ifThen (.foldl ok.loadWriters fun _ _ ok => ok.bornBlock)
    fun ok => ok.loadLeases)
theorem State.memOk.loaderReply {part status net a b c} (ok : s.memOk) : (s.loaderReply part status net a b c).memOk := ok.toHost
theorem State.memOk.startSeed {part v} (ok : s.memOk) : (s.startSeed part v).memOk := .update ok.updPart
theorem State.memOk.launch {part ws} (ok : s.memOk) : (s.launch part ws).memOk := by
  unfold State.launch
  dsimp only
  refine .ite ok.loaderReply (.ite ok.loaderReply (.ite ok.queueRecord.loaderReply ?_))
  split
  · exact ok.loaderReply
  · refine .ite ok.loaderReply ?_
    split
    · exact ok.loaderReply
    · refine .ite ok.loaderReply ?_
      split
      · exact ok.loaderReply
      · rename_i e
        exact ((State.memOk.loadNet (.ifThen ok.updPart fun ok => ok.startSeed)).get e).loaderReply
theorem execNetworkLaunch_memOk {part} (ok : s.memOk) : (execNetworkLaunch part s).memOk := by
  unfold execNetworkLaunch
  refine .next ?_
  split
  · exact ok
  · exact ok.updPart.launch
theorem State.memOk.dropNet {part n} (ok : s.memOk) : (s.dropNet part n).memOk := ok.updPart.startSeed
theorem State.memOk.checkReply {part st id x y k} (ok : s.memOk) : (s.checkReply part st id x y k).memOk := ok.toHost
theorem execLoaderEndReply_memOk {part net} (ok : s.memOk) : (execLoaderEndReply part net s).memOk := by
  unfold execLoaderEndReply
  refine .next ?_
  split
  · exact ok
  · refine .ite ok ?_
    split
    · exact .ite ok.dropNet.checkReply ok.dropNet.loaderReply
    · exact .ite ok.later (.ite ok.later ok.dropNet.loaderReply)
theorem execCheckRunB_memOk {part net} (ok : s.memOk) : (execCheckRunB part net s).memOk := by
  unfold execCheckRunB
  dsimp only
  refine .next ?_
  split
  · exact ok
  · split
    · exact ok
    · split
      · rename_i e
        exact (ok.updNet.startSeed.loadNet.get e).replayInputs
      · exact ok.updNet.startSeed.failRun
theorem execCheckCompare_memOk {part net} (ok : s.memOk) : (execCheckCompare part net s).memOk := by
  unfold execCheckCompare
  refine .next ?_
  split
  · exact ok
  · split
    · exact .checkReply (.foldl ok.dropNet fun _ _ ok => ok.killProcess)
    · refine .ite ok ?_
      split
      · exact ok.dropNet.checkReply
      · exact .foldl ok.dropNet.checkReply fun _ _ ok => ok.arrive

/-! Errors, power and reset. -/

theorem State.memOk.regrant {h g} (ok : s.memOk) : (s.regrant h g).memOk := by
  unfold State.regrant
  dsimp only
  split
  · exact ok.updProc
  · exact .updProc (.ite ok.updTile ok)
  · exact ok.updTile.updProc
theorem State.memOk.fuseNow {h c} (ok : s.memOk) : (s.fuseNow h c).memOk := by
  unfold State.fuseNow
  dsimp only
  split
  · exact .ifThen (.ifThen ok.abandon fun ok => ok.moveLanes.updProc) fun ok => ok.regrant
  · exact .ifElse (.ifThen ok.abandon fun ok => ok.moveLanes.updProc) fun ok => ok.askLanes
theorem State.memOk.fuseProcess {h c} (ok : s.memOk) : (s.fuseProcess h c).memOk := .ite ok.updTile ok.fuseNow
theorem State.memOk.lateFuse {t} (ok : s.memOk) : (s.lateFuse t).memOk := .ite ok (.settleLanes (.foldl ok.updTile fun _ _ ok => ok.fuseProcess))
theorem State.memOk.fuseCluster {t c} (ok : s.memOk) : (s.fuseCluster t c).memOk :=
  .ite ok (.settleLanes (.updTile (.foldl (.update (.foldl ok fun _ _ ok => .ite ok.giveUp ok)) fun _ _ ok => ok.fuseProcess)))
theorem execDetectedError_memOk {unit tile index addr lasting} (ok : s.memOk) : (execDetectedError unit tile index addr lasting s).memOk := by
  unfold execDetectedError
  refine .next (.ite ok.errorRecord ?_)
  split
  · exact ok.errorRecord.fuseCluster
  · exact .update ok.errorRecord
  · exact .update ok.errorRecord
  · exact ok.errorRecord.afterCycles
  · exact ok.errorRecord
theorem State.memOk.stopModule {index addr} (ok : s.memOk) : (s.stopModule index addr).memOk := .update ok.errorRecord
theorem execModuleReset_memOk : (execModuleReset s).memOk := ⟨rfl, rfl⟩

/-! The flits of an optical link. -/

theorem State.memOk.linkDeliver {part peer vnet slots} (ok : s.memOk) : (s.linkDeliver part peer vnet slots).memOk := by
  unfold State.linkDeliver
  refine .ite ok.afterCycles ?_
  split
  · exact ok.laterBehind
  · exact ok.later
  · exact .ite ok.ctrlArrive (.ite ok ok.netSendOn)
  · exact ok.ctrlArrive
theorem State.memOk.sendAck {part peer seq nack} (ok : s.memOk) : (s.sendAck part peer seq nack).memOk := by
  unfold State.sendAck
  split
  · exact ok
  · exact ok.emit
theorem State.memOk.ackNow {part peer seq} (ok : s.memOk) : (s.ackNow part peer seq).memOk :=
  .ite ok.sendAck.cancel.afterCycles ok.sendAck.cancel.updLink
theorem State.memOk.countCrc {l n bad} (ok : s.memOk) : (s.countCrc l n bad).memOk :=
  .ifThen (.updLane (.foldl ok fun _ _ ok => ok.errorRecord)) fun ok => ok.afterCycles
theorem State.memOk.noteGap {part peer force} (ok : s.memOk) : (s.noteGap part peer force).memOk :=
  .ite ok.updLink.cancel (.ite ok ok.updLink.afterCycles)
theorem execOpticalDataFlit_memOk {lane flit} (ok : s.memOk) : (execOpticalDataFlit lane flit s).memOk := by
  unfold execOpticalDataFlit
  dsimp only
  refine .next ?_
  split
  · exact ok
  · refine .ite ok.countCrc ?_
    split
    · exact ok.countCrc
    · exact .ifElse ok.countCrc fun ok => ok.updLink.noteGap
theorem State.memOk.takeFlit {part peer f slots} (ok : s.memOk) : (s.takeFlit part peer f slots).memOk := .ifThen ok.updLink fun ok => ok.linkDeliver
theorem execGcmTagFlit_memOk {part peer tag count} (ok : s.memOk) : (execGcmTagFlit part peer tag count s).memOk := by
  unfold execGcmTagFlit
  refine .next (.ite ok (.ite ok.noteGap ?_))
  split
  · exact .noteGap (.foldl ok.updLink fun _ _ ok => ok.countCrc)
  · exact .ite (.ackNow (.noteGap (.foldl ok.updLink.cancel fun _ _ ok => ok.takeFlit))) (.ifElse (.noteGap (.foldl ok.updLink.cancel
      fun _ _ ok => ok.takeFlit)) fun ok => ok.afterCycles)
theorem execGapTimeout_memOk {part peer} (ok : s.memOk) : (execGapTimeout part peer s).memOk := by
  unfold execGapTimeout
  dsimp only
  refine .next ?_
  split
  · exact ok
  · exact .ite ok ok.sendAck.updLink.afterCycles
theorem State.memOk.afterAck {part peer} (ok : s.memOk) : (s.afterAck part peer).memOk :=
  .pumpAll (.transmit (.foldl ok fun _ _ ok => .ite ok.afterCycles ok))
theorem execOpticalAck_memOk {part peer seq} (ok : s.memOk) : (execOpticalAck part peer seq s).memOk := by
  unfold execOpticalAck
  refine .next ?_
  split
  · exact ok
  · split
    · exact ok
    · exact ok.updLink.afterAck
theorem execOpticalNack_memOk {part peer seq} (ok : s.memOk) : (execOpticalNack part peer seq s).memOk := by
  unfold execOpticalNack
  refine .next ?_
  split
  · exact ok
  · split
    · exact ok
    · exact ok.replay

/-! Vector configuration and the steps of the lane scheduler. -/

theorem State.memOk.setvlZero {d} (ok : s.memOk) : (s.setvlZero d).memOk := ok.withdraw.releaseLanes.updMe.setReg.settleLanes.retire
theorem State.memOk.setvlCurrent {d avl} (ok : s.memOk) : (s.setvlCurrent d avl).memOk := ok.updMe.setReg.settleLanes.retire
theorem State.memOk.setvlPending {d} (ok : s.memOk) : (s.setvlPending d).memOk := .ite ok.countEvent.updMe ok.retire
theorem execSetvl_memOk {d a} (ok : s.memOk) : (execSetvl d a s).memOk := by
  unfold execSetvl
  exact .next (ok.withRegs (ok.afterGrant (ok.afterCommit (fun _ ok => ok.withRegs (by
      refine .ite ok.openStrip.setvlZero (.ite ok.openStrip.withdraw.requestLanes.setvlPending ?_)
      split
      · exact ok.openStrip.raise
      · exact ok.openStrip.withdraw.requestLanes.takeUnits.setvlCurrent)))))
theorem State.memOk.setVt {v} (ok : s.memOk) : (s.setVt v).memOk := ok.updMe
theorem execLaneGrantEffect_memOk {tile h} (ok : s.memOk) : (execLaneGrantEffect tile h s).memOk := by
  unfold execLaneGrantEffect
  refine .next ?_
  split
  · exact ok
  · exact .ite (.ite ok.moveLanes.settleLanes.afterCycles ok.grantEffect) ok.disown.updProc.settleLanes
theorem execReservedGrant_memOk {tile h} (ok : s.memOk) : (execReservedGrant tile h s).memOk := by
  unfold execReservedGrant
  refine .next ?_
  split
  · exact ok
  · exact .ite ok ok.updTile.updProc.afterCycles.settleLanes

/-! System instructions. -/

theorem State.memOk.csrStore {n v} (ok : s.memOk) : (s.csrStore n v).memOk := by
  unfold State.csrStore
  split
  · exact .ite ok.updMe ok
  · exact ok.updMe
  · exact ok.updMe
  · exact .ite ok.updMe ok
  · exact ok.updPart
  · exact ok.updPart
  · exact ok.updPart
  · exact ok.updPart
  · exact ok
  · exact ok
theorem State.memOk.writePset {off} (ok : s.memOk) : ExceptOk (s.writePset off) := by
  unfold State.writePset
  refine .ite .error ?_
  split
  · exact .error
  · split
    · exact .error
    · split
      · rename_i e
        exact .ok (.update (ok.pset_.get e))
      · exact .error
theorem State.memOk.writeHepset {off} (ok : s.memOk) : ExceptOk (s.writeHepset off) := by
  unfold State.writeHepset
  refine .ite .error ?_
  split
  · exact .error
  · split
    · rename_i e
      exact .ok (.update (ok.hepset_.get e))
    · exact .error
theorem State.memOk.retireOr {op r} (ok : s.memOk) (hr : ExceptOk r) : (s.retireOr op r).memOk := by
  cases r with
  | error => exact ok.raise
  | ok t => exact (hr.get rfl).retire
theorem State.memOk.writeResume {v} (ok : s.memOk) : (s.writeResume v).memOk := by
  unfold State.writeResume
  split
  · exact ok.raise
  · rename_i e
    exact .retire (.ifThen (ok.resume.get e) fun ok => ok.updMe)
theorem State.memOk.writePswap {v} (ok : s.memOk) : (s.writePswap v).memOk := by
  unfold State.writePswap
  refine .ite ok.holdUntil ?_
  have both := ok.pswap (part := s.me.part) (v := v)
  generalize s.pswap s.me.part v = r at both
  obtain ⟨t, _ | u⟩ := r
  · exact both.1.raise
  · have ok : (t.retire 0x3C).memOk := State.memOk.retire both.1
    exact .ite (ok.orSame ok.pswap.2) (both.2.get rfl).retire
theorem State.memOk.csrAct {n v} (ok : s.memOk) : (s.csrAct n v).memOk := by
  unfold State.csrAct
  refine .ite ok.raise ?_
  split
  · exact ok.tlbi.retire
  · exact ok.retireOr ok.sdescWrite
  · exact ok.writeResume
  · exact ok.writePswap
  · exact ok.retireOr ok.writePset
  · exact ok.retireOr ok.writeHepset
  · exact ok.retire.csrStore
  · exact ok.csrStore.retire
theorem execCsrw_memOk {a n} (ok : s.memOk) : (execCsrw a n s).memOk := by
  unfold execCsrw
  exact .next (ok.withRegs (by
      split
      · exact ok.updMe.retire
      · exact ok.afterGrant ok.setVt.retire
      · exact ok.updMe.retire
      · exact ok.updMe.retire
      · exact ok.updMe.retire
      · exact ok.updMe.retire
      · exact ok.afterCommit fun _ ok => ok.withRegs ok.csrAct))
theorem State.memOk.haltHere {epc pc} (ok : s.memOk) : (s.haltHere epc pc).memOk := ok.updMe

/-! Integer vectors. -/

theorem State.memOk.vmap {op d rs f} (ok : s.memOk) : (s.vmap op d rs f).memOk := ok.vectorOp fun _ ok => ok.putElems.retire
theorem State.memOk.vint {d a b r f} (ok : s.memOk) : (s.vint d a b r f).memOk := .next ok.vmap
theorem execVadd_memOk {d a b r} (ok : s.memOk) : (execVadd d a b r s).memOk := ok.vint
theorem execVsub_memOk {d a b r} (ok : s.memOk) : (execVsub d a b r s).memOk := ok.vint
theorem execVmul_memOk {d a b r} (ok : s.memOk) : (execVmul d a b r s).memOk := ok.vint
theorem execVmulh_memOk {d a b r} (ok : s.memOk) : (execVmulh d a b r s).memOk := ok.vint
theorem execVand_memOk {d a b r} (ok : s.memOk) : (execVand d a b r s).memOk := ok.vint
theorem execVor_memOk {d a b r} (ok : s.memOk) : (execVor d a b r s).memOk := ok.vint
theorem execVxor_memOk {d a b r} (ok : s.memOk) : (execVxor d a b r s).memOk := ok.vint
theorem execVsll_memOk {d a b r} (ok : s.memOk) : (execVsll d a b r s).memOk := ok.vint
theorem execVsrl_memOk {d a b r} (ok : s.memOk) : (execVsrl d a b r s).memOk := ok.vint
theorem execVsra_memOk {d a b r} (ok : s.memOk) : (execVsra d a b r s).memOk := ok.vint
theorem execVmin_memOk {d a b r} (ok : s.memOk) : (execVmin d a b r s).memOk := ok.vint
theorem execVmax_memOk {d a b r} (ok : s.memOk) : (execVmax d a b r s).memOk := ok.vint
theorem execVminu_memOk {d a b r} (ok : s.memOk) : (execVminu d a b r s).memOk := ok.vint
theorem execVmaxu_memOk {d a b r} (ok : s.memOk) : (execVmaxu d a b r s).memOk := ok.vint
theorem execVsadd_memOk {d a b r} (ok : s.memOk) : (execVsadd d a b r s).memOk := ok.vint
theorem execVssub_memOk {d a b r} (ok : s.memOk) : (execVssub d a b r s).memOk := ok.vint

/-! Reductions. -/

theorem State.memOk.vred {d a b f} (ok : s.memOk) : (s.vred d a b f).memOk := .next (ok.vectorOp fun _ ok => ok.putElems.retire)
theorem execVredsum_memOk {d a b} (ok : s.memOk) : (execVredsum d a b s).memOk := ok.vred
theorem execVredmin_memOk {d a b} (ok : s.memOk) : (execVredmin d a b s).memOk := ok.vred
theorem execVredmax_memOk {d a b} (ok : s.memOk) : (execVredmax d a b s).memOk := ok.vred
theorem State.memOk.vfred {d a b f} (ok : s.memOk) : (s.vfred d a b f).memOk := .next (ok.vectorIf fun _ ok => ok.putElems.raiseFlags.retire)
theorem execVfredsum_memOk {d a b} (ok : s.memOk) : (execVfredsum d a b s).memOk := ok.vfred
theorem execVfredmin_memOk {d a b} (ok : s.memOk) : (execVfredmin d a b s).memOk := ok.vfred
theorem execVfredmax_memOk {d a b} (ok : s.memOk) : (execVfredmax d a b s).memOk := ok.vfred

/-! The start of a cycle and the issue. -/

theorem State.memOk.settleYield {h} (ok : s.memOk) : (s.settleYield h).memOk := .ite ok ok.updProc
theorem State.memOk.fetchKey {h} (ok : s.memOk) : (s.fetchKey h).1.memOk := ok.xlate
theorem State.memOk.fetchFault {c} (ok : s.memOk) : (s.fetchFault c).memOk := .ite (.ite ok.holdOn ok.commitEnd.raiseAt) ok.raiseAt
theorem State.memOk.fetchFor {h} (ok : s.memOk) : (s.fetchFor h).1.memOk := by
  unfold State.fetchFor
  dsimp only
  split
  · rename_i e
    exact (State.memOk.of_fst e (.fetchKey (.goto ok))).fetchFault
  · rename_i e
    exact .iteFst ((State.memOk.of_fst e (.fetchKey (.goto ok))).poisonVa.fetchFault) ((State.memOk.of_fst e (.fetchKey (.goto ok))))
theorem State.memOk.settleYields {t} (ok : s.memOk) : (s.settleYields t).memOk := .foldl ok fun _ _ ok => ok.settleYield
theorem State.memOk.issue {t} (ok : s.memOk) : (s.issue t).1.memOk := by
  unfold State.issue
  dsimp only
  split
  · exact ok.settleYields.countEvent
  · exact .fetchFor (.ifElse ok.settleYields fun ok => ok.afterDraw)
theorem State.memOk.tryHold {ex h} (ok : s.memOk) : (s.tryHold ex h).memOk := by
  unfold State.tryHold
  split
  · split
    · exact .ite ok.updProc ok
    · exact ok
  · exact ok
theorem State.memOk.holdOut {ex t} (ok : s.memOk) : (s.holdOut ex t).memOk := .ite ok.settleYields (.foldl ok.settleYields fun _ _ ok => ok.tryHold)
theorem State.memOk.levelDue {t} (ok : s.memOk) : (s.levelDue t).memOk := .ite ok.evalLevels ok
theorem State.memOk.countCycle {t} (ok : s.memOk) : (s.countCycle t).memOk :=
  .ite ok (.evalLevel (.countEvent (.countEvent (.countEvent (.countEvent (.update ok.levelDue))))))
theorem State.memOk.newCycle (ok : s.memOk) : s.newCycle.memOk :=
  .ite ok (.update (.foldl (.foldl (.foldl (.foldl (.foldl (.foldl ok fun _ _ ok => .ite ok.lateHalt ok) fun _ _ ok => ok.lateFuse) fun _ _ ok =>
    .ite ok.goEnd ok) fun _ _ ok => .ite ok.endDstep ok) fun _ _ ok => ok.arrayCycle) fun _ _ ok => ok.countCycle))

/-! Every instruction, and every step. -/

/-- Every instruction: the arm of each is the lemma of the function it calls. -/
theorem exec_memOk (ok : s.memOk) (i : Instr) : Out.memOk (exec i s) := by
  cases i with
  | add => exact ok.alu
  | sub => exact ok.alu
  | mul => exact ok.aluAfter
  | mulh => exact ok.aluAfter
  | mulhu => exact ok.aluAfter
  | div => exact ok.aluAfter
  | divu => exact ok.aluAfter
  | rem => exact ok.aluAfter
  | remu => exact ok.aluAfter
  | and => exact ok.alu
  | or => exact ok.alu
  | xor => exact ok.alu
  | sll => exact ok.alu
  | srl => exact ok.alu
  | sra => exact ok.alu
  | slt => exact ok.alu
  | sltu => exact ok.alu
  | min => exact ok.alu
  | max => exact ok.alu
  | clz => exact ok.alu
  | popc => exact ok.alu
  | addi => exact ok.alu
  | andi => exact ok.alu
  | ori => exact ok.alu
  | xori => exact ok.alu
  | slti => exact ok.alu
  | slli => exact ok.alu
  | srli => exact ok.alu
  | srai => exact ok.alu
  | lui => exact ok.alu
  | auipc => exact ok.alu
  | ld => exact .next (ok.withRegs (ok.pastAtomics fun _ ok => ok.withRegs ok.loadScalar))
  | st => exact execSt_memOk ok
  | beq => exact .next (ok.withRegs ok.branch)
  | bne => exact .next (ok.withRegs ok.branch)
  | blt => exact .next (ok.withRegs ok.branch)
  | bge => exact .next (ok.withRegs ok.branch)
  | bltu => exact .next (ok.withRegs ok.branch)
  | bgeu => exact .next (ok.withRegs ok.branch)
  | beos => exact .next ok.branch
  | jal => exact .next (ok.withRegs (.ite ok.setReg.jump ok.raise))
  | jalr => exact .next (ok.withRegs (.ite ok.raise (.ite ok.setReg.jump ok.raise)))
  | vld => exact .next ok.vload
  | vlds => exact .next ok.vload
  | vldx => exact .next ok.vload
  | vldseg => exact .next ok.vload
  | vst => exact .next ok.vstore
  | vsts => exact .next ok.vstore
  | vstx => exact .next ok.vstore
  | vstseg => exact .next ok.vstore
  | vadd => exact execVadd_memOk ok
  | vsub => exact execVsub_memOk ok
  | vmul => exact execVmul_memOk ok
  | vmulh => exact execVmulh_memOk ok
  | vmadd => exact .next ok.vmap
  | vand => exact execVand_memOk ok
  | vor => exact execVor_memOk ok
  | vxor => exact execVxor_memOk ok
  | vsll => exact execVsll_memOk ok
  | vsrl => exact execVsrl_memOk ok
  | vsra => exact execVsra_memOk ok
  | vmin => exact execVmin_memOk ok
  | vmax => exact execVmax_memOk ok
  | vminu => exact execVminu_memOk ok
  | vmaxu => exact execVmaxu_memOk ok
  | vsadd => exact execVsadd_memOk ok
  | vssub => exact execVssub_memOk ok
  | vabs => exact .next ok.vmap
  | vfadd => exact execVfadd_memOk ok
  | vfsub => exact execVfsub_memOk ok
  | vfmul => exact execVfmul_memOk ok
  | vfma => exact execVfma_memOk ok
  | vfnma => exact execVfnma_memOk ok
  | vfdiv => exact execVfdiv_memOk ok
  | vfsqrt => exact execVfsqrt_memOk ok
  | vfmin => exact execVfmin_memOk ok
  | vfmax => exact execVfmax_memOk ok
  | vfsgn => exact execVfsgn_memOk ok
  | vfcvt => exact execVfcvt_memOk ok
  | vfcvtSat => exact execVfcvtSat_memOk ok
  | vcmp => exact .next (ok.vectorOp fun _ ok => ok.putMask.retire)
  | vfcmp => exact .next (ok.vectorIf fun _ ok => ok.putMask.retire)
  | vmlog => exact .next (ok.maskOp fun _ ok => ok.putMask.retire)
  | vmpop => exact .next (ok.withRegs (ok.maskOp fun _ ok => ok.setReg.retire))
  | vmfirst => exact .next (ok.withRegs (ok.maskOp fun _ ok => ok.setReg.retire))
  | vmerge => exact .next (ok.vectorOp fun _ ok => ok.putElems.retire)
  | vcompress => exact .next (ok.vectorOp fun _ ok => ok.putElems.retire)
  | vexpand => exact .next (ok.vectorOp fun _ ok => ok.putElems.retire)
  | viota => exact .next (ok.maskOp fun _ ok => ok.putElems.retire)
  | vslideup => exact .next (ok.withRegs (ok.vectorOp fun _ ok => ok.putElems.retire))
  | vslidedn => exact .next (ok.withRegs (ok.vectorOp fun _ ok => ok.putElems.retire))
  | vperm => exact .next (ok.vectorOp fun _ ok => ok.putElems.retire)
  | vmv => exact .next (ok.vectorOp fun _ ok => ok.putElems.retire)
  | vmvsv => exact .next (ok.withRegs (ok.vectorOp fun _ ok => ok.putElems.retire))
  | vmvvs => exact .next (ok.withRegs (ok.afterGrant (.ite ok.holdOn (ok.touch fun _ ok => ok.setReg.retire))))
  | vredsum => exact execVredsum_memOk ok
  | vredmin => exact execVredmin_memOk ok
  | vredmax => exact execVredmax_memOk ok
  | vfredsum => exact execVfredsum_memOk ok
  | vfredmin => exact execVfredmin_memOk ok
  | vfredmax => exact execVfredmax_memOk ok
  | cpush => exact execCpush_memOk ok
  | cpop => exact .next (ok.withRegs (ok.onChan (ok.popSlots fun _ _ ok => .retire (.foldl ok fun _ _ ok => ok.setReg))))
  | cpeek => exact execCpeek_memOk ok
  | cadv => exact .next (ok.withRegs (ok.onChan (ok.popSlots fun _ _ ok => ok.retire)))
  | cclose => exact .next (ok.onChan (.ite ok.raise (ok.withCredits fun _ ok => ok.holdBack.retire)))
  | cbind => exact .next (ok.withRegsCommit fun _ ok => .ite ok.cbindMove ok.cbindPlain)
  | cbindMove => exact .next (ok.withRegsCommit fun _ ok => ok.cbindMove)
  | cunbind => exact execCunbind_memOk ok
  | vpush => exact execVpush_memOk ok
  | vpop => exact .next (ok.vectorOp fun _ ok => ok.onChan (ok.popSlots fun _ _ ok => ok.putElems.retire))
  | scopy => exact .next (ok.withRegs (ok.bindStream fun _ ok => ok))
  | sgather => exact .next (ok.withRegs (ok.vectorOp fun _ ok => ok.bindStream fun _ ok => .updMe (.ite ok ok.maskWrite)))
  | sbar => exact execSbar_memOk ok
  | kderive => exact .next (ok.withRegsCommit fun _ ok => .ite ok.raise ok.setCap.retire)
  | kld => exact execKld_memOk ok
  | kst => exact execKst_memOk ok
  | ksend => exact execKsend_memOk ok
  | krecv => exact .next (ok.afterCommit fun _ ok => ok.onChan (ok.popSlots fun _ _ ok => ok.setCap.retire))
  | aadd => exact .next ok.atomicPlain
  | amin => exact .next ok.atomicPlain
  | amax => exact .next ok.atomicPlain
  | aand => exact .next ok.atomicPlain
  | aor => exact .next ok.atomicPlain
  | axadd => exact .next ok.atomicValue
  | axchg => exact .next ok.atomicValue
  | acas => exact .next ok.atomicValue
  | fence => exact .next (ok.afterCommit fun _ ok => .ite ok.cbDrainAll.retire ok.cbDrainAll.holdOn)
  | spawn => exact execSpawn_memOk ok
  | exit => exact execExit_memOk ok
  | yield => exact .next ok.updMe.retire
  | prio => exact .next (ok.withRegsCommit fun _ ok => ok.setReg.updMe.retire)
  | setvl => exact execSetvl_memOk ok
  | setvs => exact .next (ok.withRegs ok.updMe.retire)
  | setvt => exact .next (ok.withRegs (ok.afterGrant ok.setVt.retire))
  | setmt => exact .next (ok.withRegs ok.updMe.retire)
  | setpeer => exact .next (ok.withRegs ok.updMe.retire)
  | stripend => exact .next (ok.afterCommit fun _ ok => ok.retire)
  | cbtld => exact execCbtld_memOk ok
  | tcfg => exact .next (ok.withRegs (ok.matrixOp fun _ ok => .ite ok.raise (ok.released fun _ ok => ok.updTile.command)))
  | mopa => exact execMopa_memOk ok
  | mma => exact execMma_memOk ok
  | mmas => exact execMmas_memOk ok
  | mmasp => exact execMmasp_memOk ok
  | tld => exact .next (ok.withRegs (ok.matrixOp fun _ ok => ok.tileAccess fun _ _ ok => ok.bulkLoad))
  | tst => exact execTst_memOk ok
  | tzero => exact .next (ok.matrixOp fun _ ok => ok.released fun _ ok => ok.updTile.command)
  | tmvv => exact execTmvv_memOk ok
  | tmvt => exact execTmvt_memOk ok
  | patch => exact execPatch_memOk ok
  | dcfg => exact .next (ok.withRegs (ok.analyserOp fun _ ok => .ite .deny (.ok ok.updAn.retire)))
  | dset => exact execDset_memOk ok
  | dget => exact execDget_memOk ok
  | dstep => exact execDstep_memOk ok
  | drun => exact execDrun_memOk ok
  | dhalt => exact .next (ok.withRegs (ok.analyserOp fun _ ok => .ite .deny (.ok ok.updAn.retire)))
  | dsave => exact execDsave_memOk ok
  | dload => exact execDload_memOk ok
  | dbind => exact execDbind_memOk ok
  | lease => exact execLease_memOk ok
  | lrevoke => exact execLrevoke_memOk ok
  | lquery => exact .next (ok.withRegs (.ite ok.raise ok.setReg.retire))
  | vtree => exact execVtree_memOk ok
  | vtreew => exact .next (.ifThen ok.vtreew fun ok => ok.updMe)
  | csrr => exact .next (ok.withRegs (.ite ok.raise (.ite (ok.afterGrant ok.setReg.retire) ok.setReg.retire)))
  | csrw => exact execCsrw_memOk ok
  | trap => exact .next (ok.afterCommit fun _ ok => ok.raise)
  | eret => exact .next (ok.afterCommit fun _ ok => .ite ok.raise (.dropDstep (.eretAt (.ite ok.takeBackArray ok))))
  | brk => exact .next (ok.afterCommit fun _ ok => .ite ok.haltHere ok.raise)
  | halt => exact .next (ok.afterCommit fun _ ok => .ite ok.countEvent.haltHere ok.raise)
  | kill => exact .next (ok.withRegsCommit fun _ ok => .ite ok.raise (.ite ok.raise ok.killIssue))
  | keyset => exact execKeyset_memOk ok
  | keyrev => exact .next (ok.withRegsCommit fun _ ok => .ite ok.raise (.ite ok.raise ok.keyIssue))
  | monbind => exact execMonbind_memOk ok
  | tlbiWrite => exact .next ok.tlbi
  | sdescLoad => exact execSdescLoad_memOk ok
  | sdescClear => exact .next ok.dropTree.noteSdesc
  | resumeAtPoint => exact .next (ok.orSame ok.resume)
  | resumeSkip => exact .next (ok.orSame ok.resume)
  | resumeStream => exact .next (ok.orSame ok.resume)
  | resumeEnd => exact .next (ok.orSame ok.resume)
  | pswapOut => exact .next (.ite ok.afterCycles (ok.orSame ok.pswap.2))
  | pswapIn => exact .next (ok.orSame ok.pswap.2)
  | psetCreate => exact .next (.ite (ok.pset_.getD ok) ok)
  | psetTeardown => exact .next (.ite ok.teardown ok)
  | hepsetWrite => exact .next (ok.hepset_.getD ok)
  | laneGrantEffect => exact execLaneGrantEffect_memOk ok
  | reservedGrant => exact execReservedGrant_memOk ok
  | childRelease => exact .next (.ite ok (.ite ok.updProc ok.afterCycles))
  | networkLaunch => exact execNetworkLaunch_memOk ok
  | loaderEndReply => exact execLoaderEndReply_memOk ok
  | checkRunB => exact execCheckRunB_memOk ok
  | checkCompare => exact execCheckCompare_memOk ok
  | writerRegistration => exact execWriterRegistration_memOk ok
  | shortfallRequest => exact execShortfallRequest_memOk ok
  | creditRecall => exact execCreditRecall_memOk ok
  | creditReturn => exact execCreditReturn_memOk ok
  | channelMessageArrive => exact execChannelMessageArrive_memOk ok
  | retargetNotice => exact execRetargetNotice_memOk ok
  | retargetAck => exact execRetargetAck_memOk ok
  | dramRead => exact .next ok.serverStepAt
  | dramWrite => exact .next ok.serverStepAt
  | dramBadRequest => exact .next ok.serverStepAt
  | mempipeRead => exact .next ok.perform
  | mempipeWrite => exact .next ok.perform
  | dramAtomic => exact .next ok.perform
  | globalSramAccess => exact .next ok.perform
  | memoryReply => exact .next ok.reply
  | cbIdleDrain => exact execCbIdleDrain_memOk ok
  | heldBindingEnqueue => exact execHeldBindingEnqueue_memOk ok
  | streamStart => exact execStreamStart_memOk ok
  | streamSector => exact execStreamSector_memOk ok
  | streamComplete => exact execStreamComplete_memOk ok
  | matrixStepGroup => exact .next ok.stepMatrix
  | debuggerHalt => exact .next (.ite ok.updProc ok.debugHalt)
  | debuggerRelease => exact .next (.ite ok.goto.updProc ok)
  | divPhaseZero => exact .next (.ite ok.updAn ok)
  | domainTick => exact .next ok.tick
  | portTakeSlot => exact .next ok.portTake
  | tapCreditPush => exact .next (.ite ok.tapPush ok)
  | monitorFire => exact execMonitorFire_memOk ok
  | levelCounterUpdate => exact .next ok.evalLevels
  | monitorPendingPush => exact .next ok.monPush
  | fumaroleSweepStart => exact .next (.ite ok (.ifThen ok.afterCycles fun ok => ok.updPart.afterCycles))
  | fumaroleSweepDone => exact .next (.ite ok (.updPart (.ite ok.growOrReport ok)))
  | faultRecordPush => exact execFaultRecordPush_memOk ok
  | firmwareFaultForward => exact execFirmwareFaultForward_memOk ok
  | opticalDataFlit => exact execOpticalDataFlit_memOk ok
  | opticalAck => exact execOpticalAck_memOk ok
  | opticalNack => exact execOpticalNack_memOk ok
  | ackTimer => exact .next (.ite ok ok.ackNow)
  | gapTimeout => exact execGapTimeout_memOk ok
  | crcThreshold => exact .next (.ite ok ok.updLane.replayAll.linkRecord.startTraining.pumpAll)
  | lossOfLight => exact .next (.ite ok.loseLight (.foldl ok fun _ _ ok => ok.loseLight))
  | lightRestored => exact execLightRestored_memOk ok
  | retrain => exact .next (.ite ok (.pumpAll (.startTraining (.updLink (.foldl ok fun _ _ ok => ok.updLane)))))
  | trainingWord => exact execTrainingWord_memOk ok
  | laneOffer => exact execLaneOffer_memOk ok
  | offerAnswer => exact .next (.ite ok (.ite ok.rejectOffer (.startTraining (.update ok.updLane))))
  | offerTimeout => exact .next (.ite ok.rejectOffer ok)
  | trainingTimeout => exact .next (.ite ok.quarantine ok)
  | laneDrainEnd => exact execLaneDrainEnd_memOk ok
  | starvationRevoke => exact execStarvationRevoke_memOk ok
  | gcmGroupClose => exact .next (.ite ok.closeGroup ok.afterCycles)
  | gcmTagFlit => exact execGcmTagFlit_memOk ok
  | relayForward => exact .next (.ite ok.emit ok.updLink.transmit)
  | relayRefusal => exact execRelayRefusal_memOk ok
  | remoteRead => exact .next ok.remoteServe
  | remoteWrite => exact .next ok.remoteServe
  | remoteAtomic => exact .next ok.remoteServe
  | remoteReply => exact execRemoteReply_memOk ok
  | sinterCombine => exact execSinterCombine_memOk ok
  | sinterResult => exact .next ok.sinterSeen
  | sinterTimerExpire => exact execSinterTimerExpire_memOk ok
  | sinterAbortRequest => exact .next ok.abortRound
  | sinterAbort => exact execSinterAbort_memOk ok
  | laharFlood => exact execLaharFlood_memOk ok
  | killWindowEnd => exact execKillWindowEnd_memOk ok
  | killReport => exact execKillReport_memOk ok
  | keysetComplete => exact execKeysetComplete_memOk ok
  | keyrevComplete => exact execKeyrevComplete_memOk ok
  | hostPush => exact execHostPush_memOk ok
  | hostCreditRead => exact execHostCreditRead_memOk ok
  | hostCreditUpdate => exact .next (.ifElse (.ite ok.replayInputs ok) fun ok => ok.emit.updHep)
  | d2hDeliver => exact execD2hDeliver_memOk ok
  | hostCreditReturn => exact execHostCreditReturn_memOk ok
  | queuePairError => exact .next (.ite ok ok.updHep.hostRecord)
  | detectedError => exact execDetectedError_memOk ok
  | powerLimit => exact .next ok
  | thermalStop => exact .next ok.stopModule
  | coolantLow => exact .next ok.stopModule
  | moduleReset => exact execModuleReset_memOk
  | illegalWord => exact .next ok.raise
  | powerLimitCleared => exact .next ok

/-- The state in which a tile issues (R41). -/
theorem State.memOk.issued {more n} (ok : s.memOk) : (({ s with issueLeft := more }.holdOut exec n).issue n).1.memOk :=
  State.memOk.issue (State.memOk.holdOut ok)

/-- A step is an item of the machine, an instruction of a lane, or the start of a cycle (R41). -/
theorem step_memOk (ok : s.memOk) : Out.memOk (step s) := by
  unfold step
  split
  · split
    · exact exec_memOk (.update ok) _
    · split
      · split <;> rename_i e
        · exact exec_memOk (ok.issued.fst e) _
        · exact ok.issued.fst e
      · exact .next ok.newCycle
  · split
    · split <;> rename_i e
      · exact exec_memOk (ok.issued.fst e) _
      · exact ok.issued.fst e
    · split
      · trivial
      · exact .next ok.newCycle

/-- Settles O8: every step keeps the memories in canonical form. -/
theorem stepKeepsMemoryCanonical : Obligations.StepKeepsMemoryCanonical := by
  unfold Obligations.StepKeepsMemoryCanonical
  intro s t ok e
  have stepped := step_memOk ok
  rw [e] at stepped
  exact stepped

end Sys2Proof.Machine
end

section
/-! PROOFS. A store to the symmetric heap of a partition whose SYMBASE is not a multiple of the store's size. -/

namespace Sys2Proof.Proofs.FarLoadStore
open Sys2Proof.Machine

/-- MT names SYM, the peer is the own package, and SYMBASE lies four bytes before the end of a block of the page in the TLB. No descriptor that
`descForm` accepts has such a SYMBASE (Table 11.1); the statement is about every state. -/
def unalignedHeap : State :=
  { State.reset with
    running := 1
    procs := [(1, { pst := .running, mt := 4 })]
    parts := [(0, { valid := true, key := { full := true }, servers := [0], symbase := 0x1003C, symsize := 0x1000 })]
    tiles := [(0, {
      slots := [(0, 1)]
      l1 := [{ part := 0, base := 0x10000, size := 0x10000, leaf := 0xFC00000000010000, pteAt := 0, bank := 1 }] })] }

/-- Offset 0 of the heap is aligned (R79), but its home is byte 60 of a block. -/
theorem placeMt_unalignedHeap :
    unalignedHeap.placeMt (unalignedHeap.me.mtCtx unalignedHeap.running) (unalignedHeap.reg 2 + (0 : BitVec 14).signExtend 64)
      (Size.bytes .d) (Size.bytes .d) .store = (unalignedHeap, .ok (.dram 0x1003C 0x1003C)) := rfl

/-- The entries of the combining buffer of tile 0 after an instruction. -/
def entriesAfter (i : Instr) (s : State) : List Nat :=
  match exec i s with
  | .next t => (t.tile 0).cb.map fun e => e.1
  | _ => []

/-- The eight bytes lie in two blocks, so they take two entries (`State.cbStore`). -/
theorem entriesAfter_unalignedHeap : entriesAfter (.st 1 2 .d 0) unalignedHeap = [0, 1] := by decide

/-- Refutes O21: a store to SYM of the own package, with SYMBASE four bytes before the end of a block, leaves two entries in the combining
buffer and not one. -/
theorem not_farLoadStore : ¬ Obligations.FarLoadStore := by
  unfold Obligations.FarLoadStore
  rintro ⟨-, store⟩
  obtain ⟨t, e, stored, oneEntry, -⟩ := store unalignedHeap unalignedHeap 1 2 .d 0 0x1003C 0x1003C ⟨by decide, by decide⟩ ⟨rfl, rfl, rfl⟩
    placeMt_unalignedHeap rfl rfl
  have twoEntries : (t.tile 0).cb.map (fun e => e.1) = [0, 1] := by
    rw [← entriesAfter_unalignedHeap, entriesAfter, stored]
  have sameTile : unalignedHeap.me.tile = 0 := rfl
  rw [sameTile] at oneEntry
  simp [oneEntry] at twoEntries

end Sys2Proof.Proofs.FarLoadStore
end

section
/-! PROOFS. What blocking, holding and completing leave of the state: one change of the running process (R31, R32, R41). -/

namespace Sys2Proof.Machine

/-! What completing leaves of the process. -/

@[simp] theorem Proc.completed_pc (p : Proc) (n : Nat) (next : BitVec 48) : (p.completed n next).pc = next := rfl
@[simp] theorem Proc.completed_pst (p : Proc) (n : Nat) (next : BitVec 48) : (p.completed n next).pst = .ready := rfl
@[simp] theorem Proc.completed_specials (p : Proc) (n : Nat) (next : BitVec 48) : (p.completed n next).specials = p.specials := rfl
@[simp] theorem Proc.completed_reg (p : Proc) (n : Nat) (next : BitVec 48) (r : Nat) : (p.completed n next).reg r = p.reg r := rfl
@[simp] theorem Proc.completed_chan (p : Proc) (n : Nat) (next : BitVec 48) (c : Nat) : (p.completed n next).chan c = p.chan c := rfl
@[simp] theorem Proc.completed_isPending (p : Proc) (n : Nat) (next : BitVec 48) (r : Nat) : (p.completed n next).isPending r = p.isPending r := rfl
@[simp] theorem Proc.completed_sregs (p : Proc) (n : Nat) (next : BitVec 48) : (p.completed n next).sregs = p.sregs := rfl
@[simp] theorem Proc.completed_pend (p : Proc) (n : Nat) (next : BitVec 48) : (p.completed n next).pend = p.pend := rfl
@[simp] theorem Proc.completed_chans (p : Proc) (n : Nat) (next : BitVec 48) : (p.completed n next).chans = p.chans := rfl
@[simp] theorem Proc.completed_caps (p : Proc) (n : Nat) (next : BitVec 48) : (p.completed n next).caps = p.caps := rfl
@[simp] theorem Proc.completed_vl (p : Proc) (n : Nat) (next : BitVec 48) : (p.completed n next).vl = p.vl := rfl
@[simp] theorem Proc.completed_vs (p : Proc) (n : Nat) (next : BitVec 48) : (p.completed n next).vs = p.vs := rfl
@[simp] theorem Proc.completed_vt (p : Proc) (n : Nat) (next : BitVec 48) : (p.completed n next).vt = p.vt := rfl
@[simp] theorem Proc.completed_mt (p : Proc) (n : Nat) (next : BitVec 48) : (p.completed n next).mt = p.mt := rfl
@[simp] theorem Proc.completed_status (p : Proc) (n : Nat) (next : BitVec 48) : (p.completed n next).status = p.status := rfl
@[simp] theorem Proc.completed_strip (p : Proc) (n : Nat) (next : BitVec 48) : (p.completed n next).strip = p.strip := rfl
@[simp] theorem Proc.completed_pgrant (p : Proc) (n : Nat) (next : BitVec 48) : (p.completed n next).pgrant = p.pgrant := rfl
@[simp] theorem Proc.completed_slivers (p : Proc) (n : Nat) (next : BitVec 48) : (p.completed n next).slivers = p.slivers := rfl
@[simp] theorem Proc.completed_cluster (p : Proc) (n : Nat) (next : BitVec 48) : (p.completed n next).cluster = p.cluster := rfl
@[simp] theorem Proc.completed_tile (p : Proc) (n : Nat) (next : BitVec 48) : (p.completed n next).tile = p.tile := rfl
@[simp] theorem Proc.completed_part (p : Proc) (n : Nat) (next : BitVec 48) : (p.completed n next).part = p.part := rfl
@[simp] theorem Proc.completed_level (p : Proc) (n : Nat) (next : BitVec 48) : (p.completed n next).level = p.level := rfl
@[simp] theorem Proc.completed_ending (p : Proc) (n : Nat) (next : BitVec 48) : (p.completed n next).ending = p.ending := rfl
@[simp] theorem Proc.completed_yields (p : Proc) (n : Nat) (next : BitVec 48) : (p.completed n next).yields = p.yields := rfl

/-- Of memory, the units, the other processes and the rest of the module nothing has changed. -/
structure OnlyMe (s t : State) : Prop where
  memory : SameMemory s t
  units : SameUnits s t
  rest : SameRest s t

theorem State.updMe_onlyMe (s : State) (f : Proc → Proc) : OnlyMe s (s.updMe f) :=
  ⟨State.updMe_memory s f, State.updMe_units s f, State.updMe_rest s f⟩

theorem OnlyMe.issueLeft {s t : State} (o : OnlyMe s t) (l : List Nat) : OnlyMe s { t with issueLeft := l } where
  memory := ⟨o.memory.sram, o.memory.hbm, o.memory.sramTag, o.memory.hbmTag⟩
  units := ⟨o.units.vbank, o.units.mbank, o.units.treg, o.units.tsh, o.units.cbt, o.units.an, o.units.owners⟩
  rest := ⟨o.rest.running, o.rest.procs, o.rest.parts, o.rest.eps, o.rest.pcap, o.rest.pset, o.rest.hepset, o.rest.cycle⟩

theorem OnlyMe.trans {s t u : State} (a : OnlyMe s t) (b : OnlyMe t u) : OnlyMe s u :=
  ⟨a.memory.trans b.memory, a.units.trans b.units, a.rest.trans b.rest⟩

/-- The registers of the running process are as before where its tables are. -/
theorem SameRegs.of_me {s t : State} {ds : List (BitVec 5)} (regs : t.me.sregs = s.me.sregs) (caps : t.me.caps = s.me.caps)
    (chans : t.me.chans = s.me.chans) : SameRegs s t ds :=
  ⟨fun r _ => Proc.reg_congr regs r.toNat, fun k => Proc.cap_congr caps k, fun c => Proc.chan_congr chans c⟩

/-- The running process blocks, and nothing else has changed (R32). -/
theorem State.block_me (s : State) (st : PState) (need : Nat) :
    (s.block st need).me = { s.me.enter st s.cycle with lastIssue := some s.cycle, need := need } := State.updMe_me s _
theorem State.block_onlyMe (s : State) (st : PState) (need : Nat) : OnlyMe s (s.block st need) := State.updMe_onlyMe s _
theorem State.holdUntil_me (s : State) (n : Nat) :
    (s.holdUntil n).me = { s.me with busy := n, pst := .ready, epoch := s.me.epoch - 1 } :=
  State.updMe_me s fun p => { p with busy := n, pst := .ready, epoch := p.epoch - 1 }
theorem State.holdUntil_onlyMe (s : State) (n : Nat) : OnlyMe s (s.holdUntil n) := (State.updMe_onlyMe s _).issueLeft _
theorem State.holdOn_me (s : State) (ids : List Nat) :
    (s.holdOn ids).me = { s.me with hold := ids, pst := .ready, epoch := s.me.epoch - 1 } :=
  State.updMe_me s fun p => { p with hold := ids, pst := .ready, epoch := p.epoch - 1 }
theorem State.holdOn_onlyMe (s : State) (ids : List Nat) : OnlyMe s (s.holdOn ids) := (State.updMe_onlyMe s _).issueLeft _

/-- Blocking keeps every register (R32). -/
theorem State.block_sameRegs (s : State) (st : PState) (need : Nat) : SameRegs s (s.block st need) [] := by
  refine .of_me ?_ ?_ ?_ <;> rw [State.block_me] <;> rfl
theorem State.block_specials (s : State) (st : PState) (need : Nat) : (s.block st need).me.specials = s.me.specials := by
  rw [State.block_me]; rfl
theorem State.holdOn_sameRegs (s : State) (ids : List Nat) : SameRegs s (s.holdOn ids) [] := by
  refine .of_me ?_ ?_ ?_ <;> rw [State.holdOn_me]

/-- A register in a fixed-latency pipeline holds the instruction (R31). -/
theorem State.withRegs_late (s : State) (rs : List (BitVec 5)) (k : State) (free : ∀ q ∈ rs, s.me.isPending q.toNat = false)
    (late : s.cycle < s.me.lateUntil rs) : s.withRegs rs k = s.holdUntil (s.me.lateUntil rs) := by
  have none : (rs.find? fun r => s.me.isPending r.toNat) = none := by
    rw [List.find?_eq_none]; intro r hr; simp [free r hr]
  simp only [State.withRegs, none, if_pos late]

/-- Changing the running process and retiring: the process has completed as changed, and nothing else has changed. -/
theorem State.updMe_jump_me (s : State) (f : Proc → Proc) (op : Nat) (next : BitVec 48) (ss : (f s.me).ss = false) :
    ((s.updMe f).jump op next).me = (f s.me).completed s.cycle next := by
  rw [State.jump_me _ _ _ (by rw [State.updMe_me]; exact ss), State.updMe_me]; rfl
theorem State.updMe_jump_onlyMe (s : State) (f : Proc → Proc) (op : Nat) (next : BitVec 48) (ss : (f s.me).ss = false) :
    OnlyMe s ((s.updMe f).jump op next) :=
  have only := State.jump_only (s.updMe f) op next (by rw [State.updMe_me]; exact ss)
  (State.updMe_onlyMe s f).trans ⟨only.memory, only.units, only.rest⟩
theorem State.updMe_retire (s : State) (f : Proc → Proc) (op : Nat) (pc : (f s.me).pc = s.me.pc) :
    (s.updMe f).retire op = (s.updMe f).jump op (s.me.pc + 4) := by
  unfold State.retire; rw [State.updMe_me, pc]

end Sys2Proof.Machine
end

section
/-! PROOFS. The order of a cycle, and a scalar instruction that waits for its registers. -/

namespace Sys2Proof.Machine

/-- With nothing due, a step is an issue of the next tile, or the start of a cycle, or the end. -/
theorem step_nothingDue_noIssue {s : State} (nothing : NothingDue s) (left : s.issueLeft = []) (goes : s.stopped = false ∨ s.events ≠ []) :
    step s = .next s.newCycle := by
  unfold step
  cases ev : s.events with
  | nil =>
    have running : s.stopped = false := goes.resolve_right fun ne => ne ev
    simp [left, running]
  | cons e rest => simp [left, nothing e.1 e.2 rest ev]

theorem State.newCycle_cycle (s : State) : s.newCycle.cycle = s.cycle + 1 := by
  unfold State.newCycle
  dsimp only
  split <;> rfl

/-- Settles O6: the order of a cycle is read off `step`, and CYCLE off `newCycle`. -/
theorem eventsThenNextCycle : Obligations.EventsThenNextCycle := by
  unfold Obligations.EventsThenNextCycle
  refine ⟨fun s d i rest ev due => ?_, fun s nothing left goes => step_nothingDue_noIssue nothing left goes, State.newCycle_cycle,
    fun s ev left stop => ?_⟩
  · simp [step, ev, due]
  · simp [step, ev, left, stop]

/-- The scalar instructions of the ordinary latency are all of one form (R295). -/
theorem exec_of_aluOf {s : State} {i : Instr} {d : BitVec 5} {rs : List (BitVec 5)} {v : Word} (h : aluOf s i = some (d, rs, v)) :
    ∃ op w, exec i s = s.alu op d rs w := by
  cases i
  case add | sub | and | or | xor | sll | srl | sra | slt | sltu | min | max | clz | popc | addi | andi | ori | xori | slti | slli | srli | srai | lui | auipc =>
    simp only [aluOf, Option.some.injEq, Prod.mk.injEq] at h
    obtain ⟨rfl, rfl, -⟩ := h
    exact ⟨_, _, rfl⟩
  all_goals simp [aluOf] at h

/-- Settles O10: an ALU instruction does nothing but wait where `withRegs` blocks or holds it. -/
theorem scalarWaitsForRegisters : Obligations.ScalarWaitsForRegisters := by
  unfold Obligations.ScalarWaitsForRegisters
  constructor
  · intro s i d r rs v alu pending
    obtain ⟨op, w, e⟩ := exec_of_aluOf alu
    have only := State.block_onlyMe s (.blockedToken r.toNat) 0
    refine ⟨s.block (.blockedToken r.toNat) 0, ?_, ?_, ?_, State.block_sameRegs .., State.block_specials .., only.memory, only.units, only.rest⟩
    · rw [e, State.alu, State.withRegs_pending _ _ _ r pending]
    · rw [State.block_me]; rfl
    · rw [State.block_me]; rfl
  · intro s i d rs v alu free late
    obtain ⟨op, w, e⟩ := exec_of_aluOf alu
    have only := State.holdUntil_onlyMe s (s.me.lateUntil (rs ++ [d]))
    refine ⟨s.holdUntil (s.me.lateUntil (rs ++ [d])), ?_, ?_, ?_, ?_, ?_, ?_, only.memory, only.units, only.rest⟩
    · rw [e, State.alu, State.withRegs_late _ _ _ free late]
    · rw [State.holdUntil_me]
    · rw [State.holdUntil_me]
    · rw [State.holdUntil_me]
    · refine .of_me ?_ ?_ ?_ <;> rw [State.holdUntil_me]
    · rw [State.holdUntil_me]; rfl
end Sys2Proof.Machine
end

section
/-! PROOFS. SETVS, SETMT, SETPEER, SETVT and CSRW of the registers that the checkpoint holds (R77, R89, R158, R159, R287, R368). -/

namespace Sys2Proof.Machine

/-- A change of a process keeps its place, its registers of the three files, its strip and STATUS. -/
structure KeepsRegs (p q : Proc) : Prop where
  pc : q.pc = p.pc
  sregs : q.sregs = p.sregs
  caps : q.caps = p.caps
  chans : q.chans = p.chans
  strip : q.strip = p.strip
  status : q.status = p.status

/-- A change of the running process that keeps its registers, and the retirement behind it. -/
theorem State.updMe_retire_onlySpecial (s : State) (f : Proc → Proc) (op : Nat) (keeps : KeepsRegs s.me (f s.me)) (ss : s.me.ss = false) :
    ((s.updMe f).retire op).me.strip = s.me.strip ∧ OnlySpecial s ((s.updMe f).retire op) (f s.me).specials [] := by
  have fss : (f s.me).ss = false := by unfold Proc.ss; rw [keeps.status]; exact ss
  rw [State.updMe_retire s f op keeps.pc]
  have me := State.updMe_jump_me s f op (s.me.pc + 4) fss
  have only := State.updMe_jump_onlyMe s f op (s.me.pc + 4) fss
  refine ⟨by rw [me]; exact keeps.strip, ⟨by rw [me]; rfl, by rw [me]; rfl⟩, .of_me ?_ ?_ ?_, by rw [me]; rfl, only.memory, only.units, only.rest⟩
  · rw [me]; exact keeps.sregs
  · rw [me]; exact keeps.caps
  · rw [me]; exact keeps.chans

/-- A mask of two runs of ones, of which the lower starts at bit 0, keeps two fields. -/
theorem Nat.and_two_fields (x lo k hi : Nat) (h : lo ≤ k) :
    x &&& ((2 ^ hi - 1) * 2 ^ k + (2 ^ lo - 1)) = x % 2 ^ lo + x / 2 ^ k % 2 ^ hi * 2 ^ k := by
  have low : 2 ^ lo - 1 < 2 ^ k := lt_of_lt_of_le (Nat.sub_lt (by positivity) one_pos) (Nat.pow_le_pow_right two_pos h)
  have low' : x % 2 ^ lo < 2 ^ k := lt_of_lt_of_le (Nat.mod_lt _ (by positivity)) (Nat.pow_le_pow_right two_pos h)
  rw [Nat.add_comm (x % 2 ^ lo), ← Nat.shiftLeft_eq, ← Nat.shiftLeft_eq, Nat.shiftLeft_add_eq_or_of_lt low, Nat.shiftLeft_add_eq_or_of_lt low']
  apply Nat.eq_of_testBit_eq
  intro i
  simp only [Nat.testBit_and, Nat.testBit_or, Nat.testBit_shiftLeft, Nat.testBit_mod_two_pow, Nat.testBit_div_two_pow, Nat.testBit_two_pow_sub_one]
  by_cases hk : k ≤ i
  · rw [Nat.sub_add_cancel hk]
    cases x.testBit i <;> simp [hk]
  · cases x.testBit i <;> simp [hk]

/-- The writable bits of MT (Table 4.1). -/
theorem mt_written (v : Word) : v.setWidth 7 &&& mtMask = BitVec.ofNat 7 (v.toNat % 8 + v.toNat / 16 % 8 * 16) := by
  apply BitVec.eq_of_toNat_eq
  have h := Nat.and_two_fields (v.toNat % 2 ^ 7) 3 4 3 (by omega)
  have mask : (mtMask : BitVec 7).toNat = (2 ^ 3 - 1) * 2 ^ 4 + (2 ^ 3 - 1) := rfl
  rw [BitVec.toNat_and, BitVec.toNat_setWidth, mask, h, BitVec.toNat_ofNat]
  omega

/-- The writable bits of CFLAGS (Table 3.4). -/
theorem cflags_written (v : Word) :
    v.setWidth 21 &&& cflagsMask = BitVec.ofNat 21 (v.toNat % 2 + v.toNat / 256 % 8192 * 256) := by
  apply BitVec.eq_of_toNat_eq
  have h := Nat.and_two_fields (v.toNat % 2 ^ 21) 1 8 13 (by omega)
  have mask : (cflagsMask : BitVec 21).toNat = (2 ^ 13 - 1) * 2 ^ 8 + (2 ^ 1 - 1) := rfl
  rw [BitVec.toNat_and, BitVec.toNat_setWidth, mask, h, BitVec.toNat_ofNat]
  omega

theorem setWidth_eq_ofNat (v : Word) (n : Nat) : v.setWidth n = BitVec.ofNat n v.toNat := by
  apply BitVec.eq_of_toNat_eq; simp

/-- EW is not touched by the mask of VT. -/
theorem ewOf_written (v : Word) : ewOf (v &&& vtMask) = 8 * 2 ^ (v.toNat % 4) := by
  have low : (v &&& vtMask).toNat % 2 ^ 2 = v.toNat % 2 ^ 2 := by
    rw [BitVec.toNat_and, Nat.and_mod_two_pow]
    exact Nat.and_two_pow_sub_one_of_lt_two_pow (Nat.mod_lt _ (by omega))
  exact congrArg (fun n => 8 * 2 ^ n) low

/-- SETVT and CSRW of VT, with no grant pending (R159). -/
theorem exec_writesVt {s : State} {i : Instr} {a : BitVec 5} (h : i = .setvt a ∨ i = .csrw a .vt) :
    ∃ op, exec i s = .next (s.withRegs [a] (s.afterGrant ((s.setVt (s.reg a)).retire op))) := by
  rcases h with rfl | rfl
  · exact ⟨0x2D, rfl⟩
  · exact ⟨0x3C, rfl⟩

/-- The SET instructions and CSRW that write one register of the checkpoint change the process by one function (R368, R287). -/
theorem exec_of_setRegOf {s : State} {i : Instr} {a : BitVec 5} {x : Specials} (h : setRegOf s i = some (a, x)) :
    ∃ (op : Nat) (f : Proc → Proc), exec i s = .next (s.withRegs [a] ((s.updMe f).retire op)) ∧ (f s.me).specials = x ∧
      KeepsRegs s.me (f s.me) := by
  cases i
  case setvs b =>
    obtain ⟨rfl, rfl⟩ := Prod.mk.inj (Option.some.inj h)
    exact ⟨0x2D, fun p => { p with vs := s.reg b }, rfl, rfl, rfl, rfl, rfl, rfl, rfl, rfl⟩
  case setmt b =>
    obtain ⟨rfl, rfl⟩ := Prod.mk.inj (Option.some.inj h)
    rw [← mt_written]
    exact ⟨0x2D, fun p => { p with mt := (s.reg b).setWidth 7 &&& mtMask }, rfl, rfl, rfl, rfl, rfl, rfl, rfl, rfl⟩
  case setpeer b =>
    obtain ⟨rfl, rfl⟩ := Prod.mk.inj (Option.some.inj h)
    rw [← setWidth_eq_ofNat]
    exact ⟨0x2D, fun p => { p with peer := (s.reg b).setWidth 22 }, rfl, rfl, rfl, rfl, rfl, rfl, rfl, rfl⟩
  case csrw b n =>
    cases n
    case vs =>
      obtain ⟨rfl, rfl⟩ := Prod.mk.inj (Option.some.inj h)
      exact ⟨0x3C, fun p => { p with vs := s.reg b }, rfl, rfl, rfl, rfl, rfl, rfl, rfl, rfl⟩
    case mt =>
      obtain ⟨rfl, rfl⟩ := Prod.mk.inj (Option.some.inj h)
      rw [← mt_written]
      exact ⟨0x3C, fun p => { p with mt := (s.reg b).setWidth 7 &&& mtMask }, rfl, rfl, rfl, rfl, rfl, rfl, rfl, rfl⟩
    case peer =>
      obtain ⟨rfl, rfl⟩ := Prod.mk.inj (Option.some.inj h)
      rw [← setWidth_eq_ofNat]
      exact ⟨0x3C, fun p => { p with peer := (s.reg b).setWidth 22 }, rfl, rfl, rfl, rfl, rfl, rfl, rfl, rfl⟩
    case vmsel =>
      obtain ⟨rfl, rfl⟩ := Prod.mk.inj (Option.some.inj h)
      rw [← setWidth_eq_ofNat]
      exact ⟨0x3C, fun p => { p with vmsel := (s.reg b).setWidth 5 }, rfl, rfl, rfl, rfl, rfl, rfl, rfl, rfl⟩
    case cflags =>
      obtain ⟨rfl, rfl⟩ := Prod.mk.inj (Option.some.inj h)
      rw [← cflags_written]
      exact ⟨0x3C, fun p => { p with cflags := (s.reg b).setWidth 21 &&& cflagsMask }, rfl, rfl, rfl, rfl, rfl, rfl, rfl, rfl⟩
    all_goals simp [setRegOf] at h
  all_goals simp [setRegOf] at h

/-- Settles O24: each of these instructions changes the running process alone, or waits for its grant. -/
theorem setRegisterResult : Obligations.SetRegisterResult := by
  unfold Obligations.SetRegisterResult
  refine ⟨fun s i a x set free ss => ?_, fun s i a vt free ss grant => ?_, fun s i a g vt free grant => ?_⟩
  · obtain ⟨op, f, run, rfl, keeps⟩ := exec_of_setRegOf set
    obtain ⟨strip, only⟩ := State.updMe_retire_onlySpecial s f op keeps ss
    exact ⟨_, by rw [run, State.withRegs_free _ _ _ free], strip, only⟩
  · obtain ⟨op, run⟩ := exec_writesVt vt
    refine ⟨(s.setVt (s.reg a)).retire op, by rw [run, State.withRegs_free _ _ _ free, State.afterGrant_none _ _ grant], ?_⟩
    rw [← ewOf_written]
    exact (State.updMe_retire_onlySpecial s _ op ⟨rfl, rfl, rfl, rfl, rfl, rfl⟩ ss).2
  · obtain ⟨op, run⟩ := exec_writesVt vt
    refine ⟨s.block (.blockedToken g.sd) 0, ?_, ?_, ?_, State.block_specials .., State.block_sameRegs ..⟩
    · rw [run, State.withRegs_free _ _ _ free, State.afterGrant, grant]
    · rw [State.block_me]; rfl
    · rw [State.block_me]; rfl

end Sys2Proof.Machine
end

section
/-! PROOFS. PRIO, YIELD and FENCE (R38, R39, R109, R334, R360, R416). -/

namespace Sys2Proof.Machine

/-- PRIO changes the destination and the priority level. -/
def State.prioSet (s : State) (d a : BitVec 5) : State :=
  (s.setReg d (BitVec.ofNat 64 s.me.level)).updMe fun p => { p with level := max (s.regN a % 4) p.ceiling }

theorem exec_prio (s : State) (d a : BitVec 5) (free : s.free [a, d]) (plain : s.plain) :
    exec (.prio d a) s = .next ((s.prioSet d a).retire 0x2C) := by
  change Host.Outcome.next (s.withRegsCommit [a, d] _) = _
  rw [State.withRegsCommit_free _ _ _ free plain.2.1]
  rfl

/-- The process behind PRIO's change. -/
def Proc.prioSet (p : Proc) (d v : Nat) : Proc :=
  let q := p.setReg d (BitVec.ofNat 64 p.level)
  { q with level := max v q.ceiling }

theorem State.prioSet_me (s : State) (d a : BitVec 5) : (s.prioSet d a).me = s.me.prioSet d.toNat (s.regN a % 4) := by
  rw [State.prioSet, State.updMe_me, State.setReg_me]; rfl

theorem State.prioSet_onlyMe (s : State) (d a : BitVec 5) : OnlyMe s (s.prioSet d a) :=
  (State.updMe_onlyMe s _).trans (State.updMe_onlyMe _ _)

theorem State.prioSet_reg (s : State) (d a r : BitVec 5) : (s.prioSet d a).reg r = (s.setReg d (BitVec.ofNat 64 s.me.level)).reg r := by
  unfold State.reg
  rw [State.prioSet_me, State.setReg_me]
  rfl

theorem State.prioSet_sameRegs (s : State) (d a : BitVec 5) : SameRegs s (s.prioSet d a) [d] where
  regs r n := (State.prioSet_reg s d a r).trans ((State.setReg_same s d _).regs r n)
  caps k := by rw [State.prioSet_me]; exact Proc.cap_congr (Proc.setReg_caps _ _ _) k
  chans c := by rw [State.prioSet_me]; exact Proc.chan_congr (Proc.setReg_chans _ _ _) c

/-- The processes that a YIELD waits for (R38, log 43). -/
def State.yieldsFor (s : State) : List Nat :=
  (s.residents s.myTile).filter fun h => decide (h ≠ s.running ∧ (s.proc h).pst = .ready ∧ (s.proc h).level ≤ s.me.level)

theorem exec_yield (s : State) :
    exec .yield s = .next ((s.updMe fun p => { p with yields := s.yieldsFor.map fun h => (h, (s.proc h).epoch) }).retire 0x2C) := rfl

/-- A tile whose combining buffer is empty drains nothing. -/
theorem State.cbDrainAll_empty (s : State) (h : Nat) (cb : (s.tile (s.proc h).tile).cb = []) : s.cbDrainAll h = s := by
  simp only [State.cbDrainAll, cb, List.filter_nil, List.foldl_nil]

/-- The accesses that a FENCE of a scope waits for (R109). -/
def State.fenced (s : State) (sc : Scope) : List Nat :=
  (s.reqs.filter fun e => decide (e.2.h = s.running ∧ e.2.performed = false) && e.2.place.within s.myTile sc && !e.2.ofStream).map fun e => e.1

theorem exec_fence (s : State) (sc : Scope) (plain : s.plain) (cb : (s.tile s.me.tile).cb = []) :
    exec (.fence sc) s = .next (if (s.fenced sc).isEmpty then s.retire 0x2B else s.holdOn (s.fenced sc)) := by
  change Host.Outcome.next (s.afterCommit _) = _
  rw [State.afterCommit_none _ _ plain.2.1, State.cbDrainAll_empty s s.running cb]
  rfl

/-- Settles O29: PRIO and YIELD change the running process alone, FENCE retires or is held by the accesses that it covers. -/
theorem prioYieldFenceResult : Obligations.PrioYieldFenceResult := by
  unfold Obligations.PrioYieldFenceResult
  refine ⟨fun s d a free plain => ?_, fun s ss => ?_, fun s sc plain cb reqs => ?_, fun s id r plain cb reqs mine pending stream => ?_⟩
  · have ss : (s.prioSet d a).me.ss = false := by
      rw [State.prioSet_me, ← plain.1]; simp [Proc.prioSet, Proc.ss]
    have pc : (s.prioSet d a).me.pc = s.me.pc := by rw [State.prioSet_me]; simp [Proc.prioSet]
    have only := State.prioSet_onlyMe s d a
    have done := State.jump_only (s.prioSet d a) 0x2C (s.me.pc + 4) ss
    refine ⟨_, exec_prio s d a free plain, ?_, ?_, ?_⟩
    · rw [State.retire, pc, done.regs.regs d (by simp), State.prioSet_reg, State.reg_setReg]
      by_cases zero : d = 0
      · subst zero; simp [State.reg]
      · rw [if_pos ⟨rfl, zero⟩, if_neg zero]
    · rw [State.retire_me _ _ ss, State.prioSet_me]
      simp [Proc.completed, Proc.enter, Proc.prioSet, State.regN]
    · rw [State.retire, pc]
      refine OnlyRegs.after (State.prioSet_sameRegs s d a) ?_ only.memory only.units only.rest done
      rw [State.prioSet_me]
      simp [Proc.specials, Proc.prioSet]
  · rw [exec_yield, State.updMe_retire _ _ _ rfl]
    have me := State.updMe_jump_me s (fun p => { p with yields := s.yieldsFor.map fun h => (h, (s.proc h).epoch) }) 0x2C (s.me.pc + 4) ss
    have only := State.updMe_jump_onlyMe s (fun p => { p with yields := s.yieldsFor.map fun h => (h, (s.proc h).epoch) }) 0x2C (s.me.pc + 4) ss
    refine ⟨_, rfl, ⟨⟨by rw [me]; rfl, by rw [me]; rfl⟩, .of_me (by rw [me]; rfl) (by rw [me]; rfl) (by rw [me]; rfl), by rw [me]; rfl,
      only.memory, only.units, only.rest⟩, fun h => ?_⟩
    have waits : h ∈ s.yieldsFor ↔ h ∈ s.residents s.me.tile ∧ h ≠ s.running ∧ (s.proc h).pst = .ready ∧ (s.proc h).level ≤ s.me.level := by
      simp [State.yieldsFor, State.myTile]
    rw [me, ← waits]
    change (h, (s.proc h).epoch) ∈ s.yieldsFor.map _ ↔ _
    simp
  · have none : s.fenced sc = [] := by simp [State.fenced, reqs]
    exact ⟨_, by rw [exec_fence s sc plain cb, none]; rfl, State.jump_only s 0x2B (s.me.pc + 4) plain.1⟩
  · have one : s.fenced .system = [id] := by simp [State.fenced, reqs, mine, pending, stream, Place.within]
    refine ⟨s.holdOn [id], by rw [exec_fence s .system plain cb, one]; rfl, ?_, ?_, ?_, State.holdOn_sameRegs .., (State.holdOn_onlyMe s [id]).memory⟩ <;>
      rw [State.holdOn_me]

end Sys2Proof.Machine
end

section
/-! PROOFS. What the lane scheduler's queues leave of the state, and the ownership check in a state whose tiles and processes have changed
elsewhere (R44, R45, R241). -/

namespace Sys2Proof.Machine

/-- Equal tables of memory, and equal keys, read alike. -/
theorem SameMemory.of_tables {s t : State} (sram : t.sram = s.sram) (hbm : t.hbm = s.hbm) (epochs : t.hbmEpoch = s.hbmEpoch)
    (sramTags : t.sramTags = s.sramTags) (hbmTags : t.hbmTags = s.hbmTags) (keys : ∀ n, (t.part n).key = (s.part n).key) : SameMemory s t where
  sram k := by simp only [State.sramByte, sram]
  hbm part k := by simp only [State.hbmByte, hbm, epochs, keys]
  sramTag g := by rw [sramTags]
  hbmTag g := by rw [hbmTags]

theorem mem_insertDue (due : Nat) (i : Instr) (l : List (Nat × Instr)) : (due, i) ∈ insertDue due i l := by
  induction l with
  | nil => exact List.mem_singleton.2 rfl
  | cons e l ih =>
    obtain ⟨d, j⟩ := e
    simp only [insertDue]
    split
    · exact List.mem_cons_self
    · exact List.mem_cons_of_mem _ ih

theorem mem_insertDue_of_mem {e : Nat × Instr} {l : List (Nat × Instr)} (due : Nat) (i : Instr) (h : e ∈ l) : e ∈ insertDue due i l := by
  induction l with
  | nil => cases h
  | cons x l ih =>
    obtain ⟨d, j⟩ := x
    simp only [insertDue]
    split
    · exact List.mem_cons_of_mem _ h
    · rcases List.mem_cons.1 h with rfl | h
      · exact List.mem_cons_self
      · exact List.mem_cons_of_mem _ (ih h)

/-- A state without its tiles and without what is due. -/
def State.offTiles (s : State) : State := { s with tiles := [], events := [] }
/-- A tile without its lane requests. -/
def Tile.offReqs (x : Tile) : Tile := { x with laneReqs := [] }

/-- From `s` to `t` only reservations of lane requests have changed, and steps have become due. -/
structure LaneQueues (s t : State) : Prop where
  rest : t.offTiles = s.offTiles
  tile : ∀ n, (t.tile n).offReqs = (s.tile n).offReqs
  reqs : ∀ n, ∀ x ∈ (t.tile n).laneReqs, ∃ y ∈ (s.tile n).laneReqs, y.h = x.h
  events : ∀ e ∈ s.events, e ∈ t.events

namespace LaneQueues

theorem refl (s : State) : LaneQueues s s := ⟨rfl, fun _ => rfl, fun _ x hx => ⟨x, hx, rfl⟩, fun _ he => he⟩
theorem trans {s t u : State} (a : LaneQueues s t) (b : LaneQueues t u) : LaneQueues s u where
  rest := b.rest.trans a.rest
  tile n := (b.tile n).trans (a.tile n)
  reqs n x hx := by
    obtain ⟨y, hy, e⟩ := b.reqs n x hx
    obtain ⟨z, hz, e'⟩ := a.reqs n y hy
    exact ⟨z, hz, e'.trans e⟩
  events e he := b.events e (a.events e he)
theorem foldl {β : Type} (l : List β) (f : State → β → State) (h : ∀ s x, LaneQueues s (f s x)) : ∀ s, LaneQueues s (l.foldl f s) := by
  induction l with
  | nil => exact fun s => refl s
  | cons x l ih => exact fun s => (h s x).trans (ih _)
theorem afterCycles (s : State) (n : Nat) (i : Instr) : LaneQueues s (s.afterCycles n i) :=
  ⟨rfl, fun _ => rfl, fun _ x hx => ⟨x, hx, rfl⟩, fun _ he => mem_insertDue_of_mem _ _ he⟩

/-- Reserving clusters for a request (R45). -/
theorem reserve (s : State) (t : Nat) (q : LaneReq) (r : List Nat) :
    LaneQueues s (s.updTile t fun x => { x with laneReqs := x.laneReqs.map fun y => if y.h = q.h then { y with resv := r } else y }) where
  rest := rfl
  tile n := by rw [State.updTile_tile]; split <;> simp_all [Tile.offReqs]
  reqs n x hx := by
    rw [State.updTile_tile] at hx
    split at hx
    · next e =>
      subst e
      obtain ⟨y, hy, rfl⟩ := List.mem_map.1 hx
      exact ⟨y, hy, by split <;> rfl⟩
    · exact ⟨x, hx, rfl⟩
  events _ he := he

theorem reserveAll (t : Nat) : ∀ (fuel : Nat) (s : State), LaneQueues s (s.reserveAll t fuel)
  | 0, s => refl s
  | fuel + 1, s => by
    simp only [State.reserveAll]
    split
    · exact refl s
    · next q _ =>
      split
      · exact refl s
      · exact (reserve s t q _).trans (reserveAll t fuel _)

theorem checkReserved (s : State) (t : Nat) : LaneQueues s (s.checkReserved t) := by
  refine foldl _ _ (fun s q => ?_) s
  split
  · exact afterCycles _ _ _
  · exact refl _

/-- Reservations and grants settle (R45). -/
theorem settleLanes (s : State) (t : Nat) : LaneQueues s (s.settleLanes t) := (reserveAll t 32 s).trans (checkReserved _ t)

variable {s t : State}

theorem procs (q : LaneQueues s t) : t.procs = s.procs := by have e := congrArg State.procs q.rest; exact e
theorem running (q : LaneQueues s t) : t.running = s.running := by have e := congrArg State.running q.rest; exact e
theorem cycle (q : LaneQueues s t) : t.cycle = s.cycle := by have e := congrArg State.cycle q.rest; exact e
theorem parts (q : LaneQueues s t) : t.parts = s.parts := by have e := congrArg State.parts q.rest; exact e
theorem proc (q : LaneQueues s t) (h : Nat) : t.proc h = s.proc h := by unfold State.proc; rw [q.procs]
theorem me (q : LaneQueues s t) : t.me = s.me := by unfold State.me; rw [q.running, q.proc]
theorem vbank (q : LaneQueues s t) (n : Nat) : (t.tile n).vbank = (s.tile n).vbank := by have e := congrArg Tile.vbank (q.tile n); exact e
theorem mbank (q : LaneQueues s t) (n : Nat) : (t.tile n).mbank = (s.tile n).mbank := by have e := congrArg Tile.mbank (q.tile n); exact e
theorem owners (q : LaneQueues s t) (n : Nat) : (t.tile n).owners = (s.tile n).owners := by have e := congrArg Tile.owners (q.tile n); exact e
theorem slots (q : LaneQueues s t) (n : Nat) : (t.tile n).slots = (s.tile n).slots := by have e := congrArg Tile.slots (q.tile n); exact e
theorem memory (q : LaneQueues s t) : SameMemory s t := by
  have sram := congrArg State.sram q.rest
  have hbm := congrArg State.hbm q.rest
  have epochs := congrArg State.hbmEpoch q.rest
  have sramTags := congrArg State.sramTags q.rest
  have hbmTags := congrArg State.hbmTags q.rest
  exact .of_tables sram hbm epochs sramTags hbmTags fun n => by simp only [State.part, q.parts]
theorem units (q : LaneQueues s t) : SameUnits s t where
  vbank := q.vbank
  mbank := q.mbank
  treg n := by have e := congrArg Tile.treg (q.tile n); exact e
  tsh n := by have e := congrArg Tile.tsh (q.tile n); exact e
  cbt n := by have e := congrArg Tile.cbt (q.tile n); exact e
  an n := by have e := congrArg Tile.an (q.tile n); exact e
  owners := q.owners
theorem rest_same (q : LaneQueues s t) : SameRest s t where
  running := q.running
  procs h _ := q.proc h
  parts n := by simp only [State.part, q.parts]
  eps e := by have h := congrArg State.eps q.rest; simp only [State.ep]; rw [show t.eps = s.eps from h]
  pcap := by have e := congrArg State.pcap q.rest; exact e
  pset := by have e := congrArg State.pset q.rest; exact e
  hepset := by have e := congrArg State.hepset q.rest; exact e
  cycle := q.cycle

end LaneQueues

/-- What the table walk and the reads of HBM look at (R98, R259). -/
def State.hbmCore (s : State) : State :=
  { State.reset with hbm := s.hbm, hbmEpoch := s.hbmEpoch, hbmBad := s.hbmBad, parts := s.parts }

/-- A table walk, which has three levels, reads HBM and the partitions alone (R98). -/
theorem State.walk_hbmCore (s : State) (part va lvl table : Nat) : s.walk part va 3 lvl table = s.hbmCore.walk part va 3 lvl table := rfl

/-- The saved-state bits are those of the control block, or of the last swap-in (R240). -/
theorem State.savedBits_congr {s t : State} {h : Nat} (core : t.hbmCore = s.hbmCore) (part : (t.proc h).part = (s.proc h).part)
    (saved : (t.proc h).saved = (s.proc h).saved) : t.savedBits h = s.savedBits h := by
  have same : ∀ n, t.part n = s.part n := fun n => by
    have e := congrArg (fun u : State => u.part n) core
    exact e
  have byte : ∀ n k, t.hbmByte n k = s.hbmByte n k := fun n k => by
    have e := congrArg (fun u : State => u.hbmByte n k) core
    exact e
  have walk : ∀ n va table, t.walk n va 3 1 table = s.walk n va 3 1 table := fun n va table => by
    rw [State.walk_hbmCore, core, ← State.walk_hbmCore]
  simp only [State.savedBits, part, same, walk, byte, saved]

/-- The ownership check reads the process's tile, STATUS, CAUSE and saved-state bits, and the tile's owners (R241). -/
theorem State.conflict_congr {s t : State} {h : Nat} (core : t.hbmCore = s.hbmCore) (tile : (t.proc h).tile = (s.proc h).tile)
    (status : (t.proc h).status = (s.proc h).status) (cause : (t.proc h).cause = (s.proc h).cause) (part : (t.proc h).part = (s.proc h).part)
    (saved : (t.proc h).saved = (s.proc h).saved) (owners : (t.tile (s.proc h).tile).owners = (s.tile (s.proc h).tile).owners) (kind : Nat)
    (sl : List Nat) : t.conflict h kind sl = s.conflict h kind sl := by
  have bits := State.savedBits_congr core part saved
  have crosses : (t.proc h).crosses kind = (s.proc h).crosses kind := by
    unfold Proc.crosses Proc.xo Proc.causeUnit; rw [status, cause]
  simp only [State.conflict, tile, owners, bits, crosses]

/-- A change of the process that keeps what the ownership check reads of it. -/
theorem State.conflict_updProc (s : State) (h : Nat) (f : Proc → Proc) (tile : (f (s.proc h)).tile = (s.proc h).tile)
    (status : (f (s.proc h)).status = (s.proc h).status) (cause : (f (s.proc h)).cause = (s.proc h).cause)
    (part : (f (s.proc h)).part = (s.proc h).part) (saved : (f (s.proc h)).saved = (s.proc h).saved) (kind : Nat) (sl : List Nat) :
    (s.updProc h f).conflict h kind sl = s.conflict h kind sl := by
  have same := State.updProc_proc_same s h f
  exact State.conflict_congr (s := s) (t := s.updProc h f) rfl ((congrArg Proc.tile same).trans tile) ((congrArg Proc.status same).trans status)
    ((congrArg Proc.cause same).trans cause) ((congrArg Proc.part same).trans part) ((congrArg Proc.saved same).trans saved) rfl kind sl

end Sys2Proof.Machine
end

section
/-! PROOFS. SETVL: lanes given up, kept and asked for (R43, R44, R47, R148, R153). -/

namespace Sys2Proof.Machine

/-- The shape that a SETVL of the running process asks for (R43). -/
def State.setvlWant (s : State) (a : BitVec 5) : Want := wantOf (s.regN a) (ewOf s.me.vt) (s.unfused s.myTile).length
/-- The state in which SETVL has opened its strip (R148, R153). -/
def State.setvlOpen (s : State) (a : BitVec 5) : State :=
  s.openStrip s.running s.me.pc (stripLimits (s.setvlWant a)).1 (stripLimits (s.setvlWant a)).2
/-- The state in which SETVL has asked the scheduler for its lanes (R43). -/
def State.setvlAsk (s : State) (d a : BitVec 5) : State :=
  (((s.setvlOpen a).withdraw s.running).requestLanes s.running d.toNat (s.regN a) ((s.setvlOpen a).requestAge s.running))

theorem exec_setvl (s : State) (d a : BitVec 5) (free : s.free [a, d]) (plain : s.plain) :
    exec (.setvl d a) s = .next (if s.regN a = 0 then (s.setvlOpen a).setvlZero d
      else if (s.setvlAsk d a).me.pgrant.isSome then (s.setvlAsk d a).setvlPending d
      else match (s.setvlOpen a).conflict s.running 0 (s.setvlOpen a).me.slivers with
        | some (o, m) => (s.setvlOpen a).raise 0x2D .vown { owner := o, xmask := m }
        | none => ((s.setvlAsk d a).takeUnits s.running 0 (s.setvlAsk d a).me.slivers).setvlCurrent d (s.regN a)) := by
  change Host.Outcome.next (s.withRegs [a, d] (s.afterGrant (s.afterCommit _))) = _
  rw [State.withRegs_free _ _ _ free, State.afterGrant_none _ _ plain.2.2, State.afterCommit_none _ _ plain.2.1, State.withRegs_free _ _ _ free]
  rfl

/-- The strip that SETVL opens. -/
def Proc.stripAt (p : Proc) (pc : BitVec 48) (maxVec maxSca : Nat) : Strip :=
  { pc := pc, sregs := p.sregs, pend := p.pend, vs := p.vs, vt := p.vt, vmsel := p.vmsel, mt := p.mt, peer := p.peer,
    cflags := p.cflags, mstep := p.mstep, maxVec := maxVec, maxSca := maxSca, vpushed := p.vpushed }

theorem State.setvlOpen_me (s : State) (a : BitVec 5) : (s.setvlOpen a).me =
    { s.me with strip := some (s.me.stripAt s.me.pc (stripLimits (s.setvlWant a)).1 (stripLimits (s.setvlWant a)).2) } :=
  State.updProc_proc_same _ _ _
theorem State.setvlOpen_onlyMe (s : State) (a : BitVec 5) : OnlyMe s (s.setvlOpen a) := State.updMe_onlyMe s _

theorem State.setvlOpen_conflict (s : State) (a : BitVec 5) (kind : Nat) (sl : List Nat) :
    (s.setvlOpen a).conflict s.running kind sl = s.conflict s.running kind sl :=
  State.conflict_updProc s s.running _ rfl rfl rfl rfl rfl kind sl

/-- Withdrawing a request changes the queues alone (R422). -/
theorem State.withdraw_onlyMe (s : State) (h : Nat) : OnlyMe s (s.withdraw h) := by
  have tile : ∀ n, ((s.withdraw h).tile n).offReqs = (s.tile n).offReqs := fun n => by
    unfold State.withdraw
    rw [State.cancel_tile, State.updTile_tile]
    split <;> simp_all [Tile.offReqs]
  refine ⟨.of_tables rfl rfl rfl rfl rfl fun _ => rfl, ⟨?_, ?_, ?_, ?_, ?_, ?_, ?_⟩,
    ⟨rfl, fun _ _ => rfl, fun _ => rfl, fun _ => rfl, rfl, rfl, rfl, rfl⟩⟩ <;> intro n
  · have e := congrArg Tile.vbank (tile n); exact e
  · have e := congrArg Tile.mbank (tile n); exact e
  · have e := congrArg Tile.treg (tile n); exact e
  · have e := congrArg Tile.tsh (tile n); exact e
  · have e := congrArg Tile.cbt (tile n); exact e
  · have e := congrArg Tile.an (tile n); exact e
  · have e := congrArg Tile.owners (tile n); exact e

theorem LaneQueues.onlyMe {s t : State} (q : LaneQueues s t) : OnlyMe s t := ⟨q.memory, q.units, q.rest_same⟩

/-- The process behind SETVL with AVL = 0. -/
def Proc.noLanes (p : Proc) (d : BitVec 5) : Proc :=
  ({ p with slivers := [], cluster := false, lastGrant := [], vl := 0 } : Proc).setReg d.toNat 0

@[simp] theorem Proc.noLanes_pc (p : Proc) (d : BitVec 5) : (p.noLanes d).pc = p.pc := Proc.setReg_pc _ _ _
@[simp] theorem Proc.noLanes_ss (p : Proc) (d : BitVec 5) : (p.noLanes d).ss = p.ss := by simp [Proc.noLanes, Proc.ss]
@[simp] theorem Proc.noLanes_vl (p : Proc) (d : BitVec 5) : (p.noLanes d).vl = 0 := Proc.setReg_vl _ _ _
@[simp] theorem Proc.noLanes_slivers (p : Proc) (d : BitVec 5) : (p.noLanes d).slivers = [] := Proc.setReg_slivers _ _ _
@[simp] theorem Proc.noLanes_strip (p : Proc) (d : BitVec 5) : (p.noLanes d).strip = p.strip := Proc.setReg_strip _ _ _
@[simp] theorem Proc.noLanes_reg (p : Proc) (d : BitVec 5) : (p.noLanes d).reg d.toNat = 0 := by
  by_cases d0 : d.toNat = 0
  · rw [d0]; rfl
  · exact Proc.reg_setReg_same _ _ _ d0

/-- The lanes are given up, and VL and sd are 0 (R43). -/
def State.lanesGone (s : State) (d : BitVec 5) : State :=
  (((s.withdraw s.running).releaseLanes s.running).updMe fun p => { p with vl := 0 }).setReg d 0

theorem State.setvlZero_eq (s : State) (d : BitVec 5) : s.setvlZero d = ((s.lanesGone d).settleLanes s.myTile).retire 0x2D := rfl

theorem State.releaseLanes_me (s : State) : (s.releaseLanes s.running).me = { s.me with slivers := [], cluster := false, lastGrant := [] } :=
  State.updProc_proc_same _ _ _
theorem State.releaseLanes_memory (s : State) (h : Nat) : SameMemory s (s.releaseLanes h) := .of_tables rfl rfl rfl rfl rfl fun _ => rfl

theorem State.lanesGone_me (s : State) (d : BitVec 5) : (s.lanesGone d).me = s.me.noLanes d := by
  have released : ((s.withdraw s.running).releaseLanes s.running).me = { s.me with slivers := [], cluster := false, lastGrant := [] } :=
    State.releaseLanes_me (s.withdraw s.running)
  rw [State.lanesGone, State.setReg_me, State.updMe_me, released]; rfl
theorem State.lanesGone_memory (s : State) (d : BitVec 5) : SameMemory s (s.lanesGone d) := by
  unfold State.lanesGone State.setReg
  exact ((State.withdraw_onlyMe s s.running).memory.trans (State.releaseLanes_memory _ _)).trans
    ((State.updMe_memory _ _).trans (State.updMe_memory _ _))

/-- Behind a change of the lanes the scheduler settles, and the instruction completes. -/
theorem State.settle_retire (s : State) (tile op : Nat) (ss : s.me.ss = false) :
    ((s.settleLanes tile).retire op).me = s.me.completed s.cycle (s.me.pc + 4) ∧ OnlyMe s ((s.settleLanes tile).retire op) := by
  have queues := LaneQueues.settleLanes s tile
  have ss' : (s.settleLanes tile).me.ss = false := by rw [queues.me, ss]
  have only := State.jump_only (s.settleLanes tile) op ((s.settleLanes tile).me.pc + 4) ss'
  exact ⟨by rw [State.retire_me _ _ ss', queues.me, queues.cycle], queues.onlyMe.trans ⟨only.memory, only.units, only.rest⟩⟩

/-- SETVL with AVL = 0 (R43, R153). -/
theorem setvl_zero (s : State) (d a : BitVec 5) (free : s.free [a, d]) (plain : s.plain) (zero : s.reg a = 0) :
    ∃ t k, exec (.setvl d a) s = .next t ∧ t.reg d = 0 ∧ t.me.vl = 0 ∧ t.me.slivers = [] ∧ t.me.strip = some k ∧ k.pc = s.me.pc ∧
      (k.maxVec, k.maxSca) = (0, 16) ∧ WentTo t (s.me.pc + 4) ∧ SameMemory s t := by
  have avl : s.regN a = 0 := by rw [State.regN, zero]; rfl
  have want : s.setvlWant a = .none := by simp [State.setvlWant, wantOf, avl]
  have opened := State.setvlOpen_me s a
  rw [want] at opened
  have gone := State.lanesGone_me (s.setvlOpen a) d
  have ss : ((s.setvlOpen a).lanesGone d).me.ss = false := by rw [gone, Proc.noLanes_ss, opened]; exact plain.1
  obtain ⟨me, only⟩ := State.settle_retire ((s.setvlOpen a).lanesGone d) (s.setvlOpen a).myTile 0x2D ss
  have pc : ((s.setvlOpen a).me.noLanes d).pc = s.me.pc := by rw [Proc.noLanes_pc, opened]
  rw [gone, pc] at me
  refine ⟨_, s.me.stripAt s.me.pc 0 16, by rw [exec_setvl s d a free plain, if_pos avl, State.setvlZero_eq], ?_, ?_, ?_, ?_, rfl, rfl,
    ⟨?_, ?_⟩, ((State.setvlOpen_onlyMe s a).memory.trans (State.lanesGone_memory _ d)).trans only.memory⟩
  · rw [State.reg, me]; simp
  · rw [me]; simp
  · rw [me]; simp
  · rw [me, Proc.completed_strip, Proc.noLanes_strip, opened]; rfl
  · rw [me]; rfl
  · rw [me]; rfl

/-! The shape that the process holds already. -/

/-- A shape of one sliver, in R43's words and the model's. -/
theorem wantOf_sliver {avl ew : Nat} (shape : shapeFor avl ew = .sliver) : avl ≠ 0 ∧ ∀ unfused, wantOf avl ew unfused = .sliver := by
  unfold shapeFor at shape
  have avl0 : avl ≠ 0 := by intro zero; simp [zero] at shape
  refine ⟨avl0, fun unfused => ?_⟩
  rw [if_neg avl0] at shape
  by_cases need : min 64 ((avl * ew + 255) / 256) ≤ 4
  · simp only [wantOf, cdiv, if_neg avl0]
    exact if_pos need
  · rw [if_neg need] at shape
    cases shape

/-- The lanes of one sliver (R12). -/
theorem lanesOf_one {n : Nat} (h : n < 16) : (lanesOf [n]).length = 4 := by
  have all : ∀ n, n < 16 → (lanesOf [n]).length = 4 := by decide
  exact all n h

/-- No other process waits for clusters of a tile without requests (R45). -/
theorem State.reservedByOthers_none (s : State) (t h : Nat) (reqs : (s.tile t).laneReqs = []) : s.reservedByOthers t h = [] := by
  simp [State.reservedByOthers, reqs]

/-- A process with one sliver on a tile without requests holds the shape of one sliver (R44). -/
theorem State.grant_current (s : State) (h n : Nat) (slivers : (s.proc h).slivers = [n]) (cluster : (s.proc h).cluster = false)
    (reqs : (s.tile (s.proc h).tile).laneReqs = []) : s.grant h .sliver = .current := by
  simp [State.grant, slivers, cluster, State.reservedByOthers_none s _ h reqs]

/-- SETVL's strip and the withdrawal of an older request, which a tile without requests does not have. -/
def State.setvlReady (s : State) (a : BitVec 5) : State := (s.setvlOpen a).withdraw s.running

theorem State.setvlReady_me (s : State) (a : BitVec 5) : (s.setvlReady a).me = (s.setvlOpen a).me := rfl
theorem State.setvlReady_onlyMe (s : State) (a : BitVec 5) : OnlyMe s (s.setvlReady a) :=
  (State.setvlOpen_onlyMe s a).trans (State.withdraw_onlyMe _ _)
theorem State.setvlReady_reqs (s : State) (a : BitVec 5) {n : Nat} (reqs : (s.tile n).laneReqs = []) : ((s.setvlReady a).tile n).laneReqs = [] := by
  have same : (s.setvlOpen a).tile n = s.tile n := rfl
  unfold State.setvlReady State.withdraw
  rw [State.cancel_tile, State.updTile_tile]
  split
  · next e => subst e; rw [same]; simp [reqs]
  · rw [same, reqs]
/-- What SETVL asks the scheduler for, as the scheduler sees it. -/
theorem State.setvlAsk_eq (s : State) (d a : BitVec 5) : s.setvlAsk d a = (s.setvlReady a).askLanes s.running
    { want := wantOf (s.regN a) (ewOf (s.setvlReady a).me.vt) ((s.setvlReady a).unfused (s.setvlReady a).myTile).length, sd := d.toNat,
      avl := s.regN a, ew := ewOf (s.setvlReady a).me.vt } ((s.setvlOpen a).requestAge s.running) false := rfl

/-- VL and sd under the lanes held. -/
def State.vlSet (s : State) (d : BitVec 5) (avl : Nat) : State :=
  (s.updMe fun p => { p with vl := BitVec.ofNat 12 (min avl (vlmaxOf (lanesOf s.me.slivers).length (ewOf s.me.vt))) }).setReg d
    (BitVec.ofNat 64 (min avl (vlmaxOf (lanesOf s.me.slivers).length (ewOf s.me.vt))))

theorem State.setvlCurrent_eq (s : State) (d : BitVec 5) (avl : Nat) :
    s.setvlCurrent d avl = ((s.vlSet d avl).settleLanes (s.vlSet d avl).myTile).retire 0x2D := rfl
theorem State.vlSet_onlyMe (s : State) (d : BitVec 5) (avl : Nat) : OnlyMe s (s.vlSet d avl) := by
  unfold State.vlSet State.setReg
  exact (State.updMe_onlyMe _ _).trans (State.updMe_onlyMe _ _)
theorem State.vlSet_me (s : State) (d : BitVec 5) (avl : Nat) : (s.vlSet d avl).me =
    ({ s.me with vl := BitVec.ofNat 12 (min avl (vlmaxOf (lanesOf s.me.slivers).length (ewOf s.me.vt))) } : Proc).setReg d.toNat
      (BitVec.ofNat 64 (min avl (vlmaxOf (lanesOf s.me.slivers).length (ewOf s.me.vt)))) := by
  rw [State.vlSet, State.setReg_me, State.updMe_me]



end Sys2Proof.Machine
end

section
/-! PROOFS. SETVL of the shape that the process holds, and of lanes on an idle tile (R43, R44, R47, R240). -/

namespace Sys2Proof.Machine

/-- SETVL of the shape held, with free registers and the sliver nobody else's. -/
theorem exec_setvl_current (s : State) (d a : BitVec 5) (n : Nat) (free : s.free [a, d]) (plain : s.plain) (slivers : s.me.slivers = [n])
    (cluster : s.me.cluster = false) (reqs : (s.tile s.me.tile).laneReqs = [])
    (shape : shapeFor (s.reg a).toNat (8 * 2 ^ (s.me.vt.toNat % 4)) = .sliver) (own : s.conflict s.running 0 [n] = none) :
    exec (.setvl d a) s = .next ((s.setvlReady a).owned.setvlCurrent d (s.regN a)) := by
  obtain ⟨avl, want⟩ := wantOf_sliver shape
  have opened := State.setvlOpen_me s a
  have ready : (s.setvlReady a).me = (s.setvlOpen a).me := State.setvlReady_me s a
  have ask : s.setvlAsk d a = s.setvlReady a := by
    have vt : (s.setvlReady a).me.vt = s.me.vt := by rw [ready, opened]
    have current : (s.setvlReady a).grant s.running .sliver = .current := by
      refine State.grant_current _ _ n ?_ ?_ ?_
      · exact (congrArg Proc.slivers (ready.trans opened)).trans slivers
      · exact (congrArg Proc.cluster (ready.trans opened)).trans cluster
      · have tile := congrArg Proc.tile (ready.trans opened)
        rw [show ((s.setvlReady a).proc s.running).tile = s.me.tile from tile]
        exact State.setvlReady_reqs s a reqs
    have wanted := want ((s.setvlReady a).unfused (s.setvlReady a).myTile).length
    rw [State.setvlAsk_eq, vt]
    simp only [State.askLanes, ewOf, State.regN, wanted, current]
  have clash : (s.setvlOpen a).conflict s.running 0 (s.setvlOpen a).me.slivers = none := by
    rw [State.setvlOpen_conflict, opened]
    simpa only [slivers] using own
  have grant : (s.setvlReady a).me.pgrant.isSome = false := by rw [ready, opened]; simp [plain.2.2]
  have positive : ¬ s.regN a = 0 := avl
  rw [exec_setvl s d a free plain, if_neg positive, ask, grant, clash]
  rfl

/-- SETVL of the shape held (R43, R47, R240). -/
theorem setvl_current (s : State) (d a : BitVec 5) (n : Nat) (free : s.free [a, d]) (plain : s.plain) (slivers : s.me.slivers = [n]) (n16 : n < 16)
    (cluster : s.me.cluster = false) (reqs : (s.tile s.me.tile).laneReqs = [])
    (shape : shapeFor (s.reg a).toNat (8 * 2 ^ (s.me.vt.toNat % 4)) = .sliver) (own : s.conflict s.running 0 [n] = none)
    (crosses : s.me.crosses 0 = false) :
    ∃ t k, exec (.setvl d a) s = .next t ∧ t.me.vl = .ofNat 12 (min (s.reg a).toNat (1024 / (8 * 2 ^ (s.me.vt.toNat % 4)))) ∧
      t.reg d = (if d = 0 then 0 else .ofNat 64 (min (s.reg a).toNat (1024 / (8 * 2 ^ (s.me.vt.toNat % 4))))) ∧ t.me.slivers = [n] ∧
      t.me.strip = some k ∧ k.pc = s.me.pc ∧ (k.maxVec, k.maxSca) = (8, 16) ∧ SameRegs s t [d] ∧ WentTo t (s.me.pc + 4) ∧ SameMemory s t ∧
      SameVec s t ∧ SameMask s t ∧ SameTregs s t ∧ SameShapes s t ∧ (∀ k, (t.tile k).an = (s.tile k).an) ∧
      Tab.lookD (t.tile s.me.tile).owners n 0 = s.running := by
  have opened := State.setvlOpen_me s a
  rw [show s.setvlWant a = .sliver from (wantOf_sliver shape).2 _] at opened
  -- the state in which the sliver is touched, and the one in which VL and sd are written
  have ownedMe : (s.setvlReady a).owned.me = { s.me with strip := some (s.me.stripAt s.me.pc 8 16) } :=
    ((State.owned_me _).trans (State.setvlReady_me s a)).trans opened
  have vlmax : vlmaxOf (lanesOf (s.setvlReady a).owned.me.slivers).length (ewOf (s.setvlReady a).owned.me.vt) =
      1024 / (8 * 2 ^ (s.me.vt.toNat % 4)) := by
    rw [ownedMe]; simp only [slivers, lanesOf_one n16]; rfl
  have vlMe := State.vlSet_me (s.setvlReady a).owned d (s.regN a)
  rw [vlmax, ownedMe] at vlMe
  have ss : ((s.setvlReady a).owned.vlSet d (s.regN a)).me.ss = false := by
    rw [vlMe, ← plain.1]; simp [Proc.ss]
  obtain ⟨me, last⟩ := State.settle_retire ((s.setvlReady a).owned.vlSet d (s.regN a)) ((s.setvlReady a).owned.vlSet d (s.regN a)).myTile 0x2D ss
  have run := exec_setvl_current s d a n free plain slivers cluster reqs shape own
  rw [State.setvlCurrent_eq] at run
  have pc : ((s.setvlReady a).owned.vlSet d (s.regN a)).me.pc = s.me.pc := by rw [vlMe]; simp
  rw [pc] at me
  -- what the tiles hold
  have first := State.setvlReady_onlyMe s a
  have rest : OnlyMe (s.setvlReady a).owned ((((s.setvlReady a).owned.vlSet d (s.regN a)).settleLanes
    ((s.setvlReady a).owned.vlSet d (s.regN a)).myTile).retire 0x2D) := (State.vlSet_onlyMe _ _ _).trans last
  generalize (((s.setvlReady a).owned.vlSet d (s.regN a)).settleLanes ((s.setvlReady a).owned.vlSet d (s.regN a)).myTile).retire 0x2D = t
    at me rest run
  generalize ((s.setvlReady a).owned.vlSet d (s.regN a)).cycle = c at me
  rw [vlMe] at me
  have owned := State.owned_tile (s.setvlReady a)
  have unit : ∀ {β : Type} (f : Tile → β), (∀ k, f (t.tile k) = f ((s.setvlReady a).owned.tile k)) →
      (∀ k, f ((s.setvlReady a).tile k) = f (s.tile k)) → (∀ x o, f { x with owners := o } = f x) → ∀ k, f (t.tile k) = f (s.tile k) := by
    intro β f behind before keeps k
    obtain ⟨o, e, -⟩ := owned k
    rw [behind, e, keeps, before]
  have vbank := unit Tile.vbank rest.units.vbank first.units.vbank fun _ _ => rfl
  have mbank := unit Tile.mbank rest.units.mbank first.units.mbank fun _ _ => rfl
  have treg := unit Tile.treg rest.units.treg first.units.treg fun _ _ => rfl
  have tsh := unit Tile.tsh rest.units.tsh first.units.tsh fun _ _ => rfl
  have cbt := unit Tile.cbt rest.units.cbt first.units.cbt fun _ _ => rfl
  have an := unit Tile.an rest.units.an first.units.an fun _ _ => rfl
  have regs : SameRegs s t [d] := by
    refine ⟨fun r other => ?_, fun k => ?_, fun k => ?_⟩
    · have ne : d.toNat ≠ r.toNat := fun e => other (by simp [BitVec.eq_of_toNat_eq e])
      unfold State.reg
      rw [me, Proc.completed_reg, Proc.reg_setReg, if_neg fun e => ne e.1]
      rfl
    · rw [me]; exact Proc.cap_congr (Proc.setReg_caps _ _ _) k
    · rw [me, Proc.completed_chan]; exact Proc.chan_congr (Proc.setReg_chans _ _ _) k
  refine ⟨t, s.me.stripAt s.me.pc 8 16, run, ?_, ?_, ?_, ?_, rfl, rfl, regs, ⟨?_, ?_⟩, first.memory.trans ((State.owned_memory _).trans rest.memory),
    fun k i => by rw [vbank], fun k i => by rw [mbank], fun k i => by rw [treg], ⟨fun k i => by rw [tsh], cbt⟩, an, ?_⟩
  · rw [me]; simp [State.regN]
  · rw [State.reg, me, Proc.completed_reg, Proc.reg_setReg]
    by_cases zero : d = 0
    · subst zero; simp
    · have ne : d.toNat ≠ 0 := fun e => zero (BitVec.eq_of_toNat_eq e)
      rw [if_pos ⟨rfl, ne⟩, if_neg zero]; rfl
  · rw [me]; simp [slivers]
  · rw [me]; simp
  · rw [me]; rfl
  · rw [me]; rfl
  · obtain ⟨o, e, look⟩ := owned s.me.tile
    have tile : (s.setvlReady a).me.tile = s.me.tile := by rw [State.setvlReady_me, opened]
    have mine : (s.setvlReady a).me.slivers = [n] := by rw [State.setvlReady_me, opened]; exact slivers
    have cross : (s.setvlReady a).me.crosses 0 = false := by rw [State.setvlReady_me, opened]; exact crosses
    rw [rest.units.owners, e, look, if_pos ⟨tile.symm, by rw [mine]; exact List.mem_singleton.2 rfl, cross⟩]
    rfl

end Sys2Proof.Machine
end

section
/-! PROOFS. SETVL on an idle tile: a grant that takes effect 64 cycles later (R43, R44, R47). -/

namespace Sys2Proof.Machine

/-- No process of the tile holds a lane or waits for one, and no cluster is fused. -/
structure IdleTile (s : State) (t : Nat) : Prop where
  fused : s.fused t = 0
  reqs : (s.tile t).laneReqs = []
  lanes : ∀ h ∈ s.residents t, (s.proc h).slivers = [] ∧ (s.proc h).pgrant = none

theorem IdleTile.unfused {s : State} {t : Nat} (idle : IdleTile s t) : s.unfused t = [0, 1, 2, 3] := by
  simp only [State.unfused, idle.fused]; rfl

theorem IdleTile.occupiedByOthers {s : State} {t : Nat} (idle : IdleTile s t) (h : Nat) : s.occupiedByOthers t h = [] := by
  rw [State.occupiedByOthers, List.flatMap_eq_nil_iff]
  intro x hx
  obtain ⟨slivers, grant⟩ := idle.lanes x (List.mem_filter.1 hx).1
  simp [Proc.heldSlivers, slivers, grant]

theorem IdleTile.wholeClusters {s : State} {t : Nat} (idle : IdleTile s t) (h : Nat) : s.wholeClusters t h = [] := by
  rw [State.wholeClusters, List.flatMap_eq_nil_iff]
  intro x hx
  obtain ⟨slivers, grant⟩ := idle.lanes x (List.mem_filter.1 hx).1
  simp [slivers, grant]

/-- On an idle tile the packing rule takes the first sliver (R44). -/
theorem IdleTile.packing {s : State} {t : Nat} (idle : IdleTile s t) (h : Nat) : s.packing t h = some 0 := by
  have load : ∀ c, s.loadOf t h c = 0 := fun c => by simp [State.loadOf, idle.occupiedByOthers]
  simp [State.packing, idle.unfused, idle.occupiedByOthers, idle.wholeClusters, State.reservedByOthers_none s t h idle.reqs, bestOf, load, sliversIn]

/-- A shape that a tile with four clusters can give. -/
def Want.fits : Want → Prop
  | .none => False
  | .sliver => True
  | .clusters c => 1 ≤ c ∧ c ≤ 4

theorem wantOf_fits {avl : Nat} (ew : Nat) (h : avl ≠ 0) : (wantOf avl ew 4).fits := by
  have covers : ∀ n, 1 ≤ min (cover n) 4 ∧ min (cover n) 4 ≤ 4 := fun n => by unfold cover; split <;> [skip; split] <;> omega
  unfold wantOf
  dsimp only
  rw [if_neg h]
  split
  · trivial
  · exact covers _

/-- A process without lanes on an idle tile is granted what it asks for, whole (R44). -/
theorem IdleTile.grant {s : State} {h : Nat} (idle : IdleTile s (s.proc h).tile) (slivers : (s.proc h).slivers = []) {w : Want} (fits : w.fits) :
    ∃ sl cl, s.grant h w = .lanes sl cl false := by
  have taken := State.reservedByOthers_none s (s.proc h).tile h idle.reqs
  cases w with
  | none => exact fits.elim
  | sliver => exact ⟨[0], false, by simp [State.grant, slivers, idle.packing]⟩
  | clusters c =>
    obtain ⟨one, four⟩ := fits
    have unshaped : ((s.proc h).cluster && decide ((s.proc h).slivers.length = 4 * c)) = false := by
      rw [slivers]; simp; omega
    exact ⟨([0, 1, 2, 3].take c).flatMap sliversIn, true, by
      simp [State.grant, unshaped, taken, idle.unfused, idle.occupiedByOthers, four]⟩

/-- The grant of a SETVL, as it waits to take effect. -/
def State.grantOf (s : State) (h sd avl : Nat) (sl : List Nat) (cl : Bool) : PGrant :=
  { sd := sd, avl := avl, ew := ewOf (s.proc h).vt, slivers := sl, cluster := cl, assigned := true, due := s.cycle + Config.grantDelay,
    pc := (s.proc h).pc, again := false }

/-- A SETVL that is granted lanes waits for them (R47). -/
theorem IdleTile.requestLanes {s : State} {h : Nat} (idle : IdleTile s (s.proc h).tile) (slivers : (s.proc h).slivers = []) (sd age : Nat)
    {avl : Nat} (positive : avl ≠ 0) : ∃ sl cl, s.requestLanes h sd avl age =
      ((s.waitGrant h (s.grantOf h sd avl sl cl)).afterCycles Config.grantDelay (.laneGrantEffect (s.proc h).tile h)).settleLanes (s.proc h).tile := by
  have unfused : (s.unfused (s.proc h).tile).length = 4 := by rw [idle.unfused]; rfl
  obtain ⟨sl, cl, granted⟩ := idle.grant slivers (wantOf_fits (ewOf (s.proc h).vt) positive)
  refine ⟨sl, cl, ?_⟩
  simp only [State.requestLanes, State.askLanes, unfused, granted, Bool.false_eq_true, if_false]
  rfl

/-- The process while its SETVL waits for lanes. -/
def Proc.waiting (p : Proc) (g : PGrant) : Proc :=
  { p with pgrant := some g, pend := if g.sd = 0 then p.pend else Tab.put p.pend g.sd .grant }

theorem State.waitGrant_me (s : State) (g : PGrant) : (s.waitGrant s.running g).me = s.me.waiting g := State.updProc_proc_same s s.running _
theorem State.waitGrant_onlyMe (s : State) (g : PGrant) : OnlyMe s (s.waitGrant s.running g) := State.updMe_onlyMe s _
theorem State.afterCycles_onlyMe (s : State) (n : Nat) (i : Instr) : OnlyMe s (s.afterCycles n i) := (LaneQueues.afterCycles s n i).onlyMe

/-- SETVL on an idle tile (R43, R44, R47). -/
theorem setvl_idle (s : State) (d a : BitVec 5) (free : s.free [a, d]) (plain : s.plain) (d0 : d ≠ 0) (slivers : s.me.slivers = [])
    (idle : IdleTile s s.me.tile) (positive : s.reg a ≠ 0) :
    ∃ t g, exec (.setvl d a) s = .next t ∧ t.me.pgrant = some g ∧ g.assigned = true ∧ g.due = s.cycle + 64 ∧ g.avl = (s.reg a).toNat ∧
      g.sd = d.toNat ∧ t.me.isPending d.toNat = true ∧ t.me.slivers = [] ∧ t.me.strip.isSome = true ∧ SameRegs s t [] ∧
      WentTo t (s.me.pc + 4) ∧ SameMemory s t ∧ SameUnits s t := by
  have avl : ¬ s.regN a = 0 := fun zero => positive (BitVec.eq_of_toNat_eq zero)
  have ready : (s.setvlReady a).me = _ := (State.setvlReady_me s a).trans (State.setvlOpen_me s a)
  have first := State.setvlReady_onlyMe s a
  have proc : (s.setvlReady a).proc s.running = (s.setvlReady a).me := rfl
  have tile : ((s.setvlReady a).proc s.running).tile = s.me.tile := by rw [proc, ready]
  have idle' : IdleTile (s.setvlReady a) ((s.setvlReady a).proc s.running).tile := by
    rw [tile]
    refine ⟨idle.fused, State.setvlReady_reqs s a idle.reqs, fun h hh => ?_⟩
    have resident : h ∈ s.residents s.me.tile := by
      have slots : ((s.setvlReady a).tile s.me.tile).slots = (s.tile s.me.tile).slots := by
        unfold State.setvlReady State.withdraw
        rw [State.cancel_tile, State.updTile_tile]
        split
        · next e => rw [← e]; rfl
        · rfl
      unfold State.residents at hh ⊢
      rwa [slots] at hh
    by_cases mine : h = s.running
    · subst mine
      rw [proc, ready]
      exact ⟨slivers, plain.2.2⟩
    · rw [first.rest.procs h mine]
      exact idle.lanes h resident
  obtain ⟨sl, cl, ask⟩ := idle'.requestLanes (by rw [proc, ready]; exact slivers) d.toNat ((s.setvlOpen a).requestAge s.running) avl
  have asked : s.setvlAsk d a = _ := ask
  -- the process that waits, and what is left of the rest
  have queues := LaneQueues.settleLanes (((s.setvlReady a).waitGrant s.running ((s.setvlReady a).grantOf s.running d.toNat (s.regN a) sl cl)).afterCycles
    Config.grantDelay (.laneGrantEffect ((s.setvlReady a).proc s.running).tile s.running)) ((s.setvlReady a).proc s.running).tile
  rw [← asked] at queues
  have waits : (s.setvlAsk d a).me = (s.setvlReady a).me.waiting ((s.setvlReady a).grantOf s.running d.toNat (s.regN a) sl cl) :=
    queues.me.trans (State.waitGrant_me (s.setvlReady a) _)
  have only : OnlyMe s (s.setvlAsk d a) := (first.trans (State.waitGrant_onlyMe (s.setvlReady a) _)).trans
    ((State.afterCycles_onlyMe _ _ _).trans queues.onlyMe)
  have due : ((s.setvlReady a).grantOf s.running d.toNat (s.regN a) sl cl).due = s.cycle + 64 := rfl
  have sd : ((s.setvlReady a).grantOf s.running d.toNat (s.regN a) sl cl).sd = d.toNat := rfl
  have avl' : ((s.setvlReady a).grantOf s.running d.toNat (s.regN a) sl cl).avl = (s.reg a).toNat := rfl
  have assigned : ((s.setvlReady a).grantOf s.running d.toNat (s.regN a) sl cl).assigned = true := rfl
  generalize (s.setvlReady a).grantOf s.running d.toNat (s.regN a) sl cl = g at waits due sd avl' assigned
  rw [ready] at waits
  have ss : (s.setvlAsk d a).me.ss = false := by rw [waits]; exact plain.1
  have run : exec (.setvl d a) s = .next ((s.setvlAsk d a).retire 0x2D) := by
    have some : (s.setvlAsk d a).me.pgrant.isSome = true := by rw [waits]; rfl
    have steps : (s.setvlAsk d a).me.steps = false := by simp [Proc.steps, ss]
    rw [exec_setvl s d a free plain, if_neg avl, if_pos some, State.setvlPending, steps]
    rfl
  have me := State.retire_me (s.setvlAsk d a) 0x2D ss
  have last := State.jump_only (s.setvlAsk d a) 0x2D ((s.setvlAsk d a).me.pc + 4) ss
  have pc : (s.setvlAsk d a).me.pc = s.me.pc := by rw [waits]; rfl
  rw [pc, waits] at me
  have ne : d.toNat ≠ 0 := fun e => d0 (BitVec.eq_of_toNat_eq e)
  refine ⟨_, g, run, ?_, assigned, due, avl', sd, ?_, ?_, ?_, .of_me ?_ ?_ ?_, ⟨?_, ?_⟩, only.memory.trans last.memory, only.units.trans last.units⟩
  · rw [me]; rfl
  · rw [me, Proc.completed_isPending]
    simp [Proc.isPending, Proc.waiting, sd, ne]
  · rw [me]; exact slivers
  · rw [me]; rfl
  · rw [me]; rfl
  · rw [me]; rfl
  · rw [me]; rfl
  · rw [me]; rfl
  · rw [me]; rfl

/-- Settles O25: lanes given up, kept, or granted on an idle tile. -/
theorem setvlResult : Obligations.SetvlResult := by
  unfold Obligations.SetvlResult
  exact ⟨setvl_zero, fun s d a n free plain slivers n16 cluster _ reqs shape own crosses =>
      setvl_current s d a n free plain slivers n16 cluster reqs shape own crosses,
    fun s d a free plain d0 slivers fused reqs lanes _ positive => setvl_idle s d a free plain d0 slivers ⟨fused, reqs, lanes⟩ positive⟩

end Sys2Proof.Machine
end

section
/-! PROOFS. Tables read after a selection and after many insertions, and what a register bank holds when the lanes of a process move (R12,
R47). -/

namespace Sys2Proof.Machine

section Tables
variable {α : Type}

/-- No key of a table lies below its bound. -/
theorem Tab.le_of_mem {k : Nat} {v : α} : ∀ {n : Nat} {t : Tab α}, Tab.sortedFrom n t = true → (k, v) ∈ t → n ≤ k
  | n, (j, w) :: t, ht, hm => by
    simp only [Tab.sortedFrom, Bool.and_eq_true, decide_eq_true_eq] at ht
    rcases List.mem_cons.1 hm with e | hm
    · cases e; exact ht.1
    · have := Tab.le_of_mem ht.2 hm; omega
theorem Tab.mem_of_look {k : Nat} {v : α} : ∀ {t : Tab α}, Tab.look t k = some v → (k, v) ∈ t
  | (j, w) :: t, h => by
    simp only [Tab.look] at h
    split at h
    · next e => cases e; cases h; exact List.mem_cons_self
    · exact List.mem_cons_of_mem _ (Tab.mem_of_look h)
/-- A table whose keys rise reads what it lists. -/
theorem Tab.look_of_mem {k : Nat} {v : α} : ∀ {n : Nat} {t : Tab α}, Tab.sortedFrom n t = true → (k, v) ∈ t → Tab.look t k = some v
  | n, (j, w) :: t, ht, hm => by
    simp only [Tab.sortedFrom, Bool.and_eq_true, decide_eq_true_eq] at ht
    rcases List.mem_cons.1 hm with e | hm
    · cases e; simp [Tab.look]
    · have := Tab.le_of_mem ht.2 hm
      rw [Tab.look, if_neg (by omega), Tab.look_of_mem ht.2 hm]

/-- A selection by key. -/
theorem Tab.look_filter (p : Nat → Bool) (k : Nat) : ∀ t : Tab α, Tab.look (t.filter fun e => p e.1) k = if p k then Tab.look t k else none
  | [] => by simp
  | (j, w) :: t => by
    have ih := Tab.look_filter p k t
    by_cases e : j = k
    · subst e
      by_cases hp : p j = true
      · rw [List.filter_cons_of_pos (by exact hp), if_pos hp]; simp [Tab.look]
      · rw [List.filter_cons_of_neg (by exact hp), ih, if_neg hp, if_neg hp]
    · by_cases hp : p j = true
      · rw [List.filter_cons_of_pos (by exact hp), Tab.look, Tab.look, if_neg e, if_neg e, ih]
      · rw [List.filter_cons_of_neg (by exact hp), ih, Tab.look, if_neg e]
theorem Tab.lookD_filter (p : Nat → Bool) (t : Tab α) (k : Nat) (d : α) :
    Tab.lookD (t.filter fun e => p e.1) k d = if p k then Tab.lookD t k d else d := by
  unfold Tab.lookD; rw [Tab.look_filter]; split <;> rfl

/-- A key that no insertion names reads as before. -/
theorem Tab.lookD_putAll_other (d : α) (m : Nat) : ∀ (l : List (Nat × α)) (b : Tab α), (∀ e ∈ l, e.1 ≠ m) →
    Tab.lookD (l.foldl (fun b e => Tab.put b e.1 e.2) b) m d = Tab.lookD b m d
  | [], _, _ => rfl
  | e :: l, b, h => by
    rw [List.foldl_cons, Tab.lookD_putAll_other d m l _ fun x hx => h x (List.mem_cons_of_mem _ hx), Tab.lookD_put,
      if_neg (h e List.mem_cons_self)]
/-- A key that is inserted, always with one value, reads as that value. -/
theorem Tab.lookD_putAll_mem (d : α) (m : Nat) (v : α) : ∀ (l : List (Nat × α)) (b : Tab α), (m, v) ∈ l → (∀ e ∈ l, e.1 = m → e.2 = v) →
    Tab.lookD (l.foldl (fun b e => Tab.put b e.1 e.2) b) m d = v
  | e :: l, b, hm, hv => by
    rw [List.foldl_cons]
    by_cases h' : ∃ y ∈ l, y.1 = m
    · obtain ⟨⟨a, w⟩, hy, ha⟩ := h'
      cases ha
      cases hv _ (List.mem_cons_of_mem _ hy) rfl
      exact Tab.lookD_putAll_mem d _ _ l _ hy fun y hy => hv y (List.mem_cons_of_mem _ hy)
    · have hn : ∀ y ∈ l, y.1 ≠ m := fun y hy e => h' ⟨y, hy, e⟩
      rw [Tab.lookD_putAll_other d m l _ hn, Tab.lookD_put]
      rcases List.mem_cons.1 hm with rfl | hm
      · exact if_pos rfl
      · exact absurd rfl (hn _ hm)

end Tables

/-- The parts of a bank key: register, lane, and place in the lane (R12). -/
theorem key_parts {r l b : Nat} (hl : l < 64) (hb : b < 32) :
    (r * 2048 + l * 32 + b) / 2048 = r ∧ (r * 2048 + l * 32 + b) % 2048 / 32 = l ∧ (r * 2048 + l * 32 + b) % 32 = b := by
  omega

namespace VCtx
variable {vo vn : VCtx} {w lim r i b : Nat}

theorem keyAt_eq (v : VCtx) (w r i b : Nat) :
    v.keyAt w r i b = r * 2048 + v.lanes.getD (i % v.lanes.length) 0 * 32 + (i / v.lanes.length * (w / 8) + b) := by
  unfold keyAt; omega

/-- The lane of an element is one of the context's (R12). -/
theorem keyAt_lane (ok : vn.Ok) (he : IsEw w) (hi : i < vlmaxOf vn.lanes.length w) (hb : b < w / 8) :
    vn.keyAt w r i b % 2048 / 32 ∈ vn.lanes := by
  have hn := Nat.mod_lt i (pos_of_lt_vlmax hi)
  rw [keyAt_eq, (key_parts (lane_lt ok hn) (slot_lt he hi hb)).2.1, List.getD_eq_getElem _ _ hn]
  exact List.getElem_mem hn

/-- An element that both mappings hold goes to its place under the new one (R47). -/
theorem remap_keyAt (oko : vo.Ok) (he : IsEw w) (hio : i < vlmaxOf vo.lanes.length w) (hi : i < lim) (hb : b < w / 8) :
    remap vo.lanes vn.lanes (w / 8) lim (vo.keyAt w r i b) = some (vn.keyAt w r i b) := by
  have hn := pos_of_lt_vlmax hio
  have hm := Nat.mod_lt i hn
  have hw : 0 < w / 8 := by omega
  obtain ⟨ereg, elane, eslot⟩ := key_parts (r := r) (lane_lt oko hm) (slot_lt he hio hb)
  have hl : vo.lanes.getD (i % vo.lanes.length) 0 = vo.lanes[i % vo.lanes.length] := List.getD_eq_getElem _ _ hm
  have idx : vo.lanes.idxOf (vo.lanes.getD (i % vo.lanes.length) 0) = i % vo.lanes.length := by
    rw [hl]; exact List.Nodup.idxOf_getElem oko.nodup _ hm
  have mem : vo.lanes.contains (vo.lanes.getD (i % vo.lanes.length) 0) = true := by
    rw [hl]; exact List.contains_iff_mem.2 (List.getElem_mem hm)
  have ediv : (i / vo.lanes.length * (w / 8) + b) / (w / 8) = i / vo.lanes.length := by
    rw [Nat.mul_comm, Nat.mul_add_div hw, Nat.div_eq_of_lt hb, Nat.add_zero]
  have emod : (i / vo.lanes.length * (w / 8) + b) % (w / 8) = b := by
    rw [Nat.mul_comm, Nat.mul_add_mod, Nat.mod_eq_of_lt hb]
  have eidx : i / vo.lanes.length * vo.lanes.length + i % vo.lanes.length = i := by rw [Nat.mul_comm]; exact Nat.div_add_mod i _
  unfold remap
  rw [vo.keyAt_eq]
  simp only [ereg, elane, eslot, idx, mem, if_true, ediv, emod, eidx, if_pos hi]
  unfold keyAt; rfl

/-- Whatever goes to the place of an element under the new mapping is that element under the old one (R47). -/
theorem of_remap_keyAt (okn : vn.Ok) (he : IsEw w) (hln : lim ≤ vlmaxOf vn.lanes.length w) (hi : i < vlmaxOf vn.lanes.length w)
    (hb : b < w / 8) {key : Nat} (h : remap vo.lanes vn.lanes (w / 8) lim key = some (vn.keyAt w r i b)) : i < lim ∧ key = vo.keyAt w r i b := by
  have hw : 0 < w / 8 := by omega
  simp only [remap] at h
  split at h
  case isFalse => cases h
  case isTrue mem =>
    have mem := List.contains_iff_mem.1 mem
    have hidx := List.idxOf_lt_length_iff.2 mem
    have hn : 0 < vo.lanes.length := by omega
    split at h
    case isFalse => cases h
    case isTrue hlim =>
      generalize hj : key % 32 / (w / 8) * vo.lanes.length + vo.lanes.idxOf (key % 2048 / 32) = j at h hlim
      have hk : vn.keyAt w (key / 2048) j (key % 32 % (w / 8)) = vn.keyAt w r i b := by
        have e := Option.some.inj h
        unfold keyAt at e ⊢; exact e
      obtain ⟨hr, hji, hbb⟩ := keyAt_inj okn he (Nat.lt_of_lt_of_le hlim hln) hi (Nat.mod_lt _ hw) hb hk
      subst hji
      refine ⟨hlim, ?_⟩
      have jmod : j % vo.lanes.length = vo.lanes.idxOf (key % 2048 / 32) := by
        rw [← hj, Nat.mul_comm, Nat.mul_add_mod, Nat.mod_eq_of_lt hidx]
      have jdiv : j / vo.lanes.length = key % 32 / (w / 8) := by
        rw [← hj, Nat.mul_comm, Nat.mul_add_div hn, Nat.div_eq_of_lt hidx, Nat.add_zero]
      have lane : vo.lanes.getD (vo.lanes.idxOf (key % 2048 / 32)) 0 = key % 2048 / 32 := by
        rw [List.getD_eq_getElem _ _ hidx]; exact List.getElem_idxOf hidx
      have slot : key % 32 / (w / 8) * (w / 8) + b = key % 32 := by rw [← hbb, Nat.mul_comm]; exact Nat.div_add_mod _ _
      rw [keyAt_eq, jmod, jdiv, lane, slot, ← hr]
      omega

end VCtx

/-- A bank whose lanes have moved holds the elements of both mappings at their new places, and nothing else (R47). -/
theorem moveBank_lookD {α : Type} (bank : Tab α) (d : α) (sorted : Tab.sortedFrom 0 bank = true) {vo vn : VCtx} (oko : vo.Ok) (okn : vn.Ok)
    {w lim r i b : Nat} (he : IsEw w) (hlo : lim ≤ vlmaxOf vo.lanes.length w) (hln : lim ≤ vlmaxOf vn.lanes.length w)
    (hi : i < vlmaxOf vn.lanes.length w) (hb : b < w / 8) :
    Tab.lookD (moveBank bank vo.lanes vn.lanes (w / 8) lim) (vn.keyAt w r i b) d = if i < lim then Tab.lookD bank (vo.keyAt w r i b) d else d := by
  have rest : Tab.lookD (bank.filter fun e => !(vo.lanes.contains (e.1 % 2048 / 32) || vn.lanes.contains (e.1 % 2048 / 32)))
      (vn.keyAt w r i b) d = d := by
    rw [Tab.lookD_filter (fun k => !(vo.lanes.contains (k % 2048 / 32) || vn.lanes.contains (k % 2048 / 32))), if_neg]
    have lane := VCtx.keyAt_lane okn he hi hb (r := r)
    simp [lane]
  have moved : ∀ e ∈ bank.filterMap fun e => (remap vo.lanes vn.lanes (w / 8) lim e.1).map fun k => (k, e.2), e.1 = vn.keyAt w r i b →
      i < lim ∧ Tab.look bank (vo.keyAt w r i b) = some e.2 := by
    rintro ⟨k, v⟩ he' rfl
    obtain ⟨⟨key, v'⟩, hmem, hmap⟩ := List.mem_filterMap.1 he'
    obtain ⟨k', hk, e⟩ := Option.map_eq_some_iff.1 hmap
    cases e
    obtain ⟨hlim, rfl⟩ := VCtx.of_remap_keyAt okn he hln hi hb hk
    exact ⟨hlim, Tab.look_of_mem sorted hmem⟩
  have other : ¬ (i < lim ∧ (Tab.look bank (vo.keyAt w r i b)).isSome) →
      Tab.lookD (moveBank bank vo.lanes vn.lanes (w / 8) lim) (vn.keyAt w r i b) d = d := fun hno =>
    (Tab.lookD_putAll_other d _ _ _ fun e he' hk => hno ⟨(moved e he' hk).1, by rw [(moved e he' hk).2]; rfl⟩).trans rest
  split
  · next hlim =>
    cases hlook : Tab.look bank (vo.keyAt w r i b) with
    | none => rw [other (by simp [hlook])]; simp [Tab.lookD, hlook]
    | some v =>
      have hrd : Tab.lookD bank (vo.keyAt w r i b) d = v := by simp [Tab.lookD, hlook]
      rw [hrd]
      refine Tab.lookD_putAll_mem d _ v _ _ ?_ fun e he' hk => ?_
      · exact List.mem_filterMap.2 ⟨_, Tab.mem_of_look hlook, by
          rw [VCtx.remap_keyAt oko he (Nat.lt_of_lt_of_le hlim hlo) hlim hb]; rfl⟩
      · have e2 := (moved e he' hk).2
        rw [hlook] at e2
        exact (Option.some.inj e2).symm
  · next hlim => exact other fun h => hlim h.1

end Sys2Proof.Machine
end

section
/-! PROOFS. Lanes that take effect: what moves with them, who owns them, and what a pending register takes (R31, R47, R423). -/

namespace Sys2Proof.Machine

/-- The slivers whose contents a new grant may keep: those the process holds and owns, or those of its last grant (R47). -/
def State.lastLanes (s : State) (h : Nat) : List Nat :=
  if (s.proc h).slivers ≠ [] ∧ ((s.proc h).slivers.all fun n => decide (Tab.lookD (s.tile (s.proc h).tile).owners n 0 = h)) then (s.proc h).slivers
  else (s.proc h).lastGrant
/-- The lanes whose contents a new grant keeps: none where another process owns one of them (R47). -/
def State.oldLanes (s : State) (h : Nat) : List Nat :=
  if (s.lastLanes h).all fun n => decide (Tab.lookD (s.tile (s.proc h).tile).owners n 0 = h) then lanesOf (s.lastLanes h) else []
/-- The banks have moved to new lanes (R47). -/
def State.banksMoved (s : State) (h : Nat) (new : List Nat) : State :=
  s.updTile (s.proc h).tile fun x =>
    let w := ewOf (s.proc h).vt
    let lim := min (vlmaxOf (s.oldLanes h).length w) (vlmaxOf (lanesOf new).length w)
    { x with vbank := moveBank x.vbank (s.oldLanes h) (lanesOf new) (w / 8) lim, mbank := moveBank x.mbank (s.oldLanes h) (lanesOf new) 1 lim }
/-- The slivers that a new grant gives up. -/
def Proc.givenUp (p : Proc) (new : List Nat) : List Nat := (p.slivers ++ p.lastGrant).filter fun n => !new.contains n

theorem State.moveLanes_owned (s : State) (h : Nat) (new : List Nat) (cl : Bool) : s.moveLanes h new cl true =
    (((s.banksMoved h new).disown (s.proc h).tile h ((s.proc h).givenUp new)).updTile (s.proc h).tile fun x =>
      { x with owners := new.foldl (fun o n => Tab.put o n h) x.owners }).updProc h fun p =>
        { p with slivers := new, cluster := cl, lastGrant := new } := rfl

theorem State.oldLanes_eq {s : State} {h : Nat} {last : List Nat}
    (which : (s.proc h).slivers ≠ [] ∧ (∀ n ∈ (s.proc h).slivers, Tab.lookD (s.tile (s.proc h).tile).owners n 0 = h) ∧ last = (s.proc h).slivers ∨
      (s.proc h).slivers = [] ∧ last = (s.proc h).lastGrant)
    (own : ∀ n ∈ last, Tab.lookD (s.tile (s.proc h).tile).owners n 0 = h) : s.oldLanes h = lanesOf last := by
  have e : s.lastLanes h = last := by
    unfold State.lastLanes
    rcases which with ⟨ne, all, rfl⟩ | ⟨emp, rfl⟩
    · exact if_pos ⟨ne, by simpa using all⟩
    · exact if_neg fun c => c.1 emp
  unfold State.oldLanes
  rw [e, if_pos (by simpa using own)]

/-- The process after its lanes have moved. -/
theorem State.moveLanes_proc (s : State) (h : Nat) (new : List Nat) (cl owned : Bool) : (s.moveLanes h new cl owned).proc h =
    { s.proc h with slivers := new, cluster := cl, lastGrant := if owned then new else (s.proc h).lastGrant } := by
  unfold State.moveLanes
  dsimp only
  rw [State.updProc_proc_same]
  have same : ∀ {u v : State}, v.procs = u.procs → v.proc h = u.proc h := fun e => by unfold State.proc; rw [e]
  rw [same (u := s)]
  cases owned <;> rfl
theorem State.moveLanes_owner (s : State) (h : Nat) (new : List Nat) (cl : Bool) : ∀ n ∈ new,
    Tab.lookD ((s.moveLanes h new cl true).tile (s.proc h).tile).owners n 0 = h := fun n hn => by
  rw [State.moveLanes_owned, State.updProc_tile, State.updTile_tile_same]
  exact (foldl_put_owner new h n _).trans (if_pos hn)

/-- What a tile's banks hold of slivers that are not given up (R423). -/
theorem Tile.clearSlivers_vbank (x : Tile) (sl : List Nat) (k : Nat) (hk : k % 2048 / 32 / 4 ∉ sl) :
    Tab.lookD (x.clearSlivers sl).vbank k 0 = Tab.lookD x.vbank k 0 := by
  refine (Tab.lookD_filter (fun k => !sl.contains (k % 2048 / 32 / 4)) x.vbank k 0).trans (if_pos ?_)
  simpa using hk
theorem Tile.clearSlivers_mbank (x : Tile) (sl : List Nat) (k : Nat) (hk : k % 2048 / 32 / 4 ∉ sl) :
    Tab.lookD (x.clearSlivers sl).mbank k false = Tab.lookD x.mbank k false := by
  refine (Tab.lookD_filter (fun k => !sl.contains (k % 2048 / 32 / 4)) x.mbank k false).trans (if_pos ?_)
  simpa using hk
theorem not_mem_of_givenUp {p : Proc} {new : List Nat} {n : Nat} (hn : n ∈ new) (q : Nat → Bool) : n ∉ (p.givenUp new).filter q := by
  intro hm
  have := (List.mem_filter.1 (List.mem_filter.1 hm).1).2
  simp [hn] at this

theorem State.moveLanes_vbank (s : State) (h : Nat) (new : List Nat) (cl : Bool) (k : Nat) (hk : k % 2048 / 32 / 4 ∈ new) :
    Tab.lookD ((s.moveLanes h new cl true).tile (s.proc h).tile).vbank k 0 =
      Tab.lookD (moveBank (s.tile (s.proc h).tile).vbank (s.oldLanes h) (lanesOf new) (ewOf (s.proc h).vt / 8)
        (min (vlmaxOf (s.oldLanes h).length (ewOf (s.proc h).vt)) (vlmaxOf (lanesOf new).length (ewOf (s.proc h).vt)))) k 0 := by
  rw [State.moveLanes_owned, State.updProc_tile, State.updTile_tile_same]
  unfold State.disown
  rw [State.updTile_tile_same]
  refine (Tile.clearSlivers_vbank _ _ _ (not_mem_of_givenUp hk _)).trans ?_
  unfold State.banksMoved
  rw [State.updTile_tile_same]
theorem State.moveLanes_mbank (s : State) (h : Nat) (new : List Nat) (cl : Bool) (k : Nat) (hk : k % 2048 / 32 / 4 ∈ new) :
    Tab.lookD ((s.moveLanes h new cl true).tile (s.proc h).tile).mbank k false =
      Tab.lookD (moveBank (s.tile (s.proc h).tile).mbank (s.oldLanes h) (lanesOf new) 1
        (min (vlmaxOf (s.oldLanes h).length (ewOf (s.proc h).vt)) (vlmaxOf (lanesOf new).length (ewOf (s.proc h).vt)))) k false := by
  rw [State.moveLanes_owned, State.updProc_tile, State.updTile_tile_same]
  unfold State.disown
  rw [State.updTile_tile_same]
  refine (Tile.clearSlivers_mbank _ _ _ (not_mem_of_givenUp hk _)).trans ?_
  unfold State.banksMoved
  rw [State.updTile_tile_same]

theorem sliver_of_lane {l : Nat} {sl : List Nat} (hl : l ∈ lanesOf sl) : l / 4 ∈ sl := by
  simp only [lanesOf, List.mem_flatMap, List.mem_filter, List.contains_iff_mem, List.mem_cons, List.not_mem_nil, or_false] at hl
  obtain ⟨n, ⟨_, hn⟩, hl⟩ := hl
  rwa [show l / 4 = n by omega]
theorem laneCtx_ok (s : State) (h : Nat) (sl : List Nat) : (laneCtx s h sl).Ok := ⟨lanesOf_nodup _, lanesOf_lt _⟩

/-- The elements of the old mapping stand at their places under the new one, and the other places read zero (R47). -/
theorem State.moveLanes_elemAt {s : State} {h : Nat} {last : List Nat} (new : List Nat) (cl : Bool) (old : s.oldLanes h = lanesOf last)
    (sorted : Tab.sortedFrom 0 (s.tile (s.proc h).tile).vbank = true) (r : Nat) {i : Nat} (hi : i < (laneCtx s h new).vlmax) :
    (s.moveLanes h new cl true).elemAt (laneCtx s h new) (laneCtx s h new).ew r i =
      if i < (laneCtx s h last).vlmax then s.elemAt (laneCtx s h last) (laneCtx s h last).ew r i else 0 := by
  have oko := laneCtx_ok s h last
  have okn := laneCtx_ok s h new
  have he := ewOf_isEw (s.proc h).vt
  have byte : ∀ b < ewOf (s.proc h).vt / 8,
      Tab.lookD ((s.moveLanes h new cl true).tile (s.proc h).tile).vbank ((laneCtx s h new).keyAt (ewOf (s.proc h).vt) r i b) 0 =
        if i < (laneCtx s h last).vlmax then Tab.lookD (s.tile (s.proc h).tile).vbank ((laneCtx s h last).keyAt (ewOf (s.proc h).vt) r i b) 0
        else 0 := fun b hb => by
    rw [State.moveLanes_vbank _ _ _ _ _ (sliver_of_lane (VCtx.keyAt_lane okn he hi hb)), old]
    have moved := moveBank_lookD (s.tile (s.proc h).tile).vbank 0 sorted oko okn (r := r) he (Nat.min_le_left _ _) (Nat.min_le_right _ _) hi hb
    refine moved.trans ?_
    have : i < min (laneCtx s h last).vlmax (laneCtx s h new).vlmax ↔ i < (laneCtx s h last).vlmax := by omega
    exact if_congr this rfl rfl
  rw [State.elemAt_def _ _ _ _ _ (pos_of_lt_vlmax hi)]
  split
  · next ho =>
    rw [State.elemAt_def _ _ _ _ _ (pos_of_lt_vlmax ho)]
    refine congrArg ofBytesLE (List.map_congr_left fun b hb => ?_)
    exact (byte b (List.mem_range.1 hb)).trans (if_pos ho)
  · next ho =>
    have zero : ∀ n, ofBytesLE ((List.range n).map fun _ => (0 : BitVec 8)) = 0 := fun n => by
      rw [ofBytesLE_sum fun _ => 0]; simp
    refine (congrArg ofBytesLE (List.map_congr_left fun b hb => ?_)).trans (zero (ewOf (s.proc h).vt / 8))
    exact (byte b (List.mem_range.1 hb)).trans (if_neg ho)

theorem VCtx.maskKey_eq (v : VCtx) (r i : Nat) : v.maskKey r i = v.keyAt 8 r i 0 := by unfold maskKey keyAt; simp

/-- The mask bits of the old mapping stand at their places under the new one, and the other places read false (R47). -/
theorem State.moveLanes_maskBit {s : State} {h : Nat} {last : List Nat} (new : List Nat) (cl : Bool) (old : s.oldLanes h = lanesOf last)
    (sorted : Tab.sortedFrom 0 (s.tile (s.proc h).tile).mbank = true) (r : Nat) {i : Nat} (hi : i < (laneCtx s h new).vlmax) :
    (s.moveLanes h new cl true).maskBit (laneCtx s h new) r i =
      if i < (laneCtx s h last).vlmax then s.maskBit (laneCtx s h last) r i else false := by
  have oko := laneCtx_ok s h last
  have okn := laneCtx_ok s h new
  have e8 : IsEw 8 := .inl rfl
  have narrow : ∀ n, vlmaxOf n (ewOf (s.proc h).vt) ≤ vlmaxOf n 8 := fun n => by
    unfold vlmaxOf
    exact Nat.div_le_div_left (by rcases ewOf_isEw (s.proc h).vt with e | e | e | e <;> omega) (by omega)
  have hi8 : i < vlmaxOf (laneCtx s h new).lanes.length 8 := Nat.lt_of_lt_of_le hi (narrow _)
  rw [State.maskBit_def _ _ _ _ (pos_of_lt_vlmax hi), VCtx.maskKey_eq]
  refine (State.moveLanes_mbank _ _ _ _ _ (sliver_of_lane (VCtx.keyAt_lane okn e8 hi8 (by omega)))).trans ?_
  rw [old]
  have moved := moveBank_lookD (s.tile (s.proc h).tile).mbank false sorted oko okn (r := r) e8
    (Nat.le_trans (Nat.min_le_left _ _) (narrow _)) (Nat.le_trans (Nat.min_le_right (vlmaxOf (lanesOf last).length _) _) (narrow _)) hi8
    (show 0 < 8 / 8 by omega)
  refine moved.trans ?_
  have both : i < min (laneCtx s h last).vlmax (laneCtx s h new).vlmax ↔ i < (laneCtx s h last).vlmax := by omega
  refine (if_congr both rfl rfl).trans ?_
  split
  · next ho => rw [State.maskBit_def _ _ _ _ (pos_of_lt_vlmax ho), VCtx.maskKey_eq]; rfl
  · rfl

end Sys2Proof.Machine
end

section
/-! PROOFS. Grants that take effect without a clash, during a commit, and after a wait; requests whose clusters are empty (R44, R45, R47, R151). -/

namespace Sys2Proof.Machine

/-- A pending register and the checkpoint of an open strip have taken a value (R31, R149). -/
def Proc.landed (p : Proc) (r : Nat) (v : Word) : Proc :=
  { p.setReg r v with
    pend := Tab.cut p.pend r
    strip := p.strip.map fun k =>
      if (Tab.look k.pend r).isSome then
        { k with sregs := if r = 0 then k.sregs else Tab.store k.sregs r v 0, pend := Tab.cut k.pend r }
      else k }

theorem Proc.landed_reg (p : Proc) {r : Nat} (v : Word) (r0 : r ≠ 0) : (p.landed r v).reg r = v := by
  have e := Proc.reg_setReg_same p r v r0
  exact e
theorem Proc.landed_isPending (p : Proc) (r : Nat) (v : Word) : (p.landed r v).isPending r = false := by
  simp [Proc.isPending, Proc.landed, Tab.look_cut]
@[simp] theorem Proc.landed_slivers (p : Proc) (r : Nat) (v : Word) : (p.landed r v).slivers = p.slivers := Proc.setReg_slivers _ _ _
@[simp] theorem Proc.landed_vl (p : Proc) (r : Nat) (v : Word) : (p.landed r v).vl = p.vl := Proc.setReg_vl _ _ _
@[simp] theorem Proc.landed_cluster (p : Proc) (r : Nat) (v : Word) : (p.landed r v).cluster = p.cluster := by
  unfold Proc.landed Proc.setReg; split <;> rfl
@[simp] theorem Proc.landed_pgrant (p : Proc) (r : Nat) (v : Word) : (p.landed r v).pgrant = p.pgrant := by
  unfold Proc.landed Proc.setReg; split <;> rfl

/-- A wake-up changes the state of the process alone (R32). -/
theorem State.wake_proc (s : State) (h : Nat) (st : PState) : ∃ a b c, (s.wake h st).proc h = { s.proc h with pst := a, epoch := b, since := c } := by
  unfold State.wake
  split
  · exact ⟨_, _, _, State.updProc_proc_same _ _ _⟩
  · exact ⟨_, _, _, rfl⟩
theorem State.wake_tile (s : State) (h : Nat) (st : PState) (n : Nat) : (s.wake h st).tile n = s.tile n := by
  unfold State.wake; split <;> rfl
theorem State.land_proc (s : State) (h r : Nat) (v : Word) :
    ∃ a b c, (s.land h r v).proc h = { (s.proc h).landed r v with pst := a, epoch := b, since := c } := by
  obtain ⟨a, b, c, e⟩ := State.wake_proc (s.updProc h fun p => p.landed r v) h (.blockedToken r)
  rw [State.updProc_proc_same] at e
  exact ⟨a, b, c, e⟩
theorem State.land_tile (s : State) (h r : Nat) (v : Word) (n : Nat) : (s.land h r v).tile n = s.tile n := State.wake_tile _ _ _ _

/-- VL that a grant gives (R43, R158). -/
def PGrant.vlOf (g : PGrant) : Nat := min g.avl (vlmaxOf (lanesOf g.slivers).length g.ew)
theorem lanesOf_length_le (sl : List Nat) : (lanesOf sl).length ≤ 64 := by
  have sub : lanesOf sl ⊆ List.range 64 := fun l hl => List.mem_range.2 (lanesOf_lt sl l hl)
  have := ((lanesOf_nodup sl).subperm sub).length_le
  rwa [List.length_range] at this
/-- VL fits its register (R158). -/
theorem PGrant.vlOf_lt (g : PGrant) (wide : 8 ≤ g.ew) : g.vlOf < 2 ^ 12 := by
  have len := lanesOf_length_le g.slivers
  have all : vlmaxOf (lanesOf g.slivers).length g.ew ≤ 64 * 256 / 8 := Nat.div_le_div (Nat.mul_le_mul_right _ len) wide (by omega)
  unfold PGrant.vlOf
  omega

/-- The lanes, VL and sd of a grant that meets no other owner (R47). -/
def State.granted (s : State) (h : Nat) (g : PGrant) : State :=
  (((s.moveLanes h g.slivers g.cluster true).updProc h fun p => { p with pgrant := none }).updProc h fun p =>
    { p with vl := BitVec.ofNat 12 g.vlOf }).land h g.sd (BitVec.ofNat 64 g.vlOf)

theorem State.grantEffect_free (s : State) (h : Nat) (g : PGrant) (free : s.conflict h 0 g.slivers = none) (need : (s.proc h).need ≠ 1) :
    s.grantEffect h g = (s.granted h g).settleLanes (s.proc h).tile := by
  have step : decide ((s.proc h).pst = .blockedToken g.sd ∧ (s.proc h).need = 1) = false := decide_eq_false fun c => need c.2
  unfold State.grantEffect
  dsimp only
  rw [free, step]
  rfl
/-- A process with the lanes of a grant (R47). -/
def Proc.withGrant (p : Proc) (g : PGrant) : Proc :=
  { p with slivers := g.slivers, cluster := g.cluster, lastGrant := g.slivers, pgrant := none, vl := BitVec.ofNat 12 g.vlOf }
theorem State.granted_proc (s : State) (h : Nat) (g : PGrant) : ∃ a b c, (s.granted h g).proc h =
    { ((s.proc h).withGrant g).landed g.sd (BitVec.ofNat 64 g.vlOf) with pst := a, epoch := b, since := c } := by
  obtain ⟨a, b, c, e⟩ := State.land_proc (((s.moveLanes h g.slivers g.cluster true).updProc h fun p => { p with pgrant := none }).updProc h fun p =>
    { p with vl := BitVec.ofNat 12 g.vlOf }) h g.sd (BitVec.ofNat 64 g.vlOf)
  rw [State.updProc_proc_same, State.updProc_proc_same, State.moveLanes_proc] at e
  exact ⟨a, b, c, e⟩
theorem State.granted_tile (s : State) (h : Nat) (g : PGrant) (n : Nat) :
    (s.granted h g).tile n = (s.moveLanes h g.slivers g.cluster true).tile n := State.land_tile _ _ _ _ _

/-- Banks that read alike show the same elements and mask bits. -/
theorem State.elemAt_congr {s t : State} {v : VCtx} (bank : (t.tile v.tile).vbank = (s.tile v.tile).vbank) (w r i : Nat) :
    t.elemAt v w r i = s.elemAt v w r i := by unfold State.elemAt; rw [bank]
theorem State.maskBit_congr {s t : State} {v : VCtx} (bank : (t.tile v.tile).mbank = (s.tile v.tile).mbank) (r i : Nat) :
    t.maskBit v r i = s.maskBit v r i := by unfold State.maskBit; rw [bank]

/-- A grant that meets no other owner takes effect (R47). -/
theorem laneGrantEffect_free (s : State) (tile h : Nat) (g : PGrant) (pend : (s.proc h).pgrant = some g) (given : g.assigned = true)
    (due : g.due ≤ s.cycle) (free : s.conflict h 0 g.slivers = none) (need : (s.proc h).need ≠ 1) :
    exec (.laneGrantEffect tile h) s = .next ((s.granted h g).settleLanes (s.proc h).tile) := by
  refine congrArg Host.Outcome.next ?_
  rw [pend]
  dsimp only
  rw [if_pos (by simp [given, due]), if_neg (by simp [free]), State.grantEffect_free s h g free need]

/-- A grant that meets another owner during a commit takes the lanes and comes again (R151). -/
theorem laneGrantEffect_commit (s : State) (tile h : Nat) (g : PGrant) (pend : (s.proc h).pgrant = some g) (given : g.assigned = true)
    (due : g.due ≤ s.cycle) (clash : (s.conflict h 0 g.slivers).isSome = true) (commit : (s.proc h).inCommit = true) :
    exec (.laneGrantEffect tile h) s =
      .next (((s.moveLanes h g.slivers g.cluster false).settleLanes tile).afterCycles 1 (.laneGrantEffect tile h)) := by
  refine congrArg Host.Outcome.next ?_
  rw [pend]
  dsimp only
  rw [if_pos (by simp [given, due]), if_pos (by simp [clash, commit])]

/-- The lanes of a process that waits are given up (R47). -/
def State.lanesReleased (s : State) (h : Nat) : State :=
  (s.disown (s.proc h).tile h ((s.proc h).slivers ++ (s.proc h).lastGrant)).updProc h fun p =>
    { p with slivers := [], cluster := false, lastGrant := [] }
theorem laneGrantEffect_wait (s : State) (h : Nat) (g : PGrant) (pend : (s.proc h).pgrant = some g) (waits : g.assigned = false) :
    exec (.laneGrantEffect (s.proc h).tile h) s = .next ((s.lanesReleased h).settleLanes (s.proc h).tile) := by
  refine congrArg Host.Outcome.next ?_
  rw [pend]
  dsimp only
  rw [if_neg (by simp [waits])]
  rfl
/-- Slivers given up have lost their owner (R423). -/
theorem State.disown_owner (s : State) (t h : Nat) (sl : List Nat) (h0 : h ≠ 0) : ∀ n ∈ sl, n < 16 →
    Tab.lookD ((s.disown t h sl).tile t).owners n 0 ≠ h := by
  intro n hn small
  unfold State.disown
  rw [State.updTile_tile_same]
  have cut := Tab.lookD_filter (fun m => !((sl.filter fun n => decide (n < 16 ∧ Tab.lookD (s.tile t).owners n 0 = h)).contains m))
    (s.tile t).owners n 0
  refine fun e => ?_
  have e' := cut.symm.trans e
  split at e'
  · next keep => simp [hn, small, e'] at keep
  · exact h0 e'.symm

/-- The grant of a request whose clusters are empty (R45, R47). -/
def State.reservedGrantOf (s : State) (q : LaneReq) : PGrant :=
  { sd := q.sd, avl := q.avl, ew := q.ew
    slivers := match q.want with
      | .sliver => [4 * q.resv.headD 0]
      | _ => ((List.range 4).filter q.resv.contains).flatMap sliversIn
    cluster := match q.want with
      | .sliver => false
      | _ => true
    assigned := true, due := s.cycle + Config.grantDelay, pc := q.pc, again := q.again }
/-- A waiting request has its grant, and is no longer queued. -/
def State.grantReserved (s : State) (tile h : Nat) (q : LaneReq) : State :=
  (s.updTile tile fun x => { x with laneReqs := x.laneReqs.filter fun y => decide (y.h ≠ h) }).updProc h fun p =>
    { p with pgrant := some (s.reservedGrantOf q) }
theorem State.grantReserved_proc (s : State) (tile h : Nat) (q : LaneReq) :
    (s.grantReserved tile h q).proc h = { s.proc h with pgrant := some (s.reservedGrantOf q) } := State.updProc_proc_same _ _ _
theorem State.grantReserved_tile (s : State) (tile h : Nat) (q : LaneReq) : (s.grantReserved tile h q).tile tile =
    { s.tile tile with laneReqs := (s.tile tile).laneReqs.filter fun y => decide (y.h ≠ h) } := by
  unfold State.grantReserved; rw [State.updProc_tile, State.updTile_tile_same]
theorem exec_reservedGrant (s : State) (tile h : Nat) (q : LaneReq) (first : ((s.tile tile).laneReqs.find? fun x => decide (x.h = h)) = some q)
    (whole : q.partialGrant = false) (some_ : q.resv ≠ []) (empty : ∀ n ∈ s.occupied tile, n / 4 ∉ q.resv) :
    exec (.reservedGrant tile h) s =
      .next (((s.grantReserved tile h q).afterCycles Config.grantDelay (.laneGrantEffect tile h)).settleLanes tile) := by
  refine congrArg Host.Outcome.next ?_
  rw [first]
  dsimp only
  rw [if_neg]
  · rfl
  · simpa [whole, some_] using empty

/-- The slivers of a cluster (R12). -/
theorem mem_sliversIn (n c : Nat) : n ∈ sliversIn c ↔ n / 4 = c := by
  simp only [sliversIn, List.mem_cons, List.not_mem_nil, or_false]; omega
theorem mem_clusterSlivers (resv : List Nat) (n : Nat) : n ∈ ((List.range 4).filter resv.contains).flatMap sliversIn ↔ n < 16 ∧ n / 4 ∈ resv := by
  simp only [List.mem_flatMap, List.mem_filter, List.mem_range, List.contains_iff_mem, mem_sliversIn]
  constructor
  · rintro ⟨c, ⟨hc, hm⟩, rfl⟩; exact ⟨by omega, hm⟩
  · rintro ⟨hn, hm⟩; exact ⟨n / 4, ⟨by omega, hm⟩, rfl⟩

/-- A grant without a clash gives the process its lanes, VL and sd, and the elements that it keeps (R47, R423). -/
theorem grantTakesEffect (s : State) (tile h : Nat) (g : PGrant) (pend : (s.proc h).pgrant = some g) (given : g.assigned = true)
    (due : g.due ≤ s.cycle) (free : s.conflict h 0 g.slivers = none) (need : (s.proc h).need ≠ 1) (wide : 8 ≤ g.ew) :
    ∃ t, exec (.laneGrantEffect tile h) s = .next t ∧ (t.proc h).pgrant = none ∧ (t.proc h).slivers = g.slivers ∧ (t.proc h).cluster = g.cluster ∧
      (∀ n ∈ g.slivers, Tab.lookD (t.tile (s.proc h).tile).owners n 0 = h) ∧ (t.proc h).vl.toNat = g.vlOf ∧
      (g.sd ≠ 0 → ((t.proc h).reg g.sd).toNat = g.vlOf ∧ (t.proc h).isPending g.sd = false) ∧
      (∀ n, (t.tile n).vbank = ((s.moveLanes h g.slivers g.cluster true).tile n).vbank) ∧
      ∀ n, (t.tile n).mbank = ((s.moveLanes h g.slivers g.cluster true).tile n).mbank := by
  have q := LaneQueues.settleLanes (s.granted h g) (s.proc h).tile
  have fits := g.vlOf_lt wide
  obtain ⟨a, b, c, e⟩ := State.granted_proc s h g
  refine ⟨_, laneGrantEffect_free s tile h g pend given due free need, ?_⟩
  generalize (s.granted h g).settleLanes (s.proc h).tile = t at q ⊢
  have same : t.proc h = _ := (q.proc h).trans e
  refine ⟨?_, ?_, ?_, fun n hn => ?_, ?_, fun sd => ⟨?_, ?_⟩, fun n => ?_, fun n => ?_⟩
  · rw [same]; exact Proc.landed_pgrant _ _ _
  · rw [same]; exact Proc.landed_slivers _ _ _
  · rw [same]; exact Proc.landed_cluster _ _ _
  · rw [q.owners, State.granted_tile]; exact State.moveLanes_owner s h _ _ n hn
  · rw [same]
    exact (congrArg BitVec.toNat (Proc.landed_vl _ _ _)).trans (Nat.mod_eq_of_lt fits)
  · rw [same]
    exact (congrArg BitVec.toNat (Proc.landed_reg ((s.proc h).withGrant g) (BitVec.ofNat 64 g.vlOf) sd)).trans (Nat.mod_eq_of_lt (Nat.lt_trans fits (by decide)))
  · rw [same]; exact Proc.landed_isPending ((s.proc h).withGrant g) g.sd (BitVec.ofNat 64 g.vlOf)
  · rw [q.vbank, State.granted_tile]
  · rw [q.mbank, State.granted_tile]

/-- The release of a waiting request (R47). -/
theorem waitGivesUpLanes (s : State) (h : Nat) (g : PGrant) (pend : (s.proc h).pgrant = some g) (waits : g.assigned = false) (h0 : h ≠ 0) :
    ∃ t, exec (.laneGrantEffect (s.proc h).tile h) s = .next t ∧ (t.proc h).slivers = [] ∧ (t.proc h).cluster = false ∧
      (t.proc h).pgrant = some g ∧ ∀ n ∈ (s.proc h).slivers, n < 16 → Tab.lookD (t.tile (s.proc h).tile).owners n 0 ≠ h := by
  have q := LaneQueues.settleLanes (s.lanesReleased h) (s.proc h).tile
  refine ⟨_, laneGrantEffect_wait s h g pend waits, ?_⟩
  generalize (s.lanesReleased h).settleLanes (s.proc h).tile = t at q ⊢
  have same : t.proc h = { s.proc h with slivers := [], cluster := false, lastGrant := [] } :=
    (q.proc h).trans (State.updProc_proc_same _ _ _)
  refine ⟨by rw [same], by rw [same], by rw [same]; exact pend, fun n hn small => ?_⟩
  rw [q.owners]
  exact State.disown_owner s _ h _ h0 n (List.mem_append_left _ hn) small

/-- A grant that clashes during a commit (R151). -/
theorem clashWaitsForCommit (s : State) (tile h o m : Nat) (g : PGrant) (pend : (s.proc h).pgrant = some g) (given : g.assigned = true)
    (due : g.due ≤ s.cycle) (clash : s.conflict h 0 g.slivers = some (o, m)) (commit : (s.proc h).inCommit = true) :
    ∃ t, exec (.laneGrantEffect tile h) s = .next t ∧ (t.proc h).slivers = g.slivers ∧ (t.proc h).cluster = g.cluster ∧
      (t.proc h).pgrant = some g ∧ (t.proc h).pst = (s.proc h).pst ∧ (s.cycle + 1, .laneGrantEffect tile h) ∈ t.events := by
  have q := LaneQueues.settleLanes (s.moveLanes h g.slivers g.cluster false) tile
  refine ⟨_, laneGrantEffect_commit s tile h g pend given due (by rw [clash]; rfl) commit, ?_⟩
  have cyc : (s.moveLanes h g.slivers g.cluster false).cycle = s.cycle := rfl
  generalize (s.moveLanes h g.slivers g.cluster false).settleLanes tile = t at q ⊢
  have same : (t.afterCycles 1 (.laneGrantEffect tile h)).proc h = _ := (q.proc h).trans (State.moveLanes_proc s h g.slivers g.cluster false)
  refine ⟨by rw [same], by rw [same], by rw [same]; exact pend, by rw [same], ?_⟩
  rw [← cyc, ← q.cycle]
  exact mem_insertDue _ _ _

/-- A request whose reserved clusters are empty (R45, R47). -/
theorem reservedIsGranted (s : State) (tile h : Nat) (q : LaneReq) (first : ((s.tile tile).laneReqs.find? fun x => decide (x.h = h)) = some q)
    (whole : q.partialGrant = false) (some_ : q.resv ≠ []) (empty : ∀ n ∈ s.occupied tile, n / 4 ∉ q.resv) :
    ∃ t g, exec (.reservedGrant tile h) s = .next t ∧ (t.proc h).pgrant = some g ∧ g.sd = q.sd ∧ g.avl = q.avl ∧ g.ew = q.ew ∧
      g.assigned = true ∧ g.due = s.cycle + 64 ∧ (s.cycle + 64, .laneGrantEffect tile h) ∈ t.events ∧
      (q.want = .sliver → g.slivers = [4 * q.resv.headD 0] ∧ g.cluster = false) ∧
      (q.want ≠ .sliver → (∀ n, n ∈ g.slivers ↔ n < 16 ∧ n / 4 ∈ q.resv) ∧ g.cluster = true) ∧
      ∀ x ∈ (t.tile tile).laneReqs, x.h ≠ h := by
  have l := LaneQueues.settleLanes ((s.grantReserved tile h q).afterCycles Config.grantDelay (.laneGrantEffect tile h)) tile
  refine ⟨_, s.reservedGrantOf q, exec_reservedGrant s tile h q first whole some_ empty, ?_⟩
  generalize ((s.grantReserved tile h q).afterCycles Config.grantDelay (.laneGrantEffect tile h)).settleLanes tile = t at l ⊢
  refine ⟨?_, rfl, rfl, rfl, rfl, rfl, l.events _ (mem_insertDue _ _ _), fun hw => ?_, fun hw => ?_, fun x hx => ?_⟩
  · exact congrArg Proc.pgrant ((l.proc h).trans (State.grantReserved_proc s tile h q))
  · unfold State.reservedGrantOf; rw [hw]; exact ⟨rfl, rfl⟩
  · cases hc : q.want with
    | sliver => exact absurd hc hw
    | clusters c => unfold State.reservedGrantOf; rw [hc]; exact ⟨mem_clusterSlivers _, rfl⟩
    | none => unfold State.reservedGrantOf; rw [hc]; exact ⟨mem_clusterSlivers _, rfl⟩
  · obtain ⟨y, hy, e⟩ := l.reqs tile x hx
    have reqs : (((s.grantReserved tile h q).afterCycles Config.grantDelay (.laneGrantEffect tile h)).tile tile).laneReqs =
        (s.tile tile).laneReqs.filter fun y => decide (y.h ≠ h) := congrArg Tile.laneReqs (State.grantReserved_tile s tile h q)
    rw [reqs] at hy
    rw [← e]
    exact of_decide_eq_true (List.mem_filter.1 hy).2

end Sys2Proof.Machine
end

section
/-! PROOFS. What messages, credits and wake-ups change, and a strip that restarts (R56, R152): of a process its scheduling and what its channel
registers count, of an endpoint its credits. -/

namespace Sys2Proof.Machine

/-- An endpoint without its credits and requests, and without what an open strip retains of it. -/
def Endpoint.stock (e : Endpoint) : Endpoint := { e with free := 0, shortfalls := [], recalled := [], reserved := 0, kept := 0 }
/-- What a channel register is bound to. -/
def ChanReg.ends (x : ChanReg) : ChanReg := { role := x.role, dest := x.dest, use := x.use, gone := x.gone }
/-- A state without what messages and credits change. -/
def State.kept (s : State) : State :=
  { s with procs := [], tiles := [], eps := [], hostEps := [], net := [], staged := [], links := [], lanes := [], out := [], events := [], reqs := [],
           remotes := [], lltlb := [], binds := [], arbs := [], nextId := 0, freeCtr := 0 }

/-- From `s` to `t` only messages and credits have moved, and processes woken. -/
structure Traffic (s t : State) : Prop where
  kept : t.kept = s.kept
  tiles : ∀ n, (t.tile n).core = (s.tile n).core
  procs : ∀ h, (t.proc h).core = (s.proc h).core
  chans : ∀ h c, ((t.proc h).chan c).ends = ((s.proc h).chan c).ends
  eps : ∀ e, (t.ep e).stock = (s.ep e).stock

namespace Traffic

theorem refl (s : State) : Traffic s s := ⟨rfl, fun _ => rfl, fun _ => rfl, fun _ _ => rfl, fun _ => rfl⟩
theorem trans {s t u : State} (a : Traffic s t) (b : Traffic t u) : Traffic s u :=
  ⟨b.kept.trans a.kept, fun n => (b.tiles n).trans (a.tiles n), fun h => (b.procs h).trans (a.procs h),
    fun h c => (b.chans h c).trans (a.chans h c), fun e => (b.eps e).trans (a.eps e)⟩
theorem foldl {β : Type} (l : List β) (f : State → β → State) (h : ∀ s x, Traffic s (f s x)) : ∀ s, Traffic s (l.foldl f s) := by
  induction l with
  | nil => exact refl
  | cons x l ih => exact fun s => (h s x).trans (ih _)
theorem foldlPair {β γ : Type} (l : List β) (f : State × γ → β → State × γ) (h : ∀ s x, Traffic s.1 (f s x).1) :
    ∀ s, Traffic s.1 (l.foldl f s).1 := by
  induction l with
  | nil => exact fun s => refl s.1
  | cons x l ih => exact fun s => (h s x).trans (ih _)
/-- A step that leaves processes, tiles and endpoints alone. -/
theorem of_same {s t : State} (kept : t.kept = s.kept) (tiles : t.tiles = s.tiles) (procs : t.procs = s.procs) (eps : t.eps = s.eps) :
    Traffic s t := by
  refine ⟨kept, fun n => ?_, fun h => ?_, fun h c => ?_, fun e => ?_⟩ <;> simp only [State.tile, State.proc, State.ep, tiles, procs, eps]
/-- What the networks do is traffic. -/
theorem of_quiet {s t : State} (q : Quiet s t) : Traffic s t where
  kept := by have e := congrArg State.kept q.still; exact e
  tiles := q.tiles
  procs := q.procs
  chans h c := by have e := congrArg ChanReg.ends (q.chans h c); exact e
  eps e := by rw [q.ep]

theorem ifThen {s t : State} (c : Prop) (d : Decidable c) (q : Traffic s t) : Traffic s (@ite State c d t s) := by
  split
  · exact q
  · exact .refl s

/-- A change of a process's scheduling, or of what its channel registers count. -/
theorem updProc (s : State) (h : Nat) (f : Proc → Proc) (core : (f (s.proc h)).core = (s.proc h).core)
    (ends : ∀ c, ((f (s.proc h)).chan c).ends = ((s.proc h).chan c).ends) : Traffic s (s.updProc h f) where
  kept := rfl
  tiles _ := rfl
  procs k := by rw [State.updProc_proc]; split <;> simp_all
  chans k c := by rw [State.updProc_proc]; split <;> simp_all
  eps _ := rfl
theorem updChan (s : State) (h c : Nat) (f : ChanReg → ChanReg) (ends : ∀ x, (f x).ends = x.ends) : Traffic s (s.updChan h c f) := by
  refine updProc s h (fun p => p.setChan c (f (p.chan c))) rfl fun d => ?_
  rw [Proc.chan_setChan]
  split
  · subst_vars; exact ends _
  · rfl
theorem updEp (s : State) (e : Nat) (f : Endpoint → Endpoint) (stock : (f (s.ep e)).stock = (s.ep e).stock) : Traffic s (s.updEp e f) where
  kept := rfl
  tiles _ := rfl
  procs _ := rfl
  chans _ _ := rfl
  eps k := by rw [State.updEp_ep]; split <;> simp_all
theorem goto (s : State) (h : Nat) (st : PState) : Traffic s (s.goto h st) := updProc s h _ rfl fun _ => rfl
theorem wake (s : State) (h : Nat) (st : PState) : Traffic s (s.wake h st) := ifThen _ _ (goto s h .ready)

theorem afterDraw (s : State) (part n : Nat) : Traffic s (s.afterDraw part n) := by
  unfold State.afterDraw
  split <;> exact of_same rfl rfl rfl rfl
theorem arbitrate (s : State) (part a b : Nat) : Traffic s (s.arbitrate part a b).1 := by
  unfold State.arbitrate
  split
  · exact refl s
  · refine foldlPair _ _ (fun x o => ?_) (s, 0)
    dsimp only
    split
    · exact refl x.1
    · exact afterDraw _ _ _
theorem netSendOn (s : State) (m : NetMsg) (a b lat : Nat) (i : Instr) : Traffic s (s.netSendOn m a b lat i) :=
  (arbitrate s m.part a b).trans (of_same rfl rfl rfl rfl)
theorem netSend (s : State) (m : NetMsg) (lat : Nat) (i : Instr) : Traffic s (s.netSend m lat i) := netSendOn _ _ _ _ _ _
theorem ctrlSendMore (s : State) (part peer kind w ep n more : Nat) (extra : List Word) :
    Traffic s (s.ctrlSendMore part peer kind w ep n more extra) := by
  unfold State.ctrlSendMore
  dsimp only
  split <;> exact of_quiet (Quiet.linkSend _ _ _ _ _ _ _ _)
theorem ctrlSend (s : State) (part peer kind w ep n more : Nat) : Traffic s (s.ctrlSend part peer kind w ep n more) := ctrlSendMore _ _ _ _ _ _ _ _ _
theorem toWriter (s : State) (rid wid : Nat) (b : NetBody) (i : Instr) : Traffic s (s.toWriter rid wid b i) := netSend _ _ _ _
theorem grantCredit (s : State) (rid wid n : Nat) : Traffic s (s.grantCredit rid wid n) := by
  unfold State.grantCredit
  split
  · exact ctrlSend _ _ _ _ _ _ _ _
  · exact toWriter _ _ _ _ _
theorem sendCredit (s : State) (rid wid n : Nat) : Traffic s (s.sendCredit rid wid n) := by
  unfold State.sendCredit
  split
  · exact refl s
  · exact grantCredit _ _ _ _
theorem serve (rid : Nat) : ∀ (fuel : Nat) (s : State), Traffic s (s.serve rid fuel)
  | 0, s => refl s
  | fuel + 1, s => by
    unfold State.serve
    dsimp only
    split
    · exact refl s
    · split
      · exact ((updEp s rid _ rfl).trans (sendCredit _ _ _ _)).trans (serve rid fuel _)
      · refine (updEp s rid _ rfl).trans (foldl _ _ (fun s x => ?_) _)
        split
        · exact ctrlSend _ _ _ _ _ _ _ _
        · exact toWriter _ _ _ _ _
theorem serveAll (s : State) (rid : Nat) : Traffic s (s.serveAll rid) := serve rid _ s
theorem addFree (s : State) (rid n : Nat) : Traffic s (s.addFree rid n) := by
  unfold State.addFree
  dsimp only
  refine ((updEp s rid _ rfl).trans (serveAll _ _)).trans (foldl _ _ (fun s e => ?_) _)
  split
  · split
    · exact ifThen _ _ (wake _ _ _)
    · exact refl s
  · exact refl s

/-- The credits of a message return to its writer, and a reply that it reserved to its endpoint (R63, R72). -/
theorem takeBackMsg (s : State) (h c : Nat) (m : Msg) : Traffic s (s.takeBack h (.push c m)) := by
  unfold State.takeBack
  dsimp only
  split
  · refine trans ?_ (addFree _ _ _)
    refine trans ?_ (updEp _ (replySize m).2 (fun y => { y with reserved := y.reserved - (replySize m).1 }) rfl)
    exact updChan s h c _ fun _ => rfl
  · exact updChan s h c _ fun _ => rfl
/-- What a strip held is given back (R152). -/
theorem takeBack (s : State) (h : Nat) (x : Held) : Traffic s (s.takeBack h x) := by
  cases x with
  | push c m => exact takeBackMsg s h c m
  | ksend c k m => exact takeBackMsg s h c m
  | bind id => exact of_same rfl rfl rfl rfl
  | store typ pc op ws => exact refl s
  | capStore typ pc place addr c => exact refl s
  | atomic typ pc place addr fn n v => exact refl s
  | tree k ty op xs => exact refl s
theorem endKept (s : State) (k : Strip) : Traffic s (s.endKept k false) := by
  refine (foldl _ _ (fun s e => ?_) s).trans (foldl _ _ (fun s e => ctrlSendMore _ _ _ _ _ _ _ _ _) _)
  exact updEp s e.1 (fun y => { y with kept := y.kept - e.2 }) rfl

variable {s t : State}
theorem part (q : Traffic s t) (n : Nat) : t.part n = s.part n := by
  have e := congrArg (fun u : State => u.part n) q.kept; exact e
theorem memory (q : Traffic s t) : SameMemory s t := by
  have sram := congrArg State.sram q.kept
  have hbm := congrArg State.hbm q.kept
  have epochs := congrArg State.hbmEpoch q.kept
  have sramTags := congrArg State.sramTags q.kept
  have hbmTags := congrArg State.hbmTags q.kept
  exact .of_tables sram hbm epochs sramTags hbmTags fun n => by rw [q.part]
end Traffic

/-- What a strip held has been given back (R152). -/
def State.heldBack (s : State) (h : Nat) (k : Strip) : State := (k.held.foldl (fun s x => s.takeBack h x) s).endKept k false
theorem Traffic.heldBack (s : State) (h : Nat) (k : Strip) : Traffic s (s.heldBack h k) :=
  (foldl _ _ (fun s x => takeBack s h x) s).trans (endKept _ _)
/-- A process whose strip has restarted (R152). -/
def Proc.unstripped (p : Proc) (k : Strip) : Proc :=
  { p.unnameGrant with
    strip := none, pc := k.pc, sregs := k.sregs, pend := k.pend, vs := k.vs, vt := k.vt, vmsel := k.vmsel, mt := k.mt, peer := k.peer,
    cflags := k.cflags, mstep := k.mstep, vpushed := k.vpushed, need := 0, hold := [], fills := p.fills.filter fun e => !k.loads.contains e.2 }

@[simp] theorem Proc.unstripped_chan (p : Proc) (k : Strip) (c : Nat) : (p.unstripped k).chan c = p.chan c := rfl

/-- A restart gives back what the strip held, and restores the checkpoint; other processes see no more than traffic (R152). -/
structure Restarted (s t : State) (h : Nat) (k : Strip) : Prop where
  proc : ∃ p : Proc, p.core = (s.proc h).core ∧ t.proc h = p.unstripped k
  others : ∀ g, g ≠ h → (t.proc g).core = (s.proc g).core
  chans : ∀ g c, ((t.proc g).chan c).ends = ((s.proc g).chan c).ends
  eps : ∀ e, (t.ep e).stock = (s.ep e).stock
  kept : t.kept = s.kept

theorem State.restart_some (s : State) (h : Nat) (k : Strip) (strip : (s.proc h).strip = some k) : Restarted s (s.restart h) h k := by
  have q := Traffic.heldBack s h k
  obtain ⟨u, e, procs, eps, kept⟩ : ∃ u : State, s.restart h = u.updProc h (fun p => p.unstripped k) ∧ u.procs = (s.heldBack h k).procs ∧
      u.eps = (s.heldBack h k).eps ∧ u.kept = (s.heldBack h k).kept := by
    unfold State.restart
    rw [strip]
    exact ⟨_, rfl, rfl, rfl, rfl⟩
  have proc : ∀ g, u.proc g = (s.heldBack h k).proc g := fun g => by unfold State.proc; rw [procs]
  have after : ∀ g, (s.restart h).proc g = if h = g then ((s.heldBack h k).proc h).unstripped k else (s.heldBack h k).proc g := fun g => by
    rw [e, State.updProc_proc, proc, proc]
  refine ⟨⟨_, q.procs h, (after h).trans (if_pos rfl)⟩, fun g hg => ?_, fun g c => ?_, fun n => ?_, ?_⟩
  · rw [after, if_neg (Ne.symm hg)]; exact q.procs g
  · rw [after, ← q.chans g c]
    split
    · subst_vars; rfl
    · rfl
  · rw [← q.eps n, e]
    exact congrArg (fun x : Tab Endpoint => (Tab.lookD x n {}).stock) eps
  · rw [e, ← q.kept, ← kept]; rfl

end Sys2Proof.Machine
end

section
/-! PROOFS. A grant on a sliver that another process owns (R47, R241, R423), and the obligation of the lane scheduler. -/

namespace Sys2Proof.Machine

theorem statusOf_pl (ppl : Nat) (det ss dbg xo : Bool) : (statusOf 1 ppl det ss dbg xo).toNat % 4 = 1 := by
  have bits : ∀ b, bit1 b ≤ 1 := fun b => by unfold bit1; split <;> omega
  have h1 := bits det; have h2 := bits ss; have h3 := bits dbg; have h4 := bits xo
  simp only [statusOf, BitVec.toNat_ofNat]
  omega
theorem statusOf_xo (ppl : Nat) (det ss dbg : Bool) : bitAt (statusOf 1 ppl det ss dbg true).toNat 7 = true := by
  have bits : ∀ b, bit1 b ≤ 1 := fun b => by unfold bit1; split <;> omega
  have h1 := bits det; have h2 := bits ss; have h3 := bits dbg
  have high : (statusOf 1 ppl det ss dbg true).toNat / 2 ^ 7 % 2 = 1 := by
    simp only [statusOf, BitVec.toNat_ofNat, show bit1 true = 1 from rfl]
    omega
  simpa [bitAt] using high

/-- A process that enters its handler (R228). -/
def Proc.entersTrap (q : Proc) (cycle code detail xmask : Nat) (rec0 : Word) (epc tvec : BitVec 48) : Proc :=
  { q.enter .ready cycle with
    epc := epc, cause := BitVec.ofNat 48 (code + detail % 65536 * 65536 + xmask % 65536 * 2 ^ 32), frec := rec0,
    status := statusOf 1 q.pl q.det q.ss q.dbg (q.xo || decide (code = Cause.vown.code)),
    pc := tvec, since := cycle + 1, lastIssue := some cycle, need := 0, hold := [], handler := true }

/-- A VOWN at level 0 enters the handler, once an open strip has restarted (R230, R236). -/
theorem State.raiseAt_vown (s : State) (h op : Nat) (x : FInfo) (pl : (s.proc h).pl = 0) :
    s.raiseAt h op .vown x = (s.restart h).trapEntry h Cause.vown.code (op % 64 + x.detail) x.xmask
      ((recordOf x.owner op .vown x (s.proc h).pc (((s.proc h).strip.map fun k => k.pc).getD (s.proc h).pc)).headD 0)
      (((s.proc h).strip.map fun k => k.pc).getD (s.proc h).pc) := by
  unfold State.raiseAt
  dsimp only
  rw [if_pos ⟨.inl rfl, pl⟩, if_pos rfl]
theorem State.trapEntry_proc (s : State) (h code detail xmask : Nat) (rec0 : Word) (epc : BitVec 48) :
    (s.trapEntry h code detail xmask rec0 epc).proc h =
      (s.proc h).entersTrap s.cycle code detail xmask rec0 epc (s.part (s.proc h).part).tvec := State.updProc_proc_same _ _ _

/-- What a VOWN with EPC at `epc` leaves of its process (R228, R241). -/
structure VownTaken (p : Proc) (o m : Nat) (epc tvec : BitVec 48) : Prop where
  ready : p.pst = .ready
  pc : p.pc = tvec
  code : p.cause.toNat % 256 = Cause.vown.code
  xmask : p.cause.toNat / 2 ^ 32 = m
  owner : p.frec.toNat / 2 ^ 32 = o
  level : p.pl = 1
  xo : p.xo = true
  epc : p.epc = epc

theorem Proc.entersTrap_vown (q : Proc) {o m : Nat} (ho : o < 2 ^ 32) (hm : m < 2 ^ 16) (cycle : Nat) (x : FInfo) (own : x.owner = o) (mask : x.xmask = m)
    (det : x.detail = 0) (fpc spc tvec : BitVec 48) :
    VownTaken (q.entersTrap cycle Cause.vown.code (0x2D % 64 + x.detail) x.xmask ((recordOf x.owner 0x2D .vown x fpc spc).headD 0) spc tvec)
      o m spc tvec := by
  have code : Cause.vown.code < 256 := by decide
  obtain ⟨d, more, n, hn, head⟩ := recordOf_head x.owner 0x2D .vown x fpc spc
  have cause : (BitVec.ofNat 48 (Cause.vown.code + (0x2D % 64 + x.detail) % 65536 * 65536 + x.xmask % 65536 * 2 ^ 32)).toNat =
      Cause.vown.code + 0x2D * 65536 + m * 2 ^ 32 := by
    rw [BitVec.toNat_ofNat, det, mask]; omega
  refine ⟨rfl, rfl, ?_, ?_, ?_, statusOf_pl _ _ _ _ _, ?_, rfl⟩
  · refine (congrArg (· % 256) cause).trans ?_
    omega
  · refine (congrArg (· / 2 ^ 32) cause).trans ?_
    omega
  · refine (congrArg (fun w : Word => w.toNat / 2 ^ 32) head).trans ?_
    rw [own]
    exact (recSlot0_handle o d 0 n more .vown (by omega) hn).trans (Nat.mod_eq_of_lt ho)
  · have : (q.xo || decide (Cause.vown.code = Cause.vown.code)) = true := by simp
    unfold Proc.xo entersTrap
    dsimp only
    rw [this]
    exact statusOf_xo _ _ _ _

/-- A process that has lost an instruction under way to a clash of its grant (R47, R367). -/
def Proc.clashed (p : Proc) (g : PGrant) : Proc :=
  { p with slivers := g.slivers, cluster := g.cluster, pgrant := none, bulk := none, hold := [], dstep := none,
           dcont := if p.dstep.isSome then some p.pc else p.dcont }
/-- The state in which a grant clashes: its lanes are there, what the process runs is given up, and outside a strip it stands at the SETVL. -/
def State.clashDropped (s : State) (h : Nat) (g : PGrant) : State :=
  ((s.moveLanes h g.slivers g.cluster false).updProc h fun p => { p with pgrant := none }).dropHeld h
def State.clashPlaced (s : State) (h : Nat) (g : PGrant) : State :=
  if (s.proc h).strip.isSome then s.clashDropped h g
  else ((s.clashDropped h g).unpend h g.sd).updProc h fun p => { p with pc := g.pc }

theorem State.clashDropped_proc (s : State) (h : Nat) (g : PGrant) : (s.clashDropped h g).proc h = (s.proc h).clashed g := by
  refine (State.updProc_proc_same _ h _).trans ?_
  change (fun p : Proc => { p with bulk := none, hold := [], dstep := none, dcont := if p.dstep.isSome then some p.pc else p.dcont })
    (((s.moveLanes h g.slivers g.cluster false).updProc h fun p => { p with pgrant := none }).proc h) = _
  rw [State.updProc_proc_same, State.moveLanes_proc]
  rfl

theorem State.grantEffect_clash (s : State) (h o m : Nat) (g : PGrant) (clash : s.conflict h 0 g.slivers = some (o, m))
    (runs : ¬((s.proc h).pst = .parkedFault ∨ (s.proc h).pst = .haltedDebug ∨ (s.proc h).pst = .exited)) (first : g.again = false) :
    s.grantEffect h g = ((s.clashPlaced h g).raiseAt h 0x2D .vown { owner := o, xmask := m }).settleLanes (s.proc h).tile := by
  unfold State.grantEffect
  dsimp only
  rw [clash, decide_eq_false runs, first]
  rfl

theorem State.unpend_proc (s : State) (h r : Nat) : ∃ a b c, (s.unpend h r).proc h =
    { s.proc h with pend := Tab.cut (s.proc h).pend r, strip := (s.proc h).strip.map fun k => { k with pend := Tab.cut k.pend r },
                    pst := a, epoch := b, since := c } := by
  obtain ⟨a, b, c, e⟩ := State.wake_proc (s.updProc h fun p =>
    { p with pend := Tab.cut p.pend r, strip := p.strip.map fun k => { k with pend := Tab.cut k.pend r } }) h (.blockedToken r)
  rw [State.updProc_proc_same] at e
  exact ⟨a, b, c, e⟩
theorem State.unpend_parts (s : State) (h r : Nat) : (s.unpend h r).parts = s.parts := by
  unfold State.unpend State.wake; split <;> rfl
theorem State.moveLanes_parts (s : State) (h : Nat) (new : List Nat) (cl owned : Bool) : (s.moveLanes h new cl owned).parts = s.parts := by
  cases owned <;> rfl
theorem State.clashDropped_parts (s : State) (h : Nat) (g : PGrant) : (s.clashDropped h g).parts = s.parts :=
  State.moveLanes_parts s h g.slivers g.cluster false
theorem State.clashPlaced_none (s : State) (h : Nat) (g : PGrant) (strip : (s.proc h).strip = none) :
    s.clashPlaced h g = ((s.clashDropped h g).unpend h g.sd).updProc h fun p => { p with pc := g.pc } := by
  unfold State.clashPlaced; rw [strip]; rfl
theorem State.clashPlaced_some (s : State) (h : Nat) (g : PGrant) {k : Strip} (strip : (s.proc h).strip = some k) :
    s.clashPlaced h g = s.clashDropped h g := by unfold State.clashPlaced; rw [strip]; rfl
theorem State.clashPlaced_part (s : State) (h : Nat) (g : PGrant) (n : Nat) : (s.clashPlaced h g).part n = s.part n := by
  have parts : (s.clashPlaced h g).parts = s.parts := by
    cases strip : (s.proc h).strip with
    | none => rw [State.clashPlaced_none s h g strip]; exact (State.unpend_parts _ h g.sd).trans (State.clashDropped_parts s h g)
    | some k => rw [State.clashPlaced_some s h g strip]; exact State.clashDropped_parts s h g
  unfold State.part; rw [parts]

/-- A grant that meets another owner outside a strip and a commit: VOWN with EPC at the SETVL (R47, R241, R423). -/
structure Clashed (s t : State) (h o m : Nat) (g : PGrant) : Prop where
  taken : VownTaken (t.proc h) o m (((s.proc h).strip.map fun k => k.pc).getD g.pc) (s.part (s.proc h).part).tvec
  vl : (t.proc h).vl = (s.proc h).vl
  slivers : (t.proc h).slivers = g.slivers
  pgrant : (t.proc h).pgrant = none
  strip : (t.proc h).strip = none
  regs : (s.proc h).strip = none → ∀ r, (t.proc h).reg r = (s.proc h).reg r
  checkpoint : ∀ k, (s.proc h).strip = some k → (t.proc h).sregs = k.sregs ∧ (t.proc h).vs = k.vs ∧ (t.proc h).mt = k.mt ∧ (t.proc h).pend = k.pend

theorem Clashed.settleLanes {s t : State} {h o m : Nat} {g : PGrant} (c : Clashed s t h o m g) (tile : Nat) :
    Clashed s (t.settleLanes tile) h o m g := by
  have e := (LaneQueues.settleLanes t tile).proc h
  obtain ⟨taken, vl, slivers, pgrant, strip, regs, checkpoint⟩ := c
  generalize t.settleLanes tile = u at e ⊢
  constructor <;> rw [e] <;> assumption

theorem State.raiseAt_clashPlain (s : State) (h o m : Nat) (g : PGrant) (strip : (s.proc h).strip = none) (pl : (s.proc h).pl = 0)
    (ho : o < 2 ^ 32) (hm : m < 2 ^ 16) : Clashed s ((s.clashPlaced h g).raiseAt h 0x2D .vown { owner := o, xmask := m }) h o m g := by
  obtain ⟨a, b, c, e⟩ := State.unpend_proc (s.clashDropped h g) h g.sd
  rw [State.clashDropped_proc] at e
  have placed : (s.clashPlaced h g).proc h = { ((s.clashDropped h g).unpend h g.sd).proc h with pc := g.pc } := by
    rw [State.clashPlaced_none s h g strip]; exact State.updProc_proc_same _ _ _
  rw [e] at placed
  have strip' : ((s.clashPlaced h g).proc h).strip = none := by rw [placed]; simp [Proc.clashed, strip]
  have pl' : ((s.clashPlaced h g).proc h).pl = 0 := by rw [placed]; exact pl
  have pc' : ((s.clashPlaced h g).proc h).pc = g.pc := by rw [placed]
  have part' : ((s.clashPlaced h g).proc h).part = (s.proc h).part := by rw [placed]; rfl
  have after := (congrArg (fun u : State => u.proc h) (State.raiseAt_vown (s.clashPlaced h g) h 0x2D { owner := o, xmask := m } pl')).trans
    (State.trapEntry_proc _ _ _ _ _ _ _)
  rw [State.restart_none _ _ strip', strip', pc', part', State.clashPlaced_part] at after
  refine ⟨?_, ?_, ?_, ?_, ?_, fun _ r => ?_, fun k hk => ?_⟩
  · rw [strip, after]; exact Proc.entersTrap_vown _ ho hm _ _ rfl rfl rfl _ _ _
  · have e := congrArg Proc.vl placed; exact (congrArg Proc.vl after).trans e
  · have e := congrArg Proc.slivers placed; exact (congrArg Proc.slivers after).trans e
  · have e := congrArg Proc.pgrant placed; exact (congrArg Proc.pgrant after).trans e
  · have e := (congrArg Proc.strip after).trans strip'; exact e
  · have e := congrArg Proc.sregs placed
    exact Proc.reg_congr ((congrArg Proc.sregs after).trans e) r
  · rw [strip] at hk; cases hk

theorem State.raiseAt_clashStrip (s : State) (h o m : Nat) (g : PGrant) (k : Strip) (strip : (s.proc h).strip = some k) (pl : (s.proc h).pl = 0)
    (ho : o < 2 ^ 32) (hm : m < 2 ^ 16) : Clashed s ((s.clashPlaced h g).raiseAt h 0x2D .vown { owner := o, xmask := m }) h o m g := by
  have placed : (s.clashPlaced h g).proc h = (s.proc h).clashed g := by
    rw [State.clashPlaced_some s h g strip]; exact State.clashDropped_proc s h g
  have strip' : ((s.clashPlaced h g).proc h).strip = some k := by rw [placed]; exact strip
  have pl' : ((s.clashPlaced h g).proc h).pl = 0 := by rw [placed]; exact pl
  obtain ⟨⟨p, core, proc⟩, -, -, -, kept⟩ := (s.clashPlaced h g).restart_some h k strip'
  rw [placed] at core
  have after := (congrArg (fun u : State => u.proc h) (State.raiseAt_vown (s.clashPlaced h g) h 0x2D { owner := o, xmask := m } pl')).trans
    (State.trapEntry_proc _ _ _ _ _ _ _)
  have part : (((s.clashPlaced h g).restart h).part (((s.clashPlaced h g).restart h).proc h).part).tvec = (s.part (s.proc h).part).tvec := by
    have parts : ∀ n, ((s.clashPlaced h g).restart h).part n = (s.clashPlaced h g).part n := fun n => by
      have e := congrArg (fun u : State => u.part n) kept
      exact e
    have same : p.part = (s.proc h).part := by
      have e := congrArg Proc.part core
      exact e
    rw [parts, State.clashPlaced_part, proc]
    exact congrArg (fun n => (s.part n).tvec) same
  rw [part, proc, strip'] at after
  refine ⟨?_, ?_, ?_, ?_, ?_, fun hn => ?_, fun k' hk => ?_⟩
  · rw [strip, after]; exact Proc.entersTrap_vown _ ho hm _ _ rfl rfl rfl _ _ _
  · have e := congrArg Proc.vl core; exact (congrArg Proc.vl after).trans e
  · have e := congrArg Proc.slivers core; exact (congrArg Proc.slivers after).trans e
  · refine (congrArg Proc.pgrant after).trans ?_
    have none_ : p.pgrant = none := congrArg Proc.pgrant core
    change p.pgrant.map _ = none
    rw [none_]; rfl
  · exact congrArg Proc.strip after
  · rw [strip] at hn; cases hn
  · rw [strip] at hk; cases hk
    exact ⟨congrArg Proc.sregs after, congrArg Proc.vs after, congrArg Proc.mt after, congrArg Proc.pend after⟩

/-- A grant on a sliver that another process owns raises VOWN (R47, R241). -/
theorem grantClashes (s : State) (tile h o m : Nat) (g : PGrant) (pend : (s.proc h).pgrant = some g) (given : g.assigned = true)
    (due : g.due ≤ s.cycle) (clash : s.conflict h 0 g.slivers = some (o, m))
    (runs : ¬((s.proc h).pst = .parkedFault ∨ (s.proc h).pst = .haltedDebug ∨ (s.proc h).pst = .exited)) (pl : (s.proc h).pl = 0)
    (first : g.again = false) (ho : o < 2 ^ 32) (hm : m < 2 ^ 16) (commit : (s.proc h).inCommit = false) :
    ∃ t, exec (.laneGrantEffect tile h) s = .next t ∧ Clashed s t h o m g := by
  have e : exec (.laneGrantEffect tile h) s =
      .next (((s.clashPlaced h g).raiseAt h 0x2D .vown { owner := o, xmask := m }).settleLanes (s.proc h).tile) := by
    refine congrArg Host.Outcome.next ?_
    rw [pend]
    dsimp only
    rw [if_pos (by simp [given, due]), if_neg (by simp [commit]), State.grantEffect_clash s h o m g clash runs first]
  refine ⟨_, e, Clashed.settleLanes ?_ _⟩
  cases strip : (s.proc h).strip with
  | none => exact State.raiseAt_clashPlain s h o m g strip pl ho hm
  | some k => exact State.raiseAt_clashStrip s h o m g k strip pl ho hm

/-- Settles O44: grants without a clash, with one, during a commit, and after a wait, each by its lemma. -/
theorem laneEvents : Obligations.LaneEvents := by
  refine ⟨fun s tile h g pend given due free need wide => ?_, fun s tile h o m g pend given due clash np nh ne pl first ho hm commit => ?_,
    fun s tile h o m g pend given due clash commit => clashWaitsForCommit s tile h o m g pend given due clash commit,
    fun s h g pend waits h0 => waitGivesUpLanes s h g pend waits h0,
    fun s tile h q first whole some_ empty => reservedIsGranted s tile h q first whole some_ empty⟩
  · obtain ⟨t, step, pgrant, slivers, cluster, owners, vl, sd, vbank, mbank⟩ := grantTakesEffect s tile h g pend given due free need wide
    refine ⟨t, step, pgrant, slivers, cluster, owners, vl, sd, fun last which own sortedV sortedM r i hi => ?_⟩
    have lanes := State.oldLanes_eq which own
    exact ⟨(State.elemAt_congr (vbank _) _ _ _).trans (State.moveLanes_elemAt _ _ lanes sortedV r hi),
      (State.maskBit_congr (mbank _) _ _).trans (State.moveLanes_maskBit _ _ lanes sortedM r hi)⟩
  · obtain ⟨t, step, taken, vl, slivers, pgrant, strip, regs, checkpoint⟩ :=
      grantClashes s tile h o m g pend given due clash (by simp [np, nh, ne]) pl first ho hm commit
    obtain ⟨ready, pc, code, xmask, owner, level, xo, epc⟩ := taken
    refine ⟨t, step, ready, pc, code, xmask, owner, level, xo, vl, slivers, pgrant, strip, fun none_ => ⟨?_, regs none_⟩, fun k hk => ⟨?_, checkpoint k hk⟩⟩
    · rw [epc, none_]; rfl
    · rw [epc, hk]; rfl

end Sys2Proof.Machine
end

section
/-! PROOFS. Messages that enter the mesh, and the monitors of a tile (R50 to R53, R352 to R354). -/

namespace Sys2Proof.Machine

/-- A state without the mesh. -/
def State.offMesh (s : State) : State := { s with net := [], events := [], arbs := [], freeCtr := 0 }
/-- From `s` to `t` one message has entered the mesh, behind those on their way. -/
structure OnMesh (s t : State) (m : NetMsg) : Prop where
  net : t.net = s.net ++ [m]
  rest : t.offMesh = s.offMesh

theorem State.afterDraw_mesh (s : State) (part n : Nat) : (s.afterDraw part n).net = s.net ∧ (s.afterDraw part n).offMesh = s.offMesh := by
  unfold State.afterDraw; split <;> exact ⟨rfl, rfl⟩
theorem State.arbitrate_mesh (s : State) (part a b : Nat) : (s.arbitrate part a b).1.net = s.net ∧ (s.arbitrate part a b).1.offMesh = s.offMesh := by
  unfold State.arbitrate
  split
  · exact ⟨rfl, rfl⟩
  · refine List.foldlRecOn (motive := fun x : State × Nat => x.1.net = s.net ∧ x.1.offMesh = s.offMesh) _ _ ⟨rfl, rfl⟩ fun x hx o _ => ?_
    dsimp only
    split
    · exact hx
    · have q := State.afterDraw_mesh x.1 part (routerArbiter o.1)
      exact ⟨q.1.trans hx.1, q.2.trans hx.2⟩
theorem OnMesh.netSend (s : State) (m : NetMsg) (lat : Nat) (i : Instr) : OnMesh s (s.netSend m lat i) m := by
  have q := State.arbitrate_mesh s m.part (s.netEnds m).1 (s.netEnds m).2
  refine ⟨?_, ?_⟩
  · have e := congrArg (· ++ [m]) q.1; exact e
  · exact q.2

namespace OnMesh
variable {s t : State} {m : NetMsg}

theorem procs (q : OnMesh s t m) : t.procs = s.procs := by have e := congrArg State.procs q.rest; exact e
theorem eps (q : OnMesh s t m) : t.eps = s.eps := by have e := congrArg State.eps q.rest; exact e
theorem tiles (q : OnMesh s t m) : t.tiles = s.tiles := by have e := congrArg State.tiles q.rest; exact e
theorem proc (q : OnMesh s t m) (h : Nat) : t.proc h = s.proc h := by unfold State.proc; rw [q.procs]
theorem tile (q : OnMesh s t m) (n : Nat) : t.tile n = s.tile n := by unfold State.tile; rw [q.tiles]
theorem ep (q : OnMesh s t m) (e : Nat) : t.ep e = s.ep e := by unfold State.ep; rw [q.eps]
theorem traffic (q : OnMesh s t m) : Traffic s t := .of_same (by have e := congrArg State.kept q.rest; exact e) q.tiles q.procs q.eps

end OnMesh

/-- The message of a writer that is staged (R111). -/
def State.message (s : State) (x : Staged) : NetMsg :=
  { wid := widOf x.h x.c, dest := ((s.proc x.h).chan x.c).dest, body := .data x.msg, part := (s.proc x.h).part, net := (s.proc x.h).net }
/-- From `s` to `t` a message has been injected, and its writer may have woken. -/
structure Injected (s t : State) (m : NetMsg) : Prop where
  net : t.net = s.net ++ [m]
  chans : ∀ h, (t.proc h).chans = (s.proc h).chans
  tile : ∀ n, t.tile n = s.tile n
  traffic : Traffic s t
theorem Injected.of_mesh {s u : State} {m : NetMsg} (q : OnMesh s u m) : Injected s u m :=
  ⟨q.net, fun h => by rw [q.proc], q.tile, q.traffic⟩
theorem Injected.wake {s u : State} {m : NetMsg} (q : Injected s u m) (h : Nat) (st : PState) : Injected s (u.wake h st) m where
  net := by rw [← q.net]; unfold State.wake; split <;> rfl
  chans g := by
    rw [← q.chans g]
    unfold State.wake
    split
    · unfold State.goto
      rw [State.updProc_proc]
      split
      · subst_vars; rfl
      · rfl
    · rfl
  tile n := (State.wake_tile u h st n).trans (q.tile n)
  traffic := q.traffic.trans (.wake _ _ _)

/-- The one message staged, on a channel that is open, is injected (R53, R111). -/
theorem State.injectAll_one (s : State) (x : Staged) (plain : x.tree = none) (free : x.after = []) (alone : s.staged = [])
    (open_ : ((s.proc x.h).chan x.c).frozen = false ∧ ((s.proc x.h).chan x.c).refused = none) :
    Injected s ({ s with staged := s.staged ++ [x] }.injectAll) (s.message x) := by
  have sent : Injected s (s.inject (widOf x.h x.c) ((s.proc x.h).chan x.c).dest x.msg (s.proc x.h).part (s.proc x.h).net) (s.message x) :=
    .of_mesh (OnMesh.netSend s (s.message x) _ _)
  have same : ({ s with staged := [] } : State) = s := by rw [← alone]
  unfold State.injectAll
  simp only [alone, List.nil_append, List.foldl_cons, List.foldl_nil, same, plain, free, open_.1, open_.2]
  split
  · next blocked => simp at blocked
  · dsimp only
    split
    · exact sent.wake _ _
    · exact sent

/-- The change of the monitor of a writer shows in its monitor. -/
theorem State.updMon_monOf {s : State} {tile w : Nat} {m : Monitor} (f : Monitor → Monitor) (mon : s.monOf tile w = some m)
    (who : ∀ m, (f m).h = m.h ∧ (f m).c = m.c) : (s.updMon tile w f).monOf tile w = some (f m) := by
  have first : (s.tile tile).mons.find? (fun m => decide (widOf m.h m.c = w)) = some m := mon
  have wid : widOf m.h m.c = w := by simpa using List.find?_some first
  have same : (fun m => decide (widOf m.h m.c = w)) ∘ (fun m => if widOf m.h m.c = w then f m else m) = fun m => decide (widOf m.h m.c = w) := by
    funext m
    dsimp only [Function.comp]
    split
    · rw [(who m).1, (who m).2]
    · rfl
  unfold State.monOf State.updMon
  rw [State.updTile_tile_same]
  dsimp only
  rw [List.find?_map, same, first, Option.map_some, if_pos wid]

/-- The channel of a monitor has given two credits, and its record is no longer pending (R51). -/
def State.monSpent (s : State) (t w : Nat) (m : Monitor) : State :=
  (s.updChan m.h m.c fun x => { x with credits := x.credits - 2 }).updMon t w fun m => { m with pending := none, ovf := 0 }

theorem State.updChan_proc_same (s : State) (h c : Nat) (f : ChanReg → ChanReg) :
    (s.updChan h c f).proc h = (s.proc h).setChan c (f ((s.proc h).chan c)) := State.updProc_proc_same _ _ _
theorem State.monSpent_proc (s : State) (t w : Nat) (m : Monitor) : (s.monSpent t w m).proc m.h =
    (s.proc m.h).setChan m.c { (s.proc m.h).chan m.c with credits := ((s.proc m.h).chan m.c).credits - 2 } :=
  State.updChan_proc_same s m.h m.c fun x => { x with credits := x.credits - 2 }
theorem State.monSpent_chan (s : State) (t w : Nat) (m : Monitor) :
    ((s.monSpent t w m).proc m.h).chan m.c = { (s.proc m.h).chan m.c with credits := ((s.proc m.h).chan m.c).credits - 2 } := by
  rw [State.monSpent_proc, Proc.chan_setChan, if_pos rfl]

/-- The pending record of a monitor whose channel has two credits goes out (R51). -/
theorem State.monPush_sends {s : State} {tile w e : Nat} {m : Monitor} (one : OneMonitor s tile w e m) {v : Nat} (pend : m.pending = some v)
    (small : m.ovf ≤ 255) (rich : 2 ≤ ((s.proc m.h).chan m.c).credits) : SameMemory s (s.monPush tile w) ∧ Recorded s (s.monPush tile w) tile w e m v m.ovf := by
  obtain ⟨mon, wid, dest, ⟨gone, frozen, refused⟩, alone⟩ := one
  have chan := s.monSpent_chan tile w m
  have sent := (s.monSpent tile w m).injectAll_one { h := m.h, c := m.c, msg := monRecord tile m v, after := [] } rfl rfl alone
    (by rw [chan]; exact ⟨frozen, refused⟩)
  have push : s.monPush tile w = { s.monSpent tile w m with
      staged := (s.monSpent tile w m).staged ++ [({ h := m.h, c := m.c, msg := monRecord tile m v, after := [] } : Staged)] }.injectAll := by
    unfold State.monPush
    rw [mon]
    dsimp only
    rw [pend]
    dsimp only
    rw [if_neg (by simp [gone, frozen, refused]), if_neg (by omega)]
    rfl
  rw [← push] at sent
  obtain ⟨net, chans, tiles, traffic⟩ := sent
  refine ⟨(SameMemory.of_tables rfl rfl rfl rfl rfl fun _ => rfl : SameMemory s (s.monSpent tile w m)).trans traffic.memory, ?_, ?_, ?_⟩
  · rw [net]
    have msg : (s.monSpent tile w m).message { h := m.h, c := m.c, msg := monRecord tile m v, after := [] } =
        { wid := w, dest := .tile e, body := .data { slots := [.ofNat 64 (m.sel + m.ovf * 256 + tile % 2048 * 65536), .ofNat 64 v] },
          part := (s.proc m.h).part, net := (s.proc m.h).net } := by
      unfold State.message monRecord
      dsimp only
      rw [chan, wid, dest, Nat.min_eq_left small, State.monSpent_proc]
      rfl
    rw [msg]; rfl
  · rw [Proc.chan_congr (chans m.h) m.c, chan]
  · refine ⟨{ m with pending := none, ovf := 0 }, ?_, rfl, rfl⟩
    unfold State.monOf
    rw [tiles]
    exact State.updMon_monOf (s := s.updChan m.h m.c fun x => { x with credits := x.credits - 2 }) (fun m => { m with pending := none, ovf := 0 }) mon
      fun _ => ⟨rfl, rfl⟩

/-- A monitor that fires with a value keeps it, and counts a record that it replaces (R51). -/
def Monitor.fired (v : Nat) (m : Monitor) : Monitor :=
  { m with pending := some v, ovf := if m.pending.isSome then min 255 (m.ovf + 1) else m.ovf }
theorem exec_monitorFire {s : State} {tile w : Nat} {m : Monitor} (mon : s.monOf tile w = some m) :
    exec (.monitorFire tile w) s = .next ((s.updMon tile w (Monitor.fired m.count)).monPush tile w) := by
  refine congrArg Host.Outcome.next ?_
  rw [mon]
  rfl
theorem OneMonitor.fired {s : State} {tile w e : Nat} {m : Monitor} (one : OneMonitor s tile w e m) (v : Nat) :
    OneMonitor (s.updMon tile w (Monitor.fired v)) tile w e (m.fired v) :=
  ⟨State.updMon_monOf (Monitor.fired v) one.mon fun _ => ⟨rfl, rfl⟩, one.wid, one.dest, one.open_, one.alone⟩

/-- A request for credits leaves the tiles and the credits as they are (R56). -/
theorem State.askCredit_keeps (s : State) (h c n e : Nat) (dest : ((s.proc h).chan c).dest = .tile e) :
    (∀ k, (s.askCredit h c n).tile k = s.tile k) ∧ (((s.askCredit h c n).proc h).chan c).credits = ((s.proc h).chan c).credits := by
  unfold State.askCredit
  dsimp only
  split
  · exact ⟨fun _ => rfl, rfl⟩
  · rw [dest]
    dsimp only [Dest.rid]
    have chan : (((s.updChan h c fun x => { x with asked := n }).proc h).chan c).credits = ((s.proc h).chan c).credits := by
      rw [State.updChan_proc_same, Proc.chan_setChan, if_pos rfl]
    exact ⟨fun k => (OnMesh.netSend _ _ _ _).tile k, by rw [(OnMesh.netSend _ _ _ _).proc]; exact chan⟩
theorem State.monPush_poor {s : State} {tile w e : Nat} {m : Monitor} (one : OneMonitor s tile w e m) {v : Nat} (pend : m.pending = some v)
    (poor : ((s.proc m.h).chan m.c).credits < 2) :
    (s.monPush tile w).monOf tile w = some m ∧ (((s.monPush tile w).proc m.h).chan m.c).credits = ((s.proc m.h).chan m.c).credits := by
  obtain ⟨mon, wid, dest, ⟨gone, frozen, refused⟩, alone⟩ := one
  have push : s.monPush tile w = s.askCredit m.h m.c (2 - ((s.proc m.h).chan m.c).credits) := by
    unfold State.monPush
    rw [mon]
    dsimp only
    rw [pend]
    dsimp only
    rw [if_neg (by simp [gone, frozen, refused]), if_pos poor]
  obtain ⟨tiles, credits⟩ := s.askCredit_keeps m.h m.c (2 - ((s.proc m.h).chan m.c).credits) _ dest
  rw [push]
  refine ⟨?_, credits⟩
  unfold State.monOf
  rw [tiles]
  exact mon
/-- Nothing is pending, and nothing goes out. -/
theorem State.monPush_idle {s : State} {tile w : Nat} {m : Monitor} (mon : s.monOf tile w = some m) (pend : m.pending = none) :
    s.monPush tile w = s := by
  unfold State.monPush
  rw [mon]
  dsimp only
  rw [pend]

/-- What one evaluation does to a level counter (R51). -/
theorem State.evalLevel_one (s : State) (tile sel v : Nat) (m : Monitor) (mons : (s.tile tile).mons = [m]) : s.evalLevel tile sel v =
    if m.sel ≠ sel then s
    else if m.armed && decide (m.t ≤ v) then
      (s.updMon tile (widOf m.h m.c) fun m => { m with armed := false, count := v }).afterCycles 0 (.monitorFire tile (widOf m.h m.c))
    else if v + m.t / 16 < m.t then s.updMon tile (widOf m.h m.c) fun m => { m with armed := true }
    else s := by
  unfold State.evalLevel
  rw [mons]
  rfl
theorem State.updMon_one (s : State) (tile : Nat) (m : Monitor) (f : Monitor → Monitor) (mons : (s.tile tile).mons = [m]) :
    ((s.updMon tile (widOf m.h m.c) f).tile tile).mons = [f m] := by
  unfold State.updMon
  rw [State.updTile_tile_same, mons]
  simp

/-- A level counter after an evaluation of its value: it fires once at its threshold, and is armed again below fifteen sixteenths of it (R51). -/
structure Levelled (s t : State) (tile v : Nat) (m : Monitor) : Prop where
  memory : SameMemory s t
  sel : ∃ x, (t.tile tile).mons = [x] ∧ x.sel = m.sel
  fires : m.armed = true → m.t ≤ v → (t.tile tile).mons = [{ m with armed := false, count := v }] ∧
    ∃ e ∈ t.events, e = (s.cycle, .monitorFire tile (widOf m.h m.c))
  rearms : v + m.t / 16 < m.t → (t.tile tile).mons = [{ m with armed := true }]
  rests : m.armed = false → m.t ≤ v + m.t / 16 → t.tile tile = s.tile tile

theorem State.evalLevel_levelled (s : State) (tile v : Nat) (m : Monitor) (mons : (s.tile tile).mons = [m]) :
    Levelled s (s.evalLevel tile m.sel v) tile v m := by
  rw [State.evalLevel_one s tile m.sel v m mons, if_neg (by simp)]
  split
  · next fire =>
    obtain ⟨armed, reached⟩ : m.armed = true ∧ m.t ≤ v := by simpa using fire
    have one := State.updMon_one s tile m (fun m => { m with armed := false, count := v }) mons
    exact ⟨.of_tables rfl rfl rfl rfl rfl fun _ => rfl, ⟨_, one, rfl⟩, fun _ _ => ⟨one, _, mem_insertDue _ _ _, rfl⟩, fun low => absurd low (by omega),
      fun unarmed => by rw [armed] at unarmed; cases unarmed⟩
  · next quiet =>
    split
    · next low =>
      have one := State.updMon_one s tile m (fun m => { m with armed := true }) mons
      exact ⟨.of_tables rfl rfl rfl rfl rfl fun _ => rfl, ⟨_, one, rfl⟩, fun _ reached => absurd low (by omega), fun _ => one,
        fun _ high => absurd low (by omega)⟩
    · next high =>
      exact ⟨.refl s, ⟨m, mons, rfl⟩, fun armed reached => absurd (by simp [armed, reached]) quiet, fun low => absurd low high, fun _ _ => rfl⟩
/-- The evaluation of another counter leaves a level counter alone. -/
theorem State.evalLevel_other (s : State) (tile sel v : Nat) (m : Monitor) (mons : (s.tile tile).mons = [m]) (other : m.sel ≠ sel) :
    s.evalLevel tile sel v = s := by rw [State.evalLevel_one s tile sel v m mons, if_pos other]
theorem Levelled.evalLevel {s t : State} {tile v : Nat} {m : Monitor} (l : Levelled s t tile v m) {sel : Nat} (other : m.sel ≠ sel) (u : Nat) :
    t.evalLevel tile sel u = t := by
  obtain ⟨x, mons, e⟩ := l.sel
  exact State.evalLevel_other t tile sel u x mons (by rw [e]; exact other)

/-- Each update evaluates a level counter once, with its own value (R354). -/
theorem levelCounterUpdates (s : State) (tile p hot mp : Nat) (m : Monitor) (mons : (s.tile tile).mons = [m])
    (level : m.sel = 16 ∨ m.sel = 17 ∨ m.sel = 18) :
    ∃ t, exec (.levelCounterUpdate tile p hot mp) s = .next t ∧ Levelled s t tile (if m.sel = 16 then p else if m.sel = 17 then hot else mp) m := by
  refine ⟨((s.evalLevel tile 16 p).evalLevel tile 17 hot).evalLevel tile 18 mp, rfl, ?_⟩
  rcases level with e | e | e
  · have l := State.evalLevel_levelled s tile p m mons
    rw [e] at l
    rw [e, l.evalLevel (by omega), l.evalLevel (by omega)]
    exact l
  · have l := State.evalLevel_levelled s tile hot m mons
    rw [e] at l
    rw [e, State.evalLevel_other s tile 16 p m mons (by omega), l.evalLevel (by omega)]
    exact l
  · have l := State.evalLevel_levelled s tile mp m mons
    rw [e] at l
    rw [e, State.evalLevel_other s tile 16 p m mons (by omega), State.evalLevel_other s tile 17 hot m mons (by omega)]
    exact l

end Sys2Proof.Machine
end

section
/-! PROOFS. MONBIND (R50, R352, R353), and the obligation of the monitors. -/

namespace Sys2Proof.Machine

/-- What is free of two registers is free of the first. -/
theorem State.free_first {s : State} {a b : BitVec 5} (free : s.free [a, b]) : s.free [a] := by
  obtain ⟨pend, late⟩ := free
  refine ⟨fun r hr => pend r (by simp_all), ?_⟩
  simp only [Proc.lateUntil, List.map_cons, List.map_nil, List.foldl_cons, List.foldl_nil] at late ⊢
  omega
theorem State.free_monbind {s : State} {a b : BitVec 5} (free : s.free [a, b]) : s.free (if bitAt (s.reg a).toNat 8 then [a] else [a, b]) := by
  split
  · exact s.free_first free
  · exact free

/-- The running process after its instruction has completed, named by its handle. -/
theorem State.retire_proc (s : State) (op : Nat) (ss : s.me.ss = false) :
    (s.retire op).proc s.running = s.me.completed s.cycle (s.me.pc + 4) := by
  have running := (State.jump_only s op (s.me.pc + 4) ss).rest.running
  rw [← State.retire_me s op ss]
  unfold State.me
  rw [show (s.retire op).running = s.running from running]

/-- A change of a channel register of the running process, after its instruction has completed. -/
theorem chanAfterRetire {s t : State} {op c : Nat} {x : ChanReg} (ss : s.me.ss = false) (running : t.running = (s.retire op).running)
    (proc : t.proc s.running = ((s.retire op).proc s.running).setChan c x) :
    WentTo t (s.me.pc + 4) ∧ (∀ r, t.reg r = s.reg r) ∧ t.me.chan c = x ∧ ∀ k, k ≠ c → t.me.chan k = s.me.chan k := by
  have same : t.running = s.running := running.trans (State.jump_only s op (s.me.pc + 4) ss).rest.running
  have me : t.me = (s.me.completed s.cycle (s.me.pc + 4)).setChan c x := by
    unfold State.me at ⊢
    rw [same, proc, State.retire_proc s op ss]
    rfl
  refine ⟨⟨by rw [me]; rfl, by rw [me]; rfl⟩, fun r => by unfold State.reg; rw [me]; rfl, ?_, fun k hk => ?_⟩
  · rw [me, Proc.chan_setChan, if_pos rfl]
  · rw [me, Proc.chan_setChan, if_neg (Ne.symm hk)]; rfl

/-- MONBIND has attached a monitor (R50). -/
def State.monAttached (s : State) (c sel thr : Nat) : State :=
  ((s.retire 0x3C).updTile s.myTile fun x => { x with mons := x.mons ++ [{ h := s.running, c := c, sel := sel, t := thr }] }).updChan s.running c
    fun x => { x with use := .monitor }

section Monbind
variable {s : State} {n : BitVec 4} {a b : BitVec 5}

theorem monbind_attaches {sel : Nat} (free : s.free [a, b]) (plain : s.plain) (known : sel ≤ 6 ∨ 16 ≤ sel ∧ sel ≤ 18)
    (level : sel = 17 ∨ sel = 18 → 1 ≤ s.me.pl) (hsel : s.reg a = .ofNat 64 sel) (thr : s.reg b ≠ 0) (role : (s.me.chan n.toNat).role = .writer)
    (use : (s.me.chan n.toNat).use = .plain) (unused : ∀ m ∈ (s.tile s.me.tile).mons, ¬ (m.h = s.running ∧ m.c = n.toNat))
    (room : (s.tile s.me.tile).mons.length < 16) :
    exec (.monbind n a b) s = .next (s.monAttached n.toNat sel (s.reg b).toNat) := by
  have num : (s.reg a).toNat = sel := by rw [hsel, BitVec.toNat_ofNat]; omega
  have low : wfield (s.reg a) 7 0 = sel := by unfold wfield field; rw [num]; omega
  have high : wfield (s.reg a) 63 9 = 0 := by unfold wfield field; rw [num]; omega
  have bit : bitAt (s.reg a).toNat 8 = false := by unfold bitAt; rw [num]; exact decide_eq_false (by omega)
  have used : ((s.tile s.myTile).mons.any fun m => decide (m.h = s.running ∧ m.c = n.toNat)) = false := by
    rw [List.any_eq_false]
    intro m hm
    simpa using unused m hm
  refine congrArg Host.Outcome.next ((State.withRegsCommit_free _ _ _ (State.free_monbind free) plain.2.1).trans ?_)
  dsimp only
  rw [low, high, bit, used, if_neg, if_neg, if_neg, if_neg (by simp)]
  · rfl
  · have len : ¬ 16 ≤ (s.tile s.myTile).mons.length := Nat.not_le.2 room
    have zero : ¬ s.reg b = 0 := thr
    simp only [role, use, zero, len]
    simp
    omega
  · rw [role]; simp
  · rintro ⟨priv, pl⟩
    have := level priv
    omega

/-- MONBIND with the unbind bit takes a monitor off (R50). -/
theorem monbind_detaches (free : s.free [a, b]) (plain : s.plain) (off : s.reg a = 256) (role : (s.me.chan n.toNat).role = .writer)
    (use : (s.me.chan n.toNat).use = .monitor) (mon : ∃ m ∈ (s.tile s.me.tile).mons, m.h = s.running ∧ m.c = n.toNat) :
    exec (.monbind n a b) s = .next ((s.retire 0x3C).plainChan s.running n.toNat) := by
  have used : ((s.tile s.myTile).mons.any fun m => decide (m.h = s.running ∧ m.c = n.toNat)) = true := by
    obtain ⟨m, hm, who⟩ := mon
    exact List.any_eq_true.2 ⟨m, hm, decide_eq_true who⟩
  have low : wfield (s.reg a) 7 0 = 0 := by rw [off]; rfl
  have high : wfield (s.reg a) 63 9 = 0 := by rw [off]; rfl
  have bit : bitAt (s.reg a).toNat 8 = true := by rw [off]; rfl
  refine congrArg Host.Outcome.next ((State.withRegsCommit_free _ _ _ (State.free_monbind free) plain.2.1).trans ?_)
  dsimp only
  rw [low, high, bit, used, if_neg (by simp), if_neg (by simp [role]), if_neg (by simp [role, use]), if_pos rfl]

/-- A fault of MONBIND parks its process. -/
theorem monbind_parks {c : Cause} (strip : s.me.strip = none) (plain : c ≠ .vown ∧ c ≠ .softwareTrap)
    (e : exec (.monbind n a b) s = .next (s.raise 0x3C c)) : ∃ t, exec (.monbind n a b) s = .next t ∧ Parks s t c s.me.pc :=
  ⟨_, e, State.raise_parks s 0x3C c {} strip plain.1 fun h => plain.2 h.1⟩
theorem wfield_low (w : Word) : wfield w 7 0 = w.toNat % 256 := by simp [wfield, field]
theorem monbind_privilege (free : s.free [a, b]) (strip : s.me.strip = none) (sel : (s.reg a).toNat % 256 = 17 ∨ (s.reg a).toNat % 256 = 18)
    (pl : s.me.pl = 0) : exec (.monbind n a b) s = .next (s.raise 0x3C .privilege) := by
  refine congrArg Host.Outcome.next ((State.withRegsCommit_free _ _ _ (State.free_monbind free) strip).trans ?_)
  dsimp only
  rw [wfield_low, if_pos ⟨sel, pl⟩]
theorem monbind_unbound (free : s.free [a, b]) (strip : s.me.strip = none)
    (level : ¬(((s.reg a).toNat % 256 = 17 ∨ (s.reg a).toNat % 256 = 18) ∧ s.me.pl = 0)) (role : (s.me.chan n.toNat).role = .unbound) :
    exec (.monbind n a b) s = .next (s.raise 0x3C .chanUnbound) := by
  refine congrArg Host.Outcome.next ((State.withRegsCommit_free _ _ _ (State.free_monbind free) strip).trans ?_)
  dsimp only
  rw [wfield_low, if_neg level, if_pos role]
theorem monbind_refused (free : s.free [a, b]) (strip : s.me.strip = none)
    (level : ¬(((s.reg a).toNat % 256 = 17 ∨ (s.reg a).toNat % 256 = 18) ∧ s.me.pl = 0)) (role : (s.me.chan n.toNat).role ≠ .unbound)
    (bad : (s.me.chan n.toNat).role = .reader ∨ 7 ≤ (s.reg a).toNat % 256 ∧ (s.reg a).toNat % 256 ≤ 15 ∨ 18 < (s.reg a).toNat % 256) :
    exec (.monbind n a b) s = .next (s.raise 0x3C .protection) := by
  refine congrArg Host.Outcome.next ((State.withRegsCommit_free _ _ _ (State.free_monbind free) strip).trans ?_)
  dsimp only
  rw [wfield_low, if_neg level, if_neg role, if_pos]
  rcases bad with reader | mid | high
  · exact .inl reader
  · exact .inr (.inr (.inr (.inr (.inl mid))))
  · exact .inr (.inr (.inr (.inr (.inr (.inl high)))))

end Monbind

theorem State.monAttached_mons (s : State) (c sel thr : Nat) : ((s.monAttached c sel thr).tile s.me.tile).mons =
    ((s.retire 0x3C).tile s.me.tile).mons ++ [{ h := s.running, c := c, sel := sel, t := thr }] :=
  congrArg Tile.mons (State.updTile_tile_same (s.retire 0x3C) s.me.tile fun x =>
    { x with mons := x.mons ++ [{ h := s.running, c := c, sel := sel, t := thr }] })
theorem State.monAttached_facts (s : State) (c sel thr : Nat) (ss : s.me.ss = false) :
    WentTo (s.monAttached c sel thr) (s.me.pc + 4) ∧ (∀ r, (s.monAttached c sel thr).reg r = s.reg r) ∧
      (s.monAttached c sel thr).me.chan c = { s.me.chan c with use := .monitor } ∧
      ∀ k, k ≠ c → (s.monAttached c sel thr).me.chan k = s.me.chan k := by
  refine chanAfterRetire (op := 0x3C) ss rfl ?_
  have e : (s.monAttached c sel thr).proc s.running = _ := State.updChan_proc_same _ s.running c fun x => { x with use := .monitor }
  refine e.trans ?_
  change ((s.retire 0x3C).proc s.running).setChan c { ((s.retire 0x3C).proc s.running).chan c with use := .monitor } = _
  rw [State.retire_proc s 0x3C ss]
  rfl

/-- What makes a channel register plain leaves its process's other registers alone, and takes its monitors off (R126). -/
theorem State.plainChan_proc (s : State) (h c : Nat) :
    (s.plainChan h c).proc h = (s.proc h).setChan c { (s.proc h).chan c with use := .plain } := by
  unfold State.plainChan
  dsimp only
  rw [State.updChan_proc_same]
  split <;> rfl
theorem State.plainChan_mons (s : State) (h c : Nat) : ∀ m ∈ ((s.plainChan h c).tile (s.proc h).tile).mons, ¬(m.h = h ∧ m.c = c) := by
  have mons : ∀ u : State, (u.proc h).tile = (s.proc h).tile → ∀ m ∈ (((u.updTile (u.proc h).tile fun x =>
      { x with mons := x.mons.filter fun m => !decide (m.h = h ∧ m.c = c)
               an := { x.an with ports := x.an.ports.filter fun e => !decide (e.2.h = h ∧ e.2.ch = c)
                                 taps := x.an.taps.filter fun e => !decide (e.2.h = h ∧ e.2.ch = c) } }).updChan h c fun y =>
        { y with use := .plain }).tile (s.proc h).tile).mons, ¬(m.h = h ∧ m.c = c) := fun u e m hm => by
    rw [e] at hm
    have tile : ∀ f g, ((u.updTile (s.proc h).tile f).updChan h c g).tile (s.proc h).tile = f (u.tile (s.proc h).tile) := fun f g =>
      State.updTile_tile_same _ _ _
    rw [tile] at hm
    have keep := (List.mem_filter.1 hm).2
    rintro ⟨rfl, rfl⟩
    simp at keep
  unfold State.plainChan
  dsimp only
  split
  · exact mons _ rfl
  · exact mons _ rfl

theorem State.updMon_memory (s : State) (tile w : Nat) (f : Monitor → Monitor) : SameMemory s (s.updMon tile w f) :=
  .of_tables rfl rfl rfl rfl rfl fun _ => rfl

/-- Settles O49: MONBIND's answers, firing with and without credit, and the level counters, each by its lemma. -/
theorem monitorResult : Obligations.MonitorResult := by
  refine ⟨fun s n a b sel free plain known level hsel thr role use unused room => ?_, fun s n a b free plain off role use mon => ?_,
    fun s n a b free strip => ⟨fun sel pl => ?_, fun n17 n18 role => ?_, fun n17 n18 role => ?_, fun range role => ?_⟩,
    fun s tile w e m one => ⟨fun small rich => ?_, fun poor => ?_, fun v pend small rich => ?_, fun pend => ?_⟩,
    fun s tile p hot mp m mons sel => ?_⟩
  · obtain ⟨went, regs, chan, others⟩ := s.monAttached_facts n.toNat sel (s.reg b).toNat plain.1
    refine ⟨_, monbind_attaches free plain known level hsel thr role use unused room, went, regs, ?_, ⟨_, ?_, rfl⟩, chan, others⟩
    · exact (State.jump_only s 0x3C (s.me.pc + 4) plain.1).memory.trans (.of_tables rfl rfl rfl rfl rfl fun _ => rfl)
    · rw [State.monAttached_mons]
      exact List.mem_append_right _ (List.mem_singleton.2 rfl)
  · have proc := State.plainChan_proc (s.retire 0x3C) s.running n.toNat
    obtain ⟨went, regs, chan, -⟩ := chanAfterRetire (op := 0x3C) plain.1 (t := (s.retire 0x3C).plainChan s.running n.toNat) (by
      unfold State.plainChan; dsimp only; split <;> rfl) proc
    rw [State.retire_proc s 0x3C plain.1] at chan
    have mons := State.plainChan_mons (s.retire 0x3C) s.running n.toNat
    rw [State.retire_proc s 0x3C plain.1] at mons
    exact ⟨_, monbind_detaches free plain off role use mon, went, regs, mons, chan⟩
  · exact monbind_parks strip (by simp) (monbind_privilege free strip sel pl)
  · exact monbind_parks strip (by simp) (monbind_unbound free strip (fun h => h.1.elim n17 n18) role)
  · exact monbind_parks strip (by simp) (monbind_refused free strip (fun h => h.1.elim n17 n18) (by simp [role]) (.inl role))
  · have level : ¬(((s.reg a).toNat % 256 = 17 ∨ (s.reg a).toNat % 256 = 18) ∧ s.me.pl = 0) := fun h => by
      have := h.1
      omega
    exact monbind_parks strip (by simp) (monbind_refused free strip level role (.inr range))
  · have small' : (m.fired m.count).ovf ≤ 255 := by unfold Monitor.fired; dsimp only; split <;> omega
    obtain ⟨memory, net, credits, idle⟩ := State.monPush_sends (one.fired m.count) rfl small' rich
    exact ⟨_, exec_monitorFire one.mon, State.updMon_memory s tile w _ |>.trans memory, net, credits, idle⟩
  · obtain ⟨mon, credits⟩ := State.monPush_poor (one.fired m.count) rfl poor
    exact ⟨_, _, exec_monitorFire one.mon, mon, rfl, rfl, credits⟩
  · exact ⟨_, rfl, (State.monPush_sends one pend small rich).2⟩
  · exact congrArg Host.Outcome.next (State.monPush_idle one.mon pend)
  · obtain ⟨t, step, memory, -, fires, rearms, rests⟩ := levelCounterUpdates s tile p hot mp m mons sel
    exact ⟨t, step, memory, fires, rearms, rests⟩

end Sys2Proof.Machine
end

section
/-! PROOFS. The Fumarole detector (R74, R75). -/

namespace Sys2Proof.Machine

/-- The full channels of a partition: entries on which a stuck writer waits (R75). -/
def State.fullChannels (s : State) (part : Nat) : List (Nat × Endpoint) :=
  s.eps.filter fun e => e.2.bound && decide (e.1 < 1048576) && (s.part part).inRect (e.1 / 256) && !(s.stuckWriters part e.1).isEmpty
/-- The smaller of the channel found so far and another one; the former among equals. -/
def smallerOf (a : Option (Nat × Nat)) (e : Nat × Endpoint) : Option (Nat × Nat) :=
  match a with
  | none => some (e.2.cap, e.1)
  | some b => if e.2.cap < b.1 then some (e.2.cap, e.1) else a
/-- The least member of a list. -/
def leastOr (l : List Nat) : Nat :=
  match l with
  | [] => 0
  | h :: t => t.foldl min h

/-- The first of the smallest channels is found (R75). -/
theorem foldl_smallerOf (l r : List (Nat × Endpoint)) (id : Nat) (x : Endpoint) (before : ∀ e ∈ l, x.cap < e.2.cap) (behind : ∀ e ∈ r, x.cap ≤ e.2.cap) :
    (l ++ (id, x) :: r).foldl smallerOf none = some (x.cap, id) := by
  have bigger : ∀ b ∈ l.foldl smallerOf none, x.cap < b.1 := by
    refine List.foldlRecOn (motive := fun a : Option (Nat × Nat) => ∀ b ∈ a, x.cap < b.1) l smallerOf (by simp) fun a ha e he b hb => ?_
    cases a with
    | none => cases hb; exact before e he
    | some c =>
      simp only [smallerOf] at hb
      split at hb
      · cases hb; exact before e he
      · exact ha b hb
  have found : smallerOf (l.foldl smallerOf none) (id, x) = some (x.cap, id) := by
    cases h : l.foldl smallerOf none with
    | none => rfl
    | some b => exact if_pos (bigger b (by rw [h]; rfl))
  rw [List.foldl_append, List.foldl_cons, found]
  refine List.foldlRecOn (motive := fun a => a = some (x.cap, id)) r smallerOf rfl fun a ha e he => ?_
  rw [ha]
  exact if_neg (Nat.not_lt.2 (behind e he))

theorem leastOr_spec {l : List Nat} (ne : l ≠ []) : leastOr l ∈ l ∧ ∀ g ∈ l, leastOr l ≤ g := by
  cases l with
  | nil => exact absurd rfl ne
  | cons h t =>
    have step (t : List Nat) : ∀ h, t.foldl min h ∈ h :: t ∧ ∀ g ∈ h :: t, t.foldl min h ≤ g := by
      induction t with
      | nil => intro h; simp
      | cons a t ih =>
        intro h
        obtain ⟨mem, le⟩ := ih (min h a)
        rw [List.foldl_cons]
        have first := le (min h a) List.mem_cons_self
        refine ⟨?_, fun g hg => ?_⟩
        · rcases List.mem_cons.1 mem with e | m
          · rw [e]; rcases Nat.le_total h a with ha | ha
            · rw [Nat.min_eq_left ha]; exact List.mem_cons_self
            · rw [Nat.min_eq_right ha]; exact List.mem_cons_of_mem _ List.mem_cons_self
          · exact List.mem_cons_of_mem _ (List.mem_cons_of_mem _ m)
        · rcases List.mem_cons.1 hg with rfl | hg
          · exact Nat.le_trans first (Nat.min_le_left _ _)
          · rcases List.mem_cons.1 hg with rfl | hg
            · exact Nat.le_trans first (Nat.min_le_right _ _)
            · exact le g (List.mem_cons_of_mem _ hg)
    exact step t h

/-- What a channel of capacity `cap` grows by (R75, R76). -/
def growth (cap : Nat) : Nat := min (2 * cap) 65536 - cap
/-- A full channel has grown from the Caldera (R76). -/
def State.widened (s : State) (part id add : Nat) : State :=
  (s.updPart part fun q => { q with calUsed := q.calUsed + add }).updEp id fun e => { e with cap := e.cap + add }
/-- What the detector decides for the smallest full channel (R75, R255). -/
def State.sweepDecision (s : State) (part : Nat) (best : Option (Nat × Nat)) : State :=
  match best with
  | none => s.reportDeadlock part (leastOr ((s.liveOf part).filter s.stuck)) 0 0
  | some (cap, id) =>
    if growth cap = 0 ∨ (s.part part).calsize / 8 < (s.part part).calUsed + growth cap then
      s.reportDeadlock part (leastOr (s.stuckWriters part id)) 1 id
    else (s.widened part id (growth cap)).addFree id (growth cap)
theorem State.growOrReport_eq (s : State) (part : Nat) :
    s.growOrReport part = s.sweepDecision part ((s.fullChannels part).foldl smallerOf none) := rfl

/-- A channel grows by what it may, no other one does, and the Caldera counts it (R76). -/
theorem State.widened_cap (s : State) (part id add e : Nat) :
    ((s.widened part id add).ep e).cap = if e = id then (s.ep id).cap + add else (s.ep e).cap := by
  unfold State.widened
  rw [State.updEp_ep]
  by_cases h : e = id
  · subst h; rw [if_pos rfl, if_pos rfl]; rfl
  · rw [if_neg (Ne.symm h), if_neg h]; rfl
theorem State.widened_part (s : State) (part id add : Nat) :
    (s.widened part id add).part part = { s.part part with calUsed := (s.part part).calUsed + add } :=
  State.updPart_part_same s part fun q => { q with calUsed := q.calUsed + add }
theorem Traffic.cap {s t : State} (q : Traffic s t) (e : Nat) : (t.ep e).cap = (s.ep e).cap := by
  have c := congrArg Endpoint.cap (q.eps e); exact c

/-- The record of a deadlock (R75, R235). -/
def deadlockRecord (part h detail aux : Nat) : FRec :=
  { kind := .report, part := part, firmware := false,
    slots := [recSlot0 h detail 3 false 0 Cause.deadlock.code, 0, BitVec.ofNat 64 aux, 0, 0, 0, 0, 0] }
theorem deadlockRecord_head (part h detail aux : Nat) (small : detail < 65536) :
    ((deadlockRecord part h detail aux).slots.headD 0).toNat % 256 = Cause.deadlock.code ∧
      ((deadlockRecord part h detail aux).slots.headD 0).toNat / 65536 % 65536 = detail := by
  refine ⟨recSlot0_cause _ _ _ _ _ .deadlock, ?_⟩
  have code : Cause.deadlock.code < 256 := by decide
  simp only [deadlockRecord, List.headD_cons, recSlot0, BitVec.toNat_ofNat, show bit1 false = 0 from rfl]
  omega

/-- What a report of a deadlock changes: the record at the tile of its process, and the partition's note of it (R75). -/
structure Reported (s t : State) (part h detail aux : Nat) : Prop where
  record : { deadlockRecord part h detail aux with at_ := s.cycle } ∈ (t.tile (s.proc h).tile).frecs
  noted : (t.part part).det.reported = true
  eps : ∀ e, t.ep e = s.ep e

theorem State.queueRecord_report (s : State) (tile : Nat) (r : FRec) (kind : r.kind = .report) :
    { r with at_ := s.cycle } ∈ ((s.queueRecord tile r).tile tile).frecs ∧ (s.queueRecord tile r).parts = s.parts ∧
      (s.queueRecord tile r).eps = s.eps := by
  obtain ⟨k, part, firmware, slots, after, at_⟩ := r
  dsimp only at kind
  subst kind
  have mem : FRec.mk .report part firmware slots after s.cycle ∈
      ((s.updTile tile fun x => { x with frecs := x.frecs ++ [⟨.report, part, firmware, slots, after, s.cycle⟩] }).tile tile).frecs := by
    rw [State.updTile_tile_same]
    exact List.mem_append_right _ (List.mem_singleton.2 rfl)
  unfold State.queueRecord
  dsimp only
  split <;> exact ⟨mem, rfl, rfl⟩
theorem State.failRun_det (s : State) (part net tile n : Nat) : ((s.failRun part net tile).part n).det = (s.part n).det := by
  unfold State.failRun
  split
  · rfl
  · dsimp only
    split
    · refine (congrArg Partition.det (State.updPart_part s part n fun q => { q with nets := q.nets.map fun n =>
        if n.num = net then { n with failed := some tile } else n })).trans ?_
      split
      · subst_vars; rfl
      · rfl
    · rfl
theorem State.failRun_ep (s : State) (part net tile e : Nat) : (s.failRun part net tile).ep e = s.ep e := by
  rcases s.failRun_cases part net tile with h | ⟨f, i, h, _⟩ <;> rw [h]; rfl

/-- The partition notes that its deadlock has been reported. -/
def State.reportNoted (s : State) (part : Nat) : State := s.updPart part fun q => { q with det := { q.det with reported := true } }
theorem State.reportDeadlock_reported (s : State) (part h detail aux : Nat) : Reported s (s.reportDeadlock part h detail aux) part h detail aux := by
  obtain ⟨mem, parts, eps⟩ := (s.reportNoted part).queueRecord_report (s.proc h).tile (deadlockRecord part h detail aux) rfl
  have e : s.reportDeadlock part h detail aux =
      ((s.reportNoted part).queueRecord (s.proc h).tile (deadlockRecord part h detail aux)).failRun part (s.proc h).net (s.proc h).tile := rfl
  rw [e]
  refine ⟨by rw [State.failRun_tile]; exact mem, ?_, fun k => ?_⟩
  · rw [State.failRun_det]
    unfold State.part
    rw [parts]
    exact congrArg (fun q : Partition => q.det.reported) (State.updPart_part_same s part fun q => { q with det := { q.det with reported := true } })
  · rw [State.failRun_ep]
    unfold State.ep
    rw [eps]
    rfl

/-- The end of a sweep: what the partition shows is kept for the next one (R75). -/
def State.sweepEnded (s u : State) (part : Nat) : State :=
  u.updPart part fun q => { q with det := { prev := s.snapshot part, prevStuck := s.partStuck part, sweeping := false,
                                            reported := if s.snapshot part ≠ (s.part part).det.prev then false else q.det.reported } }
section
variable {s : State} {part : Nat}
theorem exec_sweepDone (sweeping : (s.part part).det.sweeping = true) : exec (.fumaroleSweepDone part) s = .next (s.sweepEnded
    (if (s.partStuck part && (s.part part).det.prevStuck && decide (s.snapshot part = (s.part part).det.prev) && !(s.part part).det.reported) = true
      then s.growOrReport part else s) part) := by
  refine congrArg Host.Outcome.next ?_
  dsimp only
  rw [sweeping, if_neg (by simp)]
  rfl
theorem exec_sweepDone_idle (sweeping : (s.part part).det.sweeping = true) (quiet : s.partStuck part = false ∨ (s.part part).det.prevStuck = false) :
    exec (.fumaroleSweepDone part) s = .next (s.sweepEnded s part) := by
  rw [exec_sweepDone sweeping, if_neg (by rcases quiet with h | h <;> simp [h])]
theorem exec_sweepDone_acts (sweeping : (s.part part).det.sweeping = true) (prev : (s.part part).det.prev = s.snapshot part)
    (unreported : (s.part part).det.reported = false) (stuck : s.partStuck part = true) (before : (s.part part).det.prevStuck = true) :
    exec (.fumaroleSweepDone part) s = .next (s.sweepEnded (s.sweepDecision part ((s.fullChannels part).foldl smallerOf none)) part) := by
  rw [exec_sweepDone sweeping, if_pos (by simp [stuck, before, prev, unreported]), State.growOrReport_eq]
end
theorem State.sweepEnded_part (s u : State) (part : Nat) (prev : (s.part part).det.prev = s.snapshot part) : (s.sweepEnded u part).part part =
    { u.part part with det := { prev := s.snapshot part, prevStuck := s.partStuck part, sweeping := false, reported := (u.part part).det.reported } } := by
  refine (State.updPart_part_same u part _).trans ?_
  rw [prev, if_neg (by simp)]

end Sys2Proof.Machine
end

section
/-! PROOFS. Sweeps, fault records and the debugger (R32, R74 to R76, R172, R231 to R233, R243). -/

namespace Sys2Proof.Machine

/-- What a sweep that acts starts from (R75). -/
structure SweepActs (s : State) (part : Nat) : Prop where
  sweeping : (s.part part).det.sweeping = true
  prev : (s.part part).det.prev = s.snapshot part
  unreported : (s.part part).det.reported = false
  stuck : s.partStuck part = true
  before : (s.part part).det.prevStuck = true

theorem SweepActs.exec {s : State} {part : Nat} (acts : SweepActs s part) : exec (.fumaroleSweepDone part) s =
    .next (s.sweepEnded (s.sweepDecision part ((s.fullChannels part).foldl smallerOf none)) part) :=
  exec_sweepDone_acts acts.sweeping acts.prev acts.unreported acts.stuck acts.before

/-- The smallest full channel grows (R75). -/
theorem sweepGrows {s : State} {part id : Nat} {x : Endpoint} {l r : List (Nat × Endpoint)} (acts : SweepActs s part)
    (full : s.fullChannels part = l ++ (id, x) :: r) (ep : s.ep id = x) (before : ∀ e ∈ l, x.cap < e.2.cap) (behind : ∀ e ∈ r, x.cap ≤ e.2.cap)
    (grows : 0 < growth x.cap) (room : (s.part part).calUsed + growth x.cap ≤ (s.part part).calsize / 8) :
    ∃ t, exec (.fumaroleSweepDone part) s = .next t ∧ (t.ep id).cap = x.cap + growth x.cap ∧ (∀ e, e ≠ id → (t.ep e).cap = (s.ep e).cap) ∧
      (t.part part).calUsed = (s.part part).calUsed + growth x.cap ∧ (t.part part).det.sweeping = false ∧ (t.part part).det.reported = false := by
  have decision : s.sweepDecision part ((s.fullChannels part).foldl smallerOf none) =
      (s.widened part id (growth x.cap)).addFree id (growth x.cap) := by
    rw [full, foldl_smallerOf l r id x before behind]
    exact if_neg (by omega)
  have traffic := Traffic.addFree (s.widened part id (growth x.cap)) id (growth x.cap)
  have step := acts.exec
  rw [decision] at step
  have ended := s.sweepEnded_part ((s.widened part id (growth x.cap)).addFree id (growth x.cap)) part acts.prev
  rw [traffic.part, State.widened_part] at ended
  refine ⟨_, step, ?_, fun e he => ?_, ?_, ?_, ?_⟩
  · refine (traffic.cap id).trans ?_
    rw [State.widened_cap, if_pos rfl, ep]
  · refine (traffic.cap e).trans ?_
    rw [State.widened_cap, if_neg he]
  · rw [ended]
  · rw [ended]
  · rw [ended]; exact acts.unreported

/-- A deadlock is reported where no channel may grow (R75). -/
theorem sweepReports {s : State} {part h detail aux : Nat} (acts : SweepActs s part) (small : detail < 65536)
    (decision : s.sweepDecision part ((s.fullChannels part).foldl smallerOf none) = s.reportDeadlock part h detail aux) :
    ∃ t, exec (.fumaroleSweepDone part) s = .next t ∧ (∀ e, t.ep e = s.ep e) ∧ (t.part part).det.reported = true ∧
      ∃ f ∈ (t.tile (s.proc h).tile).frecs, f.part = part ∧ f.firmware = false ∧ (f.slots.headD 0).toNat % 256 = Cause.deadlock.code ∧
        (f.slots.headD 0).toNat / 65536 % 65536 = detail ∧ f.slots.getD 2 0 = .ofNat 64 aux := by
  obtain ⟨record, noted, eps⟩ := s.reportDeadlock_reported part h detail aux
  obtain ⟨code, what⟩ := deadlockRecord_head part h detail aux small
  have step := acts.exec
  rw [decision] at step
  refine ⟨_, step, eps, ?_, _, record, rfl, rfl, code, what, rfl⟩
  rw [State.sweepEnded_part _ _ _ acts.prev]
  exact noted

theorem sweepReports_full {s : State} {part id : Nat} {x : Endpoint} {l r : List (Nat × Endpoint)} (acts : SweepActs s part)
    (full : s.fullChannels part = l ++ (id, x) :: r) (before : ∀ e ∈ l, x.cap < e.2.cap) (behind : ∀ e ∈ r, x.cap ≤ e.2.cap)
    (no : growth x.cap = 0 ∨ (s.part part).calsize / 8 < (s.part part).calUsed + growth x.cap) :
    ∃ t h, exec (.fumaroleSweepDone part) s = .next t ∧ h ∈ s.stuckWriters part id ∧ (∀ g ∈ s.stuckWriters part id, h ≤ g) ∧
      (∀ e, (t.ep e).cap = (s.ep e).cap) ∧ (t.part part).det.reported = true ∧
      ∃ f ∈ (t.tile (s.proc h).tile).frecs, f.part = part ∧ f.firmware = false ∧ (f.slots.headD 0).toNat % 256 = Cause.deadlock.code ∧
        (f.slots.headD 0).toNat / 65536 % 65536 = 1 ∧ f.slots.getD 2 0 = .ofNat 64 id := by
  have waits : s.stuckWriters part id ≠ [] := by
    have mem : (id, x) ∈ s.fullChannels part := by rw [full]; simp
    have some_ := (List.mem_filter.1 mem).2
    intro none_
    simp [none_] at some_
  obtain ⟨mem, least⟩ := leastOr_spec waits
  obtain ⟨t, step, eps, reported, record⟩ := sweepReports (h := leastOr (s.stuckWriters part id)) (detail := 1) (aux := id) acts (by omega) (by
    rw [full, foldl_smallerOf l r id x before behind]
    exact if_pos no)
  exact ⟨t, _, step, mem, least, fun e => by rw [eps], reported, record⟩
theorem sweepReports_none {s : State} {part : Nat} (acts : SweepActs s part) (none_ : s.fullChannels part = []) :
    ∃ t h, exec (.fumaroleSweepDone part) s = .next t ∧ h ∈ s.liveOf part ∧ (t.part part).det.reported = true ∧
      ∃ f ∈ (t.tile (s.proc h).tile).frecs, f.part = part ∧ (f.slots.headD 0).toNat % 256 = Cause.deadlock.code := by
  have waits : (s.liveOf part).filter s.stuck ≠ [] := by
    have stuck := acts.stuck
    unfold State.partStuck at stuck
    obtain ⟨some_, all⟩ := Bool.and_eq_true_iff.1 stuck
    rw [List.filter_eq_self.2 (List.all_eq_true.1 all)]
    intro emp
    simp [emp] at some_
  obtain ⟨mem, -⟩ := leastOr_spec waits
  obtain ⟨t, step, eps, reported, f, hf, part_, fw, code, -⟩ := sweepReports (h := leastOr ((s.liveOf part).filter s.stuck)) (detail := 0) (aux := 0) acts
    (by omega) (by rw [none_]; rfl)
  exact ⟨t, _, step, (List.mem_filter.1 mem).1, reported, f, hf, part_, code⟩

/-- A sweep that does not act only keeps what the partition shows (R75). -/
theorem sweepIdle {s : State} {part : Nat} (sweeping : (s.part part).det.sweeping = true) (prev : (s.part part).det.prev = s.snapshot part)
    (quiet : s.partStuck part = false ∨ (s.part part).det.prevStuck = false) :
    ∃ t, exec (.fumaroleSweepDone part) s = .next t ∧ (t.part part).det.sweeping = false ∧ (t.part part).det.prevStuck = s.partStuck part ∧
      ∀ e, t.ep e = s.ep e :=
  ⟨_, exec_sweepDone_idle sweeping quiet, by rw [State.sweepEnded_part _ _ _ prev], by rw [State.sweepEnded_part _ _ _ prev], fun _ => rfl⟩

/-- The detector looks every 1024 cycles, and sweeps while its partition is stuck and once in 65,536 cycles (R75). -/
def State.sweepStarted (s : State) (part : Nat) : State :=
  ((s.afterCycles 1024 (.fumaroleSweepStart part)).updPart part fun q => { q with det := { q.det with sweeping := true } }).afterCycles 1023
    (.fumaroleSweepDone part)
theorem exec_sweepStart {s : State} {part : Nat} (valid : (s.part part).valid = true) : exec (.fumaroleSweepStart part) s =
    .next (if s.partStuck part = true ∨ s.cycle % 65536 < 1024 then s.sweepStarted part else s.afterCycles 1024 (.fumaroleSweepStart part)) := by
  refine congrArg Host.Outcome.next ?_
  rw [valid]
  rfl
theorem sweepStarts {s : State} {part : Nat} (valid : (s.part part).valid = true) :
    ∃ t, exec (.fumaroleSweepStart part) s = .next t ∧ (s.cycle + 1024, .fumaroleSweepStart part) ∈ t.events ∧ SameMemory s t ∧
      (s.partStuck part = true ∨ s.cycle % 65536 < 1024 →
        (t.part part).det.sweeping = true ∧ (s.cycle + 1023, .fumaroleSweepDone part) ∈ t.events) := by
  refine ⟨_, exec_sweepStart valid, ?_⟩
  split
  · refine ⟨mem_insertDue_of_mem _ _ (mem_insertDue _ _ _), .of_tables rfl rfl rfl rfl rfl fun n => ?_, fun _ => ⟨?_, mem_insertDue _ _ _⟩⟩
    · refine (congrArg Partition.key (State.updPart_part s part n fun q => { q with det := { q.det with sweeping := true } })).trans ?_
      split
      · subst_vars; rfl
      · rfl
    · exact congrArg (fun q : Partition => q.det.sweeping) (State.updPart_part_same s part fun q => { q with det := { q.det with sweeping := true } })
  · next none_ => exact ⟨mem_insertDue _ _ _, .of_tables rfl rfl rfl rfl rfl fun _ => rfl, fun some_ => absurd some_ none_⟩

end Sys2Proof.Machine
end

section
/-! PROOFS. Fault records that go out (R232, R233), the debugger (R32, R172, R243), and the obligation of what watches a run. -/

namespace Sys2Proof.Machine

/-! Fault records. -/

section
variable {s : State} {tile : Nat} {f : FRec} {rest : List FRec}

/-- A tile with further records goes on in the next cycle. -/
def State.recordsGoOn (s : State) (tile : Nat) (rest : List FRec) : State := if rest.isEmpty then s else s.afterCycles 1 (.faultRecordPush tile)
theorem State.recordsGoOn_events (s : State) (tile : Nat) (rest : List FRec) : ∀ e ∈ s.events, e ∈ (s.recordsGoOn tile rest).events := by
  intro e he
  unfold State.recordsGoOn
  split
  · exact he
  · exact mem_insertDue_of_mem _ _ he
theorem State.recordsGoOn_same (s : State) (tile : Nat) (rest : List FRec) : (s.recordsGoOn tile rest).tiles = s.tiles ∧
    (s.recordsGoOn tile rest).eps = s.eps ∧ (s.recordsGoOn tile rest).net = s.net ∧ (s.recordsGoOn tile rest).fwQueue = s.fwQueue := by
  unfold State.recordsGoOn; split <;> exact ⟨rfl, rfl, rfl, rfl⟩
/-- The oldest record has left the tile. -/
def State.recordTaken (s : State) (tile : Nat) (rest : List FRec) : State := s.updTile tile fun x => { x with frecs := rest }
/-- The oldest record is on its way to the fault channel, which gave eight credits (R232). -/
def State.recordSent (s : State) (tile : Nat) (f : FRec) (rest : List FRec) : State :=
  (((s.recordTaken tile rest).updEp (s.part f.part).faultep fun e => { e with free := e.free - 8 }).netSend
    { wid := recordWid tile, dest := .tile (s.part f.part).faultep, body := .data { slots := f.slots }, part := f.part, net := 0 }
    (meshLatency tile ((s.part f.part).faultep / 256) 8) (.channelMessageArrive (recordWid tile))).recordsGoOn tile rest
/-- The oldest record is in firmware's queue (R232). -/
def State.recordQueued (s : State) (tile : Nat) (f : FRec) (rest : List FRec) : State :=
  ({ s.recordTaken tile rest with fwQueue := s.fwQueue ++ [f.slots] }.later .firmwareFaultForward).recordsGoOn tile rest

theorem exec_faultRecordPush (oldest : (s.tile tile).frecs = f :: rest) (free : f.after = []) : exec (.faultRecordPush tile) s = .next (
    if f.firmware = true then (if 512 ≤ s.fwQueue.length then s.afterCycles 1 (.faultRecordPush tile) else s.recordQueued tile f rest)
    else if (s.ep (s.part f.part).faultep).bound = false ∨ (s.ep (s.part f.part).faultep).free < 8 then s.afterCycles 1 (.faultRecordPush tile)
    else s.recordSent tile f rest) := by
  refine congrArg Host.Outcome.next ?_
  rw [oldest]
  dsimp only
  rw [if_neg (by simp [free])]
  rfl

theorem recordGoesOut (oldest : (s.tile tile).frecs = f :: rest) (free : f.after = []) (partition : f.firmware = false)
    (bound : (s.ep (s.part f.part).faultep).bound = true) (room : 8 ≤ (s.ep (s.part f.part).faultep).free) :
    ∃ t, exec (.faultRecordPush tile) s = .next t ∧ (t.tile tile).frecs = rest ∧
      (t.ep (s.part f.part).faultep).free = (s.ep (s.part f.part).faultep).free - 8 ∧
      t.net = s.net ++ [{ wid := recordWid tile, dest := .tile (s.part f.part).faultep, body := .data { slots := f.slots }, part := f.part, net := 0 }] := by
  have e := exec_faultRecordPush oldest free
  rw [if_neg (by simp [partition]), if_neg (by rw [bound]; simp; omega)] at e
  refine ⟨_, e, ?_⟩
  unfold State.recordSent
  have sent := OnMesh.netSend ((s.recordTaken tile rest).updEp (s.part f.part).faultep fun e => { e with free := e.free - 8 })
    { wid := recordWid tile, dest := .tile (s.part f.part).faultep, body := .data { slots := f.slots }, part := f.part, net := 0 }
    (meshLatency tile ((s.part f.part).faultep / 256) 8) (.channelMessageArrive (recordWid tile))
  generalize State.netSend _ _ _ _ = u at sent ⊢
  obtain ⟨tiles, eps, net, -⟩ := u.recordsGoOn_same tile rest
  refine ⟨?_, ?_, ?_⟩
  · have same : (u.recordsGoOn tile rest).tile tile = u.tile tile := by unfold State.tile; rw [tiles]
    rw [same, sent.tile]
    exact congrArg Tile.frecs (State.updTile_tile_same s tile fun x => { x with frecs := rest })
  · have same : (u.recordsGoOn tile rest).ep (s.part f.part).faultep = u.ep (s.part f.part).faultep := by unfold State.ep; rw [eps]
    rw [same, sent.ep]
    exact congrArg Endpoint.free (State.updEp_ep_same (s.recordTaken tile rest) (s.part f.part).faultep fun e => { e with free := e.free - 8 })
  · rw [net, sent.net]; rfl
theorem recordToFirmware (oldest : (s.tile tile).frecs = f :: rest) (free : f.after = []) (firmware : f.firmware = true) (room : s.fwQueue.length < 512) :
    ∃ t, exec (.faultRecordPush tile) s = .next t ∧ (t.tile tile).frecs = rest ∧ t.fwQueue = s.fwQueue ++ [f.slots] ∧
      ∃ e ∈ t.events, e.2 = .firmwareFaultForward := by
  have e := exec_faultRecordPush oldest free
  rw [if_pos firmware, if_neg (by omega)] at e
  refine ⟨_, e, ?_⟩
  unfold State.recordQueued
  have queue : ({ s.recordTaken tile rest with fwQueue := s.fwQueue ++ [f.slots] }.later .firmwareFaultForward).fwQueue = s.fwQueue ++ [f.slots] := rfl
  have frecs : ({ s.recordTaken tile rest with fwQueue := s.fwQueue ++ [f.slots] }.later .firmwareFaultForward).tile tile = _ :=
    State.updTile_tile_same s tile fun x => { x with frecs := rest }
  have due : ∃ e ∈ ({ s.recordTaken tile rest with fwQueue := s.fwQueue ++ [f.slots] }.later .firmwareFaultForward).events, e.2 = .firmwareFaultForward :=
    ⟨_, mem_insertDue _ _ _, rfl⟩
  generalize State.later _ _ = u at queue frecs due ⊢
  obtain ⟨tiles, -, -, fwQueue⟩ := u.recordsGoOn_same tile rest
  obtain ⟨d, hd, ed⟩ := due
  refine ⟨?_, fwQueue.trans queue, d, u.recordsGoOn_events tile rest d hd, ed⟩
  have same : (u.recordsGoOn tile rest).tile tile = u.tile tile := by unfold State.tile; rw [tiles]
  rw [same, frecs]

end

/-! Messages of the module to a host endpoint. -/

/-- A slot behind a queue: in the Caldera where the buffer is full, or another one is there already (R76). -/
def queuedSlot (bcap : Nat) (q : List QSlot) (x : QSlot) : List QSlot :=
  let incal := q.any (fun y => y.cal) || decide (bcap ≤ (q.filter fun y => !y.cal).length)
  q ++ [{ x with cal := incal }]
theorem foldl_queuedSlot (bcap : Nat) (l : List QSlot) : ∀ q : List QSlot,
    ((l.foldl (queuedSlot bcap) q).map fun x => x.val) = (q.map fun x => x.val) ++ l.map fun x => x.val := by
  induction l with
  | nil => simp
  | cons x l ih => intro q; rw [List.foldl_cons, ih]; simp [queuedSlot]
theorem Endpoint.push_vals (e : Endpoint) (wid : Nat) (slots : List Word) :
    (e.push wid { slots := slots }).queue.map (fun q => q.val) = e.queue.map (fun q => q.val) ++ slots := by
  refine (foldl_queuedSlot e.bcap (slots.map fun w => { val := w, marker := false, wid := wid, msg := e.nextMsg, tagged := false }) e.queue).trans ?_
  rw [List.map_map]
  exact congrArg _ (List.map_id slots)

theorem State.toHost_told (s : State) (n : Nat) (slots : List Word) (small : n < 1048576) :
    Told s (s.toHost n slots) n slots ∧ (s.toHost n slots).fwQueue = s.fwQueue := by
  have told : ∀ u : State, (u.ep (hostRid n)).bound = true → (u.ep (hostRid n)).queue = (s.ep (hostRid n)).queue →
      Told s (u.arrive (hostRid n) loaderWid { slots := slots }) n slots ∧ (u.arrive (hostRid n) loaderWid { slots := slots }).fwQueue = u.fwQueue :=
        fun u bound queue => by
    have e : u.arrive (hostRid n) loaderWid { slots := slots } = (u.updEp (hostRid n) fun e =>
        { e.push loaderWid { slots := slots } with mon := e.mon || u.isMonitor loaderWid, wrote := some u.cycle }).later (.d2hDeliver n) := by
      have num : hostRid n - 1048576 = n := by unfold hostRid; omega
      unfold State.arrive
      rw [if_neg (by rw [bound]; simp)]
      dsimp only
      rw [if_neg (by unfold hostRid; omega), if_pos (by unfold hostRid; omega), num]
    rw [e]
    refine ⟨⟨?_, _, mem_insertDue _ _ _, rfl⟩, rfl⟩
    have ep := State.updEp_ep_same u (hostRid n) fun e => { e.push loaderWid { slots := slots } with mon := e.mon || u.isMonitor loaderWid, wrote := some u.cycle }
    refine (congrArg (fun e : Endpoint => e.queue.map fun q => q.val) ep).trans ?_
    rw [← queue]
    exact Endpoint.push_vals _ _ _
  unfold State.toHost
  dsimp only
  split
  · next bound => exact told s bound rfl
  · have ep := State.updEp_ep_same s (hostRid n) fun e => { e with bound := true }
    exact told _ (by rw [ep]) (by rw [ep])

/-! The debugger. -/

/-- A process that the debugger halts (R32). -/
def Proc.halts (p : Proc) (cycle : Nat) : Proc :=
  { ({ p with bulk := none, hold := [], dstep := none, dcont := if p.dstep.isSome then some p.pc else p.dcont } : Proc).enter .haltedDebug cycle with epc := p.pc }
/-- A halt at an instruction boundary (R172, R243). -/
theorem State.debugHalt_ready {s : State} {h : Nat} (mat : (s.proc h).mat = none) (own : ∀ k, (s.proc h).strip = some k → k.own = false)
    (ready : (s.proc h).pst = .ready) : (s.debugHalt h).proc h = (s.proc h).halts s.cycle ∧ SameMemory s (s.debugHalt h) := by
  have up : s.giveUp h = s.dropHeld h := by
    have owns : ((s.proc h).strip.any fun k => k.own) = false := by
      cases e : (s.proc h).strip with
      | none => rfl
      | some k => exact own k e
    unfold State.giveUp State.stopMatrix
    rw [mat]
    dsimp only
    rw [owns, if_neg (by simp)]
  unfold State.debugHalt
  rw [if_pos (.inl ready), up]
  refine ⟨(State.updProc_proc_same _ _ _).trans ?_, .of_tables rfl rfl rfl rfl rfl fun _ => rfl⟩
  have dropped : (s.dropHeld h).proc h = _ := State.updProc_proc_same _ h fun p =>
    { p with bulk := none, hold := [], dstep := none, dcont := if p.dstep.isSome then some p.pc else p.dcont }
  rw [dropped]
  rfl
theorem State.debugHalt_waiting {s : State} {h : Nat} (r1 : (s.proc h).pst ≠ .ready) (r2 : (s.proc h).pst ≠ .running) : s.debugHalt h = s := by
  unfold State.debugHalt
  exact if_neg fun c => c.elim r1 r2
theorem exec_debuggerHalt (s : State) (h : Nat) : exec (.debuggerHalt h) s =
    .next (if ((s.proc h).inCommit || s.faultDue h) = true then s.updProc h fun p => { p with haltAsked := true } else s.debugHalt h) := rfl

/-- Settles O50: the detector's decisions, the records' ways and the debugger's halts, each by its lemma. -/
theorem watchEvents : Obligations.WatchEvents := by
  refine ⟨fun s part valid => sweepStarts valid, fun s part sweeping prev unreported => ⟨fun quiet => sweepIdle sweeping prev quiet,
      fun stuck before id one grows room => ?_, fun stuck before l id x r list ep lower behind => ⟨fun grows room => ?_, fun no => ?_⟩,
      fun stuck before none_ => sweepReports_none ⟨sweeping, prev, unreported, stuck, before⟩ none_⟩,
    fun s tile f rest oldest free => ⟨fun partition => ⟨fun bound room => recordGoesOut oldest free partition bound room, fun no => ?_⟩,
      fun firmware room => recordToFirmware oldest free firmware room, fun firmware no => ?_⟩,
    fun s r rest queue => ?_, fun s h mat own commit due ready => ?_, fun s h => ⟨fun r1 r2 commit due => ?_, fun waits => ?_, fun halted => ?_, fun runs => ?_⟩⟩
  · obtain ⟨t, step, cap, -, used, ended, -⟩ := sweepGrows (l := []) (r := []) ⟨sweeping, prev, unreported, stuck, before⟩ one rfl (by simp) (by simp) grows room
    exact ⟨t, step, cap, used, ended⟩
  · obtain ⟨t, step, cap, others, used, -, reported⟩ := sweepGrows ⟨sweeping, prev, unreported, stuck, before⟩ list ep lower behind grows room
    exact ⟨t, step, cap, others, used, reported⟩
  · exact sweepReports_full ⟨sweeping, prev, unreported, stuck, before⟩ list lower behind no
  · rw [exec_faultRecordPush oldest free, if_neg (by simp [partition]), if_pos no]
  · rw [exec_faultRecordPush oldest free, if_pos firmware, if_pos no]
  · obtain ⟨told, kept⟩ := ({ s with fwQueue := rest } : State).toHost_told 128 r (by omega)
    refine ⟨({ s with fwQueue := rest } : State).toHost 128 r, congrArg Host.Outcome.next ?_, kept, told.queue, told.due⟩
    rw [queue]
  · obtain ⟨proc, memory⟩ := State.debugHalt_ready mat own ready
    refine ⟨_, by rw [exec_debuggerHalt, commit, due, if_neg (by simp)], ?_, ?_, ?_, ?_, fun r => ?_, memory⟩ <;> rw [proc] <;> rfl
  · rw [exec_debuggerHalt, commit, due, if_neg (by simp), State.debugHalt_waiting r1 r2]
  · have proc := State.updProc_proc_same s h fun p => { p with haltAsked := true }
    refine ⟨s.updProc h fun p => { p with haltAsked := true }, by rw [exec_debuggerHalt, if_pos (by simpa using waits)], by rw [proc], by rw [proc], by rw [proc], .of_tables rfl rfl rfl rfl rfl fun _ => rfl⟩
  · have proc : ((s.goto h .ready).updProc h fun p => { p with dhold := false }).proc h = { (s.proc h).enter .ready s.cycle with dhold := false } := by
      have ready : (s.goto h .ready).proc h = (s.proc h).enter .ready s.cycle := State.updProc_proc_same _ _ _
      rw [State.updProc_proc_same, ready]
    refine ⟨_, congrArg Host.Outcome.next (if_pos halted), ?_, ?_, ?_, fun r => ?_, .of_tables rfl rfl rfl rfl rfl fun _ => rfl⟩ <;> rw [proc] <;> rfl
  · exact congrArg Host.Outcome.next (if_neg runs)

end Sys2Proof.Machine
end

section
/-! PROOFS. Credits on their way to writers leave requests, streams, staged messages, tiles and unbound registers alone, and put no message of
data on the mesh (R56, R200, R209). -/

namespace Sys2Proof.Machine

/-- A process with no channel register bound. -/
def Proc.bare (p : Proc) : Prop := ∀ e ∈ p.chans, e.2.role = .unbound

theorem Tab.all_store {α : Type} [DecidableEq α] (P : α → Prop) (t : Tab α) (k : Nat) (v d : α) (all : ∀ e ∈ t, P e.2) (hv : P v) :
    ∀ e ∈ Tab.store t k v d, P e.2 := by
  classical
  have all' : t.all (fun e => decide (P e.2)) = true := List.all_eq_true.2 fun e he => decide_eq_true (all e he)
  have stored : (Tab.store t k v d).all (fun e => decide (P e.2)) = true := by
    unfold Tab.store
    split
    · exact Tab.all_cut _ t k all'
    · exact Tab.all_put _ t k v (decide_eq_true hv) all'
  exact fun e he => of_decide_eq_true (List.all_eq_true.1 stored e he)
theorem Tab.lookD_mem {α : Type} (P : α → Prop) (t : Tab α) (k : Nat) (d : α) (all : ∀ e ∈ t, P e.2) (hd : P d) : P (Tab.lookD t k d) := by
  unfold Tab.lookD
  cases h : Tab.look t k with
  | none => exact hd
  | some v => exact all _ (Tab.mem_of_look h)
/-- Counting on a register binds none. -/
theorem Proc.bare_setChan {p : Proc} (bare : p.bare) (c : Nat) (f : ChanReg → ChanReg) (role : ∀ x, (f x).role = x.role) :
    (p.setChan c (f (p.chan c))).bare :=
  Tab.all_store (fun x : ChanReg => x.role = .unbound) p.chans c _ {} bare
    ((role _).trans (Tab.lookD_mem (fun x : ChanReg => x.role = .unbound) p.chans c {} bare rfl))

/-- A state without its links. -/
def State.offLinks (s : State) : State := { s with procs := [], links := [], lanes := [], out := [], events := [], freeCtr := 0 }
/-- From `s` to `t` only links have changed, and of processes their notes and scheduling. -/
structure LinkOnly (s t : State) : Prop where
  rest : t.offLinks = s.offLinks
  bare : ∀ h, (s.proc h).bare → (t.proc h).bare

namespace LinkOnly

theorem refl (s : State) : LinkOnly s s := ⟨rfl, fun _ b => b⟩
theorem trans {s t u : State} (a : LinkOnly s t) (b : LinkOnly t u) : LinkOnly s u := ⟨b.rest.trans a.rest, fun h hb => b.bare h (a.bare h hb)⟩
theorem of_same {s t : State} (rest : t.offLinks = s.offLinks) (procs : t.procs = s.procs) : LinkOnly s t :=
  ⟨rest, fun h b => by unfold State.proc; rw [procs]; exact b⟩
theorem foldl {β : Type} (l : List β) (f : State → β → State) (h : ∀ s x, LinkOnly s (f s x)) : ∀ s, LinkOnly s (l.foldl f s) := by
  induction l with
  | nil => exact refl
  | cons x l ih => exact fun s => (h s x).trans (ih _)
theorem foldlPair {β γ : Type} (l : List β) (f : State × γ → β → State × γ) (h : ∀ s x, LinkOnly s.1 (f s x).1) :
    ∀ s, LinkOnly s.1 (l.foldl f s).1 := by
  induction l with
  | nil => exact fun s => refl s.1
  | cons x l ih => exact fun s => (h s x).trans (ih _)
theorem ifThen {s t : State} (c : Prop) (d : Decidable c) (q : LinkOnly s t) : LinkOnly s (@ite State c d t s) := by
  split
  · exact q
  · exact .refl s
theorem ifElse {s t : State} (c : Prop) (d : Decidable c) (q : LinkOnly s t) : LinkOnly s (@ite State c d s t) := by
  split
  · exact .refl s
  · exact q

theorem updLink (s : State) (n q : Nat) (f : Link → Link) : LinkOnly s (s.updLink n q f) := .of_same rfl rfl
theorem emit (s : State) (o : OutMsg) : LinkOnly s (s.emit o) := .of_same rfl rfl
theorem cancel (s : State) (i : Instr) : LinkOnly s (s.cancel i) := .of_same rfl rfl
theorem afterCycles (s : State) (n : Nat) (i : Instr) : LinkOnly s (s.afterCycles n i) := .of_same rfl rfl
theorem updProc (s : State) (h : Nat) (f : Proc → Proc) (bare : (s.proc h).bare → (f (s.proc h)).bare) : LinkOnly s (s.updProc h f) where
  rest := rfl
  bare k b := by
    rw [State.updProc_proc]
    split
    · subst_vars; exact bare b
    · exact b
theorem updChan (s : State) (h c : Nat) (f : ChanReg → ChanReg) (role : ∀ x, (f x).role = x.role) : LinkOnly s (s.updChan h c f) :=
  updProc s h (fun p => p.setChan c (f (p.chan c))) fun b => Proc.bare_setChan b c f role
theorem wake (s : State) (h : Nat) (st : PState) : LinkOnly s (s.wake h st) := ifThen _ _ (updProc s h _ fun b => b)
theorem noteRelayed (s : State) (wid n : Nat) : LinkOnly s (s.noteRelayed wid n) := updChan _ _ _ _ fun _ => rfl
theorem quarLink (s : State) (part peer : Nat) : LinkOnly s (s.quarLink part peer) := by
  unfold State.quarLink
  exact (updLink s part peer fun k => { k with quar := true, training := none }).trans
    (foldl _ (fun s (e : Nat × Lane) => s.updLane e.1 fun x => { x with st := .quar }) (fun _ _ => .of_same rfl rfl) _)
theorem closeGroup (s : State) (part peer : Nat) : LinkOnly s (s.closeGroup part peer) := by
  unfold State.closeGroup
  dsimp only
  split
  · exact .refl s
  · refine trans ?_ (ifThen _ _ (quarLink _ _ _))
    exact ((ifElse _ _ (emit _ _)).trans (updLink _ _ _ _)).trans (cancel _ _)
theorem transmit (part peer : Nat) : ∀ (n : Nat) (s : State), LinkOnly s (s.transmit part peer n)
  | 0, s => .refl s
  | n + 1, s => by
    unfold State.transmit
    dsimp only
    split
    · exact .refl s
    · split
      · exact .refl s
      · refine trans ?_ (transmit part peer n _)
        split
        · exact ((emit _ _).trans (updLink _ _ _ _)).trans (closeGroup _ _ _)
        · exact (((emit _ _).trans (updLink _ _ _ _)).trans (cancel _ _)).trans (afterCycles _ _ _)
theorem cutFlits (s : State) (part peer via : Nat) (rw : Word) (w : Nat × List Word × Nat) : LinkOnly s (s.cutFlits part peer via rw w) :=
  (updLink _ _ _ _).trans (transmit _ _ _ _)
theorem askArrived (s : State) (part wid : Nat) : LinkOnly s (s.askArrived part wid) := by
  unfold State.askArrived
  dsimp only
  split
  · split
    · exact .refl s
    · refine trans (updChan s (wid / 16) (wid % 16) (fun y => { y with probe := some ((s.proc (wid / 16)).chan (wid % 16)).sent }) fun _ => rfl) ?_
      split
      · exact updLink _ _ _ _
      · exact cutFlits _ _ _ _ _ _
  · exact .refl s
theorem pumpOne {s t : State} {part peer : Nat} {w : Nat × List Word × Nat} (h : s.pumpOne part peer w = some t) : LinkOnly s t := by
  unfold State.pumpOne at h
  dsimp only at h
  split at h
  case isTrue => cases h
  case isFalse =>
    split at h
    · split at h
      case isFalse => cases h
      case isTrue =>
        cases h
        split
        · exact afterCycles _ _ _
        · exact ifThen _ _ ((noteRelayed _ _ _).trans (afterCycles _ _ _))
    · split at h
      case isTrue => cases h
      case isFalse =>
        cases h
        refine trans ?_ (cutFlits _ _ _ _ _ _)
        refine trans ?_ (ifThen _ _ (wake _ _ _))
        refine ifElse _ _ ?_
        split
        · exact updChan _ _ _ _ fun _ => rfl
        · exact noteRelayed _ _ _
theorem pumpStep (part peer : Nat) (a : State × List Nat) (w : Nat × List Word × Nat) : LinkOnly a.1 (State.pumpStep part peer a w).1 := by
  have keep : LinkOnly a.1 (a.1.updLink part peer fun k => { k with waiting := k.waiting ++ [w] }) := updLink _ _ _ _
  unfold State.pumpStep
  dsimp only
  split
  · exact keep
  · split
    · next goes => exact pumpOne goes
    · exact keep.trans (askArrived _ _ _)
theorem linkSend (s : State) (part peer vnet tile index : Nat) (slots : List Word) (wid : Nat) :
    LinkOnly s (s.linkSend part peer vnet tile index slots wid) :=
  (updLink _ _ _ _).trans ((updLink _ part peer fun k => { k with waiting := [] }).trans (foldlPair (γ := List Nat) _ _ (pumpStep part peer) (_, [])))
theorem net {s t : State} (q : LinkOnly s t) : t.net = s.net := by have e := congrArg State.net q.rest; exact e

end LinkOnly

/-- What goes over the mesh is no data. -/
def NetMsg.isData (m : NetMsg) : Prop := ∃ x, m.body = .data x
/-- A state without what credits change on their way. -/
def State.offCredits (s : State) : State := { s.offLinks with net := [], eps := [], arbs := [] }
/-- From `s` to `t` credits have fallen free and gone on their way: tiles, requests, streams and what is staged are as before, and no data has
come onto the mesh. -/
structure CreditFlow (s t : State) : Prop where
  rest : t.offCredits = s.offCredits
  procs : ∀ h, (t.proc h).core = (s.proc h).core
  bare : ∀ h, (s.proc h).bare → (t.proc h).bare
  data : ∀ m ∈ t.net, m.isData → m ∈ s.net

namespace CreditFlow

theorem refl (s : State) : CreditFlow s s := ⟨rfl, fun _ => rfl, fun _ b => b, fun _ hm _ => hm⟩
theorem trans {s t u : State} (a : CreditFlow s t) (b : CreditFlow t u) : CreditFlow s u :=
  ⟨b.rest.trans a.rest, fun h => (b.procs h).trans (a.procs h), fun h hb => b.bare h (a.bare h hb), fun m hm hd => a.data m (b.data m hm hd) hd⟩
theorem foldl {β : Type} (l : List β) (f : State → β → State) (h : ∀ s x, CreditFlow s (f s x)) : ∀ s, CreditFlow s (l.foldl f s) := by
  induction l with
  | nil => exact refl
  | cons x l ih => exact fun s => (h s x).trans (ih _)
theorem ifThen {s t : State} (c : Prop) (d : Decidable c) (q : CreditFlow s t) : CreditFlow s (@ite State c d t s) := by
  split
  · exact q
  · exact .refl s
theorem updEp (s : State) (e : Nat) (f : Endpoint → Endpoint) : CreditFlow s (s.updEp e f) := ⟨rfl, fun _ => rfl, fun _ b => b, fun _ hm _ => hm⟩
theorem wake (s : State) (h : Nat) (st : PState) : CreditFlow s (s.wake h st) := by
  have link := LinkOnly.wake s h st
  exact ⟨congrArg (fun u : State => { u with net := [], eps := [], arbs := [] }) link.rest, (Traffic.wake s h st).procs, link.bare,
    fun m hm _ => by rwa [link.net] at hm⟩
theorem ctrlSend (s : State) (part peer kind w ep n more : Nat) : CreditFlow s (s.ctrlSend part peer kind w ep n more) := by
  have link : LinkOnly s (s.ctrlSend part peer kind w ep n more) := by
    unfold State.ctrlSend State.ctrlSendMore
    dsimp only
    split <;> exact LinkOnly.linkSend _ _ _ _ _ _ _ _
  exact ⟨congrArg (fun u : State => { u with net := [], eps := [], arbs := [] }) link.rest, (Traffic.ctrlSend s part peer kind w ep n more).procs,
    link.bare, fun m hm _ => by rwa [link.net] at hm⟩
/-- A credit or a recall on the mesh. -/
theorem of_mesh {s t : State} {m : NetMsg} (q : OnMesh s t m) (plain : ¬ m.isData) : CreditFlow s t where
  rest := by have e := congrArg State.offCredits q.rest; exact e
  procs h := by rw [q.proc]
  bare h b := by rw [q.proc]; exact b
  data x hx hd := by
    rw [q.net] at hx
    rcases List.mem_append.1 hx with hx | hx
    · exact hx
    · rw [List.mem_singleton.1 hx] at hd; exact absurd hd plain
theorem grantCredit (s : State) (rid wid n : Nat) : CreditFlow s (s.grantCredit rid wid n) := by
  unfold State.grantCredit
  split
  · exact ctrlSend _ _ _ _ _ _ _ _
  · exact of_mesh (OnMesh.netSend _ _ _ _) fun ⟨_, e⟩ => by cases e
theorem sendCredit (s : State) (rid wid n : Nat) : CreditFlow s (s.sendCredit rid wid n) := by
  unfold State.sendCredit
  split
  · exact refl s
  · exact grantCredit _ _ _ _
theorem serve (rid : Nat) : ∀ (fuel : Nat) (s : State), CreditFlow s (s.serve rid fuel)
  | 0, s => refl s
  | fuel + 1, s => by
    unfold State.serve
    dsimp only
    split
    · exact refl s
    · split
      · exact ((updEp s rid _).trans (sendCredit _ _ _ _)).trans (serve rid fuel _)
      · refine (updEp s rid _).trans (foldl _ _ (fun s x => ?_) _)
        split
        · exact ctrlSend _ _ _ _ _ _ _ _
        · exact of_mesh (OnMesh.netSend _ _ _ _) fun ⟨_, e⟩ => by cases e
theorem addFree (s : State) (rid n : Nat) : CreditFlow s (s.addFree rid n) := by
  unfold State.addFree
  dsimp only
  refine ((updEp s rid _).trans (serve rid _ _)).trans (foldl _ _ (fun s e => ?_) _)
  split
  · split
    · exact ifThen _ _ (wake _ _ _)
    · exact refl s
  · exact refl s

variable {s t : State}
theorem tiles (q : CreditFlow s t) : t.tiles = s.tiles := by have e := congrArg State.tiles q.rest; exact e
theorem tile (q : CreditFlow s t) (n : Nat) : t.tile n = s.tile n := by unfold State.tile; rw [q.tiles]
theorem parts (q : CreditFlow s t) : t.parts = s.parts := by have e := congrArg State.parts q.rest; exact e
theorem kills (q : CreditFlow s t) : t.kills = s.kills := by have e := congrArg State.kills q.rest; exact e
theorem staged (q : CreditFlow s t) : t.staged = s.staged := by have e := congrArg State.staged q.rest; exact e
theorem reqs (q : CreditFlow s t) : t.reqs = s.reqs := by have e := congrArg State.reqs q.rest; exact e
theorem binds (q : CreditFlow s t) : t.binds = s.binds := by have e := congrArg State.binds q.rest; exact e
theorem cycle (q : CreditFlow s t) : t.cycle = s.cycle := by have e := congrArg State.cycle q.rest; exact e
theorem memory (q : CreditFlow s t) : SameMemory s t := by
  have sram := congrArg State.sram q.rest
  have hbm := congrArg State.hbm q.rest
  have epochs := congrArg State.hbmEpoch q.rest
  have sramTags := congrArg State.sramTags q.rest
  have hbmTags := congrArg State.hbmTags q.rest
  exact .of_tables sram hbm epochs sramTags hbmTags fun n => by simp only [State.part, q.parts]

end CreditFlow

end Sys2Proof.Machine
end

section
/-! PROOFS. The end of a process: its units, its context slot, its channels and its lanes (R37, R247). -/

namespace Sys2Proof.Machine

/-- A state without its tiles, without what is due, and without its count of free values. -/
def State.offUnits (s : State) : State := { s.offTiles with freeCtr := 0 }
/-- From `s` to `t` units of tiles have lost their contents and their owners. -/
structure UnitsOnly (s t : State) : Prop where
  rest : t.offUnits = s.offUnits
  slots : ∀ n, (t.tile n).slots = (s.tile n).slots
  owners : ∀ n, ∀ e ∈ (t.tile n).owners, e ∈ (s.tile n).owners

namespace UnitsOnly
theorem refl (s : State) : UnitsOnly s s := ⟨rfl, fun _ => rfl, fun _ _ he => he⟩
theorem trans {s t u : State} (a : UnitsOnly s t) (b : UnitsOnly t u) : UnitsOnly s u :=
  ⟨b.rest.trans a.rest, fun n => (b.slots n).trans (a.slots n), fun n e he => a.owners n e (b.owners n e he)⟩
theorem updTile (s : State) (t : Nat) (f : Tile → Tile) (slots : (f (s.tile t)).slots = (s.tile t).slots)
    (owners : ∀ e ∈ (f (s.tile t)).owners, e ∈ (s.tile t).owners) : UnitsOnly s (s.updTile t f) := by
  refine ⟨rfl, fun n => ?_, fun n => ?_⟩ <;> rw [State.updTile_tile] <;> split
  · subst_vars; exact slots
  · rfl
  · subst_vars; exact owners
  · exact fun _ he => he
theorem ifThen {s u t : State} (c : Prop) (d : Decidable c) (q : UnitsOnly s t) (r : UnitsOnly t u) : UnitsOnly s (@ite State c d u t) := by
  split
  · exact q.trans r
  · exact q
theorem drawn (s : State) (n : Nat) : UnitsOnly s { s with freeCtr := n } := ⟨rfl, fun _ => rfl, fun _ _ he => he⟩
theorem fadeUnits (s : State) (t : Nat) (us : List Nat) : UnitsOnly s (s.fadeUnits t us) := by
  unfold State.fadeUnits
  dsimp only
  exact ifThen _ _ (ifThen _ _ ((drawn s _).trans (updTile _ t _ rfl fun _ he => he)) (updTile _ t _ rfl fun _ he => he))
    (updTile _ t _ rfl fun _ he => he)
theorem releaseUnits (s : State) (h : Nat) : UnitsOnly s (s.releaseUnits h) := by
  unfold State.releaseUnits
  dsimp only
  split
  · exact refl s
  · exact (fadeUnits _ _ _).trans (updTile _ _ _ rfl fun _ he => (List.mem_filter.1 he).1)
end UnitsOnly

/-- A process gives up every unit (R37). -/
theorem State.releaseUnits_owners (s : State) (h : Nat) : ∀ e ∈ ((s.releaseUnits h).tile (s.proc h).tile).owners, e.2 ≠ h := by
  unfold State.releaseUnits
  dsimp only
  split
  · next none_ =>
    intro e he own
    have mem : e ∈ (s.tile (s.proc h).tile).owners.filter fun e => decide (e.2 = h) := List.mem_filter.2 ⟨he, decide_eq_true own⟩
    simp only [List.isEmpty_iff, List.map_eq_nil_iff] at none_
    rw [none_] at mem
    cases mem
  · intro e he
    rw [State.updTile_tile_same] at he
    exact of_decide_eq_true (List.mem_filter.1 he).2

/-- A process that ends has lost its units, its context slot and its monitors, and its request for lanes (R37). -/
def State.unseated (s : State) (h : Nat) : State :=
  (((s.withdraw h).cancel (.laneGrantEffect (s.proc h).tile h)).releaseUnits h).updTile (s.proc h).tile fun x =>
    { x with slots := x.slots.filter fun e => decide (e.2 ≠ h), mons := x.mons.filter fun m => decide (m.h ≠ h) }
/-- What is left of a process that has ended (R37). -/
def Proc.ended (p : Proc) (cycle : Nat) : Proc :=
  { p.enter .exited cycle with
    caps := [], strip := none, hold := [], shut := false, mat := none, dstep := none, dcont := none, image := none }
def Proc.laneless (p : Proc) : Proc := { p with pgrant := none, slivers := [], cluster := false, lastGrant := [] }
/-- A process without channels has ended, and its lanes are gone. -/
def State.dead (s : State) (h t : Nat) : State := ((s.updProc h fun p => p.ended s.cycle).updProc h Proc.laneless).settleLanes t

theorem State.finishProcess_eq (s : State) (h : Nat) :
    s.finishProcess h = ((s.unseated h).unbindAll h).dead h (s.proc h).tile := rfl

theorem State.dead_proc (s : State) (h t g : Nat) :
    (s.dead h t).proc g = if h = g then ((s.proc h).ended s.cycle).laneless else s.proc g := by
  have q := LaneQueues.settleLanes ((s.updProc h fun p => p.ended s.cycle).updProc h Proc.laneless) t
  refine (q.proc g).trans ?_
  rw [State.updProc_proc, State.updProc_proc_same, State.updProc_proc]
  split <;> rfl
theorem State.dead_memory (s : State) (h t : Nat) : SameMemory s (s.dead h t) :=
  have changed : SameMemory s ((s.updProc h fun p => p.ended s.cycle).updProc h Proc.laneless) := .of_tables rfl rfl rfl rfl rfl fun _ => rfl
  changed.trans (LaneQueues.settleLanes ((s.updProc h fun p => p.ended s.cycle).updProc h Proc.laneless) t).memory
theorem State.dead_slots (s : State) (h t n : Nat) : ((s.dead h t).tile n).slots = (s.tile n).slots ∧ ((s.dead h t).tile n).owners = (s.tile n).owners :=
  ⟨(LaneQueues.settleLanes ((s.updProc h fun p => p.ended s.cycle).updProc h Proc.laneless) t).slots n,
    (LaneQueues.settleLanes ((s.updProc h fun p => p.ended s.cycle).updProc h Proc.laneless) t).owners n⟩
theorem State.dead_rest (s : State) (h t : Nat) : (s.dead h t).kills = s.kills ∧ (s.dead h t).eps = s.eps ∧ (s.dead h t).parts = s.parts := by
  have q := (LaneQueues.settleLanes ((s.updProc h fun p => p.ended s.cycle).updProc h Proc.laneless) t).rest
  have kills := congrArg State.kills q
  have eps := congrArg State.eps q
  have parts := congrArg State.parts q
  exact ⟨kills, eps, parts⟩

/-- Of a process that ends nothing but its place has changed, before its channels are unbound. -/
structure Unseated (s t : State) (h : Nat) : Prop where
  rest : t.offUnits = s.offUnits
  slots : ∀ e ∈ (t.tile (s.proc h).tile).slots, e.2 ≠ h
  owners : ∀ e ∈ (t.tile (s.proc h).tile).owners, e.2 ≠ h
theorem State.unseated_spec (s : State) (h : Nat) : Unseated s (s.unseated h) h := by
  have units := UnitsOnly.releaseUnits ((s.withdraw h).cancel (.laneGrantEffect (s.proc h).tile h)) h
  have own := ((s.withdraw h).cancel (.laneGrantEffect (s.proc h).tile h)).releaseUnits_owners h
  have queued : ((s.withdraw h).cancel (.laneGrantEffect (s.proc h).tile h)).offUnits = s.offUnits := rfl
  have proc : ((s.withdraw h).cancel (.laneGrantEffect (s.proc h).tile h)).proc h = s.proc h := rfl
  rw [proc] at own
  unfold State.unseated
  generalize ((s.withdraw h).cancel (.laneGrantEffect (s.proc h).tile h)).releaseUnits h = u at units own ⊢
  refine ⟨units.rest.trans queued, fun e he => ?_, fun e he => own e ?_⟩
  · rw [State.updTile_tile_same] at he
    exact of_decide_eq_true (List.mem_filter.1 he).2
  · rw [State.updTile_tile_same] at he
    exact he

namespace Unseated
variable {s t : State} {h : Nat} (u : Unseated s t h)
include u
theorem procs : t.procs = s.procs := by have e := congrArg State.procs u.rest; exact e
theorem proc (g : Nat) : t.proc g = s.proc g := by unfold State.proc; rw [u.procs]
theorem eps : t.eps = s.eps := by have e := congrArg State.eps u.rest; exact e
theorem ep (e : Nat) : t.ep e = s.ep e := by unfold State.ep; rw [u.eps]
theorem parts : t.parts = s.parts := by have e := congrArg State.parts u.rest; exact e
theorem kills : t.kills = s.kills := by have e := congrArg State.kills u.rest; exact e
theorem cycle : t.cycle = s.cycle := by have e := congrArg State.cycle u.rest; exact e
theorem memory : SameMemory s t := by
  have sram := congrArg State.sram u.rest
  have hbm := congrArg State.hbm u.rest
  have epochs := congrArg State.hbmEpoch u.rest
  have sramTags := congrArg State.sramTags u.rest
  have hbmTags := congrArg State.hbmTags u.rest
  exact .of_tables sram hbm epochs sramTags hbmTags fun n => by simp only [State.part, u.parts]
end Unseated

/-- With no register bound there is nothing to unbind (R37). -/
theorem State.unbindAll_bare (s : State) (h : Nat) (bare : (s.proc h).bare) : s.unbindAll h = s.updProc h fun p => { p with chans := [] } := by
  have none_ : ∀ l : List (Nat × ChanReg), (∀ e ∈ l, e.2.role = .unbound) → l.foldl (fun s e =>
      match e.2.role, e.2.dest with
      | .reader, .tile ep => s.killEntry ep
      | .writer, _ => s.leaveReader h e.1
      | _, _ => s) s = s := by
    intro l
    induction l with
    | nil => exact fun _ => rfl
    | cons e l ih =>
      intro all
      rw [List.foldl_cons, all e List.mem_cons_self]
      exact ih fun x hx => all x (List.mem_cons_of_mem _ hx)
  unfold State.unbindAll
  dsimp only
  exact congrArg (fun u : State => u.updProc h fun p => { p with chans := [] }) (none_ _ bare)

/-- The end of a process with no register bound (R37). -/
structure Finished (s t : State) (h : Nat) : Prop where
  proc : t.proc h = (({ s.proc h with chans := [] } : Proc).ended s.cycle).laneless
  others : ∀ g, g ≠ h → t.proc g = s.proc g
  slots : ∀ e ∈ (t.tile (s.proc h).tile).slots, e.2 ≠ h
  owners : ∀ e ∈ (t.tile (s.proc h).tile).owners, e.2 ≠ h
  kills : t.kills = s.kills
  parts : t.parts = s.parts
  memory : SameMemory s t

theorem State.finishProcess_bare (s : State) (h : Nat) (bare : (s.proc h).bare) : Finished s (s.finishProcess h) h := by
  have u := s.unseated_spec h
  have unbound := (s.unseated h).unbindAll_bare h (by rw [u.proc]; exact bare)
  rw [State.finishProcess_eq, unbound]
  generalize s.unseated h = v at u ⊢
  have proc : ∀ g, (v.updProc h fun p => { p with chans := [] }).proc g = if h = g then { s.proc h with chans := [] } else s.proc g := fun g => by
    rw [State.updProc_proc, u.proc, u.proc]
  have cycle : (v.updProc h fun p => { p with chans := [] }).cycle = s.cycle := u.cycle
  have kills : (v.updProc h fun p => { p with chans := [] }).kills = s.kills := u.kills
  have parts : (v.updProc h fun p => { p with chans := [] }).parts = s.parts := u.parts
  have slots : ∀ e ∈ ((v.updProc h fun p => { p with chans := [] }).tile (s.proc h).tile).slots, e.2 ≠ h := u.slots
  have owners : ∀ e ∈ ((v.updProc h fun p => { p with chans := [] }).tile (s.proc h).tile).owners, e.2 ≠ h := u.owners
  have memory : SameMemory s (v.updProc h fun p => { p with chans := [] }) := u.memory.trans (.of_tables rfl rfl rfl rfl rfl fun _ => rfl)
  generalize v.updProc h (fun p => { p with chans := [] }) = w at proc cycle kills parts slots owners memory ⊢
  obtain ⟨dk, -, dp⟩ := w.dead_rest h (s.proc h).tile
  obtain ⟨ds, dow⟩ := w.dead_slots h (s.proc h).tile (s.proc h).tile
  refine ⟨?_, fun g hg => ?_, ?_, ?_, dk.trans kills, dp.trans parts, memory.trans (w.dead_memory h _)⟩
  · rw [State.dead_proc, if_pos rfl, proc, if_pos rfl, cycle]
  · rw [State.dead_proc, if_neg (Ne.symm hg), proc, if_neg (Ne.symm hg)]
  · rw [ds]; exact slots
  · rw [dow]; exact owners

/-- Values of a table that change keep their keys. -/
theorem Tab.look_mapV {α : Type} (f : Nat → α → α) (k : Nat) : ∀ t : Tab α, Tab.look (Tab.mapV f t) k = (Tab.look t k).map (f k)
  | [] => rfl
  | (j, v) :: t => by
    have ih := Tab.look_mapV f k t
    unfold Tab.mapV at ih ⊢
    rw [List.map_cons, Tab.look, Tab.look]
    split
    · subst_vars; rfl
    · exact ih

/-- The note of an end leaves of the processes everything but a hold on the one that ordered it (R234, R266). -/
theorem State.noteExit_proc (s : State) (h g : Nat) : ∃ e, (s.noteExit h).proc g = { s.proc g with ending := e } := by
  have mapped : ∀ u : State, ∃ e, ({ u with procs := Tab.mapV (fun _ p => if p.ending = some h then { p with ending := none } else p) u.procs } : State).proc g =
      { u.proc g with ending := e } := fun u => by
    unfold State.proc Tab.lookD
    rw [Tab.look_mapV]
    cases Tab.look u.procs g with
    | none => exact ⟨_, rfl⟩
    | some p =>
      dsimp only [Option.map_some, Option.getD_some]
      split
      · exact ⟨none, rfl⟩
      · exact ⟨p.ending, rfl⟩
  unfold State.noteExit
  dsimp only
  split
  · exact mapped _
  · exact mapped _
theorem State.noteExit_rest (s : State) (h : Nat) : (s.noteExit h).kills = s.kills ∧ (s.noteExit h).tiles = s.tiles ∧ (s.noteExit h).eps = s.eps := by
  unfold State.noteExit
  dsimp only
  split <;> exact ⟨rfl, rfl, rfl⟩
theorem State.noteExit_memory (s : State) (h : Nat) : SameMemory s (s.noteExit h) := by
  have key : ∀ n, ((s.updPart (s.proc h).part fun q => { q with nets := q.nets.map fun n =>
      if n.num = (s.proc h).net then { n with ended := n.ended + 1 } else n }).part n).key = (s.part n).key := fun n => by
    rw [State.updPart_part]
    split
    · subst_vars; rfl
    · rfl
  unfold State.noteExit
  dsimp only
  split <;> exact .of_tables rfl rfl rfl rfl rfl key

end Sys2Proof.Machine
end

section
/-! PROOFS. KILL: a register that stays pending, the flood of a rectangle, and what it refuses (R33, R246, R247, R339). -/

namespace Sys2Proof.Machine

/-- Steps already due stay due when an event is counted (R51). -/
theorem State.countEvent_events (s : State) (t sel n : Nat) : ∀ e ∈ s.events, e ∈ (s.countEvent t sel n).events := by
  have fires : ∀ (l : List Monitor) (g : Monitor → Instr) (u : State), ∀ e ∈ u.events, e ∈ (l.foldl (fun s m => s.afterCycles 0 (g m)) u).events := by
    intro l g
    induction l with
    | nil => exact fun _ _ he => he
    | cons m l ih => exact fun u e he => ih _ e (mem_insertDue_of_mem _ _ he)
  intro e he
  unfold State.countEvent
  dsimp only
  split
  · exact fires _ (fun m => .monitorFire t (widOf m.h m.c)) _ e he
  · exact he
theorem State.retire_events (s : State) (op : Nat) (ss : s.me.ss = false) : ∀ e ∈ s.events, e ∈ (s.retire op).events := by
  rw [State.retire_plain s op ss]
  exact fun e he => State.countEvent_events (s.updProc s.running fun q => q.completed s.cycle (s.me.pc + 4)) _ _ _ e he
theorem State.retire_kills (s : State) (op : Nat) (ss : s.me.ss = false) : (s.retire op).kills = s.kills := by
  rw [State.retire_plain s op ss, State.countEvent_kills]; rfl

/-- A register of a process is pending for `q`; s0 never is (R31). -/
def Proc.pended (p : Proc) (d : Nat) (q : Pend) : Proc := if d = 0 then p else { p with pend := Tab.put p.pend d q }

/-- An instruction that has left its register pending, and changed no memory, completes (R31). -/
theorem LeftPending.of_retire {s u : State} {d : BitVec 5} {q : Pend} {op : Nat} (ss : s.me.ss = false) (me : u.me = s.me.pended d.toNat q)
    (memory : SameMemory s u) : LeftPending s (u.retire op) d q := by
  have ss' : u.me.ss = false := by rw [me]; unfold Proc.pended; split <;> exact ss
  have done : (u.retire op).me = (s.me.pended d.toNat q).completed u.cycle (u.me.pc + 4) := by rw [State.retire_me u op ss', me]
  have pc : u.me.pc = s.me.pc := by rw [me]; unfold Proc.pended; split <;> rfl
  rw [pc] at done
  refine ⟨⟨by rw [done]; rfl, by rw [done]; rfl⟩, fun d0 => ?_, fun r => ?_, ?_, memory.trans (State.jump_only u op _ ss').memory⟩
  · have nz : d.toNat ≠ 0 := fun e => d0 (BitVec.eq_of_toNat_eq e)
    rw [done, Proc.completed_pend, Proc.pended, if_neg nz]
    exact Tab.look_put_same _ _ _
  · unfold State.reg
    rw [done, Proc.completed_reg]
    unfold Proc.pended
    split <;> rfl
  · rw [done, Proc.completed_specials]
    unfold Proc.pended
    split <;> rfl

/-- A state without what is due and without its count of free values. -/
def State.offClock (s : State) : State := { s with events := [], freeCtr := 0 }
/-- From `s` to `t` steps `f x` for every `x` of the list have become due in one of the next `n` cycles, and nothing else has changed. -/
structure Scheduled (s t : State) (n : Nat) (f : Nat → Instr) (l : List Nat) : Prop where
  rest : t.offClock = s.offClock
  kept : ∀ e ∈ s.events, e ∈ t.events
  due : ∀ x ∈ l, ∃ e ∈ t.events, e.2 = f x ∧ s.cycle < e.1 ∧ e.1 ≤ s.cycle + n
theorem State.foldl_within (n : Nat) (f : Nat → Instr) (pos : 0 < n) (l : List Nat) :
    ∀ s : State, Scheduled s (l.foldl (fun s x => s.within n (f x)) s) n f l := by
  induction l with
  | nil => exact fun s => ⟨rfl, fun _ he => he, fun x hx => by cases hx⟩
  | cons x l ih =>
    intro s
    obtain ⟨rest, kept, due⟩ := ih (s.within n (f x))
    refine ⟨rest, fun e he => kept e (mem_insertDue_of_mem _ _ he), fun y hy => ?_⟩
    rcases List.mem_cons.1 hy with rfl | hy
    · have limit := Nat.mod_lt (Config.delay s.freeCtr) pos
      exact ⟨(s.cycle + 1 + Config.delay s.freeCtr % n, f y), kept _ (mem_insertDue _ _ _), rfl,
        by change s.cycle < s.cycle + 1 + _; omega, by change s.cycle + 1 + _ ≤ _; omega⟩
    · exact due y hy
namespace Scheduled
variable {s t : State} {n : Nat} {f : Nat → Instr} {l : List Nat} (q : Scheduled s t n f l)
include q
theorem me : t.me = s.me := by have e := congrArg State.me q.rest; exact e
theorem kills : t.kills = s.kills := by have e := congrArg State.kills q.rest; exact e
theorem memory : SameMemory s t := by
  have sram := congrArg State.sram q.rest
  have hbm := congrArg State.hbm q.rest
  have epochs := congrArg State.hbmEpoch q.rest
  have sramTags := congrArg State.sramTags q.rest
  have hbmTags := congrArg State.hbmTags q.rest
  have parts := congrArg State.parts q.rest
  exact .of_tables sram hbm epochs sramTags hbmTags fun n => by
    have e : t.part n = s.part n := congrArg (fun ps : Tab Partition => Tab.lookD ps n {}) parts
    rw [e]
end Scheduled

/-- Marks on a partition's networks change no memory. -/
theorem State.updPart_memory (s : State) (n : Nat) (f : Partition → Partition) (key : ∀ q, (f q).key = q.key) : SameMemory s (s.updPart n f) :=
  .of_tables rfl rfl rfl rfl rfl fun k => by
    rw [State.updPart_part]
    split
    · subst_vars; exact key _
    · rfl

/-- KILL's register is pending. -/
def State.killPended (s : State) (part d : Nat) : State := if d = 0 then s else s.updMe fun p => { p with pend := Tab.put p.pend d (.kill part) }
/-- The kill that a KILL starts (R247). -/
def State.newKill (s : State) (part net d : Nat) : Kill :=
  { part := part, net := net, root := s.me.tile, tokens := [(s.running, d)], waiting := (s.part part).tilesOf }
/-- KILL has named its kill, and marked the network (R247). -/
def State.killNamed (s : State) (part net d : Nat) : State :=
  ({ s with nextId := s.nextId + 1, kills := Tab.put s.kills s.nextId (s.newKill part net d) } : State).updPart part fun q =>
    { q with nets := q.nets.map fun n => if n.num = net then { n with killing := true } else n }
/-- KILL's flood is on its way, before the instruction completes (R247). -/
def State.flooded (s : State) (part net d : Nat) : State :=
  (s.part part).tilesOf.foldl (fun u t => u.within 4000 (.laharFlood s.nextId t)) (s.killNamed part net d)

theorem State.killPended_me (s : State) (part d : Nat) : (s.killPended part d).me = s.me.pended d (.kill part) := by
  unfold State.killPended Proc.pended
  split
  · rfl
  · exact State.updMe_me s _
theorem State.killPended_same (s : State) (part d : Nat) : SameMemory s (s.killPended part d) ∧ (s.killPended part d).kills = s.kills ∧
    (s.killPended part d).nextId = s.nextId ∧ (s.killPended part d).cycle = s.cycle ∧ (s.killPended part d).running = s.running ∧
    (s.killPended part d).parts = s.parts := by
  unfold State.killPended
  split
  · exact ⟨.refl s, rfl, rfl, rfl, rfl, rfl⟩
  · exact ⟨State.updMe_memory s _, rfl, rfl, rfl, rfl, rfl⟩
theorem State.flooded_spec (s : State) (part net d : Nat) : (s.flooded part net d).me = s.me ∧ SameMemory s (s.flooded part net d) ∧
    (s.flooded part net d).kills = Tab.put s.kills s.nextId (s.newKill part net d) ∧
    ∀ x, (s.part part).inRect x = true → ∃ e ∈ (s.flooded part net d).events,
      e.2 = .laharFlood s.nextId x ∧ s.cycle < e.1 ∧ e.1 ≤ s.cycle + 4000 := by
  have q := State.foldl_within 4000 (fun t => .laharFlood s.nextId t) (by omega) (s.part part).tilesOf (s.killNamed part net d)
  have named : SameMemory s (s.killNamed part net d) := .of_tables rfl rfl rfl rfl rfl fun k => by
    unfold State.killNamed
    rw [State.updPart_part]
    split
    · subst_vars; rfl
    · rfl
  refine ⟨q.me, named.trans q.memory, q.kills, fun x hx => q.due x ?_⟩
  have inside : x < Config.tiles := by
    simp only [Partition.inRect, decide_eq_true_eq] at hx
    exact hx.2.2.2.2
  exact List.mem_filter.2 ⟨List.mem_range.2 inside, hx⟩

/-- What KILL leaves: a new kill with its flood, or one more token of the one that is in progress (R247, R248). -/
theorem State.killIssue_eq (s : State) (part net d : Nat) : s.killIssue part net d =
    match (s.killPended part d).killOf part net with
    | some (id, k) => ({ s.killPended part d with kills := Tab.put (s.killPended part d).kills id { k with tokens := k.tokens ++ [((s.killPended part d).running, d)] } } : State).retire 0x3C
    | none => ((s.killPended part d).flooded part net d).retire 0x3C := by
  rfl
theorem State.killIssue_new {s : State} {part net d : Nat} (unknown : s.killOf part net = none) :
    s.killIssue part net d = ((s.killPended part d).flooded part net d).retire 0x3C := by
  obtain ⟨-, kills, -⟩ := s.killPended_same part d
  have same : (s.killPended part d).killOf part net = none := by unfold State.killOf at unknown ⊢; rw [kills]; exact unknown
  rw [State.killIssue_eq, same]
theorem State.killIssue_join {s : State} {part net d id : Nat} {k : Kill} (known : s.killOf part net = some (id, k)) :
    s.killIssue part net d =
      ({ s.killPended part d with kills := Tab.put s.kills id { k with tokens := k.tokens ++ [(s.running, d)] } } : State).retire 0x3C := by
  obtain ⟨-, kills, -, -, running, -⟩ := s.killPended_same part d
  have same : (s.killPended part d).killOf part net = some (id, k) := by unfold State.killOf at known ⊢; rw [kills]; exact known
  rw [State.killIssue_eq, same]
  dsimp only
  rw [kills, running]

section Kill
variable {s : State} {d a : BitVec 5}

theorem kill_number {part net : Nat} (hp : part < 16) (hn : net < 255) (reg : s.reg a = .ofNat 64 (part * 256 + net)) :
    wfield (s.reg a) 7 0 = net ∧ wfield (s.reg a) 11 8 = part ∧ wfield (s.reg a) 63 12 = 0 := by
  have num : (s.reg a).toNat = part * 256 + net := by rw [reg, BitVec.toNat_ofNat]; omega
  unfold wfield field
  rw [num]
  refine ⟨?_, ?_, ?_⟩ <;> omega
theorem kill_issues {part net : Nat} (free : s.free [a, d]) (plain : s.plain) (pl : 1 ≤ s.me.pl) (own : s.me.pl = 1 → part = s.me.part)
    (hp : part < 16) (pos : 0 < net) (hn : net < 255) (other : net ≠ s.me.net) (valid : (s.part part).valid = true)
    (reg : s.reg a = .ofNat 64 (part * 256 + net)) : exec (.kill d a) s = .next (s.killIssue part net d.toNat) := by
  obtain ⟨low, mid, high⟩ := kill_number hp hn reg
  refine congrArg Host.Outcome.next ((State.withRegsCommit_free _ _ _ free plain.2.1).trans ?_)
  dsimp only
  rw [low, mid, high, if_neg, if_neg]
  · rintro (h | h | h | h | h)
    · omega
    · omega
    · exact h rfl
    · exact other h
    · rw [valid] at h; cases h
  · rintro (h | ⟨h, h'⟩)
    · omega
    · exact h' (own h)

/-- KILL starts a kill: its flood comes to every tile of the rectangle (R247). -/
theorem kill_starts {part net : Nat} (ss : s.me.ss = false) (unknown : s.killOf part net = none) :
    LeftPending s (s.killIssue part net d.toNat) d (.kill part) ∧
      (∃ k, Tab.look (s.killIssue part net d.toNat).kills s.nextId = some k ∧ k.part = part ∧ k.net = net ∧ k.root = s.me.tile ∧
        k.tokens = [(s.running, d.toNat)] ∧ k.count = 0) ∧
      ∀ x, (s.part part).inRect x = true → ∃ e ∈ (s.killIssue part net d.toNat).events,
        e.2 = .laharFlood s.nextId x ∧ s.cycle < e.1 ∧ e.1 ≤ s.cycle + 4000 := by
  obtain ⟨memory, -, nextId, cycle, running, parts⟩ := s.killPended_same part d.toNat
  have rect : (s.killPended part d.toNat).part part = s.part part := by unfold State.part; rw [parts]
  have tile : (s.killPended part d.toNat).me.tile = s.me.tile := by rw [State.killPended_me]; unfold Proc.pended; split <;> rfl
  obtain ⟨me, memory', kills', due⟩ := (s.killPended part d.toNat).flooded_spec part net d.toNat
  rw [nextId] at kills' due
  rw [rect, cycle] at due
  have me' := me.trans (s.killPended_me part d.toNat)
  have ss' : ((s.killPended part d.toNat).flooded part net d.toNat).me.ss = false := by
    rw [me']; unfold Proc.pended; split <;> exact ss
  rw [State.killIssue_new unknown]
  refine ⟨.of_retire ss me' (memory.trans memory'), ⟨(s.killPended part d.toNat).newKill part net d.toNat, ?_, rfl, rfl, tile, ?_, rfl⟩, fun x hx => ?_⟩
  · rw [State.retire_kills _ _ ss', kills']; exact Tab.look_put_same _ _ _
  · change [((s.killPended part d.toNat).running, d.toNat)] = _; rw [running]
  · obtain ⟨e, he, facts⟩ := due x hx
    exact ⟨e, State.retire_events _ _ ss' e he, facts⟩
/-- KILL joins the kill of the network that is in progress (R248). -/
theorem kill_joins {part net id : Nat} {k : Kill} (ss : s.me.ss = false) (known : s.killOf part net = some (id, k)) :
    LeftPending s (s.killIssue part net d.toNat) d (.kill part) ∧
      Tab.look (s.killIssue part net d.toNat).kills id = some { k with tokens := k.tokens ++ [(s.running, d.toNat)] } := by
  obtain ⟨memory, -⟩ := s.killPended_same part d.toNat
  rw [State.killIssue_join known]
  have me : ({ s.killPended part d.toNat with kills := Tab.put s.kills id { k with tokens := k.tokens ++ [(s.running, d.toNat)] } } : State).me =
      s.me.pended d.toNat (.kill part) := s.killPended_me part d.toNat
  have ss' := (congrArg Proc.ss me).trans (show (s.me.pended d.toNat (.kill part)).ss = false by unfold Proc.pended; split <;> exact ss)
  refine ⟨.of_retire ss me (memory.trans (.of_tables rfl rfl rfl rfl rfl fun _ => rfl)), ?_⟩
  rw [State.retire_kills _ _ ss']
  exact Tab.look_put_same _ _ _

theorem kill_net (w : Word) : wfield w 11 8 = w.toNat / 256 % 16 := by simp [wfield, field]
/-- KILL needs level 1, and at level 1 the own partition (R246). -/
theorem kill_privilege (free : s.free [a, d]) (strip : s.me.strip = none)
    (low : s.me.pl = 0 ∨ s.me.pl = 1 ∧ (s.reg a).toNat / 256 % 16 ≠ s.me.part) :
    ∃ t, exec (.kill d a) s = .next t ∧ Parks s t .privilege s.me.pc := by
  refine ⟨_, congrArg Host.Outcome.next ((State.withRegsCommit_free _ _ _ free strip).trans ?_),
    State.raise_parks s 0x3C .privilege {} strip (by simp) (by simp)⟩
  dsimp only
  rw [kill_net, if_pos low]
/-- KILL of a network that is none, of its own, or of a word that names more is PROTECTION (R246, R339). -/
theorem kill_protection (free : s.free [a, d]) (strip : s.me.strip = none) (pl : 1 ≤ s.me.pl) (own : (s.reg a).toNat / 256 % 16 = s.me.part)
    (bad : (s.reg a).toNat % 256 = 0 ∨ (s.reg a).toNat % 256 = 255 ∨ (s.reg a).toNat % 256 = s.me.net ∨ 4096 ≤ (s.reg a).toNat) :
    ∃ t, exec (.kill d a) s = .next t ∧ Parks s t .protection s.me.pc := by
  refine ⟨_, congrArg Host.Outcome.next ((State.withRegsCommit_free _ _ _ free strip).trans ?_),
    State.raise_parks s 0x3C .protection {} strip (by simp) (by simp)⟩
  dsimp only
  rw [kill_net, wfield_low, if_neg, if_pos]
  · rcases bad with h | h | h | h
    · exact .inl h
    · exact .inr (.inl h)
    · exact .inr (.inr (.inr (.inl h)))
    · refine .inr (.inr (.inl ?_))
      have := (s.reg a).isLt
      unfold wfield field
      omega
  · rintro (h | ⟨-, h⟩)
    · omega
    · exact h own

end Kill

end Sys2Proof.Machine
end

section
/-! PROOFS. The flood of a kill at a tile: the router discards, and the network's processes end (R247). -/

namespace Sys2Proof.Machine

/-- What is left on the mesh after a router has discarded (R247). -/
structure Discarded (s t : State) (part net tile : Nat) : Prop where
  flow : CreditFlow s t
  gone : ∀ m ∈ t.net, m.part = part → m.net = net → m.isData → m.dest.onTile tile = false

/-- A packet that the router of a killed network's tile discards. -/
def State.discards (s : State) (part net t : Nat) (m : NetMsg) : Bool :=
  decide (m.part = part ∧ m.net = net) && (match m.body with
    | .data _ => decide (s.widTile m.wid = t) || m.dest.onTile t
    | _ => false)
/-- The mesh without what a router discards. -/
def State.swept (s : State) (part net t : Nat) : State := { s with net := s.net.filter fun m => !s.discards part net t m }
theorem State.swept_flow (s : State) (part net t : Nat) : CreditFlow s (s.swept part net t) :=
  ⟨rfl, fun _ => rfl, fun _ b => b, fun _ hm _ => (List.mem_filter.1 hm).1⟩
theorem State.routerDiscard_eq (s : State) (part net t : Nat) : s.routerDiscard part net t =
    (s.net.filter (s.discards part net t)).foldl (fun s m => match m.dest.rid, m.body with
      | some rid, .data x => if (s.ep rid).bound then s.addFree rid x.size else s
      | _, _ => s) (s.swept part net t) := rfl

theorem State.routerDiscard_spec (s : State) (part net t : Nat) : Discarded s (s.routerDiscard part net t) part net t := by
  have refunds : ∀ l : List NetMsg, ∀ u : State, CreditFlow u (l.foldl (fun s m => match m.dest.rid, m.body with
      | some rid, .data x => if (s.ep rid).bound then s.addFree rid x.size else s
      | _, _ => s) u) := fun l => CreditFlow.foldl l _ fun s m => by
    split
    · exact .ifThen _ _ (.addFree _ _ _)
    · exact .refl s
  have q := refunds (s.net.filter (s.discards part net t)) (s.swept part net t)
  have eq := s.routerDiscard_eq part net t
  refine ⟨eq ▸ (s.swept_flow part net t).trans q, fun m hm hp hn data => ?_⟩
  rw [eq] at hm
  have keep := (List.mem_filter.1 (q.data m hm data)).2
  obtain ⟨x, hx⟩ := data
  unfold State.discards at keep
  rw [hx, decide_eq_true ⟨hp, hn⟩] at keep
  simp at keep
  exact keep.2

/-- Rounds of trees are not memory. -/
theorem State.mapRounds_memory (s : State) (part : Nat) (f : Round → Option Round) : SameMemory s (s.mapRounds part f) :=
  State.updPart_memory s part (fun q => { q with trees := Tab.mapV (fun _ tr => { tr with rounds := tr.rounds.filterMap f }) q.trees }) fun _ => rfl

/-- The flood's discarding at a tile (R247). -/
def State.cleared (s : State) (part net tile : Nat) : State := (s.routerDiscard part net tile).sinterDiscard part net tile
/-- What the flood's discarding leaves (R247). -/
structure Cleared (s t : State) (part net tile : Nat) : Prop where
  memory : SameMemory s t
  kills : t.kills = s.kills
  cycle : t.cycle = s.cycle
  tiles : t.tiles = s.tiles
  reqs : t.reqs = s.reqs
  staged : t.staged = s.staged
  binds : t.binds = s.binds
  procs : ∀ h, (t.proc h).core = (s.proc h).core
  bare : ∀ h, (s.proc h).bare → (t.proc h).bare
  gone : ∀ m ∈ t.net, m.part = part → m.net = net → m.isData → m.dest.onTile tile = false
theorem State.cleared_spec (s : State) (part net tile : Nat) : Cleared s (s.cleared part net tile) part net tile := by
  obtain ⟨flow, gone⟩ := s.routerDiscard_spec part net tile
  unfold State.cleared
  generalize s.routerDiscard part net tile = u at flow gone ⊢
  have memory : SameMemory u (u.sinterDiscard part net tile) := State.mapRounds_memory u part _
  exact ⟨flow.memory.trans memory, flow.kills, flow.cycle, flow.tiles, flow.reqs, flow.staged, flow.binds, flow.procs, flow.bare, gone⟩

/-- The processes of a network at a tile that still live (R247). -/
def State.victims (s : State) (k : Kill) (tile : Nat) : List Nat :=
  (s.liveOf k.part).filter fun h => decide ((s.proc h).net = k.net ∧ (s.proc h).tile = tile)
theorem State.killAt_eq (s : State) (id tile : Nat) (k : Kill) : s.killAt id tile k =
    { (s.victims k tile).foldl (fun s h => s.killProcess h) (s.cleared k.part k.net tile) with
      kills := Tab.upd ((s.victims k tile).foldl (fun s h => s.killProcess h) (s.cleared k.part k.net tile)).kills id fun j =>
        { j with count := j.count + (s.victims k tile).length } } := rfl
theorem Tab.upd_of_look {α : Type} {t : Tab α} {k : Nat} {v : α} (h : Tab.look t k = some v) (f : α → α) : Tab.upd t k f = Tab.put t k (f v) := by
  unfold Tab.upd; rw [h]
theorem Tab.look_upd {α : Type} {t : Tab α} {k : Nat} {v : α} (h : Tab.look t k = some v) (f : α → α) : Tab.look (Tab.upd t k f) k = some (f v) := by
  rw [Tab.upd_of_look h, Tab.look_put_same]

/-- At a tile without the network a kill only discards. -/
theorem State.killAt_none {s : State} {id tile : Nat} {k : Kill} (known : Tab.look s.kills id = some k) (none_ : s.victims k tile = []) :
    Cleared s { s.killAt id tile k with kills := s.kills } k.part k.net tile ∧ Tab.look (s.killAt id tile k).kills id = some k := by
  have c := s.cleared_spec k.part k.net tile
  rw [State.killAt_eq, none_]
  refine ⟨⟨?_, rfl, c.cycle, c.tiles, c.reqs, c.staged, c.binds, c.procs, c.bare, c.gone⟩, ?_⟩
  · exact ⟨c.memory.sram, c.memory.hbm, c.memory.sramTag, c.memory.hbmTag⟩
  · dsimp only [List.foldl_nil, List.length_nil]
    rw [c.kills]
    exact Tab.look_upd known _

/-- The flood at a tile without the network (R247). -/
theorem laharFlood_empty {s : State} {id tile : Nat} {k : Kill} (known : Tab.look s.kills id = some k) (none_ : s.victims k tile = []) :
    ∃ t, exec (.laharFlood id tile) s = .next t ∧ Tab.look t.kills id = some { k with windows := k.windows ++ [tile] } ∧ SameMemory s t ∧
      (s.cycle + 4096, .killWindowEnd id tile) ∈ t.events ∧
      ∀ m ∈ t.net, m.part = k.part → m.net = k.net → (∃ x, m.body = .data x) → ∀ e, m.dest = .tile e → e / 256 ≠ tile := by
  obtain ⟨c, look⟩ := State.killAt_none known none_
  refine ⟨{ s.killAt id tile k with kills := Tab.upd (s.killAt id tile k).kills id fun k => { k with windows := k.windows ++ [tile] } }.afterCycles 4096
    (.killWindowEnd id tile), ?_, Tab.look_upd look _, ⟨c.memory.sram, c.memory.hbm, c.memory.sramTag, c.memory.hbmTag⟩, ?_, ?_⟩
  · change Host.Outcome.next _ = _
    rw [known]
  · have cycle : (s.killAt id tile k).cycle = s.cycle := c.cycle
    exact cycle ▸ mem_insertDue _ _ _
  · intro m hm hp hn data e he here
    have off := c.gone m hm hp hn data
    rw [he] at off
    simp [Dest.onTile, here] at off
/-- The end of a kill's window at a tile without the network: the tile reports (R247). -/
theorem killWindowEnd_empty {s : State} {id tile : Nat} {k : Kill} (known : Tab.look s.kills id = some k) (none_ : s.victims k tile = []) :
    ∃ t, exec (.killWindowEnd id tile) s = .next t ∧ Tab.look t.kills id = some { k with windows := k.windows.filter (· ≠ tile) } ∧
      SameMemory s t ∧ ∃ e ∈ t.events, e.2 = .killReport id tile ∧ s.cycle < e.1 ∧ e.1 ≤ s.cycle + 40000 := by
  obtain ⟨c, look⟩ := State.killAt_none known none_
  have cycle : (s.killAt id tile k).cycle = s.cycle := c.cycle
  refine ⟨{ s.killAt id tile k with kills := Tab.upd (s.killAt id tile k).kills id fun k => { k with windows := k.windows.filter (· ≠ tile) } }.within 40000
    (.killReport id tile), ?_, Tab.look_upd look _, ⟨c.memory.sram, c.memory.hbm, c.memory.sramTag, c.memory.hbmTag⟩,
    (s.cycle + 1 + Config.delay (s.killAt id tile k).freeCtr % 40000, .killReport id tile), ?_, rfl, ?_, ?_⟩
  · change Host.Outcome.next _ = _
    rw [known]
  · exact cycle ▸ mem_insertDue _ _ _
  · dsimp only; omega
  · have := Nat.mod_lt (Config.delay (s.killAt id tile k).freeCtr) (show 40000 > 0 by omega)
    dsimp only; omega

end Sys2Proof.Machine
end

section
/-! PROOFS. A kill ends a process that has nothing under way (R247). -/

namespace Sys2Proof.Machine

/-- A process with nothing under way that a kill could have to discard (R247). -/
structure Quiescent (s : State) (h : Nat) : Prop where
  strip : (s.proc h).strip = none
  mat : (s.proc h).mat = none
  res : (s.proc h).res = .resident
  bare : (s.proc h).bare
  binds : ∀ e ∈ s.binds, e.2.h ≠ h
  reqs : ∀ e ∈ s.reqs, e.2.h ≠ h
  staged : s.staged = []
  cb : ∀ e ∈ (s.tile (s.proc h).tile).cb, e.2.h ≠ h

theorem State.refundStaged_none (s : State) (h : Nat) (staged : s.staged = []) : s.refundStaged h = s := by
  unfold State.refundStaged
  rw [staged]
  exact congrArg (fun l => { s with staged := l }) staged.symm

theorem Tab.look_any_none {α : Type} (P : α → Bool) (t : Tab α) (k : Nat) (none_ : ∀ e ∈ t, P e.2 = false) : (Tab.look t k).any P = false := by
  cases e : Tab.look t k with
  | none => rfl
  | some v => exact none_ _ (Tab.mem_of_look e)
/-- Without accesses of a process its kill drops nothing but unsent messages of optical links (R247). -/
theorem State.dropEgress_links (s : State) (h : Nat) (none_ : ∀ e ∈ s.reqs, e.2.h ≠ h) : ∃ l, s.dropEgress h = { s with links := l } := by
  have acc : ∀ wid, (decide (2 ^ 67 ≤ wid) && (Tab.look s.reqs (wid - 2 ^ 67)).any fun r => decide (r.h = h)) = false := fun wid => by
    rw [Tab.look_any_none (fun r : Req => decide (r.h = h)) _ _ fun e he => decide_eq_false (none_ e he), Bool.and_false]
  have parts : s.dropEgress h =
      { s with links := (s.dropEgress h).links, remotes := (s.dropEgress h).remotes, reqs := (s.dropEgress h).reqs } := rfl
  have remotes : (s.dropEgress h).remotes = s.remotes := by
    unfold State.dropEgress
    simp only [acc, List.filter_false, List.map_nil, List.contains_nil, Bool.not_false, List.filter_true]
  have reqs : (s.dropEgress h).reqs = s.reqs := by
    unfold State.dropEgress
    simp only [acc, List.filter_false, List.map_nil, List.contains_nil, Bool.not_false, List.filter_true]
  exact ⟨(s.dropEgress h).links, by rw [remotes, reqs] at parts; exact parts⟩
theorem State.dropAccesses_links (s : State) (h : Nat) (none_ : ∀ e ∈ s.reqs, e.2.h ≠ h) : ∃ l, s.dropAccesses h = { s with links := l } := by
  obtain ⟨l, egress⟩ := s.dropEgress_links h none_
  refine ⟨l, ?_⟩
  have held : (s.reqs.filter fun e => decide (e.2.h = h ∧ e.2.after ≠ [])) = [] :=
    List.filter_eq_nil_iff.2 fun e he => by simp [none_ e he]
  have mine : (s.reqs.filter fun e => decide (e.2.h = h)) = [] := List.filter_eq_nil_iff.2 fun e he => by simp [none_ e he]
  unfold State.dropAccesses
  rw [egress]
  simp only [held, List.map_nil, List.contains_nil, Bool.not_false, List.filter_true, List.foldl_nil, mine]

theorem CreditFlow.dropServerQueue (s : State) (h : Nat) : CreditFlow s (s.dropServerQueue h) := by
  unfold State.dropServerQueue
  refine foldl _ _ (fun s e => ?_) s
  split
  · exact refl s
  · dsimp only
    have cut := fun l : List QSlot => (updEp s e.1 fun y => { y with queue := y.queue.filter fun x => !(isProcWid x.wid && decide (widProc x.wid = h)) }).trans
      (foldl l (fun s x => (s.updEp (replySize { slots := [x.val] }).2 fun y => { y with reserved := y.reserved - (replySize { slots := [x.val] }).1 }).addFree
        (replySize { slots := [x.val] }).2 (replySize { slots := [x.val] }).1) (fun s x => (updEp s _ _).trans (addFree _ _ _)) _)
    split
    · exact cut _
    · exact (cut _).trans (addFree _ _ _)

/-- A process with nothing under way is about to end: its records of this cycle, its requests at servers and its leases are gone (R33, R247). -/
def State.dropped (s : State) (h : Nat) : State :=
  let u := ((s.dropRecords h).dropAccesses h).dropServerQueue h
  u.updPart (u.proc h).part fun q => { q with leases := q.leases.filter fun l => decide (l.h ≠ h) }
theorem Quiescent.flow {s t : State} {h : Nat} (q : Quiescent s h) (f : CreditFlow s t) : Quiescent t h where
  strip := by have e := congrArg Proc.strip (f.procs h); exact e.trans q.strip
  mat := by have e := congrArg Proc.mat (f.procs h); exact e.trans q.mat
  res := by have e := congrArg Proc.res (f.procs h); exact e.trans q.res
  bare := f.bare h q.bare
  binds := by rw [f.binds]; exact q.binds
  reqs := by rw [f.reqs]; exact q.reqs
  staged := by rw [f.staged]; exact q.staged
  cb := by
    have e : (t.proc h).tile = (s.proc h).tile := by have e := congrArg Proc.tile (f.procs h); exact e
    rw [e, f.tile]; exact q.cb

theorem State.dropRecords_tile (s : State) (h n : Nat) : ∃ l, (s.dropRecords h).tile n = { s.tile n with frecs := l } := by
  unfold State.dropRecords
  dsimp only
  rw [State.updTile_tile]
  split
  · subst_vars; exact ⟨_, rfl⟩
  · exact ⟨_, rfl⟩
theorem Quiescent.dropRecords {s : State} {h : Nat} (q : Quiescent s h) : Quiescent (s.dropRecords h) h := by
  obtain ⟨l, tile⟩ := s.dropRecords_tile h (s.proc h).tile
  refine ⟨q.strip, q.mat, q.res, q.bare, q.binds, q.reqs, q.staged, ?_⟩
  change ∀ e ∈ ((s.dropRecords h).tile (s.proc h).tile).cb, _
  rw [tile]
  exact q.cb
theorem CreditFlow.dropAccesses {s : State} {h : Nat} (q : Quiescent s h) : CreditFlow s (s.dropAccesses h) := by
  obtain ⟨l, e⟩ := s.dropAccesses_links h q.reqs
  rw [e]
  exact ⟨rfl, fun _ => rfl, fun _ b => b, fun _ hm _ => hm⟩

/-- The end of a process that has nothing under way (R247). -/
theorem State.killProcess_eq {s : State} {h : Nat} (q : Quiescent s h) : s.killProcess h =
    (((s.dropped h).finishProcess h).updProc h fun p => { p with dying := false, bulk := none, ending := none, pend := [] }).noteExit h := by
  have q1 := q.dropRecords
  have stop : (s.dropRecords h).stopMatrix h = s.dropRecords h := by unfold State.stopMatrix; rw [q1.mat]
  have cb : (((s.dropRecords h).tile ((s.dropRecords h).proc h).tile).cb.filter fun e => decide (e.2.h = h)) = [] :=
    List.filter_eq_nil_iff.2 fun e he => by simp [q1.cb e he]
  have q2 := q1.flow (CreditFlow.dropAccesses q1)
  have q3 := q2.flow (CreditFlow.dropServerQueue _ h)
  have binds : (((((s.dropRecords h).dropAccesses h).dropServerQueue h).binds).filter fun e => decide (e.2.h = h)) = [] :=
    List.filter_eq_nil_iff.2 fun e he => by simp [q3.binds e he]
  have res : ((s.dropped h).proc h).res = .resident := q3.res
  unfold State.killProcess
  rw [stop]
  dsimp only
  rw [State.restart_none _ _ q1.strip, State.refundStaged_none _ _ q1.staged]
  rw [cb, List.foldl_nil, binds, List.foldl_nil]
  split
  · next swapped _ => rw [q3.res] at swapped; cases swapped
  · rfl

/-- A process has ended under a kill (R247). -/
structure Killed (s t : State) (h : Nat) : Prop where
  exited : (t.proc h).pst = .exited
  slivers : (t.proc h).slivers = []
  caps : (t.proc h).caps = []
  slots : ∀ i, Tab.look (t.tile (s.proc h).tile).slots i ≠ some h
  kills : t.kills = s.kills

theorem State.killProcess_spec {s : State} {h : Nat} (q : Quiescent s h) : Killed s (s.killProcess h) h := by
  have q1 := q.dropRecords
  have q2 := q1.flow (CreditFlow.dropAccesses q1)
  have f3 := CreditFlow.dropServerQueue ((s.dropRecords h).dropAccesses h) h
  have q3 := q2.flow f3
  have kills : (s.dropped h).kills = s.kills := f3.kills.trans (CreditFlow.dropAccesses q1).kills
  have tile : ((s.dropped h).proc h).tile = (s.proc h).tile := by
    have e := congrArg Proc.tile (f3.procs h)
    have e' := congrArg Proc.tile ((CreditFlow.dropAccesses q1).procs h)
    exact e.trans e'
  have bare : ((s.dropped h).proc h).bare := q3.bare
  rw [State.killProcess_eq q]
  generalize s.dropped h = u at kills tile bare ⊢
  obtain ⟨proc, -, slots, -, fkills, -, -⟩ := u.finishProcess_bare h bare
  rw [tile] at slots
  generalize u.finishProcess h = v at proc slots fkills ⊢
  have changed := State.updProc_proc_same v h fun p => { p with dying := false, bulk := none, ending := none, pend := [] }
  have vslots : ∀ e ∈ ((v.updProc h fun p => { p with dying := false, bulk := none, ending := none, pend := [] }).tile (s.proc h).tile).slots, e.2 ≠ h :=
    slots
  have vkills : (v.updProc h fun p => { p with dying := false, bulk := none, ending := none, pend := [] }).kills = s.kills := fkills.trans kills
  rw [proc] at changed
  generalize v.updProc h (fun p => { p with dying := false, bulk := none, ending := none, pend := [] }) = w at changed vslots vkills ⊢
  obtain ⟨e, noted⟩ := w.noteExit_proc h h
  obtain ⟨nkills, ntiles, -⟩ := w.noteExit_rest h
  rw [changed] at noted
  refine ⟨by rw [noted]; rfl, by rw [noted]; rfl, by rw [noted]; rfl, fun i look => ?_, nkills.trans vkills⟩
  unfold State.tile at look
  rw [ntiles] at look
  exact vslots _ (Tab.mem_of_look look) rfl

/-- The flood's discarding leaves a process that has nothing under way as it is. -/
theorem Quiescent.cleared {s : State} {h part net tile : Nat} (q : Quiescent s h) : Quiescent (s.cleared part net tile) h := by
  have c := s.cleared_spec part net tile
  refine ⟨?_, ?_, ?_, c.bare h q.bare, by rw [c.binds]; exact q.binds, by rw [c.reqs]; exact q.reqs, by rw [c.staged]; exact q.staged, ?_⟩
  · have e := congrArg Proc.strip (c.procs h); exact e.trans q.strip
  · have e := congrArg Proc.mat (c.procs h); exact e.trans q.mat
  · have e := congrArg Proc.res (c.procs h); exact e.trans q.res
  · have e : ((s.cleared part net tile).proc h).tile = (s.proc h).tile := by have e := congrArg Proc.tile (c.procs h); exact e
    unfold State.tile
    rw [e, c.tiles]
    exact q.cb

/-- The flood at a tile with one process of the network that has nothing under way (R247). -/
theorem laharFlood_one {s : State} {id tile h : Nat} {k : Kill} (known : Tab.look s.kills id = some k) (one : s.victims k tile = [h])
    (q : Quiescent s h) :
    ∃ t, exec (.laharFlood id tile) s = .next t ∧ (t.proc h).pst = .exited ∧ (t.proc h).slivers = [] ∧ (t.proc h).caps = [] ∧
      (∀ i, Tab.look (t.tile tile).slots i ≠ some h) ∧
      Tab.look t.kills id = some { k with windows := k.windows ++ [tile], count := k.count + 1 } := by
  have here : (s.proc h).tile = tile := by
    have mem : h ∈ s.victims k tile := one ▸ List.mem_singleton.2 rfl
    have both := of_decide_eq_true (List.mem_filter.1 mem).2
    exact both.2
  have c := s.cleared_spec k.part k.net tile
  have there : ((s.cleared k.part k.net tile).proc h).tile = tile := by have e := congrArg Proc.tile (c.procs h); exact e.trans here
  have killed := State.killProcess_spec (q.cleared (part := k.part) (net := k.net) (tile := tile))
  have slots := killed.slots
  rw [there] at slots
  have at_ : s.killAt id tile k = { (s.cleared k.part k.net tile).killProcess h with
      kills := Tab.upd ((s.cleared k.part k.net tile).killProcess h).kills id fun j => { j with count := j.count + 1 } } := by
    rw [State.killAt_eq, one]; rfl
  obtain ⟨exited, slivers, caps, -, kills⟩ := killed
  generalize (s.cleared k.part k.net tile).killProcess h = u at at_ exited slivers caps kills slots
  have look : Tab.look (s.killAt id tile k).kills id = some { k with count := k.count + 1 } := by
    rw [at_]
    dsimp only
    rw [kills, c.kills]
    exact Tab.look_upd known _
  refine ⟨{ s.killAt id tile k with kills := Tab.upd (s.killAt id tile k).kills id fun k => { k with windows := k.windows ++ [tile] } }.afterCycles 4096
    (.killWindowEnd id tile), ?_, ?_, ?_, ?_, ?_, Tab.look_upd look _⟩
  · change Host.Outcome.next _ = _
    rw [known]
  all_goals rw [at_]
  · exact exited
  · exact slivers
  · exact caps
  · exact slots

end Sys2Proof.Machine
end

section
/-! PROOFS. The last report of a kill: rounds that a killed network contributed to are gone, and every token is written (R247, R248, R428). -/

namespace Sys2Proof.Machine

/-- From `s` to `t` memory, the kills in progress and where processes stand are as before, and who waits for a token still does. -/
structure KeepsTokens (s t : State) : Prop where
  memory : SameMemory s t
  kills : t.kills = s.kills
  res : ∀ h, (t.proc h).res = (s.proc h).res
  waits : ∀ h d, (s.proc h).pst = .blockedToken d → (t.proc h).pst = .blockedToken d

namespace KeepsTokens

theorem refl (s : State) : KeepsTokens s s := ⟨.refl s, rfl, fun _ => rfl, fun _ _ w => w⟩
theorem trans {s t u : State} (a : KeepsTokens s t) (b : KeepsTokens t u) : KeepsTokens s u :=
  ⟨a.memory.trans b.memory, b.kills.trans a.kills, fun h => (b.res h).trans (a.res h), fun h d w => b.waits h d (a.waits h d w)⟩
theorem foldl {β : Type} (l : List β) (f : State → β → State) (h : ∀ s x, KeepsTokens s (f s x)) : ∀ s, KeepsTokens s (l.foldl f s) := by
  induction l with
  | nil => exact refl
  | cons x l ih => exact fun s => (h s x).trans (ih _)
theorem foldlPair {β γ : Type} (l : List β) (f : State × γ → β → State × γ) (h : ∀ a x, KeepsTokens a.1 (f a x).1) :
    ∀ a, KeepsTokens a.1 (l.foldl f a).1 := by
  induction l with
  | nil => exact fun a => refl a.1
  | cons x l ih => exact fun a => (h a x).trans (ih _)
/-- A step that leaves the processes alone. -/
theorem of_procs {s t : State} (memory : SameMemory s t) (kills : t.kills = s.kills) (procs : t.procs = s.procs) : KeepsTokens s t :=
  ⟨memory, kills, fun h => by unfold State.proc; rw [procs], fun h d w => by unfold State.proc at *; rw [procs]; exact w⟩
theorem of_quiet {s t : State} (q : Quiet s t) : KeepsTokens s t := by
  have kills := congrArg State.kills q.still
  refine ⟨q.memory, kills, fun h => ?_, fun h d w => ?_⟩
  · have e := congrArg Proc.res (q.procs h); exact e
  · rcases q.pst h with same | ⟨c, blocked, -⟩
    · exact same.trans w
    · rw [blocked] at w; cases w
theorem updPart (s : State) (n : Nat) (f : Partition → Partition) (key : ∀ q, (f q).key = q.key) : KeepsTokens s (s.updPart n f) :=
  of_procs (State.updPart_memory s n f key) rfl rfl
theorem setTrees (s : State) (n : Nat) (f : Partition → Tab Tree) : KeepsTokens s (s.updPart n fun q => { q with trees := f q }) :=
  updPart s n _ fun _ => rfl
theorem setSint (s : State) (n : Nat) (f : Tile → Tab SCount) : KeepsTokens s (s.updTile n fun x => { x with sint := f x }) :=
  of_procs (.of_tables rfl rfl rfl rfl rfl fun _ => rfl) rfl rfl
theorem updTile (s : State) (n : Nat) (f : Tile → Tile) : KeepsTokens s (s.updTile n f) :=
  of_procs (.of_tables rfl rfl rfl rfl rfl fun _ => rfl) rfl rfl
theorem stage (s : State) (l : List Staged) : KeepsTokens s { s with staged := l } := of_procs (.of_tables rfl rfl rfl rfl rfl fun _ => rfl) rfl rfl
theorem wakeWriter (s : State) (h c n : Nat) : KeepsTokens s (if (s.proc h).need = n then s.wake h (.blockedWrite c) else s) :=
  of_quiet (.ifThen _ _ (.wakeWriter s h c))
theorem inject (s : State) (wid : Nat) (d : Dest) (m : Msg) (part net : Nat) : KeepsTokens s (s.inject wid d m part net) := by
  have mesh := fun lat => OnMesh.netSend s { wid := wid, dest := d, body := .data m, part := part, net := net } lat (.channelMessageArrive wid)
  have keeps := fun lat => of_procs (mesh lat).traffic.memory (by have e := congrArg State.kills (mesh lat).rest; exact e) (mesh lat).procs
  exact keeps _
theorem abortRound (s : State) (part k r reason : Nat) : KeepsTokens s (s.abortRound part k r reason) := by
  unfold State.abortRound
  split
  · exact refl s
  · next tr _ =>
    dsimp only
    split
    · exact refl s
    · exact (setTrees s part _).trans (foldl _ _ (fun s e => of_quiet (.later s _)) _)
theorem contribute (s : State) (h k : Nat) (ty : SType) (op : SOp) (xs : List Nat) : KeepsTokens s (s.contribute h k ty op xs) := by
  unfold State.contribute
  dsimp only
  split
  · exact setSint _ _ _
  · split
    · exact setSint _ _ _
    · split
      · exact ((setSint _ _ _).trans (setTrees _ _ _)).trans (abortRound _ _ _ _ _)
      · exact ((setSint _ _ _).trans (setTrees _ _ _)).trans (of_quiet (.later _ _))
theorem injectAll (s : State) : KeepsTokens s s.injectAll := by
  unfold State.injectAll
  refine (stage s []).trans (foldlPair _ _ (fun a m => ?_) ({ s with staged := [] }, []))
  obtain ⟨u, stuck⟩ := a
  dsimp only
  cases m.tree with
  | none =>
    dsimp only
    split
    · exact stage u _
    · exact (inject u _ _ _ _ _).trans (wakeWriter _ _ _ _)
  | some x =>
    obtain ⟨k, ty, op, xs⟩ := x
    dsimp only
    split
    · exact stage u _
    · exact contribute u _ _ _ _ _
theorem sinterWake (s : State) (t k : Nat) : KeepsTokens s (s.sinterWake t k) := by
  have proc : ∀ h, ∃ l, (s.sinterWake t k).proc h = { s.proc h with hold := l } := fun h => by
    unfold State.sinterWake State.proc Tab.lookD
    rw [Tab.look_mapV]
    cases Tab.look s.procs h with
    | none => exact ⟨_, rfl⟩
    | some p =>
      dsimp only [Option.map_some, Option.getD_some]
      split
      · exact ⟨_, rfl⟩
      · exact ⟨_, rfl⟩
  refine ⟨.of_tables rfl rfl rfl rfl rfl fun _ => rfl, rfl, fun h => ?_, fun h d w => ?_⟩ <;> obtain ⟨l, e⟩ := proc h <;> rw [e]
  exact w
theorem stopTimers (s : State) (part k n : Nat) : KeepsTokens s (s.stopTimers part k n) := by
  unfold State.stopTimers
  exact foldl _ _ (fun s (e : Nat × Tile) => (updTile s e.1 _).trans (of_quiet (.cancel _ _))) s
theorem sinterPurge (s : State) (part net : Nat) : KeepsTokens s (s.sinterPurge part net) := by
  unfold State.sinterPurge
  dsimp only
  refine trans ?_ (injectAll _)
  refine trans ?_ (foldl _ _ (fun s (e : Nat × Tree) => foldl _ _ (fun s (x : TreeEntry) => sinterWake s x.tile e.1) s) _)
  refine trans (updPart s part (fun q => { q with trees := Tab.mapV (fun _ tr =>
    { tr with rounds := tr.rounds.filterMap fun r => if r.takes net then none else some r }) q.trees }) fun _ => rfl) ?_
  exact foldl _ _ (fun s (g : Nat × Nat) => (stopTimers s part g.1 g.2).trans (of_quiet (.cancel _ _))) _

end KeepsTokens

/-- A write of a resident process's pending register (R31, R94). -/
theorem State.land_eq (s : State) (h r : Nat) (v : Word) : s.land h r v = (s.updProc h fun p => p.landed r v).wake h (.blockedToken r) := rfl
theorem State.wake_off (s : State) (h : Nat) (st : PState) : SameMemory s (s.wake h st) ∧ (s.wake h st).kills = s.kills := by
  unfold State.wake
  split
  · exact ⟨.of_tables rfl rfl rfl rfl rfl fun _ => rfl, rfl⟩
  · exact ⟨.refl s, rfl⟩
theorem State.land_memory (s : State) (h r : Nat) (v : Word) : SameMemory s (s.land h r v) := by
  have changed : SameMemory s (s.updProc h fun p => p.landed r v) := .of_tables rfl rfl rfl rfl rfl fun _ => rfl
  rw [State.land_eq]
  exact changed.trans (State.wake_off _ _ _).1
theorem State.land_kills (s : State) (h r : Nat) (v : Word) : (s.land h r v).kills = s.kills := (State.wake_off _ _ _).2
theorem State.deliver_resident {s : State} {h r : Nat} {v : Word} (res : (s.proc h).res = .resident) : s.deliver h r v = s.land h r v := by
  have same : ((s.land h r v).proc h).res = .resident := by
    obtain ⟨a, b, c, e⟩ := s.land_proc h r v
    rw [e]
    refine Eq.trans ?_ res
    unfold Proc.landed Proc.setReg
    dsimp only
    split <;> rfl
  unfold State.deliver State.saveReg
  dsimp only
  rw [same]
theorem State.land_wakes {s : State} {h r : Nat} {v : Word} (waits : (s.proc h).pst = .blockedToken r) : ((s.land h r v).proc h).pst = .ready := by
  have e : (s.updProc h fun p => p.landed r v).wake h (.blockedToken r) = (s.updProc h fun p => p.landed r v).goto h .ready := by
    unfold State.wake
    rw [if_pos]
    rw [State.updProc_proc_same]
    refine Eq.trans ?_ waits
    unfold Proc.landed Proc.setReg
    dsimp only
    split <;> rfl
  change (((s.updProc h fun p => p.landed r v).wake h (.blockedToken r)).proc h).pst = .ready
  rw [e]
  unfold State.goto
  rw [State.updProc_proc_same]
  rfl
theorem TokenWritten.of_land {s u : State} {h d : Nat} {v : Word} (d0 : d ≠ 0) (q : KeepsTokens s u) : TokenWritten s (u.land h d v) h d v := by
  obtain ⟨a, b, c, e⟩ := u.land_proc h d v
  refine ⟨?_, ?_, fun w => State.land_wakes (q.waits h d w)⟩
  · rw [e]; exact Proc.landed_reg _ v d0
  · rw [e]; exact Proc.landed_isPending _ d v

/-- A report that is not the last (R247). -/
theorem killReport_more {s : State} {id tile : Nat} {k : Kill} (known : Tab.look s.kills id = some k) (more : k.waiting.filter (· ≠ tile) ≠ []) :
    ∃ t, exec (.killReport id tile) s = .next t ∧ Tab.look t.kills id = some { k with waiting := k.waiting.filter (· ≠ tile) } ∧ SameMemory s t := by
  refine ⟨{ s with kills := Tab.put s.kills id { k with waiting := k.waiting.filter (· ≠ tile) } }, ?_, Tab.look_put_same _ _ _,
    .of_tables rfl rfl rfl rfl rfl fun _ => rfl⟩
  change Host.Outcome.next _ = _
  rw [known]
  dsimp only
  rw [if_pos more]

/-- The marks that a kill's confirmation puts on the partition's networks (R248). -/
def Net.confirmed (net count : Nat) (n : Net) : Net := if n.num = net then { n with killing := false, killed := some count } else n
theorem Net.confirmed_marks (l : List Net) (net count : Nat) : ∀ n ∈ l.map (Net.confirmed net count), n.num = net → n.killed = some count ∧ n.killing = false := by
  intro n hn num
  obtain ⟨m, -, rfl⟩ := List.mem_map.1 hn
  unfold Net.confirmed at num ⊢
  split
  · exact ⟨rfl, rfl⟩
  · next other => rw [if_neg other] at num; exact absurd num other

/-- The last report writes the token with the count, and confirms the kill (R247, R248). -/
theorem killReport_last {s : State} {id tile h d : Nat} {k : Kill} (known : Tab.look s.kills id = some k) (last : k.waiting.filter (· ≠ tile) = [])
    (token : k.tokens = [(h, d)]) (d0 : d ≠ 0) (res : (s.proc h).res = .resident) :
    ∃ t, exec (.killReport id tile) s = .next t ∧ Tab.look t.kills id = none ∧ TokenWritten s t h d (.ofNat 64 k.count) ∧ SameMemory s t ∧
      ∀ n ∈ (t.part k.part).nets, n.num = k.net → n.killed = some k.count ∧ n.killing = false := by
  have q := KeepsTokens.sinterPurge ({ s with kills := Tab.cut s.kills id } : State) k.part k.net
  have res' : ((({ s with kills := Tab.cut s.kills id } : State).sinterPurge k.part k.net).proc h).res = .resident := (q.res h).trans res
  generalize purged : ({ s with kills := Tab.cut s.kills id } : State).sinterPurge k.part k.net = u at q res'
  have gone : Tab.look u.kills id = none := by rw [q.kills]; simp [Tab.look_cut]
  have memory : SameMemory s u := ⟨q.memory.sram, q.memory.hbm, q.memory.sramTag, q.memory.hbmTag⟩
  have written : TokenWritten s (u.land h d (.ofNat 64 k.count)) h d (.ofNat 64 k.count) :=
    have w := TokenWritten.of_land (h := h) (v := .ofNat 64 k.count) d0 q
    ⟨w.value, w.done, w.wakes⟩
  have memory' := memory.trans (u.land_memory h d (.ofNat 64 k.count))
  have gone' : Tab.look (u.land h d (.ofNat 64 k.count)).kills id = none := by rw [State.land_kills]; exact gone
  have run : exec (.killReport id tile) s = .next
      (if (((u.land h d (.ofNat 64 k.count)).part k.part).nets.any fun n => decide (n.num = k.net)) then
        ((u.land h d (.ofNat 64 k.count)).updPart k.part fun q => { q with nets := q.nets.map (Net.confirmed k.net k.count) }).later
          (.loaderEndReply k.part k.net)
      else (u.land h d (.ofNat 64 k.count)).updPart k.part fun q => { q with nets := q.nets.map (Net.confirmed k.net k.count) }) := by
    change Host.Outcome.next _ = _
    rw [known]
    dsimp only
    rw [if_neg (not_not.2 last), token, purged, List.foldl_cons, List.foldl_nil, if_neg d0, State.deliver_resident res']
    rfl
  generalize u.land h d (.ofNat 64 k.count) = v at written memory' gone' run
  have marks : ∀ n ∈ ((v.updPart k.part fun q => { q with nets := q.nets.map (Net.confirmed k.net k.count) }).part k.part).nets,
      n.num = k.net → n.killed = some k.count ∧ n.killing = false := by
    rw [State.updPart_part_same]
    exact Net.confirmed_marks _ _ _
  have mem := memory'.trans (State.updPart_memory v k.part (fun q => { q with nets := q.nets.map (Net.confirmed k.net k.count) }) fun _ => rfl)
  refine ⟨_, run, ?_⟩
  split
  · exact ⟨gone', ⟨written.value, written.done, written.wakes⟩, ⟨mem.sram, mem.hbm, mem.sramTag, mem.hbmTag⟩, marks⟩
  · exact ⟨gone', ⟨written.value, written.done, written.wakes⟩, mem, marks⟩

/-- Settles O53: KILL by its two branches, the flood by what the router's discarding leaves (credits only) and by the end of a process with nothing under
way, the last report by the purge that keeps every waiting token. -/
theorem killResult : Obligations.KillResult := by
  refine ⟨?_, ?_, ?_, ?_⟩
  · intro s d a part net free plain pl own hp pos hn other valid reg
    have run := kill_issues free plain pl own hp pos hn other valid reg
    refine ⟨fun unknown => ⟨_, run, kill_starts plain.1 unknown⟩, fun id k known => ⟨_, run, kill_joins plain.1 known⟩⟩
  · intro s d a free strip
    exact ⟨kill_privilege free strip, kill_protection free strip⟩
  · intro s id tile k known
    refine ⟨fun none_ => ⟨laharFlood_empty known none_, killWindowEnd_empty known none_⟩, fun h one settled chans res reqs staged _ => ?_⟩
    have bare : (s.proc h).bare := by unfold Proc.bare; rw [chans]; exact fun e he => by cases he
    exact laharFlood_one known one ⟨settled.strip, settled.mat, res, bare, settled.binds, reqs, staged, settled.cb⟩
  · intro s id tile k known
    exact ⟨killReport_more known, fun h d last token d0 res => killReport_last known last token d0 res⟩

end Sys2Proof.Machine
end

section
/-! PROOFS. TLBI and RESUME (R100, R234): what they change of a process that they name, and what they leave. -/

namespace Sys2Proof.Machine

theorem Tab.lookD_mapV {α : Type} (f : α → α) (t : Tab α) (k : Nat) (d : α) (fixed : f d = d) :
    Tab.lookD (Tab.mapV (fun _ => f) t) k d = f (Tab.lookD t k d) := by
  unfold Tab.lookD
  rw [Tab.look_mapV]
  cases Tab.look t k with
  | none => exact fixed.symm
  | some v => rfl

/-- Entries of a TLB that a write of TLBI keeps (R100). -/
def tlbiKeeps (part : Nat) (v : Word) (e : TlbEntry) : Bool :=
  let a := wfield v 47 16 * 65536 / tlbiBytes v * tlbiBytes v
  !(decide (e.part = part) && (decide (wfield v 63 62 = 3) || decide (e.base < a + tlbiBytes v ∧ a < e.base + e.size)))
theorem tlbi_size (v : Word) : wfield v 63 62 = v.toNat / 2 ^ 62 := by
  have := v.isLt
  unfold wfield field
  omega
theorem tlbi_page (v : Word) : wfield v 47 16 = v.toNat / 65536 % 2 ^ 32 := by unfold wfield field; rfl
theorem tlbiKeeps_iff (part : Nat) (v : Word) (e : TlbEntry) : tlbiKeeps part v e = true ↔ ¬ tlbiDrops part v e := by
  unfold tlbiKeeps tlbiDrops
  rw [tlbi_size, tlbi_page]
  dsimp only
  rw [Bool.not_eq_true', ← Bool.not_eq_true, not_iff_not]
  simp
theorem State.tlbi_eq (s : State) (part : Nat) (v : Word) : s.tlbi part v =
    { s with tiles := Tab.mapV (fun _ x => { x with l1 := x.l1.filter (tlbiKeeps part v) }) s.tiles
             lltlb := Tab.mapV (fun _ l => l.filter (tlbiKeeps part v)) s.lltlb } := by
  unfold tlbiKeeps tlbiBytes
  rw [← tlbi_size]
  rfl
/-- Of the TLBs exactly the entries that the write drops are gone (R100). -/
theorem State.tlbi_after (s : State) (part : Nat) (v : Word) : TlbAfter s (s.tlbi part v) part v := by
  refine ⟨fun n e => ?_, fun d e => ?_⟩ <;> rw [State.tlbi_eq]
  · have tile := Tab.lookD_mapV (fun x : Tile => { x with l1 := x.l1.filter (tlbiKeeps part v) }) s.tiles n {} rfl
    have l1 := congrArg Tile.l1 tile
    refine (iff_of_eq (congrArg (e ∈ ·) l1)).trans (List.mem_filter.trans ?_)
    rw [tlbiKeeps_iff]
    rfl
  · dsimp only
    rw [Tab.lookD_mapV (fun l : List TlbEntry => l.filter (tlbiKeeps part v)) s.lltlb d [] rfl, List.mem_filter, tlbiKeeps_iff]
theorem State.tlbi_memory (s : State) (part : Nat) (v : Word) : SameMemory s (s.tlbi part v) := .of_tables rfl rfl rfl rfl rfl fun _ => rfl
theorem TlbAfter.retire {s u : State} {part op : Nat} {v : Word} (q : TlbAfter s u part v) (ss : u.me.ss = false) :
    TlbAfter s (u.retire op) part v := by
  rw [State.retire_plain u op ss]
  refine ⟨fun n e => ?_, fun d e => ?_⟩
  · rw [State.countEvent_tile_l1]; exact q.l1 n e
  · rw [State.countEvent_lltlb]; exact q.ll d e

/-- CSRW of a register that the checkpoint does not hold, with no strip open (R289). -/
theorem csrw_commits {s : State} {a : BitVec 5} {act : State} (free : s.free [a]) (strip : s.me.strip = none) (n : Csr) (run : s.csrAct n (s.reg a) = act) :
    s.withRegs [a] (s.afterCommit fun s => s.withRegs [a] (s.csrAct n (s.reg a))) = act := by
  rw [State.withRegs_free _ _ _ free, State.afterCommit_none _ _ strip, State.withRegs_free _ _ _ free, run]
/-- What level 1 may write (Table 12.14). -/
theorem State.csr_permitted {s : State} {n : Csr} {v : Word} (pl : 1 ≤ s.me.pl) (level : csrWriteLevel n = 1) (other : n ≠ .status) :
    ¬ (s.me.pl < csrWriteLevel n ∨ (n = .status ∧ s.me.statusGuard v)) := by
  rintro (low | ⟨st, -⟩)
  · omega
  · exact other st
theorem State.csrAct_tlbi {s : State} (v : Word) (pl : 1 ≤ s.me.pl) : s.csrAct .tlbi v = (s.tlbi s.me.part v).retire 0x3C := by
  unfold State.csrAct
  rw [if_neg (State.csr_permitted pl rfl (by simp))]
theorem State.csrAct_resume {s : State} (v : Word) (pl : 1 ≤ s.me.pl) : s.csrAct .resume v = s.writeResume v := by
  unfold State.csrAct
  rw [if_neg (State.csr_permitted pl rfl (by simp))]
theorem State.csrAct_pswap {s : State} (v : Word) (pl : 1 ≤ s.me.pl) : s.csrAct .pswap v = s.writePswap v := by
  unfold State.csrAct
  rw [if_neg (State.csr_permitted pl rfl (by simp))]
/-- What a write of RESUME leaves where its checks hold (R234). -/
theorem State.writeResume_ok {s u : State} {v : Word} (run : s.resume s.me.part v = .ok u) : s.writeResume v =
    (if wfield v 39 36 = 3 then u.updMe fun p => { p with ending := some (wfield v 31 0) } else u).retire 0x3C := by
  unfold State.writeResume
  rw [run]

/-- A state without its processes and without what is due. -/
def State.offProcs (s : State) : State := { s with procs := [], events := [] }
/-- From `s` to `t` only channel registers have changed, and steps have become due. -/
structure ChansOnly (s t : State) : Prop where
  rest : t.offProcs = s.offProcs
  proc : ∀ g, ∃ l, t.proc g = { s.proc g with chans := l }

namespace ChansOnly

theorem refl (s : State) : ChansOnly s s := ⟨rfl, fun g => ⟨(s.proc g).chans, rfl⟩⟩
theorem trans {s t u : State} (a : ChansOnly s t) (b : ChansOnly t u) : ChansOnly s u := by
  refine ⟨b.rest.trans a.rest, fun g => ?_⟩
  obtain ⟨l, e⟩ := a.proc g
  obtain ⟨m, f⟩ := b.proc g
  exact ⟨m, by rw [f, e]⟩
theorem foldl {β : Type} (l : List β) (f : State → β → State) (h : ∀ s x, ChansOnly s (f s x)) : ∀ s, ChansOnly s (l.foldl f s) := by
  induction l with
  | nil => exact refl
  | cons x l ih => exact fun s => (h s x).trans (ih _)
theorem ifThen {s t : State} (c : Prop) (d : Decidable c) (q : ChansOnly s t) : ChansOnly s (@ite State c d t s) := by
  split
  · exact q
  · exact .refl s
theorem updChan (s : State) (h c : Nat) (f : ChanReg → ChanReg) : ChansOnly s (s.updChan h c f) := by
  refine ⟨rfl, fun g => ?_⟩
  have e : (s.updChan h c f).proc g = if h = g then (s.proc h).setChan c (f ((s.proc h).chan c)) else s.proc g := State.updProc_proc s h g _
  rw [e]
  split
  · subst_vars; exact ⟨_, rfl⟩
  · exact ⟨_, rfl⟩
theorem afterCycles (s : State) (n : Nat) (i : Instr) : ChansOnly s (s.afterCycles n i) := ⟨rfl, fun g => ⟨(s.proc g).chans, rfl⟩⟩

variable {s t : State} (q : ChansOnly s t)
include q
theorem tiles : t.tiles = s.tiles := by have e := congrArg State.tiles q.rest; exact e
theorem tile (n : Nat) : t.tile n = s.tile n := by unfold State.tile; rw [q.tiles]
theorem staged : t.staged = s.staged := by have e := congrArg State.staged q.rest; exact e
theorem memory : SameMemory s t := by
  have sram := congrArg State.sram q.rest
  have hbm := congrArg State.hbm q.rest
  have epochs := congrArg State.hbmEpoch q.rest
  have sramTags := congrArg State.sramTags q.rest
  have hbmTags := congrArg State.hbmTags q.rest
  have parts := congrArg State.parts q.rest
  exact .of_tables sram hbm epochs sramTags hbmTags fun n => by
    have e : t.part n = s.part n := congrArg (fun ps : Tab Partition => Tab.lookD ps n {}) parts
    rw [e]

end ChansOnly

theorem State.injectAll_none (s : State) (staged : s.staged = []) : s.injectAll = s := by
  unfold State.injectAll
  rw [staged]
  exact congrArg (fun l => { s with staged := l }) staged.symm
theorem State.unholdChans_only (s : State) (h : Nat) (staged : s.staged = []) : ChansOnly s (s.unholdChans h) := by
  unfold State.unholdChans
  have q : ∀ l : List (Nat × ChanReg), ChansOnly s (l.foldl (fun u e =>
      if e.2.dest.isPeer && e.2.frozen && !(s.moves.any fun m => m.2.waiting.contains (widOf h e.1)) then u.updChan h e.1 fun x => { x with frozen := false } else u) s) :=
    fun l => .foldl l _ (fun u e => .ifThen _ _ (.updChan u h e.1 _)) s
  have none_ := State.injectAll_none _ ((q (s.proc h).chans).staged.trans staged)
  dsimp only
  exact none_.symm ▸ q (s.proc h).chans

/-- A process that goes on (R234). -/
def Proc.resumed (p : Proc) (cycle : Nat) : Proc := { p.enter .ready cycle with since := cycle }
/-- Process `h` goes on at its PC, and of the others at most channel registers have changed. -/
structure Resumed (s t : State) (h : Nat) : Prop where
  proc : ∃ l, t.proc h = { (s.proc h).resumed s.cycle with chans := l }
  others : ∀ g, g ≠ h → ∃ l, t.proc g = { s.proc g with chans := l }
  rest : t.offProcs = s.offProcs
  memory : SameMemory s t
theorem State.resumeAt_spec (s : State) (h : Nat) (staged : s.staged = []) : Resumed s (s.resumeAt h) h := by
  have same : ∀ g, g ≠ h → ((s.goto h .ready).updProc h fun p => { p with since := s.cycle }).proc g = s.proc g := fun g hg => by
    rw [State.updProc_proc_other _ _ (Ne.symm hg)]
    exact State.updProc_proc_other s _ (Ne.symm hg)
  have mine : ((s.goto h .ready).updProc h fun p => { p with since := s.cycle }).proc h = (s.proc h).resumed s.cycle := by
    rw [State.updProc_proc_same]
    unfold State.goto
    rw [State.updProc_proc_same]
    rfl
  have memory : SameMemory s ((s.goto h .ready).updProc h fun p => { p with since := s.cycle }) := .of_tables rfl rfl rfl rfl rfl fun _ => rfl
  have rest : ((s.goto h .ready).updProc h fun p => { p with since := s.cycle }).offProcs = s.offProcs := rfl
  have staged' : ((s.goto h .ready).updProc h fun p => { p with since := s.cycle }).staged = [] := staged
  unfold State.resumeAt
  generalize (s.goto h .ready).updProc h (fun p => { p with since := s.cycle }) = u at same mine memory rest staged' ⊢
  have q := u.unholdChans_only h staged'
  refine ⟨?_, fun g hg => ?_, q.rest.trans rest, memory.trans q.memory⟩
  · obtain ⟨l, e⟩ := q.proc h
    exact ⟨l, by rw [e, mine]⟩
  · obtain ⟨l, e⟩ := q.proc g
    exact ⟨l, by rw [e, same g hg]⟩

/-- The fields of a word that names an action on a process. -/
theorem resumeWord_fields {act port h : Nat} (ha : act < 16) (hp : port < 8) (hh : h < 2 ^ 32) :
    wfield (resumeWord act port h) 31 0 = h ∧ wfield (resumeWord act port h) 39 36 = act ∧ wfield (resumeWord act port h) 34 32 = port := by
  have num : (resumeWord act port h).toNat = act * 2 ^ 36 + port * 2 ^ 32 + h := by
    unfold resumeWord
    rw [BitVec.toNat_ofNat, Nat.mod_eq_of_lt]
    omega
  unfold wfield field
  rw [num]
  refine ⟨?_, ?_, ?_⟩ <;> omega

section Resume
variable {s : State} {part h : Nat} {v : Word}

theorem resume_refused (who : wfield v 31 0 = h) (unknown : s.named part h = false) : s.resume part v = .error (.protection, {}) := by
  unfold State.resume
  dsimp only
  rw [who, if_pos unknown]
theorem resume_at (p : ParkedIn s part h) (who : wfield v 31 0 = h) (act : wfield v 39 36 = 0) : s.resume part v = .ok (s.resumeAt h) := by
  unfold State.resume
  dsimp only
  rw [who, act, if_neg (by rw [p.named]; simp)]
  exact if_neg (by rw [p.parked, p.alive]; simp)
theorem resume_after (p : ParkedIn s part h) (who : wfield v 31 0 = h) (act : wfield v 39 36 = 1) : s.resume part v =
    if (s.proc h).fclass = .precise then .ok (s.resumeAfter h) else .error (.protection, {}) := by
  unfold State.resume
  dsimp only
  rw [who, act, if_neg (by rw [p.named]; simp)]
  by_cases c : (s.proc h).fclass = .precise
  · rw [if_pos c]; exact if_neg (by rw [p.parked, p.alive, c]; simp)
  · rw [if_neg c]; exact if_pos (.inr (.inr c))
theorem resume_end (p : ParkedIn s part h) (who : wfield v 31 0 = h) (act : wfield v 39 36 = 3) : s.resume part v = .ok (s.beginEnd h) := by
  unfold State.resume
  dsimp only
  rw [who, act, if_neg (by rw [p.named]; simp)]
  exact if_neg (by rw [p.parked, p.alive]; simp)

/-- RESUME with ACT 0 (R234). -/
theorem resumeAtPoint_spec (p : ParkedIn s part h) : exec (.resumeAtPoint part h) s = .next (s.resumeAt h) := by
  obtain ⟨who, act, -⟩ := resumeWord_fields (act := 0) (port := 0) (by omega) (by omega) p.word
  change Host.Outcome.next (s.orSame (s.resume part (resumeWord 0 0 h))) = _
  rw [resume_at p who act]
  rfl
theorem Resumed.facts {t : State} (q : Resumed s t h) : (t.proc h).pst = .ready ∧ (t.proc h).pc = (s.proc h).pc ∧
    ∀ r, (t.proc h).reg r = (s.proc h).reg r := by
  obtain ⟨l, e⟩ := q.proc
  refine ⟨by rw [e]; rfl, by rw [e]; rfl, fun r => ?_⟩
  rw [e]
  exact Proc.reg_congr rfl r

/-- RESUME with ACT 1, before the process goes on (R223, R234). -/
def State.skipped (s : State) (h : Nat) : State :=
  let u := match (s.proc h).passes with
    | some k => s.updTile (s.proc h).tile fun x =>
      { x with sint := Tab.put x.sint k { Tab.lookD (s.tile (s.proc h).tile).sint k {} with recv := (Tab.lookD (s.tile (s.proc h).tile).sint k {}).recv + 1 } }
    | none => s
  u.updProc h fun p => { p with pc := (s.proc h).fpc + 4, vpushed := Tab.cut p.vpushed p.fpc.toNat }
theorem State.resumeAfter_eq (s : State) (h : Nat) (res : (s.proc h).res = .resident) : s.resumeAfter h = (s.skipped h).resumeAt h := by
  unfold State.resumeAfter
  dsimp only
  rw [res]
  rfl
theorem State.skipped_proc (s : State) (h : Nat) : (s.skipped h).proc h =
    { s.proc h with pc := (s.proc h).fpc + 4, vpushed := Tab.cut (s.proc h).vpushed (s.proc h).fpc.toNat } := by
  unfold State.skipped
  dsimp only
  rw [State.updProc_proc_same]
  split <;> rfl
theorem State.skipped_recv (s : State) (h k : Nat) (passes : (s.proc h).passes = some k) :
    Tab.lookD ((s.skipped h).tile (s.proc h).tile).sint k {} =
      { Tab.lookD (s.tile (s.proc h).tile).sint k {} with recv := (Tab.lookD (s.tile (s.proc h).tile).sint k {}).recv + 1 } := by
  have tile : ((s.skipped h).tile (s.proc h).tile).sint = Tab.put (s.tile (s.proc h).tile).sint k
      { Tab.lookD (s.tile (s.proc h).tile).sint k {} with recv := (Tab.lookD (s.tile (s.proc h).tile).sint k {}).recv + 1 } := by
    unfold State.skipped
    rw [passes]
    dsimp only
    exact congrArg Tile.sint (State.updTile_tile_same s (s.proc h).tile fun x =>
      { x with sint := Tab.put x.sint k { Tab.lookD (s.tile (s.proc h).tile).sint k {} with recv := (Tab.lookD (s.tile (s.proc h).tile).sint k {}).recv + 1 } })
  rw [tile, Tab.lookD_put, if_pos rfl]
theorem State.skipped_staged (s : State) (h : Nat) : (s.skipped h).staged = s.staged := by
  unfold State.skipped
  dsimp only
  split <;> rfl
theorem resumeSkip_spec (p : ParkedIn s part h) (precise : (s.proc h).fclass = .precise) (res : (s.proc h).res = .resident) :
    ∃ t, exec (.resumeSkip part h) s = .next t ∧ (t.proc h).pst = .ready ∧ (t.proc h).pc = (s.proc h).fpc + 4 ∧
      (∀ r, (t.proc h).reg r = (s.proc h).reg r) ∧
      (∀ k, (s.proc h).passes = some k →
        (Tab.lookD (t.tile (s.proc h).tile).sint k {}).recv = (Tab.lookD (s.tile (s.proc h).tile).sint k {}).recv + 1) := by
  obtain ⟨who, act, -⟩ := resumeWord_fields (act := 1) (port := 0) (by omega) (by omega) p.word
  have q := (s.skipped h).resumeAt_spec h ((s.skipped_staged h).trans p.staged)
  obtain ⟨pst, pc, regs⟩ := q.facts
  refine ⟨(s.skipped h).resumeAt h, ?_, pst, ?_, fun r => ?_, fun k passes => ?_⟩
  · change Host.Outcome.next (s.orSame (s.resume part (resumeWord 1 0 h))) = _
    rw [resume_after p who act, if_pos precise, State.resumeAfter_eq s h res]
    rfl
  · rw [pc, State.skipped_proc]
  · rw [regs, State.skipped_proc]; exact Proc.reg_congr rfl r
  · have tiles := congrArg State.tiles q.rest
    have tile : ((s.skipped h).resumeAt h).tile (s.proc h).tile = (s.skipped h).tile (s.proc h).tile :=
      congrArg (fun ts : Tab Tile => Tab.lookD ts (s.proc h).tile {}) tiles
    rw [tile, State.skipped_recv s h k passes]
theorem resumeSkip_refused (p : ParkedIn s part h) (class_ : (s.proc h).fclass ≠ .precise) : exec (.resumeSkip part h) s = .next s := by
  obtain ⟨who, act, -⟩ := resumeWord_fields (act := 1) (port := 0) (by omega) (by omega) p.word
  change Host.Outcome.next (s.orSame (s.resume part (resumeWord 1 0 h))) = _
  rw [resume_after p who act, if_neg class_]
  rfl

/-- RESUME with ACT 3 on a process with nothing under way (R234). -/
theorem State.giveUp_settled {s : State} {h : Nat} (q : Settled s h) : s.giveUp h = s.dropHeld h := by
  have stop : s.stopMatrix h = s := by unfold State.stopMatrix; rw [q.mat]
  unfold State.giveUp
  rw [stop]
  dsimp only
  rw [q.strip]
  rfl
theorem State.beginEnd_settled {s : State} {h : Nat} (q : Settled s h) : s.beginEnd h = (s.dropHeld h).updProc h fun p => { p with dying := true } := by
  have strip : ((s.dropHeld h).proc h).strip = none := by
    have e : (s.dropHeld h).proc h = _ := State.updProc_proc_same _ h _
    rw [e]; exact q.strip
  have binds : (s.binds.filter fun e => decide (e.2.h = h ∧ (e.2.st = .stopped ∨ e.2.st = .saved))) = [] :=
    List.filter_eq_nil_iff.2 fun e he => by simp [q.binds e he]
  unfold State.beginEnd
  rw [State.giveUp_settled q, State.restart_none _ _ strip]
  dsimp only
  have same : (s.dropHeld h).binds = s.binds := rfl
  rw [same, binds]
  rfl
theorem State.beginEnd_facts {s : State} {h : Nat} (q : Settled s h) : ((s.beginEnd h).proc h).dying = true ∧ SameMemory s (s.beginEnd h) ∧
    (∀ g, g ≠ h → (s.beginEnd h).proc g = s.proc g) ∧ (s.beginEnd h).running = s.running := by
  rw [State.beginEnd_settled q]
  refine ⟨by rw [State.updProc_proc_same], .of_tables rfl rfl rfl rfl rfl fun _ => rfl, fun g hg => ?_, rfl⟩
  rw [State.updProc_proc_other _ _ (Ne.symm hg)]
  exact State.updProc_proc_other _ _ (Ne.symm hg)
theorem resumeEnd_spec (p : ParkedIn s part h) (q : Settled s h) :
    ∃ t, exec (.resumeEnd part h) s = .next t ∧ (t.proc h).dying = true ∧ SameMemory s t := by
  obtain ⟨who, act, -⟩ := resumeWord_fields (act := 3) (port := 0) (by omega) (by omega) p.word
  obtain ⟨dying, memory, -⟩ := State.beginEnd_facts q
  refine ⟨s.beginEnd h, ?_, dying, memory⟩
  change Host.Outcome.next (s.orSame (s.resume part (resumeWord 3 0 h))) = _
  rw [resume_end p who act]
  rfl

end Resume

/-- RESUME with ACT 2: a stopped binding goes on, is in turn again, or may go on when it comes back (R234, R244). -/
theorem resumeStream_spec {s : State} {part h port id : Nat} {b : Binding} (word : h < 2 ^ 32) (hp : port < 8) (named : s.named part h = true)
    (stopped : s.stoppedOn h port = some (id, b)) :
    exec (.resumeStream part h port) s = .next (s.resumePort h port) := by
  obtain ⟨who, act, onPort⟩ := resumeWord_fields (act := 2) (port := port) (by omega) hp word
  change Host.Outcome.next (s.orSame (s.resume part (resumeWord 2 port h))) = _
  unfold State.resume
  dsimp only
  rw [who, act, onPort, if_neg (by rw [named]; simp)]
  have found : (s.stoppedOn h port).isNone = false := by rw [stopped]; rfl
  exact congrArg (fun r => Host.Outcome.next (s.orSame r)) (if_neg (by rw [found]; simp))
theorem resumePort_spec {s : State} {h port id : Nat} {b : Binding} (stopped : s.stoppedOn h port = some (id, b)) :
    (b.st = .saved → Tab.look (s.resumePort h port).binds id = some { b with released := true }) ∧
    (b.st ≠ .saved → (Tab.lookD (s.tile b.tile).ports b.port []).head? = some id →
      Tab.look (s.resumePort h port).binds id = some { b with st := .running } ∧ ∃ e ∈ (s.resumePort h port).events, e.2 = .streamSector b.tile port) ∧
    (b.st ≠ .saved → (Tab.lookD (s.tile b.tile).ports b.port []).head? ≠ some id →
      Tab.look (s.resumePort h port).binds id = some { b with st := .queued }) := by
  have onPort : b.port = port := by
    unfold State.stoppedOn at stopped
    have found := List.find?_some stopped
    exact (of_decide_eq_true found).2.1
  subst onPort
  unfold State.resumePort
  rw [stopped]
  dsimp only
  refine ⟨fun saved => ?_, fun other first => ?_, fun other first => ?_⟩
  · rw [if_pos saved]; exact Tab.look_put_same _ _ _
  · rw [if_neg other, if_pos (decide_eq_true first)]
    exact ⟨Tab.look_put_same _ _ _, _, mem_insertDue _ _ _, rfl⟩
  · rw [if_neg other, if_neg (by simpa using first)]
    exact Tab.look_put_same _ _ _

section Write
variable {s : State} {a : BitVec 5} {h : Nat}

/-- CSRW of TLBI (R100). -/
theorem csrw_tlbi (free : s.free [a]) (plain : s.plain) (pl : 1 ≤ s.me.pl) :
    ∃ t, exec (.csrw a .tlbi) s = .next t ∧ WentTo t (s.me.pc + 4) ∧ SameRegs s t [] ∧ SameMemory s t ∧ TlbAfter s t s.me.part (s.reg a) := by
  have me : (s.tlbi s.me.part (s.reg a)).me = s.me := rfl
  have ss : (s.tlbi s.me.part (s.reg a)).me.ss = false := plain.1
  have only := State.jump_only (s.tlbi s.me.part (s.reg a)) 0x3C (s.me.pc + 4) ss
  exact ⟨_, congrArg Host.Outcome.next (csrw_commits free plain.2.1 .tlbi (State.csrAct_tlbi _ pl)), only.went,
    ⟨only.regs.regs, only.regs.caps, only.regs.chans⟩, (s.tlbi_memory _ _).trans only.memory, (s.tlbi_after _ _).retire ss⟩

/-- A process that RESUME or PSWAP names is none of the partition's (R234, R267). -/
theorem csrw_unnamed (free : s.free [a]) (strip : s.me.strip = none) (pl : 1 ≤ s.me.pl)
    (unknown : s.named s.me.part ((s.reg a).toNat % 2 ^ 32) = false) :
    (∃ t, exec (.csrw a .resume) s = .next t ∧ Parks s t .protection s.me.pc) ∧ ∃ t, exec (.csrw a .pswap) s = .next t ∧ Parks s t .protection s.me.pc := by
  have who : wfield (s.reg a) 31 0 = (s.reg a).toNat % 2 ^ 32 := by simp [wfield, field]
  have parks := State.raise_parks s 0x3C .protection {} strip (by simp) (by simp)
  have refused : s.writeResume (s.reg a) = s.raise 0x3C .protection := by
    unfold State.writeResume
    rw [resume_refused who unknown]
  have out : s.pswap s.me.part (s.reg a) = (s, .error (.protection, {})) := by
    unfold State.pswap
    dsimp only
    rw [who, if_pos (.inl unknown)]
  have refused' : s.writePswap (s.reg a) = s.raise 0x3C .protection := by
    unfold State.writePswap
    rw [who, unknown, out]
    rfl
  exact ⟨⟨_, congrArg Host.Outcome.next (csrw_commits free strip .resume ((State.csrAct_resume _ pl).trans refused)), parks⟩,
    ⟨_, congrArg Host.Outcome.next (csrw_commits free strip .pswap ((State.csrAct_pswap _ pl).trans refused')), parks⟩⟩

/-- CSRW of RESUME with ACT 0 (R234). -/
theorem csrw_resume (p : ParkedIn s s.me.part h) (free : s.free [a]) (plain : s.plain) (pl : 1 ≤ s.me.pl) (other : h ≠ s.running)
    (reg : s.reg a = .ofNat 64 h) :
    ∃ t, exec (.csrw a .resume) s = .next t ∧ WentTo t (s.me.pc + 4) ∧ (t.proc h).pst = .ready ∧ (t.proc h).pc = (s.proc h).pc := by
  obtain ⟨who, act, -⟩ := resumeWord_fields (act := 0) (port := 0) (by omega) (by omega) p.word
  have word : s.reg a = resumeWord 0 0 h := by rw [reg]; unfold resumeWord; congr 1; omega
  rw [← word] at who act
  have q := s.resumeAt_spec h p.staged
  obtain ⟨pst, pc, -⟩ := q.facts
  have running : (s.resumeAt h).running = s.running := by have e := congrArg State.running q.rest; exact e
  obtain ⟨l, me⟩ := q.others s.running (Ne.symm other)
  have me' : (s.resumeAt h).me = { s.me with chans := l } := by unfold State.me; rw [running]; exact me
  have ss : (s.resumeAt h).me.ss = false := by rw [me']; exact plain.1
  have only := State.jump_only (s.resumeAt h) 0x3C ((s.resumeAt h).me.pc + 4) ss
  have same := only.rest.procs h (by rw [running]; exact other)
  have pc' : (s.resumeAt h).me.pc = s.me.pc := by rw [me']
  have write : s.writeResume (s.reg a) = (s.resumeAt h).retire 0x3C := by
    rw [State.writeResume_ok (resume_at p who act), if_neg (by rw [act]; omega)]
  refine ⟨(s.resumeAt h).retire 0x3C, congrArg Host.Outcome.next (csrw_commits free plain.2.1 .resume ((State.csrAct_resume _ pl).trans write)),
    pc' ▸ only.went, ?_, ?_⟩
  · exact (congrArg Proc.pst same).trans pst
  · exact (congrArg Proc.pc same).trans pc

/-- CSRW of RESUME with ACT 3: the writer's next instruction waits (R31, R234). -/
theorem csrw_resume_end (p : ParkedIn s s.me.part h) (free : s.free [a]) (plain : s.plain) (pl : 1 ≤ s.me.pl) (other : h ≠ s.running)
    (reg : s.reg a = .ofNat 64 (3 * 2 ^ 36 + h)) (q : Settled s h) :
    ∃ t, exec (.csrw a .resume) s = .next t ∧ WentTo t (s.me.pc + 4) ∧ t.me.ending = some h ∧ (t.proc h).dying = true := by
  obtain ⟨who, act, -⟩ := resumeWord_fields (act := 3) (port := 0) (by omega) (by omega) p.word
  have word : s.reg a = resumeWord 3 0 h := by rw [reg]; unfold resumeWord; congr 1
  rw [← word] at who act
  obtain ⟨dying, -, others, running⟩ := State.beginEnd_facts q
  have me : (s.beginEnd h).me = s.me := by unfold State.me; rw [running, others _ (Ne.symm other)]
  have me' : ((s.beginEnd h).updMe fun p => { p with ending := some h }).me = { s.me with ending := some h } := by rw [State.updMe_me, me]
  have ss : ((s.beginEnd h).updMe fun p => { p with ending := some h }).me.ss = false := by rw [me']; exact plain.1
  have kept : ((s.beginEnd h).updMe fun p => { p with ending := some h }).proc h = (s.beginEnd h).proc h :=
    State.updProc_proc_other _ _ (by rw [running]; exact Ne.symm other)
  have running' : ((s.beginEnd h).updMe fun p => { p with ending := some h }).running = s.running := running
  have write : s.writeResume (s.reg a) = ((s.beginEnd h).updMe fun p => { p with ending := some h }).retire 0x3C := by
    rw [State.writeResume_ok (resume_end p who act), act, who, if_pos rfl]
  refine ⟨((s.beginEnd h).updMe fun p => { p with ending := some h }).retire 0x3C,
    congrArg Host.Outcome.next (csrw_commits free plain.2.1 .resume ((State.csrAct_resume _ pl).trans write)), ?_⟩
  · generalize (s.beginEnd h).updMe (fun p => { p with ending := some h }) = u at me' ss kept running' ⊢
    have only := State.jump_only u 0x3C (u.me.pc + 4) ss
    have same := only.rest.procs h (by rw [running']; exact other)
    have done := State.retire_me u 0x3C ss
    have pc : u.me.pc = s.me.pc := by rw [me']
    refine ⟨pc ▸ only.went, ?_, ?_⟩
    · rw [done, me']; rfl
    · exact (congrArg Proc.dying (same.trans kept)).trans dying

end Write

end Sys2Proof.Machine
end

section
/-! PROOFS. Doublewords of a control block in HBM, and PSWAP out (R30, R243, R267). -/

namespace Sys2Proof.Machine

theorem Tab.look_store {α : Type} [DecidableEq α] (t : Tab α) (k m : Nat) (v d : α) :
    Tab.look (Tab.store t k v d) m = if k = m then (if v = d then none else some v) else Tab.look t m := by
  unfold Tab.store
  by_cases same : v = d
  · rw [if_pos same, if_pos same, Tab.look_cut]
  · rw [if_neg same, if_neg same, Tab.look_put]

/-- A byte stored under a partition's key reads back there, and the others are as before (R83, R259). -/
theorem State.hbmStore_byte (s : State) (part k j off : Nat) (v : Byte) :
    (s.hbmStore part k [{ off := off, val := v }]).hbmByte part j = if k + off = j then v else s.hbmByte part j := by
  have key : ((s.hbmStore part k [{ off := off, val := v }]).part part).key.epoch = (s.part part).key.epoch := rfl
  have epoch : Tab.look (s.hbmStore part k [{ off := off, val := v }]).hbmEpoch j =
      if k + off = j then (if (s.part part).key.epoch = 0 then none else some (s.part part).key.epoch) else Tab.look s.hbmEpoch j :=
    Tab.look_store s.hbmEpoch (k + off) j _ 0
  have byte : Memory.read (s.hbmStore part k [{ off := off, val := v }]).hbm j = if k + off = j then v else Memory.read s.hbm j :=
    Memory.read_write s.hbm (k + off) j v
  unfold State.hbmByte
  rw [epoch, key]
  by_cases here : k + off = j
  · rw [if_pos here] at byte
    rw [if_pos here, if_pos here]
    split
    · next e found =>
      split at found
      · cases found
      · rw [← Option.some.inj found, if_pos rfl]; exact byte
    · exact byte
  · rw [if_neg here] at byte
    rw [if_neg here, if_neg here, byte]

/-- A state without its HBM. -/
def State.offHbm (s : State) : State := { s with hbm := [], hbmEpoch := [], hbmTags := [] }
theorem State.hbmStore_rest (part k : Nat) (bs : List WByte) : ∀ s : State, (s.hbmStore part k bs).offHbm = s.offHbm := by
  induction bs with
  | nil => exact fun _ => rfl
  | cons b bs ih =>
    intro s
    have one : (s.hbmStore part k [b]).offHbm = s.offHbm := rfl
    exact (ih (s.hbmStore part k [b])).trans one

/-- Bytes in a row read back. -/
theorem State.hbmStore_row (part k : Nat) (l : List Byte) : ∀ (n j : Nat) (s : State),
    (s.hbmStore part k ((l.zipIdx n).map fun e => { off := e.2, val := e.1 })).hbmByte part j =
      if k + n ≤ j ∧ j < k + n + l.length then l.getD (j - (k + n)) 0 else s.hbmByte part j := by
  induction l with
  | nil =>
    intro n j s
    have none_ : ¬ (k + n ≤ j ∧ j < k + n + ([] : List Byte).length) := by rw [List.length_nil]; omega
    rw [if_neg none_]
    rfl
  | cons b l ih =>
    intro n j s
    have first : s.hbmStore part k (((b :: l).zipIdx n).map fun e => { off := e.2, val := e.1 }) =
        (s.hbmStore part k [{ off := n, val := b }]).hbmStore part k ((l.zipIdx (n + 1)).map fun e => { off := e.2, val := e.1 }) := rfl
    rw [first, ih, State.hbmStore_byte, List.length_cons]
    by_cases rest : k + (n + 1) ≤ j ∧ j < k + (n + 1) + l.length
    · have next : j - (k + n) = j - (k + (n + 1)) + 1 := by omega
      rw [if_pos rest, if_pos (by omega), next, List.getD_cons_succ]
    · rw [if_neg rest]
      by_cases here : k + n = j
      · have zero : j - (k + n) = 0 := by omega
        rw [if_pos here, if_pos (by omega), zero, List.getD_cons_zero]
      · rw [if_neg here, if_neg (by omega)]
/-- A doubleword of a control block. -/
def State.putWord (s : State) (part k : Nat) (w : Nat × Nat) : State := s.hbmStore part (k + w.1) (wbytes (bytesLE 8 w.2))
theorem State.putWord_byte (s : State) (part k j : Nat) (w : Nat × Nat) :
    (s.putWord part k w).hbmByte part j = if k + w.1 ≤ j ∧ j < k + w.1 + 8 then byteAt w.2 (j - (k + w.1)) else s.hbmByte part j := by
  have row := State.hbmStore_row part (k + w.1) (bytesLE 8 w.2) 0 j s
  have length : (bytesLE 8 w.2).length = 8 := by simp [bytesLE]
  rw [length] at row
  refine row.trans ?_
  by_cases inside : k + w.1 ≤ j ∧ j < k + w.1 + 8
  · rw [if_pos inside, if_pos (by omega)]
    have lt : j - (k + w.1) < (List.range 8).length := by simp; omega
    simp only [bytesLE, Nat.add_zero, List.getD_eq_getElem?_getD, List.getElem?_map, List.getElem?_eq_getElem lt, List.getElem_range,
      Option.map_some, Option.getD_some]
  · rw [if_neg inside, if_neg (by omega)]
/-- The words of a block at distinct multiples of 8 do not meet: what one of them says reads back. -/
theorem State.putWords_byte (part k o x i : Nat) (hi : i < 8) (aligned : o % 8 = 0) : ∀ (ws : List (Nat × Nat)) (s : State),
    (∀ w ∈ ws, w.1 % 8 = 0) → (∀ w ∈ ws, w.1 = o → w.2 = x) →
    (ws.foldl (fun s w => s.putWord part k w) s).hbmByte part (k + o + i) =
      if ∃ w ∈ ws, w.1 = o then byteAt x i else s.hbmByte part (k + o + i) := by
  intro ws
  induction ws with
  | nil => intro s _ _; simp
  | cons w ws ih =>
    intro s all one
    rw [List.foldl_cons, ih _ (fun v hv => all v (List.mem_cons_of_mem _ hv)) fun v hv => one v (List.mem_cons_of_mem _ hv), State.putWord_byte]
    have mult := all w List.mem_cons_self
    by_cases later : ∃ v ∈ ws, v.1 = o
    · obtain ⟨v, hv, e⟩ := later
      rw [if_pos ⟨v, hv, e⟩, if_pos ⟨v, List.mem_cons_of_mem _ hv, e⟩]
    · rw [if_neg later]
      by_cases here : w.1 = o
      · rw [if_pos (by omega), if_pos ⟨w, List.mem_cons_self, here⟩, one w List.mem_cons_self here, here, Nat.add_sub_cancel_left]
      · rw [if_neg (by omega), if_neg]
        rintro ⟨v, hv, e⟩
        rcases List.mem_cons.1 hv with rfl | hv
        · exact here e
        · exact later ⟨v, hv, e⟩
theorem State.putWords_rest (part k : Nat) (ws : List (Nat × Nat)) : ∀ s : State, (ws.foldl (fun s w => s.putWord part k w) s).offHbm = s.offHbm := by
  induction ws with
  | nil => exact fun _ => rfl
  | cons w ws ih => exact fun s => (ih _).trans (State.hbmStore_rest _ _ _ s)

/-- The words of a control block lie at multiples of 8: the registers first, then the PC, and the others behind it (Table 11.6). -/
theorem Proc.blockWords_mem {p : Proc} {w : Nat × Nat} (hw : w ∈ p.blockWords) :
    (∃ i < 32, w = (8 * i, (p.reg i).toNat)) ∨ w = (0x100, p.pc.toNat) ∨ 0x100 < w.1 ∧ w.1 % 8 = 0 := by
  simp only [Proc.blockWords, List.mem_append, List.mem_map, List.mem_range, List.mem_cons, List.mem_flatMap, List.not_mem_nil, or_false] at hw
  rcases hw with ((((⟨i, hi, rfl⟩ | rfl | hw) | ⟨i, -, hw⟩) | rfl) | ⟨i, -, rfl⟩) | rfl
  · exact .inl ⟨i, hi, rfl⟩
  · exact .inr (.inl rfl)
  · refine .inr (.inr ?_)
    rcases hw with rfl | rfl | rfl | rfl | rfl | rfl | rfl | rfl | rfl | rfl | rfl | rfl | rfl | rfl | rfl | rfl <;> dsimp only <;> omega
  · refine .inr (.inr ?_)
    rcases hw with rfl | rfl <;> dsimp only <;> omega
  · exact .inr (.inr (by dsimp only; omega))
  · refine .inr (.inr ?_)
    dsimp only
    omega
  · exact .inr (.inr (by dsimp only; omega))
theorem Proc.blockWords_aligned (p : Proc) : ∀ w ∈ p.blockWords, w.1 % 8 = 0 := by
  intro w hw
  rcases Proc.blockWords_mem hw with ⟨i, -, rfl⟩ | rfl | ⟨-, aligned⟩
  · dsimp only; omega
  · dsimp only
  · exact aligned
theorem Proc.blockWords_reg (p : Proc) {r : Nat} (hr : r < 32) :
    (∃ w ∈ p.blockWords, w.1 = 8 * r) ∧ ∀ w ∈ p.blockWords, w.1 = 8 * r → w.2 = (p.reg r).toNat := by
  refine ⟨⟨(8 * r, (p.reg r).toNat), ?_, rfl⟩, fun w hw e => ?_⟩
  · simp only [Proc.blockWords, List.mem_append, List.mem_map, List.mem_range]
    exact .inl (.inl (.inl (.inl (.inl ⟨r, hr, rfl⟩))))
  · rcases Proc.blockWords_mem hw with ⟨i, -, rfl⟩ | rfl | ⟨behind, -⟩
    · have same : i = r := by dsimp only at e; omega
      rw [same]
    · dsimp only at e; omega
    · omega
theorem Proc.blockWords_pc (p : Proc) : (∃ w ∈ p.blockWords, w.1 = 0x100) ∧ ∀ w ∈ p.blockWords, w.1 = 0x100 → w.2 = p.pc.toNat := by
  refine ⟨⟨(0x100, p.pc.toNat), ?_, rfl⟩, fun w hw e => ?_⟩
  · simp only [Proc.blockWords, List.mem_append]
    exact .inl (.inl (.inl (.inl (.inr List.mem_cons_self))))
  · rcases Proc.blockWords_mem hw with ⟨i, hi, rfl⟩ | rfl | ⟨behind, -⟩
    · dsimp only at e; omega
    · rfl
    · omega

/-- A control block holds the registers and the PC of a process (R267). -/
structure BlockHolds (t : State) (part k : Nat) (p : Proc) : Prop where
  regs : ∀ r, r < 32 → t.hbmRead part (k + 8 * r) 8 = bytesLE 8 (p.reg r).toNat
  pc : t.hbmRead part (k + 0x100) 8 = bytesLE 8 p.pc.toNat
theorem State.putWords_read (s : State) (part k o x : Nat) (ws : List (Nat × Nat)) (aligned : o % 8 = 0) (all : ∀ w ∈ ws, w.1 % 8 = 0)
    (has : ∃ w ∈ ws, w.1 = o) (one : ∀ w ∈ ws, w.1 = o → w.2 = x) :
    (ws.foldl (fun s w => s.putWord part k w) s).hbmRead part (k + o) 8 = bytesLE 8 x := by
  unfold State.hbmRead bytesLE
  refine List.map_congr_left fun i hi => ?_
  rw [State.putWords_byte part k o x i (List.mem_range.1 hi) aligned ws s all one, if_pos has]
/-- The words of the control block of process `p` are in HBM (R267). -/
def State.blockPut (s : State) (p : Proc) (k : Nat) : State := p.blockWords.foldl (fun u w => u.putWord p.part k w) s
theorem State.blockPut_holds (s : State) (p : Proc) (k : Nat) : BlockHolds (s.blockPut p k) p.part k p :=
  ⟨fun r hr => State.putWords_read s _ k (8 * r) _ _ (by omega) p.blockWords_aligned (p.blockWords_reg hr).1 (p.blockWords_reg hr).2,
    State.putWords_read s _ k 0x100 _ _ (by omega) p.blockWords_aligned p.blockWords_pc.1 p.blockWords_pc.2⟩
theorem State.blockPut_rest (s : State) (p : Proc) (k : Nat) : (s.blockPut p k).offHbm = s.offHbm := State.putWords_rest _ _ _ _
theorem State.writeBlock_eq (s : State) (h k : Nat) :
    s.writeBlock h k = (s.blockPut (s.proc h) k).updProc h fun p => { p with cbAt := some k, cbState := p.pst.code } := rfl
/-- A control block has been written (R267). -/
structure BlockWritten (s t : State) (h k : Nat) : Prop where
  holds : BlockHolds t (s.proc h).part k (s.proc h)
  proc : t.proc h = { s.proc h with cbAt := some k, cbState := (s.proc h).pst.code }
  tiles : t.tiles = s.tiles
  binds : t.binds = s.binds
theorem BlockHolds.of_same {s t : State} {part k : Nat} {p : Proc} (q : BlockHolds s part k p) (byte : ∀ j, t.hbmByte part j = s.hbmByte part j) :
    BlockHolds t part k p := by
  have read : ∀ a n, t.hbmRead part a n = s.hbmRead part a n := fun a n => List.map_congr_left fun i _ => byte (a + i)
  exact ⟨fun r hr => (read _ _).trans (q.regs r hr), (read _ _).trans q.pc⟩
theorem State.writeBlock_written (s : State) (h k : Nat) : BlockWritten s (s.writeBlock h k) h k := by
  have holds := s.blockPut_holds (s.proc h) k
  have rest := s.blockPut_rest (s.proc h) k
  rw [State.writeBlock_eq]
  generalize s.blockPut (s.proc h) k = u at holds rest ⊢
  have procs := congrArg State.procs rest
  have tiles := congrArg State.tiles rest
  have binds := congrArg State.binds rest
  have same : u.proc h = s.proc h := congrArg (fun ps : Tab Proc => Tab.lookD ps h {}) procs
  exact ⟨holds.of_same fun _ => rfl, by rw [State.updProc_proc_same, same], tiles, binds⟩

end Sys2Proof.Machine
end

section
/-! PROOFS. PSWAP, and the obligation of the supervisor's registers (R30, R244, R267). -/

namespace Sys2Proof.Machine

/-- The stopped streams of a process that leaves its tile leave their ports (R244). -/
def State.parkStreams (s : State) (h : Nat) : State :=
  (s.binds.filter fun e => decide (e.2.h = h ∧ e.2.st = .stopped)).foldl (fun s e =>
    { s with binds := Tab.put s.binds e.1 { e.2 with st := .saved } }.leavePort e.1 e.2) s
/-- The saved streams of a process are written behind its control block (R244). -/
def State.saveStreams (s : State) (h part k : Nat) : State :=
  if s.binds.any fun e => decide (e.2.h = h ∧ e.2.st = .saved) then
    { s.hbmStore part (k + 0x800) (wbytes ((List.range 1024).map fun i => Config.bindingByte s.freeCtr i)) with freeCtr := s.freeCtr + 1 }
  else s
/-- What was under way for a process that leaves its tile is given up (R243). -/
def State.putDown (s : State) (h : Nat) : State := ((s.giveUp h).abandon h).cbDrainAll h
/-- The saved-state bits are noted, and the control block is written (R240, R267). -/
def State.blockSaved (s : State) (h k : Nat) : State := (s.updProc h fun p => { p with saved := s.savedBits h }).writeBlock h k
/-- PSWAP out, before the array's image is kept (R267). -/
def State.stowed (s : State) (h k : Nat) : State := (((s.putDown h).parkStreams h).leaveLanes h true).blockSaved h k
/-- The image of the array of a process that leaves its tile (R197). -/
def State.imaged (s : State) (h : Nat) : State :=
  if Tab.lookD (s.tile (s.proc h).tile).owners 17 0 = h then s.updProc h fun p => { p with image := some (s.tile p.tile).an } else s
/-- A process leaves its context slot (R30). -/
def State.unslotted (s : State) (h tile : Nat) (ask : Option LaneAsk) : State :=
  (s.updTile tile fun x => { x with slots := x.slots.filter fun e => decide (e.2 ≠ h) }).updProc h fun p =>
    { p with res := .swapped, yields := [], laneAsk := ask }

/-- A process that is about to leave its tile has neither lanes nor anything under way, and keeps its registers. -/
structure Leaving (s t : State) (h : Nat) : Prop where
  sregs : (t.proc h).sregs = (s.proc h).sregs
  pc : (t.proc h).pc = (s.proc h).pc
  part : (t.proc h).part = (s.proc h).part
  tile : (t.proc h).tile = (s.proc h).tile
  slivers : (t.proc h).slivers = []
  binds : ∀ e ∈ t.binds, e.2.h ≠ h

/-- A process without lanes and without a request for them (R46). -/
def State.unlaned (s : State) (h : Nat) : State :=
  (((s.withdraw h).cancel (.laneGrantEffect (s.proc h).tile h)).updProc h fun p => { p with slivers := [], cluster := false }).updProc h fun p =>
    { p with pgrant := none }
theorem State.leaveLanes_eq (s : State) (h : Nat) : s.leaveLanes h true = (s.unlaned h).settleLanes (s.proc h).tile := rfl
theorem State.unlaned_proc (s : State) (h : Nat) : (s.unlaned h).proc h = { s.proc h with slivers := [], cluster := false, pgrant := none } := by
  unfold State.unlaned
  rw [State.updProc_proc_same, State.updProc_proc_same]
  rfl
theorem State.leaveLanes_proc (s : State) (h : Nat) : (s.leaveLanes h true).proc h = { s.proc h with slivers := [], cluster := false, pgrant := none } := by
  rw [State.leaveLanes_eq, (LaneQueues.settleLanes (s.unlaned h) _).proc, State.unlaned_proc]
theorem LaneQueues.binds {s t : State} (q : LaneQueues s t) : t.binds = s.binds := by have e := congrArg State.binds q.rest; exact e
theorem State.leaveLanes_binds (s : State) (h : Nat) : (s.leaveLanes h true).binds = s.binds := by
  rw [State.leaveLanes_eq, (LaneQueues.settleLanes (s.unlaned h) _).binds]
  rfl

section Out
variable {s : State} {h k : Nat}

/-- With nothing under way, leaving the tile gives up the held operations alone and drains the buffer. -/
theorem State.leaving_eq (strip : (s.proc h).strip = none) (mat : (s.proc h).mat = none) :
    s.putDown h = (s.dropHeld h).cbDrainAll h := by
  have stop : s.stopMatrix h = s := by unfold State.stopMatrix; rw [mat]
  have give : s.giveUp h = s.dropHeld h := by
    unfold State.giveUp
    rw [stop]
    dsimp only
    rw [strip]
    rfl
  have proc : (s.dropHeld h).proc h = _ := State.updProc_proc_same _ h _
  have strip' : ((s.dropHeld h).proc h).strip.isNone = true := by rw [proc]; dsimp only; exact Option.isNone_iff_eq_none.2 strip
  unfold State.putDown State.abandon
  rw [give, if_pos strip']
theorem State.putDown_binds (strip : (s.proc h).strip = none) (mat : (s.proc h).mat = none) : (s.putDown h).binds = s.binds := by
  have q := Quiet.cbDrainAll (s.dropHeld h) h
  have same := congrArg State.binds q.still
  rw [State.leaving_eq strip mat]
  exact same
theorem State.parkStreams_none (binds : ∀ e ∈ s.binds, e.2.h ≠ h) : s.parkStreams h = s := by
  have none_ : (s.binds.filter fun e => decide (e.2.h = h ∧ e.2.st = .stopped)) = [] := List.filter_eq_nil_iff.2 fun e he => by simp [binds e he]
  unfold State.parkStreams
  rw [none_]
  rfl
theorem State.saveStreams_none (part k : Nat) (binds : ∀ e ∈ s.binds, e.2.h ≠ h) : s.saveStreams h part k = s := by
  have none_ : s.binds.any (fun e => decide (e.2.h = h ∧ e.2.st = .saved)) = false := List.any_eq_false.2 fun e he => by simp [binds e he]
  unfold State.saveStreams
  rw [none_]
  rfl
theorem State.leaving (strip : (s.proc h).strip = none) (mat : (s.proc h).mat = none) (binds : ∀ e ∈ s.binds, e.2.h ≠ h) :
    Leaving s (((s.putDown h).parkStreams h).leaveLanes h true) h := by
  have bound : (s.putDown h).binds = s.binds := State.putDown_binds strip mat
  have proc : (s.dropHeld h).proc h = _ := State.updProc_proc_same _ h _
  have kept := (Quiet.cbDrainAll (s.dropHeld h) h).procs h
  rw [proc, ← State.leaving_eq strip mat] at kept
  rw [State.parkStreams_none (by rw [bound]; exact binds)]
  generalize s.putDown h = v at bound kept
  have sregs := congrArg Proc.sregs kept
  have pc := congrArg Proc.pc kept
  have part := congrArg Proc.part kept
  have tile := congrArg Proc.tile kept
  refine ⟨?_, ?_, ?_, ?_, ?_, ?_⟩
  · rw [State.leaveLanes_proc]; exact sregs
  · rw [State.leaveLanes_proc]; exact pc
  · rw [State.leaveLanes_proc]; exact part
  · rw [State.leaveLanes_proc]; exact tile
  · rw [State.leaveLanes_proc]
  · rw [State.leaveLanes_binds, bound]; exact binds

/-- A process whose control block has been written (R267). -/
structure Stowed (s t : State) (h k : Nat) : Prop where
  holds : BlockHolds t (s.proc h).part k (s.proc h)
  cbAt : (t.proc h).cbAt = some k
  slivers : (t.proc h).slivers = []
  tile : (t.proc h).tile = (s.proc h).tile
  binds : ∀ e ∈ t.binds, e.2.h ≠ h
theorem State.stowed_spec (strip : (s.proc h).strip = none) (mat : (s.proc h).mat = none) (binds : ∀ e ∈ s.binds, e.2.h ≠ h) :
    Stowed s (s.stowed h k) h k := by
  have leaves := State.leaving strip mat binds
  unfold State.stowed State.blockSaved
  generalize ((s.putDown h).parkStreams h).leaveLanes h true = u at leaves ⊢
  obtain ⟨sregs, pc, part, tile, slivers, bound⟩ := leaves
  have proc := State.updProc_proc_same u h fun p => { p with saved := u.savedBits h }
  have bound' : ∀ e ∈ (u.updProc h fun p => { p with saved := u.savedBits h }).binds, e.2.h ≠ h := bound
  generalize u.updProc h (fun p => { p with saved := u.savedBits h }) = v at proc bound' ⊢
  obtain ⟨holds, wproc, -, wbinds⟩ := v.writeBlock_written h k
  have vregs : (v.proc h).sregs = (s.proc h).sregs := (congrArg Proc.sregs proc).trans sregs
  have vpc : (v.proc h).pc = (s.proc h).pc := (congrArg Proc.pc proc).trans pc
  have vpart : (v.proc h).part = (s.proc h).part := (congrArg Proc.part proc).trans part
  have vtile : (v.proc h).tile = (s.proc h).tile := (congrArg Proc.tile proc).trans tile
  have vslivers : (v.proc h).slivers = [] := (congrArg Proc.slivers proc).trans slivers
  rw [vpart] at holds
  refine ⟨⟨fun r hr => ?_, ?_⟩, ?_, ?_, ?_, ?_⟩
  · rw [holds.regs r hr, Proc.reg_congr vregs]
  · rw [holds.pc, vpc]
  · rw [wproc]
  · rw [wproc]; exact vslivers
  · rw [wproc]; exact vtile
  · rw [wbinds]; exact bound'

theorem State.imaged_same (s : State) (h : Nat) : (∃ m, (s.imaged h).proc h = { s.proc h with image := m }) ∧ (s.imaged h).tiles = s.tiles ∧
    (s.imaged h).binds = s.binds ∧ ∀ part j, (s.imaged h).hbmByte part j = s.hbmByte part j := by
  unfold State.imaged
  split
  · exact ⟨⟨_, State.updProc_proc_same _ _ _⟩, rfl, rfl, fun _ _ => rfl⟩
  · exact ⟨⟨_, rfl⟩, rfl, rfl, fun _ _ => rfl⟩

/-- The request for lanes that a swapped-out process makes again (R46). -/
def State.askLater (s : State) (h : Nat) : Option LaneAsk :=
  if ((s.proc h).strip.any fun k => !k.own) then none
  else ((s.putDown h).proc h).askAgain ((s.putDown h).unfused ((s.putDown h).proc h).tile).length
theorem State.swapOut_eq (s : State) (h k : Nat) : s.swapOut h k =
    (((s.stowed h k).imaged h).saveStreams h ((s.stowed h k).proc h).part k).unslotted h ((s.stowed h k).proc h).tile (s.askLater h) := rfl

/-- PSWAP out: the block holds the registers and the PC, and the context slot is free (R267). -/
theorem State.swapOut_spec (strip : (s.proc h).strip = none) (mat : (s.proc h).mat = none) (binds : ∀ e ∈ s.binds, e.2.h ≠ h) :
    ((s.swapOut h k).proc h).res = .swapped ∧ ((s.swapOut h k).proc h).cbAt = some k ∧
      (∀ i, Tab.look ((s.swapOut h k).tile (s.proc h).tile).slots i ≠ some h) ∧ ((s.swapOut h k).proc h).slivers = [] ∧
      BlockHolds (s.swapOut h k) (s.proc h).part k (s.proc h) := by
  have stowed := State.stowed_spec (k := k) strip mat binds
  rw [State.swapOut_eq, stowed.tile]
  generalize s.askLater h = ask
  obtain ⟨holds, cbAt, slivers, -, bound⟩ := stowed
  generalize s.stowed h k = u at holds cbAt slivers bound ⊢
  obtain ⟨⟨m, proc⟩, -, same, byte⟩ := u.imaged_same h
  rw [State.saveStreams_none _ _ (by rw [same]; exact bound)]
  generalize u.imaged h = v at proc byte ⊢
  have left : (v.unslotted h (s.proc h).tile ask).proc h = { v.proc h with res := .swapped, yields := [], laneAsk := ask } := State.updProc_proc_same _ h _
  rw [proc] at left
  refine ⟨by rw [left], by rw [left]; exact cbAt, fun i look => ?_, by rw [left]; exact slivers, holds.of_same fun j => byte _ j⟩
  have tile : (v.unslotted h (s.proc h).tile ask).tile (s.proc h).tile = _ :=
    State.updTile_tile_same v (s.proc h).tile fun x => { x with slots := x.slots.filter fun e => decide (e.2 ≠ h) }
  rw [tile] at look
  have off := (List.mem_filter.1 (Tab.mem_of_look look)).2
  simp at off

end Out

theorem swapWord_fields {h : Nat} (word : h < 2 ^ 32) : wfield (.ofNat 64 h) 31 0 = h ∧ bitAt (BitVec.ofNat 64 h).toNat 32 = false ∧
    wfield (.ofNat 64 (2 ^ 32 + h)) 31 0 = h ∧ bitAt (BitVec.ofNat 64 (2 ^ 32 + h)).toNat 32 = true := by
  have out : (BitVec.ofNat 64 h).toNat = h := by rw [BitVec.toNat_ofNat]; omega
  have into : (BitVec.ofNat 64 (2 ^ 32 + h)).toNat = 2 ^ 32 + h := by rw [BitVec.toNat_ofNat]; omega
  unfold wfield field bitAt
  rw [out, into]
  refine ⟨by omega, decide_eq_false (by omega), by omega, decide_eq_true (by omega)⟩

/-- PSWAP_OUT of a process with nothing under way (R243, R267). -/
theorem pswapOut_spec {s u : State} {part h k : Nat} (word : h < 2 ^ 32) (named : s.named part h = true) (res : (s.proc h).res = .resident)
    (q : Settled s h) (block : s.blockKey h .store = (u, .ok k)) : exec (.pswapOut part h) s = .next (u.swapOut h k) := by
  obtain ⟨who, dir, -⟩ := swapWord_fields word
  have low : h % 2 ^ 32 = h := Nat.mod_eq_of_lt word
  have commit : (s.proc h).inCommit = false := by unfold Proc.inCommit; rw [q.strip]; rfl
  have swap : s.pswap part (.ofNat 64 h) = (u, .ok (u.swapOut h k)) := by
    unfold State.pswap
    dsimp only
    rw [who, dir, if_neg (by rw [named, res]; simp), block]
    rfl
  change Host.Outcome.next (if s.named part (h % 2 ^ 32) && (s.proc (h % 2 ^ 32)).inCommit then _ else s.orSame (s.pswap part (.ofNat 64 (h % 2 ^ 32))).2) = _
  rw [low, commit, Bool.and_false, swap]
  rfl

end Sys2Proof.Machine
end

section
/-! PROOFS. PSWAP in, and the obligation of the supervisor's registers (R30, R197, R244, R267). -/

namespace Sys2Proof.Machine

/-- What a process that comes back to its tile reads of its control block (R267). -/
def State.blockWord (s : State) (part k o : Nat) : Nat := ofBytesLE (s.hbmRead part (k + o) 8)
/-- A process as it comes back into context slot `i` (R267). -/
def Proc.seated (p : Proc) (w : Nat → Nat) (i cycle : Nat) : Proc :=
  { (if p.cbAt.isSome then { p.fromBlock w with pst := PState.ofCode p.cbState (field (w 0x180) 19 16) p.pst } else p) with
    res := .resident, cbAt := none, slot := i, since := cycle }
/-- A process has come back to its tile, before its streams, its lanes and its array (R267). -/
def State.seated (s : State) (h k i : Nat) : State :=
  (s.updTile (s.proc h).tile fun x => { x with slots := Tab.put x.slots i h }).updProc h fun p =>
    p.seated (s.blockWord (s.proc h).part k) i s.cycle

theorem Proc.seated_kept (p : Proc) (w : Nat → Nat) (i cycle : Nat) : (p.seated w i cycle).tile = p.tile ∧ (p.seated w i cycle).laneAsk = p.laneAsk ∧
    (p.seated w i cycle).image = p.image ∧ (p.seated w i cycle).res = .resident := by
  unfold Proc.seated
  split <;> exact ⟨rfl, rfl, rfl, rfl⟩
theorem State.seated_proc (s : State) (h k i : Nat) : (s.seated h k i).proc h = (s.proc h).seated (s.blockWord (s.proc h).part k) i s.cycle :=
  State.updProc_proc_same _ h _
theorem State.seated_tile (s : State) (h k i : Nat) : (s.seated h k i).tile (s.proc h).tile =
    { s.tile (s.proc h).tile with slots := Tab.put (s.tile (s.proc h).tile).slots i h } :=
  State.updTile_tile_same s (s.proc h).tile fun x => { x with slots := Tab.put x.slots i h }

/-- The registers of a control block, but for s0 (R267). -/
def blockRegs (w : Nat → Nat) (n : Nat) : Tab Word :=
  (List.range n).foldl (fun r i => if i = 0 then r else Tab.store r i (BitVec.ofNat 64 (w (8 * i))) 0) []
theorem blockRegs_lookD (w : Nat → Nat) (r : Nat) (pos : 0 < r) : ∀ n, Tab.lookD (blockRegs w n) r 0 = if r < n then BitVec.ofNat 64 (w (8 * r)) else 0 := by
  intro n
  induction n with
  | zero => rfl
  | succ n ih =>
    have step : blockRegs w (n + 1) = if n = 0 then blockRegs w n else Tab.store (blockRegs w n) n (BitVec.ofNat 64 (w (8 * n))) 0 := by
      unfold blockRegs
      rw [List.range_succ, List.foldl_append, List.foldl_cons, List.foldl_nil]
    rw [step]
    by_cases zero : n = 0
    · rw [if_pos zero, ih, if_neg (by omega), if_neg (by omega)]
    · rw [if_neg zero, Tab.lookD_store, ih]
      by_cases here : n = r
      · subst here; rw [if_pos rfl, if_pos (by omega)]
      · rw [if_neg here]
        by_cases below : r < n
        · rw [if_pos below, if_pos (by omega)]
        · rw [if_neg below, if_neg (by omega)]
theorem Proc.fromBlock_reg (p : Proc) (w : Nat → Nat) {r : Nat} (pos : 0 < r) (hr : r < 32) : (p.fromBlock w).reg r = BitVec.ofNat 64 (w (8 * r)) := by
  have e : (p.fromBlock w).reg r = if r = 0 then 0 else Tab.lookD (blockRegs w 32) r 0 := rfl
  rw [e, if_neg (by omega), blockRegs_lookD w r pos, if_pos hr]
/-- Registers and PC of a process that comes back (R267). -/
theorem Proc.seated_block {p : Proc} (w : Nat → Nat) (i cycle : Nat) (block : p.cbAt ≠ none) :
    (∀ r, 0 < r → r < 32 → (p.seated w i cycle).reg r = BitVec.ofNat 64 (w (8 * r))) ∧
    (p.seated w i cycle).pc = BitVec.ofNat 48 (w 0x100 / 4 * 4) := by
  unfold Proc.seated
  rw [if_pos (Option.isSome_iff_ne_none.2 block)]
  exact ⟨fun r pos hr => p.fromBlock_reg w pos hr, rfl⟩
theorem Proc.seated_same {p : Proc} (w : Nat → Nat) (i cycle : Nat) (none_ : p.cbAt = none) :
    (∀ r, (p.seated w i cycle).reg r = p.reg r) ∧ (p.seated w i cycle).pc = p.pc := by
  unfold Proc.seated
  rw [if_neg (by rw [none_]; simp)]
  exact ⟨fun r => Proc.reg_congr rfl r, rfl⟩

/-- A process has its array back: of it its channels and its image have changed, and of every tile no context slot. -/
structure ArrayBack (s t : State) (h : Nat) : Prop where
  proc : ∃ l m, t.proc h = { s.proc h with chans := l, image := m }
  slots : ∀ n, (t.tile n).slots = (s.tile n).slots
  memory : SameMemory s t

namespace ArrayBack

theorem refl (s : State) (h : Nat) : ArrayBack s s h := ⟨⟨(s.proc h).chans, (s.proc h).image, rfl⟩, fun _ => rfl, .refl s⟩
theorem trans {s t u : State} {h : Nat} (a : ArrayBack s t h) (b : ArrayBack t u h) : ArrayBack s u h := by
  obtain ⟨l, m, e⟩ := a.proc
  obtain ⟨l', m', e'⟩ := b.proc
  exact ⟨⟨l', m', by rw [e', e]⟩, fun n => (b.slots n).trans (a.slots n), a.memory.trans b.memory⟩
theorem of_chans {s t : State} {h : Nat} (q : ChansOnly s t) : ArrayBack s t h := by
  obtain ⟨l, e⟩ := q.proc h
  exact ⟨⟨l, (s.proc h).image, e⟩, fun n => by rw [q.tile], q.memory⟩
theorem updTile (s : State) (h n : Nat) (f : Tile → Tile) (slots : ∀ x, (f x).slots = x.slots) : ArrayBack s (s.updTile n f) h := by
  refine ⟨⟨(s.proc h).chans, (s.proc h).image, rfl⟩, fun m => ?_, .of_tables rfl rfl rfl rfl rfl fun _ => rfl⟩
  rw [State.updTile_tile]
  split
  · subst_vars; exact slots _
  · rfl
theorem noImage (s : State) (h : Nat) : ArrayBack s (s.updProc h fun p => { p with image := none }) h :=
  ⟨⟨(s.proc h).chans, none, State.updProc_proc_same _ _ _⟩, fun _ => rfl, .of_tables rfl rfl rfl rfl rfl fun _ => rfl⟩
theorem other (s : State) {h o : Nat} (f : Proc → Proc) (ne : o ≠ h) : ArrayBack s (s.updProc o f) h :=
  ⟨⟨(s.proc h).chans, (s.proc h).image, State.updProc_proc_other s f ne⟩, fun _ => rfl, .of_tables rfl rfl rfl rfl rfl fun _ => rfl⟩
theorem dropDstep (s : State) {h o : Nat} (ne : o ≠ h) (new : Nat) : ArrayBack s (s.dropDstep o new) h := by
  unfold State.dropDstep
  split
  · exact refl s h
  · refine ⟨⟨(s.proc h).chans, (s.proc h).image, ?_⟩, fun _ => rfl, .of_tables rfl rfl rfl rfl rfl fun _ => rfl⟩
    exact State.updProc_proc_other _ _ ne
theorem looseChans (s : State) (h t : Nat) : ArrayBack s (s.looseChans t) h := by
  unfold State.looseChans
  exact of_chans ((ChansOnly.foldl _ _ (fun s (e : Nat × DPort) => .updChan s e.2.h e.2.ch _) s).trans
    (.foldl _ _ (fun s (e : Nat × DTap) => .updChan s e.2.h e.2.ch _) _))
theorem startArray (s : State) (h t : Nat) (an : Analyser) : ArrayBack s (s.startArray t an) h := by
  have set := updTile s h t (fun x => { x with an := { an with doms := Tab.mapV (fun _ x => if x.run then { x with startAt := max x.startAt (s.cycle + 1) } else x) an.doms } })
    fun _ => rfl
  refine set.trans (of_chans ?_)
  exact (ChansOnly.foldl _ _ (fun s (e : Nat × DPort) => (ChansOnly.updChan s e.2.h e.2.ch _).trans (.afterCycles _ _ _)) _).trans
    (.foldl _ _ (fun s (e : Nat × DTap) => (ChansOnly.updChan s e.2.h e.2.ch _).trans (.afterCycles _ _ _)) _)
theorem takeBackArray (s : State) (h : Nat) : ArrayBack s (s.takeBackArray h) h := by
  unfold State.takeBackArray
  dsimp only
  split
  · exact refl s h
  · next an _ =>
    have rest : ∀ u : State, ArrayBack u (((u.looseChans (s.proc h).tile).updTile (s.proc h).tile fun x => { x with owners := Tab.put x.owners 17 h }).startArray
        (s.proc h).tile an) h := fun u =>
      ((looseChans u h _).trans (updTile _ h _ (fun x => { x with owners := Tab.put x.owners 17 h }) fun _ => rfl)).trans (startArray _ h _ an)
    split
    · exact (noImage s h).trans (rest _)
    · next owned =>
      have ne : Tab.lookD (s.tile (s.proc h).tile).owners 17 0 ≠ h := fun e => owned (.inr e)
      exact (((noImage s h).trans (dropDstep _ ne h)).trans (other _ _ ne)).trans (rest _)

end ArrayBack

/-- PSWAP in of a process without streams and without a request for lanes (R267). -/
theorem State.swapIn_eq {s : State} {h k i : Nat} (binds : ∀ e ∈ s.binds, e.2.h ≠ h) (ask : (s.proc h).laneAsk = none) :
    s.swapIn h k i = (s.seated h k i).restoreArray h := by
  have none_ : ((s.seated h k i).binds.filter fun e => decide (e.2.h = h ∧ e.2.st = .saved)) = [] :=
    List.filter_eq_nil_iff.2 fun e he => by simp [binds e he]
  have ask' : ((s.seated h k i).proc h).laneAsk = none := by rw [State.seated_proc, (Proc.seated_kept _ _ _ _).2.1, ask]
  have seated : (s.updTile (s.proc h).tile fun x => { x with slots := Tab.put x.slots i h }).updProc h (fun p =>
      let q := if p.cbAt.isSome then { p.fromBlock (fun o => ofBytesLE (s.hbmRead (s.proc h).part (k + o) 8)) with
        pst := PState.ofCode p.cbState (field (ofBytesLE (s.hbmRead (s.proc h).part (k + 0x180) 8)) 19 16) p.pst } else p
      { q with res := .resident, cbAt := none, slot := i, since := (s.updTile (s.proc h).tile fun x => { x with slots := Tab.put x.slots i h }).cycle }) =
      s.seated h k i := rfl
  unfold State.swapIn
  dsimp only at seated ⊢
  rw [seated, none_, List.foldr_nil, ask']
theorem State.swapIn_back {s : State} {h k i : Nat} (binds : ∀ e ∈ s.binds, e.2.h ≠ h) (ask : (s.proc h).laneAsk = none)
    (owner : Tab.lookD (s.tile (s.proc h).tile).owners 17 0 ≠ h) : ArrayBack (s.seated h k i) (s.swapIn h k i) h := by
  have tile : ((s.seated h k i).proc h).tile = (s.proc h).tile := by rw [State.seated_proc, (Proc.seated_kept _ _ _ _).1]
  rw [State.swapIn_eq binds ask]
  unfold State.restoreArray
  dsimp only
  rw [tile, State.seated_tile, if_neg owner]
  split
  · exact .takeBackArray _ h
  · exact .refl _ h

/-- PSWAP_IN of a process whose control block can be read (R267). -/
theorem pswapIn_spec {s u : State} {part h k i : Nat} (word : h < 2 ^ 32) (named : s.named part h = true) (res : (s.proc h).res = .swapped)
    (slot : s.freeSlot (s.proc h).tile = some i) (block : s.blockKey h .load = (u, .ok k)) (good : u.hbmFails k 0x408 = false)
    (good' : u.hbmFails (k + 0x800) 0x400 = false) : exec (.pswapIn part h) s = .next (u.swapIn h k i) := by
  obtain ⟨-, -, who, dir⟩ := swapWord_fields word
  have low : h % 2 ^ 32 = h := Nat.mod_eq_of_lt word
  have swap : s.pswap part (.ofNat 64 (2 ^ 32 + h)) = (u, .ok (u.swapIn h k i)) := by
    unfold State.pswap
    dsimp only
    rw [who, dir, if_neg (by rw [named, res]; simp), if_pos rfl, slot]
    dsimp only
    rw [block]
    dsimp only
    rw [good, good']
    rfl
  change Host.Outcome.next (s.orSame (s.pswap part (.ofNat 64 (2 ^ 32 + h % 2 ^ 32))).2) = _
  rw [low, swap]
  rfl
/-- A control block's translation is quiet. -/
theorem State.blockKey_quiet {s u : State} {h k : Nat} {perm : Perm} (block : s.blockKey h perm = (u, .ok k)) : Quiet s u := by
  unfold State.blockKey at block
  dsimp only at block
  have q := Quiet.xlate s (s.proc h).tile (s.proc h).part ((s.part (s.proc h).part).blockAt h) perm
  split at block
  · next v _ found =>
    rw [found] at q
    obtain ⟨rfl, -⟩ := Prod.mk.inj block
    exact q
  · cases (Prod.mk.inj block).2
theorem State.named_part {s : State} {part h : Nat} (named : s.named part h = true) : (s.proc h).part = part := by
  unfold State.named at named
  rw [Bool.and_eq_true] at named
  exact (of_decide_eq_true named.2).1

theorem pswapOut_holds {s u : State} {part h k : Nat} (word : h < 2 ^ 32) (named : s.named part h = true) (res : (s.proc h).res = .resident)
    (settled : Settled s h) (block : s.blockKey h .store = (u, .ok k)) :
    ∃ t, exec (.pswapOut part h) s = .next t ∧ (t.proc h).res = .swapped ∧ (t.proc h).cbAt = some k ∧
      (∀ i, Tab.look (t.tile (s.proc h).tile).slots i ≠ some h) ∧ (t.proc h).slivers = [] ∧
      (∀ r, r < 32 → t.hbmRead part (k + 8 * r) 8 = bytesLE 8 ((s.proc h).reg r).toNat) ∧
      t.hbmRead part (k + 0x100) 8 = bytesLE 8 (s.proc h).pc.toNat := by
  have q := State.blockKey_quiet block
  have sregs := congrArg Proc.sregs (q.procs h)
  have pc := congrArg Proc.pc (q.procs h)
  have part' := congrArg Proc.part (q.procs h)
  have tile := congrArg Proc.tile (q.procs h)
  have strip := congrArg Proc.strip (q.procs h)
  have mat := congrArg Proc.mat (q.procs h)
  have binds := congrArg State.binds q.still
  have ubinds : ∀ e ∈ u.binds, e.2.h ≠ h := by rw [show u.binds = s.binds from binds]; exact settled.binds
  obtain ⟨swapped, cbAt, slots, slivers, holds⟩ := State.swapOut_spec (k := k) (Eq.trans strip settled.strip) (Eq.trans mat settled.mat) ubinds
  have in_ : (u.proc h).part = part := Eq.trans part' (State.named_part named)
  have on : (u.proc h).tile = (s.proc h).tile := tile
  rw [in_] at holds
  rw [on] at slots
  refine ⟨_, pswapOut_spec word named res settled block, swapped, cbAt, slots, slivers, fun r hr => ?_, ?_⟩
  · rw [holds.regs r hr, Proc.reg_congr (show (u.proc h).sregs = (s.proc h).sregs from sregs)]
  · rw [holds.pc, show (u.proc h).pc = (s.proc h).pc from pc]

theorem pswapIn_holds {s u : State} {part h k i : Nat} (word : h < 2 ^ 32) (named : s.named part h = true) (res : (s.proc h).res = .swapped)
    (ask : (s.proc h).laneAsk = none) (binds : ∀ e ∈ s.binds, e.2.h ≠ h) (owner : Tab.lookD (s.tile (s.proc h).tile).owners 17 0 ≠ h)
    (slot : s.freeSlot (s.proc h).tile = some i) (block : s.blockKey h .load = (u, .ok k)) (good : u.hbmFails k 0x408 = false)
    (good' : u.hbmFails (k + 0x800) 0x400 = false) :
    ∃ t, exec (.pswapIn part h) s = .next t ∧ (t.proc h).res = .resident ∧ Tab.look (t.tile (s.proc h).tile).slots i = some h ∧
      ((s.proc h).cbAt ≠ none →
        (∀ r, 0 < r → r < 32 → ((t.proc h).reg r).toNat = ofBytesLE (s.hbmRead part (k + 8 * r) 8) % 2 ^ 64) ∧
        (t.proc h).pc.toNat = ofBytesLE (s.hbmRead part (k + 0x100) 8) / 4 * 4 % 2 ^ 48) ∧
      ((s.proc h).cbAt = none → (∀ r, (t.proc h).reg r = (s.proc h).reg r) ∧ (t.proc h).pc = (s.proc h).pc) ∧ SameMemory s t := by
  have q := State.blockKey_quiet block
  have sregs : (u.proc h).sregs = (s.proc h).sregs := by have e := congrArg Proc.sregs (q.procs h); exact e
  have pc : (u.proc h).pc = (s.proc h).pc := by have e := congrArg Proc.pc (q.procs h); exact e
  have in_ : (u.proc h).part = part := by have e := congrArg Proc.part (q.procs h); exact Eq.trans e (State.named_part named)
  have on : (u.proc h).tile = (s.proc h).tile := by have e := congrArg Proc.tile (q.procs h); exact e
  have cbAt : (u.proc h).cbAt = (s.proc h).cbAt := by have e := congrArg Proc.cbAt (q.procs h); exact e
  have uask : (u.proc h).laneAsk = none := by have e := congrArg Proc.laneAsk (q.procs h); exact Eq.trans e ask
  have ubinds : u.binds = s.binds := by have e := congrArg State.binds q.still; exact e
  have word' : ∀ o, u.blockWord part k o = ofBytesLE (s.hbmRead part (k + o) 8) := fun o =>
    congrArg ofBytesLE (List.map_congr_left fun j _ => q.memory.hbm part (k + o + j))
  obtain ⟨⟨l, m, proc⟩, slots, memory⟩ := State.swapIn_back (k := k) (i := i) (by rw [ubinds]; exact binds) uask (by rw [on, q.units.owners]; exact owner)
  have seated := u.seated_proc h k i
  rw [in_] at seated
  refine ⟨_, pswapIn_spec word named res slot block good good', ?_, ?_, fun has => ⟨fun r pos hr => ?_, ?_⟩, fun none_ => ⟨fun r => ?_, ?_⟩, ?_⟩
  · rw [proc, seated]; exact ((u.proc h).seated_kept (u.blockWord part k) i u.cycle).2.2.2
  · rw [← on, slots, State.seated_tile]; exact Tab.look_put_same _ _ _
  · have e := (Proc.seated_block (p := u.proc h) (u.blockWord part k) i u.cycle (by rw [cbAt]; exact has)).1 r pos hr
    rw [proc, seated]
    refine (congrArg BitVec.toNat e).trans ?_
    rw [BitVec.toNat_ofNat, word']
  · have e := (Proc.seated_block (p := u.proc h) (u.blockWord part k) i u.cycle (by rw [cbAt]; exact has)).2
    rw [proc, seated]
    refine (congrArg BitVec.toNat e).trans ?_
    rw [BitVec.toNat_ofNat, word']
  · have e := (Proc.seated_same (p := u.proc h) (u.blockWord part k) i u.cycle (by rw [cbAt]; exact none_)).1 r
    rw [proc, seated]
    exact (e.trans (Proc.reg_congr sregs r))
  · have e := (Proc.seated_same (p := u.proc h) (u.blockWord part k) i u.cycle (by rw [cbAt]; exact none_)).2
    rw [proc, seated]
    exact e.trans pc
  · have put : SameMemory u (u.seated h k i) := .of_tables rfl rfl rfl rfl rfl fun _ => rfl
    exact q.memory.trans (put.trans memory)

/-- Settles O42: TLBI by a filter of the TLBs, RESUME by what it changes of the process it names, PSWAP by the bytes of the control block it writes and
reads. -/
theorem supervisorResult : Obligations.SupervisorResult := by
  refine ⟨?_, ?_, ?_, ?_, ?_, ?_, ?_, ?_⟩
  · exact fun s part v => ⟨_, rfl, s.tlbi_memory part v, s.tlbi_after part v⟩
  · exact fun s a free plain pl => csrw_tlbi free plain pl
  · intro s part h p
    have q := s.resumeAt_spec h p.staged
    obtain ⟨pst, pc, regs⟩ := q.facts
    exact ⟨⟨_, resumeAtPoint_spec p, pst, pc, regs, q.memory⟩, resumeSkip_spec p, resumeSkip_refused p, resumeEnd_spec p⟩
  · exact fun s part h port id b word hp named stopped => ⟨_, resumeStream_spec word hp named stopped, resumePort_spec stopped⟩
  · exact fun s a h p free plain pl other => ⟨csrw_resume p free plain pl other, csrw_resume_end p free plain pl other⟩
  · exact fun s a free strip pl unknown => csrw_unnamed free strip pl unknown
  · exact fun s u part h k word named res settled block => pswapOut_holds word named res settled block
  · exact fun s u part h k i word named res ask binds owner slot block good good' => pswapIn_holds word named res ask binds owner slot block good good'

end Sys2Proof.Machine
end

section
/-! PROOFS. SPAWN: the child, and what the parent keeps (R34, R36, R372). -/

namespace Sys2Proof.Machine

/-- The channel registers that a spawn descriptor moves (Table 2.3). -/
def spawnNamed (bs : List Byte) : List Nat := (List.range 16).filter fun i => bitAt (dword bs 8) (48 + i)
/-- The tile that a spawn descriptor names. -/
def spawnTile (bs : List Byte) : Nat := field (dword bs 8) 10 0
/-- A child before its arguments. -/
def Proc.childBare (p : Proc) (bs : List Byte) : Proc :=
  { pc := BitVec.ofNat 48 (dword bs 0), nbv := p.nbv, status := statusOf 0 0 p.det false false false, wbase := p.wbase,
    wsize := p.wsize, net := p.net, level := max (field (dword bs 8) 17 16) p.ceiling, ceiling := max (field (dword bs 8) 17 16) p.ceiling,
    dhold := bitAt (dword bs 8) 18 || p.ss, pst := if bitAt (dword bs 8) 18 || p.ss then .haltedDebug else .ready, shut := true, hold := [] }
/-- A child of a process with no access outstanding (R34, R36). -/
def Proc.childOf (p : Proc) (bs : List Byte) : Proc :=
  (List.range 4).foldl (fun q i => q.setReg (i + 1) (BitVec.ofNat 64 (dword bs (16 + 8 * i)))) (p.childBare bs)
/-- A binding moves from the parent to the child (R35). -/
def State.giveChan (p : Proc) (h k : Nat) (s : State) (i : Nat) : State :=
  match (p.chan i).role with
  | .writer => s.moveWriter h i k
  | _ => ((s.updChan h i fun _ => {}).updChan k i fun _ => { p.chan i with use := .plain }).updEp (((p.chan i).dest.rid).getD 0) fun x =>
      { x with owner := widOf k i }
/-- The bindings that a descriptor names move to the child. -/
def State.giveChans (s : State) (p : Proc) (h k : Nat) (bs : List Byte) : State :=
  (spawnNamed bs).foldl (State.giveChan p h k) ((spawnNamed bs).foldl (fun s i => s.plainChan h i) s)
/-- SPAWN completes with the child's handle (R34). -/
def State.spawnDone (s : State) (d : BitVec 5) (k : Nat) : State :=
  ((s.setReg d (BitVec.ofNat 64 k)).afterCycles 1 (.childRelease k)).retire 0x2C

section Checks
variable {s : State} {d a : BitVec 5} {bs : List Byte}

/-- The window of a descriptor that is not the process's (R34). -/
theorem spawn_unreadable {c : Cause} (free : s.free [a, d]) (strip : s.me.strip = none) (aligned : (s.reg a).toNat % 8 = 0)
    (window : s.readWindow (s.reg a) 64 = .error c) (cv : c ≠ .vown) (ct : c ≠ .softwareTrap) :
    ∃ t, exec (.spawn d a) s = .next t ∧ Parks s t c s.me.pc := by
  refine ⟨_, congrArg Host.Outcome.next ((State.withRegsCommit_free _ _ _ free strip).trans ?_),
    State.raise_parks s 0x2C c (FInfo.at (s.reg a).toNat) strip cv fun h => ct h.1⟩
  dsimp only
  rw [if_neg (not_not.2 aligned), window]

/-- The descriptor names a reader for another tile (R35). -/
def spawnFixed (p : Proc) (bs : List Byte) : Bool := (spawnNamed bs).any fun i => decide ((p.chan i).role = .reader ∧ spawnTile bs ≠ p.tile)
/-- What SPAWN does once its descriptor is read. -/
theorem spawn_reads (free : s.free [a, d]) (strip : s.me.strip = none) (aligned : (s.reg a).toNat % 8 = 0)
    (window : s.readWindow (s.reg a) 64 = .ok bs) (entry : dword bs 0 % 4 = 0) : exec (.spawn d a) s = .next
      (if s.myPart.inRect (spawnTile bs) = false ∨ spawnRsv bs = false ∨ spawnFixed s.me bs then s.raise 0x2C .protection
      else if (spawnNamed bs).any fun i => decide ((s.me.chan i).role = .unbound) then s.raise 0x2C .chanUnbound
      else match (spawnNamed bs).find? fun i => s.unsettled s.running i with
      | some i => (s.askArrived s.me.part (widOf s.running i)).block (.blockedWrite i) 0
      | none =>
        let u := (s.release s.running).1
        let x := u.create s.me.part (spawnTile bs) ((List.range 4).foldl (fun q i => q.setReg (i + 1) (BitVec.ofNat 64 (dword bs (16 + 8 * i))))
          { s.me.childBare bs with hold := (s.release s.running).2 })
        ((x.1.giveChans s.me s.running x.2 bs).bornBlock x.2).spawnDone d x.2) := by
  refine congrArg Host.Outcome.next ((State.withRegsCommit_free _ _ _ free strip).trans ?_)
  dsimp only
  rw [if_neg (not_not.2 aligned), window]
  dsimp only
  rw [if_neg (not_not.2 entry)]
  rfl

end Checks

/-- With nothing outstanding there is nothing to hand over. -/
theorem State.release_empty {s : State} {h : Nat} (cb : (s.tile (s.proc h).tile).cb = []) (reqs : s.reqs = []) : s.release h = (s, []) := by
  unfold State.release
  rw [State.cbDrainAll_empty s h cb]
  dsimp only
  rw [reqs]
  rfl

/-- A process with sequence number `q` stands on a tile (R29, R30). -/
def State.bornAt (s : State) (part tile q : Nat) (p : Proc) : State :=
  (s.updTile tile fun x => { x with
    nextSeq := nextSeq q
    slots := match s.freeSlot tile with
      | some i => Tab.put x.slots i (handleOf part tile q)
      | none => x.slots }).setProc (handleOf part tile q)
    { p with part := part, tile := tile, res := if (s.freeSlot tile).isSome then .resident else .swapped, slot := (s.freeSlot tile).getD 0, since := s.cycle }
theorem State.create_eq {s : State} {part tile q : Nat} (p : Proc) (next : (s.tile tile).nextSeq = q)
    (unused : ∀ e ∈ s.procs, e.2.tile = tile → e.1 % 2 ^ 17 ≠ q) : s.create part tile p = (s.bornAt part tile q p, handleOf part tile q) := by
  have none_ : (s.procs.any fun e => decide (e.2.tile = tile ∧ e.1 % 2 ^ 17 = q ∧ e.2.pst ≠ .exited)) = false := by
    rw [List.any_eq_false]
    intro e he
    simp only [decide_eq_true_eq]
    rintro ⟨on, same, -⟩
    exact unused e he on same
  have seq : s.liveSeq tile (s.procs.length + 1) (s.tile tile).nextSeq = q := by
    unfold State.liveSeq
    rw [next, none_]
    rfl
  unfold State.create
  rw [seq]
  rfl
theorem State.bornAt_proc (s : State) (part tile q : Nat) (p : Proc) : (s.bornAt part tile q p).proc (handleOf part tile q) =
    { p with part := part, tile := tile, res := if (s.freeSlot tile).isSome then .resident else .swapped, slot := (s.freeSlot tile).getD 0,
             since := s.cycle } := State.setProc_proc_same _ _ _
theorem State.bornAt_other (s : State) (part tile q : Nat) (p : Proc) {g : Nat} (ne : g ≠ handleOf part tile q) :
    (s.bornAt part tile q p).proc g = s.proc g := by
  refine (Tab.lookD_put s.procs (handleOf part tile q) g _ {}).trans ?_
  rw [if_neg (Ne.symm ne)]
  rfl
theorem State.bornAt_memory (s : State) (part tile q : Nat) (p : Proc) : SameMemory s (s.bornAt part tile q p) :=
  .of_tables rfl rfl rfl rfl rfl fun _ => rfl

/-- An access of a server is no process's business (R70). -/
theorem State.startReq_procs {s : State} {id k va : Nat} {r : Req} (look : Tab.look s.reqs id = some r) (place : r.place = .dram k va) :
    (s.startReq id).procs = s.procs := by
  have sent : ∀ (u : State) (x : Req), x.place = .dram k va → (u.sendReq id x).procs = u.procs := fun u x hx => by
    unfold State.sendReq
    rw [hx]
    rfl
  unfold State.startReq
  rw [look]
  dsimp only
  rw [place]
  dsimp only
  split
  · rfl
  · split
    · rfl
    · exact sent _ _ rfl
    · rfl
theorem State.send_procs {s : State} {k va : Nat} {r : Req} (place : r.place = .dram k va) : (s.send r).1.procs = s.procs := by
  unfold State.send
  dsimp only
  split
  · exact State.startReq_procs (Tab.look_put_same _ _ _) place
  · rfl
/-- A translation leaves processes alone (R98). -/
theorem State.xlate_procs (s : State) (t part va : Nat) (p : Perm) : (s.xlate t part va p).1.procs = s.procs := by
  unfold State.xlate
  split
  · rfl
  · split
    · rfl
    · split
      · rfl
      · split
        · unfold State.walkError
          split
          · rfl
          · exact State.send_procs rfl
        · rfl
theorem State.blockKey_procs (s : State) (h : Nat) (perm : Perm) : (s.blockKey h perm).1.procs = s.procs ∧ Quiet s (s.blockKey h perm).1 := by
  have q := Quiet.xlate s (s.proc h).tile (s.proc h).part ((s.part (s.proc h).part).blockAt h) perm
  have procs := s.xlate_procs (s.proc h).tile (s.proc h).part ((s.part (s.proc h).part).blockAt h) perm
  unfold State.blockKey
  dsimp only
  split
  · next v _ found => rw [found] at q procs; exact ⟨procs, q⟩
  · next v _ found => rw [found] at q procs; exact ⟨procs, q⟩

/-- The block of a child that is born non-resident is written at most (R36). -/
structure BornBlock (s t : State) (h : Nat) : Prop where
  proc : ∃ a b, t.proc h = { s.proc h with cbAt := a, cbState := b }
  others : ∀ g, g ≠ h → t.proc g = s.proc g
  running : t.running = s.running
  cycle : t.cycle = s.cycle
  sram : ∀ k, t.sramByte k = s.sramByte k
theorem State.bornBlock_resident {s : State} {h : Nat} (res : (s.proc h).res = .resident) : s.bornBlock h = s := by
  unfold State.bornBlock
  rw [if_pos res]
theorem State.writeBlock_born (s : State) (h k : Nat) : BornBlock s (s.writeBlock h k) h := by
  have rest := s.blockPut_rest (s.proc h) k
  rw [State.writeBlock_eq]
  generalize s.blockPut (s.proc h) k = u at rest ⊢
  have procs := congrArg State.procs rest
  have running := congrArg State.running rest
  have cycle := congrArg State.cycle rest
  have sram := congrArg State.sram rest
  have same : ∀ g, u.proc g = s.proc g := fun g => congrArg (fun ps : Tab Proc => Tab.lookD ps g {}) procs
  refine ⟨⟨_, _, by rw [State.updProc_proc_same, same]⟩, fun g hg => ?_, running, cycle, fun j => ?_⟩
  · rw [State.updProc_proc_other _ _ (Ne.symm hg), same]
  · exact congrArg (fun m => Memory.read m j) sram
theorem State.bornBlock_spec (s : State) (h : Nat) : BornBlock s (s.bornBlock h) h := by
  have refl : BornBlock s s h := ⟨⟨_, _, rfl⟩, fun _ _ => rfl, rfl, rfl, fun _ => rfl⟩
  unfold State.bornBlock
  split
  · exact refl
  · obtain ⟨procs, q⟩ := s.blockKey_procs h .store
    have same : ∀ u : State, u.procs = s.procs → Quiet s u → BornBlock s u h := fun u eq q => by
      have proc : ∀ g, u.proc g = s.proc g := fun g => by unfold State.proc; rw [eq]
      exact ⟨⟨_, _, proc h⟩, fun g _ => proc g, q.running, q.cycle, q.memory.sram⟩
    split
    · next u k found =>
      rw [found] at procs q
      obtain ⟨⟨a, b, proc⟩, others, running, cycle, sram⟩ := same u procs q
      have w := u.writeBlock_born h k
      obtain ⟨a', b', proc'⟩ := w.proc
      exact ⟨⟨a', b', by rw [proc', proc]⟩, fun g hg => (w.others g hg).trans (others g hg), w.running.trans running, w.cycle.trans cycle,
        fun j => (w.sram j).trans (sram j)⟩
    · next u c found =>
      rw [found] at procs q
      exact same u procs q

/-- SPAWN's last step changes the parent's destination alone, and the child may issue a cycle later (R372). -/
theorem State.spawnDone_only (s : State) (d : BitVec 5) (k : Nat) (ss : s.me.ss = false) :
    (s.spawnDone d k).reg d = (if d = 0 then 0 else .ofNat 64 k) ∧ OnlyRegs s (s.spawnDone d k) [d] (s.me.pc + 4) ∧
      (s.cycle + 1, .childRelease k) ∈ (s.spawnDone d k).events := by
  have eq : s.spawnDone d k = ((s.afterCycles 1 (.childRelease k)).setReg d (.ofNat 64 k)).jump 0x2C (s.me.pc + 4) := by
    unfold State.spawnDone State.retire
    have me : ((s.setReg d (.ofNat 64 k)).afterCycles 1 (.childRelease k)).me = s.me.setReg d.toNat (.ofNat 64 k) := State.setReg_me s d _
    rw [me, Proc.setReg_pc]
    rfl
  have ss' : ((s.setReg d (.ofNat 64 k)).afterCycles 1 (.childRelease k)).me.ss = false := by
    have me : ((s.setReg d (.ofNat 64 k)).afterCycles 1 (.childRelease k)).me = s.me.setReg d.toNat (.ofNat 64 k) := State.setReg_me s d _
    rw [me]
    unfold Proc.setReg
    split <;> exact ss
  obtain ⟨value, went, regs, special, memory, units, rest⟩ := State.setReg_jump (s.afterCycles 1 (.childRelease k)) 0x2C d (.ofNat 64 k) (s.me.pc + 4) ss
  refine ⟨eq ▸ value, eq ▸ ⟨went, ⟨regs.regs, regs.caps, regs.chans⟩, special, ⟨memory.sram, memory.hbm, memory.sramTag, memory.hbmTag⟩,
    ⟨units.vbank, units.mbank, units.treg, units.tsh, units.cbt, units.an, units.owners⟩,
    ⟨rest.running, rest.procs, rest.parts, rest.eps, rest.pcap, rest.pset, rest.hepset, rest.cycle⟩⟩, ?_⟩
  exact State.retire_events _ _ ss' _ (mem_insertDue _ _ _)

end Sys2Proof.Machine
end

section
/-! PROOFS. SPAWN: the fields of its descriptor, and the bindings that move to the child (R34, R35). -/

namespace Sys2Proof.Machine

theorem Proc.childOf_eq (p : Proc) (bs : List Byte) : ∃ r, p.childOf bs = { p.childBare bs with sregs := r } := ⟨_, rfl⟩
/-- The arguments of a child (R34). -/
theorem Proc.childOf_reg (p : Proc) (bs : List Byte) (j : Nat) (hj : j < 4) : (p.childOf bs).reg (j + 1) = .ofNat 64 (dword bs (16 + 8 * j)) := by
  have four : p.childOf bs = ((((p.childBare bs).setReg 1 (.ofNat 64 (dword bs 16))).setReg 2 (.ofNat 64 (dword bs 24))).setReg 3
    (.ofNat 64 (dword bs 32))).setReg 4 (.ofNat 64 (dword bs 40)) := rfl
  have cases_ : j = 0 ∨ j = 1 ∨ j = 2 ∨ j = 3 := by omega
  rw [four]
  rcases cases_ with rfl | rfl | rfl | rfl <;> simp [Proc.reg_setReg]
theorem Proc.childBare_det (p : Proc) (bs : List Byte) : (p.childBare bs).det = p.det ∧ (p.childBare bs).pl = 0 := by
  have bits : ∀ b, bitAt (statusOf 0 0 b false false false).toNat 4 = b ∧ (statusOf 0 0 b false false false).toNat % 4 = 0 := by decide
  exact bits p.det

/-- The descriptor's fields that must be zero are (Table 2.3). -/
theorem spawnRsv_ok {bs : List Byte} (entry : dword bs 0 < 2 ^ 48) (high : dword bs 8 / 2 ^ 19 % 2 ^ 29 = 0) (low : dword bs 8 / 2048 % 32 = 0)
    (z6 : dword bs 48 = 0) (z7 : dword bs 56 = 0) : spawnRsv bs = true := by
  unfold spawnRsv field
  refine decide_eq_true ⟨?_, ?_, ?_, z6, z7⟩
  · rw [Nat.div_eq_of_lt entry]; rfl
  · exact high
  · exact low
theorem spawnTile_eq (bs : List Byte) : spawnTile bs = dword bs 8 % 2048 := by simp [spawnTile, field]
theorem spawn_bit (bs : List Byte) (i : Nat) : bitAt (dword bs 8) (48 + i) = decide (dword bs 8 / 2 ^ 48 / 2 ^ i % 2 = 1) := by
  unfold bitAt
  rw [Nat.pow_add, Nat.div_div_eq_div_mul]
/-- A descriptor that names no binding, and one that names one. -/
theorem spawnNamed_none {bs : List Byte} (zero : dword bs 8 / 2 ^ 19 = 0) : spawnNamed bs = [] := by
  have high : dword bs 8 / 2 ^ 48 = 0 := by omega
  refine List.filter_eq_nil_iff.2 fun i _ => ?_
  rw [spawn_bit, high, Nat.zero_div]
  simp
theorem spawnNamed_one {bs : List Byte} {i : Nat} (hi : i < 16) (bit : dword bs 8 / 2 ^ 48 = 2 ^ i) : spawnNamed bs = [i] := by
  have bits : ∀ k : Fin 16, (List.range 16).filter (fun j => decide (2 ^ k.val / 2 ^ j % 2 = 1)) = [k.val] := by decide
  have same : spawnNamed bs = (List.range 16).filter fun j => decide (2 ^ i / 2 ^ j % 2 = 1) :=
    List.filter_congr fun j _ => by rw [spawn_bit, bit]
  exact same.trans (bits ⟨i, hi⟩)

/-- A binding has moved from process `h` to process `k`, with its register `x` (R35). -/
structure Given (s t : State) (h k i : Nat) (x : ChanReg) : Prop where
  parent : ∃ l, t.proc h = { s.proc h with chans := l }
  child : ∃ l, t.proc k = { s.proc k with chans := l }
  left : ∀ c, (t.proc h).chan c = if i = c then {} else (s.proc h).chan c
  taken : ∀ c, (t.proc k).chan c = if i = c then x else (s.proc k).chan c
  running : t.running = s.running
  memory : SameMemory s t

theorem State.updChan_proc (s : State) (h c g : Nat) (f : ChanReg → ChanReg) :
    (s.updChan h c f).proc g = if h = g then (s.proc h).setChan c (f ((s.proc h).chan c)) else s.proc g := State.updProc_proc s h g _

/-- A change of the two registers gives a binding. -/
theorem Given.of_updChan {s u t : State} {h k i : Nat} {x y : ChanReg} (ne : h ≠ k) (plain : u.proc h = (s.proc h).setChan i y)
    (same : u.proc k = s.proc k) (procs : t.procs = ((u.updChan h i fun _ => {}).updChan k i fun _ => x).procs) (running : t.running = s.running)
    (memory : SameMemory s t) : Given s t h k i x := by
  have proc : ∀ g, t.proc g = ((u.updChan h i fun _ => {}).updChan k i fun _ => x).proc g := fun g => by unfold State.proc; rw [procs]
  have mine : t.proc h = ((s.proc h).setChan i y).setChan i {} := by
    rw [proc, State.updChan_proc, if_neg (Ne.symm ne), State.updChan_proc, if_pos rfl, plain]
  have yours : t.proc k = (s.proc k).setChan i x := by
    rw [proc, State.updChan_proc, if_pos rfl, State.updChan_proc, if_neg ne, same]
  refine ⟨⟨_, mine⟩, ⟨_, yours⟩, fun c => ?_, fun c => ?_, running, memory⟩
  · rw [mine, Proc.chan_setChan]
    split
    · rfl
    · next other => rw [Proc.chan_setChan, if_neg other]
  · rw [yours, Proc.chan_setChan]

/-- A plain register stays as it is, and of the tile its monitors, ports and taps change at most (R126). -/
theorem State.plainChan_rest {s : State} {h c : Nat} (use : ((s.proc h).chan c).use = .plain) :
    (s.plainChan h c).eps = s.eps ∧ (s.plainChan h c).net = s.net ∧ (s.plainChan h c).running = s.running ∧
      (∀ g, g ≠ h → (s.plainChan h c).proc g = s.proc g) ∧ SameMemory s (s.plainChan h c) := by
  unfold State.plainChan
  dsimp only
  rw [use]
  dsimp only
  refine ⟨rfl, rfl, rfl, fun g hg => ?_, .of_tables rfl rfl rfl rfl rfl fun _ => rfl⟩
  rw [State.updChan_proc, if_neg (Ne.symm hg)]
  rfl

theorem State.flushPeer_quiet {s : State} (w : Nat) (net : s.net = []) : s.flushPeer w = s := by
  unfold State.flushPeer
  dsimp only
  rw [net]
  rfl
theorem State.renameWid_writers (s : State) (old new e : Nat) :
    ((s.renameWid old new).ep e).writers = (s.ep e).writers.map fun w => if w = old then new else w := by
  unfold State.ep State.renameWid Tab.lookD
  dsimp only
  rw [Tab.look_mapV]
  cases Tab.look s.eps e with
  | none => rfl
  | some x => rfl
/-- A writer binding to a reader of the package moves: its endpoint knows it by its new name (R35). -/
theorem State.moveWriter_tile {s : State} {h c k e : Nat} (net : s.net = []) (dest : ((s.proc h).chan c).dest = .tile e) :
    (s.moveWriter h c k).procs = ((s.updChan h c fun _ => {}).updChan k c fun _ => (s.proc h).chan c).procs ∧ (s.moveWriter h c k).running = s.running ∧
      SameMemory s (s.moveWriter h c k) ∧
      ((s.moveWriter h c k).ep e).writers = (s.ep e).writers.map fun w => if w = widOf h c then widOf k c else w := by
  unfold State.moveWriter
  rw [State.flushPeer_quiet _ net]
  dsimp only
  rw [dest]
  dsimp only
  refine ⟨rfl, rfl, .of_tables rfl rfl rfl rfl rfl fun _ => rfl, ?_⟩
  exact State.renameWid_writers _ _ _ e

section Moves
variable {s : State} {bs : List Byte} {h k i e : Nat}

theorem ChanReg.plain_eq {x : ChanReg} (use : x.use = .plain) : { x with use := .plain } = x := by
  cases x; cases use; rfl
/-- The one binding that a descriptor names moves to the child (R35). -/
theorem State.giveChans_one (ne : h ≠ k) (named : spawnNamed bs = [i]) (use : ((s.proc h).chan i).use = .plain) (dest : ((s.proc h).chan i).dest = .tile e)
    (net : s.net = []) (role : ((s.proc h).chan i).role = .writer ∨ ((s.proc h).chan i).role = .reader) :
    Given s (s.giveChans (s.proc h) h k bs) h k i ((s.proc h).chan i) ∧
      (((s.proc h).chan i).role = .writer → ((s.giveChans (s.proc h) h k bs).ep e).writers =
        (s.ep e).writers.map fun w => if w = widOf h i then widOf k i else w) ∧
      (((s.proc h).chan i).role = .reader → (s.giveChans (s.proc h) h k bs).ep e = { s.ep e with owner := widOf k i }) := by
  have one : s.giveChans (s.proc h) h k bs = State.giveChan (s.proc h) h k (s.plainChan h i) i := by
    unfold State.giveChans; rw [named]; rfl
  have mine : (s.plainChan h i).proc h = (s.proc h).setChan i ((s.proc h).chan i) := by
    rw [State.plainChan_proc, ChanReg.plain_eq use]
  obtain ⟨eps, net', running, others, memory⟩ := State.plainChan_rest use
  have ep : (s.plainChan h i).ep e = s.ep e := by unfold State.ep; rw [eps]
  rw [one]
  generalize s.plainChan h i = u at mine eps net' running others memory ep ⊢
  have reg : (u.proc h).chan i = (s.proc h).chan i := by rw [mine, Proc.chan_setChan, if_pos rfl]
  rcases role with writer | reader
  · obtain ⟨procs, run, mem, writers⟩ := State.moveWriter_tile (k := k) (net'.trans net) (by rw [reg]; exact dest)
    have move : State.giveChan (s.proc h) h k u i = u.moveWriter h i k := by unfold State.giveChan; rw [writer]
    rw [reg] at procs
    rw [move]
    refine ⟨.of_updChan ne mine (others k (Ne.symm ne)) procs (run.trans running) (memory.trans mem), fun _ => by rw [writers, ep], fun reader => ?_⟩
    rw [writer] at reader; cases reader
  · have move : State.giveChan (s.proc h) h k u i = ((u.updChan h i fun _ => {}).updChan k i fun _ => (s.proc h).chan i).updEp e fun x =>
        { x with owner := widOf k i } := by
      unfold State.giveChan; rw [reader, dest, ChanReg.plain_eq use]; rfl
    have mem : SameMemory u (((u.updChan h i fun _ => {}).updChan k i fun _ => (s.proc h).chan i).updEp e fun x => { x with owner := widOf k i }) :=
      .of_tables rfl rfl rfl rfl rfl fun _ => rfl
    rw [move]
    refine ⟨.of_updChan ne mine (others k (Ne.symm ne)) rfl running (memory.trans mem), fun writer => ?_, fun _ => ?_⟩
    · rw [reader] at writer; cases writer
    · rw [State.updEp_ep_same, ← ep]; rfl

end Moves

end Sys2Proof.Machine
end

section
/-! PROOFS. SPAWN with and without a binding that moves (R34 to R36, R372). -/

namespace Sys2Proof.Machine

/-- A descriptor in order, of a process with nothing outstanding, for a tile of its partition. -/
structure SpawnReady (s : State) (d a : BitVec 5) (bs : List Byte) (tile : Nat) : Prop where
  free : s.free [a, d]
  plain : s.plain
  aligned : (s.reg a).toNat % 8 = 0
  window : s.readWindow (s.reg a) 64 = .ok bs
  entry : dword bs 0 % 4 = 0
  fields : spawnRsv bs = true
  at_ : spawnTile bs = tile
  inside : s.myPart.inRect tile = true

section Spawn
variable {s : State} {d a : BitVec 5} {bs : List Byte} {tile q h : Nat}

/-- SPAWN with its checks passed (R34). -/
theorem SpawnReady.runs (r : SpawnReady s d a bs tile) (cb : (s.tile s.me.tile).cb = []) (reqs : s.reqs = []) (next : (s.tile tile).nextSeq = q)
    (unused : ∀ e ∈ s.procs, e.2.tile = tile → e.1 % 2 ^ 17 ≠ q) (name : handleOf s.me.part tile q = h) (movable : spawnFixed s.me bs = false)
    (bound : (spawnNamed bs).any (fun i => decide ((s.me.chan i).role = .unbound)) = false)
    (settled : ((spawnNamed bs).find? fun i => s.unsettled s.running i) = none) :
    exec (.spawn d a) s = .next ((((s.bornAt s.me.part tile q (s.me.childOf bs)).giveChans s.me s.running h bs).bornBlock h).spawnDone d h) := by
  have released : s.release s.running = (s, []) := State.release_empty cb reqs
  have created := State.create_eq (s.me.childOf bs) (part := s.me.part) next unused
  rw [name] at created
  have child : (List.range 4).foldl (fun q i => q.setReg (i + 1) (BitVec.ofNat 64 (dword bs (16 + 8 * i)))) { s.me.childBare bs with hold := [] } =
      s.me.childOf bs := rfl
  rw [spawn_reads r.free r.plain.2.1 r.aligned r.window r.entry, r.at_, r.inside, r.fields, movable, bound, settled, released]
  dsimp only
  rw [child, created]
  rfl

/-- What SPAWN gives a child. -/
structure Child (s t : State) (bs : List Byte) (tile h : Nat) : Prop where
  pc : (t.proc h).pc = .ofNat 48 (dword bs 0)
  args : ∀ j, j < 4 → (t.proc h).reg (j + 1) = .ofNat 64 (dword bs (16 + 8 * j))
  part : (t.proc h).part = s.me.part
  home : (t.proc h).tile = tile
  det : (t.proc h).det = s.me.det
  pl : (t.proc h).pl = 0
  wbase : (t.proc h).wbase = s.me.wbase
  wsize : (t.proc h).wsize = s.me.wsize
  level : (t.proc h).level = max (dword bs 8 / 2 ^ 16 % 4) s.me.ceiling
  pst : (t.proc h).pst = if dword bs 8 / 2 ^ 18 % 2 = 1 then .haltedDebug else .ready
  shut : (t.proc h).shut = true
  res : (t.proc h).res = if (s.freeSlot tile).isSome then .resident else .swapped

theorem State.bornAt_child (s : State) (bs : List Byte) (tile q : Nat) (ss : s.me.ss = false) :
    Child s (s.bornAt s.me.part tile q (s.me.childOf bs)) bs tile (handleOf s.me.part tile q) := by
  have proc := s.bornAt_proc s.me.part tile q (s.me.childOf bs)
  have args := s.me.childOf_reg bs
  obtain ⟨r, eq⟩ := s.me.childOf_eq bs
  obtain ⟨det, pl⟩ := s.me.childBare_det bs
  generalize s.bornAt s.me.part tile q (s.me.childOf bs) = t at proc ⊢
  rw [eq] at proc args
  refine ⟨by rw [proc]; rfl, fun j hj => ?_, by rw [proc], by rw [proc], ?_, ?_, by rw [proc]; rfl, by rw [proc]; rfl, by rw [proc]; rfl, ?_,
    by rw [proc]; rfl, by rw [proc]⟩
  · rw [proc]; exact args j hj
  · rw [proc]; exact det
  · rw [proc]; exact pl
  · have hold : (bitAt (dword bs 8) 18 || s.me.ss) = decide (dword bs 8 / 2 ^ 18 % 2 = 1) := by rw [ss, Bool.or_false]; rfl
    have pst : (s.me.childBare bs).pst = if bitAt (dword bs 8) 18 || s.me.ss then .haltedDebug else .ready := rfl
    rw [proc]
    refine pst.trans ?_
    rw [hold]
    simp

/-- A child's block and bindings change nothing else of it. -/
theorem Child.of_same {s u t : State} {bs : List Byte} {tile h : Nat} (c : Child s u bs tile h)
    (same : ∃ l x y, t.proc h = { u.proc h with chans := l, cbAt := x, cbState := y }) : Child s t bs tile h := by
  obtain ⟨l, x, y, e⟩ := same
  refine ⟨?_, fun j hj => ?_, ?_, ?_, ?_, ?_, ?_, ?_, ?_, ?_, ?_, ?_⟩ <;> rw [e]
  · exact c.pc
  · exact c.args j hj
  · exact c.part
  · exact c.home
  · exact c.det
  · exact c.pl
  · exact c.wbase
  · exact c.wsize
  · exact c.level
  · exact c.pst
  · exact c.shut
  · exact c.res

theorem handleOf_eq {part tile q h : Nat} (name : part * 2 ^ 28 + tile * 2 ^ 17 + q = h) : handleOf part tile q = h := name

/-- SPAWN without a binding that moves (R34, R36, R372). -/
theorem SpawnReady.alone (r : SpawnReady s d a bs tile) (named : spawnNamed bs = []) (cb : (s.tile s.me.tile).cb = []) (reqs : s.reqs = [])
    (next : (s.tile tile).nextSeq = q) (unused : ∀ e ∈ s.procs, e.2.tile = tile → e.1 % 2 ^ 17 ≠ q) (name : handleOf s.me.part tile q = h)
    (ne : h ≠ s.running) :
    ∃ t, exec (.spawn d a) s = .next t ∧ t.reg d = (if d = 0 then 0 else .ofNat 64 h) ∧ Child s t bs tile h ∧
      (s.cycle + 1, .childRelease h) ∈ t.events ∧ SameRegs s t [d] ∧ WentTo t (s.me.pc + 4) ∧
      (s.freeSlot tile ≠ none → SameMemory s t) ∧ ∀ k, t.sramByte k = s.sramByte k := by
  have fixed : spawnFixed s.me bs = false := by unfold spawnFixed; rw [named]; rfl
  have run := r.runs cb reqs next unused name fixed (by rw [named]; rfl) (by rw [named]; rfl)
  have born := s.bornAt_child bs tile q r.plain.1
  have memory := s.bornAt_memory s.me.part tile q (s.me.childOf bs)
  have mine : (s.bornAt s.me.part tile q (s.me.childOf bs)).proc s.running = s.me := s.bornAt_other _ _ _ _ (by rw [name]; exact Ne.symm ne)
  have running : (s.bornAt s.me.part tile q (s.me.childOf bs)).running = s.running := rfl
  have cycle : (s.bornAt s.me.part tile q (s.me.childOf bs)).cycle = s.cycle := rfl
  have gives : (s.bornAt s.me.part tile q (s.me.childOf bs)).giveChans s.me s.running h bs = s.bornAt s.me.part tile q (s.me.childOf bs) := by
    unfold State.giveChans; rw [named]; rfl
  rw [gives] at run
  rw [name] at born
  generalize s.bornAt s.me.part tile q (s.me.childOf bs) = u at run born memory mine running cycle
  have block := u.bornBlock_spec h
  have resident : s.freeSlot tile ≠ none → u.bornBlock h = u := fun slot =>
    State.bornBlock_resident (by rw [born.res, if_pos (Option.isSome_iff_ne_none.2 slot)])
  generalize u.bornBlock h = v at run block resident
  have vme : v.me = s.me := by unfold State.me; rw [block.running, running, block.others _ (Ne.symm ne)]; exact mine
  obtain ⟨value, only, due⟩ := v.spawnDone_only d h (by rw [vme]; exact r.plain.1)
  obtain ⟨x, y, proc⟩ := block.proc
  have kept : (v.spawnDone d h).proc h = v.proc h := only.rest.procs h (by rw [block.running, running]; exact ne)
  refine ⟨_, run, value, born.of_same ⟨(u.proc h).chans, x, y, by rw [kept, proc]⟩, ?_, ?_, ?_, fun slot => ?_, fun k => ?_⟩
  · rw [block.cycle, cycle] at due; exact due
  · exact ⟨fun g hg => (only.regs.regs g hg).trans (by unfold State.reg; rw [vme]), fun k => (only.regs.caps k).trans (by rw [vme]),
      fun c => (only.regs.chans c).trans (by rw [vme])⟩
  · rw [← vme]; exact only.went
  · rw [resident slot] at only ⊢
    exact memory.trans only.memory
  · rw [only.memory.sram, block.sram, memory.sram]

/-- What stands against a move: an unbound register, or a reader for another tile (R35). -/
theorem SpawnReady.refused {i : Nat} (r : SpawnReady s d a bs tile) (named : spawnNamed bs = [i]) :
    ((s.me.chan i).role = .unbound → ∃ t, exec (.spawn d a) s = .next t ∧ Parks s t .chanUnbound s.me.pc) ∧
    ((s.me.chan i).role = .reader → tile ≠ s.me.tile → ∃ t, exec (.spawn d a) s = .next t ∧ Parks s t .protection s.me.pc) := by
  have reads := spawn_reads r.free r.plain.2.1 r.aligned r.window r.entry
  refine ⟨fun unbound => ?_, fun reader away => ?_⟩
  · have fixed : spawnFixed s.me bs = false := by unfold spawnFixed; rw [named]; simp [unbound]
    have bound : (spawnNamed bs).any (fun i => decide ((s.me.chan i).role = .unbound)) = true := by rw [named]; simp [unbound]
    rw [r.at_, r.inside, r.fields, fixed, bound] at reads
    exact ⟨_, reads, State.raise_parks s 0x2C .chanUnbound {} r.plain.2.1 (by simp) (by simp)⟩
  · have fixed : spawnFixed s.me bs = true := by unfold spawnFixed; rw [named, r.at_]; simp [reader, away]
    rw [fixed] at reads
    exact ⟨_, reads.trans (congrArg Host.Outcome.next (if_pos (.inr (.inr rfl)))),
      State.raise_parks s 0x2C .protection {} r.plain.2.1 (by simp) (by simp)⟩

/-- Nothing of a channel without relays is on its way, where nothing is staged or waits at a link (R35, R218). -/
theorem State.settled_none {i : Nat} (staged : s.staged = []) (links : s.links = []) (hi : i < 16) (relay : (s.me.chan i).relayOut = 0) :
    s.unsettled s.running i = false := by
  have proc : widOf s.running i / 16 = s.running := by unfold widOf; omega
  have reg : widOf s.running i % 16 = i := by unfold widOf; omega
  have out : s.relaysOut (widOf s.running i) = false := by
    unfold State.relaysOut
    rw [proc, reg]
    exact decide_eq_false fun h => by
      have pos := h.2.2
      change 0 < (s.me.chan i).relayOut at pos
      omega
  unfold State.unsettled State.unsent
  rw [staged, links, out]
  rfl

/-- SPAWN with a binding that moves (R35). -/
theorem SpawnReady.moves {i e : Nat} (r : SpawnReady s d a bs tile) (named : spawnNamed bs = [i]) (hi : i < 16) (cb : (s.tile s.me.tile).cb = [])
    (reqs : s.reqs = []) (staged : s.staged = []) (links : s.links = []) (net : s.net = []) (dest : (s.me.chan i).dest = .tile e)
    (use : (s.me.chan i).use = .plain) (relay : (s.me.chan i).relayOut = 0) (next : (s.tile tile).nextSeq = q)
    (unused : ∀ e ∈ s.procs, e.2.tile = tile → e.1 % 2 ^ 17 ≠ q) (name : handleOf s.me.part tile q = h) (ne : h ≠ s.running)
    (slot : (s.freeSlot tile).isSome = true) (role : (s.me.chan i).role = .writer ∨ (s.me.chan i).role = .reader ∧ tile = s.me.tile) :
    ∃ t, exec (.spawn d a) s = .next t ∧ WentTo t (s.me.pc + 4) ∧ t.reg d = (if d = 0 then 0 else .ofNat 64 h) ∧ (t.proc h).pc = .ofNat 48 (dword bs 0) ∧
      (t.proc h).chan i = s.me.chan i ∧ (∀ k, k ≠ i → (t.proc h).chan k = {}) ∧ t.me.chan i = {} ∧ (∀ k, k ≠ i → t.me.chan k = s.me.chan k) ∧
      ((s.me.chan i).role = .writer → (t.ep e).writers = (s.ep e).writers.map fun w => if w = widOf s.running i then widOf h i else w) ∧
      ((s.me.chan i).role = .reader → t.ep e = { s.ep e with owner := widOf h i }) ∧ SameMemory s t := by
  have fixed : spawnFixed s.me bs = false := by
    unfold spawnFixed
    rw [named, r.at_]
    rcases role with writer | ⟨-, here⟩
    · simp [writer]
    · simp [here]
  have bound : (spawnNamed bs).any (fun i => decide ((s.me.chan i).role = .unbound)) = false := by
    rw [named]
    rcases role with writer | ⟨reader, -⟩
    · simp [writer]
    · simp [reader]
  have settled : ((spawnNamed bs).find? fun i => s.unsettled s.running i) = none := by
    rw [named, List.find?_cons_of_neg (by rw [State.settled_none staged links hi relay]; simp)]
    rfl
  have run := r.runs cb reqs next unused name fixed bound settled
  have born := s.bornAt_child bs tile q r.plain.1
  have memory := s.bornAt_memory s.me.part tile q (s.me.childOf bs)
  have mine : (s.bornAt s.me.part tile q (s.me.childOf bs)).proc s.running = s.me := s.bornAt_other _ _ _ _ (by rw [name]; exact Ne.symm ne)
  have running : (s.bornAt s.me.part tile q (s.me.childOf bs)).running = s.running := rfl
  have net' : (s.bornAt s.me.part tile q (s.me.childOf bs)).net = [] := net
  have eps : ∀ e, (s.bornAt s.me.part tile q (s.me.childOf bs)).ep e = s.ep e := fun _ => rfl
  have bare : ((s.bornAt s.me.part tile q (s.me.childOf bs)).proc (handleOf s.me.part tile q)).chans = [] := by rw [State.bornAt_proc]; rfl
  rw [name] at born bare
  generalize s.bornAt s.me.part tile q (s.me.childOf bs) = u at run born memory mine running net' eps bare
  have given := State.giveChans_one (s := u) (k := h) (e := e) (Ne.symm ne) named (by rw [mine]; exact use) (by rw [mine]; exact dest) net'
    (by rw [mine]; exact role.imp_right fun x => x.1)
  rw [mine] at given
  obtain ⟨moved, writers, owner⟩ := given
  generalize u.giveChans s.me s.running h bs = v at run moved writers owner
  obtain ⟨l, child⟩ := moved.child
  obtain ⟨m, parent⟩ := moved.parent
  rw [mine] at parent
  have resident : v.bornBlock h = v := State.bornBlock_resident (by rw [child]; exact born.res.trans (if_pos slot))
  rw [resident] at run
  have vrun : v.running = s.running := moved.running.trans running
  have vme : v.me = { s.me with chans := m } := by unfold State.me at parent ⊢; rw [vrun]; exact parent
  obtain ⟨value, only, -⟩ := v.spawnDone_only d h (by rw [vme]; exact r.plain.1)
  have kept : (v.spawnDone d h).proc h = v.proc h := only.rest.procs h (by rw [vrun]; exact ne)
  have left : ∀ c, v.me.chan c = if i = c then {} else s.me.chan c := fun c => by
    have e := moved.left c
    rw [mine] at e
    unfold State.me at e ⊢
    rw [vrun]
    exact e
  refine ⟨_, run, ?_, value, ?_, ?_, fun k hk => ?_, ?_, fun k hk => ?_, fun writer => ?_, fun reader => ?_, memory.trans (moved.memory.trans only.memory)⟩
  · have pc : v.me.pc = s.me.pc := by rw [vme]
    rw [← pc]; exact only.went
  · rw [kept, child]; exact born.pc
  · rw [kept, moved.taken, if_pos rfl]
  · rw [kept, moved.taken, if_neg (Ne.symm hk)]
    unfold Proc.chan
    rw [bare]
    rfl
  · rw [only.regs.chans, left, if_pos rfl]
  · rw [only.regs.chans, left, if_neg (Ne.symm hk)]
  · rw [only.rest.eps, writers writer, eps]
  · rw [only.rest.eps, owner reader, eps]

end Spawn

end Sys2Proof.Machine
end

section
/-! PROOFS. A reader's entry that is freed, and what its writers learn of it (R32, R37, R68). -/

namespace Sys2Proof.Machine

/-- Every register that had lost its reader has lost it, and is bound to what it was bound to. -/
def ChanReg.outlived (x y : ChanReg) : Prop := y.role = x.role ∧ y.dest = x.dest ∧ (x.gone = true → y.gone = true)
/-- From `s` to `t` writers may have lost their readers and processes may have parked; entries keep their slots, and memory is as before. -/
structure Dropped (s t : State) : Prop where
  chans : ∀ h c, ((s.proc h).chan c).outlived ((t.proc h).chan c)
  stock : ∀ e, (t.ep e).stock = (s.ep e).stock
  memory : SameMemory s t

theorem ChanReg.outlived.refl (x : ChanReg) : x.outlived x := ⟨rfl, rfl, id⟩
theorem ChanReg.outlived.of_ends {x y : ChanReg} (ends : y.ends = x.ends) : x.outlived y := by
  have role := congrArg ChanReg.role ends
  have dest := congrArg ChanReg.dest ends
  have gone := congrArg ChanReg.gone ends
  exact ⟨role, dest, fun g => gone.trans g⟩

namespace Dropped
theorem refl (s : State) : Dropped s s := ⟨fun _ _ => .refl _, fun _ => rfl, .refl s⟩
theorem trans {s t u : State} (a : Dropped s t) (b : Dropped t u) : Dropped s u where
  chans h c := by
    obtain ⟨ra, da, ga⟩ := a.chans h c
    obtain ⟨rb, db, gb⟩ := b.chans h c
    exact ⟨rb.trans ra, db.trans da, fun g => gb (ga g)⟩
  stock e := (b.stock e).trans (a.stock e)
  memory := a.memory.trans b.memory
theorem foldl {β : Type} (l : List β) (f : State → β → State) (h : ∀ s x, Dropped s (f s x)) : ∀ s, Dropped s (l.foldl f s) := by
  induction l with
  | nil => exact refl
  | cons x l ih => exact fun s => (h s x).trans (ih _)
theorem ifThen {s t : State} (c : Prop) (d : Decidable c) (q : Dropped s t) : Dropped s (@ite State c d t s) := by
  split
  · exact q
  · exact .refl s
theorem of_traffic {s t : State} (q : Traffic s t) : Dropped s t := ⟨fun h c => .of_ends (q.chans h c), q.eps, q.memory⟩
/-- A step that leaves processes and endpoints alone. -/
theorem of_same {s t : State} (proc : ∀ h, t.proc h = s.proc h) (ep : ∀ e, t.ep e = s.ep e) (memory : SameMemory s t) : Dropped s t :=
  ⟨fun h c => by rw [proc]; exact .refl _, fun e => by rw [ep], memory⟩
theorem updProc (s : State) (h : Nat) (f : Proc → Proc) (chans : ∀ c, ((s.proc h).chan c).outlived ((f (s.proc h)).chan c)) :
    Dropped s (s.updProc h f) := by
  refine ⟨fun k c => ?_, fun _ => rfl, .of_tables rfl rfl rfl rfl rfl fun _ => rfl⟩
  rw [State.updProc_proc]
  split
  · subst_vars; exact chans c
  · exact .refl _
theorem updPart (s : State) (n : Nat) (f : Partition → Partition) (key : ∀ q, (f q).key = q.key) : Dropped s (s.updPart n f) := by
  refine of_same (fun _ => rfl) (fun _ => rfl) (.of_tables rfl rfl rfl rfl rfl fun k => ?_)
  rw [State.updPart_part]
  split
  · subst_vars; exact key _
  · rfl
/-- A writer's register loses its reader (R37). -/
theorem goneChan (s : State) (h c : Nat) : Dropped s (s.updChan h c fun x => { x with gone := true }) := by
  refine updProc s h (fun p => p.setChan c { p.chan c with gone := true }) fun d => ?_
  rw [Proc.chan_setChan]
  split
  · subst_vars; exact ⟨rfl, rfl, fun _ => rfl⟩
  · exact .refl _
theorem restart (s : State) (h : Nat) : Dropped s (s.restart h) := by
  cases strip : (s.proc h).strip with
  | none => rw [State.restart_none s h strip]; exact refl s
  | some k =>
    have r := s.restart_some h k strip
    have sram := congrArg State.sram r.kept
    have hbm := congrArg State.hbm r.kept
    have epochs := congrArg State.hbmEpoch r.kept
    have sramTags := congrArg State.sramTags r.kept
    have hbmTags := congrArg State.hbmTags r.kept
    have part : ∀ n, (s.restart h).part n = s.part n := fun n => by have e := congrArg (fun u : State => u.part n) r.kept; exact e
    exact ⟨fun g c => .of_ends (r.chans g c), r.eps, .of_tables sram hbm epochs sramTags hbmTags fun n => by rw [part]⟩
theorem park (s : State) (h : Nat) (slots : List Word) (epc : BitVec 48) (cls : FClass) (fpc : BitVec 48) :
    Dropped s (s.park h slots epc cls fpc) := by
  have released := of_traffic (.of_quiet (Quiet.release s h))
  rw [State.park_eq s (s.release h).1 (s.release h).2 h slots epc cls fpc rfl]
  generalize (s.release h).1 = u at released ⊢
  have parked : Dropped u (u.parkProc h slots epc cls fpc) := updProc u h _ fun _ => .refl _
  generalize u.parkProc h slots epc cls fpc = v at parked ⊢
  have queued : Dropped v (v.queueRecord (u.proc h).tile (u.parkRec h slots (s.release h).2)) :=
    of_same (fun g => State.queueRecord_proc v _ g _ (h := h) rfl)
      (fun e => by rcases State.queueRecord_cases v (u.proc h).tile (u.parkRec h slots (s.release h).2) (h := h) rfl with q | q <;> rw [q] <;> rfl)
      (State.queueRecord_memory v _ _ (h := h) rfl)
  generalize v.queueRecord (u.proc h).tile (u.parkRec h slots (s.release h).2) = w at queued ⊢
  exact ((released.trans parked).trans queued).trans
    (of_same (fun g => State.failRun_proc w _ _ _ g) (fun e => State.failRun_ep w _ _ _ e) (State.failRun_memory w _ _ _))
/-- A writer that waits for credits of a reader that is gone parks (R32). -/
theorem raiseUnbound (s : State) (h : Nat) : Dropped s (s.raiseAt h 0x28 .chanUnbound {}) := (restart s h).trans (park _ h _ _ _ _)
end Dropped

/-- What one writer of a freed entry learns (R37). -/
def State.dropWriter (s : State) (e w : Nat) : State :=
  if isProcWid w then
    if ((s.proc (widProc w)).chan (widReg w)).role = .writer ∧ ((s.proc (widProc w)).chan (widReg w)).dest = .tile e then
      let s := s.updChan (widProc w) (widReg w) fun x => { x with gone := true }
      if (s.proc (widProc w)).pst = .blockedWrite (widReg w) ∧ (s.proc (widProc w)).need < waitOnly then s.raiseAt (widProc w) 0x28 .chanUnbound {} else s
    else s
  else if isRemoteWid w then s.ctrlSend (s.ridPart e) (remotePeer w) 6 (remoteOf w) e 0 0
  else s
theorem Dropped.dropWriter (s : State) (e w : Nat) : Dropped s (s.dropWriter e w) := by
  unfold State.dropWriter
  split
  · exact ifThen _ _ ((goneChan s _ _).trans (ifThen _ _ (raiseUnbound _ _)))
  · exact ifThen _ _ (of_traffic (Traffic.ctrlSend _ _ _ _ _ _ _ _))
theorem Dropped.dropWriters (s : State) (e : Nat) (ws : List Nat) : Dropped s (s.dropWriters e ws) := foldl _ _ (fun s w => dropWriter s e w) s

theorem widOf_proc {h k : Nat} (hk : k < 16) : widProc (widOf h k) = h := by unfold widProc widOf; omega
theorem widOf_reg {h k : Nat} (hk : k < 16) : widReg (widOf h k) = k := by unfold widReg widOf; omega
/-- A process's register that writes to the entry has lost its reader (R37). -/
theorem State.dropWriter_gone {s : State} {e h k : Nat} (hh : h < 2 ^ 32) (hk : k < 16) (role : ((s.proc h).chan k).role = .writer)
    (dest : ((s.proc h).chan k).dest = .tile e) : (((s.dropWriter e (widOf h k)).proc h).chan k).gone = true := by
  have mine : isProcWid (widOf h k) = true := decide_eq_true (by unfold widOf; omega)
  have lost : (((s.updChan h k fun x => { x with gone := true }).proc h).chan k).gone = true := by
    unfold State.updChan
    rw [State.updProc_proc_same s h fun p => p.setChan k { p.chan k with gone := true }, Proc.chan_setChan, if_pos rfl]
  unfold State.dropWriter
  rw [if_pos mine, widOf_proc hk, widOf_reg hk, if_pos ⟨role, dest⟩]
  dsimp only
  split
  · exact ((Dropped.raiseUnbound _ h).chans h k).2.2 lost
  · exact lost
theorem State.dropWriters_gone {e h k : Nat} (hh : h < 2 ^ 32) (hk : k < 16) : ∀ (ws : List Nat) (s : State), widOf h k ∈ ws →
    ((s.proc h).chan k).role = .writer → ((s.proc h).chan k).dest = .tile e → (((s.dropWriters e ws).proc h).chan k).gone = true
  | [], _, mem, _, _ => by cases mem
  | w :: ws, s, mem, role, dest => by
    have step := (Dropped.dropWriter s e w).chans h k
    obtain ⟨role', dest', -⟩ := step
    rcases List.mem_cons.1 mem with rfl | mem
    · exact ((Dropped.dropWriters (s.dropWriter e (widOf h k)) e ws).chans h k).2.2 (State.dropWriter_gone hh hk role dest)
    · exact State.dropWriters_gone hh hk ws (s.dropWriter e w) mem (role'.trans role) (dest'.trans dest)

/-- A store changes no byte that it does not name. -/
theorem State.sramStore_outside (k q : Nat) : ∀ (bs : List WByte) (s : State), (∀ b ∈ bs, k + b.off ≠ q) → (s.sramStore k bs).sramByte q = s.sramByte q
  | [], _, _ => rfl
  | b :: bs, s, out => by
    have first : k + b.off ≠ q := out b List.mem_cons_self
    refine (State.sramStore_outside k q bs _ fun x hx => out x (List.mem_cons_of_mem _ hx)).trans ?_
    exact (Memory.read_write _ _ _ _).trans (if_neg first)
/-- The bytes of an entry's buffer run (R55). -/
def State.inRun (s : State) (e k : Nat) : Prop :=
  e / 256 * 0x100000 + (s.ep e).run ≤ k ∧ k < e / 256 * 0x100000 + (s.ep e).run + 8 * (s.ep e).bcap
/-- An entry that leaves its run changes the run's bytes alone (R55, log 81). -/
structure RunLeft (s t : State) (e : Nat) : Prop where
  procs : t.procs = s.procs
  eps : t.eps = s.eps
  sram : ∀ k, (s.ep e).arrived = 0 ∨ ¬ s.inRun e k → t.sramByte k = s.sramByte k
  hbm : ∀ part k, t.hbmByte part k = s.hbmByte part k
theorem State.leaveRun_left (s : State) (e : Nat) : RunLeft s (s.leaveRun e) e := by
  unfold State.leaveRun
  dsimp only
  split
  · exact ⟨rfl, rfl, fun _ _ => rfl, fun _ _ => rfl⟩
  · next busy =>
    obtain ⟨m, tg, store⟩ := State.sramStore_eq (e / 256 * 0x100000 + (s.ep e).run)
      ((List.range (8 * (s.ep e).bcap)).map fun i => { off := i, val := Config.queueByte s.freeCtr i }) s
    refine ⟨by rw [store]; rfl, by rw [store]; rfl, fun k out => ?_, fun part k => by rw [store]; rfl⟩
    refine State.sramStore_outside _ k _ s fun b hb at_ => ?_
    obtain ⟨i, hi, rfl⟩ := List.mem_map.1 hb
    have small := List.mem_range.1 hi
    rcases out with zero | out
    · exact busy (.inl zero)
    · exact out ⟨by dsimp only at at_; omega, by dsimp only at at_; omega⟩

/-- A host endpoint has no credits left. -/
def State.hostSpent (s : State) (w : Nat) : State :=
  { s with hostEps := Tab.put s.hostEps (w - 2 ^ 40) { Tab.lookD s.hostEps (w - 2 ^ 40) {} with credits := 0 } }
theorem Dropped.hostSpent (s : State) (w : Nat) : Dropped s (s.hostSpent w) :=
  of_same (fun _ => rfl) (fun _ => rfl) (.of_tables rfl rfl rfl rfl rfl fun _ => rfl)
/-- Data on its way to a freed entry arrives nowhere (R68). -/
def State.strayed (s : State) (e : Nat) : State :=
  let stray (m : NetMsg) : NetMsg := match m.body with
    | .data _ => if m.dest = .tile e then { m with dest := .tile deadEp } else m
    | _ => m
  { s with net := s.net.map stray }
/-- A network in checking mode keeps the digest of an entry that goes (R126). -/
def State.digestKept (s : State) (e : Nat) : State :=
  let x := s.ep e
  let own := s.proc (x.owner / 16)
  if x.bound && !s.monitored e && decide (0 < s.checkOf own.part own.net) then
    s.updNet own.part own.net fun n => n.digested e x.digest x.arrived else s
/-- An entry's slots in the Caldera return to its partition (R76). -/
def State.slotsBack (s : State) (e : Nat) (x : Endpoint) : State :=
  match s.partOfTile (e / 256) with
  | some n => s.updPart n fun q => { q with calUsed := q.calUsed - (x.cap - x.bcap) }
  | none => s
/-- Whatever else names an entry that goes. -/
def State.unmarked (s : State) (e : Nat) : State :=
  let u := s.strayed e
  ((u.ep e).writers.filter fun w => decide (2 ^ 40 ≤ w ∧ w < 2 ^ 41)).foldl (fun s w => s.hostSpent w) ((u.digestKept e).slotsBack e (u.ep e))
theorem State.freeEntry_eq (s : State) (e : Nat) : s.freeEntry e = ((s.leaveRun e).unmarked e).updEp e fun x =>
    { writers := x.writers.filter fun w => decide (2 ^ 40 ≤ w ∧ w < 2 ^ 41) } := rfl
theorem Dropped.unmarked (s : State) (e : Nat) : Dropped s (s.unmarked e) := by
  have strayed : Dropped s (s.strayed e) := of_same (fun _ => rfl) (fun _ => rfl) (.of_tables rfl rfl rfl rfl rfl fun _ => rfl)
  have digest : ∀ u : State, Dropped u (u.digestKept e) := fun u => ifThen _ _ (updPart _ _ _ fun _ => rfl)
  have slots : ∀ (u : State) (x : Endpoint), Dropped u (u.slotsBack e x) := fun u x => by
    unfold State.slotsBack
    split
    · exact updPart _ _ _ fun _ => rfl
    · exact refl _
  exact ((strayed.trans (digest _)).trans (slots _ _)).trans (foldl _ _ (fun s w => hostSpent s w) _)

/-- A freed entry holds nothing, and its run's bytes are what is left there (R37, R55, R68). -/
structure Freed (s t : State) (e : Nat) : Prop where
  chans : ∀ h c, ((s.proc h).chan c).outlived ((t.proc h).chan c)
  bound : (t.ep e).bound = false
  queue : (t.ep e).queue = []
  sram : ∀ k, (s.ep e).arrived = 0 ∨ ¬ s.inRun e k → t.sramByte k = s.sramByte k
  hbm : ∀ part k, t.hbmByte part k = s.hbmByte part k
theorem Freed.trans {s t u : State} {e : Nat} (a : Freed s t e) (b : Dropped t u) : Freed s u e where
  chans h c := by
    obtain ⟨ra, da, ga⟩ := a.chans h c
    obtain ⟨rb, db, gb⟩ := b.chans h c
    exact ⟨rb.trans ra, db.trans da, fun g => gb (ga g)⟩
  bound := by have e := congrArg Endpoint.bound (b.stock e); exact e.trans a.bound
  queue := by have e := congrArg Endpoint.queue (b.stock e); exact e.trans a.queue
  sram k out := (b.memory.sram k).trans (a.sram k out)
  hbm part k := (b.memory.hbm part k).trans (a.hbm part k)
theorem State.freeEntry_freed (s : State) (e : Nat) : Freed s (s.freeEntry e) e := by
  have left := s.leaveRun_left e
  have marks := Dropped.unmarked (s.leaveRun e) e
  rw [State.freeEntry_eq]
  have proc : ∀ h, (s.leaveRun e).proc h = s.proc h := fun h => by unfold State.proc; rw [left.procs]
  generalize s.leaveRun e = u at left marks proc ⊢
  generalize u.unmarked e = v at marks ⊢
  have entry := v.updEp_ep_same e fun x => { writers := x.writers.filter fun w => decide (2 ^ 40 ≤ w ∧ w < 2 ^ 41) }
  refine ⟨fun h c => ?_, by rw [entry], by rw [entry], fun k out => ?_, fun part k => ?_⟩
  · have kept := marks.chans h c
    rw [proc] at kept
    exact kept
  · exact (marks.memory.sram k).trans (left.sram k out)
  · exact (marks.memory.hbm part k).trans (left.hbm part k)

/-- An entry whose reader ends is freed, and its writers learn of it (R37). -/
theorem State.killEntry_freed (s : State) (e : Nat) : Freed s (s.killEntry e) e := (s.freeEntry_freed e).trans (Dropped.dropWriters _ e _)
theorem State.killEntry_gone {s : State} {e h k : Nat} (hh : h < 2 ^ 32) (hk : k < 16) (mem : widOf h k ∈ (s.ep e).writers)
    (role : ((s.proc h).chan k).role = .writer) (dest : ((s.proc h).chan k).dest = .tile e) : (((s.killEntry e).proc h).chan k).gone = true := by
  obtain ⟨role', dest', -⟩ := (s.freeEntry_freed e).chans h k
  exact State.dropWriters_gone hh hk _ _ mem (role'.trans role) (dest'.trans dest)

end Sys2Proof.Machine
end

section
/-! PROOFS. EXIT (R37, R324, R333). -/

namespace Sys2Proof.Machine

/-- A process that may end has nothing outstanding: no open strip, no access, no pending token, no message on its way, no tap. -/
structure MayExit (s : State) : Prop where
  strip : s.me.strip = none
  cb : (s.tile s.me.tile).cb = []
  reqs : s.reqs = []
  binds : s.binds = []
  staged : s.staged = []
  taps : (s.tile s.me.tile).an.taps = []
  sent : ∀ e ∈ s.me.chans, s.unsent s.running e.1 = false
/-- The taps of the process are closed (R324). -/
def State.tapsClosed (s : State) : State :=
  s.updAn s.me.tile fun an => { an with taps := Tab.mapV (fun _ x => if x.h = s.running then { x with closing := true } else x) an.taps }
/-- The state in which a process that may end does so: its end is counted (R51). -/
def State.closing (s : State) : State := s.tapsClosed.countEvent s.me.tile 1 1
/-- A process that has drained its accesses and closed its taps waits for its tokens, its full slots, its messages and its accesses, in that
order, and ends when there are none. -/
def State.endsOrWaits (s : State) (h t : Nat) : State :=
  match s.tokenRegs h with
  | r :: rs => s.block (.blockedToken (rs.foldl min r)) 0
  | [] => match (s.tile t).an.taps.find? fun e => decide (e.2.h = h ∧ 32 ≤ e.2.count), s.me.chans.find? fun e => s.unsent h e.1 with
    | some e, _ => s.block (.blockedWrite e.2.ch) 1
    | none, some e => s.block (.blockedWrite e.1) 0
    | none, none =>
      if (s.staged.filter fun m => decide (m.h = h)).flatMap (fun m => m.after) ≠ [] then
        s.holdOn ((s.staged.filter fun m => decide (m.h = h)).flatMap fun m => m.after)
      else ((s.countEvent t 1 1).finishProcess h).noteExit h
theorem exec_exit {s : State} (may : MayExit s) : exec .exit s = .next ((s.closing.finishProcess s.running).noteExit s.running) := by
  obtain ⟨strip, cb, reqs, binds, staged, taps, sent⟩ := may
  have released : s.release s.running = (s, []) := State.release_empty cb reqs
  have taps' : (s.tile s.myTile).an.taps = [] := taps
  have run : exec .exit s = .next (s.tapsClosed.endsOrWaits s.running s.me.tile) := by
    change Host.Outcome.next (s.afterCommit _) = _
    rw [State.afterCommit_none _ _ strip]
    dsimp only
    rw [released]
    dsimp only
    rw [taps', List.filter_nil, List.foldl_nil]
    rfl
  have tokens : s.tapsClosed.tokenRegs s.running = [] := by
    unfold State.tokenRegs
    rw [show s.tapsClosed.binds = [] from binds]
    rfl
  have closed : (s.tapsClosed.tile s.me.tile).an.taps = [] := by
    unfold State.tapsClosed State.updAn
    rw [State.updTile_tile_same]
    dsimp only
    rw [taps]
    rfl
  have all : s.tapsClosed.me.chans.find? (fun e => s.tapsClosed.unsent s.running e.1) = none :=
    List.find?_eq_none.2 fun e he => by rw [show s.tapsClosed.unsent s.running e.1 = s.unsent s.running e.1 from rfl, sent e he]; decide
  rw [run]
  unfold State.endsOrWaits
  rw [tokens, closed, all, show s.tapsClosed.staged = [] from staged]
  rfl

theorem State.closing_proc (s : State) (h : Nat) : s.closing.proc h = s.proc h := by unfold State.closing; rw [State.countEvent_proc]; rfl
theorem State.closing_ep (s : State) (e : Nat) : s.closing.ep e = s.ep e := by unfold State.closing; rw [State.countEvent_ep]; rfl
theorem State.closing_memory (s : State) : SameMemory s s.closing := by
  unfold State.closing
  refine .of_tables ?_ ?_ ?_ ?_ ?_ fun n => ?_
  · rw [State.countEvent_sram]; rfl
  · rw [State.countEvent_hbm]; rfl
  · rw [State.countEvent_hbmEpoch]; rfl
  · rw [State.countEvent_sramTags]; rfl
  · rw [State.countEvent_hbmTags]; rfl
  · rw [State.countEvent_part]; rfl

/-- EXIT of a process with no register bound (R37). -/
theorem exit_bare {s : State} (may : MayExit s) (bare : s.me.bare) :
    ∃ t, exec .exit s = .next t ∧ (t.proc s.running).pst = .exited ∧ (t.proc s.running).caps = [] ∧ (t.proc s.running).slivers = [] ∧
      (t.proc s.running).pgrant = none ∧ (∀ e ∈ (t.tile s.me.tile).slots, e.2 ≠ s.running) ∧
      (∀ e ∈ (t.tile s.me.tile).owners, e.2 ≠ s.running) ∧ SameMemory s t := by
  have me : s.closing.proc s.running = s.me := s.closing_proc s.running
  have done := s.closing.finishProcess_bare s.running (by rw [me]; exact bare)
  obtain ⟨ending, proc⟩ := (s.closing.finishProcess s.running).noteExit_proc s.running s.running
  obtain ⟨-, tiles, -⟩ := (s.closing.finishProcess s.running).noteExit_rest s.running
  have tile : ((s.closing.finishProcess s.running).noteExit s.running).tile s.me.tile = (s.closing.finishProcess s.running).tile s.me.tile := by
    unfold State.tile; rw [tiles]
  have noted := (s.closing.finishProcess s.running).noteExit_memory s.running
  have slots := done.slots
  have owners := done.owners
  rw [me] at slots owners
  refine ⟨_, exec_exit may, ?_, ?_, ?_, ?_, ?_, ?_, (s.closing_memory.trans done.memory).trans noted⟩
  · rw [proc, done.proc]; rfl
  · rw [proc, done.proc]; rfl
  · rw [proc, done.proc]; rfl
  · rw [proc, done.proc]; rfl
  · rw [tile]; exact slots
  · rw [tile]; exact owners

/-- The state in which the channels of a process that ends are unbound (R37). -/
def State.vacated (s : State) : State := s.closing.unseated s.running
theorem State.vacated_spec (s : State) : Unseated s.closing s.vacated s.running := s.closing.unseated_spec s.running
theorem State.vacated_proc (s : State) (h : Nat) : s.vacated.proc h = s.proc h := (s.vacated_spec.proc h).trans (s.closing_proc h)
theorem State.vacated_ep (s : State) (e : Nat) : s.vacated.ep e = s.ep e := (s.vacated_spec.ep e).trans (s.closing_ep e)
theorem State.vacated_memory (s : State) : SameMemory s s.vacated := s.closing_memory.trans s.vacated_spec.memory

/-- A register of a process that ends is unbound (R37). -/
def State.unbindOne (s : State) (h : Nat) (e : Nat × ChanReg) : State :=
  match e.2.role, e.2.dest with
  | .reader, .tile ep => s.killEntry ep
  | .writer, _ => s.leaveReader h e.1
  | _, _ => s
theorem State.unbindAll_eq (s : State) (h : Nat) :
    s.unbindAll h = ((s.proc h).chans.foldl (fun s e => s.unbindOne h e) s).updProc h fun p => { p with chans := [] } := rfl

/-- Once a process's channels are unbound, EXIT changes it and what is due alone. -/
structure Exited (u t : State) (h : Nat) : Prop where
  pst : (t.proc h).pst = .exited
  chans : (t.proc h).chans = []
  others : ∀ g, g ≠ h → ∀ c, (t.proc g).chan c = (u.proc g).chan c
  ep : ∀ e, t.ep e = u.ep e
  memory : SameMemory u t
theorem State.buried (u : State) (h t : Nat) : Exited u (((u.updProc h fun p => { p with chans := [] }).dead h t).noteExit h) h := by
  have unbound : SameMemory u (u.updProc h fun p => { p with chans := [] }) := .of_tables rfl rfl rfl rfl rfl fun _ => rfl
  have procs : ∀ g, (u.updProc h fun p => { p with chans := [] }).proc g = if h = g then { u.proc h with chans := [] } else u.proc g :=
    fun g => State.updProc_proc u h g _
  have eps : (u.updProc h fun p => { p with chans := [] }).eps = u.eps := rfl
  generalize u.updProc h (fun p => { p with chans := [] }) = v at unbound procs eps ⊢
  have proc := v.dead_proc h t
  have memory := v.dead_memory h t
  obtain ⟨-, kept, -⟩ := v.dead_rest h t
  generalize v.dead h t = w at proc memory kept ⊢
  have noted := w.noteExit_proc h
  obtain ⟨-, -, still⟩ := w.noteExit_rest h
  refine ⟨?_, ?_, fun g hg c => ?_, fun e => ?_, (unbound.trans memory).trans (w.noteExit_memory h)⟩
  · obtain ⟨_, e⟩ := noted h
    rw [e, proc, if_pos rfl]
    rfl
  · obtain ⟨_, e⟩ := noted h
    rw [e, proc, if_pos rfl, procs, if_pos rfl]
    rfl
  · obtain ⟨_, e⟩ := noted g
    rw [e, proc, if_neg (Ne.symm hg), procs, if_neg (Ne.symm hg)]
    rfl
  · unfold State.ep
    rw [still, kept, eps]

/-- EXIT of a process with one register bound (R37). -/
theorem exit_one {s : State} {e : Nat × ChanReg} (may : MayExit s) (one : s.me.chans = [e]) :
    ∃ t, exec .exit s = .next t ∧ Exited (s.vacated.unbindOne s.running e) t s.running := by
  have chans : (s.vacated.proc s.running).chans = [e] := by rw [State.vacated_proc]; exact one
  have unbound := s.vacated.unbindAll_eq s.running
  rw [chans, List.foldl_cons, List.foldl_nil] at unbound
  refine ⟨_, exec_exit may, ?_⟩
  rw [State.finishProcess_eq, show s.closing.unseated s.running = s.vacated from rfl, unbound]
  exact State.buried _ _ _

/-- The only bound register of a process. -/
theorem Proc.chan_one {p : Proc} {c : Nat} {x : ChanReg} (one : p.chans = [(c, x)]) : p.chan c = x := by
  unfold Proc.chan
  rw [one]
  simp [Tab.lookD, Tab.look]

theorem State.foldl_eps {β : Type} (l : List β) (f : State → β → State) (kept : ∀ s x, (f s x).eps = s.eps) (s : State) : (l.foldl f s).eps = s.eps :=
  List.foldlRecOn l f (motive := fun u => u.eps = s.eps) rfl fun _ h _ _ => (kept _ _).trans h
theorem State.wake_eps (s : State) (h : Nat) (st : PState) : (s.wake h st).eps = s.eps := by unfold State.wake; split <;> rfl
/-- Credits that no request waits for are FREE (R56). -/
theorem State.addFree_ep (s : State) (e n : Nat) (served : (s.ep e).shortfalls = []) :
    (s.addFree e n).ep e = { s.ep e with free := (s.ep e).free + n } := by
  have entry := s.updEp_ep_same e fun x => { x with free := x.free + n }
  unfold State.addFree
  dsimp only
  generalize s.updEp e (fun x => { x with free := x.free + n }) = u at entry ⊢
  have all : u.serveAll e = u := by
    unfold State.serveAll
    rw [entry, served]
    rfl
  rw [all]
  have eps := State.foldl_eps u.procs (fun s e_1 => match e_1.2.pst with
    | .blockedWrite c => (match (e_1.2.chan c).dest with
      | .server _ => if e < 1048576 ∧ e_1.2.tile = e / 256 ∧ e_1.2.need < waitOnly then s.wake e_1.1 (.blockedWrite c) else s
      | _ => s)
    | _ => s) (fun s x => by
      split
      · split
        · split
          · exact State.wake_eps _ _ _
          · rfl
        · rfl
      · rfl) u
  rw [← entry]
  unfold State.ep
  exact congrArg (fun x => Tab.lookD x e {}) eps

/-- A writer that leaves a reader that is there gives its credits back (R68). -/
theorem State.leaveReader_ep {s : State} {h c e : Nat} (gone : ((s.proc h).chan c).gone = false) (use : ((s.proc h).chan c).use = .plain)
    (dest : ((s.proc h).chan c).dest = .tile e) (mem : widOf h c ∈ (s.ep e).writers) (served : (s.ep e).shortfalls = []) :
    ((s.leaveReader h c).ep e).free = (s.ep e).free + ((s.proc h).chan c).credits ∧
      ((s.leaveReader h c).ep e).writers = (s.ep e).writers.filter (· ≠ widOf h c) ∧ ((s.leaveReader h c).ep e).queue = (s.ep e).queue ∧
      SameMemory s (s.leaveReader h c) := by
  have contains : (s.ep e).writers.contains (widOf h c) = true := List.contains_iff_mem.2 mem
  have detached := s.updEp_ep_same e fun y => { y with
    writers := y.writers.filter (· ≠ widOf h c), shortfalls := y.shortfalls.filter fun q => decide (q.1 ≠ widOf h c),
    recalled := y.recalled.filter (· ≠ widOf h c) }
  have leaves : s.leaveReader h c = (s.updEp e fun y => { y with
      writers := y.writers.filter (· ≠ widOf h c), shortfalls := y.shortfalls.filter fun q => decide (q.1 ≠ widOf h c),
      recalled := y.recalled.filter (· ≠ widOf h c) }).addFree e ((s.proc h).chan c).credits := by
    unfold State.leaveReader
    dsimp only
    rw [gone, dest, use, if_neg Bool.false_ne_true]
    dsimp only [Dest.rid]
    rw [if_neg (c := ChanUse.plain = .monitor) (by decide)]
    exact if_pos (Or.inl contains)
  rw [leaves]
  have flow := (CreditFlow.updEp s e fun y => { y with
    writers := y.writers.filter (· ≠ widOf h c), shortfalls := y.shortfalls.filter fun q => decide (q.1 ≠ widOf h c),
    recalled := y.recalled.filter (· ≠ widOf h c) }).memory
  generalize s.updEp e _ = u at detached flow ⊢
  have freed := u.addFree_ep e ((s.proc h).chan c).credits (by rw [detached, served]; rfl)
  refine ⟨?_, ?_, ?_, flow.trans (CreditFlow.addFree u e _).memory⟩
  · rw [freed, detached]
  · rw [freed, detached]
  · rw [freed, detached]

/-- A binding of the only register of a process that may end (R37). -/
structure OneBound (s : State) (c e : Nat) (x : ChanReg) : Prop where
  may : MayExit s
  one : s.me.chans = [(c, x)]
  use : x.use = .plain
  gone : x.gone = false
  dest : x.dest = .tile e

/-- EXIT of a writer (R37, R68). -/
theorem OneBound.exit_writer {s : State} {c e : Nat} {x : ChanReg} (b : OneBound s c e x) (role : x.role = .writer)
    (mem : widOf s.running c ∈ (s.ep e).writers) (served : (s.ep e).shortfalls = []) :
    ∃ t, exec .exit s = .next t ∧ (t.proc s.running).pst = .exited ∧ (t.proc s.running).chans = [] ∧ (t.ep e).free = (s.ep e).free + x.credits ∧
      (t.ep e).writers = (s.ep e).writers.filter (· ≠ widOf s.running c) ∧ (t.ep e).queue = (s.ep e).queue ∧ SameMemory s t := by
  obtain ⟨t, run, done⟩ := exit_one b.may b.one
  have chan : (s.vacated.proc s.running).chan c = x := by rw [State.vacated_proc]; exact Proc.chan_one b.one
  have entry := s.vacated_ep e
  have memory := s.vacated_memory
  have left : s.vacated.unbindOne s.running (c, x) = s.vacated.leaveReader s.running c := by unfold State.unbindOne; rw [role]
  rw [left] at done
  generalize s.vacated = v at chan entry memory done
  obtain ⟨free, writers, queue, same⟩ := v.leaveReader_ep (h := s.running) (c := c) (e := e) (by rw [chan]; exact b.gone) (by rw [chan]; exact b.use)
    (by rw [chan]; exact b.dest) (by rw [entry]; exact mem) (by rw [entry]; exact served)
  rw [chan, entry] at free
  rw [entry] at writers queue
  exact ⟨t, run, done.pst, done.chans, by rw [done.ep]; exact free, by rw [done.ep]; exact writers, by rw [done.ep]; exact queue,
    (memory.trans same).trans done.memory⟩

/-- EXIT of a reader (R37, R55, R68). -/
theorem OneBound.exit_reader {s : State} {c e : Nat} {x : ChanReg} (b : OneBound s c e x) (role : x.role = .reader) :
    ∃ t, exec .exit s = .next t ∧ (t.proc s.running).pst = .exited ∧ (t.proc s.running).chans = [] ∧ (t.ep e).bound = false ∧ (t.ep e).queue = [] ∧
      (∀ h k, h < 2 ^ 32 → k < 16 → h ≠ s.running → widOf h k ∈ (s.ep e).writers → ((s.proc h).chan k).role = .writer →
        ((s.proc h).chan k).dest = .tile e → ((t.proc h).chan k).gone = true) ∧
      (∀ k, (s.ep e).arrived = 0 ∨ ¬ s.inRun e k → t.sramByte k = s.sramByte k) ∧ ∀ part k, t.hbmByte part k = s.hbmByte part k := by
  obtain ⟨t, run, done⟩ := exit_one b.may b.one
  have procs := s.vacated_proc
  have entry := s.vacated_ep e
  have memory := s.vacated_memory
  have left : s.vacated.unbindOne s.running (c, x) = s.vacated.killEntry e := by unfold State.unbindOne; rw [role, b.dest]
  rw [left] at done
  generalize s.vacated = v at procs entry memory done
  have freed := v.killEntry_freed e
  refine ⟨t, run, done.pst, done.chans, by rw [done.ep]; exact freed.bound, by rw [done.ep]; exact freed.queue,
    fun h k hh hk ne mem writer dest => ?_, fun k out => ?_, fun part k => ?_⟩
  · rw [done.others h ne]
    exact State.killEntry_gone hh hk (by rw [entry]; exact mem) (by rw [procs]; exact writer) (by rw [procs]; exact dest)
  · refine (done.memory.sram k).trans ((freed.sram k ?_).trans (memory.sram k))
    unfold State.inRun at out ⊢
    rw [entry]
    exact out
  · exact (done.memory.hbm part k).trans ((freed.hbm part k).trans (memory.hbm part k))

end Sys2Proof.Machine
end

section
/-! PROOFS. The obligation on SPAWN and EXIT. -/

namespace Sys2Proof.Machine

/-- Nothing of a process is on its way where nothing is staged or waits at a link (R37). -/
theorem State.unsent_none {s : State} (staged : s.staged = []) (links : s.links = []) (h c : Nat) : s.unsent h c = false := by
  unfold State.unsent
  rw [staged, links]
  rfl

/-- Settles O30: SPAWN passes its checks and gives the child what the descriptor names; EXIT vacates its place and unbinds its register. -/
theorem spawnExitResult : Obligations.SpawnExitResult := by
  unfold Obligations.SpawnExitResult
  refine ⟨?_, ?_, fun s d a c free strip aligned window cv ct => spawn_unreadable free strip aligned window cv ct, ?_, ?_⟩
  · intro s d a bs tile q h free plain aligned window entry word high low z6 z7 at_ inside cb reqs next unused name ne
    have ready : SpawnReady s d a bs tile :=
      ⟨free, plain, aligned, window, word, spawnRsv_ok entry (by rw [high, Nat.zero_mod]) low z6 z7, (spawnTile_eq bs).trans at_, inside⟩
    obtain ⟨t, run, value, child, due, regs, went, memory, sram⟩ := ready.alone (spawnNamed_none high) cb reqs next unused (handleOf_eq name) ne
    refine ⟨t, run, value, child.pc, child.args, child.part, child.home, child.det, child.pl, child.wbase, child.wsize, child.level, child.pst,
      child.shut, due, regs, went, fun slot => ⟨?_, memory slot⟩, fun full => ⟨?_, sram⟩⟩
    · exact child.res.trans (if_pos (Option.isSome_iff_ne_none.2 slot))
    · exact child.res.trans (if_neg (by rw [full]; decide))
  · intro s d a bs tile q h i e free plain aligned window entry word high low z6 z7 at_ inside hi bit
    have ready : SpawnReady s d a bs tile :=
      ⟨free, plain, aligned, window, word, spawnRsv_ok entry high low z6 z7, (spawnTile_eq bs).trans at_, inside⟩
    have named := spawnNamed_one hi bit
    obtain ⟨unbound, away⟩ := ready.refused named
    exact ⟨unbound, away, fun cb reqs staged links net dest use relay next unused name ne slot role =>
      ready.moves named hi cb reqs staged links net dest use relay next unused (handleOf_eq name) ne slot role⟩
  · intro s strip chans cb reqs binds staged taps _
    have may : MayExit s := ⟨strip, cb, reqs, binds, staged, taps, fun e he => by rw [chans] at he; cases he⟩
    exact exit_bare may fun e he => by rw [chans] at he; cases he
  · intro s c e x strip one hc _ use gone dest cb reqs binds staged links taps _
    have bound : OneBound s c e x := ⟨⟨strip, cb, reqs, binds, staged, taps, fun _ _ => State.unsent_none staged links _ _⟩, one, use, gone, dest⟩
    refine ⟨bound.exit_writer, fun reader _ => ?_⟩
    obtain ⟨t, run, pst, chans, free, queue, lost, sram, hbm⟩ := bound.exit_reader reader
    refine ⟨t, run, pst, chans, free, queue, lost, fun k out => sram k (out.imp_right fun outside run => ?_), hbm⟩
    rcases outside with below | above
    · exact absurd run.1 (Nat.not_le.2 below)
    · exact absurd run.2 (Nat.not_lt.2 above)

end Sys2Proof.Machine
end

section
/-! PROOFS. The message at the head of what is under way, and what credits and wake-ups leave (R56, R434). -/

namespace Sys2Proof.Machine

theorem takeFirst_head {α : Type} {f : α → Bool} {x : α} (l : List α) (hx : f x = true) : takeFirst f (x :: l) = some (x, l) := if_pos hx

/-- A state whose messages under way are those of a list. -/
def State.withNet (s : State) (l : List NetMsg) : State := { s with net := l }

section
variable {s : State} {h c e : Nat} {b : NetBody} {rest : List NetMsg}

theorem HeadMsg.reg_lt (m : HeadMsg s h c e b rest) : c < 16 := m.ids.2.1
theorem HeadMsg.proc_eq (m : HeadMsg s h c e b rest) : widProc (widOf h c) = h := widOf_proc m.reg_lt
theorem HeadMsg.reg_eq (m : HeadMsg s h c e b rest) : widReg (widOf h c) = c := widOf_reg m.reg_lt
theorem HeadMsg.isProc (m : HeadMsg s h c e b rest) : isProcWid (widOf h c) = true := by
  obtain ⟨hh, hc, -⟩ := m.ids
  exact decide_eq_true (by unfold widOf; omega)
theorem HeadMsg.notRemote (m : HeadMsg s h c e b rest) : isRemoteWid (widOf h c) = false := by
  obtain ⟨hh, hc, -⟩ := m.ids
  exact decide_eq_false (by unfold widOf; omega)
theorem HeadMsg.onTile (m : HeadMsg s h c e b rest) : e < 1048576 := by
  obtain ⟨-, -, he⟩ := m.ids
  omega
/-- The step that the message is about takes it. -/
theorem HeadMsg.take (m : HeadMsg s h c e b rest) :
    ∃ x : NetMsg, x.dest = .tile e ∧ x.body = b ∧ ∀ f : NetBody → Bool, f b = true → s.netTake (widOf h c) f = some (x, s.withNet rest) := by
  obtain ⟨x, net, wid, dest, body⟩ := m.head
  refine ⟨x, dest, body, fun f hf => ?_⟩
  unfold State.netTake
  rw [net, takeFirst_head rest (by simp [wid, body, hf])]
  rfl
end

theorem State.serveAll_none {s : State} {e : Nat} (none_ : (s.ep e).shortfalls = []) : s.serveAll e = s := by
  unfold State.serveAll
  rw [none_]
  rfl

/-- Credits go on their way to a writer of this package (R56, R434). -/
theorem State.grantCredit_mesh (s : State) (e n : Nat) {w : Nat} (here : isRemoteWid w = false) :
    ∃ m, OnMesh s (s.grantCredit e w n) m ∧ m.wid = w ∧ m.body = .credit n (s.ep e).bcap (s.ep e).once := by
  unfold State.grantCredit
  rw [if_neg (by rw [here]; decide)]
  exact ⟨_, OnMesh.netSend _ _ _ _, rfl, rfl⟩

/-- A request that FREE covers is served (R56). -/
theorem State.serveAll_grants {s : State} {e w n : Nat} (one : (s.ep e).shortfalls = [(w, n)]) (fits : n ≤ (s.ep e).free) (some_ : 0 < n) :
    s.serveAll e = (s.updEp e fun x => { x with shortfalls := [], free := x.free - n, recalled := [] }).grantCredit e w n := by
  unfold State.serveAll
  rw [one]
  dsimp only [List.length_cons, List.length_nil]
  unfold State.serve
  simp only [one, if_pos fits]
  unfold State.serve State.sendCredit
  exact if_neg (Nat.pos_iff_ne_zero.1 some_)
theorem State.ctrlSend_eps (s : State) (part peer kind w ep n more : Nat) : (s.ctrlSend part peer kind w ep n more).eps = s.eps := by
  have q : Quiet s (s.ctrlSend part peer kind w ep n more) := by
    unfold State.ctrlSend State.ctrlSendMore
    dsimp only
    split <;> exact Quiet.linkSend _ _ _ _ _ _ _ _
  have e := congrArg State.eps q.still
  exact e
/-- One that it does not cover waits (R56). -/
theorem State.serveAll_waits {s : State} {e w n : Nat} (one : (s.ep e).shortfalls = [(w, n)]) (lacks : (s.ep e).free < n) :
    ((s.serveAll e).ep e).free = (s.ep e).free ∧ ((s.serveAll e).ep e).shortfalls = [(w, n)] := by
  unfold State.serveAll
  rw [one]
  dsimp only [List.length_cons, List.length_nil]
  unfold State.serve
  simp only [one, if_neg (Nat.not_le.2 lacks)]
  generalize ((s.ep e).writers.filter _) = others
  have entry := s.updEp_ep_same e fun x => { x with recalled := x.recalled ++ others }
  generalize s.updEp e _ = u at entry ⊢
  have eps : ∀ f : State → Nat → State, (∀ s x, (f s x).eps = s.eps) → (others.foldl f u).ep e = u.ep e := fun f kept => by
    unfold State.ep; rw [State.foldl_eps others f kept u]
  rw [eps, entry]
  · exact ⟨rfl, one⟩
  · intro s x
    split
    · exact s.ctrlSend_eps _ _ _ _ _ _ _
    · exact (OnMesh.netSend _ _ _ _).eps

/-- A state without its processes, and a process without its scheduling. -/
def State.procless (s : State) : State := { s with procs := [] }
def Proc.unsched (p : Proc) : Proc := { p with pst := .ready, epoch := 0, since := 0 }
/-- From `s` to `t` processes have woken, and nothing else has changed. -/
structure Woken (s t : State) : Prop where
  rest : t.procless = s.procless
  procs : ∀ h, (t.proc h).unsched = (s.proc h).unsched

namespace Woken
theorem refl (s : State) : Woken s s := ⟨rfl, fun _ => rfl⟩
theorem trans {s t u : State} (a : Woken s t) (b : Woken t u) : Woken s u := ⟨b.rest.trans a.rest, fun h => (b.procs h).trans (a.procs h)⟩
theorem foldl {β : Type} (l : List β) (f : State → β → State) (h : ∀ s x, Woken s (f s x)) : ∀ s, Woken s (l.foldl f s) := by
  induction l with
  | nil => exact refl
  | cons x l ih => exact fun s => (h s x).trans (ih _)
theorem goto (s : State) (h : Nat) (st : PState) : Woken s (s.goto h st) := by
  refine ⟨rfl, fun k => ?_⟩
  unfold State.goto
  rw [State.updProc_proc]
  split
  · subst_vars; rfl
  · rfl
theorem ifThen {s t : State} (c : Prop) (d : Decidable c) (q : Woken s t) : Woken s (@ite State c d t s) := by
  split
  · exact q
  · exact .refl s
theorem wake (s : State) (h : Nat) (st : PState) : Woken s (s.wake h st) := ifThen _ _ (goto s h .ready)
/-- Slots that fall FREE are served, and then processes wake (R56, R72). -/
theorem addFree (s : State) (e n : Nat) : Woken ((s.updEp e fun x => { x with free := x.free + n }).serveAll e) (s.addFree e n) := by
  unfold State.addFree
  refine foldl _ _ (fun s x => ?_) _
  split
  · split
    · exact ifThen _ _ (wake _ _ _)
    · exact refl s
  · exact refl s

variable {s t : State}
theorem ep (q : Woken s t) (e : Nat) : t.ep e = s.ep e := by have x := congrArg (fun u : State => u.ep e) q.rest; exact x
theorem net (q : Woken s t) : t.net = s.net := by have x := congrArg State.net q.rest; exact x
theorem chan (q : Woken s t) (h c : Nat) : (t.proc h).chan c = (s.proc h).chan c := by
  have x := congrArg (fun p : Proc => p.chan c) (q.procs h); exact x
end Woken

end Sys2Proof.Machine
end

section
/-! PROOFS. Registrations of writers (R308, R309, R434). -/

namespace Sys2Proof.Machine

section
variable {s : State} {h c e : Nat} {rest : List NetMsg}

theorem exec_writerRegistration {det : Bool} (m : HeadMsg s h c e (.register det) rest) : exec (.writerRegistration (widOf h c)) s = .next (
    if det = true ∧ (s.ep e).writers ≠ [] then (s.withNet rest).refuseWriter h c
    else ((s.withNet rest).recordWriter e (widOf h c)).bindDone h c) := by
  obtain ⟨x, dest, body, take⟩ := m.take
  obtain ⟨role, dest'⟩ := m.writer
  have det' : decide (NetBody.register det = .register true) = det := by cases det <;> rfl
  refine congrArg Host.Outcome.next ?_
  rw [take _ rfl]
  dsimp only
  rw [dest, body, det']
  dsimp only [Dest.rid]
  rw [if_pos (Or.inl m.onTile), if_pos m.isProc, m.proc_eq, m.reg_eq, if_neg (by rintro (a | a); exacts [a role, a dest'])]
  rfl

/-- A registration is recorded, and every FREE slot goes to the writer (R56, R434). -/
theorem State.recordWriter_grants {s : State} {e w : Nat} (bound : (s.ep e).bound = true) (served : (s.ep e).shortfalls = [])
    (here : isRemoteWid w = false) : ∃ m, (s.recordWriter e w).net = s.net ++ [m] ∧ m.wid = w ∧
      m.body = .credit (s.ep e).free (s.ep e).bcap (s.ep e).once ∧ ((s.recordWriter e w).ep e).writers = (s.ep e).writers ++ [w] ∧
      ((s.recordWriter e w).ep e).free = 0 ∧ ∀ h, (s.recordWriter e w).proc h = s.proc h := by
  have entry := s.updEp_ep_same e fun x => { x with writers := x.writers ++ [w], free := 0, came := Tab.cut x.came w }
  obtain ⟨m, mesh, wid, body⟩ := (s.updEp e fun x => { x with writers := x.writers ++ [w], free := 0, came := Tab.cut x.came w }).grantCredit_mesh e
    (s.ep e).free here
  rw [entry] at body
  have record : s.recordWriter e w =
      (s.updEp e fun x => { x with writers := x.writers ++ [w], free := 0, came := Tab.cut x.came w }).grantCredit e w (s.ep e).free := by
    unfold State.recordWriter
    dsimp only
    rw [if_pos bound, if_neg (by rw [here]; decide)]
    exact State.serveAll_none (by rw [mesh.ep, entry]; exact served)
  rw [record]
  refine ⟨m, mesh.net, wid, body, ?_, ?_, fun h => mesh.proc h⟩
  · rw [mesh.ep, entry]
  · rw [mesh.ep, entry]

/-- The register of a recorded writer says so; a CBIND of determinate mode completes (R309). -/
theorem State.bindDone_spec (s : State) (h c : Nat) (steps : (s.proc h).det = true → (s.proc h).ss = false) :
    (s.bindDone h c).net = s.net ∧ (s.bindDone h c).eps = s.eps ∧ ((s.bindDone h c).proc h).chan c = { (s.proc h).chan c with registered := true } ∧
      ((s.proc h).det = true → (s.proc h).pst = .blockedWrite c → (s.proc h).need = waitOnly →
        ((s.bindDone h c).proc h).pc = (s.proc h).pc + 4 ∧ ((s.bindDone h c).proc h).pst = .ready) := by
  have proc := s.updChan_proc_same h c fun x => { x with registered := true }
  by_cases waits : (s.proc h).pst = .blockedWrite c ∧ (s.proc h).need = waitOnly ∧ (s.proc h).det
  · have done : s.bindDone h c = (s.updChan h c fun x => { x with registered := true }).completeAt h 0x28 ((s.proc h).pc + 4) := if_pos waits
    rw [done, State.completeAt_plain _ _ _ _ (by rw [proc]; exact steps waits.2.2)]
    have at_ : (((s.updChan h c fun x => { x with registered := true }).updProc h fun q => q.completed s.cycle ((s.proc h).pc + 4)).proc h) =
        ((s.proc h).setChan c { (s.proc h).chan c with registered := true }).completed s.cycle ((s.proc h).pc + 4) := by
      rw [State.updProc_proc_same, proc]
    rw [State.countEvent_proc, State.countEvent_net, State.countEvent_eps, show (s.updChan h c fun x => { x with registered := true }).cycle = s.cycle from rfl, at_]
    exact ⟨rfl, rfl, Proc.chan_setChan_same _ _ _, fun _ _ _ => ⟨rfl, rfl⟩⟩
  · have done : s.bindDone h c = s.updChan h c fun x => { x with registered := true } := if_neg waits
    rw [done, proc]
    exact ⟨rfl, rfl, Proc.chan_setChan_same _ _ _, fun det pst need => absurd ⟨pst, need, det⟩ waits⟩

theorem registrationRecorded (m : HeadMsg s h c e (.register (s.proc h).det) rest) (bound : (s.ep e).bound = true) (served : (s.ep e).shortfalls = [])
    (first : (s.proc h).det = true → (s.ep e).writers = [] ∧ (s.proc h).ss = false) :
    ∃ t, exec (.writerRegistration (widOf h c)) s = .next t ∧ (t.ep e).writers = (s.ep e).writers ++ [widOf h c] ∧ (t.ep e).free = 0 ∧
      (∃ m, t.net = rest ++ [m] ∧ m.wid = widOf h c ∧ m.body = .credit (s.ep e).free (s.ep e).bcap (s.ep e).once) ∧
      (t.proc h).chan c = { (s.proc h).chan c with registered := true } ∧
      ((s.proc h).det = true → (s.proc h).pst = .blockedWrite c → (s.proc h).need = waitOnly →
        (t.proc h).pc = (s.proc h).pc + 4 ∧ (t.proc h).pst = .ready) := by
  have run := exec_writerRegistration m
  rw [if_neg fun second => second.2 (first second.1).1] at run
  obtain ⟨x, net, wid, body, writers, free, procs⟩ := State.recordWriter_grants (s := s.withNet rest) bound served m.notRemote
  refine ⟨_, run, ?_⟩
  generalize (s.withNet rest).recordWriter e (widOf h c) = u at net writers free procs
  have same : u.proc h = s.proc h := procs h
  obtain ⟨net', eps, chan, done⟩ := u.bindDone_spec h c (by rw [same]; exact fun det => (first det).2)
  have entry : (u.bindDone h c).ep e = u.ep e := by unfold State.ep; rw [eps]
  rw [same] at chan done
  exact ⟨by rw [entry]; exact writers, by rw [entry]; exact free, ⟨x, by rw [net']; exact net, wid, body⟩, chan, done⟩

/-- A process with no store in the combining buffer drains nothing. -/
theorem State.cbDrainAll_foreign {s : State} {h : Nat} (cb : ∀ x ∈ (s.tile (s.proc h).tile).cb, x.2.h ≠ h) : s.cbDrainAll h = s := by
  have none_ : (s.tile (s.proc h).tile).cb.filter (fun e => decide (e.2.h = h)) = [] :=
    List.filter_eq_nil_iff.2 fun x hx own => cb x hx (of_decide_eq_true own)
  unfold State.cbDrainAll
  dsimp only
  rw [none_]
  rfl
theorem State.failRun_eps (s : State) (part net tile : Nat) : (s.failRun part net tile).eps = s.eps := by
  rcases s.failRun_cases part net tile with e | ⟨f, i, e, _⟩ <;> rw [e]; rfl
theorem State.queueRecord_eps (s : State) (t : Nat) (r : FRec) {h : Nat} (hk : r.kind = .instr h) : (s.queueRecord t r).eps = s.eps := by
  rcases s.queueRecord_cases t r hk with e | e <;> rw [e] <;> rfl
/-- A fault of a process with no open strip and no store in the combining buffer parks it, and leaves its registers and every entry as they
are (R230, R231). -/
theorem State.raiseAt_parked {s : State} {h : Nat} (op : Nat) {cause : Cause} (x : FInfo) (strip : (s.proc h).strip = none)
    (cb : ∀ x ∈ (s.tile (s.proc h).tile).cb, x.2.h ≠ h) (vown : cause ≠ .vown) (trap : cause ≠ .softwareTrap) :
    ((s.raiseAt h op cause x).proc h).pst = .parkedFault ∧ ((s.raiseAt h op cause x).proc h).frec.toNat % 256 = cause.code ∧
      ((s.raiseAt h op cause x).proc h).chans = (s.proc h).chans ∧ (s.raiseAt h op cause x).eps = s.eps := by
  obtain ⟨d, more, n, -, head⟩ := recordOf_head h op cause x (s.proc h).pc (s.proc h).pc
  have parks : s.raiseAt h op cause x = s.park h (recordOf h op cause x (s.proc h).pc (s.proc h).pc) (s.proc h).pc
      (if (s.proc h).strip.isSome ∨ x.vec then .strip else .precise) (s.proc h).pc := by
    unfold State.raiseAt
    dsimp only
    rw [s.restart_none h strip, if_neg (by simp [vown, trap]), if_neg vown, strip]
    rfl
  have same : s.cbDrainAll h = s := State.cbDrainAll_foreign cb
  have release : s.release h = (s, (s.release h).2) := Prod.ext same rfl
  rw [parks, s.park_eq s _ h _ _ _ _ release]
  have proc := s.parkProc_proc h (recordOf h op cause x (s.proc h).pc (s.proc h).pc) (s.proc h).pc
    (if (s.proc h).strip.isSome ∨ x.vec then .strip else .precise) (s.proc h).pc
  rw [State.failRun_proc, State.failRun_eps, State.queueRecord_proc _ _ _ _ (h := h) rfl, State.queueRecord_eps _ _ _ (h := h) rfl, proc, head]
  exact ⟨rfl, recSlot0_cause _ _ _ _ _ _, rfl, rfl⟩

/-- In determinate mode a second writer is refused (R20, R309). -/
theorem registrationRefused (m : HeadMsg s h c e (.register (s.proc h).det) rest) (second : (s.ep e).writers ≠ []) (det : (s.proc h).det = true)
    (waits : (s.proc h).pst = .blockedWrite c) (strip : (s.proc h).strip = none) (cb : ∀ x ∈ (s.tile (s.proc h).tile).cb, x.2.h ≠ h) :
    ∃ t, exec (.writerRegistration (widOf h c)) s = .next t ∧ (t.proc h).chan c = {} ∧ (t.proc h).pst = .parkedFault ∧
      (t.proc h).frec.toNat % 256 = Cause.detViolation.code ∧ (t.ep e).writers = (s.ep e).writers := by
  have run := exec_writerRegistration m
  rw [if_pos ⟨det, second⟩] at run
  have proc : ((s.withNet rest).updProc h fun p => p.setChan c {}).proc h = (s.proc h).setChan c {} := State.updProc_proc_same _ _ _
  have refuse : (s.withNet rest).refuseWriter h c = ((s.withNet rest).updProc h fun p => p.setChan c {}).raiseAt h 0x28 .detViolation {} := by
    unfold State.refuseWriter
    exact if_pos (by rw [proc]; exact waits)
  rw [refuse] at run
  obtain ⟨pst, code, chans, eps⟩ := State.raiseAt_parked (s := (s.withNet rest).updProc h fun p => p.setChan c {}) (h := h) 0x28
    (cause := .detViolation) {} (by rw [proc]; exact strip) (by rw [proc]; exact cb) (by decide) (by decide)
  refine ⟨_, run, ?_, pst, code, ?_⟩
  · rw [Proc.chan_congr chans, proc, Proc.chan_setChan_same]
  · unfold State.ep
    rw [eps]
    rfl
end

end Sys2Proof.Machine
end

section
/-! PROOFS. Shortfalls, recalls and credits (R56, R434). -/

namespace Sys2Proof.Machine

section
variable {s : State} {h c e : Nat} {rest : List NetMsg}

/-- A request that joins no other is the only one (R56). -/
theorem askFor_first (w n : Nat) : askFor w n [] = [(w, n)] := rfl

theorem shortfallServed {n : Nat} (m : HeadMsg s h c e (.shortfall n) rest) (writer : widOf h c ∈ (s.ep e).writers) (none_ : (s.ep e).shortfalls = [])
    (some_ : 0 < n) : ∃ t, exec (.shortfallRequest (widOf h c)) s = .next t ∧
      (n ≤ (s.ep e).free → (t.ep e).free = (s.ep e).free - n ∧ (t.ep e).shortfalls = [] ∧
        ∃ m, t.net = rest ++ [m] ∧ m.wid = widOf h c ∧ m.body = .credit n (s.ep e).bcap (s.ep e).once) ∧
      ((s.ep e).free < n → (t.ep e).free = (s.ep e).free ∧ (t.ep e).shortfalls = [(widOf h c, n)]) := by
  obtain ⟨x, dest, body, take⟩ := m.take
  have asked := (s.withNet rest).updEp_ep_same e fun y => { y with shortfalls := askFor (widOf h c) n y.shortfalls }
  have run : exec (.shortfallRequest (widOf h c)) s = .next
      (((s.withNet rest).updEp e fun y => { y with shortfalls := askFor (widOf h c) n y.shortfalls }).serveAll e) := by
    refine congrArg Host.Outcome.next ?_
    rw [take _ rfl]
    dsimp only
    rw [dest, body]
    exact if_pos (List.contains_iff_mem.2 writer)
  have net : ((s.withNet rest).updEp e fun y => { y with shortfalls := askFor (widOf h c) n y.shortfalls }).net = rest := rfl
  generalize (s.withNet rest).updEp e _ = u at asked run net
  have one : (u.ep e).shortfalls = [(widOf h c, n)] := by rw [asked]; exact congrArg (askFor (widOf h c) n) none_
  refine ⟨_, run, fun fits => ?_, fun lacks => ?_⟩
  · rw [State.serveAll_grants one (by rw [asked]; exact fits) some_]
    have paid := u.updEp_ep_same e fun x => { x with shortfalls := [], free := x.free - n, recalled := [] }
    obtain ⟨y, mesh, wid, credit⟩ :=
      (u.updEp e fun x => { x with shortfalls := [], free := x.free - n, recalled := [] }).grantCredit_mesh e n m.notRemote
    rw [paid, asked] at credit
    rw [mesh.ep, paid, asked]
    exact ⟨rfl, rfl, y, by rw [mesh.net]; exact congrArg (· ++ [y]) net, wid, credit⟩
  · obtain ⟨free, waits⟩ := State.serveAll_waits one (by rw [asked]; exact lacks)
    rw [asked] at free
    exact ⟨free, waits⟩

/-- A recall has come to a writer: every credit has left its register, and the reader expects no more of it (R56). -/
def State.recallTaken (s : State) (rest : List NetMsg) (h c e : Nat) : State :=
  ((s.withNet rest).updChan h c fun x => { x with credits := 0 }).updEp e fun y => { y with recalled := y.recalled.filter (· ≠ widOf h c) }
theorem State.recallTaken_ep (s : State) (rest : List NetMsg) (h c e : Nat) :
    (s.recallTaken rest h c e).ep e = { s.ep e with recalled := (s.ep e).recalled.filter (· ≠ widOf h c) } := State.updEp_ep_same _ _ _
theorem State.recallTaken_chan (s : State) (rest : List NetMsg) (h c e : Nat) : (((s.recallTaken rest h c e).proc h).chan c).credits = 0 := by
  unfold State.recallTaken
  rw [State.updEp_proc, State.updChan_proc_same, Proc.chan_setChan_same]
theorem exec_creditRecall (m : HeadMsg s h c e .recall rest) (awake : (s.proc h).pst ≠ .blockedWrite c) :
    exec (.creditRecall (widOf h c)) s = .next ((s.recallTaken rest h c e).addFree e ((s.proc h).chan c).credits) := by
  obtain ⟨x, dest, body, take⟩ := m.take
  have spent := (s.withNet rest).updChan_proc_same h c fun x => { x with credits := 0 }
  have mine : (isProcWid (widOf h c) && decide (((s.proc h).chan c).role = .writer ∧ ((s.proc h).chan c).dest = x.dest)) = true := by
    rw [dest, m.isProc, decide_eq_true m.writer]; rfl
  refine congrArg Host.Outcome.next ?_
  rw [take _ (decide_eq_true rfl)]
  dsimp only
  rw [m.proc_eq, m.reg_eq, show (s.withNet rest).proc h = s.proc h from rfl, if_pos mine, if_pos mine, spent, if_neg fun waits => awake waits.1, dest]
  rfl

/-- A recalled credit serves the request that waits (R56). -/
theorem recallServes {w n : Nat} (m : HeadMsg s h c e .recall rest) (one : (s.ep e).shortfalls = [(w, n)]) (some_ : 0 < n) (wid : w < 2 ^ 40)
    (fits : n ≤ (s.ep e).free + ((s.proc h).chan c).credits) (awake : (s.proc h).pst ≠ .blockedWrite c) :
    ∃ t, exec (.creditRecall (widOf h c)) s = .next t ∧ ((t.proc h).chan c).credits = 0 ∧
      (t.ep e).free = (s.ep e).free + ((s.proc h).chan c).credits - n ∧ (t.ep e).shortfalls = [] ∧
      ∃ m, t.net = rest ++ [m] ∧ m.wid = w ∧ m.body = .credit n (s.ep e).bcap (s.ep e).once := by
  have entry := s.recallTaken_ep rest h c e
  have chan := s.recallTaken_chan rest h c e
  have net : (s.recallTaken rest h c e).net = rest := rfl
  refine ⟨_, exec_creditRecall m awake, ?_⟩
  generalize s.recallTaken rest h c e = u at entry net chan
  have woken := Woken.addFree u e ((s.proc h).chan c).credits
  have freed := u.updEp_ep_same e fun x => { x with free := x.free + ((s.proc h).chan c).credits }
  rw [entry] at freed
  have procs : (u.updEp e fun x => { x with free := x.free + ((s.proc h).chan c).credits }).proc h = u.proc h := rfl
  have net' : (u.updEp e fun x => { x with free := x.free + ((s.proc h).chan c).credits }).net = u.net := rfl
  generalize u.updEp e _ = v at freed woken procs net'
  rw [State.serveAll_grants (by rw [freed]; exact one) (by rw [freed]; exact fits) some_] at woken
  have paid := v.updEp_ep_same e fun x => { x with shortfalls := [], free := x.free - n, recalled := [] }
  obtain ⟨y, mesh, to_, credit⟩ := (v.updEp e fun x => { x with shortfalls := [], free := x.free - n, recalled := [] }).grantCredit_mesh e n
    (w := w) (decide_eq_false (by omega))
  rw [paid, freed] at credit
  refine ⟨?_, ?_, ?_, y, ?_, to_, credit⟩
  · rw [woken.chan, mesh.proc, State.updEp_proc, procs]; exact chan
  · rw [woken.ep, mesh.ep, paid, freed]
  · rw [woken.ep, mesh.ep, paid]
  · rw [woken.net, mesh.net, State.updEp_net, net', net]
end

end Sys2Proof.Machine
end

section
/-! PROOFS. Credits that reach a writer (R56, R317). -/

namespace Sys2Proof.Machine

section
variable {s : State} {h c e : Nat}

theorem State.updChan_chan_same (s : State) (h c : Nat) (f : ChanReg → ChanReg) : ((s.updChan h c f).proc h).chan c = f ((s.proc h).chan c) := by
  rw [State.updChan_proc_same, Proc.chan_setChan_same]

/-- A channel register without what its writer has asked for. -/
def ChanReg.unasked (x : ChanReg) : ChanReg := { x with asked := 0 }
theorem State.asks_unasked (s : State) (h c n : Nat) :
    (((s.updChan h c fun x => { x with asked := n }).proc h).chan c).unasked = ((s.proc h).chan c).unasked := by
  rw [State.updChan_chan_same]; rfl

/-- A request taken back changes of the writer's register what it asked for (R56). -/
theorem State.withdrawAsk_chan (dest : ((s.proc h).chan c).dest = .tile e) (none_ : (s.ep e).shortfalls = []) :
    (((s.withdrawAsk h c).proc h).chan c).unasked = ((s.proc h).chan c).unasked := by
  unfold State.withdrawAsk
  dsimp only
  split
  · rfl
  · have asked := s.asks_unasked h c 0
    have eps : (s.updChan h c fun x => { x with asked := 0 }).ep e = s.ep e := rfl
    rw [dest]
    dsimp only [Dest.rid]
    generalize s.updChan h c (fun x => { x with asked := 0 }) = u at asked eps ⊢
    rw [State.serveAll_none]
    · exact asked
    · rw [State.updEp_ep_same]
      have kept := congrArg (fun x : Endpoint => x.shortfalls.filter fun q => decide (q.1 ≠ widOf h c)) eps
      exact kept.trans (by rw [none_]; rfl)
/-- A request for credits changes no more (R56). -/
theorem State.askCredit_chan (n : Nat) (dest : ((s.proc h).chan c).dest = .tile e) :
    (((s.askCredit h c n).proc h).chan c).unasked = ((s.proc h).chan c).unasked := by
  unfold State.askCredit
  dsimp only
  split
  · rfl
  · rw [dest]
    dsimp only [Dest.rid]
    rw [(OnMesh.netSend _ _ _ _).proc]
    exact s.asks_unasked h c n
/-- Nor does one for another number of slots (R56, log 23). -/
theorem State.adjustAsk_chan (n : Nat) (dest : ((s.proc h).chan c).dest = .tile e) (none_ : (s.ep e).shortfalls = []) :
    (((s.adjustAsk h c n).proc h).chan c).unasked = ((s.proc h).chan c).unasked := by
  have asked := s.asks_unasked h c n
  have dest' : (((s.updChan h c fun x => { x with asked := n }).proc h).chan c).dest = .tile e := (congrArg ChanReg.dest asked).trans dest
  have eps : (s.updChan h c fun x => { x with asked := n }).ep e = s.ep e := rfl
  unfold State.adjustAsk
  dsimp only
  rw [dest]
  dsimp only [Dest.rid]
  generalize s.updChan h c (fun x => { x with asked := n }) = u at asked dest' eps ⊢
  split
  · exact asked
  · rw [eps, none_, List.any_nil, if_neg Bool.false_ne_true]
    split
    · exact asked
    · have anew := u.asks_unasked h c 0
      exact ((State.askCredit_chan n ((congrArg ChanReg.dest anew).trans dest')).trans anew).trans asked

/-- What credits that come make of a writer's register (R56, R317). -/
def ChanReg.gained (x : ChanReg) (n bcap : Nat) (once : Bool) : ChanReg :=
  { x with credits := x.credits + n, granted := true, bcap := bcap, once := once, registered := true }
/-- A process waits for more credits than its register holds, and its reader can give so many. -/
def Proc.lacks (p : Proc) (c : Nat) : Bool :=
  decide (p.pst = .blockedWrite c ∧ p.need < waitOnly ∧ (p.chan c).credits < p.need ∧ p.need ≤ (p.chan c).bcap)
/-- Its request after credits have come: for what it still lacks, or none. -/
def State.asksAgain (s : State) (h c : Nat) : State :=
  if (s.proc h).lacks c then s.adjustAsk h c ((s.proc h).need - ((s.proc h).chan c).credits) else s.withdrawAsk h c
theorem State.asksAgain_chan (dest : ((s.proc h).chan c).dest = .tile e) (none_ : (s.ep e).shortfalls = []) :
    (((s.asksAgain h c).proc h).chan c).unasked = ((s.proc h).chan c).unasked := by
  unfold State.asksAgain
  split
  · exact State.adjustAsk_chan _ dest none_
  · exact State.withdrawAsk_chan dest none_
/-- A writer with its new credits goes on, unless it still lacks some. -/
def State.goesOnWriting (s : State) (h c : Nat) : State :=
  if (s.proc h).pst = .blockedWrite c ∧ (s.proc h).need < waitOnly ∧ (s.proc h).lacks c = false then (s.asksAgain h c).goto h .ready
  else s.asksAgain h c
theorem State.gainCredit_plain {n bcap : Nat} {once : Bool} (hc : c < 16) (mine : isProcWid (widOf h c) = true)
    (role : ((s.proc h).chan c).role = .writer) (dest : ((s.proc h).chan c).dest = .tile e) (use : ((s.proc h).chan c).use = .plain) :
    s.gainCredit (widOf h c) n bcap once (.tile e) = (s.updChan h c fun x => x.gained n bcap once).goesOnWriting h c := by
  have use' : (((s.updChan h c fun x => x.gained n bcap once).proc h).chan c).use = .plain := by rw [State.updChan_chan_same]; exact use
  unfold State.gainCredit
  rw [if_pos mine, widOf_proc hc, widOf_reg hc]
  dsimp only
  rw [if_neg (by simp [role, dest])]
  simp only [ChanReg.gained] at use' ⊢
  rw [use']
  rfl

/-- Credits come to a writer, and wake it where it holds enough (R56, R434). -/
theorem creditArrives {n bcap : Nat} {once : Bool} {rest : List NetMsg} (m : HeadMsg s h c e (.credit n bcap once) rest)
    (use : ((s.proc h).chan c).use = .plain) (none_ : (s.ep e).shortfalls = []) :
    ∃ t, exec (.creditReturn (widOf h c)) s = .next t ∧ ((t.proc h).chan c).credits = ((s.proc h).chan c).credits + n ∧
      ((t.proc h).chan c).granted = true ∧ ((t.proc h).chan c).bcap = bcap ∧ ((t.proc h).chan c).once = once ∧
      ((s.proc h).pst = .blockedWrite c → (s.proc h).need < waitOnly → (s.proc h).need ≤ ((s.proc h).chan c).credits + n → (t.proc h).pst = .ready) := by
  obtain ⟨x, dest, body, take⟩ := m.take
  obtain ⟨role, to_⟩ := m.writer
  have run : exec (.creditReturn (widOf h c)) s = .next (((s.withNet rest).updChan h c fun x => x.gained n bcap once).goesOnWriting h c) := by
    refine congrArg Host.Outcome.next ?_
    rw [take _ rfl]
    dsimp only
    rw [body, dest]
    exact State.gainCredit_plain (s := s.withNet rest) m.reg_lt m.isProc role to_ use
  refine ⟨_, run, ?_⟩
  have proc := (s.withNet rest).updChan_proc_same h c fun x => x.gained n bcap once
  have eps : ((s.withNet rest).updChan h c fun x => x.gained n bcap once).ep e = s.ep e := rfl
  generalize (s.withNet rest).updChan h c _ = u at proc eps ⊢
  have chan : (u.proc h).chan c = ((s.proc h).chan c).gained n bcap once := by rw [proc]; exact Proc.chan_setChan_same _ _ _
  have again := State.asksAgain_chan (s := u) (h := h) (c := c) (e := e) (by rw [chan]; exact to_) (by rw [eps]; exact none_)
  have reg : (((u.goesOnWriting h c).proc h).chan c).unasked = (((s.proc h).chan c).gained n bcap once).unasked := by
    rw [← chan, ← again]
    unfold State.goesOnWriting
    split
    · rw [(Woken.goto _ _ _).chan]
    · rfl
  refine ⟨congrArg ChanReg.credits reg, congrArg ChanReg.granted reg, congrArg ChanReg.bcap reg, congrArg ChanReg.once reg, fun pst need enough => ?_⟩
  have served : (u.proc h).lacks c = false := by
    refine decide_eq_false fun lack => ?_
    obtain ⟨-, -, less, -⟩ := lack
    rw [chan, proc] at less
    exact Nat.not_lt.2 enough less
  have goes : u.goesOnWriting h c = (u.asksAgain h c).goto h .ready := if_pos ⟨by rw [proc]; exact pst, by rw [proc]; exact need, served⟩
  rw [goes]
  unfold State.goto
  rw [State.updProc_proc_same]
  rfl
end

end Sys2Proof.Machine
end

section
/-! PROOFS. Messages that arrive (R19, R60, R64). -/

namespace Sys2Proof.Machine

/-- Slots go into the SRAM buffer while it has room and none is in the Caldera (R76). -/
theorem foldl_queuedSlot_near {bcap : Nat} : ∀ (l q : List QSlot), (∀ x ∈ q, x.cal = false) → (∀ x ∈ l, x.cal = false) → q.length + l.length ≤ bcap →
    l.foldl (queuedSlot bcap) q = q ++ l
  | [], q, _, _, _ => (List.append_nil q).symm
  | x :: l, q, near, new, room => by
    rw [List.length_cons] at room
    have all : (q.filter fun y => !y.cal) = q := List.filter_eq_self.2 fun y hy => by rw [near y hy]; rfl
    have none_ : (q.any fun y => y.cal) = false := List.any_eq_false.2 fun y hy => by rw [near y hy]; decide
    have one : queuedSlot bcap q x = q ++ [x] := by
      unfold queuedSlot
      dsimp only
      rw [all, none_, decide_eq_false (by omega)]
      exact congrArg (fun b => q ++ [{ x with cal := b }]) (new x List.mem_cons_self).symm
    rw [List.foldl_cons, one, foldl_queuedSlot_near l (q ++ [x]) ?_ (fun y hy => new y (List.mem_cons_of_mem _ hy)) (by simp; omega), List.append_assoc]
    · rfl
    · intro y hy
      rcases List.mem_append.1 hy with hy | hy
      · exact near y hy
      · rw [List.mem_singleton.1 hy]; exact new x List.mem_cons_self

/-- The slots of a message as a reader's queue holds them. -/
def Msg.queued (x : Msg) (w n : Nat) : List QSlot :=
  x.slots.map fun v => { val := v, marker := false, wid := w, msg := n, tagged := x.tagged }
theorem Endpoint.push_near {e : Endpoint} {x : Msg} (w : Nat) (data : x.marker = false) (near : ∀ q ∈ e.queue, q.cal = false)
    (room : e.queue.length + x.slots.length ≤ e.bcap) : (e.push w x).queue = e.queue ++ x.queued w e.nextMsg := by
  refine Eq.trans ?_ (foldl_queuedSlot_near (bcap := e.bcap) (x.queued w e.nextMsg) e.queue near ?_ ?_)
  · unfold Endpoint.push Msg.queued
    dsimp only
    rw [if_neg (by rw [data]; decide)]
    rfl
  · intro y hy
    obtain ⟨v, -, rfl⟩ := List.mem_map.1 hy
    rfl
  · unfold Msg.queued
    rw [List.length_map]
    exact room

section
variable {s : State} {h c e : Nat} {x : Msg} {rest : List NetMsg}

/-- A message of which another does not dispute the reader comes to its entry (R19, R64). -/
theorem exec_messageArrives (m : HeadMsg s h c e (.data x) rest) (kills : s.kills = []) (first : (s.ep e).wrote ≠ some s.cycle)
    (alone : s.contenders (widOf h c) e = []) :
    exec (.channelMessageArrive (widOf h c)) s = .next ((s.withNet rest).arrive e (widOf h c) x) := by
  obtain ⟨y, dest, body, take⟩ := m.take
  have goes : s.goesFirst y.part (widOf h c) e = true := by unfold State.goesFirst; rw [alone]; rfl
  have noted : (s.withNet rest).noteCame e (widOf h c) = s.withNet rest := by
    unfold State.noteCame
    rw [m.notRemote]
    rfl
  have window : (s.withNet rest).inWindow y = false := by
    unfold State.inWindow
    rw [show (s.withNet rest).kills = [] from kills]
    rfl
  refine congrArg Host.Outcome.next ?_
  rw [take _ rfl]
  dsimp only
  rw [dest, body]
  dsimp only [Dest.rid, Option.getD_some]
  refine (if_neg first).trans ((if_neg (by rw [goes]; decide)).trans ?_)
  have kept : (if (s.contenders (widOf h c) e).isEmpty then s.withNet rest
      else (s.withNet rest).afterDraw y.part (arriveArbiter e)).noteCame e (widOf h c) = s.withNet rest := by
    rw [if_pos (by rw [alone]; rfl), noted]
  refine (congrArg (fun u : State => if u.inWindow y then (if (u.ep e).bound then u.addFree e x.size else u) else u.arrive e (widOf h c) x) kept).trans ?_
  exact if_neg (by rw [window]; decide)

/-- One that finds its reader's entry taken comes in the next cycle (R64, log 14). -/
theorem messageWaits (m : HeadMsg s h c e (.data x) rest) (taken : (s.ep e).wrote = some s.cycle) :
    exec (.channelMessageArrive (widOf h c)) s = .next (s.afterCycles 1 (.channelMessageArrive (widOf h c))) := by
  obtain ⟨y, dest, body, take⟩ := m.take
  refine congrArg Host.Outcome.next ?_
  rw [take _ rfl]
  dsimp only
  rw [dest]
  exact if_pos taken

/-- Waking a reader changes no message and no entry. -/
theorem State.wakeReader_keeps (s : State) (e : Nat) : (s.wakeReader e).net = s.net ∧ (s.wakeReader e).eps = s.eps := by
  unfold State.wakeReader
  dsimp only
  split
  · exact ⟨rfl, rfl⟩
  · split
    · split <;> exact ⟨rfl, rfl⟩
    · split <;> exact ⟨rfl, rfl⟩
/-- A reader that waits for slots that have come goes on (R32, R60). -/
theorem State.wakeReader_wakes {s : State} {e r k : Nat} (owner : (s.ep e).owner = widOf r k) (hk : k < 16) (hr : 0 < r)
    (use : ((s.proc r).chan k).use = .plain) (waits : (s.proc r).pst = .blockedRead k) (ready : readReady (s.queueOf r k) (s.proc r).need = true) :
    ((s.wakeReader e).proc r).pst = .ready := by
  have proc : (s.ep e).owner / 16 = r := by rw [owner]; exact widOf_proc hk
  have reg : (s.ep e).owner % 16 = k := by rw [owner]; exact widOf_reg hk
  have woken : s.wakeReader e = s.goto r .ready := by
    unfold State.wakeReader
    dsimp only
    rw [if_neg (by rw [owner]; unfold widOf; omega), proc, reg, use]
    exact if_pos ⟨waits, ready⟩
  rw [woken]
  unfold State.goto
  rw [State.updProc_proc_same]
  rfl

/-- A queue without a marker has all its slots ahead. -/
theorem readReady_unmarked {q : List QSlot} {n : Nat} (data : ∀ x ∈ q, x.marker = false) (enough : n ≤ q.length) : readReady q n = true := by
  have all : q.takeWhile (fun x => !x.marker) = q := List.takeWhile_eq_self_iff.2 fun x hx => by rw [data x hx]; rfl
  unfold readReady dataAhead
  dsimp only
  rw [all, decide_eq_true enough]
  rfl
theorem dataIn_unmarked (data : ∀ x ∈ (s.ep e).queue, x.marker = false) : dataIn s e = (s.ep e).queue.length := by
  unfold dataIn
  rw [List.takeWhile_eq_self_iff.2 fun x hx => by rw [data x hx]; rfl]

theorem messageArrives (m : HeadMsg s h c e (.data x) rest) (data : x.marker = false) (bound : (s.ep e).bound = true) (kills : s.kills = [])
    (first : (s.ep e).wrote ≠ some s.cycle) (alone : s.contenders (widOf h c) e = []) (near : ∀ q ∈ (s.ep e).queue, q.cal = false)
    (room : (s.ep e).queue.length + x.slots.length ≤ (s.ep e).bcap) :
    ∃ t, exec (.channelMessageArrive (widOf h c)) s = .next t ∧ t.net = rest ∧ (t.ep e).arrived = (s.ep e).arrived + 1 ∧
      (t.ep e).queue = (s.ep e).queue ++ x.queued (widOf h c) (s.ep e).nextMsg ∧
      (∀ r k, (s.ep e).owner = widOf r k → k < 16 → 0 < r → ((s.proc r).chan k).use = .plain → ((s.proc r).chan k).dest = .tile e →
        (s.proc r).strip = none → (s.ep e).kept = 0 → (s.proc r).pst = .blockedRead k → (s.proc r).need ≤ dataIn s e + x.slots.length →
        (∀ q ∈ (s.ep e).queue, q.marker = false) → (t.proc r).pst = .ready) := by
  have arrives : (s.withNet rest).arrive e (widOf h c) x = ((s.withNet rest).updEp e fun y =>
      { y.push (widOf h c) x with mon := y.mon || (s.withNet rest).isMonitor (widOf h c), wrote := some s.cycle }).wakeReader e := by
    unfold State.arrive
    rw [if_neg (by rw [show (s.withNet rest).ep e = s.ep e from rfl, bound]; decide)]
    exact if_pos m.onTile
  have run := exec_messageArrives m kills first alone
  rw [arrives] at run
  refine ⟨_, run, ?_⟩
  have entry := (s.withNet rest).updEp_ep_same e fun y =>
    { y.push (widOf h c) x with mon := y.mon || (s.withNet rest).isMonitor (widOf h c), wrote := some s.cycle }
  have queue : (((s.withNet rest).updEp e fun y =>
      { y.push (widOf h c) x with mon := y.mon || (s.withNet rest).isMonitor (widOf h c), wrote := some s.cycle }).ep e).queue =
      (s.ep e).queue ++ x.queued (widOf h c) (s.ep e).nextMsg := by rw [entry]; exact Endpoint.push_near _ data near room
  have net : ((s.withNet rest).updEp e fun y =>
      { y.push (widOf h c) x with mon := y.mon || (s.withNet rest).isMonitor (widOf h c), wrote := some s.cycle }).net = rest := rfl
  have procs : ∀ r, ((s.withNet rest).updEp e fun y =>
      { y.push (widOf h c) x with mon := y.mon || (s.withNet rest).isMonitor (widOf h c), wrote := some s.cycle }).proc r = s.proc r := fun _ => rfl
  generalize State.updEp _ e _ = u at entry queue net procs ⊢
  obtain ⟨net', eps⟩ := u.wakeReader_keeps e
  have same : (u.wakeReader e).ep e = u.ep e := by unfold State.ep; rw [eps]
  refine ⟨net'.trans net, by rw [same, entry]; rfl, by rw [same, queue], fun r k owner hk hr use dest strip kept waits enough data => ?_⟩
  have whole : u.queueOf r k = (s.ep e).queue ++ x.queued (widOf h c) (s.ep e).nextMsg := by
    unfold State.queueOf Proc.retained
    dsimp only
    rw [procs, dest]
    dsimp only [Dest.rid]
    rw [queue, strip, show (u.ep e).kept = (s.ep e).kept by rw [entry]; rfl, kept]
    rfl
  refine State.wakeReader_wakes (by rw [entry]; exact owner) hk hr (by rw [procs]; exact use) (by rw [procs]; exact waits) ?_
  rw [whole, procs]
  refine readReady_unmarked (fun y hy => ?_) ?_
  · rcases List.mem_append.1 hy with hy | hy
    · exact data y hy
    · obtain ⟨v, -, rfl⟩ := List.mem_map.1 hy
      rfl
  · unfold Msg.queued
    rw [List.length_append, List.length_map, ← dataIn_unmarked data]
    exact enough

end

/-- Settles O36: each step of the credit protocol takes the message it is about and does what its lemma says. -/
theorem channelEvents : Obligations.ChannelEvents := by
  unfold Obligations.ChannelEvents
  refine ⟨fun s h c e rest m bound served first => registrationRecorded m bound served first,
    fun s h c e rest m _ second det waits strip cb => registrationRefused m second det waits strip cb,
    fun s h c e n rest m writer none_ some_ => shortfallServed m writer none_ some_,
    fun s h c e w n rest m one some_ wid fits awake => recallServes m one some_ wid fits awake,
    fun s h c e n bcap once rest m use none_ => creditArrives m use none_,
    fun s h c e x rest m data bound kills first alone near room => messageArrives m data bound kills first alone near room,
    fun s h c e x rest m taken => ⟨_, messageWaits m taken, rfl, fun _ => rfl, mem_insertDue _ _ _⟩⟩

end Sys2Proof.Machine
end

section
/-! PROOFS. DRAM servers: what their steps answer and store (R70 to R73). -/

namespace Sys2Proof.Machine

/-- Bytes stored under a partition's key are merged into those before (R83, R259, R435). -/
theorem State.hbmStore_merged (part k j : Nat) (bs : List WByte) : ∀ s : State, (s.hbmStore part k bs).hbmByte part j =
    bs.foldl (fun v b => if k + b.off = j then mergeNib v b.val b.nib else v) (s.hbmByte part j) := by
  induction bs with
  | nil => exact fun _ => rfl
  | cons b bs ih =>
    intro s
    have one : (s.hbmStore part k [b]).hbmByte part j = if k + b.off = j then mergeNib (s.hbmByte part j) b.val b.nib else s.hbmByte part j := by
      refine (s.hbmStore_byte part k j b.off (mergeNib (s.hbmByte part (k + b.off)) b.val b.nib)).trans ?_
      split
      · next here => rw [here]
      · rfl
    rw [List.foldl_cons, ← one]
    exact ih (s.hbmStore part k [b])
/-- Every granule that a store touches loses its tag, and none gains one (R83). -/
theorem State.hbmStore_untags (part k g : Nat) (bs : List WByte) : ∀ s : State,
    (Tab.lookD s.hbmTags g false = false ∨ ∃ b ∈ bs, (k + b.off) / 16 = g) → Tab.lookD (s.hbmStore part k bs).hbmTags g false = false := by
  induction bs with
  | nil =>
    rintro s (clear | ⟨b, hb, -⟩)
    · exact clear
    · cases hb
  | cons b bs ih =>
    intro s touched
    refine ih (s.hbmStore part k [b]) ?_
    have cut : Tab.lookD (s.hbmStore part k [b]).hbmTags g false = if (k + b.off) / 16 = g then false else Tab.lookD s.hbmTags g false := by
      unfold Tab.lookD
      rw [show (s.hbmStore part k [b]).hbmTags = Tab.cut s.hbmTags ((k + b.off) / 16) from rfl, Tab.look_cut]
      split <;> rfl
    by_cases here : (k + b.off) / 16 = g
    · exact .inl (by rw [cut, if_pos here])
    · rcases touched with clear | ⟨x, hx, at_⟩
      · exact .inl (by rw [cut, if_neg here, clear])
      · rcases List.mem_cons.1 hx with rfl | hx
        · exact absurd at_ here
        · exact .inr ⟨x, hx, at_⟩
theorem State.hbmStore_sram (s : State) (part k : Nat) (bs : List WByte) :
    (s.hbmStore part k bs).sram = s.sram ∧ (s.hbmStore part k bs).sramTags = s.sramTags ∧ (s.hbmStore part k bs).parts = s.parts := by
  have rest := State.hbmStore_rest part k bs s
  have sram := congrArg State.sram rest
  have tags := congrArg State.sramTags rest
  have parts := congrArg State.parts rest
  exact ⟨sram, tags, parts⟩

/-- Consumed slots return, and nothing but credits moves (R56). -/
theorem Traffic.giveBack (s : State) (e w n : Nat) : Traffic s (s.giveBack e w n) := by
  unfold State.giveBack
  dsimp only
  split
  · exact sendCredit _ _ _ _
  · exact addFree _ _ _

/-- What a server has to do before it replies: the request leaves its queue, and what the reply does not use of its reservation falls FREE
(R72, log 82). -/
def State.requestDone (s : State) (v n e size used : Nat) : State :=
  ((s.consume (serverRid v) n).updEp e fun y => { y with reserved := y.reserved - size }).addFree e (size - used)
theorem State.consume_kept (s : State) (e n : Nat) : (s.consume e n).kept = s.kept := by
  unfold State.consume
  dsimp only
  exact (Traffic.foldl _ _ (fun s (r : Nat × Nat) => Traffic.giveBack s e r.1 r.2) _).kept
theorem State.requestDone_kept (s : State) (v n e size used : Nat) : (s.requestDone v n e size used).kept = s.kept :=
  ((Traffic.addFree _ _ _).kept.trans (Traffic.updEp _ _ _ rfl).kept).trans (s.consume_kept _ _)
/-- Memory is what `kept` says. -/
theorem SameMemory.of_kept {s t : State} (kept : t.kept = s.kept) : SameMemory s t := by
  have sram := congrArg State.sram kept
  have hbm := congrArg State.hbm kept
  have epochs := congrArg State.hbmEpoch kept
  have sramTags := congrArg State.sramTags kept
  have hbmTags := congrArg State.hbmTags kept
  have parts := congrArg State.parts kept
  exact .of_tables sram hbm epochs sramTags hbmTags fun n => by
    have key := congrArg (fun q => (Tab.lookD q n ({} : Partition)).key) parts
    exact key

section
variable {s : State} {v part wid : Nat} {hd : Word} {ds : List Word}

/-- Where a request to a server is at its place (Table 3.7). -/
def keyOf (v : Nat) (hd : Word) : Nat := v * Config.serverBytes + 8 * (hd.toNat % 2 ^ 28)
/-- The header of a reply (Table 3.8). -/
def replyHead (hd : Word) (op err : Nat) : Word :=
  .ofNat 64 (op * 2 ^ 60 + hd.toNat / 2 ^ 55 % 32 * 2 ^ 55 + hd.toNat / 2 ^ 47 % 256 * 2 ^ 47 + err * 2 ^ 40)
/-- The entry to which it goes. -/
def replyTo (hd : Word) : Nat := hd.toNat / 2 ^ 36 % 2048 * 256 + hd.toNat / 2 ^ 28 % 256
/-- A request has left the server's queue, and its reply the server. -/
def State.answered (s : State) (v n part : Nat) (hd : Word) (op err : Nat) (data : List Word) : State :=
  (s.requestDone v n (replyTo hd) (replySize { slots := [hd] }).1 (data.length + 1)).netSend
    { wid := serverWid v, dest := .tile (replyTo hd), body := .data { slots := replyHead hd op err :: data }, part := part, net := 0 }
    (meshLatency (serverTile v) (replyTo hd / 256) (data.length + 1)) (.channelMessageArrive (serverWid v))
theorem State.answered_replied (s : State) (v n part : Nat) (hd : Word) (op err : Nat) (data : List Word) :
    Replied (s.answered v n part hd op err data) v hd op err data := by
  refine ⟨{ wid := serverWid v, dest := .tile (replyTo hd), body := .data { slots := replyHead hd op err :: data }, part := part, net := 0 }, ?_, rfl, rfl, rfl⟩
  unfold State.answered
  rw [(OnMesh.netSend _ _ _ _).net]
  exact List.mem_append_right _ (List.mem_singleton.2 rfl)
theorem State.answered_kept (s : State) (v n part : Nat) (hd : Word) (op err : Nat) (data : List Word) :
    (s.answered v n part hd op err data).kept = s.kept :=
  (Traffic.netSend _ _ _ _).kept.trans (s.requestDone_kept _ _ _ _ _)

/-- The operation that a reply's header names (Table 3.8). -/
def replyOp (hd : Word) : Nat := if hd.toNat / 2 ^ 60 = 1 then 9 else if hd.toNat / 2 ^ 60 = 2 then 10 else 15

theorem request_op (w : Word) : wfield w 63 60 = w.toNat / 2 ^ 60 := by
  have := w.isLt
  unfold wfield field
  omega
theorem request_len (w : Word) : wfield w 59 55 = w.toNat / 2 ^ 55 % 32 := rfl
theorem request_slot (w : Word) : wfield w 27 0 = w.toNat % 2 ^ 28 := by unfold wfield field; rw [Nat.pow_zero, Nat.div_one]

/-- The error of a request, where it is not a line that cannot be read (log 30, log 82). -/
def State.requestErr (s : State) (part kind : Nat) (hd : Word) (n : Nat) : Nat :=
  if kind = 0 ∨ (kind = 2 ∧ n + 1 ≠ hd.toNat / 2 ^ 55 % 32 + 2) ∨ (kind = 1 ∧ n + 1 ≠ 1) then 3
  else if 0x0C000000 ≤ hd.toNat % 2 ^ 28 + hd.toNat / 2 ^ 55 % 32 then 1
  else if (s.part part).key.full = false then 4 else 0
/-- The data of a READ. -/
def State.readData (s : State) (part v : Nat) (hd : Word) : List Word :=
  (List.range (hd.toNat / 2 ^ 55 % 32 + 1)).map fun i => BitVec.ofNat 64 (ofBytesLE (s.hbmRead part (keyOf v hd + 8 * i) 8))
/-- What a WRITE stores. -/
def writeBytes (ds : List Word) : List WByte := wbytes (ds.flatMap fun w => bytesLE 8 w.toNat)
/-- A server serves a request, unless it meets a line that it cannot read (R70 to R73). -/
theorem State.serveRequest_eq (own : OwnsServer s part v) (kind : Nat)
    (good : kind = 1 → s.requestErr part kind hd ds.length = 0 → s.hbmFails (keyOf v hd) (8 * (hd.toNat / 2 ^ 55 % 32 + 1)) = false) :
    s.serveRequest v kind (hd :: ds) = (if kind = 2 ∧ s.requestErr part kind hd ds.length = 0 then s.hbmStore part (keyOf v hd) (writeBytes ds) else s).answered
      v (ds.length + 1) part hd (replyOp hd) (s.requestErr part kind hd ds.length)
      (if kind = 1 ∧ s.requestErr part kind hd ds.length = 0 then s.readData part v hd else []) := by
  have part_ : ((s.parts.find? fun e => e.2.valid && e.2.servers.contains v).map fun e => e.1).getD 16 = part := by
    rw [show (s.parts.find? fun e => e.2.valid && e.2.servers.contains v).map (fun e => e.1) = some part from own]; rfl
  have err : (if kind = 0 ∨ (kind = 2 ∧ (hd :: ds).length ≠ hd.toNat / 2 ^ 55 % 32 + 2) ∨ (kind = 1 ∧ (hd :: ds).length ≠ 1) then 3
      else if 0x0C000000 ≤ hd.toNat % 2 ^ 28 + hd.toNat / 2 ^ 55 % 32 then 1
      else if (s.part part).key.full = false then 4
      else if kind = 1 ∧ s.hbmFails (v * Config.serverBytes + 8 * (hd.toNat % 2 ^ 28)) (8 * (hd.toNat / 2 ^ 55 % 32 + 1)) = true then 2 else 0) =
      s.requestErr part kind hd ds.length := by
    have readable : s.requestErr part kind hd ds.length = 0 → ¬(kind = 1 ∧
        s.hbmFails (v * Config.serverBytes + 8 * (hd.toNat % 2 ^ 28)) (8 * (hd.toNat / 2 ^ 55 % 32 + 1)) = true) :=
      fun zero h => Bool.false_ne_true ((good h.1 zero).symm.trans h.2)
    unfold State.requestErr at readable ⊢
    rw [List.length_cons]
    repeat' split
    all_goals simp_all
  have no2 : s.requestErr part kind hd ds.length ≠ 2 := by
    unfold State.requestErr
    repeat' split
    all_goals decide
  unfold State.serveRequest
  rw [part_]
  simp only [request_op, request_len, request_slot, List.headD_cons, err, if_neg no2]
  rfl

end

end Sys2Proof.Machine
end

section
/-! PROOFS. The obligation of the DRAM servers. -/

namespace Sys2Proof.Machine

/-- The request at the head of a server's queue, and its owner. -/
structure ServerRequest (s : State) (v part wid : Nat) (hd : Word) (ds : List Word) : Prop where
  head : s.serverHead v = some (wid, hd :: ds)
  own : OwnsServer s part v

section
variable {s : State} {v part wid : Nat} {hd : Word} {ds : List Word}

/-- The step that a request is for (R70). -/
theorem serverStep_eq (v wid : Nat) (hd : Word) (ds : List Word) : serverStep v wid { slots := hd :: ds } =
    if hd.toNat / 2 ^ 55 % 32 = 31 then .dramBadRequest v wid
    else if hd.toNat / 2 ^ 60 = 1 then .dramRead v wid else if hd.toNat / 2 ^ 60 = 2 then .dramWrite v wid else .dramBadRequest v wid := by
  unfold serverStep
  simp only [List.headD_cons, request_op, request_len, Bool.false_eq_true, or_false]

/-- A step whose request is at the head serves it. -/
theorem State.serverStepAt_serves (head : s.serverHead v = some (wid, hd :: ds)) (kind : Nat) {i : Instr}
    (step : serverStep v wid { slots := hd :: ds } = i) : s.serverStepAt v wid kind i = s.serveRequest v kind (hd :: ds) := by
  unfold State.serverStepAt
  rw [head]
  exact if_pos ⟨rfl, decide_eq_true step⟩
/-- One whose turn has not come waits (R73). -/
theorem State.serverStepAt_waits {w : Nat} {ms : List Word} (head : s.serverHead v = some (w, ms)) (other : w ≠ wid)
    (queued : ∃ q ∈ (s.ep (serverRid v)).queue, q.wid = wid) (kind : Nat) (i : Instr) : s.serverStepAt v wid kind i = s.afterCycles 1 i := by
  obtain ⟨q, mem, mine⟩ := queued
  unfold State.serverStepAt
  rw [head]
  exact (if_neg fun h => other h.1).trans (if_pos (List.any_eq_true.2 ⟨q, mem, decide_eq_true mine⟩))

section
variable (whole : hd.toNat / 2 ^ 55 % 32 ≠ 31)
include whole
theorem step_read (op : hd.toNat / 2 ^ 60 = 1) : serverStep v wid { slots := hd :: ds } = .dramRead v wid := by
  rw [serverStep_eq, if_neg whole, if_pos op]
theorem step_write (op : hd.toNat / 2 ^ 60 = 2) : serverStep v wid { slots := hd :: ds } = .dramWrite v wid := by
  rw [serverStep_eq, if_neg whole, if_neg (by omega), if_pos op]
end
/-- The error of a READ or WRITE whose slots are as many as its header says. -/
theorem err_wellFormed {kind : Nat} (known : kind = 1 ∨ kind = 2) (slots : ds.length = if kind = 2 then hd.toNat / 2 ^ 55 % 32 + 1 else 0) :
    s.requestErr part kind hd ds.length = if 0x0C000000 ≤ hd.toNat % 2 ^ 28 + hd.toNat / 2 ^ 55 % 32 then 1
      else if (s.part part).key.full = false then 4 else 0 := by
  refine if_neg ?_
  rcases known with rfl | rfl
  · rw [if_neg (by decide)] at slots; omega
  · rw [if_pos rfl] at slots; omega
theorem err_zero {kind : Nat} (known : kind = 1 ∨ kind = 2) (slots : ds.length = if kind = 2 then hd.toNat / 2 ^ 55 % 32 + 1 else 0)
    (inside : hd.toNat % 2 ^ 28 + hd.toNat / 2 ^ 55 % 32 < 0x0C000000) (full : (s.part part).key.full = true) :
    s.requestErr part kind hd ds.length = 0 := by
  rw [err_wellFormed known slots, if_neg (by omega), if_neg (by rw [full]; decide)]

theorem err_unknown (n : Nat) : s.requestErr part 0 hd n = 3 := if_pos (.inl rfl)

theorem ofBytesLE_lt : ∀ l : List Byte, ofBytesLE l < 256 ^ l.length
  | [] => Nat.one_pos
  | b :: l => by
    have low := b.isLt
    have high := ofBytesLE_lt l
    rw [List.length_cons, Nat.pow_succ]
    unfold ofBytesLE
    omega
theorem State.readData_getD (s : State) (part v : Nat) (hd : Word) (i : Nat) (hi : i ≤ hd.toNat / 2 ^ 55 % 32) :
    ((s.readData part v hd).getD i 0).toNat = ofBytesLE (s.hbmRead part (keyOf v hd + 8 * i) 8) := by
  have small : ofBytesLE (s.hbmRead part (keyOf v hd + 8 * i) 8) < 2 ^ 64 := by
    refine (ofBytesLE_lt _).trans_eq ?_
    rw [State.hbmRead, List.length_map, List.length_range]
    rfl
  unfold State.readData
  rw [List.getD_eq_getElem?_getD, List.getElem?_map, List.getElem?_range (by omega), Option.map_some, Option.getD_some, BitVec.toNat_ofNat]
  exact Nat.mod_eq_of_lt small

namespace ServerRequest
variable (r : ServerRequest s v part wid hd ds)
include r

/-- A request that is refused is answered with its error, and does nothing. -/
theorem refused {i : Instr} {kind : Nat} (run : exec i s = .next (s.serverStepAt v wid kind i)) (step : serverStep v wid { slots := hd :: ds } = i)
    (bad : s.requestErr part kind hd ds.length ≠ 0) :
    ∃ t, exec i s = .next t ∧ SameMemory s t ∧ Replied t v hd (replyOp hd) (s.requestErr part kind hd ds.length) [] := by
  rw [s.serverStepAt_serves r.head kind step, State.serveRequest_eq r.own kind fun _ zero => absurd zero bad, if_neg fun h => bad h.2, if_neg fun h => bad h.2] at run
  exact ⟨_, run, .of_kept (s.answered_kept _ _ _ _ _ _ _), s.answered_replied _ _ _ _ _ _ _⟩

/-- A READ is answered with its doublewords (R70, R73). -/
theorem reads (op : hd.toNat / 2 ^ 60 = 1) (whole : hd.toNat / 2 ^ 55 % 32 ≠ 31) (slots : ds = [])
    (inside : hd.toNat % 2 ^ 28 + hd.toNat / 2 ^ 55 % 32 < 0x0C000000) (full : (s.part part).key.full = true)
    (good : s.hbmFails (keyOf v hd) (8 * (hd.toNat / 2 ^ 55 % 32 + 1)) = false) :
    ∃ t data, exec (.dramRead v wid) s = .next t ∧ SameMemory s t ∧ Replied t v hd 9 0 data ∧ data.length = hd.toNat / 2 ^ 55 % 32 + 1 ∧
      ∀ i, i ≤ hd.toNat / 2 ^ 55 % 32 → (data.getD i 0).toNat = ofBytesLE (s.hbmRead part (keyOf v hd + 8 * i) 8) := by
  have zero : s.requestErr part 1 hd ds.length = 0 := err_zero (.inl rfl) (by rw [slots]; rfl) inside full
  have run : exec (.dramRead v wid) s = .next (s.serverStepAt v wid 1 (.dramRead v wid)) := rfl
  have reply : replyOp hd = 9 := if_pos op
  rw [s.serverStepAt_serves r.head 1 (step_read whole op), State.serveRequest_eq r.own 1 fun _ _ => good, zero, reply, if_neg (by decide),
    if_pos ⟨rfl, rfl⟩] at run
  exact ⟨_, s.readData part v hd, run, .of_kept (s.answered_kept _ _ _ _ _ _ _), s.answered_replied _ _ _ _ _ _ _, by simp [State.readData],
    s.readData_getD part v hd⟩

/-- A WRITE stores its doublewords (R70, R73). -/
theorem writes (op : hd.toNat / 2 ^ 60 = 2) (whole : hd.toNat / 2 ^ 55 % 32 ≠ 31) (slots : ds.length = hd.toNat / 2 ^ 55 % 32 + 1)
    (inside : hd.toNat % 2 ^ 28 + hd.toNat / 2 ^ 55 % 32 < 0x0C000000) (full : (s.part part).key.full = true) :
    ∃ t, exec (.dramWrite v wid) s = .next t ∧ Replied t v hd 10 0 [] ∧ Stores s t part (.dram (keyOf v hd) 0) (writeBytes ds) := by
  have zero : s.requestErr part 2 hd ds.length = 0 := err_zero (.inr rfl) slots inside full
  have run : exec (.dramWrite v wid) s = .next (s.serverStepAt v wid 2 (.dramWrite v wid)) := rfl
  have reply : replyOp hd = 10 := (if_neg (by omega)).trans (if_pos op)
  rw [s.serverStepAt_serves r.head 2 (step_write whole op), State.serveRequest_eq r.own 2 (fun h => absurd h (by decide)), zero, reply, if_pos ⟨rfl, rfl⟩,
    if_neg (by decide)] at run
  have kept := (s.hbmStore part (keyOf v hd) (writeBytes ds)).answered_kept v (ds.length + 1) part hd 10 0 []
  have replied := (s.hbmStore part (keyOf v hd) (writeBytes ds)).answered_replied v (ds.length + 1) part hd 10 0 []
  have merged := fun a => s.hbmStore_merged part (keyOf v hd) a (writeBytes ds)
  have untags := fun b hb => s.hbmStore_untags part (keyOf v hd) ((keyOf v hd + b.off) / 16) (writeBytes ds) (.inr ⟨b, hb, rfl⟩)
  obtain ⟨sram, sramTags, -⟩ := s.hbmStore_sram part (keyOf v hd) (writeBytes ds)
  generalize s.hbmStore part (keyOf v hd) (writeBytes ds) = u at run kept replied merged untags sram sramTags
  generalize u.answered v (ds.length + 1) part hd 10 0 [] = t at run kept replied
  have memory := SameMemory.of_kept kept
  have sram' := congrArg State.sram kept
  have tags' := congrArg State.sramTags kept
  exact ⟨t, run, replied, fun a => (memory.hbm part a).trans (merged a), sram'.trans sram, tags'.trans sramTags,
    fun b hb => (memory.hbmTag _).trans (untags b hb)⟩

end ServerRequest
end

/-- Settles O47: the request at the head is served by the step of its kind, and one whose turn has not come waits. -/
theorem serverEvents : Obligations.ServerEvents := by
  unfold Obligations.ServerEvents
  refine ⟨fun s v part wid hd ds head own => ?_, fun s i v wid w ms kind head other queued => ?_⟩
  · have r : ServerRequest s v part wid hd ds := ⟨head, own⟩
    dsimp only
    refine ⟨fun op whole slots inside full good => r.reads op whole slots inside full good,
      fun op whole slots inside full => r.writes op whole slots inside full, fun op whole slots => ?_, fun not1 not2 => ?_, fun long => ?_⟩
    · have known : hd.toNat / 2 ^ 60 = 1 ∨ hd.toNat / 2 ^ 60 = 2 := op
      have answer : ∀ e, s.requestErr part (hd.toNat / 2 ^ 60) hd ds.length = e → e ≠ 0 →
          ∃ t, exec (if hd.toNat / 2 ^ 60 = 1 then Instr.dramRead v wid else Instr.dramWrite v wid) s = .next t ∧ SameMemory s t ∧
            Replied t v hd (hd.toNat / 2 ^ 60 + 8) e [] := by
        rintro e rfl bad
        rcases known with is | is
        · have done := r.refused (kind := 1) (i := .dramRead v wid) rfl (step_read whole is) (by rw [← is]; exact bad)
          rw [if_pos is, is]
          rwa [show replyOp hd = 9 from if_pos is] at done
        · have other : hd.toNat / 2 ^ 60 ≠ 1 := by rw [is]; decide
          have done := r.refused (kind := 2) (i := .dramWrite v wid) rfl (step_write whole is) (by rw [← is]; exact bad)
          rw [if_neg other, is]
          rwa [show replyOp hd = 10 from (if_neg other).trans (if_pos is)] at done
      have err := err_wellFormed (s := s) (part := part) (ds := ds) (hd := hd) known slots
      refine ⟨fun outside => answer 1 (by rw [err, if_pos outside]) (by decide), fun inside empty => answer 4 ?_ (by decide)⟩
      rw [err, if_neg (by omega), if_pos empty]
    · have step : serverStep v wid { slots := hd :: ds } = .dramBadRequest v wid := by
        rw [serverStep_eq, if_neg not1, if_neg not2, ite_self]
      have reply : replyOp hd = 15 := (if_neg not1).trans (if_neg not2)
      have done := r.refused (kind := 0) rfl step (by rw [err_unknown]; decide)
      rwa [reply, err_unknown] at done
    · have step : serverStep v wid { slots := hd :: ds } = .dramBadRequest v wid := by rw [serverStep_eq, if_pos long]
      have done := r.refused (kind := 0) rfl step (by rw [err_unknown]; decide)
      rwa [err_unknown] at done
  · rcases kind with rfl | rfl | rfl <;> exact congrArg Host.Outcome.next (State.serverStepAt_waits head other queued _ _)

end Sys2Proof.Machine
end

section
/-! PROOFS. A message that its writer stages goes on its way at once (R53, R111). -/

namespace Sys2Proof.Machine

/-- From `s` to `t` a message has gone onto the mesh with the step of its arrival, and its writer may have woken. -/
structure Posted (s t : State) (m : NetMsg) : Prop where
  mesh : ∃ u, OnMesh s u m ∧ Woken u t
  due : ∃ e ∈ t.events, e.2 = .channelMessageArrive m.wid

theorem State.netSend_due (s : State) (m : NetMsg) (lat : Nat) (i : Instr) : ∃ e ∈ (s.netSend m lat i).events, e.2 = i :=
  ⟨_, mem_insertDue _ _ _, rfl⟩

/-- A process with nothing under way has nothing to hand over. -/
theorem NoneUnderWay.release {s : State} (none_ : NoneUnderWay s) : s.release s.running = (s, []) := by
  obtain ⟨-, buffered, accesses⟩ := none_
  have ids : s.reqs.filter (fun e => decide (e.2.h = s.running ∧ e.2.performed = false) && e.2.op.writes && !e.2.ofStream) = [] :=
    List.filter_eq_nil_iff.2 fun e he => by simp [accesses e he]
  unfold State.release
  rw [State.cbDrainAll_foreign buffered]
  dsimp only
  rw [ids]
  rfl

/-- The one message staged, on a channel that is open, is posted (R53, R111). -/
theorem State.injectAll_posts (s : State) (x : Staged) (plain : x.tree = none) (free : x.after = []) (alone : s.staged = [])
    (open_ : ((s.proc x.h).chan x.c).frozen = false ∧ ((s.proc x.h).chan x.c).refused = none) :
    Posted s ({ s with staged := s.staged ++ [x] }.injectAll) (s.message x) := by
  have mesh : OnMesh s (s.inject (widOf x.h x.c) ((s.proc x.h).chan x.c).dest x.msg (s.proc x.h).part (s.proc x.h).net) (s.message x) :=
    OnMesh.netSend s (s.message x) _ _
  have due : ∃ e ∈ (s.inject (widOf x.h x.c) ((s.proc x.h).chan x.c).dest x.msg (s.proc x.h).part (s.proc x.h).net).events,
      e.2 = .channelMessageArrive (s.message x).wid := State.netSend_due s (s.message x) _ _
  have same : ({ s with staged := [] } : State) = s := by rw [← alone]
  unfold State.injectAll
  simp only [alone, List.nil_append, List.foldl_cons, List.foldl_nil, same, plain, free, open_.1, open_.2]
  split
  · next blocked => simp at blocked
  · dsimp only
    split
    · refine ⟨⟨_, mesh, .wake _ _ _⟩, ?_⟩
      unfold State.wake
      split <;> exact due
    · exact ⟨⟨_, mesh, .refl _⟩, due⟩

namespace Posted
variable {s t : State} {m : NetMsg}

theorem rest (q : Posted s t m) : t.procless.offMesh = s.procless.offMesh := by
  obtain ⟨u, mesh, woken⟩ := q.mesh
  have a := congrArg State.procless mesh.rest
  have b := congrArg State.offMesh woken.rest
  exact b.trans a
theorem procs (q : Posted s t m) (h : Nat) : (t.proc h).unsched = (s.proc h).unsched := by
  obtain ⟨u, mesh, woken⟩ := q.mesh
  rw [woken.procs, mesh.proc]
theorem net (q : Posted s t m) : t.net = s.net ++ [m] := by
  obtain ⟨u, mesh, woken⟩ := q.mesh
  rw [woken.net, mesh.net]
theorem chan (q : Posted s t m) (h c : Nat) : (t.proc h).chan c = (s.proc h).chan c := by
  have e := congrArg (fun p : Proc => p.chan c) (q.procs h); exact e
theorem running (q : Posted s t m) : t.running = s.running := by have e := congrArg State.running q.rest; exact e
theorem staged (q : Posted s t m) : t.staged = s.staged := by have e := congrArg State.staged q.rest; exact e
theorem reqs (q : Posted s t m) : t.reqs = s.reqs := by have e := congrArg State.reqs q.rest; exact e
theorem tile (q : Posted s t m) (n : Nat) : t.tile n = s.tile n := by have e := congrArg (fun u : State => u.tile n) q.rest; exact e
theorem ep (q : Posted s t m) (n : Nat) : t.ep n = s.ep n := by have e := congrArg (fun u : State => u.ep n) q.rest; exact e
theorem memory (q : Posted s t m) : SameMemory s t := by
  have sram := congrArg State.sram q.rest
  have hbm := congrArg State.hbm q.rest
  have epochs := congrArg State.hbmEpoch q.rest
  have sramTags := congrArg State.sramTags q.rest
  have hbmTags := congrArg State.hbmTags q.rest
  have keys : ∀ n, (t.part n).key = (s.part n).key := fun n => by
    have e := congrArg (fun u : State => (u.part n).key) q.rest; exact e
  exact .of_tables sram hbm epochs sramTags hbmTags keys
theorem me (q : Posted s t m) : t.me.unsched = s.me.unsched := by
  unfold State.me
  rw [q.running]
  exact q.procs _
theorem noneUnderWay (q : Posted s t m) (none_ : NoneUnderWay s) : NoneUnderWay t := by
  have tile : t.me.tile = s.me.tile := by have e := congrArg Proc.tile q.me; exact e
  refine ⟨q.staged.trans none_.staged, fun e he => ?_, fun e he => ?_⟩
  · rw [q.running]; rw [tile, q.tile] at he; exact none_.buffered e he
  · rw [q.running]; rw [q.reqs] at he; exact none_.accesses e he
end Posted

/-- A message that a process with nothing under way stages is posted. -/
theorem State.stage_posts {s : State} {c : Nat} (none_ : NoneUnderWay s) (m : Msg) (open_ : (s.me.chan c).frozen = false ∧ (s.me.chan c).refused = none) :
    Posted s (s.stage s.running c m)
      { wid := widOf s.running c, dest := (s.me.chan c).dest, body := .data m, part := s.me.part, net := s.me.net } := by
  have posts := s.injectAll_posts { h := s.running, c := c, msg := m, after := [] } rfl rfl none_.staged open_
  unfold State.stage
  rw [none_.release]
  exact posts

end Sys2Proof.Machine
end

section
/-! PROOFS. The checks and the credits of a push (R56, R58, R59), and a process whose messages have gone out. -/

namespace Sys2Proof.Machine

section Checks
variable {s : State} {c : BitVec 4} {e m n : Nat}

theorem WritesTo.check (w : WritesTo s c e m n) : s.chanCheck c.toNat .writer m = none := by
  obtain ⟨role, plain, -, ⟨gone, -, -⟩, fits, -⟩ := w
  unfold State.chanCheck
  dsimp only
  rw [role, plain, gone, if_neg (by decide), if_neg (by decide), if_neg (by decide), if_neg fun h => Nat.not_lt.2 (fits h.1) h.2]
theorem WritesTo.onChan (w : WritesTo s c e m n) (op : Nat) (k : State) : s.onChan op c.toNat .writer m k = k := by
  unfold State.onChan
  rw [w.check]
theorem WritesTo.toServer (w : WritesTo s c e m n) : s.toServer c.toNat = false := by unfold State.toServer; rw [w.dest]
theorem State.refusal_none {op i : Nat} {k : State} (none_ : (s.me.chan i).refused = none) : s.refusal op i k = k := by
  unfold State.refusal
  rw [none_]
end Checks

/-- Credits are spent. -/
def ChanReg.spend (n : Nat) (x : ChanReg) : ChanReg := { x with credits := x.credits - n }
/-- A channel register to an open entry of this package. -/
structure OpenTo (x : ChanReg) (e : Nat) : Prop where
  dest : x.dest = .tile e
  frozen : x.frozen = false
  refused : x.refused = none
theorem WritesTo.opened {s : State} {c : BitVec 4} {e m n : Nat} (w : WritesTo s c e m n) : OpenTo (s.me.chan c.toNat) e :=
  ⟨w.dest, w.open_.2.1, w.open_.2.2⟩

/-- A push whose credits are there spends them and goes on (R56, R59). -/
theorem State.withCredits_enough {s : State} {op c e n : Nat} {k : State → State} (x : OpenTo (s.me.chan c) e) (some_ : 0 < n)
    (enough : n ≤ (s.me.chan c).credits) : s.withCredits op c n k = k (s.updChan s.running c (ChanReg.spend n)) := by
  unfold State.withCredits
  dsimp only
  rw [State.refusal_none x.refused, if_neg (by omega), x.dest, if_neg (by simp [Dest.isPeer]), x.frozen, if_neg (by decide), if_neg (by omega)]
  rfl

/-- What goes on behind the credits counts in the state with them spent alone. -/
theorem State.withCredits_congr {s : State} {op c n : Nat} {k k' : State → State}
    (same : k (s.updChan s.running c (ChanReg.spend n)) = k' (s.updChan s.running c (ChanReg.spend n))) :
    s.withCredits op c n k = s.withCredits op c n k' := by
  have same' : k (s.updChan s.running c fun x => { x with credits := x.credits - n }) =
      k' (s.updChan s.running c fun x => { x with credits := x.credits - n }) := same
  unfold State.withCredits
  dsimp only
  rw [same']

/-- An instruction that has written its registers and CFLAGS completes (R272). -/
theorem OnlyFlags.of_retire {s u : State} {ds : List (BitVec 5)} {cf : BitVec 21} (op : Nat) (ss : u.me.ss = false) (pc : u.me.pc = s.me.pc)
    (regs : ∀ r, r ∉ ds → u.reg r = s.reg r) (special : u.me.specials = { s.me.specials with cflags := cf }) (memory : SameMemory s u)
    (running : u.running = s.running) : OnlyFlags s (u.retire op) ds cf := by
  have done := State.jump_only u op (u.me.pc + 4) ss
  exact ⟨pc ▸ done.went, fun r hr => (done.regs.regs r (by simp)).trans (regs r hr), done.special.trans special, memory.trans done.memory,
    done.rest.running.trans running⟩
theorem State.retire_chan (u : State) (op : Nat) (ss : u.me.ss = false) (k : Nat) : (u.retire op).me.chan k = u.me.chan k := by
  rw [State.retire_me u op ss]; rfl
theorem State.retire_net (u : State) (op : Nat) (ss : u.me.ss = false) : (u.retire op).net = u.net ∧ (u.retire op).staged = u.staged := by
  rw [State.retire_plain u op ss, State.countEvent_net, State.countEvent_staged]
  exact ⟨rfl, rfl⟩

/-- A process without its channel and capability registers, its scheduling and what a VPUSH has sent. -/
def Proc.calm (p : Proc) : Proc := { p with chans := [], caps := [], vpushed := [], pst := .ready, epoch := 0, since := 0 }
/-- From `s` to `t` the running process has spent `n` credits of a channel, and its messages have gone out. -/
structure Pushed (s t : State) (c : BitVec 4) (n : Nat) (ms : List Msg) : Prop where
  running : t.running = s.running
  calm : t.me.calm = s.me.calm
  chan : t.me.chan c.toNat = (s.me.chan c.toNat).spend n
  others : ∀ k, k ≠ c.toNat → t.me.chan k = s.me.chan k
  net : t.net = s.net ++ ms.map (dataOf s c)
  due : ms ≠ [] → ∃ e ∈ t.events, e.2 = .channelMessageArrive (widOf s.running c.toNat)
  memory : SameMemory s t
  tile : ∀ n, t.tile n = s.tile n
  under : NoneUnderWay t

namespace Pushed
variable {s t u : State} {c : BitVec 4} {n : Nat} {ms : List Msg}

theorem refl (none_ : NoneUnderWay s) : Pushed s s c 0 [] :=
  ⟨rfl, rfl, rfl, fun _ _ => rfl, (List.append_nil _).symm, fun h => absurd rfl h, .refl s, fun _ => rfl, none_⟩

theorem dataOf_eq (p : Pushed s t c n ms) : dataOf t c = dataOf s c := by
  have part := congrArg Proc.part p.calm
  have net := congrArg Proc.net p.calm
  have dest := congrArg ChanReg.dest p.chan
  funext m
  unfold dataOf
  rw [p.running, show t.me.part = s.me.part from part, show t.me.net = s.me.net from net, dest]
  rfl
/-- Further messages of the same channel. -/
theorem trans (p : Pushed s t c n ms) {k : Nat} {ms' : List Msg} (q : Pushed t u c k ms') (some_ : ms' ≠ []) : Pushed s u c (n + k) (ms ++ ms') where
  running := q.running.trans p.running
  calm := q.calm.trans p.calm
  chan := by rw [q.chan, p.chan]; unfold ChanReg.spend; rw [Nat.sub_sub]
  others i hi := (q.others i hi).trans (p.others i hi)
  net := by rw [q.net, p.net, p.dataOf_eq, List.map_append, List.append_assoc]
  due _ := by rw [← p.running]; exact q.due some_
  memory := p.memory.trans q.memory
  tile i := (q.tile i).trans (p.tile i)
  under := q.under

/-- Credits are spent (R56). -/
theorem paid (none_ : NoneUnderWay s) (c : BitVec 4) (n : Nat) : Pushed s (s.updChan s.running c.toNat (ChanReg.spend n)) c n [] := by
  have me : (s.updChan s.running c.toNat (ChanReg.spend n)).me = s.me.setChan c.toNat ((s.me.chan c.toNat).spend n) := State.updChan_proc_same _ _ _ _
  obtain ⟨staged, buffered, accesses⟩ := none_
  refine ⟨rfl, by rw [me]; rfl, by rw [me, Proc.chan_setChan_same], fun k hk => ?_, (List.append_nil _).symm, fun h => absurd rfl h,
    .of_tables rfl rfl rfl rfl rfl fun _ => rfl, fun _ => rfl, staged, ?_, accesses⟩
  · rw [me, Proc.chan_setChan, if_neg (Ne.symm hk)]
  · rw [me]; exact buffered
/-- The message of a channel whose credits are spent goes out (R53). -/
theorem posts (p : Pushed s t c n []) {e : Nat} (x : OpenTo (s.me.chan c.toNat) e) (m : Msg) : Pushed s (t.stage t.running c.toNat m) c n [m] := by
  have q := State.stage_posts p.under m (c := c.toNat) ⟨by rw [p.chan]; exact x.frozen, by rw [p.chan]; exact x.refused⟩
  have me := q.me
  refine ⟨q.running.trans p.running, ?_, ?_, fun k hk => ?_, ?_, fun _ => ?_, p.memory.trans q.memory, fun i => (q.tile i).trans (p.tile i),
    q.noneUnderWay p.under⟩
  · have e := congrArg Proc.calm me
    exact Eq.trans e p.calm
  · have e := congrArg (fun y : Proc => y.chan c.toNat) me
    exact Eq.trans e p.chan
  · have e := congrArg (fun y : Proc => y.chan k) me
    exact Eq.trans e (p.others k hk)
  · have data := congrFun p.dataOf_eq m
    rw [q.net, p.net, List.map_nil, List.append_nil]
    exact congrArg (fun y => s.net ++ [y]) data
  · rw [← p.running]
    exact q.due

/-- The instruction completes (R272). -/
theorem sent (p : Pushed s t c n ms) (ss : s.me.ss = false) (op : Nat) : Sent s (t.retire op) c n ms := by
  have steps : t.me.ss = false := by
    have e := congrArg Proc.ss p.calm
    exact Eq.trans e ss
  have pc := congrArg Proc.pc p.calm
  have regs := fun r : BitVec 5 => congrArg (fun p : Proc => p.reg r.toNat) p.calm
  have special := congrArg Proc.specials p.calm
  have chan := t.retire_chan op steps
  obtain ⟨net, staged⟩ := t.retire_net op steps
  refine ⟨.of_retire op steps pc (fun r _ => regs r) special p.memory p.running, (chan _).trans p.chan, fun k hk => (chan k).trans (p.others k hk),
    net.trans p.net, fun some_ => ?_, staged.trans p.under.staged⟩
  obtain ⟨e, he, due⟩ := p.due some_
  exact ⟨e, t.retire_events op steps e he, due⟩
end Pushed

end Sys2Proof.Machine
end

section
/-! PROOFS. CPUSH, CCLOSE and KSEND (R59, R62, R63, R88). -/

namespace Sys2Proof.Machine

section Push
variable {s : State} {d m : BitVec 5} {c : BitVec 4} {e n : Nat}

/-- The message of a CPUSH. -/
def State.pushMsg (s : State) (d m : BitVec 5) : Msg := { slots := (List.range (m.toNat + 1)).map fun i => s.reg (d + .ofNat 5 i) }
theorem State.pushMsg_eq (s : State) (d m : BitVec 5) : ({ slots := (regRun d m.toNat).map fun r => s.reg r } : Msg) = s.pushMsg d m := by
  unfold regRun State.pushMsg
  rw [List.map_map]
  rfl
theorem State.pushMsg_size (s : State) (d m : BitVec 5) : (s.pushMsg d m).size = m.toNat + 1 := by
  change ((List.range (m.toNat + 1)).map _).length = _
  rw [List.length_map, List.length_range]
/-- A push to an entry of a tile reserves no reply (R72). -/
theorem State.reserveReply_tile {u : State} {i : Nat} (dest : (u.me.chan i).dest = .tile e) (x : Msg) : u.reserveReply i x = u := by
  unfold State.reserveReply State.toServer
  rw [dest]
  rfl
theorem State.spend_chan (s : State) (i n : Nat) : (s.updChan s.running i (ChanReg.spend n)).me.chan i = (s.me.chan i).spend n :=
  State.updChan_chan_same _ _ _ _

/-- A CPUSH to an entry of this package stands and falls with its credits (R59). -/
theorem exec_cpush (w : WritesTo s c e (m.toNat + 1) n) (free : s.free ((List.range (m.toNat + 1)).map fun i => d + .ofNat 5 i)) :
    exec (.cpush d c m) s = .next (s.withCredits 0x28 c.toNat (m.toNat + 1) fun u => (u.holdBack (.push c.toNat (s.pushMsg d m))).retire 0x28) := by
  refine congrArg Host.Outcome.next ((State.withRegs_free _ _ _ free).trans ((w.onChan _ _).trans ?_))
  have good : s.badRequest c.toNat (s.pushMsg d m) = false := by unfold State.badRequest; rw [w.toServer]; rfl
  have room : s.replyRoom c.toNat (s.pushMsg d m) = true := by unfold State.replyRoom; rw [w.toServer]; rfl
  dsimp only
  rw [s.pushMsg_eq, good, room, if_neg (by decide), if_neg (by decide), s.pushMsg_size]
  refine State.withCredits_congr ?_
  rw [State.reserveReply_tile]
  rw [s.spend_chan]
  exact w.dest
/-- So does a CCLOSE (R62). -/
theorem exec_cclose (w : WritesTo s c e 1 n) :
    exec (.cclose c) s = .next (s.withCredits 0x28 c.toNat 1 fun u => (u.holdBack (.push c.toNat markerMsg)).retire 0x28) := by
  refine congrArg Host.Outcome.next ((w.onChan _ _).trans ?_)
  rw [w.toServer]
  exact if_neg (by decide)

/-- Outside a strip a push hands its message over at once. -/
theorem State.holdBack_stages {u : State} (none_ : u.me.strip = none) (i : Nat) (x : Msg) : u.holdBack (.push i x) = u.stage u.running i x := by
  unfold State.holdBack
  rw [none_]
  rfl

/-- A push with its credits outside a strip (R53, R56). -/
theorem pushes {op k : Nat} {x : Msg} (w : WritesTo s c e k n) (plain : s.plain) (none_ : NoneUnderWay s) :
    Sent s ((((s.updChan s.running c.toNat (ChanReg.spend n)).holdBack (.push c.toNat x))).retire op) c n [x] := by
  obtain ⟨ss, strip, -⟩ := plain
  have paid := Pushed.paid none_ c n
  have strip' : (s.updChan s.running c.toNat (ChanReg.spend n)).me.strip = none := by
    have e := congrArg Proc.strip paid.calm
    exact Eq.trans e strip
  rw [State.holdBack_stages strip']
  exact (paid.posts w.opened x).sent ss op

theorem cpushSends (w : WritesTo s c e (m.toNat + 1) (m.toNat + 1)) (free : s.free ((List.range (m.toNat + 1)).map fun i => d + .ofNat 5 i))
    (plain : s.plain) (none_ : NoneUnderWay s) : ∃ t, exec (.cpush d c m) s = .next t ∧ Sent s t c (m.toNat + 1) [s.pushMsg d m] := by
  have run := exec_cpush w free
  rw [State.withCredits_enough w.opened (Nat.succ_pos _) w.credits] at run
  exact ⟨_, run, pushes w plain none_⟩
theorem ccloseSends (w : WritesTo s c e 1 1) (plain : s.plain) (none_ : NoneUnderWay s) :
    ∃ t, exec (.cclose c) s = .next t ∧ Sent s t c 1 [markerMsg] := by
  have run := exec_cclose w
  rw [State.withCredits_enough w.opened Nat.one_pos w.credits] at run
  exact ⟨_, run, pushes w plain none_⟩

/-- In a strip a push holds its message back (R63). -/
theorem cpushHeld {k : Strip} (w : WritesTo s c e (m.toNat + 1) (m.toNat + 1)) (free : s.free ((List.range (m.toNat + 1)).map fun i => d + .ofNat 5 i))
    (strip : s.me.strip = some k) (ss : s.me.ss = false) :
    ∃ t, exec (.cpush d c m) s = .next t ∧ HeldBack s t c (m.toNat + 1) [.push c.toNat (s.pushMsg d m)] := by
  have run := exec_cpush w free
  rw [State.withCredits_enough w.opened (Nat.succ_pos _) w.credits] at run
  refine ⟨_, run, ?_⟩
  have spent : (s.updChan s.running c.toNat (ChanReg.spend (m.toNat + 1))).me = s.me.setChan c.toNat ((s.me.chan c.toNat).spend (m.toNat + 1)) :=
    State.updChan_proc_same _ _ _ _
  have held : (s.updChan s.running c.toNat (ChanReg.spend (m.toNat + 1))).holdBack (.push c.toNat (s.pushMsg d m)) =
      (s.updChan s.running c.toNat (ChanReg.spend (m.toNat + 1))).updMe fun p =>
        { p with strip := some { k with held := k.held ++ [.push c.toNat (s.pushMsg d m)] } } := by
    unfold State.holdBack
    rw [spent, show (s.me.setChan c.toNat ((s.me.chan c.toNat).spend (m.toNat + 1))).strip = some k from strip]
  rw [held]
  generalize hu : (s.updChan s.running c.toNat (ChanReg.spend (m.toNat + 1))).updMe _ = u
  have me : u.me = { s.me.setChan c.toNat ((s.me.chan c.toNat).spend (m.toNat + 1)) with
      strip := some { k with held := k.held ++ [.push c.toNat (s.pushMsg d m)] } } := by rw [← hu, State.updMe_me, spent]
  have steps : u.me.ss = false := by rw [me]; exact ss
  have memory : SameMemory s u := by rw [← hu]; exact .of_tables rfl rfl rfl rfl rfl fun _ => rfl
  obtain ⟨running, net, staged⟩ : u.running = s.running ∧ u.net = s.net ∧ u.staged = s.staged := by rw [← hu]; exact ⟨rfl, rfl, rfl⟩
  have chan : ∀ i, (u.retire 0x28).me.chan i = (s.me.setChan c.toNat ((s.me.chan c.toNat).spend (m.toNat + 1))).chan i := fun i => by
    rw [u.retire_chan 0x28 steps, me]; rfl
  obtain ⟨net', staged'⟩ := u.retire_net 0x28 steps
  refine ⟨.of_retire 0x28 steps (by rw [me]; rfl) (fun r _ => ?_) (by rw [me]; rfl) memory running, ?_, fun i hi => ?_, ?_, net'.trans net,
    staged'.trans staged⟩
  · unfold State.reg
    rw [me]
    rfl
  · rw [chan, Proc.chan_setChan_same]; rfl
  · rw [chan, Proc.chan_setChan, if_neg (Ne.symm hi)]
  · rw [State.retire_me u 0x28 steps, me, strip]; rfl
end Push

end Sys2Proof.Machine
end

section
/-! PROOFS. KSEND (R88), a push without credits (R56, R59), and the faults of R58 and R65. -/

namespace Sys2Proof.Machine

section
variable {s : State} {c : BitVec 4} {e n : Nat}

/-- The message of a KSEND. -/
def State.capMsg (s : State) (k : Nat) : Msg :=
  { slots := [.ofNat 64 (s.me.cap k).bits.toNat, .ofNat 64 ((s.me.cap k).bits.toNat / 2 ^ 64)], tagged := true }
theorem exec_ksend {k : BitVec 3} (w : WritesTo s c e 2 2) (tag : (s.me.cap k.toNat).tag = true)
    (send : (s.me.cap k.toNat).bits.toNat / 2 ^ 102 % 2 = 1) (binds : s.binds = []) :
    exec (.ksend k c) s = .next (((s.updChan s.running c.toNat (ChanReg.spend 2)).holdBack (.ksend c.toNat k.toNat (s.capMsg k.toNat))).retire 0x2A) := by
  refine congrArg Host.Outcome.next ((w.onChan _ _).trans ?_)
  have may : (s.me.cap k.toNat).send = true := decide_eq_true send
  have none_ : s.youngestIssued = none := by unfold State.youngestIssued; rw [binds]; rfl
  dsimp only
  rw [State.refusal_none w.open_.2.2, tag, may, w.dest, none_]
  refine (if_neg (by simp)).trans ?_
  exact State.withCredits_enough w.opened (by decide) w.credits

/-- KSEND clears its capability register (R88). -/
theorem ksendSends {k : BitVec 3} (w : WritesTo s c e 2 2) (plain : s.plain) (none_ : NoneUnderWay s) (tag : (s.me.cap k.toNat).tag = true)
    (send : (s.me.cap k.toNat).bits.toNat / 2 ^ 102 % 2 = 1) (binds : s.binds = []) :
    ∃ t, exec (.ksend k c) s = .next t ∧ t.me.cap k.toNat = {} ∧ (∀ j, j ≠ k.toNat → t.me.cap j = s.me.cap j) ∧
      Sent s t c 2 [s.capMsg k.toNat] := by
  obtain ⟨ss, strip, -⟩ := plain
  have paid := Pushed.paid none_ c 2
  have spent : (s.updChan s.running c.toNat (ChanReg.spend 2)).me = s.me.setChan c.toNat ((s.me.chan c.toNat).spend 2) := State.updChan_proc_same _ _ _ _
  have run := exec_ksend w tag send binds
  generalize s.updChan s.running c.toNat (ChanReg.spend 2) = u at run paid spent
  have cleared : (u.updProc u.running fun p => p.setCap k.toNat {}).me = u.me.setCap k.toNat {} := State.updProc_proc_same _ _ _
  have held : u.holdBack (.ksend c.toNat k.toNat (s.capMsg k.toNat)) =
      (u.updProc u.running fun p => p.setCap k.toNat {}).stage (u.updProc u.running fun p => p.setCap k.toNat {}).running c.toNat (s.capMsg k.toNat) := by
    unfold State.holdBack
    rw [spent, show (s.me.setChan c.toNat ((s.me.chan c.toNat).spend 2)).strip = none from strip]
    rfl
  have paid' : Pushed s (u.updProc u.running fun p => p.setCap k.toNat {}) c 2 [] := by
    refine ⟨paid.running, by rw [cleared]; exact paid.calm, by rw [cleared]; exact paid.chan, fun j hj => by rw [cleared]; exact paid.others j hj,
      paid.net, paid.due, paid.memory.trans (.of_tables rfl rfl rfl rfl rfl fun _ => rfl), paid.tile, paid.under.staged, ?_, paid.under.accesses⟩
    rw [cleared]; exact paid.under.buffered
  rw [held] at run
  generalize u.updProc u.running (fun p => p.setCap k.toNat {}) = v at run paid' cleared
  have posted := State.stage_posts paid'.under (s.capMsg k.toNat) (c := c.toNat)
    ⟨by rw [paid'.chan]; exact w.opened.frozen, by rw [paid'.chan]; exact w.opened.refused⟩
  have sent := paid'.posts w.opened (s.capMsg k.toNat)
  have steps : (v.stage v.running c.toNat (s.capMsg k.toNat)).me.ss = false := by
    have same := congrArg Proc.ss sent.calm
    exact Eq.trans same ss
  have caps : ∀ j, ((v.stage v.running c.toNat (s.capMsg k.toNat)).retire 0x2A).me.cap j = (s.me.setCap k.toNat {}).cap j := fun j => by
    have same := congrArg (fun p : Proc => p.cap j) posted.me
    rw [State.retire_me _ _ steps]
    refine Eq.trans same ?_
    change v.me.cap j = _
    rw [cleared, spent, Proc.cap_setCap, Proc.cap_setCap]
    rfl
  refine ⟨_, run, ?_, fun j hj => ?_, sent.sent ss 0x2A⟩
  · rw [caps, Proc.cap_setCap_same]
  · rw [caps, Proc.cap_setCap, if_neg (Ne.symm hj)]

/-- A request for credits is traffic (R56). -/
theorem Traffic.askCredit (s : State) (h c n : Nat) {e : Nat} (dest : ((s.proc h).chan c).dest = .tile e) :
    Traffic s (s.askCredit h c n) ∧ (s.askCredit h c n).staged = s.staged := by
  unfold State.askCredit
  dsimp only
  split
  · exact ⟨.refl s, rfl⟩
  · rw [dest]
    dsimp only [Dest.rid]
    have asked := Traffic.updChan s h c (fun x => { x with asked := n }) fun _ => rfl
    generalize hu : s.updChan h c (fun x => { x with asked := n }) = u at asked ⊢
    have same : u.staged = s.staged := by rw [← hu]; rfl
    have mesh := OnMesh.netSend u { wid := widOf h c, dest := .tile e, body := .shortfall n, part := (s.proc h).part, net := (s.proc h).net }
      (meshLatency (s.proc h).tile ((Dest.tile e).tileOr (s.proc h).tile) 0) (.shortfallRequest (widOf h c))
    have staged := congrArg State.staged mesh.rest
    exact ⟨asked.trans mesh.traffic, Eq.trans staged same⟩
/-- A process that has asked for what it lacks. -/
theorem State.askCredit_blocks (s : State) (c n k : Nat) {e : Nat} (dest : (s.me.chan c).dest = .tile e) :
    ((s.askCredit s.running c n).block (.blockedWrite c) k).me.pst = .blockedWrite c ∧
      ((s.askCredit s.running c n).block (.blockedWrite c) k).me.need = k ∧
      ((s.askCredit s.running c n).block (.blockedWrite c) k).me.pc = s.me.pc ∧
      (((s.askCredit s.running c n).block (.blockedWrite c) k).me.chan c).credits = (s.me.chan c).credits ∧
      ((s.askCredit s.running c n).block (.blockedWrite c) k).staged = s.staged ∧
      (∀ r, ((s.askCredit s.running c n).block (.blockedWrite c) k).reg r = s.reg r) ∧
      SameMemory s ((s.askCredit s.running c n).block (.blockedWrite c) k) := by
  have asked := Traffic.askCredit s s.running c n dest
  have credits := (s.askCredit_keeps s.running c n e dest).2
  generalize s.askCredit s.running c n = u at asked credits
  obtain ⟨traffic, staged⟩ := asked
  have running : u.running = s.running := by have x := congrArg State.running traffic.kept; exact x
  have core : u.me.core = s.me.core := by unfold State.me; rw [running]; exact traffic.procs s.running
  have blocked := u.block_me (.blockedWrite c) k
  have pc := congrArg Proc.pc core
  have regs := fun r : BitVec 5 => congrArg (fun p : Proc => p.reg r.toNat) core
  rw [blocked]
  refine ⟨rfl, rfl, pc, ?_, staged, fun r => ?_, traffic.memory.trans (u.updMe_memory _)⟩
  · refine Eq.trans (b := ((u.proc s.running).chan c).credits) ?_ credits
    rw [← running]
    rfl
  · unfold State.reg
    rw [blocked]
    exact regs r

/-- With fewer credits than slots the process blocks, and nothing is spent (R56, R59). -/
theorem cpushBlocks {d m : BitVec 5} (w : WritesTo s c e (m.toNat + 1) 0)
    (free : s.free ((List.range (m.toNat + 1)).map fun i => d + .ofNat 5 i)) (poor : (s.me.chan c.toNat).credits < m.toNat + 1)
    (future : (s.me.chan c.toNat).once = true → (s.me.chan c.toNat).granted = false) :
    ∃ t, exec (.cpush d c m) s = .next t ∧ t.me.pst = .blockedWrite c.toNat ∧ t.me.need = m.toNat + 1 ∧ t.me.pc = s.me.pc ∧
      (t.me.chan c.toNat).credits = (s.me.chan c.toNat).credits ∧ t.staged = s.staged ∧ (∀ r, t.reg r = s.reg r) ∧ SameMemory s t := by
  have run := exec_cpush w free
  have blocks : ∀ k, s.withCredits 0x28 c.toNat (m.toNat + 1) k =
      (s.askCredit s.running c.toNat (m.toNat + 1 - (s.me.chan c.toNat).credits)).block (.blockedWrite c.toNat) (m.toNat + 1) := fun k => by
    unfold State.withCredits
    dsimp only
    rw [State.refusal_none w.opened.refused, if_neg fun h => by rw [future h.1] at h; exact absurd h.2.1 (by decide), w.dest,
      if_neg (by simp [Dest.isPeer]), w.opened.frozen, if_neg (by decide), if_pos poor]
  rw [blocks] at run
  exact ⟨_, run, s.askCredit_blocks c.toNat _ _ w.dest⟩

/-- A push to a future whose writer holds no credit parks its process (R65). -/
theorem cpushOverwrites {d : BitVec 5} (w : WritesTo s c e 1 0) (free : s.free [d]) (strip : s.me.strip = none)
    (once : (s.me.chan c.toNat).once = true) (granted : (s.me.chan c.toNat).granted = true) (empty : (s.me.chan c.toNat).credits = 0) :
    ∃ t, exec (.cpush d c 0) s = .next t ∧ Parks s t .futureOverwrite s.me.pc := by
  have only : (List.range ((0 : BitVec 5).toNat + 1)).map (fun i => d + .ofNat 5 i) = [d] := by
    change [d + 0#5] = [d]
    rw [BitVec.add_zero]
  have run := exec_cpush (d := d) (m := 0) w (by rw [only]; exact free)
  have faults : ∀ k, s.withCredits 0x28 c.toNat ((0 : BitVec 5).toNat + 1) k = s.raise 0x28 .futureOverwrite := fun k => by
    unfold State.withCredits
    dsimp only
    rw [State.refusal_none w.opened.refused, if_pos ⟨once, granted, empty⟩]
  rw [faults] at run
  exact ⟨_, run, s.raise_parks 0x28 .futureOverwrite {} strip (by decide) (by simp)⟩
end

end Sys2Proof.Machine
end

section
/-! PROOFS. The faults of R58, for every instruction that uses a channel. -/

namespace Sys2Proof.Machine

section
variable {s : State} {c : BitVec 4} {role : Role} {n : Nat} {x : Cause}

/-- The model's check refuses what R58 refuses, with the cause it names. -/
theorem chanCheck_refuses (fault : chanFault s c role n = some x) : s.chanCheck c.toNat role n = some x := by
  unfold chanFault at fault
  unfold State.chanCheck
  dsimp only at fault ⊢
  split at fault
  · next unbound => rw [if_pos unbound]; exact fault
  next bound =>
  rw [if_neg bound]
  split at fault
  · next other => rw [if_pos other]; exact fault
  next same =>
  rw [if_neg same]
  cases role with
  | unbound => exact absurd (Decidable.not_not.1 fun h => same (.inl h)) bound
  | writer =>
    dsimp only
    split at fault
    · next gone => rw [if_pos gone.2]; exact fault
    next there =>
    rw [if_neg fun h => there ⟨rfl, h⟩]
    split at fault
    · next small => rw [if_pos small.2]; exact fault
    · cases fault
  | reader =>
    rw [if_neg (by simp), if_neg (by simp)] at fault
    dsimp only
    split at fault
    · next e dest => rw [dest]; exact fault
    · cases fault
/-- It names no cause that enters a handler. -/
theorem chanFault_parks (fault : chanFault s c role n = some x) : x = .chanUnbound ∨ x = .protection := by
  unfold chanFault at fault
  dsimp only at fault
  repeat' split at fault
  all_goals simp_all
/-- An instruction whose channel fails the check parks its process (R58, R231). -/
theorem State.onChan_parks (fault : chanFault s c role n = some x) (strip : s.me.strip = none) (op : Nat) (k : State) :
    Parks s (s.onChan op c.toNat role n k) x s.me.pc := by
  unfold State.onChan
  rw [chanCheck_refuses fault]
  rcases chanFault_parks fault with rfl | rfl <;> exact s.raise_parks op _ {} strip (by decide) (by simp)

/-- Every instruction that uses a channel makes that check once its registers are there. -/
theorem chanUse_faults {i : Instr} {rs : List (BitVec 5)} (use : chanUseOf s i = some (c, role, n, rs)) (fault : chanFault s c role n = some x)
    (free : s.free rs) (strip : s.me.strip = none) : ∃ t, exec i s = .next t ∧ Parks s t x s.me.pc := by
  have parks := State.onChan_parks fault strip
  unfold chanUseOf at use
  split at use <;> cases use
  · exact ⟨_, congrArg Host.Outcome.next (s.withRegs_free _ _ free), parks 0x28 _⟩
  · exact ⟨_, rfl, parks 0x28 _⟩
  · exact ⟨_, rfl, parks 0x2A _⟩
  · exact ⟨_, congrArg Host.Outcome.next (s.withRegs_free _ _ free), parks 0x28 _⟩
  · exact ⟨_, congrArg Host.Outcome.next (s.withRegs_free _ _ free), parks 0x28 _⟩
  · exact ⟨_, congrArg Host.Outcome.next (s.withRegs_free _ _ free), parks 0x28 _⟩
  · exact ⟨_, congrArg Host.Outcome.next (s.afterCommit_none _ strip), parks 0x2A _⟩
end

end Sys2Proof.Machine
end

section
/-! PROOFS. Vector elements packed into slots, and slots cut into messages (R61). -/

namespace Sys2Proof.Machine

/-! Numbers by their bytes. -/

theorem ofBytesLE_append : ∀ l r : List Byte, ofBytesLE (l ++ r) = ofBytesLE l + 256 ^ l.length * ofBytesLE r
  | [], r => by simp [ofBytesLE]
  | b :: l, r => by
    rw [List.cons_append, ofBytesLE, ofBytesLE_append l r, ofBytesLE, List.length_cons, Nat.pow_succ]
    ring
theorem ofBytesLE_drop : ∀ (n : Nat) (l : List Byte), ofBytesLE (l.drop n) = ofBytesLE l / 256 ^ n
  | 0, l => by simp
  | n + 1, [] => by simp [ofBytesLE]
  | n + 1, b :: l => by
    have low := b.isLt
    rw [List.drop_succ_cons, ofBytesLE_drop n l, ofBytesLE, Nat.pow_succ, Nat.mul_comm (256 ^ n), ← Nat.div_div_eq_div_mul]
    congr 1
    omega
theorem ofBytesLE_take : ∀ (n : Nat) (l : List Byte), ofBytesLE (l.take n) = ofBytesLE l % 256 ^ n
  | 0, l => by simp [ofBytesLE, Nat.mod_one]
  | n + 1, [] => by simp [ofBytesLE]
  | n + 1, b :: l => by
    have low := b.isLt
    rw [List.take_succ_cons, ofBytesLE, ofBytesLE_take n l, ofBytesLE, Nat.pow_succ, Nat.mul_comm (256 ^ n), Nat.mod_mul]
    have high : (b.toNat + 256 * ofBytesLE l) / 256 = ofBytesLE l := by omega
    have byte : (b.toNat + 256 * ofBytesLE l) % 256 = b.toNat := by omega
    rw [high, byte]
theorem length_bytesLE (n x : Nat) : (bytesLE n x).length = n := by unfold bytesLE; rw [List.length_map, List.length_range]
theorem ofBytesLE_bytesLE (n x : Nat) : ofBytesLE (bytesLE n x) = x % 256 ^ n :=
  (ofBytesLE_byteAt n x).trans (by rw [Nat.pow_mul])
/-- Numbers of one width side by side. -/
theorem ofBytesLE_fields (n : Nat) (f : Nat → Nat) (small : ∀ i, f i < 256 ^ n) : ∀ k : Nat,
    ((List.range k).flatMap fun i => bytesLE n (f i)).length = k * n ∧
      ofBytesLE ((List.range k).flatMap fun i => bytesLE n (f i)) = ((List.range k).map fun i => f i * 256 ^ (n * i)).sum
  | 0 => ⟨by simp, rfl⟩
  | k + 1 => by
    obtain ⟨length, value⟩ := ofBytesLE_fields n f small k
    rw [List.range_succ, List.flatMap_append, List.length_append, length, ofBytesLE_append, length, value, List.map_append, List.sum_append,
      List.flatMap_singleton, length_bytesLE, ofBytesLE_bytesLE, Nat.mod_eq_of_lt (small k)]
    refine ⟨by ring, ?_⟩
    rw [List.map_singleton, List.sum_singleton, Nat.mul_comm k n, Nat.mul_comm (f k)]

/-! Packing. -/

theorem IsEw.pow {w : Nat} (ew : IsEw w) : 256 ^ (w / 8) = 2 ^ w := by rcases ew with rfl | rfl | rfl | rfl <;> norm_num
theorem State.elem_lt (s : State) (v : VCtx) (r : BitVec 5) (i : Nat) : s.elem v r i < 256 ^ (v.ew / 8) := by
  unfold State.elem State.elemAt
  split
  · exact Nat.pow_pos (by decide)
  · refine (ofBytesLE_lt _).trans_eq ?_
    rw [List.length_map, List.length_range]
theorem VCtx.slots_eq (v : VCtx) : v.slots = slotsOf v := by unfold VCtx.slots slotsOf cdiv; omega
/-- The number that elements stand for, as bytes. -/
theorem ofBytesLE_elems (s : State) (v : VCtx) (ew : IsEw v.ew) (r : BitVec 5) :
    ofBytesLE ((List.range v.vl).flatMap fun i => bytesLE (v.ew / 8) (s.elem v r i)) = packedVec s v r := by
  rw [(ofBytesLE_fields (v.ew / 8) (s.elem v r) (s.elem_lt v r) v.vl).2]
  unfold packedVec
  congr 1
  refine List.map_congr_left fun i _ => ?_
  rw [Nat.pow_mul, ew.pow, ← Nat.pow_mul]
theorem State.packSlots_eq (s : State) (v : VCtx) (ew : IsEw v.ew) (r : BitVec 5) :
    s.packSlots v r = (List.range (slotsOf v)).map fun i => .ofNat 64 (packedVec s v r / 2 ^ (64 * i)) := by
  unfold State.packSlots
  dsimp only
  rw [v.slots_eq]
  refine List.map_congr_left fun i _ => ?_
  unfold dword
  rw [ofBytesLE_take, ofBytesLE_drop, ofBytesLE_elems s v ew r, show (256 : Nat) ^ (8 * i) = 2 ^ (64 * i) by rw [Nat.pow_mul, Nat.pow_mul]]
  refine BitVec.eq_of_toNat_eq ?_
  rw [BitVec.toNat_ofNat, BitVec.toNat_ofNat]
  exact Nat.mod_mod _ _

/-! Messages. -/

/-- The `j`-th message of slots cut into messages of `m`. -/
def pieceAt (m : Nat) (l : List Word) (j : Nat) : Msg := { slots := (l.drop (j * m)).take m }
theorem pieceAt_drop (m : Nat) (l : List Word) (j : Nat) : pieceAt m (l.drop m) j = pieceAt m l (j + 1) := by
  unfold pieceAt
  rw [List.drop_drop, Nat.add_comm m, ← Nat.succ_mul]
/-- The slots in order, each message as full as it can be. -/
theorem cutMessages_eq {m : Nat} (some_ : 0 < m) : ∀ (f : Nat) (l : List Word), l.length ≤ f →
    cutMessages m f l = (List.range ((l.length + m - 1) / m)).map (pieceAt m l)
  | f, [], _ => by
    have none_ : ([] : List Word).length + m - 1 < m := by rw [List.length_nil]; omega
    rw [Nat.div_eq_of_lt none_]
    cases f <;> rfl
  | 0, x :: l, fuel => absurd fuel (by simp)
  | f + 1, x :: l, fuel => by
    have fuel' : ((x :: l).drop m).length ≤ f := by rw [List.length_drop]; omega
    have count : ((x :: l).length + m - 1) / m = (((x :: l).drop m).length + m - 1) / m + 1 := by
      rw [List.length_drop, List.length_cons, show l.length + 1 + m - 1 = l.length + m by omega, Nat.add_div_right _ some_]
      refine congrArg (· + 1) ?_
      by_cases short : l.length + 1 ≤ m
      · rw [Nat.div_eq_of_lt (by omega), Nat.div_eq_of_lt (by omega)]
      · rw [show l.length + 1 - m + m - 1 = l.length by omega]
    rw [count, List.range_succ_eq_map, List.map_cons, List.map_map]
    refine congrArg₂ List.cons ?_ ?_
    · unfold pieceAt; rw [Nat.zero_mul, List.drop_zero]
    · rw [cutMessages_eq some_ f _ fuel']
      exact List.map_congr_left fun j _ => pieceAt_drop m _ j

end Sys2Proof.Machine
end

section
/-! PROOFS. VPUSH (R61), and the obligation of the pushes. -/

namespace Sys2Proof.Machine

/-- The vector unit of a process works for it, and nothing but the owners of its slivers has changed (R241). -/
theorem State.owned_offTiles (s : State) : s.owned.offTiles = s.offTiles := by
  unfold State.owned State.takeUnits
  dsimp only
  split <;> rfl

section
variable {s : State} {c : BitVec 4}

theorem WritesTo.of_me {t : State} {e m n : Nat} (w : WritesTo s c e m n) (me : t.me = s.me) : WritesTo t c e m n := by
  obtain ⟨role, plain, dest, open_, fits, credits⟩ := w
  rw [← me] at role plain dest open_ fits credits
  exact ⟨role, plain, dest, open_, fits, credits⟩
theorem NoneUnderWay.owned (none_ : NoneUnderWay s) : NoneUnderWay s.owned := by
  obtain ⟨staged, buffered, accesses⟩ := none_
  have rest := s.owned_offTiles
  have staged' := congrArg State.staged rest
  have reqs := congrArg State.reqs rest
  obtain ⟨o, tile, -⟩ := s.owned_tile s.me.tile
  refine ⟨Eq.trans staged' staged, fun e he => ?_, fun e he => ?_⟩
  · rw [s.owned_running]
    rw [s.owned_me, tile] at he
    exact buffered e he
  · rw [s.owned_running]
    rw [show s.owned.reqs = s.reqs from reqs] at he
    exact accesses e he
theorem Sent.of_owned {t : State} {n : Nat} {ms : List Msg} (x : Sent s.owned t c n ms) : Sent s t c n ms := by
  obtain ⟨⟨went, regs, special, memory, running⟩, chan, others, net, due, staged⟩ := x
  have data : dataOf s.owned c = dataOf s c := by unfold dataOf; rw [s.owned_running, s.owned_me]
  have net' := congrArg State.net s.owned_offTiles
  rw [s.owned_me] at went special chan others
  rw [data] at net
  rw [s.owned_running] at due running
  exact ⟨⟨went, fun r hr => (regs r hr).trans (s.owned_reg r), special, s.owned_memory.trans memory, running⟩, chan, others,
    net.trans (congrArg (· ++ ms.map (dataOf s c)) net'), due, staged⟩

/-- Slots of the messages of a list. -/
def slotSum (ms : List Msg) : Nat := (ms.map Msg.size).sum

/-- The count of what a VPUSH has sent is its own (R61). -/
theorem Pushed.counted {t : State} {n : Nat} {ms : List Msg} (p : Pushed s t c n ms) (f : Proc → Tab Nat) :
    Pushed s (t.updMe fun p => { p with vpushed := f p }) c n ms := by
  have me := t.updMe_me fun p => { p with vpushed := f p }
  refine ⟨p.running, by rw [me]; exact p.calm, by rw [me]; exact p.chan, fun k hk => by rw [me]; exact p.others k hk, p.net, p.due,
    p.memory.trans (t.updMe_memory _), p.tile, p.under.staged, ?_, p.under.accesses⟩
  rw [me]
  exact p.under.buffered

/-- With credits for all of them a VPUSH outside a strip sends its messages one after another (R61). -/
theorem Pushed.each {e : Nat} (x : OpenTo (s.me.chan c.toNat) e) (strip : s.me.strip = none) : ∀ (ms : List Msg) (u : State) (k : Nat) (done : List Msg),
    Pushed s u c k done → (∀ m ∈ ms, 0 < m.size) → k + slotSum ms ≤ (s.me.chan c.toNat).credits →
    ∃ t, u.pushEach c.toNat ms = t.retire 0x28 ∧ Pushed s t c (k + slotSum ms) (done ++ ms)
  | [], u, k, done, p, _, _ => ⟨u, rfl, by rw [List.append_nil]; exact p⟩
  | m :: ms, u, k, done, p, some_, enough => by
    have sum : slotSum (m :: ms) = m.size + slotSum ms := rfl
    have open_ : OpenTo (u.me.chan c.toNat) e := by rw [p.chan]; exact ⟨x.dest, x.frozen, x.refused⟩
    have credits : (u.me.chan c.toNat).credits = (s.me.chan c.toNat).credits - k := by rw [p.chan]; rfl
    have paid := Pushed.paid p.under c m.size
    have strip' : (u.updChan u.running c.toNat (ChanReg.spend m.size)).me.strip = none := by
      have a := congrArg Proc.strip paid.calm
      have b := congrArg Proc.strip p.calm
      exact (Eq.trans a b).trans strip
    have next := (p.trans (paid.posts open_ m) (by simp)).counted fun q => Tab.put q.vpushed q.pc.toNat (Tab.lookD q.vpushed q.pc.toNat 0 + 1)
    have step : u.pushEach c.toNat (m :: ms) = State.pushEach (((u.updChan u.running c.toNat (ChanReg.spend m.size)).stage
        (u.updChan u.running c.toNat (ChanReg.spend m.size)).running c.toNat m).updMe fun q =>
          { q with vpushed := Tab.put q.vpushed q.pc.toNat (Tab.lookD q.vpushed q.pc.toNat 0 + 1) }) c.toNat ms := by
      have go := State.withCredits_enough (op := 0x28) (k := fun s => State.pushEach ((s.holdBack (.push c.toNat m)).updMe fun q =>
        { q with vpushed := Tab.put q.vpushed q.pc.toNat (Tab.lookD q.vpushed q.pc.toNat 0 + 1) }) c.toNat ms) open_ (some_ m List.mem_cons_self)
        (by rw [credits]; omega)
      rw [State.holdBack_stages strip'] at go
      exact go
    obtain ⟨t, run, pushed⟩ := Pushed.each x strip ms _ _ _ next (fun y hy => some_ y (List.mem_cons_of_mem _ hy)) (by omega)
    refine ⟨t, step.trans run, ?_⟩
    rw [List.append_assoc, Nat.add_assoc] at pushed
    exact pushed

/-- The messages of a VPUSH. -/
def State.pieces (s : State) (d : BitVec 5) (m : Nat) : List Msg :=
  (List.range ((slotsOf s.vc + m) / (m + 1))).map
    (pieceAt (m + 1) ((List.range (slotsOf s.vc)).map fun i => .ofNat 64 (packedVec s s.vc d / 2 ^ (64 * i))))
theorem State.cut_pieces (s : State) (d : BitVec 5) (m : Nat) : cutMessages (m + 1) s.vc.slots (s.packSlots s.vc d) = s.pieces d m := by
  have length : (s.packSlots s.vc d).length = slotsOf s.vc := by rw [s.packSlots_eq s.vc (ewOf_isEw _) d, List.length_map, List.length_range]
  rw [cutMessages_eq (Nat.succ_pos m) _ _ (by rw [length, s.vc.slots_eq]), length, s.packSlots_eq s.vc (ewOf_isEw _) d]
  rfl
/-- They hold every slot. -/
theorem slotSum_pieces {m : Nat} (some_ : 0 < m) : ∀ (f : Nat) (l : List Word), l.length ≤ f →
    slotSum (cutMessages m f l) = l.length ∧ ∀ x ∈ cutMessages m f l, 0 < x.size
  | f, [], _ => by cases f <;> exact ⟨rfl, fun _ h => by cases h⟩
  | 0, x :: l, fuel => absurd fuel (by simp)
  | f + 1, x :: l, fuel => by
    obtain ⟨sum, all⟩ := slotSum_pieces some_ f ((x :: l).drop m) (by rw [List.length_drop]; omega)
    have first : ({ slots := (x :: l).take m } : Msg).size = min m (x :: l).length := List.length_take
    refine ⟨?_, fun y hy => ?_⟩
    · change Msg.size _ + slotSum (cutMessages m f ((x :: l).drop m)) = _
      rw [sum, first, List.length_drop]
      omega
    · rcases List.mem_cons.1 hy with rfl | hy
      · rw [first, List.length_cons]; omega
      · exact all y hy

/-- What a VPUSH does once the vector unit is its process's. -/
def State.vpushBody (d : BitVec 5) (c : BitVec 4) (m : BitVec 5) (s : State) : State :=
  s.onChan 0x28 c.toNat .writer (min (m.toNat + 1) s.vc.slots)
    (if s.toServer c.toNat then s.raise 0x28 .protection
     else if (cutMessages (m.toNat + 1) s.vc.slots (s.packSlots s.vc d)).isEmpty then s.retire 0x28
     else if s.me.strip.isSome then s.withCredits 0x28 c.toNat s.vc.slots fun u =>
       ((cutMessages (m.toNat + 1) s.vc.slots (s.packSlots s.vc d)).foldl (fun s x => s.holdBack (.push c.toNat x)) u).retire 0x28
     else s.pushEach c.toNat ((cutMessages (m.toNat + 1) s.vc.slots (s.packSlots s.vc d)).drop (Tab.lookD s.me.vpushed s.me.pc.toNat 0)))
theorem exec_vpush (s : State) (d m : BitVec 5) : exec (.vpush d c m) s = .next (s.vectorOp 0x28 [d] (State.vpushBody d c m)) := rfl
theorem State.vpushBody_pushes {d m : BitVec 5} {e : Nat} (w : WritesTo s c e (min (m.toNat + 1) (slotsOf s.vc)) (slotsOf s.vc))
    (strip : s.me.strip = none) (first : Tab.lookD s.me.vpushed s.me.pc.toNat 0 = 0) (none_ : NoneUnderWay s) :
    ∃ t, s.vpushBody d c m = t.retire 0x28 ∧ Pushed s t c (slotsOf s.vc) (s.pieces d m.toNat) := by
  have length : (s.packSlots s.vc d).length = slotsOf s.vc := by rw [s.packSlots_eq s.vc (ewOf_isEw _) d, List.length_map, List.length_range]
  obtain ⟨sum, some_⟩ := slotSum_pieces (Nat.succ_pos m.toNat) s.vc.slots (s.packSlots s.vc d) (by rw [length, s.vc.slots_eq])
  rw [Nat.succ_eq_add_one, s.cut_pieces] at sum some_
  rw [length] at sum
  have body : s.vpushBody d c m = if (s.pieces d m.toNat).isEmpty then s.retire 0x28 else s.pushEach c.toNat (s.pieces d m.toNat) := by
    rw [← s.vc.slots_eq] at w
    unfold State.vpushBody
    rw [w.onChan, w.toServer, if_neg (by decide), s.cut_pieces, strip, first, List.drop_zero]
    rfl
  obtain ⟨t, run, pushed⟩ := Pushed.each w.opened strip (s.pieces d m.toNat) s 0 [] (.refl none_) some_ (by rw [sum, Nat.zero_add]; exact w.credits)
  rw [sum, Nat.zero_add, List.nil_append] at pushed
  refine ⟨t, body.trans ?_, pushed⟩
  split
  · next empty => rw [List.isEmpty_iff.1 empty] at run; exact run
  · exact run

theorem vpushSends {d m : BitVec 5} {e : Nat} (ready : VecReady s [d]) (strip : s.me.strip = none)
    (first : Tab.lookD s.me.vpushed s.me.pc.toNat 0 = 0) (none_ : NoneUnderWay s)
    (w : WritesTo s c e (min (m.toNat + 1) (slotsOf s.vc)) (slotsOf s.vc)) :
    ∃ t, exec (.vpush d c m) s = .next t ∧ SameVec s t ∧ Sent s t c (slotsOf s.vc) (s.pieces d m.toNat) := by
  obtain ⟨t, body, pushed⟩ := State.vpushBody_pushes (s := s.owned) (d := d) (m := m) (by rw [s.owned_vc]; exact w.of_me s.owned_me)
    (by rw [s.owned_me]; exact strip) (by rw [s.owned_me]; exact first) none_.owned
  have pieces : s.owned.pieces d m.toNat = s.pieces d m.toNat := by unfold State.pieces packedVec; simp only [State.owned_vc, State.owned_elem]
  rw [s.owned_vc, pieces] at pushed
  have sent := pushed.sent (by rw [s.owned_me]; exact ready.step) 0x28
  have steps : t.me.ss = false := by
    have e := congrArg Proc.ss pushed.calm
    exact Eq.trans e (by rw [s.owned_me]; exact ready.step)
  have run : exec (.vpush d c m) s = .next (t.retire 0x28) := by
    rw [exec_vpush, s.vectorOp_ready 0x28 [d] _ ready (by rw [body, sent.only.went.ready]; simp), body]
  refine ⟨_, run, fun n k => ?_, sent.of_owned⟩
  obtain ⟨o, tile, -⟩ := s.owned_tile n
  have kept : ((t.retire 0x28).tile n).vbank = (t.tile n).vbank := (State.jump_only t 0x28 (t.me.pc + 4) steps).units.vbank n
  rw [kept, pushed.tile, tile]

end

/-- Settles O33: a push with its credits sends its messages or holds them back, one without blocks, and the checks refuse the rest. -/
theorem channelPush : Obligations.ChannelPush := by
  unfold Obligations.ChannelPush
  refine ⟨fun s d m c e w free plain none_ => cpushSends w free plain none_, fun s d m c e k w free strip ss => cpushHeld w free strip ss,
    fun s c e w plain none_ => ccloseSends w plain none_, fun s k c e w plain none_ tag send binds => ksendSends w plain none_ tag send binds,
    fun s d m c e ready strip first none_ w => vpushSends ready strip first none_ w,
    fun s d m c e w _ free poor future => cpushBlocks w free poor future,
    fun s i c role n rs x use fault free strip => chanUse_faults use fault free strip,
    fun s d c e w free strip once granted empty => cpushOverwrites w free strip once granted empty⟩

end Sys2Proof.Machine
end

section
/-! PROOFS. What a read takes from a queue (R60). -/

namespace Sys2Proof.Machine

/-- With no slot in the Caldera there is nothing to refill (R76). -/
theorem refill_near (n : Nat) {q : List QSlot} (near : ∀ x ∈ q, x.cal = false) : refill n q = q := by
  have walk : ∀ (q : List QSlot) (a : List QSlot × Nat), (∀ x ∈ q, x.cal = false) →
      (q.foldl (fun (a : List QSlot × Nat) x =>
        if x.cal && decide (0 < a.2) then (a.1 ++ [{ x with cal := false }], a.2 - 1) else (a.1 ++ [x], a.2)) a).1 = a.1 ++ q := by
    intro q
    induction q with
    | nil => exact fun a _ => (List.append_nil _).symm
    | cons x q ih =>
      intro a near
      rw [List.foldl_cons, near x List.mem_cons_self, Bool.false_and, if_neg (by decide), ih _ fun y hy => near y (List.mem_cons_of_mem _ hy),
        List.append_assoc]
      rfl
  exact (walk q _ near).trans (List.nil_append q)

/-- Entries of a queue that a read of `n` slots takes are there (R60). -/
theorem takenBy_le {s : State} {e n : Nat} (ready : n ≤ dataIn s e ∨ markerIn s e) : takenBy n (dataIn s e) ≤ (s.ep e).queue.length := by
  have data : dataIn s e ≤ (s.ep e).queue.length := (List.takeWhile_prefix _).length_le
  unfold takenBy
  split
  · next short =>
    obtain ⟨x, hx, marker⟩ := ready.resolve_left (by omega)
    refine Nat.lt_of_le_of_ne data fun all => ?_
    have whole := List.takeWhile_eq_self_iff.1 ((List.takeWhile_prefix fun x : QSlot => !x.marker).eq_of_length all) x hx
    rw [marker] at whole
    exact absurd whole (by decide)
  · next enough => omega
/-- A read need not wait where its slots or a marker are there, and waits otherwise (R60). -/
theorem readReady_iff (s : State) (e n : Nat) : readReady (s.ep e).queue n = true ↔ n ≤ dataIn s e ∨ markerIn s e := by
  have marked : (dataAhead (s.ep e).queue).2 = true ↔ markerIn s e := by
    refine decide_eq_true_iff.trans ⟨fun short => ?_, fun marker => ?_⟩
    · by_contra none_
      have whole : (s.ep e).queue.takeWhile (fun x => !x.marker) = (s.ep e).queue := List.takeWhile_eq_self_iff.2 fun x hx => by
        cases marker : x.marker with
        | false => rfl
        | true => exact absurd ⟨x, hx, marker⟩ none_
      rw [whole] at short
      exact Nat.lt_irrefl _ short
    · have taken := takenBy_le (n := dataIn s e + 1) (.inr marker)
      unfold takenBy at taken
      rw [if_pos (Nat.lt_succ_self _)] at taken
      exact taken
  unfold readReady
  exact (Bool.or_eq_true _ _).to_iff.trans (or_congr decide_eq_true_iff marked)
theorem cflagsOf_eq (n j : Nat) : cflagsOf (decide (j < n)) (min n j) = cflagsRead n j := by
  have bit : bit1 (decide (j < n)) = if j < n then 1 else 0 := by by_cases short : j < n <;> simp [bit1, short]
  unfold cflagsOf cflagsRead
  rw [bit]
  refine BitVec.eq_of_toNat_eq ?_
  rw [BitVec.toNat_ofNat, BitVec.toNat_ofNat]
  split <;> omega

section
variable {s : State} {c : BitVec 4} {e n : Nat}

theorem ReadsFrom.check (r : ReadsFrom s c e n) : s.chanCheck c.toNat .reader n = none := by
  obtain ⟨role, plain, -, dest, fits, -, -⟩ := r
  unfold State.chanCheck
  dsimp only
  rw [role, plain, dest, if_neg (by decide), if_neg (by decide)]
  exact if_neg (Nat.not_lt.2 fits)
theorem ReadsFrom.onChan (r : ReadsFrom s c e n) (op : Nat) (k : State) : s.onChan op c.toNat .reader n k = k := by
  unfold State.onChan
  rw [r.check]
/-- The queue as it is read, where nothing is retained. -/
theorem ReadsFrom.queue (r : ReadsFrom s c e n) (none_ : s.me.retained c.toNat = 0) : s.queueOf s.running c.toNat = (s.ep e).queue := by
  have dest : ((s.proc s.running).chan c.toNat).dest = .tile e := r.dest
  have none' : (s.proc s.running).retained c.toNat = 0 := none_
  unfold State.queueOf
  dsimp only
  rw [dest, none']
  dsimp only [Dest.rid]
  rw [r.kept, List.drop_zero]
theorem ReadsFrom.calDenied (r : ReadsFrom s c e n) (k : Nat) : s.calDenied (s.ep e).queue k = false := by
  unfold State.calDenied
  rw [List.any_eq_false.2 fun x hx => by rw [r.near x (List.mem_of_mem_take hx)]; decide, Bool.and_false]
theorem ReadsFrom.of_me {t : State} (r : ReadsFrom s c e n) (me : t.me = s.me) (eps : ∀ k, t.ep k = s.ep k) : ReadsFrom t c e n := by
  obtain ⟨role, plain, open_, dest, fits, kept, near⟩ := r
  rw [← me] at role plain open_ dest
  rw [← eps] at fits kept near
  exact ⟨role, plain, open_, dest, fits, kept, near⟩

/-- Entries consumed at the head of a queue leave it, and but for that only credits move (R56). -/
theorem State.consume_takes (s : State) (e k : Nat) (kept : (s.ep e).kept = 0) (near : ∀ x ∈ (s.ep e).queue, x.cal = false) :
    ((s.consume e k).ep e).queue = (s.ep e).queue.drop k ∧
      ((s.consume e k).ep e).consumed = (s.ep e).consumed + .ofNat 64 ((s.ep e).queue.take k).length ∧
      (∀ h, ((s.consume e k).proc h).core = (s.proc h).core) ∧ ∀ n, ((s.consume e k).tile n).core = (s.tile n).core := by
  have left : (s.ep e).queue.take (s.ep e).kept ++ (s.ep e).queue.drop ((s.ep e).kept + k) = (s.ep e).queue.drop k := by
    rw [kept, List.take_zero, List.nil_append, Nat.zero_add]
  have took : ((s.ep e).queue.drop (s.ep e).kept).take k = (s.ep e).queue.take k := by rw [kept, List.drop_zero]
  have whole : ∀ (full : Bool) (n : Nat), (if full then refill n ((s.ep e).queue.drop k) else (s.ep e).queue.drop k) = (s.ep e).queue.drop k := fun full n => by
    rw [refill_near n fun x hx => near x (List.mem_of_mem_drop hx)]
    exact ite_self _
  unfold State.consume
  dsimp only
  rw [took]
  generalize List.foldr _ _ _ = runs
  generalize hu : s.updEp e _ = u
  have traffic := Traffic.foldl runs (fun u r => u.giveBack e r.1 r.2) (fun u r => Traffic.giveBack u e r.1 r.2) u
  have ep : u.ep e = { s.ep e with queue := (s.ep e).queue.drop k, consumed := (s.ep e).consumed + .ofNat 64 ((s.ep e).queue.take k).length } := by
    rw [← hu, State.updEp_ep_same, left, whole]
  have procs : ∀ h, u.proc h = s.proc h := fun h => by rw [← hu]; rfl
  have tiles : ∀ n, u.tile n = s.tile n := fun n => by rw [← hu]; rfl
  refine ⟨?_, ?_, fun h => ?_, fun n => ?_⟩
  · have stock := congrArg Endpoint.queue (traffic.eps e)
    exact Eq.trans stock (by rw [show u.ep e = _ from ep]; rfl)
  · have stock := congrArg Endpoint.consumed (traffic.eps e)
    exact Eq.trans stock (by rw [show u.ep e = _ from ep]; rfl)
  · rw [traffic.procs, procs]
  · rw [traffic.tiles, tiles]

/-- From `s` to `t` a read of `n` slots has taken them and set CFLAGS, and nothing else of the running process has changed. -/
structure Took (s t : State) (e n : Nat) : Prop where
  core : t.me.core = { s.me.core with cflags := cflagsRead n (dataIn s e) }
  consumed : Consumed s t e n
  memory : SameMemory s t
  running : t.running = s.running
  tiles : ∀ k, (t.tile k).core = (s.tile k).core

/-- The state behind a read of `n` slots (R60). -/
def State.read (s : State) (c e n : Nat) : State :=
  (s.takeSlots c (takenBy n (dataIn s e))).setCflags (decide (dataIn s e < n)) (min n (dataIn s e))
theorem ReadsFrom.took (r : ReadsFrom s c e n) (strip : s.me.strip = none) (ready : n ≤ dataIn s e ∨ markerIn s e) :
    Took s (s.read c.toNat e n) e n := by
  have takes : s.takeSlots c.toNat (takenBy n (dataIn s e)) = s.consume e (takenBy n (dataIn s e)) := by
    unfold State.takeSlots
    rw [strip, r.dest]
    rfl
  obtain ⟨queue, consumed, procs, tiles⟩ := s.consume_takes e (takenBy n (dataIn s e)) r.kept r.near
  have kept := s.consume_kept e (takenBy n (dataIn s e))
  rw [List.length_take, Nat.min_eq_left (takenBy_le ready)] at consumed
  unfold State.read State.setCflags
  rw [takes, cflagsOf_eq]
  generalize s.consume e (takenBy n (dataIn s e)) = u at queue consumed procs tiles kept
  have running : u.running = s.running := by have x := congrArg State.running kept; exact x
  have core : u.me.core = s.me.core := by unfold State.me; rw [running]; exact procs s.running
  refine ⟨?_, ⟨queue, consumed⟩, (SameMemory.of_kept kept).trans (u.updMe_memory _), running, tiles⟩
  have flags := congrArg (fun p : Proc => { p with cflags := cflagsRead n (dataIn s e) }) core
  rw [State.updMe_me]
  exact flags

/-- A read whose slots or whose marker are there takes them (R60). -/
theorem ReadsFrom.pops (r : ReadsFrom s c e n) (none_ : s.me.retained c.toNat = 0) (ready : n ≤ dataIn s e ∨ markerIn s e) (op : Nat)
    (k : State → List QSlot → State) :
    s.popSlots op c.toNat n k = k (s.read c.toNat e n) ((s.ep e).queue.take (min n (dataIn s e))) := by
  have count : min n (dataIn s e) + (if dataIn s e < n then 1 else 0) = takenBy n (dataIn s e) := by
    unfold takenBy
    split <;> omega
  unfold State.popSlots
  dsimp only
  rw [r.queue none_, (readReady_iff s e n).2 ready, if_neg (by decide), r.calDenied, if_neg (by decide)]
  change k ((s.takeSlots c.toNat (min n (dataIn s e) + if dataIn s e < n then 1 else 0)).setCflags _ _) _ = _
  rw [count]
  rfl
/-- One that finds neither blocks its process (R60). -/
theorem ReadsFrom.blocks (r : ReadsFrom s c e n) (none_ : s.me.retained c.toNat = 0) (few : dataIn s e < n) (unmarked : ¬markerIn s e) (op : Nat)
    (k : State → List QSlot → State) : s.popSlots op c.toNat n k = s.block (.blockedRead c.toNat) n := by
  have waits : readReady (s.ep e).queue n = false := Bool.eq_false_iff.2 fun ready => by
    rcases (readReady_iff s e n).1 ready with enough | marker
    · omega
    · exact unmarked marker
  unfold State.popSlots
  dsimp only
  rw [r.queue none_, waits, if_pos rfl]

theorem State.retained_none (strip : s.me.strip = none) (i : Nat) : s.me.retained i = 0 := by
  unfold Proc.retained
  rw [strip]
  rfl

/-- The instruction that has read and written scalar registers completes. -/
theorem Took.done {t u : State} {ds : List (BitVec 5)} (x : Took s t e n) (ss : s.me.ss = false) (op : Nat) (regs : ∀ r, r ∉ ds → u.reg r = t.reg r)
    (status : u.me.ss = t.me.ss) (pc : u.me.pc = t.me.pc) (special : u.me.specials = t.me.specials) (eps : ∀ k, u.ep k = t.ep k) (memory : SameMemory t u)
    (running : u.running = t.running) :
    Consumed s (u.retire op) e n ∧ OnlyFlags s (u.retire op) ds (cflagsRead n (dataIn s e)) := by
  obtain ⟨core, ⟨queue, consumed⟩, memory', running', -⟩ := x
  have pc' := congrArg Proc.pc core
  have regs' := fun r : BitVec 5 => congrArg (fun p : Proc => p.reg r.toNat) core
  have special' := congrArg Proc.specials core
  have ss' := congrArg Proc.ss core
  have steps : u.me.ss = false := status.trans (Eq.trans ss' ss)
  have ep : ∀ k, (u.retire op).ep k = t.ep k := fun k => ((State.jump_only u op (u.me.pc + 4) steps).rest.eps k).trans (eps k)
  refine ⟨⟨by rw [ep]; exact queue, by rw [ep]; exact consumed⟩, .of_retire op steps (pc.trans pc') (fun r hr => ?_) (special.trans special')
    (memory'.trans memory) (running.trans running')⟩
  exact (regs r hr).trans (regs' r)
end

end Sys2Proof.Machine
end

section
/-! PROOFS. CPOP, CPEEK and CADV (R60). -/

namespace Sys2Proof.Machine

/-- Scalar registers written one after another, each with the value of its place. -/
def State.setRegs (s : State) (l : List (BitVec 5 × Nat)) (f : Nat → Word) : State := l.foldl (fun s r => s.setReg r.1 (f r.2)) s
/-- From `s` to `t` scalar registers of the running process have been written. -/
structure Wrote (s t : State) (ds : List (BitVec 5)) : Prop where
  regs : ∀ r, r ∉ ds → t.reg r = s.reg r
  me : t.me = { s.me with sregs := t.me.sregs }
  rest : { t with procs := [] } = { s with procs := [] }
namespace Wrote
variable {s t u : State} {ds es : List (BitVec 5)}

theorem refl (s : State) (ds : List (BitVec 5)) : Wrote s s ds := ⟨fun _ _ => rfl, rfl, rfl⟩
theorem setReg (s : State) (d : BitVec 5) (x : Word) : Wrote s (s.setReg d x) [d] := by
  refine ⟨(State.setReg_same s d x).regs, ?_, rfl⟩
  rw [State.setReg_me]
  unfold Proc.setReg
  split <;> rfl
theorem trans (a : Wrote s t ds) (b : Wrote t u es) (sub : ∀ r ∈ es, r ∈ ds) : Wrote s u ds where
  regs r hr := (b.regs r fun h => hr (sub r h)).trans (a.regs r hr)
  me := by rw [b.me, a.me]
  rest := b.rest.trans a.rest
theorem weaken (a : Wrote s t ds) (sub : ∀ r ∈ ds, r ∈ es) : Wrote s t es := ⟨fun r hr => a.regs r fun h => hr (sub r h), a.me, a.rest⟩
theorem memory (w : Wrote s t ds) : SameMemory s t := by
  have sram := congrArg State.sram w.rest
  have hbm := congrArg State.hbm w.rest
  have epochs := congrArg State.hbmEpoch w.rest
  have sramTags := congrArg State.sramTags w.rest
  have hbmTags := congrArg State.hbmTags w.rest
  have parts := congrArg State.parts w.rest
  exact .of_tables sram hbm epochs sramTags hbmTags fun n => by
    have key := congrArg (fun q => (Tab.lookD q n ({} : Partition)).key) parts
    exact key
theorem ep (w : Wrote s t ds) (k : Nat) : t.ep k = s.ep k := by have e := congrArg (fun u : State => u.ep k) w.rest; exact e
theorem running (w : Wrote s t ds) : t.running = s.running := by have e := congrArg State.running w.rest; exact e
theorem pc (w : Wrote s t ds) : t.me.pc = s.me.pc := by rw [w.me]
theorem specials (w : Wrote s t ds) : t.me.specials = s.me.specials := by rw [w.me]; rfl
theorem ss (w : Wrote s t ds) : t.me.ss = s.me.ss := by rw [w.me]; rfl
theorem strip (w : Wrote s t ds) : t.me.strip = s.me.strip := by rw [w.me]
end Wrote

theorem State.setRegs_wrote (f : Nat → Word) : ∀ (l : List (BitVec 5 × Nat)) (s : State), Wrote s (s.setRegs l f) (l.map Prod.fst)
  | [], s => .refl s _
  | x :: l, s => ((Wrote.setReg s x.1 (f x.2)).weaken fun r hr => by rw [List.mem_singleton.1 hr]; exact List.mem_cons_self).trans
      (State.setRegs_wrote f l (s.setReg x.1 (f x.2))) fun _ hr => List.mem_cons_of_mem _ hr
/-- Where no register stands twice in the list, each holds its value, and s0 zero (R28). -/
theorem State.setRegs_reads (f : Nat → Word) : ∀ (l : List (BitVec 5 × Nat)) (s : State), (l.map Prod.fst).Nodup → ∀ x ∈ l,
    (s.setRegs l f).reg x.1 = if x.1 = 0 then 0 else f x.2
  | [], _, _, x, hx => nomatch hx
  | y :: l, s, nodup, x, hx => by
    obtain ⟨fresh, nodup'⟩ := List.nodup_cons.1 nodup
    change ((s.setReg y.1 (f y.2)).setRegs l f).reg x.1 = _
    rcases List.mem_cons.1 hx with rfl | hx
    · rw [(State.setRegs_wrote f l _).regs _ fresh, State.reg_setReg]
      by_cases zero : x.1 = 0
      · rw [if_neg fun h => h.2 zero, if_pos zero, zero]; rfl
      · rw [if_pos ⟨rfl, zero⟩, if_neg zero]
    · exact State.setRegs_reads f l _ nodup' x hx

/-- The registers of a run are distinct: there are at most 32 of them. -/
theorem regRun_nodup (d m : BitVec 5) : (regRun d m.toNat).Nodup := by
  refine (List.nodup_map_iff_inj_on List.nodup_range).2 fun i hi j hj same => ?_
  have low := m.isLt
  rw [List.mem_range] at hi hj
  have places := congrArg BitVec.toNat (add_left_cancel same)
  rw [BitVec.toNat_ofNat, BitVec.toNat_ofNat] at places
  omega
theorem regRun_zipIdx (d : BitVec 5) (m : Nat) : (regRun d m).zipIdx.map Prod.fst = regRun d m := List.zipIdx_map_fst 0 _
theorem mem_regRun_zipIdx (d : BitVec 5) {i m : Nat} (h : i ≤ m) : (d + .ofNat 5 i, i) ∈ (regRun d m).zipIdx := by
  refine List.mem_zipIdx_iff_getElem?.2 ?_
  unfold regRun
  rw [List.getElem?_map, List.getElem?_range (Nat.lt_succ_of_le h)]
  rfl

section
variable {s : State} {c : BitVec 4} {d m b : BitVec 5} {e n : Nat}

/-- What a slot of those taken holds; zero beyond them. -/
theorem slotVal_take (q : List QSlot) {i n : Nat} (h : i < n) (j : Nat) :
    slotVal (q.take (min n j)) i = if i < j then ((q[i]?).map fun x => x.val).getD 0 else 0 := by
  unfold slotVal
  rw [List.getElem?_take]
  by_cases short : i < j
  · rw [if_pos short, if_pos (by omega)]
  · rw [if_neg short, if_neg (by omega)]
    rfl
theorem Took.wrote {t u : State} {ds : List (BitVec 5)} (x : Took s t e n) (ss : s.me.ss = false) (op : Nat) (w : Wrote t u ds) :
    Consumed s (u.retire op) e n ∧ OnlyFlags s (u.retire op) ds (cflagsRead n (dataIn s e)) :=
  x.done ss op w.regs w.ss w.pc w.specials w.ep w.memory w.running
theorem State.retire_reg (s : State) (op : Nat) (ss : s.me.ss = false) (r : BitVec 5) : (s.retire op).reg r = s.reg r :=
  (State.jump_only s op (s.me.pc + 4) ss).regs.regs r (by simp)

/-- What CPOP does with the slots taken. -/
def popped (d m : BitVec 5) (s : State) (l : List QSlot) : State := (s.setRegs (regRun d m.toNat).zipIdx (slotVal l)).retire 0x28
theorem exec_cpop (r : ReadsFrom s c e (m.toNat + 1)) (free : s.free ((List.range (m.toNat + 1)).map fun i => d + .ofNat 5 i)) :
    exec (.cpop d c m) s = .next (s.popSlots 0x28 c.toNat (m.toNat + 1) (popped d m)) :=
  congrArg Host.Outcome.next ((State.withRegs_free _ _ _ free).trans (r.onChan _ _))
theorem popped_reg (u : State) (ss : u.me.ss = false) (q : List QSlot) (j : Nat) {i : Nat} (h : i ≤ m.toNat) :
    (popped d m u (q.take (min (m.toNat + 1) j))).reg (d + .ofNat 5 i) =
      if d + .ofNat 5 i = 0 then 0 else if i < j then ((q[i]?).map fun x => x.val).getD 0 else 0 := by
  unfold popped
  have wrote := u.setRegs_wrote (slotVal (q.take (min (m.toNat + 1) j))) (regRun d m.toNat).zipIdx
  rw [State.retire_reg _ _ (wrote.ss.trans ss), State.setRegs_reads _ _ _ (by rw [regRun_zipIdx]; exact regRun_nodup d m) _ (mem_regRun_zipIdx d h),
    slotVal_take q (Nat.lt_succ_of_le h)]

theorem cpopTakes (r : ReadsFrom s c e (m.toNat + 1)) (plain : s.plain) (free : s.free ((List.range (m.toNat + 1)).map fun i => d + .ofNat 5 i))
    (ready : m.toNat + 1 ≤ dataIn s e ∨ markerIn s e) :
    ∃ t, exec (.cpop d c m) s = .next t ∧ Consumed s t e (m.toNat + 1) ∧
      (∀ i, i ≤ m.toNat → t.reg (d + .ofNat 5 i) = if d + .ofNat 5 i = 0 then 0
        else if i < dataIn s e then (((s.ep e).queue[i]?).map fun x => x.val).getD 0 else 0) ∧
      OnlyFlags s t ((List.range (m.toNat + 1)).map fun i => d + .ofNat 5 i) (cflagsRead (m.toNat + 1) (dataIn s e)) := by
  obtain ⟨ss, strip, -⟩ := plain
  have took := r.took strip ready
  have wrote := (s.read c.toNat e (m.toNat + 1)).setRegs_wrote (slotVal ((s.ep e).queue.take (min (m.toNat + 1) (dataIn s e)))) (regRun d m.toNat).zipIdx
  rw [regRun_zipIdx] at wrote
  obtain ⟨consumed, only⟩ := took.wrote ss 0x28 wrote
  have steps := congrArg Proc.ss took.core
  refine ⟨_, (exec_cpop r free).trans (congrArg _ (r.pops (State.retained_none strip _) ready 0x28 _)), consumed,
    fun i h => popped_reg _ (Eq.trans steps ss) _ _ h, only⟩

theorem cadvTakes (r : ReadsFrom s c e (s.reg b).toNat) (plain : s.plain) (free : s.free [b]) (ready : (s.reg b).toNat ≤ dataIn s e ∨ markerIn s e) :
    ∃ t, exec (.cadv c b) s = .next t ∧ Consumed s t e (s.reg b).toNat ∧ OnlyFlags s t [] (cflagsRead (s.reg b).toNat (dataIn s e)) := by
  obtain ⟨ss, strip, -⟩ := plain
  have run : exec (.cadv c b) s = .next (s.popSlots 0x28 c.toNat (s.reg b).toNat fun s _ => s.retire 0x28) :=
    congrArg Host.Outcome.next ((State.withRegs_free _ _ _ free).trans (r.onChan _ _))
  rw [r.pops (State.retained_none strip _) ready] at run
  exact ⟨_, run, (r.took strip ready).wrote ss 0x28 (.refl _ [])⟩

/-- CPEEK takes nothing (R60). -/
theorem cpeekLooks (r : ReadsFrom s c e ((s.reg b).toNat + 1)) (plain : s.plain) (free : s.free [d, b])
    (ready : (s.reg b).toNat < dataIn s e ∨ markerIn s e) :
    ∃ t, exec (.cpeek d c b) s = .next t ∧ (∀ e, t.ep e = s.ep e) ∧
      t.reg d = (if d = 0 then 0 else if (s.reg b).toNat < dataIn s e then (((s.ep e).queue[(s.reg b).toNat]?).map fun x => x.val).getD 0 else 0) ∧
      OnlyFlags s t [d] (if (s.reg b).toNat < dataIn s e then 256 else 1) := by
  obtain ⟨ss, strip, -⟩ := plain
  have run : exec (.cpeek d c b) s = .next (if dataIn s e ≤ (s.reg b).toNat then ((s.setReg d 0).setCflags true 0).retire 0x28
      else ((s.setReg d (slotVal (s.ep e).queue (s.reg b).toNat)).setCflags false 1).retire 0x28) := by
    refine congrArg Host.Outcome.next ((State.withRegs_free _ _ _ free).trans ((r.onChan _ _).trans ?_))
    dsimp only
    rw [r.queue (State.retained_none strip _), show s.regN b = (s.reg b).toNat from rfl, (readReady_iff s e _).2 ready, if_neg (by decide), r.calDenied,
      if_neg (by decide)]
    rfl
  have looks : ∀ (x : Word) (eos : Bool) (cnt : Nat), (∀ e, (((s.setReg d x).setCflags eos cnt).retire 0x28).ep e = s.ep e) ∧
      (((s.setReg d x).setCflags eos cnt).retire 0x28).reg d = (if d = 0 then 0 else x) ∧
      OnlyFlags s (((s.setReg d x).setCflags eos cnt).retire 0x28) [d] (cflagsOf eos cnt) := fun x eos cnt => by
    have wrote := Wrote.setReg s d x
    have value : (s.setReg d x).reg d = if d = 0 then 0 else x := by
      rw [State.reg_setReg]
      by_cases zero : d = 0
      · rw [if_neg fun h => h.2 zero, if_pos zero, zero]; rfl
      · rw [if_pos ⟨rfl, zero⟩, if_neg zero]
    have eps : ∀ k, ((s.setReg d x).setCflags eos cnt).ep k = s.ep k := wrote.ep
    have memory : SameMemory s ((s.setReg d x).setCflags eos cnt) := wrote.memory.trans ((s.setReg d x).updMe_memory _)
    have running : ((s.setReg d x).setCflags eos cnt).running = s.running := wrote.running
    have me : ((s.setReg d x).setCflags eos cnt).me = { (s.setReg d x).me with cflags := cflagsOf eos cnt } := State.updMe_me _ _
    have regs : ∀ r, ((s.setReg d x).setCflags eos cnt).reg r = (s.setReg d x).reg r := fun r => by unfold State.reg; rw [me]; rfl
    generalize (s.setReg d x).setCflags eos cnt = u at eps memory running me regs
    have steps : u.me.ss = false := by rw [me]; exact wrote.ss.trans ss
    refine ⟨fun k => ((State.jump_only u 0x28 (u.me.pc + 4) steps).rest.eps k).trans (eps k), (State.retire_reg u _ steps d).trans ((regs d).trans value),
      .of_retire 0x28 steps (by rw [me]; exact wrote.pc)
      (fun r hr => (regs r).trans (wrote.regs r hr)) ?_ memory running⟩
    have flags := congrArg (fun x : Specials => { x with cflags := cflagsOf eos cnt }) wrote.specials
    rw [me]
    exact flags
  by_cases short : (s.reg b).toNat < dataIn s e
  · rw [if_neg (Nat.not_le.2 short)] at run
    rw [if_pos short, if_pos short]
    exact ⟨_, run, looks _ _ _⟩
  · rw [if_pos (Nat.not_lt.1 short)] at run
    rw [if_neg short, if_neg short]
    exact ⟨_, run, looks _ _ _⟩

/-- Where neither the slots nor a marker are there, the process waits (R60). -/
theorem cpopWaits (r : ReadsFrom s c e (m.toNat + 1)) (plain : s.plain) (free : s.free ((List.range (m.toNat + 1)).map fun i => d + .ofNat 5 i))
    (few : dataIn s e < m.toNat + 1) (unmarked : ¬markerIn s e) :
    ∃ t, exec (.cpop d c m) s = .next t ∧ t.me.pst = .blockedRead c.toNat ∧ t.me.need = m.toNat + 1 ∧ t.me.pc = s.me.pc ∧
      (∀ e, t.ep e = s.ep e) ∧ SameRegs s t [] ∧ SameMemory s t ∧ t.me.specials = s.me.specials := by
  obtain ⟨-, strip, -⟩ := plain
  have me := s.block_me (.blockedRead c.toNat) (m.toNat + 1)
  refine ⟨_, (exec_cpop r free).trans (congrArg _ (r.blocks (State.retained_none strip _) few unmarked 0x28 _)), ?_, ?_, ?_, fun _ => rfl,
    s.block_sameRegs _ _, s.updMe_memory _, s.block_specials _ _⟩ <;> rw [me] <;> rfl

/-- A strip retains what it reads (R63). -/
theorem cpopRetains {k : Strip} (r : ReadsFrom s c e (m.toNat + 1)) (strip : s.me.strip = some k) (none_ : k.retained = []) (ss : s.me.ss = false)
    (free : s.free ((List.range (m.toNat + 1)).map fun i => d + .ofNat 5 i)) (enough : m.toNat + 1 ≤ dataIn s e) :
    ∃ t, exec (.cpop d c m) s = .next t ∧ (∀ e, t.ep e = s.ep e) ∧ t.me.strip = some { k with retained := [(c.toNat, m.toNat + 1)] } ∧
      OnlyFlags s t ((List.range (m.toNat + 1)).map fun i => d + .ofNat 5 i) (.ofNat 21 ((m.toNat + 1) * 256)) := by
  have fresh : s.me.retained c.toNat = 0 := by
    unfold Proc.retained
    rw [strip, Option.map_some, none_]
    rfl
  have run := (exec_cpop r free).trans (congrArg _ (r.pops fresh (.inl enough) 0x28 (popped d m)))
  have flags : cflagsRead (m.toNat + 1) (dataIn s e) = .ofNat 21 ((m.toNat + 1) * 256) := by
    unfold cflagsRead
    rw [if_neg (Nat.not_lt.2 enough), Nat.min_eq_left enough, Nat.zero_add]
  have takes : s.read c.toNat e (m.toNat + 1) = (s.updMe fun p => { p with strip := some { k with retained := [(c.toNat, m.toNat + 1)] } }).updMe fun p =>
      { p with cflags := .ofNat 21 ((m.toNat + 1) * 256) } := by
    have count : takenBy (m.toNat + 1) (dataIn s e) = m.toNat + 1 := if_neg (Nat.not_lt.2 enough)
    unfold State.read State.takeSlots State.setCflags
    rw [strip, count, cflagsOf_eq, flags]
    dsimp only
    rw [none_, show Tab.store ([] : Tab Nat) c.toNat (Tab.lookD [] c.toNat 0 + (m.toNat + 1)) 0 = [(c.toNat, m.toNat + 1)] by
      unfold Tab.store
      rw [if_neg (by simp)]
      change [(c.toNat, 0 + (m.toNat + 1))] = _
      rw [Nat.zero_add]]
  have me : (s.read c.toNat e (m.toNat + 1)).me =
      { s.me with strip := some { k with retained := [(c.toNat, m.toNat + 1)] }, cflags := .ofNat 21 ((m.toNat + 1) * 256) } := by
    rw [takes, State.updMe_me, State.updMe_me]
  have memory : SameMemory s (s.read c.toNat e (m.toNat + 1)) := by rw [takes]; exact (s.updMe_memory _).trans (State.updMe_memory _ _)
  obtain ⟨running, eps⟩ : (s.read c.toNat e (m.toNat + 1)).running = s.running ∧ ∀ i, (s.read c.toNat e (m.toNat + 1)).ep i = s.ep i := by
    rw [takes]; exact ⟨rfl, fun _ => rfl⟩
  unfold popped at run
  have wrote := (s.read c.toNat e (m.toNat + 1)).setRegs_wrote (slotVal ((s.ep e).queue.take (min (m.toNat + 1) (dataIn s e)))) (regRun d m.toNat).zipIdx
  rw [regRun_zipIdx] at wrote
  generalize s.read c.toNat e (m.toNat + 1) = u at run wrote me memory running eps
  generalize u.setRegs _ _ = v at run wrote
  have steps : v.me.ss = false := wrote.ss.trans (by rw [me]; exact ss)
  refine ⟨_, run, fun i => ((State.jump_only v 0x28 (v.me.pc + 4) steps).rest.eps i).trans ((wrote.ep i).trans (eps i)), ?_,
    .of_retire 0x28 steps (wrote.pc.trans (by rw [me])) (fun r hr => (wrote.regs r hr).trans ?_)
    (wrote.specials.trans (by rw [me]; rfl)) (memory.trans wrote.memory) (wrote.running.trans running)⟩
  · rw [State.retire_me v 0x28 steps]
    exact wrote.strip.trans (by rw [me])
  · unfold State.reg
    rw [me]
    rfl
end

end Sys2Proof.Machine
end

section
/-! PROOFS. VPOP (R61), KRECV (R88), and the obligation of the reads. -/

namespace Sys2Proof.Machine

/-- The number that slots stand for, as bytes. -/
theorem ofBytesLE_slots : ∀ (l : List QSlot) (k : Nat),
    ofBytesLE (l.flatMap fun x => bytesLE 8 x.val.toNat) * 2 ^ (64 * k) = ((l.zipIdx k).map fun x => x.1.val.toNat * 2 ^ (64 * x.2)).sum
  | [], k => Nat.zero_mul _
  | x :: l, k => by
    have small : x.val.toNat < 256 ^ 8 := x.val.isLt
    rw [List.zipIdx_cons, List.map_cons, List.sum_cons, ← ofBytesLE_slots l (k + 1), List.flatMap_cons, ofBytesLE_append, length_bytesLE,
      ofBytesLE_bytesLE, Nat.mod_eq_of_lt small, show 64 * (k + 1) = 64 + 64 * k by ring, Nat.pow_add]
    ring
theorem ofBytesLE_packed (l : List QSlot) : ofBytesLE (l.flatMap fun x => bytesLE 8 x.val.toNat) = packedSlots l := by
  have whole := ofBytesLE_slots l 0
  rw [Nat.mul_zero, Nat.pow_zero, Nat.mul_one] at whole
  exact whole
/-- Elements unpacked from slots (R61). -/
theorem unpack_elem {w : Nat} (ew : IsEw w) (l : List QSlot) (i : Nat) :
    ofBytesLE (((l.flatMap fun x => bytesLE 8 x.val.toNat).drop (i * (w / 8))).take (w / 8)) = packedSlots l / 2 ^ (w * i) % 2 ^ w := by
  rw [ofBytesLE_take, ofBytesLE_drop, ofBytesLE_packed, Nat.mul_comm i, Nat.pow_mul, ew.pow, ← Nat.pow_mul]
/-- Values at every position below VL. -/
theorem Says.below (s : State) (g : Nat → Nat) :
    Says ((List.range s.vc.vl).map fun i => (i, g i)) (vlmaxOf s.vc.lanes.length s.vc.ew) fun i => if i < s.vc.vl then some (g i) else none := by
  refine ⟨fun x h => ?_, fun x h => ?_, fun i x _ h => ?_⟩
  · obtain ⟨i, hi, rfl⟩ := List.mem_map.1 h
    exact Nat.lt_of_lt_of_le (List.mem_range.1 hi) s.vl_le
  · obtain ⟨i, hi, rfl⟩ := List.mem_map.1 h
    exact if_pos (List.mem_range.1 hi)
  · split at h
    · next low => cases h; exact List.mem_map.2 ⟨i, List.mem_range.2 low, rfl⟩
    · cases h
/-- Only the banks count. -/
theorem PutVec.of_banks {s s' t t' : State} {v : VCtx} {ew r : Nat} {f : Nat → Option Nat} (h : PutVec s t v ew r f)
    (before : ∀ n, (s.tile n).vbank = (s'.tile n).vbank) (behind : ∀ n, (t'.tile n).vbank = (t.tile n).vbank) : PutVec s' t' v ew r f := by
  have old : ∀ i, s.elemAt v ew r i = s'.elemAt v ew r i := fun i => by unfold State.elemAt; rw [before]
  have new : ∀ i, t'.elemAt v ew r i = t.elemAt v ew r i := fun i => by unfold State.elemAt; rw [behind]
  refine ⟨fun i hi => ?_, fun n k hk => ?_⟩
  · rw [new, h.elems i hi, old]
  · rw [behind, h.others n k hk, before]

section
variable {s : State} {c : BitVec 4} {d : BitVec 5} {e : Nat}

/-- What a VPOP writes, of the slots taken. -/
def State.unpack (s : State) (v : VCtx) (d : BitVec 5) (l : List QSlot) : State :=
  s.putElemsAt v v.ew d.toNat ((List.range v.vl).map fun i =>
    (i, ofBytesLE (((l.flatMap fun x => bytesLE 8 x.val.toNat).drop (i * (v.ew / 8))).take (v.ew / 8))))
/-- What it does once the vector unit is its process's. -/
def State.vpopBody (d : BitVec 5) (c : BitVec 4) (s : State) : State :=
  s.onChan 0x28 c.toNat .reader s.vc.slots (s.popSlots 0x28 c.toNat s.vc.slots fun u l => (u.unpack s.vc d l).retire 0x28)
theorem exec_vpop (s : State) (d : BitVec 5) (c : BitVec 4) : exec (.vpop d c) s = .next (s.vectorOp 0x28 [d] (State.vpopBody d c)) := rfl
theorem State.vpopBody_takes (r : ReadsFrom s c e (slotsOf s.vc)) (strip : s.me.strip = none) (ready : slotsOf s.vc ≤ dataIn s e ∨ markerIn s e) :
    s.vpopBody d c = ((s.read c.toNat e (slotsOf s.vc)).unpack s.vc d ((s.ep e).queue.take (min (slotsOf s.vc) (dataIn s e)))).retire 0x28 := by
  unfold State.vpopBody
  rw [s.vc.slots_eq, r.onChan, r.pops (State.retained_none strip _) ready]
/-- A VPOP with the lanes its own. -/
theorem unpacks (r : ReadsFrom s c e (slotsOf s.vc)) (strip : s.me.strip = none) (ss : s.me.ss = false)
    (ready : slotsOf s.vc ≤ dataIn s e ∨ markerIn s e) :
    Consumed s (s.vpopBody d c) e (slotsOf s.vc) ∧
      PutVec s (s.vpopBody d c) s.vc s.vc.ew d.toNat (fun i => if i < s.vc.vl then
        some (packedSlots ((s.ep e).queue.take (min (slotsOf s.vc) (dataIn s e))) / 2 ^ (s.vc.ew * i) % 2 ^ s.vc.ew) else none) ∧
      OnlyFlags s (s.vpopBody d c) [] (cflagsRead (slotsOf s.vc) (dataIn s e)) := by
  rw [State.vpopBody_takes r strip ready]
  have ew : IsEw s.vc.ew := ewOf_isEw _
  have took := r.took strip ready
  generalize (s.ep e).queue.take (min (slotsOf s.vc) (dataIn s e)) = l
  generalize s.read c.toNat e (slotsOf s.vc) = u at took
  have own : s.vc.h = u.running := took.running.symm
  unfold State.unpack
  simp only [unpack_elem ew]
  have put := State.putElemsAt_put u s.vc s.vc_ok ew d.toNat _ _ fun _ => Says.below s fun i => packedSlots l / 2 ^ (s.vc.ew * i) % 2 ^ s.vc.ew
  have step := VecStep.putElemsAt u s.vc own s.vc.ew d.toNat ((List.range s.vc.vl).map fun i => (i, packedSlots l / 2 ^ (s.vc.ew * i) % 2 ^ s.vc.ew))
  have flags := (State.putElemsAt_strip u s.vc own s.vc.ew d.toNat
    ((List.range s.vc.vl).map fun i => (i, packedSlots l / 2 ^ (s.vc.ew * i) % 2 ^ s.vc.ew))).2
  generalize u.putElemsAt s.vc s.vc.ew d.toNat _ = w at put step flags
  have status := congrArg Specials.status step.special
  have steps : w.me.ss = u.me.ss := by unfold Proc.ss; rw [show w.me.status = u.me.status from status]
  have special : w.me.specials = u.me.specials := by
    have whole := congrArg (fun x : Specials => { x with fflags := u.me.fflags }) step.special
    refine Eq.trans ?_ whole
    rw [← flags]
    rfl
  obtain ⟨consumed, only⟩ := took.done ss 0x28 step.regs.regs steps step.pc special step.rest.eps step.memory step.rest.running
  refine ⟨consumed, put.of_banks (fun n => ?_) fun n => ?_, only⟩
  · have core := congrArg Tile.vbank (took.tiles n); exact core
  · have core := congrArg Proc.ss took.core
    exact (State.jump_only w 0x28 (w.me.pc + 4) (steps.trans (Eq.trans core ss))).units.vbank n

theorem vpopTakes (ready : VecReady s [d]) (strip : s.me.strip = none) (r : ReadsFrom s c e (slotsOf s.vc))
    (enough : slotsOf s.vc ≤ dataIn s e ∨ markerIn s e) :
    ∃ t, exec (.vpop d c) s = .next t ∧ Consumed s t e (slotsOf s.vc) ∧
      PutVec s t s.vc s.vc.ew d.toNat (fun i => if i < s.vc.vl then
        some (packedSlots ((s.ep e).queue.take (min (slotsOf s.vc) (dataIn s e))) / 2 ^ (s.vc.ew * i) % 2 ^ s.vc.ew) else none) ∧
      OnlyFlags s t [] (cflagsRead (slotsOf s.vc) (dataIn s e)) := by
  have eps := s.owned_rest.eps
  have data : dataIn s.owned e = dataIn s e := by unfold dataIn; rw [eps]
  have done := unpacks (s := s.owned) (d := d) (by rw [s.owned_vc]; exact r.of_me s.owned_me eps) (by rw [s.owned_me]; exact strip)
    (by rw [s.owned_me]; exact ready.step) (by unfold markerIn; rw [s.owned_vc, data, eps]; exact enough)
  rw [s.owned_vc, data, eps] at done
  have run := exec_vpop s d c
  obtain ⟨consumed, put, only⟩ := done
  rw [s.vectorOp_ready 0x28 [d] _ ready (by rw [only.went.ready]; simp)] at run
  generalize s.owned.vpopBody d c = t at run consumed put only
  obtain ⟨queue, count⟩ := consumed
  obtain ⟨went, regs, special, memory, running⟩ := only
  rw [data, eps] at queue count
  rw [s.owned_me] at went special
  exact ⟨t, run, ⟨queue, count⟩, put.of_owned fun _ => rfl,
    ⟨went, fun q hq => (regs q hq).trans (s.owned_reg q), special, s.owned_memory.trans memory, running.trans s.owned_running⟩⟩

/-- The capability that a KRECV makes of the slots taken (R88). -/
def capOf (eos : Bool) (l : List QSlot) : Cap :=
  if eos then {} else
    { bits := .ofNat 128 ((slotVal l 0).toNat + (slotVal l 1).toNat * 2 ^ 64),
      tag := match l with
        | [x, y] => x.tagged && y.tagged && decide (x.msg = y.msg)
        | _ => false }
/-- A KRECV writes its capability register, and nothing else of the process but CFLAGS (R88). -/
theorem krecvTakes {k : BitVec 3} (r : ReadsFrom s c e 2) (plain : s.plain) (ready : 2 ≤ dataIn s e ∨ markerIn s e) :
    ∃ t, exec (.krecv k c) s = .next t ∧ Consumed s t e 2 ∧ OnlyFlags s t [] (cflagsRead 2 (dataIn s e)) ∧
      (∀ j, j ≠ k.toNat → t.me.cap j = s.me.cap j) ∧
      t.me.cap k.toNat = capOf (bitAt (cflagsRead 2 (dataIn s e)).toNat 0) ((s.ep e).queue.take (min 2 (dataIn s e))) := by
  obtain ⟨ss, strip, -⟩ := plain
  have run : exec (.krecv k c) s = .next (s.popSlots 0x2A c.toNat 2 fun u l => (u.setCap k.toNat (capOf u.me.eos l)).retire 0x2A) :=
    congrArg Host.Outcome.next ((State.afterCommit_none _ _ strip).trans (r.onChan _ _))
  have took := r.took strip ready
  rw [r.pops (State.retained_none strip _) ready] at run
  generalize (s.ep e).queue.take (min 2 (dataIn s e)) = l at run ⊢
  generalize s.read c.toNat e 2 = u at took run
  have caps := fun j => congrArg (fun p : Proc => p.cap j) took.core
  have eos : u.me.eos = bitAt (cflagsRead 2 (dataIn s e)).toNat 0 := by have flag := congrArg Proc.eos took.core; exact flag
  rw [eos] at run
  generalize capOf _ l = x at run ⊢
  have me : (u.setCap k.toNat x).me = u.me.setCap k.toNat x := State.updMe_me _ _
  have steps : (u.setCap k.toNat x).me.ss = false := by
    have same := congrArg Proc.ss took.core
    rw [me]
    exact Eq.trans same ss
  obtain ⟨consumed, only⟩ := took.done (u := u.setCap k.toNat x) (ds := []) ss 0x2A (fun r _ => by unfold State.reg; rw [me]; rfl) (by rw [me]; rfl)
    (by rw [me]; rfl) (by rw [me]; rfl) (fun _ => rfl) (u.updMe_memory _) rfl
  have cap : ∀ j, ((u.setCap k.toNat x).retire 0x2A).me.cap j = if k.toNat = j then x else s.me.cap j := fun j => by
    have kept : ((u.setCap k.toNat x).retire 0x2A).me.cap j = (u.setCap k.toNat x).me.cap j :=
      (State.jump_only _ 0x2A ((u.setCap k.toNat x).me.pc + 4) steps).regs.caps j
    rw [kept, me, Proc.cap_setCap]
    exact if_congr Iff.rfl rfl (caps j)
  exact ⟨_, run, consumed, only, fun j hj => (cap j).trans (if_neg (Ne.symm hj)), (cap _).trans (if_pos rfl)⟩

theorem krecvData {k : BitVec 3} {x y : QSlot} {q : List QSlot} (r : ReadsFrom s c e 2) (plain : s.plain) (queue : (s.ep e).queue = x :: y :: q)
    (first : x.marker = false) (second : y.marker = false) :
    ∃ t, exec (.krecv k c) s = .next t ∧ Consumed s t e 2 ∧ OnlyFlags s t [] 0x200 ∧ (∀ j, j ≠ k.toNat → t.me.cap j = s.me.cap j) ∧
      (t.me.cap k.toNat).bits = .ofNat 128 (x.val.toNat + y.val.toNat * 2 ^ 64) ∧
      (x.tagged = true ∧ y.tagged = true ∧ x.msg = y.msg → (t.me.cap k.toNat).tag = true) ∧
      (x.tagged = false → (t.me.cap k.toNat).tag = false) := by
  have two : 2 ≤ dataIn s e := by
    unfold dataIn
    rw [queue, List.takeWhile_cons_of_pos (by rw [first]; rfl), List.takeWhile_cons_of_pos (by rw [second]; rfl)]
    simp
  have flags : cflagsRead 2 (dataIn s e) = 0x200 := by
    unfold cflagsRead
    rw [if_neg (Nat.not_lt.2 two), Nat.min_eq_left two]
    rfl
  obtain ⟨t, run, consumed, only, others, cap⟩ := krecvTakes (k := k) r plain (.inl two)
  rw [flags] at only cap
  rw [Nat.min_eq_left two, queue] at cap
  have made : t.me.cap k.toNat = { bits := .ofNat 128 (x.val.toNat + y.val.toNat * 2 ^ 64), tag := x.tagged && y.tagged && decide (x.msg = y.msg) } := cap
  refine ⟨t, run, consumed, only, others, by rw [made], fun ⟨a, b, same⟩ => ?_, fun a => ?_⟩
  · rw [made, a, b, decide_eq_true same]
    rfl
  · rw [made, a]
    rfl
theorem krecvMarker {k : BitVec 3} {x : QSlot} {q : List QSlot} (r : ReadsFrom s c e 2) (plain : s.plain) (queue : (s.ep e).queue = x :: q)
    (marker : x.marker = true) :
    ∃ t, exec (.krecv k c) s = .next t ∧ Consumed s t e 2 ∧ OnlyFlags s t [] 1 ∧ t.me.cap k.toNat = {} := by
  have none_ : dataIn s e = 0 := by
    unfold dataIn
    rw [queue, List.takeWhile_cons_of_neg (by rw [marker]; decide)]
    rfl
  obtain ⟨t, run, consumed, only, -, cap⟩ := krecvTakes (k := k) r plain (.inr ⟨x, by rw [queue]; exact List.mem_cons_self, marker⟩)
  rw [none_] at only cap
  exact ⟨t, run, consumed, only, cap⟩
end

/-- Settles O34: a read takes what lies ahead of the first marker with the marker that ends it early, and waits where neither is there. -/
theorem channelRead : Obligations.ChannelRead := by
  unfold Obligations.ChannelRead
  refine ⟨fun s d m c e r plain free ready => cpopTakes r plain free ready, fun s d b c e r plain free ready => cpeekLooks r plain free ready,
    fun s b c e r plain free ready => cadvTakes r plain free ready, fun s d c e ready strip r enough => vpopTakes ready strip r enough,
    fun s k c e x y q r plain queue first second => krecvData r plain queue first second,
    fun s k c e x q r plain queue marker => krecvMarker r plain queue marker,
    fun s d m c e r plain free few unmarked => cpopWaits r plain free few unmarked,
    fun s d m c e k r strip none_ ss free enough => cpopRetains r strip none_ ss free enough⟩

end Sys2Proof.Machine
end

section
/-! PROOFS. CBIND as reader and as writer (R67, R308, R309). -/

namespace Sys2Proof.Machine

section
variable {s u : State} {c : BitVec 4} {x : ChanReg}

/-- An instruction that has left its channel register as `x` completes. -/
theorem Rebound.of_retire (op : Nat) (ss : s.me.ss = false) (me : u.me.unsched = (s.me.setChan c.toNat x).unsched) (memory : SameMemory s u)
    (running : u.running = s.running) : Rebound s (u.retire op) c x := by
  have steps : u.me.ss = false := by
    have same := congrArg Proc.ss me
    exact Eq.trans same ss
  have pc := congrArg Proc.pc me
  have regs := fun r : BitVec 5 => congrArg (fun p : Proc => p.reg r.toNat) me
  have special := congrArg Proc.specials me
  have chans := fun k => congrArg (fun p : Proc => p.chan k) me
  have caps := fun k => congrArg (fun p : Proc => p.cap k) me
  have chan := u.retire_chan op steps
  refine ⟨.of_retire op steps pc (fun r _ => regs r) special memory running, ?_, fun k hk => ?_, fun k => ?_⟩
  · exact (chan _).trans (Eq.trans (chans c.toNat) (Proc.chan_setChan_same _ _ _))
  · refine (chan k).trans (Eq.trans (chans k) ?_)
    refine Eq.trans (Proc.chan_setChan s.me c.toNat k x) ?_
    rw [if_neg (Ne.symm hk)]
  · exact ((State.jump_only u op (u.me.pc + 4) steps).regs.caps k).trans (caps k)
end

/-! Operands (R67, Table 3.5). -/

/-- The fields of the word that names endpoint `ix` of tile `n`, reader or writer. -/
structure NamesTile (w : Word) (n ix : Nat) (reader : Bool) : Prop where
  high : wfield w 63 56 = 0
  kind : wfield w 33 32 = 0
  low : wfield w 31 20 = 0
  tile : wfield w 19 9 = n
  role : bitAt w.toNat 8 = reader
  index : wfield w 7 0 = ix
theorem NamesTile.of_toNat {w : Word} {n ix : Nat} {reader : Bool} (hn : n < 2048) (hi : ix < 256)
    (hw : w.toNat = n * 512 + (if reader then 256 else 0) + ix) : NamesTile w n ix reader := by
  cases reader <;> refine ⟨?_, ?_, ?_, ?_, ?_, ?_⟩ <;> simp [wfield, field, bitAt, hw] <;> omega
/-- The fields of the second operand of a reader (Table 3.5). -/
structure NamesCap (w : Word) (cap : Nat) (once : Bool) : Prop where
  plain : bitAt w.toNat 63 = false
  high : wfield w 62 17 = 0
  once : bitAt w.toNat 16 = once
  low : wfield w 15 13 = 0
  cap : wfield w 12 0 = cap
theorem NamesCap.of_toNat {w : Word} {cap : Nat} {once : Bool} (hc : cap < 8192) (hw : w.toNat = cap + if once then 65536 else 0) :
    NamesCap w cap once := by
  cases once <;> refine ⟨?_, ?_, ?_, ?_, ?_⟩ <;> simp [wfield, field, bitAt, hw] <;> omega

section
variable {s : State} {d b : BitVec 5} {c : BitVec 4} {n ix cap run : Nat} {once : Bool}

theorem exec_cbind (free : s.free [d, b]) (strip : s.me.strip = none) : exec (.cbind d c b) s =
    .next (if bitAt (s.reg b).toNat 63 then s.cbindMove c.toNat (s.reg d) (s.reg b) else s.cbindPlain c.toNat (s.reg d) (s.reg b)) :=
  congrArg Host.Outcome.next (State.withRegsCommit_free _ _ _ free strip)

/-- The entry that a reader takes (R308). -/
def freshEntry (w cap run : Nat) (once : Bool) : Endpoint :=
  { bound := true, owner := w, bcap := cap, cap := cap, once := once, free := cap, run := run }
theorem State.bindReader_fresh (s : State) (h k id cap run : Nat) (once : Bool) (new : s.ep id = {}) :
    s.bindReader h k id cap run once = (s.updProc h fun p => p.setChan k { role := .reader, dest := .tile id, registered := true }).updEp id fun _ =>
      freshEntry (widOf h k) cap run once := by
  unfold State.bindReader
  dsimp only
  generalize hu : s.updProc h (fun p => p.setChan k { role := .reader, dest := .tile id, registered := true }) = u
  have entry : u.ep id = {} := by rw [← hu]; exact new
  unfold State.updEp
  rw [entry]
  rfl

theorem cbindReads (hn : s.me.tile < 2048) (hi : ix < 256) (some_ : 1 ≤ cap) (most : cap ≤ 4096) (single : once = true → cap = 1)
    (word : s.reg d = .ofNat 64 (s.me.tile * 512 + 256 + ix)) (attr : s.reg b = .ofNat 64 (cap + if once then 65536 else 0))
    (inside : s.myPart.inRect s.me.tile = true) (unbound : (s.me.chan c.toNat).role = .unbound) (new : s.ep (s.me.tile * 256 + ix) = {})
    (place : s.bufferRun s.me.tile cap = some run) (free : s.free [d, b]) (plain : s.plain) :
    ∃ t, exec (.cbind d c b) s = .next t ∧ Rebound s t c { role := .reader, dest := .tile (s.me.tile * 256 + ix), registered := true } ∧
      t.ep (s.me.tile * 256 + ix) = freshEntry (widOf s.running c.toNat) cap run once ∧ ∀ e, e ≠ s.me.tile * 256 + ix → t.ep e = s.ep e := by
  obtain ⟨ss, strip, -⟩ := plain
  have names : NamesTile (s.reg d) s.me.tile ix true := .of_toNat hn hi (by rw [word, BitVec.toNat_ofNat, if_pos rfl]; omega)
  have caps : NamesCap (s.reg b) cap once := .of_toNat (by omega) (by rw [attr, BitVec.toNat_ofNat]; split <;> omega)
  have shape : s.bindShape (s.reg d) (s.reg b) = true := by
    unfold State.bindShape
    dsimp only
    rw [names.high, names.kind, names.low, names.tile, names.role, names.index, caps.high, caps.once, caps.low, caps.cap, new]
    have alone : once = false ∨ cap = 1 := by
      cases once with
      | false => exact .inl rfl
      | true => exact .inr (single rfl)
    simpa [State.myTile] using ⟨some_, most, alone⟩
  have owned : s.bindOwned (s.reg d) = true := by
    unfold State.bindOwned
    dsimp only
    rw [names.kind, names.tile]
    exact inside
  have run' : exec (.cbind d c b) s = .next ((s.bindReader s.running c.toNat (s.me.tile * 256 + ix) cap run once).retire 0x28) := by
    rw [exec_cbind free strip, caps.plain, if_neg (by decide)]
    unfold State.cbindPlain
    dsimp only
    rw [if_neg fun h => h unbound, shape, owned, if_neg (by decide), names.kind, if_neg (by simp), names.role, if_pos rfl, caps.cap, caps.once,
      names.tile, names.index, show s.bufferRun s.myTile cap = some run from place]
  rw [s.bindReader_fresh _ _ _ _ _ _ new] at run'
  generalize hu : (s.updProc s.running fun p => p.setChan c.toNat
    { role := .reader, dest := .tile (s.me.tile * 256 + ix), registered := true }).updEp (s.me.tile * 256 + ix) (fun _ => _) = u at run'
  have me : u.me = s.me.setChan c.toNat { role := .reader, dest := .tile (s.me.tile * 256 + ix), registered := true } := by
    rw [← hu]
    exact State.updProc_proc_same s s.running fun p => p.setChan c.toNat _
  have ep : ∀ e, u.ep e = if s.me.tile * 256 + ix = e then freshEntry (widOf s.running c.toNat) cap run once else s.ep e := fun e => by
    rw [← hu, State.updEp_ep]; rfl
  have bound : Rebound s (u.retire 0x28) c _ := .of_retire 0x28 ss (congrArg Proc.unsched me) (by rw [← hu]; exact .of_tables rfl rfl rfl rfl rfl fun _ => rfl)
    (by rw [← hu]; rfl)
  have eps : ∀ e, (u.retire 0x28).ep e = u.ep e := (State.jump_only u 0x28 (u.me.pc + 4) (by rw [me]; exact ss)).rest.eps
  refine ⟨_, run', bound, ?_, fun e he => ?_⟩
  · rw [eps, ep, if_pos rfl]
  · rw [eps, ep, if_neg (Ne.symm he)]

/-- The registration of a writer is under way (R308, R434). -/
structure Registers (s t : State) (c : BitVec 4) (e : Nat) : Prop where
  mesh : t.net = s.net ++ [{ wid := widOf s.running c.toNat, dest := .tile e, body := .register s.me.det, part := s.me.part, net := s.me.net }]
  due : ∃ x ∈ t.events, x.2 = .writerRegistration (widOf s.running c.toNat)
  me : t.me = s.me.setChan c.toNat { role := .writer, dest := .tile e }
  eps : ∀ k, t.ep k = s.ep k
  memory : SameMemory s t
  running : t.running = s.running
theorem State.bindWriter_registers (s : State) (c : BitVec 4) (e : Nat) : ∃ u, Registers s u c e ∧
    s.bindWriter s.running c.toNat (.tile e) = if s.me.det then u.block (.blockedWrite c.toNat) waitOnly else u.retire 0x28 := by
  have bound : (s.updChan s.running c.toNat fun _ => { role := .writer, dest := .tile e }).me = s.me.setChan c.toNat { role := .writer, dest := .tile e } :=
    State.updChan_proc_same _ _ _ _
  have memory : SameMemory s (s.updChan s.running c.toNat fun _ => { role := .writer, dest := .tile e }) := .of_tables rfl rfl rfl rfl rfl fun _ => rfl
  have net : (s.updChan s.running c.toNat fun _ => { role := .writer, dest := .tile e }).net = s.net := rfl
  have eps : ∀ k, (s.updChan s.running c.toNat fun _ => { role := .writer, dest := .tile e }).ep k = s.ep k := fun _ => rfl
  have running : (s.updChan s.running c.toNat fun _ => { role := .writer, dest := .tile e }).running = s.running := rfl
  have form : s.bindWriter s.running c.toNat (.tile e) =
      if s.me.det then (((s.updChan s.running c.toNat fun _ => { role := .writer, dest := .tile e }).netSend
        { wid := widOf s.running c.toNat, dest := .tile e, body := .register s.me.det, part := s.me.part, net := s.me.net }
        (meshLatency s.me.tile ((Dest.tile e).tileOr s.me.tile) 0) (.writerRegistration (widOf s.running c.toNat))).block (.blockedWrite c.toNat) waitOnly)
      else (((s.updChan s.running c.toNat fun _ => { role := .writer, dest := .tile e }).netSend
        { wid := widOf s.running c.toNat, dest := .tile e, body := .register s.me.det, part := s.me.part, net := s.me.net }
        (meshLatency s.me.tile ((Dest.tile e).tileOr s.me.tile) 0) (.writerRegistration (widOf s.running c.toNat))).retire 0x28) := rfl
  generalize s.updChan s.running c.toNat (fun _ => { role := .writer, dest := .tile e }) = v at bound memory net eps running form
  have mesh := OnMesh.netSend v { wid := widOf s.running c.toNat, dest := .tile e, body := .register s.me.det, part := s.me.part, net := s.me.net }
    (meshLatency s.me.tile ((Dest.tile e).tileOr s.me.tile) 0) (.writerRegistration (widOf s.running c.toNat))
  have due := v.netSend_due { wid := widOf s.running c.toNat, dest := .tile e, body := .register s.me.det, part := s.me.part, net := s.me.net }
    (meshLatency s.me.tile ((Dest.tile e).tileOr s.me.tile) 0) (.writerRegistration (widOf s.running c.toNat))
  generalize v.netSend _ _ _ = u at mesh due form
  have same : u.running = v.running := by have x := congrArg State.running mesh.rest; exact x
  have me : u.me = v.me := by unfold State.me; rw [same]; exact mesh.proc _
  exact ⟨u, ⟨by rw [mesh.net, net], due, me.trans bound, fun k => (mesh.ep k).trans (eps k), memory.trans mesh.traffic.memory, same.trans running⟩, form⟩

theorem cbindWrites (hn : n < 2048) (hi : ix < 256) (word : s.reg d = .ofNat 64 (n * 512 + ix)) (attr : s.reg b = 0)
    (inside : s.myPart.inRect n = true) (unbound : (s.me.chan c.toNat).role = .unbound) (free : s.free [d, b]) (plain : s.plain) :
    ∃ t, exec (.cbind d c b) s = .next t ∧ (∀ e, t.ep e = s.ep e) ∧
      t.net = s.net ++ [{ wid := widOf s.running c.toNat, dest := .tile (n * 256 + ix), body := .register s.me.det, part := s.me.part, net := s.me.net }] ∧
      (∃ e ∈ t.events, e.2 = .writerRegistration (widOf s.running c.toNat)) ∧
      t.me.chan c.toNat = { role := .writer, dest := .tile (n * 256 + ix) } ∧
      (s.me.det = false → Rebound s t c { role := .writer, dest := .tile (n * 256 + ix) }) ∧
      (s.me.det = true → t.me.pst = .blockedWrite c.toNat ∧ t.me.pc = s.me.pc) := by
  obtain ⟨ss, strip, -⟩ := plain
  have names : NamesTile (s.reg d) n ix false := .of_toNat hn hi (by rw [word, BitVec.toNat_ofNat, if_neg (by decide)]; omega)
  have caps : NamesCap (s.reg b) 0 false := .of_toNat (by decide) (by rw [attr]; rfl)
  have shape : s.bindShape (s.reg d) (s.reg b) = true := by
    unfold State.bindShape
    dsimp only
    rw [names.high, names.kind, names.low, names.role, caps.high, caps.once, caps.low, caps.cap]
    rfl
  have owned : s.bindOwned (s.reg d) = true := by
    unfold State.bindOwned
    dsimp only
    rw [names.kind, names.tile]
    exact inside
  have dest : destOf (s.reg d) = .tile (n * 256 + ix) := by
    unfold destOf
    rw [names.kind, names.tile, names.index]
    rfl
  obtain ⟨u, ⟨mesh, due, me, eps, memory, running⟩, binds⟩ := s.bindWriter_registers c (n * 256 + ix)
  have run : exec (.cbind d c b) s = .next (if s.me.det then u.block (.blockedWrite c.toNat) waitOnly else u.retire 0x28) := by
    rw [exec_cbind free strip, caps.plain, if_neg (by decide)]
    unfold State.cbindPlain
    dsimp only
    rw [if_neg fun h => h unbound, shape, owned, if_neg (by decide), names.kind, if_neg (by simp), names.role, if_neg (by decide), if_neg (by simp),
      dest, binds]
  have chan : u.me.chan c.toNat = { role := .writer, dest := .tile (n * 256 + ix) } := by rw [me]; exact Proc.chan_setChan_same _ _ _
  cases det : s.me.det with
  | false =>
    rw [det, if_neg (by decide)] at run
    have steps : u.me.ss = false := by rw [me]; exact ss
    have bound : Rebound s (u.retire 0x28) c _ := .of_retire 0x28 ss (congrArg Proc.unsched me) memory running
    obtain ⟨net, -⟩ := u.retire_net 0x28 steps
    rw [det] at mesh
    obtain ⟨x, hx, arrives⟩ := due
    exact ⟨_, run, fun e => ((State.jump_only u 0x28 (u.me.pc + 4) steps).rest.eps e).trans (eps e), net.trans mesh,
      ⟨x, u.retire_events 0x28 steps x hx, arrives⟩, bound.chan, fun _ => bound, fun h => absurd h (by decide)⟩
  | true =>
    rw [det, if_pos rfl] at run
    rw [det] at mesh
    have blocked := u.block_me (.blockedWrite c.toNat) waitOnly
    refine ⟨_, run, eps, mesh, due, ?_, fun h => absurd h (by decide), fun _ => ⟨?_, ?_⟩⟩
    · rw [blocked]; exact chan
    · rw [blocked]; rfl
    · rw [blocked]
      change u.me.pc = _
      rw [me]
      rfl

/-- A bound register, or the move form at process privilege, parks the process (R67, R69). -/
theorem cbindBound (bound : (s.me.chan c.toNat).role ≠ .unbound) (ordinary : (s.reg b).toNat < 2 ^ 63) (free : s.free [d, b])
    (strip : s.me.strip = none) : ∃ t, exec (.cbind d c b) s = .next t ∧ Parks s t .protection s.me.pc := by
  have form : bitAt (s.reg b).toNat 63 = false := by
    unfold bitAt
    rw [Nat.div_eq_of_lt ordinary]
    rfl
  have run : exec (.cbind d c b) s = .next (s.raise 0x28 .protection) := by
    rw [exec_cbind free strip, form, if_neg (by decide)]
    unfold State.cbindPlain
    dsimp only
    rw [if_pos bound]
  exact ⟨_, run, s.raise_parks 0x28 .protection {} strip (by decide) (by simp)⟩

/-- Bit 63 of the second operand selects the move form (R69). -/
theorem move_form {w : Word} (high : 2 ^ 63 ≤ w.toNat) : bitAt w.toNat 63 = true ∧ w ||| 0x8000000000000000 = w := by
  have top := w.isLt
  have bit : w.toNat / 2 ^ 63 = 1 := by omega
  have msb : w.msb = true := BitVec.msb_eq_true_iff_two_mul_ge.2 (by omega)
  refine ⟨by unfold bitAt; rw [bit]; rfl, BitVec.eq_of_getLsbD_eq fun i hi => ?_⟩
  by_cases last : i = 63
  · subst last
    have bit63 : w.getLsbD 63 = true := by rw [BitVec.msb_eq_getLsbD_last] at msb; exact msb
    rw [BitVec.getLsbD_or, bit63, Bool.true_or]
  · rw [BitVec.getLsbD_or, show (0x8000000000000000 : BitVec 64) = BitVec.twoPow 64 63 by decide, BitVec.getLsbD_twoPow]
    simp [Ne.symm last]
theorem exec_cbindMove (free : s.free [d, b]) (strip : s.me.strip = none) : exec (.cbindMove d c b) s =
    .next (s.cbindMove c.toNat (s.reg d) (s.reg b ||| 0x8000000000000000)) :=
  congrArg Host.Outcome.next (State.withRegsCommit_free _ _ _ free strip)
theorem moveDenied {i : Instr} (form : i = .cbindMove d c b ∨ i = .cbind d c b ∧ 2 ^ 63 ≤ (s.reg b).toNat) (low : s.me.pl = 0)
    (free : s.free [d, b]) (strip : s.me.strip = none) : ∃ t, exec i s = .next t ∧ Parks s t .privilege s.me.pc := by
  have denied : ∀ w, s.cbindMove c.toNat (s.reg d) w = s.raise 0x28 .privilege := fun w => by
    unfold State.cbindMove
    dsimp only
    rw [if_pos low]
  have run : exec i s = .next (s.raise 0x28 .privilege) := by
    rcases form with rfl | ⟨rfl, high⟩
    · rw [exec_cbindMove free strip, denied]
    · rw [exec_cbind free strip, (move_form high).1, if_pos rfl, denied]
  exact ⟨_, run, s.raise_parks 0x28 .privilege {} strip (by decide) (by simp)⟩
end

end Sys2Proof.Machine
end

section
/-! PROOFS. CUNBIND (R68). -/

namespace Sys2Proof.Machine

section
variable {s : State} {c : BitVec 4} {e : Nat}

/-- A state without the bytes of SRAM and without what names an entry elsewhere. -/
def State.entryless (s : State) : State := { s with sram := [], sramTags := [], net := [], parts := [], hostEps := [], freeCtr := 0 }
theorem State.leaveRun_rest (s : State) (e : Nat) : (s.leaveRun e).entryless = s.entryless := by
  unfold State.leaveRun
  dsimp only
  split
  · rfl
  · obtain ⟨m, tg, store⟩ := State.sramStore_eq (e / 256 * 0x100000 + (s.ep e).run)
      ((List.range (8 * (s.ep e).bcap)).map fun i => { off := i, val := Config.queueByte s.freeCtr i }) s
    rw [store]
    rfl
theorem State.unmarked_rest (s : State) (e : Nat) : (s.unmarked e).entryless = s.entryless := by
  have digest : ∀ u : State, (u.digestKept e).entryless = u.entryless := fun u => by unfold State.digestKept; dsimp only; split <;> rfl
  have slots : ∀ (u : State) (x : Endpoint), (u.slotsBack e x).entryless = u.entryless := fun u x => by unfold State.slotsBack; split <;> rfl
  have spent : ∀ (ws : List Nat) (u : State), (ws.foldl (fun s w => s.hostSpent w) u).entryless = u.entryless := fun ws u =>
    List.foldlRecOn ws (fun s w => State.hostSpent s w) (motive := fun v => v.entryless = u.entryless) rfl fun v same w _ =>
      (show (v.hostSpent w).entryless = v.entryless from rfl).trans same
  exact (spent _ _).trans ((slots _ _).trans (digest _))

/-- An entry without writers that is freed holds nothing; no other entry and no process has changed (R68). -/
structure Emptied (s t : State) (e : Nat) : Prop where
  ep : t.ep e = {}
  others : ∀ k, k ≠ e → t.ep k = s.ep k
  procs : t.procs = s.procs
  running : t.running = s.running
theorem State.freeEntry_empties (alone : (s.ep e).writers = []) : Emptied s (s.freeEntry e) e := by
  have rest : ((s.leaveRun e).unmarked e).entryless = s.entryless := (State.unmarked_rest _ e).trans (s.leaveRun_rest e)
  rw [State.freeEntry_eq]
  generalize (s.leaveRun e).unmarked e = u at rest
  have eps : ∀ k, u.ep k = s.ep k := fun k => by have x := congrArg (fun v : State => v.ep k) rest; exact x
  have procs : u.procs = s.procs := by have x := congrArg State.procs rest; exact x
  have running : u.running = s.running := by have x := congrArg State.running rest; exact x
  refine ⟨?_, fun k hk => ?_, procs, running⟩
  · rw [State.updEp_ep_same, eps, alone]; rfl
  · rw [State.updEp_ep, if_neg (Ne.symm hk), eps]

theorem exec_cunbind (strip : s.me.strip = none) : exec (.cunbind c) s = .next (
    if (s.me.chan c.toNat).role = .unbound then s.raise 0x28 .chanUnbound
    else if (s.me.chan c.toNat).use ≠ .plain then s.raise 0x28 .protection
    else s.refusal 0x28 c.toNat
      (match (s.me.chan c.toNat).role with
       | .reader =>
         if (s.ep (((s.me.chan c.toNat).dest.rid).getD 0)).writers ≠ [] then s.raise 0x28 .protection
         else ((s.freeEntry (((s.me.chan c.toNat).dest.rid).getD 0)).updProc s.running fun p => p.setChan c.toNat {}).retire 0x28
       | _ =>
         if s.unsent s.running c.toNat then s.block (.blockedWrite c.toNat) 0
         else ((s.leaveReader s.running c.toNat).updProc s.running fun p => p.setChan c.toNat {}).retire 0x28)) :=
  congrArg Host.Outcome.next (State.afterCommit_none _ _ strip)

theorem exec_cunbind_reader (role : (s.me.chan c.toNat).role = .reader) (use : (s.me.chan c.toNat).use = .plain)
    (refused : (s.me.chan c.toNat).refused = none) (dest : (s.me.chan c.toNat).dest = .tile e) (strip : s.me.strip = none) :
    exec (.cunbind c) s = .next (if (s.ep e).writers ≠ [] then s.raise 0x28 .protection
      else ((s.freeEntry e).updProc s.running fun p => p.setChan c.toNat {}).retire 0x28) := by
  rw [exec_cunbind strip, State.refusal_none refused, role, use, dest, if_neg (by decide), if_neg (by decide)]
  rfl

/-- A reader's entry is freed (R68). -/
theorem cunbindFrees (role : (s.me.chan c.toNat).role = .reader) (use : (s.me.chan c.toNat).use = .plain)
    (refused : (s.me.chan c.toNat).refused = none) (dest : (s.me.chan c.toNat).dest = .tile e) (plain : s.plain) (alone : (s.ep e).writers = []) :
    ∃ t, exec (.cunbind c) s = .next t ∧ FreesEntry s t e ∧ WentTo t (s.me.pc + 4) ∧ t.me.chan c.toNat = {} ∧
      ∀ k, k ≠ c.toNat → t.me.chan k = s.me.chan k := by
  obtain ⟨ss, strip, -⟩ := plain
  have run := exec_cunbind_reader role use refused dest strip
  rw [if_neg fun h => h alone] at run
  obtain ⟨ep, others, procs, running⟩ := State.freeEntry_empties alone
  have freed := s.freeEntry_freed e
  generalize s.freeEntry e = u at run ep others procs running freed
  have me : (u.updProc s.running fun p => p.setChan c.toNat {}).me = s.me.setChan c.toNat {} := by
    unfold State.me
    rw [show (u.updProc s.running fun p => p.setChan c.toNat {}).running = s.running from running, State.updProc_proc_same]
    unfold State.proc
    rw [procs]
  have memory : SameMemory u (u.updProc s.running fun p => p.setChan c.toNat {}) := .of_tables rfl rfl rfl rfl rfl fun _ => rfl
  have eps : ∀ k, (u.updProc s.running fun p => p.setChan c.toNat {}).ep k = u.ep k := fun _ => rfl
  have running' : (u.updProc s.running fun p => p.setChan c.toNat {}).running = s.running := running
  generalize (u.updProc s.running fun p => p.setChan c.toNat {}) = v at run me memory eps running'
  have steps : v.me.ss = false := by rw [me]; exact ss
  obtain ⟨went, regs, special, memory', -, rest⟩ := State.jump_only v 0x28 (v.me.pc + 4) steps
  rw [show v.jump 0x28 (v.me.pc + 4) = v.retire 0x28 from rfl] at went regs special memory' rest
  have chan := v.retire_chan 0x28 steps
  rw [me] at went special
  refine ⟨_, run, ⟨?_, fun k hk => ?_, fun r => ?_, fun k => ?_, special, fun k out => ?_, fun part k => ?_, rest.running.trans running'⟩, went,
    ?_, fun k hk => ?_⟩
  · rw [rest.eps, eps, ep]
  · rw [rest.eps, eps, others k hk]
  · refine (regs.regs r (by simp)).trans ?_
    unfold State.reg
    rw [me]
    rfl
  · rw [regs.caps, me]; rfl
  · refine ((memory'.sram k).trans (memory.sram k)).trans (freed.sram k (out.imp_right fun outside inside => ?_))
    obtain ⟨low, high⟩ := inside
    omega
  · exact ((memory'.hbm part k).trans (memory.hbm part k)).trans (freed.hbm part k)
  · rw [chan, me, Proc.chan_setChan_same]
  · rw [chan, me, Proc.chan_setChan, if_neg (Ne.symm hk)]

/-- A writer that leaves a reader that is there leaves its request and its place, and its credits fall FREE (R68). -/
theorem State.leaveReader_eq {h k : Nat} (gone : ((s.proc h).chan k).gone = false) (use : ((s.proc h).chan k).use = .plain)
    (dest : ((s.proc h).chan k).dest = .tile e) (mem : widOf h k ∈ (s.ep e).writers) :
    s.leaveReader h k = (s.updEp e fun y => { y with
      writers := y.writers.filter (· ≠ widOf h k), shortfalls := y.shortfalls.filter fun q => decide (q.1 ≠ widOf h k),
      recalled := y.recalled.filter (· ≠ widOf h k) }).addFree e ((s.proc h).chan k).credits := by
  have contains : (s.ep e).writers.contains (widOf h k) = true := List.contains_iff_mem.2 mem
  unfold State.leaveReader
  dsimp only
  rw [gone, dest, use, if_neg Bool.false_ne_true]
  dsimp only [Dest.rid]
  rw [if_neg (c := ChanUse.plain = .monitor) (by decide)]
  exact if_pos (Or.inl contains)
/-- Where no request waits, no process but those that the credits wake has changed. -/
theorem State.leaveReader_procs {h k : Nat} (gone : ((s.proc h).chan k).gone = false) (use : ((s.proc h).chan k).use = .plain)
    (dest : ((s.proc h).chan k).dest = .tile e) (mem : widOf h k ∈ (s.ep e).writers) (served : (s.ep e).shortfalls = []) :
    (∀ g, ((s.leaveReader h k).proc g).unsched = (s.proc g).unsched) ∧ (s.leaveReader h k).running = s.running := by
  rw [State.leaveReader_eq gone use dest mem]
  generalize hu : s.updEp e _ = u
  have none_ : (u.ep e).shortfalls = [] := by rw [← hu, State.updEp_ep_same, served]; rfl
  have procs : ∀ g, u.proc g = s.proc g := fun g => by rw [← hu]; rfl
  have running : u.running = s.running := by rw [← hu]; rfl
  have woken := Woken.addFree u e ((s.proc h).chan k).credits
  rw [State.serveAll_none (by rw [State.updEp_ep_same]; exact none_)] at woken
  refine ⟨fun g => (woken.procs g).trans (congrArg Proc.unsched (procs g)), ?_⟩
  · have same := congrArg State.running woken.rest
    exact Eq.trans same running

theorem cunbindLeaves (role : (s.me.chan c.toNat).role = .writer) (use : (s.me.chan c.toNat).use = .plain)
    (refused : (s.me.chan c.toNat).refused = none) (gone : (s.me.chan c.toNat).gone = false) (dest : (s.me.chan c.toNat).dest = .tile e)
    (plain : s.plain) (staged : s.staged = []) (links : s.links = []) (mem : widOf s.running c.toNat ∈ (s.ep e).writers)
    (served : (s.ep e).shortfalls = []) :
    ∃ t, exec (.cunbind c) s = .next t ∧ Rebound s t c {} ∧ (t.ep e).free = (s.ep e).free + (s.me.chan c.toNat).credits ∧
      (t.ep e).writers = (s.ep e).writers.filter (· ≠ widOf s.running c.toNat) ∧ (t.ep e).queue = (s.ep e).queue := by
  obtain ⟨ss, strip, -⟩ := plain
  have run : exec (.cunbind c) s = .next (((s.leaveReader s.running c.toNat).updProc s.running fun p => p.setChan c.toNat {}).retire 0x28) := by
    rw [exec_cunbind strip, State.refusal_none refused, role, use, if_neg (by decide), if_neg (by decide), State.unsent_none staged links]
    rfl
  obtain ⟨free, writers, queue, memory⟩ := State.leaveReader_ep (s := s) (h := s.running) gone use dest mem served
  obtain ⟨procs, running⟩ := State.leaveReader_procs (s := s) (h := s.running) gone use dest mem served
  generalize s.leaveReader s.running c.toNat = u at run free writers queue memory procs running
  have me : (u.updProc s.running fun p => p.setChan c.toNat {}).me.unsched = (s.me.setChan c.toNat {}).unsched := by
    have same := congrArg (fun p : Proc => p.setChan c.toNat {}) (procs s.running)
    unfold State.me
    rw [show (u.updProc s.running fun p => p.setChan c.toNat {}).running = s.running from running, State.updProc_proc_same]
    exact same
  have steps : (u.updProc s.running fun p => p.setChan c.toNat {}).me.ss = false := by
    have same := congrArg Proc.ss me
    exact Eq.trans same ss
  have eps : ∀ k, ((u.updProc s.running fun p => p.setChan c.toNat {}).retire 0x28).ep k = u.ep k := (State.jump_only _ 0x28 _ steps).rest.eps
  refine ⟨_, run, .of_retire 0x28 ss me (memory.trans (.of_tables rfl rfl rfl rfl rfl fun _ => rfl)) running, ?_, ?_, ?_⟩
  · rw [eps]; exact free
  · rw [eps]; exact writers
  · rw [eps]; exact queue

/-- An unbound register parks the process, and so does a reader with writers (R67, R68). -/
theorem cunbindUnbound (role : (s.me.chan c.toNat).role = .unbound) (strip : s.me.strip = none) :
    ∃ t, exec (.cunbind c) s = .next t ∧ Parks s t .chanUnbound s.me.pc := by
  have run := exec_cunbind (c := c) strip
  rw [if_pos role] at run
  exact ⟨_, run, s.raise_parks 0x28 .chanUnbound {} strip (by decide) (by simp)⟩
theorem cunbindRefused (role : (s.me.chan c.toNat).role = .reader) (use : (s.me.chan c.toNat).use = .plain)
    (refused : (s.me.chan c.toNat).refused = none) (dest : (s.me.chan c.toNat).dest = .tile e) (strip : s.me.strip = none)
    (writers : (s.ep e).writers ≠ []) : ∃ t, exec (.cunbind c) s = .next t ∧ Parks s t .protection s.me.pc := by
  have run := exec_cunbind_reader role use refused dest strip
  rw [if_pos writers] at run
  exact ⟨_, run, s.raise_parks 0x28 .protection {} strip (by decide) (by simp)⟩
end

end Sys2Proof.Machine
end

section
/-! PROOFS. A process that waits for a move waits on while messages go to the links (R32, R69). -/

namespace Sys2Proof.Machine

theorem State.closeGroup_procs (s : State) (part peer : Nat) : (s.closeGroup part peer).procs = s.procs := by
  have quar : ∀ u : State, (u.quarLink part peer).procs = u.procs := fun u => by
    unfold State.quarLink
    exact List.foldlRecOn _ _ (motive := fun v : State => v.procs = u.procs) rfl fun v same e _ =>
      (show (v.updLane e.1 fun x => { x with st := .quar }).procs = v.procs from rfl).trans same
  have ended : ∀ (spent : Prop) (d : Decidable spent) (u : State), u.procs = s.procs → (@ite State spent d (u.quarLink part peer) u).procs = s.procs :=
    fun spent d u same => by
      split
      · exact (quar u).trans same
      · exact same
  unfold State.closeGroup
  dsimp only
  split
  · rfl
  · exact ended _ _ _ (by split <;> rfl)
theorem State.transmit_procs (part peer : Nat) : ∀ (n : Nat) (s : State), (s.transmit part peer n).procs = s.procs
  | 0, _ => rfl
  | n + 1, s => by
    unfold State.transmit
    dsimp only
    split
    · rfl
    · split
      · rfl
      · rw [State.transmit_procs part peer n]
        split
        · exact State.closeGroup_procs _ _ _
        · rfl

/-- From `s` to `t` process `h`, which waits for something else than its staged messages, waits on. -/
def Waits (h : Nat) (s t : State) : Prop := (s.proc h).need ≠ 0 → (t.proc h).need ≠ 0 ∧ (t.proc h).pst = (s.proc h).pst
namespace Waits
variable {h : Nat}

theorem refl (s : State) : Waits h s s := fun need => ⟨need, rfl⟩
theorem trans {s t u : State} (a : Waits h s t) (b : Waits h t u) : Waits h s u := fun need =>
  ⟨(b (a need).1).1, (b (a need).1).2.trans (a need).2⟩
theorem of_procs {s t : State} (procs : t.procs = s.procs) : Waits h s t := fun need => by
  have same : t.proc h = s.proc h := by unfold State.proc; rw [procs]
  rw [same]
  exact ⟨need, rfl⟩
theorem ifThen {s t : State} (c : Prop) (d : Decidable c) (q : Waits h s t) : Waits h s (@ite State c d t s) := by
  split
  · exact q
  · exact .refl s
theorem updChan (s : State) (g k : Nat) (f : ChanReg → ChanReg) : Waits h s (s.updChan g k f) := fun need => by
  have kept : ((s.updChan g k f).proc h).need = (s.proc h).need ∧ ((s.updChan g k f).proc h).pst = (s.proc h).pst := by
    unfold State.updChan
    rw [State.updProc_proc]
    split
    · next same => rw [← same]; exact ⟨rfl, rfl⟩
    · exact ⟨rfl, rfl⟩
  exact ⟨kept.1.symm ▸ need, kept.2⟩
theorem noteRelayed (s : State) (wid n : Nat) : Waits h s (s.noteRelayed wid n) := updChan _ _ _ _
theorem foldl {β : Type} (l : List β) (f : State → β → State) (step : ∀ s x, Waits h s (f s x)) : ∀ s, Waits h s (l.foldl f s) := by
  induction l with
  | nil => exact refl
  | cons x l ih => exact fun s => (step s x).trans (ih _)
theorem foldlPair {β γ : Type} (l : List β) (f : State × γ → β → State × γ) (step : ∀ s x, Waits h s.1 (f s x).1) :
    ∀ s, Waits h s.1 (l.foldl f s).1 := by
  induction l with
  | nil => exact fun s => refl s.1
  | cons x l ih => exact fun s => (step s x).trans (ih _)
/-- Only a process that waits for its staged messages wakes when one goes (R111). -/
theorem wakeIdle (s : State) (g k : Nat) (ofProc : Prop) (d : Decidable (ofProc ∧ (s.proc g).need = 0)) :
    Waits h s (@ite State (ofProc ∧ (s.proc g).need = 0) d (s.wake g (.blockedWrite k)) s) := by
  split
  · next idle =>
    intro need
    have other : g ≠ h := fun same => need (same ▸ idle.2)
    have kept : (s.wake g (.blockedWrite k)).proc h = s.proc h := by
      unfold State.wake State.goto
      split
      · rw [State.updProc_proc, if_neg other]
      · rfl
    rw [kept]
    exact ⟨need, rfl⟩
  · exact .refl s
theorem cutFlits (s : State) (part peer via : Nat) (rw_ : Word) (w : Nat × List Word × Nat) : Waits h s (s.cutFlits part peer via rw_ w) :=
  .of_procs (by unfold State.cutFlits; exact State.transmit_procs _ _ _ _)
theorem askArrived (s : State) (part wid : Nat) : Waits h s (s.askArrived part wid) := by
  unfold State.askArrived
  dsimp only
  split
  · split
    · exact .refl s
    · have noted := updChan (h := h) s (wid / 16) (wid % 16) fun y => { y with probe := some ((s.proc (wid / 16)).chan (wid % 16)).sent }
      split
      · exact noted.trans (.of_procs rfl)
      · exact noted.trans (cutFlits _ _ _ _ _ _)
  · exact .refl s
theorem pumpOne {s t : State} {part peer : Nat} {w : Nat × List Word × Nat} (goes : s.pumpOne part peer w = some t) : Waits h s t := by
  unfold State.pumpOne at goes
  dsimp only at goes
  split at goes
  · cases goes
  · split at goes
    · split at goes
      · injection goes with goes
        subst goes
        split
        · exact .of_procs rfl
        · exact ifThen _ _ ((noteRelayed s _ _).trans (.of_procs rfl))
      · cases goes
    · split at goes
      · cases goes
      · injection goes with goes
        subst goes
        refine trans ?_ (cutFlits _ _ _ _ _ _)
        refine trans ?_ (wakeIdle _ _ _ _ _)
        split
        · exact .refl s
        · split
          · exact updChan _ _ _ _
          · exact noteRelayed _ _ _
theorem pumpStep (part peer : Nat) (a : State × List Nat) (w : Nat × List Word × Nat) : Waits h a.1 (State.pumpStep part peer a w).1 := by
  have keep : Waits h a.1 (a.1.updLink part peer fun k => { k with waiting := k.waiting ++ [w] }) := .of_procs rfl
  unfold State.pumpStep
  dsimp only
  split
  · exact keep
  · split
    · next goes => exact pumpOne goes
    · exact keep.trans (askArrived _ _ _)
theorem linkPump (s : State) (part peer : Nat) : Waits h s (s.linkPump part peer) := by
  unfold State.linkPump
  refine trans ?_ (foldlPair _ _ (pumpStep part peer) _)
  exact .of_procs rfl
theorem linkSend (s : State) (part peer vnet tile index : Nat) (slots : List Word) (wid : Nat) :
    Waits h s (s.linkSend part peer vnet tile index slots wid) := by
  have inLine : Waits h s (s.updLink part peer fun k => { k with waiting := k.waiting ++ [(vnet, routeWord 0 0 0 tile index :: slots, wid)] }) := .of_procs rfl
  exact inLine.trans (linkPump _ part peer)
end Waits

/-- A writer's message on the mesh comes to the egress engine (R20). -/
def State.toEngine (s : State) (w : Nat) (m : NetMsg) : State :=
  match m.dest, m.body with
  | .peer p e, .data x => s.toPeer w p e x m.part
  | _, _ => s
theorem State.toEngine_quiet (s : State) (w : Nat) (m : NetMsg) : Quiet s (s.toEngine w m) ∧ ∀ h, Waits h s (s.toEngine w m) := by
  unfold State.toEngine
  split
  · exact ⟨Quiet.linkSend _ _ _ _ _ _ _ _, fun h => Waits.linkSend _ _ _ _ _ _ _ _⟩
  · exact ⟨.refl s, fun h => .refl s⟩
theorem State.flushPeer_eq (s : State) (w : Nat) : s.flushPeer w = s ∨
    ∃ (n l : List NetMsg), s.flushPeer w = l.foldl (fun u m => u.toEngine w m) ({ s with net := n }.cancel (.channelMessageArrive w)) := by
  unfold State.flushPeer
  dsimp only
  split
  · exact .inl rfl
  · exact .inr ⟨_, _, rfl⟩
/-- What a writer's messages on the mesh do on their way to the engine is traffic, and a process that waits for a move waits on (R20). -/
theorem State.flushPeer_traffic (s : State) (w : Nat) : Traffic s (s.flushPeer w) ∧ ∀ h, Waits h s (s.flushPeer w) := by
  rcases s.flushPeer_eq w with none_ | ⟨n, l, goes⟩
  · rw [none_]
    exact ⟨.refl s, fun h => .refl s⟩
  · have first : ∀ h, Waits h s ({ s with net := n }.cancel (.channelMessageArrive w)) := fun h => .of_procs rfl
    have moved : Traffic s ({ s with net := n }.cancel (.channelMessageArrive w)) := .of_same rfl rfl rfl rfl
    rw [goes]
    exact ⟨moved.trans (Traffic.foldl l (fun u m => u.toEngine w m) (fun u m => .of_quiet (u.toEngine_quiet w m).1) _),
      fun h => (first h).trans (Waits.foldl l (fun u m => u.toEngine w m) (fun u m => (u.toEngine_quiet w m).2 h) _)⟩

end Sys2Proof.Machine
end

section
/-! PROOFS. The move form of CBIND, and the move of a writer (R69). -/

namespace Sys2Proof.Machine

/-- The fields of the two operands of a move on this package: the process that gives, and the one that takes. -/
structure NamesMove (w at_ : Word) (p q own : Nat) : Prop where
  high : wfield w 63 32 = 0
  giver : wfield w 31 0 = p
  form : 2 ^ 63 ≤ at_.toNat
  rsv : wfield at_ 62 56 = 0
  kind : wfield at_ 33 32 = 0
  peer : wfield at_ 55 34 = own
  taker : wfield at_ 31 0 = q
theorem NamesMove.of_toNat {w at_ : Word} {p q own : Nat} (hp : p < 2 ^ 32) (hq : q < 2 ^ 32) (ho : own < 2 ^ 22) (hw : w.toNat = p)
    (ha : at_.toNat = 2 ^ 63 + own * 2 ^ 34 + q) : NamesMove w at_ p q own := by
  refine ⟨?_, ?_, ?_, ?_, ?_, ?_, ?_⟩ <;> simp only [wfield, field, hw, ha] <;> omega

/-- A process whose channel ends can move: known, of the partition, and parked. -/
structure AtRest (s : State) (h : Nat) : Prop where
  known : (Tab.look s.procs h).isSome = true
  part : (s.proc h).part = s.me.part
  parked : (s.proc h).pst = .parkedFault
theorem AtRest.check {s : State} {h : Nat} (a : AtRest s h) :
    ((Tab.look s.procs h).isSome && decide ((s.proc h).part = s.me.part ∧ (s.proc h).pst ≠ .exited)) = true ∧ (s.proc h).atRest = true := by
  obtain ⟨known, part, parked⟩ := a
  refine ⟨?_, decide_eq_true (.inr (.inl parked))⟩
  rw [known, parked]
  exact decide_eq_true ⟨part, by decide⟩

section
variable {s : State} {d b : BitVec 5} {c : BitVec 4} {p q : Nat}

/-- The move of a writer on this package. -/
def State.writerMove (s : State) (c : BitVec 4) (p q : Nat) : Move :=
  { issuer := s.running, c := c.toNat, p := p, q := q, peer := s.ownId.toNat, reader := false, waiting := [0] }
/-- The move is begun, and its issuer waits (R69). -/
def State.moving (s : State) (c : BitVec 4) (m : Move) : State :=
  (({ s with nextId := s.nextId + 1, moves := Tab.put s.moves s.nextId m } : State).later (.retargetAck s.nextId 0)).block (.blockedWrite c.toNat) waitOnly

/-- A writer of a process at rest begins to move to another. -/
structure WriterMoves (s : State) (c : BitVec 4) (p q : Nat) : Prop where
  level : 1 ≤ s.me.pl
  giver : AtRest s p
  taker : AtRest s q
  role : ((s.proc p).chan c.toNat).role = .writer
  use : ((s.proc p).chan c.toNat).use = .plain
  unbound : ((s.proc q).chan c.toNat).role = .unbound
theorem WriterMoves.begins (x : WriterMoves s c p q) {w at_ : Word} (names : NamesMove w at_ p q s.ownId.toNat) :
    s.cbindMove c.toNat w at_ = s.moving c (s.writerMove c p q) := by
  obtain ⟨level, giver, taker, role, use, unbound⟩ := x
  unfold State.cbindMove
  dsimp only
  rw [names.high, names.giver, names.rsv, names.kind, names.peer, names.taker, role, use, unbound, if_neg (by omega), if_neg (by simp),
    if_neg (by rw [giver.check.1, giver.check.2]; simp), if_neg (by rw [taker.check.1, taker.check.2]; simp), if_neg (by simp), if_neg (by simp),
    if_neg (by simp), if_neg (by simp), if_pos rfl]
  rfl
theorem exec_move {i : Instr} (form : i = .cbindMove d c b ∨ i = .cbind d c b) (high : 2 ^ 63 ≤ (s.reg b).toNat) (free : s.free [d, b])
    (strip : s.me.strip = none) : exec i s = .next (s.cbindMove c.toNat (s.reg d) (s.reg b)) := by
  obtain ⟨bit, same⟩ := move_form high
  rcases form with rfl | rfl
  · rw [exec_cbindMove free strip, same]
  · rw [exec_cbind free strip, bit, if_pos rfl]

/-- The last writer has acknowledged: the end moves (R69). -/
theorem exec_retargetAck {t : State} {mv w : Nat} {m : Move} (there : Tab.look t.moves mv = some m) (here : isRemoteWid w = false)
    (last : m.waiting = [w]) : exec (.retargetAck mv w) t =
      .next ({ t with moves := Tab.put t.moves mv { m with waiting := [] } }.moveEnd mv { m with waiting := [] }) := by
  refine congrArg Host.Outcome.next ?_
  have none_ : m.waiting.filter (· ≠ w) = [] := by rw [last]; simp
  rw [there]
  dsimp only
  rw [here, Bool.false_and, if_neg (by decide), none_]
  rfl
/-- Nothing of a writer is on its way to its reader's package. -/
theorem State.settled {t : State} {h k : Nat} (staged : t.staged = []) (links : t.links = []) (hk : k < 16)
    (relay : ((t.proc h).chan k).relayOut = 0) : t.unsettled h k = false := by
  have out : t.relaysOut (widOf h k) = false := decide_eq_false fun ⟨_, _, some_⟩ => by
    rw [show widOf h k / 16 = h from widOf_proc hk, show widOf h k % 16 = k from widOf_reg hk, relay] at some_
    exact Nat.lt_irrefl 0 some_
  unfold State.unsettled
  rw [State.unsent_none staged links, out]
  rfl

/-- Memory is its tables, with the keys of the partitions. -/
theorem SameMemory.of_parts {s t : State} (sram : t.sram = s.sram) (hbm : t.hbm = s.hbm) (epochs : t.hbmEpoch = s.hbmEpoch)
    (sramTags : t.sramTags = s.sramTags) (hbmTags : t.hbmTags = s.hbmTags) (parts : t.parts = s.parts) : SameMemory s t :=
  .of_tables sram hbm epochs sramTags hbmTags fun n => by unfold State.part; rw [parts]
theorem SameMemory.of_updChan (s : State) (h k : Nat) (f : ChanReg → ChanReg) : SameMemory s (s.updChan h k f) := .of_parts rfl rfl rfl rfl rfl rfl
theorem SameMemory.of_renameWid (s : State) (old new : Nat) : SameMemory s (s.renameWid old new) := .of_parts rfl rfl rfl rfl rfl rfl
/-- A writer to an entry of this package goes over with its credits (R35, R69). -/
theorem State.moveWriter_near {t : State} {h k h' : Nat} (near : ((t.proc h).chan k).dest.isPeer = false) :
    (t.moveWriter h k h').procs = (((t.flushPeer (widOf h k)).updChan h k fun _ => {}).updChan h' k fun _ => (t.proc h).chan k).procs ∧
      SameMemory t (t.moveWriter h k h') := by
  have memory := (t.flushPeer_traffic (widOf h k)).1.memory
  unfold State.moveWriter
  dsimp only
  generalize t.flushPeer (widOf h k) = f at memory ⊢
  split
  · next dest => rw [dest] at near; exact absurd near (by simp [Dest.isPeer])
  · have unbound := SameMemory.of_updChan f h k fun _ => {}
    refine ⟨rfl, (memory.trans unbound).trans (SameMemory.trans ?_ ((SameMemory.of_renameWid _ _ _).trans (.of_updChan _ _ _ _)))⟩
    exact .of_parts rfl rfl rfl rfl rfl rfl

/-- The issuer of a move that waits for it completes (R69). -/
theorem State.moveDone_completes {t : State} {mv : Nat} {m : Move} (waits : (t.proc m.issuer).pst = .blockedWrite m.c)
    (need : (t.proc m.issuer).need = waitOnly) (ss : (t.proc m.issuer).ss = false) :
    ((t.moveDone mv m).proc m.issuer).pc = (t.proc m.issuer).pc + 4 ∧ ((t.moveDone mv m).proc m.issuer).pst = .ready ∧
      (∀ h, h ≠ m.issuer → (t.moveDone mv m).proc h = t.proc h) ∧ SameMemory t (t.moveDone mv m) := by
  have done : t.moveDone mv m = ({ t with moves := Tab.cut t.moves mv } : State).completeAt m.issuer 0x28 ((t.proc m.issuer).pc + 4) :=
    if_pos ⟨waits, need⟩
  rw [done, State.completeAt_plain { t with moves := Tab.cut t.moves mv } m.issuer 0x28 ((t.proc m.issuer).pc + 4) ss]
  have proc : ∀ h, (({ t with moves := Tab.cut t.moves mv } : State).updProc m.issuer fun x => x.completed t.cycle ((t.proc m.issuer).pc + 4)).proc h =
      if m.issuer = h then (t.proc m.issuer).completed t.cycle ((t.proc m.issuer).pc + 4) else t.proc h := fun h => State.updProc_proc _ _ _ _
  refine ⟨?_, ?_, fun h other => ?_, ?_⟩
  · rw [State.countEvent_proc, proc, if_pos rfl]; rfl
  · rw [State.countEvent_proc, proc, if_pos rfl]; rfl
  · rw [State.countEvent_proc, proc, if_neg (Ne.symm other)]
  · refine .of_tables ?_ ?_ ?_ ?_ ?_ fun n => ?_
    · rw [State.countEvent_sram]; rfl
    · rw [State.countEvent_hbm]; rfl
    · rw [State.countEvent_hbmEpoch]; rfl
    · rw [State.countEvent_sramTags]; rfl
    · rw [State.countEvent_hbmTags]; rfl
    · rw [State.countEvent_part]; rfl

/-- What the issuer of a move is while it waits. -/
theorem State.moving_me (s : State) (c : BitVec 4) (m : Move) :
    (s.moving c m).me = { s.me.enter (.blockedWrite c.toNat) s.cycle with lastIssue := some s.cycle, need := waitOnly } :=
  State.block_me (({ s with nextId := s.nextId + 1, moves := Tab.put s.moves s.nextId m } : State).later (.retargetAck s.nextId 0)) _ _
theorem State.moving_proc (s : State) (c : BitVec 4) (m : Move) {h : Nat} (other : h ≠ s.running) : (s.moving c m).proc h = s.proc h :=
  (State.updProc_proc _ s.running _ _).trans (if_neg (Ne.symm other))
theorem State.moving_memory (s : State) (c : BitVec 4) (m : Move) : SameMemory s (s.moving c m) := by
  have begun : SameMemory s (({ s with nextId := s.nextId + 1, moves := Tab.put s.moves s.nextId m } : State).later (.retargetAck s.nextId 0)) :=
    .of_tables rfl rfl rfl rfl rfl fun _ => rfl
  exact begun.trans (State.updMe_memory _ fun x => { x.enter (.blockedWrite c.toNat) _ with lastIssue := some _, need := waitOnly })

theorem WriterMoves.ends (x : WriterMoves s c p q) (hp : p ≠ s.running) (hq : q ≠ s.running) (ss : s.me.ss = false)
    (near : ((s.proc p).chan c.toNat).dest.isPeer = false) (staged : s.staged = []) (links : s.links = [])
    (held : (s.proc p).pushesHeld c.toNat = false) (relay : ((s.proc p).chan c.toNat).relayOut = 0) :
    ∃ u, exec (.retargetAck s.nextId 0) (s.moving c (s.writerMove c p q)) = .next u ∧ (u.proc q).chan c.toNat = (s.proc p).chan c.toNat ∧
      (u.proc p).chan c.toNat = {} ∧ (u.proc s.running).pc = s.me.pc + 4 ∧ (u.proc s.running).pst = .ready ∧ SameMemory s u := by
  have apart : p ≠ q := fun same => by
    have both := x.unbound
    rw [← same, x.role] at both
    exact absurd both (by decide)
  have run := exec_retargetAck (t := s.moving c (s.writerMove c p q)) (mv := s.nextId) (w := 0) (Tab.look_put_same _ _ _) (by decide) rfl
  have me := s.moving_me c (s.writerMove c p q)
  have others := fun h (other : h ≠ s.running) => s.moving_proc c (s.writerMove c p q) other
  have memory := s.moving_memory c (s.writerMove c p q)
  obtain ⟨running, ownId, staged', links'⟩ : (s.moving c (s.writerMove c p q)).running = s.running ∧ (s.moving c (s.writerMove c p q)).ownId = s.ownId ∧
      (s.moving c (s.writerMove c p q)).staged = s.staged ∧ (s.moving c (s.writerMove c p q)).links = s.links := ⟨rfl, rfl, rfl, rfl⟩
  unfold State.me at me
  rw [running] at me
  generalize s.moving c (s.writerMove c p q) = t at run me others memory running ownId staged' links'
  -- Only the list of moves has changed before the end moves.
  generalize ht : ({ t with moves := Tab.put t.moves s.nextId { s.writerMove c p q with waiting := [] } } : State) = v at run
  have procs : ∀ h, v.proc h = t.proc h := fun h => by rw [← ht]; rfl
  have memory' : SameMemory s v := memory.trans (by rw [← ht]; exact .of_tables rfl rfl rfl rfl rfl fun _ => rfl)
  have settled : v.unsettled p c.toNat = false := State.settled (by rw [← ht]; exact staged'.trans staged) (by rw [← ht]; exact links'.trans links) c.isLt
    (by rw [procs, others p hp]; exact relay)
  have own : v.ownId = s.ownId := by rw [← ht]; exact ownId
  have ends : v.moveEnd s.nextId { s.writerMove c p q with waiting := [] } =
      (v.moveWriter p c.toNat q).moveDone s.nextId { s.writerMove c p q with waiting := [] } := by
    unfold State.moveEnd State.writerMove
    dsimp only
    rw [own, settled, procs, others p hp, held, if_neg (by decide), if_neg (by decide), decide_eq_true rfl, if_pos rfl]
  rw [ends] at run
  obtain ⟨moved, store⟩ := State.moveWriter_near (t := v) (h := p) (k := c.toNat) (h' := q) (by rw [procs, others p hp]; exact near)
  obtain ⟨traffic, waits⟩ := v.flushPeer_traffic (widOf p c.toNat)
  have chan : (v.proc p).chan c.toNat = (s.proc p).chan c.toNat := by rw [procs, others p hp]
  rw [chan] at moved
  generalize v.flushPeer (widOf p c.toNat) = f at moved traffic waits
  have proc : ∀ h, (v.moveWriter p c.toNat q).proc h = ((f.updChan p c.toNat fun _ => {}).updChan q c.toNat fun _ => (s.proc p).chan c.toNat).proc h :=
    fun h => congrArg (fun l => Tab.lookD l h ({} : Proc)) moved
  generalize v.moveWriter p c.toNat q = g at run proc store
  have issuer : g.proc s.running = f.proc s.running := by
    rw [proc]
    exact (State.updProc_proc _ _ _ _).trans ((if_neg hq).trans ((State.updProc_proc _ _ _ _).trans (if_neg hp)))
  have core : (f.proc s.running).core = (t.proc s.running).core := by rw [traffic.procs, procs]
  rw [me] at core
  have need := congrArg Proc.need core
  have pc := congrArg Proc.pc core
  have status := congrArg Proc.ss core
  have pst := (waits s.running (by rw [procs, me]; exact (show waitOnly ≠ 0 by decide))).2
  rw [procs, me] at pst
  obtain ⟨pc', ready, rest, memory''⟩ := State.moveDone_completes (t := g) (mv := s.nextId) (m := { s.writerMove c p q with waiting := [] })
    ((congrArg Proc.pst issuer).trans pst) ((congrArg Proc.need issuer).trans need) ((congrArg Proc.ss issuer).trans (Eq.trans status ss))
  have giver := rest p hp
  have taker := rest q hq
  refine ⟨_, run, ?_, ?_, pc'.trans ?_, ready, (memory'.trans store).trans memory''⟩
  · rw [taker, proc]
    exact State.updChan_chan_same _ _ _ _
  · rw [giver, proc]
    refine (congrArg (fun y : Proc => y.chan c.toNat) ((State.updProc_proc _ _ _ _).trans (if_neg (Ne.symm apart)))).trans ?_
    exact State.updChan_chan_same _ _ _ _
  · exact congrArg (· + 4) ((congrArg Proc.pc issuer).trans pc)

theorem writerMoves {i : Instr} (form : i = .cbindMove d c b ∨ i = .cbind d c b) (hp : p < 2 ^ 32) (hq : q < 2 ^ 32) (word : s.reg d = .ofNat 64 p)
    (attr : s.reg b = .ofNat 64 (2 ^ 63 + s.ownId.toNat * 2 ^ 34 + q)) (free : s.free [d, b]) (plain : s.plain) (x : WriterMoves s c p q)
    (np : p ≠ s.running) (nq : q ≠ s.running) (near : ((s.proc p).chan c.toNat).dest.isPeer = false) (staged : s.staged = []) (links : s.links = [])
    (held : (s.proc p).pushesHeld c.toNat = false) (relay : ((s.proc p).chan c.toNat).relayOut = 0) :
    ∃ t u, exec i s = .next t ∧ t.me.pst = .blockedWrite c.toNat ∧ t.me.pc = s.me.pc ∧ (∃ e ∈ t.events, e.2 = .retargetAck s.nextId 0) ∧
      exec (.retargetAck s.nextId 0) t = .next u ∧ (u.proc q).chan c.toNat = (s.proc p).chan c.toNat ∧ (u.proc p).chan c.toNat = {} ∧
      (u.proc s.running).pc = s.me.pc + 4 ∧ (u.proc s.running).pst = .ready ∧ SameMemory s u := by
  obtain ⟨ss, strip, -⟩ := plain
  have low : s.ownId.toNat < 2 ^ 22 := s.ownId.isLt
  have names : NamesMove (s.reg d) (s.reg b) p q s.ownId.toNat := .of_toNat hp hq low (by rw [word, BitVec.toNat_ofNat]; omega)
    (by rw [attr, BitVec.toNat_ofNat]; omega)
  have me := s.moving_me c (s.writerMove c p q)
  obtain ⟨u, acknowledged, moved⟩ := x.ends np nq ss near staged links held relay
  refine ⟨s.moving c (s.writerMove c p q), u, (exec_move form names.form free strip).trans (congrArg _ (x.begins names)), ?_, ?_, ?_, acknowledged, moved⟩
  · rw [me]; rfl
  · rw [me]; rfl
  · exact ⟨_, mem_insertDue _ _ _, rfl⟩
end

end Sys2Proof.Machine
end

section
/-! PROOFS. The move of a reader, the notices of a move (R69), and the obligation of the bindings. -/

namespace Sys2Proof.Machine

/-- A completed move is off the list, and its issuer may go on; no entry and no channel register changes. -/
structure MoveOver (s t : State) (mv : Nat) : Prop where
  ep : ∀ e, t.ep e = s.ep e
  chan : ∀ h k, (t.proc h).chan k = (s.proc h).chan k
  gone : Tab.look t.moves mv = none
theorem State.moveDone_over {s : State} {mv : Nat} {m : Move} (ss : (s.proc m.issuer).ss = false) : MoveOver s (s.moveDone mv m) mv := by
  have gone : Tab.look (Tab.cut s.moves mv) mv = none := by rw [Tab.look_cut, if_pos rfl]
  unfold State.moveDone
  dsimp only
  split
  · rw [State.completeAt_plain { s with moves := Tab.cut s.moves mv } m.issuer 0x28 _ ss]
    refine ⟨fun e => by rw [State.countEvent_ep]; rfl, fun h k => ?_, by rw [State.countEvent_moves]; exact gone⟩
    rw [State.countEvent_proc, State.updProc_proc]
    split
    · next same => rw [← same]; rfl
    · rfl
  · exact ⟨fun _ => rfl, fun _ _ => rfl, gone⟩

section
variable {s : State} {m : Move} {e new : Nat}

/-- The endpoint under its new number, and the messages to it (R69). -/
def State.renumbered (s : State) (old : Dest) (e new : Nat) (moved : Endpoint) : State :=
  let r := (s.leaveRun e).readdress e new
  { r with eps := Tab.put (Tab.cut r.eps e) new moved
           net := r.net.map fun x => { x with dest := if x.dest = old then .tile new else x.dest } }
/-- The end of P's register is Q's, with what open strips retain of it (R69). -/
def State.handedOver (s : State) (m : Move) (e new : Nat) : State :=
  (((s.updProc m.p fun p => { p with strip := p.strip.map (Strip.keep m.c e) }).mapStrips (Strip.follow e new)).updChan m.p m.c fun _ => {}).updChan
    m.q m.c fun _ => { role := .reader, dest := .tile new, registered := true }
/-- The entry as Q's. -/
def State.rehoused (s : State) (m : Move) (e new : Nat) : Endpoint :=
  { s.ep e with owner := widOf m.q m.c, run := (s.bufferRun (s.proc m.q).tile (s.ep e).bcap).getD 0x100000,
                kept := (s.ep e).kept + (s.proc m.p).retained m.c, came := [], probes := [], writers := (s.ep e).writers ++ (s.ep new).writers }
/-- A writer learns where its reader is now. -/
def State.tellWriter (s : State) (m : Move) (e new w : Nat) : State :=
  if isRemoteWid w then s.ctrlSend (s.proc m.q).part (remotePeer w) 10 (remoteOf w) new e 0 else s.thawWriter w (.tile new)
/-- The endpoint moves from number `e` to number `new` (R69). -/
def State.movedTo (s : State) (m : Move) (e new : Nat) : State :=
  ((s.ep new).writers.foldl (fun s w => s.grantCredit new w 0) ((s.ep e).writers.foldl (fun s w => s.tellWriter m e new w)
    ((s.renumbered ((s.proc m.p).chan m.c).dest e new (s.rehoused m e new)).handedOver m e new))).injectAll
theorem State.moveReader_eq {i : Nat} (dest : ((s.proc m.p).chan m.c).dest = .tile e) (free : s.freeIndex (s.proc m.q).tile = some i) :
    s.moveReader m = s.movedTo m e ((s.proc m.q).tile * 256 + i) := by
  have finds : s.moveReader m = match ((s.proc m.p).chan m.c).dest.rid with
      | none => s
      | some e => match s.freeIndex (s.proc m.q).tile with
        | none => s
        | some i => s.movedTo m e ((s.proc m.q).tile * 256 + i) := rfl
  rw [finds, dest, free]
  rfl

/-! What a move leaves of each process. -/

theorem State.readdress_ss (s : State) (old new h : Nat) : ((s.readdress old new).proc h).ss = (s.proc h).ss := by
  unfold State.proc State.readdress Tab.lookD
  dsimp only
  rw [Tab.look_mapV]
  cases Tab.look s.procs h with
  | none => rfl
  | some p => rfl
theorem State.mapStrips_ss (s : State) (f : Strip → Strip) (h : Nat) : ((s.mapStrips f).proc h).ss = (s.proc h).ss := by
  unfold State.proc State.mapStrips Tab.lookD
  dsimp only
  rw [Tab.look_mapV]
  cases Tab.look s.procs h with
  | none => rfl
  | some p => rfl
theorem State.updProc_ss (s : State) (g h : Nat) (f : Proc → Proc) (same : ∀ p, (f p).ss = p.ss) : ((s.updProc g f).proc h).ss = (s.proc h).ss := by
  rw [State.updProc_proc]
  split
  · next here => rw [same, here]
  · rfl
theorem State.updChan_ss (s : State) (g k h : Nat) (f : ChanReg → ChanReg) : ((s.updChan g k f).proc h).ss = (s.proc h).ss :=
  State.updProc_ss s g h (fun p => p.setChan k (f (p.chan k))) fun _ => rfl
theorem State.renumbered_ss (s : State) (old : Dest) (e new : Nat) (moved : Endpoint) (h : Nat) :
    ((s.renumbered old e new moved).proc h).ss = (s.proc h).ss := by
  refine (State.readdress_ss (s.leaveRun e) e new h).trans ?_
  unfold State.proc
  rw [(s.leaveRun_left e).procs]
theorem State.handedOver_ss (s : State) (m : Move) (e new h : Nat) : ((s.handedOver m e new).proc h).ss = (s.proc h).ss := by
  unfold State.handedOver
  rw [State.updChan_ss, State.updChan_ss, State.mapStrips_ss]
  exact State.updProc_ss s m.p h (fun p => { p with strip := p.strip.map (Strip.keep m.c e) }) fun _ => rfl
theorem State.renumbered_staged (s : State) (old : Dest) (e new : Nat) (moved : Endpoint) (staged : s.staged = []) :
    (s.renumbered old e new moved).staged = [] := by
  have left : (s.leaveRun e).staged = [] := by have same := congrArg State.staged (s.leaveRun_rest e); exact Eq.trans same staged
  unfold State.renumbered State.readdress
  dsimp only
  rw [left, List.map_nil]
/-- Grants to writers of this package only enter the mesh. -/
theorem State.grants_offMesh (new : Nat) : ∀ (ws : List Nat) (s : State), (∀ w ∈ ws, isRemoteWid w = false) →
    (ws.foldl (fun s w => s.grantCredit new w 0) s).offMesh = s.offMesh
  | [], _, _ => rfl
  | w :: ws, s, here => by
    obtain ⟨_, mesh, -, -⟩ := s.grantCredit_mesh new 0 (here w List.mem_cons_self)
    exact (State.grants_offMesh new ws _ fun v hv => here v (List.mem_cons_of_mem _ hv)).trans mesh.rest

/-- What a reader's move does to its entry and to the two registers (R69). -/
structure ReaderMoved (s t : State) (m : Move) (e new : Nat) : Prop where
  left : t.ep e = {}
  entry : t.ep new = s.rehoused m e new
  giver : (t.proc m.p).chan m.c = {}
  taker : (t.proc m.q).chan m.c = { role := .reader, dest := .tile new, registered := true }
  ss : ∀ h, (t.proc h).ss = (s.proc h).ss
theorem State.movedTo_moves (alone : (s.ep e).writers = []) (early : ∀ w ∈ (s.ep new).writers, isRemoteWid w = false) (staged : s.staged = [])
    (apart : m.p ≠ m.q) (other : new ≠ e) : ReaderMoved s (s.movedTo m e new) m e new := by
  have staged' := s.renumbered_staged ((s.proc m.p).chan m.c).dest e new (s.rehoused m e new) staged
  have ss := fun h => ((s.renumbered ((s.proc m.p).chan m.c).dest e new (s.rehoused m e new)).handedOver_ss m e new h).trans
    (s.renumbered_ss ((s.proc m.p).chan m.c).dest e new (s.rehoused m e new) h)
  have look : ∀ k, Tab.look (s.renumbered ((s.proc m.p).chan m.c).dest e new (s.rehoused m e new)).eps k =
      if new = k then some (s.rehoused m e new) else if e = k then none else Tab.look ((s.leaveRun e).readdress e new).eps k := fun k => by
    rw [← Tab.look_cut, ← Tab.look_put]
    rfl
  unfold State.movedTo
  rw [alone, List.foldl_nil]
  generalize s.renumbered ((s.proc m.p).chan m.c).dest e new (s.rehoused m e new) = r at staged' ss look
  have held : (r.handedOver m e new).staged = [] := staged'
  have eps : ∀ k, (r.handedOver m e new).ep k = r.ep k := fun _ => rfl
  have giver : ((r.handedOver m e new).proc m.p).chan m.c = {} := by
    unfold State.handedOver
    refine (congrArg (fun y : Proc => y.chan m.c) ((State.updProc_proc _ _ _ _).trans (if_neg (Ne.symm apart)))).trans ?_
    exact State.updChan_chan_same _ _ _ _
  have taker : ((r.handedOver m e new).proc m.q).chan m.c = { role := .reader, dest := .tile new, registered := true } :=
    State.updChan_chan_same _ _ _ _
  generalize r.handedOver m e new = v at held eps giver taker ss
  have mesh := State.grants_offMesh new (s.ep new).writers v early
  generalize (s.ep new).writers.foldl (fun s w => s.grantCredit new w 0) v = g at mesh
  have procs : ∀ h, g.proc h = v.proc h := fun h => by have same := congrArg (fun u : State => u.proc h) mesh; exact same
  have ep : ∀ k, g.ep k = r.ep k := fun k => by have same := congrArg (fun u : State => u.ep k) mesh; exact Eq.trans same (eps k)
  have none_ : g.staged = [] := by have same := congrArg State.staged mesh; exact Eq.trans same held
  rw [State.injectAll_none g none_]
  refine ⟨?_, ?_, by rw [procs]; exact giver, by rw [procs]; exact taker, fun h => by rw [procs]; exact ss h⟩
  · rw [ep]
    unfold State.ep Tab.lookD
    rw [look, if_neg other, if_pos rfl]
    rfl
  · rw [ep]
    unfold State.ep Tab.lookD
    rw [look, if_pos rfl]
    rfl

/-- The lowest free entry of a tile is not bound. -/
theorem State.freeIndex_free {t i : Nat} (free : s.freeIndex t = some i) : (s.ep (t * 256 + i)).bound = false := by
  have found := List.find?_some free
  simpa using found
/-- Once the last writer has acknowledged, a reader's entry with its queue is at Q's tile (R69). -/
theorem readerMoves {mv w i : Nat} (there : Tab.look s.moves mv = some m) (reader : m.reader = true) (own : m.peer = s.ownId.toNat) (apart : m.p ≠ m.q)
    (last : m.waiting = [w]) (here : isRemoteWid w = false) (dest : ((s.proc m.p).chan m.c).dest = .tile e) (bound : (s.ep e).bound = true)
    (alone : (s.ep e).writers = []) (early : ∀ v ∈ (s.ep ((s.proc m.q).tile * 256 + i)).writers, isRemoteWid v = false)
    (free : s.freeIndex (s.proc m.q).tile = some i) (staged : s.staged = []) (ss : (s.proc m.issuer).ss = false) :
    ∃ t, exec (.retargetAck mv w) s = .next t ∧ t.ep e = {} ∧ (t.ep ((s.proc m.q).tile * 256 + i)).queue = (s.ep e).queue ∧
      (t.ep ((s.proc m.q).tile * 256 + i)).free = (s.ep e).free ∧ (t.ep ((s.proc m.q).tile * 256 + i)).owner = widOf m.q m.c ∧
      (t.proc m.p).chan m.c = {} ∧ ((t.proc m.q).chan m.c).role = .reader ∧
      ((t.proc m.q).chan m.c).dest = .tile ((s.proc m.q).tile * 256 + i) ∧ Tab.look t.moves mv = none := by
  have other : (s.proc m.q).tile * 256 + i ≠ e := fun same => by
    have unbound := State.freeIndex_free free
    rw [same, bound] at unbound
    exact absurd unbound (by decide)
  have run := exec_retargetAck there here last
  have ends : ({ s with moves := Tab.put s.moves mv { m with waiting := [] } } : State).moveEnd mv { m with waiting := [] } =
      (({ s with moves := Tab.put s.moves mv { m with waiting := [] } } : State).moveReader { m with waiting := [] }).moveDone mv { m with waiting := [] } := by
    unfold State.moveEnd
    dsimp only
    rw [reader, own, if_pos rfl, decide_eq_true rfl, if_pos rfl]
  have reads := State.moveReader_eq (s := { s with moves := Tab.put s.moves mv { m with waiting := [] } }) (m := { m with waiting := [] }) (e := e) dest free
  rw [ends, reads] at run
  have moved := State.movedTo_moves (s := { s with moves := Tab.put s.moves mv { m with waiting := [] } }) (m := { m with waiting := [] }) (e := e)
    (new := (s.proc m.q).tile * 256 + i) alone early staged apart other
  have place : (({ s with moves := Tab.put s.moves mv { m with waiting := [] } } : State).proc ({ m with waiting := [] } : Move).q).tile = (s.proc m.q).tile := rfl
  rw [place] at run
  have entry : ({ s with moves := Tab.put s.moves mv { m with waiting := [] } } : State).rehoused { m with waiting := [] } e ((s.proc m.q).tile * 256 + i) =
      s.rehoused m e ((s.proc m.q).tile * 256 + i) := rfl
  have issuer := moved.ss m.issuer
  obtain ⟨left, new_, giver, taker, -⟩ := moved
  rw [entry] at new_
  generalize State.movedTo _ _ _ _ = v at run left new_ giver taker issuer
  obtain ⟨ep, chan, gone⟩ := State.moveDone_over (s := v) (mv := mv) (m := { m with waiting := [] }) (Eq.trans issuer ss)
  refine ⟨_, run, (ep e).trans left, ?_, ?_, ?_, (chan _ _).trans giver, ?_, ?_, gone⟩
  · rw [ep, new_]; rfl
  · rw [ep, new_]; rfl
  · rw [ep, new_]; rfl
  · exact (congrArg ChanReg.role (chan _ _)).trans (congrArg ChanReg.role taker)
  · exact (congrArg ChanReg.dest (chan _ _)).trans (congrArg ChanReg.dest taker)

/-- A writer that is told of a move stops, and acknowledges once its data has been accepted (R69). -/
theorem writerFreezes {mv h c : Nat} (there : Tab.look s.moves mv = some m) (hh : h < 2 ^ 32) (hc : c < 16) :
    ∃ t, exec (.retargetNotice mv (widOf h c)) s = .next t ∧ (t.proc h).chan c = { (s.proc h).chan c with frozen := true } ∧
      (s.net = [] → ∃ e ∈ t.events, e.2 = .retargetAck mv (widOf h c)) ∧
      ((∃ x ∈ s.net, x.wid = widOf h c ∧ ∃ y, x.body = .data y) → ∃ e ∈ t.events, e.2 = .retargetNotice mv (widOf h c)) := by
  have ofProc : isProcWid (widOf h c) = true := decide_eq_true (by unfold widOf; omega)
  have near : isRemoteWid (widOf h c) = false := decide_eq_false (by unfold widOf; omega)
  have frozen : s.freezeWriter (widOf h c) = s.updChan h c fun x => { x with frozen := true } := by
    unfold State.freezeWriter
    rw [if_pos ofProc, widOf_proc hc, widOf_reg hc]
  have run : exec (.retargetNotice mv (widOf h c)) s = .next (if (s.updChan h c fun x => { x with frozen := true }).flying (widOf h c) then
      (s.updChan h c fun x => { x with frozen := true }).afterCycles 1 (.retargetNotice mv (widOf h c))
      else (s.updChan h c fun x => { x with frozen := true }).later (.retargetAck mv (widOf h c))) := by
    refine congrArg Host.Outcome.next ?_
    rw [there]
    dsimp only
    rw [near, if_neg (by decide), frozen]
  have chan := State.updChan_chan_same s h c fun x => { x with frozen := true }
  have flying : (s.updChan h c fun x => { x with frozen := true }).flying (widOf h c) = s.flying (widOf h c) := rfl
  rw [flying] at run
  cases under : s.flying (widOf h c) with
  | true =>
    rw [under, if_pos rfl] at run
    refine ⟨_, run, chan, fun none_ => ?_, fun _ => ⟨_, mem_insertDue _ _ _, rfl⟩⟩
    unfold State.flying at under
    rw [none_] at under
    exact absurd (show false = true from under) (by decide)
  | false =>
    rw [under, if_neg (by decide)] at run
    refine ⟨_, run, chan, fun _ => ⟨_, mem_insertDue _ _ _, rfl⟩, fun ⟨x, hx, wid, y, body⟩ => ?_⟩
    have none_ := List.any_eq_false.1 under x hx
    rw [wid, body] at none_
    simp at none_
end

/-- Settles O35: a binding takes its entry or sends its registration, an unbinding gives back what it held, and a move hands the end over. -/
theorem bindingResult : Obligations.BindingResult := by
  unfold Obligations.BindingResult
  refine ⟨fun s d b c ix cap run once tile hi some_ most single word attr inside unbound new place free plain =>
      cbindReads tile hi some_ most single word attr inside unbound new place free plain,
    fun s d b c n ix hn hi word attr inside unbound free plain => cbindWrites hn hi word attr inside unbound free plain,
    fun s c e role use refused dest plain => ⟨cunbindFrees role use refused dest plain, cunbindRefused role use refused dest plain.2.1⟩,
    fun s c e role use refused gone dest plain staged links mem served => cunbindLeaves role use refused gone dest plain staged links mem served,
    fun s c role strip => cunbindUnbound role strip, fun s d b c bound ordinary free strip => cbindBound bound ordinary free strip,
    fun s i d b c form low free strip => moveDenied form low free strip, ?_,
    fun s mv w e i m there reader own apart last here _ dest bound alone early free staged ss =>
      readerMoves there reader own apart last here dest bound alone early free staged ss,
    fun s mv h c m there hh hc => writerFreezes there hh hc⟩
  intro s i d b c p q form hp hq word attr free plain level np nq rest role use near unbound staged links held relay
  have at_ : ∀ h, h = p ∨ h = q → AtRest s h := fun h hh => by
    obtain ⟨known, part, parked⟩ := rest h hh
    exact ⟨known, part, parked⟩
  exact writerMoves form hp hq word attr free plain ⟨level, at_ p (.inl rfl), at_ q (.inr rfl), role, use, unbound⟩ np nq near staged links held relay

end Sys2Proof.Machine
end

section
/-! PROOFS. Loads and stores of LOCAL memory outside any strip: at once, by the own slice (R80, R342, R373). -/

namespace Sys2Proof.Machine

/-- Laying nothing over bytes leaves them. -/
@[simp] theorem overlay_nil (bs : List Byte) : overlay bs [] = bs := by simp [overlay]

/-- Written bytes from an offset on reach their number past it. -/
theorem span_wbytesFrom : ∀ (bs : List Byte) (o m : Nat), m ≤ o →
    ((wbytesFrom o bs).map fun b => b.off + 1).foldl max m = if bs = [] then m else o + bs.length
  | [], _, _, _ => rfl
  | b :: bs, o, m, h => by
    have step : ((wbytesFrom o (b :: bs)).map fun b => b.off + 1).foldl max m =
        ((wbytesFrom (o + 1) bs).map fun b => b.off + 1).foldl max (max m (o + 1)) := rfl
    rw [step, span_wbytesFrom bs (o + 1) (max m (o + 1)) (by omega)]
    cases bs with
    | nil => simp; omega
    | cons c bs => simp; omega

/-- Plain bytes reach their number. -/
@[simp] theorem span_wbytes (bs : List Byte) : Req.span (wbytes bs) = bs.length :=
  (span_wbytesFrom bs 0 0 (Nat.le_refl 0)).trans (by cases bs <;> simp)

theorem Size.bytes_pos (z : Size) : 0 < Size.bytes z := by cases z <;> decide

/-- The global key of a LOCAL offset of the running process. -/
def State.localKey (s : State) (a : Nat) : Nat := s.me.tile * 0x100000 + a

/-- An aligned access of LOCAL bytes has its place in the own slice (R78, R80). -/
theorem LocalBytes.placeMt {s : State} {a : Word} {n al : Nat} {p : Perm} (l : LocalBytes s a.toNat n) (pos : 0 < n) (aligned : a.toNat % al = 0) :
    s.placeMt (s.me.mtCtx s.running) a n al p = (s, .ok (.sram (s.localKey a.toNat) false)) :=
  s.placeMt_local a n al p l.mt aligned pos l.low l.high l.slice l.kept

/-- None of their lines is withdrawn. -/
theorem LocalBytes.inUse {s : State} {a n : Nat} (l : LocalBytes s a n) : s.isWithdrawn (s.localKey a) n = false := l.kept

/-- The number that bytes of the own slice stand for. -/
theorem State.ofBytesLE_sramRead (s : State) (a n : Nat) : ofBytesLE (s.sramRead (s.localKey a) n) = localVal s a n :=
  ofBytesLE_sum _ n

/-- Without a strip no load is forwarded (R343). -/
theorem Proc.heldBytes_none {p : Proc} (none : p.strip = none) (typ : Nat) (pl : Place) (n : Nat) : p.heldBytes typ pl n = [] := by
  simp only [Proc.heldBytes, none]

/-- Outside any strip a load of the own slice gets its bytes. -/
theorem State.lookLocal_slice {s : State} (none : s.me.strip = none) (typ k n : Nat) :
    s.lookLocal s.running typ (.sram k false) n = (s, .val (s.sramRead k n)) := by
  have held : (s.proc s.running).heldBytes typ (.sram k false) n = [] := Proc.heldBytes_none none typ _ n
  simp only [State.lookLocal, held, overlay_nil]

theorem State.pastAtomics_none {s : State} (none : s.me.strip = none) (a : Word) (n : Nat) (k : State → State) : s.pastAtomics a n k = k s := by
  simp [State.pastAtomics, none]

/-- A store to lines of the own slice that are in use performs at once (R117). -/
theorem State.storeOne_slice {s : State} {k : Nat} {bs : List WByte} (kept : s.isWithdrawn k (Req.span bs) = false) (h typ : Nat) (pc : BitVec 48)
    (op addr seg : Nat) : s.storeOne h typ pc op { place := .sram k false, addr := addr, bs := bs, seg := seg } = s.sramStore k bs := by
  simp [State.storeOne, State.placeAgain, kept]

theorem State.storeAll_one (s : State) (h typ : Nat) (pc : BitVec 48) (op : Nat) (w : Wr) : s.storeAll h typ pc op [w] = s.storeOne h typ pc op w := rfl

theorem State.handOver_store (s : State) (h typ : Nat) (pc : BitVec 48) (op : Nat) (ws : List Wr) :
    s.handOver h (.store typ pc op ws) = s.storeAll h typ pc op ws := rfl

theorem State.bufferStore_none {s : State} (none : s.me.strip = none) (op : Nat) (vec : Bool) (x : Held) :
    s.bufferStore op vec x = (s.handOver s.running x).retire op := by
  simp only [State.bufferStore, none]

theorem State.retire_only (s : State) (op : Nat) (ss : s.me.ss = false) : OnlyRegs s (s.retire op) [] (s.me.pc + 4) := s.jump_only op _ ss

/-- What is as it was after a store to SRAM was so before it. -/
theorem SameRest.of_withSram {s t : State} {m : List Host.Cell} {tg : Tab Bool} (r : SameRest (s.withSram m tg) t) : SameRest s t :=
  ⟨r.running, r.procs, r.parts, r.eps, r.pcap, r.pset, r.hepset, r.cycle⟩
theorem SameUnits.of_withSram {s t : State} {m : List Host.Cell} {tg : Tab Bool} (u : SameUnits (s.withSram m tg) t) : SameUnits s t :=
  ⟨u.vbank, u.mbank, u.treg, u.tsh, u.cbt, u.an, u.owners⟩
theorem SameRegs.of_withSram {s t : State} {m : List Host.Cell} {tg : Tab Bool} {ds : List (BitVec 5)} (r : SameRegs (s.withSram m tg) t ds) :
    SameRegs s t ds := ⟨r.regs, r.caps, r.chans⟩

/-- Storing the low bytes of a number and retiring. -/
theorem OnlyStored.retire {s : State} (ss : s.me.ss = false) (op a v : Nat) {n : Nat} (pos : 0 < n) :
    OnlyStored s ((s.sramStore (s.localKey a) (wbytes (bytesLE n v))).retire op) a n v [] := by
  obtain ⟨bytes, tags⟩ := s.sramStore_num (s.localKey a) n v pos
  obtain ⟨m, tg, stored⟩ := State.sramStore_eq (s.localKey a) (wbytes (bytesLE n v)) s
  rw [stored] at bytes tags ⊢
  have only := (s.withSram m tg).retire_only op ss
  exact {
    went := only.went
    regs := only.regs.of_withSram
    special := only.special
    memory := ⟨fun k => (only.memory.sram k).trans (bytes k), fun g => (only.memory.sramTag g).trans (tags g), only.memory.hbm, only.memory.hbmTag⟩
    units := only.units.of_withSram
    rest := only.rest.of_withSram }

/-- LD of LOCAL bytes (R342). -/
theorem ld_local (s : State) (d a : BitVec 5) (z : Size) (i : BitVec 14) (aligned : (s.reg a + sx i).toNat % Size.bytes z = 0)
    (bytes : LocalBytes s (s.reg a + sx i).toNat (Size.bytes z)) (free : s.free [a, d]) (plain : s.plain) :
    exec (.ld d a z i) s = .next ((s.setReg d (sext64 (8 * Size.bytes z) (localVal s (s.reg a + sx i).toNat (Size.bytes z)))).jump 0x0C (s.me.pc + 4)) := by
  obtain ⟨-, strip, -⟩ := plain
  have run : exec (.ld d a z i) s = execLd d a z i s := rfl
  have load : s.loadScalar 0x0C d (Size.bytes z) (s.reg a + sx i) =
      (s.setReg d (sext64 (8 * Size.bytes z) (localVal s (s.reg a + sx i).toNat (Size.bytes z)))).retire 0x0C := by
    simp only [State.loadScalar, bytes.placeMt (Size.bytes_pos z) aligned, State.lookLocal_slice strip, State.ofBytesLE_sramRead]
  rw [run, execLd, State.withRegs_free _ _ _ free]
  simp only [State.pastAtomics_none strip]
  rw [State.withRegs_free _ _ _ free, load, State.retire, State.setReg_me]
  simp

/-- ST of LOCAL bytes (R373). -/
theorem st_local (s : State) (d a : BitVec 5) (z : Size) (i : BitVec 14) (aligned : (s.reg a + sx i).toNat % Size.bytes z = 0)
    (bytes : LocalBytes s (s.reg a + sx i).toNat (Size.bytes z)) (free : s.free [a, d]) (plain : s.plain) :
    exec (.st d a z i) s = .next ((s.sramStore (s.localKey (s.reg a + sx i).toNat) (wbytes (bytesLE (Size.bytes z) (s.reg d).toNat))).retire 0x0D) := by
  obtain ⟨-, strip, -⟩ := plain
  have run : exec (.st d a z i) s = execSt d a z i s := rfl
  have kept : s.isWithdrawn (s.localKey (s.reg a + sx i).toNat) (Req.span (wbytes (bytesLE (Size.bytes z) (s.regN d)))) = false := by
    rw [span_wbytes, length_bytesLE]; exact bytes.inUse
  have store := State.storeOne_slice kept s.running s.me.mtype s.me.pc 0x0D (s.reg a + sx i).toNat 0
  rw [run, execSt, State.withRegs_free _ _ _ free]
  simp only [bytes.placeMt (Size.bytes_pos z) aligned, State.bufferStore_none strip]
  rw [State.handOver_store, State.storeAll_one, store, State.regN]

/-- Settles O18: the bytes of a load and of a store are those of the own slice, and the rest is what completing leaves. -/
theorem localLoadStoreResult : Obligations.LocalLoadStoreResult := by
  unfold Obligations.LocalLoadStoreResult
  constructor
  · rintro s d a z i addr rfl aligned bytes free plain
    exact ⟨_, ld_local s d a z i aligned bytes free plain, State.setReg_jump s 0x0C d _ _ plain.1⟩
  · rintro s d a z i addr rfl aligned bytes free plain
    exact ⟨_, st_local s d a z i aligned bytes free plain, OnlyStored.retire plain.1 0x0D _ _ (Size.bytes_pos z)⟩

end Sys2Proof.Machine
end

section
/-! PROOFS. Capabilities narrowed, loaded and stored (R82, R83, R86, R87, R337, R340). -/

namespace Sys2Proof.Machine

/-! The fields of a narrowed capability. -/

/-- Fields that fit their places are read back (Table 4.3). -/
theorem Cap.narrow_fields (c : Cap) {base len perms : Nat} (hb : base < 2 ^ 48) (hl : len < 2 ^ 40) (hp : perms < 64) :
    (c.narrow base len perms).base = base ∧ (c.narrow base len perms).len = len ∧ (c.narrow base len perms).perms = perms ∧
    (c.narrow base len perms).peer = c.peer ∧ (c.narrow base len perms).space = c.space := by
  have peer : c.peer < 2 ^ 22 := Nat.mod_lt _ (by decide)
  have space : c.space < 2 ^ 2 := Nat.mod_lt _ (by decide)
  have bits : (c.narrow base len perms).bits.toNat =
      c.peer * 2 ^ 106 + perms * 2 ^ 100 + c.space * 2 ^ 96 + base * 2 ^ 48 + len * 256 := by
    simp only [Cap.narrow, BitVec.toNat_ofNat, Nat.mod_eq_of_lt hb, Nat.mod_eq_of_lt hl, Nat.mod_eq_of_lt hp]
    omega
  simp only [Cap.base, Cap.len, Cap.perms, Cap.peer, Cap.space, field, bits] at *
  omega

/-- The base of a capability lies in 48 bits, its length in 40, and its permissions are six. -/
theorem Cap.len_lt (c : Cap) : c.len < 2 ^ 40 := Nat.mod_lt _ (by decide)

/-! An instruction that writes one capability register. -/

/-- Writing a capability register and retiring: the register has the capability, and everything else is as before. -/
theorem State.setCap_retire (s : State) (k op : Nat) (c : Cap) (ss : s.me.ss = false) :
    ∃ t, (s.setCap k c).retire op = t ∧ t.me.cap k = c ∧ (∀ j, j ≠ k → t.me.cap j = s.me.cap j) ∧ (∀ r, t.reg r = s.reg r) ∧
      WentTo t (s.me.pc + 4) ∧ SameMemory s t ∧ SameUnits s t ∧ SameRest s t ∧ t.me.specials = s.me.specials := by
  have go : (s.setCap k c).retire op = (s.setCap k c).jump op (s.me.pc + 4) := State.updMe_retire s _ op rfl
  have me : ((s.setCap k c).retire op).me = (s.me.setCap k c).completed s.cycle (s.me.pc + 4) := go ▸ State.updMe_jump_me s _ op _ ss
  have only : OnlyMe s ((s.setCap k c).retire op) := go ▸ State.updMe_jump_onlyMe s _ op _ ss
  have caps (j : Nat) : ((s.me.setCap k c).completed s.cycle (s.me.pc + 4)).cap j = if k = j then c else s.me.cap j :=
    (Proc.cap_congr rfl j).trans (Proc.cap_setCap s.me k j c)
  refine ⟨_, rfl, ?_, fun j other => ?_, fun r => ?_, ⟨?_, ?_⟩, only.memory, only.units, only.rest, ?_⟩
  · rw [me, caps, if_pos rfl]
  · rw [me, caps, if_neg (Ne.symm other)]
  · rw [State.reg, me]; rfl
  all_goals rw [me]; rfl

/-- KDERIVE by its two answers (R86). -/
theorem kderive_eq (s : State) (d a : BitVec 3) (b : BitVec 5) (p : BitVec 6) (free : s.free [b, b + 1]) (strip : s.me.strip = none) :
    exec (.kderive d a b p) s = .next (if (s.me.cap a.toNat).tag = false ∨ (s.me.cap a.toNat).derive = false ∨ (s.me.cap a.toNat).len < (s.reg b).toNat ∨
        (s.me.cap a.toNat).len - (s.reg b).toNat < (s.reg (b + 1)).toNat then s.raise 0x2A .capFault
      else (s.setCap d.toNat ((s.me.cap a.toNat).narrow ((s.me.cap a.toNat).base + (s.reg b).toNat) ((s.reg (b + 1)).toNat)
        ((s.me.cap a.toNat).perms &&& p.toNat))).retire 0x2A) := by
  have run : exec (.kderive d a b p) s = execKderive d a b p s := rfl
  rw [run, execKderive, State.withRegsCommit_free _ _ _ free strip]
  rfl

/-- KLD of a LOCAL granule (R87). -/
theorem kld_local (s : State) (d : BitVec 3) (a : BitVec 5) (aligned : (s.reg a).toNat % 16 = 0) (bytes : LocalBytes s (s.reg a).toNat 16)
    (free : s.free [a]) (strip : s.me.strip = none) :
    exec (.kld d a) s = .next ((s.setCap d.toNat (localCap s (s.reg a).toNat)).retire 0x2A) := by
  have run : exec (.kld d a) s = execKld d a s := rfl
  rw [run, execKld, State.withRegsCommit_free _ _ _ free strip]
  simp only [bytes.placeMt (by decide) aligned, State.ofBytesLE_sramRead]
  rfl

/-! A capability stored in a granule of the own slice. -/

theorem State.handOver_capStore {s : State} {k : Nat} (kept : s.isWithdrawn k 16 = false) (h typ : Nat) (pc : BitVec 48) (addr : Nat) (c : Cap) :
    s.handOver h (.capStore typ pc (.sram k false) addr c) = s.capToSram k c := by
  simp [State.handOver, State.capStoreOne, State.placeAgain, kept]

/-- KST of a LOCAL granule (R87, R340). -/
theorem kst_local (s : State) (d : BitVec 3) (a : BitVec 5) (aligned : (s.reg a).toNat % 16 = 0) (bytes : LocalBytes s (s.reg a).toNat 16)
    (free : s.free [a]) (strip : s.me.strip = none) :
    exec (.kst d a) s = .next ((s.capToSram (s.localKey (s.reg a).toNat) (s.me.cap d.toNat)).retire 0x2A) := by
  have run : exec (.kst d a) s = execKst d a s := rfl
  have typ : ¬(s.me.mtype = 3 ∨ s.me.mtype = 4 ∨ (s.me.mtype ≠ 0 ∧ (s.me.cap d.toNat).tag ∧ (s.me.cap d.toNat).global = false)) := by
    simp [bytes.mt]
  rw [run, execKst, State.withRegs_free _ _ _ free]
  simp only [bytes.placeMt (by decide) aligned, if_neg typ, State.bufferStore_none strip]
  rw [State.handOver_capStore bytes.inUse]

/-- A granule of SRAM that takes a capability: its bytes and its tag are the capability's, and the rest of SRAM is as before (R83). -/
theorem State.capToSram_sram (s : State) (k : Nat) (c : Cap) (aligned : k % 16 = 0) :
    ∃ m tg, s.capToSram k c = s.withSram m tg ∧
      (∀ q, (s.withSram m tg).sramByte q = if k ≤ q ∧ q < k + 16 then byteAt c.bits.toNat (q - k) else s.sramByte q) ∧
      (∀ g, Tab.lookD tg g false = if k / 16 = g then c.tag else Tab.lookD s.sramTags g false) := by
  obtain ⟨bytes, tags⟩ := s.sramStore_num k 16 c.bits.toNat (by decide)
  obtain ⟨m, tg, stored⟩ := State.sramStore_eq k (wbytes (bytesLE 16 c.bits.toNat)) s
  rw [stored] at bytes tags
  refine ⟨m, Tab.store tg (k / 16) c.tag false, by rw [State.capToSram, stored]; rfl, bytes, fun g => ?_⟩
  rw [Tab.lookD_store]
  split
  · rfl
  · next other =>
    refine (tags g).trans (if_neg ?_)
    omega

/-- The capability that a granule's bytes and tag stand for. -/
theorem localCap_of_bytes {t : State} {a : Nat} {c : Cap} (bytes : ∀ i, i < 16 → t.sramByte (t.localKey a + i) = byteAt c.bits.toNat i)
    (tag : Tab.lookD t.sramTags (t.localKey a / 16) false = c.tag) : localCap t a = c := by
  have read : t.sramRead (t.localKey a) 16 = bytesLE 16 c.bits.toNat :=
    List.map_congr_left fun i hi => bytes i (List.mem_range.mp hi)
  have val : localVal t a 16 = c.bits.toNat := by
    rw [← State.ofBytesLE_sramRead, read, ofBytesLE_bytesLE]
    exact Nat.mod_eq_of_lt c.bits.isLt
  have parts : localCap t a = { bits := .ofNat 128 (localVal t a 16), tag := Tab.lookD t.sramTags (t.localKey a / 16) false } := rfl
  rw [parts, val, tag, BitVec.ofNat_toNat, BitVec.setWidth_eq]

/-- Settles O23: the fields of a narrowed capability, and the sixteen bytes and the tag of a granule. -/
theorem capabilityResult : Obligations.CapabilityResult := by
  unfold Obligations.CapabilityResult
  refine ⟨?derive, ?load, ?store, ?fault⟩
  case derive =>
    intro s d a b p free plain tag derive within top
    obtain ⟨t, run, cap, others⟩ := s.setCap_retire d.toNat 0x2A ((s.me.cap a.toNat).narrow ((s.me.cap a.toNat).base + (s.reg b).toNat) ((s.reg (b + 1)).toNat)
        ((s.me.cap a.toNat).perms &&& p.toNat)) plain.1
    have may : ¬((s.me.cap a.toNat).tag = false ∨ (s.me.cap a.toNat).derive = false ∨ (s.me.cap a.toNat).len < (s.reg b).toNat ∨
        (s.me.cap a.toNat).len - (s.reg b).toNat < (s.reg (b + 1)).toNat) := by
      rintro (h | h | h | h)
      · exact absurd (tag.symm.trans h) (by decide)
      · exact absurd (derive.symm.trans h) (by decide)
      all_goals omega
    obtain ⟨base, len, perms, peer, space⟩ := (s.me.cap a.toNat).narrow_fields (perms := (s.me.cap a.toNat).perms &&& p.toNat) top
      (len := (s.reg (b + 1)).toNat) (Nat.lt_of_le_of_lt (Nat.le_of_add_left_le within) (Cap.len_lt _)) (Nat.lt_of_le_of_lt Nat.and_le_right p.isLt)
    refine ⟨t, by rw [kderive_eq s d a b p free plain.2.1, if_neg may, run], ?_⟩
    rw [cap]
    exact ⟨rfl, base, len, perms, peer, space, others⟩
  case load =>
    intro s d a aligned bytes free plain
    obtain ⟨t, run, rest⟩ := s.setCap_retire d.toNat 0x2A (localCap s (s.reg a).toNat) plain.1
    exact ⟨t, by rw [kld_local s d a aligned bytes free plain.2.1, run], rest⟩
  case store =>
    intro s d a aligned bytes free plain
    obtain ⟨m, tg, stored, sram, tags⟩ := s.capToSram_sram (s.localKey (s.reg a).toNat) (s.me.cap d.toNat) (by unfold State.localKey; omega)
    have only := (s.withSram m tg).retire_only 0x2A plain.1
    have me : ((s.withSram m tg).retire 0x2A).me = s.me.completed s.cycle (s.me.pc + 4) := State.retire_me (s.withSram m tg) 0x2A plain.1
    have key : ((s.withSram m tg).retire 0x2A).localKey (s.reg a).toNat = s.localKey (s.reg a).toNat := by rw [State.localKey, me]; rfl
    refine ⟨(s.withSram m tg).retire 0x2A, by rw [kst_local s d a aligned bytes free plain.2.1, stored],
      localCap_of_bytes (fun i hi => ?_) ?_, fun k far => ?_, fun g far => ?_, only.memory.hbm, only.memory.hbmTag,
      only.regs.of_withSram, only.went, only.units.of_withSram, only.rest.of_withSram, only.special⟩
    · rw [key]
      refine (only.memory.sram _).trans ((sram _).trans ?_)
      rw [if_pos ⟨Nat.le_add_right _ _, by omega⟩, Nat.add_sub_cancel_left]
    · rw [key]
      exact (only.memory.sramTag _).trans ((tags _).trans (if_pos rfl))
    · exact (only.memory.sram k).trans ((sram k).trans (if_neg far))
    · exact (only.memory.sramTag g).trans ((tags g).trans (if_neg (Ne.symm far)))
  case fault =>
    intro s d a b p free strip refused
    have may : (s.me.cap a.toNat).tag = false ∨ (s.me.cap a.toNat).derive = false ∨ (s.me.cap a.toNat).len < (s.reg b).toNat ∨
        (s.me.cap a.toNat).len - (s.reg b).toNat < (s.reg (b + 1)).toNat := by
      rcases refused with h | h | h
      · exact .inl h
      · exact .inr (.inl h)
      · exact .inr (.inr (by omega))
    exact ⟨_, by rw [kderive_eq s d a b p free strip, if_pos may], State.raise_parks s 0x2A .capFault {} strip (by simp) (by simp)⟩

end Sys2Proof.Machine
end

section
/-! PROOFS. An access that the checks before translation refuse: its cause, and that its process parks with memory as it was (R77 to R80,
R231, R235, R237). -/

namespace Sys2Proof.Machine

/-- An access that the checks refuse has its cause from them, whatever the type of memory (R78, R237). -/
theorem State.placeMt_refused {s : State} {a : Word} {n : Nat} {c : Cause} (refused : accessFault s a.toNat n = some c) (p : Perm) :
    s.placeMt (s.me.mtCtx s.running) a n n p = (s, .error c) := by
  have typ : (s.me.mtCtx s.running).typ = s.me.mtype := rfl
  unfold accessFault at refused
  unfold State.placeMt
  rw [typ]
  split at refused
  · next memtype => rw [if_pos memtype]; cases refused; rfl
  next memtype =>
  rw [if_neg memtype, State.placeOf, typ, if_neg (by omega)]
  split at refused
  · next misaligned => rw [if_pos misaligned]; cases refused; rfl
  next aligned =>
  rw [if_neg aligned]
  split at refused
  · next out =>
    obtain ⟨loc, out⟩ := out
    cases refused
    have place : s.placeLocal (s.me.mtCtx s.running) a.toNat n = .error .protection := by
      unfold State.placeLocal
      rw [if_pos]
      have low : (s.me.mtCtx s.running).wbase = s.me.wbase := rfl
      have size : (s.me.mtCtx s.running).wsize = s.me.wsize := rfl
      have buffer : (s.part (s.me.mtCtx s.running).part).inBuffer a.toNat n = decide (0x100000 < a.toNat + n + s.myPart.cbsize) := rfl
      rw [low, size, buffer, decide_eq_true_eq]
      omega
    simp only [loc, place]
  · cases refused

/-- Its cause is one of three. -/
theorem accessFault_cause {s : State} {a n : Nat} {c : Cause} (refused : accessFault s a n = some c) :
    c = .memtype ∨ c = .misalign ∨ c = .protection := by
  unfold accessFault at refused
  split at refused
  · exact .inl (Option.some.inj refused).symm
  split at refused
  · exact .inr (.inl (Option.some.inj refused).symm)
  split at refused
  · exact .inr (.inr (Option.some.inj refused).symm)
  · cases refused

/-- None of them is a trap. -/
theorem accessFault_parks {s : State} {a n : Nat} {c : Cause} (refused : accessFault s a n = some c) : c ≠ .vown ∧ c ≠ .softwareTrap := by
  rcases accessFault_cause refused with rfl | rfl | rfl <;> simp

/-- A non-returning atomic that is refused (R120). -/
theorem State.atomicPlain_refused {s : State} {fn : Nat} {a b : BitVec 5} {z : ASize} {c : Cause} (free : s.free [a, b])
    (refused : accessFault s (s.reg a).toNat (ASize.bytes z) = some c) :
    s.atomicPlain fn a b z = s.raise 0x2B c (s.accessInfo c (s.reg a).toNat) := by
  rw [State.atomicPlain, State.withRegs_free _ _ _ free]
  simp only [State.placeMt_refused refused]

/-- A scalar access that is refused raises its cause (R78). -/
theorem access_raises {s : State} {i : Instr} {rs : List (BitVec 5)} {addr : Word} {n : Nat} {c : Cause} (access : accessOf s i = some (rs, addr, n))
    (refused : accessFault s addr.toNat n = some c) (free : s.free rs) (strip : s.me.strip = none) :
    ∃ op x, exec i s = .next (s.raise op c x) := by
  have place := State.placeMt_refused refused
  unfold accessOf at access
  split at access <;> cases access
  case h_1 d a z i =>
    refine ⟨0x0C, s.accessInfo c (s.reg a + sx i).toNat, ?_⟩
    show execLd d a z i s = _
    rw [execLd, State.withRegs_free _ _ _ free]
    simp only [State.pastAtomics_none strip]
    rw [State.withRegs_free _ _ _ free]
    simp only [State.loadScalar, sx, place]
  case h_2 d a z i =>
    refine ⟨0x0D, s.accessInfo c (s.reg a + sx i).toNat, ?_⟩
    show execSt d a z i s = _
    rw [execSt, State.withRegs_free _ _ _ free]
    simp only [sx, place]
  case h_8 d a =>
    refine ⟨0x2A, s.accessInfo c (s.reg a).toNat, ?_⟩
    show execKld d a s = _
    rw [execKld, State.withRegsCommit_free _ _ _ free strip]
    simp only [place]
  case h_9 d a =>
    refine ⟨0x2A, s.accessInfo c (s.reg a).toNat, ?_⟩
    show execKst d a s = _
    rw [execKst, State.withRegs_free _ _ _ free]
    simp only [place]
  all_goals
    exact ⟨0x2B, _, congrArg Host.Outcome.next (State.atomicPlain_refused free refused)⟩

/-! The record of a fault. -/

/-- A fault of an instruction with no open strip parks its process with the record of R235 (R230, R231). -/
theorem State.raise_park {s : State} {c : Cause} (strip : s.me.strip = none) (owned : c ≠ .vown) (trap : c ≠ .softwareTrap) (op : Nat) (x : FInfo) :
    s.raise op c x = s.park s.running (recordOf s.running op c x s.me.pc s.me.pc) s.me.pc (if x.vec then .strip else .precise) s.me.pc := by
  have strip' : (s.proc s.running).strip = none := strip
  unfold State.raise State.raiseAt
  rw [State.restart_none s s.running strip']
  simp only [strip', owned, trap, false_or, false_and, if_false, Option.map_none, Option.getD_none, Option.isSome_none, Bool.false_eq_true]
  rfl

/-- The class of a parked process's fault (R230). -/
theorem State.park_fclass (s : State) (slots : List Word) (epc : BitVec 48) (cls : FClass) (fpc : BitVec 48) :
    (s.park s.running slots epc cls fpc).me.fclass = cls := by
  have q := Quiet.release s s.running
  generalize released : s.release s.running = x at q
  obtain ⟨u, ids⟩ := x
  have running : u.running = s.running := q.running
  have kind : (u.parkRec s.running slots ids).kind = .instr s.running := rfl
  rw [State.park_eq s u ids s.running slots epc cls fpc released]
  unfold State.me
  rw [State.failRun_running, State.queueRecord_running _ _ _ kind, State.failRun_proc, State.queueRecord_proc _ _ _ _ kind]
  have at_ : (u.parkProc s.running slots epc cls fpc).running = s.running := running
  rw [at_, State.parkProc_proc]

/-- The count of a record's slot 2 (Table 10.5). -/
theorem recordOf_count (handle op : Nat) (c : Cause) (x : FInfo) (fpc spc : BitVec 48) :
    ((recordOf handle op c x fpc spc).getD 2 0).toNat / 2 ^ 32 = x.count % 2 ^ 32 := by
  have slot : (recordOf handle op c x fpc spc).getD 2 0 = BitVec.ofNat 64 (x.count % 2 ^ 32 * 2 ^ 32 + x.aux % 2 ^ 32) := rfl
  rw [slot, BitVec.toNat_ofNat]
  omega

/-! The accesses of a vector instruction of a plain format. -/

/-- The element `i` of a plain format at its address. -/
def plainAcc (vt : Word) (f : Nat → Word) (i : Nat) : VAcc := { i := i, addr := f i, n := fmtBytes vt, al := fmtBytes vt }

/-- The accesses at their places, of those that have one. -/
def State.placeNext (store : Bool) (st : State × List (VAcc × Place) × Option (Cause × Nat × List Nat)) (a : VAcc) :
    State × List (VAcc × Place) × Option (Cause × Nat × List Nat) :=
  match st.1.placeMt (st.1.me.mtCtx st.1.running) a.addr a.n a.al (if store then .store else .load) with
  | (s, .ok p) => (s, st.2.1 ++ [(a, p)], st.2.2)
  | (s, .error c) => (s, st.2.1, match st.2.2 with
    | none => some (c, a.i, [a.addr.toNat])
    | some (c', i, l) => if c' = c then some (c', i, l ++ [a.addr.toNat]) else st.2.2)

/-- What follows: the access itself, or the fault of the first element that failed. -/
def State.afterPlaces (s : State) (f : VForm) (k : State → List (VAcc × Place) → State) :
    State × List (VAcc × Place) × Option (Cause × Nat × List Nat) → State
  | (u, ps, none) => k u ps
  | (u, _, some (c, i, l)) => u.raise 0x18 c (u.vInfo s.vc f c i l)

/-- Where MEMTYPE does not refuse it, a vector access looks at each of its places (R399, R412). -/
theorem State.vPlaces_cons {s : State} {f : VForm} {store : Bool} {first : VAcc} {accs : List VAcc} {k : State → List (VAcc × Place) → State}
    (typed : vMemtype s.vc.vt f s.me.mtype store = false) :
    s.vPlaces f store (first :: accs) k = s.afterPlaces f k ((first :: accs).foldl (State.placeNext store) (s, [], none)) := by
  unfold State.vPlaces
  simp only [typed, Bool.false_eq_true, if_false]
  rfl

theorem State.placeNext_quiet (store : Bool) (st : State × List (VAcc × Place) × Option (Cause × Nat × List Nat)) (a : VAcc) :
    Quiet st.1 (State.placeNext store st a).1 := by
  have q := Quiet.placeMt st.1 (st.1.me.mtCtx st.1.running) a.addr a.n a.al (if store then .store else .load)
  unfold State.placeNext
  split <;> next placed => rw [placed] at q; exact q

/-- Once an element has failed, the fault is its own. -/
theorem State.placeNext_failed (store : Bool) (c : Cause) (i : Nat) : ∀ (accs : List VAcc) (st : State × List (VAcc × Place) × Option (Cause × Nat × List Nat)),
    (∃ l, st.2.2 = some (c, i, l)) → ∃ l, (accs.foldl (State.placeNext store) st).2.2 = some (c, i, l)
  | [], _, h => h
  | a :: accs, st, ⟨l, h⟩ => by
    refine State.placeNext_failed store c i accs _ ?_
    unfold State.placeNext
    split
    · exact ⟨l, h⟩
    · simp only [h]
      split
      · exact ⟨_, rfl⟩
      · exact ⟨l, rfl⟩

/-- Elements that have their places leave the state as it was. -/
theorem State.placeNext_placed (store : Bool) (s : State) (place : VAcc → Place) : ∀ (accs : List VAcc) (ps : List (VAcc × Place))
    (bad : Option (Cause × Nat × List Nat)),
    (∀ a ∈ accs, s.placeMt (s.me.mtCtx s.running) a.addr a.n a.al (if store then .store else .load) = (s, .ok (place a))) →
    accs.foldl (State.placeNext store) (s, ps, bad) = (s, ps ++ accs.map fun a => (a, place a), bad)
  | [], ps, bad, _ => by simp
  | a :: accs, ps, bad, placed => by
    have first : State.placeNext store (s, ps, bad) a = (s, ps ++ [(a, place a)], bad) := by
      simp only [State.placeNext, placed a (List.mem_cons_self ..)]
    rw [List.foldl_cons, first, State.placeNext_placed store s place accs _ _ fun b hb => placed b (List.mem_cons_of_mem _ hb)]
    simp

/-- What a vector access raises whose first failing element is `a`: its cause, with the elements from it on (R235, R399). -/
structure VFault (s t : State) (c : Cause) (i : Nat) : Prop where
  raised : ∃ u x, Quiet s u ∧ t = u.raise 0x18 c x ∧ x.vec = true ∧ x.count = s.vc.vl - i

/-- The first element that fails decides (R399, R412). -/
theorem State.vPlaces_refused {s : State} {f : VForm} {store : Bool} {pre post : List VAcc} {a : VAcc} {c : Cause}
    {k : State → List (VAcc × Place) → State} (typed : vMemtype s.vc.vt f s.me.mtype store = decide (5 ≤ s.me.mtype)) (place : VAcc → Place)
    (placed : ∀ b ∈ pre, s.me.mtype < 5 ∧ s.placeMt (s.me.mtCtx s.running) b.addr b.n b.al (if store then .store else .load) = (s, .ok (place b)))
    (width : a.al = a.n) (refused : accessFault s a.addr.toNat a.n = some c) : VFault s (s.vPlaces f store (pre ++ a :: post) k) c a.i := by
  by_cases memtype : 5 ≤ s.me.mtype
  · have first : pre = [] := by
      cases pre with
      | nil => rfl
      | cons b pre => exact absurd (placed b (List.mem_cons_self ..)).1 (by omega)
    have cause : c = .memtype := by
      unfold accessFault at refused
      rw [if_pos memtype] at refused
      exact (Option.some.inj refused).symm
    subst first cause
    have fault : vMemtype s.vc.vt f s.me.mtype store = true := typed.trans (decide_eq_true memtype)
    refine ⟨s, s.vInfo s.vc f .memtype a.i [a.addr.toNat], .refl s, ?_, rfl, rfl⟩
    simp only [State.vPlaces, List.nil_append, fault, if_true]
  · have fault : vMemtype s.vc.vt f s.me.mtype store = false := typed.trans (decide_eq_false memtype)
    have here : s.placeMt (s.me.mtCtx s.running) a.addr a.n a.al (if store then .store else .load) = (s, .error c) :=
      width ▸ State.placeMt_refused refused _
    have step : (pre ++ a :: post).foldl (State.placeNext store) (s, [], none) =
        post.foldl (State.placeNext store) (s, pre.map fun b => (b, place b), some (c, a.i, [a.addr.toNat])) := by
      rw [List.foldl_append, State.placeNext_placed store s place pre [] none fun b hb => (placed b hb).2, List.foldl_cons]
      simp only [State.placeNext, here, List.nil_append]
    obtain ⟨l, bad⟩ := State.placeNext_failed store c a.i post (s, pre.map fun b => (b, place b), some (c, a.i, [a.addr.toNat])) ⟨_, rfl⟩
    have q : Quiet s (post.foldl (State.placeNext store) (s, pre.map fun b => (b, place b), some (c, a.i, [a.addr.toNat]))).1 :=
      Quiet.foldlPair post (State.placeNext store) (State.placeNext_quiet store) (s, _)
    have run : s.vPlaces f store (pre ++ a :: post) k = s.afterPlaces f k ((pre ++ a :: post).foldl (State.placeNext store) (s, [], none)) := by
      cases pre with
      | nil => exact State.vPlaces_cons fault
      | cons b pre => exact State.vPlaces_cons fault
    rw [step] at run
    generalize post.foldl (State.placeNext store) (s, pre.map fun b => (b, place b), some (c, a.i, [a.addr.toNat])) = r at bad q run
    obtain ⟨u, ps, b⟩ := r
    cases bad
    exact ⟨u, _, q, run, rfl, rfl⟩

/-- What a vector store does with the places of its elements (R410). -/
def State.vstoreFrom (s : State) (v : VCtx) (d : BitVec 5) (f : VForm) (ps : List (VAcc × Place)) : State :=
  let outs := ps.map fun e => (e.1, e.2, s.vbytes v d f e.1)
  (s.raiseFlags (outs.foldl (fun a o => a ||| o.2.2.2) 0)).bufferStore 0x18 true (.store s.me.mtype s.me.pc 0x18
    (outs.map fun o => { place := o.2.1, addr := o.1.addr.toNat, bs := o.2.2.1, seg := if f = .segment then o.1.n else 0 }))

/-- A vector store and a vector load once their lanes are their own (R399, R412). -/
def State.vstoreBody (d a : BitVec 5) (f : VForm) (s : State) : State :=
  if s.vc.vl = 0 then s.retire 0x18 else s.vPlaces f true (s.vaccs s.vc f (s.reg a)) fun u ps => u.vstoreFrom s.vc d f ps
def State.vloadBody (d a : BitVec 5) (f : VForm) (s : State) : State :=
  let accs := s.vaccs s.vc f (s.reg a)
  if accs.isEmpty then s.retire 0x18
  else if s.me.inCommit || s.vAtomics accs then
    s.afterCommit fun s => s.withRegs [a] (s.vPlaces f false (s.vaccs s.vc f (s.reg a)) fun s ps => s.vloadFrom d f ps)
  else s.vPlaces f false accs fun s ps => s.vloadFrom d f ps
def State.vmemBody (store : Bool) (d a : BitVec 5) (f : VForm) (s : State) : State :=
  if store then s.vstoreBody d a f else s.vloadBody d a f

/-- A plain format is refused for the type of memory alone (R399, R412). -/
theorem vMemtype_plain {vt : Word} (plain : PlainFormat vt) {f : VForm} (form : f ≠ .segment) (mtype : Nat) (store : Bool) :
    vMemtype vt f mtype store = decide (5 ≤ mtype) := by
  obtain ⟨suits, six, seven⟩ := plain
  have packed : fmtPacked vt = false := by simp [fmtPacked, six, seven]
  cases f with
  | segment => exact absurd rfl form
  | unit | strided | indexed => simp [vMemtype, suits, seven, packed]

/-- A vector access of a plain format goes to one address for each active element (R397, R410). -/
structure VmemRun (s : State) (i : Instr) (store : Bool) (d a : BitVec 5) (us : List (BitVec 5)) (f : Nat → Word) (form : VForm) : Prop where
  plain : form ≠ .segment
  run : exec i s = .next (s.withRegs [a] (s.vectorOp 0x18 us (State.vmemBody store d a form)))
  accs : s.owned.vaccs s.vc form (s.reg a) = (s.actives s.vc).map (plainAcc s.me.vt f)

theorem vmem_run {s : State} {i : Instr} {store : Bool} {d a : BitVec 5} {us : List (BitVec 5)} {f : Nat → Word}
    (access : vmemOf s s.vc i = some (store, d, a, us, f)) (plain : PlainFormat s.me.vt) : ∃ form, VmemRun s i store d a us f form := by
  obtain ⟨-, six, seven⟩ := plain
  have unit : s.owned.vaccs s.vc .unit (s.reg a) =
      (s.actives s.vc).map (plainAcc s.me.vt fun i => s.reg a + .ofNat 64 (i * fmtBytes s.me.vt)) := by
    have format : s.vc.vt = s.me.vt := rfl
    simp only [State.vaccs, State.owned_actives, format]
    exact List.map_congr_left fun i _ => rfl
  have strided : s.owned.vaccs s.vc .strided (s.reg a) = (s.actives s.vc).map (plainAcc s.me.vt fun i => s.reg a + .ofNat 64 i * s.me.vs) := by
    simp only [State.vaccs, State.owned_actives, State.owned_me]
    rfl
  have indexed (b : BitVec 5) : s.owned.vaccs s.vc (.indexed b) (s.reg a) =
      (s.actives s.vc).map (plainAcc s.me.vt fun i => s.reg a + .ofInt 64 (signedOf s.vc.ew (s.elem s.vc b i))) := by
    simp only [State.vaccs, State.owned_actives, State.owned_elem]
    rfl
  unfold vmemOf at access
  split at access <;> cases access
  · exact ⟨.unit, by simp, rfl, unit⟩
  · exact ⟨.strided, by simp, rfl, strided⟩
  · exact ⟨.indexed _, by simp, rfl, indexed _⟩
  · exact ⟨.unit, by simp, rfl, unit⟩
  · exact ⟨.strided, by simp, rfl, strided⟩
  · exact ⟨.indexed _, by simp, rfl, indexed _⟩

/-- Outside any strip, with an active element, a vector access looks at the places of its elements first. -/
theorem VmemRun.body {s : State} {i : Instr} {store : Bool} {d a : BitVec 5} {us : List (BitVec 5)} {f : Nat → Word} {form : VForm}
    (r : VmemRun s i store d a us f form) (strip : s.me.strip = none) {e : Nat} (active : s.active s.vc e = true) :
    s.owned.vmemBody store d a form = s.owned.vPlaces form store ((s.actives s.vc).map (plainAcc s.me.vt f)) fun u ps =>
      if store then u.vstoreFrom s.vc d form ps else u.vloadFrom d form ps := by
  have stripless : s.owned.me.strip = none := by rw [State.owned_me]; exact strip
  have within : e < s.vc.vl := by
    unfold State.active at active
    simp only [Bool.and_eq_true, decide_eq_true_eq] at active
    exact active.1
  have member : e ∈ s.actives s.vc := List.mem_filter.mpr ⟨List.mem_range.mpr within, active⟩
  cases store with
  | true =>
    simp only [State.vmemBody, if_true, State.vstoreBody, State.owned_vc, State.owned_reg, r.accs]
    rw [if_neg (by omega)]
  | false =>
    have some : ((s.actives s.vc).map (plainAcc s.me.vt f)).isEmpty = false := by
      cases h : s.actives s.vc with
      | nil => rw [h] at member; cases member
      | cons x l => rfl
    have commit : s.owned.me.inCommit = false := by simp [Proc.inCommit, stripless]
    simp only [State.vmemBody, Bool.false_eq_true, if_false, State.vloadBody, State.owned_vc, State.owned_reg, r.accs, some, commit, State.vAtomics,
      stripless, Option.isSome_none, Bool.false_and, Bool.or_false]

/-! A vector instruction that faults has taken no unit. -/

theorem State.vectorOp_faulted {s : State} {op : Nat} {rs : List (BitVec 5)} {k : State → State} (ready : VecReady s rs)
    (parked : (k s.owned).me.pst = .parkedFault) (cls : (k s.owned).me.fclass ≠ .step) :
    s.vectorOp op rs k = (k s.owned).updTile s.me.tile fun x => { x with owners := (s.tile s.me.tile).owners } := by
  unfold State.vectorOp State.maskOp
  rw [State.afterGrant_none _ _ ready.grant, State.afterFills, ready.filled, if_neg (by simp),
    if_neg (Nat.not_lt.2 (masksUntil_le _ _ ready.masks _))]
  simp only [State.touch, ready.own]
  exact if_pos ⟨parked, cls⟩

/-- Of the other tiles, owning the slivers changes nothing. -/
theorem State.owned_tile_other {s : State} {n : Nat} (other : n ≠ s.me.tile) : s.owned.tile n = s.tile n := by
  unfold State.owned State.takeUnits
  dsimp only
  split
  · rfl
  · exact (State.updTile_tile ..).trans (if_neg (Ne.symm other))

/-- The owners of the running process's tile as they were in `s`. -/
def State.disowned (s t : State) : State := t.updTile s.me.tile fun x => { x with owners := (s.tile s.me.tile).owners }

theorem State.disowned_tile (s t : State) (n : Nat) :
    (s.disowned t).tile n = { t.tile n with owners := if n = s.me.tile then (s.tile n).owners else (t.tile n).owners } := by
  unfold State.disowned
  rw [State.updTile_tile]
  split
  · next here => subst here; rw [if_pos rfl]
  · next other => rw [if_neg (Ne.symm other)]

/-- The process has parked, and of the units nothing has changed (R241). -/
theorem Parks.of_owned {s t : State} {c : Cause} {pc : BitVec 48} (p : Parks s.owned t c pc) : Parks s (s.disowned t) c pc := by
  have before (n : Nat) : ∃ o, s.owned.tile n = { s.tile n with owners := o } := (s.owned_tile n).imp fun _ h => h.1
  have frecs : ((s.disowned t).tile s.me.tile).frecs = (t.tile s.me.tile).frecs := by rw [State.disowned_tile]
  have units : SameUnits s (s.disowned t) := by
    refine ⟨fun n => ?_, fun n => ?_, fun n => ?_, fun n => ?_, fun n => ?_, fun n => ?_, fun n => ?_⟩ <;> rw [State.disowned_tile]
    case refine_7 =>
      split
      · rfl
      · next other => rw [p.units.owners, State.owned_tile_other other]
    all_goals obtain ⟨o, own⟩ := before n
    · exact (p.units.vbank n).trans (by rw [own])
    · exact (p.units.mbank n).trans (by rw [own])
    · exact (p.units.treg n).trans (by rw [own])
    · exact (p.units.tsh n).trans (by rw [own])
    · exact (p.units.cbt n).trans (by rw [own])
    · exact (p.units.an n).trans (by rw [own])
  have memory : SameMemory t (s.disowned t) := ⟨fun _ => rfl, fun _ _ => rfl, fun _ => rfl, fun _ => rfl⟩
  have record := p.record
  have pcs := p.pc
  have caps := p.caps
  rw [State.owned_me] at record pcs caps
  obtain ⟨r, queued, rest⟩ := record
  exact {
    parked := p.parked
    epc := p.epc
    cause := p.cause
    handle := p.handle.trans (by rw [State.owned_running])
    record := ⟨r, frecs ▸ queued, rest⟩
    pc := pcs
    regs := fun r => (p.regs r).trans (State.owned_reg s r)
    caps := caps
    memory := (s.owned_memory.trans p.memory).trans memory
    units := units
    running := p.running.trans s.owned_running }

/-- A vector access that faults after other accesses: its process parks with the record of the first failing element (R154, R231, R235). -/
theorem VFault.parks {s t : State} {c : Cause} {i : Nat} (fault : VFault s t c i) (strip : s.me.strip = none) (owned : c ≠ .vown)
    (trap : c ≠ .softwareTrap) (small : s.vc.vl < 2 ^ 32) :
    Parks s t c s.me.pc ∧ t.me.fclass = .strip ∧
      ∃ r ∈ (t.tile s.me.tile).frecs, r.part = s.me.part ∧ r.slots.headD 0 = t.me.frec ∧ (r.slots.getD 2 0).toNat / 2 ^ 32 = s.vc.vl - i := by
  obtain ⟨u, x, q, rfl, vec, count⟩ := fault.raised
  have core {α : Type} (g : Proc → α) : g u.me.core = g s.me.core := congrArg g q.me
  have stripless : u.me.strip = none := (core Proc.strip).trans strip
  have tile : u.me.tile = s.me.tile := core Proc.tile
  have part : u.me.part = s.me.part := core Proc.part
  refine ⟨.after q (u.raise_parks 0x18 c x stripless owned fun h => trap h.1), ?_, ?_⟩
  · rw [State.raise_park stripless owned trap, State.park_fclass, vec]
    rfl
  · rw [State.raise_park stripless owned trap]
    obtain ⟨-, -, -, frec, -, -, -, -, -, r, queued, rpart, slots, -⟩ := State.park_me u (recordOf u.running 0x18 c x u.me.pc u.me.pc) u.me.pc
      (if x.vec then .strip else .precise) u.me.pc
    refine ⟨r, tile ▸ queued, rpart.trans part, by rw [slots, frec], ?_⟩
    rw [slots, recordOf_count, count]
    exact Nat.mod_eq_of_lt (by omega)

/-- A process has at most 64 lanes, and VL is small. -/
theorem State.vl_lt (s : State) : s.vc.vl < 2 ^ 32 := by
  have lanes : s.vc.lanes.length ≤ 64 := by
    have within : s.vc.lanes ⊆ List.range 64 := fun l hl => List.mem_range.mpr (lanesOf_lt _ l hl)
    simpa using (s.vc_ok.1.subperm within).length_le
  have max : vlmaxOf s.vc.lanes.length s.vc.ew ≤ 64 * 256 :=
    (Nat.div_le_self _ _).trans (Nat.mul_le_mul_right 256 lanes)
  have := s.vl_le
  omega

/-- The positions before an active one. -/
theorem State.actives_split {s : State} {v : VCtx} {e : Nat} (active : s.active v e = true) :
    ∃ pre post, s.actives v = pre ++ e :: post ∧ ∀ j ∈ pre, j ∈ s.actives v ∧ j < e := by
  have within : e < v.vl := by
    unfold State.active at active
    simp only [Bool.and_eq_true, decide_eq_true_eq] at active
    exact active.1
  have sorted : (s.actives v).Pairwise (· < ·) := List.Pairwise.filter _ List.pairwise_lt_range
  have member : e ∈ s.actives v := List.mem_filter.mpr ⟨List.mem_range.mpr within, active⟩
  obtain ⟨pre, post, split⟩ := List.append_of_mem member
  rw [split] at sorted
  refine ⟨pre, post, split, fun j hj => ⟨split ▸ List.mem_append_left _ hj, ?_⟩⟩
  exact (List.pairwise_append.mp sorted).2.2 j hj e (List.mem_cons_self ..)

/-- Of the checks on an access, owning the slivers changes none. -/
theorem State.owned_withdrawn (s : State) : s.owned.withdrawn = s.withdrawn := by
  unfold State.owned State.takeUnits
  dsimp only
  split <;> rfl
theorem State.owned_myPart (s : State) : s.owned.myPart = s.myPart := by
  unfold State.myPart
  rw [State.owned_me, s.owned_rest.parts]
theorem accessFault_owned (s : State) (a n : Nat) : accessFault s.owned a n = accessFault s a n := by
  unfold accessFault
  rw [State.owned_me, State.owned_myPart]
theorem LocalBytes.owned {s : State} {a n : Nat} (l : LocalBytes s a n) : LocalBytes s.owned a n := by
  obtain ⟨mt, low, high, slice, kept⟩ := l
  refine ⟨?_, ?_, ?_, ?_, ?_⟩
  · rw [State.owned_me]; exact mt
  · rw [State.owned_me]; exact low
  · rw [State.owned_me]; exact high
  · rw [State.owned_myPart]; exact slice
  · rw [State.isWithdrawn, State.owned_withdrawn, State.owned_me]; exact kept

theorem fmtBytes_pos {vt : Word} : 0 < fmtBytes vt := by
  have width := ewOf_isEw vt
  unfold fmtBytes
  split
  · rcases width with h | h | h | h <;> rw [h] <;> decide
  all_goals decide

/-- Settles O19: the check that refuses an access gives its cause; of a vector access the first failing element does. -/
theorem accessFaults : Obligations.AccessFaults := by
  unfold Obligations.AccessFaults
  refine ⟨?scalar, ?vector⟩
  case scalar =>
    intro s i rs addr n c access refused free strip
    obtain ⟨op, x, run⟩ := access_raises access refused free strip
    obtain ⟨owned, trap⟩ := accessFault_parks refused
    exact ⟨_, run, s.raise_parks op c x strip owned fun h => trap h.1⟩
  case vector =>
    intro s i store d a us f e c access plain free strip ready active refused before
    obtain ⟨form, r⟩ := vmem_run access plain
    obtain ⟨owned, trap⟩ := accessFault_parks refused
    obtain ⟨pre, post, split, earlier⟩ := State.actives_split active
    have typed : vMemtype s.owned.vc.vt form s.owned.me.mtype store = decide (5 ≤ s.owned.me.mtype) := by
      rw [State.owned_vc, State.owned_me]
      exact vMemtype_plain plain r.plain _ _
    have placed : ∀ b ∈ pre.map (plainAcc s.me.vt f), s.owned.me.mtype < 5 ∧
        s.owned.placeMt (s.owned.me.mtCtx s.owned.running) b.addr b.n b.al (if store then .store else .load) =
          (s.owned, .ok (.sram (s.owned.localKey b.addr.toNat) false)) := by
      intro b hb
      obtain ⟨j, hj, rfl⟩ := List.mem_map.mp hb
      obtain ⟨bytes, aligned⟩ := before j (earlier j hj).1 (earlier j hj).2
      exact ⟨bytes.owned.mt ▸ (by decide), bytes.owned.placeMt fmtBytes_pos aligned⟩
    have fault : VFault s.owned (s.owned.vmemBody store d a form) c e := by
      rw [r.body strip active, split, List.map_append, List.map_cons]
      exact State.vPlaces_refused typed (fun b => .sram (s.owned.localKey b.addr.toNat) false) placed rfl
        ((accessFault_owned s _ _).trans refused)
    obtain ⟨parks, cls, rec_, queued, rpart, head, count⟩ := fault.parks (by rw [State.owned_me]; exact strip) owned trap s.owned.vl_lt
    rw [State.owned_me] at parks queued rpart
    rw [State.owned_vc] at count
    refine ⟨s.disowned (s.owned.vmemBody store d a form), ?_, parks.of_owned, rec_, ?_, rpart, head, count⟩
    · rw [r.run, State.withRegs_free _ _ _ free, State.vectorOp_faulted ready parks.parked (by rw [cls]; simp)]
      rfl
    · rw [State.disowned_tile]; exact queued

end Sys2Proof.Machine
end

section
/-! PROOFS. Vector loads and stores of plain formats in LOCAL memory, outside any strip (R97, R135, R397, R398, R410, R411). -/

namespace Sys2Proof.Machine

/-- A vector access whose elements all have their places goes on with them (R399, R412). -/
theorem State.vPlaces_placed {s : State} {f : VForm} {store : Bool} {k : State → List (VAcc × Place) → State} (place : VAcc → Place) (accs : List VAcc)
    (typed : accs ≠ [] → vMemtype s.vc.vt f s.me.mtype store = false)
    (placed : ∀ a ∈ accs, s.placeMt (s.me.mtCtx s.running) a.addr a.n a.al (if store then .store else .load) = (s, .ok (place a))) :
    s.vPlaces f store accs k = k s (accs.map fun a => (a, place a)) := by
  cases accs with
  | nil => rfl
  | cons a accs => rw [State.vPlaces_cons (typed (List.cons_ne_nil _ _)), State.placeNext_placed store s place _ _ _ placed]; rfl

/-- The places of LOCAL elements, each in the own slice. -/
def State.slicePlace (s : State) (a : VAcc) : VAcc × Place := (a, .sram (s.localKey a.addr.toNat) false)

theorem VmemRun.places {s : State} {i : Instr} {store : Bool} {d a : BitVec 5} {us : List (BitVec 5)} {f : Nat → Word} {form : VForm}
    (r : VmemRun s i store d a us f form) (plain : PlainFormat s.me.vt) (k : State → List (VAcc × Place) → State)
    (bytes : ∀ i ∈ s.actives s.vc, LocalBytes s (f i).toNat (fmtBytes s.me.vt) ∧ (f i).toNat % fmtBytes s.me.vt = 0) :
    s.owned.vPlaces form store ((s.actives s.vc).map (plainAcc s.me.vt f)) k =
      k s.owned (((s.actives s.vc).map (plainAcc s.me.vt f)).map s.owned.slicePlace) := by
  refine State.vPlaces_placed (fun a => .sram (s.owned.localKey a.addr.toNat) false) _ ?_ ?_
  · intro some
    obtain ⟨b, hb⟩ := List.exists_mem_of_ne_nil _ some
    obtain ⟨j, hj, rfl⟩ := List.mem_map.mp hb
    have format : s.owned.vc.vt = s.me.vt := by rw [State.owned_vc]; rfl
    rw [format, vMemtype_plain plain r.plain, (bytes j hj).1.owned.mt]
    rfl
  · intro b hb
    obtain ⟨j, hj, rfl⟩ := List.mem_map.mp hb
    exact (bytes j hj).1.owned.placeMt fmtBytes_pos (bytes j hj).2

/-! A load. -/

/-- A load's look at each of its places. -/
def State.lookNext (h typ : Nat) (st : State × List (VAcc × List Byte) × List (VAcc × Place × List WByte) × List Nat) (e : VAcc × Place) :
    State × List (VAcc × List Byte) × List (VAcc × Place × List WByte) × List Nat :=
  match st.1.lookLocal h typ e.2 e.1.n with
  | (s, .val bs) => (s, st.2.1 ++ [(e.1, bs)], st.2.2.1, st.2.2.2)
  | (s, .wait ids) => (s, st.2.1, st.2.2.1, st.2.2.2 ++ ids)
  | (s, .ask fwd) => (s, st.2.1, st.2.2.1 ++ [(e.1, e.2, fwd)], st.2.2.2)

/-- The values that a load has at once, written into its register. -/
def State.fillAll (s : State) (h vd : Nat) (vt : Word) (seg : Bool) (vals : List (VAcc × List Byte)) : State :=
  vals.foldl (fun s e => s.fillElem h vd vt seg e.1.i e.1.sel e.1.act e.2) s

theorem State.lookNext_slice {s : State} (strip : s.me.strip = none) (typ : Nat) : ∀ (accs : List VAcc) (vals : List (VAcc × List Byte)),
    (accs.map s.slicePlace).foldl (State.lookNext s.running typ) (s, vals, [], []) =
      (s, vals ++ accs.map fun a => (a, s.sramRead (s.localKey a.addr.toNat) a.n), [], [])
  | [], vals => by simp
  | a :: accs, vals => by
    have first : State.lookNext s.running typ (s, vals, [], []) (s.slicePlace a) =
        (s, vals ++ [(a, s.sramRead (s.localKey a.addr.toNat) a.n)], [], []) := by
      simp only [State.lookNext, State.slicePlace, State.lookLocal_slice strip]
    rw [List.map_cons, List.foldl_cons, first, State.lookNext_slice strip typ accs]
    simp

/-- A load of the own slice has all its values at once (R97). -/
theorem State.vloadFrom_slice {s : State} (strip : s.me.strip = none) (d : BitVec 5) (f : VForm) (accs : List VAcc) :
    s.vloadFrom d f (accs.map s.slicePlace) =
      (s.fillAll s.running d.toNat s.vc.vt (decide (f = .segment)) (accs.map fun a => (a, s.sramRead (s.localKey a.addr.toNat) a.n))).retire 0x18 := by
  have look : (accs.map s.slicePlace).foldl (State.lookNext s.running s.me.mtype) (s, [], [], []) = _ := State.lookNext_slice strip s.me.mtype accs []
  unfold State.vloadFrom
  dsimp only
  erw [look]
  rw [if_neg (fun some => some rfl)]
  simp only [List.isEmpty_nil, Bool.not_true, Bool.and_false, Bool.false_eq_true, if_false, List.nil_append]
  rfl

/-- The element of a plain format is its number widened (R135). -/
theorem Tile.elemOf_plain {vt : Word} (plain : PlainFormat vt) (x : Tile) (sel : Nat) (bs : List Byte) :
    x.elemOf vt sel bs = widen vt (ofBytesLE bs) := by
  obtain ⟨-, six, seven⟩ := plain
  unfold Tile.elemOf
  split
  · exact absurd ‹_› six
  · exact absurd ‹_› seven
  · rfl

/-- From `s` to `w` elements of one vector register have been written, outside any strip. -/
structure Filled (s w : State) (ew r : Nat) (xs : List (Nat × Nat)) : Prop where
  step : VecStep s w []
  me : w.me = s.me
  running : w.running = s.running
  vbank : ∀ n, (w.tile n).vbank = ((s.putElemsAt s.vc ew r xs).tile n).vbank
  mbank : ∀ n, (w.tile n).mbank = (s.tile n).mbank

/-- The vector bank after elements have been written. -/
theorem State.putElemsAt_vbank (s : State) (v : VCtx) (ew r : Nat) (xs : List (Nat × Nat)) (n : Nat) :
    ((s.putElemsAt v ew r xs).tile n).vbank = if v.lanes.isEmpty = false ∧ v.tile = n then
      (xs.flatMap fun e => (List.range (ew / 8)).map fun b => (v.keyAt ew r e.1 b, byteAt e.2 b)).foldl (fun b e => Tab.store b e.1 e.2 0) (s.tile n).vbank
    else (s.tile n).vbank := by
  unfold State.putElemsAt
  cases v.lanes.isEmpty with
  | true => simp
  | false => simpa using State.bankWrite_vbank s v.h v.tile n _

/-- Writing elements outside any strip leaves the process as it was. -/
theorem State.putElemsAt_me {s : State} {v : VCtx} (own : v.h = s.running) (strip : s.me.strip = none) (ew r : Nat) (xs : List (Nat × Nat)) :
    (s.putElemsAt v ew r xs).me = s.me ∧ (s.putElemsAt v ew r xs).running = s.running := by
  have stripless : ∀ t f, ((s.updTile t f).proc s.running).strip = none := fun _ _ => strip
  unfold State.putElemsAt State.bankWrite
  split
  · exact ⟨rfl, rfl⟩
  · simp only [own, stripless, Option.isNone_none, if_true]
    exact ⟨rfl, rfl⟩

theorem Filled.refl (s : State) (ew r : Nat) : Filled s s ew r [] := by
  refine ⟨.refl s, rfl, rfl, fun n => ?_, fun _ => rfl⟩
  rw [State.putElemsAt_vbank]
  split <;> rfl

/-- One more element. -/
theorem Filled.snoc {s w : State} {ew r : Nat} {xs : List (Nat × Nat)} (done : Filled s w ew r xs) (strip : s.me.strip = none) (e : Nat × Nat) :
    Filled s (w.putElemsAt s.vc ew r [e]) ew r (xs ++ [e]) := by
  have own : s.vc.h = w.running := done.running.symm
  obtain ⟨me, running⟩ := State.putElemsAt_me own ((congrArg Proc.strip done.me).trans strip) ew r [e]
  refine ⟨done.step.trans (VecStep.putElemsAt w s.vc own ew r [e]), me.trans done.me, running.trans done.running, fun n => ?_,
    fun n => (State.putElemsAt_mbank w s.vc ew r [e] n).trans (done.mbank n)⟩
  rw [State.putElemsAt_vbank, State.putElemsAt_vbank, done.vbank, State.putElemsAt_vbank]
  split
  · rw [List.flatMap_append, List.foldl_append]
  · rfl

/-- The values of a load of a plain format fill its register one after another. -/
theorem Filled.fillAll {s : State} (strip : s.me.strip = none) (plain : PlainFormat s.me.vt) (r : Nat) : ∀ (vals : List (VAcc × List Byte)) (w : State)
    (xs : List (Nat × Nat)), Filled s w s.vc.ew r xs →
    Filled s (w.fillAll s.running r s.vc.vt false vals) s.vc.ew r (xs ++ vals.map fun e => (e.1.i, widen s.me.vt (ofBytesLE e.2)))
  | [], w, xs, done => by simpa [State.fillAll] using done
  | e :: vals, w, xs, done => by
    have ctx : { (w.proc s.running).vctx s.running with vt := s.vc.vt, ew := ewOf s.vc.vt } = s.vc := by
      have me : w.proc s.running = s.me := by rw [← done.me, State.me, done.running]
      rw [me]; rfl
    have fill : w.fillElem s.running r s.vc.vt false e.1.i e.1.sel e.1.act e.2 =
        w.putElemsAt s.vc s.vc.ew r [(e.1.i, widen s.me.vt (ofBytesLE e.2))] := by
      have value (x : Tile) := Tile.elemOf_plain (vt := s.vc.vt) plain x e.1.sel e.2
      simp only [State.fillElem, ctx, Bool.false_eq_true, if_false, value]
      rfl
    have rest := Filled.fillAll strip plain r vals _ _ (fill ▸ done.snoc strip (e.1.i, widen s.me.vt (ofBytesLE e.2)))
    rw [List.append_assoc] at rest
    exact rest

/-- Reading LOCAL memory in the state `owned`. -/
theorem State.owned_sramRead (s : State) (k n : Nat) : s.owned.sramRead k n = s.sramRead k n :=
  List.map_congr_left fun i _ => s.owned_memory.sram (k + i)
theorem State.owned_localKey (s : State) (a : Nat) : s.owned.localKey a = s.localKey a := by unfold State.localKey; rw [State.owned_me]

/-- Outside any strip a load looks at the places of its elements first, where it has any. -/
theorem VmemRun.load {s : State} {i : Instr} {d a : BitVec 5} {us : List (BitVec 5)} {f : Nat → Word} {form : VForm}
    (r : VmemRun s i false d a us f form) (strip : s.me.strip = none) :
    s.owned.vmemBody false d a form = s.owned.vPlaces form false ((s.actives s.vc).map (plainAcc s.me.vt f)) fun u ps => u.vloadFrom d form ps := by
  cases act : s.actives s.vc with
  | nil =>
    have none_ : s.owned.vaccs s.owned.vc form (s.owned.reg a) = [] := by
      rw [State.owned_vc, State.owned_reg, r.accs, act]; rfl
    have stripless : s.owned.me.strip = none := by rw [State.owned_me]; exact strip
    have last := State.vloadFrom_slice stripless d form []
    simp only [State.vmemBody, State.vloadBody, none_, Bool.false_eq_true, if_false]
    exact last.symm
  | cons e l =>
    have active : s.active s.vc e = true := State.mem_actives.mp (act ▸ List.mem_cons_self ..)
    rw [r.body strip active, act]
    rfl

/-- A vector load of LOCAL elements (R397, R398). -/
theorem vload_local {s : State} {i : Instr} {d a : BitVec 5} {us : List (BitVec 5)} {f : Nat → Word} (access : vmemOf s s.vc i = some (false, d, a, us, f))
    (plain : PlainFormat s.me.vt) (free : s.free [a]) (strip : s.me.strip = none) (ready : VecReady s us)
    (bytes : ∀ i ∈ s.actives s.vc, LocalBytes s (f i).toNat (fmtBytes s.me.vt) ∧ (f i).toNat % fmtBytes s.me.vt = 0) :
    ∃ t, exec i s = .next t ∧ PutVec s t s.vc s.vc.ew d.toNat (s.each s.vc fun i => widen s.me.vt (localVal s (f i).toNat (fmtBytes s.me.vt))) ∧
      SameMask s t ∧ t.me.fflags = s.me.fflags ∧ VecDone s t [] := by
  obtain ⟨form, r⟩ := vmem_run access plain
  have stripless : s.owned.me.strip = none := by rw [State.owned_me]; exact strip
  have plain' : PlainFormat s.owned.me.vt := by rw [State.owned_me]; exact plain
  have values : (((s.actives s.vc).map (plainAcc s.me.vt f)).map fun a => (a, s.owned.sramRead (s.owned.localKey a.addr.toNat) a.n)).map
      (fun e => (e.1.i, widen s.owned.me.vt (ofBytesLE e.2))) =
      (s.actives s.vc).map fun i => (i, widen s.me.vt (localVal s (f i).toNat (fmtBytes s.me.vt))) := by
    rw [List.map_map, List.map_map]
    refine List.map_congr_left fun i _ => ?_
    simp only [Function.comp, State.owned_sramRead, State.owned_localKey, State.owned_me]
    rw [← State.ofBytesLE_sramRead]
    rfl
  have filled := Filled.fillAll stripless plain' d.toNat
    (((s.actives s.vc).map (plainAcc s.me.vt f)).map fun a => (a, s.owned.sramRead (s.owned.localKey a.addr.toNat) a.n)) s.owned [] (.refl s.owned _ _)
  rw [List.nil_append, values] at filled
  have body := r.load strip
  rw [r.places plain _ bytes, State.vloadFrom_slice stripless, decide_eq_false r.plain] at body
  generalize s.owned.fillAll s.owned.running d.toNat s.owned.vc.vt false _ = w at filled body
  obtain ⟨done, flags, banks, -⟩ := VecDone.of_step 0x18 ready.step filled.step
  have put := State.putElemsAt_put s.owned s.vc s.vc_ok (ewOf_isEw _) d.toNat _ _ fun _ =>
    Says.actives s fun i => widen s.me.vt (localVal s (f i).toNat (fmtBytes s.me.vt))
  refine ⟨w.retire 0x18, ?_, .of_owned put fun n => ?_, .of_owned filled.mbank fun n => (banks n).2, ?_, done⟩
  · rw [r.run, State.withRegs_free _ _ _ free, State.vectorOp_ready s 0x18 us _ ready (by rw [body, done.went.ready]; decide), body]
  · rw [(banks n).1, filled.vbank, State.owned_vc]
    rfl
  · rw [flags, filled.me, State.owned_me]

/-! A store. -/

/-- The bytes of the own slice that a vector store of plain elements writes, element by element. -/
def State.storeElems (s : State) (key : Nat → Nat) (n : Nat) (val : Nat → Nat) (l : List Nat) : State :=
  l.foldl (fun s i => s.sramStore (key i) (wbytes (bytesLE n (val i)))) s

/-- The write of one element. -/
def elemWrite (key addr : Nat → Nat) (n : Nat) (val : Nat → Nat) (i : Nat) : Wr :=
  { place := .sram (key i) false, addr := addr i, bs := wbytes (bytesLE n (val i)) }

/-- A store to lines of the own slice that are in use performs at once, element by element (R117). -/
theorem State.storeAll_elems (key addr : Nat → Nat) (n : Nat) (val : Nat → Nat) (h typ : Nat) (pc : BitVec 48) (op : Nat) : ∀ (l : List Nat) (s : State),
    (∀ i ∈ l, s.isWithdrawn (key i) n = false) → s.storeAll h typ pc op (l.map (elemWrite key addr n val)) = s.storeElems key n val l
  | [], _, _ => rfl
  | i :: l, s, kept => by
    have span : Req.span (wbytes (bytesLE n (val i))) = n := by rw [span_wbytes, length_bytesLE]
    have first : s.storeOne h typ pc op (elemWrite key addr n val i) = s.sramStore (key i) (wbytes (bytesLE n (val i))) :=
      State.storeOne_slice (by rw [span]; exact kept i (List.mem_cons_self ..)) h typ pc op (addr i) 0
    obtain ⟨m, tg, stored⟩ := State.sramStore_eq (key i) (wbytes (bytesLE n (val i))) s
    have rest : (s.sramStore (key i) (wbytes (bytesLE n (val i)))).storeAll h typ pc op (l.map (elemWrite key addr n val)) = _ :=
      State.storeAll_elems key addr n val h typ pc op l _ fun j hj => stored ▸ kept j (List.mem_cons_of_mem _ hj)
    unfold State.storeAll at rest ⊢
    rw [List.map_cons, List.foldl_cons, first, rest]
    rfl

/-- The bytes after it: of each element in turn. -/
theorem State.storeElems_byte (key : Nat → Nat) (n : Nat) (pos : 0 < n) (val : Nat → Nat) (k : Nat) : ∀ (l : List Nat) (s : State),
    (s.storeElems key n val l).sramByte k =
      l.foldl (fun b i => if key i ≤ k ∧ k < key i + n then BitVec.ofNat 8 (val i / 256 ^ (k - key i)) else b) (s.sramByte k)
  | [], _ => rfl
  | i :: l, s => by
    have first : (s.sramStore (key i) (wbytes (bytesLE n (val i)))).sramByte k =
        if key i ≤ k ∧ k < key i + n then BitVec.ofNat 8 (val i / 256 ^ (k - key i)) else s.sramByte k := (s.sramStore_num (key i) n (val i) pos).1 k
    rw [State.storeElems, List.foldl_cons, List.foldl_cons, ← first]
    exact State.storeElems_byte key n pos val k l _

theorem State.storeElems_sram (key : Nat → Nat) (n : Nat) (val : Nat → Nat) : ∀ (l : List Nat) (s : State),
    ∃ m tg, s.storeElems key n val l = s.withSram m tg
  | [], s => ⟨s.sram, s.sramTags, rfl⟩
  | i :: l, s => by
    obtain ⟨m, tg, stored⟩ := State.sramStore_eq (key i) (wbytes (bytesLE n (val i))) s
    obtain ⟨m', tg', rest⟩ := State.storeElems_sram key n val l (s.withSram m tg)
    refine ⟨m', tg', ?_⟩
    rw [State.storeElems, List.foldl_cons, stored]
    exact rest

/-- The flags of the active elements of a store together. -/
theorem State.raiseFlags_strip {s : State} (strip : s.me.strip = none) (f : Flags) : (s.raiseFlags f).me.strip = none := by
  rw [State.raiseFlags, State.updMe_me]
  simp [strip]

/-- A vector store of LOCAL elements of a plain format (R410). -/
theorem State.vstoreFrom_slice {s : State} (plain : PlainFormat s.vc.vt) (strip : s.me.strip = none) (d : BitVec 5) {form : VForm} (notSegment : form ≠ .segment)
    (f : Nat → Word) (l : List Nat)
    (kept : ∀ i ∈ l, s.isWithdrawn (s.localKey (f i).toNat) (fmtBytes s.vc.vt) = false) :
    s.vstoreFrom s.vc d form ((l.map (plainAcc s.vc.vt f)).map s.slicePlace) =
      ((s.raiseFlags (orAll l fun i => (narrow s.vc.vt (s.elem s.vc d i)).2)).storeElems (fun i => s.localKey (f i).toNat) (fmtBytes s.vc.vt)
        (fun i => (narrow s.vc.vt (s.elem s.vc d i)).1) l).retire 0x18 := by
  have bytes (i : Nat) : s.vbytes s.vc d form (plainAcc s.vc.vt f i) =
      (wbytes (bytesLE (fmtBytes s.vc.vt) (narrow s.vc.vt (s.elem s.vc d i)).1), (narrow s.vc.vt (s.elem s.vc d i)).2) := by
    rw [State.vbytes, if_neg notSegment]
    exact if_neg plain.2.1
  have flags : ((l.map (plainAcc s.vc.vt f)).map s.slicePlace |>.map fun e => (e.1, e.2, s.vbytes s.vc d form e.1)).foldl (fun a o => a ||| o.2.2.2) 0 =
      orAll l fun i => (narrow s.vc.vt (s.elem s.vc d i)).2 := by
    rw [List.map_map, List.map_map, List.foldl_map]
    simp only [Function.comp, State.slicePlace, bytes]
    rfl
  have writes : ((l.map (plainAcc s.vc.vt f)).map s.slicePlace |>.map fun e => (e.1, e.2, s.vbytes s.vc d form e.1)).map (fun o =>
      ({ place := o.2.1, addr := o.1.addr.toNat, bs := o.2.2.1, seg := if form = .segment then o.1.n else 0 } : Wr)) =
      l.map (elemWrite (fun i => s.localKey (f i).toNat) (fun i => (f i).toNat) (fmtBytes s.vc.vt) fun i => (narrow s.vc.vt (s.elem s.vc d i)).1) := by
    rw [List.map_map, List.map_map, List.map_map]
    refine List.map_congr_left fun i _ => ?_
    simp only [Function.comp, State.slicePlace, bytes, if_neg notSegment]
    rfl
  unfold State.vstoreFrom
  dsimp only
  rw [flags, writes, State.bufferStore_none (State.raiseFlags_strip strip _), State.handOver_store, State.storeAll_elems]
  exact kept

/-- After flags and bytes, the store completes: VecStored's frame (R410). -/
theorem VecStored.of_step {s u : State} (step : VecStep s.owned u []) (vbank : ∀ n, (u.tile n).vbank = (s.owned.tile n).vbank)
    (mbank : ∀ n, (u.tile n).mbank = (s.owned.tile n).mbank) (ss : s.me.ss = false) (m : List Host.Cell) (tg : Tab Bool) :
    VecStored s ((u.withSram m tg).retire 0x18) ∧ ((u.withSram m tg).retire 0x18).me.fflags = u.me.fflags ∧
      ∀ k, ((u.withSram m tg).retire 0x18).sramByte k = (u.withSram m tg).sramByte k := by
  have pc : u.me.pc = s.me.pc := step.pc.trans (by rw [State.owned_me])
  have special : u.me.specials.noFlags = s.me.specials.noFlags := step.special.trans (by rw [State.owned_me])
  have single : u.me.ss = false := by
    have status : u.me.status = s.me.status := congrArg Specials.status special
    rw [Proc.ss, status]; exact ss
  have only := (u.withSram m tg).retire_only 0x18 single
  have next : (u.withSram m tg).me.pc + 4 = s.me.pc + 4 := by rw [← pc]; rfl
  rw [next] at only
  have tile (n : Nat) : ∃ o, s.owned.tile n = { s.tile n with owners := o } := (s.owned_tile n).imp fun _ h => h.1
  refine ⟨⟨only.went, ⟨fun r h => ?_, fun k => ?_, fun c => ?_⟩, ?_, fun n k => ?_, fun n k => ?_, fun n => ?_, (s.owned_rest.trans step.rest).trans only.rest.of_withSram,
    fun part k => ?_, fun g => ?_⟩, ?_, only.memory.sram⟩
  · exact (only.regs.regs r h).trans ((step.regs.regs r h).trans (State.owned_reg s r))
  · exact (only.regs.caps k).trans ((step.regs.caps k).trans (by rw [State.owned_me]))
  · exact (only.regs.chans c).trans ((step.regs.chans c).trans (by rw [State.owned_me]))
  · exact (congrArg Specials.noFlags only.special).trans special
  · obtain ⟨o, own⟩ := tile n
    rw [only.units.vbank]
    exact congrArg (Tab.lookD · k 0) ((vbank n).trans (by rw [own]))
  · obtain ⟨o, own⟩ := tile n
    rw [only.units.mbank]
    exact congrArg (Tab.lookD · k false) ((mbank n).trans (by rw [own]))
  · obtain ⟨o, own⟩ := tile n
    exact (only.units.treg n).trans ((step.treg n).trans (by rw [own]))
  · exact (only.memory.hbm part k).trans ((step.memory.hbm part k).trans (s.owned_memory.hbm part k))
  · exact (only.memory.hbmTag g).trans ((step.memory.hbmTag g).trans (s.owned_memory.hbmTag g))
  · exact congrArg Specials.fflags only.special

/-- Outside any strip a store looks at the places of its elements first, unless VL is zero. -/
theorem VmemRun.store {s : State} {i : Instr} {d a : BitVec 5} {us : List (BitVec 5)} {f : Nat → Word} {form : VForm}
    (r : VmemRun s i true d a us f form) : s.owned.vmemBody true d a form = if s.vc.vl = 0 then s.owned.retire 0x18 else
      s.owned.vPlaces form true ((s.actives s.vc).map (plainAcc s.me.vt f)) fun u ps => u.vstoreFrom s.vc d form ps := by
  simp only [State.vmemBody, if_true, State.vstoreBody, State.owned_vc, State.owned_reg, r.accs]

/-- A vector store of LOCAL elements (R410, R411). -/
theorem vstore_local {s : State} {i : Instr} {d a : BitVec 5} {us : List (BitVec 5)} {f : Nat → Word} (access : vmemOf s s.vc i = some (true, d, a, us, f))
    (plain : PlainFormat s.me.vt) (free : s.free [a]) (strip : s.me.strip = none) (ready : VecReady s us)
    (bytes : ∀ i ∈ s.actives s.vc, LocalBytes s (f i).toNat (fmtBytes s.me.vt) ∧ (f i).toNat % fmtBytes s.me.vt = 0) :
    ∃ t, exec i s = .next t ∧
      (∀ k, t.sramByte k = storedByte s (fmtBytes s.me.vt) (fun i => (f i).toNat) (fun i => (narrow s.me.vt (s.elem s.vc d i)).1) (s.actives s.vc) k) ∧
      t.me.fflags = flagsAfter s (orAll (s.actives s.vc) fun i => (narrow s.me.vt (s.elem s.vc d i)).2) ∧ VecStored s t := by
  obtain ⟨form, r⟩ := vmem_run access plain
  have stripless : s.owned.me.strip = none := by rw [State.owned_me]; exact strip
  have run {w : State} (body : s.owned.vmemBody true d a form = w) (went : w.me.pst = .ready) : exec i s = .next w := by
    rw [r.run, State.withRegs_free _ _ _ free, State.vectorOp_ready s 0x18 us _ ready (by rw [body, went]; decide), body]
  have body := r.store
  by_cases vl : s.vc.vl = 0
  · rw [if_pos vl] at body
    have none_ : s.actives s.vc = [] := by unfold State.actives; rw [vl]; rfl
    obtain ⟨stored, flags, sram⟩ := VecStored.of_step (.refl s.owned) (fun _ => rfl) (fun _ => rfl) ready.step s.owned.sram s.owned.sramTags
    refine ⟨_, run body stored.went.ready, fun k => ?_, ?_, stored⟩
    · rw [none_]
      exact (sram k).trans (s.owned_memory.sram k)
    · refine flags.trans ?_
      rw [none_, flagsAfter, if_pos strip, State.owned_me]
      exact (BitVec.or_zero).symm
  · rw [if_neg vl, r.places plain _ bytes] at body
    have format : s.owned.vc.vt = s.me.vt := by rw [State.owned_vc]; rfl
    have store := State.vstoreFrom_slice (s := s.owned) (by rw [format]; exact plain) stripless d r.plain f (s.actives s.vc)
      (fun i hi => by rw [format]; exact (bytes i hi).1.owned.inUse)
    simp only [State.owned_vc, State.owned_localKey, State.owned_elem] at store
    have done := body.trans store
    have step := VecStep.raiseFlags s.owned (orAll (s.actives s.vc) fun i => (narrow s.me.vt (s.elem s.vc d i)).2)
    obtain ⟨m, tg, elems⟩ := State.storeElems_sram (fun i => s.localKey (f i).toNat) (fmtBytes s.me.vt)
      (fun i => (narrow s.me.vt (s.elem s.vc d i)).1) (s.actives s.vc)
      (s.owned.raiseFlags (orAll (s.actives s.vc) fun i => (narrow s.me.vt (s.elem s.vc d i)).2))
    obtain ⟨stored, flags, sram⟩ := VecStored.of_step step (fun _ => rfl) (fun _ => rfl) ready.step m tg
    refine ⟨_, run (done.trans (congrArg (State.retire · 0x18) elems)) stored.went.ready, fun k => ?_, ?_, stored⟩
    · rw [sram, ← elems, State.storeElems_byte _ _ fmtBytes_pos, step.memory.sram, s.owned_memory.sram]
      rfl
    · rw [flags, State.raiseFlags_fflags, State.owned_me]
      rfl

/-- Settles O31: each element is read from its bytes, or written to them, in element order. -/
theorem localVectorAccess : Obligations.LocalVectorAccess := by
  unfold Obligations.LocalVectorAccess
  exact ⟨fun s i d a us f access plain free ok ready bytes => vload_local access plain free ok.2.1 ready bytes,
    fun s i d a us f access plain free ok ready bytes => vstore_local access plain free ok.2.1 ready bytes⟩

end Sys2Proof.Machine
end

section
/-! PROOFS. Accesses at their home: what a home reads, stores and answers (R81, R103, R119, R120, R299, R419). -/

namespace Sys2Proof.Machine

/-! Bytes stored at a home. -/

/-- Bytes stored in SRAM are merged into those before (R435). -/
theorem State.sramStore_merged (k j : Nat) (bs : List WByte) : ∀ s : State, (s.sramStore k bs).sramByte j =
    bs.foldl (fun v b => if k + b.off = j then mergeNib v b.val b.nib else v) (s.sramByte j) := by
  induction bs with
  | nil => exact fun _ => rfl
  | cons b bs ih =>
    intro s
    have one : (s.sramStore k [b]).sramByte j = if k + b.off = j then mergeNib (s.sramByte j) b.val b.nib else s.sramByte j := by
      refine (Memory.read_write s.sram (k + b.off) j (mergeNib (s.sramByte (k + b.off)) b.val b.nib)).trans ?_
      split
      · next here => rw [here]
      · rfl
    rw [List.foldl_cons, ← one]
    exact ih (s.sramStore k [b])

/-- Every granule of SRAM that a store touches loses its tag, and none gains one (R83). -/
theorem State.sramStore_untags (k g : Nat) (bs : List WByte) : ∀ s : State,
    (Tab.lookD s.sramTags g false = false ∨ ∃ b ∈ bs, (k + b.off) / 16 = g) → Tab.lookD (s.sramStore k bs).sramTags g false = false := by
  induction bs with
  | nil =>
    rintro s (clear | ⟨b, hb, -⟩)
    · exact clear
    · cases hb
  | cons b bs ih =>
    intro s touched
    refine ih (s.sramStore k [b]) ?_
    have cut : Tab.lookD (s.sramStore k [b]).sramTags g false = if (k + b.off) / 16 = g then false else Tab.lookD s.sramTags g false := by
      unfold Tab.lookD
      rw [show (s.sramStore k [b]).sramTags = Tab.cut s.sramTags ((k + b.off) / 16) from rfl, Tab.look_cut]
      split <;> rfl
    by_cases here : (k + b.off) / 16 = g
    · exact .inl (by rw [cut, if_pos here])
    · rcases touched with clear | ⟨x, hx, at_⟩
      · exact .inl (by rw [cut, if_neg here, clear])
      · rcases List.mem_cons.1 hx with rfl | hx
        · exact absurd at_ here
        · exact .inr ⟨x, hx, at_⟩

/-- A place is not another package's. -/
def Place.here : Place → Prop
  | .remote _ _ _ => False
  | _ => True

/-- Writing at a home on this package (R81, R103). -/
theorem State.writePlace_stores (s : State) (part : Nat) {p : Place} (here : p.here) (bs : List WByte) : Stores s (s.writePlace part p bs) part p bs := by
  cases p with
  | sram k net =>
    obtain ⟨m, tg, stored⟩ := State.sramStore_eq k bs s
    have kept : (s.sramStore k bs).hbm = s.hbm ∧ (s.sramStore k bs).hbmTags = s.hbmTags := by rw [stored]; exact ⟨rfl, rfl⟩
    exact ⟨fun a => State.sramStore_merged k a bs s, kept.1, kept.2, fun b hb => State.sramStore_untags k _ bs s (.inr ⟨b, hb, rfl⟩)⟩
  | dram k va =>
    obtain ⟨sram, tags, -⟩ := s.hbmStore_sram part k bs
    exact ⟨fun a => State.hbmStore_merged part k a bs s, sram, tags, fun b hb => State.hbmStore_untags part k _ bs s (.inr ⟨b, hb, rfl⟩)⟩
  | remote q sp a => exact here.elim

/-- What the networks do afterwards changes no memory. -/
theorem Stores.after {s u t : State} {part : Nat} {p : Place} {bs : List WByte} (stored : Stores s u part p bs) (still : t.still = u.still) :
    Stores s t part p bs := by
  obtain ⟨bytes, other⟩ := stored
  have sram : t.sram = u.sram := by have e := congrArg State.sram still; exact e
  have sramTags : t.sramTags = u.sramTags := by have e := congrArg State.sramTags still; exact e
  have hbm : t.hbm = u.hbm := by have e := congrArg State.hbm still; exact e
  have hbmEpoch : t.hbmEpoch = u.hbmEpoch := by have e := congrArg State.hbmEpoch still; exact e
  have hbmTags : t.hbmTags = u.hbmTags := by have e := congrArg State.hbmTags still; exact e
  have parts : t.parts = u.parts := by have e := congrArg State.parts still; exact e
  have same : SameMemory u t := .of_tables sram hbm hbmEpoch sramTags hbmTags fun n => by rw [State.part, parts]; rfl
  refine ⟨fun a => ?_, ?_⟩
  · rw [← bytes a]
    cases p with
    | dram k va => exact same.hbm part a
    | _ => exact same.sram a
  · cases p with
    | dram k va => rw [sram, sramTags, hbmTags]; exact other
    | _ => rw [hbm, sramTags, hbmTags]; exact other

/-! What a home answers. -/

/-- LEN and TAG of a server's answer are the request's (Table 3.8). -/
theorem pipeReply_header (hd : Word) (ws : List Word) (err : Nat) :
    pipeReply (hd :: ws) err = .ofNat 64 ((hd.toNat / 2 ^ 60 + 8) * 2 ^ 60 + hd.toNat / 2 ^ 47 % 2 ^ 13 * 2 ^ 47 + err * 2 ^ 40) := by
  have op : wfield hd 63 60 = hd.toNat / 2 ^ 60 := by
    have := hd.isLt
    simp only [wfield, field]
    omega
  have lenTag : wfield hd 59 55 * 2 ^ 55 + wfield hd 54 47 * 2 ^ 47 = hd.toNat / 2 ^ 47 % 2 ^ 13 * 2 ^ 47 := by
    simp only [wfield, field]
    omega
  have head : pipeReply (hd :: ws) err =
      .ofNat 64 ((wfield hd 63 60 + 8) * 2 ^ 60 + (wfield hd 59 55 * 2 ^ 55 + wfield hd 54 47 * 2 ^ 47) + err * 2 ^ 40) := by
    simp only [pipeReply, List.headD_cons, Nat.add_assoc]
  rw [head, op, lenTag]

/-- An answer changes the access and what is due. -/
theorem State.answer_answered {s : State} {id : Nat} {r : Req} (here : Tab.look s.reqs id = some r) (data : List Byte) (err : Nat) (c : Cap) :
    Answered (s.answer id data err c) id r data err c ∧ Quiet s (s.answer id data err c) := by
  unfold State.answer
  simp only [here]
  refine ⟨⟨⟨_, Tab.look_put_same _ _ _, fun k va hd ws place words => ?_⟩, ⟨_, mem_insertDue _ _ _, rfl⟩⟩, .of_same rfl rfl rfl⟩
  rw [place, words, if_neg (by simp [Place.server])]
  exact pipeReply_header hd ws err

/-- The bytes that a home reads. -/
theorem State.readPlace_bytes (s : State) (part : Nat) {p : Place} (here : p.here) (n : Nat) :
    s.readPlace part p n = (List.range n).map fun j => homeByte s part p (homeAt p + j) := by
  cases p with
  | remote q sp a => exact here.elim
  | _ => rfl

/-- Bytes of a number that bytes stand for. -/
theorem bytesLE_ofBytesLE : ∀ l : List Byte, bytesLE l.length (ofBytesLE l) = l
  | [] => rfl
  | b :: l => by
    have rest : (List.range l.length).map (byteAt (ofBytesLE (b :: l)) ∘ Nat.succ) = bytesLE l.length (ofBytesLE l) := by
      refine List.map_congr_left fun i _ => ?_
      have low := b.isLt
      have high : (b.toNat + 256 * ofBytesLE l) / 256 = ofBytesLE l := by omega
      simp only [Function.comp, byteAt, ofBytesLE, Nat.pow_succ', ← Nat.div_div_eq_div_mul, high]
    rw [List.length_cons, bytesLE, List.range_succ_eq_map, List.map_cons, List.map_map, rest, bytesLE_ofBytesLE l]
    congr 1
    refine BitVec.eq_of_toNat_eq ?_
    simp only [byteAt, ofBytesLE, Nat.pow_zero, Nat.div_one, BitVec.toNat_ofNat]
    have := b.isLt
    omega

/-! What a home does with an access that has reached it. -/

theorem Homed.here_ {s : State} {id : Nat} {r : Req} (h : Homed s id r) : r.place.here := by
  have home := h.home
  cases place : r.place with
  | remote q sp a => rw [place] at home; exact home
  | _ => trivial

/-- The tag of the granule at a place, as a partition reads it (R83). -/
def State.tagAt (s : State) (part : Nat) : Place → Bool
  | .dram k _ => s.hbmTag part k
  | p => Tab.lookD s.sramTags (homeAt p / 16) false
/-- A capability stored at a home on this package. -/
def State.capPlace (s : State) (part : Nat) (p : Place) (c : Cap) : State :=
  match p with
  | .dram k _ => s.capToHbm part k c
  | _ => s.capToSram (homeAt p) c
/-- An access served by its home. -/
def State.serveHome (s : State) (id : Nat) (r : Req) : State :=
  match r.op with
  | .read n => s.answer id (s.readPlace r.part r.place n) 0 {}
  | .capRead => s.answer id [] 0 { bits := .ofNat 128 (ofBytesLE (s.readPlace r.part r.place 16)), tag := s.tagAt r.part r.place }
  | .write bs => (s.writePlace r.part r.place bs).answer id [] 0 {}
  | .capWrite c => (s.capPlace r.part r.place c).answer id [] 0 {}
  | .atomic fn n v w => (s.writePlace r.part r.place (wbytes (bytesLE n (atomicNew fn n (ofBytesLE (s.readPlace r.part r.place n)) v w)))).answer id
      (bytesLE n (ofBytesLE (s.readPlace r.part r.place n))) 0 {}

/-- An access that its home can serve is served (R81, R103, R119, R120). -/
theorem Homed.perform {s : State} {id : Nat} {r : Req} (h : Homed s id r) : s.perform id = s.serveHome id r := by
  obtain ⟨here, ⟨performed, err, dropped⟩, home⟩ := h
  unfold State.perform State.serveHome
  simp only [here, performed, err, dropped, Bool.false_eq_true, if_false, ne_eq, not_true, false_and, or_self]
  cases place : r.place with
  | remote q sp a => rw [place] at home; exact home.elim
  | sram k net =>
    rw [place] at home
    simp only [home, Bool.false_eq_true, if_false]
    cases r.op <;> rfl
  | dram k va =>
    rw [place] at home
    obtain ⟨full, good⟩ := home
    simp only [full, good, Bool.and_false, Bool.false_eq_true, Bool.true_eq_false, if_false]
    cases r.op <;> rfl

/-- The steps of a home (R81, R119, R419). -/
theorem exec_home {i : Instr} {id : Nat} (home : i = .mempipeRead id ∨ i = .mempipeWrite id ∨ i = .dramAtomic id ∨ i = .globalSramAccess id) (s : State) :
    exec i s = .next (s.perform id) := by
  rcases home with rfl | rfl | rfl | rfl <;> rfl

theorem State.hbmStore_reqs (s : State) (part k : Nat) (bs : List WByte) : (s.hbmStore part k bs).reqs = s.reqs := by
  have rest := congrArg State.reqs (State.hbmStore_rest part k bs s)
  exact rest
/-- Writing at a home leaves the accesses. -/
theorem State.writePlace_reqs (s : State) (part : Nat) (p : Place) (bs : List WByte) : (s.writePlace part p bs).reqs = s.reqs := by
  cases p with
  | sram k net =>
    obtain ⟨m, tg, stored⟩ := State.sramStore_eq k bs s
    have reqs := congrArg State.reqs stored
    exact reqs
  | dram k va => exact s.hbmStore_reqs part k bs
  | remote q sp a => rfl

/-- A write answered by its home. -/
theorem Homed.stores {s : State} {id : Nat} {r : Req} (h : Homed s id r) (bs : List WByte) (data : List Byte) :
    Stores s ((s.writePlace r.part r.place bs).answer id data 0 {}) r.part r.place bs ∧
      Answered ((s.writePlace r.part r.place bs).answer id data 0 {}) id r data 0 {} := by
  have here : Tab.look (s.writePlace r.part r.place bs).reqs id = some r := by rw [State.writePlace_reqs]; exact h.here
  obtain ⟨answered, q⟩ := State.answer_answered here data 0 {}
  exact ⟨(s.writePlace_stores r.part h.here_ bs).after q.still, answered⟩

/-- The poison of a page leaves the accesses (R102). -/
theorem State.poisonLeaf_reqs (s : State) (part pteAt : Nat) : (s.poisonLeaf part pteAt).reqs = s.reqs := by
  unfold State.poisonLeaf
  split
  · rfl
  · exact State.hbmStore_reqs ..
theorem State.poisonVa_reqs (s : State) (part va : Nat) : (s.poisonVa part va).reqs = s.reqs := by
  unfold State.poisonVa
  split
  · exact State.poisonLeaf_reqs ..
  · rfl
theorem State.poisonPhys_reqs (s : State) (part phys : Nat) : (s.poisonPhys part phys).reqs = s.reqs := by
  unfold State.poisonPhys
  generalize List.filter _ _ = l
  induction l generalizing s with
  | nil => rfl
  | cons e l ih => exact (ih _).trans (State.poisonLeaf_reqs ..)

/-- An access that its home cannot serve: a withdrawn line or an uncorrectable one answers 2, an empty key slot 4 (R251, R260, R299, R419). -/
theorem State.perform_refused {s : State} {id : Nat} {r : Req} (here : Tab.look s.reqs id = some r) (performed : r.performed = false) (err : r.err = 0)
    (dropped : r.dropped = false) :
    (∀ k net, r.place = .sram k net → s.isWithdrawn k r.op.span = true → s.perform id = s.answer id [] 2 {}) ∧
    (∀ k va, r.place = .dram k va → (s.part r.part).key.full = false → s.perform id = s.answer id [] 4 {}) ∧
    (∀ k va n, r.place = .dram k va → (s.part r.part).key.full = true → r.op = .read n → s.hbmFails k n = true →
      ∃ u : State, u.reqs = s.reqs ∧ s.perform id = u.answer id [] 2 {}) := by
  unfold State.perform
  simp only [here, performed, err, dropped, Bool.false_eq_true, if_false, ne_eq, not_true, false_and, or_self]
  refine ⟨fun k net place bad => ?_, fun k va place key => ?_, fun k va n place key op bad => ?_⟩
  · simp only [place, bad, if_true]
  · simp only [place, key, if_true]
  · have span : (ReqOp.read n).span = n := rfl
    simp only [place, key, op, span, bad, Bool.and_self, Bool.true_eq_false, if_false, if_true]
    refine ⟨_, ?_, rfl⟩
    split
    · rfl
    split
    · exact State.poisonPhys_reqs ..
    · exact State.poisonVa_reqs ..

/-- O46, the homes: what each kind of access does at its home. -/
theorem homes_serve (s : State) (i : Instr) (id : Nat) (r : Req)
    (home : i = .mempipeRead id ∨ i = .mempipeWrite id ∨ i = .dramAtomic id ∨ i = .globalSramAccess id) (h : Homed s id r) :
    (∀ n, r.op = .read n → ∃ t, exec i s = .next t ∧ SameMemory s t ∧
      Answered t id r ((List.range n).map fun j => homeByte s r.part r.place (homeAt r.place + j)) 0 {}) ∧
    (∀ bs, r.op = .write bs → ∃ t, exec i s = .next t ∧ Stores s t r.part r.place bs ∧ Answered t id r [] 0 {}) ∧
    (∀ fn n v w, r.op = .atomic fn n v w → let old := (List.range n).map fun j => homeByte s r.part r.place (homeAt r.place + j)
      ∃ t, exec i s = .next t ∧ Stores s t r.part r.place (wbytes (bytesLE n (atomicNew fn n (ofBytesLE old) v w))) ∧ Answered t id r old 0 {}) ∧
    (r.op = .capRead → ∃ t c, exec i s = .next t ∧ SameMemory s t ∧ Answered t id r [] 0 c ∧
      c.bits.toNat = ofBytesLE ((List.range 16).map fun j => homeByte s r.part r.place (homeAt r.place + j)) ∧ c.tag = s.tagAt r.part r.place) := by
  have run : exec i s = .next (s.serveHome id r) := by rw [exec_home home, h.perform]
  refine ⟨fun n op => ?_, fun bs op => ?_, fun fn n v w op => ?_, fun op => ?_⟩ <;> simp only [State.serveHome, op] at run
  · obtain ⟨answered, q⟩ := State.answer_answered h.here (s.readPlace r.part r.place n) 0 {}
    exact ⟨_, run, q.memory, s.readPlace_bytes r.part h.here_ n ▸ answered⟩
  · exact ⟨_, run, h.stores bs []⟩
  · dsimp only
    rw [← s.readPlace_bytes r.part h.here_ n]
    have length : (s.readPlace r.part r.place n).length = n := by rw [s.readPlace_bytes r.part h.here_ n]; simp
    have old : bytesLE n (ofBytesLE (s.readPlace r.part r.place n)) = s.readPlace r.part r.place n := by
      rw [← length]
      exact length.symm ▸ bytesLE_ofBytesLE _
    rw [old] at run
    exact ⟨_, run, h.stores _ _⟩
  · obtain ⟨answered, q⟩ := State.answer_answered h.here []  0
      { bits := .ofNat 128 (ofBytesLE (s.readPlace r.part r.place 16)), tag := s.tagAt r.part r.place }
    refine ⟨_, _, run, q.memory, answered, ?_, rfl⟩
    have small := ofBytesLE_lt (s.readPlace r.part r.place 16)
    rw [s.readPlace_bytes r.part h.here_ 16] at small ⊢
    rw [BitVec.toNat_ofNat]
    exact Nat.mod_eq_of_lt (small.trans_eq (by rw [List.length_map, List.length_range]; norm_num))

end Sys2Proof.Machine
end

section
/-! PROOFS. What the end of an access, of a binding or of anything that is waited for leaves of the state (R111, R210, R365, R372). -/

namespace Sys2Proof.Machine

/-- An entry of a table after one was put is that one or an old one. -/
theorem Tab.mem_put {α : Type} {k : Nat} {v : α} {e : Nat × α} : ∀ {t : Tab α}, e ∈ Tab.put t k v → e = (k, v) ∨ e ∈ t
  | [], h => .inl (List.mem_singleton.1 h)
  | (j, w) :: t, h => by
    simp only [Tab.put] at h
    split at h
    · exact List.mem_cons.1 h
    split at h
    · exact (List.mem_cons.1 h).imp_right (List.mem_cons_of_mem _)
    · rcases List.mem_cons.1 h with rfl | h
      · exact .inr (List.mem_cons_self ..)
      · exact (Tab.mem_put h).imp_right (List.mem_cons_of_mem _)

/-! Starting an access. -/

theorem State.linkSend_tables (s : State) (part peer vnet tile index : Nat) (slots : List Word) (wid : Nat) :
    (s.linkSend part peer vnet tile index slots wid).reqs = s.reqs ∧ (s.linkSend part peer vnet tile index slots wid).remotes = s.remotes ∧
      (s.linkSend part peer vnet tile index slots wid).tiles = s.tiles := by
  have rest := (LinkOnly.linkSend s part peer vnet tile index slots wid).rest
  exact ⟨by have e := congrArg State.reqs rest; exact e, by have e := congrArg State.remotes rest; exact e,
    by have e := congrArg State.tiles rest; exact e⟩

/-- What starting an access may change of the tables of accesses: the access itself, and a note of its tag at a peer. -/
def Started (s t : State) (id : Nat) : Prop := ∃ l, t.remotes = s.remotes ++ l ∧ ∀ x ∈ l, x.req = id

theorem Started.same {s t : State} {id : Nat} (remotes : t.remotes = s.remotes) : Started s t id :=
  ⟨[], by rw [remotes, List.append_nil], fun _ h => by cases h⟩

theorem State.sendReq_tables (s : State) (id : Nat) (r : Req) : (s.sendReq id r).reqs = s.reqs ∧ (s.sendReq id r).tiles = s.tiles ∧
    Started s (s.sendReq id r) id := by
  unfold State.sendReq
  split
  · exact ⟨rfl, rfl, .same rfl⟩
  · exact ⟨rfl, rfl, .same rfl⟩
  · next peer space addr _ =>
    obtain ⟨reqs, remotes, tiles⟩ := State.linkSend_tables { s with remotes := s.remotes ++ [Remote.mk r.tile r.tag id] } r.part peer 0
      (if space = 0 then field addr 30 20 else 0) 0 r.words (accessWid id)
    exact ⟨reqs, tiles, [Remote.mk r.tile r.tag id], remotes, fun x hx => by rw [List.mem_singleton.1 hx]⟩

/-- Starting an access changes no other. -/
theorem State.startReq_tables (s : State) (i : Nat) :
    (s.startReq i = s ∨ (Tab.look s.reqs i).isSome) ∧ ((s.startReq i).reqs = s.reqs ∨ ∃ r, (s.startReq i).reqs = Tab.put s.reqs i r) ∧
      (s.startReq i).tiles = s.tiles ∧ Started s (s.startReq i) i := by
  unfold State.startReq
  split
  · exact ⟨.inl rfl, .inl rfl, rfl, .same rfl⟩
  next r here =>
  refine ⟨.inr (by rw [here]; rfl), ?_⟩
  split
  · obtain ⟨reqs, tiles, started⟩ := s.sendReq_tables i r
    exact ⟨.inl reqs, tiles, started⟩
  split
  · exact ⟨.inr ⟨_, rfl⟩, rfl, .same rfl⟩
  split
  · exact ⟨.inr ⟨_, rfl⟩, rfl, .same rfl⟩
  · next g _ _ =>
    obtain ⟨reqs, tiles, started⟩ := State.sendReq_tables { s with reqs := Tab.put s.reqs i { r with tag := g, sent := true, words := { r with tag := g, sent := true }.wire s.ownId.toNat } } i
      { r with tag := g, sent := true, words := { r with tag := g, sent := true }.wire s.ownId.toNat }
    exact ⟨.inr ⟨_, reqs⟩, tiles, started⟩
  · exact ⟨.inr ⟨_, rfl⟩, rfl, .same rfl⟩

/-- An access that has ended stays so, and no note of its tag comes back. -/
theorem State.startReq_gone {s : State} {id : Nat} (gone : Tab.look s.reqs id = none) (i : Nat) :
    Tab.look (s.startReq i).reqs id = none ∧ ((∀ x ∈ s.remotes, x.req ≠ id) → ∀ x ∈ (s.startReq i).remotes, x.req ≠ id) := by
  obtain ⟨known, reqs, -, l, remotes, own⟩ := s.startReq_tables i
  rcases known with same | known
  · rw [same]; exact ⟨gone, fun h => h⟩
  have other : i ≠ id := by rintro rfl; rw [gone] at known; cases known
  refine ⟨?_, fun clear x hx => ?_⟩
  · rcases reqs with e | ⟨r, e⟩
    · rw [e]; exact gone
    · rw [e, Tab.look_put, if_neg other]; exact gone
  · rw [remotes] at hx
    rcases List.mem_append.1 hx with hx | hx
    · exact clear x hx
    · rw [own x hx]; exact other

theorem State.startReqs_gone {id : Nat} : ∀ (l : List Nat) (s : State), Tab.look s.reqs id = none →
    Tab.look (l.foldl State.startReq s).reqs id = none ∧
      ((∀ x ∈ s.remotes, x.req ≠ id) → ∀ x ∈ (l.foldl State.startReq s).remotes, x.req ≠ id)
  | [], _, gone => ⟨gone, fun h => h⟩
  | i :: l, s, gone => by
    obtain ⟨reqs, remotes⟩ := State.startReq_gone gone i
    obtain ⟨reqs', remotes'⟩ := State.startReqs_gone l (s.startReq i) reqs
    exact ⟨reqs', fun clear => remotes' (remotes clear)⟩

theorem State.startReqs_tiles : ∀ (l : List Nat) (s : State), (l.foldl State.startReq s).tiles = s.tiles
  | [], _ => rfl
  | i :: l, s => (State.startReqs_tiles l (s.startReq i)).trans (s.startReq_tables i).2.2.1

/-! What is no longer waited for. -/

/-- The process waits for number `id` no longer. -/
def Proc.letGo (p : Proc) (id : Nat) : Proc :=
  { p with hold := p.hold.filter (· ≠ id), fills := p.fills.filter fun e => decide (e.2 ≠ id),
           strip := p.strip.map fun k => { k with loads := k.loads.filter (· ≠ id) } }
/-- Nothing waits for number `id` any longer; what becomes free has not started yet. -/
def State.letGo (s : State) (id : Nat) : State :=
  { s with
    procs := Tab.mapV (fun _ p => p.letGo id) s.procs
    staged := s.staged.map fun m => { m with after := m.after.filter (· ≠ id) }
    binds := Tab.mapV (fun _ b => { b with after := b.after.filter (· ≠ id) }) s.binds
    tiles := Tab.mapV (fun _ t => { t with frecs := t.frecs.map fun f => { f with after := f.after.filter (· ≠ id) } }) s.tiles
    reqs := Tab.mapV (fun _ r => { r with after := r.after.filter (· ≠ id) }) s.reqs }
/-- The accesses that wait for number `id` alone. -/
def State.waitersOf (s : State) (id : Nat) : List Nat :=
  (s.reqs.filter fun e => e.2.after.contains id && e.2.after.all (· == id) && !e.2.performed).map fun e => e.1

theorem State.doneId_eq (s : State) (id : Nat) : s.doneId id = (s.waitersOf id).foldl State.startReq (s.letGo id) := rfl

/-- With no message staged, the end of a number starts what waited for it alone, and nothing else. -/
theorem State.finish_eq {s : State} (staged : s.staged = []) (id : Nat) : s.finish id = (s.waitersOf id).foldl State.startReq (s.letGo id) := by
  have q : Quiet (s.letGo id) ((s.waitersOf id).foldl State.startReq (s.letGo id)) := Quiet.foldl _ _ (fun s i => Quiet.startReq s i) _
  have same : ((s.waitersOf id).foldl State.startReq (s.letGo id)).staged = (s.letGo id).staged := by
    have e := congrArg State.staged q.still
    exact e
  have empty : (s.letGo id).staged = [] := by
    show s.staged.map _ = []
    rw [staged]; rfl
  rw [State.finish, State.doneId_eq, State.injectAll_none _ (same.trans empty)]

theorem State.letGo_proc (s : State) (id h : Nat) : (s.letGo id).proc h = (s.proc h).letGo id :=
  Tab.lookD_mapV (fun p : Proc => p.letGo id) s.procs h {} rfl
theorem State.letGo_tile (s : State) (id n : Nat) :
    (s.letGo id).tile n = { s.tile n with frecs := (s.tile n).frecs.map fun f => { f with after := f.after.filter (· ≠ id) } } :=
  Tab.lookD_mapV (fun t : Tile => { t with frecs := t.frecs.map fun f => { f with after := f.after.filter (· ≠ id) } }) s.tiles n {} rfl

/-- Number `id` has ended, where no message was staged. -/
structure Ended (s t : State) (id : Nat) : Prop where
  memory : SameMemory s t
  procs : ∀ h, (t.proc h).core = ((s.proc h).letGo id).core
  pst : ∀ h, (t.proc h).pst = (s.proc h).pst ∨ ∃ c, (s.proc h).pst = .blockedWrite c ∧ (t.proc h).pst = .ready
  frecs : ∀ n, (t.tile n).frecs = (s.tile n).frecs.map fun f => { f with after := f.after.filter (· ≠ id) }
  cb : ∀ n, (t.tile n).cb = (s.tile n).cb
  reqs : Tab.look s.reqs id = none → Tab.look t.reqs id = none
  remotes : Tab.look s.reqs id = none → (∀ x ∈ s.remotes, x.req ≠ id) → ∀ x ∈ t.remotes, x.req ≠ id

theorem State.finish_ended {s : State} (staged : s.staged = []) (id : Nat) : Ended s (s.finish id) id := by
  have q : Quiet (s.letGo id) ((s.waitersOf id).foldl State.startReq (s.letGo id)) := Quiet.foldl _ _ (fun s i => Quiet.startReq s i) _
  have memory : SameMemory s (s.letGo id) := .of_tables rfl rfl rfl rfl rfl fun _ => rfl
  have gone (none_ : Tab.look s.reqs id = none) : Tab.look (s.letGo id).reqs id = none := by
    have after := Tab.look_mapV (fun _ (r : Req) => { r with after := r.after.filter (· ≠ id) }) id s.reqs
    rw [none_] at after
    exact after
  rw [State.finish_eq staged]
  refine ⟨memory.trans q.memory, fun h => ?_, fun h => ?_, fun n => ?_, fun n => ?_, fun none_ => (State.startReqs_gone _ _ (gone none_)).1,
    fun none_ => (State.startReqs_gone _ _ (gone none_)).2⟩
  · rw [q.procs h, State.letGo_proc]
  · have pst := q.pst h
    rw [State.letGo_proc] at pst
    exact pst
  · have frecs := congrArg Tile.frecs (q.tiles n)
    exact frecs.trans (congrArg Tile.frecs (State.letGo_tile s id n))
  · unfold State.tile
    rw [State.startReqs_tiles]
    have cb := congrArg Tile.cb (State.letGo_tile s id n)
    exact cb

/-- Registers and pending registers are as before. -/
theorem Ended.regs {s t : State} {id : Nat} (e : Ended s t id) (h : Nat) :
    (∀ x, (t.proc h).reg x = (s.proc h).reg x) ∧ (∀ x, (t.proc h).isPending x = (s.proc h).isPending x) ∧ (t.proc h).pc = (s.proc h).pc ∧
      (t.proc h).tile = (s.proc h).tile ∧ (t.proc h).part = (s.proc h).part ∧ (t.proc h).strip = ((s.proc h).letGo id).strip ∧
      (t.proc h).hold = (s.proc h).hold.filter (· ≠ id) := by
  have core {α : Type} (g : Proc → α) : g (t.proc h).core = g ((s.proc h).letGo id).core := congrArg g (e.procs h)
  have sregs : (t.proc h).sregs = (s.proc h).sregs := core Proc.sregs
  have pend : (t.proc h).pend = (s.proc h).pend := core Proc.pend
  exact ⟨fun x => Proc.reg_congr sregs x, fun x => by unfold Proc.isPending; rw [pend], core Proc.pc, core Proc.tile,
    core Proc.part, core Proc.strip, core Proc.hold⟩

end Sys2Proof.Machine
end

section
/-! PROOFS. Replies at the memory port, and the combining buffer's idle drain (R97, R117, R233, R299, R419, R433). -/

namespace Sys2Proof.Machine

/-- An access that has been answered is taken off the list. -/
def State.taken (s : State) (id : Nat) : State := { s with reqs := Tab.cut s.reqs id }
theorem State.taken_gone (s : State) (id : Nat) : Tab.look (s.taken id).reqs id = none := by
  show Tab.look (Tab.cut s.reqs id) id = none
  rw [Tab.look_cut, if_pos rfl]
theorem State.taken_memory (s : State) (id : Nat) : SameMemory s (s.taken id) := .of_tables rfl rfl rfl rfl rfl fun _ => rfl

/-- A wake-up leaves the accesses and the messages. -/
theorem State.wake_tables (s : State) (h : Nat) (st : PState) :
    (s.wake h st).reqs = s.reqs ∧ (s.wake h st).staged = s.staged ∧ (s.wake h st).remotes = s.remotes := by
  unfold State.wake; split <;> exact ⟨rfl, rfl, rfl⟩
theorem State.land_tables (s : State) (h r : Nat) (v : Word) :
    (s.land h r v).reqs = s.reqs ∧ (s.land h r v).staged = s.staged ∧ (s.land h r v).remotes = s.remotes := by
  rw [State.land_eq]
  exact State.wake_tables _ _ _
theorem State.unpend_tables (s : State) (h r : Nat) :
    (s.unpend h r).reqs = s.reqs ∧ (s.unpend h r).staged = s.staged ∧ (s.unpend h r).remotes = s.remotes := State.wake_tables _ _ _

/-- Landing in another register leaves a register (R31). -/
theorem Proc.landed_reg_other (p : Proc) {r x : Nat} (v : Word) (other : x ≠ r) : (p.landed r v).reg x = p.reg x := by
  have same : (p.landed r v).reg x = (p.setReg r v).reg x := rfl
  rw [same, Proc.reg_setReg, if_neg (fun h => other h.1.symm)]

/-! A reply that completes its access. -/

/-- The reply to a load brings its value into its register (R97, R419). -/
structure ValueLanded (s t : State) (id h d : Nat) (v : Word) : Prop where
  value : (t.proc h).reg d = v
  done : (t.proc h).isPending d = false
  others : ∀ x, x ≠ d → (t.proc h).reg x = (s.proc h).reg x
  gone : Tab.look t.reqs id = none
  memory : SameMemory s t
  wakes : (s.proc h).pst = .blockedToken d → (t.proc h).pst = .ready
  remotes : (∀ x ∈ s.remotes, x.req ≠ id) → ∀ x ∈ t.remotes, x.req ≠ id

theorem State.reply_scalar {s : State} {id d n : Nat} {r : Req} (here : Tab.look s.reqs id = some r) (live : r.dropped = false) (fwd : r.fwd = [])
    (staged : s.staged = []) (dest : r.dest = .scalar d n) (d0 : d ≠ 0) (err : r.err = 0) (res : (s.proc r.h).res = .resident) :
    ValueLanded s (s.reply id) id r.h d (sext64 (8 * n) (ofBytesLE r.data)) := by
  have run : s.reply id = ((s.taken id).land r.h d (sext64 (8 * n) (ofBytesLE r.data))).finish id := by
    unfold State.reply
    simp only [here, live, Bool.false_eq_true, if_false, dest, err, if_true, if_neg d0, fwd, overlay_nil]
    rw [State.deliver_resident (s := { s with reqs := Tab.cut s.reqs id }) res]
    rfl
  obtain ⟨reqs, messages, remotes⟩ := State.land_tables (s.taken id) r.h d (sext64 (8 * n) (ofBytesLE r.data))
  have ended := State.finish_ended (messages.trans staged) id
  have gone := ended.reqs (by rw [reqs]; exact s.taken_gone id)
  obtain ⟨a, b, c, proc⟩ := State.land_proc (s.taken id) r.h d (sext64 (8 * n) (ofBytesLE r.data))
  have memory := (s.taken_memory id).trans (State.land_memory (s.taken id) r.h d (sext64 (8 * n) (ofBytesLE r.data)))
  have wakes (waits : (s.proc r.h).pst = .blockedToken d) := State.land_wakes (s := s.taken id) (v := sext64 (8 * n) (ofBytesLE r.data)) waits
  rw [run]
  generalize (s.taken id).land r.h d (sext64 (8 * n) (ofBytesLE r.data)) = u at *
  obtain ⟨regs, pending, -⟩ := ended.regs r.h
  refine ⟨?_, ?_, fun x other => ?_, gone, memory.trans ended.memory, fun waits => ?_, fun clear => ?_⟩
  · rw [regs, proc]
    exact Proc.landed_reg (s.proc r.h) (sext64 (8 * n) (ofBytesLE r.data)) d0
  · rw [pending, proc]
    exact Proc.landed_isPending (s.proc r.h) d (sext64 (8 * n) (ofBytesLE r.data))
  · rw [regs, proc]
    exact Proc.landed_reg_other (s.proc r.h) (sext64 (8 * n) (ofBytesLE r.data)) other
  · rcases ended.pst r.h with same | ⟨c, blocked, -⟩
    · rw [same, wakes waits]
    · rw [wakes waits] at blocked; cases blocked
  · refine ended.remotes (by rw [reqs]; exact s.taken_gone id) ?_
    rw [remotes]
    exact clear

/-- The reply to an access without a result: nothing waits for it any longer (R419). -/
theorem State.reply_none {s : State} {id : Nat} {r : Req} (here : Tab.look s.reqs id = some r) (live : r.dropped = false) (staged : s.staged = [])
    (dest : r.dest = .none) (err : r.err = 0) :
    Tab.look (s.reply id).reqs id = none ∧ id ∉ ((s.reply id).proc r.h).hold ∧ SameMemory s (s.reply id) := by
  have run : s.reply id = (s.taken id).finish id := by
    unfold State.reply
    simp only [here, live, Bool.false_eq_true, if_false, dest, err, if_true]
    rfl
  have ended := State.finish_ended (s := s.taken id) staged id
  obtain ⟨-, -, -, -, -, -, hold⟩ := ended.regs r.h
  rw [run]
  refine ⟨ended.reqs (s.taken_gone id), ?_, (s.taken_memory id).trans ended.memory⟩
  rw [hold]
  simp

/-! A reply that reports a dropped store (R233, R299). -/

theorem State.hbmStore_tables (s : State) (part k : Nat) (bs : List WByte) :
    (s.hbmStore part k bs).cycle = s.cycle ∧ (s.hbmStore part k bs).staged = s.staged ∧ (s.hbmStore part k bs).reqs = s.reqs := by
  have rest := State.hbmStore_rest part k bs s
  exact ⟨by have e := congrArg State.cycle rest; exact e, by have e := congrArg State.staged rest; exact e, s.hbmStore_reqs part k bs⟩
theorem State.noteFrec_tables (s : State) (h : Nat) (w : Word) :
    (s.noteFrec h w).cycle = s.cycle ∧ (s.noteFrec h w).staged = s.staged ∧ (s.noteFrec h w).reqs = s.reqs := by
  unfold State.noteFrec
  dsimp only
  split
  · exact State.hbmStore_tables ..
  · exact ⟨rfl, rfl, rfl⟩

/-- A record of dropped stores stands behind the tile's records. -/
theorem State.queueRecord_drop (s : State) (t : Nat) {f : FRec} {h : Nat} (kind : f.kind = .drop h) :
    (∃ g ∈ ((s.queueRecord t f).tile t).frecs, g.kind = .drop h ∧ g.slots = f.slots) ∧ (s.queueRecord t f).staged = s.staged ∧
      (s.queueRecord t f).reqs = s.reqs := by
  obtain ⟨cycle, staged, reqs⟩ := s.noteFrec_tables (wfield (f.slots.headD 0) 63 32) (f.slots.headD 0)
  unfold State.queueRecord
  simp only [kind]
  generalize s.noteFrec _ _ = u at cycle staged reqs
  rw [← staged, ← reqs]
  have queued : ∃ g ∈ ((u.updTile t fun x => { x with frecs := x.frecs ++ [{ f with kind := .drop h, at_ := u.cycle }] }).tile t).frecs,
      g.kind = .drop h ∧ g.slots = f.slots := by
    rw [State.updTile_tile, if_pos rfl]
    exact ⟨_, List.mem_append_right _ (List.mem_singleton.2 rfl), rfl, rfl⟩
  split
  · exact ⟨queued, rfl, rfl⟩
  · exact ⟨queued, rfl, rfl⟩

/-- The reply to a store that failed is reported (R299). -/
theorem State.reply_dropped {s : State} {id : Nat} {r : Req} (here : Tab.look s.reqs id = some r) (live : r.dropped = false) (staged : s.staged = [])
    (dest : r.dest = .none) (err : r.err ≠ 0) (first : (s.tile r.tile).frecs = []) :
    Tab.look (s.reply id).reqs id = none ∧ ∃ f ∈ ((s.reply id).tile r.tile).frecs, f.kind = .drop r.h ∧
      (f.slots.headD 0).toNat % 256 = (errCause r.typ r.err).code ∧ f.slots.getD 4 0 = .ofNat 64 r.addr := by
  have run : s.reply id = ((s.taken id).dropRecord r (errCause r.typ r.err)).finish id := by
    unfold State.reply
    simp only [here, live, Bool.false_eq_true, if_false, dest, err]
    rfl
  have none_ : ((s.taken id).tile r.tile).frecs = [] := first
  have record : (s.taken id).dropRecord r (errCause r.typ r.err) = (s.taken id).queueRecord r.tile
      { kind := .drop r.h, part := r.part, firmware := decide (1 ≤ ((s.taken id).proc r.h).pl),
        slots := [recSlot0 r.h (r.opcode % 64) 0 false 0 (errCause r.typ r.err).code, BitVec.ofNat 64 r.pc.toNat, 1, 0, BitVec.ofNat 64 r.addr, 0, 0, 0] } := by
    unfold State.dropRecord
    simp only [none_, List.find?_nil]
  obtain ⟨⟨g, queued, kind, slots⟩, messages, reqs⟩ := State.queueRecord_drop (s.taken id) r.tile (f :=
      { kind := .drop r.h, part := r.part, firmware := decide (1 ≤ ((s.taken id).proc r.h).pl),
        slots := [recSlot0 r.h (r.opcode % 64) 0 false 0 (errCause r.typ r.err).code, BitVec.ofNat 64 r.pc.toNat, 1, 0, BitVec.ofNat 64 r.addr, 0, 0, 0] }) rfl
  rw [run, record]
  have ended := State.finish_ended (messages.trans staged) id
  refine ⟨ended.reqs (by rw [reqs]; exact s.taken_gone id), { g with after := g.after.filter (· ≠ id) }, ?_, kind, ?_, ?_⟩
  · rw [ended.frecs]
    exact List.mem_map.2 ⟨g, queued, rfl⟩
  · show (g.slots.headD 0).toNat % 256 = _
    rw [slots]
    exact recSlot0_cause _ _ _ _ _ _
  · show g.slots.getD 4 0 = _
    rw [slots]
    rfl

/-! A reply that fails, of a load whose process runs on (R433). -/

/-- Parking a process (R231). -/
theorem State.park_proc (s : State) (h : Nat) (slots : List Word) (epc : BitVec 48) (cls : FClass) (fpc : BitVec 48) :
    ∃ u, Quiet s u ∧ (s.park h slots epc cls fpc).proc h = { (u.proc h).enter .parkedFault u.cycle with
      epc := epc, fclass := cls, fpc := fpc, frec := slots.headD 0, need := 0, hold := [], passes := none } := by
  have q := Quiet.release s h
  generalize released : s.release h = x at q
  obtain ⟨u, ids⟩ := x
  refine ⟨u, q, ?_⟩
  rw [State.park_eq s u ids h slots epc cls fpc released, State.failRun_proc, State.queueRecord_proc _ _ _ _ (h := h) rfl, State.parkProc_proc]

/-- A failing reply at an instruction boundary parks its process, whose open strip stays open (R433). -/
structure ParkedLate (s t : State) (r : Req) (d : Nat) : Prop where
  parked : (t.proc r.h).pst = .parkedFault
  cls : (t.proc r.h).fclass = .deferred
  cause : (t.proc r.h).frec.toNat % 256 = (errCause r.typ r.err).code
  handle : (t.proc r.h).frec.toNat / 2 ^ 32 = r.h % 2 ^ 32
  fpc : (t.proc r.h).fpc = r.pc
  pc : (t.proc r.h).pc = (s.proc r.h).pc
  regs : ∀ x, (t.proc r.h).reg x = (s.proc r.h).reg x
  done : (t.proc r.h).isPending d = false
  strip : ((t.proc r.h).strip.map fun k => (k.pc, k.held)) = ((s.proc r.h).strip.map fun k => (k.pc, k.held))

theorem State.deferredPark_parked {s u : State} {id d : Nat} (r : Req) (ended : Ended s u id) :
    ParkedLate s (u.deferredPark r d (errCause r.typ r.err)) r d := by
  obtain ⟨regs, -, pc, -, -, strip, -⟩ := ended.regs r.h
  obtain ⟨a, b, c, proc⟩ := u.unpend_proc r.h d
  obtain ⟨w, q, parked⟩ := State.park_proc (u.unpend r.h d) r.h
    (recordOf r.h r.opcode (errCause r.typ r.err) ((u.unpend r.h d).replyInfo r false) r.pc r.pc) ((u.unpend r.h d).proc r.h).pc .deferred r.pc
  have core {α : Type} (g : Proc → α) : g (w.proc r.h).core = g ((u.unpend r.h d).proc r.h).core := congrArg g (q.procs r.h)
  have freed {α : Type} (g : Proc → α) : g ((u.unpend r.h d).proc r.h) = g { u.proc r.h with
      pend := Tab.cut (u.proc r.h).pend d, strip := (u.proc r.h).strip.map fun k => { k with pend := Tab.cut k.pend d }, pst := a, epoch := b, since := c } :=
    congrArg g proc
  obtain ⟨dt, more, n, small, head⟩ := recordOf_head r.h r.opcode (errCause r.typ r.err) ((u.unpend r.h d).replyInfo r false) r.pc r.pc
  have run : u.deferredPark r d (errCause r.typ r.err) = (u.unpend r.h d).park r.h
    (recordOf r.h r.opcode (errCause r.typ r.err) ((u.unpend r.h d).replyInfo r false) r.pc r.pc) ((u.unpend r.h d).proc r.h).pc .deferred r.pc := rfl
  rw [run]
  refine ⟨by rw [parked]; rfl, by rw [parked], ?_, ?_, by rw [parked], ?_, fun x => ?_, ?_, ?_⟩
  · rw [parked, head]; exact recSlot0_cause _ _ _ _ _ _
  · rw [parked, head]; exact recSlot0_handle _ _ _ _ _ _ (by omega) small
  · rw [parked]
    exact (core Proc.pc).trans ((freed Proc.pc).trans pc)
  · rw [parked]
    have sregs : (w.proc r.h).sregs = (u.proc r.h).sregs := (core Proc.sregs).trans (freed Proc.sregs)
    exact (Proc.reg_congr sregs x).trans (regs x)
  · rw [parked]
    have pend : (w.proc r.h).pend = Tab.cut (u.proc r.h).pend d := (core Proc.pend).trans (freed Proc.pend)
    simp [Proc.isPending, Proc.enter, pend, Tab.look_cut]
  · rw [parked]
    have open_ : (w.proc r.h).strip = (u.proc r.h).strip.map fun k => { k with pend := Tab.cut k.pend d } := (core Proc.strip).trans (freed Proc.strip)
    have held : ((w.proc r.h).strip.map fun k => (k.pc, k.held)) = ((s.proc r.h).strip.map fun k => (k.pc, k.held)) := by
      rw [open_, strip, Proc.letGo, Option.map_map, Option.map_map]
      rfl
    exact held

/-- A process that runs on is not away from its replies. -/
theorem State.reply_failed {s : State} {id d n : Nat} {r : Req} (here : Tab.look s.reqs id = some r) (live : r.dropped = false)
    (dest : r.dest = .scalar d n) (err : r.err ≠ 0) (own : r.strip = false) (ready : (s.proc r.h).pst = .ready) (res : (s.proc r.h).res = .resident) :
    s.reply id = if s.atBoundary r.h then ((s.taken id).finish id).deferredPark r d (errCause r.typ r.err)
      else (s.unsend id).afterCycles 1 (.memoryReply id) := by
  unfold State.reply
  simp only [here, live, Bool.false_eq_true, if_false, dest, err, own, ready, res, reduceCtorEq]
  rfl

theorem State.unsend_unsent {s : State} {id : Nat} {r : Req} (here : Tab.look s.reqs id = some r) (sent : r.sent = false) : s.unsend id = s := by
  unfold State.unsend
  simp only [here, sent, Bool.false_eq_true, if_false]

/-- The reply comes again at the process's next boundary; until then its tag is free (R419, R433). -/
theorem State.unsend_free {s : State} {id : Nat} {r : Req} (here : Tab.look s.reqs id = some r) (alone : ∀ e ∈ s.reqs, id ∉ e.2.after) :
    (∀ h, (s.unsend id).proc h = s.proc h) ∧ (s.unsend id).cycle = s.cycle ∧ SameMemory s (s.unsend id) ∧
      ∃ q, Tab.look (s.unsend id).reqs id = some q ∧ q.sent = false ∧ q.err = r.err := by
  cases sent : r.sent with
  | false => rw [State.unsend_unsent here sent]; exact ⟨fun _ => rfl, rfl, .refl s, r, here, sent, rfl⟩
  | true =>
    unfold State.unsend
    simp only [here, sent]
    have nobody : State.waitersOf { s with reqs := Tab.put s.reqs id { r with sent := false } } id = [] := by
      have none_ : ∀ e ∈ Tab.put s.reqs id { r with sent := false }, e.2.after.contains id = false := by
        intro e he
        rcases Tab.mem_put he with rfl | old
        · simpa using alone (id, r) (Tab.mem_of_look here)
        · simpa using alone e old
      unfold State.waitersOf
      rw [List.filter_eq_nil_iff.2, List.map_nil]
      intro e he
      rw [none_ e he]
      simp
    have run : State.freeReqs { s with reqs := Tab.put s.reqs id { r with sent := false } } id =
        { s with reqs := Tab.mapV (fun _ q => { q with after := q.after.filter (· ≠ id) }) (Tab.put s.reqs id { r with sent := false }) } := by
      show List.foldl _ _ (State.waitersOf _ id) = _
      rw [nobody]
      rfl
    rw [if_pos trivial, run]
    refine ⟨fun _ => rfl, rfl, .of_tables rfl rfl rfl rfl rfl fun _ => rfl, { r with sent := false, after := r.after.filter (· ≠ id) }, ?_, rfl, rfl⟩
    have after := Tab.look_mapV (fun _ (q : Req) => { q with after := q.after.filter (· ≠ id) }) id (Tab.put s.reqs id { r with sent := false })
    rw [Tab.look_put, if_pos rfl] at after
    exact after

/-! The combining buffer. -/

/-- An access to this package's slices starts there at once (R105). -/
theorem State.startReq_slice {s : State} {id k : Nat} {net : Bool} {r : Req} (here : Tab.look s.reqs id = some r) (place : r.place = .sram k net) :
    s.startReq id = s.later (.globalSramAccess id) := by
  unfold State.startReq
  simp only [here]
  split
  · unfold State.sendReq
    simp only [place]
  · next other => exact absurd place (other k net)

/-- An access to this package's slices that waits for nothing starts, and one that waits is listed (R105). -/
theorem State.send_slice (s : State) {r : Req} {k : Nat} {net : Bool} (place : r.place = .sram k net) :
    (∃ x ∈ (s.send r).1.reqs, x.2.h = r.h ∧ x.2.op = r.op) ∧ (s.send r).1.tiles = s.tiles := by
  have listed (u : State) (l : List Nat) : Tab.look (Tab.put u.reqs s.fresh.2 { r with after := l }) s.fresh.2 = some { r with after := l } := Tab.look_put_same ..
  unfold State.send
  simp only
  split
  · rw [State.startReq_slice (r := { r with after := r.after ++ s.fresh.1.reqOrder r }) (listed s.fresh.1 _) place]
    exact ⟨⟨_, Tab.mem_of_look (listed s.fresh.1 _), rfl, rfl⟩, rfl⟩
  · exact ⟨⟨_, Tab.mem_of_look (listed s.fresh.1 _), rfl, rfl⟩, rfl⟩

/-- An entry for a slice drains as one write of its bytes (R117). -/
theorem State.cbDrain_slice {s : State} {t n k : Nat} {net : Bool} {e : CbEntry} (entry : Tab.look (s.tile t).cb n = some e) (block : e.block = .sram k net) :
    Tab.look ((s.cbDrain t n).1.tile t).cb n = none ∧
      ∃ x ∈ (s.cbDrain t n).1.reqs, x.2.h = e.h ∧ ∃ bs, x.2.op = .write bs ∧ bs.length = (sortBytes e.bs).length := by
  have one : e.writes = [sortBytes e.bs] := by simp only [CbEntry.writes, block]
  have place (o : Nat) : e.block.plus o = .sram (k + o) net := by rw [block]; rfl
  have cleared : Tab.look (((s.updTile t fun x => { x with cb := Tab.cut x.cb n }).cancel (.cbIdleDrain t n)).tile t).cb n = none := by
    rw [State.cancel_tile, State.updTile_tile, if_pos rfl]
    show Tab.look (Tab.cut (s.tile t).cb n) n = none
    rw [Tab.look_cut, if_pos rfl]
  unfold State.cbDrain
  simp only [entry, one, List.foldl_cons, List.foldl_nil]
  generalize (s.updTile t fun x => { x with cb := Tab.cut x.cb n }).cancel (.cbIdleDrain t n) = u at cleared
  obtain ⟨⟨x, listed, own, op⟩, tiles⟩ := u.send_slice (r := (u.proc e.h).req e.h e.typ (e.block.plus (rebase (sortBytes e.bs)).1)
    (e.addrOf (rebase (sortBytes e.bs)).1) (.write (rebase (sortBytes e.bs)).2) .none (e.youngest (sortBytes e.bs)).1 (e.youngest (sortBytes e.bs)).2) (place _)
  refine ⟨?_, x, listed, own, _, op, ?_⟩
  · unfold State.tile at cleared ⊢
    rw [tiles]
    exact cleared
  · exact List.length_map _

end Sys2Proof.Machine
end

section
/-! PROOFS. O46: accesses at their home, their replies, and the combining buffer. -/

namespace Sys2Proof.Machine

/-- O46, an access that its home cannot serve. -/
theorem homes_refuse (s : State) (i : Instr) (id : Nat) (r : Req)
    (home : i = .mempipeRead id ∨ i = .mempipeWrite id ∨ i = .dramAtomic id ∨ i = .globalSramAccess id)
    (here : Tab.look s.reqs id = some r) (performed : r.performed = false) (err : r.err = 0) (dropped : r.dropped = false) :
    (∀ k net, r.place = .sram k net → s.isWithdrawn k r.op.span = true → ∃ t, exec i s = .next t ∧ SameMemory s t ∧ Answered t id r [] 2 {}) ∧
    (∀ k va, r.place = .dram k va → (s.part r.part).key.full = false → ∃ t, exec i s = .next t ∧ SameMemory s t ∧ Answered t id r [] 4 {}) ∧
    (∀ k va n, r.place = .dram k va → (s.part r.part).key.full = true → r.op = .read n → s.hbmFails k n = true →
      ∃ t, exec i s = .next t ∧ Answered t id r [] 2 {}) := by
  obtain ⟨withdrawn, keyless, uncorrectable⟩ := State.perform_refused here performed err dropped
  rw [exec_home home]
  refine ⟨fun k net place bad => ?_, fun k va place key => ?_, fun k va n place key op bad => ?_⟩
  · obtain ⟨answered, q⟩ := State.answer_answered here [] 2 {}
    exact ⟨_, by rw [withdrawn k net place bad], q.memory, answered⟩
  · obtain ⟨answered, q⟩ := State.answer_answered here [] 4 {}
    exact ⟨_, by rw [keyless k va place key], q.memory, answered⟩
  · obtain ⟨u, reqs, run⟩ := uncorrectable k va n place key op bad
    exact ⟨_, by rw [run], (State.answer_answered (reqs ▸ here) [] 2 {}).1⟩

/-- O46, a failing reply that meets its process outside an instruction boundary. -/
theorem reply_waits (s : State) {id d n : Nat} {r : Req} (here : Tab.look s.reqs id = some r) (live : r.dropped = false) (dest : r.dest = .scalar d n)
    (err : r.err ≠ 0) (own : r.strip = false) (ready : (s.proc r.h).pst = .ready) (res : (s.proc r.h).res = .resident) (mid : s.atBoundary r.h = false) :
    (r.sent = false → exec (.memoryReply id) s = .next (s.afterCycles 1 (.memoryReply id))) ∧
    ((∀ e ∈ s.reqs, id ∉ e.2.after) → ∃ t, exec (.memoryReply id) s = .next t ∧ (∀ h, t.proc h = s.proc h) ∧
      (s.cycle + 1, .memoryReply id) ∈ t.events ∧ SameMemory s t ∧ ∃ q, Tab.look t.reqs id = some q ∧ q.sent = false ∧ q.err = r.err) := by
  have run : exec (.memoryReply id) s = .next ((s.unsend id).afterCycles 1 (.memoryReply id)) := by
    show execMemoryReply id s = _
    unfold execMemoryReply
    rw [State.reply_failed here live dest err own ready res, if_neg (by rw [mid]; exact Bool.false_ne_true)]
  refine ⟨fun unsent => by rw [run, State.unsend_unsent here unsent], fun alone => ?_⟩
  obtain ⟨procs, cycle, memory, waits⟩ := State.unsend_free here alone
  refine ⟨_, run, procs, ?_, memory.trans (.of_tables rfl rfl rfl rfl rfl fun _ => rfl), waits⟩
  rw [← cycle]
  exact mem_insertDue _ _ _

/-- O46, the replies. -/
theorem replies_complete (s : State) (id : Nat) (r : Req) (here : Tab.look s.reqs id = some r) (live : r.dropped = false) (fwd : r.fwd = [])
    (staged : s.staged = []) :
    (∀ d n, r.dest = .scalar d n → d ≠ 0 → r.err = 0 → (s.proc r.h).res = .resident →
      ∃ t, exec (.memoryReply id) s = .next t ∧ (t.proc r.h).reg d = sext64 (8 * n) (ofBytesLE r.data) ∧ (t.proc r.h).isPending d = false ∧
        (∀ x, x ≠ d → (t.proc r.h).reg x = (s.proc r.h).reg x) ∧ Tab.look t.reqs id = none ∧ SameMemory s t ∧
        ((s.proc r.h).pst = .blockedToken d → (t.proc r.h).pst = .ready)) ∧
    (r.dest = .none → r.err = 0 → ∃ t, exec (.memoryReply id) s = .next t ∧ Tab.look t.reqs id = none ∧ id ∉ (t.proc r.h).hold ∧ SameMemory s t) ∧
    (r.dest = .none → r.err ≠ 0 → (s.tile r.tile).frecs = [] →
      ∃ t, exec (.memoryReply id) s = .next t ∧ Tab.look t.reqs id = none ∧ ∃ f ∈ (t.tile r.tile).frecs, f.kind = .drop r.h ∧
        (f.slots.headD 0).toNat % 256 = (errCause r.typ r.err).code ∧ (f.slots.getD 4 0) = .ofNat 64 r.addr) := by
  refine ⟨fun d n dest d0 err res => ?_, fun dest err => ⟨_, rfl, State.reply_none here live staged dest err⟩,
    fun dest err first => ⟨_, rfl, State.reply_dropped here live staged dest err first⟩⟩
  obtain ⟨value, done, others, gone, memory, wakes, -⟩ := State.reply_scalar here live fwd staged dest d0 err res
  exact ⟨_, rfl, value, done, others, gone, memory, wakes⟩

/-- O46, a failing reply at an instruction boundary. -/
theorem reply_parks (s : State) {id d n : Nat} {r : Req} (here : Tab.look s.reqs id = some r) (live : r.dropped = false) (staged : s.staged = [])
    (dest : r.dest = .scalar d n) (err : r.err ≠ 0) (own : r.strip = false) (ready : (s.proc r.h).pst = .ready) (res : (s.proc r.h).res = .resident)
    (boundary : s.atBoundary r.h = true) : ∃ t, exec (.memoryReply id) s = .next t ∧ ParkedLate s t r d := by
  refine ⟨_, rfl, ?_⟩
  rw [State.reply_failed here live dest err own ready res, if_pos boundary]
  obtain ⟨parked, cls, cause, handle, fpc, pc, regs, done, strip⟩ :=
    State.deferredPark_parked (d := d) r (State.finish_ended (s := s.taken id) staged id)
  exact ⟨parked, cls, cause, handle, fpc, pc, regs, done, strip⟩

/-- O46, the combining buffer. -/
theorem cbIdle_drains (s : State) (tile n k : Nat) (net : Bool) (e : CbEntry) (entry : Tab.look (s.tile tile).cb n = some e) (block : e.block = .sram k net) :
    (e.last + 64 ≤ s.cycle → ∃ t, exec (.cbIdleDrain tile n) s = .next t ∧ Tab.look (t.tile tile).cb n = none ∧ SameMemory s t ∧
      ∃ x ∈ t.reqs, x.2.h = e.h ∧ ∃ bs, x.2.op = .write bs ∧ bs.length = (sortBytes e.bs).length) ∧
    (s.cycle < e.last + 64 → exec (.cbIdleDrain tile n) s = .next s) := by
  have run : exec (.cbIdleDrain tile n) s = .next (if e.last + 64 ≤ s.cycle then (s.cbDrain tile n).1 else s) := by
    show execCbIdleDrain tile n s = _
    unfold execCbIdleDrain
    rw [entry]
  rw [run]
  refine ⟨fun idle => ?_, fun busy => by rw [if_neg (by omega)]⟩
  obtain ⟨cleared, sent⟩ := State.cbDrain_slice entry block
  exact ⟨_, by rw [if_pos idle], cleared, (Quiet.cbDrain s tile n).memory, sent⟩

/-- Settles O46: an access performs at its home and is answered, the answer completes it or parks its process, an idle entry drains. -/
theorem memoryEvents : Obligations.MemoryEvents := by
  unfold Obligations.MemoryEvents
  refine ⟨fun s i id r home => ⟨fun h => ?_, homes_refuse s i id r home⟩, fun s id r here live fwd staged => ?_, cbIdle_drains⟩
  · obtain ⟨read, write, atomic, capRead⟩ := homes_serve s i id r home h
    refine ⟨read, write, atomic, fun op => ?_⟩
    obtain ⟨t, c, run, memory, answered, bits, tag⟩ := capRead op
    refine ⟨t, c, run, memory, answered, bits, tag.trans ?_⟩
    cases r.place <;> rfl
  · obtain ⟨value, done, dropped⟩ := replies_complete s id r here live fwd staged
    refine ⟨value, done, dropped, fun d n dest err own ready res mid => reply_waits s here live dest err own ready res mid,
      fun d n dest d0 err own ready boundary res cb small => ?_⟩
    obtain ⟨t, run, parked, cls, cause, handle, fpc, pc, regs, done, strip⟩ := reply_parks s here live staged dest err own ready res boundary
    exact ⟨t, run, parked, cls, cause, by rw [handle, Nat.mod_eq_of_lt small], fpc, pc, regs, done, strip⟩

end Sys2Proof.Machine
end

section
/-! PROOFS. What a link sends when a message joins those in line (R200, R201, R209, R257). -/

namespace Sys2Proof.Machine

/-! Which way a message goes. -/

/-- What decides on the way of a message: links, lanes, the route tables, keys and the package's id. -/
def State.roads (s : State) : State :=
  { State.reset with links := s.links, lanes := s.lanes, routes := s.routes, directPeers := s.directPeers, ownId := s.ownId, parts := s.parts }
theorem RemoteTold.roads (s t : State) (part : Nat) (x : RReq) (err : Nat) (data : List Byte) :
    RemoteTold s t part x err data ↔ RemoteTold s.roads t part x err data := Iff.rfl
theorem MayReply.roads {s : State} {part peer : Nat} (m : MayReply s part peer) : MayReply s.roads part peer := ⟨m.first, m.heard, m.free⟩
theorem MayReply.of_roads {s : State} {part peer : Nat} (m : MayReply s.roads part peer) : MayReply s part peer := ⟨m.first, m.heard, m.free⟩

theorem State.updLink_link (s : State) (part peer p q : Nat) (f : Link → Link) :
    (s.updLink part peer f).link p q = if linkKey part peer = linkKey p q then f (s.link part peer) else s.link p q :=
  Tab.lookD_store s.links (linkKey part peer) (linkKey p q) (f (s.link part peer)) {}

/-- A message goes only over a link that is not quarantined and has lanes (R209). -/
theorem State.route_open {s : State} {part peer via hops n1 n2 : Nat} (goes : s.route part peer = some (via, hops, n1, n2)) :
    (s.link part via).quar = false ∧ s.laneList part via ≠ [] := by
  unfold State.route at goes
  split at goes
  · cases goes
  next clear =>
  split at goes
  · unfold State.detour at goes
    split at goes
    · split at goes
      · next ok =>
        obtain ⟨-, lanes, quar⟩ := ok
        cases goes
        exact ⟨quar, lanes⟩
      · cases goes
    · cases goes
  · next lanes =>
    cases goes
    exact ⟨by simpa using clear, lanes⟩

/-- The same roads, and on every link the same flits and marks. -/
structure SameTraffic (s u : State) : Prop where
  lanes : u.lanes = s.lanes
  routes : u.routes = s.routes
  direct : u.directPeers = s.directPeers
  own : u.ownId = s.ownId
  parts : u.parts = s.parts
  quar : ∀ p q, (u.link p q).quar = (s.link p q).quar

theorem SameTraffic.laneList {s u : State} (r : SameTraffic s u) (part peer : Nat) : u.laneList part peer = s.laneList part peer := by
  unfold State.laneList; rw [r.lanes]
theorem SameTraffic.route {s u : State} (r : SameTraffic s u) (part peer : Nat) : u.route part peer = s.route part peer := by
  unfold State.route State.detour State.routeOf
  simp only [r.laneList, r.quar, r.routes, r.direct]
theorem SameTraffic.routeRefused {s u : State} (r : SameTraffic s u) (peer : Nat) : u.routeRefused peer = s.routeRefused peer := by
  unfold State.routeRefused
  rw [r.routes, r.direct]
theorem SameTraffic.wireFlit {s u : State} (r : SameTraffic s u) (part : Nat) (f : OFlit) : u.wireFlit part f = s.wireFlit part f := by
  unfold State.wireFlit State.sealed State.sendIv State.part
  rw [r.own, r.parts]

/-! Sending flits in line. -/

/-- Flits in line have left on a link: each has taken the next count and a lane of its list, and left `rest` in line. -/
structure Sending (s t : State) (part via : Nat) (new rest : List OFlit) : Prop where
  roads : t.lanes = s.lanes ∧ t.parts = s.parts ∧ t.ownId = s.ownId
  quar : (t.link part via).quar = false
  txq : (t.link part via).txq = rest
  unacked : (t.link part via).unacked = (s.link part via).unacked ++ new
  next : (s.link part via).next ≤ (t.link part via).next
  flits : ∀ f ∈ new, (s.link part via).next ≤ f.count ∧ f.lane ∈ s.laneList part via ∧ .flit part via f.lane (s.wireFlit part f) ∈ t.out
  out : ∀ o ∈ s.out, o ∈ t.out

theorem Sending.none (s : State) (part via : Nat) (quar : (s.link part via).quar = false) : Sending s s part via [] (s.link part via).txq :=
  ⟨⟨rfl, rfl, rfl⟩, quar, rfl, (List.append_nil _).symm, le_rfl, fun _ h => (by cases h), fun _ h => h⟩

theorem Sending.trans {s t u : State} {part via : Nat} {new rest new' rest' : List OFlit} (a : Sending s t part via new rest)
    (b : Sending t u part via new' rest') : Sending s u part via (new ++ new') rest' := by
  obtain ⟨lanes, parts, own⟩ := a.roads
  have list : t.laneList part via = s.laneList part via := by unfold State.laneList; rw [lanes]
  have wire (f : OFlit) : t.wireFlit part f = s.wireFlit part f := by unfold State.wireFlit State.sealed State.sendIv State.part; rw [own, parts]
  have low := a.next
  obtain ⟨lanes', parts', own'⟩ := b.roads
  refine ⟨⟨lanes'.trans lanes, parts'.trans parts, own'.trans own⟩, b.quar, b.txq, ?_, low.trans b.next, fun f hf => ?_, fun o ho => b.out o (a.out o ho)⟩
  · rw [b.unacked, a.unacked, List.append_assoc]
  · rcases List.mem_append.1 hf with hf | hf
    · obtain ⟨count, lane, out⟩ := a.flits f hf
      exact ⟨count, lane, b.out _ out⟩
    · obtain ⟨count, lane, out⟩ := b.flits f hf
      rw [list] at lane
      rw [wire] at out
      exact ⟨low.trans count, lane, out⟩

/-- A lane of a link's list (R201). -/
theorem stripe_mem {lanes : List Nat} (some_ : lanes ≠ []) (q q0 : Nat) : stripe lanes q q0 ∈ lanes := by
  have pos : 0 < lanes.length := List.length_pos_of_ne_nil some_
  have inside : (q - q0) % 2 ^ 32 % (Nat.max 1 lanes.length) < lanes.length := by
    rw [show Nat.max 1 lanes.length = lanes.length from Nat.max_eq_right pos]
    exact Nat.mod_lt _ pos
  unfold stripe
  rw [List.getElem?_eq_getElem inside]
  exact List.getElem_mem _

/-- A change that leaves the flits and the mark of a link, and only adds to what leaves the module. -/
theorem Sending.of_link {s t : State} {part via : Nat} (roads : t.lanes = s.lanes ∧ t.parts = s.parts ∧ t.ownId = s.ownId)
    (quar : (t.link part via).quar = false) (unacked : (t.link part via).unacked = (s.link part via).unacked)
    (next : (s.link part via).next ≤ (t.link part via).next) (out : ∀ o ∈ s.out, o ∈ t.out) : Sending s t part via [] (t.link part via).txq :=
  ⟨roads, quar, rfl, unacked.trans (List.append_nil _).symm, next, fun _ h => (by cases h), out⟩

/-- Closing a group moves the count to the next multiple of eight, and changes no flit (R257). -/
theorem State.closeGroup_sends {s : State} {part via : Nat} (room : (s.link part via).next + 8 < 2 ^ 64) (started : 0 < (s.link part via).next)
    (quar : (s.link part via).quar = false) :
    Sending s (s.closeGroup part via) part via [] (s.link part via).txq ∧
      ((s.closeGroup part via).link part via).next ≤ (s.link part via).next + 7 := by
  unfold State.closeGroup
  simp only
  split
  · exact ⟨.none s part via quar, Nat.le_add_right ..⟩
  generalize told : (if (s.laneList part via).isEmpty = true then s else s.emit _) = u
  have same : u.lanes = s.lanes ∧ u.parts = s.parts ∧ u.ownId = s.ownId ∧ u.links = s.links ∧ ∀ o ∈ s.out, o ∈ u.out := by
    rw [← told]
    split
    · exact ⟨rfl, rfl, rfl, rfl, fun _ h => h⟩
    · exact ⟨rfl, rfl, rfl, rfl, fun _ h => List.mem_append_left _ h⟩
  clear told
  obtain ⟨lanes, parts, own, links, out⟩ := same
  have link : u.link part via = s.link part via := by unfold State.link; rw [links]
  have closed (f : Link → Link) : ((u.updLink part via f).cancel (.gcmGroupClose part via)).link part via = f (s.link part via) := by
    rw [← link]
    exact u.updLink_link_same part via f
  have rest (f : Link → Link) : ((u.updLink part via f).cancel (.gcmGroupClose part via)).lanes = s.lanes ∧
      ((u.updLink part via f).cancel (.gcmGroupClose part via)).parts = s.parts ∧
      ((u.updLink part via f).cancel (.gcmGroupClose part via)).ownId = s.ownId ∧
      ∀ o ∈ s.out, o ∈ ((u.updLink part via f).cancel (.gcmGroupClose part via)).out := ⟨lanes, parts, own, out⟩
  have group : groupOf ((s.link part via).next - 1) + 8 ≤ (s.link part via).next + 7 ∧ (s.link part via).next ≤ groupOf ((s.link part via).next - 1) + 8 := by
    unfold groupOf; omega
  rw [if_neg (by rw [closed]; unfold Link.spent; simp only [decide_eq_true_eq]; omega)]
  obtain ⟨low, high⟩ := group
  obtain ⟨lanes, parts, own, out⟩ := rest fun k => { k with next := groupOf ((s.link part via).next - 1) + 8, groupLen := 0, groups := k.groups ++ [(groupOf ((s.link part via).next - 1), k.groupLen)] }
  have sends := Sending.of_link (s := s) (part := part) (via := via) ⟨lanes, parts, own⟩ (by rw [closed]; exact quar) (by rw [closed]) (by rw [closed]; exact high) out
  rw [closed] at sends
  refine ⟨sends, ?_⟩
  rw [closed]
  exact low

/-- One flit leaves (R201, R257). -/
theorem State.transmit_one {s : State} {part via n : Nat} {f : OFlit} {rest : List OFlit} (line : (s.link part via).txq = f :: rest)
    (lanes : s.laneList part via ≠ []) (quar : (s.link part via).quar = false) (free : (s.link part via).unacked.length < 256)
    (room : (s.link part via).next + 9 < 2 ^ 64) :
    ∃ u g, s.transmit part via (n + 1) = u.transmit part via n ∧ flitWords [g] = flitWords [f] ∧ Sending s u part via [g] rest ∧
      (u.link part via).next ≤ (s.link part via).next + 8 := by
  have more : ((s.laneList part via).isEmpty || (s.link part via).quar || decide (256 ≤ (s.link part via).unacked.length)) = false := by
    rw [quar, decide_eq_false (by omega), List.isEmpty_eq_false_iff.2 lanes]
    rfl
  rw [State.transmit]
  simp only [line, more, Bool.false_eq_true, if_false]
  have lane := stripe_mem lanes (s.link part via).next (s.link part via).q0
  generalize stripe (s.laneList part via) (s.link part via).next (s.link part via).q0 = l at lane ⊢
  generalize sent : ({ f with count := (s.link part via).next, lane := l } : OFlit) = g
  have count : g.count = (s.link part via).next := by rw [← sent]
  have glane : g.lane = l := by rw [← sent]
  have words : flitWords [g] = flitWords [f] := by rw [← sent]; rfl
  clear sent
  have noted (k : Link → Link) : ((s.emit (.flit part via l (s.wireFlit part g))).updLink part via k).link part via = k (s.link part via) :=
    (s.emit (.flit part via l (s.wireFlit part g))).updLink_link_same part via k
  have left (k : Link → Link) : ∀ o ∈ s.out ++ [.flit part via l (s.wireFlit part g)],
      o ∈ ((s.emit (.flit part via l (s.wireFlit part g))).updLink part via k).out := fun _ h => h
  have roads (k : Link → Link) : ((s.emit (.flit part via l (s.wireFlit part g))).updLink part via k).lanes = s.lanes ∧
      ((s.emit (.flit part via l (s.wireFlit part g))).updLink part via k).parts = s.parts ∧
      ((s.emit (.flit part via l (s.wireFlit part g))).updLink part via k).ownId = s.ownId := ⟨rfl, rfl, rfl⟩
  have sends : Sending s ((s.emit (.flit part via l (s.wireFlit part g))).updLink part via fun k =>
      { k with txq := rest, unacked := k.unacked ++ [g], next := k.next + 1, groupLen := k.groupLen + 1 }) part via [g] rest := by
    refine ⟨roads _, by rw [noted]; exact quar, by rw [noted], by rw [noted], by rw [noted]; exact Nat.le_succ _, fun x hx => ?_,
      fun o ho => left _ o (List.mem_append_left _ ho)⟩
    rw [List.mem_singleton.1 hx]
    rw [glane]
    exact ⟨count.ge, lane, left _ _ (List.mem_append_right _ (List.mem_singleton.2 rfl))⟩
  have next := congrArg Link.next (noted fun k => { k with txq := rest, unacked := k.unacked ++ [g], next := k.next + 1, groupLen := k.groupLen + 1 })
  generalize (s.emit (.flit part via l (s.wireFlit part g))).updLink part via _ = u at sends next
  simp only at next
  split
  · obtain ⟨closes, bound⟩ := State.closeGroup_sends (s := u) (part := part) (via := via) (by omega) (by omega) sends.quar
    refine ⟨_, g, rfl, words, ?_, by omega⟩
    have all := sends.trans closes
    rwa [sends.txq, List.append_nil] at all
  · refine ⟨_, g, rfl, words, ?_, ?_⟩
    · exact ⟨sends.roads, sends.quar, sends.txq, sends.unacked, sends.next, sends.flits, sends.out⟩
    · show (u.link part via).next ≤ _
      omega

theorem flitWords_append (a b : List OFlit) : flitWords (a ++ b) = flitWords a ++ flitWords b := List.map_append
theorem flitWords_length (l : List OFlit) : (flitWords l).length = l.length := List.length_map _

/-- As many flits in line leave as may be unacknowledged (R201). -/
theorem State.transmit_sends (part via : Nat) : ∀ (n : Nat) (s : State), s.laneList part via ≠ [] → (s.link part via).quar = false →
    (s.link part via).next + 8 * n + 1 < 2 ^ 64 →
    ∃ new, let m := min n (min (s.link part via).txq.length (256 - (s.link part via).unacked.length))
      flitWords new = flitWords ((s.link part via).txq.take m) ∧ Sending s (s.transmit part via n) part via new ((s.link part via).txq.drop m)
  | 0, s, _, quar, _ => ⟨[], by simp [flitWords], by rw [Nat.zero_min]; exact .none s part via quar⟩
  | n + 1, s, lanes, quar, room => by
    cases line : (s.link part via).txq with
    | nil =>
      refine ⟨[], by simp [flitWords], ?_⟩
      have stays : s.transmit part via (n + 1) = s := by rw [State.transmit]; simp only [line]
      have none_ := Sending.none s part via quar
      rw [line] at none_
      rw [stays, List.drop_nil]
      exact none_
    | cons f rest =>
      by_cases full : 256 ≤ (s.link part via).unacked.length
      · have stays : s.transmit part via (n + 1) = s := by rw [State.transmit]; simp only [line, full, decide_true, Bool.or_true, if_true]
        have none_ := Sending.none s part via quar
        rw [line] at none_
        rw [stays, Nat.sub_eq_zero_of_le full, Nat.min_zero, Nat.min_zero]
        exact ⟨[], rfl, none_⟩
      · obtain ⟨u, g, run, words, sends, bound⟩ := State.transmit_one (n := n) line lanes quar (by omega) (by omega)
        have list : u.laneList part via = s.laneList part via := by unfold State.laneList; rw [sends.roads.1]
        obtain ⟨new, words', sends'⟩ := State.transmit_sends part via n u (list ▸ lanes) sends.quar (by omega)
        have count : min (n + 1) (min (f :: rest).length (256 - (s.link part via).unacked.length)) =
            min n (min (u.link part via).txq.length (256 - (u.link part via).unacked.length)) + 1 := by
          rw [sends.txq, sends.unacked, List.length_append, List.length_cons, List.length_singleton]
          omega
        rw [run, count]
        rw [sends.txq] at words' sends' ⊢
        refine ⟨[g] ++ new, ?_, sends.trans sends'⟩
        rw [flitWords_append, words, words']
        rfl

/-- Flits that join those in line (R200, R201). -/
theorem SentOn.of_transmit {s u : State} {part via : Nat} (add : List OFlit) (lanes : u.laneList part via = s.laneList part via)
    (wire : ∀ f, u.wireFlit part f = s.wireFlit part f) (next : (u.link part via).next = (s.link part via).next)
    (unacked : (u.link part via).unacked = (s.link part via).unacked) (quar : (s.link part via).quar = false) (quar' : (u.link part via).quar = false)
    (line : flitWords (u.link part via).txq = flitWords ((s.link part via).txq ++ add)) (open_ : s.laneList part via ≠ [])
    (room : (s.link part via).next + 400 < 2 ^ 64) : SentOn s (u.transmit part via 40) part via add := by
  obtain ⟨new, words, sends⟩ := State.transmit_sends part via 40 u (lanes ▸ open_) quar' (by omega)
  have length : (u.link part via).txq.length = (flitWords ((s.link part via).txq ++ add)).length := by rw [← line, flitWords_length]
  rw [length, unacked] at words sends
  refine ⟨?_, new, ?_, ?_, fun f hf => ?_⟩
  · rw [sends.txq, ← line, quar]
    exact List.map_drop
  · rw [sends.unacked, unacked]
  · rw [words, ← line, quar]
    exact List.map_take
  · obtain ⟨count, lane, out⟩ := sends.flits f hf
    rw [lanes] at lane
    rw [wire] at out
    exact ⟨next ▸ count, lane, out⟩

/-! The reply to a remote request. -/

theorem State.relaysOut_zero (s : State) : s.relaysOut 0 = false := by simp [State.relaysOut]
/-- Asking whether the module's own messages have arrived does nothing. -/
theorem State.askArrived_zero (s : State) (part : Nat) : s.askArrived part 0 = s := by
  unfold State.askArrived
  simp only [State.relaysOut_zero, or_true, if_true]
  split <;> rfl

theorem Tab.mem_cut {α : Type} {k : Nat} {e : Nat × α} : ∀ {t : Tab α}, e ∈ Tab.cut t k → e ∈ t
  | [], h => h
  | (j, w) :: t, h => by
    simp only [Tab.cut] at h
    split at h
    · exact List.mem_cons_of_mem _ (Tab.mem_cut h)
    · exact (List.mem_cons.1 h).elim (fun e => e ▸ List.mem_cons_self ..) fun h => List.mem_cons_of_mem _ (Tab.mem_cut h)
theorem Tab.mem_store {α : Type} [DecidableEq α] {t : Tab α} {k : Nat} {v d : α} {e : Nat × α} (h : e ∈ Tab.store t k v d) : e = (k, v) ∨ e ∈ t := by
  unfold Tab.store at h
  split at h
  · exact .inr (Tab.mem_cut h)
  · exact Tab.mem_put h

/-- A change of what waits for a link leaves the order of what has left on the others (R201). -/
theorem State.elsewhere_waiting {s : State} {part peer key via : Nat} (clear : s.elsewhere part peer key via = false) (n q : Nat) {f : Link → Link}
    (keeps : ∀ k, (f k).unacked ++ (f k).txq = k.unacked ++ k.txq) : (s.updLink n q f).elsewhere part peer key via = false := by
  unfold State.elsewhere at clear ⊢
  rw [List.any_eq_false] at clear ⊢
  intro e he
  rcases Tab.mem_store he with rfl | old
  · cases known : Tab.look s.links (linkKey n q) with
    | some k =>
      have link : s.link n q = k := by unfold State.link Tab.lookD; rw [known]; rfl
      rw [link, keeps]
      exact clear _ (Tab.mem_of_look known)
    | none =>
      have link : s.link n q = {} := by unfold State.link Tab.lookD; rw [known]; rfl
      rw [link, keeps]
      simp
  · exact clear e old

/-- A link with a message more that waits, then with none. -/
def State.pumped (s : State) (part peer : Nat) (w : Nat × List Word × Nat) : State :=
  (s.updLink part peer fun k => { k with waiting := k.waiting ++ [w] }).updLink part peer fun k => { k with waiting := [] }

theorem State.pumped_link {s : State} {part peer : Nat} (first : (s.link part peer).waiting = []) (w : Nat × List Word × Nat) (p q : Nat) :
    (s.pumped part peer w).link p q = s.link p q := by
  unfold State.pumped
  rw [State.updLink_link, State.updLink_link, State.updLink_link, if_pos rfl]
  split
  · next same =>
    have link : s.link p q = s.link part peer := by unfold State.link; rw [same]
    rw [link, ← first]
  · rfl

/-- Where nothing waits, a message is the only one that a link takes up (R209). -/
theorem State.linkSend_first {s : State} {part peer : Nat} (first : (s.link part peer).waiting = []) (vnet tile index : Nat) (slots : List Word) (wid : Nat) :
    s.linkSend part peer vnet tile index slots wid =
      (State.pumpStep part peer (s.pumped part peer (vnet, routeWord 0 0 0 tile index :: slots, wid), []) (vnet, routeWord 0 0 0 tile index :: slots, wid)).1 := by
  unfold State.linkSend State.linkPump
  simp only [State.updLink_link_same, first, List.nil_append, List.foldl_cons, List.foldl_nil]
  unfold State.pumped
  rfl

theorem State.pumped_traffic {s : State} {part peer : Nat} (first : (s.link part peer).waiting = []) (w : Nat × List Word × Nat) :
    SameTraffic s (s.pumped part peer w) := ⟨rfl, rfl, rfl, rfl, rfl, fun p q => by rw [State.pumped_link first]⟩

/-- A message of the module that no link takes waits for one (R209). -/
theorem State.linkSend_waits {s : State} {part peer : Nat} (first : (s.link part peer).waiting = []) (none_ : s.route part peer = none)
    (heard : s.routeRefused peer = false) (vnet tile index : Nat) (slots : List Word) :
    ((s.linkSend part peer vnet tile index slots 0).link part peer).waiting = [(vnet, routeWord 0 0 0 tile index :: slots, 0)] := by
  rw [State.linkSend_first first]
  have traffic := State.pumped_traffic first (vnet, routeWord 0 0 0 tile index :: slots, 0)
  have link := State.pumped_link first (vnet, routeWord 0 0 0 tile index :: slots, 0) part peer
  generalize s.pumped part peer _ = u at traffic link
  have nowhere : u.pumpOne part peer (vnet, routeWord 0 0 0 tile index :: slots, 0) = none := by
    unfold State.pumpOne
    simp only [traffic.route, none_, traffic.routeRefused, heard, Bool.false_eq_true, and_false, if_false, Nat.lt_irrefl, false_and, decide_false,
      Bool.false_and]
  unfold State.pumpStep
  simp only [List.contains_nil, Bool.false_eq_true, if_false, nowhere]
  show ((State.askArrived _ part 0).link part peer).waiting = _
  rw [State.askArrived_zero, State.updLink_link_same, link, first]
  rfl

/-- The fields of a route word. -/
theorem routeWord_fields (hops n1 n2 : Nat) {tile index : Nat} (tile_ : tile < 2048) (index_ : index < 256) :
    wfield (routeWord hops n1 n2 tile index) 39 29 = tile ∧ routeIndex (routeWord hops n1 n2 tile index) = index := by
  unfold routeIndex wfield field routeWord
  rw [BitVec.toNat_ofNat]
  omega

/-- A message of the module joins the flits in line on the link that takes it (R208, R209). -/
theorem State.linkSend_goes {s : State} {part peer via hops n1 n2 : Nat} (may : MayReply s part peer) (goes : s.route part peer = some (via, hops, n1, n2))
    (vnet : Nat) {tile : Nat} (tile_ : tile < 2048) (slots : List Word) :
    SentOn s (s.linkSend part peer vnet tile 0 slots 0) part via (toFlits vnet 40 true (routeWord hops n1 n2 tile 0 :: slots)) := by
  obtain ⟨elsewhere, room⟩ := may.free via hops n1 n2 goes
  obtain ⟨quar, lanes⟩ := State.route_open goes
  rw [State.linkSend_first may.first]
  have traffic := State.pumped_traffic may.first (vnet, routeWord 0 0 0 tile 0 :: slots, 0)
  have link := State.pumped_link may.first (vnet, routeWord 0 0 0 tile 0 :: slots, 0) part via
  have alone : (s.pumped part peer (vnet, routeWord 0 0 0 tile 0 :: slots, 0)).elsewhere part peer 0 via = false :=
    State.elsewhere_waiting (State.elsewhere_waiting elsewhere part peer (f := fun k => { k with waiting := k.waiting ++ [(vnet, routeWord 0 0 0 tile 0 :: slots, 0)] })
      fun _ => rfl) part peer fun _ => rfl
  generalize s.pumped part peer _ = u at traffic link alone
  obtain ⟨tileField, indexField⟩ := routeWord_fields 0 0 0 tile_ (index := 0) (by omega)
  have key : orderKey (vnet, routeWord 0 0 0 tile 0 :: slots, 0) = 0 := rfl
  have out : u.pumpOne part peer (vnet, routeWord 0 0 0 tile 0 :: slots, 0) =
      some (u.cutFlits part peer via (routeWord hops n1 n2 tile 0) (vnet, routeWord 0 0 0 tile 0 :: slots, 0)) := by
    unfold State.pumpOne
    simp only [traffic.route, goes, key, alone, State.relaysOut_zero, Bool.and_false, Bool.or_false, Bool.false_eq_true, if_false, Nat.lt_irrefl,
      false_and, decide_false, Bool.false_and, if_true, List.headD_cons, tileField, indexField]
  unfold State.pumpStep
  simp only [List.contains_nil, Bool.false_eq_true, if_false, out]
  unfold State.cutFlits
  refine SentOn.of_transmit _ ?_ ?_ ?_ ?_ quar ?_ ?_ lanes room
  · exact traffic.laneList part via
  · exact traffic.wireFlit part
  · rw [State.updLink_link_same, link]
  · rw [State.updLink_link_same, link]
  · rw [State.updLink_link_same, link]; exact quar
  · rw [State.updLink_link_same, link, flitWords_append, flitWords_append]
    unfold flitWords
    rw [List.map_map]
    rfl

/-- A peer's answer goes on its way, or waits for one (R209, R211). -/
theorem State.remoteAnswer_told {s : State} {part : Nat} {x : RReq} (may : MayReply s part x.rpeer) (tile : x.rtile < 2048) (err : Nat) (data : List Byte) :
    RemoteTold s (s.remoteAnswer part x err data) part x err data := by
  unfold RemoteTold
  dsimp only
  split
  · next none_ => exact State.linkSend_waits may.first none_ (may.heard none_) 1 x.rtile 0 _
  · next via hops n1 n2 goes => exact State.linkSend_goes may goes 1 tile _

end Sys2Proof.Machine
end

section
/-! PROOFS. O48: remote requests at their home, and the replies to this package's own (R209 to R211). -/

namespace Sys2Proof.Machine

/-! A change of memory leaves the links. -/

theorem State.hbmStore_roads (s : State) (part k : Nat) (bs : List WByte) : (s.hbmStore part k bs).roads = s.roads := by
  have rest := congrArg State.roads (State.hbmStore_rest part k bs s)
  exact rest
theorem State.poisonLeaf_roads (s : State) (part pteAt : Nat) : (s.poisonLeaf part pteAt).roads = s.roads := by
  unfold State.poisonLeaf
  split
  · rfl
  · exact State.hbmStore_roads ..
theorem State.poisonPhys_roads (s : State) (part phys : Nat) : (s.poisonPhys part phys).roads = s.roads := by
  unfold State.poisonPhys
  generalize List.filter _ _ = l
  induction l generalizing s with
  | nil => rfl
  | cons e l ih => exact (ih _).trans (State.poisonLeaf_roads ..)
theorem State.writePlace_roads (s : State) (part : Nat) (p : Place) (bs : List WByte) : (s.writePlace part p bs).roads = s.roads := by
  cases p with
  | sram k net =>
    obtain ⟨m, tg, stored⟩ := State.sramStore_eq k bs s
    have roads := congrArg State.roads stored
    exact roads
  | dram k va => exact s.hbmStore_roads part k bs
  | remote q sp a => rfl

/-! A remote request at its home (R210). -/

theorem rreqOf_tile (ms : List Word) : (rreqOf ms).rtile < 2048 := Nat.mod_lt _ (by norm_num)

/-- The home of a remote request is on this package (R210). -/
theorem State.remoteHome_here {s : State} {part : Nat} {x : RReq} {p : Place} (home : s.remoteHome part x = .ok p) : p.here := by
  unfold State.remoteHome at home
  dsimp only at home
  repeat' split at home
  all_goals cases home
  all_goals trivial

/-- The errors that come before an address is looked at, in their order (Table 9.14, log 29). -/
theorem State.remoteHome_malformed {s : State} {part : Nat} {x : RReq} (bad : x.bad = true) : s.remoteHome part x = .error 3 := by
  unfold State.remoteHome
  simp only [bad, if_true]
theorem State.remoteHome_stranger {s : State} {part : Nat} {x : RReq} (good : x.bad = false) (stranger : x.rpeer ∉ (s.part part).peers) :
    s.remoteHome part x = .error 6 := by
  unfold State.remoteHome
  simp only [good, Bool.false_eq_true, if_false, List.contains_eq_mem, stranger, decide_false, if_true]
theorem State.remoteHome_keyless {s : State} {part : Nat} {x : RReq} (good : x.bad = false) (known : x.rpeer ∈ (s.part part).peers)
    (key : (s.part part).key.full = false) : s.remoteHome part x = .error 4 := by
  unfold State.remoteHome
  simp only [good, Bool.false_eq_true, if_false, List.contains_eq_mem, known, decide_true, Bool.true_eq_false, key, if_true]

/-- A request that its home refuses is answered; only a bad line of a table changes memory, which poisons its page (R102). -/
theorem State.remoteServe_error {s : State} {part : Nat} {ms : List Word} {e : Nat} (home : s.remoteHome part (rreqOf ms) = .error e) :
    ∃ u : State, u.roads = s.roads ∧ (e ≠ 2 ∨ (rreqOf ms).space ≠ 1 → u = s) ∧ s.remoteServe part ms = u.remoteAnswer part (rreqOf ms) e [] := by
  unfold State.remoteServe
  simp only [home]
  refine ⟨_, ?_, fun other => ?_, rfl⟩
  · split
    · split
      · exact State.poisonPhys_roads ..
      · rfl
    · rfl
  · split
    · rw [if_neg fun both => by obtain ⟨two, one⟩ := both; exact other.elim (· two) (· one)]
    · rfl

/-- An answer leaves memory. -/
theorem State.remoteAnswer_quiet (s : State) (part : Nat) (x : RReq) (err : Nat) (data : List Byte) : Quiet s (s.remoteAnswer part x err data) :=
  Quiet.linkSend ..

/-- An answer of a state with the same links. -/
theorem State.remoteAnswer_of_roads {s u : State} {part : Nat} {x : RReq} (roads : u.roads = s.roads) (may : MayReply s part x.rpeer) (tile : x.rtile < 2048)
    (err : Nat) (data : List Byte) : RemoteTold s (u.remoteAnswer part x err data) part x err data := by
  have mayU : MayReply u part x.rpeer := by
    have m := may.roads
    rw [← roads] at m
    exact m.of_roads
  have told := State.remoteAnswer_told mayU tile err data
  rw [RemoteTold.roads] at told ⊢
  rwa [roads] at told

/-- A request refused by its home. -/
theorem remote_refused {s : State} {part : Nat} {ms : List Word} {e : Nat} (may : MayReply s part (rreqOf ms).rpeer)
    (home : s.remoteHome part (rreqOf ms) = .error e) :
    (e ≠ 2 ∨ (rreqOf ms).space ≠ 1 → SameMemory s (s.remoteServe part ms)) ∧ RemoteTold s (s.remoteServe part ms) part (rreqOf ms) e [] := by
  obtain ⟨u, roads, same, run⟩ := State.remoteServe_error home
  rw [run]
  refine ⟨fun other => ?_, State.remoteAnswer_of_roads roads may (rreqOf_tile ms) e []⟩
  rw [same other]
  exact (State.remoteAnswer_quiet ..).memory

/-- What a list of due steps holds. -/
theorem mem_insertDue_iff {due : Nat} {i : Instr} {x : Nat × Instr} : ∀ {l : List (Nat × Instr)}, x ∈ insertDue due i l ↔ x = (due, i) ∨ x ∈ l
  | [] => by simp [insertDue]
  | (d, j) :: l => by
    simp only [insertDue]
    split
    · exact List.mem_cons
    · rw [List.mem_cons, mem_insertDue_iff, List.mem_cons]
      exact or_left_comm

/-- Steps that come in the next cycle at the earliest, with the others as they were (log 83). -/
theorem State.postponed : ∀ (l : List (Nat × Instr)) (s : State),
    ∃ q, l.foldl (fun (s : State) e => { s with events := insertDue (max e.1 (s.cycle + 1)) e.2 s.events }) s = { s with events := q } ∧
      ∀ x, x ∈ q ↔ x ∈ s.events ∨ ∃ e ∈ l, x = (max e.1 (s.cycle + 1), e.2)
  | [], s => ⟨s.events, rfl, fun x => by simp⟩
  | e :: l, s => by
    obtain ⟨q, run, mem⟩ := State.postponed l { s with events := insertDue (max e.1 (s.cycle + 1)) e.2 s.events }
    refine ⟨q, run, fun x => ?_⟩
    rw [mem, mem_insertDue_iff, List.exists_mem_cons_iff, or_assoc, or_left_comm]

/-- A held request and those behind it come in the next cycle at the earliest (R101, R210). -/
theorem State.holdHome_waits (s : State) (part home : Nat) (i : Instr) :
    SameMemory s (s.holdHome part home i) ∧ (s.cycle + 1, i) ∈ (s.holdHome part home i).events ∧
      (∀ e ∈ s.events, performs part home e.2 = true → (max e.1 (s.cycle + 1), e.2) ∈ (s.holdHome part home i).events) ∧
      ∀ e ∈ (s.holdHome part home i).events, performs part home e.2 = true → s.cycle < e.1 := by
  obtain ⟨q, run, mem⟩ := State.postponed (s.events.filter fun e => performs part home e.2)
    ({ s with events := s.events.filter fun e => !performs part home e.2 }.afterCycles 1 i)
  have held : s.holdHome part home i = { ({ s with events := s.events.filter fun e => !performs part home e.2 }.afterCycles 1 i : State) with events := q } := run
  have listed (x : Nat × Instr) : x ∈ q ↔ (x = (s.cycle + 1, i) ∨ x ∈ s.events.filter fun e => !performs part home e.2) ∨
      ∃ e ∈ s.events.filter fun e => performs part home e.2, x = (max e.1 (s.cycle + 1), e.2) := by
    rw [mem]
    exact or_congr_left mem_insertDue_iff
  rw [held]
  refine ⟨.of_tables rfl rfl rfl rfl rfl fun _ => rfl, (listed _).2 (.inl (.inl rfl)), fun e he comes => ?_, fun e he comes => ?_⟩
  · exact (listed _).2 (.inr ⟨e, List.mem_filter.2 ⟨he, comes⟩, rfl⟩)
  · rcases (listed e).1 he with (rfl | old) | ⟨x, -, rfl⟩
    · exact Nat.lt_succ_self _
    · have away := (List.mem_filter.1 old).2
      rw [comes] at away
      cases away
    · exact Nat.lt_of_succ_le (Nat.le_max_right _ _)

/-- A store or atomic to a page under migration is held (R101). -/
theorem State.remoteServe_held {s : State} {part : Nat} {ms : List Word} {k va : Nat} (home : s.remoteHome part (rreqOf ms) = .ok (.dram k va))
    (moves : s.migrating part k ≠ none) (writes : (rreqOf ms).op ≠ 1) : s.remoteServe part ms =
      s.holdHome part (homeOf ms) (if (rreqOf ms).op = 2 then .remoteWrite part ms else .remoteAtomic part ms) := by
  have held : (decide ((rreqOf ms).op ≠ 1) && (s.migrating part k).isSome) = true := by
    rw [decide_eq_true writes, Option.isSome_iff_ne_none.2 moves]
    rfl
  unfold State.remoteServe
  simp only [home, held, if_true]

/-- Nothing holds a remote request back, and its home can read what it reads. -/
def State.remoteFree (s : State) (part n : Nat) (p : Place) : Prop := ∀ k va, p = .dram k va → s.hbmFails k n = false ∧ s.migrating part k = none

/-- A request performs as a local access of its kind (R210). -/
def State.remoteDone (s : State) (part : Nat) (x : RReq) (p : Place) : State :=
  match x.op with
  | 1 => s.remoteAnswer part x 0 (s.readPlace part p x.n)
  | 2 => (s.writePlace part p ((wbytes ((x.data.flatMap fun w => bytesLE 8 w.toNat).take x.n)).map fun b => { b with nib := x.afn })).remoteAnswer part x 0 []
  | _ => (s.writePlace part p (wbytes (bytesLE x.n (atomicNew x.afn x.n (ofBytesLE (s.readPlace part p x.n)) ((x.data.headD 0).toNat % 256 ^ x.n)
      ((x.data.getD 1 0).toNat % 256 ^ x.n))))).remoteAnswer part x 0 (if 5 ≤ x.afn then bytesLE 8 (ofBytesLE (s.readPlace part p x.n)) else [])

theorem State.remoteServe_done {s : State} {part : Nat} {ms : List Word} {p : Place} (home : s.remoteHome part (rreqOf ms) = .ok p)
    (free : s.remoteFree part (rreqOf ms).n p) : s.remoteServe part ms = s.remoteDone part (rreqOf ms) p := by
  unfold State.remoteServe
  simp only [home]
  cases p with
  | dram k va =>
    obtain ⟨good, still⟩ := free k va rfl
    simp only [good, still, Option.isSome_none, Bool.and_false, Bool.false_eq_true, if_false]
    rfl
  | _ => rfl

/-- A remote request that its home serves. -/
theorem remote_served {s : State} {part : Nat} {ms : List Word} {p : Place} (may : MayReply s part (rreqOf ms).rpeer)
    (home : s.remoteHome part (rreqOf ms) = .ok p) (free : s.remoteFree part (rreqOf ms).n p) :
    let x := rreqOf ms
    let old := (List.range x.n).map fun j => homeByte s part p (homeAt p + j)
    (x.op = 1 → SameMemory s (s.remoteServe part ms) ∧ RemoteTold s (s.remoteServe part ms) part x 0 old) ∧
    (x.op = 2 → RemoteTold s (s.remoteServe part ms) part x 0 [] ∧
      Stores s (s.remoteServe part ms) part p ((wbytes ((x.data.flatMap fun w => bytesLE 8 w.toNat).take x.n)).map fun b => { b with nib := x.afn })) ∧
    (x.op = 3 → RemoteTold s (s.remoteServe part ms) part x 0 (if 5 ≤ x.afn then bytesLE 8 (ofBytesLE old) else []) ∧
      Stores s (s.remoteServe part ms) part p (wbytes (bytesLE x.n
        (atomicNew x.afn x.n (ofBytesLE old) ((x.data.headD 0).toNat % 256 ^ x.n) ((x.data.getD 1 0).toNat % 256 ^ x.n))))) := by
  have here := State.remoteHome_here home
  have tile := rreqOf_tile ms
  dsimp only
  rw [State.remoteServe_done home free, ← s.readPlace_bytes part here (rreqOf ms).n]
  generalize rreqOf ms = x at may tile
  have written (bs : List WByte) (data : List Byte) : RemoteTold s ((s.writePlace part p bs).remoteAnswer part x 0 data) part x 0 data ∧
      Stores s ((s.writePlace part p bs).remoteAnswer part x 0 data) part p bs :=
    ⟨State.remoteAnswer_of_roads (s.writePlace_roads part p bs) may tile 0 data,
      (s.writePlace_stores part here bs).after (State.remoteAnswer_quiet ..).still⟩
  refine ⟨fun op => ?_, fun op => ?_, fun op => ?_⟩ <;> unfold State.remoteDone <;> simp only [op]
  · exact ⟨(State.remoteAnswer_quiet ..).memory, State.remoteAnswer_told may tile 0 _⟩
  · exact written _ _
  · exact written _ _

/-- The three steps of a remote request are one (R210). -/
theorem exec_remote {i : Instr} {part : Nat} {ms : List Word} (is : i = .remoteRead part ms ∨ i = .remoteWrite part ms ∨ i = .remoteAtomic part ms) (s : State) :
    exec i s = .next (s.remoteServe part ms) := by
  rcases is with rfl | rfl | rfl <;> rfl

/-! A reply from a peer (R211). -/

theorem State.queueRecord_remotes (s : State) (tile h : Nat) {f : FRec} (kind : f.kind = .instr h) : (s.queueRecord tile f).remotes = s.remotes := by
  unfold State.queueRecord
  simp only [kind]
  split <;> rfl
theorem State.failRun_remotes (s : State) (part net tile : Nat) : (s.failRun part net tile).remotes = s.remotes := by
  unfold State.failRun
  split
  · rfl
  · dsimp only
    split <;> rfl

/-- A process none of whose stores is in the combining buffer parks without an access of its own. -/
theorem State.park_remotes {s : State} {h : Nat} (cb : ∀ x ∈ (s.tile (s.proc h).tile).cb, x.2.h ≠ h) (slots : List Word) (epc : BitVec 48) (cls : FClass)
    (fpc : BitVec 48) : (s.park h slots epc cls fpc).remotes = s.remotes := by
  have release : s.release h = (s, (s.release h).2) := Prod.ext (State.cbDrainAll_foreign cb) rfl
  rw [s.park_eq s _ h _ _ _ _ release, State.failRun_remotes, State.queueRecord_remotes _ _ h rfl]
  rfl

theorem State.unpend_tiles (s : State) (h d : Nat) : (s.unpend h d).tiles = s.tiles := by
  unfold State.unpend State.wake
  split <;> rfl

/-- The note of a failed access's tag is gone when its process has parked (R433). -/
theorem State.deferredPark_remotes {s u : State} {id d : Nat} (r : Req) (ended : Ended s u id) (c : Cause)
    (cb : ∀ x ∈ (s.tile (s.proc r.h).tile).cb, x.2.h ≠ r.h) : (u.deferredPark r d c).remotes = u.remotes := by
  obtain ⟨-, -, -, tile, -, -, -⟩ := ended.regs r.h
  obtain ⟨a, b, e, proc⟩ := u.unpend_proc r.h d
  have same : ((u.unpend r.h d).proc r.h).tile = (s.proc r.h).tile := by rw [proc]; exact tile
  have buffered : ((u.unpend r.h d).tile (s.proc r.h).tile).cb = (s.tile (s.proc r.h).tile).cb := by
    rw [← ended.cb]
    unfold State.tile
    rw [State.unpend_tiles]
  obtain ⟨-, -, remotes⟩ := u.unpend_tables r.h d
  refine Eq.trans ?_ remotes
  exact State.park_remotes (by rw [same, buffered]; exact cb) _ _ _ _

/-- The answer that an access gets by its tag. -/
def Req.answered (r : Req) (hd : Word) (ds : List Word) : Req :=
  { r with performed := true, err := wfield hd 46 40, data := (ds.flatMap fun w => bytesLE 8 w.toNat).take r.op.span }
/-- The access has its answer, and its tag is free. -/
def State.tagBack (s : State) (id : Nat) (r : Req) (hd : Word) (ds : List Word) : State :=
  { s with remotes := [], reqs := Tab.put s.reqs id (r.answered hd ds) }

/-- The answer to a load comes between instructions where there was room for it. -/
theorem State.tagBack_boundary {s : State} {id h d n : Nat} {r : Req} {hd : Word} {ds : List Word} (dest : r.dest = .scalar d n)
    (boundary : s.atBoundary h = true) : (s.tagBack id r hd ds).atBoundary h = true := by
  unfold State.atBoundary at boundary ⊢
  simp only [Bool.and_eq_true, Bool.not_eq_true', List.any_eq_false] at boundary ⊢
  obtain ⟨between, capless⟩ := boundary
  refine ⟨between, fun e he => ?_⟩
  rcases Tab.mem_put he with rfl | old
  · simp only [Req.answered, dest, Bool.false_eq_true, and_false, not_false_eq_true]
  · exact capless e old

/-- A reply finds its access by tile and tag (R211). -/
theorem exec_remoteReply {s : State} {part id : Nat} {hd : Word} {ds : List Word} {r : Req} (here : Tab.look s.reqs id = some r) (own : r.part = part)
    (noted : s.remotes = [{ tile := hd.toNat / 2 ^ 29 % 2048, tag := hd.toNat / 2 ^ 47 % 256, req := id }]) :
    exec (.remoteReply part (hd :: ds)) s = .next ((s.tagBack id r hd ds).reply id) := by
  have listed : (s.reqs.any fun e => decide (e.1 = id ∧ e.2.part = part)) = true :=
    List.any_eq_true.2 ⟨(id, r), Tab.mem_of_look here, decide_eq_true ⟨rfl, own⟩⟩
  have found : s.remotes.find? (fun x => decide (x.tile = wfield hd 39 29 ∧ x.tag = wfield hd 54 47 ∧
      (s.reqs.any fun e => decide (e.1 = x.req ∧ e.2.part = part)) = true)) =
      some { tile := hd.toNat / 2 ^ 29 % 2048, tag := hd.toNat / 2 ^ 47 % 256, req := id } := by
    rw [noted]
    exact List.find?_cons_of_pos (decide_eq_true ⟨rfl, rfl, listed⟩)
  have cleared : s.remotes.filter (· ≠ { tile := hd.toNat / 2 ^ 29 % 2048, tag := hd.toNat / 2 ^ 47 % 256, req := id }) = [] := by simp [noted]
  show execRemoteReply part (hd :: ds) s = _
  unfold execRemoteReply
  dsimp only [List.headD_cons]
  erw [found]
  dsimp only
  rw [here]
  dsimp only
  rw [cleared]
  rfl

/-- O48, the replies. -/
theorem remote_replies {s : State} {part id d n : Nat} {hd : Word} {ds : List Word} {r : Req} (here : Tab.look s.reqs id = some r) (own : r.part = part)
    (live : r.dropped = false) (fwd : r.fwd = []) (dest : r.dest = .scalar d n) (d0 : d ≠ 0) (res : (s.proc r.h).res = .resident) (staged : s.staged = [])
    (noted : s.remotes = [{ tile := hd.toNat / 2 ^ 29 % 2048, tag := hd.toNat / 2 ^ 47 % 256, req := id }]) :
    (hd.toNat / 2 ^ 40 % 128 = 0 →
      ∃ t, exec (.remoteReply part (hd :: ds)) s = .next t ∧
        (t.proc r.h).reg d = sext64 (8 * n) (ofBytesLE ((ds.flatMap fun w => bytesLE 8 w.toNat).take r.op.span)) ∧
        (t.proc r.h).isPending d = false ∧ (∀ x ∈ t.remotes, x.req ≠ id) ∧ Tab.look t.reqs id = none ∧ SameMemory s t) ∧
    (hd.toNat / 2 ^ 40 % 128 ≠ 0 → r.strip = false → (s.proc r.h).pst = .ready → (s.proc r.h).strip = none → s.atBoundary r.h = true →
      (∀ x ∈ (s.tile (s.proc r.h).tile).cb, x.2.h ≠ r.h) →
      ∃ t, exec (.remoteReply part (hd :: ds)) s = .next t ∧ (t.proc r.h).pst = .parkedFault ∧
        (t.proc r.h).frec.toNat % 256 = (errCause r.typ (hd.toNat / 2 ^ 40 % 128)).code ∧ ∀ x ∈ t.remotes, x.req ≠ id) := by
  have answered : Tab.look (s.tagBack id r hd ds).reqs id = some (r.answered hd ds) := Tab.look_put_same ..
  have memory : SameMemory s (s.tagBack id r hd ds) := .of_tables rfl rfl rfl rfl rfl fun _ => rfl
  have clear : ∀ x ∈ (s.tagBack id r hd ds).remotes, x.req ≠ id := fun x hx => (by cases hx)
  rw [exec_remoteReply here own noted]
  refine ⟨fun ok => ?_, fun bad strip ready none_ boundary cb => ?_⟩
  · obtain ⟨value, done, -, gone, kept, -, remotes⟩ := State.reply_scalar answered live fwd staged dest d0 ok res
    exact ⟨_, rfl, value, done, remotes clear, gone, memory.trans kept⟩
  · have between : (s.tagBack id r hd ds).atBoundary r.h = true := State.tagBack_boundary dest boundary
    have run := State.reply_failed answered live dest bad strip ready res
    have ended := State.finish_ended (s := (s.tagBack id r hd ds).taken id) staged id
    have late := State.deferredPark_parked (d := d) (r.answered hd ds) ended
    have remotes := State.deferredPark_remotes (d := d) (r.answered hd ds) ended (errCause r.typ (wfield hd 46 40)) cb
    refine ⟨_, rfl, ?_⟩
    rw [run, if_pos (show (s.tagBack id r hd ds).atBoundary (r.answered hd ds).h = true from between)]
    refine ⟨late.parked, late.cause, ?_⟩
    rw [show (r.answered hd ds).err = wfield hd 46 40 from rfl, show (r.answered hd ds).typ = r.typ from rfl, remotes]
    exact ended.remotes (State.taken_gone _ id) clear

/-- Settles O48: requests of peers at their homes, their answers on the way back, and the replies to this package's requests. -/
theorem remoteEvents : Obligations.RemoteEvents := by
  unfold Obligations.RemoteEvents
  refine ⟨fun s i part ms is => ?_, fun s part id d n hd ds r here own live fwd dest d0 res staged noted =>
    remote_replies here own live fwd dest d0 res staged noted⟩
  dsimp only
  intro may
  rw [exec_remote is]
  have refused {e : Nat} (home : s.remoteHome part (rreqOf ms) = .error e) := remote_refused may home
  refine ⟨fun bad => ?_, fun good stranger => ?_, fun good known key => ?_, fun e home => ⟨_, rfl, refused home⟩, fun k va i' home moves writes => ?_,
    fun p home free => ?_⟩
  · obtain ⟨memory, told⟩ := refused (State.remoteHome_malformed bad)
    exact ⟨_, rfl, memory (.inl (by decide)), told⟩
  · obtain ⟨memory, told⟩ := refused (State.remoteHome_stranger good stranger)
    exact ⟨_, rfl, memory (.inl (by decide)), told⟩
  · obtain ⟨memory, told⟩ := refused (State.remoteHome_keyless good known key)
    exact ⟨_, rfl, memory (.inl (by decide)), told⟩
  · have held : s.remoteServe part ms = s.holdHome part (homeOf ms) i' := by
      rcases writes with ⟨op, rfl⟩ | ⟨op, rfl⟩
      · rw [State.remoteServe_held home moves (by rw [op]; decide), if_pos op]
      · rw [State.remoteServe_held home moves (by rw [op]; decide), if_neg (by rw [op]; decide)]
    exact ⟨_, rfl, held ▸ s.holdHome_waits part (homeOf ms) i'⟩
  · obtain ⟨read, write, atomic⟩ := remote_served may home free
    exact ⟨fun op => ⟨_, rfl, read op⟩, fun op => ⟨_, rfl, write op⟩, fun op => ⟨_, rfl, atomic op⟩⟩

end Sys2Proof.Machine
end

section
/-! PROOFS. O37: how a stream port starts a binding, ends it, and takes one that was held (R92, R94, R113, R364). -/

namespace Sys2Proof.Machine

/-! The head of a port. -/

theorem State.portHead_known {s : State} {tile port id : Nat} {b : Binding} (head : s.portHead tile port = some (id, b)) :
    Tab.look s.binds id = some b ∧ ∃ rest, Tab.lookD (s.tile tile).ports port [] = id :: rest := by
  unfold State.portHead at head
  obtain ⟨i, first, rest⟩ := Option.bind_eq_some_iff.1 head
  obtain ⟨c, known, pair⟩ := Option.map_eq_some_iff.1 rest
  cases pair
  exact ⟨known, List.head?_eq_some_iff.1 first⟩

/-! The start of a binding (R92, R113). -/

theorem stream_starts {s : State} {tile port id : Nat} {b : Binding} (head : s.portHead tile port = some (id, b)) (queued : b.st = .queued)
    (copies : b.gather = none) :
    (b.after = [] → ∃ t, exec (.streamStart tile port) s = .next t ∧ Tab.look t.binds id = some { b with st := .running } ∧
      (s.cycle + 1, if b.count = 0 then .streamComplete tile port else .streamSector tile port) ∈ t.events) ∧
    (b.after ≠ [] → ∃ t, exec (.streamStart tile port) s = .next t ∧ Tab.look t.binds id = some b ∧
      (s.cycle + 1, .streamStart tile port) ∈ t.events) := by
  have order : s.gatherOrder b = b := by
    unfold State.gatherOrder
    rw [copies]
  have run : exec (.streamStart tile port) s = .next (if b.after.isEmpty then
      ({ s with binds := Tab.put s.binds id { b with st := .running } }).afterCycles 1
        (if b.count = 0 then .streamComplete tile port else .streamSector tile port)
      else s.afterCycles 1 (.streamStart tile port)) := by
    show execStreamStart tile port s = _
    unfold execStreamStart
    simp only [head, queued, order, ite_self, ne_eq, not_true, if_false]
  rw [run]
  refine ⟨fun none_ => ⟨_, by rw [if_pos (List.isEmpty_iff.2 none_)], Tab.look_put_same .., mem_insertDue _ _ _⟩,
    fun some_ => ⟨s.afterCycles 1 (.streamStart tile port), by rw [if_neg (fun e => some_ (List.isEmpty_iff.1 e))], (s.portHead_known head).1, mem_insertDue _ _ _⟩⟩

/-! The end of a binding (R94, R364). -/

theorem State.saveReg_procs (s : State) (h r : Nat) (v : Word) : (∀ n, (s.saveReg h r v).proc n = s.proc n) ∧ (∀ n, (s.saveReg h r v).tile n = s.tile n) ∧
    (s.saveReg h r v).staged = s.staged ∧ (s.saveReg h r v).binds = s.binds := by
  unfold State.saveReg
  dsimp only
  split
  · split
    · exact ⟨fun _ => rfl, fun _ => rfl, rfl, rfl⟩
    · have rest := State.hbmStore_rest (s.proc h).part ‹Nat› ((List.range 8).map fun i => { off := 8 * r + i, val := byteAt v.toNat i }) s
      have procs := congrArg State.procs rest
      have tiles := congrArg State.tiles rest
      have staged := congrArg State.staged rest
      have binds := congrArg State.binds rest
      exact ⟨fun n => congrArg (fun t : Tab Proc => Tab.lookD t n {}) procs, fun n => congrArg (fun t : Tab Tile => Tab.lookD t n {}) tiles, staged, binds⟩
  · exact ⟨fun _ => rfl, fun _ => rfl, rfl, rfl⟩

/-- What a token that lands in its register leaves of the bindings, the ports and the messages. -/
theorem State.deliver_kept (s : State) (h r : Nat) (v : Word) : (s.deliver h r v).staged = s.staged ∧ (s.deliver h r v).binds = s.binds ∧
    (∀ n, (s.deliver h r v).tile n = s.tile n) ∧ ∀ n, (s.deliver h r v).proc n = (s.land h r v).proc n := by
  obtain ⟨procs, tiles, staged, binds⟩ := (s.land h r v).saveReg_procs h r v
  have landed : (s.land h r v).binds = s.binds := by
    rw [State.land_eq]
    unfold State.wake
    split <;> rfl
  exact ⟨staged.trans (s.land_tables h r v).2.1, binds.trans landed, fun n => (tiles n).trans (s.land_tile h r v n), procs⟩

/-- A binding has ended: it is off its port. -/
def State.unbound (s : State) (tile port id : Nat) : State :=
  ({ s with binds := Tab.cut s.binds id } : State).updTile tile fun t => { t with ports := Tab.store t.ports port ((Tab.lookD (s.tile tile).ports port []).filter (· ≠ id)) [] }

/-- The token that a binding ends with (R94). -/
def Binding.token (b : Binding) : Word :=
  match b.err with
  | some c => .ofNat 64 (2 ^ 63 + b.done * 256 + c.code)
  | none => .ofNat 64 (b.count * b.sector)

theorem State.writeToken_alone {s : State} {id : Nat} {b : Binding} (sd : b.sd ≠ 0) (mine : Tab.look (s.proc b.h).pend b.sd = some (.token id))
    (alone : ∀ e ∈ s.binds, e.1 ≠ id → e.2.h = b.h → e.2.sd ≠ b.sd) (token : Word) : s.writeToken id b token = s.deliver b.h b.sd token := by
  have others : s.binds.filter (fun e => decide (e.1 ≠ id ∧ e.2.h = b.h ∧ e.2.sd = b.sd) && !(s.proc b.h).uncommitted.contains e.1) = [] := by
    refine List.filter_eq_nil_iff.2 fun e he => ?_
    have apart : ¬(e.1 ≠ id ∧ e.2.h = b.h ∧ e.2.sd = b.sd) := fun ⟨other, owner, reg⟩ => alone e he other owner reg
    rw [decide_eq_false apart]
    exact Bool.false_ne_true
  unfold State.writeToken
  simp only [if_neg sd, others, mine, decide_true, true_or, if_true]

/-- What a port does once a binding has ended: the next binding starts, and held ones may come (R92). -/
def State.portGoesOn (s : State) (tile port : Nat) (rest : List Nat) : State :=
  ((if rest.isEmpty then s else s.afterCycles 1 (.streamStart tile port)).binds.filter fun e =>
      decide (e.2.tile = tile ∧ e.2.port = port ∧ e.2.st = .held) &&
        !((if rest.isEmpty then s else s.afterCycles 1 (.streamStart tile port)).proc e.2.h).uncommitted.contains e.1).foldl
    (fun s e => s.afterCycles 1 (.heldBindingEnqueue e.2.h port)) (if rest.isEmpty then s else s.afterCycles 1 (.streamStart tile port))

theorem State.laterEach_events {α : Type} (i : α → Instr) : ∀ (l : List α) (s : State),
    ∃ q, l.foldl (fun (s : State) e => s.afterCycles 1 (i e)) s = { s with events := q }
  | [], s => ⟨s.events, rfl⟩
  | e :: l, s => State.laterEach_events i l (s.afterCycles 1 (i e))
theorem State.portGoesOn_events (s : State) (tile port : Nat) (rest : List Nat) : ∃ q, s.portGoesOn tile port rest = { s with events := q } := by
  unfold State.portGoesOn
  generalize List.filter _ _ = l
  split
  · exact State.laterEach_events (fun e : Nat × Binding => .heldBindingEnqueue e.2.h port) l s
  · exact State.laterEach_events (fun e : Nat × Binding => .heldBindingEnqueue e.2.h port) l (s.afterCycles 1 (.streamStart tile port))

/-- The end of a number leaves the bindings and the ports, but for its own mark. -/
theorem State.finish_binds {s : State} (staged : s.staged = []) (id k : Nat) :
    Tab.look (s.finish id).binds k = (Tab.look s.binds k).map fun b => { b with after := b.after.filter (· ≠ id) } := by
  have q : Quiet (s.letGo id) ((s.waitersOf id).foldl State.startReq (s.letGo id)) := Quiet.foldl _ _ (fun s i => Quiet.startReq s i) _
  have same : ((s.waitersOf id).foldl State.startReq (s.letGo id)).binds = (s.letGo id).binds := by
    have e := congrArg State.binds q.still
    exact e
  rw [State.finish_eq staged, same]
  exact Tab.look_mapV (fun _ (b : Binding) => { b with after := b.after.filter (· ≠ id) }) k s.binds
theorem State.finish_ports {s : State} (staged : s.staged = []) (id n : Nat) : ((s.finish id).tile n).ports = (s.tile n).ports := by
  rw [State.finish_eq staged]
  unfold State.tile
  rw [State.startReqs_tiles]
  have ports := congrArg Tile.ports (State.letGo_tile s id n)
  exact ports

/-- The token of a binding has landed, and nothing waits for the binding any longer. -/
theorem State.tokenLanded {s : State} {tile port id : Nat} {b : Binding} (staged : s.staged = []) (sd : b.sd ≠ 0) :
    let t := ((s.unbound tile port id).deliver b.h b.sd b.token).finish id
    (t.proc b.h).reg b.sd = b.token ∧ (t.proc b.h).isPending b.sd = false ∧ Tab.look t.binds id = none ∧
      id ∉ Tab.lookD (t.tile tile).ports port [] ∧ ((s.proc b.h).pst = .blockedToken b.sd → (t.proc b.h).pst = .ready) := by
  dsimp only
  obtain ⟨messages, binds, tiles, procs⟩ := (s.unbound tile port id).deliver_kept b.h b.sd b.token
  have woken (waits : (s.proc b.h).pst = .blockedToken b.sd) : (((s.unbound tile port id).deliver b.h b.sd b.token).proc b.h).pst = .ready := by
    rw [procs]
    exact State.land_wakes (s := s.unbound tile port id) waits
  have cut : Tab.look (s.unbound tile port id).binds id = none := by
    show Tab.look (Tab.cut s.binds id) id = none
    rw [Tab.look_cut, if_pos rfl]
  have off : Tab.lookD ((s.unbound tile port id).tile tile).ports port [] = (Tab.lookD (s.tile tile).ports port []).filter (· ≠ id) := by
    unfold State.unbound
    rw [State.updTile_tile_same, Tab.lookD_store_same]
  obtain ⟨x, y, z, landed⟩ := (s.unbound tile port id).land_proc b.h b.sd b.token
  have none_ : ((s.unbound tile port id).deliver b.h b.sd b.token).staged = [] := messages.trans staged
  rw [← procs] at landed
  rw [← tiles] at off
  rw [← binds] at cut
  generalize (s.unbound tile port id).deliver b.h b.sd b.token = u at *
  have ended := State.finish_ended none_ id
  obtain ⟨regs, pending, -⟩ := ended.regs b.h
  refine ⟨?_, ?_, ?_, ?_, fun waits => ?_⟩
  · rw [regs, landed]
    exact Proc.landed_reg ((s.unbound tile port id).proc b.h) b.token sd
  · rw [pending, landed]
    exact Proc.landed_isPending ((s.unbound tile port id).proc b.h) b.sd b.token
  · rw [State.finish_binds none_, cut]
    rfl
  · rw [State.finish_ports none_, off]
    simp
  · rcases ended.pst b.h with same | ⟨c, blocked, -⟩
    · rw [same, woken waits]
    · rw [woken waits] at blocked; cases blocked

theorem exec_streamComplete {s : State} {tile port id : Nat} {b : Binding} (head : s.portHead tile port = some (id, b)) (running : b.st = .running)
    (none_ : b.reqs = []) (still : b.mig = false) : exec (.streamComplete tile port) s =
      .next ((((s.unbound tile port id).writeToken id b b.token).finish id).portGoesOn tile port ((Tab.lookD (s.tile tile).ports port []).filter (· ≠ id))) := by
  show execStreamComplete tile port s = _
  unfold execStreamComplete
  simp only [head, running, none_, still, ne_eq, not_true, or_self, if_false, Bool.false_eq_true]
  rfl

theorem stream_completes {s : State} {tile port id : Nat} {b : Binding} (head : s.portHead tile port = some (id, b)) (running : b.st = .running)
    (none_ : b.reqs = []) (still : b.mig = false) (sd : b.sd ≠ 0) (mine : Tab.look (s.proc b.h).pend b.sd = some (.token id)) (staged : s.staged = [])
    (alone : ∀ e ∈ s.binds, e.1 ≠ id → e.2.h = b.h → e.2.sd ≠ b.sd) :
    ∃ t, exec (.streamComplete tile port) s = .next t ∧ (t.proc b.h).reg b.sd = b.token ∧ (t.proc b.h).isPending b.sd = false ∧
      Tab.look t.binds id = none ∧ id ∉ Tab.lookD (t.tile tile).ports port [] ∧
      ((s.proc b.h).pst = .blockedToken b.sd → (t.proc b.h).pst = .ready) := by
  have token : (s.unbound tile port id).writeToken id b b.token = (s.unbound tile port id).deliver b.h b.sd b.token := by
    exact State.writeToken_alone (s := s.unbound tile port id) sd mine (fun e he => alone e (Tab.mem_cut he)) _
  have go := exec_streamComplete head running none_ still
  rw [token] at go
  obtain ⟨value, done, gone, off, wakes⟩ := State.tokenLanded staged (s := s) (tile := tile) (port := port) (id := id) (b := b) sd
  generalize ((s.unbound tile port id).deliver b.h b.sd b.token).finish id = u at go value done gone off wakes
  obtain ⟨q, goes⟩ := u.portGoesOn_events tile port ((Tab.lookD (s.tile tile).ports port []).filter (· ≠ id))
  rw [goes] at go
  exact ⟨_, go, value, done, gone, off, wakes⟩

/-! A held binding takes an entry of its port (R92). -/

/-- A state without its bindings, ports and scheduling. -/
def State.offQueues (s : State) : State := { s with procs := [], tiles := [], binds := [], events := [], freeCtr := 0 }

/-- A binding has entered its port's queue, behind those before it; a process that waited for that goes on (R92). -/
structure Enqueued (s t : State) (id : Nat) (b : Binding) : Prop where
  binds : t.binds = Tab.put s.binds id { b with st := .queued }
  tiles : ∀ n, t.tile n = if b.tile = n then
    { s.tile b.tile with ports := Tab.put (s.tile b.tile).ports b.port (Tab.lookD (s.tile b.tile).ports b.port [] ++ [id]) } else s.tile n
  due : Tab.lookD (s.tile b.tile).ports b.port [] = [] → ∃ e ∈ t.events, e.2 = .streamStart b.tile b.port
  procs : ∀ h, ∃ st ep si n, t.proc h = { s.proc h with pst := st, epoch := ep, since := si, need := n }
  wakes : (s.proc b.h).pst = .blockedToken b.sd → (s.proc b.h).need = id → (t.proc b.h).pst = .ready
  rest : t.offQueues = s.offQueues

theorem State.enqueueBind_enters {s : State} {id : Nat} {b : Binding} (known : Tab.look s.binds id = some b)
    (room : (Tab.lookD (s.tile b.tile).ports b.port []).length < 8) (first : (s.heldOn b.h b.port).any (fun i => decide (i < id)) = false) :
    Enqueued s (s.enqueueBind id) id b := by
  have free : ¬(Config.portDepth ≤ (Tab.lookD (s.tile b.tile).ports b.port []).length ∨ (s.heldOn b.h b.port).any (fun i => decide (i < id)) = true) := by
    rw [first]
    exact not_or.2 ⟨Nat.not_le.2 room, Bool.false_ne_true⟩
  unfold State.enqueueBind
  simp only [known, if_neg free]
  generalize queued : (({ s with binds := Tab.put s.binds id { b with st := .queued } } : State).updTile b.tile fun t =>
    { t with ports := Tab.put t.ports b.port (Tab.lookD (s.tile b.tile).ports b.port [] ++ [id]) }) = u
  have tiles (n : Nat) : u.tile n = if b.tile = n then
      { s.tile b.tile with ports := Tab.put (s.tile b.tile).ports b.port (Tab.lookD (s.tile b.tile).ports b.port [] ++ [id]) } else s.tile n := by
    rw [← queued]
    exact State.updTile_tile ..
  have kept : u.binds = Tab.put s.binds id { b with st := .queued } ∧ u.procs = s.procs ∧ u.cycle = s.cycle ∧ u.offQueues = s.offQueues := by
    rw [← queued]
    exact ⟨rfl, rfl, rfl, rfl⟩
  clear queued
  obtain ⟨binds, procs, cycle, rest⟩ := kept
  have told : ∀ v, v = (if (Tab.lookD (s.tile b.tile).ports b.port []).isEmpty = true then u.later (.streamStart b.tile b.port) else u) →
      v.binds = u.binds ∧ v.procs = u.procs ∧ v.tiles = u.tiles ∧ v.offQueues = u.offQueues ∧
        (Tab.lookD (s.tile b.tile).ports b.port [] = [] → ∃ e ∈ v.events, e.2 = .streamStart b.tile b.port) := by
    rintro v rfl
    split
    · exact ⟨rfl, rfl, rfl, rfl, fun _ => ⟨_, mem_insertDue _ _ _, rfl⟩⟩
    · next some_ => exact ⟨rfl, rfl, rfl, rfl, fun none_ => absurd (List.isEmpty_iff.2 none_) some_⟩
  generalize (if (Tab.lookD (s.tile b.tile).ports b.port []).isEmpty = true then u.later (.streamStart b.tile b.port) else u) = v at told
  obtain ⟨binds', procs', tiles', rest', due⟩ := told v rfl
  have proc (h : Nat) : v.proc h = s.proc h := by unfold State.proc; rw [procs', procs]
  have tile (n : Nat) : v.tile n = u.tile n := by unfold State.tile; rw [tiles']
  split
  · refine ⟨binds'.trans binds, fun n => (tile n).trans (tiles n), due, fun h => ?_, fun _ _ => ?_, rest'.trans rest⟩
    · rw [State.updProc_proc]
      split
      · subst_vars
        rw [proc]
        exact ⟨_, _, _, _, rfl⟩
      · rw [proc]
        exact ⟨_, _, _, _, rfl⟩
    · rw [State.updProc_proc_same]
      rfl
  · next busy =>
    rw [proc] at busy
    exact ⟨binds'.trans binds, fun n => (tile n).trans (tiles n), due, fun h => ⟨_, _, _, _, proc h⟩, fun waits need => absurd ⟨waits, need⟩ busy, rest'.trans rest⟩

theorem held_enqueues {s : State} {h port id : Nat} {b : Binding} {l : List Nat} (held : s.heldOn h port = id :: l) (first : ∀ i ∈ l, id < i)
    (known : Tab.look s.binds id = some b) (owner : b.h = h) (own : b.port = port) (room : (Tab.lookD (s.tile b.tile).ports port []).length < 8)
    (ss : (s.proc h).ss = false) :
    ∃ t, exec (.heldBindingEnqueue h port) s = .next t ∧ Tab.look t.binds id = some { b with st := .queued } ∧
      Tab.lookD (t.tile b.tile).ports port [] = Tab.lookD (s.tile b.tile).ports port [] ++ [id] ∧
      ((s.proc h).pst = .blockedToken b.sd → (s.proc h).need = id → (t.proc h).pst = .ready) := by
  subst owner own
  have earliest : (s.heldOn b.h b.port).any (fun i => decide (i < id)) = false := by
    rw [held, List.any_eq_false]
    intro i hi
    rw [decide_eq_true_eq]
    rcases List.mem_cons.1 hi with rfl | later
    · exact Nat.lt_irrefl _
    · exact Nat.lt_asymm (first i later)
  have entered := State.enqueueBind_enters known room earliest
  obtain ⟨st, ep, si, n, proc⟩ := entered.procs b.h
  have free : ((s.enqueueBind id).proc b.h).steps = false := by
    rw [proc]
    unfold Proc.steps
    rw [show (Proc.ss { s.proc b.h with pst := st, epoch := ep, since := si, need := n }) = (s.proc b.h).ss from rfl, ss]
    rfl
  have run : exec (.heldBindingEnqueue b.h b.port) s = .next (s.enqueueBind id) := by
    show execHeldBindingEnqueue b.h b.port s = _
    unfold execHeldBindingEnqueue
    simp only [held, List.head?_cons, free, Bool.false_eq_true, and_false, if_false]
  refine ⟨_, run, ?_, ?_, entered.wakes⟩
  · rw [entered.binds, Tab.look_put_same]
  · rw [entered.tiles, if_pos rfl]
    exact Tab.lookD_put_same ..

end Sys2Proof.Machine
end

section
/-! PROOFS. O37: a stream port copies a LOCAL sector, word by word (R93, R107, R115). -/

namespace Sys2Proof.Machine

/-! The words of a sector. -/

/-- A sector that begins and ends at doublewords is cut into doublewords (R93). -/
theorem cuts_words {base : Nat} (aligned : base % 8 = 0) : ∀ (m f off : Nat), off % 8 = 0 → m ≤ f →
    cuts base f off (8 * m) = (List.range m).map fun i => (off + 8 * i, 8)
  | 0, 0, _, _, _ => rfl
  | 0, _ + 1, _, _, _ => rfl
  | m + 1, f + 1, off, at_, le => by
    have fits : (decide (8 ≤ 8 * (m + 1) ∧ (base + off) % 8 = 0)) = true := decide_eq_true ⟨by omega, by omega⟩
    have next := cuts_words aligned m f (off + 8) (by omega) (by omega)
    rw [cuts]
    simp only [if_neg (show ¬8 * (m + 1) = 0 by omega), fits, if_true]
    rw [show 8 * (m + 1) - 8 = 8 * m by omega, next, List.range_succ_eq_map, List.map_cons, List.map_map]
    congr 1
    refine List.map_congr_left fun i _ => ?_
    show (off + 8 + 8 * i, 8) = (off + 8 * (i + 1), 8)
    rw [Nat.mul_add, Nat.add_assoc, Nat.add_comm 8]

/-- The doublewords of `n` bytes of a slice from `key` on. -/
def sliceWords (key n : Nat) : List (Nat × Nat × Place) := (List.range (n / 8)).map fun i => (8 * i, 8, .sram (key + 8 * i) false)

theorem sliceWords_drop {key n j : Nat} (more : j < n / 8) :
    (sliceWords key n).drop j = (8 * j, 8, .sram (key + 8 * j) false) :: (sliceWords key n).drop (j + 1) := by
  unfold sliceWords
  rw [List.drop_eq_getElem_cons (by rw [List.length_map, List.length_range]; exact more)]
  simp
theorem sliceWords_done (key n : Nat) : (sliceWords key n).drop (n / 8) = [] :=
  List.drop_eq_nil_of_le (by rw [sliceWords, List.length_map, List.length_range])

/-- Words of slices are not joined (R210). -/
theorem joinBlocks_slice {α : Type} (key : α → Nat) (off : α → Nat) (l : List α) :
    joinBlocks (l.map fun i => (off i, 8, .sram (key i) false)) = l.map fun i => (off i, 8, .sram (key i) false) := by
  induction l with
  | nil => rfl
  | cons i l ih =>
    rw [List.map_cons]
    unfold joinBlocks at ih ⊢
    rw [List.foldr_cons, ih]
    rfl

/-- A word in the window of a process (R80). -/
theorem WindowBytes.placeLocal {s : State} {h a n : Nat} {c : Ctx} (w : WindowBytes s h a n) (base : c.wbase = (s.proc h).wbase)
    (size : c.wsize = (s.proc h).wsize) (part : c.part = (s.proc h).part) {x m : Nat} (low : a ≤ x) (high : x + m ≤ a + n) (some_ : 0 < m) :
    s.placeLocal c x m = .ok (.sram (c.tile * 0x100000 + x) false) := by
  obtain ⟨wlow, whigh, slice, kept⟩ := w
  have inside : (s.part c.part).inBuffer x m = false := by
    rw [part]
    unfold Partition.inBuffer
    exact decide_eq_false (by unfold Config.sliceBytes; omega)
  have good : s.isWithdrawn (c.tile * 0x100000 + x) m = false := by
    unfold State.isWithdrawn
    rw [kept]
    simp
  unfold State.placeLocal
  rw [good, inside, base, size, if_neg (by simp only [Bool.false_eq_true, or_false]; omega)]
  rfl

theorem State.placeOf_local {s : State} {c : Ctx} (typ : c.typ = 0) (a : Word) (n : Nat) (p : Perm) :
    s.placeOf c a n 1 p = (s, s.placeLocal c a.toNat n) := by
  unfold State.placeOf
  simp [typ, Nat.mod_one]

/-- A pass over pieces that all pass their checks. -/
theorem State.placePieces {s : State} {c : Ctx} {a : Word} {perm : Perm} (key : Nat → Nat) : ∀ (l : List Nat) (ps : List (Nat × Nat × Place)),
    (∀ i ∈ l, s.placeOf c (a + BitVec.ofNat 64 (8 * i)) 8 1 perm = (s, .ok (.sram (key i) false))) →
    (l.map fun i => (8 * i, 8)).foldl (fun (st : State × List (Nat × Nat × Place) × Option Cause × List Nat) e =>
      match st with
      | (s, ps, err, pages) => match s.placeOf c (a + BitVec.ofNat 64 e.1) e.2 1 perm with
        | (s, .ok p) => (s, (e.1, e.2, p) :: ps, err, pages)
        | (s, .error k) => (s, ps, if err.isNone then some k else err,
          if k = .pageFault then pages ++ [(a + BitVec.ofNat 64 e.1).toNat / 65536 % 2 ^ 32] else pages)) (s, ps, none, []) =
      (s, (l.map fun i => (8 * i, 8, .sram (key i) false)).reverse ++ ps, none, [])
  | [], ps, _ => rfl
  | i :: l, ps, placed => by
    rw [List.map_cons, List.foldl_cons]
    simp only [placed i List.mem_cons_self]
    rw [State.placePieces key l _ fun k hk => placed k (List.mem_cons_of_mem _ hk)]
    simp

/-- The sector of a side lies in the window of the binding's process. -/
structure LocalSide (s : State) (b : Binding) (side a n : Nat) : Prop where
  home : b.tile = (s.proc b.h).tile ∧ b.part = (s.proc b.h).part
  typ : (if side = 0 then b.sspace else b.dspace) = 0
  sector : b.sector = n ∧ 8 ≤ n ∧ n ≤ 65536 ∧ n % 8 = 0
  addr : (b.addr side).toNat = a ∧ a % 8 = 0
  window : WindowBytes s b.h a n

/-- The places of a LOCAL sector are its doublewords (R93). -/
theorem LocalSide.places {s : State} {b : Binding} {side a n : Nat} (l : LocalSide s b side a n) :
    s.sectorPlaces b side = (s, .ok (sliceWords (b.tile * 0x100000 + a) n)) := by
  obtain ⟨⟨tile, part⟩, typ, ⟨sector, low, high, words⟩, ⟨addr, aligned⟩, window⟩ := l
  have ctx : (s.bindCtx b side).typ = 0 := typ
  have base : s.homeBase (s.bindCtx b side) = 0 := by
    unfold State.homeBase
    simp [ctx]
  have fits : a + n ≤ 0x100000 := by have := window.slice; omega
  have placed (i : Nat) (hi : i ∈ List.range (n / 8)) : s.placeOf (s.bindCtx b side) (b.addr side + BitVec.ofNat 64 (8 * i)) 8 1
      (if side = 0 then .load else .store) = (s, .ok (.sram (b.tile * 0x100000 + a + 8 * i) false)) := by
    have inside := List.mem_range.1 hi
    have at_ : (b.addr side + BitVec.ofNat 64 (8 * i)).toNat = a + 8 * i := by
      rw [BitVec.toNat_add, BitVec.toNat_ofNat, addr]
      omega
    have place := window.placeLocal (c := s.bindCtx b side) rfl rfl part (x := a + 8 * i) (m := 8) (by omega) (by omega) (by omega)
    rw [State.placeOf_local ctx, at_, place, Nat.add_assoc]
    rfl
  have cut : cuts (s.homeBase (s.bindCtx b side) + (b.addr side).toNat) 8208 0 b.sector = (List.range (n / 8)).map fun i => (8 * i, 8) := by
    have words' := cuts_words (base := 0 + a) (by omega) (n / 8) 8208 0 rfl (by omega)
    rw [base, addr, sector, show n = 8 * (n / 8) by omega, words']
    simp
  have pass := State.placePieces (s := s) (c := s.bindCtx b side) (a := b.addr side) (perm := if side = 0 then .load else .store)
    (fun i => b.tile * 0x100000 + a + 8 * i) (List.range (n / 8)) [] placed
  unfold State.sectorPlaces
  simp only [cut]
  erw [pass]
  simp only [List.append_nil, List.reverse_reverse]
  rw [joinBlocks_slice]
  rfl

/-! One word (R107). -/

/-- What the steps of a port leave: tiles, processes, partitions, and which lines are withdrawn. -/
structure PortStep (s w : State) : Prop where
  tiles : w.tiles = s.tiles
  procs : w.procs = s.procs
  parts : w.parts = s.parts
  withdrawn : w.withdrawn = s.withdrawn
  cycle : w.cycle = s.cycle

theorem PortStep.refl (s : State) : PortStep s s := ⟨rfl, rfl, rfl, rfl, rfl⟩
theorem PortStep.trans {s u w : State} (a : PortStep s u) (b : PortStep u w) : PortStep s w :=
  ⟨b.tiles.trans a.tiles, b.procs.trans a.procs, b.parts.trans a.parts, b.withdrawn.trans a.withdrawn, b.cycle.trans a.cycle⟩

/-- The port's binding is `b'` now, and its next step is on the list. -/
def State.wordDone (s : State) (id : Nat) (b : Binding) : State :=
  ({ s with binds := Tab.put s.binds id b } : State).later (.streamSector b.tile b.port)

theorem State.wordDone_step (s : State) (id : Nat) (b : Binding) : PortStep s (s.wordDone id b) := ⟨rfl, rfl, rfl, rfl, rfl⟩
theorem State.wordDone_bind (s : State) (id : Nat) (b : Binding) : Tab.look (s.wordDone id b).binds id = some b := Tab.look_put_same ..
theorem State.wordDone_due (s : State) (id : Nat) (b : Binding) : ∃ e ∈ (s.wordDone id b).events, e.2 = .streamSector b.tile b.port :=
  ⟨_, mem_insertDue _ _ _, rfl⟩
theorem State.wordDone_memory (s : State) (id : Nat) (b : Binding) : SameMemory s (s.wordDone id b) := .of_tables rfl rfl rfl rfl rfl fun _ => rfl

/-- A word of the own slice is read, or written, at once (R107). -/
theorem State.streamWord_slice {s : State} {id k off : Nat} {b : Binding} {rest : List (Nat × Nat × Place)} (todo : b.todo = (off, 8, .sram k false) :: rest)
    (kept : s.withdrawn = []) : s.streamWord id b = if b.writing then
      (s.sramStore k (wbytes ((List.range 8).map fun i => ((b.data.find? fun e => e.1 == off + i).map fun e => e.2).getD 0))).wordDone id { b with todo := rest }
    else s.wordDone id { b with todo := rest, data := b.data ++ (s.sramRead k 8).zipIdx.map fun x => (off + x.2, x.1) } := by
  have good : s.isWithdrawn k 8 = false := by
    unfold State.isWithdrawn
    rw [kept]
    simp
  unfold State.streamWord
  simp only [todo, good, Bool.false_eq_true, if_false]
  split
  · rfl
  · rfl

/-- The head of a port whose queue is as before. -/
theorem PortStep.head {s w : State} (step : PortStep s w) {tile port id : Nat} {b c : Binding} (head : s.portHead tile port = some (id, b))
    (now : Tab.look w.binds id = some c) : w.portHead tile port = some (id, c) := by
  obtain ⟨-, rest, queue⟩ := State.portHead_known head
  unfold State.portHead State.tile
  rw [step.tiles]
  have first : Tab.lookD (Tab.lookD s.tiles tile {}).ports port [] = id :: rest := queue
  rw [first]
  simp [now]

/-- A running binding that has words left goes on with the next one (R93). -/
theorem streamSector_word {s : State} {tile port id : Nat} {b : Binding} (head : s.portHead tile port = some (id, b)) (running : b.st = .running)
    (none_ : b.reqs = []) (good : b.err = none) (still : b.mig = false) (more : b.todo ≠ []) :
    exec (.streamSector tile port) s = .next (s.streamWord id b) := by
  show execStreamSector tile port s = _
  unfold execStreamSector
  simp only [head, running, none_, good, still, more, ne_eq, not_true, not_false_eq_true, or_self, Option.isSome_none, Bool.false_eq_true, if_false, if_true, Bool.false_and]

/-- A binding that reads nothing and has read nothing begins its sector (R93). -/
theorem streamSector_reads {s : State} {tile port id a n : Nat} {b : Binding} (head : s.portHead tile port = some (id, b)) (running : b.st = .running)
    (none_ : b.reqs = []) (good : b.err = none) (still : b.mig = false) (todo : b.todo = []) (reading : b.writing = false) (fresh : b.data = [])
    (side : LocalSide s b 0 a n) :
    exec (.streamSector tile port) s = .next (s.streamWord id { b with todo := sliceWords (b.tile * 0x100000 + a) n }) := by
  show execStreamSector tile port s = _
  unfold execStreamSector
  simp only [head, running, none_, good, still, todo, reading, fresh, side.places, ne_eq, not_true, or_self, Option.isSome_none, Bool.false_eq_true, if_false,
    Bool.false_and, List.isEmpty_nil, if_true]
/-- What it has read it writes (R93). -/
theorem streamSector_writes {s : State} {tile port id a n : Nat} {b : Binding} (head : s.portHead tile port = some (id, b)) (running : b.st = .running)
    (none_ : b.reqs = []) (good : b.err = none) (still : b.mig = false) (todo : b.todo = []) (reading : b.writing = false) (read : b.data ≠ [])
    (side : LocalSide s b 1 a n) :
    exec (.streamSector tile port) s = .next (s.streamWord id { b with todo := sliceWords (b.tile * 0x100000 + a) n, writing := true }) := by
  show execStreamSector tile port s = _
  unfold execStreamSector
  simp only [head, running, none_, good, still, todo, reading, List.isEmpty_eq_false_iff.2 read, side.places, ne_eq, not_true, or_self, Option.isSome_none,
    Bool.false_eq_true, if_false, Bool.false_and]
/-- What it has written ends its sector (R93). -/
theorem streamSector_ends {s : State} {tile port id : Nat} {b : Binding} (head : s.portHead tile port = some (id, b)) (running : b.st = .running)
    (none_ : b.reqs = []) (good : b.err = none) (still : b.mig = false) (todo : b.todo = []) (writing : b.writing = true) :
    exec (.streamSector tile port) s =
      .next (({ s with binds := Tab.put s.binds id { b with writing := false, data := [], done := b.done + 1 } } : State).afterCycles 1
        (if b.count ≤ b.done + 1 then .streamComplete tile port else .streamSector tile port)) := by
  show execStreamSector tile port s = _
  unfold execStreamSector
  simp only [head, running, none_, good, still, todo, writing, ne_eq, not_true, or_self, Option.isSome_none, Bool.false_eq_true, if_false, Bool.false_and, if_true]
  split <;> rfl

/-! Many words. -/

theorem sectorSteps_succ {tile port : Nat} : ∀ {n : Nat} {s w : State}, sectorSteps tile port n s = .next w →
    sectorSteps tile port (n + 1) s = exec (.streamSector tile port) w
  | 0, s, w, run => by
    cases run
    show (match exec (.streamSector tile port) s with | .next t => sectorSteps tile port 0 t | o => o) = _
    cases exec (.streamSector tile port) s <;> rfl
  | n + 1, s, w, run => by
    rw [sectorSteps] at run ⊢
    cases first : exec (.streamSector tile port) s with
    | next u =>
      rw [first] at run
      exact sectorSteps_succ run
    | _ => rw [first] at run; cases run

/-- Bytes of a slice with their offsets, as a stream keeps them. -/
def State.copyBytes (s : State) (key n : Nat) : List (Nat × Byte) := (List.range n).map fun o => (o, s.sramByte (key + o))

theorem State.copyBytes_word {s w : State} (same : SameMemory s w) (key j : Nat) :
    s.copyBytes key (8 * j) ++ ((w.sramRead (key + 8 * j) 8).zipIdx.map fun x => (8 * j + x.2, x.1)) = s.copyBytes key (8 * (j + 1)) := by
  have bytes (i : Nat) : w.sramByte (key + 8 * j + i) = s.sramByte (key + (8 * j + i)) := by rw [same.sram, Nat.add_assoc]
  unfold State.copyBytes State.sramRead
  rw [Nat.mul_add, List.range_add, List.map_append, List.map_map]
  congr 1
  apply List.ext_getElem
  · simp
  · intro i h1 h2
    simp [bytes]
theorem State.copyBytes_byte (s : State) (key : Nat) {n o : Nat} (inside : o < n) :
    (((s.copyBytes key n).find? fun e => e.1 == o).map fun e => e.2).getD 0 = s.sramByte (key + o) := by
  have found : (List.range n).find? (fun i => i == o) = some o :=
    List.find?_range_eq_some.2 ⟨beq_self_eq_true o, List.mem_range.2 inside, fun j lt => by simp [Nat.ne_of_lt lt]⟩
  have same : ((fun e : Nat × Byte => e.1 == o) ∘ fun i => (i, s.sramByte (key + i))) = fun i => i == o := rfl
  unfold State.copyBytes
  rw [List.find?_map, same, found]
  rfl

section
variable {s : State} {port id a d n : Nat} {b : Binding}

/-- The binding of a port after it has read `j` words of its sector. -/
def readState (s : State) (b : Binding) (a n j : Nat) : Binding :=
  { b with todo := (sliceWords (b.tile * 0x100000 + a) n).drop j, data := s.copyBytes (b.tile * 0x100000 + a) (8 * j) }
/-- The binding of a port after it has written `j` words of its sector. -/
def writeState (s : State) (b : Binding) (a d n j : Nat) : Binding :=
  { b with todo := (sliceWords (b.tile * 0x100000 + d) n).drop j, data := s.copyBytes (b.tile * 0x100000 + a) n, writing := true }

theorem LocalSide.of_step {w : State} {side : Nat} {c : Binding} (l : LocalSide s b side a n) (step : PortStep s w)
    (same : c.h = b.h ∧ c.tile = b.tile ∧ c.part = b.part ∧ c.sspace = b.sspace ∧ c.dspace = b.dspace ∧ c.sector = b.sector ∧ c.addr side = b.addr side) :
    LocalSide w c side a n := by
  obtain ⟨⟨tile, part⟩, typ, sector, addr, ⟨low, high, slice, kept⟩⟩ := l
  obtain ⟨h, ctile, cpart, cs, cd, csector, caddr⟩ := same
  have proc (k : Nat) : w.proc k = s.proc k := by unfold State.proc; rw [step.procs]
  have parts (k : Nat) : w.part k = s.part k := by unfold State.part; rw [step.parts]
  refine ⟨?_, by rw [cs, cd]; exact typ, csector.symm ▸ sector, caddr.symm ▸ addr, ⟨?_, ?_, ?_, step.withdrawn.trans kept⟩⟩
  · rw [h, ctile, cpart, proc]; exact ⟨tile, part⟩
  · rw [h, proc]; exact low
  · rw [h, proc]; exact high
  · rw [h, proc, parts]; exact slice

theorem CopiesNext.source (c : CopiesNext s port id b a d n) : LocalSide s b 0 a n := by
  obtain ⟨head, ⟨port_, tile, part⟩, ⟨sspace, dspace, gather, mig⟩, idle, sector, ⟨at_, aligned, window⟩, dst⟩ := c
  have addr : b.addr 0 = BitVec.ofNat 64 b.sbase + BitVec.ofNat 64 b.done * b.sstride := by unfold Binding.addr; rw [gather]; rfl
  exact ⟨⟨tile, part⟩, sspace, sector, ⟨by rw [addr]; exact at_, aligned⟩, window⟩
theorem CopiesNext.dest (c : CopiesNext s port id b a d n) : LocalSide s b 1 d n := by
  obtain ⟨head, ⟨port_, tile, part⟩, ⟨sspace, dspace, gather, mig⟩, idle, sector, src, ⟨at_, aligned, window⟩⟩ := c
  have addr : b.addr 1 = BitVec.ofNat 64 b.dbase + BitVec.ofNat 64 b.done * b.dstride := by unfold Binding.addr; rw [gather]; rfl
  exact ⟨⟨tile, part⟩, dspace, sector, ⟨by rw [addr]; exact at_, aligned⟩, window⟩

/-- The first `j` words of a sector have been read. -/
structure ReadTo (s w : State) (id : Nat) (b : Binding) (a n j : Nat) : Prop where
  step : PortStep s w
  memory : SameMemory s w
  bind : 0 < j → Tab.look w.binds id = some (readState s b a n j)
  due : 0 < j → ∃ e ∈ w.events, e.2 = .streamSector b.tile b.port
  start : j = 0 → w = s

/-- The next step reads the next word (R93). -/
theorem ReadTo.next {w : State} {j : Nat} (c : CopiesNext s port id b a d n) (read : ReadTo s w id b a n j) (more : j < n / 8) :
    exec (.streamSector b.tile port) w = .next (w.streamWord id (readState s b a n j)) := by
  obtain ⟨running, none_, todo, fresh, reading, good⟩ := c.idle
  have still := c.local_.2.2.2
  rcases Nat.eq_zero_or_pos j with rfl | pos
  · have go := streamSector_reads c.head running none_ good still todo reading fresh c.source
    have first : readState s b a n 0 = { b with todo := sliceWords (b.tile * 0x100000 + a) n } := by
      unfold readState State.copyBytes
      rw [fresh]
      rfl
    rw [read.start rfl, go, first]
  · have head := read.step.head c.head (read.bind pos)
    exact streamSector_word head running none_ good still (by unfold readState; rw [sliceWords_drop more]; exact List.cons_ne_nil _ _)

theorem CopiesNext.reads (c : CopiesNext s port id b a d n) : ∀ j, j ≤ n / 8 → ∃ w, sectorSteps b.tile port j s = .next w ∧ ReadTo s w id b a n j
  | 0, _ => ⟨s, rfl, .refl s, .refl s, fun h => absurd h (Nat.lt_irrefl 0), fun h => absurd h (Nat.lt_irrefl 0), fun _ => rfl⟩
  | j + 1, more => by
    obtain ⟨w, run, read⟩ := c.reads j (by omega)
    have kept : w.withdrawn = [] := read.step.withdrawn.trans c.src.2.2.kept
    have go := read.next c (by omega)
    have word : (readState s b a n j).todo = (8 * j, 8, .sram (b.tile * 0x100000 + a + 8 * j) false) :: (sliceWords (b.tile * 0x100000 + a) n).drop (j + 1) :=
      sliceWords_drop (by omega)
    have reading : (readState s b a n j).writing = false := c.idle.2.2.2.2.1
    have next : w.streamWord id (readState s b a n j) = w.wordDone id (readState s b a n (j + 1)) := by
      rw [State.streamWord_slice word kept, if_neg (by rw [reading]; exact Bool.false_ne_true)]
      unfold readState
      dsimp only
      rw [State.copyBytes_word read.memory]
    refine ⟨w.wordDone id (readState s b a n (j + 1)), ?_, read.step.trans (w.wordDone_step ..), read.memory.trans (w.wordDone_memory ..),
      fun _ => w.wordDone_bind .., fun _ => w.wordDone_due .., fun h => absurd h (Nat.succ_ne_zero j)⟩
    rw [sectorSteps_succ run, go, next]

/-- The first `j` words of a sector that was read have been written. -/
structure WroteTo (s w : State) (id : Nat) (b : Binding) (a d n j : Nat) : Prop where
  step : PortStep s w
  bytes : ∀ k, w.sramByte k = if b.tile * 0x100000 + d ≤ k ∧ k < b.tile * 0x100000 + d + 8 * j then
    s.sramByte (k - (b.tile * 0x100000 + d) + (b.tile * 0x100000 + a)) else s.sramByte k
  bind : Tab.look w.binds id = some (if j = 0 then readState s b a n (n / 8) else writeState s b a d n j)

/-- The next step writes the next word (R93). -/
theorem WroteTo.next {w : State} {j : Nat} (c : CopiesNext s port id b a d n) (wrote : WroteTo s w id b a d n j) (more : j < n / 8) :
    exec (.streamSector b.tile port) w = .next (w.streamWord id (writeState s b a d n j)) := by
  obtain ⟨running, none_, todo, fresh, reading, good⟩ := c.idle
  have still := c.local_.2.2.2
  have head := wrote.step.head c.head wrote.bind
  rcases Nat.eq_zero_or_pos j with rfl | pos
  · have some_ : (readState s b a n (n / 8)).data ≠ [] := by
      unfold readState State.copyBytes
      rw [ne_eq, List.map_eq_nil_iff, List.range_eq_nil]
      omega
    have go := streamSector_writes head running none_ good still (sliceWords_done ..) reading some_
      (c.dest.of_step wrote.step ⟨rfl, rfl, rfl, rfl, rfl, rfl, rfl⟩)
    have whole : 8 * (n / 8) = n := by
      obtain ⟨-, -, -, words⟩ := c.sector
      omega
    rw [go]
    unfold readState writeState
    simp only [if_true, whole, List.drop_zero]
  · rw [if_neg (Nat.pos_iff_ne_zero.1 pos)] at head
    exact streamSector_word head running none_ good still (by unfold writeState; rw [sliceWords_drop more]; exact List.cons_ne_nil _ _)

/-- One word more of a copy. -/
theorem copied_word (f : Nat → Byte) (goal source j k : Nat) :
    (if goal + 8 * j + 0 ≤ k ∧ k < goal + 8 * j + 0 + 8 then ((List.range 8).map fun i => f (source + (8 * j + i))).getD (k - (goal + 8 * j + 0)) 0
      else if goal ≤ k ∧ k < goal + 8 * j then f (k - goal + source) else f k) =
    if goal ≤ k ∧ k < goal + 8 * (j + 1) then f (k - goal + source) else f k := by
  by_cases here : goal + 8 * j + 0 ≤ k ∧ k < goal + 8 * j + 0 + 8
  · rw [if_pos here, if_pos (by omega), List.getD_eq_getElem _ _ (by rw [List.length_map, List.length_range]; omega)]
    simp only [List.getElem_map, List.getElem_range]
    congr 1
    omega
  · rw [if_neg here]
    by_cases before : goal ≤ k ∧ k < goal + 8 * j
    · rw [if_pos before, if_pos (by omega)]
    · rw [if_neg before, if_neg (by omega)]

/-- A word of the sector is stored (R81). -/
theorem WroteTo.stores {w : State} {j : Nat} (wrote : WroteTo s w id b a d n j) (more : j < n / 8) :
    ∃ u, w.sramStore (b.tile * 0x100000 + d + 8 * j) (wbytes ((List.range 8).map fun i =>
        (((writeState s b a d n j).data.find? fun e => e.1 == 8 * j + i).map fun e => e.2).getD 0)) = u ∧ PortStep w u ∧
      ∀ k, u.sramByte k = if b.tile * 0x100000 + d ≤ k ∧ k < b.tile * 0x100000 + d + 8 * (j + 1) then
        s.sramByte (k - (b.tile * 0x100000 + d) + (b.tile * 0x100000 + a)) else s.sramByte k := by
  have word : ((List.range 8).map fun i => (((writeState s b a d n j).data.find? fun e => e.1 == 8 * j + i).map fun e => e.2).getD 0) =
      (List.range 8).map fun i => s.sramByte (b.tile * 0x100000 + a + (8 * j + i)) := by
    refine List.map_congr_left fun i hi => ?_
    have small := List.mem_range.1 hi
    exact s.copyBytes_byte (b.tile * 0x100000 + a) (by omega)
  rw [word]
  refine ⟨_, rfl, ?_, fun k => ?_⟩
  · obtain ⟨m, tg, stored⟩ := State.sramStore_eq (b.tile * 0x100000 + d + 8 * j) (wbytes ((List.range 8).map fun i => s.sramByte (b.tile * 0x100000 + a + (8 * j + i)))) w
    rw [stored]
    exact ⟨rfl, rfl, rfl, rfl, rfl⟩
  · have stored := (State.sramStore_from (b.tile * 0x100000 + d + 8 * j) ((List.range 8).map fun i => s.sramByte (b.tile * 0x100000 + a + (8 * j + i))) 0 w).1 k
    rw [show wbytes ((List.range 8).map fun i => s.sramByte (b.tile * 0x100000 + a + (8 * j + i))) =
      wbytesFrom 0 ((List.range 8).map fun i => s.sramByte (b.tile * 0x100000 + a + (8 * j + i))) from rfl, stored, wrote.bytes, List.length_map, List.length_range]
    exact copied_word s.sramByte (b.tile * 0x100000 + d) (b.tile * 0x100000 + a) j k

theorem CopiesNext.writes {t : State} (c : CopiesNext s port id b a d n) (read : ReadTo s t id b a n (n / 8)) :
    ∀ j, j ≤ n / 8 → ∃ w, sectorSteps b.tile port j t = .next w ∧ WroteTo s w id b a d n j
  | 0, _ => by
    obtain ⟨-, low, -, -⟩ := c.sector
    exact ⟨t, rfl, read.step, fun k => by rw [if_neg (by omega), read.memory.sram], by rw [if_pos rfl]; exact read.bind (by omega)⟩
  | j + 1, more => by
    obtain ⟨w, run, wrote⟩ := c.writes read j (by omega)
    obtain ⟨u, stored, step, bytes⟩ := wrote.stores (by omega)
    have kept : w.withdrawn = [] := wrote.step.withdrawn.trans c.src.2.2.kept
    have go := wrote.next c (by omega)
    have word : (writeState s b a d n j).todo = (8 * j, 8, .sram (b.tile * 0x100000 + d + 8 * j) false) :: (sliceWords (b.tile * 0x100000 + d) n).drop (j + 1) :=
      sliceWords_drop (by omega)
    have next : w.streamWord id (writeState s b a d n j) = u.wordDone id (writeState s b a d n (j + 1)) := by
      rw [State.streamWord_slice word kept, if_pos (show (writeState s b a d n j).writing = true from rfl), stored]
      rfl
    refine ⟨u.wordDone id (writeState s b a d n (j + 1)), ?_, (wrote.step.trans step).trans (u.wordDone_step ..), bytes, ?_⟩
    · rw [sectorSteps_succ run, go, next]
    · rw [if_neg (Nat.succ_ne_zero j)]
      exact u.wordDone_bind ..

/-- O37, a LOCAL sector. -/
theorem stream_copies (c : CopiesNext s port id b a d n) :
    ∃ t u v, sectorSteps b.tile port (n / 8) s = .next t ∧ SameMemory s t ∧ (∃ e ∈ t.events, e.2 = .streamSector b.tile port) ∧
      (∀ j, j ≤ n / 8 → ∃ w, sectorSteps b.tile port j t = .next w ∧
        ∀ k, w.sramByte k = if b.tile * 0x100000 + d ≤ k ∧ k < b.tile * 0x100000 + d + 8 * j then
          s.sramByte (k - (b.tile * 0x100000 + d) + (b.tile * 0x100000 + a)) else s.sramByte k) ∧
      sectorSteps b.tile port (n / 8) t = .next u ∧
      exec (.streamSector b.tile port) u = .next v ∧ SameMemory u v ∧ Tab.look v.binds id = some { b with done := b.done + 1 } ∧
      (s.cycle + 1, if b.count ≤ b.done + 1 then .streamComplete b.tile port else .streamSector b.tile port) ∈ v.events := by
  have words : 0 < n / 8 := by
    obtain ⟨-, low, -, -⟩ := c.sector
    omega
  obtain ⟨running, none_, todo, fresh, reading, good⟩ := c.idle
  obtain ⟨t, reads, read⟩ := c.reads (n / 8) le_rfl
  obtain ⟨u, writes, wrote⟩ := c.writes read (n / 8) le_rfl
  have head := wrote.step.head c.head wrote.bind
  rw [if_neg (Nat.pos_iff_ne_zero.1 words)] at head
  have ends := streamSector_ends head running none_ good c.local_.2.2.2 (sliceWords_done ..) rfl
  have after : ({ writeState s b a d n (n / 8) with writing := false, data := [], done := (writeState s b a d n (n / 8)).done + 1 } : Binding) =
      { b with done := b.done + 1 } := by
    have idle : b = { b with todo := [], data := [], writing := false } := by
      rw [← todo, ← reading]
      conv_rhs => rw [show ([] : List (Nat × Byte)) = b.data from fresh.symm]
    unfold writeState
    rw [sliceWords_done]
    conv_rhs => rw [idle]
  obtain ⟨e, listed, due⟩ := read.due words
  refine ⟨t, u, _, reads, read.memory, ⟨e, listed, by rw [due, c.home.1]⟩, fun j le => ?_, writes, ends, .of_tables rfl rfl rfl rfl rfl fun _ => rfl, ?_, ?_⟩
  · obtain ⟨w, run, wrote⟩ := c.writes read j le
    exact ⟨w, run, wrote.bytes⟩
  · rw [after]
    exact Tab.look_put_same ..
  · rw [← wrote.step.cycle]
    exact mem_insertDue _ _ _

end

end Sys2Proof.Machine
end

section
/-! PROOFS. O37: SCOPY, SGATHER and SBAR (R92, R95, R96, R363, R369). -/

namespace Sys2Proof.Machine

/-! The descriptor (Table 4.7). -/

/-- The descriptor at a LOCAL offset of the running process. -/
def descOf (s : State) (a : Nat) : Desc := (List.range 8).map (descAt s a)

theorem descOf_at (s : State) (a : Nat) {i : Nat} (small : i < 8) : (descOf s a).at_ i = descAt s a i := by
  unfold descOf Desc.at_
  rw [List.getD_eq_getElem _ _ (by rw [List.length_map, List.length_range]; exact small)]
  simp
theorem descAt_lt (s : State) (a i : Nat) : descAt s a i < 2 ^ 64 := by
  have bytes := ofBytesLE_lt (s.sramRead (s.localKey (a + 8 * i)) 8)
  rw [State.ofBytesLE_sramRead] at bytes
  refine bytes.trans_eq ?_
  simp [State.sramRead]

/-- A doubleword of bytes read from the own slice. -/
theorem dword_localVal (s : State) (a : Nat) {i : Nat} (small : i < 8) : dword (s.sramRead (s.localKey a) 64) (8 * i) = descAt s a i := by
  have word : ((s.sramRead (s.localKey a) 64).drop (8 * i)).take 8 = s.sramRead (s.localKey (a + 8 * i)) 8 := by
    apply List.ext_getElem
    · simp [State.sramRead]
      omega
    · intro k h1 h2
      simp [State.sramRead, State.localKey, Nat.add_assoc]
  unfold dword
  rw [word, State.ofBytesLE_sramRead]
  rfl

/-- Nothing that the open strip holds has yet been written. -/
theorem Proc.heldBytes_empty {p : Proc} (empty : ∀ k, p.strip = some k → k.held = []) (typ : Nat) (pl : Place) (n : Nat) : p.heldBytes typ pl n = [] := by
  unfold Proc.heldBytes
  cases strip : p.strip with
  | none => rfl
  | some k =>
    dsimp only
    rw [empty k strip]
    rfl

theorem PlainDesc.read {s : State} {a : BitVec 5} {off : Nat} (at_ : (s.reg a).toNat = off) (plain : PlainDesc s off)
    (empty : ∀ k, s.me.strip = some k → k.held = []) : s.readWindow (s.reg a) 64 = .ok (s.sramRead (s.localKey off) 64) := by
  have place := plain.window.placeLocal (c := s.me.ctx s.running 0) rfl rfl rfl (x := off) (m := 64) le_rfl le_rfl (by omega)
  unfold State.readWindow
  rw [at_, place]
  dsimp only
  rw [Proc.heldBytes_empty empty, overlay_nil]
  rfl

/-- The descriptor breaks no rule (R92 step 1). -/
theorem PlainDesc.passes {s : State} {off : Nat} (plain : PlainDesc s off) {gather : Bool}
    (range : if gather then (descAt s off 4 % 2 ^ 17 = 1 ∨ descAt s off 4 % 2 ^ 17 = 2 ∨ descAt s off 4 % 2 ^ 17 = 4 ∨ descAt s off 4 % 2 ^ 17 = 8) ∧
        descAt s off 1 / 2 ^ 61 = 0
      else 1 ≤ descAt s off 4 % 2 ^ 17 ∧ descAt s off 4 % 2 ^ 17 ≤ 65536 ∧ descAt s off 4 % 8 = 0 ∧ 1 ≤ descAt s off 4 / 2 ^ 32) :
    s.descFault (descOf s off) gather = none := by
  obtain ⟨-, -, ⟨src, srcRsv⟩, ⟨dst, dstRsv⟩, sizes, five, six, seven⟩ := plain
  have bound := descAt_lt s off 4
  unfold State.descFault Desc.mig Desc.ptea Desc.sector Desc.count Desc.space
  have mig : bitAt (descAt s off 5) 63 = false := decide_eq_false (by omega)
  rw [descOf_at s off (show 0 < 8 by omega), descOf_at s off (show 1 < 8 by omega), descOf_at s off (show 4 < 8 by omega),
    descOf_at s off (show 5 < 8 by omega), descOf_at s off (show 6 < 8 by omega), descOf_at s off (show 7 < 8 by omega), mig]
  have reserved : ¬(field (descAt s off 0) 57 48 ≠ 0 ∨ field (descAt s off 1) 57 48 ≠ 0 ∨ field (descAt s off 4) 31 17 ≠ 0 ∨
      field (descAt s off 5) 62 22 ≠ 0 ∨ descAt s off 7 ≠ 0) := by
    unfold field
    omega
  have known : ¬6 ≤ field (descAt s off 0) 63 61 ∧ ¬6 ≤ field (descAt s off 1) 63 61 ∧ field (descAt s off 0) 63 61 ≠ 5 ∧ field (descAt s off 1) 63 61 ≠ 5 := by
    unfold field
    omega
  obtain ⟨srcKnown, dstKnown, srcPlain, dstPlain⟩ := known
  have sized : (if gather then !(field (descAt s off 4) 16 0 == 1 || field (descAt s off 4) 16 0 == 2 || field (descAt s off 4) 16 0 == 4 ||
        field (descAt s off 4) 16 0 == 8) || decide (field (descAt s off 1) 63 61 ≠ 0)
      else decide (field (descAt s off 4) 16 0 = 0 ∨ 65536 < field (descAt s off 4) 16 0 ∨ field (descAt s off 4) 16 0 % 8 ≠ 0 ∨
        field (descAt s off 4) 63 32 = 0)) = false := by
    cases gather with
    | true =>
      obtain ⟨size, space⟩ := range
      have local_ : field (descAt s off 1) 63 61 = 0 := by unfold field; omega
      have sector : field (descAt s off 4) 16 0 = descAt s off 4 % 2 ^ 17 := by unfold field; omega
      rw [local_, sector]
      rcases size with size | size | size | size <;> rw [size] <;> rfl
    | false =>
      obtain ⟨low, high, words, count⟩ := range
      rw [if_neg Bool.false_ne_true]
      exact decide_eq_false (by unfold field; omega)
  simp only [reserved, six, srcKnown, dstKnown, srcPlain, dstPlain, sized, ne_eq, not_true, decide_false, Bool.not_false, Bool.and_false, Bool.false_and,
    Bool.or_self, Bool.false_eq_true, if_false]

/-- The binding that a descriptor makes (R92). -/
theorem boundBy_mkBinding {s : State} {off : Nat} (plain : PlainDesc s off) (port : Nat) (d : BitVec 5) (g : Option (List (Nat × Word))) :
    BoundBy s off port d.toNat (s.mkBinding (descOf s off) port d g) := by
  obtain ⟨-, -, ⟨src, srcRsv⟩, ⟨dst, dstRsv⟩, sizes, five, six, seven⟩ := plain
  have at0 := descOf_at s off (show 0 < 8 by omega)
  have at1 := descOf_at s off (show 1 < 8 by omega)
  have at5 := descOf_at s off (show 5 < 8 by omega)
  have low (x : Nat) : field x 47 0 = x % 2 ^ 48 := by unfold field; omega
  refine ⟨⟨rfl, rfl, rfl, rfl, rfl⟩, ⟨?_, ?_⟩, ⟨?_, ?_⟩, ⟨?_, ?_⟩, ⟨?_, ?_⟩, ?_, ?_, rfl, ?_⟩
  · show field ((descOf s off).at_ 0) 63 61 = _
    rw [at0]; unfold field; omega
  · show field ((descOf s off).at_ 1) 63 61 = _
    rw [at1]; unfold field; omega
  · show field ((descOf s off).at_ 0) 47 0 = _
    rw [at0, low]
  · show field ((descOf s off).at_ 1) 47 0 = _
    rw [at1, low]
  · show s.me.cap (field ((descOf s off).at_ 0) 60 58) = _
    rw [at0]; rfl
  · show s.me.cap (field ((descOf s off).at_ 1) 60 58) = _
    rw [at1]; rfl
  · show BitVec.ofNat 64 ((descOf s off).at_ 2) = _
    rw [descOf_at s off (by omega)]
  · show BitVec.ofNat 64 ((descOf s off).at_ 3) = _
    rw [descOf_at s off (by omega)]
  · show field ((descOf s off).at_ 4) 16 0 = _
    rw [descOf_at s off (by omega)]; unfold field; omega
  · show field ((descOf s off).at_ 5) 21 0 = _
    rw [at5]; unfold field; omega
  · show bitAt ((descOf s off).at_ 5) 63 = false
    rw [at5]; exact decide_eq_false (by omega)

/-- A binding is issued: it is queued, or the strip holds it (R92, R151). -/
def State.bindIssue (s : State) (d : BitVec 5) (b : Binding) : State :=
  match s.fresh.1.me.strip with
  | some _ => (({ s.fresh.1 with binds := Tab.put s.fresh.1.binds s.fresh.2 b } : State).holdBack (.bind s.fresh.2)).retire 0x29
  | none =>
    let u := s.fresh.1.release s.fresh.1.running
    let v := ({ u.1 with binds := Tab.put u.1.binds s.fresh.2 { b with after := u.2 } } : State)
    let w := v.handOver v.running (.bind s.fresh.2)
    let waits : Bool := match Tab.look w.binds s.fresh.2 with
      | some b => decide (b.st = .held)
      | none => false
    if waits then w.portWait d.toNat s.fresh.2 else w.retire 0x29

/-- A descriptor in order makes its binding (R92). -/
theorem State.bindStream_plain {s : State} {d a : BitVec 5} {port off : Nat} {g : Option (List (Nat × Word))} {k : State → State}
    (at_ : (s.reg a).toNat = off) (plain : PlainDesc s off) (empty : ∀ k, s.me.strip = some k → k.held = [])
    (passes : s.descFault (descOf s off) g.isSome = none) : s.bindStream d a port g k = (k s).bindIssue d (s.mkBinding (descOf s off) port d g) := by
  have desc : ((List.range 8).map fun i => dword (s.sramRead (s.localKey off) 64) (8 * i)) = descOf s off :=
    List.map_congr_left fun i hi => dword_localVal s off (List.mem_range.1 hi)
  have aligned := plain.aligned
  unfold State.bindStream
  simp only [at_, aligned, ne_eq, not_true, if_false, plain.read at_ empty, desc, passes]
  rfl

/-! A binding is queued (R92). -/

/-- The running process has no binding, nothing under way and nothing on the port, and this is its next binding. -/
structure MayBind (s : State) (d : BitVec 5) (b : Binding) : Prop where
  strip : s.me.strip = none
  ss : s.me.ss = false
  quiet : NoneUnderWay s
  alone : s.binds = []
  port : Tab.lookD (s.tile s.me.tile).ports b.port [] = []
  own : b.h = s.running ∧ b.tile = s.me.tile ∧ b.sd = d.toNat
  new : b.st = .held ∧ b.after = []

/-- The new binding's register is pending (R92). -/
theorem MayBind.hands {s : State} {d : BitVec 5} {b : Binding} (m : MayBind s d b) :
    ∃ v : State, State.handOver { s.fresh.1 with binds := [(s.nextId, b)] } s.running (.bind s.nextId) = v.enqueueBind s.nextId ∧
      v.me = s.me.pended d.toNat (.token s.nextId) ∧ v.running = s.running ∧ v.binds = [(s.nextId, b)] ∧ v.tiles = s.tiles ∧ SameMemory s v ∧
      ∀ e ∈ s.events, e ∈ v.events := by
  obtain ⟨-, -, sd⟩ := m.own
  have known : Tab.look [(s.nextId, b)] s.nextId = some b := by simp [Tab.look]
  unfold State.handOver
  simp only [known]
  by_cases zero : b.sd = 0
  · refine ⟨{ s.fresh.1 with binds := [(s.nextId, b)] }, by rw [if_pos zero], ?_, rfl, rfl, rfl, .of_tables rfl rfl rfl rfl rfl fun _ => rfl, fun _ h => h⟩
    unfold Proc.pended
    rw [if_pos (by rw [← sd]; exact zero)]
    rfl
  · refine ⟨({ s.fresh.1 with binds := [(s.nextId, b)] } : State).updProc s.running fun p => { p with pend := Tab.put p.pend b.sd (.token s.nextId) },
      by rw [if_neg zero], ?_, rfl, rfl, rfl, .of_tables rfl rfl rfl rfl rfl fun _ => rfl, fun _ h => h⟩
    unfold Proc.pended
    rw [if_neg (by rw [← sd]; exact zero), ← sd]
    exact State.updProc_proc_same ..

/-- The binding has entered its port, and its process goes on (R92). -/
structure Issued (s t : State) (d : BitVec 5) (b : Binding) : Prop where
  bind : Tab.look t.binds s.nextId = some { b with st := .queued }
  queue : Tab.lookD (t.tile s.me.tile).ports b.port [] = [s.nextId]
  due : ∃ e ∈ t.events, e.2 = .streamStart s.me.tile b.port
  token : d.toNat ≠ 0 → Tab.look t.me.pend d.toNat = some (.token s.nextId)
  regs : SameRegs s t []
  went : WentTo t (s.me.pc + 4)
  memory : SameMemory s t
  units : SameUnits s t

theorem MayBind.issues {s : State} {d : BitVec 5} {b : Binding} (m : MayBind s d b) : Issued s (s.bindIssue d b) d b := by
  obtain ⟨owner, tile, sd⟩ := m.own
  obtain ⟨held, free⟩ := m.new
  obtain ⟨v, hands, me, running, binds, tiles, memory, events⟩ := m.hands
  have room : Tab.lookD (v.tile b.tile).ports b.port [] = [] := by
    unfold State.tile
    rw [tiles, tile]
    exact m.port
  have known : Tab.look v.binds s.nextId = some b := by rw [binds]; simp [Tab.look]
  have first : (v.heldOn b.h b.port).any (fun i => decide (i < s.nextId)) = false := by
    rw [List.any_eq_false]
    intro i hi
    unfold State.heldOn at hi
    obtain ⟨e, he, rfl⟩ := List.mem_map.1 hi
    rw [binds] at he
    rw [List.mem_singleton.1 (List.mem_of_mem_filter he)]
    simp
  have entered := State.enqueueBind_enters known (by rw [room]; simp) first
  have released : s.fresh.1.release s.fresh.1.running = (s.fresh.1, []) :=
    NoneUnderWay.release (s := s.fresh.1) ⟨m.quiet.staged, m.quiet.buffered, m.quiet.accesses⟩
  have queued : Tab.look (v.enqueueBind s.nextId).binds s.nextId = some { b with st := .queued } := by rw [entered.binds, Tab.look_put_same]
  have same : ({ b with after := [] } : Binding) = b := by rw [← free]
  have run : s.bindIssue d b = (v.enqueueBind s.nextId).retire 0x29 := by
    unfold State.bindIssue
    rw [show s.fresh.1.me.strip = none from m.strip]
    dsimp only
    rw [released]
    dsimp only
    rw [show s.fresh.1.binds = [] from m.alone, same]
    erw [hands]
    rw [show s.fresh.2 = s.nextId from rfl, queued]
    rfl
  generalize v.enqueueBind s.nextId = w at entered queued run
  have running' : w.running = s.running := by
    have e := congrArg State.running entered.rest
    exact e.trans running
  obtain ⟨st, ep, si, n, proc⟩ := entered.procs s.running
  have wme : w.me = { s.me.pended d.toNat (.token s.nextId) with pst := st, epoch := ep, since := si, need := n } := by
    rw [← me]
    unfold State.me
    rw [running', running]
    exact proc
  have fields : (s.me.pended d.toNat (.token s.nextId)).pc = s.me.pc ∧ (s.me.pended d.toNat (.token s.nextId)).sregs = s.me.sregs ∧
      (s.me.pended d.toNat (.token s.nextId)).caps = s.me.caps ∧ (s.me.pended d.toNat (.token s.nextId)).chans = s.me.chans ∧
      (s.me.pended d.toNat (.token s.nextId)).ss = s.me.ss := by
    unfold Proc.pended
    split <;> exact ⟨rfl, rfl, rfl, rfl, rfl⟩
  obtain ⟨pc, sregs, caps, chans, ss⟩ := fields
  have wss : w.me.ss = false := by rw [wme]; exact ss.trans m.ss
  have only := w.retire_only 0x29 wss
  have done := w.retire_me 0x29 wss
  have wpc : w.me.pc = s.me.pc := by rw [wme]; exact pc
  have binds' : (w.retire 0x29).binds = w.binds := by rw [State.retire_plain w 0x29 wss, State.countEvent_binds]; rfl
  have tile' (k : Nat) : w.tile k = if s.me.tile = k then { s.tile s.me.tile with ports := Tab.put (s.tile s.me.tile).ports b.port [s.nextId] } else s.tile k := by
    rw [entered.tiles, room, tile]
    unfold State.tile
    rw [tiles]
    rfl
  have wmemory : SameMemory s w := by
    refine memory.trans (.of_tables ?_ ?_ ?_ ?_ ?_ fun k => ?_)
    · have e := congrArg State.sram entered.rest; exact e
    · have e := congrArg State.hbm entered.rest; exact e
    · have e := congrArg State.hbmEpoch entered.rest; exact e
    · have e := congrArg State.sramTags entered.rest; exact e
    · have e := congrArg State.hbmTags entered.rest; exact e
    · have e := congrArg State.parts entered.rest
      have same : w.parts = v.parts := e
      unfold State.part
      rw [same]
  have units : SameUnits s w := by
    refine ⟨fun k => ?_, fun k => ?_, fun k => ?_, fun k => ?_, fun k => ?_, fun k => ?_, fun k => ?_⟩
    all_goals rw [tile']; split <;> [(subst_vars; rfl); rfl]
  have ports' : ((w.retire 0x29).tile s.me.tile).ports = (w.tile s.me.tile).ports := by
    rw [State.retire_plain w 0x29 wss, State.countEvent_tile_ports]
    rfl
  rw [run]
  refine ⟨binds' ▸ queued, ?_, ?_, fun d0 => ?_, ⟨fun r out => ?_, fun k => ?_, fun c => ?_⟩, wpc ▸ only.went, wmemory.trans only.memory, units.trans only.units⟩
  · rw [ports', tile', if_pos rfl]
    exact Tab.lookD_put_same ..
  · obtain ⟨e, listed, start⟩ := entered.due room
    exact ⟨e, w.retire_events 0x29 wss e listed, by rw [start, tile]⟩
  · rw [done, Proc.completed_pend, wme]
    unfold Proc.pended
    rw [if_neg d0]
    exact Tab.look_put_same ..
  · refine (only.regs.regs r out).trans (Proc.reg_congr ?_ _)
    rw [wme]
    exact sregs
  · refine (only.regs.caps k).trans (Proc.cap_congr ?_ _)
    rw [wme]
    exact caps
  · refine (only.regs.chans c).trans (Proc.chan_congr ?_ _)
    rw [wme]
    exact chans

/-! SCOPY (R92, R363). -/

/-- The count of a descriptor without a gather. -/
theorem mkBinding_count (s : State) (off port : Nat) (d : BitVec 5) : (s.mkBinding (descOf s off) port d none).count = descAt s off 4 / 2 ^ 32 := by
  have count : (s.mkBinding (descOf s off) port d none).count = (descOf s off).count := by
    show ((none : Option (List (Nat × Word))).map fun l => l.length).getD (descOf s off).count = _
    rw [Option.map_none, Option.getD_none]
  have bound := descAt_lt s off 4
  rw [count, Desc.count, descOf_at s off (by omega)]
  generalize descAt s off 4 = x at bound
  unfold field
  omega

theorem scopy_launches (s : State) (d a : BitVec 5) (p : BitVec 3) (off : Nat) (at_ : (s.reg a).toNat = off) (desc : PlainDesc s off) (free : s.free [a, d])
    (plain : s.plain) (quiet : NoneUnderWay s) (alone : s.binds = []) (port : Tab.lookD (s.tile s.me.tile).ports p.toNat [] = [])
    (low : 1 ≤ descAt s off 4 % 2 ^ 17) (high : descAt s off 4 % 2 ^ 17 ≤ 65536) (words : descAt s off 4 % 8 = 0) (some_ : 1 ≤ descAt s off 4 / 2 ^ 32) :
    ∃ t, exec (.scopy d a p) s = .next t ∧ Launched s t off p.toNat d.toNat none (descAt s off 4 / 2 ^ 32) ∧ SameUnits s t ∧ SameRegs s t [] := by
  obtain ⟨ss, strip, -⟩ := plain
  have bound := boundBy_mkBinding desc p.toNat d none
  have run : exec (.scopy d a p) s = .next (s.bindIssue d (s.mkBinding (descOf s off) p.toNat d none)) := by
    show execScopy d a p s = _
    unfold execScopy
    rw [State.withRegs_free _ _ _ free, State.bindStream_plain (g := none) (k := fun s => s) at_ desc (fun k open_ => by rw [strip] at open_; cases open_)
      (desc.passes (gather := false) ⟨low, high, words, some_⟩)]
  have issued := MayBind.issues (s := s) (d := d) (b := s.mkBinding (descOf s off) p.toNat d none) ⟨strip, ss, quiet, alone, port, ⟨rfl, rfl, rfl⟩, ⟨rfl, rfl⟩⟩
  obtain ⟨owner, spaces, bases, caps, strides, sector, peer, start⟩ := bound
  refine ⟨_, run, ⟨⟨_, issued.bind, ⟨owner, spaces, bases, caps, strides, sector, peer, start⟩, rfl, mkBinding_count s off p.toNat d, rfl⟩, issued.queue,
    issued.due, issued.token, fun r => issued.regs.regs r (by simp), issued.went, issued.memory⟩, issued.units, issued.regs⟩

/-- In a strip the binding is held (R151). -/
theorem scopy_held (s : State) (d a : BitVec 5) (p : BitVec 3) (off : Nat) (k : Strip) (at_ : (s.reg a).toNat = off) (desc : PlainDesc s off)
    (free : s.free [a, d]) (strip : s.me.strip = some k) (empty : k.held = []) (ss : s.me.ss = false) (low : 1 ≤ descAt s off 4 % 2 ^ 17)
    (high : descAt s off 4 % 2 ^ 17 ≤ 65536) (words : descAt s off 4 % 8 = 0) (some_ : 1 ≤ descAt s off 4 / 2 ^ 32) :
    ∃ t b, exec (.scopy d a p) s = .next t ∧ Tab.look t.binds s.nextId = some b ∧ BoundBy s off p.toNat d.toNat b ∧ b.st = .held ∧
      t.me.strip = some { k with held := [.bind s.nextId] } ∧ (∀ r, t.reg r = s.reg r) ∧ WentTo t (s.me.pc + 4) ∧ SameMemory s t := by
  have bound := boundBy_mkBinding desc p.toNat d none
  generalize made : s.mkBinding (descOf s off) p.toNat d none = b at bound
  have held : b.st = .held := by rw [← made]; rfl
  have run : exec (.scopy d a p) s = .next (({ s.fresh.1 with binds := Tab.put s.binds s.nextId b } : State).updMe (fun q =>
      { q with strip := some { k with held := [.bind s.nextId] } }) |>.retire 0x29) := by
    show execScopy d a p s = _
    unfold execScopy
    rw [State.withRegs_free _ _ _ free, State.bindStream_plain (g := none) (k := fun s => s) at_ desc (fun j open_ => by rw [strip] at open_; cases open_; exact empty)
      (desc.passes (gather := false) ⟨low, high, words, some_⟩), made]
    unfold State.bindIssue
    rw [show s.fresh.1.me.strip = some k from strip]
    dsimp only
    unfold State.holdBack
    rw [show State.me { s.fresh.1 with binds := Tab.put s.fresh.1.binds s.fresh.2 b } = s.me from rfl, strip]
    dsimp only
    rw [empty]
    rfl
  have me : (({ s.fresh.1 with binds := Tab.put s.binds s.nextId b } : State).updMe fun q => { q with strip := some { k with held := [.bind s.nextId] } }).me =
      { s.me with strip := some { k with held := [.bind s.nextId] } } := State.updMe_me ..
  have binds : (({ s.fresh.1 with binds := Tab.put s.binds s.nextId b } : State).updMe fun q => { q with strip := some { k with held := [.bind s.nextId] } }).binds =
      Tab.put s.binds s.nextId b := rfl
  have memory : SameMemory s (({ s.fresh.1 with binds := Tab.put s.binds s.nextId b } : State).updMe fun q => { q with strip := some { k with held := [.bind s.nextId] } }) :=
    .of_tables rfl rfl rfl rfl rfl fun _ => rfl
  generalize ({ s.fresh.1 with binds := Tab.put s.binds s.nextId b } : State).updMe _ = w at run me binds memory
  have wss : w.me.ss = false := by rw [me]; exact ss
  have only := w.retire_only 0x29 wss
  have done := w.retire_me 0x29 wss
  refine ⟨_, b, run, ?_, bound, held, ?_, fun r => ?_, ?_, memory.trans only.memory⟩
  · rw [State.retire_plain w 0x29 wss, State.countEvent_binds]
    show Tab.look w.binds s.nextId = some b
    rw [binds]
    exact Tab.look_put_same ..
  · rw [done, Proc.completed_strip, me]
  · refine (only.regs.regs r (by simp)).trans ?_
    unfold State.reg
    rw [me]
    rfl
  · have went := only.went
    rw [me] at went
    exact went

/-- A descriptor that is not aligned (R92 step 1). -/
theorem scopy_misaligned (s : State) (d a : BitVec 5) (p : BitVec 3) (odd : (s.reg a).toNat % 8 ≠ 0) (free : s.free [a, d]) (strip : s.me.strip = none) :
    ∃ t, exec (.scopy d a p) s = .next t ∧ Parks s t .misalign s.me.pc := by
  refine ⟨_, ?_, s.raise_parks 0x29 .misalign (FInfo.at (s.reg a).toNat) strip (by decide) (by rintro ⟨h, -⟩; cases h)⟩
  show execScopy d a p s = _
  unfold execScopy State.bindStream
  rw [State.withRegs_free _ _ _ free, if_pos odd]

/-! SBAR (R96, R362). -/

theorem sbar_waits (s : State) (p : BitVec 8) (plain : s.plain) (quiet : NoneUnderWay s) :
    ((∀ e ∈ s.binds, e.2.h = s.running → bitAt p.toNat e.2.port = false) → ∃ t, exec (.sbar p) s = .next t ∧ OnlyRegs s t [] (s.me.pc + 4)) ∧
    (∀ id b, s.binds = [(id, b)] → b.h = s.running → b.port < 8 → bitAt p.toNat b.port = true →
      ∃ t, exec (.sbar p) s = .next t ∧ t.me.pst = .blockedToken b.sd ∧ t.me.pc = s.me.pc ∧ SameRegs s t [] ∧ SameMemory s t) := by
  obtain ⟨ss, strip, -⟩ := plain
  have run : exec (.sbar p) s = .next (match s.youngest ((List.range 8).filter fun i => bitAt p.toNat i) with
      | some b => s.block (.blockedToken b.sd) 0
      | none => s.retire 0x29) := by
    show execSbar p s = _
    unfold execSbar
    rw [State.afterCommit_none _ _ strip, State.cbDrainAll_foreign quiet.buffered] <;> rfl
  rw [run]
  refine ⟨fun clear => ?_, fun id b alone own small named => ?_⟩
  · have nobody : s.youngest ((List.range 8).filter fun i => bitAt p.toNat i) = none := by
      have none_ : s.binds.filter (fun e => decide (e.2.h = s.running) && ((List.range 8).filter fun i => bitAt p.toNat i).contains e.2.port) = [] := by
        refine List.filter_eq_nil_iff.2 fun e he both => ?_
        obtain ⟨own, named⟩ := Bool.and_eq_true_iff.1 both
        have port := (List.mem_filter.1 (List.contains_iff_mem.1 named)).2
        rw [clear e he (of_decide_eq_true own)] at port
        cases port
      unfold State.youngest
      rw [none_]
      rfl
    rw [nobody]
    exact ⟨_, rfl, s.retire_only 0x29 ss⟩
  · have found : s.youngest ((List.range 8).filter fun i => bitAt p.toNat i) = some b := by
      have named' : ((List.range 8).filter fun i => bitAt p.toNat i).contains b.port = true :=
        List.contains_iff_mem.2 (List.mem_filter.2 ⟨List.mem_range.2 small, named⟩)
      unfold State.youngest
      rw [alone, List.filter_cons_of_pos (by rw [named', decide_eq_true own]; rfl)]
      rfl
    rw [found]
    refine ⟨_, rfl, ?_, ?_, s.block_sameRegs _ _, (s.block_onlyMe _ _).memory⟩
    · rw [State.block_me]; rfl
    · rw [State.block_me]; rfl

/-! SGATHER (R95, R369). -/

/-- Sign extension to 64 bits tells elements apart. -/
theorem sext64_inj {w x y : Nat} (ew : IsEw w) (hx : x < 2 ^ w) (hy : y < 2 ^ w) : sext64 w x = sext64 w y ↔ x = y := by
  refine ⟨fun same => ?_, fun same => by rw [same]⟩
  have bits := congrArg BitVec.toNat same
  unfold sext64 signedOf at bits
  rw [BitVec.toNat_ofInt, BitVec.toNat_ofInt, Nat.mod_eq_of_lt hx, Nat.mod_eq_of_lt hy] at bits
  rcases ew with rfl | rfl | rfl | rfl <;> split at bits <;> split at bits <;> omega

/-- An active position whose index came before (R369). -/
def State.gatherDup (s : State) (v : VCtx) (b : BitVec 5) (i : Nat) : Bool :=
  (s.actives v).any fun j => decide (j < i) && decide (s.elem v b j = s.elem v b i)
/-- The indices that SGATHER takes. -/
def State.gatherIx (s : State) (v : VCtx) (b : BitVec 5) : List (Nat × Word) := (s.actives v).map fun i => (i, sext64 v.ew (s.elem v b i))

/-- The duplicate mask, over the indices taken (R369). -/
def seenBefore (ix : List (Nat × Word)) (i : Nat) : Bool :=
  match ix.find? fun e => e.1 == i with
  | some (_, x) => ix.any fun e => decide (e.1 < i) && decide (e.2 = x)
  | none => false

theorem seenBefore_gatherIx (s : State) (v : VCtx) (ew : IsEw v.ew) (b : BitVec 5) (i : Nat) :
    seenBefore (s.gatherIx v b) i = (s.active v i && s.gatherDup v b i) := by
  have small (j : Nat) : s.elem v b j < 2 ^ v.ew := (s.elem_lt v b j).trans_eq ew.pow
  have found : (s.gatherIx v b).find? (fun e => e.1 == i) = if s.active v i then some (i, sext64 v.ew (s.elem v b i)) else none := by
    unfold State.gatherIx
    rw [List.find?_map]
    have listed : (s.actives v).find? ((fun e : Nat × Word => e.1 == i) ∘ fun i => (i, sext64 v.ew (s.elem v b i))) = if s.active v i then some i else none := by
      have same : ((fun e : Nat × Word => e.1 == i) ∘ fun i => (i, sext64 v.ew (s.elem v b i))) = fun j => j == i := rfl
      rw [same]
      unfold State.actives
      split
      · next active =>
        rw [List.find?_filter]
        refine List.find?_range_eq_some.2 ⟨by simp [active], List.mem_range.2 (of_decide_eq_true (Bool.and_eq_true_iff.1 active).1), fun j lt => ?_⟩
        simp [Nat.ne_of_lt lt]
      · next idle =>
        rw [List.find?_eq_none]
        intro j hj at_
        rw [beq_iff_eq] at at_
        exact idle (at_ ▸ (List.mem_filter.1 hj).2)
    rw [listed]
    split <;> rfl
  unfold seenBefore
  rw [found]
  cases active : s.active v i with
  | false => rfl
  | true =>
    simp only [if_true, Bool.true_and]
    unfold State.gatherIx State.gatherDup
    rw [List.any_map]
    congr 1
    funext j
    show (decide (j < i) && decide (sext64 v.ew (s.elem v b j) = sext64 v.ew (s.elem v b i))) = _
    rw [decide_eq_decide.2 (sext64_inj ew (small j) (small i))]

/-- What SGATHER does before its binding: its mask, and when that can be read (R95, R369). -/
def State.gatherMask (s : State) (v : VCtx) (m : Nat) (f : Nat → Bool) : State :=
  (s.putMask v m f).updMe fun p => { p with mlat := Tab.put p.mlat m (s.cycle + 8) }

/-- The work of SGATHER behind its checks. -/
def State.sgatherBody (d a b : BitVec 5) (p m : BitVec 3) (s : State) : State :=
  s.bindStream d a p.toNat (some (s.gatherIx s.vc b)) fun u => (if s.vc.lanes.isEmpty then u else u.maskWrite s.vc.h s.vc.tile
    ((List.range (s.vc.lanes.length * 32)).map fun i => (s.vc.maskKey m.toNat i, seenBefore (s.gatherIx s.vc b) i))).updMe fun q =>
      { q with mlat := Tab.put q.mlat m.toNat (u.cycle + 8) }
theorem exec_sgather (s : State) (d a b : BitVec 5) (p m : BitVec 3) :
    exec (.sgather d a b p m) s = .next (s.withRegs [a, d] (s.vectorOp 0x29 [b] (State.sgatherBody d a b p m))) := rfl

/-- SGATHER writes its mask and makes its binding (R92, R95). -/
theorem sgatherBody_issues {s : State} {d a b : BitVec 5} {p m : BitVec 3} {off : Nat} (at_ : (s.reg a).toNat = off) (plain : PlainDesc s off)
    (strip : s.me.strip = none)
    (size : descAt s off 4 % 2 ^ 17 = 1 ∨ descAt s off 4 % 2 ^ 17 = 2 ∨ descAt s off 4 % 2 ^ 17 = 4 ∨ descAt s off 4 % 2 ^ 17 = 8)
    (space : descAt s off 1 / 2 ^ 61 = 0) : s.sgatherBody d a b p m = (s.gatherMask s.vc m.toNat (s.gatherDup s.vc b)).bindIssue d
      (s.mkBinding (descOf s off) p.toNat d (some (s.gatherIx s.vc b))) := by
  unfold State.sgatherBody
  rw [State.bindStream_plain (g := some (s.gatherIx s.vc b)) at_ plain (fun k open_ => by rw [strip] at open_; cases open_) (plain.passes (gather := true) ⟨size, space⟩)]
  have bits : ((List.range (s.vc.lanes.length * 32)).map fun i => (s.vc.maskKey m.toNat i, seenBefore (s.gatherIx s.vc b) i)) =
      (List.range (s.vc.lanes.length * 32)).map fun i => (s.vc.maskKey m.toNat i, s.active s.vc i && s.gatherDup s.vc b i) :=
    List.map_congr_left fun i _ => by rw [seenBefore_gatherIx s s.vc (ewOf_isEw _) b i]
  rw [bits]
  rfl

/-- What the mask of SGATHER leaves of a process without a strip. -/
structure Masked (s u : State) (v : VCtx) (m : Nat) (f : Nat → Bool) : Prop where
  mask : PutMask s u v m f
  me : u.me.strip = s.me.strip ∧ u.me.status = s.me.status ∧ u.me.tile = s.me.tile ∧ u.me.pc = s.me.pc
  regs : SameRegs s u []
  running : u.running = s.running
  binds : u.binds = s.binds ∧ u.nextId = s.nextId
  quiet : NoneUnderWay s → NoneUnderWay u
  ports : ∀ n, (u.tile n).ports = (s.tile n).ports
  vbank : ∀ n, (u.tile n).vbank = (s.tile n).vbank
  memory : SameMemory s u

theorem State.gatherMask_masked {s : State} (strip : s.me.strip = none) (b : BitVec 5) (m : Nat) :
    Masked s (s.gatherMask s.vc m (s.gatherDup s.vc b)) s.vc m fun i => s.active s.vc i && s.gatherDup s.vc b i := by
  have mask := State.putMask_put s s.vc s.vc_ok m (s.gatherDup s.vc b)
  have written : s.putMask s.vc m (s.gatherDup s.vc b) = s ∨ ∃ g : Tile → Tile, (∀ x, (g x).ports = x.ports ∧ (g x).vbank = x.vbank ∧ (g x).cb = x.cb) ∧
      s.putMask s.vc m (s.gatherDup s.vc b) = s.updTile s.me.tile g := by
    unfold State.putMask State.maskWrite
    split
    · exact .inl rfl
    · refine .inr ⟨fun x => { x with mbank := ((List.range (s.vc.lanes.length * 32)).map fun i =>
          (s.vc.maskKey m i, s.active s.vc i && s.gatherDup s.vc b i)).foldl (fun b e => Tab.store b e.1 e.2 false) x.mbank }, fun x => ⟨rfl, rfl, rfl⟩, ?_⟩
      dsimp only
      split
      · rfl
      · next open_ =>
        have closed : s.me.strip.isNone = true := by rw [strip]; rfl
        exact absurd closed open_
  have tiles (n : Nat) : ((s.putMask s.vc m (s.gatherDup s.vc b)).tile n).ports = (s.tile n).ports ∧
      ((s.putMask s.vc m (s.gatherDup s.vc b)).tile n).vbank = (s.tile n).vbank ∧ ((s.putMask s.vc m (s.gatherDup s.vc b)).tile n).cb = (s.tile n).cb := by
    rcases written with same | ⟨g, keeps, same⟩
    · rw [same]; exact ⟨rfl, rfl, rfl⟩
    · rw [same, State.updTile_tile]
      split
      · subst_vars; exact keeps _
      · exact ⟨rfl, rfl, rfl⟩
  have kept : (s.putMask s.vc m (s.gatherDup s.vc b)).procs = s.procs ∧ (s.putMask s.vc m (s.gatherDup s.vc b)).running = s.running ∧
      (s.putMask s.vc m (s.gatherDup s.vc b)).binds = s.binds ∧ (s.putMask s.vc m (s.gatherDup s.vc b)).nextId = s.nextId ∧
      (s.putMask s.vc m (s.gatherDup s.vc b)).staged = s.staged ∧ (s.putMask s.vc m (s.gatherDup s.vc b)).reqs = s.reqs := by
    rcases written with same | ⟨g, keeps, same⟩ <;> rw [same] <;> exact ⟨rfl, rfl, rfl, rfl, rfl, rfl⟩
  have step := VecStep.putMask s s.vc rfl m (s.gatherDup s.vc b)
  unfold State.gatherMask
  generalize s.putMask s.vc m (s.gatherDup s.vc b) = w at *
  obtain ⟨procs, running, binds, nextId, staged, reqs⟩ := kept
  have me : w.me = s.me := by unfold State.me State.proc; rw [procs, running]
  have ume := State.updMe_me w fun p => { p with mlat := Tab.put p.mlat m (s.cycle + 8) }
  rw [me] at ume
  refine ⟨⟨mask.bits, mask.others⟩, ⟨by rw [ume], by rw [ume], by rw [ume], by rw [ume]⟩, .of_me (by rw [ume]) (by rw [ume]) (by rw [ume]), running,
    ⟨binds, nextId⟩, fun ⟨none_, buffered, accesses⟩ => ⟨staged.trans none_, fun e he => ?_, fun e he => ?_⟩, fun n => (tiles n).1, fun n => (tiles n).2.1,
    step.memory.trans (State.updMe_memory w _)⟩
  · rw [ume] at he
    have cb : (w.tile s.me.tile).cb = (s.tile s.me.tile).cb := (tiles _).2.2
    have listed : e ∈ (s.tile s.me.tile).cb := by
      rw [← cb]
      exact he
    exact fun own => buffered e listed (own.trans running)
  · exact running ▸ accesses e (reqs ▸ he)

/-! A descriptor as a vector instruction sees it. -/

theorem descAt_owned (s : State) (off i : Nat) : descAt s.owned off i = descAt s off i := by
  unfold descAt
  rw [← State.ofBytesLE_sramRead, ← State.ofBytesLE_sramRead, State.owned_localKey, State.owned_sramRead]
theorem descOf_owned (s : State) (off : Nat) : descOf s.owned off = descOf s off := List.map_congr_left fun i _ => descAt_owned s off i
theorem WindowBytes.owned {s : State} {a n : Nat} (w : WindowBytes s s.running a n) : WindowBytes s.owned s.owned.running a n := by
  obtain ⟨low, high, slice, kept⟩ := w
  have me : s.owned.proc s.owned.running = s.proc s.running := s.owned_me
  exact ⟨by rw [me]; exact low, by rw [me]; exact high, by rw [me, s.owned_rest.parts]; exact slice, by rw [State.owned_withdrawn]; exact kept⟩
theorem PlainDesc.owned {s : State} {off : Nat} (p : PlainDesc s off) : PlainDesc s.owned off := by
  obtain ⟨window, aligned, src, dst, sizes, rest⟩ := p
  refine ⟨window.owned, aligned, ?_, ?_, ?_, ?_⟩ <;> simp only [descAt_owned] <;> assumption

theorem sgather_launches (s : State) (d a b : BitVec 5) (p m : BitVec 3) (off : Nat) (at_ : (s.reg a).toNat = off) (desc : PlainDesc s off)
    (free : s.free [a, d]) (ready : VecReady s [b]) (strip : s.me.strip = none) (quiet : NoneUnderWay s) (alone : s.binds = [])
    (port : Tab.lookD (s.tile s.me.tile).ports p.toNat [] = [])
    (size : descAt s off 4 % 2 ^ 17 = 1 ∨ descAt s off 4 % 2 ^ 17 = 2 ∨ descAt s off 4 % 2 ^ 17 = 4 ∨ descAt s off 4 % 2 ^ 17 = 8)
    (space : descAt s off 1 / 2 ^ 61 = 0) :
    ∃ t, exec (.sgather d a b p m) s = .next t ∧
      Launched s t off p.toNat d.toNat (some ((s.actives s.vc).map fun i => (i, .ofInt 64 (signedOf s.vc.ew (s.elem s.vc b i))))) (s.actives s.vc).length ∧
      PutMask s t s.vc m.toNat (fun i => s.active s.vc i && (s.actives s.vc).any fun j => decide (j < i) && decide (s.elem s.vc b j = s.elem s.vc b i)) ∧
      SameVec s t := by
  have me := s.owned_me
  have running := s.owned_running
  have offTiles := s.owned_offTiles
  have binds : s.owned.binds = s.binds := by have e := congrArg State.binds offTiles; exact e
  have nextId : s.owned.nextId = s.nextId := by have e := congrArg State.nextId offTiles; exact e
  have ports (n : Nat) : (s.owned.tile n).ports = (s.tile n).ports := by
    obtain ⟨o, tile, -⟩ := s.owned_tile n
    rw [tile]
  have body := sgatherBody_issues (s := s.owned) (d := d) (b := b) (p := p) (m := m) (by rw [State.owned_reg]; exact at_) desc.owned (by rw [me]; exact strip)
    (by rw [descAt_owned]; exact size) (by rw [descAt_owned]; exact space)
  have dup : s.owned.gatherDup s.owned.vc b = s.gatherDup s.vc b := by
    funext i
    simp only [State.gatherDup, State.owned_vc, State.owned_actives, State.owned_elem]
  have ix : s.owned.gatherIx s.owned.vc b = s.gatherIx s.vc b := by simp only [State.gatherIx, State.owned_vc, State.owned_actives, State.owned_elem]
  have made : s.owned.mkBinding (descOf s off) p.toNat d (some (s.gatherIx s.vc b)) = s.mkBinding (descOf s off) p.toNat d (some (s.gatherIx s.vc b)) := by
    unfold State.mkBinding
    rw [me, running]
  have masked := State.gatherMask_masked (s := s.owned) (by rw [me]; exact strip) b m.toNat
  rw [descOf_owned, ix, made] at body
  rw [dup] at body masked
  rw [State.owned_vc] at body masked
  generalize s.owned.gatherMask s.vc m.toNat (s.gatherDup s.vc b) = u at body masked
  obtain ⟨mask, ⟨ustrip, ustatus, utile, upc⟩, regs, urunning, ⟨ubinds, unext⟩, uquiet, uports, uvbank, umemory⟩ := masked
  rw [me] at ustrip ustatus utile upc
  have may : MayBind u d (s.mkBinding (descOf s off) p.toNat d (some (s.gatherIx s.vc b))) := by
    refine ⟨ustrip.trans strip, ?_, uquiet quiet.owned, ubinds.trans (binds.trans alone), ?_, ⟨?_, utile.symm, rfl⟩, rfl, rfl⟩
    · unfold Proc.ss
      rw [ustatus]
      exact ready.step
    · rw [utile, uports, ports]
      exact port
    · rw [urunning, running]
      rfl
  have bound := boundBy_mkBinding desc p.toNat d (some (s.gatherIx s.vc b))
  have count : (s.mkBinding (descOf s off) p.toNat d (some (s.gatherIx s.vc b))).count = (s.actives s.vc).length := List.length_map _
  have portOf : (s.mkBinding (descOf s off) p.toNat d (some (s.gatherIx s.vc b))).port = p.toNat := rfl
  have gather : (s.mkBinding (descOf s off) p.toNat d (some (s.gatherIx s.vc b))).gather = some (s.gatherIx s.vc b) := rfl
  generalize s.mkBinding (descOf s off) p.toNat d (some (s.gatherIx s.vc b)) = c at body may bound count portOf gather
  obtain ⟨bind, queue, due, token, kept, went, memory, units⟩ := may.issues
  rw [← body] at bind queue due token kept went memory units
  have run : exec (.sgather d a b p m) s = .next (State.sgatherBody d a b p m s.owned) := by
    rw [exec_sgather, State.withRegs_free _ _ _ free, State.vectorOp_ready _ _ _ _ ready (by rw [went.ready]; decide)]
  generalize State.sgatherBody d a b p m s.owned = t at bind queue due token kept went memory units run
  rw [unext, nextId] at bind queue token
  rw [utile, portOf] at queue due
  rw [upc] at went
  obtain ⟨owner, spaces, bases, caps, strides, sector, peer, start⟩ := bound
  refine ⟨t, run, ⟨⟨_, bind, ⟨owner, spaces, bases, caps, strides, sector, peer, start⟩, rfl, count, gather⟩, queue, due, token, fun r => ?_, went,
    (s.owned_memory.trans umemory).trans memory⟩, ⟨fun i hi => ?_, fun n k out => ?_⟩, fun n k => ?_⟩
  · rw [kept.regs r (by simp), regs.regs r (by simp), State.owned_reg]
  · have bit : t.maskBit s.vc m.toNat i = u.maskBit s.vc m.toNat i := by unfold State.maskBit; rw [units.mbank]
    rw [bit, mask.bits i hi, State.owned_active]
    rfl
  · obtain ⟨o, tile, -⟩ := s.owned_tile n
    rw [units.mbank, mask.others n k out, tile]
  · obtain ⟨o, tile, -⟩ := s.owned_tile n
    rw [units.vbank, uvbank, tile]

/-- Settles O37: the stream instructions bind, wait and fault as R92, R95 and R96 say, and the steps of a port start a binding, copy a LOCAL sector,
end the binding and take a held one. -/
theorem streamResult : Obligations.StreamResult := by
  unfold Obligations.StreamResult
  refine ⟨fun s d a p off at_ desc free plain quiet alone port low high words some_ =>
      scopy_launches s d a p off at_ desc free plain quiet alone port low high words some_,
    fun s d a p off k at_ desc free strip empty ss low high words some_ =>
      scopy_held s d a p off k at_ desc free strip empty ss low high words some_,
    fun s d a b p m off at_ desc free ready strip quiet alone port _ size space =>
      sgather_launches s d a b p m off at_ desc free ready strip quiet alone port size space,
    sbar_waits, scopy_misaligned,
    fun s tile port id b head queued copies => stream_starts head queued copies,
    fun s port id b a d n copies => stream_copies copies,
    fun s tile port id b head running none_ still sd mine _ staged alone _ => ?_,
    fun s h port id b l held first known owner own room ss => held_enqueues held first known owner own room ss⟩
  exact stream_completes head running none_ still sd mine staged alone

end Sys2Proof.Machine
end
